-- ==== Sys2Proof/Word.lean ====
section
/-! DEFINITION. The word types of the machine and the plainest helpers over them: the fields of R7, the
little-endian byte order of R6. -/

namespace Sys2Proof

/-- A byte of any store. -/
abbrev Byte := BitVec 8
/-- A 16-bit value. -/
abbrev Half := BitVec 16
/-- A 32-bit lane, cell or FMT word. -/
abbrev Lane := BitVec 32
/-- A 64-bit register. -/
abbrev Word := BitVec 64

/-- `x[lo+len-1 : lo]` of a number (R7). -/
def bitsOf (x lo len : Nat) : Nat := (x >>> lo) % 2 ^ len

/-- One bit of a number (R7). -/
def bitOf (x i : Nat) : Bool := x.testBit i

/-- The two's-complement value of the low `w` bits of `x`. -/
def sextNat (w x : Nat) : Int :=
  let y := x % 2 ^ w
  if 2 * y < 2 ^ w then (y : Int) else (y : Int) - (2 ^ w : Nat)

/-- The low `w` bits of an integer, as a number (R10: `mod` is in [0, m)). -/
def wrapInt (w : Nat) (i : Int) : Nat := (i % ((2 ^ w : Nat) : Int)).toNat

/-- `n` little-endian bytes of a number (R6). -/
def toBytes : Nat → Nat → List Byte
  | 0, _ => []
  | n + 1, x => BitVec.ofNat 8 x :: toBytes n (x / 256)

/-- The number that a little-endian list of bytes holds (R6). -/
def ofBytes : List Byte → Nat
  | [] => 0
  | b :: bs => b.toNat + 256 * ofBytes bs

/-- Least multiple of `k` that is at or above `n`. -/
def alignUp (n k : Nat) : Nat := (n + k - 1) / k * k

/-- Quotient rounded up. -/
def ceilDiv (n k : Nat) : Nat := (n + k - 1) / k

/-- `n`, `n + 1`, …: `k` numbers. -/
def numbersFrom (n k : Nat) : List Nat := (List.range k).map (n + ·)

end Sys2Proof
end

