-- ==== Sys2Proof/Machine/Crypto.lean ====
section
/-! DEFINITION. AES-256 in XTS mode over 64-byte units (R99): what a read returns when the key slot holds another key
than the one under which the unit was written; and the CRC-32C and CRC-64 of R47, R249, R369 and R379. -/

namespace Sys2Proof.Machine

open Sys2Proof

/-! ## AES-256 -/

/-- Doubling in the field of AES. -/
def gfDouble (a : Byte) : Byte := (a <<< 1) ^^^ (if a.getLsbD 7 then 0x1B else 0)

/-- Product in the field of AES, by the bits of `b` from the top. -/
def gfMul (a b : Byte) : Byte :=
  (List.range 8).foldl (fun acc i => gfDouble acc ^^^ (if b.getLsbD (7 - i) then a else 0)) 0

/-- `a` to the power 254: the inverse, 0 for 0. -/
def gfInv (a : Byte) : Byte :=
  -- 254 = 0b11111110
  (List.range 7).foldl (fun acc _ => gfMul (gfMul acc acc) a) 1 |> fun x => gfMul x x

/-- The S-box. -/
def sbox (a : Byte) : Byte :=
  let x := gfInv a
  x ^^^ x.rotateLeft 1 ^^^ x.rotateLeft 2 ^^^ x.rotateLeft 3 ^^^ x.rotateLeft 4 ^^^ 0x63

/-- The inverse S-box. -/
def sboxInv (a : Byte) : Byte :=
  gfInv (a.rotateLeft 1 ^^^ a.rotateLeft 3 ^^^ a.rotateLeft 6 ^^^ 0x05)

/-- Bytes combined one by one. -/
def xorBytes (a b : List Byte) : List Byte := List.zipWith (· ^^^ ·) a b

/-- The round constants. -/
def rcon (i : Nat) : Byte := (List.range i).foldl (fun a _ => gfDouble a) 1

/-- The key schedule: 60 words of 4 bytes, built from the 8 words of the key. -/
def expandKey (key : List Byte) : Nat → List (List Byte) → List (List Byte)
  | 0, ws => ws
  | n + 1, ws =>
    let i := ws.length
    let prev := ws.getLastD []
    let t :=
      if i % 8 = 0 then xorBytes ((prev.drop 1 ++ prev.take 1).map sbox) [rcon (i / 8 - 1), 0, 0, 0]
      else if i % 8 = 4 then prev.map sbox else prev
    expandKey key n (ws ++ [xorBytes (ws.getD (i - 8) []) t])

/-- The words of a 32-byte key. -/
def keyWords (key : List Byte) : List (List Byte) := (List.range 8).map fun i => (key.drop (4 * i)).take 4

/-- The 16 bytes of round key `r`. -/
def roundKey (ws : List (List Byte)) (r : Nat) : List Byte := ((ws.drop (4 * r)).take 4).flatten

/-- ShiftRows, or its inverse, on a block in column order. -/
def shiftRows (inv : Bool) (b : List Byte) : List Byte :=
  (List.range 16).map fun i =>
    let r := i % 4
    let c := i / 4
    b.getD (4 * ((c + (if inv then 4 - r else r)) % 4) + r) 0

/-- MixColumns with the coefficients of its first row. -/
def mixColumns (k : List Byte) (b : List Byte) : List Byte :=
  (List.range 16).map fun i =>
    let r := i % 4
    let c := i / 4
    (List.range 4).foldl (fun acc j => acc ^^^ gfMul (k.getD ((j + 4 - r) % 4) 0) (b.getD (4 * c + j) 0)) 0

/-- AES-256 encryption of a block. -/
def aesEncrypt (ws : List (List Byte)) (b : List Byte) : List Byte :=
  let b := (List.range 13).foldl (fun b i =>
    xorBytes (mixColumns [2, 3, 1, 1] (shiftRows false (b.map sbox))) (roundKey ws (i + 1))) (xorBytes b (roundKey ws 0))
  xorBytes (shiftRows false (b.map sbox)) (roundKey ws 14)

/-- AES-256 decryption of a block. -/
def aesDecrypt (ws : List (List Byte)) (b : List Byte) : List Byte :=
  let b := (List.range 13).foldl (fun b i =>
    mixColumns [14, 11, 13, 9] (xorBytes ((shiftRows true b).map sboxInv) (roundKey ws (13 - i))))
    (xorBytes b (roundKey ws 14))
  xorBytes ((shiftRows true b).map sboxInv) (roundKey ws 0)

/-! ## XTS (R99) -/

/-- The tweak of the next block: doubled in the field of XTS, little-endian. -/
def nextTweak (t : List Byte) : List Byte :=
  let n := ofBytes t
  toBytes 16 ((2 * n) % 2 ^ 128 ^^^ (if n < 2 ^ 127 then 0 else 0x87))

/-- One unit of four blocks under the block function `f`. -/
def xtsBlocks (f : List Byte → List Byte) : Nat → List Byte → List Byte → List Byte
  | 0, _, _ => []
  | n + 1, t, d => xorBytes (f (xorBytes (d.take 16) t)) t ++ xtsBlocks f n (nextTweak t) (d.drop 16)

/-- The two AES keys of a 512-bit key: the data key in its low half, the tweak key above (log entry 12, PRESUMED). -/
def xtsKeys (key : BitVec 512) : List (List Byte) × List (List Byte) :=
  let b := toBytes 64 key.toNat
  let ex (k : List Byte) := expandKey k 52 (keyWords k)
  (ex (b.take 32), ex (b.drop 32))

/-- The ciphertext of a unit whose physical address divided by 64 is `unit`. -/
def xtsEncrypt (key : BitVec 512) (unit : Nat) (d : List Byte) : List Byte :=
  let (k1, k2) := xtsKeys key
  xtsBlocks (aesEncrypt k1) 4 (aesEncrypt k2 (toBytes 16 unit)) d

/-- The plaintext of a unit. -/
def xtsDecrypt (key : BitVec 512) (unit : Nat) (d : List Byte) : List Byte :=
  let (k1, k2) := xtsKeys key
  xtsBlocks (aesDecrypt k1) 4 (aesEncrypt k2 (toBytes 16 unit)) d

/-- R99: what a unit written under `old` reads as under `new`. (Log entry 12, PRESUMED.) -/
def rekey (old new : BitVec 512) (unit : Nat) (d : List Byte) : List Byte := xtsDecrypt new unit (xtsEncrypt old unit d)

/-! ## CRCs -/

/-- CRC-32C of bytes: reflected polynomial `0x82F6_3B78`, initial value and final XOR all ones. -/
def crc32c (d : List Byte) : BitVec 32 :=
  ~~~(d.foldl (fun (c : BitVec 32) (b : Byte) =>
    (List.range 8).foldl (fun (c : BitVec 32) _ => (c >>> 1) ^^^ (if c.getLsbD 0 then 0x82F63B78 else 0))
      (c ^^^ b.setWidth 32)) 0xFFFFFFFF)

/-- R369: CRC-64 with the ECMA-182 polynomial, initial value 0, no reflection and no final XOR. -/
def crc64 (d : List Byte) : Word :=
  d.foldl (fun (c : Word) (b : Byte) =>
    (List.range 8).foldl (fun (c : Word) _ => (c <<< 1) ^^^ (if c.getLsbD 63 then 0x42F0E1EBA9EA3693 else 0))
      (c ^^^ (b.setWidth 64 <<< 56))) 0

end Sys2Proof.Machine
end

