-- ==== Sys2Proof/Config.lean ====
section
/-! DEFINITION. What is fixed for the machine: the figures of R15 and R17 that the model uses, and the free
values (log entry 5, DESIGN CHOICE), which the spec leaves open and which no proof can see. -/

namespace Sys2Proof

/-- Dies of the package (R15). -/
def Config.dies : Nat := 4
/-- Crews of a die (R15). -/
def Config.crewsPerDie : Nat := 32
/-- Scratchpad bytes of a tile (R161). -/
def Config.scratchBytes : Nat := 1048576
/-- Bytes of IMEM and of each command store (R142). -/
def Config.storeBytes : Nat := 65536
/-- Signal words of a package (R286). -/
def Config.signalWords : Nat := 131072
/-- Cycles from an sc operation's position to its performance at the home (R297). -/
def Config.scDelay : Nat := 512
/-- Cycles from the issue of a Cox word to the departure of its request (R261). -/
def Config.checkerLag : Nat := 6
/-- Bytes of one operand slot (R211). -/
def Config.slotBytes : Nat := 32768

/-- FREE VALUE (log entry 5, DESIGN CHOICE): an undefined accumulator cell (R332, R373); the argument is `State.fresh`. -/
opaque Config.freeCell : Nat → Lane
/-- FREE VALUE (log entry 5, DESIGN CHOICE): a choice between two outcomes that the spec allows (R96, R98). -/
opaque Config.freeBool : Nat → Bool
/-- FREE VALUE (log entry 6, DESIGN CHOICE): the page-aligned place that the allocator prefers for new pages (R86, R92). -/
opaque Config.freePlace : Nat → Nat
/-- FREE VALUE (log entry 7, DESIGN CHOICE): the handle that IMGHANDLE reads for a registered image (R393). -/
opaque Config.freeHandle : Nat → Nat
/-- FREE VALUE (log entry 20, DESIGN CHOICE): the ring slot fetched after RBASE or LOG2 was written below a waiting record (R390). -/
opaque Config.freeSlot : Nat → Nat
/-- FREE VALUE (log entry 47, DESIGN CHOICE): how many older replicas stay when one enters a replica cache (R71). -/
opaque Config.freeKept : Nat → Nat

end Sys2Proof
end

