-- ==== Sys2Proof/Syntax.lean ====
section
/-! DEFINITION. The instructions of the module: the words of the five Belpol streams (R48, R64), the step words
of the communication processors (R240), and the events of the device that spec/opcode_table.json lists, each with
the unit it happens at and the inputs of the outside world it carries. -/

namespace Sys2Proof

/-! ## Units -/

/-- A package tile, 128·d + 4·c + k (R17). -/
abbrev TileId := Fin 512
/-- A package crew, 32·d + c (R17). -/
abbrev CrewId := Fin 128
/-- A compute die (R17). -/
abbrev DieId := Fin 4
/-- A memory home, 2·d + h (R21). -/
abbrev HomeId := Fin 8
/-- A communication processor, 8·d + p (R227, R230). -/
abbrev CpId := Fin 32
/-- A launch queue of a die (R311). -/
abbrev QueueId := Fin 64

/-- The four engines of a tile, in the order L, V, M, S of R37. -/
inductive Eng where
  | l | v | m | s
deriving DecidableEq, Repr

/-- The five streams of Belpol words (R48). -/
inductive Stream where
  | cox | l | v | m | s
deriving DecidableEq, Repr

/-! ## Codes shared by the maps (R54) -/

/-- Access width in bytes 1, 2, 4, 8. -/
inductive Width where
  | b1 | b2 | b4 | b8
deriving DecidableEq, Repr

/-- An integer memory type: `.i8`–`.i64` (signed) or `.n8`–`.n64` (R54). -/
structure MemTy where
  width : Width
  signed : Bool
deriving DecidableEq, Repr

/-- Conditions (R54). -/
inductive Cond where
  | eq | ne | lt | le | gt | ge | ltn | len | gtn | gen
deriving DecidableEq, Repr

/-- Orders (R54). -/
inductive Order where
  | rlx | acq | rel | ar | sc
deriving DecidableEq, Repr

/-- Scopes (R54, R285). -/
inductive Scope where
  | tile | gang | die | pkg | dom
deriving DecidableEq, Repr

/-- Rounding modes (R110). -/
inductive Rm where
  | rne | rtz | rup | rdn | rneSat | rtzSat
deriving DecidableEq, Repr

/-- The FP types of the vector engine (R185). -/
inductive FpTy where
  | f32 | bf16 | f16
deriving DecidableEq, Repr

/-- The 32-bit integer types of a lane: `.i32` (signed) and `.n32` (R187). -/
inductive IntTy where
  | i32 | n32
deriving DecidableEq, Repr

/-- A lane type of `VCMP`, `VRED` and `VSCAN` (R188, R194). -/
inductive LaneTy where
  | fp (t : FpTy) | int (t : IntTy)
deriving DecidableEq, Repr

/-- The types `VCVT` names on either side (R191). -/
inductive CvtTy where
  | f32 | bf16 | f16 | nf | i8 | i16 | i32 | n8 | n16 | n32
deriving DecidableEq, Repr

/-- The operations of `PLOG` and `VPLOG` (R190, R267). -/
inductive LogOp where
  | and | or | xor | andn | orn | xnor
deriving DecidableEq, Repr

/-- The operations of the atomic words, without compare-and-swap (R270, R288). -/
inductive AtomOp where
  | add | swap | max | min | and | or
deriving DecidableEq, Repr

/-- The type of a `SATOM`: none, `.i64` or `.n64` (R288). -/
inductive AtomTy where
  | none | i64 | n64
deriving DecidableEq, Repr

/-- The operand types of `ADDA` (R79). -/
inductive AddTy where
  | f32 | bf16 | f16 | i64
deriving DecidableEq, Repr

/-- The roles of role space (R68). -/
inductive Role where
  | i | s | a
deriving DecidableEq, Repr

/-- The arithmetic reductions (R194). -/
inductive RedArith where
  | add | max | min
deriving DecidableEq, Repr

/-- The logic reductions (R194). -/
inductive RedLogic where
  | and | or | xor
deriving DecidableEq, Repr

/-- The operation of `VRED` and `VSCAN` (R194): arithmetic ones take a type and a rounding mode. -/
inductive RedOp where
  | arith (op : RedArith) (ty : LaneTy) (rm : Rm)
  | logic (op : RedLogic)
deriving DecidableEq, Repr

/-- The kinds of trellis-coded block (R119). -/
inductive TcKind where
  | tc1 | tc15
deriving DecidableEq, Repr

/-! ## Operands of cox words -/

/-- A cox guard: `p`, inverted when `neg` (R55). -/
structure CGuard where
  p : Fin 16
  neg : Bool
deriving DecidableEq, Repr

/-- A cox source of class 00, 10 or 11 (R263): a register, the response FIFO, or the immediate. -/
inductive Src where
  | x (r : Fin 64)
  | rf
  | imm (i : BitVec 32)
deriving DecidableEq, Repr

/-- A cox source of class 00 or 10. -/
inductive XRf where
  | x (r : Fin 64)
  | rf
deriving DecidableEq, Repr

/-- A cox source of class 00 or 11 (R277). -/
inductive XImm where
  | x (r : Fin 64)
  | imm (i : BitVec 32)
deriving DecidableEq, Repr

/-- `op xd, a, b` (R264). -/
structure Alu3 where
  g : CGuard
  d : Fin 64
  a : Src
  b : Src
deriving DecidableEq, Repr

/-- `op xd, a` (R264). -/
structure Alu1 where
  g : CGuard
  d : Fin 64
  a : Src
deriving DecidableEq, Repr

/-- `sext.t`, `zext.t`: `w` is 1, 2 or 4 bytes (R264). -/
structure ExtOp where
  g : CGuard
  d : Fin 64
  a : Src
  w : Width
deriving DecidableEq, Repr

/-- `lih xd, a, imm` (R264). -/
structure LihOp where
  g : CGuard
  d : Fin 64
  a : XRf
  imm : BitVec 32
deriving DecidableEq, Repr

/-- `sel xd, a, b, pc` (R264). -/
structure SelOp where
  g : CGuard
  d : Fin 64
  a : Src
  b : Src
  c : Fin 16
deriving DecidableEq, Repr

/-- `cmp.cc pd, a, b` (R266). -/
structure CmpOp where
  g : CGuard
  d : Fin 16
  cc : Cond
  a : Src
  b : Src
deriving DecidableEq, Repr

/-- `plog pd, pa, pb, op` (R267). -/
structure PlogOp where
  g : CGuard
  d : Fin 16
  a : Fin 16
  b : Fin 16
  op : LogOp
deriving DecidableEq, Repr

/-- `[xa + off]` with its type (R269, R76). -/
structure MemOp where
  g : CGuard
  a : Fin 64
  off : BitVec 32
  ty : MemTy
deriving DecidableEq, Repr

/-- A Signal word operand: `xa` plus a 25-bit offset at a scope (R288). -/
structure SigOp where
  g : CGuard
  a : Fin 64
  ord : Order
  sc : Scope
  off : BitVec 25
deriving DecidableEq, Repr

/-- The operation of a `SATOM` (R288): `cas` names its C operand. -/
inductive SatOp where
  | op (o : AtomOp)
  | cas (c : XRf)
deriving DecidableEq, Repr

/-- The budget operand of `EXEC` (R273). -/
inductive Budget where
  | imm (n : BitVec 20)
  | reg (r : Fin 64)
deriving DecidableEq, Repr

/-- `exec.e xd, sec, budget, xa, xb` (R273). -/
structure ExecOp where
  g : CGuard
  e : Eng
  d : Fin 64
  sec : BitVec 12
  budget : Budget
  a : Fin 64
  b : Fin 64
deriving DecidableEq, Repr

/-- `recast xa, xb, xc, role` with its options (R80). -/
structure RecastOp where
  g : CGuard
  a : Fin 64
  b : Fin 64
  c : Fin 64
  role : Role
  fresh : Bool
  sig : Option (BitVec 17)
deriving DecidableEq, Repr

/-! ## Operands of engine words -/

/-- The token fields of an engine word (R37, R56). -/
structure Tok where
  pop : Option Eng
  push : Option Eng
deriving DecidableEq, Repr

/-- A V guard (R55). -/
structure VGuard where
  k : Fin 64
  neg : Bool
deriving DecidableEq, Repr

/-- A V source of classes V, P, S or # (R185). -/
inductive VSrc where
  | v (r : Fin 64)
  | ip (p : Fin 8)
  | s (n : Fin 4)
  | imm (i : BitVec 32)
deriving DecidableEq, Repr

/-- A V source of classes V or P. -/
inductive VP where
  | v (r : Fin 64)
  | ip (p : Fin 8)
deriving DecidableEq, Repr

/-- A V source of classes V, S or # (R197). -/
inductive VSI where
  | v (r : Fin 64)
  | s (n : Fin 4)
  | imm (i : BitVec 32)
deriving DecidableEq, Repr

/-- A V destination of classes V or O (R185). -/
inductive VDst where
  | v (r : Fin 64)
  | op (p : Fin 4)
deriving DecidableEq, Repr

/-- The guard and tokens that every V word has. -/
structure VHead where
  g : VGuard
  tok : Tok
deriving DecidableEq, Repr

/-- An FP word of one source (R185). -/
structure VFp1 where
  h : VHead
  d : VDst
  a : VSrc
  ty : FpTy
  rm : Rm
deriving DecidableEq, Repr

/-- An FP word of two sources (R185). -/
structure VFp2 where
  h : VHead
  d : VDst
  a : VSrc
  b : VSrc
  ty : FpTy
  rm : Rm
deriving DecidableEq, Repr

/-- An FP word of three sources (R185). -/
structure VFp3 where
  h : VHead
  d : VDst
  a : VSrc
  b : VSrc
  c : VSrc
  ty : FpTy
  rm : Rm
deriving DecidableEq, Repr

/-- An integer word with a type (R187). -/
structure VInt2 where
  h : VHead
  d : VDst
  a : VSrc
  b : VSrc
  ty : IntTy
deriving DecidableEq, Repr

/-- A logic or shift word (R187). -/
structure VLog2 where
  h : VHead
  d : VDst
  a : VSrc
  b : VSrc
deriving DecidableEq, Repr

/-- `vcmp.cc.t kd, a, b` (R188). -/
structure VCmpOp where
  h : VHead
  d : Fin 64
  cc : Cond
  ty : LaneTy
  a : VSrc
  b : VSrc
deriving DecidableEq, Repr

/-- `vcvt.t.rm vd, a, from` (R191): `fmt` stands for IMM when a side is `.nf`, otherwise zero. -/
structure VCvtOp where
  h : VHead
  d : VDst
  a : VSrc
  src : CvtTy
  dst : CvtTy
  rm : Rm
  fmt : BitVec 32
deriving DecidableEq, Repr

/-- `vred`, `vscan` (R194). -/
structure VRedOp where
  h : VHead
  d : Fin 64
  a : VP
  op : RedOp
deriving DecidableEq, Repr

/-- A port word (R174): ports 0–11. -/
structure PortOp where
  tok : Tok
  port : Fin 12
deriving DecidableEq, Repr

/-- The element base of an L or S command (R127). -/
inductive ElemBase where
  | none | arga | argb
deriving DecidableEq, Repr

/-- The operands common to L and S commands that name an element (R127): MODE, INDEX, the start time when TIMED,
and the rounding mode. -/
structure ElemOp where
  tok : Tok
  base : ElemBase
  index : BitVec 14
  timed : Option (BitVec 32)
  rm : Rm
deriving DecidableEq, Repr

/-- The operands of the signal forms `CSIG` and `CWAIT` (R128). -/
structure CSigOp where
  tok : Tok
  ord : Order
  sc : Scope
  useArg : Bool
  n : BitVec 8
  w : BitVec 17
deriving DecidableEq, Repr

/-- The operands of a multiply command (R217). -/
structure MmaOp where
  tok : Tok
  bank : Fin 32
  sa : Fin 32
  sb : Fin 32
  k1 : BitVec 7
  aoff : BitVec 7
  boff : BitVec 7
deriving DecidableEq, Repr

/-! ## Step words (R240) -/

/-- Peer modes (R242). -/
inductive PeerMode where
  | up | down | xor
deriving DecidableEq, Repr

/-- `SEND`, `RECV` and `RRS` (R240); fields an opcode reserves are absent from its constructor. -/
structure DataStep where
  pm : PeerMode
  f1 : Fin 4
  nel1 : BitVec 14
  k : BitVec 8
  off : BitVec 20
deriving DecidableEq, Repr

/-! ## Inputs that events carry -/

/-- What the check of an access found (R353): an input of the event, since errors come from outside. -/
inductive Check where
  | good
  | single (bit : Fin 64)
  | double
  /-- A residue mismatch of the Eight (R357) or of a vector FP result (R358); no other access has such a check, and takes it
  as good. -/
  | residue
deriving DecidableEq, Repr

/-- The landing of a port push of a tile, with what its check found (R169, R353). -/
structure PushLand where
  tile : TileId
  chk : Check
deriving DecidableEq, Repr

/-- What the firmware that a boot fetched gives: the communication processors with valid firmware, and its version (R230,
R394, R395). -/
structure Firmware where
  cps : BitVec 32
  version : BitVec 32
deriving DecidableEq, Repr

/-- What a Signal operation does to its word (R290). -/
inductive SigAct where
  | read
  | write (v : Word)
  | atom (op : AtomOp) (signed : Bool) (b : Word)
  | cas (b : Word) (c : Word)
deriving DecidableEq, Repr

/-- A Signal operation as it reaches its home (R287). -/
structure SigAccess where
  word : BitVec 17
  ord : Order
  sc : Scope
  act : SigAct
deriving DecidableEq, Repr

/-- The body of a fabric packet (R229). -/
inductive PacketBody where
  /-- A message: group, generation, source and target rank, the target's processor (R242), its number among those from
  source to target (R243), FMT word, count and data. -/
  | message (g : Fin 4096) (gen : Fin 16) (src dst : Nat) (cp : CpId) (no : Nat) (fmt : BitVec 32) (count : Nat) (data : List Byte)
  | flag (acc : SigAccess)
  | launch (bytes : List Byte)
  | notice (g : Fin 4096) (gen : Fin 16) (code : Byte) (origin : Nat)
deriving DecidableEq, Repr

/-- A fabric packet with its source, destination and sequence number (R247). -/
structure Packet where
  src : Byte
  dst : Byte
  seq : BitVec 32
  body : PacketBody
deriving DecidableEq, Repr

/-- The registers of the window that have no behaviour of their own when written (R389). -/
inductive WinReg where
  | savePool | shadowPool | bhctl
  | qctl (d : DieId) (q : QueueId)
  | rbase (d : DieId) (q : QueueId)
  | rctl (d : DieId) (q : QueueId)
  | mcctl (d : DieId) (b : Fin 48)
  | mcst (d : DieId) (b : Fin 48)
  | stctl (d : DieId)
  | devctl
deriving DecidableEq, Repr

/-! ## The instructions -/

/-- One constructor per row of spec/opcode_table.json. -/
inductive Instr where
  -- cox integer words (R264, R265)
  | add (o : Alu3) | sub (o : Alu3) | mul (o : Alu3) | mulh (o : Alu3) | mulhn (o : Alu3)
  | div (o : Alu3) | divn (o : Alu3) | rem (o : Alu3) | remn (o : Alu3)
  | and (o : Alu3) | or (o : Alu3) | xor (o : Alu3) | andn (o : Alu3)
  | shl (o : Alu3) | shr (o : Alu3) | sra (o : Alu3) | rot (o : Alu3)
  | clz (o : Alu1) | ctz (o : Alu1) | popc (o : Alu1)
  | min (o : Alu3) | max (o : Alu3) | minn (o : Alu3) | maxn (o : Alu3)
  | sext (o : ExtOp) | zext (o : ExtOp)
  | li (g : CGuard) (d : Fin 64) (imm : BitVec 32)
  | lih (o : LihOp)
  | sel (o : SelOp)
  -- compare and predicates (R266 to R268)
  | cmp (o : CmpOp)
  | plog (o : PlogOp)
  | pmovPP (g : CGuard) (d a : Fin 16)
  | pmovPX (g : CGuard) (d : Fin 16) (a : Src)
  | pmovXP (g : CGuard) (d : Fin 64) (a : Fin 16)
  | pmovXPall (g : CGuard) (d : Fin 64)
  | pmovPallX (g : CGuard) (a : Fin 64)
  -- scratchpad loads and stores (R269, R270)
  | ld (o : MemOp) (d : Fin 64)
  | ldFifo (o : MemOp)
  | st (o : MemOp) (b : XRf)
  | stAtomic (g : CGuard) (a : Fin 64) (off : BitVec 32) (signed : Bool) (op : AtomOp) (b : XRf)
  | stCas (g : CGuard) (a : Fin 64) (off : BitVec 32) (signed : Bool) (b : XRf) (c : Fin 64)
  -- role space (R74)
  | ldi (o : MemOp)
  | ldiTouch (o : MemOp) (toP : Bool)
  | lds (g : CGuard) (a : Fin 64) (seg : Fin 8)
  | ldsTouch (g : CGuard) (a : Fin 64) (seg : Fin 8) (toP : Bool)
  | sts (g : CGuard) (a b : Fin 64) (seg : Fin 8)
  | close (g : CGuard) (a : Fin 64) (seg : Fin 8)
  | adda (g : CGuard) (a b c : Fin 64) (ty : AddTy)
  -- Signal words and FENCE (R288, R298)
  | sld (o : SigOp)
  | sst (o : SigOp) (b : XRf)
  | satom (o : SigOp) (ty : AtomTy) (op : SatOp) (b : XRf)
  | fence (sc : Scope)
  -- control flow (R271)
  | br (g : CGuard) (imm : BitVec 32)
  | brl (g : CGuard) (d : Fin 64) (imm : BitVec 32)
  | jr (g : CGuard) (a : Fin 64)
  | ret (g : CGuard) (a : Fin 64)
  | bct (g : CGuard) (a : Fin 64) (imm : BitVec 32)
  | region (g : CGuard)
  -- queues (R273 to R275)
  | exec (o : ExecOp)
  | waitq (g : CGuard) (e : Eng) (a : Src)
  | waitb (g : CGuard) (a : Src)
  | qstat (g : CGuard) (d : Fin 64) (e : Option Eng)
  -- matrix resources (R277)
  | mlease (g : CGuard) (n : Fin 128) (tb : BitVec 25)
  | mfree (g : CGuard)
  | acalloc (g : CGuard) (d : Fin 16) (a : XImm)
  | acown (g : CGuard) (a b : XImm)
  | acfree (g : CGuard) (a : XImm)
  | osclaim (g : CGuard) (d : Fin 16) (a : XImm)
  | osrel (g : CGuard) (a : XImm)
  -- extents (R74)
  | extnew (g : CGuard) (a : Fin 64) (acap : Bool)
  | recast (o : RecastOp)
  | extq (g : CGuard) (a : Fin 64) (seg : Fin 8) (field : Byte)
  | extfree (g : CGuard) (a : Fin 64)
  -- launches (R319, R322, R323)
  | launch (g : CGuard) (pd : Fin 16) (xd : Fin 64) (a b : Fin 64) (csig : BitVec 32)
  | launchw (g : CGuard) (xd : Fin 64) (a b : Fin 64) (csig : BitVec 32)
  | join (g : CGuard) (d : Fin 64) (a : Src)
  | done (g : CGuard)
  -- system (R280, R283, R284, R374, R376, R384, R232, R235)
  | trap (g : CGuard) (imm : BitVec 32)
  | rft (g : CGuard)
  | csrr (g : CGuard) (d : Fin 64) (csr : BitVec 12)
  | csrw (g : CGuard) (csr : BitVec 12) (a : Option XRf)
  | nop (g : CGuard)
  | halt (g : CGuard)
  | waitcyc (g : CGuard) (a : Src)
  | waitcycUntil (g : CGuard) (a : Src)
  | msdecl (g : CGuard) (d : Fin 16) (a : Fin 64)
  | pfack (g : CGuard)
  | pfrestore (g : CGuard) (d : Fin 16) (a b : Fin 64)
  | grpopen (g : CGuard) (a : Fin 64)
  | grpfree (g : CGuard) (a : Fin 64)
  -- V words (R185 to R205)
  | vadd (o : VFp2) | vsub (o : VFp2) | vmul (o : VFp2)
  | vfma (o : VFp3) | vfms (o : VFp3) | vnfma (o : VFp3)
  | vmin (o : VFp2) | vmax (o : VFp2)
  | vabs (o : VFp1) | vneg (o : VFp1)
  | vdiv (o : VFp2)
  | vsqrt (o : VFp1) | vexp2 (o : VFp1) | vlog2 (o : VFp1) | vrcp (o : VFp1) | vrsq (o : VFp1)
  | viadd (o : VInt2) | visub (o : VInt2) | vimul (o : VInt2)
  | vand (o : VLog2) | vor (o : VLog2) | vxor (o : VLog2)
  | vshl (o : VLog2) | vshr (o : VLog2) | vsra (o : VLog2)
  | vimin (o : VInt2) | vimax (o : VInt2)
  | vcmp (o : VCmpOp)
  | vsel (h : VHead) (d : VDst) (a b : VSrc) (c : Fin 64)
  | vplog (h : VHead) (d a b : Fin 64) (op : LogOp)
  | vcvt (o : VCvtOp)
  | vqblk (h : VHead) (d : Fin 64) (a : VP) (rm : Rm) (fmt : BitVec 32)
  | vdqblk (h : VHead) (d : VDst) (a : VSrc) (rm : Rm) (fmt : BitVec 32)
  | vred (o : VRedOp)
  | vscan (o : VRedOp)
  | vperm (h : VHead) (d : VDst) (a b : VP)
  | vbcst (h : VHead) (d : VDst) (a : VP) (n : Fin 32)
  | vslide (h : VHead) (d : VDst) (a b : VP) (n : Fin 32)
  | vldi (h : VHead) (d : VDst) (base : BitVec 32) (step : Fin 32)
  | vmov (h : VHead) (d : VDst) (a : VSrc) | vmovK (h : VHead) (d a : Fin 64)
  | vmovToCsr (h : VHead) (csr : Fin 4) (a : VSI)
  | vmovFromCsr (h : VHead) (d : Fin 64) (csr : Fin 16)
  | vmovMaskToV (h : VHead) (d : VDst) (a : Fin 64)
  | vmovVToMask (h : VHead) (d : Fin 64) (a : VSrc)
  | vpset (o : PortOp) (a : Fin 64)
  | vprst (o : PortOp)
  | vpsync (o : PortOp)
  | vacrd (h : VHead) (d : Fin 64) (sel : VSI) (drain : Bool)
  | vacwr (h : VHead) (a : VP) (sel : VSI) (add : Bool)
  | vtwin (h : VHead) (d : Fin 64) (a b : VP) (c : VSrc) (kind : TcKind)
  | vtcw (h : VHead) (d : VDst) (a : VSrc)
  | vloop (tok : Tok) (target : BitVec 12)
  | vbr (h : VHead) (all : Bool) (target : BitVec 12)
  | vend (tok : Tok)
  | vnop (tok : Tok)
  -- L and S commands (R128)
  | cnop (tok : Tok) (timed : Option (BitVec 32))
  | cpy (o : ElemOp)
  | cpyt (o : ElemOp) (d : BitVec 32)
  | cpyr (o : ElemOp)
  | cfill (o : ElemOp)
  | cgath (o : ElemOp)
  | cscat (o : ElemOp)
  | csg (o : ElemOp)
  | cseal (o : ElemOp)
  | copld (o : ElemOp) (fin : Bool)
  | covl (o : ElemOp)
  | cwtx (o : ElemOp)
  | ctce (o : ElemOp)
  | csig (o : CSigOp)
  | cwaitSignal (o : CSigOp)
  | cwaitTime (tok : Tok) (t : BitVec 32)
  | cprb (o : ElemOp)
  | cend (tok : Tok)
  -- M commands (R217)
  | msetrow (tok : Tok) (lo hi : Byte)
  | msetrowPart (tok : Tok) (q : Fin 4) (b : BitVec 32)
  | msetcol (tok : Tok) (lo hi : Byte)
  | msetcolPart (tok : Tok) (q : Fin 4) (b : BitVec 32)
  | mfmt (tok : Tok) (opb : Bool) (fmt : BitVec 32)
  | mscale (tok : Tok) (sa sb : Byte)
  | mma (o : MmaOp)
  | mmaz (o : MmaOp)
  | mmat (o : MmaOp)
  | mtcw (o : MmaOp)
  | mcommit (tok : Tok)
  | macz (tok : Tok) (bank : Fin 32)
  | mtile (tok : Tok) (bank : Fin 32) (count1 : Fin 4)
  | mend (tok : Tok)
  -- step words (R240)
  | send (o : DataStep) (f2 : Fin 4)
  | recv (o : DataStep)
  | copy (f1 f2 : Fin 4) (nel1 : BitVec 14) (doff off : BitVec 20)
  | rrs (o : DataStep) (f2 f3 : Fin 4) (snd : Bool)
  | waitSignalStep (sc : Scope) (word : BitVec 17) (val : BitVec 32)
  | waitTimeStep (val : BitVec 32)
  | waitAfterT0Step (val : BitVec 32)
  | loop (str : BitVec 20) (cnt1 : BitVec 16)
  -- events of the groups (R237)
  | groupBudgetExpiry (g : Fin 4096)
  | errorNoticeArrival (g : Fin 4096)
  -- events of the engine queues (R56, R59, R60, R254)
  | entryHead (t : TileId) (e : Eng)
  | entryStart (t : TileId) (e : Eng)
  | entryRetire (t : TileId) (e : Eng)
  | entryBudgetExpiry (t : TileId) (e : Eng)
  | iterationBudgetExpiry (t : TileId)
  -- Portage and the TCE (R124, R121, R90)
  | commandStart (t : TileId)
  | commandRetire (t : TileId) (id : Nat)
  | tceBlockDone (d : DieId)
  | wsRefreshWindow (d : DieId) (g : Fin 16)
  -- the Course (R152, R153, R158, R159)
  | flitInject (d : DieId) (st : Fin 132)
  | flitArrive (d : DieId) (st : Fin 132)
  | multicastDepart (t : TileId)
  | multicastLand (t : TileId)
  -- the Eight (R209, R214, R221, R223)
  | leaseTurnEnd (c : CrewId)
  | leaseGrant (c : CrewId)
  | mWritesLand (c : CrewId) (chk : Check)
  | batchRetire (t : TileId)
  | replayEnd (t : TileId)
  -- landings and requests of a tile (R169, R182, R252, R255, R261)
  | portPushLand (l : PushLand)
  | vWriteLand (t : TileId) (chk : Check)
  | coxWriteLand (t : TileId)
  | rfElementArrive (t : TileId)
  | requestDepart (t : TileId) (mismatch : Bool)
  -- homes (R402, R297, R81)
  | homeAccessDone (h : HomeId) (chk : Check)
  | scPerform (t : TileId)
  | recastArrival (h : HomeId)
  -- the scheduler (R307 to R326, R390)
  | rtailWrite (d : DieId) (q : QueueId) (v : BitVec 32)
  | launchDispatch (d : DieId)
  | dbudgetExpiry (id : BitVec 32)
  | gangPlace (id : BitVec 32)
  | pointAllocate (id : BitVec 32)
  | launchComplete (id : BitVec 32)
  | launchFail (id : BitVec 32)
  -- traps and pre-emption (R330, R332, R336, R338 to R341, R392, R394)
  | trapEntry (t : TileId)
  | iterationEnd (t : TileId)
  | queueStop (t : TileId) (e : Eng)
  | tintWrite (t : TileId) (v : Word)
  | preempt (t : TileId)
  | preemptResume (t : TileId)
  | tdbgResume (t : TileId)
  -- reliability (R360 to R369)
  | rowUnitCopyDone (h : HomeId)
  | rowRemap (h : HomeId)
  | selftestPeriod (d : DieId)
  | selftestStart (d : DieId)
  | selftestEnd (d : DieId) (pass : Bool)
  | patrolScrubRead (h : HomeId) (stack : Fin 3) (ch : Fin 64) (chk : Check)
  | pairCompare (id : BitVec 32)
  | lastReadCycleEnd (c : CrewId)
  -- the register window (R151, R250, R287, R389, R392, R393)
  | preqRequest (d : DieId) (i : Fin 128)
  | preqWithdraw (d : DieId)
  | pitchWrite (d : DieId) (i : Fin 2112) (v : BitVec 16)
  | peerTableWrite (i : Fin 256) (ctl : Byte) (src : Byte) (qmask : BitVec 256)
  | signalWindowWrite (w : BitVec 17) (v : Word)
  | imgaddrWrite (v : Word)
  | ctxflushWrite (v : Word)
  | regWrite (r : WinReg) (v : Word)
  -- events that only the world brings, and rows without operands; they stand last because compiled Lean can build no
  -- constructor with fields beyond the 244th: the fabric, rings and pools, conversion (R81, R227 to R248, R309, R390)
  | packetArrive (p : Packet)
  | ackArrive (pkg : Byte) (seq : BitVec 32) (val : Option Word)
  | resendTimeout (pkg : Byte) (seq : BitVec 32)
  | flagDepart (pkg : Byte)
  | ringFetch (d : DieId) (q : QueueId)
  | poolEntry (d : DieId)
  | qctlFrozenClear (d : DieId) (q : QueueId)
  | recastFlip (e : Fin 65536)
  -- links, reliability, boot, keys and temperature (R361 to R367, R394 to R398); hold-up, reset and the ends of programs
  | linkCrcRetry (port : CpId)
  | mcstValClear (d : DieId) (b : Fin 48)
  | stctlReq (d : DieId) (c : Fin 32)
  | boot (good : Bool) (pkg : Byte) (fw : Firmware)
  | tokenWaitEnd (t : TileId) (e : Eng)
  | keyLoad (slot : Fin 1024) (key : BitVec 512)
  | thermalLimit (d : DieId) (celsius : Nat)
  | mcLeakTick
  | earlyPacketTimeout
  | gtimeBoundLoss
  | bhstatSetvClear
  | supplyLoss
  | handlerDeadline
  | drainEnd
  | coldReset
  | freeze
  | endl
  | stepDone
deriving DecidableEq, Repr

end Sys2Proof
end

