-- ==== Sys2Proof/Machine/Numbers.lean ====
section
/-! DEFINITION. Number formats, rounding and block scales (R100 to R118) and trellis-coded weights (R119 to R123).
Every value is exact; a rounding is made once, by comparing the exact magnitude with the values of the target's
grid. -/

namespace Sys2Proof

/-! ## Exact values -/

/-- A decoded value (R104): NaN, an infinity, or `(-1)^neg · m · 2^e`; zero keeps its sign. -/
inductive Val where
  | nan
  | inf (neg : Bool)
  | fin (neg : Bool) (m : Nat) (e : Int)
deriving DecidableEq, Repr

/-- `m₁·2^e₁` against `m₂·2^e₂`. -/
def cmpDy (m₁ : Nat) (e₁ : Int) (m₂ : Nat) (e₂ : Int) : Ordering :=
  if e₁ ≥ e₂ then compare (m₁ <<< (e₁ - e₂).toNat) m₂ else compare m₁ (m₂ <<< (e₂ - e₁).toNat)

/-- +0. -/
def Val.zero : Val := .fin false 0 0
/-- The value of an integer. -/
def Val.ofInt (i : Int) : Val := .fin (decide (i < 0)) i.natAbs 0
/-- Is the value a zero? -/
def Val.isZero : Val → Bool
  | .fin _ m _ => m == 0
  | _ => false
/-- The sign of a value; a NaN has none. -/
def Val.isNeg : Val → Bool
  | .nan => false
  | .inf n => n
  | .fin n _ _ => n
/-- −x. -/
def Val.neg : Val → Val
  | .nan => .nan
  | .inf n => .inf (!n)
  | .fin n m e => .fin (!n) m e
/-- |x|. -/
def Val.abs : Val → Val
  | .nan => .nan
  | .inf _ => .inf false
  | .fin _ m e => .fin false m e
/-- x · 2^k. -/
def Val.scale (v : Val) (k : Int) : Val :=
  match v with
  | .fin n m e => .fin n m (e + k)
  | v => v

/-- The exact product (R111: a zero product takes the exclusive or of the signs; inf · 0 is invalid). -/
def Val.mul (a b : Val) : Val :=
  match a, b with
  | .nan, _ | _, .nan => .nan
  | .inf s, .inf t => .inf (s != t)
  | .inf s, .fin t m _ => if m = 0 then .nan else .inf (s != t)
  | .fin s m _, .inf t => if m = 0 then .nan else .inf (s != t)
  | .fin s m e, .fin t n f => .fin (s != t) (m * n) (e + f)

/-- The exact sum (R111): a zero sum of terms that are not zeros of one sign is +0, or −0 under `.rdn`. -/
def Val.add (rdn : Bool) (a b : Val) : Val :=
  match a, b with
  | .nan, _ | _, .nan => .nan
  | .inf s, .inf t => if s = t then .inf s else .nan
  | .inf s, _ => .inf s
  | _, .inf t => .inf t
  | .fin s m e, .fin t n f =>
    if m = 0 ∧ n = 0 then .fin (if s = t then s else rdn) 0 0
    else
      let g := min e f
      let x : Int := (if s then -1 else 1) * ((m <<< (e - g).toNat : Nat) : Int)
      let y : Int := (if t then -1 else 1) * ((n <<< (f - g).toNat : Nat) : Int)
      let z := x + y
      if z = 0 then .fin rdn 0 0 else .fin (decide (z < 0)) z.natAbs g

/-- Order of two values that are no NaN; −0 orders below +0 when `signed0`. -/
def Val.cmp (signed0 : Bool) (a b : Val) : Ordering :=
  match a, b with
  | .nan, _ | _, .nan => .eq
  | .inf s, .inf t => if s = t then .eq else if s then .lt else .gt
  | .inf s, _ => if s then .lt else .gt
  | _, .inf t => if t then .gt else .lt
  | .fin s m e, .fin t n f =>
    if m = 0 ∧ n = 0 then
      if signed0 ∧ s ≠ t then (if s then .lt else .gt) else .eq
    else if m = 0 then (if t then .gt else .lt)
    else if n = 0 then (if s then .lt else .gt)
    else if s ≠ t then (if s then .lt else .gt)
    else if s then cmpDy n f m e else cmpDy m e n f

/-! ## Formats (R100 to R107) -/

/-- The element fields of a format (R103, R104). -/
structure Nf where
  s : Bool
  e : Nat
  m : Nat
  spec : Nat
  sub : Bool
  bias : Int
deriving DecidableEq, Repr

/-- The kinds of R100. -/
def fmtKind (w : BitVec 32) : Nat := bitsOf w.toNat 28 4
/-- BLK of R100. -/
def fmtBlk (w : BitVec 32) : Nat := bitsOf w.toNat 0 8
/-- The element fields that an FMT word of KIND 4 or 5 holds. -/
def fmtFields (w : BitVec 32) : Nf :=
  ⟨bitOf w.toNat 27, bitsOf w.toNat 23 4, bitsOf w.toNat 19 4, bitsOf w.toNat 17 2, bitOf w.toNat 16,
    sextNat 8 (bitsOf w.toNat 8 8)⟩
/-- W of R104. -/
def Nf.w (f : Nf) : Nat := (if f.s then 1 else 0) + f.e + f.m

/-- R101 for the NF fields. -/
def Nf.wf (f : Nf) : Bool :=
  decide (2 ≤ f.w) && decide (f.w ≤ 8) && decide (f.e ≤ 8) && decide (f.m ≤ 8) && f.spec != 3 &&
  (f.e != 0 || (f.spec == 0 && !f.sub)) &&
  (f.spec != 1 || (decide (1 ≤ f.e) && decide (2 ≤ f.e + f.m))) &&
  (f.spec != 2 || (decide (2 ≤ f.e) && decide (1 ≤ f.m)))

/-- R101: a well-formed FMT word. -/
def fmtWf (w : BitVec 32) : Bool :=
  match fmtKind w with
  | 0 | 1 | 2 | 3 | 6 | 7 => bitsOf w.toNat 0 28 == 0
  | 4 => (fmtFields w).wf && fmtBlk w == 0
  | 5 => (fmtFields w).wf && (fmtBlk w == 5 || fmtBlk w == 6)
  | 8 | 9 => bitsOf w.toNat 8 20 == 0 && fmtBlk w == 6
  | _ => false

/-- R103: FP32. -/
def Nf.f32 : Nf := ⟨true, 8, 23, 2, true, 127⟩
/-- R103: BF16. -/
def Nf.bf16 : Nf := ⟨true, 8, 7, 2, true, 127⟩
/-- R103: FP16. -/
def Nf.f16 : Nf := ⟨true, 5, 10, 2, true, 15⟩
/-- R106: an integer of `w` bits. -/
def Nf.int (signed : Bool) (w : Nat) : Nf := ⟨signed, 0, if signed then w - 1 else w, 0, false, 0⟩

/-- R103: the element fields of a kind that has element values; a raw or TCW format has none. -/
def fmtNf (w : BitVec 32) : Option Nf :=
  match fmtKind w with
  | 1 => some .f32
  | 2 => some .bf16
  | 3 => some .f16
  | 4 | 5 => some (fmtFields w)
  | 6 => some (.int true 8)
  | 7 => some (.int true 4)
  | _ => none

/-- R107: container bits of an element; TCW formats have none of their own and count as 8. -/
def fmtContainer (w : BitVec 32) : Nat :=
  match fmtKind w with
  | 1 => 32
  | 2 | 3 => 16
  | 4 | 5 => if (fmtFields w).w ≤ 4 then 4 else 8
  | 7 => 4
  | _ => 8

/-- R108: is the format a block format (KIND 5, 8 or 9)? -/
def fmtIsBlock (w : BitVec 32) : Bool := fmtKind w == 5 || fmtKind w == 8 || fmtKind w == 9
/-- Elements of a block: 2^BLK for a block format, 1 otherwise. -/
def fmtBlockLen (w : BitVec 32) : Nat := if fmtIsBlock w then 2 ^ fmtBlk w else 1
/-- R108: P, the bytes of a block's element area. -/
def fmtP (w : BitVec 32) : Nat :=
  match fmtKind w with
  | 8 => 8
  | 9 => 12
  | _ => fmtBlockLen w * fmtContainer w / 8
/-- R108: element area, scale area offset and byte size of `n` elements. -/
def fmtAreas (w : BitVec 32) (n : Nat) : Nat × Nat × Nat :=
  if fmtIsBlock w then
    let nb := n / fmtBlockLen w
    let el := fmtP w * nb
    (el, alignUp el 32, alignUp el 32 + nb)
  else
    let el := ceilDiv (n * fmtContainer w) 8
    (el, el, el)
/-- R109: blocks of a 64 KiB bank in a block format. -/
def fmtBankBlocks (w : BitVec 32) : Nat := 32 * (65536 / (32 * (fmtP w + 1)))

/-- R104: the exact value of a code. -/
def nfValue (c : Nat) (f : Nf) : Val :=
  if f.e = 0 then
    let q : Int := if f.s then sextNat f.w c else ((c % 2 ^ f.w : Nat) : Int)
    .fin (decide (q < 0)) q.natAbs (-f.bias)
  else
    let sg := f.s && bitOf c (f.w - 1)
    let e := bitsOf c f.m f.e
    let m := bitsOf c 0 f.m
    let emax := 2 ^ f.e - 1
    if f.spec = 2 ∧ e = emax then (if m = 0 then .inf sg else .nan)
    else if f.spec = 1 ∧ e = emax ∧ m = 2 ^ f.m - 1 then .nan
    else if e = 0 then
      if !f.sub then .fin sg 0 0 else .fin sg m (1 - f.bias - f.m)
    else .fin sg (2 ^ f.m + m) ((e : Int) - f.bias - f.m)

/-- R105: has the format infinities? -/
def Nf.hasInf (f : Nf) : Bool := f.e != 0 && f.spec == 2
/-- R105: the NaN code, if any. -/
def Nf.nanCode (f : Nf) : Option Nat :=
  if f.e = 0 then none
  else if f.spec = 1 then some (2 ^ (f.e + f.m) - 1)
  else if f.spec = 2 then some ((2 ^ f.e - 1) * 2 ^ f.m + 2 ^ (f.m - 1))
  else none
/-- R105: the magnitude code of the end of the range on the side `neg`. -/
def Nf.maxMag (f : Nf) (neg : Bool) : Nat :=
  if f.e = 0 then (if f.s then (if neg then 2 ^ (f.w - 1) else 2 ^ (f.w - 1) - 1) else if neg then 0 else 2 ^ f.w - 1)
  else
    match f.spec with
    | 0 => 2 ^ (f.e + f.m) - 1
    | 1 => 2 ^ (f.e + f.m) - 2
    | _ => (2 ^ f.e - 1) * 2 ^ f.m - 1
/-- A magnitude code with its sign. -/
def Nf.signed (f : Nf) (neg : Bool) (k : Nat) : Nat :=
  if neg then (if f.e = 0 then wrapInt f.w (-(k : Int)) else k + 2 ^ (f.w - 1)) else k
/-- The code of an infinity. -/
def Nf.infCode (f : Nf) (neg : Bool) : Nat := f.signed neg ((2 ^ f.e - 1) * 2 ^ f.m)

/-! ## Rounding (R110, R111) -/

/-- The magnitude code of the `j`-th value of the grid: with SUB = 0 nothing stands between 0 and the smallest
normal. -/
def Nf.gridCode (f : Nf) (j : Nat) : Nat := if f.e = 0 ∨ f.sub ∨ j = 0 then j else 2 ^ f.m + j - 1
/-- The index of a magnitude code. -/
def Nf.gridIndex (f : Nf) (k : Nat) : Nat := if f.e = 0 ∨ f.sub ∨ k = 0 then k else k + 1 - 2 ^ f.m
/-- The magnitude of a code, also of the first one beyond the range (R111: the grid goes on with the spacing of the
outermost binade). -/
def Nf.mag (f : Nf) (neg : Bool) (k : Nat) : Nat × Int :=
  if f.e = 0 then (k, -f.bias)
  else
    let val (k : Nat) : Nat × Int :=
      if k < 2 ^ f.m then (if f.sub then k else 0, 1 - f.bias - f.m)
      else (2 ^ f.m + k % 2 ^ f.m, (k / 2 ^ f.m : Nat) - f.bias - f.m)
    let top := f.maxMag neg
    if k ≤ top then val k else ((val top).1 + (k - top), (val top).2)

/-- The largest `j ≤ hi` for which `ok` holds, searching bit by bit; `ok 0` is taken to hold and `ok` to be
monotone. -/
def searchUp (ok : Nat → Bool) (hi : Nat) : Nat → Nat → Nat
  | 0, j => j
  | n + 1, j => searchUp ok hi n (if j + 2 ^ n ≤ hi ∧ ok (j + 2 ^ n) then j + 2 ^ n else j)

/-- What a conversion gives: the code, and whether it saturated (R111). -/
structure Conv where
  code : Nat
  sat : Bool
deriving DecidableEq, Repr

/-- Does the mode round to nearest? -/
def Rm.nearest : Rm → Bool
  | .rne | .rneSat => true
  | _ => false
/-- Does an inexact magnitude round away from zero? -/
def Rm.away (rm : Rm) (neg : Bool) : Bool :=
  match rm with
  | .rup => !neg
  | .rdn => neg
  | _ => false

/-- R110, "Result beyond range". -/
def beyond (f : Nf) (neg : Bool) (rm : Rm) : Conv :=
  let toInf := f.hasInf && (match rm with
    | .rne => true
    | .rup => !neg
    | .rdn => neg
    | _ => false)
  if toInf then ⟨f.infCode neg, false⟩ else ⟨f.signed neg (f.maxMag neg), true⟩

/-- R110, the infinite-input columns. -/
def infResult (f : Nf) (neg : Bool) (rm : Rm) : Conv :=
  let sat := match rm with
    | .rneSat | .rtzSat => true
    | _ => false
  if f.hasInf && !sat then ⟨f.infCode neg, false⟩ else ⟨f.signed neg (f.maxMag neg), true⟩

/-- The grid index that a magnitude rounds to, at most one beyond the top. `cmp m e` orders the magnitude against
`m·2^e`. -/
def roundIndex (f : Nf) (neg : Bool) (cmp : Nat → Int → Ordering) (rm : Rm) : Nat :=
  let at' (j : Nat) := f.mag neg (f.gridCode j)
  let top := f.gridIndex (f.maxMag neg)
  let j := searchUp (fun j => cmp (at' j).1 (at' j).2 != .lt) (top + 1) (f.w + 2) 0
  if cmp (at' j).1 (at' j).2 = .eq then j
  else if rm.nearest then
    let a := at' j
    let b := at' (j + 1)
    let g := min a.2 b.2
    let mid := (a.1 <<< (a.2 - g).toNat) + (b.1 <<< (b.2 - g).toNat)
    match cmp mid (g - 1) with
    | .lt => j
    | .gt => j + 1
    | .eq => if f.gridCode j % 2 = 0 then j else j + 1
  else if rm.away neg then j + 1 else j

/-- R111 for a nonzero finite exact magnitude, given by comparison. Below 0 the grid of an unsigned format is taken as the
mirror of that above 0, which bears on the saturation mark alone. (Log entry 51, DESIGN CHOICE.) -/
def roundMag (f : Nf) (neg : Bool) (cmp : Nat → Int → Ordering) (rm : Rm) : Conv :=
  if neg && !f.s then
    -- onto the grid extended below 0: does it round to zero?
    ⟨0, roundIndex f true cmp rm != 0⟩
  else
    let j := roundIndex f neg cmp rm
    if f.gridIndex (f.maxMag neg) < j then beyond f neg rm
    else ⟨f.signed neg (f.gridCode j), false⟩

/-- R111: `convert`, with whether it saturated. -/
def convertC (x : Val) (f : Nf) (rm : Rm) : Conv :=
  match x with
  | .nan => ⟨(f.nanCode).getD 0, false⟩
  | .inf neg => if neg && !f.s then ⟨0, true⟩ else infResult f neg rm
  | .fin neg m e =>
    if m = 0 then ⟨if neg && f.s && f.e != 0 then 2 ^ (f.w - 1) else 0, false⟩
    else roundMag f neg (cmpDy m e) rm

/-- R111: `convert`. -/
def convert (x : Val) (f : Nf) (rm : Rm) : Nat := (convertC x f rm).code

/-! ## FP operations (R118, R185, R186) -/

/-- The fields of an FP type. -/
def FpTy.nf : FpTy → Nf
  | .f32 => .f32
  | .bf16 => .bf16
  | .f16 => .f16
/-- FP32 bits to a value. -/
def f32Val (b : Nat) : Val := nfValue b .f32
/-- A value to FP32 bits. -/
def f32Of (v : Val) (rm : Rm) : Nat := convert v .f32 rm
/-- R116: FP32 addition rounded to nearest even. -/
def fp32AddRne (a b : Nat) : Nat := f32Of ((f32Val a).add false (f32Val b)) .rne
/-- The NaN code of an FP type. -/
def nanOf (f : Nf) : Nat := (f.nanCode).getD 0

/-- `2^x` against `y = m·2^e`, for a positive `y` in (1, 2) whose `log2` is compared with the fraction
`fr / 2^k` bit by bit: `lo` and `hi` bound the current power, with `p` fraction bits. -/
def cmpLogBits (p : Nat) (fr : Nat) : Nat → Nat → Nat → Ordering
  | 0, lo, _ => if lo ≤ 2 ^ p then .gt else .lt
  | k + 1, lo, hi =>
    let lo2 := (lo * lo) >>> p
    let hi2 := ((hi * hi) >>> p) + 1
    let two := 2 ^ (p + 1)
    let one := fr.testBit k
    if two ≤ lo2 then (if one then cmpLogBits p fr k (lo2 / 2) (hi2 / 2 + 1) else .lt)
    else if hi2 < two then (if one then .gt else cmpLogBits p fr k lo2 hi2)
    else if one then .gt else .lt

/-- The order of `2^x` against `m·2^e`, where `x = (-1)^neg · xm · 2^xe` and `m > 0`. An integer `x` is compared
exactly; any other makes `2^x` irrational, and the logarithm of `m·2^e` is compared with `x` bit by bit. -/
def cmpPow2 (neg : Bool) (xm : Nat) (xe : Int) (m : Nat) (e : Int) : Ordering :=
  let k := if xe < 0 then (-xe).toNat else 0
  let sx : Int := (if neg then -1 else 1) * (if xe < 0 then (xm : Int) else ((xm <<< xe.toNat : Nat) : Int))
  let i := sx / (2 ^ k : Nat)
  let fr := (sx % (2 ^ k : Nat)).toNat
  let l := m.log2
  -- y / 2^i = m / 2^l · 2^(l + e - i)
  let t : Int := (l : Int) + e - i
  if fr = 0 then
    if t > 0 then .lt else if t < 0 then .gt else compare (2 ^ l) m
  else if t > 0 then .lt
  else if t < 0 then .gt
  else if m = 2 ^ l then .gt
  else
    let p := 512 + k
    let y := m <<< (p - l)
    cmpLogBits p fr k y y

/-- 1/x or a/b with the sign rules of IEEE 754 division (R186), rounded once. -/
def fpDiv (a b : Val) (f : Nf) (rm : Rm) : Nat :=
  match a, b with
  | .nan, _ | _, .nan => nanOf f
  | .inf _, .inf _ => nanOf f
  | .inf s, .fin t _ _ => convert (.inf (s != t)) f rm
  | .fin s _ _, .inf t => convert (.fin (s != t) 0 0) f rm
  | .fin s m e, .fin t n g =>
    if n = 0 then (if m = 0 then nanOf f else convert (.inf (s != t)) f rm)
    else if m = 0 then convert (.fin (s != t) 0 0) f rm
    else (roundMag f (s != t) (fun c h => cmpDy m e (c * n) (h + g)) rm).code

/-- √a (R186): −0 gives −0, a value below zero NaN. -/
def fpSqrt (a : Val) (f : Nf) (rm : Rm) : Nat :=
  match a with
  | .nan => nanOf f
  | .inf s => if s then nanOf f else convert (.inf false) f rm
  | .fin s m e =>
    if m = 0 then convert (.fin s 0 0) f rm
    else if s then nanOf f
    else (roundMag f false (fun c h => cmpDy m e (c * c) (2 * h)) rm).code

/-- 1/√a (R186): ±0 gives ±∞, +∞ gives +0. -/
def fpRsq (a : Val) (f : Nf) (rm : Rm) : Nat :=
  match a with
  | .nan => nanOf f
  | .inf s => if s then nanOf f else convert (.fin false 0 0) f rm
  | .fin s m e =>
    if m = 0 then convert (.inf s) f rm
    else if s then nanOf f
    else (roundMag f false (fun c h => cmpDy 1 0 (m * (c * c)) (e + 2 * h)) rm).code

/-- 2^a (R186). -/
def fpExp2 (a : Val) (f : Nf) (rm : Rm) : Nat :=
  match a with
  | .nan => nanOf f
  | .inf s => if s then convert (.fin false 0 0) f rm else convert (.inf false) f rm
  | .fin s m e =>
    if m = 0 then convert (.fin false 1 0) f rm
    else
      (roundMag f false
        (fun c h =>
          if c = 0 then .gt
          -- far outside the range of any format, where the exact power need not be formed
          else if cmpDy m e 1 12 = .gt then (if s then .lt else .gt)
          else cmpPow2 s m e c h) rm).code

/-- log2 a (R186): ±0 gives −∞, a value below zero NaN. -/
def fpLog2 (a : Val) (f : Nf) (rm : Rm) : Nat :=
  match a with
  | .nan => nanOf f
  | .inf s => if s then nanOf f else convert (.inf false) f rm
  | .fin s m e =>
    if m = 0 then convert (.inf true) f rm
    else if s then nanOf f
    else
      match cmpDy m e 1 0 with
      | .eq => convert (.fin false 0 0) f rm
      | .gt => (roundMag f false (fun c h =>
          if cmpDy c h 1 12 = .gt then .lt else (cmpPow2 false c h m e).swap) rm).code
      | .lt => (roundMag f true (fun c h =>
          if cmpDy c h 1 12 = .gt then .lt else cmpPow2 true c h m e) rm).code

/-- Smaller or larger (R186): a NaN in either operand gives NaN, −0 orders below +0. -/
def fpMinMax (isMax : Bool) (a b : Val) : Val :=
  match a, b with
  | .nan, _ | _, .nan => .nan
  | a, b => if (a.cmp true b == .gt) == isMax then a else b

/-! ## Block scales (R113, R114) -/

/-- The largest finite magnitude of a format, as a dyadic number. -/
def Nf.maxfin (f : Nf) : Nat × Int := f.mag false (f.maxMag false)

/-- The smallest `s` with `m·2^(e-s) ≤ c·2^h`, for positive `m` and `c`. -/
def leastShift (m : Nat) (e : Int) (c : Nat) (h : Int) : Int :=
  let s := ((m.log2 : Int) + e) - ((c.log2 : Int) + h)
  if cmpDy m (e - s) c h != .gt then s else s + 1

/-- What R114 returns: shift, codes and the two flags; `sat` collects the saturations of its conversions. -/
structure QBlock where
  sh : Int
  codes : List Nat
  ovf : Bool
  unf : Bool
  sat : Bool
deriving DecidableEq, Repr

/-- The largest finite magnitude of a list of values. -/
def maxFinite (xs : List Val) : Nat × Int :=
  xs.foldl (fun acc x =>
    match x with
    | .fin _ m e => if cmpDy m e acc.1 acc.2 = .gt then (m, e) else acc
    | _ => acc) (0, 0)

/-- R114: `quantise_block`. -/
def quantiseBlock (xs : List Val) (f : Nf) (rm : Rm) : QBlock :=
  let isInf := xs.any fun x => match x with
    | .inf _ => true
    | _ => false
  let isNan := xs.any fun x => x == .nan
  let (m, e) := maxFinite xs
  let zero (unf : Bool) : QBlock := ⟨-128, xs.map fun _ => 0, false, unf, false⟩
  let emit (sh : Int) (ovf : Bool) : QBlock :=
    let cs := xs.map fun x => convertC (x.scale (-sh)) f rm
    ⟨sh, cs.map Conv.code, ovf, false, cs.any Conv.sat⟩
  if isInf then emit 127 true
  else if m = 0 then (if isNan then emit (-127) false else zero false)
  else
    let sh := leastShift m e f.maxfin.1 f.maxfin.2
    if sh > 127 then emit 127 true
    else if sh < -127 then zero true
    else emit sh false

/-- R113: the value of an element of a block, its shift being `sh`. -/
def blockElem (c : Nat) (f : Nf) (sh : Int) : Val :=
  if sh = -128 then .zero else (nfValue c f).scale sh

/-! ## Summation (R115 to R117) -/

/-- R115: chunk size of an operand format of the Eight. -/
def fmtChunk (w : BitVec 32) : Nat :=
  match fmtKind w with
  | 2 | 3 => 32
  | 6 => 64
  | 4 | 5 => if fmtContainer w = 8 then 64 else 128
  | _ => 128

/-- The exact sum of a chunk: an exact zero gives +0. -/
def chunkSum (ps : List Val) : Val :=
  match ps.foldl (Val.add false) .zero with
  | .fin _ 0 _ => .zero
  | v => v

/-- R116: the update of one accumulator by the products of one chunk after another. -/
def eightUpdate (acc : Nat) (products : List Val) (c : Nat) : Nat → Nat
  | 0 => acc
  | n + 1 =>
    let t := f32Of (chunkSum (products.take c)) .rne
    eightUpdate (fp32AddRne acc t) (products.drop c) c n

/-- R117: one level of the tree. -/
def treeLevel {α : Type} (op : α → α → α) (xs : List α) (h : Nat) : List α :=
  List.zipWith op (xs.take h) (xs.drop h)

/-- R117: `tree_reduce` of 32 lanes. -/
def treeReduce {α : Type} (op : α → α → α) (xs : List α) : List α :=
  [16, 8, 4, 2, 1].foldl (treeLevel op) xs

/-- R194: one step of the scan: earlier lanes are the first operand. -/
def scanLevel {α : Type} (op : α → α → α) (xs : List α) (h : Nat) : List α :=
  xs.take h ++ List.zipWith op xs (xs.drop h)

/-- R194: `scan`. -/
def scanLanes {α : Type} (op : α → α → α) (xs : List α) : List α :=
  [1, 2, 4, 8, 16].foldl (scanLevel op) xs

/-! ## Trellis-coded weights (R119 to R123) -/

/-- R119: N. -/
def TcKind.bits : TcKind → Nat
  | .tc1 => 64
  | .tc15 => 96
/-- R119: p_i. -/
def TcKind.pos (k : TcKind) (i : Nat) : Nat :=
  match k with
  | .tc1 => i
  | .tc15 => 3 * i / 2
/-- The kind of a KIND 8 or 9 format. -/
def tcOfFmt (w : BitVec 32) : TcKind := if fmtKind w = 8 then .tc1 else .tc15

/-- R119: the 16-bit window of weight `i` of a stream, with the tail-biting wrap. -/
def tcWindow (k : TcKind) (stream : Nat) (i : Nat) : Nat :=
  let n := k.bits
  ((stream % 2 ^ n + 2 ^ n * (stream % 2 ^ n)) >>> k.pos i) % 65536

/-- R119: `v` of a window. -/
def tcV (w : Nat) : Int :=
  let t := (w * 2654 + 1) % 65536
  sextNat 8 (t / 256) + sextNat 8 t

/-- R119: the value of a window under a shift. -/
def tcwWeight (w : Nat) (sh : Int) : Val :=
  if sh = -128 then .zero else (Val.ofInt (tcV w)).scale (sh - 7)

/-- One trellis step's costs and choices for all 32,768 new states. A cost is the code of a non-negative FP32 value,
or 2^32 for none. -/
def tceStep (costs : Array Nat) (charge : Nat → Option Nat) (allowed : Nat → Bool) : Array (Nat × Bool) :=
  Array.ofFn (n := 32768) fun s' =>
    let b := s'.val / 16384
    let cand (d : Nat) : Nat :=
      let s := 2 * (s'.val % 16384) + d
      let m := costs.getD s 4294967296
      if !allowed b ∨ m = 4294967296 then 4294967296
      else
        match charge (s + b * 32768) with
        | some q => fp32AddRne m q
        | none => m
    if cand 1 < cand 0 then (cand 1, true) else (cand 0, false)

/-- The charge of a window at stream bit `n` (R121): `fl(x·x)` with `x = fl(y - v·2^(sh-7))`. -/
def tceCharge (k : TcKind) (y : List Nat) (sh : Int) (n : Nat) (w : Nat) : Option Nat :=
  match (List.range 64).find? fun i => k.pos i + 15 == n with
  | none => none
  | some i =>
    let x := f32Of ((f32Val (y.getD i 0)).add false (tcwWeight w sh).neg) .rne
    some (f32Of ((f32Val x).mul (f32Val x)) .rne)

/-- R121: the steps from bit `n` on; the choices of every step are kept, the last first. -/
def tceRun (k : TcKind) (y : List Nat) (sh : Int) (start : Option Nat) :
    Nat → Nat → Array Nat → List (Array (Nat × Bool)) → Array Nat × List (Array (Nat × Bool))
  | 0, _, m, tr => (m, tr)
  | fuel + 1, n, m, tr =>
    let allowed (b : Nat) : Bool :=
      match start with
      | some s => n < k.bits || b == (s >>> (n - k.bits)) % 2
      | none => true
    let st := tceStep m (tceCharge k y sh n) allowed
    tceRun k y sh start fuel (n + 1) (st.map Prod.fst) (st :: tr)

/-- The index of the least cost; on equal cost, the lowest index. -/
def tceBest (m : Array Nat) : Nat :=
  (List.range m.size).foldl (fun best s => if m.getD s 0 < m.getD best 0 then s else best) 0

/-- R121: the bits chosen on the way back from a final state: the bit that entered at each step, last step first. -/
def tceTrace : List (Array (Nat × Bool)) → Nat → List Nat
  | [], _ => []
  | st :: tr, s' =>
    let d := if (st.getD s' (0, false)).2 then 1 else 0
    s' / 16384 :: tceTrace tr (2 * (s' % 16384) + d)

/-- R121: `tce_encode` for a shift from −127 to 127: the stream and its cost. -/
def tceEncode (k : TcKind) (y : List Nat) (sh : Int) : Nat × Nat :=
  let steps := k.bits
  let all := Array.ofFn (n := 32768) fun _ => 0
  let s := tceBest (tceRun k y sh none steps 15 all []).1
  let one := Array.ofFn (n := 32768) fun i => if i.val = s then 0 else 4294967296
  let (m, tr) := tceRun k y sh (some s) steps 15 one []
  let bits := (tceTrace tr s).reverse.take (k.bits - 15)
  (s + 2 ^ 15 * bits.foldr (fun b acc => b + 2 * acc) 0, m.getD s 0)

/-- What the TCE returns (R121, R122). -/
structure TceOut where
  stream : Nat
  sh : Int
  cost : Nat
deriving DecidableEq, Repr

/-- R122: the FP32 sum of `fl(y²)` in weight order. -/
def tceZeroCost (y : List Nat) : Nat :=
  y.foldl (fun acc b => fp32AddRne acc (f32Of ((f32Val b).mul (f32Val b)) .rne)) 0

/-- R122: the TCE's work on one block; `sh` is the given shift, or none for "auto". -/
def tceBlock (k : TcKind) (y : List Nat) (sh : Option Int) : TceOut :=
  let vs := y.map f32Val
  let zero : TceOut := ⟨0, -128, tceZeroCost y⟩
  let run (s : Int) : TceOut := let r := tceEncode k y s; ⟨r.1, s, r.2⟩
  if vs.any fun v => match v with
    | .fin .. => false
    | _ => true
  then ⟨0, -128, nanOf .f32⟩
  else
    match sh with
    | some s => if s = -128 then zero else run s
    | none =>
      let (m, e) := maxFinite vs
      if m = 0 then zero
      else
        let s := leastShift m e 254 (-7)
        if s > 127 then run 127 else if s < -127 then zero else run s

end Sys2Proof
end

