-- ==== Sys2Proof/Machine/State.lean ====
section
/-! DEFINITION. The state of the module: everything the spec gives the machine, as plain data, and the machine right
after reset. The inventory (INVENTORY.md, State) names the rule behind every field. -/

namespace Sys2Proof.Machine

open Sys2Proof

/-! ## Finite maps -/

/-- A finite map with number keys, held as pairs with strictly rising keys. -/
abbrev Map (α : Type) := List (Nat × α)

/-- A byte store: the cells that differ from what an unlisted address reads as (log entry 2, DESIGN CHOICE), addresses rising. -/
abbrev Memory := List Host.Cell

/-! ## The Cox of a tile (R251 to R284, R329) -/

/-- R376: a must-save declaration. -/
structure MustSave where
  kind : Nat
  cls : Nat
  prio : Nat
  tag : BitVec 32
  a : Word
  b : Word
deriving DecidableEq, Repr

/-- R327: what a trap carries: code, source (0 Cox, 1–4 engine, 5 async), information and address. -/
structure Trap where
  code : Byte
  src : Nat
  info : Word
  addr : Word
deriving DecidableEq, Repr

/-- R259: what a head records. -/
structure Checkpoint where
  x : Vector Word 64
  xv : BitVec 64
  p : BitVec 16
  pv : BitVec 16
deriving DecidableEq, Repr

/-- R255, R257: one place of the response FIFO, in issue order: a request with its number, the region that placed
it, whether that region's word was repeatable, the element once it has been delivered, and the mark of a pop. -/
structure RfSlot where
  id : Nat
  region : Nat
  repeatable : Bool
  data : Option Word
  marked : Bool
deriving DecidableEq, Repr

/-- Where the value of a load goes (R269). -/
inductive LoadDst where
  | x (d : Fin 64)
  | rf (id : Nat)
deriving DecidableEq, Repr

/-- A result in flight (R252): what happens at the end of the cycle in which it lands. -/
inductive CoxWrite where
  /-- An `x` register. -/
  | x (d : Fin 64) (v : Word)
  /-- An `x` register, by a load. -/
  | xLoad (d : Fin 64) (v : Word)
  /-- A predicate. -/
  | p (d : Fin 16) (v : Bool)
  /-- `pmov pall` (R268): values and valid bits of `p1`–`p15`. -/
  | pall (v valid : BitVec 16)
  /-- A CSR (R280). -/
  | csr (n : BitVec 12) (v : Word)
  /-- A local store (R163). -/
  | store (addr : Nat) (bytes : List Byte)
  /-- The read of a local load, made in its cycle (R163); `old` are bytes that a multicast has written since its word issued,
  with their new and old values (R160). -/
  | load (addr : Nat) (ty : MemTy) (dst : LoadDst) (old : List (Nat × Byte × Byte))
  /-- An element for the response FIFO. -/
  | rf (id : Nat) (v : Word)
  /-- An atomic on the tile's own scratchpad (R270). -/
  | atomic (addr : Nat) (op : SatOp) (signed : Bool) (b c : Word) (id : Nat)
  /-- A region-closing word retires (R258). -/
  | retire
  /-- `TRAP` retires and then raises its trap (R283). -/
  | trap (imm : BitVec 32)
  /-- `RFT` resumes an engine queue (R333). -/
  | resume (e : Eng)
  /-- What `PFRESTORE` leaves in SAVEST (R383, R384). -/
  | savest (slot : Fin 16) (st : Nat) (pois : Bool)
  /-- `MSDECL` retires (R378): the slot takes the declaration where the quota allows it, and the predicate says so. -/
  | declare (slot : Fin 16) (new : Option MustSave) (pd : Fin 16)
deriving DecidableEq, Repr

/-- A result in flight, with the cycle at whose end it lands and its region (R259). -/
structure CoxLand where
  due : Nat
  region : Nat
  w : CoxWrite
deriving DecidableEq, Repr

/-- The asynchronous events of a tile that stay pending until they are taken (R330). -/
structure Pending where
  pfail : Bool
  /-- A contained-class machine check or CHKDIV, by its code. -/
  mc : Option Byte
  deadline : Bool
  hostint : Bool
  preempt : Bool
deriving DecidableEq, Repr

/-- The Cox. -/
structure Cox where
  x : Vector Word 64
  xv : BitVec 64
  p : BitVec 16
  pv : BitVec 16
  pc : Word
  /-- R272: the target of a taken branch and its delay slots left. -/
  branch : Option (Word × Nat)
  imem : Memory
  rf : List RfSlot
  nextReq : Nat
  checkpoint : Checkpoint
  head : Word
  region : Nat
  regcnt : Nat
  flight : List CoxLand
  /-- R258: a region-closing word that has not retired. -/
  closing : Bool
  /-- R254: no word issues before this cycle. -/
  nextIssue : Nat
  halted : Bool
  /-- A precise fault, taken in the next cycle (R330), with the PC of its word. -/
  fault : Option (Trap × Word)
  pend : Pending
  ie : Bool
  tm : Bool
  tvec : Word
  tcause : Word
  tpc : Word
  tregion : Word
  taddr : Word
  tinfo : Word
  tint : Word
  bfmt : Vector Lane 16
  defer : BitVec 16
  mcdelay : BitVec 32
  wheel : Vector (BitVec 11) 4
  savePois : BitVec 16
  saveSt : BitVec 32
  /-- R262: checker mismatches of the region. -/
  mismatches : Nat
  /-- R261: local stores and CSR writes that the checker has still to reach: the cycle of the comparison. -/
  checks : List Nat
  /-- R374: stopped for the hold-up, or by the end of the iteration. -/
  stopped : Bool
  /-- R394: TDBG.HALTED. -/
  dbgHalted : Bool
  mustSave : Vector (Option MustSave) 16
deriving DecidableEq, Repr

/-! ## The engine queues of a tile (R56 to R60, R273) -/

/-- Where an entry stands: waiting behind others, at the head with its dependences not all met, being expanded, or
with every word issued. -/
inductive EntryState where
  | waiting | head | running | issued
deriving DecidableEq, Repr

/-- R273: an entry of a queue. For L and S it keeps what a resume needs (R146): the words that have retired, and those
that have issued and not retired, each with the ordinal, row and elements at which its command goes on. -/
structure Entry where
  seq : BitVec 32
  sec : BitVec 12
  budget0 : Nat
  budget : Nat
  a : Word
  b : Word
  st : EntryState
  /-- Words of this entry that have issued and not retired. -/
  pendingWords : Nat
  retired : List Nat
  again : List (Nat × Nat × Nat × Nat)
deriving DecidableEq, Repr

/-- A fault that has stopped a queue (R63, R336), until the Cox has taken it. -/
structure EngFault where
  code : Byte
  info : Word
  addr : Word
  taken : Bool
deriving DecidableEq, Repr

/-- An engine's queue, command store and expansion state. -/
structure Engine where
  queue : List Entry
  pushed : BitVec 32
  qseq : BitVec 32
  store : Memory
  /-- R58: section number to the byte offset of its header. -/
  dir : Map Nat
  lastSec : BitVec 12
  noneRetired : Bool
  depMet : BitVec 3
  /-- R60: µPC[11:0] of the section being expanded. -/
  index : Nat
  /-- R204: target and delay slots left of a taken branch. -/
  branch : Option (Nat × Nat)
  nextIssue : Nat
  fault : Option EngFault
  /-- The queue issues nothing: a fault, a pre-emption or a hold-up stopped it (R336). -/
  stopped : Bool
deriving DecidableEq, Repr

/-! ## The vector engine of a tile (R172, R173, R177 to R182) -/

/-- R164: a parameter set. -/
structure PortSet where
  base : BitVec 20
  rm : Rm
  cnt : Vector Nat 4
  str : Vector Lane 4
deriving DecidableEq, Repr

/-- R170, R171: a lead vector, or the fault that its fetch kept. -/
inductive Lead where
  | data (lanes : Vector Lane 32)
  | fault (code : Byte)
deriving DecidableEq, Repr

/-- R172, R173: a port. -/
structure Port where
  set : Option PortSet
  pos : Nat
  lead : List Lead
  ovf : Bool
  unf : Bool
deriving DecidableEq, Repr

/-- A V result in flight (R181, R182). -/
inductive VWrite where
  /-- A physical vector register: lanes and the enabled ones. -/
  | v (r : Fin 64) (mask : Lane) (lanes : Vector Lane 32)
  /-- A physical mask register. -/
  | k (r : Fin 64) (mask : Lane) (bits : Lane)
  /-- A V CSR (R180): 0 VRB, 1 KRB, 2 LC, 3 EC. -/
  | csr (n : Fin 4) (v : Lane)
  /-- Bytes of an output push, each with the bits it writes (R169), and the flags of R168. -/
  | push (port : Fin 4) (bytes : List (Nat × Byte × Byte)) (ovf unf : Bool)
  /-- Cells of an accumulator bank (R198): row, first column, mask, lanes, add. -/
  | acc (bank row col : Nat) (mask : Lane) (lanes : Vector Lane 32) (add : Bool)
  /-- What `VLOOP` does at the end of its issue cycle (R202), from VRB, KRB, LC and EC as its issue cycle finds them (R62). -/
  | loop (vrb krb : BitVec 5) (lc : Lane) (ec : BitVec 8)
  /-- A word without a destination. -/
  | none
deriving DecidableEq, Repr

/-- A V word in flight: its landing cycle, its entry, the code of a failed check of its result (R354), its TS push,
and whether it has landed and only waits for room in its token FIFO (R56). -/
structure VLand where
  due : Nat
  seq : BitVec 32
  code : Byte
  push : Option Eng
  landed : Bool
  w : VWrite
deriving DecidableEq, Repr

/-- The vector engine's own state. -/
structure VState where
  v : Vector (Vector Lane 32) 64
  vv : BitVec 64
  k : Vector Lane 64
  kv : BitVec 64
  vrb : BitVec 5
  krb : BitVec 5
  lc : Lane
  ec : Byte
  ports : Vector Port 12
  flight : List VLand
deriving DecidableEq, Repr

/-! ## The M engine of a tile and the Eight of a crew (R207 to R223) -/

/-- R208: the lease state of a tile. -/
inductive LState where
  | none | waiting | held
deriving DecidableEq, Repr

/-- R221: a batch of the tile that has not retired: the number it has or will have, whether its `MCOMMIT` has issued,
the banks it has touched, its writes that have not landed, and the entry and push of its `MCOMMIT`. -/
structure Batch where
  number : BitVec 32
  closed : Bool
  touched : BitVec 32
  unlanded : Nat
  seq : BitVec 32
  push : Option Eng
deriving DecidableEq, Repr

/-- What a command in the array will write (R219, R220), captured when it issued. -/
inductive ArrayWork where
  /-- A word that writes no cell. -/
  | none
  | mul (zero transp tcw : Bool) (bank k aoff boff : Nat) (mrow mcol : BitVec 128) (fmta fmtb : Lane) (scale : Int)
      (a b : Memory)
  | zeroMasked (bank : Nat) (mrow mcol : BitVec 128)
  | zeroBanks (bank count : Nat)
deriving DecidableEq, Repr

/-- R223: the replay window: the banks named by the last `MTILE`, the retained commands in issue order, each with its
occupancy, and whether it is still whole. (Log entry 43, DEDUCED.) -/
structure ReplayWindow where
  banks : BitVec 32
  words : List (ArrayWork × Nat)
  whole : Bool
deriving DecidableEq, Repr

/-- R207: the matrix state of a tile. -/
structure MState where
  mrow : BitVec 128
  mcol : BitVec 128
  fmta : Lane
  fmtb : Lane
  sa : Byte
  sb : Byte
  bclosed : BitVec 32
  bret : BitVec 32
  lstate : LState
  leaseN : Nat
  leaseBudget : Nat
  batches : List Batch
  window : Option ReplayWindow
  /-- R223: the number of that window. -/
  windows : Nat
  /-- R223: the retained commands still to be issued again. -/
  replay : Option (List (ArrayWork × Nat))
  /-- R357: the code of the error that started the replay. -/
  replayCode : Byte
deriving DecidableEq, Repr

/-- R212: slot states. A slot that a pre-empted gang has claimed is `kept` for it until the gang resumes: no other
launch takes it or sees it (R340); its state and contents are in the saved context. -/
inductive SlotState where
  | free | claimed | filling | ready | kept
deriving DecidableEq, Repr

/-- R212: an operand slot. -/
structure Slot where
  st : SlotState
  claimer : Fin 4
  readers : Nat
  /-- Started and unretired `COPLD`s, and whether one with FIN = 1 has retired. -/
  started : Nat
  fin : Bool
  data : Memory
deriving DecidableEq, Repr

/-- R213: bank states; `kept` as for slots (R340). -/
inductive BankState where
  | free | idle | busy | replay | kept
deriving DecidableEq, Repr

/-- R213: an accumulator bank; `cells` is keyed by 128·row + column and lists the cells that are not +0; `away` marks the
tiles whose iteration owns it in a saved context (R340). -/
structure Bank where
  st : BankState
  owners : BitVec 4
  cells : Map Lane
  away : BitVec 4
deriving DecidableEq, Repr

/-- R214: a command in the array: landing cycle, tile, entry and push, last read cycle, slots read, and the banks it
touches. -/
structure ArrayCmd where
  due : Nat
  tile : Fin 4
  seq : BitVec 32
  push : Option Eng
  readEnd : Nat
  slots : List Nat
  reading : Bool
  touched : BitVec 32
  /-- Landed, and waiting only for room in its token FIFO. -/
  landed : Bool
  /-- Issued again by a replay (R223), or left over from an iteration that has ended: it retires nothing. -/
  replayed : Bool
  batch : BitVec 32
  /-- R223: the number of the window that it is a command of, and its place among that window's commands. -/
  window : Nat
  place : Nat
  work : ArrayWork
  /-- R223, R357: it consumed an error, or the replay of its window has emptied it: what it was to write is not written by
  it, and is still to land. -/
  hollow : Bool
deriving DecidableEq, Repr

/-- R98: a translation held by a TLB: the running context it is tagged with, the page's virtual base, its size, and the
PTE it was loaded from. -/
structure TlbEntry where
  ctx : Nat
  base : Nat
  size : Nat
  pte : Word
deriving DecidableEq, Repr

/-- A crew. -/
structure Crew where
  holder : Option (Fin 4)
  /-- R209: the tile that is to be granted next. -/
  grant : Option (Fin 4)
  lastHolder : Fin 4
  turnWords : Nat
  turnStart : Nat
  turnN : Nat
  turnBudget : Nat
  busyUntil : Nat
  lastReadEnd : Nat
  cmds : List ArrayCmd
  slots : Vector Slot 32
  banks : Vector Bank 32
  tlb : List TlbEntry
deriving DecidableEq, Repr

/-! ## Portage of a tile (R124 to R149) -/

/-- R124, R146: where a command stands. -/
inductive PStage where
  | buffered | started | stopped | retiring
deriving DecidableEq, Repr

/-- A piece of a row on its way: the elements that fill a destination line or granule (R132, R148), and whether its
writes have left. -/
structure PUnit where
  row : Nat
  first : Nat
  count : Nat
  sent : Bool
deriving DecidableEq, Repr

/-- What a started command waits for before its element's rows move: its sealed record (R138), or its predicate (R133). -/
inductive PPhase where
  | record | predicate | rows
deriving DecidableEq, Repr

/-- How far a started command has come: its element's 64 bytes and address, and chain ordinal; whether the element
moves anything; the row and element at which its next unit begins; the units on their way, oldest first; the source
lines asked for; the source bytes that have come, by address; writes and cursor moves not yet acknowledged; a refusal
of a home; whether refresh defers its next read (R90); the index list (R140), as it stood when the element began; and bytes
of the destination that have not left: of a line that the units so far have not filled (R148), or of granules that the
multicast queue has no room for (R158). -/
structure PProgress where
  elem : List Byte
  ea : Nat
  ordinal : Nat
  phase : PPhase
  ran : Bool
  row : Nat
  done : Nat
  units : List PUnit
  asked : List Nat
  got : Map Byte
  unacked : Nat
  bad : Option (Byte × Nat × Nat)
  deferred : Bool
  list : List Nat
  late : List (Nat × Byte × Byte)
deriving DecidableEq, Repr

/-- R124: a command of the time buffer, with T, its place in issue and in start order, the arguments of its entry,
the bank formats in force at its issue, by tile (R102), where it goes on after a stop (R146: ordinal, row, elements
done), whether it is serialising (R126), the Cox requests that its releases cover (R292), and the Signal operation it
has asked for, with the answer (R145). -/
structure PCmd where
  id : Nat
  stream : Eng
  instr : Instr
  push : Option Eng
  seq : BitVec 32
  index : Nat
  sec : Nat
  t : Int
  startOrder : Nat
  a : Word
  b : Word
  bfmts : Map (Vector Lane 16)
  stage : PStage
  prog : Option PProgress
  resume : Nat × Nat × Nat
  /-- R145: the cycle that the time form of `CWAIT` waits for. -/
  waitFor : Int
  /-- R141: the slot it fills. -/
  slot : Option Nat
  /-- R130: the byte offset of the granule, in its row, at which a stopped command goes on. -/
  offset : Nat
  serial : Bool
  mark : Nat
  answer : Option (Option Word)
deriving DecidableEq, Repr

/-- Where Portage writes outside device memory. -/
inductive PTarget where
  | sp (t : TileId) | slot | imem | store (e : Eng)
deriving DecidableEq, Repr

/-- R135: an element that a bank adder updates: its bit address and the source's value. -/
structure PReduce where
  bit : Nat
  v : Val
deriving DecidableEq, Repr

/-- What a write of Portage does where it lands (R162): bytes with their masks, or a reduce (R135). -/
inductive PWrite where
  | bytes (dest : PTarget) (bs : List (Nat × Byte × Byte))
  | reduce (t : TileId) (op : Nat) (dfmt : Lane) (rm : Rm) (l : List PReduce)
deriving DecidableEq, Repr

/-- Portage. `flight` holds the writes that land at the end of the cycle, each with the command that a member's
acknowledgement goes to when it came as a flit; `owner` gives, of a byte that commands have written while commands run, the
last-started command that wrote it without a reduce, and the last-started that wrote it at all (R149). -/
structure Portage where
  buffer : List PCmd
  nextId : Nat
  order : Nat
  flight : List (Option Nat × PWrite)
  owner : Map (Nat × Nat)
deriving DecidableEq, Repr

/-- What a read or a write of device memory makes of the elements that it asks for: their bytes, from `lo` to before `hi`;
whether the first of them is the first of its unit (R131); and whether they are read by address whatever their role (R138). -/
structure PUse where
  lo : Nat
  hi : Nat
  first : Bool
  addr : Bool
deriving DecidableEq, Repr

/-- What a command of Portage asks of a home or of a member's bank (R153). `back` is the row and element that the
command would go on from if the home refused. -/
inductive PAsk where
  /-- Bytes of device memory. -/
  | read (va n : Nat) (use : PUse)
  /-- The 64-byte line of a member's scratchpad at a local address (R148). -/
  | line (addr : Nat) (u : TileId) (off : Nat)
  /-- Bytes of device memory with their masks. -/
  | put (bs : List (Nat × Byte × Byte)) (use : PUse) (back : Nat × Nat)
  /-- Adds to cells (R73). -/
  | cells (ext : Nat) (l : List (Nat × Int × Bool)) (va : Nat) (back : Nat × Nat)
  /-- A cursor of a segment goes on (R131), `bits` from bit `bit` of the extent on. -/
  | move (write : Bool) (ext seg n : Nat) (va : Nat) (bit bits : Nat) (back : Nat × Nat)
  /-- A write at a member. -/
  | store (u : TileId) (w : PWrite)
  /-- An operation on a Signal word (R145). -/
  | signal (w : BitVec 17) (a : SigAct)
deriving DecidableEq, Repr

/-! ## Requests of a tile (R255, R261) -/

/-- The change a crew word asks of its crew (R278). -/
inductive CrewAct where
  | lease (n tb : Nat)
  | free
  | acalloc (bank : Nat) (pd : Fin 16)
  | acown (bank mask : Nat)
  | acfree (bank : Nat)
  | osclaim (slot : Nat) (pd : Fin 16)
  | osrel (slot : Nat)
deriving DecidableEq, Repr

/-- What a request that leaves the tile asks for. -/
inductive ReqAct where
  /-- `EXEC` (R273): the entry enters the queue. -/
  | push (e : Eng) (entry : Entry)
  /-- A remote member's window (R156): the member's tile, as the gang was placed when the word issued, and the offset. -/
  | winLoad (u : TileId) (off : Nat) (ty : MemTy)
  | winStore (u : TileId) (off : Nat) (bytes : List Byte)
  | winAtomic (u : TileId) (off : Nat) (op : SatOp) (signed : Bool) (b c : Word)
  /-- The multicast window (R158): the members, MCDELAY and the issuing member's index, as they were when the word
  issued. -/
  | multicast (off : Nat) (bytes : List Byte) (members : List TileId) (delay member : Nat)
  | ldi (va : Nat) (ty : MemTy)
  | lds (ext seg : Nat) (touch : Bool)
  | sts (ext seg : Nat) (v : Word)
  | close (ext seg : Nat)
  | adda (ext i : Nat) (v : Word) (ty : AddTy)
  /-- A Signal word of the package, or of another (R286). -/
  | signal (pkg : Byte) (a : SigAccess)
  | crew (a : CrewAct)
  | extnew (rec : List Byte) (acap : Bool)
  | recast (ext lo hi : Nat) (role : Role) (fresh : Bool) (sig : Option (BitVec 17))
  | extq (ext seg field : Nat)
  | extfree (ext : Nat)
  /-- `LAUNCH`, `LAUNCHW` (R319): the predicate, register, record address, route and COMPSIG. -/
  | launch (pd : Option (Fin 16)) (xd : Fin 64) (wait : Bool) (va : Nat) (route : Word) (csig : BitVec 32)
  | grpopen (rec : List Byte)
  | grpfree (g : Nat)
deriving DecidableEq, Repr

/-- A request: the response-FIFO place it fills when `slot` says so, the cycle at whose end it leaves, its region and
PC, and whether its word waits for an answer before it retires. -/
structure Req where
  id : Nat
  slot : Bool
  depart : Nat
  region : Nat
  pc : Word
  closing : Bool
  act : ReqAct
deriving DecidableEq, Repr

/-- R158: a granule of the multicast window: offset, bytes with their masks, issue cycle and landing cycle, the tile
and member that issued it, and the tiles that it is written at. -/
structure McGranule where
  off : Nat
  bytes : List (Nat × Byte × Byte)
  issue : Nat
  due : Nat
  src : TileId
  member : Nat
  members : List TileId
deriving DecidableEq, Repr

/-- Where a tile stands in a gang (R155, R316). -/
structure Place where
  launch : BitVec 32
  member : Nat
  tiles : List TileId
  depth : Nat
  pair : Bool
deriving DecidableEq, Repr

/-- R337: the stopped point of a queue is its head entry's `index`; R342: a saved context. -/
structure SavedCtx where
  magic : Nat
  version : Nat
  launch : BitVec 32
  iter : Nat
  tile : Nat
  at' : Nat
  budget : Nat
  cox : Cox
  engines : Vector Engine 4
  tokens : Vector (Vector Nat 4) 4
  v : VState
  m : MState
  portage : Portage
  sp : Memory
  slots : Map Slot
  banks : Map Bank
  arrived : List Nat
  place : Place
  /-- Commands that have landed and wait for room in their token FIFOs. -/
  cmds : List ArrayCmd
  /-- R342: the record place that holds it. -/
  rec' : Nat
  /-- R255: elements that have come since it was saved. -/
  replies : List (Nat × Word)
deriving DecidableEq, Repr

/-- A tile. -/
structure Tile where
  cox : Cox
  engines : Vector Engine 4
  /-- R56: `tokens[e][f]` counts the FIFO from `e` to `f`. -/
  tokens : Vector (Vector Nat 4) 4
  v : VState
  m : MState
  portage : Portage
  /-- The scratchpad (R161). -/
  sp : Memory
  /-- R161: the line accesses that each bank has served in this cycle (Machine/Banks.lean). -/
  used : Map Nat
  place : Option Place
  /-- The iteration number of the live iteration, if one is allocated (R317). -/
  iter : Option Nat
  /-- R332: the code with which the iteration ends once L and S have finished the entries that have begun. -/
  ending : Option Byte
  budget : Nat
  /-- Requests that have not left. -/
  reqs : List Req
  /-- R318: the number of the first request of the live iteration. -/
  since : Nat
  /-- R297: `sc` operations that have left, with the cycle at whose start they are performed. -/
  scOps : List (Nat × Req)
  /-- Answers that have reached the tile and wait their turn in the response FIFO. -/
  replies : List (Nat × Word)
  /-- R158, R159: the multicast queue and the delay buffer. -/
  mcQueue : List McGranule
  delay : List McGranule
  /-- Window stores that have arrived and land at the end of the cycle: source tile, offset, bytes. -/
  winIn : List (Nat × Nat × List Byte)
  /-- R246: lines written by communication processors that land at the end of the cycle: the group, and bytes with their
  masks. -/
  cpIn : List (Nat × List (Nat × Byte × Byte))
  /-- Extents on which the tile has arrived and whose flip it has not seen (R81, R84). -/
  arrived : List Nat
  contexts : List SavedCtx
  /-- R317: the image last loaded, while no `COVL` has retired since. -/
  image : Option Word
  tlb : List TlbEntry
  tdbgResume : Bool
deriving DecidableEq, Repr

/-! ## The Course (R150 to R154) -/

/-- R153: the message classes, in their order. -/
inductive Cls where
  | req | write | signal | response | control | maint
deriving DecidableEq, Repr

/-- R309: a record on its way into a pool. -/
structure PoolReq where
  queue : QueueId
  bytes : List Byte
  depth : Nat
  parent : Option (BitVec 32)
  compsig : Option (BitVec 32)
  /-- The tile and request to be answered, for `LAUNCH` and `LAUNCHW`. -/
  from' : Option (TileId × Req)
deriving DecidableEq, Repr

/-- Who is told that an operation on a Signal word has been performed: the scheduler of a die (R324), or the port, at its
station, that took a packet from a package, by its number (R247). -/
inductive Teller where
  | die (d : DieId)
  | packet (st : Nat) (src : Byte) (seq : BitVec 32)
deriving DecidableEq, Repr

/-- What a flit carries. -/
inductive Msg where
  | req (t : TileId) (r : Req)
  | reply (t : TileId) (id : Nat) (v : Word)
  /-- The answer to a closing word: accepted, or the fault it takes. -/
  | answer (t : TileId) (r : Req) (fault : Option Trap)
  | flipNotice (t : TileId) (ext : Nat)
  /-- A granule of the multicast window on its way round (R158). -/
  | granule (g : McGranule)
  /-- What command `c` of a tile's Portage asks for, and the answers: source bytes from an address on, the value of a
  Signal word, an acknowledgement, or a refusal with its code, reason and address (code 0 for a contained error). -/
  | ask (t : TileId) (c : Nat) (a : PAsk)
  | data (t : TileId) (c : Nat) (addr : Nat) (bs : List Byte)
  | word (t : TileId) (c : Nat) (v : Word)
  | ack (t : TileId) (c : Nat)
  | nack (t : TileId) (c : Nat) (code : Byte) (reason addr : Nat) (back : Option (Nat × Nat))
  /-- An operation of the device on a Signal word, with the tile it acts for (R85, R246, R324), and who is told when it has
  been performed. -/
  | oper (t : Option TileId) (w : BitVec 17) (a : SigAct) (back : Option Teller)
  | told (k : Teller)
  /-- What the processor of a group asks for, of its program, a line of its buffer or a Signal word (R239, R245, R246), and
  the answers; the last refuses a part of its program. -/
  | cpAsk (g : Nat) (a : PAsk)
  | cpData (g : Nat) (addr : Nat) (bs : List Byte)
  | cpWord (g : Nat) (v : Word)
  | cpAck (g : Nat)
  | cpNack (g : Nat) (code : Byte)
  /-- A launch made by an iteration, its record read, on its way to the pool of a die (R320). -/
  | launch (d : DieId) (q : PoolReq)
  /-- A request that has been performed already (R287, R297). -/
  | void
deriving DecidableEq, Repr

/-- R150, R154: a flit; stations are counted over the package, 132·die + station. -/
structure Flit where
  src : Nat
  dst : Nat
  cls : Cls
  seq : Nat
  /-- R154: WRITE flits that the source had injected for this destination before. -/
  writesBefore : Nat
  timed : Bool
  msg : Msg
deriving DecidableEq, Repr

/-! ## Homes and device memory (R66 to R99, R286, R361) -/

/-- R68: the state of a segment; TRANSIT and CONVERT are states of the whole extent. -/
inductive SegState where
  | i | sOpen | sClosed | a
deriving DecidableEq, Repr

/-- R66: a segment. -/
structure Segment where
  start : Nat
  stop : Nat
  st : SegState
  epoch : Nat
  wcur : Nat
  rcur : Nat
  ovf : Bool
  inv : Bool
  blkovf : Bool
  blkunf : Bool
  reader : Option TileId
  writer : Option TileId
deriving DecidableEq, Repr

/-- R81: an open collective. -/
structure Collective where
  lo : Nat
  hi : Nat
  role : Role
  fresh : Bool
  sig : Option (BitVec 17)
  count : Nat
  convert : Bool
  arrived : List TileId
deriving DecidableEq, Repr

/-- R66: an extent descriptor; `tier` is 0 HBM, 1 tier-2, 2 weight store. -/
structure Extent where
  base : Nat
  count : Nat
  fmt : Lane
  holders : Nat
  abp : Int
  tier : Nat
  key : Nat
  acap : Bool
  wsdie : Nat
  segs : List Segment
  coll : Option Collective
  /-- R73: cells that are not 0, by element. -/
  cells : Map Int
  /-- The pages it owns: physical base and size. -/
  pages : List (Nat × Nat)
deriving DecidableEq, Repr

/-- R71, R98: a replica: the running context, extent and epoch that it is tagged with, and its bytes: a 32-byte line, or what a
read has fetched of a line that more than one segment lies in. -/
structure Replica where
  ctx : Nat
  ext : Nat
  epoch : Nat
  addr : Nat
  data : List Byte
deriving DecidableEq, Repr

/-- R361: an HBM row, counted. -/
structure RowCount where
  stack : Nat
  ch : Nat
  row : Nat
  count : Nat
deriving DecidableEq, Repr

/-- R361: a row move in progress: the unit whose copy runs, the cycle it began, and the marks. -/
structure RowMove where
  stack : Nat
  ch : Nat
  row : Nat
  spare : Nat
  unit : Nat
  began : Nat
  firstPass : Bool
  marks : List Nat
deriving DecidableEq, Repr

/-- A memory home's reliability state. -/
structure Home where
  rows : List RowCount
  /-- Moves in progress; one with unit 8 awaits its remap in cycle `began`. -/
  moves : List RowMove
  /-- Spare rows taken, by channel. -/
  spares : Map Nat
  /-- Remapped rows: stack, channel, row, spare. -/
  remaps : List (Nat × Nat × Nat × Nat)
  buckets : Map Nat
  retired : List (Nat × Nat)
  /-- By channel, the next unit of the patrol scrub, and the cycle from which it is read. -/
  scrub : Map (Nat × Nat)
deriving DecidableEq, Repr

/-! ## Reliability (R365, R367) -/

/-- R365: a machine-check bank. -/
structure McBank where
  val : Bool
  past : Bool
  cls : Nat
  lasting : Bool
  addrv : Bool
  miscv : Bool
  code : Byte
  unit : Nat
  events : Nat
  addr : Word
  akind : Nat
  detail : Nat
  bucket : Nat
  thresh : Nat
  leak : Nat
  xint : Bool
  cint : Bool
deriving DecidableEq, Repr

/-- R366: an event for a bank. -/
structure McEvent where
  cls : Nat
  code : Byte
  unit : Nat
  addr : Option (Nat × Word)
  detail : Option Nat
deriving DecidableEq, Repr

/-- R353, R356: a granule of a checked memory, or of a flit on its way: 64 bits of a scratchpad, of IMEM, of a command store; the
head of an engine queue; the oldest vector that a port has fetched; an entry of a TLB (0 a tile's, 1 a crew's, 2 a die's); an entry
of a Pitch table; the flit in a slot; a granule of HBM (32 bytes), tier-2 memory (64) or a weight store (32); a parity unit of HBM. -/
inductive Site where
  | sp (t : TileId) (g : Nat)
  | imem (t : TileId) (g : Nat)
  | store (t : TileId) (e : Eng) (g : Nat)
  | queue (t : TileId) (e : Eng)
  | lead (t : TileId) (p : Fin 12)
  | tlb (level unit : Nat) (e : TlbEntry)
  | pitch (d : DieId) (entry : Nat)
  | flit (d : DieId) (slot : Nat)
  | mem (tier g : Nat)
  | parity (stack ch unit : Nat)
deriving DecidableEq, Repr

/-- R353: a granule that is no longer as it was written: one wrong bit, or more than one (none), and its bytes that nothing has
overwritten since (R355). -/
structure Flaw where
  site : Site
  bit : Option Nat
  left : List Nat
deriving DecidableEq, Repr

/-- What goes wrong (R353): a granule, or a result of an integer unit of the Cox or of a command of Portage (R358). -/
inductive Upset where
  | granule (site : Site) (bit : Option Nat)
  | cox (t : TileId)
  | portage (t : TileId) (id : Nat)
deriving DecidableEq, Repr

/-- R367: self-test. -/
structure SelfTest where
  period : Nat
  req : Bool
  crew : Nat
  online : BitVec 32
  tests : Nat
  last : Nat
  lastCrew : Nat
  next : Nat
  queue : List Nat
  /-- The crew under test and the cycle its test began. -/
  running : Option (Nat × Nat)
deriving DecidableEq, Repr

/-! ## Launches (R304 to R326) -/

/-- R306: a level of a record. -/
structure Level where
  domain : Nat
  order : Nat
  scope : Nat
  xreg : Nat
  count : Nat
deriving DecidableEq, Repr

/-- R305: a launch record. -/
structure LaunchRec where
  image : Word
  budget : Nat
  dbudget : Nat
  quota : Nat
  gsize : Nat
  prio : Nat
  pair : Bool
  wsload : Bool
  cont : Bool
  wheelEn : Bool
  wheel : Nat
  hostv : Option Nat
  csig : Option (BitVec 17)
  pred : List (BitVec 32)
  levels : List Level
  relpred : List Nat
deriving DecidableEq, Repr

/-- R310: the share an entry was taken from: 0 common, else the reserve of that depth. -/
abbrev Share := Nat

/-- R316: a point: its iteration number and its indices, outermost first. -/
structure Point where
  n : Nat
  idx : List Nat
deriving DecidableEq, Repr

/-- R316: a placed gang. -/
structure Gang where
  group : List Nat
  tiles : List TileId
  lists : List (List Point)
  running : List (Option Point)
  /-- Bound prefixes: level number, indices, member. -/
  tileBound : List (Nat × List Nat × Nat)
  crewBound : List (Nat × List Nat × Nat)
  /-- The walk has passed the group's last point. -/
  passed : Bool
  /-- R338, R340: requested alone: a request is pending; both: the gang is stopping; preempted alone: its contexts are
  saved. -/
  requested : Bool
  preempted : Bool
  /-- R341: MCDELAY as it was at placement. -/
  delay : Nat
  /-- R317: its image is being loaded. -/
  loading : Bool
  /-- R340: the cycle boundary at which a pre-emption stopped it. -/
  cut : Nat
deriving DecidableEq, Repr

/-- R369: one half of a PAIR launch: signature, shadow bytes by virtual address, the 4 KiB pages that they shadow whole,
segments, and whether the shadow pool ran out for it. -/
structure Half where
  sig : Word
  bytes : Map Byte
  pages : List Nat
  segs : List ((Nat × Nat) × Segment)
  done : Bool
  starved : Bool
deriving DecidableEq, Repr

/-- A launch that is pending or running. -/
structure Launch where
  id : BitVec 32
  die : DieId
  queue : QueueId
  depth : Nat
  record : LaunchRec
  preds : List (BitVec 32)
  parent : Option (BitVec 32)
  compsig : Option (BitVec 32)
  entered : Nat
  share : Share
  /-- The cycle of its dispatch, at whose end its entry is freed (R313). -/
  dispatchedAt : Option Nat
  /-- The walker: nest counters, next iteration number, and whether points remain. -/
  walk : List Nat
  nextPoint : Nat
  exhausted : Bool
  /-- R314: the cycle since which it waits for dispatch or for the placement of the current gang group. -/
  waiting : Option Nat
  gangs : List Gang
  failure : Option (Byte × Nat)
  /-- R325: what follows from its last failure has been done. -/
  failed : Bool
  /-- R325: no further point is placed. -/
  stopped : Bool
  halves : Option (Half × Half)
  /-- R318: the tiles of its `DONE` words, with the number of the first request that they do not cover. -/
  covers : Map Nat
  /-- R324, R326: refused or cancelled as it entered: the status and cause with which it completes at the end of the
  cycle. -/
  verdict : Option (Nat × Byte)
deriving DecidableEq, Repr

/-- A completed launch as R311 remembers it: id and completion word. -/
abbrev Completion := BitVec 32 × Word

/-- R311, R390: a launch queue. -/
structure LQueue where
  frozen : Bool
  en : Bool
  maxprio : Nat
  rbase : Word
  badTail : Bool
  log2 : Nat
  head : BitVec 32
  tail : BitVec 32
  /-- RBASE or LOG2 was written while HEAD ≠ TAIL (R390): the slots fetched are open. -/
  openSlots : Bool
  /-- R308: ids received, newest first, at most 255, and how many were ever received. -/
  recent : List (BitVec 32)
  received : Nat
deriving DecidableEq, Repr

/-- R144: a block at the TCE: tile, command, the block, its targets, and where its results go. -/
structure TceJob where
  tile : TileId
  cmd : Nat
  kind : TcKind
  y : List Nat
  sh : Option Int
  stream : Nat
  shAddr : Nat
  cost : Option Nat
deriving DecidableEq, Repr

/-- R324: what a completed launch has still to announce, in this order: its CSIG write, the COMPSIG add, and the vector. -/
structure Notice where
  csig : Option (BitVec 17 × Word)
  compsig : Option (BitVec 32)
  hostv : Option Nat
  /-- The Signal operation that comes next is on its way. -/
  sent : Bool
  /-- The flag of the COMPSIG add, until its package has acknowledged it. -/
  flag : Option (Byte × BitVec 32)
deriving DecidableEq, Repr

/-- A die. -/
structure Die where
  pitch : Map (BitVec 16)
  slots : Map Flit
  stations : Map (List Flit)
  ingress : Map (List Flit)
  seqOut : Map Nat
  seqIn : Map Nat
  queues : Map LQueue
  counter : Nat
  poolReqs : List PoolReq
  window : Map Word
  /-- The last 4,096 completions, newest first (R311). -/
  done : List Completion
  banks : Map McBank
  test : SelfTest
  replicas : List Replica
  tlb : List TlbEntry
  frozen : Bool
  celsius : Nat
  tce : List TceJob
  preq : List Nat
  /-- Announcements under way, oldest first. -/
  notices : List Notice
  /-- R366: machine-check events of this cycle, each with its bank. -/
  events : List (Nat × McEvent)
deriving DecidableEq, Repr

/-! ## Groups and the fabric (R227 to R250) -/

/-- R231: group states. -/
inductive GState where
  | free | opened | ended
deriving DecidableEq, Repr

/-- R233, R239: an open group's program. -/
structure Program where
  cp : CpId
  base : Nat
  limit : Nat
  budget : Nat
  fmts : Vector Lane 4
  count : Nat
  rank : Nat
  rm : Rm
  donesig : Option (Scope × Byte × BitVec 17)
  steps : List Word
  ranks : List (Byte × CpId)
  pc : Nat
  /-- Open loops, innermost first: the step of its `LOOP`, passes done, count − 1 and stride. -/
  loops : List (Nat × Nat × Nat × Int)
  ovf : Bool
  blkovf : Bool
  blkunf : Bool
  /-- An error notice has arrived (R237): code and origin. -/
  notice : Option (Byte × Nat)
  /-- R239: PROG, RTAB and NSTEP, until the processor has read the steps and the rank table. -/
  fetch : Option (Nat × Nat × Nat)
  /-- R243: messages sent to, and consumed from, each rank. -/
  sentTo : Map Nat
  taken : Map Nat
  /-- R246: lines asked for, the bytes that have come, the value of a Signal word, and writes not yet acknowledged. -/
  asked : List Nat
  got : Map Byte
  seen : Option Word
  unacked : Nat
  /-- R239: a fault of the read of the steps or the rank table. -/
  refused : Option Byte
  /-- R230: a step is under way, and is not waiting as R237 means it. -/
  busy : Bool
  /-- R292: the number of the request of its `GRPOPEN`; requests of the owner before it precede the program. -/
  opened : Nat
deriving DecidableEq, Repr

/-- R243: a received message: source rank, its number among those of that rank, FMT word, count and data. -/
structure Parcel where
  src : Nat
  no : Nat
  fmt : Lane
  count : Nat
  data : List Byte
deriving DecidableEq, Repr

/-- R231: an entry of the group table; `cp` is the processor that ran it last. -/
structure Group where
  st : GState
  gen : Nat
  last : Option Nat
  owner : TileId
  t0 : Nat
  status : Word
  unacked : Nat
  prog : Option Program
  /-- R243: received, unconsumed messages. -/
  inbox : List Parcel
  cp : CpId
deriving DecidableEq, Repr

/-- R248: a packet kept until it is acknowledged, with its last sending; a flag that waits to leave has none. -/
structure Sent where
  pkt : Packet
  sentAt : Option Nat
  /-- The tile whose word waits on it, with its request, and the group it counts for. -/
  from' : Option (TileId × Req)
  group : Option Nat
deriving DecidableEq, Repr

/-- The package's side of the fabric. -/
structure Fabric where
  seqOut : Map Nat
  sent : List Sent
  high : Map Nat
  marks : Map (List Nat)
  early : List (Packet × Nat)
  groups : Map Group
  /-- R247: packets that are being committed, by package and number: a flag on its way to its Signal word. -/
  applying : List (Byte × BitVec 32)
  linkRetired : List Nat
  outOfDomain : Bool
deriving DecidableEq, Repr

/-! ## The package's management and hold-up state (R370 to R398) -/

/-- R370: the phases of the hold-up. -/
inductive HoldPhase where
  | handler | drain | write
deriving DecidableEq, Repr

/-- R250: an entry of the peer access table. -/
structure Peer where
  ctl : Byte
  src : Byte
  qmask : BitVec 256
deriving DecidableEq, Repr

/-- R47: a registered kernel image: its parts. -/
structure Image where
  imem : List Byte
  parts : Vector (List Byte) 4
deriving DecidableEq, Repr

/-- Package-wide registers, keys and images; `context` is the running context (R98). -/
structure Sys where
  context : Nat
  pkg : Byte
  domain : Nat
  reach : List Byte
  ready : Bool
  bootfail : Bool
  bootTries : Nat
  fwCps : BitVec 32
  fwVersion : BitVec 32
  keys : Map (BitVec 512)
  pairOk : Bool
  tier2GiB : Nat
  tceOnline : BitVec 4
  savePool : Word
  shadowPool : Word
  ctxflush : Bool
  imgaddr : Word
  imghandle : Word
  images : List (Word × Image)
  peers : Map Peer
  bhAllow : Nat
  bhSetv : Bool
  bhHoldno : BitVec 15
  bhBytes : Nat
  boathouse : Memory
  hold : Option HoldPhase
  /-- P of R370, and the cycle in which the write phase ends. -/
  holdP : Nat
  holdEnd : Nat
  /-- R396: DEVCTL.FROZEN, and DEVCTL.FREEZE, which a write of 1 sets and the pin does not. -/
  frozen : Bool
  freezeBit : Bool
  /-- R326: the cycle and die of the last entry into a pool. -/
  entered : Nat × Nat
  msix : BitVec 2048
  /-- R389: what the host has written to BAR2. -/
  bar2 : Memory
  hostMem : Memory
deriving DecidableEq, Repr

/-- R389: a write of the host to the register window, or to BAR2: an offset, and 8 bytes or 4. -/
structure HostWrite where
  bar2 : Bool
  off : Nat
  wide : Bool
  v : Word
deriving DecidableEq, Repr

/-- What belongs to a context (R66, R95, R98): its extents, their epochs and its page tables. -/
structure Job where
  extents : Map Extent
  epochs : Map Nat
  ptes : Map Word
deriving DecidableEq, Repr

/-- Device memory; extents, epochs and tables are those of the running context, `jobs` holds the others'. -/
structure DevMem where
  jobs : Map Job
  extents : Map Extent
  epochs : Map Nat
  /-- 64-bit PTEs, at 512·frame + index. -/
  ptes : Map Word
  hbm : Memory
  tier2 : Memory
  ws : Memory
  /-- The key slot's key under which a 64-byte unit was written, when it was (R99). -/
  unitKey : Map (BitVec 512)
  /-- Runs of units that were zero-filled under a key: first unit, how many, key (R86, R99). -/
  fills : List (Nat × Nat × BitVec 512)
  /-- R359: poisoned 256-byte units of HBM, and poisoned parity units: stack, channel and unit of the channel. -/
  poison : List Nat
  badParity : List (Nat × Nat × Nat)
  /-- R353: the granules of the package's checked memories, and of its flits, that carry wrong bits. -/
  flaws : List Flaw
  signals : Map Word
  sigPoison : List Nat
  homes : Map Home
deriving DecidableEq, Repr

/-! ## The machine -/

/-- The unit whose word runs. -/
inductive Cur where
  | cox (t : TileId)
  | eng (t : TileId) (e : Eng)
  | cp (g : Fin 4096)
deriving DecidableEq, Repr

/-- What moves next (log entry 4, DESIGN CHOICE): the issue of a unit, a Portage line, an event, or the end of the cycle. -/
inductive Turn where
  | cox (t : TileId)
  | eng (t : TileId) (e : Eng)
  | cp (g : Fin 4096)
  | granule (t : TileId) (id : Nat)
  | event (i : Instr)
  /-- The scheduler changes the running context (R98). -/
  | context (n : Nat)
  /-- The host writes to the register window or to BAR2 (R389), or to its own memory (R390). -/
  | host (w : HostWrite)
  | hostMem (addr : Nat) (bs : List Byte)
  /-- Something goes wrong (R353). -/
  | upset (u : Upset)
  | endCycle
deriving DecidableEq, Repr

/-- The part of a cycle that runs: what falls due by the clock (the leak of R366, then each die's periodic test of R367),
its first events, its words, its landings. -/
inductive Phase where
  | ticking (k : Nat)
  | starting | running | ending
deriving DecidableEq, Repr

/-- Why the machine stops. -/
inductive Fault where
  /-- Raised by the step of a module whose clocks are stopped (R396) when the agenda's next turn is no cold reset.
  Safe: nothing of a frozen module moves. -/
  | frozen
deriving DecidableEq, Repr

/-- Why the model has no next state. -/
inductive Refusal where
  /-- Raised by `exec` for an instruction that has no meaning yet, by its mnemonic. Safe. -/
  | notModelled (mnemonic : String)
deriving DecidableEq, Repr

/-- The state of the module. -/
structure State where
  gtime : Nat
  phase : Phase
  agenda : List Turn
  cur : Cur
  /-- Units that have had their turn in this cycle (R254). -/
  tried : List Cur
  fresh : Nat
  tiles : Map Tile
  crews : Map Crew
  dies : Map Die
  launches : List Launch
  dev : DevMem
  fab : Fabric
  sys : Sys
deriving DecidableEq, Repr

/-! ## Reset (R9, R251, R279, R317; log entries 1 to 3) -/

/-- A checkpoint of cleared registers. -/
def Checkpoint.reset : Checkpoint := ⟨Vector.replicate 64 0, 1, 1, 1⟩

/-- Nothing pending. -/
def Pending.reset : Pending := ⟨false, none, false, false, false⟩

/-- A Cox after cold reset, and after R251 and R282 clear it: `x0` and `p0` valid, `p0` true.
(Log entry 3, DESIGN CHOICE.) -/
def Cox.reset : Cox where
  x := Vector.replicate 64 0
  xv := 1
  p := 1
  pv := 1
  pc := 0
  branch := none
  imem := []
  rf := []
  nextReq := 0
  checkpoint := Checkpoint.reset
  head := 0
  region := 0
  regcnt := 0
  flight := []
  closing := false
  nextIssue := 0
  halted := false
  fault := none
  pend := Pending.reset
  ie := true
  tm := false
  tvec := 0
  tcause := 0
  tpc := 0
  tregion := 0
  taddr := 0
  tinfo := 0
  tint := 0
  bfmt := Vector.replicate 16 0
  defer := 0
  mcdelay := 0
  wheel := Vector.replicate 4 0
  savePois := 0
  saveSt := 0
  mismatches := 0
  checks := []
  stopped := false
  dbgHalted := false
  mustSave := Vector.replicate 16 none

/-- An engine: empty queue, no section, nothing retired. -/
def Engine.reset : Engine where
  queue := []
  pushed := 0
  qseq := 0
  store := []
  dir := []
  lastSec := 0
  noneRetired := true
  depMet := 0
  index := 0
  branch := none
  nextIssue := 0
  fault := none
  stopped := false

/-- An UNSET port (R173). -/
def Port.reset : Port := ⟨none, 0, [], false, false⟩

/-- The vector engine: every register invalid but `k0`, which reads as all ones. (Log entry 3, DESIGN CHOICE.) -/
def VState.reset : VState where
  v := Vector.replicate 64 (Vector.replicate 32 0)
  vv := 0
  k := (Vector.replicate 64 (0 : Lane)).set 0 0xFFFFFFFF
  kv := 1
  vrb := 0
  krb := 0
  lc := 0
  ec := 0
  ports := Vector.replicate 12 Port.reset
  flight := []

/-- R207: the matrix state, raw FP32 operand formats and full masks. -/
def MState.reset : MState where
  mrow := BitVec.allOnes 128
  mcol := BitVec.allOnes 128
  fmta := 0x20000000
  fmtb := 0x20000000
  sa := 0
  sb := 0
  bclosed := 0
  bret := 0
  lstate := .none
  leaseN := 0
  leaseBudget := 0
  batches := []
  window := none
  windows := 0
  replay := none
  replayCode := 0

/-- Portage with an empty time buffer. -/
def Portage.reset : Portage := ⟨[], 0, 0, [], []⟩

/-- A tile with no iteration. -/
def Tile.reset : Tile where
  cox := Cox.reset
  engines := Vector.replicate 4 Engine.reset
  tokens := Vector.replicate 4 (Vector.replicate 4 0)
  v := VState.reset
  m := MState.reset
  portage := Portage.reset
  sp := []
  used := []
  place := none
  iter := none
  ending := none
  budget := 0
  reqs := []
  since := 0
  scOps := []
  replies := []
  mcQueue := []
  delay := []
  winIn := []
  cpIn := []
  arrived := []
  contexts := []
  image := none
  tlb := []
  tdbgResume := false

/-- A FREE slot. -/
def Slot.reset : Slot := ⟨.free, 0, 0, 0, false, []⟩
/-- A FREE bank. -/
def Bank.reset : Bank := ⟨.free, 0, [], 0⟩

/-- A crew without a lease holder. -/
def Crew.reset : Crew where
  holder := none
  grant := none
  lastHolder := 0
  turnWords := 0
  turnStart := 0
  turnN := 0
  turnBudget := 0
  busyUntil := 0
  lastReadEnd := 0
  cmds := []
  slots := Vector.replicate 32 Slot.reset
  banks := Vector.replicate 32 Bank.reset
  tlb := []

/-- R365: a bank after cold reset. -/
def McBank.reset : McBank where
  val := false
  past := false
  cls := 0
  lasting := false
  addrv := false
  miscv := false
  code := 0
  unit := 0
  events := 0
  addr := 0
  akind := 0
  detail := 0
  bucket := 0
  thresh := 16
  leak := 64
  xint := true
  cint := false

/-- R367: self-test after cold reset, every crew online (log entry 1, DESIGN CHOICE). -/
def SelfTest.reset : SelfTest := ⟨0, false, 0, BitVec.allOnes 32, 0, 0, 0, 0, [], none⟩

/-- R311, R390: a queue after cold reset. -/
def LQueue.reset : LQueue := ⟨false, false, 7, 0, false, 4, 0, 0, false, [], 0⟩

/-- A die after cold reset: the launch counter at 1 (R304). -/
def Die.reset : Die where
  pitch := []
  slots := []
  stations := []
  ingress := []
  seqOut := []
  seqIn := []
  queues := []
  counter := 1
  poolReqs := []
  window := []
  done := []
  banks := []
  test := SelfTest.reset
  replicas := []
  tlb := []
  frozen := false
  celsius := 45
  tce := []
  preq := []
  notices := []
  events := []

/-- R231: a FREE entry with no last generation. -/
def Group.reset : Group := ⟨.free, 0, none, 0, 0, 0, 0, none, [], 0⟩

/-- A home with no counts. -/
def Home.reset : Home :=
  { rows := [], moves := [], spares := [], remaps := [], buckets := [], retired := [], scrub := [] }

/-- An invalid peer entry. -/
def Peer.reset : Peer := ⟨0, 0, 0⟩

/-- The fabric with nothing sent. -/
def Fabric.reset : Fabric :=
  { seqOut := [], sent := [], high := [], marks := [], early := [], groups := [], applying := [], linkRetired := [], outOfDomain := false }

/-- Device memory after cold reset: no extent, every Signal word 0 (R287). (Log entry 47, DESIGN CHOICE.) -/
def DevMem.reset : DevMem :=
  { jobs := [], extents := [], epochs := [], ptes := [], hbm := [], tier2 := [], ws := [], unitKey := [], fills := [],
    poison := [], badParity := [], flaws := [], signals := [], sigPoison := [], homes := [] }

/-- The package's registers after cold reset; IMGADDR reads 0, and no MSI-X vector is pending. (Log entry 1, DESIGN CHOICE.) (Log entry 48, DESIGN CHOICE.) -/
def Sys.reset : Sys where
  context := 0
  pkg := 0
  domain := 256
  reach := (List.range 256).map (BitVec.ofNat 8)
  ready := false
  bootfail := false
  bootTries := 0
  fwCps := 0
  fwVersion := 0
  keys := []
  pairOk := true
  tier2GiB := 2048
  tceOnline := 0xF
  savePool := 0
  shadowPool := 0
  ctxflush := false
  imgaddr := 0
  imghandle := 0
  images := []
  peers := []
  bhAllow := 0xA00000
  bhSetv := false
  bhHoldno := 0
  bhBytes := 0
  boathouse := []
  hold := none
  holdP := 0
  holdEnd := 0
  frozen := false
  freezeBit := false
  entered := (0, 0)
  msix := 0
  bar2 := []
  hostMem := []

/-- The module right after cold reset (R9): tiles, crews and dies that no entry lists are as their own `reset`.
(Log entry 1, DESIGN CHOICE.) -/
def State.reset : State where
  gtime := 0
  phase := .running
  agenda := []
  cur := .cox 0
  tried := []
  fresh := 0
  tiles := []
  crews := []
  dies := []
  launches := []
  dev := DevMem.reset
  fab := Fabric.reset
  sys := Sys.reset

end Sys2Proof.Machine
end

