-- ==== Sys2Proof/Machine/Map.lean ====
section
/-! DEFINITION. The operations of the finite maps that hold all sparse state, byte memories among them, and the
accessors of tiles, crews, dies and engines. -/

namespace Sys2Proof

/-- An engine's index. -/
def Eng.ix : Eng → Fin 4
  | .l => 0 | .v => 1 | .m => 2 | .s => 3
/-- The engines in the order of R37. -/
def engines : List Eng := [.l, .v, .m, .s]
/-- The stream of an engine. -/
def Eng.stream : Eng → Stream
  | .l => .l | .v => .v | .m => .m | .s => .s
/-- The source number of an engine in TCAUSE (R329). -/
def Eng.src : Eng → Nat
  | .l => 1 | .v => 2 | .m => 3 | .s => 4

end Sys2Proof

namespace Sys2Proof.Machine

open Sys2Proof

/-! ## Maps -/

/-- The value at a key, `d` where nothing is listed. -/
def Map.get {α : Type} : Map α → Nat → α → α
  | [], _, d => d
  | (j, v) :: m, k, d => if j = k then v else Map.get m k d

/-- Lists a value, keys kept rising. -/
def Map.set {α : Type} : Map α → Nat → α → Map α
  | [], k, v => [(k, v)]
  | (j, w) :: m, k, v =>
    if k < j then (k, v) :: (j, w) :: m
    else if j = k then (k, v) :: m
    else (j, w) :: Map.set m k v

/-- Removes a key. -/
def Map.erase {α : Type} (m : Map α) (k : Nat) : Map α := m.filter fun e => e.1 ≠ k

/-- Lists a value, or removes the entry when the value is what an unlisted key reads as. -/
def Map.put {α : Type} [DecidableEq α] (m : Map α) (k : Nat) (v d : α) : Map α :=
  if v = d then m.erase k else m.set k v

/-- Is anything listed at the key? -/
def Map.find? {α : Type} : Map α → Nat → Option α
  | [], _ => none
  | (j, v) :: m, k => if j = k then some v else Map.find? m k

/-- The canonical form: keys strictly rising, and no entry equal to the value of an unlisted key. -/
def Map.wf {α : Type} [DecidableEq α] (d : α) : Map α → Bool
  | [] => true
  | [(_, v)] => decide (v ≠ d)
  | (j, v) :: (k, w) :: m => decide (v ≠ d) && decide (j < k) && Map.wf d ((k, w) :: m)

/-! ## Byte memories (log entry 2, DESIGN CHOICE: an unlisted byte reads as 0) -/

/-- One byte. (Log entry 2, DESIGN CHOICE.) -/
def Memory.get (m : Memory) (a : Nat) : Byte := Map.get m a 0

/-- Writes one byte. -/
def Memory.put (m : Memory) (a : Nat) (b : Byte) : Memory := Map.put m a b 0

/-- The canonical form of a memory. -/
def Memory.wf (m : Memory) : Bool := Map.wf (0 : Byte) m

/-- `n` bytes from `a` on. -/
def Memory.read (m : Memory) (a : Nat) : Nat → List Byte
  | 0 => []
  | n + 1 => m.get a :: Memory.read m (a + 1) n

/-- The little-endian number in `n` bytes (R6). -/
def Memory.readNat (m : Memory) (a n : Nat) : Nat := ofBytes (m.read a n)

/-- Writes bytes from `a` on. -/
def Memory.write (m : Memory) (a : Nat) : List Byte → Memory
  | [] => m
  | b :: bs => (m.put a b).write (a + 1) bs

/-- The byte with the bits of `mask` taken from `b` (R169). -/
def mergeBits (old b mask : Byte) : Byte := (old &&& ~~~mask) ||| (b &&& mask)

/-- Writes bytes at their own addresses, each under its mask of bits. -/
def Memory.writeMasked (m : Memory) : List (Nat × Byte × Byte) → Memory
  | [] => m
  | (a, b, mask) :: bs => (m.put a (mergeBits (m.get a) b mask)).writeMasked bs

/-- Writes bytes at their own addresses. -/
def Memory.writeAt (m : Memory) : List (Nat × Byte) → Memory
  | [] => m
  | (a, b) :: bs => (m.put a b).writeAt bs

/-- What a meaning answers. -/
abbrev Out := Host.Outcome State Fault Refusal

/-! ## Units (R17, R18, R37) -/

/-- The crew of a tile. -/
def crewOf (t : TileId) : CrewId := Fin.ofNat 128 (t.val / 4)
/-- A tile's place in its crew. -/
def laneOf (t : TileId) : Fin 4 := Fin.ofNat 4 t.val
/-- The die of a tile. -/
def dieOf (t : TileId) : DieId := Fin.ofNat 4 (t.val / 128)
/-- The die of a crew. -/
def dieOfCrew (c : CrewId) : DieId := Fin.ofNat 4 (c.val / 32)
/-- Tile `k` of a crew. -/
def tileOf (c : CrewId) (k : Fin 4) : TileId := Fin.ofNat 512 (4 * c.val + k.val)
/-- The Course station of a tile, on its die. -/
def stationOf (t : TileId) : Nat := t.val % 128
/-- A home of a die. -/
def homeOf (d h : Nat) : HomeId := Fin.ofNat 8 (2 * d + h)

/-- R20, R92: the stack, the channel and the unit of its channel of an HBM address; the groups lie at multiples of
320 GiB (log entry 11, DESIGN CHOICE). -/
def hbmPlace (phys : Nat) : Nat × Nat × Nat :=
  let g := phys / 343597383680
  let u := phys % 343597383680 / 256
  let q := u / 64
  let row := q / 5
  let j := q % 5
  let pstack := row % 6
  (6 * g + (if j < pstack then j else j + 1), u % 64, row)

/-- R21: the home of a channel of a stack: the die of the stack and the parity of the channel. -/
def channelHome (stack ch : Nat) : HomeId := homeOf (stack / 3 % 4) (ch % 2)

/-- R20, R21, R92: the home of an HBM address. -/
def hbmHome (phys : Nat) : HomeId := channelHome (hbmPlace phys).1 (hbmPlace phys).2.1

/-- The home that serves an address of a tier (R21, R22; log entry 11, DESIGN CHOICE). -/
def homeFor (tier phys : Nat) : HomeId :=
  match tier with
  | 0 => hbmHome phys
  | 1 => homeOf (phys / 549755813888 % 4) (phys / 256 % 2)
  | _ => homeOf (phys / 2147483648 % 4) 0

/-! ## Accessors -/

/-- A tile. -/
def State.tile (s : State) (t : TileId) : Tile := s.tiles.get t.val Tile.reset
/-- Replaces a tile. -/
def State.setTile (s : State) (t : TileId) (x : Tile) : State := { s with tiles := s.tiles.set t.val x }
/-- Changes a tile. -/
def State.modTile (s : State) (t : TileId) (f : Tile → Tile) : State := s.setTile t (f (s.tile t))
/-- Changes a tile's Cox. -/
def State.modCox (s : State) (t : TileId) (f : Cox → Cox) : State := s.modTile t fun x => { x with cox := f x.cox }
/-- A tile's Cox. -/
def State.cox (s : State) (t : TileId) : Cox := (s.tile t).cox
/-- An engine of a tile. -/
def Tile.eng (x : Tile) (e : Eng) : Engine := x.engines[e.ix]
/-- Changes an engine. -/
def Tile.modEng (x : Tile) (e : Eng) (f : Engine → Engine) : Tile :=
  { x with engines := x.engines.set e.ix (f (x.eng e)) }
/-- Changes an engine of a tile. -/
def State.modEng (s : State) (t : TileId) (e : Eng) (f : Engine → Engine) : State := s.modTile t fun x => x.modEng e f
/-- A crew. -/
def State.crew (s : State) (c : CrewId) : Crew := s.crews.get c.val Crew.reset
/-- Changes a crew. -/
def State.modCrew (s : State) (c : CrewId) (f : Crew → Crew) : State := { s with crews := s.crews.set c.val (f (s.crew c)) }
/-- A die. -/
def State.die (s : State) (d : DieId) : Die := s.dies.get d.val Die.reset
/-- Changes a die. -/
def State.modDie (s : State) (d : DieId) (f : Die → Die) : State := { s with dies := s.dies.set d.val (f (s.die d)) }
/-- A queue of a die. -/
def Die.queue (x : Die) (q : QueueId) : LQueue := x.queues.get q.val LQueue.reset
/-- Changes a queue. -/
def Die.modQueue (x : Die) (q : QueueId) (f : LQueue → LQueue) : Die :=
  { x with queues := x.queues.set q.val (f (x.queue q)) }
/-- Changes device memory. -/
def State.modDev (s : State) (f : DevMem → DevMem) : State := { s with dev := f s.dev }
/-- Changes the fabric. -/
def State.modFab (s : State) (f : Fabric → Fabric) : State := { s with fab := f s.fab }
/-- Changes the package's registers. -/
def State.modSys (s : State) (f : Sys → Sys) : State := { s with sys := f s.sys }
/-- A group entry. -/
def State.group (s : State) (g : Nat) : Group := s.fab.groups.get g Group.reset
/-- Changes a group entry. -/
def State.modGroup (s : State) (g : Nat) (f : Group → Group) : State :=
  s.modFab fun b => { b with groups := b.groups.set g (f (s.group g)) }
/-- An extent. -/
def State.extent? (s : State) (e : Nat) : Option Extent := s.dev.extents.find? e
/-- Replaces an extent. -/
def State.setExtent (s : State) (e : Nat) (x : Extent) : State :=
  s.modDev fun d => { d with extents := d.extents.set e x }
/-- A home. -/
def State.home (s : State) (h : Nat) : Home := s.dev.homes.get h Home.reset
/-- Changes a home. -/
def State.modHome (s : State) (h : Nat) (f : Home → Home) : State :=
  s.modDev fun d => { d with homes := d.homes.set h (f (s.home h)) }
/-- A launch that is pending or running. -/
def State.launch? (s : State) (id : BitVec 32) : Option Launch := s.launches.find? fun l => l.id = id
/-- Changes a launch. -/
def State.modLaunch (s : State) (id : BitVec 32) (f : Launch → Launch) : State :=
  { s with launches := s.launches.map fun l => if l.id = id then f l else l }
/-- Advances the counter of free values. -/
def State.tick (s : State) (n : Nat) : State := { s with fresh := s.fresh + n }

/-- Removes the first element that a test holds of. -/
def removeFirst {α : Type} (p : α → Bool) : List α → Option (α × List α)
  | [] => none
  | a :: l => if p a then some (a, l) else (removeFirst p l).map fun r => (r.1, a :: r.2)

/-- A fold over the numbers below `n`, lowest first. -/
def foldN {σ : Type} (n : Nat) (f : σ → Nat → σ) (s : σ) : σ := (List.range n).foldl f s

/-- The tile that the running word or event acts for: the one `cur` names, or the owner of the running group. -/
def State.curTile (s : State) : TileId :=
  match s.cur with
  | .cox t => t
  | .eng t _ => t
  | .cp g => (s.group g.val).owner

/-- The engine that `cur` names. -/
def State.curEng (s : State) : Eng :=
  match s.cur with
  | .eng _ e => e
  | _ => .l

/-- The group that `cur` names. -/
def State.curGroup (s : State) : Nat :=
  match s.cur with
  | .cp g => g.val
  | _ => 0

/-- Is a tile iteration allocated and not pre-empted (R317, R340)? -/
def Tile.live (x : Tile) : Bool := x.iter.isSome
/-- Is a hold-up in progress (R373)? -/
def State.holding (s : State) : Bool := s.sys.hold.isSome

end Sys2Proof.Machine
end

