-- ==== Sys2Proof/Machine/Flags.lean ====
section
/-! DEFINITION. Conditions and orderings of 64-bit values (R54, R264, R266), the logic operations on single bits (R190,
R267), the operations of atomics (R270, R290), the extension of memory values (R269), and integer division (R265). -/

namespace Sys2Proof.Machine

open Sys2Proof

/-- The truth of `a cc b` (R54, R266). -/
def condHolds : Cond → Word → Word → Bool
  | .eq, a, b => a == b
  | .ne, a, b => a != b
  | .lt, a, b => a.slt b
  | .le, a, b => a.sle b
  | .gt, a, b => b.slt a
  | .ge, a, b => b.sle a
  | .ltn, a, b => a.ult b
  | .len, a, b => a.ule b
  | .gtn, a, b => b.ult a
  | .gen, a, b => b.ule a

/-- The operations of `PLOG` on single bits (R190, R267). -/
def logBit : LogOp → Bool → Bool → Bool
  | .and, a, b => a && b
  | .or, a, b => a || b
  | .xor, a, b => a != b
  | .andn, a, b => a && !b
  | .orn, a, b => a || !b
  | .xnor, a, b => a == b

/-- The same on the 32 bits of a mask register. -/
def logLane : LogOp → Lane → Lane → Lane
  | .and, a, b => a &&& b
  | .or, a, b => a ||| b
  | .xor, a, b => a ^^^ b
  | .andn, a, b => a &&& ~~~b
  | .orn, a, b => a ||| ~~~b
  | .xnor, a, b => ~~~(a ^^^ b)

/-- The larger of two words, signed or not. -/
def maxWord (signed : Bool) (a b : Word) : Word := if (if signed then a.slt b else a.ult b) then b else a
/-- The smaller of two words, signed or not. -/
def minWord (signed : Bool) (a b : Word) : Word := if (if signed then a.slt b else a.ult b) then a else b

/-- R270, R290: the new value of a word under an atomic operation. -/
def atomNew (op : AtomOp) (signed : Bool) (old b : Word) : Word :=
  match op with
  | .add => old + b
  | .swap => b
  | .max => maxWord signed old b
  | .min => minWord signed old b
  | .and => old &&& b
  | .or => old ||| b

/-- R270, R290: the same with compare-and-swap, `c` being the compared value. -/
def satNew (op : SatOp) (signed : Bool) (old b c : Word) : Word :=
  match op with
  | .op o => atomNew o signed old b
  | .cas _ => if old = c then b else old

/-- Bytes of a width. -/
def widthBytes : Width → Nat
  | .b1 => 1 | .b2 => 2 | .b4 => 4 | .b8 => 8

/-- R269: `w` bytes extended to 64 bits, by the sign or by zeros. -/
def extend (ty : MemTy) (n : Nat) : Word :=
  if ty.signed then BitVec.ofInt 64 (sextNat (8 * widthBytes ty.width) n)
  else BitVec.ofNat 64 (n % 2 ^ (8 * widthBytes ty.width))

/-- R264: `MULH`. -/
def mulHigh (a b : Word) : Word := BitVec.ofInt 64 (a.toInt * b.toInt / 2 ^ 64)
/-- R264: `MULHN`. -/
def mulHighN (a b : Word) : Word := BitVec.ofNat 64 (a.toNat * b.toNat / 2 ^ 64)
/-- R264, R265: `DIV`. -/
def divS (a b : Word) : Word := if b = 0 then BitVec.allOnes 64 else a.sdiv b
/-- R264, R265: `DIVN`. -/
def divU (a b : Word) : Word := if b = 0 then BitVec.allOnes 64 else a / b
/-- R264, R265: `REM`. -/
def remS (a b : Word) : Word := if b = 0 then a else a.srem b
/-- R264, R265: `REMN`. -/
def remU (a b : Word) : Word := if b = 0 then a else a % b
/-- R264: leading zeros, 64 for 0. -/
def clzWord (a : Word) : Word := BitVec.ofNat 64 (if a = 0 then 64 else 63 - a.toNat.log2)
/-- R264: trailing zeros, 64 for 0. -/
def ctzWord (a : Word) : Word :=
  BitVec.ofNat 64 (((List.range 64).find? fun i => a.getLsbD i).getD 64)
/-- R264: ones. -/
def popcWord (a : Word) : Word := BitVec.ofNat 64 ((List.range 64).filter fun i => a.getLsbD i).length
/-- Shift count of R264: `b[5:0]`. -/
def shiftOf (b : Word) : Nat := b.toNat % 64

end Sys2Proof.Machine
end

