-- ==== Sys2Proof/WellFormed.lean ====
section
/-! DEFINITION. Which terms of `Instr` stand for words of a stream: the checks of R62 that the operand types do
not already make (R53, R54, R56, R74, R80, R128, R191, R217, R241, R277, R279, R288). -/

namespace Sys2Proof

/-! ## Small predicates -/

/-- The immediate of a cox source, if it is one. -/
def Src.imm? : Src → Option (BitVec 32)
  | .imm i => some i
  | _ => none

/-- The immediate of a V source, if it is one. -/
def VSrc.imm? : VSrc → Option (BitVec 32)
  | .imm i => some i
  | _ => none

/-- R52, R53: of a list of sources at most one is of class 11. -/
def oneImm (l : List (Option (BitVec 32))) : Bool := decide ((l.filter Option.isSome).length ≤ 1)

/-- R53: an immediate read as `.bf16` or `.f16` has IMM[31:16] = 0. -/
def immFits (half : Bool) (l : List (Option (BitVec 32))) : Bool :=
  !half || l.all fun o => match o with
    | some i => decide (i.toNat < 65536)
    | none => true

/-- R185: the 16-bit FP types. -/
def FpTy.half : FpTy → Bool
  | .f32 => false
  | .bf16 | .f16 => true

/-- The 16-bit FP types among lane types. -/
def LaneTy.half : LaneTy → Bool
  | .fp t => t.half
  | .int _ => false

/-- The 16-bit FP types among conversion types. -/
def CvtTy.half : CvtTy → Bool
  | .bf16 | .f16 => true
  | _ => false

/-- R56: TP and TS name another engine. -/
def Tok.wf (e : Eng) (t : Tok) : Bool := decide (t.pop ≠ some e) && decide (t.push ≠ some e)

/-- R54, R185: an FP word of one, two or three sources. -/
def vfpWf (h : VHead) (ty : FpTy) (l : List VSrc) : Bool :=
  h.tok.wf .v && oneImm (l.map VSrc.imm?) && immFits ty.half (l.map VSrc.imm?)

/-- A V word of two untyped or integer sources. -/
def vsrcWf (h : VHead) (l : List VSrc) : Bool := h.tok.wf .v && oneImm (l.map VSrc.imm?)

/-- R52, R53: a Cox word of two sources. -/
def aluWf (a b : Src) : Bool := oneImm [a.imm?, b.imm?]

/-- R279: the numbers of the CSRs. -/
def csrListed (n : Nat) : Bool :=
  decide (n ≤ 6) || (decide (0x10 ≤ n) && decide (n ≤ 0x17)) || (decide (0x20 ≤ n) && decide (n ≤ 0x23)) ||
    (decide (0x30 ≤ n) && decide (n ≤ 0x33)) || (decide (0x40 ≤ n) && decide (n ≤ 0x4F))

/-- R288: the order and scope of a Signal word, with the orders the word lists. -/
def sigWf (ords : List Order) (o : Order) (s : Scope) : Bool :=
  ords.contains o && !(o == .sc && s == .dom)

/-- R128: the element operand of a command that never rounds, or that takes no start time. -/
def ElemOp.wf (e : Eng) (rounds timed : Bool) (o : ElemOp) : Bool :=
  o.tok.wf e && (rounds || o.rm == .rne) && (timed || o.timed == none)

/-- R128: the signal forms. -/
def CSigOp.wf (e : Eng) (ords : List Order) (o : CSigOp) : Bool := o.tok.wf e && ords.contains o.ord

/-- R128: the engine of an L or S stream. -/
def Stream.ls? : Stream → Option Eng
  | .l => some .l
  | .s => some .s
  | _ => none

/-- A check for words of both copy streams. -/
def lsWf (st : Stream) (f : Eng → Bool) : Bool :=
  match st.ls? with
  | some e => f e
  | none => false

/-- R217: the limits of a multiply command. -/
def MmaOp.wf (o : MmaOp) : Bool :=
  o.tok.wf .m && decide (o.aoff.toNat + o.k1.toNat + 1 ≤ 128) && decide (o.boff.toNat + o.k1.toNat + 1 ≤ 128)

/-- R191: at most one side is `.nf`, whose FMT word stands in IMM, so that A is then not the immediate. -/
def VCvtOp.wf (o : VCvtOp) : Bool :=
  let nf := o.src == .nf || o.dst == .nf
  o.h.tok.wf .v && !(o.src == .nf && o.dst == .nf) &&
    (if nf then o.a.imm? == none else decide (o.fmt = 0)) && immFits o.src.half [o.a.imm?]

/-! ## Well-formed words -/

/-- `i` is a word of stream `st`: R62 finds nothing against it. Events and step words are words of no stream. -/
def Instr.wf (st : Stream) (i : Instr) : Bool :=
  match i with
  | .add o | .sub o | .mul o | .mulh o | .mulhn o | .div o | .divn o | .rem o | .remn o | .and o | .or o | .xor o
  | .andn o | .shl o | .shr o | .sra o | .rot o | .min o | .max o | .minn o | .maxn o =>
    st == .cox && aluWf o.a o.b
  | .clz _ | .ctz _ | .popc _ => st == .cox
  | .sext o | .zext o => st == .cox && !(o.w == .b8)
  | .li .. | .lih _ => st == .cox
  | .sel o => st == .cox && aluWf o.a o.b
  | .cmp o => st == .cox && aluWf o.a o.b
  | .plog _ | .pmovPP .. | .pmovPX .. | .pmovXP .. | .pmovXPall .. | .pmovPallX .. => st == .cox
  | .ld .. | .ldFifo _ | .st .. | .stAtomic .. | .stCas .. | .ldi _ | .ldiTouch .. => st == .cox
  | .lds .. | .ldsTouch .. | .sts .. | .close .. | .adda .. => st == .cox
  | .sld o => st == .cox && sigWf [.rlx, .acq, .sc] o.ord o.sc
  | .sst o _ => st == .cox && sigWf [.rlx, .rel, .sc] o.ord o.sc
  | .satom o _ _ _ => st == .cox && sigWf [.rlx, .acq, .rel, .ar, .sc] o.ord o.sc
  | .fence _ | .br .. | .brl .. | .jr .. | .ret .. | .bct .. | .region _ => st == .cox
  | .exec _ | .waitq .. | .waitb .. | .qstat .. => st == .cox
  | .mlease _ n tb => st == .cox && decide (1 ≤ n.val) && decide (n.val ≤ 64) && decide (1 ≤ tb.toNat)
  | .mfree _ | .acalloc .. | .acfree .. | .osclaim .. | .osrel .. => st == .cox
  | .acown _ a b => st == .cox && (match a, b with
    | .imm _, .imm _ => false
    | _, _ => true)
  | .extnew .. | .extq .. | .extfree .. => st == .cox
  | .recast o => st == .cox && (!o.fresh || o.role == .s)
  | .launch .. | .launchw .. | .join .. | .done _ | .trap .. | .rft _ => st == .cox
  | .csrr _ _ c => st == .cox && csrListed c.toNat
  | .csrw _ c _ => st == .cox && csrListed c.toNat
  | .nop _ | .halt _ | .waitcyc .. | .waitcycUntil .. | .msdecl .. | .pfrestore .. => st == .cox
  | .pfack g => st == .cox && g == ⟨0, false⟩
  | .grpopen .. | .grpfree .. => st == .cox
  | .vadd o | .vsub o | .vmul o | .vmin o | .vmax o | .vdiv o => st == .v && vfpWf o.h o.ty [o.a, o.b]
  | .vfma o | .vfms o | .vnfma o => st == .v && vfpWf o.h o.ty [o.a, o.b, o.c]
  | .vabs o | .vneg o | .vsqrt o | .vexp2 o | .vlog2 o | .vrcp o | .vrsq o => st == .v && vfpWf o.h o.ty [o.a]
  | .viadd o | .visub o | .vimul o | .vimin o | .vimax o => st == .v && vsrcWf o.h [o.a, o.b]
  | .vand o | .vor o | .vxor o | .vshl o | .vshr o | .vsra o => st == .v && vsrcWf o.h [o.a, o.b]
  | .vcmp o => st == .v && vsrcWf o.h [o.a, o.b] && decide (o.cc ∈ [Cond.eq, .ne, .lt, .le, .gt, .ge]) &&
      immFits o.ty.half [o.a.imm?, o.b.imm?]
  | .vsel h _ a b _ => st == .v && vsrcWf h [a, b]
  | .vplog h .. => st == .v && h.tok.wf .v
  | .vcvt o => st == .v && o.wf
  | .vqblk h .. => st == .v && h.tok.wf .v
  | .vdqblk h _ a _ fmt => st == .v && h.tok.wf .v && (match a.imm? with
    | some i => decide (i = fmt)
    | none => true)
  | .vred o | .vscan o => st == .v && o.h.tok.wf .v
  | .vperm h .. | .vbcst h .. | .vslide h .. | .vldi h .. | .vmov h .. | .vmovK h .. | .vmovToCsr h ..
  | .vmovFromCsr h .. | .vmovMaskToV h .. | .vmovVToMask h .. => st == .v && h.tok.wf .v
  | .vpset o _ | .vprst o | .vpsync o => st == .v && o.tok.wf .v
  | .vacrd h .. | .vacwr h .. | .vtcw h .. => st == .v && h.tok.wf .v
  | .vtwin h .. => st == .v && h.tok.wf .v
  | .vloop t _ | .vend t | .vnop t => st == .v && t.wf .v
  | .vbr h .. => st == .v && h.tok.wf .v
  | .cnop t _ | .cwaitTime t _ | .cend t => lsWf st t.wf
  | .cpy o | .cpyr o | .cgath o | .cscat o | .csg o | .cseal o => lsWf st fun e => o.wf e true true
  | .cfill o | .ctce o => lsWf st fun e => o.wf e false true
  | .cprb o => lsWf st fun e => o.wf e false false
  | .cpyt o _ => lsWf st fun e => o.wf e true false
  | .copld o _ | .covl o => st == .l && o.wf .l false true
  | .cwtx o => st == .l && o.wf .l true true
  | .csig o => lsWf st fun e => o.wf e [.rlx, .rel]
  | .cwaitSignal o => lsWf st fun e => o.wf e [.rlx, .acq]
  | .msetrow t lo hi | .msetcol t lo hi =>
    st == .m && t.wf .m && decide (lo.toNat ≤ hi.toNat) && decide (hi.toNat ≤ 128)
  | .msetrowPart t .. | .msetcolPart t .. | .mfmt t .. | .mscale t .. => st == .m && t.wf .m
  | .mma o | .mmaz o | .mmat o | .mtcw o => st == .m && o.wf
  | .mcommit t | .macz t _ | .mend t => st == .m && t.wf .m
  | .mtile t b c => st == .m && t.wf .m && decide (b.val + c.val + 1 ≤ 32)
  | _ => false

/-- R240, R241: `i` is a step word that R241 finds nothing against. -/
def Instr.wfStep (i : Instr) : Bool :=
  match i with
  | .send .. | .recv _ | .copy .. | .rrs .. | .waitTimeStep _ | .waitAfterT0Step _ | .loop .. | .endl | .stepDone => true
  | .waitSignalStep s .. => !(s == .tile) && !(s == .gang)
  | _ => false

end Sys2Proof
end

