-- ==== Sys2Proof/Decode.lean ====
section
/-! DEFINITION. From bits to instructions and back: the fields of a Belpol word (R48, R49), the specifiers of R50,
the codes of R54, the four opcode maps of R64 with the checks of R62 by their reason codes, the step words of R240,
and, written from the same tables, the encoder. -/

namespace Sys2Proof

/-! ## Fields (R48) -/

/-- The fields of a word, as numbers. -/
structure Fields where
  opc : Nat
  pn : Nat := 0
  pr : Nat := 0
  d : Nat := 0
  a : Nat := 0
  b : Nat := 0
  c : Nat := 0
  fn : Nat := 0
  ty : Nat := 0
  rm : Nat := 0
  r36 : Nat := 0
  tp : Nat := 0
  ts : Nat := 0
  imm : Nat := 0
deriving DecidableEq, Repr

/-- R48: the fields of a 96-bit word. -/
def Fields.split (w : Nat) : Fields where
  opc := bitsOf w 88 8
  pn := bitsOf w 87 1
  pr := bitsOf w 81 6
  d := bitsOf w 73 8
  a := bitsOf w 65 8
  b := bitsOf w 57 8
  c := bitsOf w 49 8
  fn := bitsOf w 44 5
  ty := bitsOf w 40 4
  rm := bitsOf w 37 3
  r36 := bitsOf w 36 1
  tp := bitsOf w 34 2
  ts := bitsOf w 32 2
  imm := bitsOf w 0 32

/-- R48: the word of the fields. -/
def Fields.join (f : Fields) : Nat :=
  f.opc * 2 ^ 88 + f.pn * 2 ^ 87 + f.pr * 2 ^ 81 + f.d * 2 ^ 73 + f.a * 2 ^ 65 + f.b * 2 ^ 57 + f.c * 2 ^ 49 +
  f.fn * 2 ^ 44 + f.ty * 2 ^ 40 + f.rm * 2 ^ 37 + f.r36 * 2 ^ 36 + f.tp * 2 ^ 34 + f.ts * 2 ^ 32 + f.imm

/-- Each field within its width. -/
def Fields.Fits (f : Fields) : Prop :=
  f.opc < 2 ^ 8 ∧ f.pn < 2 ∧ f.pr < 2 ^ 6 ∧ f.d < 2 ^ 8 ∧ f.a < 2 ^ 8 ∧ f.b < 2 ^ 8 ∧ f.c < 2 ^ 8 ∧ f.fn < 2 ^ 5 ∧
  f.ty < 2 ^ 4 ∧ f.rm < 2 ^ 3 ∧ f.r36 < 2 ∧ f.tp < 2 ^ 2 ∧ f.ts < 2 ^ 2 ∧ f.imm < 2 ^ 32

/-! ## Specifiers (R50) -/

/-- Class 00: `x0`–`x63`, or `v0`–`v63`. -/
def isReg (n : Nat) : Bool := decide (n < 64)
/-- Class 01 in the cox stream: `p0`–`p15`. -/
def isP (n : Nat) : Bool := decide (64 ≤ n) && decide (n < 80)
/-- Class 01 in the V stream: `k0`–`k63`. -/
def isK (n : Nat) : Bool := decide (64 ≤ n) && decide (n < 128)
/-- Class 10 index 0 in the cox stream. -/
def isRf (n : Nat) : Bool := n == 0x80
/-- `ip0`–`ip7`. -/
def isIp (n : Nat) : Bool := decide (0x80 ≤ n) && decide (n ≤ 0x87)
/-- `op0`–`op3`. -/
def isOp (n : Nat) : Bool := decide (0x88 ≤ n) && decide (n ≤ 0x8B)
/-- `s0`–`s3`. -/
def isS (n : Nat) : Bool := decide (0x90 ≤ n) && decide (n ≤ 0x93)
/-- Class 11 index 0. -/
def isImm (n : Nat) : Bool := n == 0xC0
/-- A cox source of class 00, 10 or 11. -/
def isSrc (n : Nat) : Bool := isReg n || isRf n || isImm n
/-- A cox source of class 00 or 10. -/
def isXRf (n : Nat) : Bool := isReg n || isRf n
/-- A cox source of class 00 or 11. -/
def isXImm (n : Nat) : Bool := isReg n || isImm n
/-- "vs" of R185. -/
def isVs (n : Nat) : Bool := isReg n || isIp n || isS n || isImm n
/-- V or P. -/
def isVp (n : Nat) : Bool := isReg n || isIp n
/-- V, S or #. -/
def isVsi (n : Nat) : Bool := isReg n || isS n || isImm n
/-- "vd" of R185. -/
def isVd (n : Nat) : Bool := isReg n || isOp n

/-- Is the class of a specifier 11 (R52)? -/
def class11 (n : Nat) : Bool := decide (0xC0 ≤ n)

/-- The index of a specifier (R50). -/
def idx (n : Nat) : Fin 64 := Fin.ofNat 64 n
/-- The index of a cox predicate specifier. -/
def pidx (n : Nat) : Fin 16 := Fin.ofNat 16 n

/-- A cox source. -/
def srcOf (imm n : Nat) : Src :=
  if isReg n then .x (idx n) else if isRf n then .rf else .imm (BitVec.ofNat 32 imm)
/-- A cox source without an immediate. -/
def xrfOf (n : Nat) : XRf := if isReg n then .x (idx n) else .rf
/-- A cox source without `rf`. -/
def xImmOf (imm n : Nat) : XImm := if isReg n then .x (idx n) else .imm (BitVec.ofNat 32 imm)
/-- A V source. -/
def vsrcOf (imm n : Nat) : VSrc :=
  if isReg n then .v (idx n) else if isIp n then .ip (Fin.ofNat 8 n)
  else if isS n then .s (Fin.ofNat 4 n) else .imm (BitVec.ofNat 32 imm)
/-- A V source of classes V and P. -/
def vpOf (n : Nat) : VP := if isReg n then .v (idx n) else .ip (Fin.ofNat 8 n)
/-- A V source of classes V, S and #. -/
def vsiOf (imm n : Nat) : VSI :=
  if isReg n then .v (idx n) else if isS n then .s (Fin.ofNat 4 n) else .imm (BitVec.ofNat 32 imm)
/-- A V destination. -/
def vdOf (n : Nat) : VDst := if isReg n then .v (idx n) else .op (Fin.ofNat 4 n)

/-! ## Codes (R37, R54, R110) -/

/-- TP or TS of engine `e` (R37). -/
def tokOf (e : Eng) (n : Nat) : Option Eng :=
  match e, n with
  | _, 0 => none
  | .l, 1 => some .v | .l, 2 => some .m | .l, _ => some .s
  | .v, 1 => some .l | .v, 2 => some .m | .v, _ => some .s
  | .m, 1 => some .l | .m, 2 => some .v | .m, _ => some .s
  | .s, 1 => some .l | .s, 2 => some .v | .s, _ => some .m

/-- Does TY name an integer type `.i8` to `.n64`? -/
def isMemTy (n : Nat) : Bool := decide (5 ≤ n) && decide (n ≤ 12)
/-- The integer type of a TY code. -/
def memTyOf (n : Nat) : MemTy :=
  ⟨match n with
    | 5 | 9 => .b1
    | 6 | 10 => .b2
    | 7 | 11 => .b4
    | _ => .b8, decide (n ≤ 8)⟩
/-- The width of a TY code of `SEXT` or `ZEXT`. -/
def extWOf (n : Nat) : Width := (memTyOf n).width
/-- `.i64` or `.n64` of the atomic forms. -/
def isAtTy (n : Nat) : Bool := n == 8 || n == 12
/-- FN 1–7 of the atomic forms without `cas` (R270). -/
def atomOf (n : Nat) : AtomOp :=
  match n with
  | 1 => .add
  | 2 => .swap
  | 4 => .max
  | 5 => .min
  | 6 => .and
  | _ => .or
/-- The condition of FN. -/
def condOf (n : Nat) : Cond :=
  match n with
  | 0 => .eq | 1 => .ne | 2 => .lt | 3 => .le | 4 => .gt | 5 => .ge | 6 => .ltn | 7 => .len | 8 => .gtn | _ => .gen
/-- The operation of `PLOG`. -/
def logOf (n : Nat) : LogOp :=
  match n with
  | 0 => .and | 1 => .or | 2 => .xor | 3 => .andn | 4 => .orn | _ => .xnor
/-- An order code. -/
def orderOf (n : Nat) : Order :=
  match n with
  | 0 => .rlx | 1 => .acq | 2 => .rel | 3 => .ar | _ => .sc
/-- A scope code. -/
def scopeOf (n : Nat) : Scope :=
  match n with
  | 0 => .tile | 1 => .gang | 2 => .die | 3 => .pkg | _ => .dom
/-- An engine code. -/
def engOf (n : Nat) : Eng :=
  match n with
  | 0 => .l | 1 => .v | 2 => .m | _ => .s
/-- A rounding code. -/
def rmOf (n : Nat) : Rm :=
  match n with
  | 0 => .rne | 1 => .rtz | 2 => .rup | 3 => .rdn | 4 => .rneSat | _ => .rtzSat
/-- `.f32`, `.bf16`, `.f16`. -/
def isFp (n : Nat) : Bool := decide (1 ≤ n) && decide (n ≤ 3)
/-- The FP type of a TY code. -/
def fpOf (n : Nat) : FpTy :=
  match n with
  | 1 => .f32 | 2 => .bf16 | _ => .f16
/-- `.i32`, `.n32`. -/
def isI32 (n : Nat) : Bool := n == 7 || n == 11
/-- The 32-bit integer type of a TY code. -/
def intOf (n : Nat) : IntTy := if n = 7 then .i32 else .n32
/-- A lane type of `VCMP` and `VRED`. -/
def isLane (n : Nat) : Bool := isFp n || isI32 n
/-- The lane type of a TY code. -/
def laneOf (n : Nat) : LaneTy := if isFp n then .fp (fpOf n) else .int (intOf n)
/-- The types of `VCVT`. -/
def isCvt (n : Nat) : Bool := (decide (1 ≤ n) && decide (n ≤ 7)) || (decide (9 ≤ n) && decide (n ≤ 11))
/-- The `VCVT` type of a TY code. -/
def cvtOf (n : Nat) : CvtTy :=
  match n with
  | 1 => .f32 | 2 => .bf16 | 3 => .f16 | 4 => .nf | 5 => .i8 | 6 => .i16 | 7 => .i32 | 9 => .n8 | 10 => .n16
  | _ => .n32

/-! ## Readings (R62)

A reading of the fields under one form: whether checks 3, 4, 6 and 7 pass, and the instruction. `guard` says that
the word takes a guard, so that check 5 applies in the cox stream. -/

/-- A reading of a word under its form. -/
structure Reading where
  three : Bool
  four : Bool := true
  six : Bool
  seven : Bool := true
  guard : Bool := true
  build : Instr

/-- FN, TY and RM all zero. -/
def Fields.plain (f : Fields) : Bool := f.fn == 0 && f.ty == 0 && f.rm == 0
/-- TY and RM zero. -/
def Fields.tr0 (f : Fields) : Bool := f.ty == 0 && f.rm == 0
/-- The guard of a cox word (R55). -/
def Fields.g (f : Fields) : CGuard := ⟨pidx f.pr, f.pn == 1⟩
/-- IMM as a bit vector. -/
def Fields.i32 (f : Fields) : BitVec 32 := BitVec.ofNat 32 f.imm
/-- R53: IMM is zero unless a source is of class 11. -/
def Fields.immUsed (f : Fields) (l : List Nat) : Bool := l.any class11 || f.imm == 0
/-- R52: at most one specifier is of class 11. -/
def Fields.one11 (_ : Fields) (l : List Nat) : Bool := decide ((l.filter class11).length ≤ 1)

/-- `op xd, a, b` (R264). -/
def rdAlu3 (f : Fields) (k : Alu3 → Instr) : Reading :=
  ⟨f.c == 0 && f.immUsed [f.a, f.b], isReg f.d && isSrc f.a && isSrc f.b, f.plain, f.one11 [f.a, f.b], true,
    k ⟨f.g, idx f.d, srcOf f.imm f.a, srcOf f.imm f.b⟩⟩

/-- `op xd, a` (R264). -/
def rdAlu1 (f : Fields) (k : Alu1 → Instr) : Reading :=
  ⟨f.b == 0 && f.c == 0 && f.immUsed [f.a], isReg f.d && isSrc f.a, f.plain, true, true,
    k ⟨f.g, idx f.d, srcOf f.imm f.a⟩⟩

/-- `SEXT`, `ZEXT` (R264): the TY codes from `lo` on. -/
def rdExt (f : Fields) (lo : Nat) (k : ExtOp → Instr) : Reading :=
  ⟨f.b == 0 && f.c == 0 && f.immUsed [f.a], isReg f.d && isSrc f.a,
    f.fn == 0 && f.rm == 0 && decide (lo ≤ f.ty) && decide (f.ty ≤ lo + 2), true, true,
    k ⟨f.g, idx f.d, srcOf f.imm f.a, extWOf f.ty⟩⟩

/-- A cox word of which every field but the guard is zero. -/
def rdBare (f : Fields) (k : CGuard → Instr) : Reading :=
  ⟨f.d == 0 && f.a == 0 && f.b == 0 && f.c == 0 && f.imm == 0, true, f.plain, true, true, k f.g⟩

/-- `PMOV` (R268): the form is chosen by FN. -/
def rdPmov (f : Fields) : Reading :=
  match f.fn with
  | 0 => ⟨f.b == 0 && f.c == 0 && f.imm == 0, isP f.d && isP f.a, f.tr0, true, true, .pmovPP f.g (pidx f.d) (pidx f.a)⟩
  | 1 => ⟨f.b == 0 && f.c == 0 && f.immUsed [f.a], isP f.d && isSrc f.a, f.tr0, true, true,
      .pmovPX f.g (pidx f.d) (srcOf f.imm f.a)⟩
  | 2 => ⟨f.b == 0 && f.c == 0 && f.imm == 0, isReg f.d && isP f.a, f.tr0, true, true,
      .pmovXP f.g (idx f.d) (pidx f.a)⟩
  | 3 => ⟨f.a == 0 && f.b == 0 && f.c == 0 && f.imm == 0, isReg f.d, f.tr0, true, true, .pmovXPall f.g (idx f.d)⟩
  | 4 => ⟨f.d == 0 && f.b == 0 && f.c == 0 && f.imm == 0, isReg f.a, f.tr0, true, true, .pmovPallX f.g (idx f.a)⟩
  | _ => ⟨true, true, false, true, true, .nop f.g⟩

/-- The address operand of a memory word. -/
def Fields.mem (f : Fields) : MemOp := ⟨f.g, idx f.a, f.i32, memTyOf f.ty⟩

/-- `LD` (R269). -/
def rdLd (f : Fields) : Reading :=
  match f.fn with
  | 0 => ⟨f.b == 0 && f.c == 0, isReg f.d && isReg f.a, isMemTy f.ty && f.rm == 0, true, true, .ld f.mem (idx f.d)⟩
  | 1 => ⟨f.d == 0 && f.b == 0 && f.c == 0, isReg f.a, isMemTy f.ty && f.rm == 0, true, true, .ldFifo f.mem⟩
  | _ => ⟨true, true, false, true, true, .nop f.g⟩

/-- `ST` (R269, R270). -/
def rdSt (f : Fields) : Reading :=
  match f.fn with
  | 0 => ⟨f.d == 0 && f.c == 0, isReg f.a && isXRf f.b, isMemTy f.ty && f.rm == 0, true, true, .st f.mem (xrfOf f.b)⟩
  | 3 => ⟨f.d == 0, isReg f.a && isXRf f.b && isReg f.c, isAtTy f.ty && f.rm == 0, true, true,
      .stCas f.g (idx f.a) f.i32 (f.ty == 8) (xrfOf f.b) (idx f.c)⟩
  | n => ⟨if n ≤ 7 then f.d == 0 && f.c == 0 else true, if n ≤ 7 then isReg f.a && isXRf f.b else true,
      decide (n ≤ 7) && isAtTy f.ty && f.rm == 0, true, true,
      .stAtomic f.g (idx f.a) f.i32 (f.ty == 8) (atomOf n) (xrfOf f.b)⟩

/-- R74: D of a touch form. -/
def isTouch (n : Nat) : Bool := n == 0 || n == 0x40

/-- `LDI` (R74). -/
def rdLdi (f : Fields) : Reading :=
  match f.fn with
  | 0 => ⟨true, f.d == 0 && f.b == 0 && f.c == 0 && isReg f.a, isMemTy f.ty && f.rm == 0, true, true, .ldi f.mem⟩
  | 1 => ⟨true, isTouch f.d && f.b == 0 && f.c == 0 && isReg f.a, isMemTy f.ty && f.rm == 0, true, true,
      .ldiTouch f.mem (f.d == 0x40)⟩
  | _ => ⟨true, true, false, true, true, .nop f.g⟩

/-- The segment of IMM. -/
def Fields.seg (f : Fields) : Fin 8 := Fin.ofNat 8 f.imm

/-- `LDS` (R74). -/
def rdLds (f : Fields) : Reading :=
  match f.fn with
  | 0 => ⟨true, f.d == 0 && f.b == 0 && f.c == 0 && isReg f.a && decide (f.imm ≤ 7), f.tr0, true, true,
      .lds f.g (idx f.a) f.seg⟩
  | 1 => ⟨true, isTouch f.d && f.b == 0 && f.c == 0 && isReg f.a && decide (f.imm ≤ 7), f.tr0, true, true,
      .ldsTouch f.g (idx f.a) f.seg (f.d == 0x40)⟩
  | _ => ⟨true, true, false, true, true, .nop f.g⟩

/-- `STS` and `CLOSE` (R74). -/
def rdSts (f : Fields) : Reading :=
  match f.fn with
  | 0 => ⟨true, f.d == 0 && f.c == 0 && isReg f.a && isReg f.b && decide (f.imm ≤ 7), f.tr0, true, true,
      .sts f.g (idx f.a) (idx f.b) f.seg⟩
  | 1 => ⟨true, f.d == 0 && f.b == 0 && f.c == 0 && isReg f.a && decide (f.imm ≤ 7), f.tr0, true, true,
      .close f.g (idx f.a) f.seg⟩
  | _ => ⟨true, true, false, true, true, .nop f.g⟩

/-- `ADDA` (R74). -/
def rdAdda (f : Fields) : Reading :=
  ⟨true, f.d == 0 && f.fn == 0 && f.imm == 0 && isReg f.a && isReg f.b && isReg f.c,
    (isFp f.ty || f.ty == 8) && f.rm == 0, true, true,
    .adda f.g (idx f.a) (idx f.b) (idx f.c)
      (match f.ty with
        | 1 => .f32
        | 2 => .bf16
        | 3 => .f16
        | _ => .i64)⟩

/-- The order of FN[2:0]. -/
def Fields.ordN (f : Fields) : Nat := f.fn % 8
/-- The scope of IMM[31:29]. -/
def Fields.scN (f : Fields) : Nat := bitsOf f.imm 29 3
/-- The address part of a Signal word. -/
def Fields.sig (f : Fields) : SigOp :=
  ⟨f.g, idx f.a, orderOf f.ordN, scopeOf f.scN, BitVec.ofNat 25 f.imm⟩
/-- R288: order and scope codes. -/
def Fields.sigOk (f : Fields) (ords : List Nat) : Bool :=
  ords.contains f.ordN && decide (f.scN ≤ 4) && !(f.ordN == 4 && f.scN == 4) && f.rm == 0

/-- `SLD` (R288). -/
def rdSld (f : Fields) : Reading :=
  ⟨f.d == 0 && f.b == 0 && f.c == 0 && decide (f.fn < 8) && bitsOf f.imm 25 4 == 0, isReg f.a,
    f.sigOk [0, 1, 4] && f.ty == 0, true, true, .sld f.sig⟩

/-- `SST` (R288). -/
def rdSst (f : Fields) : Reading :=
  ⟨f.d == 0 && f.c == 0 && decide (f.fn < 8) && bitsOf f.imm 25 4 == 0, isReg f.a && isXRf f.b,
    f.sigOk [0, 2, 4] && f.ty == 0, true, true, .sst f.sig (xrfOf f.b)⟩

/-- `SATOM` (R288). -/
def rdSatom (f : Fields) : Reading :=
  let op := bitsOf f.imm 26 3
  ⟨f.d == 0 && decide (f.fn < 8) && bitsOf f.imm 25 1 == 0 && (op == 3 || f.c == 0),
    isReg f.a && isXRf f.b && (op != 3 || isXRf f.c),
    f.sigOk [0, 1, 2, 3, 4] && (f.ty == 0 || isAtTy f.ty) && op != 0, true, true,
    .satom f.sig (match f.ty with
        | 0 => .none
        | 8 => .i64
        | _ => .n64)
      (if op = 3 then .cas (xrfOf f.c) else .op (atomOf op)) (xrfOf f.b)⟩

/-- `FENCE` (R298). -/
def rdFence (f : Fields) : Reading :=
  ⟨f.pn == 0 && f.pr == 0 && f.d == 0 && f.a == 0 && f.b == 0 && f.c == 0 && f.plain && bitsOf f.imm 0 29 == 0, true,
    decide (f.scN ≤ 4), true, false, .fence (scopeOf f.scN)⟩

/-- `PFACK` (R374): every field is zero, the guard's too, and one that is not fails check 3. (Log entry 55, DESIGN CHOICE.) -/
def rdPfack (f : Fields) : Reading :=
  ⟨f.pn == 0 && f.pr == 0 && f.d == 0 && f.a == 0 && f.b == 0 && f.c == 0 && f.imm == 0 && f.plain, true, true,
    true, false, .pfack f.g⟩

/-- `EXEC` (R273). -/
def rdExec (f : Fields) : Reading :=
  let reg := f.fn / 4 % 2 == 1
  ⟨decide (f.fn < 8) && (if reg then bitsOf f.imm 12 20 == 0 else f.c == 0),
    isReg f.d && isReg f.a && isReg f.b && (!reg || isReg f.c), f.tr0, true, true,
    .exec ⟨f.g, engOf (f.fn % 4), idx f.d, BitVec.ofNat 12 f.imm,
      if reg then .reg (idx f.c) else .imm (BitVec.ofNat 20 (bitsOf f.imm 12 20)), idx f.a, idx f.b⟩⟩

/-- `op a` with D, B and C zero: the waits (R274, R284). -/
def rdWait (f : Fields) (nfn : Nat) (k : Src → Instr) : Reading :=
  ⟨f.d == 0 && f.b == 0 && f.c == 0 && f.immUsed [f.a], isSrc f.a, decide (f.fn < nfn) && f.tr0, true, true,
    k (srcOf f.imm f.a)⟩

/-- A word with D a predicate and A of class 00 or 11 (R277). -/
def rdClaim (f : Fields) (k : CGuard → Fin 16 → XImm → Instr) : Reading :=
  ⟨f.b == 0 && f.c == 0 && f.immUsed [f.a], isP f.d && isXImm f.a, f.plain, true, true,
    k f.g (pidx f.d) (xImmOf f.imm f.a)⟩

/-- A word with A of class 00 or 11 alone (R277). -/
def rdRel (f : Fields) (k : CGuard → XImm → Instr) : Reading :=
  ⟨f.d == 0 && f.b == 0 && f.c == 0 && f.immUsed [f.a], isXImm f.a, f.plain, true, true, k f.g (xImmOf f.imm f.a)⟩

/-- `RECAST` (R80). -/
def rdRecast (f : Fields) : Reading :=
  let role := bitsOf f.imm 0 2
  let sig := bitOf f.imm 3
  let fresh := bitOf f.imm 2
  ⟨bitsOf f.imm 21 11 == 0 && role != 3 && (!fresh || role == 1) && (sig || bitsOf f.imm 4 17 == 0),
    f.d == 0 && f.fn == 0 && isReg f.a && isReg f.b && isReg f.c, f.tr0, true, true,
    .recast ⟨f.g, idx f.a, idx f.b, idx f.c,
      (match role with
        | 0 => .i
        | 1 => .s
        | _ => .a), fresh, if sig then some (BitVec.ofNat 17 (bitsOf f.imm 4 17)) else none⟩⟩

/-- A cox word with A of class 00 alone. -/
def rdXa (f : Fields) (k : CGuard → Fin 64 → Instr) : Reading :=
  ⟨f.d == 0 && f.b == 0 && f.c == 0 && f.imm == 0, isReg f.a, f.plain, true, true, k f.g (idx f.a)⟩

/-- The cox map (R64). Where a word's text says that every other field is zero, as for `GRPOPEN` (R232), `GRPFREE` (R235) and
`MSDECL` (R376), that leaves the guard to R55. (Log entry 55, DESIGN CHOICE.) -/
def coxReading (f : Fields) : Option Reading :=
  match f.opc with
  | 0x00 => rdAlu3 f .add | 0x01 => rdAlu3 f .sub | 0x02 => rdAlu3 f .mul | 0x03 => rdAlu3 f .mulh
  | 0x04 => rdAlu3 f .mulhn | 0x05 => rdAlu3 f .div | 0x06 => rdAlu3 f .divn | 0x07 => rdAlu3 f .rem
  | 0x08 => rdAlu3 f .remn | 0x09 => rdAlu3 f .and | 0x0A => rdAlu3 f .or | 0x0B => rdAlu3 f .xor
  | 0x0C => rdAlu3 f .andn | 0x0D => rdAlu3 f .shl | 0x0E => rdAlu3 f .shr | 0x0F => rdAlu3 f .sra
  | 0x10 => rdAlu3 f .rot | 0x11 => rdAlu1 f .clz | 0x12 => rdAlu1 f .ctz | 0x13 => rdAlu1 f .popc
  | 0x14 => rdAlu3 f .min | 0x15 => rdAlu3 f .max | 0x16 => rdAlu3 f .minn | 0x17 => rdAlu3 f .maxn
  | 0x18 => rdExt f 5 .sext | 0x19 => rdExt f 9 .zext
  | 0x1A => some ⟨f.b == 0 && f.c == 0, isReg f.d && isImm f.a, f.plain, true, true, .li f.g (idx f.d) f.i32⟩
  | 0x1B => some ⟨f.c == 0, isReg f.d && isSrc f.a && isImm f.b, f.plain, f.one11 [f.a, f.b], true,
      .lih ⟨f.g, idx f.d, xrfOf f.a, f.i32⟩⟩
  | 0x1C => some ⟨f.immUsed [f.a, f.b], isReg f.d && isSrc f.a && isSrc f.b && isP f.c, f.plain,
      f.one11 [f.a, f.b], true, .sel ⟨f.g, idx f.d, srcOf f.imm f.a, srcOf f.imm f.b, pidx f.c⟩⟩
  | 0x20 => some ⟨f.c == 0 && f.immUsed [f.a, f.b], isP f.d && isSrc f.a && isSrc f.b,
      decide (f.fn ≤ 9) && f.tr0, f.one11 [f.a, f.b], true,
      .cmp ⟨f.g, pidx f.d, condOf f.fn, srcOf f.imm f.a, srcOf f.imm f.b⟩⟩
  | 0x21 => some ⟨f.c == 0 && f.imm == 0, isP f.d && isP f.a && isP f.b, decide (f.fn ≤ 5) && f.tr0, true, true,
      .plog ⟨f.g, pidx f.d, pidx f.a, pidx f.b, logOf f.fn⟩⟩
  | 0x22 => rdPmov f
  | 0x30 => rdLd f | 0x31 => rdSt f | 0x32 => rdLdi f | 0x33 => rdLds f | 0x34 => rdSts f | 0x35 => rdAdda f
  | 0x36 => rdSld f | 0x37 => rdSst f | 0x38 => rdSatom f | 0x39 => rdFence f
  | 0x40 => some ⟨f.d == 0 && f.a == 0 && f.b == 0 && f.c == 0, true, f.plain, true, true, .br f.g f.i32⟩
  | 0x41 => some ⟨f.a == 0 && f.b == 0 && f.c == 0, isReg f.d, f.plain, true, true, .brl f.g (idx f.d) f.i32⟩
  | 0x42 => rdXa f .jr | 0x43 => rdXa f .ret
  | 0x44 => some ⟨f.b == 0 && f.c == 0, isReg f.d && isReg f.a && f.d == f.a, f.plain, true, true,
      .bct f.g (idx f.a) f.i32⟩
  | 0x45 => rdBare f .region
  | 0x50 => rdExec f
  | 0x51 => rdWait f 4 (.waitq f.g (engOf f.fn))
  | 0x52 => rdWait f 1 (.waitb f.g)
  | 0x53 => some ⟨f.a == 0 && f.b == 0 && f.c == 0 && f.imm == 0, isReg f.d, decide (f.fn ≤ 4) && f.tr0, true, true,
      .qstat f.g (idx f.d) (if f.fn = 4 then none else some (engOf f.fn))⟩
  | 0x60 => some ⟨f.d == 0 && f.a == 0 && f.b == 0 && f.c == 0, true,
      f.plain && decide (1 ≤ f.imm % 128) && decide (f.imm % 128 ≤ 64) && decide (128 ≤ f.imm), true, true,
      .mlease f.g (Fin.ofNat 128 f.imm) (BitVec.ofNat 25 (f.imm / 128))⟩
  | 0x61 => rdBare f .mfree
  | 0x62 => rdClaim f .acalloc
  | 0x63 => some ⟨f.d == 0 && f.c == 0 && f.immUsed [f.a, f.b], isXImm f.a && isXImm f.b, f.plain,
      f.one11 [f.a, f.b], true, .acown f.g (xImmOf f.imm f.a) (xImmOf f.imm f.b)⟩
  | 0x64 => rdRel f .acfree
  | 0x65 => rdClaim f .osclaim
  | 0x66 => rdRel f .osrel
  | 0x68 => some ⟨true, f.d == 0 && f.b == 0 && f.c == 0 && f.fn == 0 && isReg f.a && decide (f.imm ≤ 1), f.tr0, true,
      true, .extnew f.g (idx f.a) (f.imm == 1)⟩
  | 0x69 => rdRecast f
  | 0x6A => some ⟨true, f.d == 0 && f.b == 0 && f.c == 0 && f.fn == 0 && isReg f.a && decide (f.imm < 2048), f.tr0,
      true, true, .extq f.g (idx f.a) (Fin.ofNat 8 (f.imm / 256)) (BitVec.ofNat 8 f.imm)⟩
  | 0x6B => some ⟨true, f.d == 0 && f.b == 0 && f.c == 0 && f.fn == 0 && isReg f.a && f.imm == 0, f.tr0, true, true,
      .extfree f.g (idx f.a)⟩
  | 0x70 => some ⟨f.plain, isP f.d && isReg f.a && isReg f.b && isReg f.c, true, true, true,
      .launch f.g (pidx f.d) (idx f.c) (idx f.a) (idx f.b) f.i32⟩
  | 0x71 => some ⟨f.plain && f.d == 0, isReg f.a && isReg f.b && isReg f.c, true, true, true,
      .launchw f.g (idx f.c) (idx f.a) (idx f.b) f.i32⟩
  | 0x72 => some ⟨f.b == 0 && f.c == 0 && f.immUsed [f.a], isReg f.d && isSrc f.a, f.plain, true, true,
      .join f.g (idx f.d) (srcOf f.imm f.a)⟩
  | 0x73 => rdBare f .done
  | 0xE0 => some ⟨f.d == 0 && f.b == 0 && f.c == 0, isImm f.a, f.plain, true, true, .trap f.g f.i32⟩
  | 0xE1 => rdBare f .rft
  | 0xE2 => some ⟨f.a == 0 && f.b == 0 && f.c == 0 && decide (f.imm < 4096), isReg f.d,
      f.plain && csrListed (f.imm % 4096), true, true, .csrr f.g (idx f.d) (BitVec.ofNat 12 f.imm)⟩
  | 0xE3 => some ⟨f.d == 0 && f.b == 0 && f.c == 0 && decide (f.imm < 4096), isSrc f.a,
      f.plain && csrListed (f.imm % 4096), true, true,
      .csrw f.g (BitVec.ofNat 12 f.imm) (if isImm f.a then none else some (xrfOf f.a))⟩
  | 0xE4 => rdBare f .nop
  | 0xE5 => rdBare f .halt
  | 0xE6 => some ⟨f.b == 0 && f.c == 0 && f.imm == 0, isP f.d && isReg f.a, f.plain, true, true,
      .msdecl f.g (pidx f.d) (idx f.a)⟩
  | 0xE7 => rdPfack f
  | 0xE8 => some ⟨f.c == 0 && f.imm == 0, isP f.d && isReg f.a && isReg f.b, f.plain, true, true,
      .pfrestore f.g (pidx f.d) (idx f.a) (idx f.b)⟩
  | 0xE9 => rdWait f 2 (if f.fn = 0 then .waitcyc f.g else .waitcycUntil f.g)
  | 0xEA => some ⟨f.d == 0 && f.b == 0 && f.c == 0 && f.imm == 0 && f.plain, isReg f.a, true, true, true,
      .grpopen f.g (idx f.a)⟩
  | 0xEB => rdXa f .grpfree
  | _ => none

/-- The tokens of an engine word. -/
def Fields.tok (f : Fields) (e : Eng) : Tok := ⟨tokOf e f.tp, tokOf e f.ts⟩
/-- The guard and tokens of a V word. -/
def Fields.vh (f : Fields) : VHead := ⟨⟨idx f.pr, f.pn == 1⟩, f.tok .v⟩
/-- R53: a 16-bit FP type with an immediate needs IMM[31:16] = 0. -/
def Fields.halfOk (f : Fields) (half : Bool) (l : List Nat) : Bool :=
  !half || !l.any class11 || decide (f.imm < 65536)

/-- An FP word (R185) of one source. -/
def rdFp1 (f : Fields) (k : VFp1 → Instr) : Reading :=
  ⟨f.b == 0 && f.c == 0 && f.immUsed [f.a], isVd f.d && isVs f.a, f.fn == 0 && isFp f.ty && decide (f.rm ≤ 5),
    f.halfOk (fpOf f.ty).half [f.a], true, k ⟨f.vh, vdOf f.d, vsrcOf f.imm f.a, fpOf f.ty, rmOf f.rm⟩⟩

/-- An FP word of two sources. -/
def rdFp2 (f : Fields) (k : VFp2 → Instr) : Reading :=
  ⟨f.c == 0 && f.immUsed [f.a, f.b], isVd f.d && isVs f.a && isVs f.b, f.fn == 0 && isFp f.ty && decide (f.rm ≤ 5),
    f.one11 [f.a, f.b] && f.halfOk (fpOf f.ty).half [f.a, f.b], true,
    k ⟨f.vh, vdOf f.d, vsrcOf f.imm f.a, vsrcOf f.imm f.b, fpOf f.ty, rmOf f.rm⟩⟩

/-- An FP word of three sources. -/
def rdFp3 (f : Fields) (k : VFp3 → Instr) : Reading :=
  ⟨f.immUsed [f.a, f.b, f.c], isVd f.d && isVs f.a && isVs f.b && isVs f.c,
    f.fn == 0 && isFp f.ty && decide (f.rm ≤ 5),
    f.one11 [f.a, f.b, f.c] && f.halfOk (fpOf f.ty).half [f.a, f.b, f.c], true,
    k ⟨f.vh, vdOf f.d, vsrcOf f.imm f.a, vsrcOf f.imm f.b, vsrcOf f.imm f.c, fpOf f.ty, rmOf f.rm⟩⟩

/-- An integer word (R187). -/
def rdInt2 (f : Fields) (k : VInt2 → Instr) : Reading :=
  ⟨f.c == 0 && f.immUsed [f.a, f.b], isVd f.d && isVs f.a && isVs f.b, f.fn == 0 && isI32 f.ty && f.rm == 0,
    f.one11 [f.a, f.b], true, k ⟨f.vh, vdOf f.d, vsrcOf f.imm f.a, vsrcOf f.imm f.b, intOf f.ty⟩⟩

/-- A logic or shift word (R187). -/
def rdLog2 (f : Fields) (k : VLog2 → Instr) : Reading :=
  ⟨f.c == 0 && f.immUsed [f.a, f.b], isVd f.d && isVs f.a && isVs f.b, f.plain, f.one11 [f.a, f.b], true,
    k ⟨f.vh, vdOf f.d, vsrcOf f.imm f.a, vsrcOf f.imm f.b⟩⟩

/-- `VRED`, `VSCAN` (R194). -/
def rdRed (f : Fields) (k : VRedOp → Instr) : Reading :=
  ⟨decide (6 ≤ f.fn) || (f.b == 0 && f.c == 0 && f.imm == 0), decide (6 ≤ f.fn) || (isReg f.d && isVp f.a),
    (decide (f.fn ≤ 2) && isLane f.ty && decide (f.rm ≤ 5)) || (decide (3 ≤ f.fn) && decide (f.fn ≤ 5) && f.tr0),
    true, true,
    k ⟨f.vh, idx f.d, vpOf f.a,
      match f.fn with
      | 0 => .arith .add (laneOf f.ty) (rmOf f.rm)
      | 1 => .arith .max (laneOf f.ty) (rmOf f.rm)
      | 2 => .arith .min (laneOf f.ty) (rmOf f.rm)
      | 3 => .logic .and
      | 4 => .logic .or
      | _ => .logic .xor⟩⟩

/-- `VMOV` (R196): the form is chosen by FN, and for FN 0 by the class of D. -/
def rdVmov (f : Fields) : Reading :=
  match f.fn with
  | 0 =>
    if isK f.d then
      ⟨f.b == 0 && f.c == 0 && f.imm == 0, isK f.a, f.tr0, true, true, .vmovK f.vh (idx f.d) (idx f.a)⟩
    else
      ⟨f.b == 0 && f.c == 0 && f.immUsed [f.a], isVd f.d && isVs f.a, f.tr0, true, true,
        .vmov f.vh (vdOf f.d) (vsrcOf f.imm f.a)⟩
  | 1 => ⟨f.d == 0 && f.c == 0 && f.immUsed [f.a], isVsi f.a, decide (f.b ≤ 3) && f.tr0, true, true,
      .vmovToCsr f.vh (Fin.ofNat 4 f.b) (vsiOf f.imm f.a)⟩
  | 2 => ⟨f.a == 0 && f.c == 0 && f.imm == 0, isReg f.d, decide (f.b ≤ 15) && f.tr0, true, true,
      .vmovFromCsr f.vh (idx f.d) (Fin.ofNat 16 f.b)⟩
  | 3 => ⟨f.b == 0 && f.c == 0 && f.imm == 0, isVd f.d && isK f.a, f.tr0, true, true,
      .vmovMaskToV f.vh (vdOf f.d) (idx f.a)⟩
  | 4 => ⟨f.b == 0 && f.c == 0 && f.immUsed [f.a], isK f.d && isVs f.a, f.tr0, true, true,
      .vmovVToMask f.vh (idx f.d) (vsrcOf f.imm f.a)⟩
  | _ => ⟨true, true, false, true, true, .vnop (f.tok .v)⟩

/-- PN and PR zero. -/
def Fields.ng (f : Fields) : Bool := f.pn == 0 && f.pr == 0

/-- A port word (R174); `three` and `four` say what A holds. -/
def rdPort (f : Fields) (three four : Bool) (k : PortOp → Instr) : Reading :=
  ⟨f.ng && f.tr0 && f.d == 0 && f.b == 0 && f.c == 0 && f.imm == 0 && three, four, decide (f.fn < 12), true, true,
    k ⟨f.tok .v, Fin.ofNat 12 f.fn⟩⟩

/-- A V word of which every field but OPC, TP and TS is zero (R205). -/
def rdVbare (f : Fields) (k : Tok → Instr) : Reading :=
  ⟨f.ng && f.d == 0 && f.a == 0 && f.b == 0 && f.c == 0 && f.imm == 0, true, f.plain, true, true, k (f.tok .v)⟩

/-- R191: `VCVT`. -/
def rdCvt (f : Fields) : Reading :=
  let nf := f.ty == 4 || f.fn == 4
  ⟨f.b == 0 && f.c == 0 && (nf || f.immUsed [f.a]), isVd f.d && isVs f.a && !(nf && isImm f.a),
    isCvt f.fn && isCvt f.ty && !(f.ty == 4 && f.fn == 4) && decide (f.rm ≤ 5),
    f.halfOk (cvtOf f.fn).half [f.a], true,
    .vcvt ⟨f.vh, vdOf f.d, vsrcOf f.imm f.a, cvtOf f.fn, cvtOf f.ty, rmOf f.rm, if nf then f.i32 else 0⟩⟩

/-- The V map (R64). -/
def vReading (f : Fields) : Option Reading :=
  match f.opc with
  | 0x00 => rdFp2 f .vadd | 0x01 => rdFp2 f .vsub | 0x02 => rdFp2 f .vmul
  | 0x03 => rdFp3 f .vfma | 0x04 => rdFp3 f .vfms | 0x05 => rdFp3 f .vnfma
  | 0x06 => rdFp2 f .vmin | 0x07 => rdFp2 f .vmax | 0x08 => rdFp1 f .vabs | 0x09 => rdFp1 f .vneg
  | 0x0A => rdFp2 f .vdiv | 0x0B => rdFp1 f .vsqrt | 0x0C => rdFp1 f .vexp2 | 0x0D => rdFp1 f .vlog2
  | 0x0E => rdFp1 f .vrcp | 0x0F => rdFp1 f .vrsq
  | 0x20 => rdInt2 f .viadd | 0x21 => rdInt2 f .visub | 0x22 => rdInt2 f .vimul
  | 0x23 => rdLog2 f .vand | 0x24 => rdLog2 f .vor | 0x25 => rdLog2 f .vxor
  | 0x26 => rdLog2 f .vshl | 0x27 => rdLog2 f .vshr | 0x28 => rdLog2 f .vsra
  | 0x29 => rdInt2 f .vimin | 0x2A => rdInt2 f .vimax
  | 0x40 => some ⟨f.c == 0 && f.immUsed [f.a, f.b], isK f.d && isVs f.a && isVs f.b,
      decide (f.fn ≤ 5) && isLane f.ty && f.rm == 0,
      f.one11 [f.a, f.b] && f.halfOk (laneOf f.ty).half [f.a, f.b], true,
      .vcmp ⟨f.vh, idx f.d, condOf f.fn, laneOf f.ty, vsrcOf f.imm f.a, vsrcOf f.imm f.b⟩⟩
  | 0x41 => some ⟨f.immUsed [f.a, f.b], isVd f.d && isVs f.a && isVs f.b && isK f.c, f.plain, f.one11 [f.a, f.b], true,
      .vsel f.vh (vdOf f.d) (vsrcOf f.imm f.a) (vsrcOf f.imm f.b) (idx f.c)⟩
  | 0x42 => some ⟨f.c == 0 && f.imm == 0, isK f.d && isK f.a && isK f.b, decide (f.fn ≤ 5) && f.tr0, true, true,
      .vplog f.vh (idx f.d) (idx f.a) (idx f.b) (logOf f.fn)⟩
  | 0x48 => rdCvt f
  | 0x49 => some ⟨f.b == 0 && f.c == 0, isReg f.d && isVp f.a, f.fn == 0 && f.ty == 0 && decide (f.rm ≤ 5), true, true,
      .vqblk f.vh (idx f.d) (vpOf f.a) (rmOf f.rm) f.i32⟩
  | 0x4A => some ⟨f.b == 0 && f.c == 0, isVd f.d && isVs f.a, f.fn == 0 && f.ty == 0 && decide (f.rm ≤ 5), true, true,
      .vdqblk f.vh (vdOf f.d) (vsrcOf f.imm f.a) (rmOf f.rm) f.i32⟩
  | 0x50 => rdRed f .vred | 0x51 => rdRed f .vscan
  | 0x52 => some ⟨f.c == 0 && f.imm == 0, isVd f.d && isVp f.a && isVp f.b, f.plain, true, true,
      .vperm f.vh (vdOf f.d) (vpOf f.a) (vpOf f.b)⟩
  | 0x53 => some ⟨f.b == 0 && f.c == 0 && f.imm == 0, isVd f.d && isVp f.a, f.tr0, true, true,
      .vbcst f.vh (vdOf f.d) (vpOf f.a) (Fin.ofNat 32 f.fn)⟩
  | 0x54 => some ⟨f.c == 0 && f.imm == 0, isVd f.d && isVp f.a && isVp f.b, f.tr0, true, true,
      .vslide f.vh (vdOf f.d) (vpOf f.a) (vpOf f.b) (Fin.ofNat 32 f.fn)⟩
  | 0x55 => rdVmov f
  | 0x56 => some ⟨f.b == 0 && f.c == 0, isVd f.d && isImm f.a, f.tr0, true, true,
      .vldi f.vh (vdOf f.d) f.i32 (Fin.ofNat 32 f.fn)⟩
  | 0x60 => rdPort f true (isReg f.a) (fun o => .vpset o (idx f.a))
  | 0x61 => rdPort f (f.a == 0) true .vprst
  | 0x62 => rdPort f (f.a == 0) true .vpsync
  | 0x68 => some ⟨f.b == 0 && f.c == 0 && f.immUsed [f.a], isReg f.d && isVsi f.a, decide (f.fn ≤ 1) && f.tr0, true, true,
      .vacrd f.vh (idx f.d) (vsiOf f.imm f.a) (f.fn == 1)⟩
  | 0x69 => some ⟨f.d == 0 && f.c == 0 && f.immUsed [f.b], isVp f.a && isVsi f.b, decide (f.fn ≤ 1) && f.tr0, true, true,
      .vacwr f.vh (vpOf f.a) (vsiOf f.imm f.b) (f.fn == 1)⟩
  | 0x6C => some ⟨f.immUsed [f.c], isReg f.d && isVp f.a && isVp f.b && isVs f.c, decide (f.fn ≤ 1) && f.tr0, true, true,
      .vtwin f.vh (idx f.d) (vpOf f.a) (vpOf f.b) (vsrcOf f.imm f.c) (if f.fn = 0 then .tc1 else .tc15)⟩
  | 0x6D => some ⟨f.b == 0 && f.c == 0 && f.immUsed [f.a], isVd f.d && isVs f.a, f.plain, true, true,
      .vtcw f.vh (vdOf f.d) (vsrcOf f.imm f.a)⟩
  | 0x70 => some ⟨f.ng && f.d == 0 && f.a == 0 && f.b == 0 && f.c == 0 && decide (f.imm < 4096), true, f.plain, true, true,
      .vloop (f.tok .v) (BitVec.ofNat 12 f.imm)⟩
  | 0x71 => some ⟨f.d == 0 && f.a == 0 && f.b == 0 && f.c == 0 && decide (f.imm < 4096), true,
      decide (f.fn ≤ 1) && f.tr0, true, true, .vbr f.vh (f.fn == 1) (BitVec.ofNat 12 f.imm)⟩
  | 0x72 => rdVbare f .vend | 0x73 => rdVbare f .vnop
  | _ => none

/-- MODE of R127 (bits 80:79). -/
def elemBaseOf (d : Nat) : ElemBase :=
  match d / 64 with
  | 0 => .none
  | 1 => .arga
  | _ => .argb

/-- IMM as a start time (R127). -/
def Fields.timed (f : Fields) : Option (BitVec 32) := if 16 ≤ f.fn then some f.i32 else none

/-- The element operand of a command (R127): INDEX is bits 78:65. -/
def Fields.elem (f : Fields) (e : Eng) (timed : Option (BitVec 32)) : ElemOp :=
  ⟨f.tok e, elemBaseOf f.d, BitVec.ofNat 14 (f.d % 64 * 256 + f.a), timed, rmOf f.rm⟩

/-- A command that names an element; `fns` are the values of bits 47:44 that it accepts. -/
def rdElem (f : Fields) (e : Eng) (rounds timed : Bool) (nfn : Nat) (k : ElemOp → Instr) : Reading :=
  ⟨f.ng && f.b == 0 && f.c == 0 && f.ty == 0 && (decide (16 ≤ f.fn) || f.imm == 0), decide (f.d < 0xC0),
    decide (f.fn % 16 < nfn) && (timed || decide (f.fn < 16)) && (if rounds then decide (f.rm ≤ 5) else f.rm == 0),
    true, true, k (f.elem e f.timed)⟩

/-- A signal form (R128): B holds order, scope and the use of an argument, C the count. -/
def rdCSig (f : Fields) (e : Eng) (ords : List Nat) (k : CSigOp → Instr) : Reading :=
  ⟨f.ng && f.d == 0 && f.a == 0 && f.ty == 0 && bitsOf f.b 6 1 == 0 && decide (f.imm < 131072), true,
    f.fn == 0 && f.rm == 0 && ords.contains (f.b % 8) && decide (bitsOf f.b 3 3 ≤ 4), true, true,
    k ⟨f.tok e, orderOf (f.b % 8), scopeOf (bitsOf f.b 3 3), bitOf f.b 7, BitVec.ofNat 8 f.c, BitVec.ofNat 17 f.imm⟩⟩

/-- Check 6 of R128 for a command of the L stream only. -/
def Reading.only (r : Reading) (ok : Bool) : Reading := { r with six := r.six && ok }

/-- The L/S map (R64, R128). A `CWAIT` whose FN names no form fails check 6, whatever its other fields hold.
(Log entry 55, DESIGN CHOICE.) -/
def lsReading (e : Eng) (f : Fields) : Option Reading :=
  match f.opc with
  | 0x00 => some ⟨f.ng && f.d == 0 && f.a == 0 && f.b == 0 && f.c == 0 && f.ty == 0 && (decide (16 ≤ f.fn) || f.imm == 0),
      true, f.fn % 16 == 0 && f.rm == 0, true, true, .cnop (f.tok e) f.timed⟩
  | 0x01 => rdElem f e true true 1 .cpy
  | 0x02 => some ⟨f.ng && f.b == 0 && f.c == 0 && f.ty == 0, decide (f.d < 0xC0), f.fn == 0 && decide (f.rm ≤ 5), true, true,
      .cpyt (f.elem e none) f.i32⟩
  | 0x03 => rdElem f e true true 1 .cpyr
  | 0x04 => rdElem f e false true 1 .cfill
  | 0x05 => rdElem f e true true 1 .cgath
  | 0x06 => rdElem f e true true 1 .cscat
  | 0x08 => rdElem f e true true 1 .csg
  | 0x09 => rdElem f e true true 1 .cseal
  | 0x10 => (rdElem f e false true 2 (fun o => .copld o (f.fn % 2 == 1))).only (e == .l)
  | 0x11 => (rdElem f e false true 1 .covl).only (e == .l)
  | 0x12 => (rdElem f e true true 1 .cwtx).only (e == .l)
  | 0x13 => rdElem f e false true 1 .ctce
  | 0x20 => rdCSig f e [0, 2] .csig
  | 0x21 =>
    if f.fn % 16 = 1 then
      some ⟨f.ng && f.d == 0 && f.a == 0 && f.ty == 0, true, f.fn == 1 && f.rm == 0 && f.b == 0 && f.c == 0, true, true,
        .cwaitTime (f.tok e) f.i32⟩
    else if f.fn % 16 = 0 then rdCSig f e [0, 1] .cwaitSignal
    else some ⟨f.ng && f.ty == 0, true, false, true, true, .cend (f.tok e)⟩
  | 0x22 => rdElem f e false false 1 .cprb
  | 0x7F => some ⟨f.ng && f.d == 0 && f.a == 0 && f.b == 0 && f.c == 0 && f.ty == 0 && f.imm == 0, true,
      f.fn == 0 && f.rm == 0, true, true, .cend (f.tok e)⟩
  | _ => none

/-- R216: PN, PR, TY and RM are reserved in M words. -/
def Fields.m0 (f : Fields) : Bool := f.ng && f.tr0

/-- A range form of the predicates (R217). -/
def rdMset (f : Fields) (k : Tok → Byte → Byte → Instr) (kp : Tok → Fin 4 → BitVec 32 → Instr) : Reading :=
  let z := f.m0 && f.d == 0 && f.a == 0 && f.b == 0
  match f.fn with
  | 0 => ⟨z && f.c == 0 && decide (f.imm < 65536), true,
      decide (f.imm % 256 ≤ f.imm / 256 % 256) && decide (f.imm / 256 % 256 ≤ 128), true, true,
      k (f.tok .m) (BitVec.ofNat 8 f.imm) (BitVec.ofNat 8 (f.imm / 256))⟩
  | 1 => ⟨z && decide (f.c < 4), true, true, true, true, kp (f.tok .m) (Fin.ofNat 4 f.c) f.i32⟩
  | _ => ⟨f.m0, true, false, true, true, .mend (f.tok .m)⟩

/-- A multiply command (R217). -/
def rdMma (f : Fields) (k : MmaOp → Instr) : Reading :=
  let k1 := f.imm % 128
  let ao := f.imm / 128 % 128
  let bo := f.imm / 16384 % 128
  ⟨f.m0 && decide (f.d < 32) && decide (f.a < 32) && decide (f.b < 32) && f.c == 0 && decide (f.imm < 2097152), true,
    f.fn == 0 && decide (ao + k1 + 1 ≤ 128) && decide (bo + k1 + 1 ≤ 128), true, true,
    k ⟨f.tok .m, Fin.ofNat 32 f.d, Fin.ofNat 32 f.a, Fin.ofNat 32 f.b, BitVec.ofNat 7 k1, BitVec.ofNat 7 ao,
      BitVec.ofNat 7 bo⟩⟩

/-- D, A, B and C zero. -/
def Fields.spec0 (f : Fields) : Bool := f.d == 0 && f.a == 0 && f.b == 0 && f.c == 0

/-- The M map (R64, R217). -/
def mReading (f : Fields) : Option Reading :=
  match f.opc with
  | 0x01 => rdMset f .msetrow .msetrowPart
  | 0x02 => rdMset f .msetcol .msetcolPart
  | 0x03 => some ⟨f.m0 && (decide (2 ≤ f.fn) || f.spec0), true, decide (f.fn ≤ 1), true, true, .mfmt (f.tok .m) (f.fn == 1) f.i32⟩
  | 0x04 => some ⟨f.m0 && f.spec0 && decide (f.imm < 65536), true, f.fn == 0, true, true,
      .mscale (f.tok .m) (BitVec.ofNat 8 f.imm) (BitVec.ofNat 8 (f.imm / 256))⟩
  | 0x10 => rdMma f .mma | 0x11 => rdMma f .mmaz | 0x12 => rdMma f .mmat | 0x13 => rdMma f .mtcw
  | 0x20 => some ⟨f.m0 && f.spec0 && f.imm == 0, true, f.fn == 0, true, true, .mcommit (f.tok .m)⟩
  | 0x21 => some ⟨f.m0 && decide (f.d < 32) && f.a == 0 && f.b == 0 && f.c == 0 && f.imm == 0, true, f.fn == 0, true,
      true, .macz (f.tok .m) (Fin.ofNat 32 f.d)⟩
  | 0x22 => some ⟨f.m0 && decide (f.d < 32) && f.a == 0 && f.b == 0 && f.c == 0 && decide (f.imm < 4), true,
      f.fn == 0 && decide (f.d + f.imm + 1 ≤ 32), true, true, .mtile (f.tok .m) (Fin.ofNat 32 f.d) (Fin.ofNat 4 f.imm)⟩
  | 0x7F => some ⟨f.m0 && f.spec0 && f.imm == 0, true, f.fn == 0, true, true, .mend (f.tok .m)⟩
  | _ => none

/-- The reading of a word of a stream (R64). -/
def reading (st : Stream) (f : Fields) : Option Reading :=
  match st with
  | .cox => coxReading f
  | .l => lsReading .l f
  | .v => vReading f
  | .m => mReading f
  | .s => lsReading .s f

/-- R62, check 3: TP and TS are reserved in the cox stream. -/
def Fields.streamZero (f : Fields) (st : Stream) : Bool := st != .cox || (f.tp == 0 && f.ts == 0)

/-- The fate of a word (R62): the instruction, or the reason code of the lowest-numbered check that fails. -/
inductive Decoded where
  | word (i : Instr)
  | ill (reason : Nat)
deriving DecidableEq, Repr

/-- R62: checks 1 to 7, in their order. -/
def decodeFields (st : Stream) (f : Fields) : Decoded :=
  match reading st f with
  | none => .ill 1
  | some r =>
    if f.r36 != 0 then .ill 2
    else if !(r.three && f.streamZero st) then .ill 3
    else if !r.four then .ill 4
    else if st == .cox && r.guard && decide (16 ≤ f.pr) then .ill 5
    else if !r.six then .ill 6
    else if !r.seven then .ill 7
    else .word r.build

/-- The decoding of a 96-bit word. -/
def decodeWord (st : Stream) (w : Nat) : Decoded := decodeFields st (Fields.split w)

/-- The number in 12 stored bytes: three little-endian units, IMM first (R49). -/
def decodeBytes (st : Stream) (bs : List Byte) : Decoded := decodeWord st (ofBytes (bs.take 12))

/-! ## Step words (R240, R241) -/

/-- A data step's fields. -/
def dataStepOf (w : Nat) : DataStep :=
  ⟨match bitsOf w 58 2 with
    | 0 => .up
    | 1 => .down
    | _ => .xor, Fin.ofNat 4 (bitsOf w 56 2), BitVec.ofNat 14 (bitsOf w 40 14), BitVec.ofNat 8 (bitsOf w 32 8),
    BitVec.ofNat 20 w⟩

/-- R240, R241: the step a 64-bit word stands for; `none` for an unassigned OP, a non-zero reserved field, PM 11,
MODE 11, or a scope outside 2 to 4. -/
def decodeStep (w : Nat) : Option Instr :=
  let pm := bitsOf w 58 2
  let op := bitsOf w 60 4
  let f2 : Fin 4 := Fin.ofNat 4 (bitsOf w 54 2)
  match op with
  | 0 => if pm ≠ 3 ∧ bitsOf w 20 12 = 0 then some (.send (dataStepOf w) f2) else none
  | 1 => if pm ≠ 3 ∧ bitsOf w 20 12 = 0 ∧ bitsOf w 54 2 = 0 then some (.recv (dataStepOf w)) else none
  | 2 => if pm ≠ 3 ∧ bitsOf w 20 9 = 0 then
      some (.rrs (dataStepOf w) f2 (Fin.ofNat 4 (bitsOf w 30 2)) (bitOf w 29)) else none
  | 3 => if pm = 0 then
      some (.copy (Fin.ofNat 4 (bitsOf w 56 2)) f2 (BitVec.ofNat 14 (bitsOf w 40 14)) (BitVec.ofNat 20 (bitsOf w 20 20))
        (BitVec.ofNat 20 w)) else none
  | 4 =>
    let v := BitVec.ofNat 32 w
    match pm with
    | 0 => if 2 ≤ bitsOf w 55 3 ∧ bitsOf w 55 3 ≤ 4 ∧ bitsOf w 49 6 = 0 then
        some (.waitSignalStep (scopeOf (bitsOf w 55 3)) (BitVec.ofNat 17 (bitsOf w 32 17)) v) else none
    | 1 => if bitsOf w 32 26 = 0 then some (.waitTimeStep v) else none
    | 2 => if bitsOf w 32 26 = 0 then some (.waitAfterT0Step v) else none
    | _ => none
  | 5 => if bitsOf w 40 20 = 0 ∧ bitsOf w 16 4 = 0 then
      some (.loop (BitVec.ofNat 20 (bitsOf w 20 20)) (BitVec.ofNat 16 w)) else none
  | 6 => if bitsOf w 0 60 = 0 then some .endl else none
  | 7 => if bitsOf w 0 60 = 0 then some .stepDone else none
  | _ => none

/-! ## The encoder, from the same tables -/

/-- A cox source specifier. -/
def encSrc : Src → Nat
  | .x r => r.val
  | .rf => 0x80
  | .imm _ => 0xC0
/-- A cox source without an immediate. -/
def encXRf : XRf → Nat
  | .x r => r.val
  | .rf => 0x80
/-- A cox source without `rf`. -/
def encXImm : XImm → Nat
  | .x r => r.val
  | .imm _ => 0xC0
/-- A V source. -/
def encVSrc : VSrc → Nat
  | .v r => r.val
  | .ip p => 0x80 + p.val
  | .s n => 0x90 + n.val
  | .imm _ => 0xC0
/-- A V source of classes V and P. -/
def encVP : VP → Nat
  | .v r => r.val
  | .ip p => 0x80 + p.val
/-- A V source of classes V, S and #. -/
def encVSI : VSI → Nat
  | .v r => r.val
  | .s n => 0x90 + n.val
  | .imm _ => 0xC0
/-- A V destination. -/
def encVD : VDst → Nat
  | .v r => r.val
  | .op p => 0x88 + p.val
/-- A predicate or mask specifier. -/
def encP {n : Nat} (p : Fin n) : Nat := 64 + p.val

/-- The IMM that a list of sources fixes: that of the first immediate, or zero. -/
def encImms : List (Option (BitVec 32)) → Nat
  | [] => 0
  | some i :: _ => i.toNat
  | none :: l => encImms l

/-- The immediate of `XImm`. -/
def XImm.imm? : XImm → Option (BitVec 32)
  | .imm i => some i
  | _ => none
/-- The immediate of `VSI`. -/
def VSI.imm? : VSI → Option (BitVec 32)
  | .imm i => some i
  | _ => none

/-- TP or TS (R37). -/
def encTok (e : Eng) : Option Eng → Nat
  | none => 0
  | some f =>
    match e, f with
    | .l, .v => 1 | .l, .m => 2 | .l, _ => 3
    | .v, .l => 1 | .v, .m => 2 | .v, _ => 3
    | .m, .l => 1 | .m, .v => 2 | .m, _ => 3
    | .s, .l => 1 | .s, .v => 2 | .s, _ => 3

/-- A type code. -/
def encMemTy (t : MemTy) : Nat :=
  (match t.width with
    | .b1 => 5
    | .b2 => 6
    | .b4 => 7
    | .b8 => 8) + (if t.signed then 0 else 4)
/-- An atomic operation code (R270). -/
def encAtom : AtomOp → Nat
  | .add => 1 | .swap => 2 | .max => 4 | .min => 5 | .and => 6 | .or => 7
/-- A condition code. -/
def encCond : Cond → Nat
  | .eq => 0 | .ne => 1 | .lt => 2 | .le => 3 | .gt => 4 | .ge => 5 | .ltn => 6 | .len => 7 | .gtn => 8 | .gen => 9
/-- A logic operation code. -/
def encLog : LogOp → Nat
  | .and => 0 | .or => 1 | .xor => 2 | .andn => 3 | .orn => 4 | .xnor => 5
/-- An order code. -/
def encOrder : Order → Nat
  | .rlx => 0 | .acq => 1 | .rel => 2 | .ar => 3 | .sc => 4
/-- A scope code. -/
def encScope : Scope → Nat
  | .tile => 0 | .gang => 1 | .die => 2 | .pkg => 3 | .dom => 4
/-- An engine code. -/
def encEng : Eng → Nat
  | .l => 0 | .v => 1 | .m => 2 | .s => 3
/-- A rounding code. -/
def encRm : Rm → Nat
  | .rne => 0 | .rtz => 1 | .rup => 2 | .rdn => 3 | .rneSat => 4 | .rtzSat => 5
/-- An FP type code. -/
def encFp : FpTy → Nat
  | .f32 => 1 | .bf16 => 2 | .f16 => 3
/-- A 32-bit integer type code. -/
def encInt : IntTy → Nat
  | .i32 => 7 | .n32 => 11
/-- A lane type code. -/
def encLane : LaneTy → Nat
  | .fp t => encFp t
  | .int t => encInt t
/-- A `VCVT` type code. -/
def encCvt : CvtTy → Nat
  | .f32 => 1 | .bf16 => 2 | .f16 => 3 | .nf => 4 | .i8 => 5 | .i16 => 6 | .i32 => 7 | .n8 => 9 | .n16 => 10 | .n32 => 11
/-- The width part of a signed type code. -/
def encW : Width → Nat
  | .b1 => 0 | .b2 => 1 | .b4 => 2 | .b8 => 3
/-- A Bool as a bit. -/
def encB (b : Bool) : Nat := if b then 1 else 0

/-- The type code of `ADDA`. -/
def encAddTy : AddTy → Nat
  | .f32 => 1 | .bf16 => 2 | .f16 => 3 | .i64 => 8
/-- The type code of an atomic `ST`. -/
def encAtTy (signed : Bool) : Nat := if signed then 8 else 12
/-- The type code of a `SATOM`. -/
def encAtomTy : AtomTy → Nat
  | .none => 0 | .i64 => 8 | .n64 => 12
/-- The operation code of a `SATOM`. -/
def encSatOp : SatOp → Nat
  | .op o => encAtom o
  | .cas _ => 3
/-- C of a `SATOM`. -/
def encSatC : SatOp → Nat
  | .op _ => 0
  | .cas c => encXRf c
/-- FN[2] and C of a budget. -/
def encBudgetFn : Budget → Nat
  | .imm _ => 0
  | .reg _ => 4
/-- C of a budget. -/
def encBudgetC : Budget → Nat
  | .imm _ => 0
  | .reg r => r.val
/-- IMM[31:12] of a budget. -/
def encBudgetImm : Budget → Nat
  | .imm n => n.toNat
  | .reg _ => 0
/-- A role code. -/
def encRole : Role → Nat
  | .i => 0 | .s => 1 | .a => 2
/-- IMM of `RECAST` beside the role (R80). -/
def encRecastSig : Option (BitVec 17) → Nat
  | some w => 8 + 16 * w.toNat
  | none => 0
/-- FN of `QSTAT`. -/
def encQstat : Option Eng → Nat
  | some e => encEng e
  | none => 4
/-- A of `CSRW`. -/
def encCsrA : Option XRf → Nat
  | some a => encXRf a
  | none => 0xC0
/-- FN of `VTWIN`. -/
def encTc : TcKind → Nat
  | .tc1 => 0 | .tc15 => 1
/-- FN of `VRED`. -/
def encArith : RedArith → Nat
  | .add => 0 | .max => 1 | .min => 2
/-- FN of `VRED` with a logic operation. -/
def encLogic : RedLogic → Nat
  | .and => 3 | .or => 4 | .xor => 5
/-- MODE (R127). -/
def encBase : ElemBase → Nat
  | .none => 0 | .arga => 64 | .argb => 128
/-- IMM of a start time. -/
def encTime : Option (BitVec 32) → Nat
  | some t => t.toNat
  | none => 0
/-- TIMED in FN. -/
def encTimed (t : Option (BitVec 32)) : Nat := if t.isSome then 16 else 0

/-- A cox guard in PN and PR. -/
def Fields.withG (f : Fields) (g : CGuard) : Fields := { f with pn := encB g.neg, pr := g.p.val }
/-- A V guard and tokens. -/
def Fields.withVH (f : Fields) (h : VHead) : Fields :=
  { f with pn := encB h.g.neg, pr := h.g.k.val, tp := encTok .v h.tok.pop, ts := encTok .v h.tok.push }
/-- Tokens of engine `e`. -/
def Fields.withTok (f : Fields) (e : Eng) (t : Tok) : Fields :=
  { f with tp := encTok e t.pop, ts := encTok e t.push }

/-- Fields of `op xd, a, b`. -/
def encAlu3 (opc : Nat) (o : Alu3) : Fields :=
  { opc := opc, pn := encB o.g.neg, pr := o.g.p.val, d := o.d.val, a := encSrc o.a, b := encSrc o.b,
    imm := encImms [o.a.imm?, o.b.imm?] }
/-- Fields of `op xd, a`. -/
def encAlu1 (opc : Nat) (o : Alu1) : Fields :=
  { opc := opc, pn := encB o.g.neg, pr := o.g.p.val, d := o.d.val, a := encSrc o.a, imm := encImms [o.a.imm?] }
/-- Fields of `SEXT` and `ZEXT`. -/
def encExt (opc lo : Nat) (o : ExtOp) : Fields :=
  { opc := opc, pn := encB o.g.neg, pr := o.g.p.val, d := o.d.val, a := encSrc o.a, ty := lo + encW o.w,
    imm := encImms [o.a.imm?] }
/-- Fields of a memory word. -/
def encMem (opc fn : Nat) (o : MemOp) : Fields :=
  { opc := opc, pn := encB o.g.neg, pr := o.g.p.val, a := o.a.val, fn := fn, ty := encMemTy o.ty, imm := o.off.toNat }
/-- Fields of a Signal word. -/
def encSig (opc : Nat) (o : SigOp) : Fields :=
  { opc := opc, pn := encB o.g.neg, pr := o.g.p.val, a := o.a.val, fn := encOrder o.ord,
    imm := encScope o.sc * 2 ^ 29 + o.off.toNat }
/-- Fields of a cox word of which only the guard and A may be set. -/
def encXa (opc : Nat) (g : CGuard) (a : Nat) : Fields := ({ opc := opc, a := a } : Fields).withG g
/-- Fields of FP words. -/
def encFp1 (opc : Nat) (o : VFp1) : Fields :=
  ({ opc := opc, d := encVD o.d, a := encVSrc o.a, ty := encFp o.ty, rm := encRm o.rm,
     imm := encImms [o.a.imm?] } : Fields).withVH o.h
/-- Fields of FP words of two sources. -/
def encFp2 (opc : Nat) (o : VFp2) : Fields :=
  ({ opc := opc, d := encVD o.d, a := encVSrc o.a, b := encVSrc o.b, ty := encFp o.ty, rm := encRm o.rm,
     imm := encImms [o.a.imm?, o.b.imm?] } : Fields).withVH o.h
/-- Fields of FP words of three sources. -/
def encFp3 (opc : Nat) (o : VFp3) : Fields :=
  ({ opc := opc, d := encVD o.d, a := encVSrc o.a, b := encVSrc o.b, c := encVSrc o.c, ty := encFp o.ty,
     rm := encRm o.rm, imm := encImms [o.a.imm?, o.b.imm?, o.c.imm?] } : Fields).withVH o.h
/-- Fields of integer words. -/
def encInt2 (opc : Nat) (o : VInt2) : Fields :=
  ({ opc := opc, d := encVD o.d, a := encVSrc o.a, b := encVSrc o.b, ty := encInt o.ty,
     imm := encImms [o.a.imm?, o.b.imm?] } : Fields).withVH o.h
/-- Fields of logic words. -/
def encLog2 (opc : Nat) (o : VLog2) : Fields :=
  ({ opc := opc, d := encVD o.d, a := encVSrc o.a, b := encVSrc o.b,
     imm := encImms [o.a.imm?, o.b.imm?] } : Fields).withVH o.h
/-- Fields of `VRED` and `VSCAN`. -/
def encRed (opc : Nat) (o : VRedOp) : Fields :=
  let f : Fields := { opc := opc, d := o.d.val, a := encVP o.a }
  match o.op with
  | .arith op ty rm => ({ f with fn := encArith op, ty := encLane ty, rm := encRm rm } : Fields).withVH o.h
  | .logic op => ({ f with fn := encLogic op } : Fields).withVH o.h
/-- Fields of a port word. -/
def encPort (opc a : Nat) (o : PortOp) : Fields :=
  ({ opc := opc, a := a, fn := o.port.val } : Fields).withTok .v o.tok
/-- Fields of a command that names an element; `fn` is bits 47:44. -/
def encElem (e : Eng) (opc fn : Nat) (o : ElemOp) : Fields :=
  ({ opc := opc, d := encBase o.base + o.index.toNat / 256, a := o.index.toNat % 256, fn := fn + encTimed o.timed,
     rm := encRm o.rm, imm := encTime o.timed } : Fields).withTok e o.tok
/-- Fields of a signal form. -/
def encCSig (e : Eng) (opc : Nat) (o : CSigOp) : Fields :=
  ({ opc := opc, b := encOrder o.ord + 8 * encScope o.sc + (if o.useArg then 128 else 0), c := o.n.toNat,
     imm := o.w.toNat } : Fields).withTok e o.tok
/-- Fields of a multiply command. -/
def encMma (opc : Nat) (o : MmaOp) : Fields :=
  ({ opc := opc, d := o.bank.val, a := o.sa.val, b := o.sb.val,
     imm := o.k1.toNat + 128 * o.aoff.toNat + 16384 * o.boff.toNat } : Fields).withTok .m o.tok

/-- The fields of an instruction as a word of stream `st`; `none` for a term that is no Belpol word. -/
def fieldsOf (st : Stream) (i : Instr) : Option Fields :=
  let e : Eng := (st.ls?).getD .l
  match i with
  | .add o => encAlu3 0x00 o | .sub o => encAlu3 0x01 o | .mul o => encAlu3 0x02 o | .mulh o => encAlu3 0x03 o
  | .mulhn o => encAlu3 0x04 o | .div o => encAlu3 0x05 o | .divn o => encAlu3 0x06 o | .rem o => encAlu3 0x07 o
  | .remn o => encAlu3 0x08 o | .and o => encAlu3 0x09 o | .or o => encAlu3 0x0A o | .xor o => encAlu3 0x0B o
  | .andn o => encAlu3 0x0C o | .shl o => encAlu3 0x0D o | .shr o => encAlu3 0x0E o | .sra o => encAlu3 0x0F o
  | .rot o => encAlu3 0x10 o | .clz o => encAlu1 0x11 o | .ctz o => encAlu1 0x12 o | .popc o => encAlu1 0x13 o
  | .min o => encAlu3 0x14 o | .max o => encAlu3 0x15 o | .minn o => encAlu3 0x16 o | .maxn o => encAlu3 0x17 o
  | .sext o => encExt 0x18 5 o | .zext o => encExt 0x19 9 o
  | .li g d imm => some (({ opc := 0x1A, d := d.val, a := 0xC0, imm := imm.toNat } : Fields).withG g)
  | .lih o => some (({ opc := 0x1B, d := o.d.val, a := encXRf o.a, b := 0xC0, imm := o.imm.toNat } : Fields).withG o.g)
  | .sel o => some (({ opc := 0x1C, d := o.d.val, a := encSrc o.a, b := encSrc o.b, c := encP o.c,
                       imm := encImms [o.a.imm?, o.b.imm?] } : Fields).withG o.g)
  | .cmp o => some (({ opc := 0x20, d := encP o.d, a := encSrc o.a, b := encSrc o.b, fn := encCond o.cc,
                       imm := encImms [o.a.imm?, o.b.imm?] } : Fields).withG o.g)
  | .plog o => some (({ opc := 0x21, d := encP o.d, a := encP o.a, b := encP o.b,
                        fn := encLog o.op } : Fields).withG o.g)
  | .pmovPP g d a => some (({ opc := 0x22, d := encP d, a := encP a } : Fields).withG g)
  | .pmovPX g d a => some (({ opc := 0x22, d := encP d, a := encSrc a, fn := 1,
                              imm := encImms [a.imm?] } : Fields).withG g)
  | .pmovXP g d a => some (({ opc := 0x22, d := d.val, a := encP a, fn := 2 } : Fields).withG g)
  | .pmovXPall g d => some (({ opc := 0x22, d := d.val, fn := 3 } : Fields).withG g)
  | .pmovPallX g a => some (({ opc := 0x22, a := a.val, fn := 4 } : Fields).withG g)
  | .ld o d => some { encMem 0x30 0 o with d := d.val }
  | .ldFifo o => encMem 0x30 1 o
  | .st o b => some { encMem 0x31 0 o with b := encXRf b }
  | .stAtomic g a off sgn op b => some (({ opc := 0x31, a := a.val, b := encXRf b, fn := encAtom op,
                                           ty := encAtTy sgn, imm := off.toNat } : Fields).withG g)
  | .stCas g a off sgn b c => some (({ opc := 0x31, a := a.val, b := encXRf b, c := c.val, fn := 3,
                                       ty := encAtTy sgn, imm := off.toNat } : Fields).withG g)
  | .ldi o => encMem 0x32 0 o
  | .ldiTouch o p => some { encMem 0x32 1 o with d := if p then 0x40 else 0 }
  | .lds g a seg => some (({ opc := 0x33, a := a.val, imm := seg.val } : Fields).withG g)
  | .ldsTouch g a seg p => some (({ opc := 0x33, d := if p then 0x40 else 0, a := a.val, fn := 1,
                                    imm := seg.val } : Fields).withG g)
  | .sts g a b seg => some (({ opc := 0x34, a := a.val, b := b.val, imm := seg.val } : Fields).withG g)
  | .close g a seg => some (({ opc := 0x34, a := a.val, fn := 1, imm := seg.val } : Fields).withG g)
  | .adda g a b c ty => some (({ opc := 0x35, a := a.val, b := b.val, c := c.val,
                                 ty := encAddTy ty } : Fields).withG g)
  | .sld o => encSig 0x36 o
  | .sst o b => some { encSig 0x37 o with b := encXRf b }
  | .satom o ty op b => some { encSig 0x38 o with b := encXRf b, c := encSatC op, ty := encAtomTy ty,
                                                  imm := (encSig 0x38 o).imm + 2 ^ 26 * encSatOp op }
  | .fence sc => some { opc := 0x39, imm := encScope sc * 2 ^ 29 }
  | .br g imm => some (({ opc := 0x40, imm := imm.toNat } : Fields).withG g)
  | .brl g d imm => some (({ opc := 0x41, d := d.val, imm := imm.toNat } : Fields).withG g)
  | .jr g a => encXa 0x42 g a.val
  | .ret g a => encXa 0x43 g a.val
  | .bct g a imm => some (({ opc := 0x44, d := a.val, a := a.val, imm := imm.toNat } : Fields).withG g)
  | .region g => encXa 0x45 g 0
  | .exec o => some (({ opc := 0x50, d := o.d.val, a := o.a.val, b := o.b.val, c := encBudgetC o.budget,
                        fn := encEng o.e + encBudgetFn o.budget,
                        imm := o.sec.toNat + 4096 * encBudgetImm o.budget } : Fields).withG o.g)
  | .waitq g e a => some (({ opc := 0x51, a := encSrc a, fn := encEng e, imm := encImms [a.imm?] } : Fields).withG g)
  | .waitb g a => some (({ opc := 0x52, a := encSrc a, imm := encImms [a.imm?] } : Fields).withG g)
  | .qstat g d e => some (({ opc := 0x53, d := d.val, fn := encQstat e } : Fields).withG g)
  | .mlease g n tb => some (({ opc := 0x60, imm := n.val + 128 * tb.toNat } : Fields).withG g)
  | .mfree g => encXa 0x61 g 0
  | .acalloc g d a => some (({ opc := 0x62, d := encP d, a := encXImm a, imm := encImms [a.imm?] } : Fields).withG g)
  | .acown g a b => some (({ opc := 0x63, a := encXImm a, b := encXImm b, imm := encImms [a.imm?,
                             b.imm?] } : Fields).withG g)
  | .acfree g a => some (({ opc := 0x64, a := encXImm a, imm := encImms [a.imm?] } : Fields).withG g)
  | .osclaim g d a => some (({ opc := 0x65, d := encP d, a := encXImm a, imm := encImms [a.imm?] } : Fields).withG g)
  | .osrel g a => some (({ opc := 0x66, a := encXImm a, imm := encImms [a.imm?] } : Fields).withG g)
  | .extnew g a acap => some (({ opc := 0x68, a := a.val, imm := encB acap } : Fields).withG g)
  | .recast o => some (({ opc := 0x69, a := o.a.val, b := o.b.val, c := o.c.val,
                          imm := encRole o.role + (if o.fresh then 4 else 0) + encRecastSig o.sig } : Fields).withG o.g)
  | .extq g a seg field => some (({ opc := 0x6A, a := a.val, imm := field.toNat + 256 * seg.val } : Fields).withG g)
  | .extfree g a => encXa 0x6B g a.val
  | .launch g pd xd a b csig => some (({ opc := 0x70, d := encP pd, a := a.val, b := b.val, c := xd.val,
                                         imm := csig.toNat } : Fields).withG g)
  | .launchw g xd a b csig => some (({ opc := 0x71, a := a.val, b := b.val, c := xd.val,
                                       imm := csig.toNat } : Fields).withG g)
  | .join g d a => some (({ opc := 0x72, d := d.val, a := encSrc a, imm := encImms [a.imm?] } : Fields).withG g)
  | .done g => encXa 0x73 g 0
  | .trap g imm => some (({ opc := 0xE0, a := 0xC0, imm := imm.toNat } : Fields).withG g)
  | .rft g => encXa 0xE1 g 0
  | .csrr g d c => some (({ opc := 0xE2, d := d.val, imm := c.toNat } : Fields).withG g)
  | .csrw g c a => some (({ opc := 0xE3, a := encCsrA a, imm := c.toNat } : Fields).withG g)
  | .nop g => encXa 0xE4 g 0
  | .halt g => encXa 0xE5 g 0
  | .msdecl g d a => some (({ opc := 0xE6, d := encP d, a := a.val } : Fields).withG g)
  | .pfack g => encXa 0xE7 g 0
  | .pfrestore g d a b => some (({ opc := 0xE8, d := encP d, a := a.val, b := b.val } : Fields).withG g)
  | .waitcyc g a => some (({ opc := 0xE9, a := encSrc a, imm := encImms [a.imm?] } : Fields).withG g)
  | .waitcycUntil g a => some (({ opc := 0xE9, a := encSrc a, fn := 1, imm := encImms [a.imm?] } : Fields).withG g)
  | .grpopen g a => encXa 0xEA g a.val
  | .grpfree g a => encXa 0xEB g a.val
  | .vadd o => encFp2 0x00 o | .vsub o => encFp2 0x01 o | .vmul o => encFp2 0x02 o
  | .vfma o => encFp3 0x03 o | .vfms o => encFp3 0x04 o | .vnfma o => encFp3 0x05 o
  | .vmin o => encFp2 0x06 o | .vmax o => encFp2 0x07 o | .vabs o => encFp1 0x08 o | .vneg o => encFp1 0x09 o
  | .vdiv o => encFp2 0x0A o | .vsqrt o => encFp1 0x0B o | .vexp2 o => encFp1 0x0C o | .vlog2 o => encFp1 0x0D o
  | .vrcp o => encFp1 0x0E o | .vrsq o => encFp1 0x0F o
  | .viadd o => encInt2 0x20 o | .visub o => encInt2 0x21 o | .vimul o => encInt2 0x22 o
  | .vand o => encLog2 0x23 o | .vor o => encLog2 0x24 o | .vxor o => encLog2 0x25 o
  | .vshl o => encLog2 0x26 o | .vshr o => encLog2 0x27 o | .vsra o => encLog2 0x28 o
  | .vimin o => encInt2 0x29 o | .vimax o => encInt2 0x2A o
  | .vcmp o => some (({ opc := 0x40, d := encP o.d, a := encVSrc o.a, b := encVSrc o.b, fn := encCond o.cc,
                        ty := encLane o.ty, imm := encImms [o.a.imm?, o.b.imm?] } : Fields).withVH o.h)
  | .vsel h d a b c => some (({ opc := 0x41, d := encVD d, a := encVSrc a, b := encVSrc b, c := encP c,
                                imm := encImms [a.imm?, b.imm?] } : Fields).withVH h)
  | .vplog h d a b op => some (({ opc := 0x42, d := encP d, a := encP a, b := encP b,
                                  fn := encLog op } : Fields).withVH h)
  | .vcvt o => some (({ opc := 0x48, d := encVD o.d, a := encVSrc o.a, fn := encCvt o.src, ty := encCvt o.dst,
                        rm := encRm o.rm, imm := encImms [o.a.imm?, some o.fmt] } : Fields).withVH o.h)
  | .vqblk h d a rm fmt => some (({ opc := 0x49, d := d.val, a := encVP a, rm := encRm rm,
                                    imm := fmt.toNat } : Fields).withVH h)
  | .vdqblk h d a rm fmt => some (({ opc := 0x4A, d := encVD d, a := encVSrc a, rm := encRm rm,
                                     imm := fmt.toNat } : Fields).withVH h)
  | .vred o => encRed 0x50 o
  | .vscan o => encRed 0x51 o
  | .vperm h d a b => some (({ opc := 0x52, d := encVD d, a := encVP a, b := encVP b } : Fields).withVH h)
  | .vbcst h d a n => some (({ opc := 0x53, d := encVD d, a := encVP a, fn := n.val } : Fields).withVH h)
  | .vslide h d a b n => some (({ opc := 0x54, d := encVD d, a := encVP a, b := encVP b,
                                  fn := n.val } : Fields).withVH h)
  | .vldi h d base step => some (({ opc := 0x56, d := encVD d, a := 0xC0, fn := step.val,
                                    imm := base.toNat } : Fields).withVH h)
  | .vmov h d a => some (({ opc := 0x55, d := encVD d, a := encVSrc a, imm := encImms [a.imm?] } : Fields).withVH h)
  | .vmovK h d a => some (({ opc := 0x55, d := encP d, a := encP a } : Fields).withVH h)
  | .vmovToCsr h csr a => some (({ opc := 0x55, a := encVSI a, b := csr.val, fn := 1,
                                   imm := encImms [a.imm?] } : Fields).withVH h)
  | .vmovFromCsr h d csr => some (({ opc := 0x55, d := d.val, b := csr.val, fn := 2 } : Fields).withVH h)
  | .vmovMaskToV h d a => some (({ opc := 0x55, d := encVD d, a := encP a, fn := 3 } : Fields).withVH h)
  | .vmovVToMask h d a => some (({ opc := 0x55, d := encP d, a := encVSrc a, fn := 4,
                                   imm := encImms [a.imm?] } : Fields).withVH h)
  | .vpset o a => encPort 0x60 a.val o
  | .vprst o => encPort 0x61 0 o
  | .vpsync o => encPort 0x62 0 o
  | .vacrd h d sel drain => some (({ opc := 0x68, d := d.val, a := encVSI sel, fn := encB drain,
                                     imm := encImms [sel.imm?] } : Fields).withVH h)
  | .vacwr h a sel add => some (({ opc := 0x69, a := encVP a, b := encVSI sel, fn := encB add,
                                   imm := encImms [sel.imm?] } : Fields).withVH h)
  | .vtwin h d a b c kind => some (({ opc := 0x6C, d := d.val, a := encVP a, b := encVP b, c := encVSrc c,
                                      fn := encTc kind, imm := encImms [c.imm?] } : Fields).withVH h)
  | .vtcw h d a => some (({ opc := 0x6D, d := encVD d, a := encVSrc a, imm := encImms [a.imm?] } : Fields).withVH h)
  | .vloop t n => some (({ opc := 0x70, imm := n.toNat } : Fields).withTok .v t)
  | .vbr h all n => some (({ opc := 0x71, fn := encB all, imm := n.toNat } : Fields).withVH h)
  | .vend t => some (({ opc := 0x72 } : Fields).withTok .v t)
  | .vnop t => some (({ opc := 0x73 } : Fields).withTok .v t)
  | .cnop t tm => some (({ opc := 0x00, fn := encTimed tm, imm := encTime tm } : Fields).withTok e t)
  | .cpy o => encElem e 0x01 0 o
  | .cpyt o d => some { encElem e 0x02 0 o with imm := d.toNat }
  | .cpyr o => encElem e 0x03 0 o | .cfill o => encElem e 0x04 0 o | .cgath o => encElem e 0x05 0 o
  | .cscat o => encElem e 0x06 0 o | .csg o => encElem e 0x08 0 o | .cseal o => encElem e 0x09 0 o
  | .copld o fin => encElem e 0x10 (encB fin) o
  | .covl o => encElem e 0x11 0 o | .cwtx o => encElem e 0x12 0 o | .ctce o => encElem e 0x13 0 o
  | .csig o => encCSig e 0x20 o
  | .cwaitSignal o => encCSig e 0x21 o
  | .cwaitTime t n => some (({ opc := 0x21, fn := 1, imm := n.toNat } : Fields).withTok e t)
  | .cprb o => encElem e 0x22 0 o
  | .cend t => some (({ opc := 0x7F } : Fields).withTok e t)
  | .msetrow t lo hi => some (({ opc := 0x01, imm := lo.toNat + 256 * hi.toNat } : Fields).withTok .m t)
  | .msetrowPart t q b => some (({ opc := 0x01, c := q.val, fn := 1, imm := b.toNat } : Fields).withTok .m t)
  | .msetcol t lo hi => some (({ opc := 0x02, imm := lo.toNat + 256 * hi.toNat } : Fields).withTok .m t)
  | .msetcolPart t q b => some (({ opc := 0x02, c := q.val, fn := 1, imm := b.toNat } : Fields).withTok .m t)
  | .mfmt t opb fmt => some (({ opc := 0x03, fn := encB opb, imm := fmt.toNat } : Fields).withTok .m t)
  | .mscale t sa sb => some (({ opc := 0x04, imm := sa.toNat + 256 * sb.toNat } : Fields).withTok .m t)
  | .mma o => encMma 0x10 o | .mmaz o => encMma 0x11 o | .mmat o => encMma 0x12 o | .mtcw o => encMma 0x13 o
  | .mcommit t => some (({ opc := 0x20 } : Fields).withTok .m t)
  | .macz t b => some (({ opc := 0x21, d := b.val } : Fields).withTok .m t)
  | .mtile t b c => some (({ opc := 0x22, d := b.val, imm := c.val } : Fields).withTok .m t)
  | .mend t => some (({ opc := 0x7F } : Fields).withTok .m t)
  | _ => none

/-- The 96-bit word of an instruction of stream `st` (R48). -/
def encode (st : Stream) (i : Instr) : Option Nat := (fieldsOf st i).map Fields.join

/-- The peer mode code (R240). -/
def encPm : PeerMode → Nat
  | .up => 0 | .down => 1 | .xor => 2

/-- A data step's word without its opcode's own fields. -/
def encDataStep (op : Nat) (o : DataStep) : Nat :=
  op * 2 ^ 60 + encPm o.pm * 2 ^ 58 + o.f1.val * 2 ^ 56 + o.nel1.toNat * 2 ^ 40 + o.k.toNat * 2 ^ 32 + o.off.toNat

/-- The 64-bit word of a step (R240). -/
def encodeStep (i : Instr) : Option Nat :=
  match i with
  | .send o f2 => some (encDataStep 0 o + f2.val * 2 ^ 54)
  | .recv o => some (encDataStep 1 o)
  | .rrs o f2 f3 snd => some (encDataStep 2 o + f2.val * 2 ^ 54 + f3.val * 2 ^ 30 + encB snd * 2 ^ 29)
  | .copy f1 f2 nel1 doff off =>
    some (3 * 2 ^ 60 + f1.val * 2 ^ 56 + f2.val * 2 ^ 54 + nel1.toNat * 2 ^ 40 + doff.toNat * 2 ^ 20 + off.toNat)
  | .waitSignalStep s w v => some (4 * 2 ^ 60 + encScope s * 2 ^ 55 + w.toNat * 2 ^ 32 + v.toNat)
  | .waitTimeStep v => some (4 * 2 ^ 60 + 1 * 2 ^ 58 + v.toNat)
  | .waitAfterT0Step v => some (4 * 2 ^ 60 + 2 * 2 ^ 58 + v.toNat)
  | .loop str cnt1 => some (5 * 2 ^ 60 + str.toNat * 2 ^ 20 + cnt1.toNat)
  | .endl => some (6 * 2 ^ 60)
  | .stepDone => some (7 * 2 ^ 60)
  | _ => none

/-! ## The host's numbering -/

/-- The stream that bits 103:96 of a table word name (the model's own numbering: a table row gives no stream). -/
def streamOf (n : Nat) : Stream :=
  match n with
  | 1 => .l
  | 2 => .v
  | 3 => .m
  | 4 => .s
  | _ => .cox

/-- The instruction the decoder reads from the bits `w`: a step word when `nbits` is 64, and otherwise a Belpol word
in bits 95:0, of the cox stream unless bits 103:96 name an engine stream (1 L, 2 V, 3 M, 4 S). Events have no
encoding. -/
def decodeTableWord (nbits w : Nat) : Option Instr :=
  if nbits = 64 then decodeStep w
  else
    match decodeBytes (streamOf (bitsOf w 96 8)) (toBytes 12 w) with
    | .word i => some i
    | .ill _ => none

end Sys2Proof
end

