-- ==== Sys2Proof/Machine/Queue.lean ====
section
/-! DEFINITION. The engine queues of a tile: headers and directories (R57, R58), dependences (R59), expansion (R60),
tokens (R56), and the stop of a queue at a fault (R63, R336). -/

namespace Sys2Proof.Machine

open Sys2Proof

/-! ## Sections (R42, R57, R58) -/

/-- A header's fields. -/
structure Header where
  len : Nat
  sec : Nat
  dep : Vector Nat 3
deriving DecidableEq, Repr

/-- The header in a 64-bit number whose TYPE is `0xA` and whose LEN is 1–4,095. -/
def headerOf (w : Nat) : Option Header :=
  if bitsOf w 60 4 = 10 ∧ bitsOf w 48 12 ≠ 0 then
    some ⟨bitsOf w 48 12, bitsOf w 36 12, #v[bitsOf w 24 12, bitsOf w 12 12, bitsOf w 0 12]⟩
  else none

/-- R57, R59: the place and header of section `sec`, when it is present, well formed and its own. -/
def Engine.section? (g : Engine) (sec : Nat) : Option (Nat × Header) :=
  match g.dir.find? sec with
  | none => none
  | some a =>
    match headerOf (g.store.readNat a 8) with
    | none => none
    | some h => if h.sec = sec ∧ a + 8 + 12 * h.len ≤ Config.storeBytes then some (a, h) else none

/-- The 12 bytes of word `i` of a section whose header lies at `a`. -/
def Engine.wordAt (g : Engine) (a i : Nat) : List Byte := g.store.read (a + 8 + 12 * i) 12

/-- The three other engines, in the order of R37. -/
def others (e : Eng) : List Eng := engines.filter fun f => f ≠ e

/-- R59: `dep_met`. -/
def Engine.depMetBy (g : Engine) (d : Nat) : Bool :=
  if d = 0xFFF then true
  else if g.noneRetired then false
  else decide ((g.lastSec.toNat + 4096 - d) % 4096 < 2048)

/-! ## The entry at the head -/

/-- The entry that the engine is working on: the first whose words have not all issued. -/
def Engine.cur? (g : Engine) : Option Entry := g.queue.find? fun n => n.st ≠ .issued

/-- Changes that entry. -/
def modFirst (p : Entry → Bool) (f : Entry → Entry) : List Entry → List Entry
  | [] => []
  | n :: ns => if p n then f n :: ns else n :: modFirst p f ns

/-- Changes the entry that the engine is working on. -/
def Engine.modCur (g : Engine) (f : Entry → Entry) : Engine :=
  { g with queue := modFirst (fun n => n.st ≠ .issued) f g.queue }

/-- The sequence number of the entry at work. -/
def Engine.curSeq (g : Engine) : BitVec 32 :=
  match g.cur? with
  | some n => n.seq
  | none => 0

/-- The section of the entry at work. -/
def Engine.curSec (g : Engine) : Nat :=
  match g.cur? with
  | some n => n.sec.toNat
  | none => 0

/-- LEN of the section at work. -/
def Engine.curLen (g : Engine) : Nat :=
  match g.section? g.curSec with
  | some (_, h) => h.len
  | none => 0

/-- R60: µPC. -/
def Engine.upc (g : Engine) : Nat := 4096 * g.curSec + g.index

/-- R146: word `i` of entry `seq` of L or S has retired. -/
def Engine.keepRetired (g : Engine) (seq : BitVec 32) (i : Nat) : Engine :=
  { g with queue := modFirst (fun n => n.seq = seq) (fun n => { n with retired := i :: n.retired }) g.queue }

/-- R146: word `i` of the entry at work issues again. -/
def Engine.reissue (g : Engine) (i : Nat) : Engine :=
  g.modCur fun n => { n with again := n.again.filter fun a => a.1 ≠ i }

/-- One word fewer of entry `seq` is unretired. -/
def Engine.wordDone (g : Engine) (seq : BitVec 32) : Engine :=
  { g with queue := modFirst (fun n => n.seq = seq) (fun n => { n with pendingWords := n.pendingWords - 1 }) g.queue }

/-- R60, R204: the index after the word at work has issued; past the last word the entry has issued whole. -/
def Engine.advance (g : Engine) : Engine :=
  let g := match g.branch with
    | none => { g with index := g.index + 1 }
    | some (target, left) =>
      if left ≤ 1 then { g with index := target, branch := none }
      else { g with index := g.index + 1, branch := some (target, left - 1) }
  if g.curLen ≤ g.index then g.modCur fun n => { n with st := .issued } else g

/-- A word of the entry at work has issued and not retired. -/
def Engine.issue (g : Engine) : Engine :=
  (g.modCur fun n => { n with pendingWords := n.pendingWords + 1 }).advance

/-- R146: a word that has retired before is passed over; past an end word the entry has issued whole. -/
def Engine.passOver (g : Engine) (ends : Bool) : Engine :=
  if ends then { (g.modCur fun n => { n with st := .issued }) with branch := none } else g.advance

/-- An end word has issued (R60): no word after it issues in its entry. -/
def Engine.issueEnd (g : Engine) : Engine :=
  { (g.modCur fun n => { n with pendingWords := n.pendingWords + 1, st := .issued }) with branch := none }

/-! ## Tokens (R56) -/

/-- The tokens in the FIFO from `e` to `f`. -/
def Tile.token (x : Tile) (e f : Eng) : Nat := x.tokens[e.ix][f.ix]

/-- Sets the count of a FIFO. -/
def Tile.setToken (x : Tile) (e f : Eng) (n : Nat) : Tile :=
  { x with tokens := x.tokens.set e.ix (x.tokens[e.ix].set f.ix n) }

/-- Can a word of engine `f` make its pop? -/
def Tile.canPop (x : Tile) (f : Eng) : Option Eng → Bool
  | none => true
  | some e => decide (0 < x.token e f)

/-- The pop of a word of engine `f`. -/
def Tile.popToken (x : Tile) (f : Eng) : Option Eng → Tile
  | none => x
  | some e => x.setToken e f (x.token e f - 1)

/-- Is there room for the push of a word of engine `e`? -/
def Tile.canPush (x : Tile) (e : Eng) : Option Eng → Bool
  | none => true
  | some f => decide (x.token e f < 8)

/-- The push of a word of engine `e`. -/
def Tile.pushToken (x : Tile) (e : Eng) : Option Eng → Tile
  | none => x
  | some f => x.setToken e f (x.token e f + 1)

/-- A word of entry `seq` retires: its push, and one word fewer. -/
def Tile.retireWord (x : Tile) (e : Eng) (seq : BitVec 32) (push : Option Eng) : Tile :=
  (x.pushToken e push).modEng e fun g => g.wordDone seq

/-! ## The stop of a queue (R63, R334, R336) -/

/-- The information word of an engine fault (R334). -/
def engInfo (reason upc chain : Nat) : Word := BitVec.ofNat 64 (reason + upc * 2 ^ 8 + chain * 2 ^ 32)

/-- The queue of engine `e` stops for a fault, unless one has stopped it already. -/
def Tile.engFault (x : Tile) (e : Eng) (code : Byte) (info addr : Word) : Tile :=
  x.modEng e fun g => if g.fault.isSome then g else { g with fault := some ⟨code, info, addr, false⟩ }

/-- The fault of the word at work. -/
def Tile.wordFault (x : Tile) (e : Eng) (code : Byte) (reason : Nat) (addr : Word := 0) : Tile :=
  x.engFault e code (engInfo reason (x.eng e).upc 0) addr

/-- The state after the word at work of an engine has faulted: it has had no effect and popped nothing. -/
def State.engFault (s : State) (t : TileId) (e : Eng) (code : Byte) (reason : Nat) (addr : Word := 0) : State :=
  s.modTile t fun x => x.wordFault e code reason addr

/-! ## Fault codes (R327) -/

/-- ILLOP. -/
def cILLOP : Byte := 0x01
/-- INVREG. -/
def cINVREG : Byte := 0x02
/-- MISALIGN. -/
def cMISALIGN : Byte := 0x03
/-- XLATE. -/
def cXLATE : Byte := 0x04
/-- PROT. -/
def cPROT : Byte := 0x05
/-- ROLE. -/
def cROLE : Byte := 0x06
/-- READONCE. -/
def cREADONCE : Byte := 0x07
/-- STREAMEND. -/
def cSTREAMEND : Byte := 0x08
/-- ACCUNALLOC. -/
def cACCUNALLOC : Byte := 0x09
/-- ACCOWN. -/
def cACCOWN : Byte := 0x0A
/-- ACCBUSY. -/
def cACCBUSY : Byte := 0x0B
/-- SLOTBUSY. -/
def cSLOTBUSY : Byte := 0x0C
/-- SLOTSTATE. -/
def cSLOTSTATE : Byte := 0x0D
/-- LEASE. -/
def cLEASE : Byte := 0x0E
/-- DEADLINE. -/
def cDEADLINE : Byte := 0x0F
/-- COPYSIZE. -/
def cCOPYSIZE : Byte := 0x10
/-- SGBAD. -/
def cSGBAD : Byte := 0x11
/-- GRPBUSY. -/
def cGRPBUSY : Byte := 0x12
/-- GRPCOUNT. -/
def cGRPCOUNT : Byte := 0x13
/-- WSTORE. -/
def cWSTORE : Byte := 0x14
/-- EXTSPLIT. -/
def cEXTSPLIT : Byte := 0x15
/-- POOLFULL. -/
def cPOOLFULL : Byte := 0x16
/-- WINDOW. -/
def cWINDOW : Byte := 0x17
/-- SEALBAD. -/
def cSEALBAD : Byte := 0x18
/-- CHKDIV. -/
def cCHKDIV : Byte := 0x19
/-- SLOTCLAIM. -/
def cSLOTCLAIM : Byte := 0x1A
/-- MCSRAM. -/
def cMCSRAM : Byte := 0x20
/-- MCREPLAY. -/
def cMCREPLAY : Byte := 0x25
/-- MCRESID. -/
def cMCRESID : Byte := 0x21
/-- MCVRES. -/
def cMCVRES : Byte := 0x22
/-- MCPARITY. -/
def cMCPARITY : Byte := 0x23
/-- MCCHK. -/
def cMCCHK : Byte := 0x24
/-- MCHBMC. -/
def cMCHBMC : Byte := 0x26
/-- MCHBMR. -/
def cMCHBMR : Byte := 0x27
/-- MCHBMX. -/
def cMCHBMX : Byte := 0x28
/-- MCREMAP. -/
def cMCREMAP : Byte := 0x29
/-- MCT2. -/
def cMCT2 : Byte := 0x2A
/-- MCWS. -/
def cMCWS : Byte := 0x2B
/-- MCLINK. -/
def cMCLINK : Byte := 0x2C
/-- MCPKT. -/
def cMCPKT : Byte := 0x2D
/-- MCPAIR. -/
def cMCPAIR : Byte := 0x2E
/-- MCTEST. -/
def cMCTEST : Byte := 0x2F
/-- PFAIL. -/
def cPFAIL : Byte := 0x30
/-- PREEMPT. -/
def cPREEMPT : Byte := 0x31
/-- HOSTINT. -/
def cHOSTINT : Byte := 0x32

/-- R63, R146: do commands of L or S that have issued still start? After an ILLOP of its section they do; after any
other fault, or a stop, none does. -/
def Engine.startsMore (g : Engine) : Bool :=
  !g.stopped && (match g.fault with
    | some f => f.code == cILLOP
    | none => true)

end Sys2Proof.Machine
end

