-- ==== Sys2Proof/Machine/Crew.lean ====
section
/-! DEFINITION. The Eight of a crew: what an array command computes (R211, R219, R220), how it issues, lands and
retires (R214, R215), batches (R221), replay (R223), the lease (R208, R209), and the state of slots and banks at the
end of an iteration (R212, R213). -/

namespace Sys2Proof.Machine

open Sys2Proof

/-! ## Slots and banks -/

/-- A slot. -/
def Crew.slot (c : Crew) (n : Fin 32) : Slot := c.slots[n]
/-- Changes a slot. -/
def Crew.modSlot (c : Crew) (n : Fin 32) (f : Slot → Slot) : Crew := { c with slots := c.slots.set n (f c.slots[n]) }
/-- A bank. -/
def Crew.bank (c : Crew) (n : Fin 32) : Bank := c.banks[n]
/-- Changes a bank. -/
def Crew.modBank (c : Crew) (n : Fin 32) (f : Bank → Bank) : Crew := { c with banks := c.banks.set n (f c.banks[n]) }
/-- A cell of a bank (R213). (Log entry 2, DESIGN CHOICE.) -/
def Bank.cell (b : Bank) (row col : Nat) : Lane := b.cells.get (128 * row + col) 0
/-- Writes a cell. -/
def Bank.setCell (b : Bank) (row col : Nat) (v : Lane) : Bank := { b with cells := b.cells.put (128 * row + col) v 0 }
/-- Writes the cell of output row `m` and column `n` of a command that names bank `b` (R213). -/
def Crew.setCell (c : Crew) (b m n : Nat) (v : Lane) : Crew :=
  c.modBank (Fin.ofNat 32 (b + m / 32)) fun k => k.setCell (m % 32) n v

/-- Banks as a mask. -/
def bankMask (l : List Nat) : BitVec 32 := l.foldl (fun m b => m ||| BitVec.ofNat 32 (2 ^ b)) 0

/-- R213: the bank numbers a command touches: those with an enabled row; they may pass 31. -/
def touchedBanks (bank : Nat) (mrow : BitVec 128) : List Nat :=
  ((List.range 4).filter fun q => bitsOf mrow.toNat (32 * q) 32 ≠ 0).map fun q => bank + q

/-! ## What a command computes (R211, R219, R220) -/

/-- The code of element `x` of a row, its container being `c` bits. -/
def slotCode (d : Memory) (row x c : Nat) : Nat :=
  bitsOf (d.readNat (256 * row + x * c / 8) 8) (x * c % 8) c

/-- R219: `elem`. -/
def slotElem (d : Memory) (row x : Nat) (fmt : Lane) : Val :=
  let v := match fmtNf fmt with
    | some f => nfValue (slotCode d row x (fmtContainer fmt)) f
    | none => .zero
  if fmtKind fmt = 5 then
    let sh := sextNat 8 (d.get (256 * row + 248 + x / 2 ^ fmtBlk fmt)).toNat
    if sh = -128 then .zero else v.scale sh
  else v

/-- R219: `bsrc` of `MTCW`. -/
def slotWeight (d : Memory) (row x : Nat) (fmt : Lane) : Val :=
  let j := x / 64
  let p := fmtP fmt
  tcwWeight (tcWindow (tcOfFmt fmt) (d.readNat (256 * row + p * j) p) (x % 64))
    (sextNat 8 (d.get (256 * row + 248 + j)).toNat)

/-- The new value of one cell (R219). -/
def mulCell (zero transp tcw : Bool) (k aoff boff : Nat) (mrow mcol : BitVec 128) (fmta fmtb : Lane) (scale : Int)
    (a b : Memory) (m n : Nat) (old : Lane) : Lane :=
  let prod (i : Nat) : Val :=
    let av := if mrow.getLsbD m then slotElem a m (aoff + i) fmta else .zero
    let bv := if mcol.getLsbD n then
        (if tcw then slotWeight b n (boff + i) fmtb
         else if transp then slotElem b n (boff + i) fmtb
         else slotElem b (boff + i) n fmtb)
      else .zero
    (av.mul bv).scale scale
  let c := min (fmtChunk fmta) (fmtChunk fmtb)
  BitVec.ofNat 32 (eightUpdate (if zero then 0 else old.toNat) ((List.range k).map prod) c (ceilDiv k c))

/-- The enabled cells (R219). -/
def enabledCells (mrow mcol : BitVec 128) : List (Nat × Nat) :=
  ((List.range 128).filter fun m => mrow.getLsbD m).flatMap fun m =>
    ((List.range 128).filter fun n => mcol.getLsbD n).map fun n => (m, n)

/-- The cell writes of a command (R219, R220). -/
def ArrayWork.apply (c : Crew) : ArrayWork → Crew
  | .none => c
  | .mul zero transp tcw bank k aoff boff mrow mcol fmta fmtb scale a b =>
    (enabledCells mrow mcol).foldl (fun c mn =>
      let old := (c.bank (Fin.ofNat 32 (bank + mn.1 / 32))).cell (mn.1 % 32) mn.2
      c.setCell bank mn.1 mn.2 (mulCell zero transp tcw k aoff boff mrow mcol fmta fmtb scale a b mn.1 mn.2 old)) c
  | .zeroMasked bank mrow mcol =>
    (enabledCells mrow mcol).foldl (fun c mn => c.setCell bank mn.1 mn.2 0) c
  | .zeroBanks bank count =>
    (numbersFrom bank count).foldl (fun c b => c.modBank (Fin.ofNat 32 b) fun k => { k with cells := [] }) c

/-! ## Issue (R214, R221, R223) -/

/-- An M word about to issue. -/
structure MWord where
  tok : Tok
  occ : Nat := 1
  slots : List Nat := []
  touched : List Nat := []
  work : ArrayWork := .none
  /-- `MTILE` opens a replay window, and is not among its commands (R223). -/
  opens : Bool := false

/-- Does a command multiply? -/
def ArrayWork.multiplies : ArrayWork → Bool
  | .mul .. => true
  | _ => false

/-- The bank mask as a mask of R223's window meets `touched`. -/
def meets (a b : BitVec 32) : Bool := decide (a &&& b ≠ 0)

/-- R223: a window that another tile's command, or a drain, breaks. -/
def MState.breakWindow (m : MState) (banks : BitVec 32) : MState :=
  { m with window := m.window.map fun w => if meets w.banks banks then { w with whole := false } else w }

/-- R223: a command joins the window; past 256 it is no longer whole. -/
def MState.retain (m : MState) (w : ArrayWork) (occ : Nat) : MState :=
  { m with window := m.window.map fun r =>
      if r.words.length < 256 then { r with words := r.words ++ [(w, occ)] } else { r with whole := false } }

/-- R221: the open batch takes in a command that touches banks; a new one opens when none is. -/
def MState.touch (m : MState) (banks : BitVec 32) (lands : Nat) : MState :=
  match m.batches.getLast? with
  | some b =>
    if b.closed then
      { m with batches := m.batches ++ [⟨b.number + 1, false, banks, lands, 0, none⟩] }
    else { m with batches := m.batches.dropLast ++
      [{ b with touched := b.touched ||| banks, unlanded := b.unlanded + lands }] }
  | none => { m with batches := [⟨m.bclosed + 1, false, banks, lands, 0, none⟩] }

/-- Every other tile of the crew. -/
def crewMates (t : TileId) : List TileId :=
  ((List.range 4).map fun k => tileOf (crewOf t) (Fin.ofNat 4 k)).filter fun u => u ≠ t

/-- The command enters the array: banks BUSY, slots read, the command in flight, turn counted. -/
def Crew.accept (c : Crew) (t : TileId) (now : Nat) (seq batch : BitVec 32) (window place : Nat) (w : MWord)
    (replayed : Bool) : Crew :=
  let c := w.touched.foldl (fun c b => c.modBank (Fin.ofNat 32 b) fun k =>
    if k.st = .idle then { k with st := .busy } else k) c
  let c := w.slots.foldl (fun c n => c.modSlot (Fin.ofNat 32 n) fun k => { k with readers := k.readers + 1 }) c
  let lands := w.work ≠ .none
  let cmd : ArrayCmd :=
    { due := if lands then now + w.occ + 23 else now, tile := laneOf t, seq := seq, push := w.tok.push,
      readEnd := now + w.occ - 1, slots := w.slots, reading := !w.slots.isEmpty, touched := bankMask w.touched,
      landed := false, replayed := replayed, batch := batch, window := window, place := place, work := w.work,
      hollow := false }
  { c with cmds := c.cmds ++ [cmd], turnWords := c.turnWords + 1, busyUntil := now + w.occ,
           lastReadEnd := if w.work.multiplies then now + w.occ - 1 else c.lastReadEnd }

/-- The number of the batch that the next command belongs to. -/
def MState.openNumber (m : MState) : BitVec 32 := m.bclosed + 1

/-- R223: the commands of the window so far. -/
def MState.retained (m : MState) : Nat := match m.window with
  | some w => w.words.length
  | none => 0

/-- An M word issues (R214): token popped, command accepted, window and batch brought up to date. -/
def State.issueM (s : State) (t : TileId) (w : MWord) (f : MState → MState := id) : State :=
  let x := s.tile t
  let g := x.eng .m
  let banks := bankMask w.touched
  let s := (crewMates t).foldl (fun s u => s.modTile u fun y => { y with m := y.m.breakWindow banks }) s
  let s := s.modCrew (crewOf t) fun c =>
    c.accept t s.gtime g.curSeq x.m.openNumber (x.m.windows + if w.opens then 1 else 0) x.m.retained w false
  s.modTile t fun x =>
    let m := if w.opens then x.m else x.m.retain w.work w.occ
    let m := m.touch banks (if w.work = .none then 0 else 1)
    ((x.popToken .m w.tok.pop).modEng .m fun g => { g.issue with nextIssue := s.gtime + w.occ }) |> fun x =>
      { x with m := f m }

/-! ## The checks before issue (R210, R224) -/

/-- Does a command name only allocated banks? The first that is not (R213). -/
def Crew.unallocated (c : Crew) (banks : List Nat) : Option Nat :=
  banks.find? fun b => 32 ≤ b || (c.bank (Fin.ofNat 32 b)).st = .free || (c.bank (Fin.ofNat 32 b)).st = .kept

/-- The first slot of a command that is not READY (R212). -/
def Crew.unready (c : Crew) (slots : List Nat) : Option Nat := slots.find? fun n => (c.slot (Fin.ofNat 32 n)).st ≠ .ready

/-- Is a named bank in REPLAY (R213)? -/
def Crew.replaying (c : Crew) (banks : List Nat) : Bool :=
  banks.any fun b => (c.bank (Fin.ofNat 32 b)).st = .replay

/-- R210, R214, R223: may an M word issue: the lease HELD, no replay under way, and the array's read phase free? -/
def State.mOpen (s : State) (t : TileId) : Bool :=
  let m := (s.tile t).m
  m.lstate == .held && m.replay.isNone && decide ((s.crew (crewOf t)).busyUntil ≤ s.gtime)

/-- R210, R224: a word of the M stream: it waits for its lease and its token, then makes its checks, in order, and
issues; TADDR of a fault of the table is its slot or bank (R329). -/
def State.runM (s : State) (sgbad : Bool) (w : MWord) (f : MState → MState := id) : State :=
  let t := s.curTile
  let x := s.tile t
  let c := s.crew (crewOf t)
  if s.mOpen t = false ∨ x.canPop .m w.tok.pop = false then s
  else if sgbad then s.engFault t .m cSGBAD 0
  else
    match c.unready w.slots, c.unallocated w.touched with
    | some n, _ => s.engFault t .m cSLOTSTATE 0 (BitVec.ofNat 64 n)
    | none, some b => s.engFault t .m cACCUNALLOC 0 (BitVec.ofNat 64 b)
    | none, none => if c.replaying w.touched then s else s.issueM t w f

/-! ## Landing and retirement (R214, R215, R221) -/

/-- A write of batch `number` has landed. -/
def unlanded (m : MState) (number : BitVec 32) : MState :=
  { m with batches := m.batches.map fun b => if b.number = number then { b with unlanded := b.unlanded - 1 } else b }

/-- The batches of a tile that have not retired, with the open ones of its saved contexts (R225). -/
def Tile.openBatches (x : Tile) : List Batch := x.m.batches ++ x.contexts.flatMap fun c => c.m.batches

/-- The banks that an unretired batch of the crew, or a command that has not landed, touches. -/
def State.touchedBy (s : State) (c : CrewId) : BitVec 32 :=
  let ts := (List.range 4).map fun k => tileOf c (Fin.ofNat 4 k)
  let a := ts.foldl (fun m t => (s.tile t).openBatches.foldl (fun m b => m ||| b.touched) m) (0 : BitVec 32)
  (s.crew c).cmds.foldl (fun m k => if k.landed then m else m ||| k.touched) a

/-- R213, R340: what a bank that nothing touches is: IDLE with an owner, kept for one that is away, else FREE. -/
def Bank.resting (x : Bank) : BankState := if x.owners ≠ 0 then .idle else if x.away ≠ 0 then .kept else .free

/-- R213: a BUSY bank that nothing touches any more becomes IDLE, or FREE when no owner is left. -/
def State.settleBanks (s : State) (c : CrewId) : State :=
  let touched := s.touchedBy c
  s.modCrew c fun k => foldN 32 (fun k b =>
    k.modBank (Fin.ofNat 32 b) fun x =>
      if x.st = .busy ∧ touched.getLsbD b = false then { x with st := x.resting } else x) k

/-- R223: is a command one of the window that its tile retains? -/
def ArrayCmd.inWindow (k : ArrayCmd) (lane : Fin 4) (n : Nat) : Bool := k.tile == lane && !k.replayed && k.window == n

/-- R215, R223: do the writes of a command that a replay makes for it still have to land? -/
def State.awaitsReplay (s : State) (c : CrewId) (k : ArrayCmd) : Bool :=
  let m := (s.tile (tileOf c k.tile)).m
  k.hollow && k.inWindow k.tile m.windows && (match m.replay with
    | some rest => decide (m.retained - rest.length ≤ k.place) ||
        (s.crew c).cmds.any fun j => j.replayed && j.tile == k.tile && j.place == k.place
    | none => false)

/-- The first command that has come due, or has landed and finds room in its token FIFO. -/
def State.landing? (s : State) (c : CrewId) : Option ArrayCmd := (s.crew c).cmds.find? fun k =>
  if k.landed then k.replayed || (s.tile (tileOf c k.tile)).canPush .m k.push
  else decide (k.due ≤ s.gtime) && !s.awaitsReplay c k

/-- R215: a command whose writes have landed retires when its push finds room; until then it stays. -/
def State.retireM (s : State) (c : CrewId) (k : ArrayCmd) : State :=
  let t := tileOf c k.tile
  let gone := s.modCrew c fun y => { y with cmds := y.cmds.erase k }
  if k.replayed then gone.settleBanks c
  else if (s.tile t).canPush .m k.push then
    (gone.modTile t fun x => x.retireWord .m k.seq k.push).settleBanks c
  else s.modCrew c fun y =>
    { y with cmds := y.cmds.map fun j => if j = k then { j with landed := true, work := .none, hollow := false } else j }

/-- The lands of a command (R214). -/
def State.landM (s : State) (c : CrewId) (k : ArrayCmd) : State :=
  if k.landed then s.retireM c k
  else
    let s := s.modCrew c fun y => k.work.apply y
    let s := if k.work = .none ∧ k.hollow = false then s else s.modTile (tileOf c k.tile) fun x => { x with m := unlanded x.m k.batch }
    s.retireM c k

/-! ## Replay (R223) -/

/-- R223: a command of the window that has still to land writes nothing itself. -/
def ArrayCmd.emptied (k : ArrayCmd) (lane : Fin 4) (n : Nat) : ArrayCmd :=
  if k.inWindow lane n && decide (k.work ≠ .none) then { k with work := .none, hollow := true } else k

/-- R223: a whole window is replayed: its banks enter REPLAY with every cell +0, the window's commands that are in the
array write nothing more and retire as the replay lands their writes (R215), and the retained commands are to be issued
again. (Log entry 43, DEDUCED.) -/
def State.startReplay (s : State) (c : CrewId) (lane : Fin 4) (w : ReplayWindow) (code : Byte) :
    State :=
  let t := tileOf c lane
  let n := (s.tile t).m.windows
  let s := s.modCrew c fun y =>
    let y := { y with cmds := y.cmds.map fun k => k.emptied lane n }
    foldN 32 (fun y b => if w.banks.getLsbD b then
      y.modBank (Fin.ofNat 32 b) fun x => { x with st := .replay, cells := [] } else y) y
  s.modTile t fun x => { x with m := { x.m with replay := some w.words, replayCode := code } }

/-- R223: the next retained command issues again, inside the tile's lease turns. -/
def State.replayNext (s : State) (t : TileId) : State :=
  let x := s.tile t
  match x.m.replay with
  | some ((w, occ) :: rest) =>
    if x.m.lstate = .held ∧ (x.eng .m).nextIssue ≤ s.gtime ∧ (s.crew (crewOf t)).busyUntil ≤ s.gtime then
      let s := s.modCrew (crewOf t) fun c =>
        c.accept t s.gtime 0 0 x.m.windows (x.m.retained - (rest.length + 1)) { tok := ⟨none, none⟩, occ := occ, work := w } true
      s.modTile t fun x => ({ x with m := { x.m with replay := some rest } }).modEng .m fun g =>
        { g with nextIssue := s.gtime + occ }
    else s
  | _ => s

/-- R223: has the last retained command landed? -/
def State.replayOver (s : State) (t : TileId) : Bool :=
  (s.tile t).m.replay = some [] && !(s.crew (crewOf t)).cmds.any fun k => k.replayed && k.tile = laneOf t

/-- R223: the banks that a replay of the tile holds in REPLAY. -/
def MState.replayBanks (m : MState) : BitVec 32 :=
  match m.replay, m.window with
  | some _, some w => w.banks
  | _, _ => 0

/-- R223: the banks of the tile's replay leave REPLAY. -/
def State.endReplay (s : State) (t : TileId) : State :=
  let touched := s.touchedBy (crewOf t)
  let banks := (s.tile t).m.replayBanks
  let s := s.modCrew (crewOf t) fun c => foldN 32 (fun c b => c.modBank (Fin.ofNat 32 b) fun x =>
    if x.st = .replay ∧ banks.getLsbD b then { x with st := if touched.getLsbD b then .busy else x.resting } else x) c
  (s.modTile t fun x => { x with m := { x.m with replay := none } }).settleBanks (crewOf t)

/-! ## The lease (R208, R209) -/

/-- The first WAITING tile after lane `k`, the tile itself last. (Log entry 26, DEDUCED.) -/
def State.nextWaiting (s : State) (c : CrewId) (k : Fin 4) (self : Bool) : Option (Fin 4) :=
  ((if self then [1, 2, 3, 4] else [1, 2, 3]).map fun i => Fin.ofNat 4 (k.val + i)).find? fun j =>
    (s.tile (tileOf c j)).m.lstate = .waiting

/-- R209: does the holder's M queue hold an entry that is unretired and not fully issued? -/
def Tile.mPending (x : Tile) : Bool := (x.eng .m).queue.any fun n => n.st ≠ .issued

/-- R209: has the turn of this cycle come to its end? -/
def State.turnOver (s : State) (c : CrewId) : Bool :=
  let y := s.crew c
  match y.holder with
  | none => false
  | some k => decide (y.turnStart ≤ s.gtime) &&
      (decide (y.turnN ≤ y.turnWords) || decide (y.turnBudget ≤ s.gtime + 1 - y.turnStart) ||
        !(s.tile (tileOf c k)).mPending)

/-- A turn begins for lane `k` in cycle `at'`. -/
def State.beginTurn (s : State) (c : CrewId) (k : Fin 4) (at' : Nat) : State :=
  let m := (s.tile (tileOf c k)).m
  let s := s.modCrew c fun y =>
    { y with holder := some k, grant := none, turnWords := 0, turnStart := at', turnN := m.leaseN,
             turnBudget := m.leaseBudget }
  s.modTile (tileOf c k) fun x => { x with m := { x.m with lstate := .held } }

/-- R209: the turn ends. -/
def State.endTurn (s : State) (c : CrewId) : State :=
  match (s.crew c).holder with
  | none => s
  | some k =>
    match s.nextWaiting c k false with
    | none => s.beginTurn c k (s.gtime + 1)
    | some j =>
      let s := s.modTile (tileOf c k) fun x => { x with m := { x.m with lstate := .waiting } }
      s.modCrew c fun y => { y with holder := none, grant := some j, lastHolder := k }

/-- R208: the tile gives the lease up, or its request. -/
def State.dropLease (s : State) (t : TileId) : State :=
  let s := s.modTile t fun x => { x with m := { x.m with lstate := .none } }
  s.modCrew (crewOf t) fun y =>
    if y.holder = some (laneOf t) then { y with holder := none, lastHolder := laneOf t } else y

/-- R209: the tile that is to be granted in this cycle. (Log entry 26, DEDUCED.) -/
def State.grantee (s : State) (c : CrewId) : Option (Fin 4) :=
  let y := s.crew c
  if y.holder.isSome ∨ (y.lastReadEnd ≠ 0 ∧ s.gtime ≤ y.lastReadEnd) then none
  else
    match y.grant with
    | some j => if (s.tile (tileOf c j)).m.lstate = .waiting then some j else s.nextWaiting c y.lastHolder true
    | none => s.nextWaiting c y.lastHolder true

/-- R209: at the end of a cycle a crew whose lease nobody holds chooses the tile that is to be granted, among those that
are WAITING then. -/
def State.chooseNext (s : State) (c : CrewId) : State :=
  let y := s.crew c
  let stands : Bool := match y.grant with
    | some j => (s.tile (tileOf c j)).m.lstate == .waiting
    | none => false
  if y.holder.isSome ∨ stands then s else s.modCrew c fun y => { y with grant := s.nextWaiting c y.lastHolder true }

/-- R208: `MLEASE` takes effect. The crew is listed from then on, so that the grants of R209 look at it. -/
def State.lease (s : State) (t : TileId) (n tb : Nat) : State :=
  (s.modTile t fun x => { x with m := { x.m with
    leaseN := n, leaseBudget := tb, lstate := if x.m.lstate = .none then .waiting else x.m.lstate } }).modCrew (crewOf t) id

/-! ## The end of an iteration (R208, R212, R213, R332) -/

/-- R208: an open batch is closed as if by `MCOMMIT`. -/
def MState.closeOpen (m : MState) : MState :=
  { m with
    batches := m.batches.map fun b => { b with closed := true },
    bclosed := match m.batches.getLast? with
      | some b => b.number
      | none => m.bclosed }

/-- Are the waits of the end of an iteration over: M queue and batches, claimed slots, owned banks (R208, R212,
R213)? -/
def State.crewQuiet (s : State) (t : TileId) : Bool :=
  let c := s.crew (crewOf t)
  let k := laneOf t
  ((s.tile t).eng .m).queue.isEmpty && (s.tile t).m.batches.isEmpty && (s.tile t).m.replay.isNone &&
  ((List.range 32).all fun n =>
    let x := c.slot (Fin.ofNat 32 n)
    x.st = .free || x.st = .kept || x.claimer ≠ k || (x.started = 0 && x.readers = 0)) &&
  ((List.range 32).all fun n =>
    let x := c.bank (Fin.ofNat 32 n)
    x.st = .free || x.owners.getLsbD k.val = false || x.st = .idle)

/-- The lease, claims and owner bits of the tile are dropped. -/
def State.dropCrew (s : State) (t : TileId) : State :=
  let k := laneOf t
  let s := s.dropLease t
  let s := s.modCrew (crewOf t) fun c =>
    let c := foldN 32 (fun c n => c.modSlot (Fin.ofNat 32 n) fun x =>
      if x.st ≠ .free ∧ x.st ≠ .kept ∧ x.claimer = k then { x with st := .free, started := 0, fin := false } else x) c
    foldN 32 (fun c n => c.modBank (Fin.ofNat 32 n) fun x =>
      if x.st = .free then x
      else
        let o := x.owners &&& ~~~ (BitVec.ofNat 4 (2 ^ k.val))
        { x with owners := o, st := if x.st = .idle then ({ x with owners := o } : Bank).resting else x.st }) c
  s

/-- R332: the crew's side of an iteration that an event has ended: issued commands land, the cells of banks that an
unretired batch touched hold no defined value. -/
def State.abandonCrew (s : State) (t : TileId) : State :=
  let m := (s.tile t).m
  let touched := m.batches.foldl (fun b k => b ||| k.touched) (0 : BitVec 32)
  let base := s.fresh
  let s := s.tick 131072
  let s := s.modCrew (crewOf t) fun c =>
    let c := { c with cmds := c.cmds.map fun k => if k.tile = laneOf t then { k with replayed := true } else k }
    foldN 32 (fun c b => c.modBank (Fin.ofNat 32 b) fun x =>
      let x := if x.st = .replay ∧ m.replayBanks.getLsbD b then { x with st := .busy } else x
      if touched.getLsbD b then
        { x with cells := (List.range 4096).filterMap fun i =>
            let v := Config.freeCell (base + 4096 * b + i)
            if v = 0 then none else some (i, v) }
      else x) c
  let s := s.dropCrew t
  (s.modTile t fun x => { x with m := { MState.reset with lstate := .none } }).settleBanks (crewOf t)

/-! ## The words of R278 at the crew -/

/-- `ACALLOC` (R213): the bank must be FREE. -/
def Crew.acalloc (c : Crew) (k : Fin 4) (b : Fin 32) : Crew × Bool :=
  if (c.bank b).st = .free then
    (c.modBank b fun _ => ⟨.idle, BitVec.ofNat 4 (2 ^ k.val), [], 0⟩, true)
  else (c, false)

/-- `OSCLAIM` (R212): the slot must be FREE. -/
def Crew.osclaim (c : Crew) (k : Fin 4) (n : Fin 32) : Crew × Bool :=
  if (c.slot n).st = .free then
    (c.modSlot n fun x => { x with st := .claimed, claimer := k, started := 0, fin := false }, true)
  else (c, false)

/-- The fault of a bank word by R213's table. -/
def Crew.bankFault (c : Crew) (k : Fin 4) (b : Fin 32) : Option Byte :=
  if (c.bank b).st = .free then some cACCUNALLOC
  else if (c.bank b).owners.getLsbD k.val then none else some cACCOWN

/-- The fault of `OSREL` by R212's table: a FREE slot has no claimer. -/
def Crew.slotFault (c : Crew) (k : Fin 4) (n : Fin 32) : Option Byte :=
  if (c.slot n).st ≠ .free ∧ (c.slot n).st ≠ .kept ∧ (c.slot n).claimer = k then none else some cSLOTCLAIM

/-- May `OSREL` free the slot now (R212)? -/
def Slot.releasable (x : Slot) : Bool :=
  match x.st with
  | .free | .claimed | .kept => true
  | .filling => x.started == 0
  | .ready => x.readers == 0

end Sys2Proof.Machine
end

