-- ==== Sys2Proof/Machine/Mc.lean ====
section
/-! DEFINITION. Machine-check banks: their registers (R364, R365) and the record of an event (R366), with the
promotions of R363 and R366, the MSI-X vector and the die freeze (R355). -/

namespace Sys2Proof.Machine

open Sys2Proof

/-- A bank of a die. -/
def Die.bank (x : Die) (b : Nat) : McBank := x.banks.get b McBank.reset

/-- The least of a count and its top. -/
def sat16 (n : Nat) : Nat := min n 0xFFFF

/-- R366: the bank after the event. -/
def McBank.record (k : McBank) (e : McEvent) : McBank :=
  let k := { k with events := sat16 (k.events + 1), bucket := sat16 (k.bucket + 1) }
  let k := { k with lasting := k.lasting || (decide (k.thresh ≠ 0) && decide (k.thresh ≤ k.bucket)) }
  if k.val = false ∨ k.cls ≤ e.cls then
    { k with val := true, past := k.past || k.val, cls := e.cls, code := e.code, unit := e.unit,
             addrv := e.addr.isSome, miscv := e.detail.isSome,
             addr := match e.addr with
               | some a => a.2
               | none => 0,
             akind := match e.addr with
               | some a => a.1
               | none => 0,
             detail := e.detail.getD 0 }
  else { k with past := true }

/-- Has the bucket reached its threshold with this event (R366)? -/
def McBank.promotes (k : McBank) : Bool := decide (k.thresh ≠ 0) && decide (k.thresh ≤ sat16 (k.bucket + 1))

/-- R365, R389: the machine-check vector of a die. -/
def State.raiseVector (s : State) (v : Nat) : State :=
  s.modSys fun y => { y with msix := y.msix ||| BitVec.ofNat 2048 (2 ^ v) }

/-- R367: a test of a crew joins the die's queue. -/
def Die.requestTest (x : Die) (c : Nat) : Die := { x with test := { x.test with queue := x.test.queue ++ [c] } }

/-- A corrected event. -/
def corrected (code : Byte) (unit : Nat) (addr : Option (Nat × Word)) (detail : Option Nat) : McEvent :=
  ⟨1, code, unit, addr, detail⟩
/-- A contained event. -/
def contained (code : Byte) (unit : Nat) (addr : Option (Nat × Word)) (detail : Option Nat) : McEvent :=
  ⟨2, code, unit, addr, detail⟩

/-- R366, R363: `promote`: a crew bank asks for a self-test, a port bank retires its link, which is an event of the bank too. -/
def State.promote (s : State) (d : DieId) (b : Nat) : State :=
  if b < 32 then s.modDie d fun x => x.requestTest b
  else if 38 ≤ b ∧ b ≤ 45 then
    let p := 8 * d.val + (b - 38)
    if s.fab.linkRetired.contains p then s
    else
      (s.modFab fun f => { f with linkRetired := p :: f.linkRetired }).modDie d fun x =>
        { x with banks := x.banks.set b ((x.bank b).record (corrected cMCLINK 0 none none)) }
  else s

/-- R366, R365: an event updates its bank, promotes, and raises the vector as its class asks. (Log entry 17, DEDUCED.) -/
def State.applyMc (s : State) (d : DieId) (b : Nat) (e : McEvent) : State :=
  let k := (s.die d).bank b
  let s := s.modDie d fun x => { x with banks := x.banks.set b (k.record e) }
  let s := if k.promotes then s.promote d b else s
  if (e.cls = 1 ∧ k.cint) ∨ (e.cls = 2 ∧ k.xint) ∨ e.cls = 3 then s.raiseVector (2044 + d.val) else s

/-- R366: the events of a die's cycle, in increasing class. -/
def Die.ranked (x : Die) : List (Nat × McEvent) := [1, 2, 3].flatMap fun c => x.events.filter fun e => e.2.cls == c

/-- R366: at the end of a cycle its events update their banks. -/
def State.applyEvents (s : State) : State := (List.range 4).foldl (fun s k =>
  let d : DieId := Fin.ofNat 4 k
  let l := (s.die d).ranked
  if l.isEmpty then s
  else l.foldl (fun s e => s.applyMc d e.1 e.2) (s.modDie d fun x => { x with events := [] })) s

/-- R366, R355: an event is detected: its bank takes it at the end of the cycle; a fatal one freezes the die now.
(Log entry 17, DEDUCED.) -/
def State.recordMc (s : State) (d : DieId) (b : Nat) (e : McEvent) : State :=
  s.modDie d fun x => { x with events := x.events ++ [(b, e)], frozen := x.frozen || e.cls == 3 }

/-- R355: a contained event is charged to the iteration of a tile, which it ends; a tile without one takes nothing. -/
def State.chargeMc (s : State) (t : TileId) (code : Byte) : State :=
  if (s.tile t).live then s.modCox t fun c => { c with pend := { c.pend with mc := some code } } else s

/-- R355, R364: a contained event met by a tile in a unit of its crew: recorded in the crew's bank, and pending on its Cox,
whose iteration it ends; a tile without an iteration only has it recorded. -/
def State.containUnit (s : State) (t : TileId) (unit : Nat) (code : Byte) (addr : Option (Nat × Word)) : State :=
  (s.recordMc (dieOf t) ((crewOf t).val % 32) (contained code unit addr none)).chargeMc t code

/-- A contained event of the tile's own units (R364: UNIT is its lane). -/
def State.containTile (s : State) (t : TileId) (code : Byte) (addr : Option (Nat × Word)) : State :=
  s.containUnit t (laneOf t).val code addr

/-- A contained event of the Eight or its memories (R364: UNIT 4). -/
def State.containEight (s : State) (t : TileId) (code : Byte) (addr : Option (Nat × Word)) : State := s.containUnit t 4 code addr

/-- A corrected event met by a tile in a unit of its crew. -/
def State.correctUnit (s : State) (t : TileId) (unit : Nat) (code : Byte) (detail : Option Nat) : State :=
  s.recordMc (dieOf t) ((crewOf t).val % 32) (corrected code unit none detail)

/-- A corrected event of the tile's own units. -/
def State.correctTile (s : State) (t : TileId) (code : Byte) (detail : Option Nat) : State :=
  s.correctUnit t (laneOf t).val code detail

/-! ## Granules that carry wrong bits (R353, R355, R356) -/

/-- R364, R365: the die, the bank, the UNIT and the address of an event in a granule. -/
def Site.place : Site → DieId × Nat × Nat × Option (Nat × Word)
  | .sp t g => (dieOf t, (crewOf t).val % 32, (laneOf t).val, some (3, BitVec.ofNat 64 (t.val * 2 ^ 20 + 8 * g)))
  | .imem t _ | .store t .. | .queue t _ | .lead t _ => (dieOf t, (crewOf t).val % 32, (laneOf t).val, none)
  | .tlb 0 u _ => (Fin.ofNat 4 (u / 128), 46, 0, none)
  | .tlb 1 u _ => (Fin.ofNat 4 (u / 32), 46, 0, none)
  | .tlb _ u _ => (Fin.ofNat 4 u, 46, 0, none)
  | .pitch d _ => (d, 35, 0, none)
  | .flit d _ => (d, 35, 0, none)
  | .mem 2 g => (Fin.ofNat 4 (g / 67108864), 34, bitsOf (32 * g) 12 4, some (2, BitVec.ofNat 64 (32 * g)))
  | .mem 1 g =>
    let h := (homeFor 1 (64 * g)).val
    (Fin.ofNat 4 (h / 2), 32 + h % 2, 3, some (2, BitVec.ofNat 64 (64 * g)))
  | .mem _ g =>
    let p := hbmPlace (32 * g)
    (Fin.ofNat 4 (p.1 / 3), 32 + p.2.1 % 2, p.1 % 3, some (7, BitVec.ofNat 64 (p.1 * 2 ^ 40 + p.2.1 * 2 ^ 32 + p.2.2 / 8)))
  | .parity st ch u => (Fin.ofNat 4 (st / 3), 32 + ch % 2, st % 3, some (7, BitVec.ofNat 64 (st * 2 ^ 40 + ch * 2 ^ 32 + u / 8)))

/-- R353: the bytes of a granule; 0 of one that is only replaced whole. -/
def Site.bytes : Site → Nat
  | .sp .. | .imem .. | .store .. => 8
  | .mem 1 _ => 64
  | .mem .. => 32
  | _ => 0

/-- An event in a granule. -/
def State.recordSite (s : State) (k : Site) (cls : Nat) (code : Byte) (detail : Option Nat) : State :=
  let p := k.place
  s.recordMc p.1 p.2.1 ⟨cls, code, p.2.2.1, p.2.2.2, detail⟩

/-- The flaws that `p` holds of are gone. -/
def DevMem.dropFlaws (d : DevMem) (p : Site → Bool) : DevMem :=
  if d.flaws.isEmpty then d else { d with flaws := d.flaws.filter fun f => !p f.site }

/-- R353: a granule goes bad: one that was bad already is beyond correction. -/
def DevMem.spoil (d : DevMem) (k : Site) (bit : Option Nat) : DevMem :=
  let again := d.flaws.any fun f => f.site == k
  { d with flaws := ⟨k, if again then none else bit, List.range k.bytes⟩ :: d.flaws.filter fun f => f.site != k }

/-- R355: what is left of a flaw once bytes at places `l` of the memory that `k` names have been overwritten. -/
def Flaw.over (f : Flaw) (k : Nat → Site) (l : List Nat) : Option Flaw :=
  let n := f.site.bytes
  let left := f.left.filter fun i => !l.any fun a => f.site == k (a / n) && a % n == i
  if left.isEmpty then none else some { f with left := left }

/-- R355: bytes have been overwritten. -/
def DevMem.wrote (d : DevMem) (k : Nat → Site) (l : List Nat) : DevMem :=
  if d.flaws.isEmpty then d else { d with flaws := d.flaws.filterMap fun f => if f.site.bytes = 0 then some f else f.over k l }

/-- The same for the scratchpad of a tile, by bytes with their masks: only whole bytes count. -/
def State.wroteSp (s : State) (t : TileId) (bs : List (Nat × Byte × Byte)) : State :=
  s.modDev fun d => d.wrote (.sp t) ((bs.filter fun b => b.2.2 == 0xFF).map Prod.fst)

/-- The granules of eight bytes that `n` bytes from an address on lie in. -/
def granules (a n : Nat) : List Nat := numbersFrom (a / 8) ((a + n + 7) / 8 - a / 8)

/-- Those of a scratchpad. -/
def spSites (t : TileId) (a n : Nat) : List Site := (granules a n).map (.sp t)

/-- R356: granules are read: where one bit is wrong it is corrected, written back and recorded; with the first granule that is
beyond correction. -/
def State.checkSites (s : State) (l : List Site) : State × Option Site :=
  if s.dev.flaws.isEmpty then (s, none)
  else
    let hit := s.dev.flaws.filter fun f => l.contains f.site
    let one := hit.filter fun f => f.bit.isSome
    (one.foldl (fun s f => s.recordSite f.site 1 cMCSRAM f.bit) (s.modDev fun d => d.dropFlaws fun k => one.any fun f => f.site == k),
      (hit.find? fun f => f.bit.isNone).map Flaw.site)

/-- R355, R356: what a tile reads of granules is consumed: does it get good data? Else the event is contained, and charged to
the tile. -/
def State.goodRead (s : State) (t : TileId) (l : List Site) : State × Bool :=
  match s.checkSites l with
  | (s, none) => (s, true)
  | (s, some k) => ((s.recordSite k 2 cMCSRAM none).chargeMc t cMCSRAM, false)

/-- R365: MCST as read. -/
def McBank.mcst (k : McBank) : Word :=
  BitVec.ofNat 64 ((if k.val then 2 ^ 63 else 0) + (if k.past then 2 ^ 62 else 0) + k.cls * 2 ^ 60 +
    (if k.lasting then 2 ^ 59 else 0) + (if k.addrv then 2 ^ 58 else 0) + (if k.miscv then 2 ^ 57 else 0) +
    k.code.toNat * 2 ^ 40 + k.unit * 2 ^ 36 + k.events * 2 ^ 16)

/-- R365: MCMISC as read. -/
def McBank.mcmisc (k : McBank) : Word :=
  BitVec.ofNat 64 (k.akind * 2 ^ 60 + k.detail * 2 ^ 32 + k.bucket * 2 ^ 16)

/-- R365: MCCTL as read. -/
def McBank.mcctl (k : McBank) : Word :=
  BitVec.ofNat 64 (k.thresh * 2 ^ 32 + k.leak * 2 ^ 16 + (if k.xint then 2 else 0) + (if k.cint then 1 else 0))

end Sys2Proof.Machine
end

