-- ==== Sys2Proof/Machine/Ops.lean ====
section
/-! DEFINITION. The named operations over a tile: registers of the Cox (R251, R252), its program counter (R61, R272),
regions and their restart (R257 to R259), the response FIFO (R255), requests (R261), taking an exception and returning
from one (R330 to R333), and the end of an iteration (R332). -/

namespace Sys2Proof.Machine

open Sys2Proof

/-! ## Registers (R51, R251, R252) -/

/-- Reads `x`. -/
def Cox.readX (c : Cox) (r : Fin 64) : Word := if r = 0 then 0 else c.x[r]
/-- Is `x` valid? -/
def Cox.xValid (c : Cox) (r : Fin 64) : Bool := r == 0 || c.xv.getLsbD r.val
/-- Reads `p`. -/
def Cox.readP (c : Cox) (r : Fin 16) : Bool := r == 0 || c.p.getLsbD r.val
/-- Is `p` valid? -/
def Cox.pValid (c : Cox) (r : Fin 16) : Bool := r == 0 || c.pv.getLsbD r.val

/-- Sets one bit. -/
def setBit {w : Nat} (v : BitVec w) (i : Nat) (b : Bool) : BitVec w :=
  if b then v ||| BitVec.ofNat w (2 ^ i) else v &&& ~~~(BitVec.ofNat w (2 ^ i))

/-- Writes `x`: the register becomes valid; a write to `x0` is discarded. -/
def Cox.writeX (c : Cox) (r : Fin 64) (v : Word) : Cox :=
  if r = 0 then c else { c with x := c.x.set r v, xv := setBit c.xv r.val true }

/-- Writes `p`. -/
def Cox.writeP (c : Cox) (r : Fin 16) (b : Bool) : Cox :=
  if r = 0 then c else { c with p := setBit c.p r.val b, pv := setBit c.pv r.val true }

/-- A write of `x` by an earlier region lands in the checkpoint too (R259). -/
def Checkpoint.writeX (k : Checkpoint) (r : Fin 64) (v : Word) : Checkpoint :=
  if r = 0 then k else { k with x := k.x.set r v, xv := setBit k.xv r.val true }

/-- The same for `p`. -/
def Checkpoint.writeP (k : Checkpoint) (r : Fin 16) (b : Bool) : Checkpoint :=
  if r = 0 then k else { k with p := setBit k.p r.val b, pv := setBit k.pv r.val true }

/-- R268, `pmov pall`: `p1` to `p15`, `p0` staying as it is; one that becomes invalid keeps its bit, which nothing reads. -/
def Cox.writePall (c : Cox) (v valid : BitVec 16) : Cox :=
  { c with p := (v &&& valid) ||| (c.p &&& ~~~valid) ||| 1, pv := valid ||| 1 }

/-- The registers as a checkpoint (R259). -/
def Cox.snapshot (c : Cox) : Checkpoint := ⟨c.x, c.xv, c.p, c.pv⟩

/-! ## The program counter (R61, R272) -/

/-- Does the word at PC stand in a delay slot of a taken branch? -/
def Cox.inSlot (c : Cox) : Bool := c.branch.isSome

/-- PC after a word has issued. -/
def Cox.nextPc (c : Cox) : Cox :=
  match c.branch with
  | none => { c with pc := c.pc + 12 }
  | some (target, left) =>
    if left ≤ 1 then { c with pc := target, branch := none } else { c with pc := c.pc + 12, branch := some (target, left - 1) }

/-- A word has issued in cycle `now`: one word a cycle (R254). -/
def Cox.issued (c : Cox) (now : Nat) : Cox := { c.nextPc with nextIssue := now + 1 }

/-- A taken branch: its two delay slots follow (R272). -/
def Cox.take (c : Cox) (target : Word) : Cox := { c with branch := some (target, 2) }

/-- May PC be fetched (R61)? -/
def pcLegal (pc : Word) : Bool := decide (pc.toNat % 12 = 0) && decide (pc.toNat < 65532)

/-! ## The scratchpad as a word reads it (R163) -/

/-- The scratchpad as a read of the issue cycle finds it: stores of the Cox that land in it have landed (R163). -/
def Tile.spNow (x : Tile) (now : Nat) : Memory :=
  x.cox.flight.foldl (fun m l => match l.w with
    | .store a bs => if l.due ≤ now then m.write a bs else m
    | _ => m) x.sp

/-! ## The response FIFO (R255, R257) -/

/-- The places that no pop has marked. -/
def Cox.unmarked (c : Cox) : List RfSlot := c.rf.filter fun e => !e.marked

/-- Marks the first `n` unmarked places. -/
def markN : Nat → List RfSlot → List RfSlot
  | 0, l => l
  | _, [] => []
  | n + 1, e :: l => if e.marked then e :: markN (n + 1) l else { e with marked := true } :: markN n l

/-- Pops `n` elements. -/
def Cox.pop (c : Cox) (n : Nat) : Cox := { c with rf := markN n c.rf }

/-- May a long-latency word issue (R255)? -/
def Cox.rfRoom (c : Cox) : Bool := decide (c.rf.length < 16)

/-- A long-latency word places its request. -/
def Cox.placeSlot (c : Cox) (repeatable : Bool) : Cox :=
  { c with rf := c.rf ++ [⟨c.nextReq, c.region, repeatable, none, false⟩] }

/-- An element reaches its place, if that place still stands (R257). -/
def Cox.deliver (c : Cox) (id : Nat) (v : Word) : Cox :=
  { c with rf := c.rf.map fun e => if e.id = id ∧ e.data = none then { e with data := some v } else e }

/-- May the element of request `id` enter now: is every place before it filled (R255)? -/
def Cox.nextSlot (c : Cox) : Option Nat :=
  match c.rf.find? fun e => e.data.isNone with
  | some e => some e.id
  | none => none

/-- R281, STATUS.RFCNT. -/
def Cox.rfCount (c : Cox) : Nat := (c.rf.filter fun e => e.data.isSome).length

/-! ## Regions (R257 to R259) -/

/-- A head: the checkpoint is recorded, marked elements have left (R257, R259). -/
def Cox.newHead (c : Cox) (pc : Word) : Cox :=
  { c with region := c.region + 1, head := pc, checkpoint := c.snapshot, rf := c.rf.filter fun e => !e.marked,
           mismatches := 0 }

/-- A region-closing word retires (R258); in a handler no checkpoint is recorded (R331). -/
def Cox.closeRegion (c : Cox) : Cox :=
  let c := { c with closing := false, regcnt := c.regcnt + 1 }
  if c.tm then { c with rf := c.rf.filter fun e => !e.marked } else c.newHead c.pc

/-- Does a restart discard this result (R259)? A store has no result to discard (log entry 8, DEDUCED). -/
def CoxWrite.discarded : CoxWrite → Bool
  | .store .. => false
  | _ => true

/-- R259, R257: the region restarts; a closing word whose wait is given up leaves no place in the FIFO.
(Log entry 8, DEDUCED.) -/
def Cox.restart (c : Cox) : Cox :=
  { c with
    x := c.checkpoint.x, xv := c.checkpoint.xv, p := c.checkpoint.p, pv := c.checkpoint.pv,
    flight := c.flight.filter fun l => !(l.region = c.region && l.w.discarded),
    rf := (c.rf.filter fun e => !(e.region = c.region && (e.repeatable || e.data.isNone))).map fun e => { e with marked := false },
    pc := c.head, tregion := c.head &&& 0xFFFF, branch := none, closing := false, halted := false, dbgHalted := false }

/-- R261: is a result compared with the checker's copy: a store to the tile's own scratchpad, or a CSR write? Each lands in
the cycle after its issue. -/
def CoxWrite.compared : CoxWrite → Bool
  | .store .. | .atomic .. | .csr .. => true
  | _ => false

/-- A result joins those in flight. -/
def Cox.send (c : Cox) (due : Nat) (w : CoxWrite) : Cox :=
  { c with
    flight := c.flight ++ [⟨due, c.region, w⟩],
    checks := if w.compared then c.checks ++ [due + Config.checkerLag - 1] else c.checks }

/-- The word at PC raises a precise fault: it has no effect, and the trap is taken in the next cycle (R330). -/
def Cox.raise (c : Cox) (code : Byte) (info addr : Word) : Cox := { c with fault := some (⟨code, 0, info, addr⟩, c.pc) }

/-- The same for a tile. -/
def State.coxFault (s : State) (t : TileId) (code : Byte) (info addr : Word) : State :=
  s.modCox t fun c => c.raise code info addr

/-! ## Requests (R261) -/

/-- A word issued now asks for something outside the tile: the request leaves at the end of cycle `now + 6`. -/
def Tile.request (x : Tile) (now : Nat) (slot closing : Bool) (pc : Word) (act : ReqAct) : Tile :=
  { x with
    reqs := x.reqs ++ [⟨x.cox.nextReq, slot, now + Config.checkerLag, x.cox.region, pc, closing, act⟩],
    cox := { x.cox with nextReq := x.cox.nextReq + 1 } }

/-- Is the request that of the closing word in progress? -/
def Cox.closingIs (c : Cox) (r : Req) : Bool := c.closing && r.closing && r.id + 1 == c.nextReq

/-- R372: does the closing word in progress still wait to act: for its release, its drain or its resource, at the tile
or, a `LAUNCHW`, at the pool? At the end of the handler time its wait is abandoned. (Log entry 31, DEDUCED.) -/
def State.closingWaits (s : State) (t : TileId) : Bool :=
  let x := s.tile t
  x.reqs.any (fun r => x.cox.closingIs r && decide (r.depart < s.gtime)) ||
    s.dies.any fun d => d.2.poolReqs.any fun q =>
      match q.from' with
      | some (u, r) => u == t && x.cox.closingIs r
      | none => false

/-! ## The end of an iteration (R325, R332, R373) -/

/-- The launch of a tile's gang. -/
def State.launchOf (s : State) (t : TileId) : Option Launch :=
  match (s.tile t).place with
  | some p => s.launch? p.launch
  | none => none

/-- R325: a launch fails: its first cause stands, and LAUNCH_FAIL has to act on it (Machine/Sched.lean). -/
def State.failLaunch (s : State) (id : BitVec 32) (code : Byte) (tile : Nat) : State :=
  s.modLaunch id fun l => { l with failure := some (l.failure.getD (code, tile)), failed := false }

/-- The point that a gang's member runs is done. -/
def Gang.doneAt (g : Gang) (m : Nat) : Gang := { g with running := g.running.set m none }

/-- R316: is a gang to be released: the walk has passed its group, or the launch places nothing more (R325), and no
point of it is left? -/
def Gang.past (stopped : Bool) (g : Gang) : Bool :=
  (g.passed || stopped) && (stopped || g.lists.all List.isEmpty) && g.running.all Option.isNone && !g.preempted

/-- R316: the gangs of a launch that are over are released, and their tiles are free. -/
def State.releaseGangs (s : State) (id : BitVec 32) : State :=
  match s.launch? id with
  | none => s
  | some l =>
    let out := l.gangs.filter (Gang.past l.stopped)
    let s := s.modLaunch id fun l => { l with gangs := l.gangs.filter fun g => !g.past l.stopped }
    out.foldl (fun s g => g.tiles.foldl (fun s t => s.modTile t fun x =>
      { x with place := none, image := if g.loading then none else x.image }) s) s

/-- R316: the tile's point is done. -/
def State.pointDone (s : State) (t : TileId) : State :=
  match (s.tile t).place with
  | none => s
  | some p =>
    (s.modLaunch p.launch fun l =>
      { l with gangs := l.gangs.map fun g => if g.tiles = p.tiles then g.doneAt p.member else g }).releaseGangs p.launch

/-- Changes every flit of the package. -/
def State.mapFlits (s : State) (f : Flit → Flit) : State := { s with dies := s.dies.map fun x => (x.1, { x.2 with
  slots := x.2.slots.map fun e => (e.1, f e.2),
  stations := x.2.stations.map fun e => (e.1, e.2.map f),
  ingress := x.2.ingress.map fun e => (e.1, e.2.map f) }) }

/-- Does a flit carry what the processor of group `g` asks for, or an answer to it? -/
def Flit.ofCp (f : Flit) (g : Nat) : Bool := match f.msg with
  | .cpAsk k _ | .cpData k _ _ | .cpWord k _ | .cpAck k | .cpNack k _ => k == g
  | _ => false

/-- R235: what still travels for the program of a freed entry says nothing to a later one. -/
def State.voidCp (s : State) (g : Nat) : State := s.mapFlits fun f => if f.ofCp g then { f with msg := .void } else f

/-- R238, R332: the groups that the tile owns are freed, their statuses discarded. -/
def State.dropGroups (s : State) (t : TileId) : State :=
  let s := (s.fab.groups.filter fun e => e.2.owner = t ∧ e.2.st ≠ .free).foldl (fun s e => s.voidCp e.1) s
  s.modFab fun f => { f with groups := f.groups.map fun (g, e) =>
    if e.owner = t ∧ e.st ≠ .free then
      (g, { e with st := .free, last := some e.gen, prog := none, inbox := [], status := 0 })
    else (g, e) }

/-- R332: the tile's engines stop with nothing saved: issued V words and started Portage commands still land. -/
def Tile.abandonEngines (x : Tile) : Tile :=
  { x with
    v := { x.v with flight := (x.v.flight.filter fun l => !l.landed).map fun l => { l with push := none } },
    engines := Vector.ofFn fun i => { Engine.reset with store := x.engines[i].store, dir := x.engines[i].dir },
    portage := { x.portage with buffer := x.portage.buffer.filter fun c => c.stage = .started ∨ c.stage = .retiring } }

/-- A Cox without an iteration: nothing waits, is pending or is declared; registers stand until the next allocation
(R251, R282, R317). -/
def Cox.rest (c : Cox) : Cox :=
  { c with branch := none, rf := [], closing := false, halted := false, fault := none, pend := Pending.reset,
           mismatches := 0, checks := [], stopped := false, dbgHalted := false, mustSave := Vector.replicate 16 none }

/-- R332: the Cox is abandoned: nothing of it goes on but its issued local stores. -/
def Cox.abandon (c : Cox) : Cox := { c.rest with flight := c.flight.filter fun l => !l.w.discarded }

/-- R323: the Cox after `DONE`: its issued words land. -/
def Cox.ended (c : Cox) : Cox :=
  { c.rest with flight := c.flight.filter fun l => match l.w with
    | .declare .. => false
    | _ => true }

/-- R318: the requests of a tile that its earlier iterations issued, whose `DONE` words cover them. -/
def Tile.covered (x : Tile) : List Req := x.reqs.filter fun r => decide (r.id < x.since)

/-- R147, R332: have L and S nothing left to finish? -/
def Tile.streamsOver (x : Tile) : Bool :=
  (x.eng .l).queue.all (fun n => n.st == .waiting) && (x.eng .s).queue.all (fun n => n.st == .waiting) &&
    x.portage.buffer.isEmpty

/-- R332, step 1: the engines of a tile whose iteration ends stop as at a pre-emption: V and M issue no further word, L and
S finish the entries that have begun, and the Cox is abandoned. -/
def Tile.ends (x : Tile) (code : Byte) : Tile :=
  { x with
    engines := Vector.ofFn fun i =>
      let g := x.engines[i]
      if i = Eng.ix .l ∨ i = Eng.ix .s then { g with queue := g.queue.filter fun n => n.st ≠ .waiting }
      else { Engine.reset with store := g.store, dir := g.dir },
    cox := { x.cox.abandon with stopped := true }, ending := some code, reqs := x.covered, replies := [] }

/-- R332, steps 2 to 4: the iteration of a tile is over. -/
def State.endNow (s : State) (t : TileId) (code : Byte) : State :=
    let s := s.abandonCrew t
    let s := s.dropGroups t
    let s := match (s.tile t).place with
      | some p => s.failLaunch p.launch code t.val
      | none => s
    let s := s.pointDone t
    s.modTile t fun x =>
      { x.abandonEngines with cox := x.cox.abandon, iter := none, ending := none, reqs := x.covered, replies := [] }

/-- R332: the iteration of a tile ends with a code, at once when L and S have nothing to finish; during a hold-up the Cox
only stops (R373). -/
def State.endIteration (s : State) (t : TileId) (code : Byte) : State :=
  if s.holding then s.modCox t fun c => { c with stopped := true, fault := none }
  else if (s.tile t).streamsOver then s.endNow t code
  else s.modTile t fun x => x.ends code

/-! ## Taking an exception (R330, R331) -/

/-- TCAUSE after an entry: ACT 0 (R329, R333). -/
def causeOf (nest : Bool) (src : Nat) (code : Byte) : Word :=
  BitVec.ofNat 64 ((if nest then 2048 else 0) + src * 256 + code.toNat)

/-- The Cox at the handler's first word, four cycles on. -/
def Cox.toHandler (c : Cox) (now : Nat) : Cox :=
  { c with tm := true, pc := c.tvec &&& 0xFFFF, branch := none, nextIssue := now + 4, halted := false,
           dbgHalted := false, fault := none }

/-- R330: the trap registers after an entry outside a handler. -/
def Cox.enter (c : Cox) (now : Nat) (e : Trap) (tpc : Word) : Cox :=
  let c := c.restart
  { c with tcause := causeOf false e.src e.code, tpc := tpc &&& 0xFFFF, tregion := c.head &&& 0xFFFF,
           taddr := e.addr, tinfo := e.info } |>.toHandler now

/-- R331: PFAIL taken in a handler: NEST is set, TREGION unchanged. -/
def Cox.enterNested (c : Cox) (now : Nat) (e : Trap) (tpc : Word) : Cox :=
  { c with tcause := causeOf true e.src e.code, tpc := tpc &&& 0xFFFF, taddr := 0, tinfo := 0, closing := false }
    |>.toHandler now

/-- TVEC.EN (R329). -/
def Cox.trapsOn (c : Cox) : Bool := c.tvec.getLsbD 16

/-- R372: the request of a closing word whose wait is abandoned goes, with its place in the FIFO.
(Log entry 31, DEDUCED.) -/
def State.dropClosing (s : State) (t : TileId) : State :=
  s.modTile t fun x =>
    { x with
      reqs := x.reqs.filter fun r => !x.cox.closingIs r,
      cox := { x.cox with rf := x.cox.rf.filter fun k => !(x.reqs.any fun r => x.cox.closingIs r && r.slot && r.id == k.id) } }

/-- R330, R331: TAKING AN EXCEPTION. With TVEC.EN = 0 the iteration ends (a Cox only stops at PFAIL, R372); in a
handler only PFAIL enters again, and anything else ends the iteration; otherwise the region restarts, the trap
registers are written, TM is set, and the handler's first word issues four cycles later at TVEC.PC. -/
def State.takeTrap (s : State) (t : TileId) (e : Trap) (tpc : Word) : State :=
  let c := s.cox t
  if c.trapsOn = false then s.endIteration t e.code
  else if c.tm then
    if e.code = cPFAIL then s.modCox t fun c => c.enterNested s.gtime e tpc
    else s.endIteration t e.code
  else
    let s := s.modTile t fun x =>
      { x with reqs := x.reqs.filter fun r => !(r.slot && r.region == x.cox.region) }
    s.modCox t fun c => c.enter s.gtime e tpc

/-! ## Returning (R283, R333) -/

/-- R336: the queue resumes from its stopped point; after an engine DEADLINE the entry that it stopped has its budget
again (R333). -/
def Engine.resume (g : Engine) : Engine :=
  let late := g.fault.map EngFault.code == some cDEADLINE
  { g with
    fault := none, stopped := false,
    queue := if late then modFirst (fun n => n.st ≠ .waiting ∧ n.budget = 0) (fun n => { n with budget := n.budget0 }) g.queue
      else g.queue }

/-- R146: the entries of L or S that had begun, as they are expanded again: `gone` are the commands that had issued and
neither retired nor completed. The first entry runs, later ones come to the head again. -/
def restartEntries (gone : List PCmd) : Bool → List Entry → List Entry
  | _, [] => []
  | first, n :: ns =>
    let mine := gone.filter fun c => c.seq = n.seq
    if n.st = .running ∨ mine ≠ [] then
      { n with
        st := if first then .running else .waiting, pendingWords := n.pendingWords - mine.length,
        again := mine.map (fun c => (c.index, c.resume)) ++ n.again } :: restartEntries gone false ns
    else n :: restartEntries gone first ns

/-- R146: a stream of Portage is expanded again: its commands that have neither retired nor completed leave the time
buffer, and the words of its entries issue again from index 0. -/
def Tile.reexpand (x : Tile) (e : Eng) : Tile :=
  let gone := x.portage.buffer.filter fun c => c.stream = e ∧ (c.stage = .stopped ∨ c.stage = .buffered)
  { x with portage := { x.portage with buffer := x.portage.buffer.filter fun c =>
      !(c.stream == e && (c.stage == PStage.stopped || c.stage == PStage.buffered)) } }.modEng e fun g =>
    { g with queue := restartEntries gone true g.queue, index := 0, branch := none }

/-- R333, R146: the queue of engine `e` resumes. -/
def Tile.resumeQueue (x : Tile) (e : Eng) : Tile :=
  let x := x.modEng e Engine.resume
  match e with
  | .l | .s => x.reexpand e
  | _ => x

/-- The engine that a source number names. -/
def engOfSrc : Nat → Option Eng
  | 1 => some .l
  | 2 => some .v
  | 3 => some .m
  | 4 => some .s
  | _ => none

/-- TCAUSE.SRC. -/
def Cox.causeSrc (c : Cox) : Nat := bitsOf c.tcause.toNat 8 3

/-- R333 with ACT = 0: TM falls, the Cox resumes at TREGION, which becomes the head of a new region. -/
def Cox.ret (c : Cox) (now : Nat) : Cox :=
  let c := { c with tm := false, pc := c.tregion, branch := none, nextIssue := now + 1 }
  c.newHead c.tregion

/-- R333: RETURN FROM AN EXCEPTION by an `RFT` that issues now, with TM = 1. -/
def State.returnTrap (s : State) (t : TileId) : State :=
  let c := s.cox t
  if c.tcause.getLsbD 12 then s.endIteration t (c.tcause.setWidth 8)
  else
    let s := s.modCox t fun c => c.ret s.gtime
    match engOfSrc c.causeSrc with
    | some e => s.modCox t fun c => c.send s.gtime (.resume e)
    | none => s

/-- R340: an element that a saved context waits for is kept with it. -/
def SavedCtx.takeReply (c : SavedCtx) (id : Nat) (v : Word) : SavedCtx :=
  if c.cox.rf.any fun e => e.id = id then { c with replies := c.replies ++ [(id, v)] } else c

/-- R255: an element reaches the tile, for its Cox or for a saved context; one that no place waits for is discarded
(R257, R259). -/
def Tile.takeReply (x : Tile) (id : Nat) (v : Word) : Tile :=
  { x with
    replies := (x.replies ++ [(id, v)]).filter fun r => x.cox.rf.any fun e => e.id = r.1,
    contexts := x.contexts.map fun c => c.takeReply id v }

/-! ## Landing (R252, R259) -/

/-- A result lands in its register, and in the checkpoint when its region has closed. -/
def Cox.landX (c : Cox) (region : Nat) (r : Fin 64) (v : Word) : Cox :=
  let d := c.writeX r v
  if region = c.region then d else { d with checkpoint := d.checkpoint.writeX r v }

/-- The same for a predicate. -/
def Cox.landP (c : Cox) (region : Nat) (r : Fin 16) (b : Bool) : Cox :=
  let d := c.writeP r b
  if region = c.region then d else { d with checkpoint := d.checkpoint.writeP r b }

/-- The same for `pmov pall`. -/
def Cox.landPall (c : Cox) (region : Nat) (v valid : BitVec 16) : Cox :=
  let d := c.writePall v valid
  if region = c.region then d
  else { d with checkpoint := { d.checkpoint with p := d.p, pv := d.pv } }

/-- A closing word that its answer lets retire. -/
def State.retireClosing (s : State) (t : TileId) : State := s.modCox t fun c =>
  if c.closing then { c.closeRegion with nextIssue := max c.nextIssue (s.gtime + 1) } else c

/-- R320: the registers of a launch word are written at the end of the cycle in which it retires. (Log entry 28, DEDUCED.) -/
def State.launchAnswer (s : State) (t : TileId) (pd : Option (Fin 16)) (xd : Fin 64) (ok : Bool) (v : Word) : State :=
  s.modCox t fun c =>
    let c := match pd with
      | some p => c.send s.gtime (.p p ok)
      | none => c
    (c.send s.gtime (.x xd v)).send s.gtime .retire

/-- R84: a load by address that the home refuses, as a recast has flipped its extent since it issued: a precise fault of its
word, when its element is still waited for. (Log entry 13, DEDUCED.) -/
def State.refuseLoad (s : State) (t : TileId) (r : Req) (e : Trap) : State := s.modCox t fun c =>
  if c.fault.isNone ∧ c.rf.any (fun k => k.id = r.id ∧ k.data.isNone) then
    { c with fault := some (e, r.pc), rf := c.rf.filter fun k => k.id ≠ r.id }
  else c

/-- A closing word that its home refuses: a precise fault, with no effect left (R258). -/
def State.refuseClosing (s : State) (t : TileId) (r : Req) (e : Trap) : State := s.modCox t fun c =>
  { c with fault := some (e, r.pc), closing := false, rf := c.rf.filter fun k => k.id ≠ r.id }

end Sys2Proof.Machine
end

