-- ==== Sys2Proof/Machine/DevMem.lean ====
section
/-! DEFINITION. Device memory: page tables, TLBs and translation (R95 to R98), physical stores with encryption (R89,
R92, R94, R99), extents and segments (R66 to R73), and Signal words (R286, R287, R290). -/

namespace Sys2Proof.Machine

open Sys2Proof

/-! ## Page tables (R95, R96; the root table is frame 0, log entry 10, DESIGN CHOICE) -/

/-- EXTID of a PTE. -/
def pteExt (p : Word) : Nat := bitsOf p.toNat 48 16
/-- KEY. -/
def pteKey (p : Word) : Nat := bitsOf p.toNat 38 10
/-- PFN. -/
def ptePfn (p : Word) : Nat := bitsOf p.toNat 8 30
/-- TIER. -/
def pteTier (p : Word) : Nat := bitsOf p.toNat 6 2
/-- PS. -/
def ptePs (p : Word) : Nat := bitsOf p.toNat 4 2
/-- Is V set, with none of R, W, X? -/
def pteTable (p : Word) : Bool := p.getLsbD 0 && bitsOf p.toNat 1 3 == 0
/-- Is V set, with one of R, W, X? -/
def pteLeaf (p : Word) : Bool := p.getLsbD 0 && bitsOf p.toNat 1 3 != 0

/-- The bytes of a page by PS. -/
def pageBytes : Nat → Nat
  | 0 => 4096
  | 1 => 65536
  | 2 => 2097152
  | _ => 1073741824

/-- May a leaf with this PS stand at this level (R96)? -/
def leafAt (level ps : Nat) : Bool :=
  match level with
  | 1 => ps == 0 || ps == 1
  | 2 => ps == 2
  | 3 => ps == 3
  | _ => false

/-- A page as a walk finds it: its PTE, virtual base, size, and the physical address of its base. -/
structure Page where
  pte : Word
  base : Nat
  size : Nat
  phys : Nat
deriving DecidableEq, Repr

/-- R96: the 16 leaves of a 64 KiB page that begins at entry `i`: consecutive PFNs and equal other fields? -/
def leavesAgree (ptes : Map Word) (frame i : Nat) : Bool :=
  (List.range 16).all fun k => ptes.get (512 * frame + i + k) 0 = ptes.get (512 * frame + i) 0 + BitVec.ofNat 64 (256 * k)

/-- R96: the leaf that a 64 KiB page is translated with: any of the 16 when they differ. -/
def leaf64 (ptes : Map Word) (frame i choice : Nat) : Nat :=
  if leavesAgree ptes frame (i / 16 * 16) then i % 16 else choice % 16

/-- R95, R96: the walk from a table down. `choice` picks among unequal leaves of a 64 KiB page.
(Log entry 10, DESIGN CHOICE.) -/
def walkFrom (ptes : Map Word) (va choice : Nat) : Nat → Nat → Option Page
  | 0, _ => none
  | level + 1, frame =>
    let i := bitsOf va (12 + 9 * level) 9
    let p := ptes.get (512 * frame + i) 0
    if pteTable p then
      if ptePs p = 0 ∧ pteTier p ≠ 3 ∧ bitsOf p.toNat 38 26 = 0 ∧ level ≠ 0 then walkFrom ptes va choice level (ptePfn p) else none
    else if pteLeaf p ∧ pteTier p ≠ 3 ∧ leafAt (level + 1) (ptePs p) then
      if ptePs p = 1 then
        let k := leaf64 ptes frame i choice
        let q := ptes.get (512 * frame + i / 16 * 16 + k) 0
        if pteLeaf q ∧ pteTier q ≠ 3 ∧ ptePs q = 1 then
          some ⟨q, va / 65536 * 65536, 65536, 4096 * ptePfn q - 4096 * k⟩
        else none
      else
        let n := pageBytes (ptePs p)
        some ⟨p, va / n * n, n, 4096 * ptePfn p⟩
    else none

/-- A number chosen by free values. -/
def freeIndex (n : Nat) : Nat := (List.range 4).foldl (fun a i => 2 * a + if Config.freeBool (n + i) then 1 else 0) 0

/-- The walk of a 48-bit virtual address. (Log entry 10, DESIGN CHOICE.) (Log entry 46, DEDUCED.) -/
def State.walk (s : State) (va : Nat) : Option Page :=
  if va < 2 ^ 48 then walkFrom s.dev.ptes va (freeIndex s.fresh) 4 0 else none

/-- The physical address of `va` in a page. -/
def Page.at' (p : Page) (va : Nat) : Nat := p.phys + (va - p.base)

/-! ## TLBs (R98) -/

/-- Does an entry translate an address in a context? -/
def TlbEntry.covers (e : TlbEntry) (ctx va : Nat) : Bool := e.ctx == ctx && decide (e.base ≤ va) && decide (va < e.base + e.size)
/-- An entry of the running context that covers an address. -/
def tlbFind (l : List TlbEntry) (ctx va : Nat) : Option TlbEntry := l.find? fun e => e.covers ctx va
/-- A TLB takes an entry, its oldest leaving when it is full. -/
def tlbFill (n : Nat) (l : List TlbEntry) (e : TlbEntry) : List TlbEntry := (e :: l.filter fun x => x ≠ e).take n
/-- The entries of an extent of a context leave. -/
def tlbDrop (ctx ext : Nat) (l : List TlbEntry) : List TlbEntry := l.filter fun e => e.ctx ≠ ctx ∨ pteExt e.pte ≠ ext

/-- R98: the cached entry of an address, from the tile's TLB, its crew's, or its die's. -/
def State.cached (s : State) (t : TileId) (va : Nat) : Option TlbEntry :=
  match tlbFind (s.tile t).tlb s.sys.context va with
  | some e => some e
  | none =>
    match tlbFind (s.crew (crewOf t)).tlb s.sys.context va with
    | some e => some e
    | none => tlbFind (s.die (dieOf t)).tlb s.sys.context va

/-- Fills the three levels. -/
def State.fillTlb (s : State) (t : TileId) (e : TlbEntry) : State :=
  let s := s.modTile t fun x => { x with tlb := tlbFill 64 x.tlb e }
  let s := s.modCrew (crewOf t) fun x => { x with tlb := tlbFill 512 x.tlb e }
  s.modDie (dieOf t) fun x => { x with tlb := tlbFill 16384 x.tlb e }

/-- The entry of a page: its PTE with the PFN of its base. -/
def Page.entry (p : Page) (ctx : Nat) : TlbEntry :=
  ⟨ctx, p.base, p.size, (p.pte &&& ~~~(BitVec.ofNat 64 (2 ^ 38 - 2 ^ 8))) ||| BitVec.ofNat 64 (p.phys / 4096 % 2 ^ 30 * 2 ^ 8)⟩

/-- The page of a cached entry. -/
def TlbEntry.page (e : TlbEntry) : Page := ⟨e.pte, e.base, e.size, 4096 * ptePfn e.pte⟩

/-- R98: the page that an access of a tile is translated with. Where a cached entry differs from the tables, the
device may use either. (Log entry 47, DESIGN CHOICE.) -/
def State.pageFor (s : State) (t : TileId) (va : Nat) : Option Page :=
  let w := s.walk va
  match s.cached t va with
  | none => w
  | some e => if w.map (fun p => p.entry s.sys.context) = some e then w else if Config.freeBool (s.fresh + 4) then some e.page else w

/-- R356: the entries that a translation meets: a bad one has been discarded and is fetched again; a corrected event. -/
def State.checkTlb (s : State) (t : TileId) (va : Nat) : State :=
  let meets (k : Site) : Bool := match k with
    | .tlb 0 u e => u == t.val && e.covers s.sys.context va
    | .tlb 1 u e => u == (crewOf t).val && e.covers s.sys.context va
    | .tlb _ u e => u == (dieOf t).val && e.covers s.sys.context va
    | _ => false
  let hit := s.dev.flaws.filter fun f => meets f.site
  hit.foldl (fun s f => s.recordSite f.site 1 cMCSRAM f.bit) (s.modDev fun d => d.dropFlaws meets)

/-- The state after a translation: TLBs filled, the free values used up. -/
def State.touchTlb (s : State) (t : TileId) (va : Nat) : State :=
  let s := s.checkTlb t va
  match s.pageFor t va with
  | some p => (s.fillTlb t (p.entry s.sys.context)).tick 5
  | none => s.tick 5

/-- Is a granule an entry of a TLB that `p` holds of? -/
def Site.inTlb (p : TlbEntry → Bool) : Site → Bool
  | .tlb _ _ e => p e
  | _ => false

/-- R98: the entries of an extent leave every TLB. -/
def State.dropTlb (s : State) (ext : Nat) : State :=
  { s with
    dev := s.dev.dropFlaws (Site.inTlb fun e => e.ctx == s.sys.context && pteExt e.pte == ext),
    tiles := s.tiles.map fun (k, x) => (k, { x with tlb := tlbDrop s.sys.context ext x.tlb }),
    crews := s.crews.map fun (k, x) => (k, { x with tlb := tlbDrop s.sys.context ext x.tlb }),
    dies := s.dies.map fun (k, x) => (k, { x with tlb := tlbDrop s.sys.context ext x.tlb }) }

/-- R393: every TLB is flushed. -/
def State.flushTlbs (s : State) : State :=
  { s with
    dev := s.dev.dropFlaws (Site.inTlb fun _ => true),
    tiles := s.tiles.map fun (k, x) => (k, { x with tlb := [] }),
    crews := s.crews.map fun (k, x) => (k, { x with tlb := [] }),
    dies := s.dies.map fun (k, x) => (k, { x with tlb := [] }) }

/-- R98: the scheduler changes the running context: its extents, epochs and tables are put away, those of context `n`
come, and every TLB is flushed. (Log entry 47, DESIGN CHOICE.) -/
def State.changeContext (s : State) (n : Nat) : State :=
  if n = s.sys.context then s
  else
    let j := s.dev.jobs.get n ⟨[], [], []⟩
    let old : Job := ⟨s.dev.extents, s.dev.epochs, s.dev.ptes⟩
    ({ s with sys := { s.sys with context := n } }.modDev fun d =>
      { d with jobs := (d.jobs.set s.sys.context old).erase n, extents := j.extents, epochs := j.epochs, ptes := j.ptes }).flushTlbs

/-- What an access needs of its page. -/
inductive Need where
  | read | write | exec
deriving DecidableEq, Repr

/-- The permission bit of a need (R95). -/
def Need.bit : Need → Nat
  | .read => 1
  | .write => 2
  | .exec => 3

/-- R97: XLATE, then PROT for the permission, the key slot, and the extent id that the word named. -/
def State.translate (s : State) (t : TileId) (va : Nat) (need : Need) (ext : Option Nat) : Except Byte Page :=
  match s.pageFor t va with
  | none => .error cXLATE
  | some p =>
    if p.pte.getLsbD need.bit = false then .error cPROT
    else if (s.sys.keys.find? (pteKey p.pte)).isNone then .error cPROT
    else
      match ext with
      | some e => if pteExt p.pte = e then .ok p else .error cPROT
      | none => .ok p

/-! ## Physical stores (R89, R92, R94, R99) -/

/-- The store of a tier. -/
def DevMem.store (d : DevMem) : Nat → Memory
  | 0 => d.hbm
  | 1 => d.tier2
  | _ => d.ws

/-- Replaces the store of a tier. -/
def DevMem.setStore (d : DevMem) (tier : Nat) (m : Memory) : DevMem :=
  match tier with
  | 0 => { d with hbm := m }
  | 1 => { d with tier2 := m }
  | _ => { d with ws := m }

/-- The 64-byte unit of a physical address, over both encrypted tiers. -/
def unitOf (tier phys : Nat) : Nat := tier * 2 ^ 36 + phys / 64

/-- R99: the key that a unit was written or zero-filled under. -/
def DevMem.keyAt (d : DevMem) (u : Nat) : Option (BitVec 512) :=
  match d.unitKey.find? u with
  | some k => some k
  | none => (d.fills.find? fun f => f.1 ≤ u ∧ u < f.1 + f.2.1).map fun f => f.2.2

/-- R99: a unit as a key reads it: as it was written when the key is the same, else the bytes that decrypting under
the new key gives. -/
def DevMem.unit (d : DevMem) (tier phys : Nat) (key : BitVec 512) : List Byte :=
  let bytes := (d.store tier).read (phys / 64 * 64) 64
  match d.keyAt (unitOf tier phys) with
  | none => bytes
  | some k => if tier = 2 ∨ k = key then bytes else rekey k key (phys / 64) bytes

/-- One byte as a key reads it. -/
def DevMem.byte (d : DevMem) (tier phys : Nat) (key : BitVec 512) : Byte := (d.unit tier phys key).getD (phys % 64) 0

/-- The key that a key slot holds. -/
def State.keyOf (s : State) (slot : Nat) : BitVec 512 := s.sys.keys.get slot 0

/-- R361: a write to a unit of a moving row: one whose copy has ended is marked. -/
def RowMove.wrote (m : RowMove) (stack ch unit : Nat) : RowMove :=
  if m.stack = stack ∧ m.ch = ch ∧ m.row = unit / 8 ∧ (!m.firstPass ∨ unit % 8 < m.unit) ∧ !m.marks.contains (unit % 8) then
    { m with marks := unit % 8 :: m.marks }
  else m

/-- R361: a write of HBM meets the row moves of its home. -/
def DevMem.markRow (d : DevMem) (phys : Nat) : DevMem :=
  match d.homes.find? (hbmHome phys).val with
  | none => d
  | some h =>
    let p := hbmPlace phys
    if h.moves.isEmpty then d
    else { d with homes := d.homes.set (hbmHome phys).val { h with moves := h.moves.map fun m => m.wrote p.1 p.2.1 p.2.2 } }

/-- Writes one byte: its unit is then under the key, and a wrong bit in it is gone (R355). -/
def DevMem.putByte (d : DevMem) (tier phys : Nat) (key : BitVec 512) (b : Byte) : DevMem :=
  let d := d.wrote (.mem tier) [phys]
  if tier = 2 then d.setStore 2 (d.ws.put phys b)
  else
    let unit := phys / 64 * 64
    let m := match d.keyAt (unitOf tier phys) with
      | some k => if k = key then d.store tier else (d.store tier).write unit (d.unit tier phys key)
      | none => d.store tier
    let d := { d.setStore tier (m.put phys b) with unitKey := d.unitKey.set (unitOf tier phys) key }
    if tier = 0 then d.markRow phys else d

/-- The home of a Signal word (R23, R286). -/
def signalHome (w : BitVec 17) : HomeId := homeOf (w.toNat / 32768) (w.toNat % 2)

/-! ## Bytes by virtual address -/

/-- R369: is the tile's iteration a half of a PAIR launch? -/
def State.inPair (s : State) (t : TileId) : Bool :=
  match (s.tile t).place with
  | some p => p.pair
  | none => false

/-- R369: the half of a PAIR launch that a tile runs. -/
def State.half? (s : State) (t : TileId) : Option Half :=
  match (s.tile t).place with
  | some p =>
    if p.pair then
      match s.launch? p.launch with
      | some l => l.halves.map fun h => if (dieOf t).val = 0 then h.1 else h.2
      | none => none
    else none
  | none => none

/-- Changes the tile's half. -/
def State.modHalf (s : State) (t : TileId) (f : Half → Half) : State :=
  match (s.tile t).place with
  | some p =>
    if p.pair then
      s.modLaunch p.launch fun l => { l with halves := l.halves.map fun h =>
        if (dieOf t).val = 0 then (f h.1, h.2) else (h.1, f h.2) }
    else s
  | none => s

/-- One byte as the tile reads it: a half of a PAIR launch sees its shadow (R369); 0 where nothing is mapped. -/
def State.vbyte (s : State) (t : TileId) (va : Nat) : Byte :=
  match (s.half? t).bind fun h => h.bytes.find? va with
  | some b => b
  | none =>
    match s.pageFor t va with
    | some p => s.dev.byte (pteTier p.pte) (p.at' va) (s.keyOf (pteKey p.pte))
    | none => 0

/-- `n` bytes. -/
def State.vread (s : State) (t : TileId) (va n : Nat) : List Byte := (numbersFrom va n).map (s.vbyte t)

/-- R369: the pages that the halves of every PAIR launch hold of the shadow pool. -/
def State.shadowPages (s : State) : Nat := s.launches.foldl (fun n l =>
  match l.halves with
  | some h => n + h.1.pages.length + h.2.pages.length
  | none => n) 0

/-- R369: has the shadow pool, of GiB in SHADOWPOOL[7:0], a page left? -/
def State.shadowRoom (s : State) : Bool := decide (s.shadowPages < bitsOf s.sys.shadowPool.toNat 0 8 * 2 ^ 18)

/-- R369: a half takes the shadow of a page: its bytes as they stand. -/
def State.shadowPage (s : State) (t : TileId) (page : Nat) : State :=
  s.modHalf t fun h => { h with
    bytes := (numbersFrom (4096 * page) 4096).foldl (fun m a => m.set a (s.vbyte t a)) h.bytes, pages := page :: h.pages }

/-- Writes one byte of a mapped page; a half writes its shadow, taken whole at its first write of the page, or has none when
the pool has run out (R369). -/
def State.vput (s : State) (t : TileId) (va : Nat) (b : Byte) : State :=
  match s.half? t with
  | some h =>
    if h.pages.contains (va / 4096) then s.modHalf t fun h => { h with bytes := h.bytes.set va b }
    else if s.shadowRoom then (s.shadowPage t (va / 4096)).modHalf t fun h => { h with bytes := h.bytes.set va b }
    else s.modHalf t fun h => { h with starved := true }
  | none =>
    match s.pageFor t va with
    | some p => s.modDev fun d => d.putByte (pteTier p.pte) (p.at' va) (s.keyOf (pteKey p.pte)) b
    | none => s

/-- Writes bytes. -/
def State.vwrite (s : State) (t : TileId) (va : Nat) : List Byte → State
  | [] => s
  | b :: bs => (s.vput t va b).vwrite t (va + 1) bs

/-- R369: an append adds the CRC of each granule it writes to the signature of the tile's half. -/
def State.signAppend (s : State) (t : TileId) (writes : List (Nat × Byte)) : State :=
  let sum := ((writes.map fun w => w.1 / 32).eraseDups).foldl (fun (acc : Word) g =>
    let data := (List.range 32).map fun i =>
      match writes.find? fun w => w.1 = 32 * g + i with
      | some w => w.2
      | none => 0
    acc + crc64 (toBytes 8 (32 * g) ++ data)) 0
  s.modHalf t fun h => { h with sig := h.sig + sum }

/-! ## Extents (R66, R67, R107, R108) -/

/-- The byte size of an extent's elements. -/
def Extent.bytes (e : Extent) : Nat := (fmtAreas e.fmt e.count).2.2

/-- The bits of one element in memory. -/
def Extent.bits (e : Extent) : Nat := fmtContainer e.fmt

/-- The elements that a byte of the extent belongs to, from its offset: in a block format a shift belongs to its
block (R108). Bytes past the last element, up to the end of the extent's last page, are taken to belong to the last
element. (Log entry 51, DESIGN CHOICE.) -/
def Extent.elemsAt (e : Extent) (off : Nat) : Nat × Nat :=
  let (el, sc, _) := fmtAreas e.fmt e.count
  let last := e.count - 1
  if fmtIsBlock e.fmt then
    let n := fmtBlockLen e.fmt
    let k := if off < el then off / fmtP e.fmt else off - sc
    (min last (k * n), min last (k * n + n - 1))
  else
    (min last (off * 8 / e.bits), min last ((off * 8 + 7) / e.bits))

/-- The segment that holds an element, with its number. -/
def Extent.segOf (e : Extent) (i : Nat) : Option (Nat × Segment) :=
  (e.segs.zipIdx.find? fun x => x.1.start ≤ i ∧ i < x.1.stop).map fun x => (x.2, x.1)

/-- Changes a segment. -/
def Extent.modSeg (e : Extent) (k : Nat) (f : Segment → Segment) : Extent :=
  { e with segs := e.segs.zipIdx.map fun (x, i) => if i = k then f x else x }

/-- Is the extent in CONVERT (R68)? -/
def Extent.converting (e : Extent) : Bool :=
  match e.coll with
  | some c => c.convert
  | none => false

/-- Is a collective open? -/
def Extent.collOpen (e : Extent) : Bool := e.coll.isSome

/-- R84: must an access of this tile wait: CONVERT, or TRANSIT after the tile has arrived? -/
def State.extentWaits (s : State) (t : TileId) (id : Nat) (e : Extent) : Bool :=
  e.converting || (e.collOpen && (s.tile t).arrived.contains id)

/-- R87, field 18: the state of a segment. -/
def Extent.stateField (e : Extent) (g : Segment) : Nat :=
  (match g.st with
    | .i => 0
    | .sOpen => 1
    | .sClosed => 5
    | .a => 2) + (if e.collOpen && !e.converting then 8 else 0) + (if e.converting then 16 else 0)

/-- R77: the formats that `LDS` and `STS` reach. -/
def coxFormat (fmt : Lane) : Bool :=
  match fmtKind fmt with
  | 0 | 1 | 2 | 3 | 6 => true
  | 4 => fmtContainer fmt == 8
  | _ => false

/-- The virtual address of element `i` (R107, R108); an element of a trellis-coded block is at its block. -/
def Extent.addr (e : Extent) (i : Nat) : Nat :=
  if fmtIsBlock e.fmt then
    e.base + i / fmtBlockLen e.fmt * fmtP e.fmt + (if fmtKind e.fmt = 5 then i % fmtBlockLen e.fmt * e.bits / 8 else 0)
  else e.base + i * e.bits / 8

/-- Bits of the element `i` of a non-block format. -/
def State.readElem (s : State) (t : TileId) (e : Extent) (i : Nat) : Nat :=
  let bit := i * e.bits
  bitsOf (ofBytes (s.vread t (e.base + bit / 8) 9)) (bit % 8) e.bits

/-- Writes the element `i` of a non-block format. -/
def State.writeElem (s : State) (t : TileId) (e : Extent) (i code : Nat) : State :=
  let bit := i * e.bits
  if e.bits < 8 then
    let a := e.base + bit / 8
    s.vput t a (mergeBits (s.vbyte t a) (BitVec.ofNat 8 (code <<< (bit % 8)))
      (BitVec.ofNat 8 ((2 ^ e.bits - 1) <<< (bit % 8))))
  else s.vwrite t (e.base + bit / 8) (toBytes (e.bits / 8) code)

/-- The shift of block `k` (R108). -/
def State.readShift (s : State) (t : TileId) (e : Extent) (k : Nat) : Int :=
  sextNat 8 (s.vbyte t (e.base + (fmtAreas e.fmt e.count).2.1 + k)).toNat

/-- Writes it. -/
def State.writeShift (s : State) (t : TileId) (e : Extent) (k : Nat) (sh : Int) : State :=
  s.vput t (e.base + (fmtAreas e.fmt e.count).2.1 + k) (BitVec.ofInt 8 sh)

/-! ## Role checks (R68 to R70) -/

/-- The kinds of access of R68's table. -/
inductive Access where
  | addr | cursor | append | add
deriving DecidableEq, Repr

/-- R69: the faults READONCE, ROLE and STREAMEND that an access to element `i` of a segment takes, with its reason. -/
def Segment.fault (g : Segment) (t : TileId) (a : Access) (i : Nat) : Option (Byte × Nat) :=
  match g.st, a with
  | .i, .addr => none
  | .i, _ => some (cROLE, 1)
  | .sOpen, .addr | .sClosed, .addr => if i < g.rcur then some (cREADONCE, 0) else some (cROLE, 1)
  | .sOpen, .cursor =>
    if g.reader.isSome ∧ g.reader ≠ some t then some (cROLE, 2) else none
  | .sClosed, .cursor =>
    if g.reader.isSome ∧ g.reader ≠ some t then some (cROLE, 2)
    else if g.rcur = g.wcur then some (cSTREAMEND, 0) else none
  | .sOpen, .append =>
    if g.writer.isSome ∧ g.writer ≠ some t then some (cROLE, 2)
    else if g.wcur = g.stop then some (cSTREAMEND, 0) else none
  | .sClosed, .append =>
    if g.writer.isSome ∧ g.writer ≠ some t then some (cROLE, 2) else some (cSTREAMEND, 0)
  | .sOpen, .add | .sClosed, .add => some (cROLE, 1)
  | .a, .add => none
  | .a, _ => some (cROLE, 1)

/-- Must a cursor read wait for an element (R68)? -/
def Segment.empty (g : Segment) : Bool := g.st == .sOpen && g.rcur == g.wcur

/-- The segment as the tile sees it: a half of a PAIR launch sees its shadow (R369). -/
def State.seg? (s : State) (t : TileId) (id k : Nat) : Option Segment :=
  match (s.half? t).bind fun h => (h.segs.find? fun x => x.1 = (id, k)).map Prod.snd with
  | some g => some g
  | none => (s.extent? id).bind fun e => e.segs[k]?

/-- Changes a segment's cursors or state: in the tile's shadow under PAIR. -/
def State.modSegment (s : State) (t : TileId) (id k : Nat) (f : Segment → Segment) : State :=
  if (s.half? t).isSome then
    match s.seg? t id k with
    | some g => s.modHalf t fun h => { h with segs := ((id, k), f g) :: h.segs.filter fun x => x.1 ≠ (id, k) }
    | none => s
  else
    match s.extent? id with
    | some e => s.setExtent id (e.modSeg k f)
    | none => s

/-- R69: a stream receives a cursor read or, with `write`, an append: the tile is bound to it, unless one is. -/
def State.bind (s : State) (t : TileId) (id k : Nat) (write : Bool) : State :=
  match s.seg? t id k with
  | none => s
  | some g =>
    if g.st ≠ .sOpen ∧ g.st ≠ .sClosed then s
    else if write then (if g.writer.isSome then s else s.modSegment t id k fun g => { g with writer := some t })
    else if g.reader.isSome then s else s.modSegment t id k fun g => { g with reader := some t }

/-! ## Cells (R73) -/

/-- R73: `to_cell`, with whether it sets INV. -/
def toCell (abp : Int) (v : Val) : Int × Bool :=
  match v with
  | .nan => (0, true)
  | .inf neg => (if neg then -(2 ^ 71) else 2 ^ 71 - 1, false)
  | .fin neg m e =>
    let k := e - abp
    let mag : Nat :=
      if 0 ≤ k then m <<< k.toNat
      else
        let d := 2 ^ (-k).toNat
        let q := m / d
        let r := m % d
        if 2 * r < d then q else if d < 2 * r then q + 1 else if q % 2 = 0 then q else q + 1
    (if neg then -(mag : Int) else mag, false)

/-- The operand of `ADDA` (R79). -/
def addOperand (abp : Int) (ty : AddTy) (v : Word) : Int × Bool :=
  match ty with
  | .i64 => (v.toInt, false)
  | .f32 => toCell abp (nfValue (v.toNat % 2 ^ 32) .f32)
  | .bf16 => toCell abp (nfValue (v.toNat % 2 ^ 16) .bf16)
  | .f16 => toCell abp (nfValue (v.toNat % 2 ^ 16) .f16)

/-- R73: `add_cell`, the flags going to the segment of the element. -/
def Extent.addCell (e : Extent) (i : Nat) (x : Int × Bool) : Extent :=
  let t := e.cells.get i 0 + x.1
  let (v, ovf) := if t > 2 ^ 71 - 1 then ((2 ^ 71 - 1 : Int), true) else if t < -(2 ^ 71) then (-(2 ^ 71 : Int), true) else (t, false)
  let e := { e with cells := e.cells.put i v 0 }
  match e.segOf i with
  | some (k, _) => e.modSeg k fun g => { g with ovf := g.ovf || ovf, inv := g.inv || x.2 }
  | none => e

/-! ## Signal words (R286, R287, R290, R356) -/

/-- A Signal word. -/
def DevMem.signal (d : DevMem) (w : BitVec 17) : Word := d.signals.get w.toNat 0
/-- Writes a Signal word. -/
def DevMem.setSignal (d : DevMem) (w : BitVec 17) (v : Word) : DevMem := { d with signals := d.signals.put w.toNat v 0 }

/-- The new value of a word, none for a read (R290). -/
def sigApply (a : SigAct) (old : Word) : Option Word :=
  match a with
  | .read => none
  | .write v => some v
  | .atom op signed b => some (atomNew op signed old b)
  | .cas b c => some (if old = c then b else old)

/-- Does an operation clear the mark of a poisoned word (R356)? -/
def sigHeals : SigAct → Bool
  | .write _ => true
  | .atom .swap _ _ => true
  | _ => false

/-- R287, R290: an operation on a Signal word, performed at its home: the old value and the memory after it. -/
def DevMem.perform (d : DevMem) (w : BitVec 17) (a : SigAct) : Word × DevMem :=
  let old := d.signal w
  let d := match sigApply a old with
    | some v => d.setSignal w v
    | none => d
  (old, if sigHeals a then { d with sigPoison := d.sigPoison.filter fun x => x ≠ w.toNat } else d)

/-- R356: is the operation a contained event, the word being poisoned? -/
def DevMem.poisoned (d : DevMem) (w : BitVec 17) (a : SigAct) : Bool := d.sigPoison.contains w.toNat && !sigHeals a

/-- R356: an operation has met a poisoned word: contained, for the tile it acts for. -/
def State.signalBad (s : State) (t : Option TileId) (w : BitVec 17) : State :=
  let s := s.recordMc (Fin.ofNat 4 (w.toNat / 32768)) 35 (contained cMCSRAM 0 (some (6, BitVec.ofNat 64 w.toNat)) none)
  match t with
  | some t => s.chargeMc t cMCSRAM
  | none => s

/-! ## Poisoned units and retired channels (R359, R360) -/

/-- Every retired channel of the package. -/
def DevMem.retiredChannels (d : DevMem) : List (Nat × Nat) := d.homes.flatMap fun h => h.2.retired

/-- The addresses of the other data units of a stripe row (R92). -/
def rowMates (phys : Nat) : List Nat :=
  let g := phys / 343597383680
  let u := phys % 343597383680 / 256
  let q := u / 64
  (((List.range 5).map fun j => q / 5 * 5 + j).filter fun k => k ≠ q).map fun k => g * 343597383680 + (64 * k + u % 64) * 256

/-- R92: the parity unit of a unit's row: stack, channel and unit of the channel. -/
def parityOf (phys : Nat) : Nat × Nat × Nat :=
  let p := hbmPlace phys
  (p.1 / 6 * 6 + p.2.2 % 6, p.2.1, p.2.2)

/-- Is more than one bit wrong in a 256-byte unit of HBM? -/
def DevMem.torn (d : DevMem) (phys : Nat) : Bool := d.flaws.any fun f => f.bit.isNone && match f.site with
  | .mem 0 g => g / 8 == phys / 256
  | _ => false

/-- R359: is the parity unit of a row unreadable? -/
def DevMem.parityBad (d : DevMem) (p : Nat × Nat × Nat) : Bool :=
  d.badParity.contains p || d.flaws.any fun f => f.bit.isNone && f.site == .parity p.1 p.2.1 p.2.2

/-- R359, R360: has a row lost a channel of another stack than `stack`? -/
def DevMem.lostMate (d : DevMem) (stack ch : Nat) : Bool :=
  d.retiredChannels.any fun r => r.2 = ch ∧ r.1 ≠ stack ∧ r.1 / 6 = stack / 6

/-- R359: can a unit be rebuilt from the other five of its row? -/
def DevMem.rebuildable (d : DevMem) (phys : Nat) : Bool :=
  let p := hbmPlace phys
  (rowMates phys).all (fun a => !d.poison.contains (a / 256) && !d.torn a) && !d.parityBad (parityOf phys) && !d.lostMate p.1 p.2.1

/-- R359, R360: does a read of an HBM unit fail: poisoned, or in a retired channel and beyond rebuilding? -/
def DevMem.hbmBad (d : DevMem) (phys : Nat) : Bool :=
  let p := hbmPlace phys
  d.poison.contains (phys / 256) || (d.retiredChannels.contains (p.1, p.2.1) && !d.rebuildable phys)

/-- R93, R359: a unit is written whole: its mark is gone, and that of the row's parity, which is written with the row, once the last
unit of the row is. -/
def DevMem.healUnit (d : DevMem) (phys : Nat) : DevMem :=
  { d with
    poison := d.poison.filter fun x => x ≠ phys / 256,
    badParity := if phys % 343597383680 / 16384 % 5 = 4 then d.badParity.filter fun x => x ≠ parityOf phys else d.badParity }

/-- R93, R359: appends that have filled 256-byte units whole clear their marks: `b0` to `b1` are the bytes appended
so far before and after, from the segment's first byte `a` on. -/
def State.healUnits (s : State) (t : TileId) (a b0 b1 : Nat) : State :=
  if s.dev.poison = [] ∧ s.dev.badParity = [] then s
  else
    let lo := max (ceilDiv a 256) (b0 / 256)
    (numbersFrom lo (b1 / 256 - lo)).foldl (fun s u =>
      match s.pageFor t (256 * u) with
      | some p => if pteTier p.pte = 0 then s.modDev fun d => d.healUnit (p.at' (256 * u)) else s
      | none => s) s

end Sys2Proof.Machine
end

