-- ==== Sys2Proof/Machine/Hbm.lean ====
section
/-! DEFINITION. The checks of the memories behind a home: HBM reads with correction, rebuild and channel retirement
(R359, R360), row counts and moves (R361), tier-2 memory (R362), and patrol scrub. -/

namespace Sys2Proof.Machine

open Sys2Proof

/-! ## Banks and records (R364 to R366) -/

/-- R364: the die of a stack. -/
def dieOfStack (stack : Nat) : DieId := Fin.ofNat 4 (stack / 3)

/-- R365: the address of an HBM row (AKIND 7). -/
def rowAddr (stack ch row : Nat) : Option (Nat × Word) := some (7, BitVec.ofNat 64 (stack * 2 ^ 40 + ch * 2 ^ 32 + row))

/-- An event of the home of a channel. (Log entry 17, DEDUCED.) -/
def State.recordHbm (s : State) (stack ch row cls : Nat) (code : Byte) (detail : Option Nat) : State :=
  s.recordMc (dieOfStack stack) (32 + ch % 2) ⟨cls, code, stack % 3, rowAddr stack ch row, detail⟩

/-- The key of a channel in a home's maps. -/
def channelKey (stack ch : Nat) : Nat := 64 * stack + ch

/-! ## Channel retirement (R360) -/

/-- R360: the channel is retired; a second one of its stripe set is fatal. -/
def State.retireChannel (s : State) (stack ch row : Nat) : State :=
  let second := s.dev.lostMate stack ch
  let s := s.modHome (channelHome stack ch).val fun h => { h with retired := (stack, ch) :: h.retired }
  s.recordHbm stack ch row (if second then 3 else 1) cMCHBMX none

/-- R360: an MCHBMR event of a channel. -/
def State.countChannel (s : State) (stack ch row : Nat) : State :=
  let hid := (channelHome stack ch).val
  let n := sat16 ((s.home hid).buckets.get (channelKey stack ch) 0 + 1)
  let s := s.modHome hid fun h => { h with buckets := h.buckets.set (channelKey stack ch) n }
  let thresh := ((s.die (dieOfStack stack)).bank (32 + ch % 2)).thresh
  if thresh ≠ 0 ∧ thresh ≤ n ∧ !(s.home hid).retired.contains (stack, ch) then s.retireChannel stack ch row else s

/-! ## Rows (R361) -/

/-- The row of a count or a move. -/
def RowCount.is (r : RowCount) (stack ch row : Nat) : Bool := r.stack == stack && r.ch == ch && r.row == row
/-- The same for a move. -/
def RowMove.is (r : RowMove) (stack ch row : Nat) : Bool := r.stack == stack && r.ch == ch && r.row == row

/-- R361: a full table loses its entry of the smallest count, the oldest of equals. -/
def dropSmallest (l : List RowCount) : List RowCount :=
  match (l.map RowCount.count).min? with
  | some m => ((removeFirst (fun r => r.count == m) l).map Prod.snd).getD l
  | none => l

/-- R361: the table after one more corrected error of a row. -/
def Home.countRow (h : Home) (stack ch row : Nat) : Home :=
  if h.rows.any fun r => r.is stack ch row then
    { h with rows := h.rows.map fun r => if r.is stack ch row then { r with count := r.count + 1 } else r }
  else
    let rows := if h.rows.length < 1024 then h.rows else dropSmallest h.rows
    { h with rows := rows ++ [⟨stack, ch, row, 1⟩] }

/-- The count of a row. -/
def Home.rowCount (h : Home) (stack ch row : Nat) : Nat :=
  match h.rows.find? fun r => r.is stack ch row with
  | some r => r.count
  | none => 0

/-- R361: a row whose count has reached 8 takes a spare and begins to move in the next cycle. -/
def Home.startMove (h : Home) (now stack ch row : Nat) : Home :=
  let used := h.spares.get (channelKey stack ch) 0
  if 8 ≤ h.rowCount stack ch row ∧ used < 256 then
    { h with spares := h.spares.set (channelKey stack ch) (used + 1),
             moves := h.moves ++ [⟨stack, ch, row, used, 0, now + 1, true, []⟩] }
  else h

/-- R361: a corrected error of a row; while the row moves, it is neither counted nor recorded. -/
def State.correctRow (s : State) (stack ch row bit : Nat) : State :=
  let hid := (channelHome stack ch).val
  if (s.home hid).moves.any fun m => m.is stack ch row then s
  else
    let s := s.recordHbm stack ch row 1 cMCHBMC (some bit)
    s.modHome hid fun h => (h.countRow stack ch row).startMove s.gtime stack ch row

/-! ## Reads (R359, R362) -/

/-- The granules of a memory that `n` bytes from an address on lie in. -/
def memSites (tier phys n : Nat) : List Site :=
  let g := (Site.mem tier 0).bytes
  (numbersFrom (phys / g) (ceilDiv (phys + n) g - phys / g)).map (.mem tier)

/-- R353: what the check of a read finds: what it is given, or what has gone wrong there before. -/
def DevMem.found (d : DevMem) (l : List Site) (chk : Check) : Check :=
  if d.flaws.isEmpty then chk
  else if d.flaws.any fun f => f.bit.isNone && l.contains f.site then .double
  else
    match chk, d.flaws.find? fun f => l.contains f.site with
    | .good, some f => .single (Fin.ofNat 64 (f.bit.getD 0))
    | c, _ => c

/-- The granules are as they were written again. -/
def State.repair (s : State) (l : List Site) : State := s.modDev fun d => d.dropFlaws l.contains

/-- R359: a unit is rebuilt, which counts against its channel; (log entry 40, DESIGN CHOICE) the home writes it back. -/
def State.rebuild (s : State) (stack ch row : Nat) (l : List Site) : State :=
  ((s.recordHbm stack ch row 1 cMCHBMR none).countChannel stack ch row).repair l

/-- R359, R360: a unit cannot be rebuilt: contained, for whoever reads it. -/
def State.lost (s : State) (t : Option TileId) (stack ch row : Nat) : State :=
  let s := (s.recordHbm stack ch row 2 cMCHBMR none).countChannel stack ch row
  match t with
  | some t => s.chargeMc t cMCHBMR
  | none => s

/-- R359, R361: the read of `n` bytes of an HBM unit under what its check found: the state after it, and whether good data comes
of it; a unit that cannot be rebuilt is poisoned. -/
def State.readHbm (s : State) (t : Option TileId) (phys n : Nat) (chk : Check) : State × Bool :=
  let p := hbmPlace phys
  let row := p.2.2 / 8
  let sites := memSites 0 phys n
  let bad : State × Bool :=
    (((s.repair (memSites 0 (phys / 256 * 256) 256)).modDev fun d =>
      if d.poison.contains (phys / 256) then d else { d with poison := phys / 256 :: d.poison }).lost t p.1 p.2.1 row, false)
  if s.dev.hbmBad phys then bad
  else if s.dev.retiredChannels.contains (p.1, p.2.1) then (s, true)
  else
    match s.dev.found sites chk with
    | .good | .residue => (s, true)
    | .single bit => ((s.repair sites).correctRow p.1 p.2.1 row bit.val, true)
    | .double => if s.dev.rebuildable phys then (s.rebuild p.1 p.2.1 row (memSites 0 (phys / 256 * 256) 256), true) else bad

/-- R359: the read of a parity unit, which a cell add and a near-memory pass change (R93), under what its check found; that of a
retired channel is no longer kept (R360). -/
def State.readParity (s : State) (t : Option TileId) (phys : Nat) (chk : Check) : State × Bool :=
  let p := parityOf phys
  let k := Site.parity p.1 p.2.1 p.2.2
  if s.dev.retiredChannels.contains (p.1, p.2.1) then (s, true)
  else if s.dev.badParity.contains p then (s.lost t p.1 p.2.1 (p.2.2 / 8), false)
  else
    match s.dev.found [k] chk with
    | .good | .residue => (s, true)
    | .single bit => ((s.repair [k]).correctRow p.1 p.2.1 (p.2.2 / 8) bit.val, true)
    | .double =>
      if (phys :: rowMates phys).all (fun a => !s.dev.poison.contains (a / 256) && !s.dev.torn a) && !s.dev.lostMate p.1 p.2.1 then
        (s.rebuild p.1 p.2.1 (p.2.2 / 8) [k], true)
      else (((s.repair [k]).modDev fun d => { d with badParity := p :: d.badParity }).lost t p.1 p.2.1 (p.2.2 / 8), false)

/-- R362: a double-bit error of tier-2 memory or of a weight store: contained; the bytes stay bad until they are written. -/
def State.wideError (s : State) (t : Option TileId) (tier : Nat) (l : List Site) : State :=
  let code := if tier = 1 then cMCT2 else cMCWS
  let s := s.modDev fun d => if d.flaws.any fun f => f.bit.isNone && l.contains f.site then d else l.take 1 |>.foldl (fun d k => d.spoil k none) d
  let s := match l with
    | k :: _ => s.recordSite k 2 code none
    | [] => s
  match t with
  | some t => s.chargeMc t code
  | none => s

/-- R356, R359, R362: a home's read of `n` bytes for a tile, or for itself: the state after its events, and whether good data
came of it. -/
def State.checkedRead (s : State) (t : Option TileId) (tier phys n : Nat) (chk : Check) : State × Bool :=
  if tier = 0 then s.readHbm t phys n chk
  else
    let l := memSites tier phys n
    match s.dev.found l chk with
    | .double => (s.wideError t tier l, false)
    | .single _ => (s.repair l, true)
    | _ => (s, true)

/-- R93: the read half of a change of a unit by a cell add or a pass: the unit's bytes, and in HBM the parity of its row. -/
def State.checkedChange (s : State) (t : Option TileId) (tier phys n : Nat) (chk : Check) : State × Bool :=
  let r := s.checkedRead t tier phys n chk
  if tier = 0 ∧ r.2 then r.1.readParity t phys .good else r

/-! ## Row moves (R361) -/

/-- The next unit to copy: in the first pass the next one, then the lowest mark. -/
def RowMove.next (m : RowMove) : RowMove :=
  if m.firstPass ∧ m.unit < 7 then { m with unit := m.unit + 1, began := m.began + 64 }
  else
    match m.marks.min? with
    | some u => { m with unit := u, began := m.began + 64, firstPass := false, marks := m.marks.filter fun k => k ≠ u }
    | none => { m with unit := 8, began := m.began + 64, firstPass := false }

/-- Does the copy of a unit end in this cycle? -/
def RowMove.copied (m : RowMove) (now : Nat) : Bool := m.unit != 8 && m.began + 63 ≤ now
/-- Is the remap entry due? -/
def RowMove.past (m : RowMove) (now : Nat) : Bool := m.unit == 8 && m.began ≤ now

/-- ROW_UNIT_COPY_DONE (R361): the copies of units that end in this cycle are over; the next ones begin. -/
def execRowUnitCopyDone (h : HomeId) (s : State) : Out :=
  if s.phase = .ending then
    .next (s.modHome h.val fun x => { x with moves := x.moves.map fun m => if m.copied s.gtime then m.next else m })
  else .next s

/-- ROW_REMAP (R361): the remap entries are written, and MCREMAP is recorded for each. -/
def execRowRemap (h : HomeId) (s : State) : Out :=
  if s.phase = .ending then
    let past := (s.home h.val).moves.filter fun m => m.past s.gtime
    let s := s.modHome h.val fun x =>
      { x with
        moves := x.moves.filter fun m => !m.past s.gtime,
        rows := x.rows.filter fun r => !past.any fun m => m.is r.stack r.ch r.row,
        remaps := x.remaps ++ past.map fun m => (m.stack, m.ch, m.row, m.spare) }
    .next (past.foldl (fun s m => s.recordHbm m.stack m.ch m.row 1 cMCREMAP (some m.spare)) s)
  else .next s

/-! ## Patrol scrub (R361) -/

/-- The address of the first data unit of the row that a unit of a channel lies in (R92), and of the unit, when it is a data
unit. -/
def unitPhys (stack ch unit : Nat) : Nat × Option Nat :=
  let g := stack / 6
  let pos := stack % 6
  let pstack := unit % 6
  let at' (j : Nat) : Nat := g * 343597383680 + ((unit * 5 + j) * 64 + ch) * 256
  (at' 0, if pos = pstack then none else some (at' (if pos < pstack then pos else pos - 1)))

/-- R361: every channel reads one unit every 4,096 cycles: channel `ch` of stack `st` in those cycles whose number in their 4,096
is 64·`st` + `ch`. (Log entry 40, DESIGN CHOICE.) -/
def scrubTurn (now st ch : Nat) : Bool := now % 4096 == channelKey st ch

/-- PATROL_SCRUB_READ (R361): a channel reads its next unit. (Log entry 40, DESIGN CHOICE.) -/
def execPatrolScrubRead (h : HomeId) (stack : Fin 3) (ch : Fin 64) (chk : Check) (s : State) : Out :=
  let st := 3 * (h.val / 2) + stack.val
  if ch.val % 2 ≠ h.val % 2 ∨ (s.die (Fin.ofNat 4 (h.val / 2))).frozen ∨ scrubTurn s.gtime st ch.val = false then .next s
  else
    let key := channelKey st ch.val
    let at' := (s.home h.val).scrub.get key (0, 0)
    if s.gtime < at'.2 then .next s
    else
      let s := s.modHome h.val fun x => { x with scrub := x.scrub.set key ((at'.1 + 1) % 2 ^ 22, s.gtime + 4096) }
      match unitPhys st ch.val at'.1 with
      | (_, some phys) => .next (s.readHbm none phys 256 chk).1
      | (first, none) => .next (s.readParity none first chk).1

end Sys2Proof.Machine
end

