-- ==== Sys2Proof/Machine/Ports.lean ====
section
/-! DEFINITION. The operand ports of a tile (R164 to R175): addresses, fetches, pops and pushes, with the formats of
the scratchpad banks (R102, R109, R166). -/

namespace Sys2Proof.Machine

open Sys2Proof

/-- The 32 lanes of a vector. -/
abbrev Lanes := Vector Lane 32

/-! ## Banks (R109, R161) -/

/-- The format in force in the bank of an address (R102). -/
def Tile.bankFmt (x : Tile) (addr : Nat) : Lane := x.cox.bfmt[(Fin.ofNat 16 (addr / 65536))]

/-- R109: bytes of the element area of a bank in a block format. -/
def bankElemArea (fmt : Lane) : Nat := fmtP fmt * fmtBankBlocks fmt

/-- R109: the address of the scale of block `k` of the bank that holds `addr`. -/
def bankScaleAddr (fmt : Lane) (addr k : Nat) : Nat := addr / 65536 * 65536 + 65536 - fmtBankBlocks fmt + k

/-! ## Addresses and parameter sets (R164, R165) -/

/-- R165: `port_addr`. -/
def PortSet.addr (p : PortSet) (j : Nat) : Nat :=
  let r := (List.range 4).foldl (fun (acc : Nat × Int) l =>
    let n := p.cnt[(Fin.ofNat 4 l)]
    (acc.1 / n, acc.2 + ((acc.1 % n : Nat) : Int) * (p.str[(Fin.ofNat 4 l)]).toInt)) (j, (p.base.toNat : Int))
  wrapInt 20 r.2

/-- A rounding mode by its code (R110). -/
def rmOf : Nat → Option Rm
  | 0 => some .rne
  | 1 => some .rtz
  | 2 => some .rup
  | 3 => some .rdn
  | 4 => some .rneSat
  | 5 => some .rtzSat
  | _ => none

/-- The code of a rounding mode. -/
def rmCode : Rm → Nat
  | .rne => 0 | .rtz => 1 | .rup => 2 | .rdn => 3 | .rneSat => 4 | .rtzSat => 5

/-- R164: the parameter set in lanes 0 to 9, none when a zero field is not zero or RM is 110 or 111. -/
def portSetOf (a : Lanes) : Option PortSet :=
  let w (n : Nat) : Nat := (a[(Fin.ofNat 32 n)]).toNat
  match rmOf (w 1) with
  | none => none
  | some rm =>
    if bitsOf (w 0) 20 12 = 0 ∧ bitsOf (w 2) 16 16 = 0 ∧ bitsOf (w 4) 16 16 = 0 ∧ bitsOf (w 6) 16 16 = 0 ∧
        bitsOf (w 8) 16 16 = 0 then
      some { base := BitVec.ofNat 20 (w 0), rm := rm, cnt := #v[w 2 + 1, w 4 + 1, w 6 + 1, w 8 + 1],
             str := #v[a[3], a[5], a[7], a[9]] }
    else none

/-! ## Fetches (R166, R167, R170) -/

/-- The lane width of a bank in bits (R166). -/
def portLane (fmt : Lane) : Nat :=
  match fmtKind fmt with
  | 2 | 3 => 16
  | 4 | 5 => fmtContainer fmt
  | 6 => 8
  | 7 => 4
  | _ => 32

/-- R166, R167: the fault of a vector at an address: MISALIGN, or WINDOW when it leaves its bank or, in a block
format, the element area. -/
def vectorFault (fmt : Lane) (addr : Nat) : Option Byte :=
  let l := portLane fmt
  let off := addr % 65536
  let limit := if fmtIsBlock fmt then bankElemArea fmt else 65536
  if 8 ≤ l ∧ addr % (l / 8) ≠ 0 then some cMISALIGN
  else if limit < off + 4 * l then some cWINDOW
  else none

/-- The code of element `k` of a vector. -/
def laneCode (sp : Memory) (addr l k : Nat) : Nat :=
  bitsOf (sp.readNat (addr + k * l / 8) (ceilDiv l 8)) (k * l % 8) l

/-- R166, R113, R167: the lane that element `k` of a vector is delivered as; those of a zero block are +0. -/
def fetchLane (sp : Memory) (fmt : Lane) (addr k : Nat) : Lane :=
  let l := portLane fmt
  let c := laneCode sp addr l k
  match fmtKind fmt with
  | 2 => BitVec.ofNat 32 (f32Of (nfValue c .bf16) .rne)
  | 3 => BitVec.ofNat 32 (f32Of (nfValue c .f16) .rne)
  | 4 => BitVec.ofNat 32 (f32Of (nfValue c (fmtFields fmt)) .rne)
  | 5 =>
    let elem := (addr % 65536) * 8 / l + k
    let sh := sextNat 8 (sp.get (bankScaleAddr fmt addr (elem / fmtBlockLen fmt))).toNat
    BitVec.ofNat 32 (f32Of (blockElem c (fmtFields fmt) sh) .rne)
  | 6 => BitVec.ofInt 32 (sextNat 8 c)
  | 7 => BitVec.ofInt 32 (sextNat 4 c)
  | 8 | 9 =>
    let block := (addr % 65536 + 4 * k) / fmtP fmt
    if sp.get (bankScaleAddr fmt addr block) = 0x80 then 0 else BitVec.ofNat 32 c
  | _ => BitVec.ofNat 32 c

/-- R170, R171: the fetch of position `j`, made now; a fault stays with it. -/
def Tile.fetch (x : Tile) (p : PortSet) (j : Nat) : Lead :=
  let addr := p.addr j
  let fmt := x.bankFmt addr
  match vectorFault fmt addr with
  | some c => .fault c
  | none => .data (Vector.ofFn fun k => fetchLane x.sp fmt addr k.val)

/-- A port. -/
def Tile.port (x : Tile) (n : Fin 12) : Port := x.v.ports[n]
/-- Changes a port. -/
def Tile.modPort (x : Tile) (n : Fin 12) (f : Port → Port) : Tile :=
  { x with v := { x.v with ports := x.v.ports.set n (f x.v.ports[n]) } }

/-- R175: the lead is discarded and, on an input port, positions `j` to `j + 3` are fetched. -/
def Tile.refetch (x : Tile) (n : Fin 12) : Tile :=
  x.modPort n fun p =>
    match p.set with
    | some q => { p with lead := if n.val ≤ 7 then (List.range 4).map fun i => x.fetch q (p.pos + i) else [] }
    | none => p

/-- R165, R170: `n` pops of an input port: the position goes on and as many fetches are made. -/
def Tile.popPort (x : Tile) (i : Fin 12) (n : Nat) : Tile :=
  x.modPort i fun p =>
    match p.set with
    | some q =>
      { p with pos := p.pos + n, lead := p.lead.drop n ++ (List.range n).map fun k => x.fetch q (p.pos + 4 + k) }
    | none => p

/-! ## Pushes (R166, R168, R169) -/

/-- What a push writes: bytes with their masks, and the flags of R168. -/
structure PushOut where
  bytes : List (Nat × Byte × Byte)
  ovf : Bool
  unf : Bool
deriving DecidableEq, Repr

/-- Whole bytes. -/
def wholeBytes (addr : Nat) (l : List Byte) : List (Nat × Byte × Byte) :=
  l.zipIdx.map fun b => (addr + b.2, b.1, 0xFF)

/-- R166: the code that a lane is stored as. -/
def pushCode (fmt : Lane) (rm : Rm) (v : Lane) : Nat :=
  match fmtKind fmt with
  | 2 => convert (f32Val v.toNat) .bf16 rm
  | 3 => convert (f32Val v.toNat) .f16 rm
  | 4 => convert (f32Val v.toNat) (fmtFields fmt) rm
  | 6 => convert (Val.ofInt v.toInt) (.int true 8) rm
  | 7 => convert (Val.ofInt v.toInt) (.int true 4) rm
  | _ => v.toNat

/-- R169: the bytes of one lane of a push. -/
def pushLane (fmt : Lane) (rm : Rm) (addr k : Nat) (v : Lane) : List (Nat × Byte × Byte) :=
  let l := portLane fmt
  let c := pushCode fmt rm v
  if l < 8 then [(addr + k * l / 8, BitVec.ofNat 8 (c <<< (k * l % 8)), BitVec.ofNat 8 ((2 ^ l - 1) <<< (k * l % 8)))]
  else wholeBytes (addr + k * l / 8) (toBytes (l / 8) c)

/-- Packs codes of `c` bits, lowest first, into bytes. -/
def packCodes (c : Nat) (codes : List Nat) : List Byte :=
  toBytes (ceilDiv (codes.length * c) 8) (codes.foldr (fun x acc => x % 2 ^ c + 2 ^ c * acc) 0)

/-- R168: the push of one block. -/
def pushBlock (fmt : Lane) (rm : Rm) (addr : Nat) (mask : Lane) (v : Lanes) : Except Byte PushOut :=
  if fmtBlk fmt ≠ 5 then .error cSGBAD
  else
    let off := addr % 65536
    if off % fmtP fmt ≠ 0 ∨ fmtBankBlocks fmt ≤ off / fmtP fmt then .error cMISALIGN
    else
      let xs := (List.range 32).map fun l =>
        if mask.getLsbD l then f32Val (v[(Fin.ofNat 32 l)]).toNat else .zero
      let q := quantiseBlock xs (fmtFields fmt) rm
      .ok { bytes := wholeBytes addr (packCodes (fmtContainer fmt) q.codes) ++
              wholeBytes (bankScaleAddr fmt addr (off / fmtP fmt)) [BitVec.ofInt 8 q.sh],
            ovf := q.ovf, unf := q.unf }

/-- R166 to R169: what a push of `v` into port `n` writes under a mask, or its fault with the address. -/
def Tile.push (x : Tile) (n : Fin 12) (mask : Lane) (v : Lanes) : Except (Byte × Nat) PushOut :=
  match (x.port n).set with
  | none => .error (cINVREG, 0)
  | some p =>
    let addr := p.addr (x.port n).pos
    let fmt := x.bankFmt addr
    let kind := fmtKind fmt
    if kind = 8 ∨ kind = 9 then .error (cSGBAD, 0)
    else if kind = 5 then (pushBlock fmt p.rm addr mask v).mapError fun c => (c, if c = cSGBAD then 0 else addr)
    else
      match vectorFault fmt addr with
      | some c => .error (c, addr)
      | none =>
        .ok ⟨((List.range 32).filter fun l => mask.getLsbD l).flatMap fun l =>
          pushLane fmt p.rm addr l (v[(Fin.ofNat 32 l)]), false, false⟩

/-- R173: PORTCFG. -/
def Tile.portcfg (x : Tile) (n : Fin 12) : Nat :=
  let p := x.port n
  match p.set with
  | none => 0
  | some q => 2 ^ 63 + (if p.ovf then 2 ^ 62 else 0) + (if p.unf then 2 ^ 61 else 0) + rmCode q.rm * 2 ^ 20 + q.addr p.pos

end Sys2Proof.Machine
end

