-- ==== Sys2Proof/Machine/Extents.lean ====
section
/-! DEFINITION. The life of an extent: the pages and tables that its creation takes (R86, R92, R95, R96), its removal
(R88), kernel images (R47, R393), and the recast of segments with the near-memory pass (R70, R81 to R83). -/

namespace Sys2Proof.Machine

open Sys2Proof

/-! ## Places (R15, R86, R92; log entry 6, DESIGN CHOICE) -/

/-- R86: the page size for a byte size, with its PS. -/
def pageSizeFor (bytes : Nat) : Nat × Nat :=
  if 2 ^ 30 ≤ bytes then (2 ^ 30, 3) else if 2 ^ 21 ≤ bytes then (2 ^ 21, 2) else (2 ^ 16, 1)

/-- Is `[a, a + n)` apart from every run of a list? -/
def apart (used : List (Nat × Nat)) (a n : Nat) : Bool := used.all fun u => u.1 + u.2 ≤ a || a + n ≤ u.1

/-- The first free place of size `n`, a multiple of `n`, in `[lo, hi)`: the preferred one, the lowest, or one that
follows a used run. -/
def freePlaceIn (used : List (Nat × Nat)) (lo hi n prefer : Nat) : Option Nat :=
  let fits (a : Nat) : Bool := decide (lo ≤ a) && decide (a + n ≤ hi) && decide (a % n = 0) && apart used a n
  ((prefer / n * n) :: alignUp lo n :: used.map fun u => alignUp (u.1 + u.2) n).find? fits

/-- Places for `k` pages of size `n`. (Log entry 6, DESIGN CHOICE.) -/
def freePages (lo hi n prefer : Nat) : Nat → List (Nat × Nat) → Option (List (Nat × Nat))
  | 0, _ => some []
  | k + 1, used =>
    match freePlaceIn used lo hi n prefer with
    | none => none
    | some a => (freePages lo hi n (a + n) k ((a, n) :: used)).map fun l => (a, n) :: l

/-- The physical range of a tier (R15, R20, R22; log entry 11, DESIGN CHOICE): HBM of 640 GiB, the tier-2 memory that is present,
1.5 GiB of the named die's weight store. -/
def State.tierRange (s : State) (tier wsdie : Nat) : Nat × Nat :=
  match tier with
  | 0 => (0, 640 * 2 ^ 30)
  | 1 => (0, s.sys.tier2GiB * 2 ^ 30)
  | _ => (wsdie * 2 ^ 31, wsdie * 2 ^ 31 + 3 * 2 ^ 29)

/-- The pages of a tier that extents own, those of every context. -/
def DevMem.usedPages (d : DevMem) (tier : Nat) : List (Nat × Nat) :=
  (d.extents ++ d.jobs.flatMap fun j => j.2.extents).flatMap fun e => if e.2.tier = tier then e.2.pages else []

/-- The virtual ranges that extents take, in whole pages. -/
def DevMem.usedRanges (d : DevMem) : List (Nat × Nat) :=
  d.extents.map fun e => (e.2.base, alignUp e.2.bytes (pageSizeFor e.2.bytes).1)

/-! ## Tables (R95, R96) -/

/-- A table frame that nothing uses. -/
def newFrame (ptes : Map Word) : Nat :=
  1 + ptes.foldl (fun m e => max m (max (e.1 / 512) (if pteTable e.2 then ptePfn e.2 else 0))) 0

/-- The table that entry `i` of a frame points to, made when it is not there. -/
def tableAt (ptes : Map Word) (frame i : Nat) : Map Word × Nat :=
  let p := ptes.get (512 * frame + i) 0
  if pteTable p then (ptes, ptePfn p)
  else
    let f := newFrame ptes
    (ptes.set (512 * frame + i) (BitVec.ofNat 64 (f * 2 ^ 8 + 1)), f)

/-- The frame of the level that holds leaves of size PS. -/
def framesTo (ptes : Map Word) (va level : Nat) : Nat → Nat → Map Word × Nat
  | 0, frame => (ptes, frame)
  | k + 1, frame =>
    if k < level then (ptes, frame)
    else
      let r := tableAt ptes frame (bitsOf va (12 + 9 * k) 9)
      framesTo r.1 va level k r.2

/-- The PTE of a page: EXTID, KEY, PFN, TIER, PS, with X, W, R and V set (log entry 6, DESIGN CHOICE). -/
def leafPte (ext key phys tier ps : Nat) : Word :=
  BitVec.ofNat 64 (ext * 2 ^ 48 + key * 2 ^ 38 + phys / 4096 * 2 ^ 8 + tier * 2 ^ 6 + ps * 2 ^ 4 + 15)

/-- Maps one page: a 64 KiB page takes 16 leaves (R96). -/
def mapPage (ptes : Map Word) (va phys ps ext key tier : Nat) : Map Word :=
  let level := if ps = 1 then 0 else ps - 1
  let r := framesTo ptes va (level + 1) 4 0
  let i := bitsOf va (12 + 9 * level) 9
  (List.range (if ps = 1 then 16 else 1)).foldl (fun m k =>
    m.set (512 * r.2 + i + k) (leafPte ext key (phys + 4096 * k) tier ps)) r.1

/-- Maps pages one after another from `va` on. -/
def mapPages (ptes : Map Word) (va ps ext key tier : Nat) : List (Nat × Nat) → Map Word
  | [] => ptes
  | p :: l => mapPages (mapPage ptes va p.1 ps ext key tier) (va + p.2) ps ext key tier l

/-- R86: pages are filled with zeros under their key. -/
def DevMem.zeroPage (d : DevMem) (tier : Nat) (key : BitVec 512) (p : Nat × Nat) : DevMem :=
  let d := d.setStore tier ((d.store tier).filter fun c => !(decide (p.1 ≤ c.1) && decide (c.1 < p.1 + p.2)))
  let d := d.dropFlaws fun k => match k with
    | .mem n g => n == tier && decide (p.1 ≤ g * k.bytes) && decide (g * k.bytes < p.1 + p.2)
    | _ => false
  if tier = 2 then d
  else
    let u := unitOf tier p.1
    let n := p.2 / 64
    { d with
      unitKey := d.unitKey.filter fun c => !(decide (u ≤ c.1) && decide (c.1 < u + n)),
      fills := (u, n, key) :: d.fills.filter fun f => !(decide (u ≤ f.1) && decide (f.1 + f.2.1 ≤ u + n)),
      poison := if tier = 0 then d.poison.filter fun x => !(decide (p.1 / 256 ≤ x) && decide (x < (p.1 + p.2) / 256))
        else d.poison }

/-! ## Records (R44, R47, R86) -/

/-- The fields of a record. -/
structure ExtRec where
  count : Nat
  fmt : Lane
  role : Nat
  tier : Nat
  key : Nat
  abp : Int
  flags : Nat
  hold : Nat
  init : Nat
  initLen : Nat
  wsdie : Nat
deriving DecidableEq, Repr

/-- A field of a byte list. -/
def recField (l : List Byte) (off n : Nat) : Nat := ofBytes ((l.drop off).take n)

/-- R47: the layout of an entry. -/
def extRecOf (l : List Byte) : ExtRec where
  count := recField l 0 8
  fmt := BitVec.ofNat 32 (recField l 8 4)
  role := recField l 12 1
  tier := recField l 13 1
  key := recField l 14 2
  abp := sextNat 8 (recField l 16 1)
  flags := recField l 17 1
  hold := recField l 18 2
  init := recField l 20 4
  initLen := recField l 24 4
  wsdie := recField l 28 4

/-- R44, R86, R108: does the record keep its limits, ACAP being `acap`? -/
def ExtRec.ok (r : ExtRec) (acap : Bool) : Bool :=
  decide (1 ≤ r.count) && decide (r.count ≤ 2 ^ 48) && fmtWf r.fmt &&
  (!fmtIsBlock r.fmt || r.count % fmtBlockLen r.fmt == 0) &&
  decide (r.role ≤ 2) && decide (r.tier ≤ 2) && decide (r.key ≤ 1023) && (r.tier != 2 || r.key == 0) &&
  (r.role == 2 || r.abp == 0) && decide (1 ≤ r.hold) && (r.role != 2 || acap) && (r.tier != 2 || !acap) &&
  (r.tier != 2 || r.role == 0) && (if r.tier = 2 then decide (r.wsdie ≤ 3) else r.wsdie == 0)

/-- R86: a record of `EXTNEW`. -/
def ExtRec.newOk (r : ExtRec) (acap : Bool) : Bool :=
  r.ok acap && r.init == 0xFFFFFFFF && r.initLen == 0 && r.flags == 0

/-- The lowest free extent id. -/
def DevMem.freeId (d : DevMem) : Option Nat :=
  let n := d.extents.length
  if 65536 ≤ n then none else (List.range (n + 1)).find? fun i => (d.extents.find? i).isNone

/-- R86: what the creation of an extent gives: its id, or the reason of its failure. -/
inductive NewExt where
  | made (id : Nat)
  | noId
  | noSpace
  | badRecord
deriving DecidableEq, Repr

/-- The value that `EXTNEW` pushes. -/
def NewExt.value : NewExt → Word
  | .made id => BitVec.ofNat 64 id
  | .noId => -1
  | .noSpace => -2
  | .badRecord => -3

/-- R82, R86: a segment over `[a, b)` in a role; `full` for data loaded into an S segment. -/
def freshSegment (role : Role) (a b epoch : Nat) (full : Bool) : Segment :=
  { start := a, stop := b,
    st := match role with
      | .i => .i
      | .s => if full then .sClosed else .sOpen
      | .a => .a,
    epoch := epoch, wcur := if role = .s ∧ full then b else a, rcur := a, ovf := false, inv := false, blkovf := false,
    blkunf := false, reader := none, writer := none }

/-- The role of a code. -/
def roleOf : Nat → Role
  | 0 => .i
  | 1 => .s
  | _ => .a

/-- R71: every replica of an extent leaves the four caches. -/
def State.purgeReplicas (s : State) (ext : Nat) : State :=
  { s with dies := s.dies.map fun (k, x) =>
      (k, { x with replicas := x.replicas.filter fun r => r.ext ≠ ext ∨ r.ctx ≠ s.sys.context }) }

/-- R71, R83, R86: the next epoch of an id; before a wrap its replicas are removed. -/
def State.nextEpoch (s : State) (ext : Nat) : State × Nat :=
  let n := s.dev.epochs.get ext 0 + 1
  let s := if 2 ^ 32 ≤ n then s.purgeReplicas ext else s
  (s.modDev fun d => { d with epochs := d.epochs.set ext (n % 2 ^ 32) }, n % 2 ^ 32)

/-- R86: an extent is created with a record whose limits hold: id, places, pages, cells, PTEs, segment.
(Log entry 6, DESIGN CHOICE.) (Log entry 16, DEDUCED.) -/
def State.makeExtent (s : State) (r : ExtRec) (acap full : Bool) : State × NewExt :=
  match s.dev.freeId with
  | none => (s, .noId)
  | some id =>
    let bytes := (fmtAreas r.fmt r.count).2.2
    let pg := pageSizeFor bytes
    let n := ceilDiv bytes pg.1
    let cellBytes := if acap then 8 * r.count else 0
    let cpg := pageSizeFor cellBytes
    let cn := ceilDiv cellBytes cpg.1
    let rg := s.tierRange r.tier r.wsdie
    let used := s.dev.usedPages r.tier
    if rg.2 - rg.1 < n * pg.1 + cn * cpg.1 then (s, .noSpace)
    else
      match freePages rg.1 rg.2 pg.1 (Config.freePlace s.fresh) n used with
      | none => (s, .noSpace)
      | some pages =>
        match freePages rg.1 rg.2 cpg.1 (Config.freePlace (s.fresh + 1)) cn (pages ++ used) with
        | none => (s, .noSpace)
        | some cells =>
          match freePlaceIn s.dev.usedRanges 0 (2 ^ 48) (n * pg.1) (Config.freePlace (s.fresh + 2)) with
          | none => (s, .noSpace)
          | some base =>
            let (s, epoch) := s.nextEpoch id
            let e : Extent :=
              { base := base, count := r.count, fmt := r.fmt, holders := r.hold, abp := r.abp, tier := r.tier,
                key := r.key, acap := acap, wsdie := r.wsdie, segs := [freshSegment (roleOf r.role) 0 r.count epoch full],
                coll := none, cells := [], pages := pages ++ cells }
            let key := s.keyOf r.key
            let s := s.modDev fun d =>
              let d := pages.foldl (fun d p => d.zeroPage r.tier key p) d
              { d with
                extents := d.extents.set id e,
                ptes := mapPages d.ptes base pg.2 id r.key r.tier pages }
            ((s.dropTlb id).tick 3, .made id)

/-- R86: `EXTNEW` at the device. (Log entry 16, DEDUCED.) -/
def State.extnew (s : State) (l : List Byte) (acap : Bool) : State × NewExt :=
  let r := extRecOf l
  if r.newOk acap = false then (s, .badRecord) else s.makeExtent r acap false

/-- R88: the extent leaves: its PTEs, TLB entries, pages and cells, its epoch one higher. -/
def State.extfree (s : State) (ext : Nat) : State :=
  let s := (s.nextEpoch ext).1
  (s.modDev fun d => { d with
    extents := d.extents.erase ext,
    ptes := d.ptes.filter fun p => !(pteLeaf p.2 && pteExt p.2 == ext) }).dropTlb ext

/-! ## The device's own view of virtual memory -/

/-- Writes bytes at virtual addresses, each under its mask, by the tables alone. -/
def State.deviceWrite (s : State) : List (Nat × Byte × Byte) → State
  | [] => s
  | (a, b, mask) :: l =>
    match s.walk a with
    | some p =>
      let key := s.keyOf (pteKey p.pte)
      let old := s.dev.byte (pteTier p.pte) (p.at' a) key
      (s.modDev fun d => d.putByte (pteTier p.pte) (p.at' a) key (mergeBits old b mask)).deviceWrite l
    | none => s.deviceWrite l

/-- Reads bytes by the tables alone. -/
def State.deviceRead (s : State) (a n : Nat) : List Byte := (numbersFrom a n).map fun x =>
  match s.walk x with
  | some p => s.dev.byte (pteTier p.pte) (p.at' x) (s.keyOf (pteKey p.pte))
  | none => 0

/-- The same, each 256-byte unit under its check (R21, R359): none where one fails, which no iteration consumes, or where they
lie in a weight store, which Portage alone reads (R22). -/
def State.deviceLoad (s : State) (a n : Nat) : State × Option (List Byte) :=
  let r := (numbersFrom (a / 256) (ceilDiv (a + n) 256 - a / 256)).foldl (fun (c : State × Bool) u =>
    match s.walk (256 * u) with
    | some p =>
      if pteTier p.pte = 2 then (c.1, false)
      else if c.2 then c.1.checkedRead none (pteTier p.pte) (p.at' (256 * u)) 256 .good else c
    | none => c) (s, true)
  (r.1, if r.2 then some (r.1.deviceRead a n) else none)

/-! ## Kernel images (R47, R393) -/

/-- R47: offset and length of part `k`. -/
def imagePart (l : List Byte) (k : Nat) : Nat × Nat := (recField l (8 + 8 * k) 4, recField l (12 + 8 * k) 4)

/-- The bytes of part `k`. -/
def partBytes (l : List Byte) (k : Nat) : List Byte := (l.drop (imagePart l k).1).take (imagePart l k).2

/-- The size of an image: its header, or the end of its last part. -/
def imageSize (l : List Byte) : Nat := (List.range 8).foldl (fun m k =>
  if (imagePart l k).2 = 0 then m else max m ((imagePart l k).1 + (imagePart l k).2)) 80

/-- The entries of the extents part. -/
def extEntries : List Byte → Nat → List (List Byte)
  | _, 0 => []
  | l, n + 1 => l.take 32 :: extEntries (l.drop 32) n

/-- R47: the checks of an image that lies in `size` bytes at `l`: MAGIC, VERSION, CRC and reserved fields; and, where the
rule names no refusal, a part that is not aligned to 32 bytes or does not lie in the image, an empty part with an
offset, an IMEM or store part above 65,536 bytes, and an extents or launches part of no whole number of records. The
reserved fields of a record of the launches part are left to R307, which checks it when it is queued. (Log entry 51, DESIGN
CHOICE.) -/
def imageOk (l : List Byte) (size : Nat) : Bool :=
  recField l 0 4 == 0x4C424E45 && recField l 4 2 == 1 && recField l 6 2 == 0 && recField l 76 4 == 0 &&
  ((List.range 8).all fun k =>
    let p := imagePart l k
    if p.2 = 0 then p.1 == 0 else p.1 % 32 == 0 && decide (80 ≤ p.1) && decide (p.1 + p.2 ≤ size)) &&
  decide ((imagePart l 0).2 ≤ 65536) && (List.range 4).all (fun k => decide ((imagePart l (k + 1)).2 ≤ 65536)) &&
  (imagePart l 6).2 % 32 == 0 && decide ((imagePart l 6).2 ≤ 32 * 65536) && (imagePart l 7).2 % 256 == 0 &&
  (let d := l.take size
   (crc32c (d.take 72 ++ [0, 0, 0, 0] ++ d.drop 76)).toNat == recField l 72 4)

/-- The `init` bytes of an entry of an image. -/
def initBytes (l : List Byte) (r : ExtRec) : List Byte := ((partBytes l 5).drop r.init).take r.initLen

/-- R47: are the reserved bits of an entry of the extents part zero? -/
def entryReserved (r : ExtRec) : Bool := decide (r.flags ≤ 1) && decide (r.wsdie ≤ 3)

/-- R44, R47: does an entry of an image keep its limits? -/
def entryOk (l : List Byte) (r : ExtRec) : Bool :=
  r.ok (bitOf r.flags 0) && decide (r.flags ≤ 1) &&
  (if r.init = 0xFFFFFFFF then r.initLen == 0
   else r.role != 2 && r.initLen == (fmtAreas r.fmt r.count).2.2 && decide (r.init + r.initLen ≤ (imagePart l 5).2))

/-- R47: the extents of an image, in table order; at a failure those already made. -/
def State.makeExtents (s : State) (l : List Byte) : List (List Byte) → List Nat → State × List Nat × Bool
  | [], made => (s, made, true)
  | e :: es, made =>
    let r := extRecOf e
    if entryOk l r = false then (s, made, false)
    else
      match s.makeExtent r (bitOf r.flags 0) (r.init != 0xFFFFFFFF) with
      | (s, .made id) =>
        let s := match s.extent? id with
          | some x => if r.init = 0xFFFFFFFF then s else s.deviceWrite (wholeBytes x.base (initBytes l r))
          | none => s
        s.makeExtents l es (id :: made)
      | (s, _) => (s, made, false)

/-- IMGADDR_WRITE (R393, R47): the image at a virtual address in one I segment is checked, its extents are made, and
IMGHANDLE reads its handle, or 0. (Log entry 7, DESIGN CHOICE.) -/
def execImgaddrWrite (v : Word) (s : State) : Out :=
  if s.sys.ready = false then .next s
  else
    let s := s.modSys fun y => { y with imgaddr := v, imghandle := 0 }
    match s.walk v.toNat with
    | none => .next s
    | some p =>
      match s.extent? (pteExt p.pte) with
      | none => .next s
      | some e =>
        match e.segOf (e.elemsAt (v.toNat - e.base)).1 with
        | none => .next s
        | some (_, g) =>
          let room := e.base + (g.stop * e.bits) / 8 - v.toNat
          let head := s.deviceLoad v.toNat (min 80 room)
          let size := imageSize (head.2.getD [])
          let body := if size ≤ room then head.1.deviceLoad v.toNat size else (head.1, none)
          let s := body.1
          let l := body.2.getD []
          let entries := extEntries (partBytes l 6) ((imagePart l 6).2 / 32)
          if g.st ≠ .i ∨ imageOk l size = false ∨ (entries.all fun x => entryReserved (extRecOf x)) = false then .next s
          else
            match s.makeExtents l entries [] with
            | (s1, made, true) =>
              let used := s1.sys.images.map Prod.fst
              let h : Word := BitVec.ofNat 64 (Config.freeHandle s1.fresh)
              let handle := if h = 0 ∨ used.contains h then
                  BitVec.ofNat 64 (((List.range (used.length + 1)).find? fun n => !used.contains (BitVec.ofNat 64 (n + 1))).getD 0 + 1)
                else h
              .next ((s1.modSys fun y => { y with
                imghandle := handle,
                images := (handle, ⟨partBytes l 0, Vector.ofFn fun k => partBytes l (k.val + 1)⟩) :: y.images }).tick made.length)
            | (s1, made, false) => .next (made.foldl (fun s i => s.extfree i) s1)

/-! ## Recast (R70, R81 to R83) -/

/-- R81: may the extent take the target role? -/
def Extent.targetOk (e : Extent) (role : Role) : Bool :=
  (role != .a || (e.acap && fmtKind e.fmt != 0 && fmtKind e.fmt != 8 && fmtKind e.fmt != 9)) && (e.tier != 2 || role == .i)

/-- R82: the segment that a range is a part of, or the whole of. -/
def Extent.segAround (e : Extent) (lo hi : Nat) : Option Segment := e.segs.find? fun g => g.start ≤ lo ∧ hi ≤ g.stop

/-- The parts of a segment outside `[lo, hi)` (R83). -/
def Segment.partBefore (g : Segment) (lo : Nat) : Segment :=
  match g.st with
  | .sOpen | .sClosed => { g with stop := lo, st := .sClosed, wcur := lo, reader := none, writer := none }
  | _ => { g with stop := lo, wcur := g.start, rcur := g.start }
/-- The part after it. -/
def Segment.partAfter (g : Segment) (hi : Nat) : Segment :=
  match g.st with
  | .sOpen | .sClosed => { g with start := hi, rcur := hi, reader := none, writer := none }
  | _ => { g with start := hi, wcur := hi, rcur := hi }

/-- R82: a segment that stays S without FRESH keeps its state and its cursors, cut to the recast range.
(Log entry 34, DEDUCED.) -/
def keptStream (from' : List Segment) (role : Role) (fresh : Bool) : Option Segment :=
  match from', role, fresh with
  | [g], Role.s, false => if g.st = .sOpen ∨ g.st = .sClosed then some g else none
  | _, _, _ => none

/-- R82: the state of the recast range after the flip, its flags those of the segments it was. (Log entry 34, DEDUCED.)
Several segments, some of them S, that a whole recast to S without FRESH joins become one that is S-CLOSED and full.
(Log entry 51, DESIGN CHOICE.) -/
def recastSegment (from' : List Segment) (lo hi : Nat) (role : Role) (fresh : Bool) : Segment :=
  let olds := if role = .a then from'.filter fun g => g.st = .a else from'
  let g := freshSegment role lo hi 0 true
  let g := match keptStream from' role fresh with
    | some old => { g with st := old.st, rcur := max lo old.rcur, wcur := min hi old.wcur }
    | none => if role = Role.s ∧ fresh then { g with st := .sOpen, wcur := lo } else g
  { g with ovf := olds.any (·.ovf), inv := olds.any (·.inv), blkovf := olds.any (·.blkovf), blkunf := olds.any (·.blkunf) }

/-- R83: adjacent I segments merge, and so do adjacent A segments; `touched` marks those made by the flip. -/
def mergeSegs : List (Segment × Bool) → List (Segment × Bool)
  | [] => []
  | (g, m) :: l =>
    match mergeSegs l with
    | [] => [(g, m)]
    | (h, n) :: r =>
      if (g.st = .i ∧ h.st = .i) ∨ (g.st = .a ∧ h.st = .a) then
        ({ g with stop := h.stop, wcur := g.start, rcur := g.start, ovf := g.ovf || h.ovf, inv := g.inv || h.inv,
                  blkovf := g.blkovf || h.blkovf, blkunf := g.blkunf || h.blkunf }, true) :: r
      else (g, m) :: (h, n) :: r

/-- R82, R83: the segments after the flip, before their epochs; the mark says which the flip made. -/
def Extent.flipped (e : Extent) (lo hi : Nat) (role : Role) (fresh : Bool) : List (Segment × Bool) :=
  let whole := lo = 0 ∧ hi = e.count
  if whole then [(recastSegment e.segs lo hi role fresh, true)]
  else
    mergeSegs (e.segs.flatMap fun g =>
      if g.start ≤ lo ∧ hi ≤ g.stop then
        (if g.start < lo then [(g.partBefore lo, true)] else []) ++ [(recastSegment [g] lo hi role fresh, true)] ++
          (if hi < g.stop then [(g.partAfter hi, true)] else [])
      else [(g, false)])

/-- R70, R81, R83: the refusal of an arrival, by code and reason. -/
def Extent.recastFault (e : Extent) (lo hi : Nat) (role : Role) (fresh : Bool) : Option (Byte × Nat) :=
  let around := e.segAround lo hi
  let whole := lo = 0 ∧ hi = e.count
  if hi ≤ lo ∨ e.count < hi ∨ (around.isNone ∧ ¬whole) then some (cROLE, 4)
  else if fmtIsBlock e.fmt ∧ (lo % fmtBlockLen e.fmt ≠ 0 ∨ hi % fmtBlockLen e.fmt ≠ 0) then some (cROLE, 6)
  else if around.any fun g => (g.st == .sOpen || g.st == .sClosed) && !(g.start == lo && g.stop == hi) &&
      (decide (lo < g.rcur) || decide (g.wcur < hi)) then some (cROLE, 8)
  else if e.targetOk role = false then some (cROLE, 7)
  else if 8 < (e.flipped lo hi role fresh).length then some (cEXTSPLIT, 0)
  else none

/-! ## The near-memory pass (R82) -/

/-- The value of a cell after its saturation to 64 bits, with whether it saturated. -/
def cellValue (abp c : Int) : Val × Bool :=
  let k := if 2 ^ 63 - 1 < c then 2 ^ 63 - 1 else if c < -(2 ^ 63) then -(2 ^ 63) else c
  (.fin (decide (k < 0)) k.natAbs abp, k != c)

/-- What the pass writes and which flags it sets: OVF, BLKOVF, BLKUNF. -/
structure PassOut where
  bytes : List (Nat × Byte × Byte)
  ovf : Bool
  blkovf : Bool
  blkunf : Bool
deriving DecidableEq, Repr

/-- Two outputs together. -/
def PassOut.and (a b : PassOut) : PassOut :=
  ⟨a.bytes ++ b.bytes, a.ovf || b.ovf, a.blkovf || b.blkovf, a.blkunf || b.blkunf⟩

/-- The bytes of element `i` of a non-block extent. -/
def Extent.codeAt (e : Extent) (i code : Nat) : List (Nat × Byte × Byte) :=
  if e.bits < 8 then
    [(e.base + i * e.bits / 8, BitVec.ofNat 8 (code % 2 ^ e.bits * 2 ^ (i * e.bits % 8)),
      BitVec.ofNat 8 ((2 ^ e.bits - 1) * 2 ^ (i * e.bits % 8)))]
  else wholeBytes (e.base + i * e.bits / 8) (toBytes (e.bits / 8) code)

/-- The pass over one element of a non-block format. -/
def Extent.passElem (e : Extent) (i : Nat) : PassOut :=
  let v := cellValue e.abp (e.cells.get i 0)
  match fmtNf e.fmt with
  | some f =>
    let c := convertC v.1 f .rneSat
    ⟨e.codeAt i c.code, v.2 || c.sat, false, false⟩
  | none => ⟨[], v.2, false, false⟩

/-- The pass over one block. -/
def Extent.passBlock (e : Extent) (k : Nat) : PassOut :=
  let n := fmtBlockLen e.fmt
  let vs := (numbersFrom (k * n) n).map fun i => cellValue e.abp (e.cells.get i 0)
  let q := quantiseBlock (vs.map Prod.fst) (fmtFields e.fmt) .rneSat
  ⟨wholeBytes (e.base + fmtP e.fmt * k) (packCodes (fmtContainer e.fmt) q.codes) ++
      wholeBytes (e.base + (fmtAreas e.fmt e.count).2.1 + k) [BitVec.ofInt 8 q.sh],
    vs.any Prod.snd || q.sat, q.ovf, q.unf⟩

/-- The pass over `[lo, hi)`. -/
def Extent.pass (e : Extent) (lo hi : Nat) : PassOut :=
  if fmtIsBlock e.fmt then
    (numbersFrom (lo / fmtBlockLen e.fmt) ((hi - lo) / fmtBlockLen e.fmt)).foldl (fun o k => o.and (e.passBlock k))
      ⟨[], false, false, false⟩
  else (numbersFrom lo (hi - lo)).foldl (fun o i => o.and (e.passElem i)) ⟨[], false, false, false⟩

/-- The cells of `[lo, hi)` are set to zero. -/
def Extent.clearCells (e : Extent) (lo hi : Nat) : Extent :=
  { e with cells := e.cells.filter fun c => !(decide (lo ≤ c.1) && decide (c.1 < hi)) }

/-- R82, R73: the conversion of one piece of the recast range, from the role of its segment: an A piece that leaves A is
written by the pass, one that enters A has zero cells. -/
def convertPart (role : Role) (acc : Extent × PassOut) (g : Segment) : Extent × PassOut :=
  match g.st, role with
  | .a, .a => acc
  | .a, _ => (acc.1.clearCells g.start g.stop, acc.2.and (acc.1.pass g.start g.stop))
  | _, .a => (acc.1.clearCells g.start g.stop, acc.2)
  | _, _ => acc

/-- The segments cut to the recast range. -/
def Extent.cut (e : Extent) (lo hi : Nat) : List Segment :=
  (e.segs.map fun g => { g with start := max g.start lo, stop := min g.stop hi }).filter fun g => g.start < g.stop

/-- The flags of the pass reach the segment that holds the recast range. -/
def flagPass (lo : Nat) (o : PassOut) (g : Segment) : Segment :=
  if g.start ≤ lo ∧ lo < g.stop then
    { g with ovf := g.ovf || o.ovf, blkovf := g.blkovf || o.blkovf, blkunf := g.blkunf || o.blkunf }
  else g

/-- R81 to R83: conversion and flip of an extent whose collective is complete. -/
def State.flip (s : State) (ext : Nat) (e : Extent) (c : Collective) : State :=
  let r := (e.cut c.lo c.hi).foldl (convertPart c.role) (e, ⟨[], false, false, false⟩)
  let s := s.deviceWrite r.2.bytes
  let n := s.nextEpoch ext
  let segs := (e.flipped c.lo c.hi c.role c.fresh).map fun g =>
    flagPass c.lo r.2 (if g.2 then { g.1 with epoch := n.2 } else g.1)
  n.1.setExtent ext { r.1 with segs := segs, coll := none }

end Sys2Proof.Machine
end

