-- ==== Sys2Proof/Machine/Matrix.lean ====
section
/-! DEFINITION. The meanings of the M words (R217 to R221) and of the events of the Eight (R209, R212, R214, R221,
R223). -/

namespace Sys2Proof.Machine

open Sys2Proof

/-! ## State words (R218) -/

/-- The 128-bit mask of R218 with FN = 0: bits `lo` to `hi - 1`. -/
def rangeMask (lo hi : Nat) : BitVec 128 := BitVec.ofNat 128 (2 ^ hi - 2 ^ lo)

/-- R218 with FN = 1: quarter `q` replaced. -/
def setQuarter (m : BitVec 128) (q : Nat) (b : BitVec 32) : BitVec 128 :=
  (m &&& ~~~(BitVec.ofNat 128 (0xFFFFFFFF * 2 ^ (32 * q)))) ||| BitVec.ofNat 128 (b.toNat * 2 ^ (32 * q))

/-- `MSETROW` with FN = 0 (R218). -/
def execMsetrow (tok : Tok) (lo hi : Byte) (s : State) : Out :=
  .next (s.runM false { tok := tok } fun m => { m with mrow := rangeMask lo.toNat hi.toNat })

/-- `MSETROW` with FN = 1 (R218). -/
def execMsetrowPart (tok : Tok) (q : Fin 4) (b : BitVec 32) (s : State) : Out :=
  .next (s.runM false { tok := tok } fun m => { m with mrow := setQuarter m.mrow q.val b })

/-- `MSETCOL` with FN = 0 (R218). -/
def execMsetcol (tok : Tok) (lo hi : Byte) (s : State) : Out :=
  .next (s.runM false { tok := tok } fun m => { m with mcol := rangeMask lo.toNat hi.toNat })

/-- `MSETCOL` with FN = 1 (R218). -/
def execMsetcolPart (tok : Tok) (q : Fin 4) (b : BitVec 32) (s : State) : Out :=
  .next (s.runM false { tok := tok } fun m => { m with mcol := setQuarter m.mcol q.val b })

/-- R218: the formats that `MFMT` takes. -/
def mfmtOk (opb : Bool) (fmt : Lane) : Bool :=
  fmtWf fmt && ((decide (2 ≤ fmtKind fmt) && decide (fmtKind fmt ≤ 7)) || (opb && (fmtKind fmt == 8 || fmtKind fmt == 9)))

/-- `MFMT` (R218). -/
def execMfmt (tok : Tok) (opb : Bool) (fmt : BitVec 32) (s : State) : Out :=
  .next (s.runM (!mfmtOk opb fmt) { tok := tok } fun m => if opb then { m with fmtb := fmt } else { m with fmta := fmt })

/-- `MSCALE` (R218). -/
def execMscale (tok : Tok) (sa sb : Byte) (s : State) : Out :=
  .next (s.runM false { tok := tok } fun m => { m with sa := sa, sb := sb })

/-! ## Multiply commands (R219) -/

/-- R219, R214: a multiply command of the tile at work, its slots' contents as they stand at its issue. -/
def mulWord (zero transp tcw : Bool) (o : MmaOp) (m : MState) (c : Crew) : MWord :=
  let k := o.k1.toNat + 1
  let chunk := min (fmtChunk m.fmta) (fmtChunk m.fmtb)
  { tok := o.tok,
    occ := ceilDiv k (chunk / 32),
    slots := if o.sa = o.sb then [o.sa.val] else [o.sa.val, o.sb.val],
    touched := touchedBanks o.bank.val m.mrow,
    work := .mul zero transp tcw o.bank.val k o.aoff.toNat o.boff.toNat m.mrow m.mcol m.fmta m.fmtb
      (m.sa.toInt + m.sb.toInt) (c.slot o.sa).data (c.slot o.sb).data }

/-- R219: a multiply command runs. -/
def State.runMul (s : State) (zero transp tcw : Bool) (bad : Lane → Bool) (o : MmaOp) : State :=
  let m := (s.tile s.curTile).m
  s.runM (bad m.fmtb) (mulWord zero transp tcw o m (s.crew (crewOf s.curTile)))

/-- `MMA` (R219). -/
def execMma (o : MmaOp) (s : State) : Out := .next (s.runMul false false false fmtIsBlock o)
/-- `MMAZ` (R219). -/
def execMmaz (o : MmaOp) (s : State) : Out := .next (s.runMul true false false fmtIsBlock o)
/-- `MMAT` (R219). -/
def execMmat (o : MmaOp) (s : State) : Out :=
  .next (s.runMul false true false (fun f => fmtKind f == 8 || fmtKind f == 9) o)
/-- `MTCW` (R219). -/
def execMtcw (o : MmaOp) (s : State) : Out :=
  .next (s.runMul false false true (fun f => !(fmtKind f == 8 || fmtKind f == 9)) o)

/-! ## Zeroing, batches, the end (R220, R221) -/

/-- `MACZ` (R220). -/
def execMacz (tok : Tok) (bank : Fin 32) (s : State) : Out :=
  let m := (s.tile s.curTile).m
  .next (s.runM false { tok := tok, touched := touchedBanks bank.val m.mrow, work := .zeroMasked bank.val m.mrow m.mcol })

/-- `MTILE` (R220, R223): it opens a replay window. -/
def execMtile (tok : Tok) (bank : Fin 32) (count1 : Fin 4) (s : State) : Out :=
  let banks := numbersFrom bank.val (count1.val + 1)
  .next (s.runM false
    { tok := tok, touched := banks, work := .zeroBanks bank.val (count1.val + 1), opens := true }
    fun m => { m with window := some ⟨bankMask banks, [], true⟩, windows := m.windows + 1 })

/-- R221: the batch is closed; its number is the new BCLOSED. -/
def MState.commit (m : MState) (seq : BitVec 32) (push : Option Eng) : MState :=
  let m := m.touch 0 0
  { m with
    bclosed := m.bclosed + 1,
    batches := m.batches.map fun b => if b.closed then b else { b with closed := true, seq := seq, push := push } }

/-- `MCOMMIT` (R221): it occupies one cycle and retires with its batch (R215). -/
def execMcommit (tok : Tok) (s : State) : Out :=
  let t := s.curTile
  let x := s.tile t
  if s.mOpen t = false ∨ x.canPop .m tok.pop = false then .next s
  else
    let s := s.modCrew (crewOf t) fun c => { c with turnWords := c.turnWords + 1, busyUntil := s.gtime + 1 }
    .next (s.modTile t fun x =>
      let x := { x with m := (x.m.retain .none 1).commit (x.eng .m).curSeq tok.push }
      (x.popToken .m tok.pop).modEng .m fun g => { g.issue with nextIssue := s.gtime + 1 })

/-- `MEND` (R60, R214): it ends the entry and does not count in the turn (R209). -/
def execMend (tok : Tok) (s : State) : Out :=
  let t := s.curTile
  let x := s.tile t
  if s.mOpen t = false ∨ x.canPop .m tok.pop = false then .next s
  else
    let cmd : ArrayCmd :=
      { due := s.gtime, tile := laneOf t, seq := (x.eng .m).curSeq, push := tok.push, readEnd := s.gtime, slots := [],
        reading := false, touched := 0, landed := false, replayed := false, batch := 0, window := 0, place := 0, work := .none,
        hollow := false }
    let s := s.modCrew (crewOf t) fun c => { c with cmds := c.cmds ++ [cmd] }
    .next (s.modTile t fun x => (x.popToken .m tok.pop).modEng .m fun g =>
      { g.issueEnd with nextIssue := s.gtime + 1 })

/-! ## Events -/

/-- LEASE_TURN_END (R209). -/
def execLeaseTurnEnd (c : CrewId) (s : State) : Out :=
  if s.phase = .ending ∧ s.turnOver c then .next (s.endTurn c) else .next s

/-- LEASE_GRANT (R209). -/
def execLeaseGrant (c : CrewId) (s : State) : Out :=
  match s.grantee c with
  | some k => .next (s.beginTurn c k s.gtime)
  | none => .next s

/-- LAST_READ_CYCLE_END (R212): the readers of the command's slots fall by one. -/
def execLastReadCycleEnd (c : CrewId) (s : State) : Out :=
  match (s.crew c).cmds.find? fun k => k.reading && decide (k.readEnd ≤ s.gtime) with
  | some k =>
    if s.phase = .ending then
      .next (s.modCrew c fun y =>
        let y := k.slots.foldl (fun y n => y.modSlot (Fin.ofNat 32 n) fun x => { x with readers := x.readers - 1 }) y
        { y with cmds := y.cmds.map fun j => if j = k then { j with reading := false } else j })
    else .next s
  | none => .next s

/-- R223, R357: an error of a command is contained: what the command was to write is written by nobody. -/
def State.containCmd (s : State) (c : CrewId) (k : ArrayCmd) (code : Byte) : State :=
  let k' := { k with work := .none, hollow := true }
  ((s.modCrew c fun y => { y with cmds := y.cmds.map fun j => if j = k then k' else j }).landM c k').containEight
    (tileOf c k.tile) code none

/-- R223, R357: the command consumed an uncorrectable error; one that issued before the tile's last `MTILE` is in no
window. -/
def State.uncorrectable (s : State) (c : CrewId) (k : ArrayCmd) (code : Byte) : State :=
  let t := tileOf c k.tile
  match (s.tile t).m.window with
  | some w =>
    if w.whole ∧ (s.tile t).m.replay.isNone ∧ k.window = (s.tile t).m.windows then s.startReplay c k.tile w code
    else s.containCmd c k code
  | none => s.containCmd c k code

/-- M_WRITES_LAND (R214): the check of what the command read decides whether it lands or replays.
(Log entry 29, DEDUCED.) -/
def execMWritesLand (c : CrewId) (chk : Check) (s : State) : Out :=
  match s.landing? c with
  | none => .next s
  | some k =>
    if s.phase ≠ .ending then .next s
    else
      match chk with
      | .good => .next (s.landM c k)
      | .single b =>
        if k.work.multiplies then .next ((s.recordMc (dieOfCrew c) (c.val % 32) (corrected cMCSRAM 4 none (some b.val))).landM c k)
        else .next (s.landM c k)
      | .double => if k.work.multiplies then .next (s.uncorrectable c k cMCSRAM) else .next (s.landM c k)
      | .residue => if k.work.multiplies then .next (s.uncorrectable c k cMCRESID) else .next (s.landM c k)

/-- May the tile's first batch retire (R221)? -/
def State.batchReady (s : State) (t : TileId) : Bool :=
  match (s.tile t).m.batches with
  | b :: _ => b.closed && b.unlanded == 0 && (s.tile t).m.replay.isNone && (s.tile t).canPush .m b.push
  | [] => false

/-- BATCH_RETIRE (R221): BRET rises, the `MCOMMIT` pushes its token, and banks settle (R213). -/
def execBatchRetire (t : TileId) (s : State) : Out :=
  match (s.tile t).m.batches with
  | b :: bs =>
    if s.phase = .ending ∧ s.batchReady t then
      .next ((s.modTile t fun x =>
        ({ x with m := { x.m with batches := bs, bret := b.number } }).retireWord .m b.seq b.push).settleBanks (crewOf t))
    else .next s
  | [] => .next s

/-- REPLAY_END (R223, R357): the replay is recorded as a corrected event. -/
def execReplayEnd (t : TileId) (s : State) : Out :=
  if s.replayOver t then
    .next ((s.endReplay t).recordMc (dieOf t) ((crewOf t).val % 32) (corrected cMCREPLAY 4 none (some (s.tile t).m.replayCode.toNat)))
  else .next s

end Sys2Proof.Machine
end

