-- ==== Sys2Proof/Machine/Operands.lean ====
section
/-! DEFINITION. The operand forms of the Cox words (R50 to R53, R55, R263) and the order in which a Cox word reads its
guard and its sources, waits, faults and issues (R252, R255, R258). -/

namespace Sys2Proof.Machine

open Sys2Proof

/-! ## Sources -/

/-- A source of a Cox word, its immediate already extended (R53). -/
inductive COp where
  | x (r : Fin 64)
  | p (r : Fin 16)
  | rf
  | imm (v : Word)
deriving DecidableEq, Repr

/-- R53: `sext(IMM)`. -/
def sextImm (i : BitVec 32) : Word := i.signExtend 64

end Sys2Proof.Machine

namespace Sys2Proof

open Sys2Proof.Machine

/-- A source of class 00, 10 or 11. -/
def Src.op : Src → COp
  | .x r => .x r
  | .rf => .rf
  | .imm i => .imm (sextImm i)

/-- A source of class 00 or 10. -/
def XRf.op : XRf → COp
  | .x r => .x r
  | .rf => .rf

/-- A source of class 00 or 11. -/
def XImm.op : XImm → COp
  | .x r => .x r
  | .imm i => .imm (sextImm i)

end Sys2Proof

namespace Sys2Proof.Machine

open Sys2Proof

/-- Is a source valid (R252)? In a handler every register may be read. -/
def Cox.opValid (c : Cox) : COp → Bool
  | .x r => c.tm || c.xValid r
  | .p r => c.tm || c.pValid r
  | .rf | .imm _ => true

/-- The number of elements that sources pop. -/
def popCount (l : List COp) : Nat := (l.filter fun o => o = COp.rf).length

/-- The values of sources, in field order; `rf` takes the popped elements in that order (R52). An invalid register
reads as 0 (R252, handlers only). -/
def Cox.values (c : Cox) : List COp → List Word → List Word
  | [], _ => []
  | .x r :: l, e => (if c.xValid r then c.readX r else 0) :: c.values l e
  | .p r :: l, e => (if c.pValid r && c.readP r then 1 else 0) :: c.values l e
  | .imm v :: l, e => v :: c.values l e
  | .rf :: l, e => e.headD 0 :: c.values l e.tail

/-- R55: the truth of a guard. -/
def Cox.guardOn (c : Cox) (g : CGuard) : Bool := ((!c.tm || c.pValid g.p) && c.readP g.p) != g.neg

/-- R55, R252: may the guard be read? -/
def Cox.guardValid (c : Cox) (g : CGuard) : Bool := c.tm || c.pValid g.p

/-! ## Issue -/

/-- What a word does once its guard is true and its sources are read: it has its effect, it waits and is tried again,
or it faults. -/
inductive CoxRes where
  | done (s : State)
  | wait
  /-- It waits, and the wait itself has changed the state (R69). -/
  | waitIn (s : State)
  | fault (code : Byte) (info addr : Word)

/-- Elements stand ready for `n` pops: `none` when the FIFO is empty with no request outstanding, `some false` when
one has not arrived (R255). -/
def Cox.popReady (c : Cox) (n : Nat) : Option Bool :=
  if c.unmarked.length < n then none else some ((c.unmarked.take n).all fun e => e.data.isSome)

/-- The elements of `n` pops. -/
def Cox.popped (c : Cox) (n : Nat) : List Word := (c.unmarked.take n).map fun e => e.data.getD 0

/-- The Cox after the word at PC has popped and issued. -/
def Cox.step (c : Cox) (now n : Nat) : Cox := (c.pop n).issued now

/-- R55, R252, R255: the issue of a Cox word with guard `g` and sources `srcs`; `k` is its effect, given the values
and the state in which the word has popped and PC has gone on. (Log entry 15, DEDUCED.) -/
def State.runCox (s : State) (g : CGuard) (srcs : List COp) (k : List Word → State → CoxRes) : State :=
  let t := s.curTile
  let c := s.cox t
  let n := popCount srcs
  if c.guardValid g = false then s.coxFault t cINVREG 0 0
  else
    match c.popReady n with
    | none => s.coxFault t cINVREG 0 0
    | some false => s
    | some true =>
      let s1 := s.modCox t fun c => c.step s.gtime n
      if c.guardOn g = false then s1
      else if (srcs.all c.opValid) = false then s.coxFault t cINVREG 0 0
      else
        match k (c.values srcs (c.popped n)) s1 with
        | .done s2 => s2
        | .wait => s
        | .waitIn s2 => s2
        | .fault code info addr => s.coxFault t code info addr

/-- R258, R272: the same for a region-closing word: in a delay slot of a taken branch it raises ILLOP with reason 10,
and no word issues until it has retired. -/
def State.runClosing (s : State) (g : CGuard) (srcs : List COp) (k : List Word → State → CoxRes) : State :=
  let t := s.curTile
  if (s.cox t).inSlot then s.coxFault t cILLOP 10 0
  else s.runCox g srcs fun vals s1 => k vals (s1.modCox t fun c => { c with closing := true })

/-- R356: what a word reads of its scratchpad as it issues; where that is beyond correction the word has no effect. -/
def State.readsOwn (s s1 : State) (a n : Nat) (k : State → CoxRes) : CoxRes :=
  match s1.goodRead s.curTile (spSites s.curTile a n) with
  | (s2, true) => k s2
  | (_, false) => .waitIn (s.goodRead s.curTile (spSites s.curTile a n)).1

/-- The word retires at the end of cycle `due`. -/
def State.retireAt (s : State) (due : Nat) : State := s.modCox s.curTile fun c => c.send due .retire

/-- A register result with latency `l` (R253). -/
def State.sendX (s : State) (d : Fin 64) (v : Word) (l : Nat) : State :=
  s.modCox s.curTile fun c => c.send (s.gtime + l) (.x d v)

/-- A predicate result with latency `l`. -/
def State.sendP (s : State) (d : Fin 16) (b : Bool) (l : Nat) : State :=
  s.modCox s.curTile fun c => c.send (s.gtime + l) (.p d b)

/-- The request of the word at work (R261). -/
def State.request (s : State) (slot closing : Bool) (pc : Word) (act : ReqAct) : State :=
  s.modTile s.curTile fun x => x.request s.gtime slot closing pc act

/-- R255: a long-latency word places its request for one element and asks for it. -/
def State.longLatency (s : State) (repeatable closing : Bool) (pc : Word) (act : ReqAct) : State :=
  (s.modCox s.curTile fun c => c.placeSlot repeatable).request true closing pc act

/-- May a long-latency word issue (R255)? -/
def State.rfRoom (s : State) : Bool := (s.cox s.curTile).rfRoom

end Sys2Proof.Machine
end

