-- ==== Sys2Proof/Machine/CoxInt.lean ====
section
/-! DEFINITION. The meanings of the integer words, the compare and predicate words (R264 to R268), and the plain system
words `NOP`, `HALT` and `WAITCYC` (R284). -/

namespace Sys2Proof.Machine

open Sys2Proof

/-- A value of a list of sources. -/
def nth (v : List Word) (i : Nat) : Word := v.getD i 0

/-- R264: a word of two sources writes `f a b` with latency `l`. -/
def State.alu3 (s : State) (o : Alu3) (l : Nat) (f : Word → Word → Word) : State :=
  s.runCox o.g [o.a.op, o.b.op] fun v s => .done (s.sendX o.d (f (nth v 0) (nth v 1)) l)

/-- R264: a word of one source writes `f a`. -/
def State.alu1 (s : State) (g : CGuard) (d : Fin 64) (a : Src) (f : Word → Word) : State :=
  s.runCox g [a.op] fun v s => .done (s.sendX d (f (nth v 0)) 1)

/-- `ADD` (R264). -/
def execAdd (o : Alu3) (s : State) : Out := .next (s.alu3 o 1 (fun a b => a + b))
/-- `SUB` (R264). -/
def execSub (o : Alu3) (s : State) : Out := .next (s.alu3 o 1 (fun a b => a - b))
/-- `MUL` (R264), with the latency of R253. -/
def execMul (o : Alu3) (s : State) : Out := .next (s.alu3 o 3 (fun a b => a * b))
/-- `MULH` (R264). -/
def execMulh (o : Alu3) (s : State) : Out := .next (s.alu3 o 3 mulHigh)
/-- `MULHN` (R264). -/
def execMulhn (o : Alu3) (s : State) : Out := .next (s.alu3 o 3 mulHighN)
/-- `DIV` (R264, R265). -/
def execDiv (o : Alu3) (s : State) : Out := .next (s.alu3 o 20 divS)
/-- `DIVN` (R264, R265). -/
def execDivn (o : Alu3) (s : State) : Out := .next (s.alu3 o 20 divU)
/-- `REM` (R264, R265). -/
def execRem (o : Alu3) (s : State) : Out := .next (s.alu3 o 20 remS)
/-- `REMN` (R264, R265). -/
def execRemn (o : Alu3) (s : State) : Out := .next (s.alu3 o 20 remU)
/-- `AND` (R264). -/
def execAnd (o : Alu3) (s : State) : Out := .next (s.alu3 o 1 (fun a b => a &&& b))
/-- `OR` (R264). -/
def execOr (o : Alu3) (s : State) : Out := .next (s.alu3 o 1 (fun a b => a ||| b))
/-- `XOR` (R264). -/
def execXor (o : Alu3) (s : State) : Out := .next (s.alu3 o 1 (fun a b => a ^^^ b))
/-- `ANDN` (R264). -/
def execAndn (o : Alu3) (s : State) : Out := .next (s.alu3 o 1 (fun a b => a &&& ~~~b))
/-- `SHL` (R264). -/
def execShl (o : Alu3) (s : State) : Out := .next (s.alu3 o 1 (fun a b => a <<< shiftOf b))
/-- `SHR` (R264). -/
def execShr (o : Alu3) (s : State) : Out := .next (s.alu3 o 1 (fun a b => a >>> shiftOf b))
/-- `SRA` (R264). -/
def execSra (o : Alu3) (s : State) : Out := .next (s.alu3 o 1 (fun a b => a.sshiftRight (shiftOf b)))
/-- `ROT` (R264). -/
def execRot (o : Alu3) (s : State) : Out := .next (s.alu3 o 1 (fun a b => a.rotateLeft (shiftOf b)))
/-- `MIN` (R264). -/
def execMin (o : Alu3) (s : State) : Out := .next (s.alu3 o 1 (minWord true))
/-- `MAX` (R264). -/
def execMax (o : Alu3) (s : State) : Out := .next (s.alu3 o 1 (maxWord true))
/-- `MINN` (R264). -/
def execMinn (o : Alu3) (s : State) : Out := .next (s.alu3 o 1 (minWord false))
/-- `MAXN` (R264). -/
def execMaxn (o : Alu3) (s : State) : Out := .next (s.alu3 o 1 (maxWord false))
/-- `CLZ` (R264). -/
def execClz (o : Alu1) (s : State) : Out := .next (s.alu1 o.g o.d o.a clzWord)
/-- `CTZ` (R264). -/
def execCtz (o : Alu1) (s : State) : Out := .next (s.alu1 o.g o.d o.a ctzWord)
/-- `POPC` (R264). -/
def execPopc (o : Alu1) (s : State) : Out := .next (s.alu1 o.g o.d o.a popcWord)

/-- `SEXT` (R264). -/
def execSext (o : ExtOp) (s : State) : Out := .next (s.alu1 o.g o.d o.a fun a => extend ⟨o.w, true⟩ a.toNat)
/-- `ZEXT` (R264). -/
def execZext (o : ExtOp) (s : State) : Out := .next (s.alu1 o.g o.d o.a fun a => extend ⟨o.w, false⟩ a.toNat)

/-- `LI` (R264). -/
def execLi (g : CGuard) (d : Fin 64) (imm : BitVec 32) (s : State) : Out :=
  .next (s.runCox g [] fun _ s => .done (s.sendX d (sextImm imm) 1))

/-- `LIH` (R264): the upper half from IMM, the lower from the source. -/
def execLih (o : LihOp) (s : State) : Out :=
  .next (s.runCox o.g [o.a.op] fun v s => .done (s.sendX o.d (o.imm ++ (nth v 0).setWidth 32) 1))

/-- `SEL` (R264): it reads all three sources. -/
def execSel (o : SelOp) (s : State) : Out :=
  .next (s.runCox o.g [o.a.op, o.b.op, .p o.c] fun v s =>
    .done (s.sendX o.d (if nth v 2 ≠ 0 then nth v 0 else nth v 1) 1))

/-- `CMP` (R266). -/
def execCmp (o : CmpOp) (s : State) : Out :=
  .next (s.runCox o.g [o.a.op, o.b.op] fun v s => .done (s.sendP o.d (condHolds o.cc (nth v 0) (nth v 1)) 1))

/-- `PLOG` (R267). -/
def execPlog (o : PlogOp) (s : State) : Out :=
  .next (s.runCox o.g [.p o.a, .p o.b] fun v s => .done (s.sendP o.d (logBit o.op (nth v 0 != 0) (nth v 1 != 0)) 1))

/-- `PMOV` with FN = 0 (R268). -/
def execPmovPP (g : CGuard) (d a : Fin 16) (s : State) : Out :=
  .next (s.runCox g [.p a] fun v s => .done (s.sendP d (nth v 0 != 0) 1))

/-- `PMOV` with FN = 1 (R268). -/
def execPmovPX (g : CGuard) (d : Fin 16) (a : Src) (s : State) : Out :=
  .next (s.runCox g [a.op] fun v s => .done (s.sendP d (nth v 0 != 0) 1))

/-- `PMOV` with FN = 2 (R268). -/
def execPmovXP (g : CGuard) (d : Fin 64) (a : Fin 16) (s : State) : Out :=
  .next (s.runCox g [.p a] fun v s => .done (s.sendX d (nth v 0) 1))

/-- R268, FN = 3: the predicates, invalid ones as 0, with their valid bits above them. -/
def Cox.pallImage (c : Cox) : Word :=
  let valid := c.pv ||| 1
  let p := (c.p ||| 1) &&& valid
  BitVec.ofNat 64 (p.toNat + 65536 * valid.toNat)

/-- `PMOV` with FN = 3 (R268): it never raises INVREG for what it reads. -/
def execPmovXPall (g : CGuard) (d : Fin 64) (s : State) : Out :=
  .next (s.runCox g [] fun _ s => .done (s.sendX d (s.cox s.curTile).pallImage 1))

/-- `PMOV` with FN = 4 (R268). -/
def execPmovPallX (g : CGuard) (a : Fin 64) (s : State) : Out :=
  .next (s.runCox g [.x a] fun v s =>
    .done (s.modCox s.curTile fun c => c.send (s.gtime + 1) (.pall ((nth v 0).setWidth 16) ((nth v 0).extractLsb' 16 16))))

/-! ## Plain system words (R284) -/

/-- `NOP` (R284). -/
def execNop (g : CGuard) (s : State) : Out := .next (s.runCox g [] fun _ s => .done s)

/-- `HALT` (R284): the Cox stops issuing, and TDBG.HALTED shows it (R394). -/
def execHalt (g : CGuard) (s : State) : Out :=
  .next (s.runCox g [] fun _ s => .done (s.modCox s.curTile fun c => { c with halted := true, dbgHalted := true }))

/-- `WAITCYC` with FN = 0 (R284): the next word issues no earlier than cycle `c + a[31:0]`. -/
def execWaitcyc (g : CGuard) (a : Src) (s : State) : Out :=
  .next (s.runCox g [a.op] fun v s => .done (s.modCox s.curTile fun c =>
    { c with nextIssue := max c.nextIssue (s.gtime + (nth v 0).toNat % 2 ^ 32) }))

/-- R125: the time that a 32-bit time names, seen in cycle `now`: the one within 2^31 of it. -/
def timeOf (now t : Nat) : Int :=
  (now : Int) + sextNat 32 (t + 2 ^ 32 - now % 2 ^ 32)

/-- `WAITCYC` with FN = 1 (R284): until GTIME has reached the time. -/
def execWaitcycUntil (g : CGuard) (a : Src) (s : State) : Out :=
  .next (s.runCox g [a.op] fun v s => .done (s.modCox s.curTile fun c =>
    { c with nextIssue := max c.nextIssue (timeOf s.gtime ((nth v 0).toNat % 2 ^ 32)).toNat }))

end Sys2Proof.Machine
end

