-- ==== Sys2Proof/Machine/LoadStore.lean ====
section
/-! DEFINITION. Scratchpad loads, stores and atomics of the Cox, with the gang windows and the multicast window (R156 to
R163, R269, R270). -/

namespace Sys2Proof.Machine

open Sys2Proof

/-! ## Local addresses (R156, R161) -/

/-- Where a local address lies. -/
inductive Loc where
  | own (off : Nat)
  | member (u : TileId) (off : Nat)
  | multicast (off : Nat)
  | outside
deriving DecidableEq, Repr

/-- The members of the tile's gang; a tile without a gang is a gang of one (R285). -/
def Tile.gangSize (x : Tile) : Nat :=
  match x.place with
  | some p => p.tiles.length
  | none => 1

/-- The tile's member index. -/
def Tile.member (x : Tile) : Nat :=
  match x.place with
  | some p => p.member
  | none => 0

/-- The tile of a member. -/
def Tile.memberTile (x : Tile) (m : Nat) : Option TileId :=
  match x.place with
  | some p => p.tiles[m]?
  | none => none

/-- R156: the tile's own range, a placed member's window, the multicast window, or none. -/
def Tile.locate (x : Tile) (a : Nat) : Loc :=
  if a < 0x100000 then .own a
  else if 0x10000000 ≤ a ∧ a < 0x20000000 then
    let m := (a - 0x10000000) / 0x100000
    let off := a % 0x100000
    if m < x.gangSize then
      if m = x.member then .own off
      else
        match x.memberTile m with
        | some u => .member u off
        | none => .outside
    else .outside
  else if 0x20000000 ≤ a ∧ a < 0x20100000 then .multicast (a % 0x100000)
  else .outside

/-- The tiles that a multicast of the tile is written at (R159). -/
def Tile.gangTiles (x : Tile) (t : TileId) : List TileId :=
  match x.place with
  | some p => p.tiles
  | none => [t]

/-- The address of a memory word: `xa` plus the signed offset. -/
def memAddr (o : MemOp) (a : Word) : Word := a + sextImm o.off

/-- R269: the width divides the address. -/
def misaligned (va : Word) (w : Nat) : Bool := decide (va.toNat % w ≠ 0)

/-- R254, R255: a FIFO place filled by the tile itself. -/
def Cox.placeLocal (c : Cox) (repeatable : Bool) : Cox := { c.placeSlot repeatable with nextReq := c.nextReq + 1 }

/-! ## Loads (R269) -/

/-- A local read: made in the next cycle (R163, R253). (Log entry 9, DEDUCED.) -/
def State.loadLocal (s : State) (off : Nat) (ty : MemTy) (dst : LoadDst) : State :=
  s.modCox s.curTile fun c => c.send (s.gtime + 1) (.load off ty dst [])

/-- `LD`, register form (R269): local addresses only. -/
def execLd (o : MemOp) (d : Fin 64) (s : State) : Out :=
  .next (s.runCox o.g [.x o.a] fun v s =>
    let va := memAddr o (nth v 0)
    if misaligned va (widthBytes o.ty.width) then .fault cMISALIGN 0 va
    else
      match (s.tile s.curTile).locate va.toNat with
      | .own off | .multicast off => .done (s.loadLocal off o.ty (.x d))
      | .member .. | .outside => .fault cWINDOW 0 va)

/-- `LD`, FIFO form (R269): any allowed address; a remote read leaves under R261. -/
def execLdFifo (o : MemOp) (s : State) : Out :=
  .next (s.runCox o.g [.x o.a] fun v s1 =>
    let c := s.cox s.curTile
    let va := memAddr o (nth v 0)
    if misaligned va (widthBytes o.ty.width) then .fault cMISALIGN 0 va
    else
      match (s.tile s.curTile).locate va.toNat with
      | .outside => .fault cWINDOW 0 va
      | .own off | .multicast off =>
        if c.rfRoom then .done ((s1.modCox s1.curTile fun c => c.placeLocal true).loadLocal off o.ty (.rf c.nextReq))
        else .wait
      | .member u off =>
        if s.holding then .fault cPROT 0 va
        else if c.rfRoom then .done (s1.longLatency true false c.pc (.winLoad u off o.ty))
        else .wait)

/-! ## Stores (R157, R158, R163) -/

/-- The bytes a store writes. -/
def storeBytes (ty : MemTy) (v : Word) : List Byte := toBytes (widthBytes ty.width) v.toNat

/-- R158: the places of the multicast queue that are taken, by the requests on their way to it too. -/
def Tile.mcHeld (x : Tile) : Nat :=
  x.mcQueue.length + (x.reqs.filter fun r => match r.act with
    | .multicast .. => true
    | _ => false).length

/-- R158: is there room in the multicast queue? -/
def Tile.mcRoom (x : Tile) : Bool := decide (x.mcHeld < 4)

/-- R158, R159: a granule of a tile joins the multicast queue, until it has left; its landing cycle is known at its issue, and
every member's delay buffer is to write it then. That of a gang of one is written locally. -/
def State.mcJoin (s : State) (t : TileId) (g : McGranule) : State :=
  let s := if g.members.length ≤ 1 then s else s.modTile t fun x => { x with mcQueue := x.mcQueue ++ [g] }
  (if g.members.length ≤ 1 then [t] else g.members).foldl (fun s u => s.modTile u fun x => { x with delay := x.delay ++ [g] }) s

/-- `ST` (R269): it lands locally under R163, or leaves under R261. -/
def execSt (o : MemOp) (b : XRf) (s : State) : Out :=
  .next (s.runCox o.g [.x o.a, b.op] fun v s1 =>
    let x := s.tile s.curTile
    let va := memAddr o (nth v 0)
    let bytes := storeBytes o.ty (nth v 1)
    if misaligned va (widthBytes o.ty.width) then .fault cMISALIGN 0 va
    else
      match x.locate va.toNat with
      | .outside => .fault cWINDOW 0 va
      | .own off => .done (s1.modCox s1.curTile fun c => c.send (s.gtime + 1) (.store off bytes))
      | .member u off =>
        if s.holding then .fault cPROT 0 va else .done (s1.request false false x.cox.pc (.winStore u off bytes))
      | .multicast off =>
        if x.cox.mcdelay = 0 then .fault cWINDOW 0 va
        else if s.holding then .fault cPROT 0 va
        else if x.mcRoom then
          .done (s1.request false false x.cox.pc
            (.multicast off bytes (x.gangTiles s.curTile) x.cox.mcdelay.toNat x.member))
        else .wait)

/-! ## Atomics (R270) -/

/-- R270: the atomic forms of `ST`. A local one acts in cycle `c + 1`, after every earlier store, and its old value
is an element at the end of cycle `c + 4` (log entry 9, DEDUCED); the word retires with that element. -/
def State.atomic (s : State) (g : CGuard) (a : Fin 64) (off : BitVec 32) (signed : Bool) (op : SatOp) (b : XRf)
    (extra : List COp) : State :=
  s.runClosing g ([.x a, b.op] ++ extra) fun v s1 =>
    let x := s.tile s.curTile
    let va := nth v 0 + sextImm off
    if misaligned va 8 then .fault cMISALIGN 0 va
    else
      match x.locate va.toNat with
      | .outside | .multicast _ => .fault cWINDOW 0 va
      | .own o =>
        if x.cox.rfRoom then
          .done (s1.modCox s1.curTile fun c =>
            (c.placeLocal false).send (s.gtime + 1) (.atomic o op signed (nth v 1) (nth v 2) c.nextReq))
        else .wait
      | .member u o =>
        if s.holding then .fault cPROT 0 va
        else if x.cox.rfRoom then
          .done (s1.longLatency false true x.cox.pc (.winAtomic u o op signed (nth v 1) (nth v 2)))
        else .wait

/-- `ST` in an atomic form (R270). -/
def execStAtomic (g : CGuard) (a : Fin 64) (off : BitVec 32) (signed : Bool) (op : AtomOp) (b : XRf) (s : State) : Out :=
  .next (s.atomic g a off signed (.op op) b [])

/-- `ST` with compare-and-swap (R270). -/
def execStCas (g : CGuard) (a : Fin 64) (off : BitVec 32) (signed : Bool) (b : XRf) (c : Fin 64) (s : State) : Out :=
  .next (s.atomic g a off signed (.cas (.x c)) b [.x c])

end Sys2Proof.Machine
end

