-- ==== Sys2Proof/Machine/Flits.lean ====
section
/-! DEFINITION. Flits as they are sent (R19, R21, R153, R154), what of a tile is still on its way (R291), and the waits of
a release (R294) and of the reads of a fence (R298). -/

namespace Sys2Proof.Machine

open Sys2Proof

/-! ## Classes, stations and sequence (R18, R21, R153, R154) -/

/-- R153: the place of a class in its order. -/
def Cls.ix : Cls → Nat
  | .req => 0 | .write => 1 | .signal => 2 | .response => 3 | .control => 4 | .maint => 5

/-- R154: the key of a triple. -/
def tripleKey (src dst : Nat) (c : Cls) : Nat := (src * 528 + dst) * 6 + c.ix

/-- R153: the key of an ingress buffer. -/
def ingressKey (st : Nat) (c : Cls) : Nat := 6 * st + c.ix

/-- A station of the package. -/
def station (d : DieId) (st : Nat) : Nat := 132 * d.val + st
/-- A tile's station. -/
def tileStation (t : TileId) : Nat := station (dieOf t) (stationOf t)
/-- A home's station (R21). -/
def homeStation (h : HomeId) : Nat := 132 * (h.val / 2) + 128 + h.val % 2

/-- A message is put in line at its station; `timed` marks the traffic of a timed Portage command (R152). What answers such a
command, from a home or another member, is no flit of its own station and is not timed. (Log entry 14, DESIGN CHOICE.) -/
def State.sendFlit (s : State) (src dst : Nat) (c : Cls) (m : Msg) (timed : Bool := false) : State :=
  s.modDie (Fin.ofNat 4 (src / 132)) fun x =>
    { x with stations := x.stations.set (src % 132) (x.stations.get (src % 132) [] ++ [⟨src, dst, c, 0, 0, timed, m⟩]) }

/-- R154: a station numbers a flit in its triple as it injects it, and tells a REQ how many WRITE flits it injected before; a
flit that crosses a bridge keeps its numbers. -/
def State.number (s : State) (d : DieId) (st : Nat) (f : Flit) : State × Flit :=
  if f.src ≠ station d st then (s, f)
  else
    let x := s.die d
    let k := tripleKey f.src f.dst f.cls
    let n := x.seqOut.get k 0
    (s.modDie d fun x => { x with seqOut := x.seqOut.set k (n + 1) },
      { f with seq := n, writesBefore := x.seqOut.get (tripleKey f.src f.dst .write) 0 })

/-- R227: the station of the processor of port `p`. -/
def cpStation (p : CpId) : Nat := homeStation (homeOf (p.val / 8) (p.val % 2))

/-- R363: the working ports of the package, those of a die first. -/
def Fabric.working (f : Fabric) (d : Nat) : List Nat :=
  (numbersFrom (8 * d) 8 ++ List.range 32).filter fun p => !f.linkRetired.contains p

/-- R228, R363: can the package send nothing: have its ports left the domain, or does none work? -/
def Fabric.cut (f : Fabric) : Bool := f.outOfDomain || (f.working 0).isEmpty

/-- R227, R363: the station at which a die's traffic for other packages leaves: that of its lowest working port, or of the
package's. Where none works, what comes to port 0 is kept there and not sent. (Log entry 27, DESIGN CHOICE.) -/
def State.portStation (s : State) (d : DieId) : Nat := cpStation (Fin.ofNat 32 ((s.fab.working d.val).headD (8 * d.val)))

/-- The home that a virtual address is served at. -/
def State.homeOfVa (s : State) (t : TileId) (va : Nat) : HomeId :=
  match s.pageFor t va with
  | some p => homeFor (pteTier p.pte) (p.at' va)
  | none => homeOf (dieOf t).val 0

/-! ## What is still on its way (R291, R294) -/

/-- Every flit of the package. -/
def State.allFlits (s : State) : List Flit :=
  s.dies.flatMap fun x => x.2.slots.map Prod.snd ++ (x.2.stations.flatMap Prod.snd) ++ x.2.ingress.flatMap Prod.snd

/-- Does a request of a tile before `id`, of the kind that `p` names, travel or wait at its home? -/
def State.travelling (s : State) (t : TileId) (id : Nat) (p : ReqAct → Bool) : Bool := s.allFlits.any fun f =>
  match f.msg with
  | .req u r => u == t && decide (r.id < id) && p r.act
  | _ => false

/-- Does a request of a tile before `id` still wait to leave? -/
def Tile.unsent (x : Tile) (id : Nat) (p : ReqAct → Bool) : Bool := x.reqs.any fun r => decide (r.id < id) && p r.act

/-- Window stores. -/
def ReqAct.isWindowStore : ReqAct → Bool
  | .winStore .. | .winAtomic .. | .multicast .. => true
  | _ => false

/-- Role-space writes and Signal operations. `EXTFREE` and `RECAST`, which wait for engines to drain (R81, R88), are none. -/
def ReqAct.isHomeWrite : ReqAct → Bool
  | .sts .. | .close .. | .adda .. | .signal .. | .extnew .. => true
  | _ => false

/-- Role-space accesses (R81). -/
def ReqAct.isRole : ReqAct → Bool
  | .ldi .. | .lds .. | .sts .. | .close .. | .adda .. | .extnew .. | .extq .. | .extfree .. | .recast .. => true
  | _ => false

/-- R294, `.tile`: has every local store of the Cox landed? -/
def Tile.storesLanded (x : Tile) : Bool := !x.cox.flight.any fun l =>
  match l.w with
  | .store .. | .atomic .. => true
  | _ => false

/-- Are multicast granules that tile `t` issued still to land? -/
def Tile.mcPending (x : Tile) (t : TileId) : Bool := !x.mcQueue.isEmpty || x.delay.any fun g => g.src == t

/-- R294, `.gang`: have the window and multicast stores been written at their members? -/
def State.windowLanded (s : State) (t : TileId) (id : Nat) : Bool :=
  let x := s.tile t
  !x.unsent id ReqAct.isWindowStore && !s.travelling t id ReqAct.isWindowStore && !x.mcPending t &&
    !s.tiles.any fun u => u.2.winIn.any fun w => w.1 = t.val

/-- R294, `.die` and `.pkg`: have homes accepted the role-space writes and Signal operations? -/
def State.homesAccepted (s : State) (t : TileId) (id : Nat) : Bool :=
  let x := s.tile t
  !x.unsent id ReqAct.isHomeWrite && !s.travelling t id ReqAct.isHomeWrite && !x.scOps.any fun o => decide (o.2.id < id)

/-- R294, `.dom`: has every packet that the tile sent before request `id` been acknowledged? -/
def State.packetsAcked (s : State) (t : TileId) (id : Nat) : Bool :=
  !(s.fab.sent.any fun k => match k.from' with
    | some (u, r) => u == t && decide (r.id < id)
    | none => false) &&
    !s.fab.groups.any fun g => g.2.owner == t && g.2.st != .free && g.2.unacked != 0

/-- R294, R298: is every write of the Cox before request `id` in place? -/
def State.writesDone (s : State) (t : TileId) (id : Nat) : Bool :=
  (s.tile t).storesLanded && s.windowLanded t id && s.homesAccepted t id

/-- R294, R296: is the release wait of a word whose request has number `id` over at a scope? From the gang on, writes
of role space and Signal words count among what must be visible. (Log entry 32, DEDUCED.) -/
def State.released (s : State) (t : TileId) (id : Nat) : Scope → Bool
  | .tile => (s.tile t).storesLanded
  | .gang | .die | .pkg => s.writesDone t id
  | .dom => s.writesDone t id && s.packetsAcked t id

/-- R298: has every read of the Cox delivered its data? -/
def State.readsDelivered (s : State) (t : TileId) : Bool :=
  let x := s.tile t
  x.cox.rf.all (fun e => e.data.isSome) && !x.reqs.any (fun r => match r.act with
    | .ldi .. | .lds .. | .winLoad .. => true
    | _ => false) &&
  !s.travelling t x.cox.nextReq (fun a => match a with
    | .ldi .. | .lds .. | .winLoad .. => true
    | _ => false) &&
  !x.cox.flight.any fun l => match l.w with
    | .load .. | .xLoad .. => true
    | _ => false

end Sys2Proof.Machine
end

