-- ==== Sys2Proof/Machine/Banks.lean ====
section
/-! DEFINITION. The banks of a scratchpad (R161): the line reads and line writes that each serves in a cycle, at most two of
each, and the accesses that wait for one. -/

namespace Sys2Proof.Machine

open Sys2Proof

/-! ## What a bank has served (R161) -/

/-- R161: the kinds of what `Tile.used` counts: line reads and line writes of this cycle, line reads that the next cycle makes,
and whether a write of the Cox has landed in this cycle. -/
inductive LineKind where
  | read | write | ahead | landed
deriving DecidableEq, Repr

/-- The key of a bank and a kind. -/
def LineKind.key (k : LineKind) (bank : Nat) : Nat :=
  4 * bank + match k with
    | .read => 0
    | .write => 1
    | .ahead => 2
    | .landed => 3

/-- The 64-byte lines that addresses lie in. -/
def linesOf (l : List Nat) : List Nat := (l.map fun a => a / 64).eraseDups

/-- The banks of lines, each with how many of the lines it holds. -/
def banksOf (lines : List Nat) : List (Nat × Nat) :=
  ((lines.map fun l => l / 1024).eraseDups).map fun b => (b, (lines.filter fun l => l / 1024 = b).length)

/-- R161: can the banks serve an access to these lines in this cycle? One that needs more than two lines of a bank takes the
bank alone. (Log entry 44, DESIGN CHOICE.) -/
def Tile.linesFit (x : Tile) (k : LineKind) (lines : List Nat) : Bool :=
  (banksOf lines).all fun b => decide (x.used.get (k.key b.1) 0 + min 2 b.2 ≤ 2)

/-- The lines are served. -/
def Tile.useLines (x : Tile) (k : LineKind) (lines : List Nat) : Tile :=
  { x with used := (banksOf lines).foldl (fun m b => m.set (k.key b.1) (m.get (k.key b.1) 0 + min 2 b.2)) x.used }

/-- R161: the next cycle begins: the reads that were to be made in it are its first. -/
def Tile.nextLines (x : Tile) : Tile :=
  { x with used := x.used.filterMap fun m => if m.1 % 4 = 2 then some (m.1 - 2, m.2) else none }

/-! ## Multicast (R160, R161) -/

/-- The lines that multicast granules write at the end of this cycle: at a fixed cycle (R159), and served before the Cox and
the output ports. -/
def Tile.mcLines (x : Tile) (now : Nat) : List Nat :=
  linesOf ((x.delay.filter fun g => g.due ≤ now).flatMap fun g => g.bytes.map fun b => g.off + b.1)

/-- May an access of the Cox or of an output port write these lines now? -/
def Tile.writesFit (x : Tile) (now : Nat) (lines : List Nat) : Bool :=
  (x.useLines .write (x.mcLines now)).linesFit .write lines

/-! ## The Cox (R163, R254, R269, R270) -/

/-- The local access of a result in flight: its address, and whether it reads and whether it writes. -/
def CoxWrite.access : CoxWrite → Option (Nat × Bool × Bool)
  | .store a _ => some (a, false, true)
  | .load a .. => some (a, true, false)
  | .atomic a .. => some (a, true, true)
  | _ => none

/-- Is it an access to a bank? -/
def CoxWrite.inBank (w : CoxWrite) (bank : Nat) : Bool :=
  match w.access with
  | some (a, _) => a / 65536 == bank
  | none => false

/-- R161, R163: may the result of the Cox at place `i` of those in flight land now? A local access is served in the cycle from
which it is due as soon as its bank can, after the Cox's earlier accesses to the bank; none reads a bank in a cycle in which a
write of the Cox has landed in it. -/
def Tile.served (x : Tile) (now i : Nat) (l : CoxLand) : Bool :=
  decide (l.due ≤ now) &&
    match l.w.access with
    | none => true
    | some (a, rd, wr) =>
      !((x.cox.flight.take i).any fun e => e.w.inBank (a / 65536)) &&
        (!rd || (x.linesFit .read [a / 64] && x.used.get (LineKind.landed.key (a / 65536)) 0 == 0)) &&
        (!wr || x.writesFit now [a / 64])

/-- R254: has an access of the Cox waited for its bank beyond the cycle in which it was to be served? -/
def Cox.bankWaits (c : Cox) (now : Nat) : Bool := c.flight.any fun l => l.w.access.isSome && decide (l.due < now)

/-- What an access of the Cox takes of its bank. -/
def Tile.useAccess (x : Tile) (w : CoxWrite) : Tile :=
  match w.access with
  | none => x
  | some (a, rd, wr) =>
    let x := if rd then x.useLines .read [a / 64] else x
    if wr then (x.useLines .write [a / 64]).useLines .landed [a / 64] else x

/-! ## Ports (R161, R170) -/

/-- The bytes that the fetch of a vector reads. -/
def Tile.fetchBytes (x : Tile) (p : PortSet) (j : Nat) : List Nat :=
  let a := p.addr j
  let fmt := x.bankFmt a
  if (vectorFault fmt a).isSome then []
  else
    let n := 4 * portLane fmt
    numbersFrom a n ++
      (if fmtKind fmt = 5 then (List.range 32).map fun k =>
          bankScaleAddr fmt a (((a % 65536) * 8 / portLane fmt + k) / fmtBlockLen fmt)
        else if fmtKind fmt = 8 ∨ fmtKind fmt = 9 then (List.range 32).map fun k =>
          bankScaleAddr fmt a ((a % 65536 + 4 * k) / fmtP fmt)
        else [])

/-- Their lines. -/
def Tile.fetchLines (x : Tile) (p : PortSet) (j : Nat) : List Nat := linesOf (x.fetchBytes p j)

/-- R161: the reads of the Cox that come first in this cycle. -/
def Tile.coxReads (x : Tile) (now : Nat) : Tile :=
  x.useLines .read ((x.cox.flight.filter fun l => decide (l.due ≤ now)).filterMap fun l =>
    match l.w.access with
    | some (a, true, _) => some (a / 64)
    | _ => none)

/-- R170: the positions that an input port has fetched between two states of its tile. -/
def Tile.fetched (x y : Tile) (n : Fin 12) : List Nat :=
  let p := x.port n
  let q := y.port n
  if q.set.isNone ∨ (p.set = q.set ∧ p.pos = q.pos ∧ p.lead = q.lead) then []
  else if p.set = q.set ∧ p.pos < q.pos then numbersFrom (p.pos + 4) (q.pos - p.pos)
  else numbersFrom q.pos 4

/-- The lines that those fetches read. -/
def Tile.portLines (x y : Tile) (n : Fin 12) : List Nat := match (y.port n).set with
  | none => []
  | some p => (x.fetched y n).flatMap (x.fetchLines p)

/-- Has the port popped its oldest vector? -/
def Tile.popped (x y : Tile) (n : Fin 12) : Bool :=
  let p := x.port n
  let q := y.port n
  q.set.isSome && p.set == q.set && decide (p.pos < q.pos)

/-- R356, R171: what the fetches of a port have read; where that is beyond correction the event is held with the vector. -/
def State.checkFetches (s : State) (t : TileId) (x : Tile) (n : Fin 12) : State :=
  let q := (s.tile t).port n
  match q.set with
  | none => s
  | some p => (x.fetched (s.tile t) n).foldl (fun s j =>
    match s.checkSites ((x.fetchBytes p j).flatMap fun a => spSites t a 1) with
    | (s, none) => s
    | (s, some _) => s.modTile t fun y => y.modPort n fun q => { q with lead := q.lead.set (j - q.pos) (.fault cMCSRAM) }) s

/-- R353, R171: a V word, in state `u` after it, has popped vectors out of port buffers and fetched others. A vector that has gone bad
is a contained event where it has been popped; one that has been discarded raises nothing. -/
def State.checkPorts (s : State) (t : TileId) (u : State) : State :=
  if s.dev.flaws.isEmpty then u
  else
    let x := s.tile t
    let ports : List (Fin 12) := (List.range 8).map (Fin.ofNat 12)
    match s.goodRead t ((ports.filter fun n => x.popped (u.tile t) n).map (.lead t)) with
    | (s', false) => s'.modEng t .v fun g => { g with stopped := true }
    | (s', true) =>
      let u := if s'.dev.flaws = s.dev.flaws then u else
        { u with dies := s'.dies, dev := { u.dev with flaws := s'.dev.flaws } }
      let gone := ports.filter fun n => !(x.fetched (u.tile t) n).isEmpty && !x.popped (u.tile t) n
      ports.foldl (fun u n => u.checkFetches t x n) (u.modDev fun d => d.dropFlaws fun k => gone.any fun n => k == .lead t n)

/-- R161, R170: a V word that has issued has made its fetches; where their banks cannot serve them in this cycle, the word waits
and nothing has happened. -/
def State.ported (s : State) (t : TileId) (u : State) : State :=
  let x := s.tile t
  let lines := (List.range 8).flatMap fun n => x.portLines (u.tile t) (Fin.ofNat 12 n)
  if lines.isEmpty then s.checkPorts t u
  else if (x.coxReads s.gtime).linesFit .read lines then (s.checkPorts t u).modTile t fun y => y.useLines .read lines
  else s

/-- The same of what a meaning answers. -/
def State.portedOut (s : State) (t : TileId) : Out → Out
  | .next u => .next (s.ported t u)
  | o => o

end Sys2Proof.Machine
end

