-- ==== Sys2Proof/Machine/Portage.lean ====
section
/-! DEFINITION. Scatter-gather elements (R129, R137, R138), the sides, sizes and formats of a copy (R131, R132, R134),
and the checks that a command makes when it starts (R130, R139 to R144). -/

namespace Sys2Proof.Machine

open Sys2Proof

/-! ## Elements (R129) -/

/-- An element; `list` is the index list of `CGATH` and `CSCAT` (R140). -/
structure Elem where
  src : Nat
  dst : Nat
  len : Nat
  rows : Nat
  sstr : Nat
  dstr : Nat
  fmto : Lane
  space : Nat
  ctl : Nat
  next : Nat
  pred : Nat
  sig : Nat
  aux : Nat
  list : List Nat
deriving DecidableEq, Repr

/-- The number in `n` bytes at an offset. -/
def fieldAt (l : List Byte) (off n : Nat) : Nat := ofBytes ((l.drop off).take n)

/-- R129: the fields of 64 bytes. -/
def elemOf (l : List Byte) : Elem where
  src := fieldAt l 0x00 8
  dst := fieldAt l 0x08 8
  len := fieldAt l 0x10 4
  rows := fieldAt l 0x14 4
  sstr := fieldAt l 0x18 8
  dstr := fieldAt l 0x20 8
  fmto := BitVec.ofNat 32 (fieldAt l 0x28 4)
  space := fieldAt l 0x2C 1
  ctl := fieldAt l 0x2D 1
  next := fieldAt l 0x2E 2
  pred := fieldAt l 0x30 8
  sig := fieldAt l 0x38 4
  aux := fieldAt l 0x3C 4
  list := []

/-- Source space. -/
def Elem.ss (e : Elem) : Nat := bitsOf e.space 0 4
/-- Destination space. -/
def Elem.ds (e : Elem) : Nat := bitsOf e.space 4 4
/-- OP. -/
def Elem.op (e : Elem) : Nat := bitsOf e.ctl 0 4
/-- FOV. -/
def Elem.fov (e : Elem) : Nat := bitsOf e.ctl 4 2
/-- SKIP. -/
def Elem.skip (e : Elem) : Bool := bitOf e.ctl 6
/-- SIG.EN. -/
def Elem.sigEn (e : Elem) : Bool := bitOf e.sig 31
/-- Does SKIP read a Signal word (R133)? -/
def Elem.predSignal (e : Elem) : Bool := e.skip && bitOf e.pred 63

/-- Scopes by code (R54). -/
def scopeOf : Nat → Option Scope
  | 0 => some .tile
  | 1 => some .gang
  | 2 => some .die
  | 3 => some .pkg
  | 4 => some .dom
  | _ => none

/-! ## Commands -/

/-- What a command does with its elements. -/
inductive PKind where
  | copy | reduce | fill | gath | scat | chain | seal | opld | ovl | wtx | tce | prb
deriving DecidableEq, Repr

/-- The kind of a command that names an element, with its operands. -/
def elemCmd : Instr → Option (PKind × ElemOp)
  | .cpy o => some (.copy, o)
  | .cpyt o _ => some (.copy, o)
  | .cpyr o => some (.reduce, o)
  | .cfill o => some (.fill, o)
  | .cgath o => some (.gath, o)
  | .cscat o => some (.scat, o)
  | .csg o => some (.chain, o)
  | .cseal o => some (.seal, o)
  | .copld o _ => some (.opld, o)
  | .covl o => some (.ovl, o)
  | .cwtx o => some (.wtx, o)
  | .ctce o => some (.tce, o)
  | .cprb o => some (.prb, o)
  | _ => none

/-- The rounding mode of a command. -/
def PCmd.rm (c : PCmd) : Rm :=
  match elemCmd c.instr with
  | some (_, o) => o.rm
  | none => .rne

/-- R127: the element address. -/
def PCmd.ea (c : PCmd) : Nat :=
  match elemCmd c.instr with
  | some (_, o) =>
    match o.base with
    | .none => 64 * o.index.toNat
    | .arga => (c.a.toNat % 2 ^ 20 + 64 * o.index.toNat) % 2 ^ 20
    | .argb => (c.b.toNat % 2 ^ 20 + 64 * o.index.toNat) % 2 ^ 20
  | none => 0

/-- The kind of an element that a chain reaches (R137). -/
def PKind.resolve (k : PKind) (e : Elem) : PKind :=
  match k with
  | .chain | .seal => if e.op = 0 then .copy else .reduce
  | k => k

/-- R137: the address of element `n` of the chain that begins at `ea`. -/
def chainAddr (sp : Memory) (ea : Nat) : Nat → Nat
  | 0 => ea
  | n + 1 => 64 * (sp.readNat (chainAddr sp ea n + 0x2E) 2)

/-! ## The static checks of an element (R130, step 2) -/

/-- R131, R139 to R144: the space codes of a kind. -/
def spacesOk (k : PKind) (e : Elem) : Bool :=
  match k with
  | .copy | .reduce | .gath | .scat | .chain | .seal => decide (e.ss ≤ 1) && decide (e.ds ≤ 1)
  | .fill => e.ss == 0 && decide (e.ds ≤ 1)
  | .opld => e.ss == 1 && e.ds == 2
  | .ovl => decide (e.ss ≤ 1) && decide (3 ≤ e.ds) && decide (e.ds ≤ 7)
  | .wtx => e.ss == 0 && e.ds == 0
  | .tce => e.ss == 1 && e.ds == 1
  | .prb => e.ss == 0 && e.ds == 1

/-- R135: OP. -/
def opOk (k : PKind) (e : Elem) : Bool :=
  match k with
  | .reduce => e.op != 0 && decide (e.op ≤ 3)
  | .scat | .chain | .seal => decide (e.op ≤ 3)
  | _ => e.op == 0

/-- R129: AUX is reserved but where a command's entry uses it. -/
def auxOk (k : PKind) (e : Elem) : Bool :=
  match k with
  | .gath | .scat => true
  | .tce => e.aux / 512 == 0
  | _ => e.aux == 0

/-- R139, R141, R144: FOV, and the strides of `CTCE`. -/
def fovOk (k : PKind) (e : Elem) : Bool :=
  match k with
  | .fill | .opld => e.fov == 0
  | .tce => e.fov == 2 && (e.fmto == 0x80000006 || e.fmto == 0x90000006) && e.sstr / 2 ^ 20 == 0 &&
      (bitsOf e.dstr 20 43 == 0)
  | _ => e.fov == 0 || fmtWf e.fmto

/-- R129, R133: the reserved bits, scopes and predicate address. -/
def Elem.fieldsOk (e : Elem) : Bool :=
  !bitOf e.ctl 7 && bitsOf e.sig 17 11 == 0 && (!e.sigEn || (scopeOf (bitsOf e.sig 28 3)).isSome) &&
  bitsOf e.pred 20 40 == 0 && (e.skip || e.pred == 0) &&
  (!e.predSignal || (scopeOf (bitsOf e.pred 60 3)).isSome) &&
  (!e.skip || e.predSignal || bitsOf e.pred 0 3 == 0)

/-- R130, step 2, as far as the element alone shows it. -/
def Elem.staticOk (k : PKind) (e : Elem) : Bool :=
  e.fieldsOk && spacesOk k e && opOk k e && auxOk k e && fovOk k e

/-! ## Rows (R129, R140) -/

/-- R140: the element with its index list, as the tile's scratchpad holds it: a row keeps the index that it has when the
element begins. (Log entry 54, DESIGN CHOICE.) -/
def State.listed (s : State) (t : TileId) (k : PKind) (e : Elem) : Elem :=
  if k = .gath ∨ k = .scat then
    { e with list := (List.range (min e.rows 262144)).map fun r => (s.tile t).sp.readNat (e.aux + 4 * r) 4 }
  else e

/-- R140: the index of row `r`. -/
def Elem.rowIndex (e : Elem) (r : Nat) : Nat := e.list.getD r 0

/-- R140: is row `r` skipped? -/
def Elem.rowSkipped (e : Elem) (k : PKind) (r : Nat) : Bool :=
  (k == .gath || k == .scat) && e.rowIndex r == 0xFFFFFFFF

/-- The address of row `r`, modulo 2^64. -/
def rowAt (base stride r : Nat) : Nat := wrapInt 64 ((base : Int) + (r : Int) * sextNat 64 stride)

/-- Source address of row `r`. -/
def Elem.srcRow (e : Elem) (k : PKind) (r : Nat) : Nat := rowAt e.src e.sstr (if k = .gath then e.rowIndex r else r)

/-- Destination address of row `r`. -/
def Elem.dstRow (e : Elem) (k : PKind) (r : Nat) : Nat := rowAt e.dst e.dstr (if k = .scat then e.rowIndex r else r)

/-- The rows that move. -/
def Elem.liveRows (e : Elem) (k : PKind) : List Nat := (List.range e.rows).filter fun r => !e.rowSkipped k r

/-! ## Formats of the sides (R102, R134) -/

/-- The tile and offset of a local address, if it has one; the multicast window stands for the tile itself. -/
def State.localAt (s : State) (t : TileId) (a : Nat) : Option (TileId × Nat) :=
  match (s.tile t).locate a with
  | .own off | .multicast off => some (t, off)
  | .member u off => some (u, off)
  | .outside => none

/-- R102: the bank format at a local address, as it was when the command issued. -/
def State.localFmt (s : State) (t : TileId) (c : PCmd) (a : Nat) : Option Lane :=
  (s.localAt t a).map fun x =>
    (c.bfmts.get x.1.val (Vector.replicate 16 (0 : Lane)))[(Fin.ofNat 16 (x.2 / 65536))]

/-- The extent of a virtual address, if it has one. -/
def State.extentAt (s : State) (t : TileId) (va : Nat) : Option (Nat × Extent) :=
  match s.pageFor t va with
  | some p => (s.extent? (pteExt p.pte)).map fun e => (pteExt p.pte, e)
  | none => none

/-- The formats that a side's rows lie in, each of `len` bytes. -/
def State.sideFmts (s : State) (t : TileId) (c : PCmd) (space : Nat) (rows : List Nat) (len : Nat) : List Lane :=
  match space with
  | 0 =>
    match rows.head? with
    | some a => ((s.extentAt t a).map fun e => e.2.fmt).toList
    | none => []
  | 1 => (rows.flatMap fun a => (numbersFrom (a / 65536) ((a + len - 1) / 65536 + 1 - a / 65536)).filterMap fun b =>
      s.localFmt t c (65536 * b)).eraseDups
  | _ => [0]

/-- Source elements of a row of `len` bytes; none when the number is not whole (R132). -/
def rowCount (fmt : Lane) (len : Nat) : Option Nat :=
  if fmtKind fmt = 8 ∨ fmtKind fmt = 9 then (if len % fmtP fmt = 0 then some (len / fmtP fmt * 64) else none)
  else if len * 8 % fmtContainer fmt = 0 then some (len * 8 / fmtContainer fmt) else none

/-- Bytes of `n` elements in the element area of a format. -/
def rowBytes (fmt : Lane) (n : Nat) : Nat :=
  if fmtIsBlock fmt then ceilDiv n (fmtBlockLen fmt) * fmtP fmt else ceilDiv (n * fmtContainer fmt) 8

/-- Is a kind one that moves bytes unchanged? -/
def PKind.bytewise : PKind → Bool
  | .fill | .opld | .ovl | .tce | .prb => true
  | _ => false

/-- What an element's rows are: the formats of its sides, source elements and bytes of a row on either side, and whether
its bytes move unchanged because a side is raw (R112); the elements are then bytes. -/
structure Plan where
  sfmt : Lane
  dfmt : Lane
  n : Nat
  slen : Nat
  dlen : Nat
  raw : Bool
deriving DecidableEq, Repr

/-- The format in which the source moves. -/
def Plan.src (p : Plan) : Lane := if p.raw then 0 else p.sfmt
/-- The format in which the destination moves. -/
def Plan.dst (p : Plan) : Lane := if p.raw then 0 else p.dfmt

/-- R112, R130: may a copy convert so? -/
def convertOk (sfmt dfmt : Lane) : Bool :=
  sfmt == dfmt ||
    ((fmtKind dfmt != 8 && fmtKind dfmt != 9) &&
      (if fmtKind sfmt = 0 ∨ fmtKind dfmt = 0 then fmtContainer sfmt == fmtContainer dfmt else true))

/-- R135: the destinations and formats of a reduce; the multicast window is left to WINDOW. A raw source holds no
values, and is refused for scratchpad as for an A segment. (Log entry 51, DESIGN CHOICE.) -/
def State.reduceOk (s : State) (t : TileId) (e : Elem) (p : Plan) (d : Nat) : Bool :=
  fmtKind p.sfmt != 0 &&
    (if e.ds = 0 then
      e.op == 1 &&
        (match s.extentAt t d with
          | some (id, x) =>
            match x.segOf (x.elemsAt (d - x.base)).1 with
            | some (k, g) => ((s.seg? t id k).getD g).st == .a
            | none => false
          | none => true)
    else decide (fmtKind p.dfmt ∈ [1, 2, 3, 4, 6, 7]))

/-- R130, step 2, R134, R132: the plan of an element, or SGBAD or COPYSIZE. A side that is not mapped takes the
other's format: its first granule raises XLATE. The bytes of `CFILL`, `COPLD` and `COVL` move unchanged; the side of theirs
that has a format is held to it (R132), and may not span banks of different formats (R130). -/
def State.plan (s : State) (t : TileId) (c : PCmd) (k : PKind) (e : Elem) : Except Byte Plan :=
  if k.bytewise then
    let rows := e.liveRows k
    let sf := if k = .opld ∨ k = .ovl then s.sideFmts t c e.ss (rows.map (e.srcRow k)) e.len else []
    let df := if k = .fill then s.sideFmts t c e.ds (rows.map (e.dstRow k)) e.len else []
    if 1 < sf.length ∨ 1 < df.length then .error cSGBAD else .ok ⟨sf.headD 0, df.headD 0, e.len, e.len, e.len, true⟩
  else
    let rows := e.liveRows k
    let srcs := rows.map (e.srcRow k)
    let dsts := rows.map (e.dstRow k)
    let own := s.sideFmts t c e.ss srcs e.len
    let sown := if e.fov % 2 = 1 then [e.fmto] else own
    let dfirst := if 2 ≤ e.fov then [e.fmto] else s.sideFmts t c e.ds dsts 1
    let sfmt := sown.headD (dfirst.headD 0)
    let dfmt := dfirst.headD sfmt
    if 1 < sown.length ∨ 1 < dfirst.length then .error cSGBAD
    else
      match rowCount sfmt e.len with
      | none => if convertOk sfmt dfmt then .error cCOPYSIZE else .error cSGBAD
      | some n =>
        let raw := fmtKind sfmt == 0 || fmtKind dfmt == 0
        let p : Plan := ⟨sfmt, dfmt, if raw then e.len else n, e.len, if raw then e.len else rowBytes dfmt n, raw⟩
        if convertOk sfmt dfmt = false then .error cSGBAD
        else if e.fov < 2 ∧ 1 < (s.sideFmts t c e.ds dsts p.dlen).length then .error cSGBAD
        else if (k = .reduce ∨ (k = .scat ∧ e.op ≠ 0)) ∧ s.reduceOk t e p (dsts.headD 0) = false then .error cSGBAD
        else .ok p

/-! ## COPYSIZE (R132, R144) -/

/-- R132: on a side in a block format every row begins at a block of the element area and covers whole blocks. -/
def State.blockRowOk (s : State) (t : TileId) (space : Nat) (fmt : Lane) (n len a : Nat) : Bool :=
  !fmtIsBlock fmt ||
    (n % fmtBlockLen fmt == 0 &&
      (if space = 0 then
        match s.extentAt t a with
        | some (_, x) => (a - x.base) % fmtP fmt == 0 && decide (a - x.base + len ≤ (fmtAreas fmt x.count).1)
        | none => true
      else
        match s.localAt t a with
        | some (_, off) => off % 65536 % fmtP fmt == 0 && decide (off % 65536 + len ≤ bankElemArea fmt)
        | none => true))

/-- The sizes that a kind asks for. The container of a local row of `CFILL` is checked as the row begins, as every local row is.
(Log entry 41, DEDUCED.) -/
def State.sizesOk (s : State) (t : TileId) (k : PKind) (e : Elem) (p : Plan) : Bool :=
  let srcOk : Bool := match rowCount p.sfmt e.len with
    | some n => (e.liveRows k).all fun r => s.blockRowOk t e.ss p.sfmt n e.len (e.srcRow k r)
    | none => false
  match k with
  | .opld => e.len % 256 == 0 && e.dst % 256 == 0 && e.dstr % 256 == 0 && srcOk
  | .ovl => e.len % 4 == 0 && e.dst % 4 == 0 && e.src % 4 == 0 && e.sstr % 4 == 0 && e.dstr % 4 == 0 && srcOk
  | .tce => e.rows == 1 && e.len % 256 == 0 && e.len != 0
  | .fill =>
    match rowCount p.dfmt e.len with
    | some n => (e.liveRows k).all fun r => s.blockRowOk t e.ds p.dfmt n e.len (e.dstRow k r)
    | none => false
  | .prb => true
  | _ =>
    (e.liveRows k).all fun r =>
      s.blockRowOk t e.ss p.sfmt ((rowCount p.sfmt p.slen).getD 1) p.slen (e.srcRow k r) &&
        s.blockRowOk t e.ds p.dfmt ((rowCount p.dfmt p.dlen).getD 1) p.dlen (e.dstRow k r)

/-! ## WINDOW and the checks of single commands (R130, steps 6 and 7) -/

/-- Do `len` bytes at a local address lie in windows that exist? -/
def State.localRowOk (s : State) (t : TileId) (a len : Nat) : Bool :=
  len == 0 || ((numbersFrom (a / 1048576) ((a + len - 1) / 1048576 + 1 - a / 1048576)).all fun b =>
    (s.localAt t (1048576 * b)).isSome)

/-- R141, R144: do `len` bytes lie in the tile's own range? -/
def ownRange (a len : Nat) : Bool := decide (a + len ≤ 2 ^ 20)

/-- R143: is the tile's launch a weight-store load? -/
def State.wsLoading (s : State) (t : TileId) : Bool :=
  match s.launchOf t with
  | some l => l.record.wsload
  | none => false

/-- Bytes of a source, in any space a source can have, as a check at the start looks at them. -/
def State.srcByte (s : State) (t : TileId) (space a : Nat) : Byte :=
  if space = 0 then s.vbyte t a
  else
    match s.localAt t a with
    | some (u, off) => (s.tile u).sp.get off
    | none => 0

/-- Walks the headers of whole sections in a row (R142): their offsets and sections, none when the row is not made of
whole sections. A header whose LEN is 0 has TYPE `0xA` all the same: its section is the header alone, which no entry can
run (R59). -/
def sectionsIn (rd : Nat → Nat) (len : Nat) : Nat → Nat → Option (List (Nat × Nat))
  | 0, _ => none
  | fuel + 1, off =>
    if off = len then some []
    else
      let w := rd off
      let stop := off + 8 + 12 * bitsOf w 48 12
      if bitsOf w 60 4 ≠ 10 ∨ len < stop then none
      else (sectionsIn rd len fuel stop).map fun l => (off, bitsOf w 36 12) :: l

/-- R142: the sections of a `COVL` row; an unmapped source is left to XLATE. -/
def State.ovlRowOk (s : State) (t : TileId) (e : Elem) (r : Nat) : Bool :=
  let a := rowAt e.src e.sstr r
  let mapped := e.ss != 0 || ((numbersFrom (a / 32) (e.len / 32 + 2)).all fun g => (s.pageFor t (32 * g)).isSome)
  !mapped || (sectionsIn (fun off => ofBytes ((numbersFrom (a + off) 8).map (s.srcByte t e.ss))) e.len e.len 0).isSome

/-- The fault of step 6, with its address; the multicast window takes no reduce (R135), and nothing while MCDELAY is 0
(R159). -/
def State.windowFault (s : State) (t : TileId) (k : PKind) (e : Elem) (p : Plan) : Option (Byte × Nat) :=
  let rows := e.liveRows k
  let bad (space len : Nat) (f : Nat → Nat) : Option Nat :=
    if space = 1 then (rows.map f).find? fun a => !s.localRowOk t a len else none
  let src := bad e.ss p.slen (e.srcRow k)
  let ovlSrc := if k = .ovl ∧ e.ss = 1 then (rows.map (e.srcRow k)).find? fun a => !ownRange a p.slen else none
  let dst := (bad e.ds p.dlen (e.dstRow k)).orElse fun _ =>
    if e.ds = 1 ∧ (e.op ≠ 0 ∨ (s.cox t).mcdelay = 0) then
      (rows.map (e.dstRow k)).find? fun a => match (s.tile t).locate a with
        | .multicast _ => true
        | _ => false
    else none
  match k with
  | .tce =>
    let n := e.len / 256
    let w := if e.fmto = 0x80000006 then 8 else 12
    if !(ownRange e.src e.len && ownRange e.dst (w * n) && ownRange e.sstr n &&
        (bitOf e.dstr 63 || ownRange (bitsOf e.dstr 0 20) (4 * n))) then some (cWINDOW, e.src) else none
  | .prb => if ownRange e.dst 16 then none else some (cWINDOW, e.dst)
  | .gath | .scat =>
    if !ownRange e.aux (4 * e.rows) then some (cWINDOW, e.aux)
    else (src.orElse fun _ => dst).map fun a => (cWINDOW, a)
  | .opld => ((rows.map (e.srcRow k)).find? fun a => !ownRange a p.slen).map fun a => (cWINDOW, a)
  | .ovl => (ovlSrc.orElse fun _ => dst).map fun a => (cWINDOW, a)
  | _ => (src.orElse fun _ => dst).map fun a => (cWINDOW, a)

/-- The slot that an element of `COPLD` fills. -/
def opldSlot (e : Elem) : Nat := e.dst / 32768

/-- The fault of step 7 (R141 to R144). Where an AUX of `CGATH` or `CSCAT`, or SRC or DSTR of `CTCE`, is no multiple of
4, the rule names no fault: MISALIGN is raised here; nor does it name one for a row of `COVL` that runs past the 65,536
bytes of IMEM or of a command store: WINDOW is raised here. (Log entry 51, DESIGN CHOICE.) -/
def State.ownFault (s : State) (t : TileId) (k : PKind) (e : Elem) (p : Plan) : Option (Byte × Nat) :=
  let rows := e.liveRows k
  match k with
  | .opld =>
    let n := opldSlot e
    if 32 ≤ n ∨ ((rows.map (e.dstRow k)).any fun a => decide (a < 32768 * n) || decide (32768 * (n + 1) < a + p.dlen)) then
      some (cWINDOW, e.dst)
    else
      let x := (s.crew (crewOf t)).slot (Fin.ofNat 32 n)
      if x.st = .free ∨ x.st = .kept ∨ x.claimer ≠ laneOf t then some (cSLOTCLAIM, 0)
      else if x.readers ≠ 0 then some (cSLOTBUSY, 0)
      else none
  | .ovl =>
    if (rows.map (e.dstRow k)).any fun a => decide (65536 < a + e.len) then some (cWINDOW, e.dst)
    else if 4 ≤ e.ds ∧ (rows.all (s.ovlRowOk t e)) = false then some (cSGBAD, 0)
    else none
  | .wtx => if s.wsLoading t then none else some (cWSTORE, 0)
  | .tce => if e.src % 4 ≠ 0 ∨ (!bitOf e.dstr 63 && decide (e.dstr % 4 ≠ 0)) then some (cMISALIGN, e.src) else none
  | .prb => if e.dst % 16 ≠ 0 then some (cMISALIGN, e.dst) else none
  | .gath | .scat => if e.aux % 4 ≠ 0 then some (cMISALIGN, e.aux) else none
  | _ => none

/-- R369: does the element do what a half of a PAIR launch may not? -/
def Elem.pairBarred (k : PKind) (e : Elem) : Bool :=
  k == .wtx || e.sigEn || e.predSignal || (e.op != 0 && e.ds == 0)

/-! ## The start of an element (R130) -/

/-- What the checks of a start find. -/
inductive StartRes where
  | fault (code : Byte) (addr : Nat)
  /-- Nothing moves: the element is skipped (R133), or moves no bytes (R132). -/
  | nothing
  | run
deriving DecidableEq, Repr

/-- R133: is the predicate zero? `sig` is the Signal word that the element has read. -/
def State.skips (s : State) (t : TileId) (e : Elem) (sig : Word) : Bool :=
  if !e.skip then false
  else if e.predSignal then sig == 0
  else (s.tile t).sp.readNat (bitsOf e.pred 0 20) 8 == 0

/-- R130, steps 2 and 4 to 7, for an element of a resolved kind, whose Signal predicate reads `sig`. `CPRB` uses neither LEN
nor ROWS (R145): it probes and writes where one of them is 0 too. (Log entry 54, DESIGN CHOICE.) -/
def State.startElem (s : State) (t : TileId) (c : PCmd) (k0 : PKind) (e : Elem) (sig : Word) : StartRes :=
  let k := k0.resolve e
  let e := s.listed t k e
  if e.staticOk k0 = false then .fault cSGBAD 0
  else if e.predSignal ∧ bitsOf e.pred 17 3 ≠ 0 then .fault cPROT 0
  else if s.inPair t ∧ e.pairBarred k then .fault cPROT 0
  else
    match s.plan t c k e with
    | .error f => if f = cCOPYSIZE ∧ s.skips t e sig then .nothing else .fault f 0
    | .ok p =>
      if s.skips t e sig then .nothing
      else if s.sizesOk t k e p = false then .fault cCOPYSIZE 0
      else if k ≠ .prb ∧ (e.len = 0 ∨ e.rows = 0) then .nothing
      else
        match s.windowFault t k e p with
        | some f => .fault f.1 f.2
        | none =>
          match s.ownFault t k e p with
          | some f => .fault f.1 f.2
          | none => .run

/-- R138: is a sealed record as it should be? -/
def sealOk (rec : List Byte) (version : Nat) : Bool :=
  fieldAt rec 0x40 4 == version && fieldAt rec 0x7C 4 == (crc32c (rec.take 124)).toNat &&
    ((rec.drop 0x44).take 56).all (fun b => b == 0) && fieldAt rec 0x2E 2 == 0xFFFF

end Sys2Proof.Machine
end

