-- ==== Sys2Proof/Machine/Control.lean ====
section
/-! DEFINITION. Control flow and regions (R271, R272), the queue words (R273 to R275), the matrix resource words (R277,
R278), control and status registers (R279 to R281, R91, R383), and `TRAP` and `RFT` (R283, R333). -/

namespace Sys2Proof.Machine

open Sys2Proof

/-! ## Branches (R271, R272) -/

/-- A taken branch to `target`, when the word does not stand in a delay slot of one that was taken. -/
def State.branchTo (s : State) (target : Word) : State := s.modCox s.curTile fun c => c.take target

/-- R272: a branch word in a delay slot of a taken branch acts as `NOP`; its guard is read all the same (R55). -/
def State.runBranch (s : State) (g : CGuard) (srcs : List COp) (k : List Word → Word → State → State) : State :=
  let c := s.cox s.curTile
  if c.inSlot then s.runCox g [] fun _ s1 => .done s1
  else s.runCox g srcs fun v s1 => .done (k v c.pc s1)

/-- `BR` (R271). -/
def execBr (g : CGuard) (imm : BitVec 32) (s : State) : Out :=
  .next (s.runBranch g [] fun _ pc s1 => s1.branchTo (pc + sextImm imm))

/-- `BRL` (R271): the link is the word after the delay slots. -/
def execBrl (g : CGuard) (d : Fin 64) (imm : BitVec 32) (s : State) : Out :=
  .next (s.runBranch g [] fun _ pc s1 => (s1.sendX d (pc + 36) 1).branchTo (pc + sextImm imm))

/-- `JR` (R271). -/
def execJr (g : CGuard) (a : Fin 64) (s : State) : Out :=
  .next (s.runBranch g [.x a] fun v _ s1 => s1.branchTo (nth v 0))

/-- `RET` (R271): as `JR`. -/
def execRet (g : CGuard) (a : Fin 64) (s : State) : Out :=
  .next (s.runBranch g [.x a] fun v _ s1 => s1.branchTo (nth v 0))

/-- `BCT` (R271): the count is written whether or not the branch is taken. -/
def execBct (g : CGuard) (a : Fin 64) (imm : BitVec 32) (s : State) : Out :=
  .next (s.runBranch g [.x a] fun v pc s1 =>
    let n := nth v 0 - 1
    let s1 := s1.sendX a n 1
    if n ≠ 0 then s1.branchTo (pc + sextImm imm) else s1)

/-- `REGION` (R271): it retires at the end of its issue cycle. -/
def execRegion (g : CGuard) (s : State) : Out := .next (s.runClosing g [] fun _ s1 => .done (s1.retireAt s1.gtime))

/-! ## Queue words (R273 to R275) -/

/-- The number of entries of a queue that have not retired, with those on their way (R273). -/
def Tile.queued (x : Tile) (e : Eng) : Nat :=
  (x.eng e).queue.length + (x.reqs.filter fun r => match r.act with
    | .push f _ => f == e
    | _ => false).length

/-- The entry that an `EXEC` pushes. -/
def entryOf (o : ExecOp) (seq : BitVec 32) (budget a b : Word) : Entry :=
  let n := min budget.toNat 0xFFFFFFFF
  { seq := seq, sec := o.sec, budget0 := n, budget := n, a := a, b := b, st := .waiting, pendingWords := 0,
    retired := [], again := [] }

/-- The budget operand. -/
def budgetOp : Budget → COp
  | .imm n => .imm (n.setWidth 64)
  | .reg r => .x r

/-- `EXEC` (R273): it waits for room, writes the sequence number, and retires as its entry enters the queue. -/
def execExec (o : ExecOp) (s : State) : Out :=
  .next (s.runClosing o.g [.x o.a, .x o.b, budgetOp o.budget] fun v s1 =>
    let x := s.tile s.curTile
    if 32 ≤ x.queued o.e then .wait
    else
      let seq := (x.eng o.e).pushed + 1
      let s1 := s1.modEng s1.curTile o.e fun g => { g with pushed := seq }
      let s1 := s1.sendX o.d (seq.setWidth 64) 1
      let s1 := s1.request false true x.cox.pc (.push o.e (entryOf o seq (nth v 2) (nth v 0) (nth v 1)))
      .done (s1.retireAt (s1.gtime + Config.checkerLag)))

/-- R274: has a 32-bit count reached a value? -/
def reached (count value : BitVec 32) : Bool := decide ((count - value).toNat < 2 ^ 31)

/-- `WAITQ` (R274). -/
def execWaitq (g : CGuard) (e : Eng) (a : Src) (s : State) : Out :=
  .next (s.runCox g [a.op] fun v s1 =>
    if reached ((s.tile s.curTile).eng e).qseq ((nth v 0).setWidth 32) then .done s1 else .wait)

/-- `WAITB` (R274). -/
def execWaitb (g : CGuard) (a : Src) (s : State) : Out :=
  .next (s.runCox g [a.op] fun v s1 =>
    if reached (s.tile s.curTile).m.bret ((nth v 0).setWidth 32) then .done s1 else .wait)

/-- The code of LSTATE (R275, R281). -/
def lstateCode : LState → Nat
  | .none => 0
  | .waiting => 1
  | .held => 2

/-- R275: what `QSTAT` reads. -/
def Tile.qstat (x : Tile) : Option Eng → Word
  | some e =>
    BitVec.ofNat 64 ((x.eng e).pushed.toNat * 2 ^ 32 + (if e = .m then lstateCode x.m.lstate else 0) * 2 ^ 6 +
      (32 - x.queued e))
  | none => BitVec.ofNat 64 (x.m.bclosed.toNat * 2 ^ 32 + x.m.bret.toNat)

/-- `QSTAT` (R275). -/
def execQstat (g : CGuard) (d : Fin 64) (e : Option Eng) (s : State) : Out :=
  .next (s.runCox g [] fun _ s1 => .done (s1.sendX d ((s.tile s.curTile).qstat e) 2))

/-! ## Matrix resource words (R277, R278) -/

/-- R373: from P on a crew word raises PROT, before any other check of it. -/
def State.unlessHolding (s : State) (k : CoxRes) : CoxRes := if s.holding then .fault cPROT 0 0 else k

/-- A crew word of R278: its request acts at the end of cycle `c + 6`. -/
def State.crewWord (s s1 : State) (closing : Bool) (act : CrewAct) : CoxRes :=
  .done (s1.request false closing (s.cox s.curTile).pc (.crew act))

/-- `MLEASE` (R278). -/
def execMlease (g : CGuard) (n : Fin 128) (tb : BitVec 25) (s : State) : Out :=
  .next (s.runCox g [] fun _ s1 => s.unlessHolding (s.crewWord s1 false (.lease n.val tb.toNat)))

/-- Has a queue retired every entry pushed to it, those on their way included? -/
def Tile.drained (x : Tile) (e : Eng) : Bool := x.queued e == 0

/-- `MFREE` (R208, R278): it waits until the M queue is empty, but for a hold-up, in which it raises PROT (R373). -/
def execMfree (g : CGuard) (s : State) : Out :=
  .next (s.runCox g [] fun _ s1 =>
    s.unlessHolding (if (s.tile s.curTile).drained .m then s.crewWord s1 false .free else .wait))

/-- R278, R329: a bank or slot number, and the fault of its table; TADDR takes the number. -/
def numbered (n : Word) (fault : Fin 32 → Option Byte) (k : Fin 32 → CoxRes) : CoxRes :=
  if 31 < n.toNat then .fault cPROT 0 n
  else
    match fault (Fin.ofNat 32 n.toNat) with
    | some code => .fault code 0 n
    | none => k (Fin.ofNat 32 n.toNat)

/-- The crew of the tile at work. -/
def State.curCrew (s : State) : Crew := s.crew (crewOf s.curTile)

/-- `ACALLOC` (R278): `pd` is written, and the word retires, at the end of cycle `c + 8`. -/
def execAcalloc (g : CGuard) (d : Fin 16) (a : XImm) (s : State) : Out :=
  .next (s.runClosing g [a.op] fun v s1 =>
    s.unlessHolding (numbered (nth v 0) (fun _ => none) fun b => s.crewWord s1 true (.acalloc b.val d)))

/-- `ACOWN` (R278): the mask is checked, then the bank. -/
def execAcown (g : CGuard) (a b : XImm) (s : State) : Out :=
  .next (s.runClosing g [a.op, b.op] fun v s1 =>
    let mask := (nth v 1).toNat
    s.unlessHolding (
      if 31 < (nth v 0).toNat then .fault cPROT 0 (nth v 0)
      else if mask = 0 ∨ 15 < mask then .fault cPROT 0 0
      else numbered (nth v 0) (s.curCrew.bankFault (laneOf s.curTile)) fun n => s.crewWord s1 true (.acown n.val mask)))

/-- `ACFREE` (R278). -/
def execAcfree (g : CGuard) (a : XImm) (s : State) : Out :=
  .next (s.runClosing g [a.op] fun v s1 =>
    s.unlessHolding (numbered (nth v 0) (s.curCrew.bankFault (laneOf s.curTile)) fun n =>
      s.crewWord s1 true (.acfree n.val)))

/-- `OSCLAIM` (R278). -/
def execOsclaim (g : CGuard) (d : Fin 16) (a : XImm) (s : State) : Out :=
  .next (s.runClosing g [a.op] fun v s1 =>
    s.unlessHolding (numbered (nth v 0) (fun _ => none) fun n => s.crewWord s1 true (.osclaim n.val d)))

/-- `OSREL` (R278). -/
def execOsrel (g : CGuard) (a : XImm) (s : State) : Out :=
  .next (s.runClosing g [a.op] fun v s1 =>
    s.unlessHolding (numbered (nth v 0) (s.curCrew.slotFault (laneOf s.curTile)) fun n => s.crewWord s1 true (.osrel n.val)))

/-! ## CSRs (R279 to R281) -/

/-- STATUS (R281). -/
def Tile.status (x : Tile) : Word :=
  BitVec.ofNat 64 (x.cox.rfCount * 256 + lstateCode x.m.lstate * 16 + (if x.cox.ie then 2 else 0) +
    (if x.cox.tm then 1 else 0))

/-- WSREF (R91). (Log entry 25, DEDUCED.) -/
def wsref (defer : BitVec 16) (gtime : Nat) : Word :=
  let phase := gtime % 8192
  BitVec.ofNat 64 (defer.toNat * 2 ^ 32 + (if phase % 512 < 64 then 2 ^ 17 else 0) + phase / 512 * 2 ^ 13 + phase)

/-- SAVEST (R383). -/
def State.savest (s : State) (c : Cox) : Word :=
  BitVec.ofNat 64 ((if s.sys.bhSetv then 2 ^ 63 else 0) + s.sys.bhHoldno.toNat * 2 ^ 48 + c.savePois.toNat * 2 ^ 32 +
    c.saveSt.toNat)

/-- The value of a CSR (R279, R281). -/
def State.readCsr (s : State) (t : TileId) (n : Nat) : Word :=
  let x := s.tile t
  let c := x.cox
  match n with
  | 0x000 => x.status
  | 0x001 => c.tvec | 0x002 => c.tcause | 0x003 => c.tpc | 0x004 => c.tregion | 0x005 => c.taddr | 0x006 => c.tinfo
  | 0x010 => BitVec.ofNat 64 s.gtime
  | 0x011 => BitVec.ofNat 64 t.val
  | 0x012 => BitVec.ofNat 64 ((x.gangSize - 1) * 16 + x.member)
  | 0x013 => BitVec.ofNat 64 ((laneOf t).val * 128 + (crewOf t).val)
  | 0x014 => BitVec.ofNat 64 (s.sys.pkg.toNat * 256 + (dieOf t).val)
  | 0x015 => BitVec.ofNat 64 (x.iter.getD 0)
  | 0x016 => BitVec.ofNat 64 x.budget
  | 0x017 => c.xv ||| 1
  | 0x020 => ((x.eng .l).qseq).setWidth 64 | 0x021 => ((x.eng .v).qseq).setWidth 64
  | 0x022 => ((x.eng .m).qseq).setWidth 64 | 0x023 => ((x.eng .s).qseq).setWidth 64
  | 0x030 => c.mcdelay.setWidth 64
  | 0x031 => wsref c.defer s.gtime
  | 0x032 => (c.wheel[3] ++ c.wheel[2] ++ c.wheel[1] ++ c.wheel[0]).setWidth 64
  | 0x033 => s.savest c
  | n => if 0x40 ≤ n ∧ n ≤ 0x4F then (c.bfmt[(Fin.ofNat 16 n)]).setWidth 64 else 0

/-- `CSRR` (R280): a read of WSREF clears DEFER (R8) and closes its region. (Log entry 25, DEDUCED.) -/
def execCsrr (g : CGuard) (d : Fin 64) (csr : BitVec 12) (s : State) : Out :=
  if csr = 0x031 then
    .next (s.runClosing g [] fun _ s1 =>
      let s1 := s1.sendX d (s.readCsr s.curTile 0x031) 2
      .done ((s1.modCox s1.curTile fun c => { c with defer := 0 }).retireAt s1.gtime))
  else .next (s.runCox g [] fun _ s1 => .done (s1.sendX d (s.readCsr s.curTile csr.toNat) 2))

/-- The fields of a value that a mask names, over the old value (R8). -/
def maskWrite (old v mask : Word) : Word := (old &&& ~~~mask) ||| (v &&& mask)

/-- R280, R8: the write of a CSR as it lands: only RW fields take it. -/
def Cox.writeCsr (c : Cox) (n : Nat) (v : Word) : Cox :=
  match n with
  | 0x000 => { c with ie := v.getLsbD 1 }
  | 0x001 => { c with tvec := v &&& 0x1FFFF }
  | 0x002 => { c with tcause := maskWrite c.tcause v 0x1000 }
  | 0x003 => { c with tpc := v &&& 0xFFFF }
  | 0x004 => { c with tregion := v &&& 0xFFFF }
  | 0x017 => { c with xv := v ||| 1 }
  | n => if 0x40 ≤ n ∧ n ≤ 0x4F then { c with bfmt := c.bfmt.set (Fin.ofNat 16 n) (v.setWidth 32) } else c

/-- `CSRW` (R280): written at the end of cycle `c + 1`; an ill-formed BFMT raises PROT. A source of class 11 is the
CSR number itself. -/
def execCsrw (g : CGuard) (csr : BitVec 12) (a : Option XRf) (s : State) : Out :=
  let src := match a with
    | some x => x.op
    | none => .imm (csr.setWidth 64)
  .next (s.runCox g [src] fun v s1 =>
    let x := nth v 0
    if 0x40 ≤ csr.toNat ∧ csr.toNat ≤ 0x4F ∧ fmtWf (x.setWidth 32) = false then .fault cPROT 0 0
    else .done (s1.modCox s1.curTile fun c => c.send (s1.gtime + 1) (.csr csr x)))

/-! ## Declarations (R377, R378) -/

/-- R377: LEN of a region. -/
def MustSave.len (d : MustSave) : Nat :=
  match d.kind with
  | 1 => d.b.toNat
  | 2 => (if d.a.getLsbD 0 then 960 else 0) + (if d.a.getLsbD 1 then 8464 else 0) + (if d.a.getLsbD 2 then 7680 else 0)
  | 3 => 8960
  | 4 => 256
  | 5 => 8 * d.b.toNat
  | _ => 0

/-- R378: what GUARANTEED bytes a slot counts. -/
def guaranteed : Option MustSave → Nat
  | some d => if d.cls = 1 then d.len else 0
  | none => 0

/-- G over the slots of a Cox. -/
def Cox.guaranteed (c : Cox) : Nat := (c.mustSave.toList.map Machine.guaranteed).foldl (fun a b => a + b) 0

/-- R378: used_G of a launch: over its live iterations, the pre-empted ones among them. -/
def State.usedG (s : State) (id : BitVec 32) : Nat := s.tiles.foldl (fun n x =>
  n + (if x.2.iter.isSome ∧ x.2.place.map Place.launch = some id then x.2.cox.guaranteed else 0) +
    ((x.2.contexts.filter fun k => k.launch = id).map fun k => k.cox.guaranteed).foldl (fun a b => a + b) 0) 0

/-- R378: a declaration takes its slot as its word retires, where the quota of the launch allows it. -/
def State.declare (s : State) (t : TileId) (region : Nat) (slot : Fin 16) (new : Option MustSave) (pd : Fin 16) : State :=
  let fits : Bool := match s.launchOf t with
    | some k => decide (s.usedG k.id + guaranteed new ≤ k.record.quota + guaranteed (s.cox t).mustSave[slot])
    | none => false
  s.modCox t fun c => ({ c with mustSave := if fits then c.mustSave.set slot new else c.mustSave }).landP region pd fits

/-! ## Trap and return (R283, R333) -/

/-- `TRAP` (R283): it retires, and then raises its trap. -/
def execTrap (g : CGuard) (imm : BitVec 32) (s : State) : Out :=
  .next (s.runClosing g [] fun _ s1 =>
    .done (s1.modCox s1.curTile fun c => (c.send s1.gtime .retire).send s1.gtime (.trap imm)))

/-- `RFT` (R283, R333): with TM = 0 it raises PROT. -/
def execRft (g : CGuard) (s : State) : Out :=
  .next (s.runCox g [] fun _ s1 =>
    if (s.cox s.curTile).tm then .done (s1.returnTrap s1.curTile) else .fault cPROT 0 0)

end Sys2Proof.Machine
end

