-- ==== Sys2Proof/Machine/Role.lean ====
section
/-! DEFINITION. The extent words of the Cox as they issue (R74 to R81, R86 to R88): their checks, waits and requests. What
they do at their home stands in Machine/Home.lean. -/

namespace Sys2Proof.Machine

open Sys2Proof

/-- What the checks of an access find (R69): it may go on, it must wait, or it faults with a reason and an address. -/
inductive Chk where
  | ok
  | wait
  | fault (code : Byte) (reason : Nat) (addr : Word)
deriving DecidableEq, Repr

/-- A check as the result of a word. -/
def Chk.then' (c : Chk) (k : CoxRes) : CoxRes :=
  match c with
  | .ok => k
  | .wait => .wait
  | .fault code reason addr => .fault code (BitVec.ofNat 64 reason) addr

/-- R369, R373: a word that a half may not run, or whose request would leave from P on, raises PROT. -/
def State.barred (s : State) (pair : Bool) : Bool := s.holding || (pair && s.inPair s.curTile)

/-! ## Access by address (R76) -/

/-- The bytes `va` to `va + w - 1` of an extent's segments, as an address read finds them. (Log entry 24, DEDUCED.)
(Log entry 46, DEDUCED.) -/
def State.addrFaults (s : State) (t : TileId) (id : Nat) (e : Extent) (va w : Nat) : Chk :=
  let lo := (e.elemsAt (va - e.base)).1
  let hi := (e.elemsAt (va + w - 1 - e.base)).2
  let faults := (numbersFrom lo (hi + 1 - lo)).filterMap fun i =>
    match e.segOf i with
    | some (k, g) => ((s.seg? t id k).getD g).fault t .addr i |>.map fun f => (f.1, f.2, i)
    | none => none
  -- READONCE comes before ROLE (R69)
  match (faults.find? fun f => f.1 = cREADONCE), faults.head? with
  | some f, _ => .fault f.1 f.2.1 (BitVec.ofNat 64 (e.addr f.2.2))
  | none, some f => .fault f.1 f.2.1 (BitVec.ofNat 64 (e.addr f.2.2))
  | none, none => .ok

/-- What an extent says to a read by address (R68, R70, R84): a weight store is no memory of the Cox (R89), and its reason
names the address of the element. (Log entry 24, DEDUCED.) (Log entry 46, DEDUCED.) -/
def State.addrCheck (s : State) (t : TileId) (id : Nat) (va w : Nat) : Chk :=
  match s.extent? id with
  | none => .fault cROLE 1 (BitVec.ofNat 64 va)
  | some e =>
    if e.tier = 2 then .fault cROLE 5 (BitVec.ofNat 64 (e.addr (e.elemsAt (va - e.base)).1))
    else if s.extentWaits t id e then .wait
    else s.addrFaults t id e va w

/-- R69, R76: the checks of `LDI` at `va`. -/
def State.ldiCheck (s : State) (t : TileId) (va : Word) (w : Nat) : Chk :=
  if misaligned va w then .fault cMISALIGN 0 va
  else
    match s.translate t va.toNat .read none with
    | .error c => .fault c 0 va
    | .ok p => s.addrCheck t (pteExt p.pte) va.toNat w

/-- `LDI` in both forms (R76): repeatable; the touch form pushes nothing. (Log entry 13, DEDUCED.) -/
def State.runLdi (s : State) (o : MemOp) (touch : Bool) : State :=
  s.runCox o.g [.x o.a] fun v s1 =>
    let c := s.cox s.curTile
    let va := memAddr o (nth v 0)
    if s.holding then .fault cPROT 0 va
    else if !c.rfRoom then .wait
    else
      (s.ldiCheck s.curTile va (widthBytes o.ty.width)).then'
        (let s1 := s1.touchTlb s.curTile va.toNat
         if touch then .done (s1.request false false c.pc (.ldi va.toNat o.ty))
         else .done (s1.longLatency true false c.pc (.ldi va.toNat o.ty)))

/-- `LDI`, FIFO form (R76). -/
def execLdi (o : MemOp) (s : State) : Out := .next (s.runLdi o false)
/-- `LDI`, touch form (R76, R335); its destination `x0` or `p0` takes nothing. -/
def execLdiTouch (o : MemOp) (_toP : Bool) (s : State) : Out := .next (s.runLdi o true)

/-! ## Access by extent id (R74, R77, R78) -/

/-- R74: the extent that a register names. (Log entry 24, DEDUCED.) -/
def State.namedExtent (s : State) (v : Word) : Except Byte (Nat × Extent) :=
  if 65536 ≤ v.toNat then .error cPROT
  else
    match s.extent? v.toNat with
    | some e => .ok (v.toNat, e)
    | none => .error cPROT

/-- R69, R77: the checks of a cursor read or an append by the Cox, made as it issues. -/
def State.streamCheck (s : State) (t : TileId) (v : Word) (seg : Nat) (a : Access) (fmt : Bool) : Chk :=
  match s.namedExtent v with
  | .error c => .fault c 0 v
  | .ok (id, e) =>
    match s.seg? t id seg with
    | none => .fault cPROT 0 v
    | some g =>
      let i := if a = .cursor then g.rcur else g.wcur
      let va := e.addr (min i (e.count - 1))
      let need := if a = .cursor then Need.read else Need.write
      match (if fmt then (s.translate t va need (some id)).map fun _ => () else .ok ()) with
        | .error c => .fault c 0 (BitVec.ofNat 64 va)
        | .ok _ =>
          if fmt && (!coxFormat e.fmt || e.tier = 2) then .fault cROLE 5 (BitVec.ofNat 64 va)
          else if s.extentWaits t id e then .wait
          else
            match g.fault t a i with
            | some f => .fault f.1 f.2 (BitVec.ofNat 64 va)
            | none => if a = .cursor ∧ g.empty then .wait else .ok

/-- R84: does an access to an extent wait for its recast? -/
def State.streamWaits (s : State) (t : TileId) (id : Nat) : Bool :=
  match s.extent? id with
  | some e => s.extentWaits t id e
  | none => false

/-- `LDS` in both forms (R77): it closes its region; one that waits for an element has been received (R69).
(Log entry 13, DEDUCED.) -/
def State.runLds (s : State) (g : CGuard) (a : Fin 64) (seg : Fin 8) (touch : Bool) : State :=
  s.runClosing g [.x a] fun v s1 =>
    let c := s.cox s.curTile
    let id := nth v 0
    if s.holding then .fault cPROT 0 id
    else if !c.rfRoom then .wait
    else
      match s.streamCheck s.curTile id seg.val .cursor true with
      | .wait => if s.streamWaits s.curTile id.toNat then .wait else .waitIn (s.bind s.curTile id.toNat seg.val false)
      | chk => chk.then'
        (if touch then .done (s1.request false true c.pc (.lds id.toNat seg.val true))
         else .done (s1.longLatency false true c.pc (.lds id.toNat seg.val false)))

/-- `LDS`, FIFO form (R77). -/
def execLds (g : CGuard) (a : Fin 64) (seg : Fin 8) (s : State) : Out := .next (s.runLds g a seg false)
/-- `LDS`, touch form (R77, R335). -/
def execLdsTouch (g : CGuard) (a : Fin 64) (seg : Fin 8) (_toP : Bool) (s : State) : Out :=
  .next (s.runLds g a seg true)

/-- `STS` (R78). -/
def execSts (g : CGuard) (a b : Fin 64) (seg : Fin 8) (s : State) : Out :=
  .next (s.runClosing g [.x a, .x b] fun v s1 =>
    let id := nth v 0
    if s.holding then .fault cPROT 0 id
    else
      (s.streamCheck s.curTile id seg.val .append true).then'
        (.done (s1.request false true (s.cox s.curTile).pc (.sts id.toNat seg.val (nth v 1)))))

/-- R78: the checks of `CLOSE`: the segment's end is no fault, a closed segment is. -/
def State.closeCheck (s : State) (t : TileId) (v : Word) (seg : Nat) : Chk :=
  match s.namedExtent v with
  | .error c => .fault c 0 v
  | .ok (id, e) =>
    match s.seg? t id seg with
    | none => .fault cPROT 0 v
    | some g =>
      let a := e.addr (min g.wcur (e.count - 1))
      let va := BitVec.ofNat 64 a
      match s.translate t a .write (some id) with
      | .error c => .fault c 0 va
      | .ok _ =>
        if s.extentWaits t id e then .wait
        else
          match g.st with
          | .sOpen => if g.writer.isSome ∧ g.writer ≠ some t then .fault cROLE 2 va else .ok
          | .sClosed => if g.writer.isSome ∧ g.writer ≠ some t then .fault cROLE 2 va else .fault cSTREAMEND 0 va
          | _ => .fault cROLE 1 va

/-- `CLOSE` (R78). -/
def execClose (g : CGuard) (a : Fin 64) (seg : Fin 8) (s : State) : Out :=
  .next (s.runClosing g [.x a] fun v s1 =>
    let id := nth v 0
    if s.holding then .fault cPROT 0 id
    else
      (s.closeCheck s.curTile id seg.val).then'
        (.done (s1.request false true (s.cox s.curTile).pc (.close id.toNat seg.val))))

/-! ## Cells (R79) -/

/-- The checks of `ADDA` (R69, R79). -/
def State.addaCheck (s : State) (t : TileId) (v i : Word) : Chk :=
  match s.namedExtent v with
  | .error c => .fault c 0 v
  | .ok (id, e) =>
    if e.count ≤ i.toNat then .fault cPROT 0 i
    else
      match s.translate t (e.addr i.toNat) .write (some id) with
      | .error c => .fault c 0 (BitVec.ofNat 64 (e.addr i.toNat))
      | .ok _ =>
        if s.extentWaits t id e then .wait
        else
          match e.segOf i.toNat with
          | some (_, g) =>
            match g.fault t .add i.toNat with
            | some f => .fault f.1 f.2 (BitVec.ofNat 64 (e.addr i.toNat))
            | none => .ok
          | none => .fault cPROT 0 i

/-- `ADDA` (R79); PROT in a PAIR launch (R369). -/
def execAdda (g : CGuard) (a b c : Fin 64) (ty : AddTy) (s : State) : Out :=
  .next (s.runClosing g [.x a, .x b, .x c] fun v s1 =>
    let id := nth v 0
    if s.barred true then .fault cPROT 0 id
    else
      (s.addaCheck s.curTile id (nth v 1)).then'
        (.done (s1.request false true (s.cox s.curTile).pc (.adda id.toNat (nth v 1).toNat (nth v 2) ty))))

/-! ## Extents (R80, R81, R86 to R88) -/

/-- `EXTNEW` (R86): the record is read from the scratchpad as the word issues. -/
def execExtnew (g : CGuard) (a : Fin 64) (acap : Bool) (s : State) : Out :=
  .next (s.runClosing g [.x a] fun v s1 =>
    let x := s.tile s.curTile
    let va := nth v 0
    if s.barred true then .fault cPROT 0 va
    else if misaligned va 32 then .fault cMISALIGN 0 va
    else if 2 ^ 20 < va.toNat + 32 then .fault cWINDOW 0 va
    else if !x.cox.rfRoom then .wait
    else
      s.readsOwn s1 va.toNat 32 fun s1 =>
        .done (s1.longLatency false true x.cox.pc (.extnew ((x.spNow s.gtime).read va.toNat 32) acap)))

/-- `RECAST` (R80, R81): its arrival leaves once the tile has drained (Machine/Depart.lean). -/
def execRecast (o : RecastOp) (s : State) : Out :=
  .next (s.runClosing o.g [.x o.a, .x o.b, .x o.c] fun v s1 =>
    let id := nth v 0
    if s.barred true then .fault cPROT 0 id
    else
      match s.namedExtent id with
      | .error c => .fault c 0 id
      | .ok (n, _) =>
        .done (s1.request false true (s.cox s.curTile).pc
          (.recast n (nth v 1).toNat (nth v 2).toNat o.role o.fresh o.sig)))

/-- `EXTQ` (R87): repeatable. -/
def execExtq (g : CGuard) (a : Fin 64) (seg : Fin 8) (field : Byte) (s : State) : Out :=
  .next (s.runCox g [.x a] fun v s1 =>
    let c := s.cox s.curTile
    if s.holding ∨ 65536 ≤ (nth v 0).toNat then .fault cPROT 0 (nth v 0)
    else if !c.rfRoom then .wait
    else .done (s1.longLatency true false c.pc (.extq (nth v 0).toNat seg.val field.toNat)))

/-- `EXTFREE` (R88): once the tile has drained, its home raises PROT for a free id and ROLE for an open collective. -/
def execExtfree (g : CGuard) (a : Fin 64) (s : State) : Out :=
  .next (s.runClosing g [.x a] fun v s1 =>
    let id := nth v 0
    if s.barred true then .fault cPROT 0 id
    else if 65536 ≤ id.toNat then .fault cPROT 0 id
    else .done (s1.request false true (s.cox s.curTile).pc (.extfree id.toNat)))

end Sys2Proof.Machine
end

