-- ==== Sys2Proof/Machine/PortageRun.lean ====
section
/-! DEFINITION. Portage at work: the L and S words as they issue (R124, R125, R145), the start of commands (R126,
R130), the lines that a command reads and writes (R131 to R144, R148, R153), and retirement (R124, R141, R142). -/

namespace Sys2Proof.Machine

open Sys2Proof

/-! ## Issue (R124, R125, R146) -/

/-- R125: the time that a 32-bit field names around `now`. -/
def timeNear (now : Nat) (t : BitVec 32) : Int := (now : Int) + sextNat 32 (t.toNat + 2 ^ 32 - now % 2 ^ 32)

/-- Is a command a `CWAIT`? -/
def isCwait : Instr → Bool
  | .cwaitSignal _ | .cwaitTime .. => true
  | _ => false

/-- R124, R145: may a command of stream `e` issue into the time buffer? -/
def Tile.bufferRoom (x : Tile) (e : Eng) : Bool :=
  decide ((x.portage.buffer.filter fun c => c.stage = .buffered ∨ c.stage = .stopped).length < 64) &&
  !(x.portage.buffer.any fun c => c.stream == e && isCwait c.instr)

/-- R124, R145, R56: may a command of stream `e` with these tokens issue? -/
def Tile.cmdRoom (x : Tile) (e : Eng) (tok : Tok) : Bool := x.bufferRoom e && x.canPop e tok.pop

/-- R102: the bank formats of the tile and of its gang. -/
def State.gangFmts (s : State) (t : TileId) : Map (Vector Lane 16) :=
  let ts := match (s.tile t).place with
    | some p => if p.tiles.contains t then p.tiles else t :: p.tiles
    | none => [t]
  ts.foldl (fun m u => m.set u.val (s.cox u).bfmt) []

/-- The command of the L or S word at work, with start time `at'`, going on from `resume`. -/
def State.newCmd (s : State) (i : Instr) (tok : Tok) (at' until' : Int) (resume : Nat × Nat × Nat) : PCmd :=
  let t := s.curTile
  let e := s.curEng
  let x := s.tile t
  let g := x.eng e
  let ent := g.cur?
  { id := x.portage.nextId, stream := e, instr := i, push := tok.push, seq := g.curSeq, index := g.index,
    sec := g.curSec, t := at', startOrder := 0, a := (ent.map Entry.a).getD 0, b := (ent.map Entry.b).getD 0,
    bfmts := s.gangFmts t, stage := .buffered, prog := none, resume := resume, waitFor := until', slot := none, offset := 0,
    serial := false, mark := 0, answer := none }

/-- A command enters the time buffer. -/
def Tile.addCmd (x : Tile) (c : PCmd) : Tile :=
  { x with portage := { x.portage with buffer := x.portage.buffer ++ [c], nextId := x.portage.nextId + 1 } }

/-- A command issues into the time buffer (R124). When its entry is expanded again (R146), a word that has retired, or that
is complete and waits for room in its token FIFO (R56), is passed over, and one that had issued goes on where it stopped, its
token popped already. -/
def State.issueCmd (s : State) (i : Instr) (tok : Tok) (at' until' : Int) (ends : Bool := false) : State :=
  let t := s.curTile
  let e := s.curEng
  let x := s.tile t
  let g := x.eng e
  let n := g.cur?
  let complete := x.portage.buffer.any fun c => c.stream == e && c.seq == g.curSeq && c.index == g.index
  if complete ∨ (n.map Entry.retired).any (fun l => l.contains g.index) then
    s.modTile t fun x => x.modEng e fun g => { g.passOver ends with nextIssue := s.gtime + 1 }
  else
    match (n.bind fun n => n.again.find? fun a => a.1 = g.index) with
    | some a =>
      if x.bufferRoom e = false then s
      else s.modTile t fun x =>
        (x.modEng e fun g => { (if ends then (g.reissue g.index).issueEnd else (g.reissue g.index).issue) with
          nextIssue := s.gtime + 1 }).addCmd (s.newCmd i tok at' until' a.2)
    | none =>
      if x.cmdRoom e tok = false then s
      else s.modTile t fun x =>
        ((x.popToken e tok.pop).modEng e fun g => { (if ends then g.issueEnd else g.issue) with
          nextIssue := s.gtime + 1 }).addCmd (s.newCmd i tok at' until' (0, 0, 0))

/-- The start time of a command that may be timed (R125). -/
def State.startTime (s : State) : Option (BitVec 32) → Int
  | some t => timeNear s.gtime t
  | none => s.gtime

/-- R152: is a command timed? -/
def PCmd.timed (c : PCmd) : Bool :=
  match c.instr with
  | .cpyt .. => true
  | i =>
    match elemCmd i with
    | some (_, o) => o.timed.isSome
    | none => false

/-! ## Serialising commands and start order (R124, R126, R295) -/

/-- Does a row of `len` bytes at `va` touch an S or A segment of the extent that it begins in? -/
def State.rowInStream (s : State) (t : TileId) (va len : Nat) : Bool :=
  match s.extentAt t va with
  | some (id, e) =>
    let lo := (e.elemsAt (va - e.base)).1
    let hi := (e.elemsAt (va + (max len 1 - 1) - e.base)).2
    e.segs.zipIdx.any fun g =>
      ((s.seg? t id g.2).getD g.1).st != .i && decide (g.1.start ≤ hi) && decide (lo < g.1.stop)
  | none => false

/-- R126: does an element make its command serialising? -/
def State.elemSerial (s : State) (t : TileId) (c : PCmd) (k0 : PKind) (e : Elem) : Bool :=
  let k := k0.resolve e
  let e := s.listed t k e
  let dlen := match s.plan t c k e with
    | .ok p => p.dlen
    | .error _ => e.len
  let rows := e.liveRows k
  e.sigEn ||
    (e.ss == 0 && k != .fill && rows.any fun r => s.rowInStream t (e.srcRow k r) e.len) ||
    (e.ds == 0 && rows.any fun r => s.rowInStream t (e.dstRow k r) dlen)

/-- The elements of a chain from `ea` on, at most `n`. -/
def State.chainElems (s : State) (t : TileId) : Nat → Nat → List Elem
  | 0, _ => []
  | n + 1, ea =>
    let e := elemOf ((s.tile t).sp.read ea 64)
    e :: (if e.next = 0xFFFF then [] else s.chainElems t n (64 * e.next))

/-- R138: the virtual address of a sealed record. -/
def State.sealAddr (s : State) (t : TileId) (ea : Nat) : Nat := (s.tile t).sp.readNat ea 8

/-- R126: is a command serialising? It is settled when the command starts. -/
def State.serialising (s : State) (t : TileId) (c : PCmd) : Bool :=
  match elemCmd c.instr with
  | none => (match c.instr with
    | .csig _ | .cwaitSignal _ | .cwaitTime .. => true
    | _ => false)
  | some (.chain, _) => (s.chainElems t 16385 c.ea).any (s.elemSerial t c .chain)
  | some (.seal, _) => s.elemSerial t c .seal (elemOf (s.vread t (s.sealAddr t c.ea) 64))
  | some (k, _) => s.elemSerial t c k (elemOf ((s.tile t).sp.read c.ea 64))

/-- R295: has a started command a predicate read before it, which later commands of its stream are ordered after? -/
def State.readsAhead (s : State) (t : TileId) (c : PCmd) : Bool :=
  match c.prog with
  | none => false
  | some p =>
    match p.phase with
    | .predicate => true
    | .record => (elemOf (s.vread t (s.sealAddr t c.ea) 64)).skip
    | .rows =>
      match elemCmd c.instr with
      | some (.chain, _) =>
        let e := elemOf p.elem
        e.next != 0xFFFF && (s.chainElems t 16384 (64 * e.next)).any Elem.skip
      | _ => false

/-- R124: start order: T, then L before S, then issue order. -/
def startsBefore (a b : PCmd) : Bool :=
  decide (a.t < b.t) || (a.t == b.t &&
    ((a.stream == .l && b.stream == .s) || (a.stream == b.stream && decide (a.id < b.id))))

/-- The first of a list in start order. -/
def firstCmd : List PCmd → Option PCmd
  | [] => none
  | c :: l =>
    match firstCmd l with
    | some d => if startsBefore d c then some d else some c
    | none => some c

/-- R126, R146, R295: the command of a stream that may start now, if one may. -/
def State.startable (s : State) (t : TileId) (e : Eng) : Option PCmd :=
  let x := s.tile t
  if (x.eng e).startsMore = false then none
  else
    match firstCmd (x.portage.buffer.filter fun c => c.stream = e ∧ c.stage = .buffered) with
    | none => none
    | some c =>
      let running := x.portage.buffer.filter fun d => d.stream = e ∧ (d.stage = .started ∨ d.stage = .retiring)
      if (s.gtime : Int) < c.t then none
      else if running.any PCmd.serial ∨ running.any (s.readsAhead t) then none
      else if s.serialising t c ∧ running ≠ [] then none
      else some c

/-! ## Commands in the time buffer -/

/-- The element that a command is at, with its index list. -/
def PProgress.element (p : PProgress) : Elem := { elemOf p.elem with list := p.list }

/-- Changes a command. -/
def Tile.modCmd (x : Tile) (id : Nat) (f : PCmd → PCmd) : Tile :=
  { x with portage := { x.portage with buffer := x.portage.buffer.map fun c => if c.id = id then f c else c } }

/-- R146: an entry reports the first fault of its commands in start order. -/
def Tile.commandFault (x : Tile) (c : PCmd) (code : Byte) (info addr : Word) : Tile :=
  let earlier := x.portage.buffer.any fun d => d.stream = c.stream ∧ d.stage = .stopped ∧ d.startOrder < c.startOrder
  x.modEng c.stream fun g =>
    match g.fault with
    | some f => if earlier ∨ f.code = cDEADLINE then g else { g with fault := some ⟨code, info, addr, false⟩ }
    | none => { g with fault := some ⟨code, info, addr, false⟩ }

/-- R130, R146: the byte offset, in its row, at which a command stands after `done` elements: that of its destination.
(Log entry 21, DEDUCED.) -/
def State.rowOffset (s : State) (t : TileId) (c : PCmd) (done : Nat) : Nat :=
  match c.prog, elemCmd c.instr with
  | some p, some (k, _) =>
    let e := p.element
    match s.plan t c (k.resolve e) e with
    | .ok pl => if fmtIsBlock pl.dst then done / fmtBlockLen pl.dst * fmtP pl.dst else done * fmtContainer pl.dst / 8
    | .error _ => c.offset
  | _, _ => if done = 0 then 0 else c.offset

/-- R146: a command stops at a fault, at the ordinal, row and elements given; the first fault is the entry's. -/
def State.cmdFault (s : State) (t : TileId) (c : PCmd) (code : Byte) (reason addr : Nat) (at' : Nat × Nat × Nat) : State :=
  s.modTile t fun x =>
    (x.commandFault c code (engInfo reason (4096 * c.sec + c.index) at'.1) (BitVec.ofNat 64 addr)).modCmd c.id fun d =>
      { d with stage := .stopped, prog := none, answer := none, resume := at', offset := s.rowOffset t c at'.2.2 }

/-- R355: a command has consumed bad data, which ends its iteration: it goes no further. -/
def State.cmdHalts (s : State) (t : TileId) (c : PCmd) : State :=
  s.modTile t fun x => x.modCmd c.id fun d => { d with stage := .stopped }

/-- A command has only to retire. -/
def State.cmdOver (s : State) (t : TileId) (c : PCmd) : State :=
  s.modTile t fun x => x.modCmd c.id fun d => { d with stage := .retiring }

/-- A command runs from `p` on. -/
def State.cmdRuns (s : State) (t : TileId) (c : PCmd) (p : PProgress) : State :=
  s.modTile t fun x => x.modCmd c.id fun d => { d with stage := .started, prog := some p }

/-- A command asks a home or a member for something (R153). -/
def State.cmdAsk (s : State) (t : TileId) (c : PCmd) (dst : Nat) (cls : Cls) (a : PAsk) : State :=
  s.sendFlit (tileStation t) dst cls (.ask t c.id a) c.timed

/-- A command asks for an operation on a Signal word, at the word's home (R23, R145). -/
def State.cmdSignal (s : State) (t : TileId) (c : PCmd) (w : BitVec 17) (a : SigAct) : State :=
  (s.cmdAsk t c (homeStation (signalHome w)) .signal (.signal w a)).modTile t fun x =>
    x.modCmd c.id fun d => { d with answer := some none }

/-- The Signal operation of a command is used up. -/
def State.cmdAnswered (s : State) (t : TileId) (c : PCmd) : State :=
  s.modTile t fun x => x.modCmd c.id fun d => { d with answer := none }

/-- R212, R141: a `COPLD` into a slot starts. -/
def Crew.startFill (c : Crew) (n : Nat) : Crew :=
  c.modSlot (Fin.ofNat 32 n) fun x => { x with st := .filling, started := x.started + 1, fin := x.fin && x.st == .filling }

/-- A key for a byte of a target (R149). -/
def PTarget.key : PTarget → Nat → Nat
  | .sp t, a => (1 + t.val) * 2 ^ 24 + a
  | .slot, a => 1000 * 2 ^ 24 + a
  | .imem, a => 1001 * 2 ^ 24 + a
  | .store e, a => (1002 + e.ix.val) * 2 ^ 24 + a

/-- A key for a byte of the multicast window, and of device memory. -/
def multicastKey (a : Nat) : Nat := 1010 * 2 ^ 24 + a
/-- The same for a virtual address. -/
def deviceKey (va : Nat) : Nat := 2 ^ 48 + va

/-- R149: of the bytes that a command writes, those that no later-started command of the tile has written; they become its
own. -/
def State.claimBytes (s : State) (t : TileId) (order : Nat) (key : Nat → Nat) (bs : List (Nat × Byte × Byte)) :
    State × List (Nat × Byte × Byte) :=
  let owner := (s.tile t).portage.owner
  let mine := bs.filter fun b => (owner.get (key b.1) (0, 0)).2 ≤ order
  (s.modTile t fun x => { x with portage := { x.portage with
      owner := mine.foldl (fun m b => m.set (key b.1) (order, order)) owner } }, mine)

/-- R149: may a command reduce onto a byte: has no later-started command written it without a reduce? -/
def Portage.mayReduce (p : Portage) (order key : Nat) : Bool := decide ((p.owner.get key (0, 0)).1 ≤ order)

/-- R149: a command has reduced onto a byte. -/
def Portage.reduces (p : Portage) (order key : Nat) : Portage :=
  let o := p.owner.get key (0, 0)
  { p with owner := p.owner.set key (o.1, max o.2 order) }

/-- A write of a tile's Portage that lands at the end of the cycle. -/
def State.flies (s : State) (t : TileId) (w : PWrite) : State :=
  s.modTile t fun x => { x with portage := { x.portage with flight := x.portage.flight ++ [(none, w)] } }

/-- R145: what `CPRB` writes: the PTE, the fault of a one-byte read, and the segment's state (R87).
(Log entry 41, DEDUCED.) -/
def State.probe (s : State) (t : TileId) (va : Nat) : List Byte :=
  let pte := match s.pageFor t va with
    | some p => p.pte
    | none => 0
  let fault := match s.translate t va .read none with
    | .error c => c
    | .ok p =>
      match s.addrCheck t (pteExt p.pte) va 1 with
      | .fault c _ _ => c
      | _ => 0
  let seg := match s.extentAt t va with
    | some (_, e) =>
      match e.segOf (e.elemsAt (va - e.base)).1 with
      | some (_, g) => e.stateField g
      | none => 0
    | none => 0
  toBytes 8 pte.toNat ++ [fault, BitVec.ofNat 8 seg] ++ List.replicate 6 0

/-! ## Elements begin (R130, R133, R137, R138) -/

/-- The progress of an element that begins at a row and an element of the row. -/
def PProgress.start (bytes : List Byte) (ea ordinal : Nat) (phase : PPhase) (ran : Bool) (row done : Nat) : PProgress :=
  { elem := bytes, ea := ea, ordinal := ordinal, phase := phase, ran := ran, row := row, done := done, units := [],
    asked := [], got := [], unacked := 0, bad := none, deferred := false, list := [], late := [] }

/-- R353: the granules of the tile's scratchpad that an element reads as it begins: its predicate word, its index list, and the
metrics of `CTCE`. -/
def State.elemSites (s : State) (t : TileId) (k : PKind) (e : Elem) : List Site :=
  (if e.skip && !e.predSignal then spSites t (bitsOf e.pred 0 20) 8 else []) ++
    ((s.listed t (k.resolve e) e).list.zipIdx.flatMap fun i => spSites t (e.aux + 4 * i.2) 4) ++
    (if k = .tce then spSites t e.src e.len else [])

/-- An element that runs, or not, begins: skipped or empty ones have no row left. A `COPLD` that moves nothing leaves its slot as it
was. (Log entry 51, DESIGN CHOICE.) -/
def State.runElem (s : State) (t : TileId) (c : PCmd) (k : PKind) (bytes : List Byte) (ea ordinal row done : Nat) (runs : Bool) :
    State :=
  let e := elemOf bytes
  let past := PProgress.start bytes ea ordinal .rows false e.rows 0
  if runs = false then s.cmdRuns t c past
  else
    match k with
    | .prb =>
      let m := (s.touchTlb t e.src).claimBytes t c.startOrder (PTarget.sp t).key (wholeBytes e.dst (s.probe t e.src))
      (m.1.flies t (.bytes (.sp t) m.2)).cmdRuns t c { past with ran := true }
    | .opld =>
      let s := s.modCrew (crewOf t) fun y => y.startFill (opldSlot e)
      let s := s.modTile t fun x => x.modCmd c.id fun d => { d with slot := some (opldSlot e) }
      s.cmdRuns t c (.start bytes ea ordinal .rows true row done)
    | k => s.cmdRuns t c
      { PProgress.start bytes ea ordinal .rows true row done with list := (s.listed t (k.resolve e) e).list }

/-- An element begins, once what it reads of its scratchpad is good; a Signal predicate is read at its home first. -/
def State.beginElem (s : State) (t : TileId) (c : PCmd) (k : PKind) (bytes : List Byte) (ea ordinal row done : Nat) : State :=
  let e := elemOf bytes
  if k = .chain ∧ 16384 ≤ ordinal then s.cmdFault t c cSGBAD 0 0 (ordinal, row, done)
  else
    match s.startElem t c k e ((c.answer.bind id).getD 0) with
    | .fault code addr => s.cmdFault t c code 0 addr (ordinal, row, done)
    | r =>
      match s.goodRead t (s.elemSites t k e) with
      | (s, false) => s.cmdHalts t c
      | (s, true) =>
        if e.predSignal ∧ (c.answer.bind id).isNone then
          (s.cmdSignal t c (BitVec.ofNat 17 e.pred) .read).cmdRuns t c (.start bytes ea ordinal .predicate false row done)
        else (s.cmdAnswered t c).runElem t c k bytes ea ordinal row done (r == .run)

/-- R138, R89, R22: what stands at a record's address says to `CSEAL`, which reads the weight store of its own die too. -/
def State.sealCheck (s : State) (t : TileId) (id va : Nat) : Chk :=
  match s.extent? id with
  | some e =>
    if e.tier ≠ 2 then s.addrCheck t id va 128
    else if e.wsdie ≠ (dieOf t).val then .fault cPROT 0 (BitVec.ofNat 64 va)
    else if s.extentWaits t id e then .wait
    else .ok
  | none => s.addrCheck t id va 128

/-- R138: `CSEAL` is to read its record; while the read must wait, the command has not started. A record address that is
no multiple of 128 raises MISALIGN, after the check of the reserved bytes. (Log entry 51, DESIGN CHOICE.) -/
def State.beginSeal (s : State) (t : TileId) (c : PCmd) : State :=
  let bytes := (s.tile t).sp.read c.ea 64
  let va := fieldAt bytes 0 8
  let at' := c.resume
  if (bytes.drop 12).any fun b => b ≠ 0 then s.cmdFault t c cSGBAD 0 0 at'
  else if va % 128 ≠ 0 then s.cmdFault t c cMISALIGN 0 va at'
  else
    match s.translate t va .read none with
    | .error code => s.cmdFault t c code 0 va at'
    | .ok p =>
      match s.sealCheck t (pteExt p.pte) va with
      | .fault code reason _ => s.cmdFault t c code reason va at'
      | .wait =>
        s.modTile t fun x =>
          { x with portage := { x.portage with order := x.portage.order - 1 } }.modCmd c.id fun d => { d with startOrder := 0 }
      | .ok =>
        s.cmdRuns t c (PProgress.start bytes va 0 .record true at'.2.1 at'.2.2)

/-- R138: the record has come. -/
def State.sealCome (s : State) (t : TileId) (c : PCmd) (p : PProgress) : State :=
  let rec' := (numbersFrom p.ea 128).map fun a => p.got.get a 0
  if sealOk rec' (fieldAt p.elem 8 4) = false then s.cmdFault t c cSEALBAD 0 0 c.resume
  else s.beginElem t c .seal (rec'.take 64) p.ea 0 p.row p.done

/-- The value of `CSIG` and `CWAIT` (R145): C, or the argument of the entry. -/
def sigValue (o : CSigOp) (arg : Word) : Word := if o.useArg then arg else o.n.setWidth 64

/-- R124, R130, R145: a command starts. -/
def State.startCmd (s : State) (t : TileId) (c : PCmd) : State :=
  let serial := s.serialising t c
  let mark := (s.cox t).nextReq
  let s := s.modTile t fun x =>
    { x with portage := { x.portage with order := x.portage.order + 1 } }.modCmd c.id fun d =>
      { d with startOrder := x.portage.order + 1, serial := serial, mark := mark }
  let c := { c with startOrder := (s.tile t).portage.order, serial := serial, mark := mark }
  match c.instr with
  | .csig _ | .cwaitSignal _ =>
    if s.inPair t then s.cmdFault t c cPROT 0 0 (0, 0, 0)
    else s.modTile t fun x => x.modCmd c.id fun d => { d with stage := .started }
  | .cwaitTime .. => s.modTile t fun x => x.modCmd c.id fun d => { d with stage := .started }
  | i =>
    match elemCmd i with
    | none => s.cmdOver t c
    | some (k, _) =>
      if c.ea % 64 ≠ 0 then s.cmdFault t c cMISALIGN 0 c.ea (0, 0, 0)
      else
        let ea := if k = .seal then c.ea else chainAddr (s.tile t).sp c.ea c.resume.1
        match s.goodRead t (spSites t ea 64) with
        | (s, false) => s.cmdHalts t c
        | (s, true) =>
          if k = .seal then s.beginSeal t c
          else s.beginElem t c k ((s.tile t).sp.read ea 64) ea c.resume.1 c.resume.2.1 c.resume.2.2

/-- COMMAND_START (R124): once the words of a cycle have issued, the first command in start order that may start does.
(Log entry 39, DEDUCED.) -/
def execCommandStart (t : TileId) (s : State) : Out :=
  if s.holding ∨ s.phase ≠ .ending then .next s
  else
    match s.startable t .l, s.startable t .s with
    | some a, some b => .next (s.startCmd t (if startsBefore b a then b else a))
    | some a, none => .next (s.startCmd t a)
    | none, some b => .next (s.startCmd t b)
    | none, none => .next s

/-! ## The checks of device memory, granule by granule (R130, step 8; R131) -/

/-- The side of a step that lies in device memory: its bytes, its extent with the first element and how many, and
what the step does there. -/
structure DevSide where
  first : Nat
  last : Nat
  /-- The extent named by the element's first page (R131). -/
  ext : Option Nat
  align : Nat
  need : Need
  write : Bool
  add : Bool
  wtx : Bool
  /-- The source of `CWTX`, an I segment in HBM or tier-2 (R143). -/
  wtxSrc : Bool
  /-- The rows are at indices of a list (R140). -/
  indexed : Bool
  /-- The rows do not follow one another, or are indexed. -/
  scattered : Bool
deriving DecidableEq, Repr

/-- The element number of a bit of an extent. -/
def Extent.indexAt (e : Extent) (bit : Nat) : Nat :=
  if fmtIsBlock e.fmt then bit / 8 / fmtP e.fmt * fmtBlockLen e.fmt else bit / e.bits

/-- The first bit of an element, or of its block. -/
def Extent.bitOf (e : Extent) (i : Nat) : Nat :=
  if fmtIsBlock e.fmt then 8 * (i / fmtBlockLen e.fmt * fmtP e.fmt) else i * e.bits

/-- What the role of element `i` says to one side, `first` when the side begins there or the element begins its segment
(R68, R69, R131, R143); past the last element only a stream has something to say: that it is at its end (R72). -/
def State.roleCheck (s : State) (t : TileId) (d : DevSide) (id : Nat) (e : Extent) (i : Nat) (first : Bool) : Chk :=
  let addr : Word := BitVec.ofNat 64 (e.addr i / 32 * 32)
  let bad (f : Byte × Nat) : Chk := .fault f.1 f.2 addr
  match e.segOf (min i (e.count - 1)) with
  | none => bad (cROLE, 1)
  | some (k, g0) =>
    let g := (s.seg? t id k).getD g0
    let first := first || i == g.start
    if d.wtx then (if g.st = .i then .ok else bad (cROLE, 1))
    else if d.add then
      if d.indexed then bad (cROLE, 1)
      else if e.count ≤ i then bad (cROLE, 1)
      else
        match g.fault t .add i with
        | some f => bad f
        | none => .ok
    else if d.write then
      match g.st with
      | .sOpen | .sClosed =>
        if d.scattered then bad (cROLE, 1)
        else if first ∧ g.wcur ≠ i then bad (cROLE, 1)
        else if g.writer.isSome ∧ g.writer ≠ some t then bad (cROLE, 2)
        else if g.st = .sClosed ∨ g.stop ≤ i then bad (cSTREAMEND, 0)
        else .ok
      | _ => bad (cROLE, 1)
    else
      match g.st with
      | .i => .ok
      | .a => bad (cROLE, 1)
      | _ =>
        if i < g.rcur then bad (cREADONCE, 0)
        else if d.scattered ∨ (first ∧ g.rcur < i) then bad (cROLE, 1)
        else if g.reader.isSome ∧ g.reader ≠ some t then bad (cROLE, 2)
        else if i < g.wcur then .ok
        else if g.st = .sClosed then bad (cSTREAMEND, 0)
        else .wait

/-- R130, step 8: one granule of a side whose first element lies at bit `bit` of its extent: what stops it, and the bits
of the side before that. A weight store is read by Portage of its own die alone (R22, R89). (Log entry 41, DEDUCED.) -/
def State.granuleScan (s : State) (t : TileId) (d : DevSide) (bit g : Nat) : Option (Chk × Nat) :=
  let x0 := max d.first (32 * g)
  let x1 := min d.last (32 * g + 31)
  let before := 8 * (x0 - d.first)
  let fault (code : Byte) (reason : Nat) : Option (Chk × Nat) := some (.fault code reason (BitVec.ofNat 64 (32 * g)), before)
  if x0 = d.first ∧ d.first % d.align ≠ 0 then fault cMISALIGN 0
  else
    match s.translate t x0 d.need d.ext with
    | .error c => fault c 0
    | .ok p =>
      match s.extent? (pteExt p.pte) with
      | none => fault cROLE 1
      | some e =>
        if d.wtxSrc ∧ e.tier = 2 then fault cPROT 0
        else if d.wtx ∧ (e.tier ≠ 2 ∨ e.wsdie ≠ (dieOf t).val) then fault cPROT 0
        else if e.tier = 2 ∧ e.wsdie ≠ (dieOf t).val then fault cPROT 0
        else if s.extentWaits t (pteExt p.pte) e then some (.wait, before)
        else
          let lo := if x0 = d.first then e.indexAt bit else e.indexAt (8 * (x0 - e.base))
          let hi := if fmtIsBlock e.fmt then (e.elemsAt (x1 - e.base)).2 else e.indexAt (8 * (x1 - e.base) + 7)
          (numbersFrom lo (max 1 (hi + 1 - lo))).findSome? fun i =>
            match s.roleCheck t d (pteExt p.pte) e i (i == lo && x0 == d.first) with
            | .ok => none
            | c => some (c, e.bitOf i - bit)

/-- All the granules of a side, in order. -/
def State.sideScan (s : State) (t : TileId) (d : DevSide) (bit : Nat) : Option (Chk × Nat) :=
  (numbersFrom (d.first / 32) (d.last / 32 + 1 - d.first / 32)).findSome? fun g => s.granuleScan t d bit g

/-! ## Reading and writing elements (R107 to R113, R134, R135) -/

/-- The address of the shift of block `b` of the row that begins at `a`, on one side. -/
def State.shiftAddr (s : State) (t : TileId) (space : Nat) (fmt : Lane) (a b : Nat) : Nat :=
  if space = 0 then
    match s.extentAt t a with
    | some (_, x) => x.base + (fmtAreas fmt x.count).2.1 + ((a - x.base) / fmtP fmt + b)
    | none => 0
  else
    match s.localAt t a with
    | some (_, off) => a / 65536 * 65536 + (bankScaleAddr fmt off (off % 65536 / fmtP fmt + b)) % 65536
    | none => 0

/-- The code of element `i` of the row at `a`, from the source's bytes. -/
def codeAt (rd : Nat → Byte) (fmt : Lane) (a i : Nat) : Nat :=
  let c := fmtContainer fmt
  bitsOf (ofBytes ((numbersFrom (a + i * c / 8) (ceilDiv c 8)).map rd)) (i * c % 8) c

/-- R104, R112, R113: the exact value of element `i` of the row; `sh` gives the shift byte of a block. -/
def valueAt (rd : Nat → Byte) (sh : Nat → Byte) (fmt : Lane) (a i : Nat) : Val :=
  match fmtKind fmt with
  | 8 | 9 =>
    let b := sh (i / 64)
    let stream := ofBytes ((numbersFrom (a + i / 64 * fmtP fmt) (fmtP fmt)).map rd)
    if b = 0x80 then .fin false 0 0 else tcwWeight (tcWindow (tcOfFmt fmt) stream (i % 64)) (sextNat 8 b.toNat)
  | 5 => blockElem (codeAt rd fmt a i) (fmtFields fmt) (sextNat 8 (sh (i / fmtBlockLen fmt)).toNat)
  | _ =>
    match fmtNf fmt with
    | some f => nfValue (codeAt rd fmt a i) f
    | none => .zero

/-- The bytes of element `i` of the row at `a`. -/
def codeBytes (fmt : Lane) (a i code : Nat) : List (Nat × Byte × Byte) :=
  let c := fmtContainer fmt
  if c < 8 then
    [(a + i * c / 8, BitVec.ofNat 8 (code % 2 ^ c * 2 ^ (i * c % 8)), BitVec.ofNat 8 ((2 ^ c - 1) * 2 ^ (i * c % 8)))]
  else wholeBytes (a + i * c / 8) (toBytes (c / 8) code)

/-- R112, R114, R134: elements `i` to `i + k - 1` of the row at `a`, as the destination's row at `d` stores them: bits
unchanged between equal formats and from or to raw, else converted. BLKOVF and BLKUNF of a block (R114) are recorded nowhere.
(Log entry 54, DESIGN CHOICE.) -/
def State.convertPiece (s : State) (t : TileId) (e : Elem) (p : Plan) (rm : Rm) (rd : Nat → Byte) (a d i k : Nat) :
    List (Nat × Byte × Byte) :=
  let sh (b : Nat) : Byte := rd (s.shiftAddr t e.ss p.sfmt a b)
  let src := valueAt rd sh p.sfmt a
  if p.raw then wholeBytes (d + i) ((numbersFrom (a + i) k).map rd)
  else if p.sfmt = p.dfmt ∧ fmtIsBlock p.sfmt then
    let n := fmtBlockLen p.sfmt
    let pb := fmtP p.sfmt
    (List.range (k / n)).flatMap fun j =>
      let b := i / n + j
      wholeBytes (d + pb * b) ((numbersFrom (a + pb * b) pb).map fun x => if sh b = 0x80 then 0 else rd x) ++
        wholeBytes (s.shiftAddr t e.ds p.dfmt d b) [sh b]
  else if p.sfmt = p.dfmt then
    (numbersFrom i k).flatMap fun j => codeBytes p.dfmt d j (codeAt rd p.sfmt a j)
  else if fmtIsBlock p.dfmt then
    let n := fmtBlockLen p.dfmt
    (List.range (k / n)).flatMap fun j =>
      let b := i / n + j
      let q := quantiseBlock ((numbersFrom (b * n) n).map src) (fmtFields p.dfmt) rm
      wholeBytes (d + fmtP p.dfmt * b) (packCodes (fmtContainer p.dfmt) q.codes) ++
        wholeBytes (s.shiftAddr t e.ds p.dfmt d b) [BitVec.ofInt 8 q.sh]
  else
    match fmtNf p.dfmt with
    | some f => (numbersFrom i k).flatMap fun j => codeBytes p.dfmt d j (convert (src j) f rm)
    | none => []

/-- Is a local address in the multicast window? -/
def Tile.isMulticast (x : Tile) (a : Nat) : Bool :=
  match x.locate a with
  | .multicast _ => true
  | _ => false

/-- One more write of a command is to be acknowledged. -/
def Tile.owes (x : Tile) (id : Nat) : Tile :=
  x.modCmd id fun d => { d with prog := d.prog.map fun p => { p with unacked := p.unacked + 1 } }

/-- A write of a command to a scratchpad: its own lands at the end of the cycle, another member's travels. -/
def State.writeAt (s : State) (t : TileId) (c : PCmd) (u : TileId) (w : PWrite) : State :=
  if u = t then s.flies t w
  else (s.cmdAsk t c (tileStation u) .write (.store u w)).modTile t fun x => x.owes c.id

/-- Bytes of local addresses, line by line (R148). -/
def State.writeLocal (s : State) (t : TileId) (c : PCmd) (bs : List (Nat × Byte × Byte)) : State :=
  let placed := bs.filterMap fun b => (s.localAt t b.1).map fun u => (u.1, (u.2, b.2))
  ((placed.map fun q => (q.1, q.2.1 / 64)).eraseDups).foldl (fun s l =>
    let line := (placed.filter fun q => q.1 = l.1 ∧ q.2.1 / 64 = l.2).map Prod.snd
    let m := s.claimBytes t c.startOrder (PTarget.sp l.1).key line
    m.1.writeAt t c l.1 (.bytes (.sp l.1) m.2)) s

/-- Bytes of the multicast window join the queue, one entry a granule (R158). -/
def State.writeMulticast (s : State) (t : TileId) (c : PCmd) (bs : List (Nat × Byte × Byte)) : State :=
  let m := s.claimBytes t c.startOrder multicastKey (bs.map fun b => (b.1 % 1048576, b.2))
  ((m.2.map fun b => b.1 / 32).eraseDups).foldl (fun s g =>
    let x := s.tile t
    s.mcJoin t
      { off := 32 * g, bytes := (m.2.filter fun b => b.1 / 32 = g).map fun b => (b.1 - 32 * g, b.2), issue := s.gtime,
        due := s.gtime + x.cox.mcdelay.toNat, src := t, member := x.member, members := x.gangTiles t }) m.1

/-- What of the elements at the bytes `lo` to before `hi` lies in the `n` bytes at `a`. -/
def useIn (a n lo hi : Nat) : PUse := ⟨max a lo, min (a + n) hi, decide (a ≤ lo), false⟩

/-- Bytes of device memory, granule by granule, for the homes of the granules (R21, R132); the elements lie in the bytes from
`lo` to before `hi`. -/
def State.writeDevice (s : State) (t : TileId) (c : PCmd) (back : Nat × Nat) (lo hi : Nat) (bs : List (Nat × Byte × Byte)) :
    State :=
  let m := s.claimBytes t c.startOrder deviceKey bs
  ((m.2.map fun b => b.1 / 32).eraseDups).foldl (fun s g =>
    (s.cmdAsk t c (homeStation (s.homeOfVa t (32 * g))) .write
      (.put (m.2.filter fun b => b.1 / 32 = g) (useIn (32 * g) 32 lo hi) back)).modTile t fun x => x.owes c.id) m.1

/-! ## The units of a row (R131, R132, R148) -/

/-- The bytes of a source line: a granule of device memory, or a line of scratchpad. -/
def lineBytes (space : Nat) : Nat := if space = 0 then 32 else 64

/-- The bytes of a destination unit: a granule of device memory or of the multicast window, or a line. -/
def Tile.unitBytes (x : Tile) (space d : Nat) : Nat := if space = 0 ∨ (space = 1 ∧ x.isMulticast d) then 32 else 64

/-- The elements, from `first` of the row on, that fill the destination up to the end of a unit: whole blocks where the
destination has them. -/
def unitCount (p : Plan) (d first size : Nat) : Nat :=
  let left := p.n - first
  if fmtIsBlock p.dst then
    let b := fmtBlockLen p.dst
    match (numbersFrom 1 size).find? fun j => (d + fmtP p.dst * (first / b + j)) % size = 0 with
    | some j => min left (b * j)
    | none => left
  else
    let c := fmtContainer p.dst
    min left (max 1 ((8 * size - (8 * d + first * c) % (8 * size)) / c))

/-- The bytes `first` to `last` of elements `i` to `i + k - 1` of a row. -/
def stepBytes (fmt : Lane) (a i k : Nat) : Nat × Nat :=
  if fmtIsBlock fmt then (a + i / fmtBlockLen fmt * fmtP fmt, a + ceilDiv (i + k) (fmtBlockLen fmt) * fmtP fmt - 1)
  else (a + i * fmtContainer fmt / 8, a + ((i + k) * fmtContainer fmt + 7) / 8 - 1)

/-- The elements of a row that `bits` bits hold. -/
def elemsIn (fmt : Lane) (bits : Nat) : Nat :=
  if fmtIsBlock fmt then bits / (8 * fmtP fmt) * fmtBlockLen fmt else bits / fmtContainer fmt

/-- The bit offset of element `i` of a row in the extent that holds it. -/
def State.bitIn (s : State) (t : TileId) (fmt : Lane) (a i : Nat) : Nat :=
  match s.extentAt t a with
  | some (_, x) => 8 * (a - x.base) + (if fmtIsBlock fmt then 8 * (i / fmtBlockLen fmt * fmtP fmt) else i * fmtContainer fmt)
  | none => 0

/-- The bits that `k` elements take. -/
def bitsTaken (fmt : Lane) (k : Nat) : Nat :=
  if fmtIsBlock fmt then 8 * (ceilDiv k (fmtBlockLen fmt) * fmtP fmt) else k * fmtContainer fmt

/-- The stream segment of the element at a bit offset of the extent at `a`, when it lies in one. -/
def State.streamAt (s : State) (t : TileId) (a bit : Nat) : Option (Nat × Nat) :=
  match s.extentAt t a with
  | some (id, x) =>
    match x.segOf (min (x.indexAt bit) (x.count - 1)) with
    | some (k, g0) =>
      let g := (s.seg? t id k).getD g0
      if g.st = .sOpen ∨ g.st = .sClosed then some (id, k) else none
    | none => none
  | none => none

/-- Do `bits` bits from `bit` on touch a stream segment of the extent at `a`? -/
def State.touchesStream (s : State) (t : TileId) (a bit bits : Nat) : Bool :=
  match s.extentAt t a with
  | some (id, x) => x.segs.zipIdx.any fun g =>
      let h := (s.seg? t id g.2).getD g.1
      (h.st == .sOpen || h.st == .sClosed) && decide (h.start ≤ x.indexAt (bit + bits - 1)) && decide (x.indexAt bit < h.stop)
  | none => false

/-- The device side of a step, for the source. -/
def State.srcSide (s : State) (t : TileId) (k : PKind) (e : Elem) (p : Plan) (a i n : Nat) : DevSide :=
  let b := stepBytes p.src a i n
  { first := b.1, last := b.2, ext := (s.extentAt t (e.srcRow k ((e.liveRows k).headD 0))).map Prod.fst, align := max 1 (fmtContainer p.sfmt / 8),
    need := if k = .ovl then .exec else .read, write := false, add := false, wtx := false,
    wtxSrc := k == .wtx, indexed := k == .gath,
    scattered := k == .gath || k == .wtx || (e.rows != 1 && e.sstr != p.slen) }

/-- The device side of a step, for the destination. -/
def State.dstSide (s : State) (t : TileId) (k : PKind) (e : Elem) (p : Plan) (d i n : Nat) (add : Bool) : DevSide :=
  let b := stepBytes p.dst d i n
  { first := b.1, last := b.2, ext := (s.extentAt t (e.dstRow k ((e.liveRows k).headD 0))).map Prod.fst,
    align := max 1 (fmtContainer p.dfmt / 8),
    need := .write, write := true, add := add, wtx := k == .wtx, wtxSrc := false, indexed := k == .scat,
    scattered := k == .scat || (e.rows != 1 && e.dstr != p.dlen) }

/-- Where a command would go on: its oldest unit, or the next one. -/
def PProgress.place (p : PProgress) : Nat × Nat × Nat :=
  match p.units with
  | u :: _ => (p.ordinal, u.row, u.first)
  | [] => (p.ordinal, p.row, p.done)

/-- The progress after a unit of `k` of a row's `n` elements has been opened. -/
def PProgress.opens (p : PProgress) (n k : Nat) : PProgress :=
  let p := { p with units := p.units ++ [({ row := p.row, first := p.done, count := k, sent := false } : PUnit)] }
  if n ≤ p.done + k then { p with row := p.row + 1, done := 0 } else { p with done := p.done + k }

/-- The bytes that a command has kept of a line leave (R148). -/
def State.sendLate (s : State) (t : TileId) (c : PCmd) (p : PProgress) : State :=
  (s.cmdRuns t c { p with late := [] }).writeLocal t c p.late

/-- A check has failed at the next unit: the command stops there once all before it has been written. -/
def State.stopUnit (s : State) (t : TileId) (c : PCmd) (p : PProgress) (code : Byte) (reason addr : Nat) : State :=
  if p.units = [] ∧ p.late ≠ [] then s.sendLate t c p
  else if p.units = [] ∧ p.unacked = 0 then s.cmdFault t c code reason addr (p.ordinal, p.row, p.done) else s

/-- R130, step 8, R131, R132: the next unit of the row is checked, and opened as far as the checks let it; a stream is
read and written by one unit at a time. (Log entry 14, DESIGN CHOICE.) -/
def State.openUnit (s : State) (t : TileId) (c : PCmd) (k : PKind) (e : Elem) (p : PProgress) (pl : Plan) : State :=
  let a := e.srcRow k p.row
  let d := e.dstRow k p.row
  let srcDev := e.ss == 0 && k != .fill
  let dstDev := e.ds == 0
  let add := e.op != 0 && dstDev
  let sbit := s.bitIn t pl.src a p.done
  let dbit := s.bitIn t pl.dst d p.done
  let want0 := unitCount pl d p.done ((s.tile t).unitBytes e.ds d)
  let sS := srcDev && s.touchesStream t a sbit (bitsTaken pl.src (max 1 want0))
  let dS := dstDev && !add && k != .wtx && s.touchesStream t d dbit (bitsTaken pl.dst (max 1 want0))
  let whole := if fmtIsBlock pl.dst then max (fmtBlockLen pl.dst) (if sS then fmtBlockLen pl.src else 1)
    else if sS then fmtBlockLen pl.src else 1
  let want := min (pl.n - p.done) (alignUp want0 whole)
  if e.ss = 1 ∧ a % max 1 (fmtContainer pl.sfmt / 8) ≠ 0 then s.stopUnit t c p cMISALIGN 0 a
  else if e.ds = 1 ∧ d % max 1 (fmtContainer pl.dfmt / 8) ≠ 0 then s.stopUnit t c p cMISALIGN 0 d
  else if (sS || dS) ∧ (p.units ≠ [] ∨ p.unacked ≠ 0) then s
  else
    let sc := if srcDev then s.sideScan t (s.srcSide t k e pl a p.done (max 1 want)) sbit else none
    let dc := if dstDev then s.sideScan t (s.dstSide t k e pl d p.done (max 1 want) add) dbit else none
    let room (fmt : Lane) (r : Option (Chk × Nat)) : Nat := match r with
      | none => want
      | some (_, bits) => min want (elemsIn fmt bits)
    let ns := room pl.src sc
    let nd := room pl.dst dc
    let n := if ns = want ∧ nd = want then want else min ns nd / whole * whole
    if n ≠ 0 then s.cmdRuns t c (p.opens pl.n n)
    else
      match (if ns ≤ nd then sc else dc) with
      | some (.fault code reason addr, _) => s.stopUnit t c p code reason addr.toNat
      | some (.wait, _) =>
        match s.streamAt t a sbit with
        | some (id, g) => if srcDev && !s.streamWaits t id then s.bind t id g false else s
        | none => s
      | _ => s

/-! ## Source lines (R90, R148, R153) -/

/-- The source lines of a unit: those of its elements, then those of its blocks' shifts. -/
def State.unitLines (s : State) (t : TileId) (k : PKind) (e : Elem) (pl : Plan) (u : PUnit) : List Nat :=
  if k = .fill then []
  else
    let a := e.srcRow k u.row
    let w := lineBytes e.ss
    let b := stepBytes pl.src a u.first u.count
    let n := fmtBlockLen pl.src
    let shifts := if fmtIsBlock pl.src then
        (numbersFrom (u.first / n) (ceilDiv (u.first + u.count) n - u.first / n)).map fun q =>
          s.shiftAddr t e.ss pl.sfmt a q / w * w
      else []
    ((numbersFrom (b.1 / w) (b.2 / w + 1 - b.1 / w)).map (fun i => w * i) ++ shifts).eraseDups

/-- Has a line come? -/
def PProgress.has (p : PProgress) (line : Nat) : Bool := (p.got.find? line).isSome

/-- The next line to be asked for. -/
def State.nextLine (s : State) (t : TileId) (k : PKind) (e : Elem) (pl : Plan) (p : PProgress) : Option Nat :=
  ((p.units.filter fun u => !u.sent).flatMap (s.unitLines t k e pl)).find? fun l => !p.has l && !p.asked.contains l

/-- R90: does a read of a weight-store address fall in the refresh window of its group? -/
def State.refreshing (s : State) (t : TileId) (va : Nat) : Bool :=
  match s.pageFor t va with
  | some p => pteTier p.pte == 2 &&
      (let ph := s.gtime % 8192
       let g := bitsOf (p.at' va) 12 4
       decide (512 * g ≤ ph) && decide (ph < 512 * g + 64))
  | none => false

/-- R90: the next read of a started command is deferred; it counts once. -/
def State.deferRead (s : State) (t : TileId) (c : PCmd) (p : PProgress) : State :=
  if p.deferred then s
  else
    (s.cmdRuns t c { p with deferred := true }).modCox t fun k =>
      { k with defer := if k.defer = 0xFFFF then k.defer else k.defer + 1 }

/-- Source bytes come, from an address on. -/
def PProgress.comes (p : PProgress) (addr : Nat) (bs : List Byte) : PProgress :=
  { p with
    asked := p.asked.filter fun l => l ≠ addr,
    got := bs.zipIdx.foldl (fun m b => m.set (addr + b.2) b.1) p.got }

/-- The elements for which a source line is read: those of the first unit that needs it. -/
def State.lineUse (s : State) (t : TileId) (k : PKind) (e : Elem) (pl : Plan) (p : PProgress) (line : Nat) : PUse :=
  match p.units.find? fun u => !u.sent && (s.unitLines t k e pl u).contains line with
  | some u =>
    let b := stepBytes pl.src (e.srcRow k u.row) u.first u.count
    useIn line 32 b.1 (b.2 + 1)
  | none => ⟨0, 0, false, false⟩

/-- A source line is read: from the tile's own scratchpad, when its bank can serve it (R161), else by a request to its member or home. -/
def State.fetchLine (s : State) (t : TileId) (c : PCmd) (k : PKind) (e : Elem) (pl : Plan) (p : PProgress) (line : Nat) : State :=
  let q := { p with asked := p.asked ++ [line], deferred := false }
  if e.ss = 0 then
    if s.refreshing t line then s.deferRead t c p
    else (s.cmdAsk t c (homeStation (s.homeOfVa t line)) .req (.read line 32 (s.lineUse t k e pl p line))).cmdRuns t c q
  else
    match s.localAt t line with
    | some (u, off) =>
      if u = t then
        if (s.tile t).linesFit .read [off / 64] then
          match (s.modTile t fun x => x.useLines .read [off / 64]).goodRead t (spSites t off 64) with
          | (s, true) => s.cmdRuns t c (p.comes line ((s.tile t).sp.read off 64))
          | (s, false) => s.cmdHalts t c
        else s
      else (s.cmdAsk t c (tileStation u) .req (.line line u off)).cmdRuns t c q
    | none => s.cmdRuns t c (p.comes line (List.replicate 64 0))

/-! ## A unit is written (R131, R135, R139 to R142) -/

/-- The row's bytes of `CFILL` (R139). -/
def fillByte (pattern j : Nat) : Byte := BitVec.ofNat 8 (pattern / 256 ^ (j % 8))

/-- The bytes of a unit of a command that moves bytes unchanged. -/
def unitData (k : PKind) (e : Elem) (rd : Nat → Byte) (a : Nat) (u : PUnit) : List Byte :=
  (numbersFrom u.first u.count).map fun j => if k = .fill then fillByte e.src j else rd (a + j)

/-- R73, R135: the adds of a unit to the cells of an A segment. -/
def State.writeCells (s : State) (t : TileId) (c : PCmd) (pl : Plan) (u : PUnit) (d : Nat) (v : Nat → Val) : State :=
  match s.extentAt t d with
  | none => s
  | some (id, x) =>
    let i0 := x.indexAt (s.bitIn t pl.dst d u.first)
    let va := x.addr i0
    (s.cmdAsk t c (homeStation (s.homeOfVa t va)) .write
      (.cells id ((List.range u.count).map fun j => (i0 + j, toCell x.abp (v (u.first + j)))) va (u.row, u.first))).modTile t
        fun x => x.owes c.id

/-- R135, R149: the reduces of a unit at the bank adders of the members that it lies at, but for elements that a later-started
command has written. -/
def State.writeReduce (s : State) (t : TileId) (c : PCmd) (e : Elem) (pl : Plan) (u : PUnit) (d : Nat) (v : Nat → Val) : State :=
  let w := fmtContainer pl.dfmt
  let items := (numbersFrom u.first u.count).filterMap fun j =>
    (s.localAt t (d + j * w / 8)).map fun q => (q.1, (⟨8 * q.2 + j * w % 8, v j⟩ : PReduce))
  let keys (q : TileId × PReduce) : List Nat := (numbersFrom (q.2.bit / 8) (max 1 (w / 8))).map (PTarget.sp q.1).key
  let items := items.filter fun q => (keys q).all ((s.tile t).portage.mayReduce c.startOrder)
  let s := s.modTile t fun x =>
    { x with portage := (items.flatMap keys).foldl (fun (m : Portage) a => m.reduces c.startOrder a) x.portage }
  ((items.map Prod.fst).eraseDups).foldl (fun s q =>
    s.writeAt t c q (.reduce q e.op pl.dfmt c.rm ((items.filter fun x => x.1 = q).map Prod.snd))) s

/-- R148: the bytes of a unit at local addresses: those that leave now, and those of the line that the row's next unit goes on
in. -/
def splitLine (pl : Plan) (d : Nat) (u : PUnit) (bs : List (Nat × Byte × Byte)) :
    List (Nat × Byte × Byte) × List (Nat × Byte × Byte) :=
  let stop := 8 * d + bitsTaken pl.dst (u.first + u.count)
  if pl.n ≤ u.first + u.count ∨ stop % 512 = 0 then (bs, []) else bs.partition fun b => b.1 / 64 ≠ stop / 512

/-- The writes of a unit leave, with what was kept of their line; bytes for the multicast window are kept until its queue
takes them. -/
def State.writeUnit (s : State) (t : TileId) (c : PCmd) (k : PKind) (e : Elem) (p : PProgress) (pl : Plan) (u : PUnit) : State :=
  let a := e.srcRow k u.row
  let d := e.dstRow k u.row
  let rd (x : Nat) : Byte := p.got.get x 0
  let value := valueAt rd (fun b => rd (s.shiftAddr t e.ss pl.sfmt a b)) pl.sfmt a
  if e.op ≠ 0 ∧ e.ds = 0 then s.writeCells t c pl u d value
  else if e.op ≠ 0 ∧ e.ds = 1 then s.writeReduce t c e pl u d value
  else
    let bs := if k.bytewise then wholeBytes (d + u.first) (unitData k e rd a u)
      else s.convertPiece t e pl c.rm rd a d u.first u.count
    let keep (l : List (Nat × Byte × Byte)) : State := s.modTile t fun x =>
      x.modCmd c.id fun y => { y with prog := y.prog.map fun q => { q with late := l } }
    let onto (dest : PTarget) : State :=
      let m := s.claimBytes t c.startOrder dest.key bs
      m.1.flies t (.bytes dest m.2)
    match e.ds with
    | 0 =>
      let b := stepBytes pl.dst d u.first u.count
      let s := s.writeDevice t c (u.row, u.first) b.1 (b.2 + 1) bs
      if s.inPair t then s.signAppend t (bs.map fun b => (b.1, b.2.1 &&& b.2.2)) else s
    | 1 =>
      if (s.tile t).isMulticast d then keep bs
      else
        let l := splitLine pl d u (p.late ++ bs)
        (keep l.2).writeLocal t c l.1
    | 2 => onto .slot
    | 3 => onto .imem
    | n => onto (.store (engines.getD (n - 4) .l))

/-- R158: the next granule that a command has kept for the multicast window joins the queue, once it has room. -/
def State.joinMulticast (s : State) (t : TileId) (c : PCmd) (p : PProgress) : State :=
  match p.late.head? with
  | none => s
  | some b =>
    if 4 ≤ (s.tile t).mcHeld then s
    else
      let l := p.late.partition fun x => x.1 / 32 = b.1 / 32
      (s.cmdRuns t c { p with late := l.2 }).writeMulticast t c l.1

/-- R131: the cursors that a unit moves on one side: of each stream segment that it touches, the extent, the segment and
its elements, with the first bit and the bits they take. -/
def State.unitMoves (s : State) (t : TileId) (fmt : Lane) (a : Nat) (u : PUnit) : List (Nat × Nat × Nat × Nat × Nat × Nat) :=
  match s.extentAt t a with
  | none => []
  | some (id, x) =>
    let bit := s.bitIn t fmt a u.first
    let i0 := x.indexAt bit
    let i1 := x.indexAt (bit + bitsTaken fmt u.count)
    x.segs.zipIdx.filterMap fun g =>
      let h := (s.seg? t id g.2).getD g.1
      let lo := max i0 h.start
      let hi := min i1 h.stop
      if (h.st = .sOpen ∨ h.st = .sClosed) ∧ lo < hi then
        some (id, g.2, hi - lo, x.addr lo, x.bitOf lo, x.bitOf hi - x.bitOf lo)
      else none

/-- Both sides' cursors go on (R131): the homes move them. -/
def State.sendMoves (s : State) (t : TileId) (c : PCmd) (write : Bool) (back : Nat × Nat)
    (l : List (Nat × Nat × Nat × Nat × Nat × Nat)) : State :=
  l.foldl (fun s m =>
    (s.cmdAsk t c (homeStation (s.homeOfVa t m.2.2.2.1)) .write
      (.move write m.1 m.2.1 m.2.2.1 m.2.2.2.1 m.2.2.2.2.1 m.2.2.2.2.2 back)).modTile t fun x => x.owes c.id) s

/-- The source lines that a command keeps after a unit: the last line of its elements and that of its last shift, and
those that the other units on their way need. A stream's are read again. -/
def State.keptLines (s : State) (t : TileId) (k : PKind) (e : Elem) (pl : Plan) (p : PProgress) (u : PUnit) : List Nat :=
  if (e.ss == 0 && k != .fill && s.rowInStream t (e.srcRow k u.row) e.len) = true then []
  else
    let last := { u with first := u.first + u.count - 1, count := 1 }
    s.unitLines t k e pl last ++ p.units.flatMap (s.unitLines t k e pl)

/-- Forgets the source lines that are not kept. -/
def PProgress.keep (p : PProgress) (w : Nat) (lines : List Nat) : PProgress :=
  { p with got := p.got.filter fun b => lines.contains (b.1 / w * w) }

/-- The oldest unit, its lines come, is written. One that moves cursors stays until its writes are acknowledged, one for the
multicast window until its granules have joined the queue. -/
def State.sendUnit (s : State) (t : TileId) (c : PCmd) (k : PKind) (e : Elem) (p : PProgress) (pl : Plan) (u : PUnit)
    (rest : List PUnit) : State :=
  let moves := (if e.ss = 0 ∧ k ≠ .fill then s.unitMoves t pl.src (e.srcRow k u.row) u else []) ++
    (if e.ds = 0 ∧ e.op = 0 ∧ k ≠ .wtx then s.unitMoves t pl.dst (e.dstRow k u.row) u else [])
  let multicast := e.ds == 1 && e.op == 0 && (s.tile t).isMulticast (e.dstRow k u.row)
  let q := { p with units := if moves = [] ∧ multicast = false then rest else { u with sent := true } :: rest }
  (s.cmdRuns t c (q.keep (lineBytes e.ss) (s.keptLines t k e pl q u))).writeUnit t c k e p pl u

/-- The oldest unit's writes are acknowledged: the cursors move. -/
def State.moveUnit (s : State) (t : TileId) (c : PCmd) (k : PKind) (e : Elem) (p : PProgress) (pl : Plan) (u : PUnit)
    (rest : List PUnit) : State :=
  let s1 := s.cmdRuns t c { p with units := rest }
  let back := (u.row, u.first)
  let s2 := if e.ss = 0 ∧ k ≠ .fill then s1.sendMoves t c false back (s.unitMoves t pl.src (e.srcRow k u.row) u) else s1
  if e.ds = 0 ∧ e.op = 0 ∧ k ≠ .wtx then s2.sendMoves t c true back (s.unitMoves t pl.dst (e.dstRow k u.row) u) else s2

/-! ## The turns of a started command (R126, R137, R144, R145) -/

/-- R144: block `b` of a `CTCE` goes to the die's TCE. -/
def State.submitBlock (s : State) (t : TileId) (c : PCmd) (e : Elem) (b : Nat) : State :=
  let kind : TcKind := if e.fmto = 0x80000006 then .tc1 else .tc15
  let w := if kind = .tc1 then 8 else 12
  let job : TceJob :=
    { tile := t, cmd := c.id, kind := kind,
      y := (List.range 64).map fun i => (s.tile t).sp.readNat (e.src + 256 * b + 4 * i) 4,
      sh := if bitOf e.aux 8 then none else some (sextNat 8 e.aux),
      stream := e.dst + w * b, shAddr := bitsOf e.sstr 0 20 + b,
      cost := if bitOf e.dstr 63 then none else some (bitsOf e.dstr 0 20 + 4 * b) }
  s.modDie (dieOf t) fun x => { x with tce := x.tce ++ [job] }

/-- R145, R290: the release part of a Signal operation of Portage: none for `rlx`. -/
def State.cmdReleased (s : State) (t : TileId) (c : PCmd) (o : Order) (sc : Scope) : Bool :=
  match o with
  | .rel | .ar | .sc => s.released t c.mark sc
  | _ => true

/-- R145, R137: the rows of an element are done: its signal, once every byte is visible and its release wait is over; then
the next element of a chain, or the command's end. A NEXT from 0x4000 to 0xFFFE names an element beyond scratchpad, which
reads as zeros. (Log entry 51, DESIGN CHOICE.) -/
def State.elemDone (s : State) (t : TileId) (c : PCmd) (k : PKind) (e : Elem) (p : PProgress) : State :=
  let x := s.tile t
  if x.mcPending t ∨ x.portage.flight ≠ [] then s
  else
    let w := BitVec.ofNat 17 e.sig
    if e.sigEn ∧ (c.answer.bind id).isNone then
      if c.answer.isNone ∧ s.cmdReleased t c .rel ((scopeOf (bitsOf e.sig 28 3)).getD .dom) then
        s.cmdSignal t c w (.atom .add false 1)
      else s
    else
      let s := s.cmdAnswered t c
      if k = .chain ∧ e.next ≠ 0xFFFF then
        let ea := 64 * e.next
        match s.goodRead t (spSites t ea 64) with
        | (s, false) => s.cmdHalts t c
        | (s, true) => s.beginElem t { c with answer := none } k ((s.tile t).sp.read ea 64) ea (p.ordinal + 1) 0 0
      else s.cmdOver t c

/-- One turn of a command whose rows move: cursors, then writes, then reads, then the next unit. (Log entry 14, DESIGN
CHOICE.) -/
def State.rowsTurn (s : State) (t : TileId) (c : PCmd) (k0 : PKind) (p : PProgress) : State :=
  let e := p.element
  let k := k0.resolve e
  match s.plan t c k e with
  | .error code => if p.row < e.rows then s.stopUnit t c p code 0 0 else s.elemDone t c k0 e p
  | .ok pl =>
    match p.units with
    | u :: rest =>
      if u.sent then
        (if e.ds = 1 ∧ (s.tile t).isMulticast (e.dstRow k u.row) ∧ p.late ≠ [] then s.joinMulticast t c p
        else if p.unacked = 0 then s.moveUnit t c k e p pl u rest else s)
      else if (s.unitLines t k e pl u).all p.has then s.sendUnit t c k e p pl u rest
      else
        match s.nextLine t k e pl p with
        | some l => s.fetchLine t c k e pl p l
        | none => if p.row < e.rows ∧ e.rowSkipped k p.row = false then s.openUnit t c k e p pl else s
    | [] =>
      if e.rows ≤ p.row then (if p.unacked = 0 then s.elemDone t c k0 e p else s)
      else if e.rowSkipped k p.row then s.cmdRuns t c { p with row := p.row + 1, done := 0 }
      else s.openUnit t c k e p pl

/-- One turn of a command with an element. -/
def State.elemTurn (s : State) (t : TileId) (c : PCmd) (k0 : PKind) (p : PProgress) : State :=
  let e := elemOf p.elem
  match p.bad with
  | some (code, reason, addr) =>
    if p.unacked ≠ 0 then s
    else if p.late ≠ [] ∧ p.units = [] then s.sendLate t c p
    else if code = 0 then s.cmdHalts t c
    else s.cmdFault t c code reason addr p.place
  | none =>
    match p.phase with
    | .record =>
      if p.has p.ea then s.sealCome t c p
      else if p.asked ≠ [] then s
      else if s.refreshing t p.ea then s.deferRead t c p
      else
        (s.cmdAsk t c (homeStation (s.homeOfVa t p.ea)) .req (.read p.ea 128 ⟨p.ea, p.ea + 128, true, true⟩)).cmdRuns t c
          { p with asked := [p.ea], deferred := false }
    | .predicate =>
      if (c.answer.bind id).isSome then s.beginElem t c k0 p.elem p.ea p.ordinal p.row p.done else s
    | .rows =>
      if k0 = .tce ∧ p.row < e.rows then
        if p.done < e.len / 256 then (s.submitBlock t c e p.done).cmdRuns t c { p with done := p.done + 1 } else s
      else s.rowsTurn t c k0 p

/-- One turn of a started command. (Log entry 14, DESIGN CHOICE.) -/
def State.granule (s : State) (t : TileId) (id : Nat) : State :=
  match (s.tile t).portage.buffer.find? fun c => c.id = id ∧ c.stage = .started with
  | none => s
  | some c =>
    match c.instr with
    | .cwaitTime .. => if c.waitFor ≤ (s.gtime : Int) then s.cmdOver t c else s
    | .cwaitSignal o =>
      match c.answer with
      | none => s.cmdSignal t c o.w .read
      | some none => s
      | some (some v) => if (sigValue o c.b).ule v then s.cmdOver t c else s.cmdAnswered t c
    | .csig o =>
      match c.answer with
      | none =>
        if s.cmdReleased t c o.ord o.sc then s.cmdSignal t c o.w (.atom .add false (sigValue o c.a)) else s
      | some none => s
      | some (some _) => s.cmdOver t c
    | i =>
      match elemCmd i, c.prog with
      | some (k, _), some p => s.elemTurn t c k p
      | _, _ => s

/-- TCE_BLOCK_DONE (R121, R144): the block at the head of the die's TCE is done; its results are written, and the
command is over after its last block. A TCE that is not online does no block (R349). -/
def execTceBlockDone (d : DieId) (s : State) : Out :=
  match (s.die d).tce with
  | [] => .next s
  | j :: rest =>
    if s.sys.tceOnline.getLsbD d.val = false then .next s
    else
    let s := s.modDie d fun x => { x with tce := rest }
    match (s.tile j.tile).portage.buffer.find? fun c => c.id = j.cmd ∧ c.stage = .started with
    | none => .next s
    | some c =>
      let r := tceBlock j.kind j.y j.sh
      let w := if j.kind = .tc1 then 8 else 12
      let bs := wholeBytes j.stream (toBytes w r.stream) ++ wholeBytes j.shAddr [BitVec.ofInt 8 r.sh] ++
        (match j.cost with
          | some a => wholeBytes a (toBytes 4 r.cost)
          | none => [])
      let s := s.writeLocal j.tile c bs
      match c.prog with
      | some p =>
        let e := elemOf p.elem
        if p.done = e.len / 256 ∧ !(rest.any fun k => k.tile = j.tile ∧ k.cmd = j.cmd) then
          .next (s.cmdRuns j.tile c { p with row := e.rows })
        else .next s
      | none => .next s

/-- WS_REFRESH_WINDOW (R90): the window of a group opens. GTIME says which groups refresh; a read that falls in the window is
deferred and counted as it is to be made (`State.refreshing`, `State.deferRead`), and the opening itself changes nothing. -/
def execWsRefreshWindow (_d : DieId) (_g : Fin 16) (s : State) : Out := .next s

/-! ## Landing and retirement (R124, R141, R142, R149, R162) -/

/-- R135: the bank adder updates one element. -/
def reduceElem (sp : Memory) (op : Nat) (dfmt : Lane) (rm : Rm) (x : PReduce) : Memory :=
  match fmtNf dfmt with
  | some f =>
    let c := fmtContainer dfmt
    let old := nfValue (bitsOf (sp.readNat (x.bit / 8) 4) (x.bit % 8) c) f
    let r := match op with
      | 1 => old.add (rm == .rdn) x.v
      | 2 => fpMinMax true old x.v
      | _ => fpMinMax false old x.v
    sp.writeMasked (if c < 8 then
      [(x.bit / 8, BitVec.ofNat 8 (convert r f rm * 2 ^ (x.bit % 8)), BitVec.ofNat 8 ((2 ^ c - 1) * 2 ^ (x.bit % 8)))]
      else wholeBytes (x.bit / 8) (toBytes (c / 8) (convert r f rm)))
  | none => sp

/-- Bytes land in a target. -/
def State.landBytes (s : State) (t : TileId) (dest : PTarget) (bs : List (Nat × Byte × Byte)) : State :=
  match dest with
  | .sp u => (s.modTile u fun x => { x with sp := x.sp.writeMasked bs }).wroteSp u bs
  | .slot => bs.foldl (fun s b => s.modCrew (crewOf t) fun c =>
      c.modSlot (Fin.ofNat 32 (b.1 / 32768)) fun k =>
        { k with data := k.data.put (b.1 % 32768) (mergeBits (k.data.get (b.1 % 32768)) b.2.1 b.2.2) }) s
  | .imem => (s.modCox t fun c => { c with imem := c.imem.writeMasked bs }).modDev fun d => d.wrote (.imem t) (bs.map Prod.fst)
  | .store e =>
    (s.modEng t e fun g => { g with store := g.store.writeMasked bs }).modDev fun d => d.wrote (.store t e) (bs.map Prod.fst)

/-- The member that a write is made at. -/
def PWrite.member : PWrite → Option TileId
  | .bytes (.sp u) _ => some u
  | .bytes _ _ => none
  | .reduce u .. => some u

/-- R162: a write of a tile's Portage lands. -/
def State.landWrite (s : State) (t : TileId) : PWrite → State
  | .bytes dest bs => s.landBytes t dest bs
  | .reduce u op dfmt rm l =>
    match s.goodRead t (l.flatMap fun y => spSites u (y.bit / 8) (max 1 (fmtContainer dfmt / 8))) with
    | (s, true) => s.modTile u fun x => { x with sp := l.foldl (fun m y => reduceElem m op dfmt rm y) x.sp }
    | (s, false) => s

/-- The lines of scratchpad that a write takes, and whether the adder reads them (R135). -/
def PWrite.lines : PWrite → List Nat × Bool
  | .bytes (.sp _) bs => (linesOf (bs.map Prod.fst), false)
  | .bytes _ _ => ([], false)
  | .reduce _ _ _ _ l => (linesOf (l.map fun x => x.bit / 8), true)

/-- A write takes its lines. -/
def Tile.useWrite (x : Tile) (w : PWrite) : Tile :=
  let l := w.lines
  let x := x.useLines .write l.1
  if l.2 then x.useLines .read l.1 else x

/-- R161: the writes of Portage that land in this cycle, and those that wait: a write waits for its banks, and behind an earlier
one to the same bank. -/
def Tile.splitFlight (x : Tile) : Tile × List (Option Nat × PWrite) × List (Option Nat × PWrite) :=
  x.portage.flight.foldl (fun (a : Tile × List (Option Nat × PWrite) × List (Option Nat × PWrite)) w =>
    let l := w.2.lines
    let behind := a.2.2.any fun v => (banksOf v.2.lines.1).any fun b => (banksOf l.1).any fun c => c.1 == b.1
    if !behind && a.1.linesFit .write l.1 && (!l.2 || a.1.linesFit .read l.1) then (a.1.useWrite w.2, a.2.1 ++ [w], a.2.2)
    else (a.1, a.2.1, a.2.2 ++ [w])) (x, [], [])

/-- Is there a write of Portage that lands now? -/
def Tile.flightLands (x : Tile) : Bool := !x.splitFlight.2.1.isEmpty

/-- R149, R162: the writes of a tile's Portage land as their banks serve them; a member acknowledges one that came as a flit. -/
def State.landPortage (s : State) (t : TileId) : State :=
  let r := (s.tile t).splitFlight
  let s := s.modTile t fun _ => { r.1 with portage := { r.1.portage with flight := r.2.2 } }
  r.2.1.foldl (fun s w =>
    let s := s.landWrite t w.2
    match w.1, w.2.member with
    | some c, some u => s.sendFlit (tileStation u) (tileStation t) .response (.ack t c)
    | _, _ => s) s

/-- R58, R142: the directory entries of the sections that a `COVL` has landed. -/
def State.enterSections (s : State) (t : TileId) (e : Elem) : State :=
  if e.ds < 4 then s
  else
    let g := engines.getD (e.ds - 4) .l
    (List.range e.rows).foldl (fun s r =>
      let a := rowAt e.dst e.dstr r
      match sectionsIn (fun off => ((s.tile t).eng g).store.readNat (a + off) 8) e.len e.len 0 with
      | some l => l.foldl (fun s x => s.modEng t g fun n => { n with dir := n.dir.set x.2 (a + x.1) }) s
      | none => s) s

/-- R212, R141: a `COPLD` retires: with FIN the slot has had its last copy, and it is READY when no copy into it is
left. -/
def Crew.endFill (c : Crew) (n : Nat) (fin : Bool) : Crew :=
  c.modSlot (Fin.ofNat 32 n) fun x =>
    let x := { x with started := x.started - 1, fin := x.fin || fin }
    if x.st = .filling ∧ x.fin ∧ x.started = 0 then { x with st := .ready } else x

/-- R124: what retirement makes complete; a `COVL` that moved nothing enters no section (R133). -/
def State.cmdEffects (s : State) (t : TileId) (c : PCmd) : State :=
  match c.instr with
  | .copld _ fin =>
    match c.slot with
    | some n => s.modCrew (crewOf t) fun y => y.endFill n fin
    | none => s
  | .covl _ =>
    match c.prog with
    | some p => if p.ran then (s.enterSections t (elemOf p.elem)).modTile t fun x => { x with image := none } else s
    | none => s
  | _ => s

/-- COMMAND_RETIRE (R124): the command's effects are complete; its token needs room (R56). -/
def execCommandRetire (t : TileId) (id : Nat) (s : State) : Out :=
  let x := s.tile t
  match x.portage.buffer.find? fun c => c.id = id ∧ c.stage = .retiring with
  | none => .next s
  | some c =>
    if s.phase ≠ .ending ∨ x.portage.flight ≠ [] ∨ x.canPush c.stream c.push = false then .next s
    else
      .next ((s.cmdEffects t c).modTile t fun x =>
        let buf := x.portage.buffer.filter fun d => d.id ≠ id
        let idle := !buf.any fun d => d.stage = .started || d.stage = .retiring
        (({ x with portage := { x.portage with buffer := buf, owner := if idle then [] else x.portage.owner } }).retireWord
          c.stream c.seq c.push).modEng c.stream fun g => g.keepRetired c.seq c.index)

/-! ## Answers (R153) -/

/-- Source bytes have come for a command. -/
def Tile.cmdData (x : Tile) (c addr : Nat) (bs : List Byte) : Tile :=
  x.modCmd c fun d => { d with prog := d.prog.map fun p => p.comes addr bs }

/-- A write has been acknowledged. -/
def Tile.cmdAck (x : Tile) (c : Nat) : Tile :=
  x.modCmd c fun d => { d with prog := d.prog.map fun p => { p with unacked := p.unacked - 1 } }

/-- The value of a Signal word has come. -/
def Tile.cmdWord (x : Tile) (c : Nat) (v : Word) : Tile :=
  x.modCmd c fun d => if d.answer = some none then { d with answer := some (some v) } else d

/-- A home has refused: the command will stop, at the refused unit (`back`) where it had been written off. -/
def PProgress.refused (p : PProgress) (code : Byte) (reason addr : Nat) (back : Option (Nat × Nat)) : PProgress :=
  match back with
  | some b =>
    { p with bad := some (p.bad.getD (code, reason, addr)), unacked := p.unacked - 1, units := [], row := b.1, done := b.2 }
  | none => { p with bad := some (p.bad.getD (code, reason, addr)) }

/-- The same in the time buffer; a command of no element stops. -/
def Tile.cmdNack (x : Tile) (c : Nat) (code : Byte) (reason addr : Nat) (back : Option (Nat × Nat)) : Tile :=
  x.modCmd c fun d => { d with
    prog := d.prog.map fun p => p.refused code reason addr back,
    stage := if code = 0 ∧ d.prog.isNone then .stopped else d.stage }

/-! ## The L and S words (R128) -/

/-- `CNOP` (R145). -/
def execCnop (tok : Tok) (timed : Option (BitVec 32)) (s : State) : Out :=
  .next (s.issueCmd (.cnop tok timed) tok (s.startTime timed) 0)
/-- `CPY` (R131). -/
def execCpy (o : ElemOp) (s : State) : Out := .next (s.issueCmd (.cpy o) o.tok (s.startTime o.timed) 0)
/-- `CPYT` (R128): its time is `argb + d`. -/
def execCpyt (o : ElemOp) (d : BitVec 32) (s : State) : Out :=
  let b := (((s.tile s.curTile).eng s.curEng).cur?.map Entry.b).getD 0
  .next (s.issueCmd (.cpyt o d) o.tok (timeNear s.gtime (b.setWidth 32 + d)) 0)
/-- `CPYR` (R135). -/
def execCpyr (o : ElemOp) (s : State) : Out := .next (s.issueCmd (.cpyr o) o.tok (s.startTime o.timed) 0)
/-- `CFILL` (R139). -/
def execCfill (o : ElemOp) (s : State) : Out := .next (s.issueCmd (.cfill o) o.tok (s.startTime o.timed) 0)
/-- `CGATH` (R140). -/
def execCgath (o : ElemOp) (s : State) : Out := .next (s.issueCmd (.cgath o) o.tok (s.startTime o.timed) 0)
/-- `CSCAT` (R140). -/
def execCscat (o : ElemOp) (s : State) : Out := .next (s.issueCmd (.cscat o) o.tok (s.startTime o.timed) 0)
/-- `CSG` (R137). -/
def execCsg (o : ElemOp) (s : State) : Out := .next (s.issueCmd (.csg o) o.tok (s.startTime o.timed) 0)
/-- `CSEAL` (R138). -/
def execCseal (o : ElemOp) (s : State) : Out := .next (s.issueCmd (.cseal o) o.tok (s.startTime o.timed) 0)
/-- `COPLD` (R141). -/
def execCopld (o : ElemOp) (fin : Bool) (s : State) : Out :=
  .next (s.issueCmd (.copld o fin) o.tok (s.startTime o.timed) 0)
/-- `COVL` (R142). -/
def execCovl (o : ElemOp) (s : State) : Out := .next (s.issueCmd (.covl o) o.tok (s.startTime o.timed) 0)
/-- `CWTX` (R143). -/
def execCwtx (o : ElemOp) (s : State) : Out := .next (s.issueCmd (.cwtx o) o.tok (s.startTime o.timed) 0)
/-- `CTCE` (R144). -/
def execCtce (o : ElemOp) (s : State) : Out := .next (s.issueCmd (.ctce o) o.tok (s.startTime o.timed) 0)
/-- `CSIG` (R145). -/
def execCsig (o : CSigOp) (s : State) : Out := .next (s.issueCmd (.csig o) o.tok s.gtime 0)
/-- `CWAIT`, signal form (R145). -/
def execCwaitSignal (o : CSigOp) (s : State) : Out := .next (s.issueCmd (.cwaitSignal o) o.tok s.gtime 0)
/-- `CWAIT`, time form (R145). -/
def execCwaitTime (tok : Tok) (t : BitVec 32) (s : State) : Out :=
  .next (s.issueCmd (.cwaitTime tok t) tok s.gtime (timeNear s.gtime t))
/-- `CPRB` (R145). -/
def execCprb (o : ElemOp) (s : State) : Out := .next (s.issueCmd (.cprb o) o.tok s.gtime 0)
/-- `CEND` (R60, R145). -/
def execCend (tok : Tok) (s : State) : Out := .next (s.issueCmd (.cend tok) tok s.gtime 0 true)

end Sys2Proof.Machine
end

