-- ==== Sys2Proof/Machine/Queues.lean ====
section
/-! DEFINITION. The events of the engine queues: an entry at the head (R59, R210), its start, its retirement (R60),
the end of a token wait (R56), budgets (R254, R273), and the stop of a queue (R63, R336). -/

namespace Sys2Proof.Machine

open Sys2Proof

/-- Is the engine free to go on: no fault, no stop? -/
def Engine.going (g : Engine) : Bool := g.fault.isNone && !g.stopped

/-- R59: the DEP fields met by now; a field once met stays met. -/
def Tile.depsNow (x : Tile) (e : Eng) (h : Header) : BitVec 3 :=
  ((others e).zipIdx).foldl (fun m f =>
    if (x.eng f.1).depMetBy (h.dep.toList.getD f.2 0xFFF) then m ||| BitVec.ofNat 3 (2 ^ f.2) else m) (x.eng e).depMet

/-- R340: does the gang of a tile stop for a pre-emption? -/
def State.stopping (s : State) (t : TileId) : Bool :=
  match s.launchOf t with
  | some l => l.gangs.any fun g => g.tiles.contains t && g.requested && g.preempted
  | none => false

/-- Brings the met fields of a head entry up to date. (Log entry 56, DESIGN CHOICE.) -/
def Tile.seeDeps (x : Tile) (e : Eng) : Tile :=
  match (x.eng e).cur? with
  | some n =>
    if n.st = .head then
      match (x.eng e).section? n.sec.toNat with
      | some (_, h) => x.modEng e fun g => { g with depMet := x.depsNow e h }
      | none => x
    else x
  | none => x

/-- R59, R210: entry `n` reaches the head: its section, its budget and its lease are checked, and the DEP wait begins. -/
def State.arriveHead (s : State) (t : TileId) (e : Eng) (n : Entry) : State :=
  let x := s.tile t
  let stop (code : Byte) (reason : Nat) : State :=
    s.modTile t fun x => x.engFault e code (engInfo reason (4096 * n.sec.toNat) 0) 0
  match (x.eng e).section? n.sec.toNat with
  | none => stop cILLOP 8
  | some _ =>
    if n.budget = 0 then stop cDEADLINE 0
    else if e = .m ∧ x.m.lstate = .none then stop cLEASE 0
    else
      s.modTile t fun x => (x.modEng e fun g =>
        { g.modCur (fun n => { n with st := .head }) with depMet := 0, index := 0, branch := none }).seeDeps e

/-- R353: the granules that are read as an entry reaches the head: its place in the queue, and the header of its section. -/
def Engine.headSites (g : Engine) (t : TileId) (e : Eng) (n : Entry) : List Site :=
  .queue t e :: match g.dir.find? n.sec.toNat with
    | some a => (granules a 8).map (.store t e)
    | none => []

/-- ENTRY_HEAD (R59, R273, R210): the section is looked up, and the DEP wait begins; a check that fails is made again
when the queue resumes. None begins while the gang stops for a pre-emption (R147). -/
def execEntryHead (t : TileId) (e : Eng) (s : State) : Out :=
  let x := s.tile t
  let g := x.eng e
  if !g.going ∨ !x.live ∨ s.stopping t then .next s
  else
    match g.cur? with
    | none => .next s
    | some n =>
      if n.st ≠ .waiting then .next s
      else
        match s.goodRead t (g.headSites t e n) with
        | (s, true) => .next (s.arriveHead t e n)
        | (s, false) => .next (s.modEng t e fun g => { g with stopped := true })

/-- ENTRY_START (R59): with every field met, the words are expanded from index 0. -/
def execEntryStart (t : TileId) (e : Eng) (s : State) : Out :=
  let x := (s.tile t).seeDeps e
  let g := x.eng e
  if !g.going ∨ !x.live then .next s
  else
    match g.cur? with
    | some n =>
      if n.st = .head then
        if g.depMet = 0b111 then
          .next (s.setTile t (x.modEng e fun g =>
            { g.modCur (fun n => { n with st := .running }) with index := 0, branch := none, nextIssue := max g.nextIssue s.gtime }))
        else .next (s.setTile t x)
      else .next s
    | none => .next s

/-- May the first entry of the queue retire (R60)? -/
def Engine.retiring? (g : Engine) : Option Entry :=
  match g.queue with
  | n :: _ => if n.st = .issued ∧ n.pendingWords = 0 then some n else none
  | [] => none

/-- R60: an entry retires. -/
def Engine.retireEntry (g : Engine) (n : Entry) : Engine :=
  { g with queue := g.queue.tail, qseq := g.qseq + 1, lastSec := n.sec, noneRetired := false }

/-- ENTRY_RETIRE (R60): a retirement is seen by DEP checks from the next cycle on; of two of one engine in one cycle each is
seen. (Log entry 56, DESIGN CHOICE.) -/
def execEntryRetire (t : TileId) (e : Eng) (s : State) : Out :=
  match ((s.tile t).eng e).retiring? with
  | some n =>
    if s.phase = .ending then
      .next (s.modTile t fun x => (others e).foldl Tile.seeDeps (x.modEng e fun g => g.retireEntry n))
    else .next s
  | none => .next s

/-- The 12 bytes of the word that an engine is to issue next. -/
def Engine.wordNow (g : Engine) : Option (List Byte) :=
  match g.section? g.curSec with
  | some (a, h) => if g.index < h.len then some (g.wordAt a g.index) else none
  | none => none

/-- R353: the granules of the command store that the word to be issued lies in. -/
def Engine.wordSites (g : Engine) (t : TileId) (e : Eng) : List Site :=
  match g.section? g.curSec with
  | some (a, _) => (granules (a + 8 + 12 * g.index) 12).map (.store t e)
  | none => []

/-- R56: an engine with a word that waits for room in a token FIFO to retire stalls: it issues no word. What it has issued
goes on, and retires. (Log entry 56, DESIGN CHOICE.) -/
def State.engStalled (s : State) (t : TileId) (e : Eng) : Bool :=
  let x := s.tile t
  match e with
  | .v => x.v.flight.any fun l => l.landed
  | .m => (s.crew (crewOf t)).cmds.any (fun c => c.landed && c.tile == laneOf t && !c.replayed) ||
      (match x.m.batches with
        | b :: _ => b.closed && b.unlanded == 0 && !(x.canPush .m b.push)
        | [] => false)
  | e => x.portage.buffer.any fun c => c.stream == e && c.stage == .retiring && !(x.canPush e c.push)

/-- R60, R182, R210, R214: may an engine issue a word in this cycle? -/
def State.engReady (s : State) (t : TileId) (e : Eng) : Bool :=
  let x := s.tile t
  let g := x.eng e
  x.live && g.going && decide (g.nextIssue ≤ s.gtime) && !s.engStalled t e && (e != .m || s.mOpen t) &&
    (match g.cur? with
      | some n => n.st == .running
      | none => false)

/-- The TP field of a word's bytes, by the coding of R37. -/
def popOf (e : Eng) (bs : List Byte) : Option Eng :=
  match bitsOf (ofBytes bs) 34 2 with
  | 0 => none
  | n => (others e)[n - 1]?

/-- TOKEN_WAIT_END (R56): the token that the word at work waits for has come: the engine's word issues as the next
step. -/
def execTokenWaitEnd (t : TileId) (e : Eng) (s : State) : Out :=
  if s.phase = .running ∧ s.engReady t e then
    match ((s.tile t).eng e).wordNow with
    | some bs => if (s.tile t).canPop e (popOf e bs) then .next { s with agenda := .eng t e :: s.agenda } else .next s
    | none => .next s
  else .next s

/-- Is a command a `CWAIT` of a Signal? -/
def PCmd.awaits (c : PCmd) : Bool := match c.instr with
  | .cwaitSignal _ => c.stage == .started
  | _ => false

/-- R340, R147: has a stream finished its head entry, or come to a word that waits on a token FIFO, a DEP or a Signal? -/
def State.streamQuiet (s : State) (t : TileId) (e : Eng) : Bool :=
  let x := s.tile t
  let g := x.eng e
  let waits := x.portage.buffer.any fun c => c.stream == e && c.awaits
  (x.portage.buffer.all fun c => c.stream != e || c.stage == .stopped || c.awaits ||
    (c.stage == .retiring && !x.canPush e c.push) || (c.stage == .buffered && (waits || !g.startsMore))) &&
  ((g.fault.isSome && g.stopped) ||
    (match g.cur? with
      | none => true
      | some n =>
        match n.st with
        | .waiting | .issued => true
        | .head => ((x.seeDeps e).eng e).depMet != 0b111
        | .running => waits || (match g.wordNow with
            | some bs => !x.canPop e (popOf e bs)
            | none => false)))

/-- The entry whose budget has run out. -/
def Engine.overdue? (g : Engine) : Option Entry := g.queue.find? fun n => n.st ≠ .waiting ∧ n.budget = 0

/-- Does the budget of an engine's entries still run: the queue goes on, or words of L or S that issued before an ILLOP are
still to start and retire (R63, R125)? -/
def Engine.expires (g : Engine) (e : Eng) : Bool := g.going || ((e == .l || e == .s) && g.startsMore)

/-- ENTRY_BUDGET_EXPIRY (R56, R273). -/
def execEntryBudgetExpiry (t : TileId) (e : Eng) (s : State) : Out :=
  let g := (s.tile t).eng e
  match g.overdue? with
  | some n =>
    if g.expires e then
      let idx := if g.curSec = n.sec.toNat then g.index else 0
      .next (s.modEng t e fun g => { g with fault := some ⟨cDEADLINE, engInfo 0 (4096 * n.sec.toNat + idx) 0, 0, false⟩ })
    else .next s
  | none => .next s

/-- ITERATION_BUDGET_EXPIRY (R254, R328): iteration DEADLINE is pending. -/
def execIterationBudgetExpiry (t : TileId) (s : State) : Out :=
  let x := s.tile t
  if x.live ∧ x.budget = 0 then .next (s.modCox t fun c => { c with pend := { c.pend with deadline := true } })
  else .next s

/-- Has every issued word of an engine landed or completed (R336)? -/
def State.engQuiet (s : State) (t : TileId) (e : Eng) : Bool :=
  let x := s.tile t
  match e with
  | .v => x.v.flight.all fun l => l.landed
  | .m => !(s.crew (crewOf t)).cmds.any fun c => c.tile == laneOf t && !c.replayed && !c.landed
  | e => !x.portage.buffer.any fun c => c.stream == e &&
      (c.stage == .started || ((x.eng e).startsMore && (c.stage == .buffered || c.stage == .retiring)))

end Sys2Proof.Machine
end

