-- ==== Sys2Proof/Machine/Traps.lean ====
section
/-! DEFINITION. The landings of the Cox (R252, R253, R255, R258), and the events that it takes at cycle boundaries
(R328, R330 to R332, R392, R394). -/

namespace Sys2Proof.Machine

open Sys2Proof

/-! ## Landings (R162, R163, R252) -/

/-- The order of landings at the end of a cycle: the reads of loads, which were made before it, stores, atomics, registers,
and then what a word does as it retires. -/
def CoxWrite.rank : CoxWrite → Nat
  | .load .. => 0
  | .store .. => 1
  | .atomic .. => 2
  | .x .. | .xLoad .. | .p .. | .pall .. | .csr .. | .rf .. | .savest .. | .declare .. => 3
  | .retire => 4
  | .trap _ => 5
  | .resume _ => 6

/-- The first result of a rank that lands now, with the rest. -/
def Tile.dueAt (x : Tile) (now rank : Nat) : Option (CoxLand × List CoxLand) :=
  (x.cox.flight.zipIdx.find? fun l => decide (l.1.w.rank = rank) && x.served now l.2 l.1).map fun l =>
    (l.1, x.cox.flight.eraseIdx l.2)

/-- The first result that lands now, by rank. -/
def Tile.due? (x : Tile) (now : Nat) : Option (CoxLand × List CoxLand) :=
  (List.range 7).findSome? fun r => x.dueAt now r

/-- R280, R259: a CSR takes a value; XVALID written by an earlier region reaches the checkpoint too. -/
def Cox.landCsr (c : Cox) (region n : Nat) (v : Word) : Cox :=
  let d := c.writeCsr n v
  if n = 0x017 ∧ region ≠ c.region then { d with checkpoint := { d.checkpoint with xv := d.xv } } else d

/-- R160, R162: the bytes that a load reads: the scratchpad's, but for those of a multicast that landed after its word issued. -/
def Tile.loadBytes (x : Tile) (addr n : Nat) (old : List (Nat × Byte × Byte)) : List Byte :=
  (x.sp.read addr n).zipIdx.map fun b =>
    match old.find? fun o => o.1 = addr + b.2 with
    | some o => if b.1 = o.2.1 then o.2.2 else b.1
    | none => b.1

/-- R163, R269: the read of a local load, made in cycle `now`; its value reaches its register or its FIFO place three cycles
later, which is four after its word issued unless the bank was busy. -/
def Tile.landLoad (x : Tile) (now : Nat) (l : CoxLand) (addr : Nat) (ty : MemTy) (dst : LoadDst) (old : List (Nat × Byte × Byte)) :
    Tile :=
  let v := extend ty (ofBytes (x.loadBytes addr (widthBytes ty.width) old))
  let w := match dst with
    | .x d => CoxWrite.xLoad d v
    | .rf id => .rf id v
  { x with cox := { x.cox with flight := x.cox.flight ++ [⟨now + 3, l.region, w⟩] } }

/-- R270: an atomic on the tile's own scratchpad. -/
def Tile.landAtomic (x : Tile) (now : Nat) (l : CoxLand) (addr : Nat) (op : SatOp) (signed : Bool) (b c : Word) (id : Nat) : Tile :=
  let old : Word := BitVec.ofNat 64 (x.sp.readNat addr 8)
  { x with
    sp := x.sp.write addr (toBytes 8 (satNew op signed old b c).toNat),
    cox := { x.cox with flight := x.cox.flight ++ [⟨now + 3, l.region, .rf id old⟩] } }

/-- R383: SAVEST takes the state of a slot. -/
def Cox.landSavest (c : Cox) (slot : Fin 16) (st : Nat) (pois : Bool) : Cox :=
  { c with
    saveSt := (c.saveSt &&& ~~~(BitVec.ofNat 32 (3 * 4 ^ slot.val))) ||| BitVec.ofNat 32 (st % 4 * 4 ^ slot.val),
    savePois := setBit c.savePois slot.val pois }

/-- One result of the Cox lands: an access to data beyond correction has no effect (R356), and a queue does not resume during a
hold-up (R374). -/
def State.landCox (s : State) (t : TileId) (l : CoxLand) : State :=
  match l.w with
  | .x d v | .xLoad d v => s.modCox t fun c => c.landX l.region d v
  | .p d v => s.modCox t fun c => c.landP l.region d v
  | .pall v valid => s.modCox t fun c => c.landPall l.region v valid
  | .csr n v => s.modCox t fun c => c.landCsr l.region n.toNat v
  | .store addr bytes => (s.modTile t fun x => { x with sp := x.sp.write addr bytes }).wroteSp t (wholeBytes addr bytes)
  | .load addr ty dst old =>
    match s.goodRead t (spSites t addr (widthBytes ty.width)) with
    | (s, true) => s.modTile t fun x => x.landLoad s.gtime l addr ty dst old
    | (s, false) => s
  | .rf id v => s.modTile t fun x => x.takeReply id v
  | .atomic addr op signed b c id =>
    match s.goodRead t (spSites t addr 8) with
    | (s, true) => s.modTile t fun x => x.landAtomic s.gtime l addr op signed b c id
    | (s, false) => s.retireClosing t
  | .retire => s.retireClosing t
  | .trap imm => s.modCox t fun c => { c with fault := some (⟨0, 0, imm.setWidth 64, 0⟩, c.pc) }
  | .resume e => if s.holding then s else s.modTile t fun x => x.resumeQueue e
  | .savest slot st pois => s.modCox t fun c => c.landSavest slot st pois
  | .declare slot new pd => s.declare t l.region slot new pd

/-- COX_WRITE_LAND (R252, R161): the next result of the tile that lands now. -/
def execCoxWriteLand (t : TileId) (s : State) : Out :=
  match (s.tile t).due? s.gtime with
  | some (l, rest) =>
    if s.phase = .ending then
      .next (((s.modCox t fun c => { c with flight := rest }).modTile t fun x => x.useAccess l.w).landCox t l)
    else .next s
  | none => .next s

/-- The reply that may enter the response FIFO now, with the rest (R255). -/
def Tile.reply? (x : Tile) : Option ((Nat × Word) × List (Nat × Word)) :=
  match x.cox.nextSlot with
  | some id => removeFirst (fun r => r.1 == id) x.replies
  | none => none

/-- R255, R256: the element enters; a word that closes its region retires with it. -/
def State.enterElement (s : State) (t : TileId) (id : Nat) (v : Word) : State :=
  let c := s.cox t
  let closes := c.closing && c.rf.any (fun e => e.id == id && !e.repeatable) && id + 1 == c.nextReq
  let s := s.modCox t fun c => c.deliver id v
  if closes then s.retireClosing t else s

/-- RF_ELEMENT_ARRIVE (R255): replies enter in the issue order of their words. -/
def execRfElementArrive (t : TileId) (s : State) : Out :=
  match (s.tile t).reply? with
  | some (r, rest) => .next ((s.modTile t fun x => { x with replies := rest }).enterElement t r.1 r.2)
  | none => .next s

/-! ## Events at a cycle boundary (R328, R330) -/

/-- What a Cox takes at a boundary. -/
inductive Taken where
  | precise (e : Trap) (tpc : Word)
  | pfail
  | ends (code : Byte)
  | engine (e : Eng) (f : EngFault)
  | hostint
deriving DecidableEq, Repr

/-- The lowest engine whose stopped queue has a fault not yet taken. -/
def Tile.engineEvent (x : Tile) : Option (Eng × EngFault) :=
  List.findSome? (fun e =>
    match (x.eng e).fault with
    | some f => if (x.eng e).stopped && !f.taken then some (e, f) else none
    | none => none) Sys2Proof.engines

/-- R355, R363: the closing word in progress waits for what may never come: it has not acted (R254), its request or answer stands on
a frozen die, or another package has not acknowledged it. (Log entry 31, DEDUCED.) -/
def State.closingLost (s : State) (t : TileId) : Bool :=
  let c := s.cox t
  s.closingWaits t ||
    s.dies.any (fun d => d.2.frozen && (d.2.slots.map Prod.snd ++ d.2.stations.flatMap Prod.snd ++ d.2.ingress.flatMap Prod.snd).any
      fun f => match f.msg with
        | .req u r | .answer u r _ => u == t && c.closingIs r
        | .reply u id _ => u == t && id + 1 == c.nextReq
        | _ => false) ||
    s.fab.sent.any fun k => match k.from' with
      | some (u, r) => u == t && c.closingIs r
      | none => false

/-- R330, R331: the event to be taken now: a precise fault; else, when no region-closing word has an effect on its way,
the first of the pending ones that is deliverable. An iteration DEADLINE ends a wait that nothing else would end. -/
def State.event? (s : State) (t : TileId) : Option Taken :=
  let x := s.tile t
  let c := x.cox
  if !x.live ∨ c.stopped then none
  else
    match c.fault with
    | some (e, pc) => some (.precise e pc)
    | none =>
      if c.closing then (if c.pend.deadline && s.closingLost t then some (.ends cDEADLINE) else none)
      else if c.pend.pfail then some .pfail
      else
        match c.pend.mc with
        | some code => some (.ends code)
        | none =>
          if c.pend.deadline then some (.ends cDEADLINE)
          else if c.tm then none
          else
            match x.engineEvent with
            | some (e, f) => some (.engine e f)
            | none => if c.pend.hostint ∧ c.ie then some .hostint else none

/-- Clears what has been taken. -/
def Pending.clear (p : Pending) : Taken → Pending
  | .pfail => { p with pfail := false }
  | .ends _ => { p with mc := none, deadline := false }
  | .hostint => { p with hostint := false }
  | _ => p

/-- The engine's fault has been reported. -/
def Tile.takenBy (x : Tile) (e : Eng) : Tile :=
  x.modEng e fun g => { g with fault := g.fault.map fun f => { f with taken := true } }

/-- TRAP_ENTRY (R330): the Cox takes the event that is due and enters its handler, or ends its iteration where TVEC
is off or R331 says so. -/
def execTrapEntry (t : TileId) (s : State) : Out :=
  let c := s.cox t
  match s.event? t with
  | some (.precise e pc) => .next ((s.modCox t fun c => { c with fault := none }).takeTrap t e pc)
  | some .pfail =>
    .next ((s.modCox t fun c => { c with pend := c.pend.clear .pfail }).takeTrap t ⟨cPFAIL, 5, 0, 0⟩ c.pc)
  | some (.engine e f) => .next ((s.modTile t fun x => x.takenBy e).takeTrap t ⟨f.code, e.src, f.info, f.addr⟩ c.pc)
  | some .hostint =>
    .next ((s.modCox t fun c => { c with pend := c.pend.clear .hostint }).takeTrap t ⟨cHOSTINT, 5, c.tint, 0⟩ c.pc)
  | some (.ends _) | none => .next s

/-- R332: the iteration that an event has ended is over: L and S have finished the entries that had begun. -/
def State.endsNow (s : State) (t : TileId) : Bool :=
  (s.tile t).ending.isSome && s.streamQuiet t .l && s.streamQuiet t .s

/-- ITERATION_END (R328, R332): a machine check, CHKDIV or iteration DEADLINE ends the iteration; its tile is given up once
its streams have finished. -/
def execIterationEnd (t : TileId) (s : State) : Out :=
  match s.event? t with
  | some (.ends code) => .next ((s.modCox t fun c => { c with pend := Pending.reset }).endIteration t code)
  | _ =>
    if s.endsNow t then .next (s.endNow t ((s.tile t).ending.getD 0)) else .next s

/-- TINT_WRITE (R392): the value is latched, and HOSTINT is pending; ignored without an allocated iteration, and while
READY = 0 (R394). -/
def execTintWrite (t : TileId) (v : Word) (s : State) : Out :=
  if s.sys.ready && (s.tile t).live then
    .next (s.modCox t fun c => { c with tint := v, pend := { c.pend with hostint := true } })
  else .next s

/-- TDBG_RESUME (R394): a halted Cox goes on after its `HALT`. -/
def execTdbgResume (t : TileId) (s : State) : Out :=
  if s.sys.ready ∧ ((s.cox t).halted ∨ (s.cox t).dbgHalted) then
    .next (s.modCox t fun c => { c with halted := false, dbgHalted := false, nextIssue := max c.nextIssue s.gtime })
  else .next s

end Sys2Proof.Machine
end

