-- ==== Sys2Proof/Machine/Course.lean ====
section
/-! DEFINITION. The Course: its slots and rounds (R150 to R152), messages in sequence (R153, R154), bridges (R19), what
messages do as they arrive at a tile (R156, R157, R255, R258), and multicast (R158 to R160). -/

namespace Sys2Proof.Machine

open Sys2Proof

/-! ## Slots, rounds and entries (R150, R151) -/

/-- R150: the slot that passes a station. -/
def slotAt (now st : Nat) : Nat := (st + 132 - now % 132) % 132
/-- R151: the round of a slot. -/
def roundOf (now k : Nat) : Nat := (now + k) / 132 % 16

/-- R151: the Pitch entry of the slot that passes a station. -/
def State.pitchAt (s : State) (d : DieId) (st : Nat) : BitVec 16 :=
  let k := slotAt s.gtime st
  (s.die d).pitch.get (132 * roundOf s.gtime k + k) 0

/-- KIND of an entry. -/
def pitchKind (p : BitVec 16) : Nat := bitsOf p.toNat 14 2
/-- OWNER of an entry. -/
def pitchOwner (p : BitVec 16) : Nat := bitsOf p.toNat 0 8

/-- The flit in the slot that passes a station. -/
def State.passing (s : State) (d : DieId) (st : Nat) : Option Flit := (s.die d).slots.find? (slotAt s.gtime st)

/-! ## Classes, routes and sequence (R19, R153, R154) -/

/-- R19: the station of die `d` at which a flit for `dst` leaves its Course. -/
def exitOf (d dst : Nat) : Nat :=
  if dst / 132 = d then dst % 132 else if (dst / 132 + 4 - d) % 4 = 3 then 131 else 130

/-- R19: the die and station beyond a bridge station. -/
def bridge (d st : Nat) : DieId × Nat :=
  if st = 130 then (Fin.ofNat 4 (d + 1), 131) else (Fin.ofNat 4 (d + 3), 130)

/-! ## Injection (R150, R152) -/

/-- R152: the flit that a station injects: its oldest timed one, else its oldest. -/
def nextOut (l : List Flit) : Option (Flit × List Flit) :=
  match removeFirst (fun f => f.timed) l with
  | some r => some r
  | none => removeFirst (fun _ => true) l

/-- R152: may the station inject into the slot that passes it? `own` asks for a slot reserved to it. -/
def State.mayInject (s : State) (d : DieId) (st : Nat) (own : Bool) : Bool :=
  let p := s.pitchAt d st
  (s.passing d st).isNone && !(s.die d).frozen &&
    ((pitchKind p == 1 && pitchOwner p == st) || (!own && pitchKind p == 0))

/-- A slot takes a flit. -/
def State.fillSlot (s : State) (d : DieId) (st : Nat) (f : Flit) : State :=
  s.modDie d fun x => { x with slots := x.slots.set (slotAt s.gtime st) f }

/-- FLIT_INJECT (R150, R152): a station injects into the slot that passes it. -/
def execFlitInject (d : DieId) (st : Fin 132) (s : State) : Out :=
  match nextOut ((s.die d).stations.get st.val []) with
  | some (f, rest) =>
    if s.mayInject d st.val false then
      let r := (s.modDie d fun x => { x with stations := x.stations.set st.val rest }).number d st.val f
      .next (r.1.fillSlot d st.val r.2)
    else .next s
  | none => .next s

/-! ## Arrival at a tile -/

/-- R81, R84: is the tile counted in the collective that is open on an extent? -/
def State.inCollective (s : State) (t : TileId) (ext : Nat) : Bool :=
  match (s.extent? ext).bind Extent.coll with
  | some c => c.arrived.contains t
  | none => false

/-- R258, R84: the answer to a request that places no element, or the refusal of a load. -/
def State.answered (s : State) (t : TileId) (r : Req) (fault : Option Trap) : State :=
  if r.closing && !(s.cox t).closingIs r then s
  else
    match fault with
    | some e => if r.closing then s.refuseClosing t r e else s.refuseLoad t r e
    | none =>
      let s := match r.act with
        | .recast ext .. =>
          if s.inCollective t ext then s.modTile t fun x => { x with arrived := ext :: x.arrived.filter fun e => e ≠ ext }
          else s
        | _ => s
      match r.act with
      | .launch pd xd .. => s.launchAnswer t pd xd true 0
      | _ => if r.closing then s.retireClosing t else s

/-- R246: bytes of a line reach the program that asked for them. -/
def Program.lineData (p : Program) (addr : Nat) (bs : List Byte) : Program :=
  { p with got := bs.zipIdx.foldl (fun m b => m.set (addr + b.2) b.1) p.got }

/-- Changes the program of a group. -/
def State.modProgram (s : State) (g : Nat) (f : Program → Program) : State :=
  s.modGroup g fun e => { e with prog := e.prog.map f }

/-- R324: the first Signal operation of the die's announcements has been performed. -/
def Die.told (x : Die) : Die :=
  { x with notices := match x.notices with
    | n :: l => { n with csig := none, compsig := if n.csig.isSome then n.compsig else none, sent := false } :: l
    | [] => [] }

/-- H moves up over the marked numbers. -/
def raiseHigh : Nat → Nat → List Nat → Nat × List Nat
  | 0, h, marks => (h, marks)
  | k + 1, h, marks =>
    let n := (h + 1) % 2 ^ 32
    if marks.contains n then raiseHigh k n (marks.filter fun m => m ≠ n) else (h, marks)

/-- R247: a committed number is marked, and H moves up. -/
def Fabric.commit (f : Fabric) (src : Byte) (n : BitVec 32) : Fabric :=
  let marks := n.toNat :: f.marks.get src.toNat []
  let r := raiseHigh marks.length (f.high.get src.toNat 0) marks
  { f with high := f.high.set src.toNat r.1, marks := f.marks.set src.toNat r.2 }

/-- A packet is being committed no more. -/
def Fabric.applied (f : Fabric) (src : Byte) (n : BitVec 32) : Fabric :=
  { f with applying := f.applying.filter fun k => k ≠ (src, n) }

/-- What a message does that is no request for a home or a bank. -/
def State.receive (s : State) : Msg → State
  | .req _ _ | .granule _ | .ask .. | .cpAsk .. | .oper .. | .void => s
  | .told (.die d) => s.modDie d Die.told
  | .told (.packet _ src seq) => s.modFab fun f => (f.commit src seq).applied src seq
  | .launch d q => s.modDie d fun x => { x with poolReqs := x.poolReqs ++ [q] }
  | .cpData g addr bs => s.modProgram g fun p => p.lineData addr bs
  | .cpWord g v => s.modProgram g fun p => { p with seen := some v }
  | .cpAck g => s.modProgram g fun p => { p with unacked := p.unacked - 1 }
  | .cpNack g code => s.modProgram g fun p => { p with refused := some code }
  | .reply t id v => s.modTile t fun x => x.takeReply id v
  | .answer t r fault => s.answered t r fault
  | .flipNotice t ext =>
    if s.inCollective t ext then s else s.modTile t fun x => { x with arrived := x.arrived.filter fun e => e ≠ ext }
  | .data t c addr bs => s.modTile t fun x => x.cmdData c addr bs
  | .word t c v => s.modTile t fun x => x.cmdWord c v
  | .ack t c => s.modTile t fun x => x.cmdAck c
  | .nack t c code reason addr back => s.modTile t fun x => x.cmdNack c code reason addr back

/-! ## Arrival (R150, R153, R154) -/

/-- Is a station a bridge station? -/
def isBridge (st : Nat) : Bool := st == 130 || st == 131

/-- R153, R154: does the station accept the flit that has reached it? -/
def State.accepts (s : State) (d : DieId) (st : Nat) (f : Flit) : Bool :=
  let x := s.die d
  match f.msg with
  | .granule _ => decide (f.seq < s.gtime)
  | _ =>
    if isBridge st then
      let b := bridge d.val st
      !(s.die b.1).frozen &&
        decide ((((s.die b.1).stations.get b.2 []).filter fun g => g.cls = f.cls).length < 8)
    else
      x.seqIn.get (tripleKey f.src f.dst f.cls) 0 == f.seq &&
        decide ((x.ingress.get (ingressKey st f.cls) []).length < 8)

/-- The flit that arrives at a station in this cycle and is accepted. -/
def State.arriving (s : State) (d : DieId) (st : Nat) : Option Flit :=
  match s.passing d st with
  | some f => if !(s.die d).frozen && exitOf d.val f.dst == st && s.accepts d st f then some f else none
  | none => none

/-- R153: a message for the ingress buffer of its class. -/
def State.enqueue (s : State) (d : DieId) (st : Nat) (f : Flit) : State :=
  s.modDie d fun x =>
    { x with ingress := x.ingress.set (ingressKey st f.cls) (x.ingress.get (ingressKey st f.cls) [] ++ [f]) }

/-- The message is delivered: to the next die, to its ingress buffer, or to the tile at once. -/
def State.deliverFlit (s : State) (d : DieId) (st : Nat) (f : Flit) : State :=
  if isBridge st then
    let b := bridge d.val st
    s.modDie b.1 fun x => { x with stations := x.stations.set b.2 (x.stations.get b.2 [] ++ [f]) }
  else
    let s := s.modDie d fun x => { x with seqIn := x.seqIn.set (tripleKey f.src f.dst f.cls) (f.seq + 1) }
    match f.msg with
    | .req t r =>
      match r.act with
      | .winStore _ off bytes =>
        s.modTile (Fin.ofNat 512 (128 * d.val + st)) fun x => { x with winIn := x.winIn ++ [(t.val, off, bytes)] }
      | _ => s.enqueue d st f
    | .ask t c a =>
      match a with
      | .store _ w => s.modTile t fun x => { x with portage := { x.portage with flight := x.portage.flight ++ [(some c, w)] } }
      | _ => s.enqueue d st f
    | .cpAsk g a =>
      match a with
      | .store u (.bytes _ bs) => s.modTile u fun x => { x with cpIn := x.cpIn ++ [(g, bs)] }
      | _ => s.enqueue d st f
    | .oper .. | .void => s.enqueue d st f
    | m => s.receive m

/-- R356: the tile for which a message comes to a tile's station. -/
def Msg.consumer : Msg → State → TileId
  | .req t _, _ | .reply t _ _, _ | .answer t _ _, _ | .flipNotice t _, _ | .ask t _ _, _ | .data t _ _ _, _ | .word t _ _, _
  | .ack t _, _ | .nack t _ _ _ _ _, _ => t
  | .cpAsk g _, s | .cpData g _ _, s | .cpWord g _, s | .cpAck g, s | .cpNack g _, s => (s.group g).owner
  | .granule g, _ => g.src
  | .oper t _ _ _, _ => t.getD 0
  | .told _, _ | .launch .., _ | .void, _ => 0

/-- R356: a flit that cannot be corrected: fatal at a home's or a bridge's station; at a tile's it is contained for the tile
that it comes for, and what it says is lost. -/
def State.lostFlit (s : State) (d : DieId) (st : Nat) (f : Flit) : State :=
  if isBridge st then s.recordMc d (36 + (st - 130)) ⟨3, cMCSRAM, 0, none, none⟩
  else if 128 ≤ st then s.recordMc d 35 ⟨3, cMCSRAM, 0, none, none⟩
  else
    let s := match f.msg with
      | .granule _ => s
      | _ => s.modDie d fun x => { x with seqIn := x.seqIn.set (tripleKey f.src f.dst f.cls) (f.seq + 1) }
    let u : TileId := Fin.ofNat 512 (128 * d.val + st)
    (s.recordMc d ((crewOf u).val % 32) (contained cMCSRAM (laneOf u).val none none)).chargeMc (f.msg.consumer s) cMCSRAM

/-- FLIT_ARRIVE (R150, R153, R154): the destination takes the flit and empties the slot; a refused flit goes on. -/
def execFlitArrive (d : DieId) (st : Fin 132) (s : State) : Out :=
  match s.arriving d st.val with
  | some f =>
    if s.phase = .ending then
      let k := slotAt s.gtime st.val
      let r := (s.modDie d fun x => { x with slots := x.slots.erase k }).checkSites [.flit d k]
      match r.2 with
      | some _ => .next ((r.1.modDev fun m => m.dropFlaws fun q => q == .flit d k).lostFlit d st.val f)
      | none =>
        match f.msg with
        | .granule _ => .next r.1
        | _ => .next (r.1.deliverFlit d st.val f)
    else .next s
  | none => .next s

/-! ## Window reads and atomics at their member (R156, R154) -/

/-- R154: has the destination applied every WRITE that the source of a REQ injected before it? -/
def Die.writesApplied (x : Die) (st : Nat) (f : Flit) : Bool :=
  decide (f.writesBefore ≤ x.seqIn.get (tripleKey f.src f.dst .write) 0) &&
    !((x.ingress.get (ingressKey st .write) []).any fun g => g.src = f.src ∧ g.seq < f.writesBefore)

/-- Is a window request an atomic? -/
def Flit.atomic (f : Flit) : Bool := match f.msg with
  | .req _ r => (match r.act with
    | .winAtomic .. => true
    | _ => false)
  | _ => false

/-- The line of the scratchpad that a request at a tile's station reaches. -/
def Flit.line? (f : Flit) : Option Nat :=
  match f.msg with
  | .req _ r => (match r.act with
    | .winLoad _ off _ | .winAtomic _ off .. => some (off / 64)
    | _ => none)
  | .ask _ _ (.line _ _ off) | .cpAsk _ (.line _ _ off) => some (off / 64)
  | _ => none

/-- R161: can the bank serve a request now? A read sees what this cycle lands, and is one of the next cycle's. -/
def Tile.servesFlit (x : Tile) (f : Flit) : Bool :=
  match f.line? with
  | none => true
  | some l => if f.atomic then x.linesFit .write [l] && x.linesFit .read [l] else x.linesFit .ahead [l]

/-- The window request that may be served at a tile's station, an atomic or a read, and those that stay. -/
def State.windowReq (s : State) (atomic : Bool) (d : DieId) (st : Nat) : Option (Flit × List Flit) :=
  if (s.die d).frozen then none
  else removeFirst (fun f => f.atomic == atomic && (s.die d).writesApplied st f &&
    (s.tile (Fin.ofNat 512 (128 * d.val + st))).servesFlit f) ((s.die d).ingress.get (ingressKey st .req) [])

/-- R148, R156, R246: the request is served at the bank, and its result travels back: a load, an atomic, or a line for a
member's Portage or for a processor. -/
def State.serveWindow (s : State) (atomic : Bool) (d : DieId) (st : Nat) : State :=
  match s.windowReq atomic d st with
  | none => s
  | some (f, rest) =>
    let s := s.modDie d fun x => { x with ingress := x.ingress.set (ingressKey st .req) rest }
    let u : TileId := Fin.ofNat 512 (128 * d.val + st)
    let s := s.modTile u fun x =>
      let l := f.line?.toList
      if f.atomic then (x.useLines .write l).useLines .read l else x.useLines .ahead l
    match f.msg with
    | .req t r =>
      match r.act with
      | .winLoad _ off ty =>
        match s.goodRead t (spSites u off (widthBytes ty.width)) with
        | (s, true) =>
          s.sendFlit (station d st) f.src .response (.reply t r.id (extend ty ((s.tile u).sp.readNat off (widthBytes ty.width))))
        | (s, false) => s
      | .winAtomic _ off op signed b c =>
        match s.goodRead t (spSites u off 8) with
        | (s, true) =>
          let old : Word := BitVec.ofNat 64 ((s.tile u).sp.readNat off 8)
          let s := s.modTile u fun x => { x with sp := x.sp.write off (toBytes 8 (satNew op signed old b c).toNat) }
          s.sendFlit (station d st) f.src .response (.reply t r.id old)
        | (s, false) => s.sendFlit (station d st) f.src .response (.answer t r none)
      | _ => s
    | .ask t c (.line addr _ off) =>
      match s.goodRead t (spSites u off 64) with
      | (s, true) => s.sendFlit (station d st) f.src .response (.data t c addr ((s.tile u).sp.read off 64))
      | (s, false) => s.sendFlit (station d st) f.src .response (.nack t c 0 0 addr none)
    | .cpAsk g (.line addr _ off) =>
      match s.goodRead (s.group g).owner (spSites u off 64) with
      | (s, true) => s.sendFlit (station d st) f.src .response (.cpData g addr ((s.tile u).sp.read off 64))
      | (s, false) => s
    | _ => s

/-- R161: of writes that have arrived, those whose bank serves them in this cycle, and those that wait. -/
def Tile.splitWrites {α : Type} (x : Tile) (line : α → List Nat) (l : List α) : Tile × List α × List α :=
  l.foldl (fun (a : Tile × List α × List α) w =>
    let behind := a.2.2.any fun v => (banksOf (line v)).any fun b => (banksOf (line w)).any fun c => c.1 == b.1
    if !behind && a.1.linesFit .write (line w) then (a.1.useLines .write (line w), a.2.1 ++ [w], a.2.2)
    else (a.1, a.2.1, a.2.2 ++ [w])) (x, [], [])

/-- The lines of a processor's write. -/
def cpLines (w : Nat × List (Nat × Byte × Byte)) : List Nat := linesOf (w.2.map Prod.fst)
/-- The line of a window store. -/
def winLines (w : Nat × Nat × List Byte) : List Nat := [w.2.1 / 64]

/-- R157, R161, R162, R246: the lines of processors that have arrived land, then the window stores, as their banks serve them;
with the lines and the stores that have landed. -/
def Tile.landWindow (x : Tile) : Tile × List (Nat × List (Nat × Byte × Byte)) × List (Nat × Nat × List Byte) :=
  let a := x.splitWrites cpLines x.cpIn
  let b := a.1.splitWrites winLines x.winIn
  let sp := a.2.1.foldl (fun m w => m.writeMasked w.2) x.sp
  ({ b.1 with sp := b.2.1.foldl (fun m w => m.write w.2.1 w.2.2) sp, winIn := b.2.2, cpIn := a.2.2 }, a.2.1, b.2.1)

/-- Does a write that has arrived land now? -/
def Tile.windowLands (x : Tile) : Bool :=
  let y := x.landWindow.1
  decide (y.winIn.length < x.winIn.length) || decide (y.cpIn.length < x.cpIn.length)

/-- The same, with an acknowledgement for each line of a processor. -/
def State.landWindow (s : State) (t : TileId) : State :=
  let r := (s.tile t).landWindow
  let s := (s.modTile t fun _ => r.1).wroteSp t (r.2.1.flatMap Prod.snd ++ r.2.2.flatMap fun w => wholeBytes w.2.1 w.2.2)
  r.2.1.foldl (fun s w => s.sendFlit (tileStation t) (cpStation (s.group w.1).cp) .response (.cpAck w.1)) s

/-! ## Multicast (R158 to R160) -/

/-- R158: may the head of a tile's multicast queue leave in this cycle? -/
def State.mcLeaves (s : State) (t : TileId) : Bool :=
  let p := s.pitchAt (dieOf t) (stationOf t)
  !(s.tile t).mcQueue.isEmpty && pitchKind p == 2 && pitchOwner p == stationOf t &&
    (s.passing (dieOf t) (stationOf t)).isNone && !(s.die (dieOf t)).frozen

/-- MULTICAST_DEPART (R158): the oldest entry leaves in a slot reserved to its station; every member copies it on its way. -/
def execMulticastDepart (t : TileId) (s : State) : Out :=
  match (s.tile t).mcQueue with
  | g :: rest =>
    if s.mcLeaves t ∧ s.phase = .ending then
      let s := s.modTile t fun x => { x with mcQueue := rest }
      .next (s.fillSlot (dieOf t) (stationOf t)
        ⟨tileStation t, tileStation t, .write, s.gtime, 0, false, .granule g⟩)
    else .next s
  | [] => .next s

/-- R160: the granule that lands next: of the lowest member. -/
def Tile.landing? (x : Tile) (now : Nat) : Option (McGranule × List McGranule) :=
  let ready := x.delay.filter fun g => g.due ≤ now
  match (ready.map McGranule.member).min? with
  | some m => removeFirst (fun g => decide (g.due ≤ now) && g.member == m) x.delay
  | none => none

/-- R160: a load whose word has issued keeps the bytes that a multicast writes. -/
def CoxWrite.keepOld (w : CoxWrite) (sp : Memory) (bs : List (Nat × Byte × Byte)) : CoxWrite :=
  match w with
  | .load a ty d old => .load a ty d (old ++ bs.filterMap fun b =>
      if old.any fun o => o.1 = b.1 then none else some (b.1, mergeBits (sp.get b.1) b.2.1 b.2.2, sp.get b.1))
  | w => w

/-- R159, R160: a granule is written at a member. -/
def Tile.landMulticast (x : Tile) (g : McGranule) : Tile :=
  let bs := g.bytes.map fun b => (g.off + b.1, b.2)
  let x := x.useLines .write (linesOf (bs.map Prod.fst))
  { x with
    sp := x.sp.writeMasked bs,
    cox := { x.cox with flight := x.cox.flight.map fun l => { l with w := l.w.keepOld x.sp bs } } }

/-- MULTICAST_LAND (R159, R160): a granule is written at its member. -/
def execMulticastLand (t : TileId) (s : State) : Out :=
  match (s.tile t).landing? s.gtime with
  | some (g, rest) =>
    if s.phase = .ending then
      .next ((s.modTile t fun x => { x with delay := rest }.landMulticast g).wroteSp t (g.bytes.map fun b => (g.off + b.1, b.2)))
    else .next s
  | none => .next s

end Sys2Proof.Machine
end

