-- ==== Sys2Proof/Machine/Fabric.lean ====
section
/-! DEFINITION. The package's side of the fabric: packets sent, held, acknowledged and sent again (R229, R247, R248), the
window of numbers at a receiver (R247), links (R227, R363) and the GTIME bound (R228). -/

namespace Sys2Proof.Machine

open Sys2Proof

/-! ## Sending (R247, R248) -/

/-- Is an earlier packet to a package unacknowledged? -/
def Fabric.unackedTo (f : Fabric) (dst : Byte) : Bool := f.sent.any fun k => k.pkt.dst = dst

/-- Does the packet of a flag wait for those before it (R248)? -/
def waitsFor : PacketBody → Bool
  | .flag a => a.ord == .rel || a.ord == .ar
  | _ => false

/-- R247, R248: a packet to another package is numbered, kept, and sent, or held when it is a flag of order `rel` or `ar`
behind an unacknowledged packet. Once the ports have left the domain (R228), or none works (R363), nothing is sent. -/
def State.sendPacket (s : State) (dst : Byte) (body : PacketBody) (from' : Option (TileId × Req)) (group : Option Nat) :
    State :=
  let n := (s.fab.seqOut.get dst.toNat 0 + 1) % 2 ^ 32
  let held := s.fab.cut || (waitsFor body && s.fab.unackedTo dst)
  let k : Sent :=
    { pkt := ⟨s.sys.pkg, dst, BitVec.ofNat 32 n, body⟩, sentAt := if held then none else some s.gtime, from' := from',
      group := group }
  let s := s.modFab fun f => { f with seqOut := f.seqOut.set dst.toNat n, sent := f.sent ++ [k] }
  match group with
  | some g => s.modGroup g fun e => { e with unacked := e.unacked + 1 }
  | none => s

/-- A Signal operation on a word of this package, sent from a station to the word's home, or a flag to another one
(R23, R246, R249, R324). -/
def State.signalAt (s : State) (src : Nat) (t : Option TileId) (pkg : Byte) (a : SigAccess) (back : Option Teller) : State :=
  if pkg = s.sys.pkg then s.sendFlit src (homeStation (signalHome a.word)) .signal (.oper t a.word a.act back)
  else s.sendPacket pkg (.flag a) none none

/-! ## Acknowledgements (R247, R248) -/

/-- Does a packet to `pkg` with number `n` wait for its acknowledgement? -/
def Sent.named (k : Sent) (pkg : Byte) (n : BitVec 32) : Bool := k.pkt.dst == pkg && k.pkt.seq == n

/-- ACK_ARRIVE (R248): the packet is let go; the value of a Signal operation goes to the word that asked for it. None comes
once the ports have left the domain (R228). -/
def execAckArrive (pkg : Byte) (seq : BitVec 32) (val : Option Word) (s : State) : Out :=
  match s.fab.sent.find? fun k => !s.fab.outOfDomain && k.named pkg seq && k.sentAt.isSome with
  | none => .next s
  | some k =>
    let s := s.modFab fun f => { f with sent := f.sent.filter fun j => !j.named pkg seq }
    let s := match k.group with
      | some g => s.modGroup g fun e => { e with unacked := e.unacked - 1 }
      | none => s
    match k.from', val with
    | some (t, r), some v => if r.slot then .next (s.modTile t fun x => x.takeReply r.id v) else .next s
    | _, _ => .next s

/-- RESEND_TIMEOUT (R248): after 4,096 cycles without an acknowledgement the packet is sent again. -/
def execResendTimeout (pkg : Byte) (seq : BitVec 32) (s : State) : Out :=
  if s.fab.cut then .next s
  else
    .next (s.modFab fun f =>
      { f with sent := f.sent.map fun k =>
          match k.sentAt with
          | some c => if k.named pkg seq ∧ c + 4096 ≤ s.gtime then { k with sentAt := some s.gtime } else k
          | none => k })

/-- The first flag that waits to leave for a package, when nothing before it is unacknowledged. -/
def firstHeld (pkg : Byte) : List Sent → Option Sent
  | [] => none
  | k :: l => if k.pkt.dst = pkg then (if k.sentAt = none then some k else none) else firstHeld pkg l

/-- FLAG_DEPART (R248): a held flag leaves once every earlier packet to its package has been acknowledged, and while the
ports are in the domain (R228) and one works (R363). (Log entry 40, DESIGN CHOICE.) -/
def execFlagDepart (pkg : Byte) (s : State) : Out :=
  match firstHeld pkg s.fab.sent with
  | some k =>
    if s.fab.cut then .next s
    else .next (s.modFab fun f =>
      { f with sent := f.sent.map fun j => if j.named pkg k.pkt.seq then { j with sentAt := some s.gtime } else j })
  | none => .next s

/-! ## Receiving (R247) -/

/-- What the number of an arriving packet makes of it; one that is being committed is not acknowledged yet. -/
inductive Fresh where
  | duplicate | beyond | fresh
deriving DecidableEq, Repr

/-- R247: the number against H and the marks above it, modulo 2^32 within half the range. -/
def Fabric.freshness (f : Fabric) (src : Byte) (n : BitVec 32) : Fresh :=
  let h := f.high.get src.toNat 0
  let d := (n.toNat + 2 ^ 32 - h) % 2 ^ 32
  if d = 0 ∨ 2 ^ 31 ≤ d ∨ (f.marks.get src.toNat []).contains n.toNat then .duplicate
  else if 64 < d ∨ f.applying.contains (src, n) then .beyond
  else .fresh

/-! ## Links and the GTIME bound (R227, R228, R363) -/

/-- LINK_CRC_RETRY (R227, R363): the link sends the flit again, and the event is recorded in the bank of its port; the
record's promotion retires the link, which is recorded too. -/
def execLinkCrcRetry (port : CpId) (s : State) : Out :=
  .next (s.recordMc (Fin.ofNat 4 (port.val / 8)) (38 + port.val % 8) (corrected cMCLINK 0 none none))

/-- GTIME_BOUND_LOSS (R228, R363): a fatal event in bank 47; the ports leave the domain. (Log entry 19, DEDUCED.) -/
def execGtimeBoundLoss (s : State) : Out :=
  .next ((s.recordMc 0 47 ⟨3, cMCLINK, 0, none, none⟩).modFab fun f => { f with outOfDomain := true })

end Sys2Proof.Machine
end

