-- ==== Sys2Proof/Machine/Home.lean ====
section
/-! DEFINITION. The memory homes: the accesses that they serve (R68 to R79, R86 to R88, R287, R356), replicas (R71), and the
recast agent (R81, R82, R84, R85). -/

namespace Sys2Proof.Machine

open Sys2Proof

/-! ## The home of a request (R21, R23, R81) -/

/-- The home of an extent's BASE. -/
def State.homeOfBase (s : State) (t : TileId) (ext : Nat) : HomeId :=
  match s.extent? ext with
  | some e => s.homeOfVa t e.base
  | none => homeOf (dieOf t).val 0

/-- The address of the element at a cursor. -/
def State.cursorVa (s : State) (t : TileId) (ext seg : Nat) (write : Bool) : Nat :=
  match s.extent? ext, s.seg? t ext seg with
  | some e, some g => e.addr (min (if write then g.wcur else g.rcur) (e.count - 1))
  | _, _ => 0

/-- The home that a request goes to, with its class (R153); none for a request that no home serves. An `EXTNEW` names no
address yet: it goes to home 0 of the issuing tile's die, as does a word that names a free extent.
(Log entry 51, DESIGN CHOICE.) -/
def State.reqHome (s : State) (t : TileId) : ReqAct → Option (HomeId × Cls)
  | .ldi va _ => some (s.homeOfVa t va, .req)
  | .lds ext seg _ => some (s.homeOfVa t (s.cursorVa t ext seg false), .req)
  | .sts ext seg _ => some (s.homeOfVa t (s.cursorVa t ext seg true), .write)
  | .close ext seg => some (s.homeOfVa t (s.cursorVa t ext seg true), .write)
  | .adda ext i _ _ => some (s.homeOfVa t (((s.extent? ext).map fun e => e.addr i).getD 0), .write)
  | .signal _ a => some (signalHome a.word, .signal)
  | .extnew .. => some (homeOf (dieOf t).val 0, .req)
  | .recast ext .. => some (s.homeOfBase t ext, .req)
  | .extq ext .. => some (s.homeOfBase t ext, .req)
  | .extfree ext => some (s.homeOfBase t ext, .req)
  | .launch _ _ _ va _ _ => some (s.homeOfVa t va, .req)
  | _ => none

/-! ## Fields of an extent (R87) -/

/-- R87: the value of a field. -/
def State.extField (s : State) (ext seg field : Nat) : Word :=
  match s.extent? ext with
  | none => 0
  | some e =>
    if e.segs.length ≤ seg then 0
    else
    match field with
    | 0 => BitVec.ofNat 64 e.base
    | 1 => BitVec.ofNat 64 e.count
    | 2 => e.fmt.setWidth 64
    | 3 => BitVec.ofNat 64 (e.key + e.tier * 2 ^ 16 + (if e.acap then 2 ^ 18 else 0) + e.wsdie * 2 ^ 19)
    | 4 => BitVec.ofInt 64 e.abp
    | 5 => BitVec.ofNat 64 e.holders
    | 6 => match e.coll with
      | some c => BitVec.ofNat 64 c.count
      | none => 0
    | 7 => BitVec.ofNat 64 e.segs.length
    | f =>
      match e.segs[seg]? with
      | none => 0
      | some g =>
        match f with
        | 16 => BitVec.ofNat 64 g.start
        | 17 => BitVec.ofNat 64 g.stop
        | 18 => BitVec.ofNat 64 (e.stateField g)
        | 19 => BitVec.ofNat 64 g.epoch
        | 20 => BitVec.ofNat 64 g.wcur
        | 21 => BitVec.ofNat 64 g.rcur
        | 22 => BitVec.ofNat 64 ((if g.ovf then 1 else 0) + (if g.inv then 2 else 0) + (if g.blkovf then 4 else 0) +
            (if g.blkunf then 8 else 0))
        | _ => 0

/-! ## Replicas (R71) -/

/-- The line of a replica, and of a read that a replica may serve. -/
def lineOf (va : Nat) : Nat := va / 32 * 32

/-- R71, R98: the replica in a die's cache that holds `n` bytes of I data, tagged with context, extent, epoch and address. -/
def Die.replica? (x : Die) (ctx ext epoch va n : Nat) : Option Replica :=
  x.replicas.find? fun r => r.ctx = ctx ∧ r.ext = ext ∧ r.epoch = epoch ∧ r.addr ≤ va ∧ va + n ≤ r.addr + r.data.length

/-- The extent of `n` bytes at an address and the epoch of the I segment that they lie in, if they lie in one. -/
def State.iEpoch (s : State) (va n : Nat) : Option (Nat × Nat) :=
  match s.walk va with
  | none => none
  | some p =>
    match s.extent? (pteExt p.pte) with
    | none => none
    | some e =>
      match e.segOf (e.elemsAt (va - e.base)).1, e.segOf (e.elemsAt (va + n - 1 - e.base)).2 with
      | some (_, g), some (_, h) => if g.st = .i ∧ g = h then some (pteExt p.pte, g.epoch) else none
      | _, _ => none

/-- The bytes that a replica takes of a read: the whole line where it lies in one segment, else what was asked for. -/
def State.replicaSpan (s : State) (va n : Nat) : Nat × Nat :=
  if s.iEpoch (lineOf va) 32 = s.iEpoch va n then (lineOf va, 32) else (va, n)

/-- R71, R356: the bytes of an `LDI`: from the reading die's replica when there is one, a bad one being discarded and
fetched again; else from the home, leaving a replica when the home lies on another die; a full cache replaces some.
(Log entry 47, DESIGN CHOICE.) -/
def State.ldiBytes (s : State) (h : HomeId) (t : TileId) (va n : Nat) (chk : Check) : State × Option (List Byte) :=
  let d := dieOf t
  let rep := match s.iEpoch va n with
    | some (ext, ep) => if s.inPair t ∨ lineOf va + 32 < va + n then none else (s.die d).replica? s.sys.context ext ep va n
    | none => none
  match rep, chk with
  | some r, .good | some r, .residue => (s, some ((r.data.drop (va - r.addr)).take n))
  | some r, .single b =>
    (s.recordMc d 46 (corrected cMCSRAM 0 none (some b.val)), some ((r.data.drop (va - r.addr)).take n))
  | rep, chk =>
    let s := match rep with
      | some r => (s.modDie d fun x => { x with replicas := x.replicas.filter fun y => y ≠ r }).recordMc d 46
          (corrected cMCSRAM 0 none none)
      | none => s
    let chk := if rep.isSome then .good else chk
    match s.pageFor t va with
    | none => (s, some (s.vread t va n))
    | some p =>
      let r := s.checkedRead (some t) (pteTier p.pte) (p.at' va) n chk
      if r.2 = false then (r.1, none)
      else
        let s := match s.iEpoch va n with
          | some (ext, ep) =>
            if h.val / 2 ≠ d.val ∧ s.inPair t = false ∧ va + n ≤ lineOf va + 32 then
              let sp := s.replicaSpan va n
              (r.1.modDie d fun x => { x with
                replicas := ⟨s.sys.context, ext, ep, sp.1, s.vread t sp.1 sp.2⟩ :: x.replicas.take (Config.freeKept s.fresh) }).tick 1
            else r.1
          | none => r.1
        (s, some (s.vread t va n))

/-! ## Serving (R68, R72, R73, R76 to R79, R287) -/

/-- A reply or an answer leaves the home for its tile. -/
def State.replyTo (s : State) (h : HomeId) (t : TileId) (m : Msg) : State :=
  s.sendFlit (homeStation h) (tileStation t) .response m

/-- The answer of a home that accepts. -/
def State.accept (s : State) (h : HomeId) (t : TileId) (r : Req) : State := s.replyTo h t (.answer t r none)

/-- A home's refusal. -/
def State.refuse (s : State) (h : HomeId) (t : TileId) (r : Req) (code : Byte) (reason : Nat) (addr : Word) : State :=
  s.replyTo h t (.answer t r (some ⟨code, 0, BitVec.ofNat 64 reason, addr⟩))

/-- What a check at the home makes of an access: it is refused, it waits (none), or it goes on. -/
def State.afterHome (s : State) (h : HomeId) (t : TileId) (r : Req) (chk : Chk) (k : Unit → State) : Option State :=
  match chk with
  | .ok => some (k ())
  | .wait => none
  | .fault code reason addr => some (s.refuse h t r code reason addr)

/-- R67, R73: the physical address of cell `i`: the cell pages follow the element pages. -/
def cellPhys (pages : List (Nat × Nat)) (off : Nat) : Nat :=
  match pages with
  | [] => 0
  | p :: l => if off < p.2 then p.1 + off else cellPhys l (off - p.2)

/-- The physical address of cell `i` of an extent. -/
def Extent.cellAt (e : Extent) (i : Nat) : Nat := cellPhys e.pages (alignUp e.bytes (pageSizeFor e.bytes).1 + 8 * i)

/-- R93, R359: the read half of a change of cells: each 256-byte unit once, the first under `chk`. -/
def State.checkCells (s : State) (t : Option TileId) (e : Extent) (is : List Nat) (chk : Check) : State × Bool :=
  ((is.map fun i => e.cellAt i / 256 * 256).eraseDups.zipIdx).foldl (fun c u =>
    if c.2 then c.1.checkedChange t e.tier u.1 256 (if u.2 = 0 then chk else .good) else c) (s, true)

/-- R84: does the extent of an address convert? -/
def State.convertsAt (s : State) (t : TileId) (va : Nat) : Bool :=
  match s.pageFor t va with
  | some p => (s.extent? (pteExt p.pte)).any Extent.converting
  | none => false

/-- R84: what an address says to a load that has reached its home: an access by address under the roles that it finds there,
XLATE where the extent has gone (R88). -/
def State.addrState (s : State) (t : TileId) (va w : Nat) : Chk :=
  match s.pageFor t va with
  | none => .fault cXLATE 0 (BitVec.ofNat 64 va)
  | some p =>
    match s.extent? (pteExt p.pte) with
    | none => .fault cXLATE 0 (BitVec.ofNat 64 va)
    | some e => if e.converting then .wait else s.addrFaults t (pteExt p.pte) e va w

/-- `LDI` at its home (R76): it waits while its extent converts, and what the flip has made of the segment decides (R84).
(Log entry 13, DEDUCED.) -/
def State.serveLdi (s : State) (h : HomeId) (t : TileId) (r : Req) (va : Nat) (ty : MemTy) (chk : Check) : Option State :=
  match s.addrState t va (widthBytes ty.width) with
  | .wait => none
  | .fault code reason addr => some (s.refuse h t r code reason addr)
  | .ok =>
    match s.ldiBytes h t va (widthBytes ty.width) chk with
    | (s, some l) => some (if r.slot then s.replyTo h t (.reply t r.id (extend ty (ofBytes l))) else s)
    | (s, none) => some s

/-- `LDS` at its home (R72, R77). -/
def State.serveLds (s : State) (h : HomeId) (t : TileId) (r : Req) (ext seg : Nat) (touch : Bool) (chk : Check) :
    Option State :=
  s.afterHome h t r (s.streamCheck t (BitVec.ofNat 64 ext) seg .cursor true) fun _ =>
    match s.extent? ext, s.seg? t ext seg with
    | some e, some g =>
      let va := e.addr g.rcur
      let c := match s.pageFor t va with
        | some p => s.checkedRead (some t) (pteTier p.pte) (p.at' va) (ceilDiv e.bits 8) chk
        | none => (s, true)
      if c.2 = false then c.1.accept h t r
      else
        let v : Word := BitVec.ofNat 64 (s.readElem t e g.rcur)
        let s := c.1.modSegment t ext seg fun g => { g with rcur := g.rcur + 1, reader := some t }
        if touch then s.accept h t r else s.replyTo h t (.reply t r.id v)
    | _, _ => s

/-- `STS` at its home (R72, R78, R369). -/
def State.serveSts (s : State) (h : HomeId) (t : TileId) (r : Req) (ext seg : Nat) (v : Word) : Option State :=
  s.afterHome h t r (s.streamCheck t (BitVec.ofNat 64 ext) seg .append true) fun _ =>
    match s.extent? ext, s.seg? t ext seg with
    | some e, some g =>
      let s := s.writeElem t e g.wcur (v.toNat % 2 ^ e.bits)
      let s := s.signAppend t ((toBytes (ceilDiv e.bits 8) (v.toNat % 2 ^ e.bits)).zipIdx.map fun b =>
        (e.base + g.wcur * e.bits / 8 + b.2, b.1))
      let s := s.healUnits t (e.base + ceilDiv (g.start * e.bits) 8) (e.base + g.wcur * e.bits / 8)
        (e.base + (g.wcur + 1) * e.bits / 8)
      (s.modSegment t ext seg fun g => { g with wcur := g.wcur + 1, writer := some t }).accept h t r
    | _, _ => s

/-- R93: where appends to a segment have left a row incomplete, the home completes it from its old units, which it reads; under what
the check of the unit at the cursor finds. -/
def State.completeRow (s : State) (t : Option TileId) (e : Extent) (g : Segment) (chk : Check) : State × Bool :=
  if e.tier ≠ 0 ∨ g.st ≠ .sOpen ∨ g.wcur = g.start then (s, true)
  else
    match s.walk (e.addr (min g.wcur (e.count - 1))) with
    | none => (s, true)
    | some p =>
      let phys := p.at' (e.addr (min g.wcur (e.count - 1)))
      if phys % 81920 = 0 then (s, true)
      else
        let mates := (rowMates phys).filter fun a => phys < a
        mates.foldl (fun c a => if c.2 then c.1.readHbm t a 256 .good else c) (s.readHbm t phys 256 chk)

/-- `CLOSE` at its home (R72, R78, R93). -/
def State.serveClose (s : State) (h : HomeId) (t : TileId) (r : Req) (ext seg : Nat) (chk : Check) : Option State :=
  s.afterHome h t r (s.closeCheck t (BitVec.ofNat 64 ext) seg) fun _ =>
    let c := match s.extent? ext, s.seg? t ext seg with
      | some e, some g => s.completeRow (some t) e g chk
      | _, _ => (s, true)
    if c.2 then (c.1.modSegment t ext seg fun g => { g with st := .sClosed, writer := some t }).accept h t r
    else c.1.accept h t r

/-- `ADDA` at its home (R73, R79). -/
def State.serveAdda (s : State) (h : HomeId) (t : TileId) (r : Req) (ext i : Nat) (v : Word) (ty : AddTy) (chk : Check) :
    Option State :=
  s.afterHome h t r (s.addaCheck t (BitVec.ofNat 64 ext) (BitVec.ofNat 64 i)) fun _ =>
    match s.extent? ext with
    | some e =>
      let c := s.checkedChange (some t) e.tier (e.cellAt i) 8 chk
      if c.2 = false then c.1.accept h t r
      else (c.1.setExtent ext (e.addCell i (addOperand e.abp ty v))).accept h t r
    | none => s

/-- The record of a check of Signal SRAM: a single bit is corrected, a double bit poisons the word (R356). -/
def State.checkSignal (s : State) (w : BitVec 17) (chk : Check) : State :=
  match chk with
  | .good | .residue => s
  | .single b => s.recordMc (Fin.ofNat 4 (w.toNat / 32768)) 35
      (corrected cMCSRAM 0 (some (6, BitVec.ofNat 64 w.toNat)) (some b.val))
  | .double => s.modDev fun d => { d with sigPoison := w.toNat :: d.sigPoison.filter fun x => x ≠ w.toNat }

/-- A Signal operation at its home (R287, R290, R356). -/
def State.serveSignal (s : State) (h : HomeId) (t : TileId) (r : Req) (a : SigAccess) (chk : Check) : State :=
  let s := s.checkSignal a.word chk
  if s.dev.poisoned a.word a.act then
    let s := s.signalBad (some t) a.word
    if r.closing then s.accept h t r else s
  else
    let p := s.dev.perform a.word a.act
    let s := s.modDev fun _ => p.2
    if r.slot then s.replyTo h t (.reply t r.id p.1) else s

/-- R287, R290, R356: an operation on a Signal word for Portage, or an add of the device. -/
def State.performAt (s : State) (t : Option TileId) (w : BitVec 17) (a : SigAct) (chk : Check) : State × Option Word :=
  let s := s.checkSignal w chk
  if s.dev.poisoned w a then (s.signalBad t w, none)
  else
    let p := s.dev.perform w a
    (s.modDev fun _ => p.2, some p.1)

/-- R68, R69, R84: what the segments say, at the home, to the elements that an access of Portage asks for. Past the extent's
elements lie the shifts of its blocks, which have no role. -/
def State.useCheck (s : State) (t : TileId) (va : Nat) (use : PUse) (write : Bool) : Chk :=
  match s.extentAt t va with
  | none => .fault cXLATE 0 (BitVec.ofNat 64 va)
  | some (id, e) =>
    if s.convertsAt t va then .wait
    else if use.hi ≤ use.lo then .ok
    else if use.addr ∧ e.tier ≠ 2 then s.addrCheck t id use.lo (use.hi - use.lo)
    else
      let d : DevSide :=
        { first := use.lo, last := use.hi - 1, ext := none, align := 1, need := if write then .write else .read, write := write,
          add := false, wtx := write && e.tier == 2, wtxSrc := false, indexed := false, scattered := false }
      let lo := (e.elemsAt (use.lo - e.base)).1
      let hi := (e.elemsAt (use.hi - 1 - e.base)).2
      ((numbersFrom lo (hi + 1 - lo)).findSome? fun i =>
        match s.roleCheck t d id e i (use.first && i == lo) with
        | .ok => none
        | c => some c).getD .ok

/-- R69: the streams that the elements of an access lie in are bound to the tile. -/
def State.bindUse (s : State) (t : TileId) (va : Nat) (use : PUse) (write : Bool) : State :=
  match s.extentAt t va with
  | none => s
  | some (id, e) =>
    if use.hi ≤ use.lo ∨ use.addr then s
    else
      let lo := (e.elemsAt (use.lo - e.base)).1
      let hi := (e.elemsAt (use.hi - 1 - e.base)).2
      e.segs.zipIdx.foldl (fun s g =>
        let h := (s.seg? t id g.2).getD g.1
        if (h.st = .sOpen ∨ h.st = .sClosed) ∧ h.start ≤ hi ∧ lo < h.stop then s.bind t id g.2 write else s) s

/-- A read of device memory by Portage (R21, R90, R93, R94, R131): a stream binds its reader (R69), and a check may fail. -/
def State.askRead (s : State) (h : HomeId) (t : TileId) (c va n : Nat) (use : PUse) (chk : Check) : Option State :=
  match s.useCheck t va use false with
  | .wait => none
  | .fault code reason _ => some (s.replyTo h t (.nack t c code reason va none))
  | .ok =>
    match (s.bindUse t va use false).ldiBytes h t va n chk with
    | (s, some l) => some (s.replyTo h t (.data t c va l))
    | (s, none) => some (s.replyTo h t (.nack t c 0 0 va none))

/-- A write of device memory by Portage: an append binds its writer (R69). -/
def State.askPut (s : State) (h : HomeId) (t : TileId) (c : Nat) (bs : List (Nat × Byte × Byte)) (use : PUse)
    (back : Nat × Nat) : Option State :=
  let va := (bs.head?.map Prod.fst).getD 0
  match s.useCheck t va use true with
  | .wait => none
  | .fault code reason _ => some (s.replyTo h t (.nack t c code reason (va / 32 * 32) (some back)))
  | .ok =>
    some ((bs.foldl (fun s b => s.vput t b.1 (mergeBits (s.vbyte t b.1) b.2.1 b.2.2)) (s.bindUse t va use true)).replyTo
      h t (.ack t c))

/-- Adds to cells by Portage (R73, R135). -/
def State.askCells (s : State) (h : HomeId) (t : TileId) (c ext : Nat) (l : List (Nat × Int × Bool)) (va : Nat)
    (back : Nat × Nat) (chk : Check) : Option State :=
  match s.extent? ext with
  | none => some (s.replyTo h t (.nack t c cXLATE 0 (va / 32 * 32) (some back)))
  | some e =>
    if e.converting then none
    else if l.all (fun x => match e.segOf x.1 with
        | some (_, g) => g.st == .a
        | none => false) = false then some (s.replyTo h t (.nack t c cROLE 1 va (some back)))
    else
      let m := s.checkCells (some t) e (l.map Prod.fst) chk
      if m.2 = false then some (m.1.replyTo h t (.nack t c 0 0 va (some back)))
      else some ((m.1.setExtent ext (l.foldl (fun e x => e.addCell x.1 x.2) e)).replyTo h t (.ack t c))

/-- R72, R131, R93: a cursor goes on for Portage; appended units are whole again. It waits while the extent converts; where
the cursor is no longer where the unit found it (R84), the command is refused with ROLE. -/
def State.askMove (s : State) (h : HomeId) (t : TileId) (c : Nat) (write : Bool) (ext seg n va bit bits : Nat)
    (back : Nat × Nat) : Option State :=
  let gone (code : Byte) (reason : Nat) : Option State :=
    some (s.replyTo h t (.nack t c code reason (va / 32 * 32) (some back)))
  match s.extent? ext, s.seg? t ext seg with
  | some e, some g =>
    if e.converting then none
    else if (g.st ≠ .sOpen ∧ g.st ≠ .sClosed) ∨ (if write then g.wcur else g.rcur) ≠ e.indexAt bit then gone cROLE 1
    else
      let s := if write ∧ fmtIsBlock e.fmt = false then
          s.healUnits t (e.base + ceilDiv (g.start * e.bits) 8) (e.base + bit / 8) (e.base + (bit + bits) / 8)
        else s
      some ((s.modSegment t ext seg fun g =>
        if write then { g with wcur := g.wcur + n, writer := some t }
        else { g with rcur := g.rcur + n, reader := some t }).replyTo h t (.ack t c))
  | _, _ => gone cXLATE 0

/-- R249: a launch packet. -/
def launchPacket (src : Byte) (va : Nat) (route : Word) (csig : BitVec 32) : List Byte :=
  let l := [BitVec.ofNat 8 route.toNat, src, BitVec.ofNat 8 (bitsOf route.toNat 17 3)] ++ List.replicate 5 0 ++
    toBytes 8 va ++ toBytes 4 csig.toNat ++ List.replicate 40 0
  l ++ toBytes 4 (crc32c l).toNat

/-- R227, R249, R320: a launch packet is handed to a port, and its word may retire. -/
def State.portLaunch (s : State) (h : HomeId) (t : TileId) (r : Req) (va : Nat) (route : Word) (csig : BitVec 32) : State :=
  (s.sendPacket (BitVec.ofNat 8 (bitsOf route.toNat 8 8)) (.launch (launchPacket s.sys.pkg va route csig)) (some (t, r))
    none).accept h t r

/-- R320, R153: the record of a launch is read, and the launch is sent to the pool of its die. (Log entry 28, DEDUCED.) -/
def State.readLaunch (s : State) (h : HomeId) (t : TileId) (r : Req) (va : Nat) (route : Word) (chk : Check) : Option State :=
  match s.addrState t va 256, s.pageFor t va with
  | .wait, _ => none
  | .fault code reason addr, _ => some (s.refuse h t r code reason addr)
  | .ok, none => some (s.refuse h t r cXLATE 0 (BitVec.ofNat 64 va))
  | .ok, some p =>
    match s.checkedRead (some t) (pteTier p.pte) (p.at' va) 256 chk with
    | (s, false) => some (s.accept h t r)
    | (s, true) =>
      let l := s.launchOf t
      let d : DieId := Fin.ofNat 4 (bitsOf route.toNat 6 2)
      some (s.sendFlit (homeStation h) (homeStation (homeOf d.val 0)) .control (.launch d
        { queue := Fin.ofNat 64 route.toNat, bytes := s.vread t va 256, depth := ((l.map Launch.depth).getD 0) + 1,
          parent := l.map Launch.id, compsig := none, from' := some (t, r) }))

/-- What a home does for a command of Portage; none while it must wait. -/
def State.serveAsk (s : State) (h : HomeId) (t : TileId) (c : Nat) (a : PAsk) (chk : Check) : Option State :=
  match a with
  | .read va n use => s.askRead h t c va n use chk
  | .put bs use back => s.askPut h t c bs use back
  | .cells ext l va back => s.askCells h t c ext l va back chk
  | .move write ext seg n va bit bits back => s.askMove h t c write ext seg n va bit bits back
  | .signal w act =>
    match s.performAt (some t) w act chk with
    | (s, some v) => some (s.replyTo h t (.word t c v))
    | (s, none) => some (s.replyTo h t (.nack t c 0 0 0 none))
  | .line .. | .store .. => some s

/-- R287: is an `sc` operation of the tile that comes before request `id` still to be performed on a word?
(Log entry 32, DEDUCED.) -/
def Tile.scBefore (x : Tile) (id : Nat) (w : BitVec 17) : Bool := x.scOps.any fun o => decide (o.2.id < id) &&
  match o.2.act with
  | .signal _ a => a.word == w
  | _ => false

/-- A request at a home; none while it must wait. -/
def State.serve (s : State) (h : HomeId) (t : TileId) (r : Req) (chk : Check) : Option State :=
  match r.act with
  | .ldi va ty => s.serveLdi h t r va ty chk
  | .lds ext seg touch => s.serveLds h t r ext seg touch chk
  | .sts ext seg v => s.serveSts h t r ext seg v
  | .close ext seg => s.serveClose h t r ext seg chk
  | .adda ext i v ty => s.serveAdda h t r ext i v ty chk
  | .signal pkg a =>
    if pkg ≠ s.sys.pkg then some (s.sendPacket pkg (.flag a) (some (t, r)) none)
    else if a.ord = .sc then some s
    else if (s.tile t).scBefore r.id a.word then none
    else some (s.serveSignal h t r a chk)
  | .launch _ _ _ va route csig =>
    if route.getLsbD 16 then some (s.portLaunch h t r va route csig) else s.readLaunch h t r va route chk
  | .extnew l acap =>
    let n := s.extnew l acap
    some (n.1.replyTo h t (.reply t r.id n.2.value))
  | .extq ext seg field => some (s.replyTo h t (.reply t r.id (s.extField ext seg field)))
  | .extfree ext =>
    match s.extent? ext with
    | none => some (s.refuse h t r cPROT 0 (BitVec.ofNat 64 ext))
    | some e =>
      if e.collOpen then some (s.refuse h t r cROLE 1 (BitVec.ofNat 64 e.base)) else some ((s.extfree ext).accept h t r)
  | _ => none

/-! ## The steps of a home (R402) -/

/-- The first flit of a list that `f` answers for, with its answer and the rest. -/
def pickFirst {β : Type} (f : Flit → Option β) : List Flit → Option (β × List Flit)
  | [] => none
  | a :: l =>
    match f a with
    | some b => some (b, l)
    | none => (pickFirst f l).map fun r => (r.1, a :: r.2)

/-- R154: does its order let a flit be served? -/
def State.flitInOrder (s : State) (h : HomeId) (f : Flit) : Bool :=
  f.cls != .req || (s.die (Fin.ofNat 4 (h.val / 2))).writesApplied (128 + h.val % 2) f

/-- The state after the first message of one class that can be served. -/
def State.serveClass (s : State) (h : HomeId) (c : Cls) (k : Msg → Option State) : Option State :=
  let d : DieId := Fin.ofNat 4 (h.val / 2)
  let key := ingressKey (128 + h.val % 2) c
  match pickFirst (fun f => if s.flitInOrder h f then k f.msg else none) ((s.die d).ingress.get key []) with
  | some (s', rest) => some (s'.modDie d fun x => { x with ingress := x.ingress.set key rest })
  | none => none

/-- The station at which one is told. -/
def Teller.station : Teller → Nat
  | .die d => homeStation (homeOf d.val 0)
  | .packet st _ _ => st

/-- R239: a processor reads a part of its program, for the owner of its group, with which a refusal ends the rank. -/
def State.cpRead (s : State) (h : HomeId) (g va n : Nat) (chk : Check) : Option State :=
  let e := s.group g
  let back (s : State) (m : Msg) : Option State := some (s.sendFlit (homeStation h) (cpStation e.cp) .response m)
  match s.addrState e.owner va n, s.pageFor e.owner va with
  | .wait, _ => none
  | .fault code _ _, _ => back s (.cpNack g code)
  | .ok, none => back s (.cpNack g cXLATE)
  | .ok, some p =>
    match s.checkedRead (some e.owner) (pteTier p.pte) (p.at' va) n chk with
    | (s, true) => back s (.cpData g va (s.vread e.owner va n))
    | (s, false) => some s

/-- A message at a home; none while it must wait, or when it is no message for the home to serve. -/
def State.serveMsg (s : State) (h : HomeId) (chk : Check) : Msg → Option State
  | .req t r => s.serve h t r chk
  | .ask t c a => s.serveAsk h t c a chk
  | .oper t w a back =>
    let s := (s.performAt t w a chk).1
    match back with
    | some k => some (s.sendFlit (homeStation h) k.station .response (.told k))
    | none => some s
  | .cpAsk g (.read va n _) => s.cpRead h g va n chk
  | .cpAsk g (.signal w a) =>
    let p := s.performAt (some (s.group g).owner) w a chk
    some (p.1.sendFlit (homeStation h) (cpStation (s.group g).cp) .response (.cpWord g (p.2.getD 0)))
  | .void => some s
  | _ => none

/-- HOME_ACCESS_DONE (R402): the home finishes the first access that it can serve. -/
def execHomeAccessDone (h : HomeId) (chk : Check) (s : State) : Out :=
  if (s.die (Fin.ofNat 4 (h.val / 2))).frozen then .next s
  else
    match [Cls.req, .write, .signal].findSome? fun c => s.serveClass h c (s.serveMsg h chk) with
    | some s' => .next s'
    | none => .next s

/-! ## The recast agent (R81, R82, R84) -/

/-- R81: an arrival at the home of BASE; none while the extent converts. -/
def State.recastArrive (s : State) (h : HomeId) (t : TileId) (r : Req) : Option State :=
  match r.act with
  | .recast ext lo hi role fresh sig =>
    match s.extent? ext with
    | none => some (s.refuse h t r cPROT 0 (BitVec.ofNat 64 ext))
    | some e =>
      if e.converting then none
      else
        let base : Word := BitVec.ofNat 64 e.base
        match e.recastFault lo hi role fresh with
        | some f => some (s.refuse h t r f.1 f.2 base)
        | none =>
          let c : Collective := e.coll.getD ⟨lo, hi, role, fresh, sig, 0, false, []⟩
          if c.lo ≠ lo ∨ c.hi ≠ hi ∨ c.role ≠ role ∨ c.fresh ≠ fresh ∨ c.sig ≠ sig then some (s.refuse h t r cROLE 3 base)
          else
            let n := c.count + 1
            let c := { c with count := n, arrived := t :: c.arrived, convert := n == e.holders }
            some ((s.setExtent ext { e with coll := some c }).accept h t r)
  | _ => none

/-- RECAST_ARRIVAL (R81): the home handles the first arrival that it does not hold. -/
def execRecastArrival (h : HomeId) (s : State) : Out :=
  if (s.die (Fin.ofNat 4 (h.val / 2))).frozen then .next s
  else
    match s.serveClass h .req (fun m => match m with
      | .req t r => s.recastArrive h t r
      | _ => none) with
    | some s' => .next s'
    | none => .next s

/-- R93, R359: what a flip reads: the old units of rows that appends have left incomplete, and in a near-memory pass the cells; a
row or a unit of cells that fails has no iteration that consumed it, and is recorded; what the pass makes of it is poisoned. -/
def State.flipReads (s : State) (e : Extent) (c : Collective) : State :=
  let s := e.segs.foldl (fun s g => (s.completeRow none e g .good).1) s
  if e.tier ≠ 0 ∨ (s.dev.poison = [] ∧ s.dev.badParity = [] ∧ s.dev.flaws = [] ∧ s.dev.retiredChannels = []) ∨ c.role = .a then s
  else
    (e.segs.filter fun g => g.st == .a).foldl (fun s g =>
      (numbersFrom (max g.start c.lo) (min g.stop c.hi - max g.start c.lo)).foldl (fun s i =>
        let r := s.checkCells none e [i] .good
        if r.2 then r.1
        else
          match r.1.walk (e.addr i) with
          | some p => r.1.modDev fun d => { d with poison := p.at' (e.addr i) / 256 :: d.poison.filter fun x => x ≠ p.at' (e.addr i) / 256 }
          | none => r.1) s) s

/-- R20, R21, R92: the dies whose homes hold units of a page: both of the parity group's stacks, in HBM. -/
def pageDies (tier phys : Nat) : List DieId :=
  if tier = 0 then [0, 1].map fun k => Fin.ofNat 4 (2 * (phys / 343597383680) + k) else [Fin.ofNat 4 ((homeFor tier phys).val / 2)]

/-- RECAST_FLIP (R81, R82, R85): the conversion ends at every home that holds a unit of the extent; roles, segments and epochs change, the Signal add is sent to its
word's home, and every arrived tile is told. -/
def execRecastFlip (ext : Fin 65536) (s : State) : Out :=
  match s.extent? ext.val with
  | none => .next s
  | some e =>
    match e.coll with
    | none => .next s
    | some c =>
      if c.convert = false ∨ (e.pages.all fun p => (pageDies e.tier p.1).all fun d => !(s.die d).frozen) = false then .next s
      else
        let h := match s.walk e.base with
          | some p => homeFor (pteTier p.pte) (p.at' e.base)
          | none => homeOf 0 0
        let s := (s.flipReads e c).flip ext.val e c
        let s := match c.sig with
          | some w => s.sendFlit (homeStation h) (homeStation (signalHome w)) .signal (.oper none w (.atom .add false 1) none)
          | none => s
        .next (c.arrived.eraseDups.foldl (fun s t =>
          s.sendFlit (homeStation h) (tileStation t) .control (.flipNotice t ext.val)) s)

end Sys2Proof.Machine
end

