-- ==== Sys2Proof/Machine/Group.lean ====
section
/-! DEFINITION. Groups and their step programs: the record and the table (R231 to R236), the step words (R239 to R246),
and how a rank ends (R237, R238). -/

namespace Sys2Proof.Machine

open Sys2Proof

/-! ## The record (R233) -/

/-- A 64-byte group record. -/
structure GroupRec where
  prog : Nat
  rtab : Nat
  base : Nat
  limit : Nat
  budget : Nat
  rsv : Nat
  fmts : Vector Lane 4
  group : Nat
  count : Nat
  rank : Nat
  nstep : Nat
  donesig : Nat
  cp : Nat
  rm : Nat
  rsv2 : Nat
deriving DecidableEq, Repr

/-- A field of a record. -/
def grpField (l : List Byte) (off n : Nat) : Nat := ofBytes ((l.drop off).take n)

/-- R233: the layout. -/
def groupRecOf (l : List Byte) : GroupRec where
  prog := grpField l 0x00 8
  rtab := grpField l 0x08 8
  base := grpField l 0x10 4
  limit := grpField l 0x14 4
  budget := grpField l 0x18 4
  rsv := grpField l 0x1C 4
  fmts := Vector.ofFn fun i => BitVec.ofNat 32 (grpField l (0x20 + 4 * i.val) 4)
  group := grpField l 0x30 2
  count := grpField l 0x32 2
  rank := grpField l 0x34 2
  nstep := grpField l 0x36 2
  donesig := grpField l 0x38 4
  cp := grpField l 0x3C 1
  rm := grpField l 0x3D 1
  rsv2 := grpField l 0x3E 2

/-- The group id. -/
def GroupRec.id (r : GroupRec) : Nat := r.group % 4096
/-- The generation. -/
def GroupRec.gen (r : GroupRec) : Nat := r.group / 4096

/-- R233: the limits of DONESIG. -/
def donesigOk (d : Nat) : Bool :=
  if bitOf d 31 then decide (2 ≤ bitsOf d 28 3) && decide (bitsOf d 28 3 ≤ 4) && bitsOf d 25 3 == 0 else d == 0

/-- R233: does the record keep its limits? -/
def GroupRec.ok (r : GroupRec) : Bool :=
  r.prog % 8 == 0 && r.rtab % 2 == 0 && r.base % 32 == 0 && r.limit % 32 == 0 && decide (32 ≤ r.limit) &&
  decide (r.base + r.limit ≤ 2 ^ 20) && decide (1 ≤ r.budget) && r.rsv == 0 &&
  (List.range 4).all (fun i => fmtWf r.fmts[Fin.ofNat 4 i] && decide (fmtKind r.fmts[Fin.ofNat 4 i] ≤ 7)) &&
  decide (r.count ≤ 256) && decide (r.rank < r.count) && decide (1 ≤ r.nstep) && decide (r.nstep ≤ 4095) &&
  donesigOk r.donesig && decide (r.cp ≤ 31) && decide (r.rm ≤ 5) && r.rsv2 == 0

/-- A rounding mode by its code (R110). -/
def rmOfCode : Nat → Rm
  | 0 => .rne
  | 1 => .rtz
  | 2 => .rup
  | 3 => .rdn
  | 4 => .rneSat
  | _ => .rtzSat

/-- DONESIG as a Signal operation. -/
def donesigOf (d : Nat) : Option (Scope × Byte × BitVec 17) :=
  if bitOf d 31 then some ((scopeOf (bitsOf d 28 3)).getD .dom, BitVec.ofNat 8 (bitsOf d 17 8), BitVec.ofNat 17 (bitsOf d 0 17))
  else none

/-! ## The end of a program (R235, R237) -/

/-- R235: the status word. -/
def statusWord (p : Program) (code : Byte) (step origin : Nat) (remote : Bool) : Word :=
  BitVec.ofNat 64 (origin * 2 ^ 32 + step * 2 ^ 16 + (if p.ovf then 2048 else 0) + (if p.blkunf then 1024 else 0) +
    (if p.blkovf then 512 else 0) + (if remote then 256 else 0) + code.toNat)

/-- R237: error notices go to every other rank of the rank table. -/
def State.sendNotices (s : State) (g : Nat) (code : Byte) : State :=
  let e := s.group g
  match e.prog with
  | none => s
  | some p =>
    p.ranks.zipIdx.foldl (fun s k =>
      if k.2 = p.rank then s
      else s.sendPacket k.1.1 (.notice (Fin.ofNat 4096 g) (Fin.ofNat 16 e.gen) code p.rank) none (some g)) s

/-- The entry becomes ENDED with a status. -/
def State.endGroup (s : State) (g : Nat) (code : Byte) (step origin : Nat) (remote : Bool) : State :=
  s.modGroup g fun e =>
    match e.prog with
    | some p => { e with st := .ended, status := statusWord p code step origin remote, prog := none }
    | none => e

/-- GROUP_END_FAULT (R237): a rank ends with a fault of its own. -/
def State.groupFault (s : State) (g : Nat) (code : Byte) (step : Nat) : State :=
  match (s.group g).prog with
  | some p => (s.sendNotices g code).endGroup g code step p.rank false
  | none => s

/-! ## Opening (R234, R239) -/

/-- The groups that a processor runs. -/
def State.groupsOn (s : State) (cp : Nat) : Nat := (s.fab.groups.filter fun g =>
  match g.2.prog with
  | some p => g.2.st == .opened && p.cp.val == cp
  | none => false).length

/-- R234: the refusals of `GRPOPEN` that depend on the table and the processor. -/
def State.openFault (s : State) (r : GroupRec) : Option (Byte × Nat) :=
  let e := s.group r.id
  if e.st ≠ .free then some (cGRPBUSY, 1)
  else if 0 < e.unacked then some (cGRPBUSY, 2)
  else if e.last = some r.gen then some (cGRPBUSY, 3)
  else if 16 ≤ s.groupsOn r.cp then some (cGRPBUSY, 4)
  else if s.sys.fwCps.getLsbD r.cp = false then some (cPROT, 0)
  else none

/-- R239: what comes of a read of `n` bytes of I data: its first fault, or a wait (R84). -/
def State.iRead (s : State) (t : TileId) (va n : Nat) : Chk :=
  ((numbersFrom (va / 4096) ((va + n - 1) / 4096 + 1 - va / 4096)).findSome? fun pg =>
    let a := max va (4096 * pg)
    let len := min (va + n) (4096 * pg + 4096) - a
    match s.translate t a .read none with
    | .error c => some (.fault c 0 0)
    | .ok p =>
      match s.addrCheck t (pteExt p.pte) a len with
      | .fault _ _ _ => some (.fault cROLE 0 0)
      | .wait => some .wait
      | .ok => none).getD .ok

/-- 64-bit words of a byte list. -/
def wordsOf : Nat → List Byte → List Word
  | 0, _ => []
  | n + 1, l => BitVec.ofNat 64 (ofBytes (l.take 8)) :: wordsOf n (l.drop 8)

/-- Rank-table entries (R233). -/
def ranksOf : Nat → List Byte → List (Byte × CpId)
  | 0, _ => []
  | n + 1, l =>
    let v := ofBytes (l.take 2)
    (BitVec.ofNat 8 v, Fin.ofNat 32 (bitsOf v 8 5)) :: ranksOf n (l.drop 2)

/-- R236, R243: what a group makes of a packet of its generation. -/
def Group.take (e : Group) (body : PacketBody) : Group :=
  match body with
  | .message _ _ src _ _ no fmt count data => { e with inbox := e.inbox ++ [⟨src, no, fmt, count, data⟩] }
  | .notice _ _ code origin =>
    { e with prog := e.prog.map fun p => { p with notice := some (p.notice.getD (code, origin)) } }
  | _ => e

/-- Is a packet one of group `g`, generation `gen`? -/
def ofGroup (g gen : Nat) : PacketBody → Bool
  | .message k n .. => k.val == g && n.val == gen
  | .notice k n .. => k.val == g && n.val == gen
  | _ => false

/-- R239: the program that a record starts, its steps and rank table still to be read. -/
def GroupRec.program (r : GroupRec) (opened : Nat) : Program :=
  { cp := Fin.ofNat 32 r.cp, base := r.base, limit := r.limit, budget := r.budget, fmts := r.fmts, count := r.count,
    rank := r.rank, rm := rmOfCode r.rm, donesig := donesigOf r.donesig, steps := [], ranks := [], pc := 0, loops := [],
    ovf := false, blkovf := false, blkunf := false, notice := none, fetch := some (r.prog, r.rtab, r.nstep), sentTo := [],
    taken := [], asked := [], got := [], seen := none, unacked := 0, refused := none, busy := false, opened := opened }

/-- The parts of `n` bytes at `a` in 64-byte lines. -/
def linePieces (a n : Nat) : List (Nat × Nat) :=
  (numbersFrom (a / 64) (ceilDiv (a + n) 64 - a / 64)).map fun k =>
    let lo := max a (64 * k)
    (lo, min (a + n) (64 * k + 64) - lo)

/-- R227, R239: the processor of a group asks for parts of its program at their homes. -/
def State.askProgram (s : State) (g : Nat) (p : Program) (l : List (Nat × Nat)) : State :=
  l.foldl (fun s k => s.sendFlit (cpStation p.cp) (homeStation (s.homeOfVa (s.group g).owner k.1)) .req
      (.cpAsk g (.read k.1 k.2 ⟨0, 0, false, false⟩)))
    (s.modProgram g fun p => { p with asked := l.map Prod.fst })

/-- The bytes of a range of the program that have come, if all have. -/
def Program.bytes? (p : Program) (a n : Nat) : Option (List Byte) :=
  if (linePieces a n).all fun k => (p.got.find? k.1).isSome then some ((numbersFrom a n).map fun x => p.got.get x 0) else none

/-- R239, R237: the processor reads the steps and the rank table from their homes, at a time that is not fixed; a fault ends
the rank at step 0, and its notices go to the ranks of a table that could be read. (Log entry 30, DESIGN CHOICE.) -/
def State.loadProgram (s : State) (g : Nat) : State :=
  let e := s.group g
  match e.prog.bind fun p => p.fetch.map fun f => (p, f) with
  | none => s
  | some (p, prog, rtab, nstep) =>
    let a := s.iRead e.owner prog (8 * nstep)
    let b := s.iRead e.owner rtab (2 * p.count)
    let new := (if a = .ok then linePieces prog (8 * nstep) else []) ++ (if b = .ok then linePieces rtab (2 * p.count) else [])
    if p.asked = [] ∧ (a = .wait ∨ b = .wait) then s
    else if p.asked = [] ∧ new ≠ [] then s.askProgram g p new
    else if p.refused = none ∧ (p.asked.all fun k => (p.got.find? k).isSome) = false then s
    else
      let ranks := ((p.bytes? rtab (2 * p.count)).map (ranksOf p.count)).getD []
      let s := s.modProgram g fun p => { p with ranks := ranks }
      match p.refused, p.bytes? prog (8 * nstep), p.bytes? rtab (2 * p.count), a, b with
      | none, some l, some _, _, _ => s.modProgram g fun p => { p with fetch := none, steps := wordsOf nstep l, asked := [], got := [] }
      | some c, _, _, _, _ | none, _, _, .fault c _ _, _ | none, _, _, _, .fault c _ _ => s.groupFault g c 0
      | none, _, _, _, _ => s

/-- R234: the entry opens, takes the early packets of its generation, and its program starts. -/
def State.openGroup (s : State) (t : TileId) (r : GroupRec) (opened : Nat) : State :=
  let g := r.id
  let early := s.fab.early.filter fun p => ofGroup g r.gen p.1.body
  let s := s.modGroup g fun e =>
    early.foldl (fun e p => e.take p.1.body)
      { e with st := .opened, gen := r.gen, owner := t, t0 := s.gtime, status := 0, prog := some (r.program opened), inbox := [],
               cp := Fin.ofNat 32 r.cp }
  s.modFab fun f => { f with early := f.early.filter fun p => !ofGroup g r.gen p.1.body }

/-- `GRPOPEN` (R232, R234): the record is read and checked as the word issues; the table is looked at as it leaves. -/
def execGrpopen (g : CGuard) (a : Fin 64) (s : State) : Out :=
  .next (s.runClosing g [.x a] fun v s1 =>
    let x := s.tile s.curTile
    let va := nth v 0
    if s.barred true then .fault cPROT 0 va
    else if misaligned va 64 then .fault cMISALIGN 0 va
    else if 2 ^ 20 < va.toNat + 64 then .fault cWINDOW 0 va
    else
      s.readsOwn s1 va.toNat 64 fun s1 =>
        let l := (x.spNow s.gtime).read va.toNat 64
        let r := groupRecOf l
        if r.count = 0 then .fault cGRPCOUNT 0 0
        else if r.ok = false then .fault cSGBAD 0 va
        else .done (s1.request false true x.cox.pc (.grpopen l)))

/-- R235: does a tile hold the group and generation that a value names? -/
def State.holdsGroup (s : State) (t : TileId) (v : Nat) : Bool :=
  let e := s.group (v % 4096)
  e.st != .free && e.gen == v / 4096 && e.owner == t

/-- `GRPFREE` (R235): it waits, as it leaves, for the entry to end. -/
def execGrpfree (g : CGuard) (a : Fin 64) (s : State) : Out :=
  .next (s.runClosing g [.x a] fun v s1 =>
    let c := s.cox s.curTile
    let id := nth v 0
    if s.holding ∨ 65536 ≤ id.toNat ∨ s.holdsGroup s.curTile id.toNat = false then .fault cPROT 0 id
    else if !c.rfRoom then .wait
    else .done (s1.longLatency false true c.pc (.grpfree id.toNat)))

/-- R235: the entry is freed, its messages discarded. -/
def Group.freed (e : Group) : Group := { e with st := .free, last := some e.gen, prog := none, inbox := [] }

/-! ## Packets of a group (R236) -/

/-- What a package makes of a group's packet. -/
inductive GroupFate where
  | taken | stale | joined | early
deriving DecidableEq, Repr

/-- R236. -/
def Group.fate (e : Group) (gen : Nat) : GroupFate :=
  if e.st = .opened ∧ e.gen = gen then .taken
  else if e.st = .ended ∧ e.gen = gen then .joined
  else if e.last = some gen ∨ e.st ≠ .free then .stale
  else .early

/-- A stale packet is logged (R236; bank 38 of die 0, log entry 19, DEDUCED). -/
def State.logStale (s : State) : State := s.recordMc 0 38 (corrected cMCPKT 0 none none)

/-- R243: the bytes of received, unconsumed messages in a processor's memory. -/
def State.cpHeld (s : State) (cp : CpId) : Nat :=
  ((s.fab.groups.filter fun g => g.2.st ≠ .free ∧ g.2.cp = cp).flatMap fun g => g.2.inbox.map fun m => m.data.length).foldl
    (· + ·) 0

/-- R230, R243: has the memory of the group's processor, 64 KiB, room for a packet? (Log entry 30, DESIGN CHOICE.) -/
def State.cpRoom (s : State) (g : Nat) : PacketBody → Bool
  | .message _ _ _ _ _ _ _ _ data => decide (s.cpHeld (s.group g).cp + data.length ≤ 65536)
  | _ => true

/-- R236, R243: a message or notice; none when the early queue or the processor's memory is full.
(Log entry 30, DESIGN CHOICE.) -/
def State.groupPacket (s : State) (p : Packet) (g gen : Nat) : Option State :=
  match (s.group g).fate gen with
  | .taken => if s.cpRoom g p.body then some (s.modGroup g fun e => e.take p.body) else none
  | .joined =>
    match p.body with
    | .message .. => if s.cpRoom g p.body then some (s.modGroup g fun e => e.take p.body) else none
    | _ => some s
  | .stale => some s.logStale
  | .early =>
    if s.fab.early.length < 256 then some (s.modFab fun f => { f with early := f.early ++ [(p, s.gtime)] }) else none

/-- EARLY_PACKET_TIMEOUT (R236): early packets that have waited 2^24 cycles are dropped as stale. -/
def execEarlyPacketTimeout (s : State) : Out :=
  let old := s.fab.early.filter fun p => p.2 + 2 ^ 24 ≤ s.gtime
  let s := s.modFab fun f => { f with early := f.early.filter fun p => s.gtime < p.2 + 2 ^ 24 }
  .next (old.foldl (fun s _ => s.logStale) s)

/-! ## Events of a program (R237) -/

/-- GROUP_BUDGET_EXPIRY (R237): the rank ends with DEADLINE at the step that runs. -/
def execGroupBudgetExpiry (g : Fin 4096) (s : State) : Out :=
  match (s.group g.val).prog with
  | some p => if p.budget = 0 then .next (s.groupFault g.val cDEADLINE p.pc) else .next s
  | none => .next s

/-- ERROR_NOTICE_ARRIVAL (R237): the rank ends with the notice's code and origin, and sends none. -/
def execErrorNoticeArrival (g : Fin 4096) (s : State) : Out :=
  match (s.group g.val).prog with
  | some p =>
    match p.notice with
    | some n => .next (s.endGroup g.val n.1 p.pc n.2 true)
    | none => .next s
  | none => .next s

/-! ## Vectors in the buffer (R107, R108, R244) -/

/-- The bytes that `n` elements take. -/
def vecSize (f : Lane) (n : Nat) : Nat := (fmtAreas f n).2.2

/-- The exact values of a stored vector. -/
def decodeVec (f : Lane) (n : Nat) (l : List Byte) : List Val :=
  let c := fmtContainer f
  let code (i : Nat) : Nat := bitsOf (ofBytes ((l.drop (i * c / 8)).take 4)) (i * c % 8) c
  (List.range n).map fun i =>
    if fmtIsBlock f then
      blockElem (code i) (fmtFields f) (sextNat 8 (l.getD ((fmtAreas f n).2.1 + i / fmtBlockLen f) 0).toNat)
    else
      match fmtNf f with
      | some g => nfValue (code i) g
      | none => .zero

/-- An encoded vector with the flags of its conversions. -/
structure Encoded where
  bytes : List Byte
  ovf : Bool
  blkovf : Bool
  blkunf : Bool
deriving DecidableEq, Repr

/-- Blocks of a list. -/
def chunks {α : Type} (n : Nat) : Nat → List α → List (List α)
  | 0, _ => []
  | k + 1, l => l.take n :: chunks n k (l.drop n)

/-- R111, R114, R244: values in a format. -/
def encodeVec (f : Lane) (vs : List Val) (rm : Rm) : Encoded :=
  if fmtIsBlock f then
    let n := fmtBlockLen f
    let qs := (chunks n (vs.length / n) vs).map fun b => quantiseBlock b (fmtFields f) rm
    let el := (qs.map fun q => packCodes (fmtContainer f) q.codes).flatten
    let areas := fmtAreas f vs.length
    ⟨el ++ List.replicate (areas.2.1 - el.length) 0 ++ qs.map fun q => BitVec.ofInt 8 q.sh,
      qs.any (·.sat), qs.any (·.ovf), qs.any (·.unf)⟩
  else
    match fmtNf f with
    | some g =>
      let cs := vs.map fun v => convertC v g rm
      ⟨packCodes (fmtContainer f) (cs.map Conv.code), cs.any Conv.sat, false, false⟩
    | none => ⟨[], false, false, false⟩

/-- The values that an encoded vector holds. -/
def Encoded.values (e : Encoded) (f : Lane) (n : Nat) : List Val := decodeVec f n e.bytes

/-- The flags of a conversion collect in the program. -/
def Program.flag (p : Program) (e : Encoded) : Program :=
  { p with ovf := p.ovf || e.ovf, blkovf := p.blkovf || e.blkovf, blkunf := p.blkunf || e.blkunf }

/-- R244: the effective offset. -/
def Program.eff (p : Program) (o : Nat) : Int :=
  p.loops.foldl (fun a l => a + (l.2.1 : Int) * l.2.2.2) (o : Int)

/-- R241, R244: may a vector of `n` elements have format `f`? -/
def vecOk (f : Lane) (n : Nat) : Bool :=
  !(fmtKind f == 8 || fmtKind f == 9 || (fmtIsBlock f && n % fmtBlockLen f != 0))

/-- R241, R244: the fault of a vector of `n` elements in format `f` at stored offset `o`. (Log entry 18, DEDUCED.) -/
def Program.areaFault (p : Program) (o n : Nat) (f : Lane) : Option Byte :=
  let a := p.eff o
  if vecOk f n = false then some cSGBAD
  else if a < 0 ∨ (p.limit : Int) < a + vecSize f n then some cWINDOW
  else if a.toNat % max 1 (fmtContainer f / 8) ≠ 0 then some cMISALIGN
  else none

/-- The scratchpad address of a vector. -/
def Program.at' (p : Program) (o : Nat) : Nat := p.base + (p.eff o).toNat

/-- R246: the 64-byte lines of a vector. -/
def Program.lines (p : Program) (o n : Nat) (f : Lane) : List Nat :=
  let a := p.at' o
  let z := a + vecSize f n
  (numbersFrom (a / 64) (ceilDiv z 64 - a / 64)).map fun k => 64 * k

/-- R246: the bytes of a vector, once every line of it has come. -/
def Program.area? (p : Program) (o n : Nat) (f : Lane) : Option (List Byte) :=
  if (p.lines o n f).all fun a => (p.got.find? a).isSome then
    some ((numbersFrom (p.at' o) (vecSize f n)).map fun a => p.got.get a 0)
  else none

/-- R227, R246: the processor of a group asks the owner's scratchpad for the lines of a vector that it has not asked for. -/
def State.askArea (s : State) (g : Nat) (p : Program) (o n : Nat) (f : Lane) : State :=
  let u := (s.group g).owner
  let new := (p.lines o n f).filter fun a => !p.asked.contains a
  new.foldl (fun s a => s.sendFlit (cpStation p.cp) (tileStation u) .req (.cpAsk g (.line a u a)))
    (s.modProgram g fun p => { p with asked := p.asked ++ new })

/-- R246: bytes with their masks, cut into 64-byte lines. -/
def byLine (l : List (Nat × Byte × Byte)) : List (List (Nat × Byte × Byte)) :=
  (l.map fun b => b.1 / 64).eraseDups.map fun k => l.filter fun b => b.1 / 64 == k

/-- R162, R246: a vector is written to the owner's scratchpad, a line at a time. The bits of a last byte that belong to no
element stay, and so do bytes between the areas of a block format. -/
def State.writeArea (s : State) (g o n : Nat) (f : Lane) (p : Program) (l : List Byte) : State :=
  let u := (s.group g).owner
  let a := p.at' o
  let bits := n * fmtContainer f
  let whole (a : Nat) (l : List Byte) : List (Nat × Byte × Byte) := l.zipIdx.map fun b => (a + b.2, b.1, 0xFF)
  let parts :=
    if fmtIsBlock f then
      let ar := fmtAreas f n
      whole a (l.take ar.1) ++ whole (a + ar.2.1) (l.drop ar.2.1)
    else if bits % 8 = 0 then whole a l
    else whole a (l.take (bits / 8)) ++ [(a + bits / 8, l.getD (bits / 8) 0, BitVec.ofNat 8 (2 ^ (bits % 8) - 1))]
  let ls := byLine parts
  ls.foldl (fun s k => s.sendFlit (cpStation p.cp) (tileStation u) .write (.cpAsk g (.store u (.bytes (.sp u) k))))
    (s.modProgram g fun p => { p with unacked := p.unacked + ls.length })

/-! ## Steps (R237, R240 to R246) -/

/-- What a step comes to: it is done and leaves a program, the state stands as it is (the program has ended, or a Signal value
is asked for), it waits, or it ends the rank with a fault. -/
inductive StepRes where
  | done (f : Program → Program) (s : State)
  | past (s : State)
  /-- It waits, for a message, an acknowledgement, a Signal value or a time: a boundary (R230, R237; log entry 30, DESIGN
  CHOICE). -/
  | wait
  /-- It waits for lines of its buffer, and is under way. -/
  | waitIn (s : State)
  | fault (code : Byte)

/-- R242: the peer that a step sends to, or, for `RRS`, receives from; `SEND` and `RECV` name theirs as one sends. -/
def Program.peer (p : Program) (pm : PeerMode) (k : Nat) (send : Bool) : Nat :=
  match pm, send with
  | .xor, _ => p.rank ^^^ k
  | .up, true | .down, false => (p.rank + k) % p.count
  | .up, false | .down, true => (p.rank + p.count - k % p.count) % p.count

/-- R230: is a step of another group of the processor under way? -/
def State.cpBusy (s : State) (g : Nat) (cp : CpId) : Bool := s.fab.groups.any fun k =>
  k.1 != g && (match k.2.prog with
    | some p => p.cp == cp && p.busy
    | none => false)

/-- R230, R237, R246: a step runs only when the program has been read, the writes of the step before have landed and no step
of another group of the processor is under way; none begins after a notice. -/
def State.stepReady (s : State) (g : Nat) : Bool :=
  let e := s.group g
  match e.prog with
  | some p => e.st == .opened && (p.notice.isNone || p.busy) && p.budget != 0 && p.fetch.isNone && p.unacked == 0 &&
      !s.cpBusy g p.cp
  | none => false

/-- The step that `cur` names, run by `f`: afterwards the program goes on at the next step unless `f` says otherwise. -/
def State.runStep (s : State) (f : Group → Program → StepRes) : State :=
  let g := s.curGroup
  let e := s.group g
  match e.prog with
  | none => s
  | some p =>
    if s.stepReady g = false then s
    else
      match f e p with
      | .wait => s.modProgram g fun p => { p with busy := false }
      | .waitIn s' => s'.modProgram g fun p => { p with busy := true }
      | .past s' => s'
      | .fault code => s.groupFault g code p.pc
      | .done k s' => s'.modProgram g k

/-- A step lets go of what it has read. -/
def Program.clear (p : Program) : Program := { p with asked := [], got := [], seen := none, busy := false }

/-- The program after a step that goes on. -/
def Program.advance (p : Program) : Program := { p.clear with pc := p.pc + 1 }

/-- R243: the message of a rank that comes next among those received, with the rest. -/
def Program.nextMessage (p : Program) (src : Nat) (l : List Parcel) : Option (Parcel × List Parcel) :=
  removeFirst (fun m => m.src == src && m.no == p.taken.get src 0) l

/-- R243: a message of rank `src` has been consumed. -/
def State.consume (s : State) (g src : Nat) (rest : List Parcel) : State :=
  (s.modGroup g fun e => { e with inbox := rest }).modProgram g fun p =>
    { p with taken := p.taken.set src (p.taken.get src 0 + 1) }

/-- R242, R243: a message leaves for the package and processor of a rank; to the rank itself it is served locally. -/
def State.sendMessage (s : State) (g : Nat) (e : Group) (p : Program) (peer : Nat) (fmt : Lane) (n : Nat) (l : List Byte) :
    State :=
  let no := p.sentTo.get peer 0
  let s := s.modProgram g fun p => { p with sentTo := p.sentTo.set peer (no + 1) }
  if peer = p.rank then s.modGroup g fun e => { e with inbox := e.inbox ++ [⟨p.rank, no, fmt, n, l⟩] }
  else
    match p.ranks[peer]? with
    | some r => s.sendPacket r.1
        (.message (Fin.ofNat 4096 g) (Fin.ofNat 16 e.gen) p.rank peer r.2 no fmt n l) none (some g)
    | none => s

/-- R241: a KIND 0 format converts only into itself. -/
def rawClash (a b : Lane) : Bool := (fmtKind a == 0 || fmtKind b == 0) && a != b

/-- R112, R113: stored bits as an equal-format copy leaves them: the elements of a zero block arrive as zero codes. -/
def copyVec (f : Lane) (n : Nat) (l : List Byte) : List Byte :=
  if fmtIsBlock f then
    let ar := fmtAreas f n
    l.zipIdx.map fun b =>
      if b.2 < ar.1 ∧ l.getD (ar.2.1 + b.2 * 8 / fmtContainer f / fmtBlockLen f) 0 = 0x80 then 0 else b.1
  else l

/-- R112: bytes of format `a` as format `b`: those of raw or equal formats are copied. -/
def reencode (a b : Lane) (n : Nat) (l : List Byte) (rm : Rm) : Encoded :=
  if fmtKind a = 0 ∨ a = b then ⟨copyVec a n l, false, false, false⟩ else encodeVec b (decodeVec a n l) rm

/-- `SEND` (R242, R244). -/
def execSend (o : DataStep) (f2 : Fin 4) (s : State) : Out :=
  .next (s.runStep fun e p =>
    let n := o.nel1.toNat + 1
    let (a, b) := (p.fmts[o.f1], p.fmts[f2])
    if p.count = 1 then .done Program.advance s
    else
      let peer := p.peer o.pm o.k.toNat true
      if p.count ≤ peer then .fault cILLOP
      else if rawClash a b ∨ vecOk b n = false then .fault cSGBAD
      else
        match p.areaFault o.off.toNat n a with
        | some c => .fault c
        | none =>
          match p.area? o.off.toNat n a with
          | none => .waitIn (s.askArea s.curGroup p o.off.toNat n a)
          | some l =>
            let w := reencode a b n l p.rm
            .done (fun p => (p.flag w).advance) (s.sendMessage s.curGroup e p peer b n w.bytes))

/-- `RECV` (R243, R244): it receives, and then writes. -/
def execRecv (o : DataStep) (s : State) : Out :=
  .next (s.runStep fun e p =>
    let n := o.nel1.toNat + 1
    let a := p.fmts[o.f1]
    if p.count = 1 then .done Program.advance s
    else
      let peer := p.peer o.pm o.k.toNat true
      if p.count ≤ peer then .fault cILLOP
      else if vecOk a n = false then .fault cSGBAD
      else
        match p.nextMessage peer e.inbox with
        | none => .wait
        | some (m, rest) =>
          if m.count ≠ n ∨ rawClash m.fmt a then .fault cSGBAD
          else
            match p.areaFault o.off.toNat n a with
            | some c => .fault c
            | none =>
              let w := reencode m.fmt a n m.data p.rm
              .done (fun p => (p.flag w).advance)
                ((s.consume s.curGroup peer rest).writeArea s.curGroup o.off.toNat n a p w.bytes))

/-- R244: do two areas of the buffer overlap? -/
def Program.overlap (p : Program) (x n : Nat) (f : Lane) (y : Nat) (g : Lane) : Bool :=
  decide (p.eff x < p.eff y + vecSize g n) && decide (p.eff y < p.eff x + vecSize f n)

/-- `COPY` (R244). -/
def execCopy (f1 f2 : Fin 4) (nel1 : BitVec 14) (doff off : BitVec 20) (s : State) : Out :=
  .next (s.runStep fun _ p =>
    let n := nel1.toNat + 1
    let (a, b) := (p.fmts[f1], p.fmts[f2])
    if rawClash a b then .fault cSGBAD
    else
      match (p.areaFault off.toNat n a).or (p.areaFault doff.toNat n b) with
      | some c => .fault c
      | none =>
        if p.overlap off.toNat n a doff.toNat b then .fault cWINDOW
        else
          match p.area? off.toNat n a with
          | none => .waitIn (s.askArea s.curGroup p off.toNat n a)
          | some l =>
            let w := reencode a b n l p.rm
            .done (fun p => (p.flag w).advance) (s.writeArea s.curGroup doff.toNat n b p w.bytes))

/-- R112, R244: the arithmetic of `RRS`: exact sums, or the local values alone, one rounding into the accumulate format, a
second into the out-format. -/
def rrsVec (xs : Option (List Val)) (ys : List Val) (acc out : Lane) (rm : Rm) : Encoded × Encoded :=
  let r := encodeVec acc (match xs with
    | some xs => List.zipWith (Val.add (rm == .rdn)) xs ys
    | none => ys) rm
  (r, reencode acc out ys.length r.bytes rm)

/-- `RRS` with its local values, and its incoming ones or none (R237, R244). -/
def State.rrs (s : State) (e : Group) (p : Program) (o : DataStep) (f2 f3 : Lane) (snd : Bool) (dest : Nat)
    (ys : List Val) (xs : Option (List Val)) : StepRes :=
  let n := o.nel1.toNat + 1
  match p.areaFault o.off.toNat n f3 with
  | some c => .fault c
  | none =>
    let w := rrsVec xs ys f2 f3 p.rm
    let s := s.writeArea s.curGroup o.off.toNat n f3 p w.2.bytes
    let s := if snd ∧ p.count ≠ 1 then s.sendMessage s.curGroup e p dest f3 n w.2.bytes else s
    .done (fun p => ((p.flag w.1).flag w.2).advance) s

/-- `RRS` (R237, R242, R244): it reads, receives, and writes. A KIND 0 format ends it with SGBAD (R241, log entry 18, DEDUCED).
-/
def execRrs (o : DataStep) (f2 f3 : Fin 4) (snd : Bool) (s : State) : Out :=
  .next (s.runStep fun e p =>
    let n := o.nel1.toNat + 1
    let (a, b, c) := (p.fmts[o.f1], p.fmts[f2], p.fmts[f3])
    let src := p.peer o.pm o.k.toNat false
    let dest := p.peer o.pm o.k.toNat true
    if p.count ≠ 1 ∧ (p.count ≤ src ∨ p.count ≤ dest) then .fault cILLOP
    else if fmtKind a = 0 ∨ fmtKind b = 0 ∨ fmtKind c = 0 ∨ vecOk a n = false ∨ vecOk b n = false ∨ vecOk c n = false then
      .fault cSGBAD
    else
      match p.areaFault o.off.toNat n a with
      | some f => .fault f
      | none =>
        match p.area? o.off.toNat n a with
        | none => .waitIn (s.askArea s.curGroup p o.off.toNat n a)
        | some l =>
          let ys := decodeVec a n l
          if p.count = 1 then s.rrs e p o b c snd dest ys none
          else
            match p.nextMessage src e.inbox with
            | none => .wait
            | some (m, rest) =>
              if m.count ≠ n ∨ fmtKind m.fmt = 0 then .fault cSGBAD
              else (s.consume s.curGroup src rest).rrs e p o b c snd dest ys (some (decodeVec m.fmt n m.data)))

/-- R23, R245: the processor asks the home of a Signal word for its value. -/
def State.askSignal (s : State) (g : Nat) (p : Program) (w : BitVec 17) : State :=
  (s.modProgram g fun p => { p with asked := [1], seen := none }).sendFlit (cpStation p.cp) (homeStation (signalHome w)) .signal
    (.cpAsk g (.signal w .read))

/-- `WAIT` in Signal mode (R245): the read is repeated until the value is high enough. -/
def execWaitSignalStep (_sc : Scope) (word : BitVec 17) (val : BitVec 32) (s : State) : Out :=
  .next (s.runStep fun _ p =>
    match p.seen with
    | some v => if val.toNat ≤ v.toNat then .done Program.advance s else .past (s.askSignal s.curGroup p word)
    | none => if p.asked = [] then .past (s.askSignal s.curGroup p word) else .wait)

/-- `WAIT` until a time (R125, R245): the time is that of the `BitVec` nearest to GTIME. -/
def execWaitTimeStep (val : BitVec 32) (s : State) : Out :=
  .next (s.runStep fun _ _ => if timeNear s.gtime val ≤ s.gtime then .done Program.advance s else .wait)

/-- `WAIT` until a time after T0 (R245). -/
def execWaitAfterT0Step (val : BitVec 32) (s : State) : Out :=
  .next (s.runStep fun e _ => if e.t0 + val.toNat ≤ s.gtime then .done Program.advance s else .wait)

/-- `LOOP` (R241, R245): a fifth open loop ends the rank with ILLOP. -/
def execLoop (str : BitVec 20) (cnt1 : BitVec 16) (s : State) : Out :=
  .next (s.runStep fun _ p =>
    if 4 ≤ p.loops.length then .fault cILLOP
    else .done (fun p => { p.advance with loops := (p.pc, 0, cnt1.toNat, str.toInt) :: p.loops }) s)

/-- `ENDL` (R241, R245). -/
def execEndl (s : State) : Out :=
  .next (s.runStep fun _ p =>
    match p.loops with
    | [] => .fault cILLOP
    | (at', i, cnt, str) :: rest =>
      if i < cnt then .done (fun p => { p with pc := at' + 1, loops := (at', i + 1, cnt, str) :: rest }) s
      else .done (fun p => { p.advance with loops := rest }) s)

/-- R246, R290, R294: is the release of DONESIG over: of the owner's writes before its `GRPOPEN`? -/
def State.donesigReleased (s : State) (e : Group) (p : Program) : Bool := match p.donesig with
  | some d => s.released e.owner p.opened d.1
  | none => true

/-- `DONE` of a step program (R245, R246): once every message is acknowledged and its release is over, the DONESIG add, and
the entry ends. -/
def execStepDone (s : State) : Out :=
  .next (s.runStep fun e p =>
    if e.unacked ≠ 0 ∨ s.donesigReleased e p = false then .wait
    else
      let s := match p.donesig with
        | some d => s.signalAt (cpStation p.cp) (some e.owner) d.2.1 ⟨d.2.2, .rel, d.1, .atom .add false 1⟩ none
        | none => s
      .past (s.endGroup s.curGroup 0 0 0 false))

end Sys2Proof.Machine
end

