-- ==== Sys2Proof/Machine/Signals.lean ====
section
/-! DEFINITION. The Signal words of the Cox as they issue (R288 to R290), the waits of a release (R294) and of `FENCE`
(R298). -/

namespace Sys2Proof.Machine

open Sys2Proof

/-! ## `FENCE` (R298) -/

/-- `FENCE` (R298): it waits for the reads and writes of the Cox, and for the release of its scope; repeatable. -/
def execFence (sc : Scope) (s : State) : Out :=
  .next (s.runCox ⟨0, false⟩ [] fun _ s1 =>
    let t := s.curTile
    let id := (s.cox t).nextReq
    if s.readsDelivered t ∧ s.writesDone t id ∧ s.released t id sc then .done s1 else .wait)

/-! ## The words (R288 to R290) -/

/-- R289: the PROT of a Signal index. -/
def State.sigFault (s : State) (o : SigOp) (i : Nat) : Bool :=
  decide (2 ^ 25 ≤ i) || (o.sc != .dom && bitsOf i 17 8 != 0) ||
    (o.sc == .dom && BitVec.ofNat 8 (bitsOf i 17 8) != s.sys.pkg && !s.sys.reach.contains (BitVec.ofNat 8 (bitsOf i 17 8)))

/-- R286: package and word of an index: below `.dom`, the issuing package. -/
def State.sigPkg (s : State) (o : SigOp) (i : Nat) : Byte :=
  if o.sc = .dom then BitVec.ofNat 8 (bitsOf i 17 8) else s.sys.pkg

/-- The request of a Signal word. -/
def State.sigReq (s : State) (o : SigOp) (i : Nat) (a : SigAct) : ReqAct :=
  .signal (s.sigPkg o i) ⟨BitVec.ofNat 17 i, o.ord, o.sc, a⟩

/-- R10, R289: the Signal index, an exact sum. -/
def sigIndex (o : SigOp) (a : Word) : Nat := a.toNat + o.off.toNat

/-- R289, R369, R373: the checks of a Signal word, then its issue. TADDR takes the low 64 bits of the index. -/
def State.sigCheck (s : State) (o : SigOp) (a : Word) (k : Nat → CoxRes) : CoxRes :=
  let i := sigIndex o a
  if s.barred true ∨ s.sigFault o i then .fault cPROT 0 (BitVec.ofNat 64 i) else k i

/-- `SLD` (R290): repeatable. -/
def execSld (o : SigOp) (s : State) : Out :=
  .next (s.runCox o.g [.x o.a] fun v s1 =>
    let c := s.cox s.curTile
    s.sigCheck o (nth v 0) fun i =>
      if !c.rfRoom then .wait else .done (s1.longLatency true false c.pc (s.sigReq o i .read)))

/-- `SST` (R290): it retires as its request leaves. -/
def execSst (o : SigOp) (b : XRf) (s : State) : Out :=
  .next (s.runClosing o.g [.x o.a, b.op] fun v s1 =>
    s.sigCheck o (nth v 0) fun i =>
      .done (s1.request false true (s.cox s.curTile).pc (s.sigReq o i (.write (nth v 1)))))

/-- The sources of a `SATOM`. -/
def satomSrcs (b : XRf) : SatOp → List COp
  | .op _ => [b.op]
  | .cas c => [b.op, c.op]

/-- The operation of a `SATOM` (R290). -/
def satomAct (ty : AtomTy) (b c : Word) : SatOp → SigAct
  | .op o => .atom o (ty == .i64) b
  | .cas _ => .cas b c

/-- `SATOM` (R290): it retires when the old value stands in the response FIFO. -/
def execSatom (o : SigOp) (ty : AtomTy) (op : SatOp) (b : XRf) (s : State) : Out :=
  .next (s.runClosing o.g (.x o.a :: satomSrcs b op) fun v s1 =>
    let c := s.cox s.curTile
    s.sigCheck o (nth v 0) fun i =>
      if !c.rfRoom then .wait
      else .done (s1.longLatency false true c.pc (s.sigReq o i (satomAct ty (nth v 1) (nth v 2) op))))

end Sys2Proof.Machine
end

