-- ==== Sys2Proof/Machine/Depart.lean ====
section
/-! DEFINITION. How requests leave a tile: after the checker (R261, R262), after their release and drain waits (R81, R88,
R294, R320), at a Wheel position (R297), and what each does as it leaves. -/

namespace Sys2Proof.Machine

open Sys2Proof

/-! ## Waits -/

/-- The release scope of a Signal operation: the release part of R290. -/
def sigRelease (a : SigAccess) : Option Scope :=
  match a.act with
  | .read => none
  | _ =>
    match a.ord with
    | .rel | .ar | .sc => some a.sc
    | _ => none

/-- R297: the positions of a tile's Wheel that equal this cycle. -/
def Cox.onWheel (c : Cox) (now : Nat) : Bool := (List.range 4).any fun i => c.wheel[Fin.ofNat 4 i].toNat == now % 2048

/-- Is a request an `sc` operation whose release part and checker comparison are over? -/
def State.scReady (s : State) (t : TileId) (r : Req) : Bool :=
  match r.act with
  | .signal _ a => a.ord == .sc && decide (r.depart ≤ s.gtime) && (match sigRelease a with
    | some sc => s.released t r.id sc
    | none => true)
  | _ => false

/-- R297: has a tile an operation ready for its position in this cycle? None of a frozen die (R355) has. -/
def State.scClaims (s : State) (u : Nat) (x : Tile) : Bool :=
  x.cox.onWheel s.gtime && !(s.die (dieOf (Fin.ofNat 512 u))).frozen && x.reqs.any fun r => s.scReady (Fin.ofNat 512 u) r

/-- R297: has an operation of the package left in this cycle? Position numbers are distinct. -/
def State.wheelUsed (s : State) : Bool := s.tiles.any fun u => u.2.scOps.any fun o => o.1 = s.gtime + Config.scDelay

/-- R297: may an `sc` operation of the tile leave in this cycle: its own position, which nothing has used, and for which no
lower tile has an operation? -/
def State.wheelFree (s : State) (t : TileId) : Bool :=
  (s.tile t).cox.onWheel s.gtime && !s.wheelUsed &&
    !s.tiles.any fun u => decide (u.1 < t.val) && s.scClaims u.1 u.2

/-- R81, R88: has the tile drained: role-space accesses complete, and L and S entries retired? -/
def State.roleDrained (s : State) (t : TileId) (id : Nat) : Bool :=
  let x := s.tile t
  !x.unsent id ReqAct.isRole && !s.travelling t id ReqAct.isRole && (x.eng .l).queue.isEmpty && (x.eng .s).queue.isEmpty &&
    !s.allFlits.any fun f => match f.msg with
      | .reply u .. => u == t
      | _ => false

/-- R235: has every line that the processor of a group wrote landed? -/
def State.cpQuiet (s : State) (g : Nat) : Bool :=
  !(s.tiles.any fun u => u.2.cpIn.any fun w => w.1 == g) && !s.allFlits.any fun f => match f.msg with
    | .cpAsk k (.store ..) => k == g
    | _ => false

/-- May a request leave, its checker comparison made? -/
def State.mayLeave (s : State) (t : TileId) (r : Req) : Bool :=
  match r.act with
  | .signal _ a =>
    (match sigRelease a with
      | some sc => s.released t r.id sc
      | none => true) && (a.ord != .sc || s.wheelFree t)
  | .recast .. => s.roleDrained t r.id && s.released t r.id .dom
  | .extfree _ => s.roleDrained t r.id
  | .launch _ _ _ _ route _ => s.released t r.id (if route.getLsbD 16 then .dom else .pkg)
  | .grpopen _ => s.released t r.id .tile
  | .grpfree g => ((s.group (g % 4096)).st == .ended && s.cpQuiet (g % 4096)) || s.holdsGroup t g == false
  | .crew (.acfree b) => let k := (s.crew (crewOf t)).bank (Fin.ofNat 32 b); k.st == .idle || k.st == .free
  | .crew (.osrel n) => ((s.crew (crewOf t)).slot (Fin.ofNat 32 n)).releasable
  | _ => true

/-- Is a request an `sc` operation? -/
def Req.isSc (r : Req) : Bool := match r.act with
  | .signal _ a => a.ord == .sc
  | _ => false

/-- R287: does a Signal operation of the tile that comes before `r`, on the same word, still wait to leave? -/
def Tile.signalAhead (x : Tile) (r : Req) : Bool := match r.act with
  | .signal pkg a => x.reqs.any fun q => decide (q.id < r.id) && (match q.act with
    | .signal p b => p == pkg && b.word == a.word
    | _ => false)
  | _ => false

/-- The request that leaves next, with those that stay: an `sc` operation, or one of the others. -/
def State.leavingOf (s : State) (t : TileId) (sc : Bool) : Option (Req × List Req) :=
  if (s.die (dieOf t)).frozen then none
  else removeFirst (fun r => r.isSc == sc && decide (r.depart ≤ s.gtime) && !(s.tile t).signalAhead r && s.mayLeave t r)
    (s.tile t).reqs

/-- The request that leaves next. What lands in a cycle can end a release wait: an `sc` operation leaves when the cycle has
nothing else left that does (R297). -/
def State.leaving (s : State) (t : TileId) : Option (Req × List Req) := (s.leavingOf t false).or (s.leavingOf t true)

/-! ## What a request does as it leaves -/

/-- R278: a crew word acts at the end of cycle `c + 6`; TADDR of its fault is the bank or slot number (R329). -/
def State.crewAct (s : State) (t : TileId) (r : Req) (a : CrewAct) : State :=
  let c := crewOf t
  let k := laneOf t
  let y := s.crew c
  match a with
  | .lease n tb => s.lease t n tb
  | .free => s.dropLease t
  | .acalloc b pd =>
    let m := y.acalloc k (Fin.ofNat 32 b)
    (s.modCrew c fun _ => m.1).modCox t fun x => (x.send (s.gtime + 2) (.p pd m.2)).send (s.gtime + 2) .retire
  | .osclaim n pd =>
    let m := y.osclaim k (Fin.ofNat 32 n)
    (s.modCrew c fun _ => m.1).modCox t fun x => (x.send (s.gtime + 2) (.p pd m.2)).send (s.gtime + 2) .retire
  | .acown b mask =>
    match y.bankFault k (Fin.ofNat 32 b) with
    | some code => s.refuseClosing t r ⟨code, 0, 0, BitVec.ofNat 64 b⟩
    | none => (s.modCrew c fun y => y.modBank (Fin.ofNat 32 b) fun x =>
        let m := BitVec.ofNat 4 mask
        let x := { x with owners := m &&& ~~~x.away, away := x.away &&& m }
        { x with st := if x.st = .idle then x.resting else x.st }).retireClosing t
  | .acfree b =>
    match y.bankFault k (Fin.ofNat 32 b) with
    | some code => s.refuseClosing t r ⟨code, 0, 0, BitVec.ofNat 64 b⟩
    | none =>
      (s.modCrew c fun y => y.modBank (Fin.ofNat 32 b) fun x => { x with st := .free, owners := 0, away := 0 }).retireClosing t
  | .osrel n =>
    match y.slotFault k (Fin.ofNat 32 n) with
    | some code => s.refuseClosing t r ⟨code, 0, 0, BitVec.ofNat 64 n⟩
    | none =>
      (s.modCrew c fun y => y.modSlot (Fin.ofNat 32 n) fun x => { x with st := .free, started := 0, fin := false }).retireClosing t

/-- A request for another member's window (R156, R157): the member that the gang had when the word issued. -/
def State.toMember (s : State) (t u : TileId) (c : Cls) (r : Req) : State :=
  s.sendFlit (tileStation t) (tileStation u) c (.req t r)

/-- A request for a home. -/
def State.toHome (s : State) (t : TileId) (r : Req) : State :=
  match s.reqHome t r.act with
  | some h => s.sendFlit (tileStation t) (homeStation h.1) h.2 (.req t r)
  | none => s

/-- A request for a port of the die (R227). (Log entry 52, DESIGN CHOICE.) -/
def State.toPort (s : State) (t : TileId) (r : Req) : State :=
  s.sendFlit (tileStation t) (s.portStation (dieOf t)) .signal (.req t r)

/-- A Signal operation leaves (R290, R297): for its home, or, as a flag, for a port; an `SST` retires. When an `sc`
operation is performed is fixed by its position, whenever its flit comes. (Log entry 32, DEDUCED.) -/
def State.signalLeaves (s : State) (t : TileId) (r : Req) (pkg : Byte) (a : SigAccess) : State :=
  let s := if a.ord = .sc then s.modTile t fun x => { x with scOps := x.scOps ++ [(s.gtime + Config.scDelay, r)] } else s
  let s := if pkg = s.sys.pkg then s.toHome t r else s.toPort t r
  if r.slot then s else s.retireClosing t

/-- R319, R320: a launch word leaves: for the home of its record, which sends it on to the pool of a die, or for a port.
(Log entry 28, DEDUCED.) -/
def State.launchLeaves (s : State) (t : TileId) (r : Req) (route : Word) : State :=
  if route.getLsbD 16 then s.toPort t r else s.toHome t r

/-- `GRPOPEN` leaves (R234): it opens the entry, or its word faults. -/
def State.grpopenLeaves (s : State) (t : TileId) (r : Req) (l : List Byte) : State :=
  let rec' := groupRecOf l
  match s.openFault rec' with
  | some f => s.refuseClosing t r ⟨f.1, 0, BitVec.ofNat 64 f.2, 0⟩
  | none => (s.openGroup t rec' r.id).retireClosing t

/-- `GRPFREE` leaves (R235): the status is its element, and the entry is freed. -/
def State.grpfreeLeaves (s : State) (t : TileId) (r : Req) (g : Nat) : State :=
  if s.holdsGroup t g = false then s.refuseClosing t r ⟨cPROT, 0, 0, BitVec.ofNat 64 g⟩
  else
    let v := (s.group (g % 4096)).status
    ((s.voidCp (g % 4096)).modGroup (g % 4096) Group.freed).modTile t fun x => x.takeReply r.id v

/-- A request leaves the tile. -/
def State.leave (s : State) (t : TileId) (r : Req) : State :=
  match r.act with
  | .push e n => s.modEng t e fun g => { g with queue := g.queue ++ [n] }
  | .winLoad u .. => s.toMember t u .req r
  | .winAtomic u .. => s.toMember t u .req r
  | .winStore u .. => s.toMember t u .write r
  | .multicast off bytes members delay member =>
    s.mcJoin t
      { off := off / 32 * 32, bytes := bytes.zipIdx.map fun b => (off % 32 + b.2, b.1, 0xFF), issue := s.gtime,
        due := s.gtime + delay, src := t, member := member, members := members }
  | .signal pkg a => s.signalLeaves t r pkg a
  | .crew a => s.crewAct t r a
  | .launch _ _ _ _ route _ => s.launchLeaves t r route
  | .grpopen l => s.grpopenLeaves t r l
  | .grpfree g => s.grpfreeLeaves t r g
  | _ => s.toHome t r

/-! ## Checker mismatches (R262, R358) -/

/-- R262: requests of the region that have not left never do, nor does the one that differed (`odd`); an `EXEC` among them
has pushed nothing. -/
def Tile.dropRegion (x : Tile) (odd : Option Nat) : Tile :=
  let out (r : Req) : Bool := r.region == x.cox.region || some r.id == odd
  let gone := x.reqs.filter out
  let x := gone.foldl (fun x r => match r.act with
    | .push e _ => x.modEng e fun g => { g with pushed := g.pushed - 1 }
    | _ => x) x
  { x with reqs := x.reqs.filter fun r => !out r }

/-- R262, R358: a checker mismatch, or a parity error of an integer unit of the Cox, by its code: the region restarts; a second one
of the region is CHKDIV. (Log entry 33, DEDUCED.) -/
def State.checkerMismatch (s : State) (t : TileId) (code : Byte) (odd : Option Nat) : State :=
  let n := (s.cox t).mismatches + 1
  let s := s.correctTile t code none
  let s := s.modTile t fun x => x.dropRegion odd
  let s := s.modCox t fun c => { c.restart with mismatches := n, nextIssue := max c.nextIssue (s.gtime + 1) }
  if 2 ≤ n then s.containTile t cCHKDIV none else s

/-- R261: does the checker reach a local store or a CSR write of the tile in this cycle? -/
def Cox.compares (c : Cox) (now : Nat) : Bool := c.checks.any fun k => k ≤ now

/-- REQUEST_DEPART (R261): the checker reaches a local store or CSR write, or the next request leaves; when the checker's
copy differs, the region restarts, and a request that differed never leaves (R262). (Log entry 33, DEDUCED.) -/
def execRequestDepart (t : TileId) (mismatch : Bool) (s : State) : Out :=
  if s.phase ≠ .ending then .next s
  else if (s.cox t).compares s.gtime then
    let s := s.modCox t fun c => { c with checks := c.checks.filter fun k => s.gtime < k }
    .next (if mismatch then s.checkerMismatch t cMCCHK none else s)
  else
    match s.leaving t with
    | some (r, rest) =>
      if mismatch then .next (s.checkerMismatch t cMCCHK (some r.id))
      else .next ((s.modTile t fun x => { x with reqs := rest }).leave t r)
    | none => .next s

/-! ## The Wheel (R297) -/

/-- An operation of a tile on a Signal word of the package, before request `id` and of no order `sc`, in a flit. -/
def Flit.earlierSignal (f : Flit) (pkg : Byte) (t : TileId) (id : Nat) (w : BitVec 17) : Option (Req × SigAccess) :=
  match f.msg with
  | .req u r =>
    match r.act with
    | .signal p a => if p = pkg ∧ u = t ∧ r.id < id ∧ a.word = w ∧ a.ord ≠ .sc then some (r, a) else none
    | _ => none
  | _ => none

/-- R287: the operations of a tile on a word that it issued before request `id` and that still travel: they are performed
now, and their flits arrive with nothing left to do. (Log entry 32, DEDUCED.) -/
def State.performEarlier (s : State) (h : HomeId) (t : TileId) (id : Nat) (w : BitVec 17) : State :=
  let p := s.sys.pkg
  let ops := s.allFlits.filterMap fun f => f.earlierSignal p t id w
  let s := s.mapFlits fun f => if (f.earlierSignal p t id w).isSome then { f with msg := .void } else f
  (List.range id).foldl (fun s n =>
    match ops.find? fun o => o.1.id = n with
    | some o => s.serveSignal h t o.1 o.2 .good
    | none => s) s

/-- SC_PERFORM (R297): 512 cycles after its position the operation is performed at its home, before every other one of
that cycle there, and after the tile's earlier ones on the word (R287). (Log entry 32, DEDUCED.) -/
def execScPerform (t : TileId) (s : State) : Out :=
  match removeFirst (fun o => decide (o.1 ≤ s.gtime)) (s.tile t).scOps with
  | some ((_, r), rest) =>
    if s.phase ≠ .starting then .next s
    else
      let s := s.modTile t fun x => { x with scOps := rest }
      match r.act with
      | .signal _ a =>
        let h := signalHome a.word
        if (s.die (Fin.ofNat 4 (h.val / 2))).frozen then .next s
        else .next ((s.performEarlier h t r.id a.word).serveSignal h t r a .good)
      | _ => .next s
  | none => .next s

end Sys2Proof.Machine
end

