-- ==== Sys2Proof/Machine/Walk.lean ====
section
/-! DEFINITION. Launch records (R305, R306) and the walk over their levels (R315, R316): nests, points in their order,
gang groups, and the assignment of points to the members of a gang. -/

namespace Sys2Proof.Machine

open Sys2Proof

/-! ## Records (R305, R306) -/

/-- A little-endian field of a record. -/
def recNat (l : List Byte) (off n : Nat) : Nat := ofBytes ((l.drop off).take n)

/-- R306: level entry `j`, counted from 0. -/
def levelOf (l : List Byte) (j : Nat) : Level :=
  let o := 0x40 + 16 * j
  ⟨recNat l o 1, recNat l (o + 1) 1, recNat l (o + 2) 1, recNat l (o + 3) 1, recNat l (o + 4) 4⟩

/-- R305: the record in 256 bytes. -/
def launchRecOf (l : List Byte) : LaunchRec where
  image := BitVec.ofNat 64 (recNat l 0x00 8)
  budget := recNat l 0x08 4
  dbudget := if recNat l 0x0C 4 = 0 then 0xFFFFFFFF else recNat l 0x0C 4
  quota := recNat l 0x10 4
  gsize := recNat l 0x14 1
  prio := recNat l 0x15 1
  pair := bitOf (recNat l 0x16 1) 0
  wsload := bitOf (recNat l 0x16 1) 1
  cont := bitOf (recNat l 0x16 1) 2
  wheelEn := bitOf (recNat l 0x18 2) 15
  wheel := bitsOf (recNat l 0x18 2) 0 11
  hostv := if bitOf (recNat l 0x1A 2) 15 then some (bitsOf (recNat l 0x1A 2) 0 11) else none
  csig := if bitOf (recNat l 0x1C 4) 31 then some (BitVec.ofNat 17 (recNat l 0x1C 4)) else none
  pred := ((List.range 8).map fun k => BitVec.ofNat 32 (recNat l (0x20 + 4 * k) 4)).filter fun p => p ≠ 0
  levels := (List.range (min 8 (recNat l 0x17 1))).map (levelOf l)
  relpred := ((List.range 8).map fun k => recNat l (0xC0 + k) 1).filter fun k => k ≠ 0

/-- R315: the levels as nests: maximal runs of one ORDER. -/
def nestsOf : List Level → List (List Level)
  | [] => []
  | v :: l =>
    match nestsOf l with
    | [] => [[v]]
    | n :: r => if (n.map Level.order).head? = some v.order then (v :: n) :: r else [v] :: n :: r

/-- The number of levels that fix the gang group (R316): those with a DOMAIN code of 3 or less. -/
def LaunchRec.groupLevels (r : LaunchRec) : Nat := (r.levels.filter fun v => v.domain ≤ 3).length

/-- R316: the length of the prefix that binds a point to a crew (4) or to a tile (5). -/
def LaunchRec.prefixLen (r : LaunchRec) (domain : Nat) : Option Nat :=
  (r.levels.findIdx? fun v => v.domain == domain).map fun i => i + 1

/-- R307: is a level that binds the last of its nest, or in a nest of order row or snake? `k` numbers the first level. -/
def bindsOk (groupLevel : Nat) : Nat → List (List Level) → Bool
  | _, [] => true
  | k, n :: ns =>
    (n.zipIdx.all fun v =>
      !(decide (v.1.domain ≥ 4) || k + v.2 == groupLevel) || v.2 + 1 == n.length || v.1.order == 0 || v.1.order == 2) &&
    bindsOk groupLevel (k + n.length) ns

/-- Do the level codes not decrease? -/
def nonDecreasing : List Nat → Bool
  | a :: b :: l => decide (a ≤ b) && nonDecreasing (b :: l)
  | _ => true

/-- Is an entry of the table within the limits of R306? -/
def levelOk (l : List Byte) (j : Nat) : Bool :=
  let v := levelOf l j
  decide (v.domain ≤ 5) && decide (v.order ≤ 3) && decide (v.scope ≤ 4) && decide (1 ≤ v.xreg) && decide (v.xreg ≤ 8) &&
    decide (1 ≤ v.count) && recNat l (0x48 + 16 * j) 8 == 0

/-- R307, code 1: the limits of R305 and R306, and the conditions on the levels. -/
def recordOk (l : List Byte) : Bool :=
  let r := launchRecOf l
  let n := recNat l 0x17 1
  decide (1 ≤ r.budget) && decide (r.quota ≤ 2 ^ 29) && decide (1 ≤ r.gsize) && decide (r.gsize ≤ 16) &&
  decide (r.prio ≤ 7) && decide (recNat l 0x16 1 ≤ 7) && decide (1 ≤ n) && decide (n ≤ 8) &&
  bitsOf (recNat l 0x18 2) 11 4 == 0 && bitsOf (recNat l 0x1A 2) 11 4 == 0 &&
  (match r.hostv with
    | some v => decide (v ≤ 2043)
    | none => true) &&
  bitsOf (recNat l 0x1C 4) 17 14 == 0 && decide (r.pred.length + r.relpred.length ≤ 8) && recNat l 0xC8 56 == 0 &&
  (List.range 8).all (fun j => if j < n then levelOk l j else recNat l (0x40 + 16 * j) 16 == 0) &&
  (r.levels.map Level.xreg).eraseDups.length == r.levels.length &&
  nonDecreasing (r.levels.map Level.domain) && (r.levels.head?.any fun v => decide (v.domain ≤ 3)) &&
  decide ((r.levels.map Level.count).foldl (fun a b => a * b) 1 ≤ 2 ^ 48) &&
  bindsOk (r.groupLevels - 1) 0 (nestsOf r.levels)

/-! ## The order of a nest (R315) -/

/-- The product of counts. -/
def prodOf (l : List Nat) : Nat := l.foldl (fun a b => a * b) 1

/-- The digits of `q` with the last level least significant. -/
def rowDigits : List Nat → Nat → List Nat
  | [], _ => []
  | c :: cs, q => q / prodOf cs % c :: rowDigits cs q

/-- The digits of `q` with the first level least significant. -/
def colDigits : List Nat → Nat → List Nat
  | [], _ => []
  | c :: cs, q => q % c :: colDigits cs (q / c)

/-- The snake over row digits; `m` is the ordinal of the prefix so far. -/
def snakeDigits : List Nat → List Nat → Nat → List Nat
  | c :: cs, d :: ds, m => (if m % 2 = 0 then d else c - 1 - d) :: snakeDigits cs ds (m * c + d)
  | _, _, _ => []

/-- The tuple of a morton key over `n` levels. -/
def mortonTuple (n key : Nat) : List Nat := (List.range n).map fun j =>
  (List.range 32).foldl (fun a s => if bitOf key (s * n + (n - 1 - j)) then a + 2 ^ s else a) 0

/-- The tuple of a nest at a key: the ordinal, or in a morton nest the morton key. -/
def nestTuple (n : List Level) (key : Nat) : List Nat :=
  let cs := n.map Level.count
  match (n.map Level.order).headD 0 with
  | 0 => rowDigits cs key
  | 1 => colDigits cs key
  | 2 => snakeDigits cs (rowDigits cs key) 0
  | _ => mortonTuple n.length key

/-- Is every index below its count? -/
def within (cs t : List Nat) : Bool := (cs.zip t).all fun x => decide (x.2 < x.1)

/-- The key that follows: in a morton nest the least greater key whose tuple is within the counts. -/
def nestNext (n : List Level) (key : Nat) : Option Nat :=
  let cs := n.map Level.count
  if (n.map Level.order).headD 0 = 3 then
    (List.range (32 * n.length)).findSome? fun p =>
      let k := (key / 2 ^ p + 1) * 2 ^ p
      if bitOf key p = false ∧ within cs (mortonTuple n.length k) then some k else none
  else if key + 1 < prodOf cs then some (key + 1) else none

/-- The keys after a point, the last nest running fastest. -/
def walkNext : List (List Level) → List Nat → Option (List Nat)
  | n :: ns, k :: ks =>
    match walkNext ns ks with
    | some r => some (k :: r)
    | none => (nestNext n k).map fun k' => k' :: ns.map fun _ => 0
  | _, _ => none

/-- The indices of a point. -/
def walkPoint (ns : List (List Level)) (ks : List Nat) : List Nat := (ns.zip ks).flatMap fun x => nestTuple x.1 x.2

/-! ## Assignment (R316) -/

/-- The point that the walker stands at. -/
def Launch.point (l : Launch) : Point := ⟨l.nextPoint, walkPoint (nestsOf l.record.levels) l.walk⟩

/-- The gang group of a point. -/
def Launch.groupOf (l : Launch) (p : Point) : List Nat := p.idx.take l.record.groupLevels

/-- Prefixes whose last point the walk has passed bind no more. -/
def Gang.prune (g : Gang) (p : Point) : Gang :=
  { g with
    tileBound := g.tileBound.filter fun b => decide (p.idx.take b.1 = b.2.1),
    crewBound := g.crewBound.filter fun b => decide (p.idx.take b.1 = b.2.1) }

/-- R316: is a member free for the point that the walk has reached? -/
def Gang.memberFree (g : Gang) (p : Point) (m : Nat) : Bool :=
  (g.lists.getD m []).isEmpty && (g.running.getD m none).isNone && !((g.prune p).tileBound.any fun b => b.2.2 == m)

/-- The crew of the gang that a point's CREW prefix is bound to. -/
def Gang.crewFor (g : Gang) (p : Point) : Option Nat := ((g.prune p).crewBound.head?).map fun b => b.2.2

/-- R316, rules 1 to 3: the member that takes a point, in every gang of its group. -/
def takesPoint (gs : List Gang) (p : Point) : Option Nat :=
  match gs with
  | [] => none
  | g :: _ =>
    match (g.prune p).tileBound.head? with
    | some b => some b.2.2
    | none => (List.range g.tiles.length).find? fun m =>
      (match g.crewFor p with
        | some q => m / 4 == q
        | none => true) && gs.all fun h => h.memberFree p m

/-- A point joins a member's list, and its prefixes are bound. -/
def Gang.give (g : Gang) (r : LaunchRec) (p : Point) (m : Nat) : Gang :=
  let g := g.prune p
  { g with
    lists := g.lists.set m (g.lists.getD m [] ++ [p]),
    tileBound := match r.prefixLen 5 with
      | some k => if g.tileBound.isEmpty then [(k, p.idx.take k, m)] else g.tileBound
      | none => [],
    crewBound := match r.prefixLen 4 with
      | some k => if g.crewBound.isEmpty then [(k, p.idx.take k, m / 4)] else g.crewBound
      | none => [] }

/-- The walk goes on to its next point; a new gang group waits from now on (R314). -/
def Launch.advance (l : Launch) (now : Nat) : Launch :=
  let old := l.groupOf l.point
  match walkNext (nestsOf l.record.levels) l.walk with
  | none => { l with exhausted := true, waiting := none, gangs := l.gangs.map fun g => { g with passed := true } }
  | some ks =>
    let l' := { l with walk := ks, nextPoint := l.nextPoint + 1 }
    if l'.groupOf l'.point = old then l'
    else { l' with
      waiting := some now,
      gangs := l'.gangs.map fun g => if g.group = old then { g with passed := true } else g }

/-- The gangs of the group that the walk stands in. -/
def Launch.current (l : Launch) : List Gang := l.gangs.filter fun g => decide (g.group = l.groupOf l.point) && !g.passed

/-- R325: is a gang one of a group that was abandoned? It holds no tile. -/
def Gang.abandoned (g : Gang) : Bool := g.tiles.isEmpty

/-- R316: one step of the walk: the point at hand is assigned, or dropped with its abandoned group, or waits. -/
def Launch.walkStep (l : Launch) (now : Nat) : Launch :=
  if l.exhausted ∨ l.stopped then l
  else
    let p := l.point
    let gs := l.current
    if gs.any Gang.abandoned then l.advance now
    else if gs.any fun g => g.preempted then l
    else
      match takesPoint gs p with
      | none => l
      | some m =>
        let given := l.gangs.map fun g =>
          if g.group = l.groupOf p ∧ !g.passed then g.give l.record p m else g
        Launch.advance { l with gangs := given } now

end Sys2Proof.Machine
end

