-- ==== Sys2Proof/Machine/Pool.lean ====
section
/-! DEFINITION. The pending-launch pools of the dies (R304, R307 to R311), completion words (R324), error tokens (R325,
R326), and the words `LAUNCH`, `LAUNCHW`, `JOIN` (R319 to R322). -/

namespace Sys2Proof.Machine

open Sys2Proof

/-! ## Completions (R311, R324) -/

/-- R311: the completion word that a launch id finds among the last 4,096 of its die. -/
def State.completion (s : State) (id : BitVec 32) : Option Word :=
  ((s.die (Fin.ofNat 4 (bitsOf id.toNat 30 2))).done.find? fun c => c.1 = id).map Prod.snd

/-- STATUS of a completion word (R324). -/
def wordStatus (w : Word) : Nat := bitsOf w.toNat 0 4
/-- CAUSE. -/
def wordCause (w : Word) : Byte := BitVec.ofNat 8 (bitsOf w.toNat 8 8)

/-- R324: a completion word. -/
def completionWord (id : BitVec 32) (tile : Nat) (cause : Byte) (status : Nat) : Word :=
  BitVec.ofNat 64 (id.toNat * 2 ^ 32 + tile * 2 ^ 23 + cause.toNat * 2 ^ 8 + status)

/-- R324, steps 1 to 3: what a completed launch is to announce. -/
def Launch.notice (l : Launch) (w : Word) : Notice where
  csig := l.record.csig.map fun k => (k, w)
  compsig := l.compsig.filter fun c => c.getLsbD 31
  hostv := l.record.hostv.filter fun v => v ≤ 2043
  sent := false
  flag := none

/-- R324: is a step of an announcement still under way: a Signal operation, or a flag not acknowledged? -/
def State.announcing (s : State) (n : Notice) : Bool := n.sent || (match n.flag with
  | some f => s.fab.sent.any fun k => k.named f.1 f.2
  | none => false)

/-- R324: the announcements of a die go on by one step: the CSIG write is sent to its word's home, from home 0 of the die;
when it has been performed the COMPSIG add follows, and then, when that has been, the vector.
(Log entry 52, DESIGN CHOICE.) -/
def State.announce (s : State) (d : DieId) : State :=
  let src := homeStation (homeOf d.val 0)
  match (s.die d).notices with
  | [] => s
  | n :: rest =>
    let put (s : State) (n : Notice) : State := s.modDie d fun x => { x with notices := n :: rest }
    if s.announcing n then s
    else
      match n.csig, n.compsig with
      | some (k, w), _ => put (s.signalAt src none s.sys.pkg ⟨k, .rel, .pkg, .write w⟩ (some (.die d))) { n with sent := true }
      | none, some c =>
        let pkg : Byte := BitVec.ofNat 8 (bitsOf c.toNat 17 8)
        let s := s.signalAt src none pkg ⟨BitVec.ofNat 17 c.toNat, .rel, .dom, .atom .add false 1⟩ (some (.die d))
        put s (if pkg = s.sys.pkg then { n with sent := true }
          else { n with compsig := none, flag := some (pkg, BitVec.ofNat 32 (s.fab.seqOut.get pkg.toNat 0)) })
      | none, none =>
        let s := match n.hostv with
          | some v => s.raiseVector v
          | none => s
        s.modDie d fun x => { x with notices := rest }

/-- R324: a launch completes: it leaves the pool or the walk, its completion word is written, and it is to be announced. -/
def State.completeOne (s : State) (l : Launch) (status : Nat) (cause : Byte) (tile : Nat) : State :=
  let w := completionWord l.id tile cause status
  let s := { s with launches := s.launches.filter fun k => k.id ≠ l.id }
  let s := s.modDie l.die fun d =>
    { d with done := ((l.id, w) :: d.done).take 4096, window := d.window.set (l.id.toNat % 4096) w,
             notices := d.notices ++ [l.notice w] }
  s

/-- R325, R326: does a token of launch `id` reach a launch: one that is pending, or was dispatched in the cycle just
ended, and names it as predecessor or was made by it? -/
def State.tokenReaches (s : State) (id : BitVec 32) (l : Launch) : Bool :=
  (match l.dispatchedAt with
    | none => true
    | some c => s.phase == .starting && c + 1 == s.gtime) && l.verdict.isNone && (l.preds.contains id || l.parent == some id)

/-- R325: error tokens spread. -/
def State.spread : Nat → List (BitVec 32 × Byte) → State → State
  | 0, _, s => s
  | _, [], s => s
  | k + 1, (id, c) :: rest, s =>
    match s.launches.find? (s.tokenReaches id) with
    | none => State.spread k rest s
    | some v => State.spread k ((id, c) :: rest ++ [(v.id, c)]) (s.completeOne v 3 c 0)

/-- R324, R325: a launch completes, and spreads its token unless it is DONE. -/
def State.complete (s : State) (l : Launch) (status : Nat) (cause : Byte) (tile : Nat) : State :=
  let s := s.completeOne l status cause tile
  if status = 1 then s else State.spread (2 * s.launches.length + 2) [(l.id, cause)] s

/-! ## Entering the pool (R304, R307 to R310) -/

/-- R304: the id that a launch gets. -/
def newId (d : DieId) (counter : Nat) : BitVec 32 := BitVec.ofNat 32 (d.val * 2 ^ 30 + counter)

/-- R304: the counter after it. -/
def nextCounter (c : Nat) : Nat := if 2 ^ 30 - 1 ≤ c then 1 else c + 1

/-- R310: the entries of a die's share that are held. -/
def State.held (s : State) (d : DieId) (share : Share) : Nat :=
  (s.launches.filter fun l => l.die = d ∧ l.share = share ∧ l.dispatchedAt.isNone ∧ l.verdict = none).length

/-- R310: the share that a launch of a depth takes its entry from. -/
def State.shareFor (s : State) (d : DieId) (depth : Nat) : Option Share :=
  if 1 ≤ depth ∧ s.held d depth < 256 then some depth
  else if s.held d 0 < 256 then some 0
  else none

/-- R308: the predecessors that RELPRED names; one beyond the queue's count is DONE and drops out. -/
def LQueue.relPreds (q : LQueue) (l : List Nat) : List (BitVec 32) :=
  l.filterMap fun k => if k ≤ q.received then q.recent[k - 1]? else none

/-- R307: the refusal code of a record, 0 when it passes. -/
def State.refusal (s : State) (d : DieId) (q : QueueId) (l : List Byte) : Nat :=
  let r := launchRecOf l
  if recordOk l = false then 1
  else if (s.sys.images.find? fun i => i.1 = r.image).isNone then 2
  else if 2 ^ 29 < ((s.launches.filter fun k => k.verdict = none).map fun k => k.record.quota).foldl (· + ·) r.quota then 3
  else if ((s.die d).queue q).en = false then 4
  else if (r.pair ∧ d.val ≠ 0) ∨ (r.wsload ∧ r.gsize ≠ 1) then 5
  else 0

/-- A half of a PAIR launch that has changed nothing. -/
def Half.fresh : Half := ⟨0, [], [], [], false, false⟩

/-- R326: may a launch enter a pool of a die now? In one cycle reservations are taken in increasing die order. -/
def State.inDieOrder (s : State) (d : DieId) : Bool :=
  decide (s.sys.entered.1 ≠ s.gtime) || decide (s.sys.entered.2 ≤ d.val)

/-- R304, R307, R308, R326: a launch enters the pool of a die: it has its id, and holds an entry of `share` or completes,
refused or cancelled, at the end of the cycle. -/
def State.enterPool (s : State) (d : DieId) (q : QueueId) (bytes : List Byte) (depth : Nat) (parent : Option (BitVec 32))
    (compsig : Option (BitVec 32)) (share : Share) : State × BitVec 32 :=
  let id := newId d (s.die d).counter
  let r := launchRecOf bytes
  let preds := r.pred ++ ((s.die d).queue q).relPreds r.relpred
  let l : Launch :=
    { id := id, die := d, queue := q, depth := depth, record := r, preds := preds, parent := parent, compsig := compsig,
      entered := s.gtime, share := share, dispatchedAt := none, walk := (nestsOf r.levels).map fun _ => 0, nextPoint := 0,
      exhausted := false, waiting := none, gangs := [], failure := none, failed := false, stopped := false,
      halves := if r.pair then some (Half.fresh, Half.fresh) else none, covers := [],
      verdict :=
        let code := s.refusal d q bytes
        if code ≠ 0 then some (4, BitVec.ofNat 8 code)
        else ((preds.filterMap s.completion).find? fun w => wordStatus w ≠ 1).map fun w => (3, wordCause w) }
  let s := s.modDie d fun x =>
    let x := x.modQueue q fun k => { k with recent := (id :: k.recent).take 255, received := k.received + 1 }
    { x with counter := nextCounter x.counter }
  ({ s with launches := s.launches ++ [l] }.modSys fun y => { y with entered := (s.gtime, d.val) }, id)

/-- Does the scheduler of a die run: neither frozen nor in a hold-up (R355, R371)? -/
def State.schedules (s : State) (d : DieId) : Bool := !(s.die d).frozen && !s.holding

/-! ## Launches made by iterations (R319 to R321) -/

/-- Has the word of a pool request been given up since? -/
def State.poolStale (s : State) (q : PoolReq) : Bool :=
  match q.from' with
  | some (t, r) => !(s.cox t).closingIs r
  | none => true

/-- R320, R321: the answer of a pool to a request: none while a `LAUNCHW` has to wait for an entry. -/
def State.answerPool (s : State) (d : DieId) (q : PoolReq) : Option State :=
  if s.poolStale q then some s
  else
    match q.from', s.shareFor d q.depth with
    | some (t, r), share =>
      match r.act with
      | .launch pd xd wait _ _ _ =>
        match share with
        | some sh =>
          let e := s.enterPool d q.queue q.bytes q.depth q.parent q.compsig sh
          some (e.1.launchAnswer t pd xd true (e.2.setWidth 64))
        | none =>
          if wait then none
          else if pd = some 0 then some (s.refuseClosing t r ⟨cPOOLFULL, 0, 0, 0⟩)
          else some (s.launchAnswer t pd xd false 0)
      | _ => some s
    | none, _ => some s

/-- The first request of a list that a pool can answer, with the state after it and those that stay. -/
def State.firstAnswer (s : State) (d : DieId) : List PoolReq → Option (State × List PoolReq)
  | [] => none
  | q :: l =>
    match s.answerPool d q with
    | some s' => some (s', l)
    | none => (s.firstAnswer d l).map fun r => (r.1, q :: r.2)

/-- POOL_ENTRY (R307, R310, R320, R321): a launch made by an iteration enters the pool of a die. -/
def execPoolEntry (d : DieId) (s : State) : Out :=
  if s.phase ≠ .running ∨ s.schedules d = false ∨ s.inDieOrder d = false then .next s
  else
    match s.firstAnswer d (s.die d).poolReqs with
    | some (s', rest) => .next (s'.modDie d fun x => { x with poolReqs := rest })
    | none => .next s

/-! ## The words (R319 to R322) -/

/-- R305, R320: the checks of a record that lies at `va`: translation, and one I segment. -/
def State.recordCheck (s : State) (t : TileId) (va : Nat) : Chk :=
  match s.translate t va .read none with
  | .error c => .fault c 0 (BitVec.ofNat 64 va)
  | .ok p =>
    match s.addrCheck t (pteExt p.pte) va 256 with
    | .ok =>
      match s.extent? (pteExt p.pte) with
      | some e =>
        let a := (e.segOf (e.elemsAt (va - e.base)).1).map Prod.fst
        let b := (e.segOf (e.elemsAt (va + 255 - e.base)).2).map Prod.fst
        if a = b then .ok else .fault cROLE 1 (BitVec.ofNat 64 va)
      | none => .fault cROLE 1 (BitVec.ofNat 64 va)
    | c => c

/-- `LAUNCH` and `LAUNCHW` as they issue (R320, R321): the checks; the request leaves after its release. -/
def State.runLaunch (s : State) (g : CGuard) (pd : Option (Fin 16)) (xd a b : Fin 64) (wait : Bool) (csig : BitVec 32) :
    State :=
  s.runClosing g [.x a, .x b] fun v s1 =>
    let t := s.curTile
    let va := nth v 0
    let route := nth v 1
    if s.barred true ∨ bitsOf route.toNat 20 44 ≠ 0 then .fault cPROT 0 0
    else
      let ask := CoxRes.done (s1.request false true (s.cox t).pc (.launch pd xd wait va.toNat route csig))
      if route.getLsbD 16 then ask
      else if misaligned va 256 then .fault cMISALIGN 0 va
      else
        (s.recordCheck t va.toNat).then'
          (if ((s.launchOf t).map Launch.depth).getD 0 = 7 then .fault cPROT 0 0 else ask)

/-- `LAUNCH` (R320). -/
def execLaunch (g : CGuard) (pd : Fin 16) (xd a b : Fin 64) (csig : BitVec 32) (s : State) : Out :=
  .next (s.runLaunch g (some pd) xd a b false csig)

/-- `LAUNCHW` (R321). -/
def execLaunchw (g : CGuard) (xd a b : Fin 64) (csig : BitVec 32) (s : State) : Out :=
  .next (s.runLaunch g none xd a b true csig)

/-- `JOIN` (R322): it waits while the launch is pending or running, and then writes its completion word, or 0. -/
def execJoin (g : CGuard) (d : Fin 64) (a : Src) (s : State) : Out :=
  .next (s.runCox g [a.op] fun v s1 =>
    let id : BitVec 32 := (nth v 0).setWidth 32
    if (s.launch? id).isSome then .wait else .done (s1.sendX d ((s.completion id).getD 0) 0))

end Sys2Proof.Machine
end

