-- ==== Sys2Proof/Machine/Receive.lean ====
section
/-! DEFINITION. Packets as they arrive at the package (R236, R247, R249, R250): what is dropped, refused and committed. -/

namespace Sys2Proof.Machine

open Sys2Proof

/-! ## Launch packets (R249, R250) -/

/-- R250: are the CRC good and the reserved bytes zero? -/
def launchPacketOk (l : List Byte) : Bool :=
  l.length == 64 && recNat l 3 5 == 0 && recNat l 0x14 40 == 0 && (crc32c (l.take 60)).toNat == recNat l 0x3C 4

/-- R250: the lowest-numbered valid entry for a source package. -/
def State.peerFor (s : State) (src : Byte) : Option Peer :=
  (List.find? (fun e : Nat × Peer => e.2.ctl.getLsbD 0 && e.2.src == src) s.sys.peers).map Prod.snd

/-- R250: is a launch packet accepted? -/
def State.acceptsLaunch (s : State) (l : List Byte) : Bool :=
  launchPacketOk l &&
    match s.peerFor (BitVec.ofNat 8 (recNat l 1 1)) with
    | some e => e.ctl.getLsbD 1 && e.qmask.getLsbD (recNat l 0 1) && (decide (recNat l 2 1 ≤ 3) || e.ctl.getLsbD 2)
    | none => false

/-- R249, R305: the record that a packet names, when it lies wholly in one I segment; a record elsewhere, or one that a check
fails of, reads as zeros, which R307 refuses with code 1 (log entry 20, DESIGN CHOICE). -/
def State.peerRecord (s : State) (va : Nat) : State × List Byte :=
  let zeros : State × List Byte := (s, List.replicate 256 0)
  if va % 256 ≠ 0 then zeros
  else
    match s.walk va with
    | none => zeros
    | some p =>
      match s.extent? (pteExt p.pte) with
      | none => zeros
      | some e =>
        match e.segOf (e.elemsAt (va - e.base)).1, e.segOf (e.elemsAt (va + 255 - e.base)).2 with
        | some a, some b => 
          if a.1 = b.1 ∧ a.2.st = .i then
            let r := s.deviceLoad va 256
            (r.1, r.2.getD zeros.2)
          else zeros
        | _, _ => zeros

/-- R250, R309: an accepted launch takes a common entry, and is not committed without one, nor from P on (R371). A
refused packet is logged and queues nothing. -/
def State.launchPacketIn (s : State) (l : List Byte) : Option State :=
  if s.acceptsLaunch l = false then some s.logStale
  else
    let d : DieId := Fin.ofNat 4 (recNat l 0 1 / 64)
    if s.schedules d = false ∨ s.inDieOrder d = false then none
    else if s.held d 0 < 256 then
      let k := s.peerRecord (recNat l 8 8)
      some (k.1.enterPool d (Fin.ofNat 64 (recNat l 0 1)) k.2 0 none (some (BitVec.ofNat 32 (recNat l 0x10 4))) 0).1
    else none

/-! ## Arrival (R247) -/

/-- R23, R227, R247: a flag is sent to the home of its Signal word; when it has been applied its packet is committed. -/
def State.applyFlag (s : State) (p : Packet) (a : SigAccess) : State :=
  let st := s.portStation 0
  (s.modFab fun f => { f with applying := (p.src, p.seq) :: f.applying }).sendFlit st (homeStation (signalHome a.word)) .signal
    (.oper none a.word a.act (some (.packet st p.src p.seq)))

/-- Is a packet committed as it arrives? A flag is once it has been applied. -/
def atOnce : PacketBody → Bool
  | .flag _ => false
  | _ => true

/-- What committing a packet does; none when it cannot be committed now. -/
def State.commitBody (s : State) (p : Packet) : Option State :=
  match p.body with
  | .message g gen .. => s.groupPacket p g.val gen.val
  | .notice g gen .. => s.groupPacket p g.val gen.val
  | .flag a => some (s.applyFlag p a)
  | .launch l => s.launchPacketIn l

/-- PACKET_ARRIVE (R247): a duplicate is dropped, a number beyond the window is refused, a new packet is committed once: at
once, or, a flag, when it has been applied.
A package that has left the domain takes none (R228). (Log entry 27, DESIGN CHOICE.) -/
def execPacketArrive (p : Packet) (s : State) : Out :=
  if s.phase ≠ .running ∨ p.dst ≠ s.sys.pkg ∨ s.fab.outOfDomain then .next s
  else
    match s.fab.freshness p.src p.seq with
    | .duplicate | .beyond => .next s
    | .fresh =>
      match s.commitBody p with
      | some s' => .next (if atOnce p.body then s'.modFab fun f => f.commit p.src p.seq else s')
      | none => .next s

end Sys2Proof.Machine
end

