-- ==== Sys2Proof/Machine/Vector.lean ====
section
/-! DEFINITION. The meanings of the V words (R174 to R206): how a word reads its guard and sources, faults, issues and
lands, and what each computes. -/

namespace Sys2Proof.Machine

open Sys2Proof

/-! ## Names and sources (R177, R179, R183) -/

/-- R177: the physical register of a name. -/
def physReg (base : BitVec 5) (r : Fin 64) : Fin 64 :=
  if r.val < 32 then r else Fin.ofNat 64 (32 + (r.val - 32 + base.toNat) % 32)

/-- A source of a V word. -/
inductive VIn where
  | v (r : Fin 64)
  | k (r : Fin 64)
  | ip (p : Fin 8)
  | s (n : Fin 4)
  | imm (i : BitVec 32)
deriving DecidableEq, Repr

/-- A destination of a V word. -/
inductive VOut where
  | v (r : Fin 64)
  | k (r : Fin 64)
  | op (p : Fin 4)
deriving DecidableEq, Repr

end Sys2Proof.Machine

namespace Sys2Proof

open Sys2Proof.Machine

/-- A source of classes V, P, S or #. -/
def VSrc.vin : VSrc → VIn
  | .v r => .v r
  | .ip p => .ip p
  | .s n => .s n
  | .imm i => .imm i
/-- A source of classes V or P. -/
def VP.vin : VP → VIn
  | .v r => .v r
  | .ip p => .ip p
/-- A source of classes V, S or #. -/
def VSI.vin : VSI → VIn
  | .v r => .v r
  | .s n => .s n
  | .imm i => .imm i
/-- A destination of classes V or O. -/
def VDst.vout : VDst → VOut
  | .v r => .v r
  | .op p => .op p

end Sys2Proof

namespace Sys2Proof.Machine

open Sys2Proof

/-- The same value in every lane. -/
def allLanes (v : Lane) : Lanes := Vector.replicate 32 v
/-- A mask as lanes of 0 and 1. -/
def maskLanes (m : Lane) : Lanes := Vector.ofFn fun l => if m.getLsbD l.val then 1 else 0
/-- The lanes that are not 0, as a mask. -/
def lanesMask (v : Lanes) : Lane :=
  (List.range 32).foldl (fun m l => if v[(Fin.ofNat 32 l)] ≠ 0 then m ||| BitVec.ofNat 32 (2 ^ l) else m) 0

/-- Is a register source valid? -/
def VState.inValid (v : VState) : VIn → Bool
  | .v r => v.vv.getLsbD (physReg v.vrb r).val
  | .k r => physReg v.krb r == 0 || v.kv.getLsbD (physReg v.krb r).val
  | _ => true

/-- R51: `k0` reads as all ones. -/
def VState.readK (v : VState) (r : Fin 64) : Lane :=
  if physReg v.krb r = 0 then 0xFFFFFFFF else v.k[(physReg v.krb r)]

/-- R179: a scalar slot of the entry at work. -/
def Engine.slot (g : Engine) (n : Fin 4) : Lane :=
  match g.cur? with
  | none => 0
  | some e =>
    match n with
    | 0 => e.a.setWidth 32
    | 1 => (e.a >>> 32).setWidth 32
    | 2 => e.b.setWidth 32
    | 3 => (e.b >>> 32).setWidth 32

/-- The port of an input name. -/
def inPort (p : Fin 8) : Fin 12 := Fin.ofNat 12 p.val
/-- The port of an output name. -/
def outPort (p : Fin 4) : Fin 12 := Fin.ofNat 12 (8 + p.val)

/-- The pops of a word, in field order: each port with how many earlier pops of the word it has had. -/
def popsOf : List VIn → List (Fin 8) → List (Fin 8 × Nat)
  | [], _ => []
  | .ip p :: l, seen => (p, (seen.filter fun q => q = p).length) :: popsOf l (p :: seen)
  | _ :: l, seen => popsOf l seen

/-- R171, R172, R356: the fault of one pop, with its address; MCSRAM of a vector whose fetch could not be corrected. -/
def Tile.popFault (x : Tile) (p : Fin 8) (n : Nat) : Option (Byte × Nat) :=
  let port := x.port (inPort p)
  match port.set with
  | none => some (cINVREG, 0)
  | some q =>
    match port.lead[n]? with
    | some (.fault c) => some (c, q.addr (port.pos + n))
    | _ => none

/-- The lanes of one pop. -/
def Tile.popLanes (x : Tile) (p : Fin 8) (n : Nat) : Lanes :=
  match (x.port (inPort p)).lead[n]? with
  | some (.data v) => v
  | _ => allLanes 0

/-- The values of sources. -/
def Tile.vValues (x : Tile) : List VIn → List (Fin 8) → List Lanes
  | [], _ => []
  | .ip p :: l, seen => x.popLanes p (seen.filter fun q => q = p).length :: x.vValues l (p :: seen)
  | .v r :: l, seen => x.v.v[(physReg x.v.vrb r)] :: x.vValues l seen
  | .k r :: l, seen => maskLanes (x.v.readK r) :: x.vValues l seen
  | .s n :: l, seen => allLanes ((x.eng .v).slot n) :: x.vValues l seen
  | .imm i :: l, seen => allLanes i :: x.vValues l seen

/-- All the pops of a word. -/
def Tile.popAll (x : Tile) (srcs : List VIn) : Tile :=
  (List.range 8).foldl (fun y p =>
    let n := (srcs.filter fun o => o = VIn.ip (Fin.ofNat 8 p)).length
    if n = 0 then y else y.popPort (Fin.ofNat 12 p) n) x

/-- R55: the lanes in which a guard is true. -/
def VState.guard (v : VState) (g : VGuard) : Lane := if g.neg then ~~~(v.readK g.k) else v.readK g.k

/-! ## Issue (R181, R206) -/

/-- The word at work issues: it pops its token, its entry goes on, and what it writes is in flight. -/
def Tile.vIssue (x : Tile) (now : Nat) (tok : Tok) (lat : Nat) (code : Byte) (w : VWrite) : Tile :=
  let seq := (x.eng .v).curSeq
  let x := (x.popToken .v tok.pop).modEng .v fun g => { g.issue with nextIssue := now + 1 }
  { x with v := { x.v with flight := x.v.flight ++ [⟨now + lat, seq, code, tok.push, false, w⟩] } }

/-- What a word answers once its operands are read: a fault of its own, a wait, lanes for its destination, or another
write with a change of the machine. -/
inductive VOwn where
  | fault (code : Byte) (addr : Word := 0)
  | wait
  | lanes (v : Lanes)
  | write (w : VWrite) (f : State → State)

/-- A word without a destination to push into issues with the write `w`. -/
def State.vDone (s : State) (t : TileId) (tok : Tok) (srcs : List VIn) (lat : Nat) (code : Byte) (w : VWrite) : State :=
  s.modTile t fun x => (x.popAll srcs).vIssue s.gtime tok lat code w

/-- The word's destination takes lanes; a push is checked and encoded as it issues, and its position taken (R166,
R169). -/
def State.vTo (s : State) (t : TileId) (tok : Tok) (srcs : List VIn) (dst : VOut) (mask : Lane) (lat : Nat)
    (code : Byte) (v : Lanes) : State :=
  let x := s.tile t
  match dst with
  | .v r => s.vDone t tok srcs lat code (.v (physReg x.v.vrb r) mask v)
  | .k r => s.vDone t tok srcs lat code (.k (physReg x.v.krb r) mask (lanesMask v))
  | .op p =>
    match x.push (outPort p) mask v with
    | .error f => s.engFault t .v f.1 0 (BitVec.ofNat 64 f.2)
    | .ok o =>
      let s := s.vDone t tok srcs lat code (.push p o.bytes o.ovf o.unf)
      s.modTile t fun y => y.modPort (outPort p) fun q => { q with pos := q.pos + 1 }

/-- R206: a V word with a guard: token, guard, register sources, popped positions, its own checks, its push. `k` gets
the mask of enabled lanes and the values. (Log entry 15, DEDUCED.) -/
def State.runV (s : State) (h : VHead) (srcs : List VIn) (dst : Option VOut) (lat : Nat) (code : Byte)
    (k : Lane → List Lanes → VOwn) : State :=
  let t := s.curTile
  let x := s.tile t
  if x.canPop .v h.tok.pop = false then s
  else if x.v.inValid (.k h.g.k) = false then s.engFault t .v cINVREG 0
  else
    let mask := x.v.guard h.g
    if mask ≠ 0 ∧ (srcs.all x.v.inValid) = false then s.engFault t .v cINVREG 0
    else
      match (popsOf srcs []).findSome? fun p => x.popFault p.1 p.2 with
      | some f =>
        if f.1 = cMCSRAM then (s.containTile t cMCSRAM none).modEng t .v fun g => { g with stopped := true }
        else s.engFault t .v f.1 0 (BitVec.ofNat 64 f.2)
      | none =>
        match k mask (x.vValues srcs []), dst with
        | .fault c a, _ => s.engFault t .v c 0 a
        | .wait, _ => s
        | .write w f, _ => (f s).vDone t h.tok srcs lat code w
        | .lanes v, some d => s.vTo t h.tok srcs d mask lat code v
        | .lanes _, none => s.vDone t h.tok srcs lat code .none

/-- The `n`-th value. -/
def lanesAt (l : List Lanes) (n : Nat) : Lanes := l.getD n (allLanes 0)

/-- A word that computes each lane from the same lane of its sources, with latency `lat`. -/
def State.vLanewise (s : State) (h : VHead) (srcs : List VIn) (d : VOut) (lat : Nat) (code : Byte)
    (f : List Nat → Nat) : State :=
  s.runV h srcs (some d) lat code fun _ vals =>
    .lanes (Vector.ofFn fun l => BitVec.ofNat 32 (f (vals.map fun v => (v[l]).toNat)))

/-! ## FP words (R185, R186) -/

/-- The value of an operand's lane (R184). -/
def fpIn (ty : FpTy) (c : Nat) : Val := nfValue (c % 2 ^ ty.nf.w) ty.nf

/-- An FP word: `f` gives the exact result, which is rounded once. -/
def State.vFp (s : State) (h : VHead) (srcs : List VSrc) (d : VDst) (lat : Nat) (ty : FpTy) (rm : Rm)
    (f : List Val → Val) : State :=
  s.vLanewise h (srcs.map VSrc.vin) d.vout lat cMCVRES fun c => convert (f (c.map (fpIn ty))) ty.nf rm

/-- An FP word of one source whose result is rounded by its own function. -/
def State.vFp1 (s : State) (o : VFp1) (lat : Nat) (f : Val → Nf → Rm → Nat) : State :=
  s.vLanewise o.h [o.a.vin] o.d.vout lat cMCVRES fun c => f (fpIn o.ty (c.getD 0 0)) o.ty.nf o.rm

/-- The `n`-th operand. -/
def valAt (l : List Val) (n : Nat) : Val := l.getD n .zero

/-- `VADD` (R185). -/
def execVadd (o : VFp2) (s : State) : Out :=
  .next (s.vFp o.h [o.a, o.b] o.d 4 o.ty o.rm fun v => (valAt v 0).add (o.rm == .rdn) (valAt v 1))
/-- `VSUB` (R185). -/
def execVsub (o : VFp2) (s : State) : Out :=
  .next (s.vFp o.h [o.a, o.b] o.d 4 o.ty o.rm fun v => (valAt v 0).add (o.rm == .rdn) (valAt v 1).neg)
/-- `VMUL` (R185). -/
def execVmul (o : VFp2) (s : State) : Out :=
  .next (s.vFp o.h [o.a, o.b] o.d 4 o.ty o.rm fun v => (valAt v 0).mul (valAt v 1))
/-- `VFMA` (R185). -/
def execVfma (o : VFp3) (s : State) : Out :=
  .next (s.vFp o.h [o.a, o.b, o.c] o.d 4 o.ty o.rm fun v =>
    ((valAt v 0).mul (valAt v 1)).add (o.rm == .rdn) (valAt v 2))
/-- `VFMS` (R185). -/
def execVfms (o : VFp3) (s : State) : Out :=
  .next (s.vFp o.h [o.a, o.b, o.c] o.d 4 o.ty o.rm fun v =>
    ((valAt v 0).mul (valAt v 1)).add (o.rm == .rdn) (valAt v 2).neg)
/-- `VNFMA` (R185). -/
def execVnfma (o : VFp3) (s : State) : Out :=
  .next (s.vFp o.h [o.a, o.b, o.c] o.d 4 o.ty o.rm fun v =>
    ((valAt v 0).mul (valAt v 1)).neg.add (o.rm == .rdn) (valAt v 2))
/-- `VMIN` (R185, R186). -/
def execVmin (o : VFp2) (s : State) : Out :=
  .next (s.vFp o.h [o.a, o.b] o.d 4 o.ty o.rm fun v => fpMinMax false (valAt v 0) (valAt v 1))
/-- `VMAX` (R185, R186). -/
def execVmax (o : VFp2) (s : State) : Out :=
  .next (s.vFp o.h [o.a, o.b] o.d 4 o.ty o.rm fun v => fpMinMax true (valAt v 0) (valAt v 1))

/-- R186: a change of the sign bit alone; a NaN gives the canonical NaN. -/
def signOnly (ty : FpTy) (c sign : Nat) : Nat :=
  let w := ty.nf.w
  match nfValue (c % 2 ^ w) ty.nf with
  | .nan => nanOf ty.nf
  | _ => c % 2 ^ (w - 1) + sign * 2 ^ (w - 1)

/-- `VABS` (R185, R186). -/
def execVabs (o : VFp1) (s : State) : Out :=
  .next (s.vLanewise o.h [o.a.vin] o.d.vout 1 cMCVRES fun c => signOnly o.ty (c.getD 0 0) 0)
/-- `VNEG` (R185, R186). -/
def execVneg (o : VFp1) (s : State) : Out :=
  .next (s.vLanewise o.h [o.a.vin] o.d.vout 1 cMCVRES fun c =>
    signOnly o.ty (c.getD 0 0) (if (c.getD 0 0).testBit (o.ty.nf.w - 1) then 0 else 1))
/-- `VDIV` (R185, R186). -/
def execVdiv (o : VFp2) (s : State) : Out :=
  .next (s.vLanewise o.h [o.a.vin, o.b.vin] o.d.vout 12 cMCVRES fun c =>
    fpDiv (fpIn o.ty (c.getD 0 0)) (fpIn o.ty (c.getD 1 0)) o.ty.nf o.rm)
/-- `VSQRT` (R185, R186). -/
def execVsqrt (o : VFp1) (s : State) : Out := .next (s.vFp1 o 12 fpSqrt)
/-- `VEXP2` (R185, R186). -/
def execVexp2 (o : VFp1) (s : State) : Out := .next (s.vFp1 o 8 fpExp2)
/-- `VLOG2` (R185, R186). -/
def execVlog2 (o : VFp1) (s : State) : Out := .next (s.vFp1 o 8 fpLog2)
/-- `VRCP` (R185, R186). -/
def execVrcp (o : VFp1) (s : State) : Out := .next (s.vFp1 o 8 fun a f rm => fpDiv (.fin false 1 0) a f rm)
/-- `VRSQ` (R185, R186). -/
def execVrsq (o : VFp1) (s : State) : Out := .next (s.vFp1 o 8 fpRsq)

/-! ## Integer and logic words (R187) -/

/-- A word of two sources over 32-bit lanes, with latency 1. -/
def State.vInt (s : State) (h : VHead) (a b : VSrc) (d : VDst) (f : Lane → Lane → Lane) : State :=
  s.runV h [a.vin, b.vin] (some d.vout) 1 cMCPARITY fun _ vals =>
    .lanes (Vector.ofFn fun l => f (lanesAt vals 0)[l] (lanesAt vals 1)[l])

/-- Is `a` below `b`? -/
def intLt (ty : IntTy) (a b : Lane) : Bool :=
  match ty with
  | .i32 => a.slt b
  | .n32 => a.ult b

/-- The smaller or larger of two lanes. -/
def intMinMax (isMax : Bool) (ty : IntTy) (a b : Lane) : Lane := if intLt ty a b = isMax then b else a

/-- `VIADD` (R187). -/
def execViadd (o : VInt2) (s : State) : Out := .next (s.vInt o.h o.a o.b o.d fun a b => a + b)
/-- `VISUB` (R187). -/
def execVisub (o : VInt2) (s : State) : Out := .next (s.vInt o.h o.a o.b o.d fun a b => a - b)
/-- `VIMUL` (R187). -/
def execVimul (o : VInt2) (s : State) : Out := .next (s.vInt o.h o.a o.b o.d fun a b => a * b)
/-- `VAND` (R187). -/
def execVand (o : VLog2) (s : State) : Out := .next (s.vInt o.h o.a o.b o.d fun a b => a &&& b)
/-- `VOR` (R187). -/
def execVor (o : VLog2) (s : State) : Out := .next (s.vInt o.h o.a o.b o.d fun a b => a ||| b)
/-- `VXOR` (R187). -/
def execVxor (o : VLog2) (s : State) : Out := .next (s.vInt o.h o.a o.b o.d fun a b => a ^^^ b)
/-- `VSHL` (R187). -/
def execVshl (o : VLog2) (s : State) : Out := .next (s.vInt o.h o.a o.b o.d fun a b => a <<< (b.toNat % 32))
/-- `VSHR` (R187). -/
def execVshr (o : VLog2) (s : State) : Out := .next (s.vInt o.h o.a o.b o.d fun a b => a >>> (b.toNat % 32))
/-- `VSRA` (R187). -/
def execVsra (o : VLog2) (s : State) : Out :=
  .next (s.vInt o.h o.a o.b o.d fun a b => a.sshiftRight (b.toNat % 32))
/-- `VIMIN` (R187). -/
def execVimin (o : VInt2) (s : State) : Out := .next (s.vInt o.h o.a o.b o.d (intMinMax false o.ty))
/-- `VIMAX` (R187). -/
def execVimax (o : VInt2) (s : State) : Out := .next (s.vInt o.h o.a o.b o.d (intMinMax true o.ty))

/-! ## Compare, select, mask logic (R188 to R190) -/

/-- R188: a condition over an ordering; only the six of the word arise. -/
def ordHolds : Cond → Ordering → Bool
  | .eq, o => o == .eq
  | .ne, o => o != .eq
  | .lt, o => o == .lt
  | .le, o => o != .gt
  | .gt, o => o == .gt
  | .ge, o => o != .lt
  | _, _ => false

/-- R188: the truth of `a cc b` in a lane. -/
def vcmpHolds (cc : Cond) (ty : LaneTy) (a b : Lane) : Bool :=
  match ty with
  | .int t => ordHolds cc (if a = b then .eq else if intLt t a b then .lt else .gt)
  | .fp t =>
    match fpIn t a.toNat, fpIn t b.toNat with
    | .nan, _ | _, .nan => cc == .ne
    | x, y => ordHolds cc (x.cmp false y)

/-- `VCMP` (R188). -/
def execVcmp (o : VCmpOp) (s : State) : Out :=
  .next (s.runV o.h [o.a.vin, o.b.vin] (some (.k o.d)) 1 cMCPARITY fun _ vals =>
    .lanes (Vector.ofFn fun l => if vcmpHolds o.cc o.ty (lanesAt vals 0)[l] (lanesAt vals 1)[l] then 1 else 0))

/-- `VSEL` (R189). -/
def execVsel (h : VHead) (d : VDst) (a b : VSrc) (c : Fin 64) (s : State) : Out :=
  .next (s.runV h [a.vin, b.vin, .k c] (some d.vout) 1 cMCPARITY fun _ vals =>
    .lanes (Vector.ofFn fun l => if (lanesAt vals 2)[l] ≠ 0 then (lanesAt vals 0)[l] else (lanesAt vals 1)[l]))

/-- `VPLOG` (R190). -/
def execVplog (h : VHead) (d a b : Fin 64) (op : LogOp) (s : State) : Out :=
  .next (s.runV h [.k a, .k b] (some (.k d)) 1 cMCPARITY fun _ vals =>
    .lanes (maskLanes (logLane op (lanesMask (lanesAt vals 0)) (lanesMask (lanesAt vals 1)))))

/-! ## Conversion (R191 to R193) -/

/-- R184, R191: the value that a lane holds in a type. -/
def cvtIn (ty : CvtTy) (fmt : Lane) (v : Nat) : Val :=
  match ty with
  | .f32 => fpIn .f32 v
  | .bf16 => fpIn .bf16 v
  | .f16 => fpIn .f16 v
  | .nf => nfValue (v % 2 ^ (fmtFields fmt).w) (fmtFields fmt)
  | .i8 => Val.ofInt (sextNat 8 v)
  | .i16 => Val.ofInt (sextNat 16 v)
  | .i32 => Val.ofInt (sextNat 32 v)
  | .n8 => Val.ofInt ((v % 2 ^ 8 : Nat) : Int)
  | .n16 => Val.ofInt ((v % 2 ^ 16 : Nat) : Int)
  | .n32 => Val.ofInt ((v % 2 ^ 32 : Nat) : Int)

/-- R184, R191: the lane that a value is written as. -/
def cvtOut (ty : CvtTy) (fmt : Lane) (rm : Rm) (v : Val) : Nat :=
  match ty with
  | .f32 => convert v .f32 rm
  | .bf16 => convert v .bf16 rm
  | .f16 => convert v .f16 rm
  | .nf => convert v (fmtFields fmt) rm
  | .i8 => wrapInt 32 (sextNat 8 (convert v (.int true 8) rm))
  | .i16 => wrapInt 32 (sextNat 16 (convert v (.int true 16) rm))
  | .i32 => convert v (.int true 32) rm
  | .n8 => convert v (.int false 8) rm
  | .n16 => convert v (.int false 16) rm
  | .n32 => convert v (.int false 32) rm

/-- `VCVT` (R191). -/
def execVcvt (o : VCvtOp) (s : State) : Out :=
  .next (s.runV o.h [o.a.vin] (some o.d.vout) 3 cMCPARITY fun _ vals =>
    if (o.src = .nf ∨ o.dst = .nf) ∧ (fmtWf o.fmt = false ∨ fmtKind o.fmt ≠ 4) then .fault cSGBAD
    else .lanes (Vector.ofFn fun l =>
      BitVec.ofNat 32 (cvtOut o.dst o.fmt o.rm (cvtIn o.src o.fmt ((lanesAt vals 0)[l]).toNat))))

/-- `VQBLK` (R192). -/
def execVqblk (h : VHead) (d : Fin 64) (a : VP) (rm : Rm) (fmt : BitVec 32) (s : State) : Out :=
  .next (s.runV h [a.vin] (some (.v d)) 8 cMCPARITY fun mask vals =>
    if fmtWf fmt = false ∨ fmtKind fmt ≠ 5 ∨ fmtBlk fmt ≠ 5 then .fault cSGBAD
    else
      let xs := (List.range 32).map fun l =>
        if mask.getLsbD l then f32Val ((lanesAt vals 0)[(Fin.ofNat 32 l)]).toNat else .zero
      let q := quantiseBlock xs (fmtFields fmt) rm
      .lanes (Vector.ofFn fun l =>
        BitVec.ofNat 32 ((if q.unf then 2 ^ 17 else 0) + (if q.ovf then 2 ^ 16 else 0) + wrapInt 8 q.sh * 256 +
          q.codes.getD l.val 0)))

/-- `VDQBLK` (R193). -/
def execVdqblk (h : VHead) (d : VDst) (a : VSrc) (rm : Rm) (fmt : BitVec 32) (s : State) : Out :=
  .next (s.runV h [a.vin] (some d.vout) 3 cMCPARITY fun _ vals =>
    if fmtWf fmt = false ∨ (fmtKind fmt ≠ 4 ∧ fmtKind fmt ≠ 5) then .fault cSGBAD
    else .lanes (Vector.ofFn fun l =>
      let v := ((lanesAt vals 0)[l]).toNat
      BitVec.ofNat 32 (f32Of (blockElem (v % 2 ^ (fmtFields fmt).w) (fmtFields fmt) (sextNat 8 (v / 256))) rm)))

/-! ## Reductions (R194) -/

/-- An operation where a lane may be absent. -/
def withAbsent (op : Lane → Lane → Lane) : Option Lane → Option Lane → Option Lane
  | some a, some b => some (op a b)
  | some a, none => some a
  | none, b => b

/-- The bits of a lane that its type reads (R184). -/
def trimLane : LaneTy → Lane → Lane
  | .fp .f32, v | .int _, v => v
  | .fp _, v => v &&& 0xFFFF

/-- One step of a reduction. -/
def redStep : RedOp → Lane → Lane → Lane
  | .logic .and, a, b => a &&& b
  | .logic .or, a, b => a ||| b
  | .logic .xor, a, b => a ^^^ b
  | .arith op (.int t) _, a, b =>
    match op with
    | .add => a + b
    | .max => intMinMax true t a b
    | .min => intMinMax false t a b
  | .arith op (.fp t) rm, a, b =>
    let x := fpIn t a.toNat
    let y := fpIn t b.toNat
    BitVec.ofNat 32 (convert (match op with
      | .add => x.add (rm == .rdn) y
      | .max => fpMinMax true x y
      | .min => fpMinMax false x y) t.nf rm)

/-- The identity of an operation. -/
def redIdentity : RedOp → Lane
  | .logic .and => 0xFFFFFFFF
  | .logic _ => 0
  | .arith .add _ _ => 0
  | .arith .max (.fp t) _ => BitVec.ofNat 32 (t.nf.infCode true)
  | .arith .min (.fp t) _ => BitVec.ofNat 32 (t.nf.infCode false)
  | .arith .max (.int .i32) _ => 0x80000000
  | .arith .min (.int .i32) _ => 0x7FFFFFFF
  | .arith .max (.int .n32) _ => 0
  | .arith .min (.int .n32) _ => 0xFFFFFFFF

/-- R181: the latency of a reduction. -/
def redLat : RedOp → Nat
  | .arith _ (.fp _) _ => 20
  | _ => 5

/-- The lanes of a source, disabled ones absent. -/
def redLanes (op : RedOp) (mask : Lane) (v : Lanes) : List (Option Lane) :=
  (List.range 32).map fun l =>
    if mask.getLsbD l then
      some (match op with
        | .arith _ ty _ => trimLane ty v[(Fin.ofNat 32 l)]
        | .logic _ => v[(Fin.ofNat 32 l)])
    else none

/-- The check of a reduction's result (R353). -/
def redCode : RedOp → Byte
  | .arith _ (.fp _) _ => cMCVRES
  | _ => cMCPARITY

/-- `VRED` (R194). -/
def execVred (o : VRedOp) (s : State) : Out :=
  .next (s.runV o.h [o.a.vin] (some (.v o.d)) (redLat o.op) (redCode o.op) fun mask vals =>
    let r := (treeReduce (withAbsent (redStep o.op)) (redLanes o.op mask (lanesAt vals 0))).getD 0 none
    .lanes (allLanes (r.getD (redIdentity o.op))))

/-- `VSCAN` (R194). -/
def execVscan (o : VRedOp) (s : State) : Out :=
  .next (s.runV o.h [o.a.vin] (some (.v o.d)) (redLat o.op) (redCode o.op) fun mask vals =>
    let r := scanLanes (withAbsent (redStep o.op)) (redLanes o.op mask (lanesAt vals 0))
    .lanes (Vector.ofFn fun l => (r.getD l.val none).getD (redIdentity o.op)))

/-! ## Moves between lanes (R195) -/

/-- The lane of a number below 32. -/
def laneAt (v : Lanes) (n : Nat) : Lane := v[(Fin.ofNat 32 n)]

/-- `VPERM` (R195). -/
def execVperm (h : VHead) (d : VDst) (a b : VP) (s : State) : Out :=
  .next (s.runV h [a.vin, b.vin] (some d.vout) 1 cMCPARITY fun _ vals =>
    .lanes (Vector.ofFn fun l =>
      let n := ((lanesAt vals 1)[l]).toNat
      if n < 32 then laneAt (lanesAt vals 0) n else 0))

/-- `VBCST` (R195). -/
def execVbcst (h : VHead) (d : VDst) (a : VP) (n : Fin 32) (s : State) : Out :=
  .next (s.runV h [a.vin] (some d.vout) 1 cMCPARITY fun _ vals => .lanes (allLanes (lanesAt vals 0)[n]))

/-- `VSLIDE` (R195). -/
def execVslide (h : VHead) (d : VDst) (a b : VP) (n : Fin 32) (s : State) : Out :=
  .next (s.runV h [a.vin, b.vin] (some d.vout) 1 cMCPARITY fun _ vals =>
    .lanes (Vector.ofFn fun l =>
      if l.val + n.val < 32 then laneAt (lanesAt vals 0) (l.val + n.val)
      else laneAt (lanesAt vals 1) (l.val + n.val - 32)))

/-- `VLDI` (R195). -/
def execVldi (h : VHead) (d : VDst) (base : BitVec 32) (step : Fin 32) (s : State) : Out :=
  .next (s.runV h [] (some d.vout) 1 cMCPARITY fun _ _ =>
    .lanes (Vector.ofFn fun l => base + BitVec.ofNat 32 (l.val * step.val)))

/-! ## `VMOV` (R196) -/

/-- `VMOV` between vectors (R196). -/
def execVmov (h : VHead) (d : VDst) (a : VSrc) (s : State) : Out :=
  .next (s.runV h [a.vin] (some d.vout) 1 cMCPARITY fun _ vals => .lanes (lanesAt vals 0))

/-- `VMOV` between mask registers (R196). -/
def execVmovK (h : VHead) (d a : Fin 64) (s : State) : Out :=
  .next (s.runV h [.k a] (some (.k d)) 1 cMCPARITY fun _ vals => .lanes (lanesAt vals 0))

/-- `VMOV` to a CSR (R196): lane 0, when the guard is true there. -/
def execVmovToCsr (h : VHead) (csr : Fin 4) (a : VSI) (s : State) : Out :=
  .next (s.runV h [a.vin] none 1 cMCPARITY fun mask vals =>
    .write (if mask.getLsbD 0 then .csr csr (lanesAt vals 0)[0] else .none) id)

/-- R196: the value of a V CSR. -/
def Tile.readVCsr (x : Tile) (n : Fin 16) : Nat :=
  match n.val with
  | 0 => x.v.vrb.toNat
  | 1 => x.v.krb.toNat
  | 2 => x.v.lc.toNat
  | 3 => x.v.ec.toNat
  | k => x.portcfg (Fin.ofNat 12 (k - 4))

/-- `VMOV` from a CSR (R196). -/
def execVmovFromCsr (h : VHead) (d : Fin 64) (csr : Fin 16) (s : State) : Out :=
  let v := (s.tile s.curTile).readVCsr csr
  .next (s.runV h [] (some (.v d)) 1 cMCPARITY fun _ _ =>
    .lanes (Vector.ofFn fun l =>
      if l.val = 0 then BitVec.ofNat 32 v else if l.val = 1 then BitVec.ofNat 32 (v / 2 ^ 32) else 0))

/-- `VMOV` of a mask register to lanes (R196). -/
def execVmovMaskToV (h : VHead) (d : VDst) (a : Fin 64) (s : State) : Out :=
  .next (s.runV h [.k a] (some d.vout) 1 cMCPARITY fun _ vals => .lanes (lanesAt vals 0))

/-- `VMOV` of lanes to a mask register (R196). -/
def execVmovVToMask (h : VHead) (d : Fin 64) (a : VSrc) (s : State) : Out :=
  .next (s.runV h [a.vin] (some (.k d)) 1 cMCPARITY fun _ vals => .lanes (lanesAt vals 0))

/-! ## Port words (R174, R175) -/

/-- The place of a port word in the fault order: token first, then `check`, then its effect. -/
def State.runPort (s : State) (o : PortOp) (check : Tile → Option Byte) (f : Tile → Tile) : State :=
  let t := s.curTile
  let x := s.tile t
  if x.canPop .v o.tok.pop = false then s
  else
    match check x with
    | some c => s.engFault t .v c 0
    | none => s.modTile t fun x => (f x).vIssue s.gtime o.tok 0 cMCPARITY .none

/-- `VPSET` (R164, R175). -/
def execVpset (o : PortOp) (a : Fin 64) (s : State) : Out :=
  let lanes (x : Tile) : Lanes := x.v.v[(physReg x.v.vrb a)]
  .next (s.runPort o
    (fun x => if x.v.inValid (.v a) = false then some cINVREG else if (portSetOf (lanes x)).isNone then some cSGBAD else none)
    (fun x => (x.modPort o.port fun _ => ⟨portSetOf (lanes x), 0, [], false, false⟩).refetch o.port))

/-- R175: a port word other than `VPSET` on an UNSET port. -/
def unsetFault (n : Fin 12) (x : Tile) : Option Byte := if (x.port n).set.isNone then some cINVREG else none

/-- `VPRST` (R175). -/
def execVprst (o : PortOp) (s : State) : Out :=
  .next (s.runPort o (unsetFault o.port) fun x =>
    (x.modPort o.port fun p => { p with pos := 0 }).refetch o.port)

/-- `VPSYNC` (R175). -/
def execVpsync (o : PortOp) (s : State) : Out :=
  .next (s.runPort o (unsetFault o.port) fun x => x.refetch o.port)

/-! ## The accumulator banks (R197, R198) -/

/-- R197: the checks of a drain of bank `b`: a fault, whose TADDR is the bank (R329), a wait for the end of a replay, or none. -/
def Crew.drainCheck (c : Crew) (k : Fin 4) (b : Fin 32) : Option VOwn :=
  match c.bankFault k b with
  | some f => some (.fault f (BitVec.ofNat 64 b.val))
  | none =>
    match (c.bank b).st with
    | .busy => some (.fault cACCBUSY (BitVec.ofNat 64 b.val))
    | .replay => some .wait
    | _ => none

/-- R223: a drain or a write of a bank breaks the windows that name it. -/
def State.breakWindows (s : State) (c : CrewId) (b : Nat) : State :=
  (List.range 4).foldl (fun s k =>
    s.modTile (tileOf c (Fin.ofNat 4 k)) fun x => { x with m := x.m.breakWindow (bankMask [b]) }) s

/-- BANK, ROW and first column of a *sel* (R197). -/
def selOf (v : Lanes) : Fin 32 × Nat × Nat :=
  let n := (v[(0 : Fin 32)]).toNat
  (Fin.ofNat 32 (bitsOf n 0 5), bitsOf n 5 5, 32 * bitsOf n 10 2)

/-- Zeroes the cells of enabled lanes (R197). -/
def Crew.zeroCells (c : Crew) (b : Fin 32) (row col : Nat) (mask : Lane) : Crew :=
  c.modBank b fun k => (List.range 32).foldl (fun k l =>
    if mask.getLsbD l then k.setCell row (col + l) 0 else k) k

/-- `VACRD` (R197, R183). -/
def execVacrd (h : VHead) (d : Fin 64) (sel : VSI) (drain : Bool) (s : State) : Out :=
  let t := s.curTile
  let c := s.crew (crewOf t)
  let reg := physReg (s.tile t).v.vrb d
  .next (s.runV h [sel.vin] none 8 cMCSRAM fun mask vals =>
    let (b, row, col) := selOf (lanesAt vals 0)
    if mask = 0 then .write .none id
    else
      match c.drainCheck (laneOf t) b with
      | some r => r
      | none =>
        .write (.v reg mask (Vector.ofFn fun l => (c.bank b).cell row (col + l.val))) fun s =>
          if drain then
            (s.modCrew (crewOf t) fun c => c.zeroCells b row col mask).breakWindows (crewOf t) b.val
          else s)

/-- `VACWR` (R198, R183). -/
def execVacwr (h : VHead) (a : VP) (sel : VSI) (add : Bool) (s : State) : Out :=
  let t := s.curTile
  let c := s.crew (crewOf t)
  .next (s.runV h [a.vin, sel.vin] none 8 cMCPARITY fun mask vals =>
    let (b, row, col) := selOf (lanesAt vals 1)
    if mask = 0 then .write .none id
    else
      match c.drainCheck (laneOf t) b with
      | some r => r
      | none => .write (.acc b.val row col mask (lanesAt vals 0) add) fun s => s.breakWindows (crewOf t) b.val)

/-! ## Trellis-coded weights (R200, R201) -/

/-- R200: byte `n` of the 128 bytes that a vector holds. -/
def lanesByte (v : Lanes) (n : Nat) : Nat := (laneAt v (n / 4)).toNat / 256 ^ (n % 4) % 256

/-- R200: the window of one lane. -/
def twinLane (kind : TcKind) (a : Lanes) (b c : Nat) : Nat :=
  let i := b % 64
  let q := bitsOf b 6 4
  let p := match kind with
    | .tc1 => 8
    | .tc15 => 12
  if 128 < p * (q + 1) then 0x00800000
  else
    let stream := (List.range p).foldr (fun k acc => lanesByte a (p * q + k) + 256 * acc) 0
    tcWindow kind stream i + c % 256 * 2 ^ 16

/-- `VTWIN` (R200). -/
def execVtwin (h : VHead) (d : Fin 64) (a b : VP) (c : VSrc) (kind : TcKind) (s : State) : Out :=
  .next (s.runV h [a.vin, b.vin, c.vin] (some (.v d)) 3 cMCPARITY fun _ vals =>
    .lanes (Vector.ofFn fun l =>
      BitVec.ofNat 32 (twinLane kind (lanesAt vals 0) ((lanesAt vals 1)[l]).toNat ((lanesAt vals 2)[l]).toNat)))

/-- `VTCW` (R201). -/
def execVtcw (h : VHead) (d : VDst) (a : VSrc) (s : State) : Out :=
  .next (s.vLanewise h [a.vin] d.vout 4 cMCPARITY fun c =>
    let v := c.getD 0 0
    f32Of (tcwWeight (v % 65536) (sextNat 8 (v / 65536))) .rne)

/-! ## Control (R202 to R205) -/

/-- A branch word issues: taken branches set the target that follows two delay slots (R204). -/
def State.vBranch (s : State) (t : TileId) (tok : Tok) (taken : Bool) (target : Nat) (w : VWrite) : State :=
  s.modTile t fun x => (x.vIssue s.gtime tok 0 cMCPARITY w).modEng .v fun g =>
    if taken && decide ((x.eng .v).index + 1 < (x.eng .v).curLen) then { g with branch := some (target, 2) } else g

/-- `VLOOP` (R202, R204, R206): in a delay slot of a taken branch it acts as `VNOP`. (Log entry 42, DEDUCED.) -/
def execVloop (tok : Tok) (target : BitVec 12) (s : State) : Out :=
  let t := s.curTile
  let x := s.tile t
  let g := x.eng .v
  if x.canPop .v tok.pop = false then .next s
  else if g.branch.isSome then .next (s.vDone t tok [] 0 cMCPARITY .none)
  else
    let taken := decide (0 < x.v.lc.toNat) || decide (1 < x.v.ec.toNat)
    if taken ∧ g.curLen ≤ target.toNat then .next (s.engFault t .v cILLOP 9)
    else .next (s.vBranch t tok taken target.toNat (.loop x.v.vrb x.v.krb x.v.lc x.v.ec))

/-- `VBR` (R203, R204, R206). (Log entry 42, DEDUCED.) -/
def execVbr (h : VHead) (all : Bool) (target : BitVec 12) (s : State) : Out :=
  let t := s.curTile
  let x := s.tile t
  let g := x.eng .v
  if x.canPop .v h.tok.pop = false then .next s
  else if x.v.inValid (.k h.g.k) = false then .next (s.engFault t .v cINVREG 0)
  else if g.branch.isSome then .next (s.vDone t h.tok [] 0 cMCPARITY .none)
  else
    let mask := x.v.guard h.g
    let taken := if all then mask == 0xFFFFFFFF else mask != 0
    if taken ∧ g.curLen ≤ target.toNat then .next (s.engFault t .v cILLOP 9)
    else .next (s.vBranch t h.tok taken target.toNat .none)

/-- `VEND` (R205). -/
def execVend (tok : Tok) (s : State) : Out :=
  let t := s.curTile
  if (s.tile t).canPop .v tok.pop = false then .next s
  else
    .next (s.modTile t fun x =>
      let seq := (x.eng .v).curSeq
      let x := (x.popToken .v tok.pop).modEng .v fun g => { g.issueEnd with nextIssue := s.gtime + 1 }
      { x with v := { x.v with flight := x.v.flight ++ [⟨s.gtime, seq, cMCPARITY, tok.push, false, .none⟩] } })

/-- `VNOP` (R205). -/
def execVnop (tok : Tok) (s : State) : Out :=
  let t := s.curTile
  if (s.tile t).canPop .v tok.pop = false then .next s else .next (s.vDone t tok [] 0 cMCPARITY .none)

/-! ## Landing (R169, R181, R182, R202) -/

/-- R202: what `VLOOP` does, from the CSRs that it read (R62): where a `VMOV` lands in the same cycle, the `VLOOP`, issued
later, remains (R182). -/
def VState.loop (v : VState) (vrb krb : BitVec 5) (lc : Lane) (ec : BitVec 8) : VState :=
  let rot (v : VState) (ones : Lane) : VState :=
    let krb := krb - 1
    let r := physReg krb 32
    { v with vrb := vrb - 1, krb := krb, k := v.k.set r ones, kv := v.kv ||| BitVec.ofNat 64 (2 ^ r.val) }
  if lc ≠ 0 then rot { v with lc := lc - 1 } 0xFFFFFFFF
  else if 1 < ec.toNat then rot { v with ec := ec - 1 } 0
  else if ec = 1 then rot { v with ec := 0 } 0
  else v

/-- R182: the enabled lanes of a register are replaced, and a write of at least one lane makes it valid. -/
def VState.landV (v : VState) (r : Fin 64) (mask : Lane) (lanes : Lanes) : VState :=
  if mask = 0 then v
  else { v with v := v.v.set r (Vector.ofFn fun l => if mask.getLsbD l.val then lanes[l] else v.v[r][l]),
                vv := v.vv ||| BitVec.ofNat 64 (2 ^ r.val) }

/-- The same for a mask register; a write to `k0` is discarded (R51). -/
def VState.landK (v : VState) (r : Fin 64) (mask bits : Lane) : VState :=
  if mask = 0 ∨ r = 0 then v
  else { v with k := v.k.set r ((v.k[r] &&& ~~~mask) ||| (bits &&& mask)), kv := v.kv ||| BitVec.ofNat 64 (2 ^ r.val) }

/-- R180: a V CSR takes a value. -/
def VState.landCsr (v : VState) (n : Fin 4) (x : Lane) : VState :=
  match n with
  | 0 => { v with vrb := x.setWidth 5 }
  | 1 => { v with krb := x.setWidth 5 }
  | 2 => { v with lc := x }
  | 3 => { v with ec := x.setWidth 8 }

/-- R198: cells of a bank take lanes. -/
def Crew.landAcc (c : Crew) (b row col : Nat) (mask : Lane) (lanes : Lanes) (add : Bool) : Crew :=
  c.modBank (Fin.ofNat 32 b) fun k => (List.range 32).foldl (fun k l =>
    if mask.getLsbD l then
      let v := (laneAt lanes l).toNat
      let old := (k.cell row (col + l)).toNat
      k.setCell row (col + l) (BitVec.ofNat 32 (if add then fp32AddRne old v else v))
    else k) k

/-- The write of a V word lands. -/
def State.landVWrite (s : State) (t : TileId) (w : VWrite) : State :=
  match w with
  | .v r mask lanes => s.modTile t fun x => { x with v := x.v.landV r mask lanes }
  | .k r mask bits => s.modTile t fun x => { x with v := x.v.landK r mask bits }
  | .csr n v => s.modTile t fun x => { x with v := x.v.landCsr n v }
  | .push p bytes ovf unf => (s.modTile t fun x =>
      { x with sp := x.sp.writeMasked bytes }.modPort (outPort p) fun q =>
        { q with ovf := q.ovf || ovf, unf := q.unf || unf }).wroteSp t bytes
  | .acc b row col mask lanes add => s.modCrew (crewOf t) fun c => c.landAcc b row col mask lanes add
  | .loop vrb krb lc ec => s.modTile t fun x => { x with v := x.v.loop vrb krb lc ec }
  | .none => s

/-- Does the word carry a value that a check could find bad? -/
def VWrite.carries : VWrite → Bool
  | .none | .loop .. => false
  | _ => true

/-- Is the word's write a push? -/
def VWrite.isPush : VWrite → Bool
  | .push .. => true
  | _ => false

/-- May a V word in flight act now: its landing has come, or it has landed and its token FIFO has room? -/
def Tile.vReady (x : Tile) (now : Nat) (l : VLand) : Bool :=
  if l.landed then x.canPush .v l.push else decide (l.due ≤ now)

/-- The lines that a push writes. -/
def VWrite.lines : VWrite → List Nat
  | .push _ bs _ _ => linesOf (bs.map Prod.fst)
  | _ => []

/-- R161: can the banks take what a word writes, and does no earlier push wait for one of them? -/
def Tile.pushFits (x : Tile) (now i : Nat) (w : VWrite) : Bool :=
  x.writesFit now w.lines &&
    !(x.v.flight.take i).any fun e => decide (e.due ≤ now) && (banksOf e.w.lines).any fun b => (banksOf w.lines).any fun c => c.1 == b.1

/-- The first V word in flight that may act, pushes or other writes. -/
def Tile.vLanding? (x : Tile) (now : Nat) (push : Bool) : Option (VLand × Nat) :=
  x.v.flight.zipIdx.find? fun l => x.vReady now l.1 && (l.1.w.isPush == push) && x.pushFits now l.2 l.1.w

/-- R56: a landed V word retires when its push finds room; until then it stays. -/
def Tile.vRetire (x : Tile) (l : VLand) (i : Nat) : Tile :=
  if x.canPush .v l.push then
    { x with v := { x.v with flight := x.v.flight.eraseIdx i } }.retireWord .v l.seq l.push
  else { x with v := { x.v with flight := x.v.flight.set i { l with landed := true, w := .none } } }

/-- R353, R357, R358, R364: a V word lands as its check finds it: a bit corrected, where a bank of the Eight was read; a bad value, which is never
passed on, contained. Only FP words have a residue. (Log entry 29, DEDUCED.) -/
def State.landVWord (s : State) (t : TileId) (chk : Check) (l : VLand) (i : Nat) : State :=
  let land (s : State) : State := (s.landVWrite t l.w).modTile t fun x => (x.useLines .write l.w.lines).vRetire l i
  let unit := if l.code = cMCSRAM then 4 else (laneOf t).val
  let bad : State := (s.containUnit t unit l.code none).modTile t fun x => x.vRetire { l with w := .none } i
  if l.landed || !l.w.carries then land s
  else
    match chk with
    | .good => land s
    | .single b => if l.code = cMCSRAM then land (s.correctUnit t unit cMCSRAM (some b.val)) else bad
    | .double => bad
    | .residue => if l.code = cMCVRES then bad else land s

/-- PORT_PUSH_LAND (R169, R353, R358). (Log entry 29, DEDUCED.) -/
def execPortPushLand (p : PushLand) (s : State) : Out :=
  match (s.tile p.tile).vLanding? s.gtime true with
  | some (l, i) => if s.phase = .ending then .next (s.landVWord p.tile p.chk l i) else .next s
  | none => .next s

/-- V_WRITE_LAND (R182, R353, R357, R358). (Log entry 29, DEDUCED.) -/
def execVWriteLand (t : TileId) (chk : Check) (s : State) : Out :=
  match (s.tile t).vLanding? s.gtime false with
  | some (l, i) => if s.phase = .ending then .next (s.landVWord t chk l i) else .next s
  | none => .next s

end Sys2Proof.Machine
end

