-- ==== Sys2Proof/Machine/Sched.lean ====
section
/-! DEFINITION. The scheduler: launch rings (R390), the candidates for dispatch (R311, R312), DBUDGET (R314), placement (R155, R159, R316,
R317), points (R316, R317), `DONE` (R323), failure and completion (R324, R325). -/

namespace Sys2Proof.Machine

open Sys2Proof

/-! ## Rings (R309, R390) -/

/-- RTAIL_WRITE (R390): the doorbell; a tail beyond the ring sets BADTAIL. -/
def execRtailWrite (d : DieId) (q : QueueId) (v : BitVec 32) (s : State) : Out :=
  if s.sys.ready = false then .next s
  else
    .next (s.modDie d fun x => x.modQueue q fun k =>
      if 2 ^ k.log2 < (v - k.head).toNat then { k with badTail := true }
      else { k with tail := v })

/-- R390: the host address of slot HEAD; after a write of RBASE or LOG2 in between, of any slot of any ring. -/
def LQueue.slotAddr (k : LQueue) (free : Nat) : Nat :=
  if k.openSlots then 256 * (free % 2 ^ 56) else k.rbase.toNat + 256 * (k.head.toNat % 2 ^ k.log2)

/-- RING_FETCH (R309, R390): the record in slot HEAD is fetched whole, and enters the pool.
(Log entry 20, DESIGN CHOICE.) (Log entry 48, DESIGN CHOICE.) -/
def execRingFetch (d : DieId) (q : QueueId) (s : State) : Out :=
  let k := (s.die d).queue q
  if s.phase ≠ .running ∨ s.schedules d = false ∨ s.inDieOrder d = false ∨ k.head = k.tail then .next s
  else
    match s.shareFor d 0 with
    | none => .next s
    | some share =>
      let bytes := s.sys.hostMem.read (k.slotAddr (Config.freeSlot s.fresh)) 256
      let s := s.modDie d fun x => x.modQueue q fun k =>
        { k with head := k.head + 1, openSlots := k.openSlots && decide (k.head + 1 ≠ k.tail) }
      .next ((s.enterPool d q bytes 0 none none share).1.tick 1)

/-- QCTL_FROZEN_CLEAR (R311): system software writes 1 to FROZEN. -/
def execQctlFrozenClear (d : DieId) (q : QueueId) (s : State) : Out :=
  if s.sys.ready then .next (s.modDie d fun x => x.modQueue q fun k => { k with frozen := false }) else .next s

/-! ## Dispatch (R311 to R313, R143) -/

/-- R312: the effective priority of a launch. -/
def State.priority (s : State) (l : Launch) : Nat :=
  min 7 (min l.record.prio ((s.die l.die).queue l.queue).maxprio + (s.gtime - l.entered) / 2 ^ 16)

/-- The launches of a die that are dispatched. -/
def State.running (s : State) (d : DieId) : List Launch :=
  s.launches.filter fun l => decide (l.die = d) && l.dispatchedAt.isSome

/-- The dies of a launch: its own, and for PAIR die 1 too (R368). -/
def Launch.dies (l : Launch) : List DieId := if l.record.pair then [0, 1] else [l.die]

/-- R143: is a weight-store load dispatched on one of the dies? -/
def State.loadRuns (s : State) (ds : List DieId) : Bool := ds.any fun d => (s.running d).any fun l => l.record.wsload

/-- R143, R22: may a launch place gangs and allocate points: no weight-store load but itself runs on its dies? -/
def State.unloaded (s : State) (l : Launch) : Bool := l.record.wsload || !s.loadRuns l.dies

/-- R311: has every predecessor completed DONE? -/
def State.predsDone (s : State) (l : Launch) : Bool := l.preds.all fun p =>
  (s.launch? p).isNone && (match s.completion p with
    | some w => wordStatus w == 1
    | none => true)

/-- R311: the launch at the head of a queue. -/
def State.headOf (s : State) (d : DieId) (q : QueueId) : Option Launch :=
  s.launches.find? fun l => decide (l.die = d) && decide (l.queue = q) && l.dispatchedAt.isNone && l.verdict.isNone

/-- Is an iteration allocated on a die? -/
def State.dieBusy (s : State) (d : DieId) : Bool := s.tiles.any fun x => decide (x.1 / 128 = d.val) && x.2.iter.isSome

/-- R325, R326: is a queue frozen, or about to freeze in this cycle? -/
def State.freezing (s : State) (d : DieId) (q : QueueId) : Bool :=
  ((s.die d).queue q).frozen ||
    s.launches.any fun l => decide (l.die = d) && decide (l.queue = q) && l.failure.isSome && !l.failed

/-- The candidates of a die: ready heads of its unfrozen queues; a weight-store load only while no iteration is
allocated on the die (R143). -/
def State.candidates (s : State) (d : DieId) : List Launch := (List.range 64).filterMap fun q =>
  match s.headOf d (Fin.ofNat 64 q) with
  | some l =>
    if s.freezing d (Fin.ofNat 64 q) || !s.predsDone l || l.failure.isSome || (l.record.wsload && s.dieBusy d) then none
    else some l
  | none => none

/-- R312: does `a` go before `b`? Candidates stand in queue order. -/
def State.before (s : State) (a b : Launch) : Bool :=
  decide (s.priority b < s.priority a) || (s.priority b == s.priority a && decide (a.entered < b.entered))

/-- R312: the best of the candidates. -/
def State.best (s : State) (d : DieId) : Option Launch := (s.candidates d).foldl (fun m l =>
  match m with
  | none => some l
  | some k => if s.before l k then some l else some k) none

/-! ## Failure and completion (R314, R324, R325) -/

/-- R314: since when a launch, or the gang group that its walk has reached, waits. -/
def Launch.waitsSince (l : Launch) : Option Nat :=
  match l.dispatchedAt with
  | none => some l.entered
  | some _ => if l.stopped then none else l.waiting

/-- R314: has DBUDGET run out? -/
def Launch.overdue (l : Launch) (now : Nat) : Bool :=
  match l.waitsSince with
  | some c => decide (c + l.record.dbudget ≤ now) && (l.failure.isNone || l.dispatchedAt.isSome) && l.verdict.isNone
  | none => false

/-- R325: a gang group that is abandoned: it holds no tile, and the walk drops its points. -/
def abandonedGang (group : List Nat) : Gang where
  group := group
  tiles := []
  lists := []
  running := []
  tileBound := []
  crewBound := []
  passed := false
  requested := false
  preempted := false
  delay := 0
  loading := false
  cut := 0

/-- R317, R325: a gang group whose image was still being loaded gives its tiles back, with no image whole. -/
def State.dropLoading (s : State) (id : BitVec 32) : State :=
  match s.launch? id with
  | none => s
  | some l =>
    let out := l.gangs.filter Gang.loading
    (out.flatMap Gang.tiles).foldl (fun s t => s.modTile t fun x => { x with place := none, image := none })
      (s.modLaunch id fun l => { l with gangs := l.gangs.filter fun g => !g.loading })

/-- DBUDGET_EXPIRY (R314, R325): the launch fails with DEADLINE; a gang group that waited is abandoned. -/
def execDbudgetExpiry (id : BitVec 32) (s : State) : Out :=
  match s.launch? id with
  | some l =>
    if l.overdue s.gtime then
      let s := (s.failLaunch id cDEADLINE 0).dropLoading id
      if l.dispatchedAt.isSome then
        .next (s.modLaunch id fun l =>
          { l with waiting := none, gangs := l.gangs ++ [abandonedGang (l.groupOf l.point)] })
      else .next s
    else .next s
  | none => .next s

/-- LAUNCH_FAIL (R325): the queue freezes, and with POLICY 0 no further point is placed. -/
def execLaunchFail (id : BitVec 32) (s : State) : Out :=
  match s.launch? id with
  | some l =>
    if l.failure.isSome ∧ l.failed = false then
      let s := s.modLaunch id fun l =>
        { l with failed := true, stopped := l.stopped || !l.record.cont, waiting := if l.record.cont then l.waiting else none }
      .next ((s.modDie l.die fun d => d.modQueue l.queue fun q => { q with frozen := true }).releaseGangs id)
    else .next s
  | none => .next s

/-- R324, R325: has a launch come to its end: nothing more to place, and nothing placed; or failed before dispatch? -/
def Launch.ended (l : Launch) : Bool :=
  match l.dispatchedAt with
  | none => l.failed || l.verdict.isSome
  | some _ => (l.exhausted || l.stopped) && l.gangs.isEmpty && (l.failure.isNone || l.failed)

/-- R318: is the release that completes a launch over: at level 1's scope, of the writes that its `DONE` words cover? The
releases of inner instances show themselves nowhere before it. -/
def State.coversDone (s : State) (l : Launch) : Bool := l.covers.all fun (k, id) =>
  let t : TileId := Fin.ofNat 512 k
  match (scopeOf ((l.record.levels.head?.map Level.scope).getD 3)).getD .pkg with
  | .tile => true
  | .gang | .die | .pkg => s.windowLanded t id && s.homesAccepted t id
  | .dom => s.windowLanded t id && s.homesAccepted t id && s.packetsAcked t id

/-- LAUNCH_COMPLETE (R324, R325): refused or cancelled at its entry, or DONE, or FAULTED with the first failure's cause and
tile, after the release of level 1 (R318). A PAIR launch that has not failed is compared first. -/
def execLaunchComplete (id : BitVec 32) (s : State) : Out :=
  match s.launch? id with
  | some l =>
    if s.phase = .starting ∧ l.ended ∧ s.coversDone l then
      match l.verdict, l.failure with
      | some v, _ => .next (s.complete l v.1 v.2 0)
      | none, some f => .next (s.complete l 2 f.1 f.2)
      | none, none => if l.halves.isSome then .next s else .next (s.complete l 1 0 0)
    else .next s
  | none => .next s

/-! ## Placement (R155, R159, R316, R317, R368) -/

/-- R159: the cycles of a period in which a slot under a multicast entry of its own passes a station. -/
def State.ownPasses (s : State) (d : DieId) (st : Nat) : List Nat :=
  let pitch := (s.die d).pitch
  (List.range 2112).filter fun c =>
    let k := slotAt c st
    let p := pitch.get (132 * roundOf c k + k) 0
    pitchKind p == 2 && pitchOwner p == st

/-- The longest interval between successive passes, taken cyclically; none without a pass. -/
def longestGap (l : List Nat) : Option Nat :=
  match l, l.getLast? with
  | a :: _, some z => some ((l.zip l.tail).foldl (fun m x => max m (x.2 - x.1)) (a + 2112 - z))
  | _, _ => none

/-- R159: MCDELAY of a gang on a die. -/
def State.mcdelayFor (s : State) (d : DieId) (tiles : List TileId) : Nat :=
  if tiles.length ≤ 1 then 2
  else
    let gaps := tiles.map fun t => longestGap (s.ownPasses d (stationOf t))
    if gaps.any Option.isNone then 0 else 4 * (gaps.map fun g => g.getD 0).foldl max 0 + 136

/-- R317: the Wheel positions of a member. -/
def wheelFor (r : LaunchRec) (m : Nat) (t : TileId) : Vector (BitVec 11) 4 :=
  Vector.ofFn fun j => BitVec.ofNat 11 (if r.wheelEn then r.wheel + m + 512 * j.val else t.val + 512 * j.val)

/-- R316, R16, R367: are tiles 0 to k − 1 of a crew of a die free, and may the crew be used? -/
def State.crewFree (s : State) (d : DieId) (c k : Nat) : Bool :=
  let y := (s.die d).test
  y.online.getLsbD c && y.queue.head? != some c && (y.running.map Prod.fst) != some c &&
    (List.range k).all fun j => (s.tile (Fin.ofNat 512 (128 * d.val + 4 * c + j))).place.isNone

/-- R398, R355: may a die place a gang? -/
def State.mayPlace (s : State) (d : DieId) : Bool := s.schedules d && decide ((s.die d).celsius ≤ 100)

/-- R155, R316, R368: the tiles of a gang by their place on the die, in member order. -/
def State.placement (s : State) (l : Launch) : Option (List Nat) :=
  let n := l.record.gsize
  let free (c k : Nat) : Bool := l.dies.all fun d => s.crewFree d c k
  let full := ((List.range 32).filter fun c => free c 4).take (n / 4)
  if full.length < n / 4 then none
  else
    let tiles := full.flatMap fun c => (List.range 4).map fun j => 4 * c + j
    if n % 4 = 0 then some tiles
    else
      match (List.range 32).find? fun c => !full.contains c && free c (n % 4) with
      | some c => some (tiles ++ (List.range (n % 4)).map fun j => 4 * c + j)
      | none => none

/-- The headers of an engine part: offset and section number. -/
def partSections (l : List Byte) : Nat → Nat → List (Nat × Nat)
  | 0, _ => []
  | fuel + 1, off =>
    match headerOf (recNat l off 8) with
    | some h => if off + 8 + 12 * h.len ≤ l.length then (off, h.sec) :: partSections l fuel (off + 8 + 12 * h.len) else []
    | none => []

/-- R317, R58: an image is written into a tile's IMEM, command stores and directories. -/
def Tile.loadImage (x : Tile) (h : Word) (i : Image) : Tile :=
  let x := { x with image := some h, cox := { x.cox with imem := x.cox.imem.write 0 i.imem } }
  Sys2Proof.engines.foldl (fun x e =>
    let part := i.parts[e.ix]
    x.modEng e fun g => { g with
      store := g.store.write 0 part,
      dir := (partSections part part.length 0).foldl (fun m k => m.set k.2 k.1) g.dir }) x

/-- R317: the launch's image is written into a member that does not hold it. -/
def State.loadMember (s : State) (l : Launch) (t : TileId) : State :=
  if (s.tile t).image = some l.record.image then s
  else
    match s.sys.images.find? fun i => i.1 = l.record.image with
    | some i =>
      (s.modTile t fun x => x.loadImage i.1 i.2).modDev fun d =>
        Sys2Proof.engines.foldl (fun d e => d.wrote (.store t e) (List.range (i.2.parts[e.ix]).length))
          (d.wrote (.imem t) (List.range i.2.imem.length))
    | none => s

/-- R317: a member at placement: its place, MCDELAY and Wheel positions. -/
def State.placeMember (s : State) (l : Launch) (tiles : List TileId) (mcdelay m : Nat) (t : TileId) : State :=
  s.modTile t fun x =>
    { x with
      place := some ⟨l.id, m, tiles, l.depth, l.record.pair⟩,
      cox := { x.cox with mcdelay := BitVec.ofNat 32 mcdelay, wheel := wheelFor l.record m t } }

/-- A gang on a die. Both halves of a PAIR launch have the MCDELAY and the Wheel positions of die 0 (R368). -/
def State.placeGang (s : State) (l : Launch) (d : DieId) (places : List Nat) : State :=
  let tiles := places.map fun k => Fin.ofNat 512 (128 * d.val + k)
  let first := places.map fun k => Fin.ofNat 512 (128 * l.die.val + k)
  let mcdelay := s.mcdelayFor l.die first
  let s := (tiles.zip first).zipIdx.foldl (fun s x =>
    (s.placeMember l tiles mcdelay x.2 x.1.1).modCox x.1.1 fun c => { c with wheel := wheelFor l.record x.2 x.1.2 }) s
  let holds := tiles.all fun t => (s.tile t).image = some l.record.image
  s.modLaunch l.id fun k => { k with
    gangs := k.gangs ++ [{ abandonedGang (k.groupOf k.point) with
      tiles := tiles, lists := tiles.map fun _ => [], running := tiles.map fun _ => none, delay := mcdelay,
      loading := !holds }] }

/-- R314: a launch whose gangs have been placed whole waits no more. -/
def Launch.placed (l : Launch) : Launch := if l.gangs.any Gang.loading then l else { l with waiting := none }

/-- R317: the load of a launch's image is done. -/
def State.loaded (s : State) (l : Launch) : State :=
  let s := ((l.gangs.filter Gang.loading).flatMap Gang.tiles).foldl (fun s t => s.loadMember l t) s
  s.modLaunch l.id fun k => { k with waiting := none, gangs := k.gangs.map fun g => { g with loading := false } }

/-- Does the walk of a launch wait for a gang (R316, rule 4)? -/
def Launch.needsGang (l : Launch) (now : Nat) : Bool :=
  (match l.dispatchedAt with
    | some c => decide (c < now)
    | none => false) && !l.exhausted && !l.stopped && l.current.isEmpty && (l.failure.isNone || l.failed)

/-- GANG_PLACE (R316, R317, R402): the gang group that the walk has reached is placed; where its members do not hold the
image, a second event ends the load, which takes a time that is not fixed. -/
def execGangPlace (id : BitVec 32) (s : State) : Out :=
  match s.launch? id with
  | some l =>
    if s.phase = .running ∧ l.gangs.any Gang.loading ∧ l.dies.all s.schedules then .next (s.loaded l)
    else if s.phase = .running ∧ l.needsGang s.gtime ∧ l.dies.all s.mayPlace ∧ s.unloaded l then
      match s.placement l with
      | some places => .next ((l.dies.foldl (fun s d => s.placeGang l d places) s).modLaunch id Launch.placed)
      | none => .next s
    else .next s
  | none => .next s

/-! ## Points (R251, R282, R316, R317) -/

/-- R317: the index that a register of `x1` to `x8` receives. -/
def LaunchRec.xInit (r : LaunchRec) (p : Point) (x : Nat) : Word :=
  match r.levels.zipIdx.find? fun v => v.1.xreg == x with
  | some v => BitVec.ofNat 64 (p.idx.getD v.2 0)
  | none => 0

/-- R251, R282, R317: the Cox of an iteration at its allocation. -/
def Cox.allocated (c : Cox) (r : LaunchRec) (p : Point) (now : Nat) : Cox :=
  let c' : Cox := { Cox.reset with
    x := Vector.ofFn fun i => if 1 ≤ i.val ∧ i.val ≤ 8 then r.xInit p i.val else 0,
    xv := 0x1FF, imem := c.imem, nextReq := c.nextReq, flight := c.flight.filter fun l => !l.w.discarded,
    mcdelay := c.mcdelay, wheel := c.wheel, tint := c.tint, region := c.region + 1, nextIssue := now + 1 }
  { c' with checkpoint := c'.snapshot }

/-- R317: a point is allocated to a tile. -/
def Tile.allocated (x : Tile) (r : LaunchRec) (p : Point) (now : Nat) : Tile :=
  { x with
    cox := x.cox.allocated r p now,
    engines := x.engines.map fun g => { Engine.reset with store := g.store, dir := g.dir },
    tokens := Tile.reset.tokens, v := VState.reset, m := MState.reset,
    iter := some p.n, budget := r.budget, since := x.cox.nextReq }

/-- Has a tile nothing left of an earlier iteration that still runs? -/
def Tile.settled (x : Tile) : Bool :=
  x.iter.isNone && x.ending.isNone && x.portage.buffer.isEmpty && x.portage.flight.isEmpty && x.v.flight.isEmpty && !x.cox.stopped

/-- R367: does a test run on the crew of a tile? -/
def State.underTest (s : State) (t : TileId) : Bool :=
  ((s.die (dieOf t)).test.running.map Prod.fst) == some ((crewOf t).val % 32)

/-- The first member of a launch's gangs that may take the next point of its list. -/
def State.idleMember (s : State) (l : Launch) : Option (Gang × Nat × TileId × Point) :=
  l.gangs.findSome? fun g =>
    if g.preempted ∨ g.loading then none
    else
      g.tiles.zipIdx.findSome? fun x =>
        match g.running.getD x.2 none, g.lists.getD x.2 [] with
        | none, p :: _ => if (s.tile x.1).settled && !s.underTest x.1 then some (g, x.2, x.1, p) else none
        | _, _ => none

/-- R353: does a granule lie in the queue or port buffers of a tile, which an allocation empties? -/
def Site.inBuffers (t : TileId) : Site → Bool
  | .queue u _ | .lead u _ => u == t
  | _ => false

/-- A member starts the next point of its list. -/
def State.startPoint (s : State) (l : Launch) (g : Gang) (m : Nat) (t : TileId) (p : Point) : State :=
  let s := s.modLaunch l.id fun k => { k with gangs := k.gangs.map fun h =>
    if h.tiles = g.tiles then
      { h with lists := h.lists.set m ((h.lists.getD m []).tail), running := h.running.set m (some p) }
    else h }
  (s.modDev fun d => d.dropFlaws (Site.inBuffers t)).modTile t fun x => x.allocated l.record p s.gtime

/-- POINT_ALLOCATE (R316, R317): an idle member starts the next point of its list; else the walk takes one step, which it
does not while the image of the group that it has reached is being loaded (R314). -/
def execPointAllocate (id : BitVec 32) (s : State) : Out :=
  match s.launch? id with
  | some l =>
    if s.phase ≠ .running ∨ l.dies.all s.schedules = false ∨ l.dispatchedAt.isNone ∨ l.dispatchedAt = some s.gtime ∨
        (l.failure.isSome ∧ l.failed = false) ∨ l.stopped ∨ s.unloaded l = false then .next s
    else
      match s.idleMember l with
      | some (g, m, t, p) => .next (s.startPoint l g m t p)
      | none =>
        if l.gangs.any Gang.loading then .next s else .next ((s.modLaunch id fun k => k.walkStep s.gtime).releaseGangs id)
  | none => .next s

/-! ## DONE (R323) -/

/-- R238: does the tile own a group for which `GRPFREE` would wait: one that is OPEN, or whose writes have not all landed? -/
def State.ownsOpen (s : State) (t : TileId) : Bool := s.fab.groups.any fun g =>
  g.2.owner == t && g.2.st != .free && (g.2.st == .opened || !s.cpQuiet g.1)

/-- R318: the scope of level NLEV of a tile's launch. -/
def State.doneScope (s : State) (t : TileId) : Scope :=
  match s.launchOf t with
  | some l => (scopeOf ((l.record.levels.getLast?.map Level.scope).getD 3)).getD .pkg
  | none => .pkg

/-- R208: has the tile a crew word on its way, which acts before its iteration ends? -/
def Tile.crewAsked (x : Tile) : Bool := x.reqs.any fun r => match r.act with
  | .crew _ => true
  | _ => false

/-- Are the waits of `DONE` over: queues, crew words, resources, groups, release? -/
def State.doneReady (s : State) (t : TileId) : Bool :=
  let x := s.tile t
  x.drained .l && x.drained .v && x.drained .m && x.drained .s && !x.crewAsked && s.crewQuiet t && !s.ownsOpen t &&
    s.released t x.cox.nextReq (s.doneScope t)

/-- R318: a launch's completion covers what the tile has written so far. -/
def State.coverTile (s : State) (t : TileId) : State :=
  match (s.tile t).place with
  | some p => s.modLaunch p.launch fun l => { l with covers := l.covers.set t.val (s.cox t).nextReq }
  | none => s

/-- R323: the iteration is over: its crew resources and groups are dropped, and the tile takes its next point. -/
def State.finish (s : State) (t : TileId) : State :=
  let s := s.coverTile t
  let s := ((s.dropCrew t).settleBanks (crewOf t)).dropGroups t
  let s := s.pointDone t
  s.modTile t fun x => { x with cox := x.cox.ended, m := { x.m with lstate := .none }, iter := none, replies := [] }

/-- `DONE` (R323): it waits, closes an open batch, and ends the iteration; during a hold-up it stops the Cox (R373). -/
def execDone (g : CGuard) (s : State) : Out :=
  .next (s.runCox g [] fun _ s1 =>
    let t := s.curTile
    if s.holding then .done (s1.modCox t fun c => { c with stopped := true })
    else if s.doneReady t then .done (s.finish t)
    else .done (s.modTile t fun x => if x.drained .m then { x with m := x.m.closeOpen } else x))

end Sys2Proof.Machine
end

