-- ==== Sys2Proof/Machine/Reliability.lean ====
section
/-! DEFINITION. Machine-check banks in time (R365, R366), in-field self-test (R367) and the comparison of the halves of a
PAIR launch (R368, R369). -/

namespace Sys2Proof.Machine

open Sys2Proof

/-! ## Leaks (R366) -/

/-- R366: does a LEAK interval end in this cycle? -/
def leakDue (leak now : Nat) : Bool := leak != 0 && now % (leak * 2 ^ 20) == 0

/-- A bank at a leak. -/
def McBank.leaks (k : McBank) (now : Nat) : McBank := if leakDue k.leak now then { k with bucket := k.bucket - 1 } else k

/-- A home's channel and row buckets at a leak. -/
def Home.leaks (h : Home) : Home :=
  { h with
    rows := h.rows.map fun r => { r with count := r.count - 1 },
    buckets := h.buckets.map fun b => (b.1, b.2 - 1) }

/-- R366: the leak of every bank, and of the homes by the LEAK of their banks. -/
def State.leak (s : State) : State :=
  let homes := s.dev.homes.map fun h =>
    let b := (s.die (Fin.ofNat 4 (h.1 / 2))).bank (32 + h.1 % 2)
    (h.1, if leakDue b.leak s.gtime then h.2.leaks else h.2)
  let dies := s.dies.map fun d => (d.1, { d.2 with banks := d.2.banks.map fun b => (b.1, b.2.leaks s.gtime) })
  { s with dev := { s.dev with homes := homes }, dies := dies }

/-- MC_LEAK_TICK (R366): once in each cycle, before anything else of it. -/
def execMcLeakTick (s : State) : Out :=
  if s.phase = .ticking 0 then .next { s.leak with phase := .ticking 1 } else .next s

/-! ## Bank registers (R365) -/

/-- R365: a write of 1 to VAL. -/
def McBank.clearVal (k : McBank) : McBank := { k with val := false, events := 0 }

/-- Changes a bank of a die. -/
def State.modBank (s : State) (d : DieId) (b : Nat) (f : McBank → McBank) : State :=
  s.modDie d fun x => { x with banks := x.banks.set b (f (x.bank b)) }

/-- MCST_VAL_CLEAR (R365). -/
def execMcstValClear (d : DieId) (b : Fin 48) (s : State) : Out :=
  if s.sys.ready then .next (s.modBank d b.val McBank.clearVal) else .next s

/-! ## Self-test (R367) -/

/-- A change of a die's self-test. -/
def State.modTest (s : State) (d : DieId) (f : SelfTest → SelfTest) : State :=
  s.modDie d fun x => { x with test := f x.test }

/-- R367: a write of REQ and CREW: a change of REQ from 0 to 1 asks for a test. -/
def SelfTest.ask (y : SelfTest) (req : Bool) (c : Nat) : SelfTest :=
  { y with req := req, crew := c, queue := if req && !y.req then y.queue ++ [c] else y.queue }

/-- STCTL_REQ (R367): REQ is written 1, with CREW. -/
def execStctlReq (d : DieId) (c : Fin 32) (s : State) : Out :=
  if s.sys.ready then .next (s.modTest d fun y => y.ask true c.val) else .next s

/-- The next online crew in increasing order, wrapping, from `c` on. -/
def nextOnline (online : BitVec 32) (c : Nat) : Option Nat :=
  ((List.range 32).map fun i => (c + i) % 32).find? fun k => online.getLsbD k

/-- R367: a test of the next online crew is queued every PERIOD·2^24 cycles. -/
def SelfTest.periodic (y : SelfTest) (now : Nat) : SelfTest :=
  if y.period ≠ 0 ∧ now % (y.period * 2 ^ 24) = 0 then
    match nextOnline y.online y.next with
    | some c => { y with queue := y.queue ++ [c], next := (c + 1) % 32 }
    | none => y
  else y

/-- SELFTEST_PERIOD (R367): once in each cycle for each die. -/
def execSelftestPeriod (d : DieId) (s : State) : Out :=
  if s.phase = .ticking (d.val + 1) then
    .next { s.modTest d fun y => y.periodic s.gtime with
      phase := if d.val = 3 then .starting else .ticking (d.val + 2) }
  else .next s

/-- The tiles of crew `c` of a die. -/
def crewTiles (d : DieId) (c : Nat) : List TileId := (List.range 4).map fun k => Fin.ofNat 512 (128 * d.val + 4 * c + k)
/-- Crew `c` of a die. -/
def crewIn (d : DieId) (c : Nat) : CrewId := Fin.ofNat 128 (32 * d.val + c)

/-- R367: has a crew no iteration, no saved context, no claimed slot and no allocated bank? -/
def State.testable (s : State) (d : DieId) (c : Nat) : Bool :=
  let y := s.crew (crewIn d c)
  (crewTiles d c).all (fun t => (s.tile t).iter.isNone && (s.tile t).contexts.isEmpty) &&
    (List.range 32).all fun n => (y.slot (Fin.ofNat 32 n)).st == .free && (y.bank (Fin.ofNat 32 n)).st == .free

/-- SELFTEST_START (R367): the test at the head of the queue begins. -/
def execSelftestStart (d : DieId) (s : State) : Out :=
  let y := (s.die d).test
  match y.queue, y.running with
  | c :: rest, none =>
    if s.phase = .starting ∧ (s.die d).frozen = false ∧ s.testable d c then
      .next (s.modTest d fun y => { y with queue := rest, running := some (c, s.gtime) })
    else .next s
  | _, _ => .next s

/-- R353: does a granule lie in a tile's scratchpad? -/
def Site.inSp (t : TileId) : Site → Bool
  | .sp u _ => u == t
  | _ => false

/-- R367: the crew after its test: scratchpads, slots and banks hold zero, every BFMT is raw. -/
def State.scrubCrew (s : State) (d : DieId) (c : Nat) : State :=
  let s := (crewTiles d c).foldl (fun s t => (s.modTile t fun x =>
    { x with sp := [], cox := { x.cox with bfmt := Vector.replicate 16 0 } }).modDev fun m => m.dropFlaws (Site.inSp t)) s
  s.modCrew (crewIn d c) fun y => foldN 32 (fun y n =>
    (y.modSlot (Fin.ofNat 32 n) fun k => { k with data := [] }).modBank (Fin.ofNat 32 n) fun k => { k with cells := [] }) y

/-- Does the test that runs end with this cycle? -/
def SelfTest.past (y : SelfTest) (now : Nat) : Option Nat :=
  match y.running with
  | some (c, start) => if start + 2 ^ 20 ≤ now + 1 then some c else none
  | none => none

/-- SELFTEST_END (R367, R16): after 2^20 cycles the crew has passed, or goes offline. -/
def execSelftestEnd (d : DieId) (pass : Bool) (s : State) : Out :=
  match (s.die d).test.past s.gtime with
  | none => .next s
  | some c =>
    if s.phase ≠ .ending then .next s
    else
      let s := (s.scrubCrew d c).modTest d fun y =>
        { y with running := none, tests := sat16 (y.tests + 1), last := if pass then 1 else 2, lastCrew := c,
                 online := if pass then y.online else y.online &&& ~~~(BitVec.ofNat 32 (2 ^ c)) }
      if pass then .next (s.modBank d c fun k => { k with bucket := 0, lasting := false })
      else .next (s.recordMc d c (contained cMCTEST 4 none none))

/-! ## Paired execution (R369) -/

/-- R369: has the shadow pool run out for a half of a launch? -/
def Launch.starved (l : Launch) : Bool := match l.halves with
  | some h => h.1.starved || h.2.starved
  | none => false

/-- The record of MCPAIR (R369). -/
def State.recordPair (s : State) (id : BitVec 32) (detail : Nat) : State :=
  s.recordMc 0 47 (contained cMCPAIR 0 (some (8, id.setWidth 64)) (some detail))

/-- What must be equal of a changed segment (R369). -/
def Segment.same (a b : Segment) : Bool := a.wcur == b.wcur && a.rcur == b.rcur && a.st == b.st

/-- R369: do the halves agree? -/
def halvesAgree (a b : Half) : Bool :=
  a.sig == b.sig && a.segs.length == b.segs.length &&
    a.segs.all fun x => b.segs.any fun y => x.1 == y.1 && x.2.same y.2

/-- R369: die 0's shadows replace the originals. -/
def State.commitHalf (s : State) (h : Half) : State :=
  let s := s.deviceWrite (h.bytes.map fun b => (b.1, b.2, 0xFF))
  h.segs.foldl (fun s x =>
    match s.extent? x.1.1 with
    | some e => s.setExtent x.1.1 (e.modSeg x.1.2 fun _ => x.2)
    | none => s) s

/-- PAIR_COMPARE (R369): when every point of both halves is done they are compared, and the launch completes, with the release
of level 1 (R318); a launch that the shadow pool has failed places nothing more. -/
def execPairCompare (id : BitVec 32) (s : State) : Out :=
  match s.launch? id with
  | none => .next s
  | some l =>
    match l.halves with
    | none => .next s
    | some h =>
      if s.phase ≠ .starting ∨ l.failure.isSome then .next s
      else if l.starved then
        .next (((s.recordPair id 1).modLaunch id fun k =>
          { k with failure := some (cMCPAIR, 0), failed := true, stopped := true }).releaseGangs id)
      else if l.ended = false ∨ s.coversDone l = false then .next s
      else if halvesAgree h.1 h.2 then .next ((s.commitHalf h.1).complete l 1 0 0)
      else .next ((s.recordPair id 2).complete l 2 cMCPAIR 0)

end Sys2Proof.Machine
end

