-- ==== Sys2Proof/Machine/Record.lean ====
section
/-! DEFINITION. The context record of a tile (R342, R344): its sections as bytes, for pre-emption and for the must-save
bodies of R377. Where R342 names the content of a section and not the place of a field in it, fields stand one after
the other in the order named (log entry 21, DEDUCED). -/

namespace Sys2Proof.Machine

open Sys2Proof

/-- Bytes, cut or filled with zeros to `n`. -/
def padTo (n : Nat) (l : List Byte) : List Byte := (l ++ List.replicate (n - l.length) 0).take n

/-- Eight bytes. -/
def b8 (n : Nat) : List Byte := toBytes 8 n
/-- Four bytes. -/
def b4 (n : Nat) : List Byte := toBytes 4 n

/-! ## A tile as a saved context -/

/-- R342: the context of a tile at a cycle boundary. The slots are those it has claimed; the banks are those that it
owns and no lower member of the gang does. -/
def State.contextOf (s : State) (t : TileId) (place : Place) (iter : Nat) (cut : Nat) : SavedCtx :=
  let x := s.tile t
  let y := s.crew (crewOf t)
  let k := laneOf t
  { magic := 0x43584E45, version := 1, launch := place.launch, iter := iter, tile := t.val, at' := cut,
    budget := x.budget, cox := x.cox, engines := x.engines, tokens := x.tokens, v := x.v, m := x.m, portage := x.portage,
    sp := x.sp,
    slots := (List.range 32).filterMap fun n =>
      let z := y.slot (Fin.ofNat 32 n)
      if z.st ≠ .free ∧ z.st ≠ .kept ∧ z.claimer = k then some (n, z) else none,
    banks := (List.range 32).filterMap fun n =>
      let z := y.bank (Fin.ofNat 32 n)
      if z.st ≠ .free ∧ z.owners.getLsbD k.val ∧ (List.range k.val).all (fun j =>
          z.owners.getLsbD j = false || !place.tiles.contains (tileOf (crewOf t) (Fin.ofNat 4 j))) then some (n, z)
      else none,
    arrived := x.arrived, place := place, replies := x.replies,
    rec' := ((List.range 4).find? fun j => !x.contexts.any fun c => c.rec' == j).getD 0,
    cmds := y.cmds.filter fun k' => k'.tile = k && k'.landed && !k'.replayed }

/-- A context as a tile. -/
def SavedCtx.asTile (c : SavedCtx) : Tile :=
  { Tile.reset with
    cox := c.cox, engines := c.engines, tokens := c.tokens, v := c.v, m := c.m, portage := c.portage, sp := c.sp,
    budget := c.budget, iter := some c.iter, place := some c.place, arrived := c.arrived }

/-! ## The sections -/

/-- `0x0040`: `x0` to `x63`. -/
def Cox.xBytes (c : Cox) : List Byte := (List.range 64).flatMap fun i => b8 (c.readX (Fin.ofNat 64 i)).toNat

/-- `0x0240`: XVALID, the predicates, STATUS, the trap CSRs, BUDGET.LEFT and the bank formats. -/
def Tile.csrBytes (x : Tile) : List Byte :=
  let c := x.cox
  padTo 256 (([c.xv ||| 1, c.pallImage, x.status, c.tvec, c.tcause, c.tpc, c.tregion, c.taddr, c.tinfo].flatMap fun w =>
    b8 w.toNat) ++ b8 x.budget ++ c.bfmt.toList.flatMap fun f => b8 f.toNat)

/-- `0x0340`: the response FIFO: 16 elements, then present, marked and outstanding. -/
def Cox.rfBytes (c : Cox) : List Byte :=
  let mask (p : RfSlot → Bool) : Nat := (c.rf.zipIdx.map fun e => if p e.1 then 2 ^ e.2 else 0).foldl (fun a b => a + b) 0
  padTo 192 (padTo 128 (c.rf.flatMap fun e => b8 (e.data.getD 0).toNat) ++
    b8 (mask (fun e => e.data.isSome) + mask RfSlot.marked * 2 ^ 16 +
      (c.rf.filter fun e => e.data.isNone).length * 2 ^ 32))

/-- R344: an entry, with the mark of the entry at which the queue stopped. -/
def Entry.bytes (n : Entry) : List Byte :=
  b4 n.seq.toNat ++ toBytes 2 (n.sec.toNat + (if n.st ≠ .waiting then 2 ^ 15 else 0)) ++ toBytes 2 0 ++ b4 n.budget ++ b4 0 ++
    b8 n.a.toNat ++ b8 n.b.toNat

/-- `0x0400`: one queue. -/
def Engine.queueBytes (g : Engine) : List Byte := padTo 1024 (g.queue.flatMap Entry.bytes)

/-- R146: has word `i` of the head entry of a queue retired? -/
def Tile.wordRetired (x : Tile) (e : Eng) (i : Nat) : Bool :=
  let g := x.eng e
  match g.queue.head?, e with
  | none, _ => false
  | some n, .l | some n, .s => n.retired.contains i
  | some n, _ => decide (i < (if n.st = .issued then (match g.section? n.sec.toNat with
      | some (_, h) => h.len
      | none => 0) else if n.st = .running then g.index else 0))

/-- Bits as bytes, the lowest first. -/
def bitBytes (n : Nat) (p : Nat → Bool) : List Byte := (List.range n).map fun i =>
  BitVec.ofNat 8 ((List.range 8).foldl (fun a k => a + if p (8 * i + k) then 2 ^ k else 0) 0)

/-- `0x1400`: one engine. -/
def Tile.engineBytes (x : Tile) (e : Eng) : List Byte :=
  let g := x.eng e
  padTo 640 (padTo 64 (b8 g.upc ++ b8 g.lastSec.toNat ++ b8 (if g.noneRetired then 1 else 0) ++ b8 g.pushed.toNat ++
    b8 g.qseq.toNat) ++ bitBytes 512 (x.wordRetired e))

/-- `0x1E00`: tokens, the V CSRs, the M state of R207, and the operands of `MLEASE`. -/
def Tile.stateBytes (x : Tile) : List Byte :=
  let m := x.m
  padTo 256 ((Sys2Proof.engines.flatMap fun e => (others e).flatMap fun f => toBytes 1 (x.token e f)) ++
    b4 x.v.vrb.toNat ++ b4 x.v.krb.toNat ++ b4 x.v.lc.toNat ++ b4 x.v.ec.toNat ++
    toBytes 16 m.mrow.toNat ++ toBytes 16 m.mcol.toNat ++ b4 m.fmta.toNat ++ b4 m.fmtb.toNat ++ [m.sa, m.sb] ++
    b4 m.bclosed.toNat ++ b4 m.bret.toNat ++ toBytes 1 (lstateCode m.lstate) ++ toBytes 1 m.leaseN ++ b4 m.leaseBudget)

/-- `0x1F00`: a place of the time buffer. -/
def PCmd.bytes (c : PCmd) : List Byte :=
  padTo 12 (toBytes 12 ((encode c.stream.stream c.instr).getD 0)) ++ b8 (BitVec.ofInt 64 c.t).toNat ++ b4 c.resume.1 ++
    b4 c.resume.2.1 ++ b4 c.offset

/-- `0x2700`: a port. -/
def Tile.portBytes (x : Tile) (n : Fin 12) : List Byte :=
  let p := x.port n
  let set := match p.set with
    | none => []
    | some q => b4 q.base.toNat ++ b4 (rmCode q.rm) ++ (List.range 4).flatMap fun l =>
        b4 (q.cnt[(Fin.ofNat 4 l)] - 1) ++ b4 (q.str[(Fin.ofNat 4 l)]).toNat
  let codes := p.lead.map fun l => match l with
    | .fault c => c
    | .data _ => 0
  let leads := p.lead.flatMap fun l => match l with
    | .data v => v.toList.flatMap fun a => b4 a.toNat
    | .fault _ => List.replicate 128 0
  padTo 640 (padTo 128 (padTo 40 set ++ b4 p.pos ++ b8 (x.portcfg n) ++ padTo 4 codes) ++ leads)

/-- `0x0040`–`0x03FF`. (Log entry 21, DEDUCED.) -/
def Tile.coxSection (x : Tile) : List Byte := x.cox.xBytes ++ x.csrBytes ++ x.cox.rfBytes

/-- `0x0400`–`0x26FF`. -/
def Tile.queueSection (x : Tile) : List Byte :=
  (Sys2Proof.engines.flatMap fun e => (x.eng e).queueBytes) ++ (Sys2Proof.engines.flatMap x.engineBytes) ++ x.stateBytes ++
    padTo 2048 (x.portage.buffer.flatMap PCmd.bytes)

/-- `0x2700`–`0x44FF`. -/
def Tile.portSection (x : Tile) : List Byte := (List.range 12).flatMap fun n => x.portBytes (Fin.ofNat 12 n)

/-- `0x4500`–`0x660F`. -/
def Tile.vectorSection (x : Tile) : List Byte :=
  (x.v.v.toList.flatMap fun r => r.toList.flatMap fun a => b4 a.toNat) ++ (x.v.k.toList.flatMap fun a => b4 a.toNat) ++
    b8 x.v.vv.toNat ++ b8 x.v.kv.toNat

/-! ## The record -/

/-- The codes of slot and bank states. -/
def SlotState.code : SlotState → Nat
  | .free | .kept => 0 | .claimed => 1 | .filling => 2 | .ready => 3

/-- A mask of the keys of a map. -/
def maskOf {α : Type} (m : Map α) : Nat := (m.map fun e => 2 ^ e.1).foldl (fun a b => a + b) 0

/-- The codes of bank states. -/
def BankState.code : BankState → Nat
  | .free | .kept => 0 | .idle => 1 | .busy => 2 | .replay => 3

/-- A bank: 16 KiB of cells, then its state and owner mask in eight bytes. -/
def Bank.bytes (b : Bank) : List Byte :=
  ((List.range 4096).flatMap fun i => b4 (b.cells.get i 0).toNat) ++ padTo 8 [BitVec.ofNat 8 b.st.code, b.owners.setWidth 8]

/-- R342: a slot's state and reader count in three bits; at most one command reads at a time (R214). -/
def Slot.code (z : Slot) : Nat := z.st.code + 4 * min 1 z.readers

/-- R342: the variable part. -/
def SavedCtx.variable' (c : SavedCtx) : List Byte :=
  c.sp.read 0 1048576 ++ (c.slots.flatMap fun z => z.2.data.read 0 32768) ++ c.banks.flatMap fun z => z.2.bytes

/-- R342: the header; its reserved bytes hold the states and reader counts of the slots, three bits each. -/
def SavedCtx.header (c : SavedCtx) : List Byte :=
  padTo 64 (b4 c.magic ++ toBytes 2 c.version ++ toBytes 2 0 ++ b4 c.launch.toNat ++ b4 c.iter ++ toBytes 2 c.tile ++
    toBytes 2 0 ++ b8 c.cox.regcnt ++ b8 c.at' ++
    b8 (0x7000 + 1048576 + 32768 * c.slots.length + 16392 * c.banks.length) ++ b4 (maskOf c.slots) ++ b4 (maskOf c.banks) ++
    toBytes 12 ((c.slots.map fun z => z.2.code * 8 ^ z.1).foldl (fun a b => a + b) 0))

/-- R342: the record of a context. (Log entry 21, DEDUCED.) -/
def SavedCtx.bytes (c : SavedCtx) : List Byte :=
  let x := c.asTile
  padTo 0x7000 (c.header ++ x.coxSection ++ x.queueSection ++ x.portSection ++ x.vectorSection) ++ c.variable'

/-- R342: the HBM address of record `j` of a tile. -/
def State.recordAt (s : State) (t : TileId) (j : Nat) : Nat :=
  bitsOf s.sys.savePool.toNat 30 12 * 2 ^ 30 + (4 * t.val + j) * 4194304

/-- The key of the save pool. -/
def State.poolKey (s : State) : BitVec 512 := s.keyOf (bitsOf s.sys.savePool.toNat 0 10)

/-- R342: a record is written to HBM, under the pool's key slot. -/
def State.writeRecord (s : State) (t : TileId) (c : SavedCtx) : State :=
  s.modDev fun d => (c.bytes.zipIdx).foldl (fun d b => d.putByte 0 (s.recordAt t c.rec' + b.2) s.poolKey b.1) d

/-- R343: does the header of its record, as HBM holds it, name this context? -/
def State.recordGood (s : State) (t : TileId) (c : SavedCtx) : Bool :=
  let h := (List.range 64).map fun i => s.dev.byte 0 (s.recordAt t c.rec' + i) s.poolKey
  recNat h 0 4 == 0x43584E45 && recNat h 4 2 == 1 && recNat h 8 4 == c.launch.toNat && recNat h 16 2 == t.val

end Sys2Proof.Machine
end

