-- ==== Sys2Proof/Machine/Holdup.lean ====
section
/-! DEFINITION. The power-fail hold-up (R370 to R385): `MSDECL`, `PFACK`, `PFRESTORE`, the stop in cycle P, the end of
the handler phase, and the drain with the save set that the sequencer writes to the Boathouse. -/

namespace Sys2Proof.Machine

open Sys2Proof

/-! ## Region descriptors (R376, R377) -/

/-- A 32-byte descriptor: its slot and its fields. -/
def descOf (l : List Byte) : Nat × MustSave :=
  (recNat l 1 1, ⟨recNat l 0 1, recNat l 2 1, recNat l 3 1, BitVec.ofNat 32 (recNat l 4 4), BitVec.ofNat 64 (recNat l 8 8),
    BitVec.ofNat 64 (recNat l 16 8)⟩)

/-- R376, R377: does every field keep its limit? Else SGBAD. -/
def descOk (l : List Byte) : Bool :=
  let (slot, d) := descOf l
  let a := d.a.toNat
  let b := d.b.toNat
  decide (slot < 16) && decide (d.cls ≤ 1) && (d.cls == 0 || d.prio == 0) && recNat l 24 8 == 0 &&
    (match d.kind with
      | 0 => a == 0 && b == 0
      | 1 => a % 64 == 0 && b % 64 == 0 && decide (64 ≤ b) && decide (a < 2 ^ 20) && decide (b ≤ 2 ^ 20 - a)
      | 2 => decide (1 ≤ a) && decide (a ≤ 7) && b == 0
      | 3 => a == 0 && b == 0
      | 4 => decide (a ≤ 65535) && b == 0
      | 5 => decide (a < 131072) && decide (1 ≤ b) && decide (b ≤ 4096) && decide (a + b ≤ 131072)
      | _ => false)

/-- The descriptor at a local address, or the fault of R378. -/
def State.descAt (s : State) (a : Word) (live : Bool) : Except (Byte × Word) (List Byte) :=
  if a.toNat % 32 ≠ 0 then .error (cMISALIGN, a)
  else if 2 ^ 20 < a.toNat + 32 then .error (cWINDOW, a)
  else
    let l := ((s.tile s.curTile).spNow s.gtime).read a.toNat 32
    let d := (descOf l).2
    if descOk l = false then .error (cSGBAD, 0)
    else if live && d.kind == 4 && (s.extent? d.a.toNat).isNone then .error (cPROT, d.a)
    else .ok l

/-- `MSDECL` (R378): repeatable; the slot and `pd` take their values as it retires, at the end of cycle `c + 8`, so that a
region that restarts before has declared nothing (R388). (Log entry 35, DEDUCED.) -/
def execMsdecl (g : CGuard) (d : Fin 16) (a : Fin 64) (s : State) : Out :=
  .next (s.runCox g [.x a] fun v s1 =>
    match s.descAt (nth v 0) true with
    | .error e => .fault e.1 0 e.2
    | .ok l =>
      s.readsOwn s1 (nth v 0).toNat 32 fun s1 =>
        let (slot, m) := descOf l
        .done (s1.modCox s1.curTile fun c =>
          c.send (s1.gtime + 8) (.declare (Fin.ofNat 16 slot) (if m.kind = 0 then none else some m) d)))

/-! ## The stop (R372 to R374) -/

/-- R374: has every word that the Cox has issued completed, with its local stores landed? An element of the response
FIFO is not waited for. -/
def Cox.completed (c : Cox) : Bool := c.flight.all fun l =>
  match l.w with
  | .rf .. | .load _ _ (.rf _) _ => true
  | _ => false

/-- `PFACK` (R374): a well-formed one has the guard `p0`. -/
def execPfack (g : CGuard) (s : State) : Out :=
  .next (s.runCox g [] fun _ s1 =>
    if s.holding = false then .fault cPROT 0 0
    else if (s.cox s.curTile).completed then .done (s1.modCox s1.curTile fun c => { c with stopped := true })
    else .wait)

/-- R372: a Cox issues no further word; a wait in progress is abandoned, and its request does not leave. -/
def State.stopCox (s : State) (t : TileId) : State :=
  let s := if s.closingWaits t then s.dropClosing t else s
  s.modCox t fun c => { c with stopped := true, fault := none }

/-- R147: where a command goes on after a power-fail stop: at the first unit whose writes have not left, or have not all
joined the multicast queue. -/
def PProgress.haltAt (p : PProgress) (joining : Bool) : Nat × Nat × Nat :=
  match p.units.find? fun u => !u.sent || joining with
  | some u => (p.ordinal, u.row, u.first)
  | none => (p.ordinal, p.row, p.done)

/-- R147: a started command stops at its next granule boundary: what it has kept of a line leaves, and the cursors of a unit
whose writes have left go on; blocks that the TCE has not served are taken back. -/
def State.haltCmd (s : State) (t : TileId) (c : PCmd) : State :=
  let stop (s : State) (at' : Nat × Nat × Nat) (off : Nat) : State := s.modTile t fun x => x.modCmd c.id fun c =>
    { c with stage := .stopped, prog := none, answer := none, resume := at', offset := off }
  match c.prog, elemCmd c.instr with
  | some p, some (.tce, _) =>
    let mine (j : TceJob) : Bool := j.tile == t && j.cmd == c.id
    let left := ((s.die (dieOf t)).tce.filter mine).length
    stop (s.modDie (dieOf t) fun x => { x with tce := x.tce.filter fun j => !mine j }) (p.ordinal, p.row, p.done - left) 0
  | some p, some (k0, _) =>
    let e := p.element
    let k := k0.resolve e
    let joining := e.ds == 1 && e.op == 0 && (s.tile t).isMulticast (e.dstRow k p.row) && !p.late.isEmpty
    let at' := p.haltAt joining
    let off := s.rowOffset t c at'.2.2
    let s := if joining then s else s.sendLate t c p
    match p.units, s.plan t c k e with
    | u :: rest, .ok pl => stop (if u.sent ∧ joining = false then s.moveUnit t c k e p pl u rest else s) at' off
    | _, _ => stop s at' off
  | some p, none => stop s (p.haltAt false) 0
  | none, _ => stop s c.resume c.offset

/-- R144, R145, R330: does a started command wait for what lies outside its tile's Portage, so that it has no turn of its own to
take? -/
def State.cmdWaits (s : State) (t : TileId) (c : PCmd) : Bool :=
  c.awaits || (let u := s.granule t c.id
    u.tiles == s.tiles && u.dies == s.dies)

/-- R336: may a queue stop: has every issued word landed or completed? From DEADLINE on, commands of Portage that wait are not
waited for. (Log entry 39, DEDUCED.) -/
def State.queueMayStop (s : State) (t : TileId) (e : Eng) : Bool :=
  let x := s.tile t
  s.engQuiet t e || ((e == .l || e == .s) && (x.eng e).fault.any (fun f => f.code == cDEADLINE) &&
    x.portage.buffer.all fun c => c.stream != e || c.stage != .started || s.cmdWaits t c)

/-- QUEUE_STOP (R63, R336): the stopped point is the entry's sequence number, its µPC, and what Portage's commands
keep; it stands in the queue itself. Commands that wait stop at their granule (R146). -/
def execQueueStop (t : TileId) (e : Eng) (s : State) : Out :=
  let g := (s.tile t).eng e
  if s.phase = .ending ∧ g.fault.isSome ∧ g.stopped = false ∧ s.queueMayStop t e then
    .next ((((s.tile t).portage.buffer.filter fun c => c.stream = e ∧ c.stage = .started).foldl (fun s c => s.haltCmd t c) s).modEng
      t e fun g => { g with stopped := true })
  else .next s

/-- R147, R374: Portage's started commands stop at their next granule boundary. -/
def State.haltPortage (s : State) (t : TileId) : State :=
  ((s.tile t).portage.buffer.filter fun c => c.stage = .started).foldl (fun s c => s.haltCmd t c) s

/-- R374: the engines of a tile stop; a replay of M issues nothing more. -/
def State.haltEngines (s : State) (t : TileId) : State :=
  (s.haltPortage t).modTile t fun x =>
    { x with engines := x.engines.map fun g => { g with stopped := true }, m := { x.m with replay := none } }

/-- R225: the words in the arrays are abandoned, and what they and every unretired batch touched holds no defined
value. -/
def State.abandonArray (s : State) (c : CrewId) : State :=
  let touched := s.touchedBy c
  let base := s.fresh
  let free (b : Nat) : Map Lane := (List.range 4096).filterMap fun i =>
    let v := Config.freeCell (base + 4096 * b + i)
    if v = 0 then none else some (i, v)
  (s.tick 131072).modCrew c fun y =>
    foldN 32 (fun y b =>
        let y := if touched.getLsbD b then y.modBank (Fin.ofNat 32 b) fun x => { x with cells := free b } else y
        y.modBank (Fin.ofNat 32 b) fun x => { x with st := if x.st = .replay then .busy else x.st })
      { y with cmds := [] }

/-- R372: PFAIL at one tile. -/
def State.failTile (s : State) (t : TileId) : State :=
  let s := s.haltEngines t
  if (s.tile t).live = false then s
  else if (s.cox t).trapsOn then s.modCox t fun c => { c with pend := { c.pend with pfail := true } }
  else s.stopCox t

/-- R370 to R374: PFAIL is delivered: the hold-up begins, engines stop, groups end. -/
def State.loseSupply (s : State) : State :=
  let s := s.modSys fun y => { y with hold := some .handler, holdP := s.gtime }
  let s := (s.crews.map Prod.fst).foldl (fun s c => s.abandonArray (Fin.ofNat 128 c)) s
  let s := (s.tiles.map Prod.fst).foldl (fun s t => s.failTile (Fin.ofNat 512 t)) s
  (s.fab.groups.map Prod.fst).foldl (fun s g =>
    match (s.group g).st, (s.group g).prog with
    | .opened, some p => s.groupFault g cPFAIL p.pc
    | _, _ => s) s

/-- SUPPLY_LOSS (R370, R372): at the start of cycle P; once a sequence runs it runs to its end (R371); a frozen module starts
none (R396). -/
def execSupplyLoss (s : State) : Out :=
  if s.holding ∨ s.sys.frozen then .next s else .next s.loseSupply

/-- The tiles whose Cox has not stopped. -/
def State.unstopped (s : State) : List TileId :=
  (s.tiles.filter fun x => x.2.live && !x.2.cox.stopped).map fun x => Fin.ofNat 512 x.1

/-- HANDLER_DEADLINE (R372): at the end of cycle P + 4,095 every Cox stops. -/
def execHandlerDeadline (s : State) : Out :=
  if s.phase = .ending ∧ s.sys.hold = some .handler ∧ s.sys.holdP + 4095 ≤ s.gtime then
    .next ((s.unstopped.foldl State.stopCox s).modSys fun y => { y with hold := some .drain })
  else .next s

/-! ## The save set (R377, R379, R380) -/

/-- A declared region as it is saved: its tile, its slot, the context whose sections it may name, and whether that runs on the
tile or is saved. -/
structure Region where
  tile : TileId
  slot : Nat
  desc : MustSave
  ctx : SavedCtx
  live : Bool

/-- The regions of a context. -/
def regionsOf (t : TileId) (live : Bool) (c : SavedCtx) : List Region :=
  c.cox.mustSave.toList.zipIdx.filterMap fun m => m.1.map fun d => ⟨t, m.2, d, c, live⟩

/-- Every declared region, by tile; a tile's running iteration before the pre-empted ones. -/
def State.regions (s : State) : List Region := s.tiles.flatMap fun x =>
  let t : TileId := Fin.ofNat 512 x.1
  (match x.2.iter, x.2.place with
    | some n, some p => regionsOf t true (s.contextOf t p n s.gtime)
    | _, _ => []) ++ x.2.contexts.flatMap (regionsOf t false)

/-- R377: a segment entry of KIND 4. -/
def State.segEntry (s : State) (ext k : Nat) : List Byte :=
  let f (n : Nat) : Nat := (s.extField ext k n).toNat
  toBytes 6 (f 16) ++ toBytes 6 (f 17) ++ toBytes 6 (f 20) ++ toBytes 6 (f 21) ++ b4 (f 19) ++ toBytes 1 (f 18) ++
    toBytes 1 (f 22) ++ toBytes 2 0

/-- R353: is more than one bit of a granule wrong? -/
def DevMem.worn (d : DevMem) (k : Site) : Bool := d.flaws.any fun f => f.site == k && f.bit.isNone

/-- R379, R356: does the source of a byte fail its check: of a running tile, its scratchpad (from `0x7000` on), the entry that waits
first in a queue, or the oldest vector of a port; of a saved context, the unit of its record in HBM? -/
def State.sourceBad (s : State) (r : Region) (off : Nat) : Bool :=
  let d := s.dev
  if d.flaws.isEmpty && d.poison.isEmpty && d.retiredChannels.isEmpty then false
  else if r.live then
    if 0x7000 ≤ off then d.worn (.sp r.tile ((off - 0x7000) / 8))
    else if 0x400 ≤ off ∧ off < 0x1400 then
      let e := engines.getD ((off - 0x400) / 1024) .l
      d.worn (.queue r.tile e) &&
        (((s.tile r.tile).eng e).queue.findIdx fun n => n.st == .waiting) == (off - 0x400) % 1024 / 32
    else if 0x2700 ≤ off ∧ off < 0x4500 then
      d.worn (.lead r.tile (Fin.ofNat 12 ((off - 0x2700) / 640))) && (off - 0x2700) % 640 / 128 == 1
    else false
  else
    let a := s.recordAt r.tile r.ctx.rec' + off
    d.hbmBad a || (d.torn a && !d.rebuildable a)

/-- R379: bytes of the record of a region's context from an offset on, those whose source is bad as zeros, and whether there is
one. -/
def State.checkedBytes (s : State) (r : Region) (off : Nat) (l : List Byte) : List Byte × Bool :=
  let m := l.zipIdx.map fun b => if s.sourceBad r (off + b.2) then ((0 : Byte), true) else (b.1, false)
  (m.map Prod.fst, m.any Prod.snd)

/-- Two parts of a body. -/
def joinParts (a b : List Byte × Bool) : List Byte × Bool := (a.1 ++ b.1, a.2 || b.2)

/-- R379: the body of a region, and whether a byte of it failed its check. -/
def State.bodyOf (s : State) (r : Region) : List Byte × Bool :=
  let d := r.desc
  let x := r.ctx.asTile
  match d.kind with
  | 1 => s.checkedBytes r (0x7000 + d.a.toNat) (r.ctx.sp.read d.a.toNat d.b.toNat)
  | 2 =>
    joinParts (if d.a.getLsbD 0 then s.checkedBytes r 0x40 x.coxSection else ([], false))
      (joinParts (if d.a.getLsbD 1 then s.checkedBytes r 0x4500 x.vectorSection else ([], false))
        (if d.a.getLsbD 2 then s.checkedBytes r 0x2700 x.portSection else ([], false)))
  | 3 => s.checkedBytes r 0x400 x.queueSection
  | 4 => ((List.range 8).flatMap fun k => s.segEntry d.a.toNat k, false)
  | 5 =>
    let ws := numbersFrom d.a.toNat d.b.toNat
    (ws.flatMap fun w => if s.dev.sigPoison.contains w then List.replicate 8 0 else b8 (s.dev.signals.get w 0).toNat,
      ws.any fun w => s.dev.sigPoison.contains w)
  | _ => ([], false)

/-- MAGIC of a record and of a set, and MARKER (R379). -/
def recordMagic : Nat := 0x48424E45
/-- MAGIC of a set. -/
def setMagic : Nat := 0x53424E45
/-- MARKER. -/
def marker : Nat := 0x4D434E4500000001

/-- R379: a record: header, padded body, trailer. -/
def recordBytes (holdno : BitVec 15) (r : Region) (body : List Byte) (pois : Bool) : List Byte :=
  let d := r.desc
  let head := padTo 64 (b4 recordMagic ++ toBytes 2 holdno.toNat ++ toBytes 1 d.kind ++ toBytes 1 (r.slot + 128 * d.cls) ++
    b4 d.tag.toNat ++ toBytes 1 d.prio ++ toBytes 1 (if pois then 1 else 0) ++ toBytes 2 r.tile.val ++ b8 d.a.toNat ++
    b8 d.b.toNat ++ b8 d.len ++ b4 r.ctx.launch.toNat ++ b4 r.ctx.iter)
  let data := head ++ padTo (64 * ceilDiv d.len 64) body
  data ++ padTo 64 (b4 (crc32c data).toNat ++ b4 0 ++ b8 marker)

/-- The record of a region as it stands. -/
def State.recordOf (s : State) (holdno : BitVec 15) (r : Region) : List Byte :=
  let b := s.bodyOf r
  recordBytes holdno r b.1 b.2

/-- R379: the set header. -/
def setHeader (holdno : BitVec 15) (p allow : Nat) : List Byte :=
  padTo 64 (b4 setMagic ++ toBytes 2 holdno.toNat ++ toBytes 2 0 ++ b8 p ++ b8 allow)

/-- R380: a list put in order by `before`, equal ones in the order they stand in. -/
def insertBy (before : Region → Region → Bool) (r : Region) : List Region → List Region
  | [] => [r]
  | q :: l => if before q r then q :: insertBy before r l else if before r q then r :: q :: l else q :: insertBy before r l

/-- GUARANTEED regions: by tile, then slot. -/
def byTile (a b : Region) : Bool := decide (a.tile.val < b.tile.val) || (a.tile == b.tile && decide (a.slot < b.slot))

/-- BEST-EFFORT regions: by PRIO, the highest first, then tile, then slot. -/
def byPrio (a b : Region) : Bool := decide (b.desc.prio < a.desc.prio) || (a.desc.prio == b.desc.prio && byTile a b)

/-- R380: the BEST-EFFORT phase, with `n` bytes written. -/
def bestEffort (allow : Nat) : Nat → List (List Byte) → List Byte
  | _, [] => []
  | n, r :: rs =>
    if allow < n + 64 then []
    else if allow < n + r.length then r.take (allow - n)
    else r ++ bestEffort allow (n + r.length) rs

/-- R380: the bytes of the set. -/
def State.saveSet (s : State) : List Byte :=
  let holdno := s.sys.bhHoldno + 1
  let allow := s.sys.bhAllow * 64
  let sorted (before : Region → Region → Bool) (cls : Nat) : List (List Byte) :=
    ((s.regions.filter fun r => r.desc.cls = cls).foldl (fun l r => insertBy before r l) []).map (s.recordOf holdno)
  let first := setHeader holdno s.sys.holdP allow ++ (sorted byTile 1).flatten
  first ++ bestEffort allow first.length (sorted byPrio 0)

/-- R370: the cycles of a transfer of `n` bytes at 32 GB/s and 1.9 GHz. -/
def boathouseCycles (n : Nat) : Nat := ceilDiv (n * 19) 320

/-- R380, R381: the set is written. -/
def State.writeSet (s : State) : State :=
  let l := s.saveSet
  s.modSys fun y =>
    { y with hold := some .write, holdEnd := s.gtime + boathouseCycles l.length, bhHoldno := y.bhHoldno + 1, bhSetv := true,
             bhBytes := l.length, boathouse := y.boathouse.write 0 l }

/-- R375: has everything that left its source landed, with nothing left on its way? (Log entry 35, DEDUCED.) -/
def State.drained (s : State) : Bool :=
  s.unstopped.isEmpty && s.allFlits.isEmpty &&
    s.tiles.all fun x => x.2.cox.flight.isEmpty && x.2.portage.flight.isEmpty && x.2.v.flight.all VLand.landed &&
      x.2.winIn.isEmpty && x.2.cpIn.isEmpty && x.2.mcQueue.isEmpty && x.2.delay.isEmpty && x.2.reqs.isEmpty && x.2.scOps.isEmpty

/-- DRAIN_END (R375): W comes with the first cycle in which the drain is over, and at P + 16,384 at the latest; the set
is written. (Log entry 35, DEDUCED.) -/
def execDrainEnd (s : State) : Out :=
  if s.phase = .ending ∧ (s.sys.hold = some .handler ∨ s.sys.hold = some .drain) ∧
      (s.drained ∨ s.sys.holdP + 16384 ≤ s.gtime) then .next s.writeSet
  else .next s

/-! ## Restart (R381 to R384) -/

/-- R382: a record of the present set: its offset, header and size. -/
structure Found where
  off : Nat
  head : List Byte
  size : Nat

/-- R382: the records of the present set, in order. -/
def Sys.recordsFrom (y : Sys) : Nat → Nat → List Found
  | 0, _ => []
  | fuel + 1, off =>
    let h := y.boathouse.read off 64
    if recNat h 0 4 = recordMagic ∧ recNat h 4 2 = y.bhHoldno.toNat ∧ off + 64 ≤ y.bhBytes then
      let size := 128 + 64 * ceilDiv (recNat h 32 8) 64
      ⟨off, h, size⟩ :: y.recordsFrom fuel (off + size)
    else []

/-- R382: the existing records; a package declares at most 512·5·16. -/
def Sys.records (y : Sys) : List Found := if y.bhSetv then y.recordsFrom 40960 64 else []

/-- R382: the class of a record: 1 whole, 2 torn; and does MARKER stand over a bad CRC? -/
def Sys.classify (y : Sys) (r : Found) : Nat × Bool :=
  let t := y.boathouse.read (r.off + r.size - 64) 64
  if recNat t 8 8 = marker ∧ r.off + r.size ≤ y.bhBytes then
    if recNat t 0 4 = (crc32c (y.boathouse.read r.off (r.size - 64))).toNat then (1, false) else (2, true)
  else (2, false)

/-- `PFRESTORE` (R384): repeatable; `pd` and SAVEST are written as the last body byte lands. -/
def execPfrestore (g : CGuard) (d : Fin 16) (a b : Fin 64) (s : State) : Out :=
  .next (s.runCox g [.x a, .x b] fun v s1 =>
    let dst := (nth v 1).toNat
    if s.holding then .fault cPROT 0 0
    else
      match s.descAt (nth v 0) false with
      | .error e => .fault e.1 0 e.2
      | .ok l =>
        let (slot, m) := descOf l
        let size := 64 * ceilDiv m.len 64
        if m.kind = 0 then .fault cSGBAD 0 0
        else if dst % 64 ≠ 0 then .fault cMISALIGN 0 (nth v 1)
        else if 2 ^ 20 < dst + size then .fault cWINDOW 0 (nth v 1)
        else s.readsOwn s1 (nth v 0).toNat 32 fun s1 =>
          let found := s.sys.records.find? fun r =>
            recNat r.head 6 1 == m.kind && recNat r.head 8 4 == m.tag.toNat && recNat r.head 32 8 == m.len
          let cls := found.map s.sys.classify
          let whole := cls.map Prod.fst = some 1
          let st := (cls.map Prod.fst).getD 3
          let pois := whole && (found.map fun r => bitOf (recNat r.head 13 1) 0) == some true
          let body := match found with
            | some r => s.sys.boathouse.read (r.off + 64) size
            | none => []
          let due := s.gtime + max 1 (if whole then boathouseCycles size else 1)
          let s1 := if cls.map Prod.snd = some true then s1.recordMc 0 47 (contained cMCSRAM 0 none none) else s1
          .done (s1.modCox s1.curTile fun c =>
            let c := if whole then c.send due (.store dst body) else c
            { (c.send due (.savest (Fin.ofNat 16 slot) st pois)).send due (.p d whole) with nextIssue := due + 1 }))

/-- BHSTAT_SETV_CLEAR (R381): the headers of the present set are erased. -/
def execBhstatSetvClear (s : State) : Out :=
  if s.sys.ready ∧ s.sys.bhSetv then
    .next (s.modSys fun y => { y with
      bhSetv := false,
      boathouse := (0 :: y.records.map Found.off).foldl (fun m a => m.write a (List.replicate 64 0)) y.boathouse })
  else .next s

end Sys2Proof.Machine
end

