-- ==== Sys2Proof/Machine/Preempt.lean ====
section
/-! DEFINITION. Pre-emption of gangs (R338 to R341, R147, R225, R343, R392): requests, the stop, the saved contexts,
the resumption, and the dispatch of launches, which comes after it (R312, R313). -/

namespace Sys2Proof.Machine

open Sys2Proof

/-! ## Requests (R338, R392) -/

/-- The gang of a tile. -/
def State.gangOf (s : State) (t : TileId) : Option (Launch × Gang) :=
  match s.launchOf t with
  | some l => (l.gangs.find? fun g => g.tiles.contains t).map fun g => (l, g)
  | none => none

/-- The place of a tile on its die. -/
def onDie (t : TileId) : Nat := t.val % 128

/-- R368: the gang and, in a PAIR launch, its other half. -/
def Launch.partners (l : Launch) (g : Gang) : List Gang :=
  if l.record.pair then l.gangs.filter fun h => h.group = g.group ∧ h.tiles.map onDie = g.tiles.map onDie else [g]

/-- Changes a gang and its other half. -/
def State.modPartners (s : State) (l : Launch) (g : Gang) (f : Gang → Gang) : State :=
  s.modLaunch l.id fun k => { k with gangs := k.gangs.map fun h => if (l.partners g).any (fun p => p.tiles == h.tiles) then f h else h }

/-- PREQ_REQUEST (R392): a request for the gang of a tile; ignored without one. (Log entry 38, DEDUCED.) -/
def execPreqRequest (d : DieId) (i : Fin 128) (s : State) : Out :=
  let t : TileId := Fin.ofNat 512 (128 * d.val + i.val)
  if s.sys.ready = false then .next s
  else
    match s.gangOf t with
    | some (l, g) =>
      if g.requested ∨ g.preempted then .next s
      else
        .next ((s.modPartners l g fun h => { h with requested := true }).modDie d fun x =>
          { x with preq := i.val :: x.preq.filter fun j => j ≠ i.val })
    | none => .next s

/-- PREQ_WITHDRAW (R392, R338): a request that is still pending is withdrawn. (Log entry 38, DEDUCED.) -/
def execPreqWithdraw (d : DieId) (s : State) : Out :=
  if s.sys.ready = false then .next s
  else
    let s := (s.die d).preq.foldl (fun s i =>
      match s.gangOf (Fin.ofNat 512 (128 * d.val + i)) with
      | some (l, g) => if g.preempted then s else s.modPartners l g fun h => { h with requested := false }
      | none => s) s
    .next (s.modDie d fun x => { x with preq := [] })

/-- R338: the launch that the scheduler pre-empts for a waiting one, with a gang of it: the lowest-priority running
launch of the die, below the one whose gang cannot be placed; none while a gang of the die stops already. -/
def State.victim (s : State) (d : DieId) : Option (Launch × Gang) :=
  if s.launches.any fun l => l.gangs.any fun g => g.preempted && g.requested && g.tiles.any fun t => dieOf t = d then none
  else
  let wants := s.launches.filter fun l => l.needsGang s.gtime && l.dies.contains d && l.dies.all s.mayPlace && (s.placement l).isNone
  let top := wants.foldl (fun m l => max m (s.priority l + 1)) 0
  let low := (s.launches.filter fun l => l.gangs.any fun g => !g.preempted && g.tiles.any fun t => dieOf t = d).foldl
    (fun (m : Option Launch) l => match m with
      | none => some l
      | some k => if s.priority l < s.priority k then some l else some k) none
  match low with
  | some l => if s.priority l + 1 < top then (l.gangs.find? fun g => !g.preempted && g.tiles.any fun t => dieOf t = d).map fun g => (l, g)
    else none
  | none => none

/-- R338: is a pre-emption of this gang asked for? -/
def State.asked (s : State) (g : Gang) : Bool :=
  !g.preempted && (g.requested || g.tiles.any fun t =>
    match s.victim (dieOf t) with
    | some v => v.2.tiles == g.tiles
    | none => false)

/-! ## The stop (R338, R340) -/

/-- R338: may a request be taken at this member? -/
def State.mayStop (s : State) (t : TileId) : Bool :=
  let x := s.tile t
  let c := x.cox
  !x.live || (c.ie && !c.tm && !c.closing && x.ending.isNone && (s.event? t).isNone && decide (x.contexts.length < 4))

/-- R340: a member stops at the boundary: the Cox at its region's head, V and M at once. -/
def Tile.stop (x : Tile) : Tile :=
  let x := { x with
    reqs := x.reqs.filter fun r => !(r.slot && r.region == x.cox.region),
    cox := { x.cox.restart with stopped := true } }
  (x.modEng .v fun g => { g with stopped := true }).modEng .m fun g => { g with stopped := true }

/-- R337: is nothing that a member sent still travelling, but reads whose elements the saved context takes? -/
def State.sentLanded (s : State) (t : TileId) : Bool :=
  let id := (s.cox t).nextReq
  s.windowLanded t id && s.homesAccepted t id && !s.travelling t id fun a => match a with
    | .ldi .. | .lds .. | .extq .. | .winLoad .. => false
    | _ => true

/-- R340, R343: does no command of the crew read a slot that the tile has claimed? Its reader count is saved as 0. -/
def State.slotsUnread (s : State) (t : TileId) : Bool := (List.range 32).all fun n =>
  let z := (s.crew (crewOf t)).slot (Fin.ofNat 32 n)
  z.st == .free || z.st == .kept || z.claimer != laneOf t || z.readers == 0

/-- R340: is a stopping member at rest, its groups ended? -/
def State.atRest (s : State) (t : TileId) : Bool :=
  let x := s.tile t
  !x.live || (s.sentLanded t && !s.ownsOpen t && x.v.flight.all VLand.landed && s.engQuiet t .m && x.m.replay.isNone &&
    x.m.batches.all (fun b => !b.closed || b.unlanded == 0) && s.slotsUnread t && s.streamQuiet t .l && s.streamQuiet t .s &&
    x.cox.flight.isEmpty && x.reqs.isEmpty && x.scOps.isEmpty && x.winIn.isEmpty && x.cpIn.isEmpty && x.mcQueue.isEmpty && x.delay.isEmpty &&
    x.portage.flight.isEmpty)

/-- R146: a `CWAIT` that waits is recorded as not begun. -/
def Portage.unwait (p : Portage) : Portage :=
  { p with buffer := p.buffer.map fun (c : PCmd) => if c.awaits then { c with stage := .buffered } else c }

/-- R342: what is saved of a member that runs an iteration, stopped at the boundary `cut`; its lease is given up. -/
def State.saving (s : State) (cut : Nat) (t : TileId) : Option SavedCtx :=
  match (s.tile t).place, (s.tile t).iter with
  | some p, some n =>
    let c := s.contextOf t p n cut
    some { c with
      portage := c.portage.unwait,
      m := { c.m with lstate := if c.m.lstate = .none then .none else .waiting } }
  | _, _ => none

/-- R340, R342: a member's record is written with its slots and banks, which stay claimed and owned for it, and its tile
is freed. (Log entry 37, DEDUCED.) -/
def State.saveMember (s : State) (t : TileId) : Option SavedCtx → State
  | some c =>
    let s := s.writeRecord t c
    let s := (s.dropLease t).modCrew (crewOf t) fun y =>
      let y := { y with cmds := y.cmds.filter fun k => k.tile ≠ laneOf t }
      let y := c.slots.foldl (fun y z => y.modSlot (Fin.ofNat 32 z.1) fun x => { x with st := .kept }) y
      foldN 32 (fun y b => y.modBank (Fin.ofNat 32 b) fun z =>
        if z.owners.getLsbD (laneOf t).val then
          let me := BitVec.ofNat 4 (2 ^ (laneOf t).val)
          { z with owners := z.owners &&& ~~~me, away := z.away ||| me, st := if z.owners = me then .kept else z.st }
        else z) y
    s.modTile t fun x => { x.abandonEngines with
      cox := x.cox.abandon, tokens := Tile.reset.tokens, v := VState.reset, m := MState.reset,
      portage := { x.portage with buffer := [] }, place := none, iter := none, replies := [], arrived := [],
      contexts := x.contexts ++ [c] }
  | none => s.modTile t fun x => { x with place := none }

/-- Is a gang to be stopped now, with its other half? -/
def State.stopsNow (s : State) (l : Launch) (g : Gang) : Bool :=
  !s.holding && s.asked g && (l.partners g).all fun h => h.tiles.all s.mayStop

/-- Is a stopping gang, with its other half, to be saved now? -/
def State.savesNow (s : State) (l : Launch) (g : Gang) : Bool :=
  !s.holding && g.requested && g.preempted && (l.partners g).all fun h => h.tiles.all s.atRest

/-- PREEMPT (R340): at the boundary every member stops; once all are at rest, the records are written and the tiles are
freed. -/
def execPreempt (t : TileId) (s : State) : Out :=
  match s.gangOf t with
  | none => .next s
  | some (l, g) =>
    let tiles := (l.partners g).flatMap Gang.tiles
    if s.phase ≠ .starting then .next s
    else if s.stopsNow l g then
      let s := s.modPartners l g fun h => { h with requested := true, preempted := true, cut := s.gtime }
      let s := tiles.foldl (fun s t => if (s.tile t).live then s.modTile t Tile.stop else s) s
      .next (tiles.foldl (fun s t => s.modDie (dieOf t) fun x => { x with preq := x.preq.filter fun j => j ≠ onDie t }) s)
    else if s.savesNow l g then
      let saved := tiles.map fun t => (t, s.saving g.cut t)
      .next ((saved.foldl (fun s c => s.saveMember c.1 c.2) s).modPartners l g fun h => { h with requested := false })
    else .next s

/-! ## Resumption (R341, R343) -/

/-- The saved context of a gang's member, with its place on the tile. -/
def State.savedOf (s : State) (l : Launch) (g : Gang) (t : TileId) : Option (Nat × SavedCtx) :=
  ((s.tile t).contexts.zipIdx.find? fun c => decide (c.1.launch = l.id) && c.1.place.tiles == g.tiles).map fun c => (c.2, c.1)

/-- The tiles of a saved gang in the crew of the saved tile, as an owner mask. -/
def SavedCtx.crewMask (c : SavedCtx) : BitVec 4 :=
  (c.place.tiles.filter fun u => crewOf u == crewOf (Fin.ofNat 512 c.tile)).foldl
    (fun m u => m ||| BitVec.ofNat 4 (2 ^ (laneOf u).val)) 0

/-- R341: are a member's tile, slots and banks free, or still the gang's, and may its crew be used?
(Log entry 37, DEDUCED.) -/
def State.freeFor (s : State) (l : Launch) (g : Gang) (t : TileId) : Bool :=
  let x := s.tile t
  let y := s.crew (crewOf t)
  let test := (s.die (dieOf t)).test
  x.place.isNone && x.settled && test.online.getLsbD ((crewOf t).val % 32) && !s.underTest t &&
    (match s.savedOf l g t with
      | some (_, c) => c.banks.all fun z =>
          let b := y.bank (Fin.ofNat 32 z.1)
          b.st == .free || b.away &&& c.crewMask != 0
      | none => true)

/-- R341, R312, R143: may a saved gang, with its other half, resume: its tiles free, its dies placing gangs, and no launch of
higher effective priority waiting for a gang? -/
def State.resumable (s : State) (l : Launch) (g : Gang) : Bool :=
  g.preempted && !g.requested && l.dies.all s.mayPlace && !s.loadRuns l.dies && (l.partners g).all (fun h => h.tiles.all (s.freeFor l h)) &&
    !s.launches.any fun k => k.needsGang s.gtime && k.die == l.die && decide (s.priority l < s.priority k)

/-- R146, R341: L and S expand their entries again, but for a queue that a fault has stopped. -/
def Tile.expandStreams (x : Tile) : Tile :=
  [Eng.l, Eng.s].foldl (fun x e => if (x.eng e).fault.isSome then x else x.reexpand e) x

/-- R341, R343: a context is written back: the Cox at its region's head, L and S from their stopped points or first
unissued entries. The image is loaded as at a placement (R317). -/
def Tile.restored (x : Tile) (c : SavedCtx) (now : Nat) (arrived : List Nat) : Tile :=
  Tile.expandStreams { x with
    cox := { c.cox with imem := x.cox.imem, nextReq := x.cox.nextReq, stopped := false, nextIssue := now + 1,
                        tint := x.cox.tint },
    engines := Vector.ofFn fun i =>
      { c.engines[i] with store := x.engines[i].store, dir := x.engines[i].dir,
                          stopped := c.engines[i].stopped && c.engines[i].fault.isSome },
    tokens := c.tokens, v := c.v, m := c.m,
    portage := { c.portage with nextId := max x.portage.nextId c.portage.nextId,
                                order := max x.portage.order c.portage.order, owner := [] },
    sp := c.sp, place := some c.place, iter := some c.iter, budget := c.budget, since := x.cox.nextReq, arrived := arrived,
    replies := c.replies }

/-- R340, R343: a bank goes back to the gang whose tiles are `mask`; one that a tile outside the gang owned all the while
goes on as it stands. (Log entry 37, DEDUCED.) -/
def Bank.restored (b saved : Bank) (mask : BitVec 4) : Bank :=
  if b.owners = 0 then { saved with owners := saved.owners &&& mask, away := b.away &&& ~~~mask }
  else { b with owners := b.owners ||| (saved.owners &&& mask), away := b.away &&& ~~~mask }

/-- The slots and banks of a record go back to its crew. -/
def Crew.restored (y : Crew) (c : SavedCtx) : Crew :=
  let y := { y with cmds := y.cmds ++ c.cmds }
  let y := c.slots.foldl (fun y z => y.modSlot (Fin.ofNat 32 z.1) fun _ => z.2) y
  c.banks.foldl (fun y z => y.modBank (Fin.ofNat 32 z.1) fun b => b.restored z.2 c.crewMask) y

/-- A member resumes at its member index. -/
def State.resumeMember (s : State) (l : Launch) (g : Gang) (m : Nat) (t : TileId) : State :=
  let first := (g.tiles.map fun u => Fin.ofNat 512 (128 * l.die.val + onDie u) : List TileId)
  let saved := s.savedOf l g t
  let s := ((s.placeMember l g.tiles g.delay m t).loadMember l t).modCox t fun c =>
    { c with wheel := wheelFor l.record m (first.getD m t) }
  match saved with
  | none => s
  | some (j, c) =>
    let good := s.recordGood t c && c.magic == 0x43584E45 && c.version == 1 && c.launch == l.id && c.tile == t.val
    let still := c.arrived.filter fun e => s.inCollective t e
    let s := (s.modTile t fun x => { x.restored c s.gtime still with contexts := x.contexts.eraseIdx j }).modCrew (crewOf t) fun y =>
      y.restored c
    if good then s else s.containTile t cMCSRAM none

/-- R341: the saved gang of a tile that resumes first: of the highest effective priority, and then of the earliest entry,
among those that may. -/
def State.toResume (s : State) (t : TileId) : Option (Launch × Gang) :=
  let l := s.launches.flatMap fun l =>
    (l.gangs.filter fun g => g.tiles.contains t && s.resumable l g).map fun g => (l, g)
  l.foldl (fun (m : Option (Launch × Gang)) x => match m with
    | none => some x
    | some y => if s.before x.1 y.1 then some x else some y) none

/-- PREEMPT_RESUME (R341, R343): the gang is dispatched again on the same tiles, and its records are restored; a record
that does not match is a contained machine check. -/
def execPreemptResume (t : TileId) (s : State) : Out :=
  match s.toResume t with
  | none => .next s
  | some (l, g) =>
    if s.phase = .running then
      let s := (l.partners g).foldl (fun s h => h.tiles.zipIdx.foldl (fun s x => s.resumeMember l h x.2 x.1) s) s
      .next (s.modPartners l g fun h => { h with preempted := false })
    else .next s

/-! ## Dispatch (R312, R313, R341) -/

/-- R341: does a saved gang that can resume go before a queued launch of this effective priority? -/
def State.resumesFirst (s : State) (d : DieId) (p : Nat) : Bool :=
  s.launches.any fun l => l.die == d && decide (p ≤ s.priority l) && l.gangs.any (s.resumable l)

/-- LAUNCH_DISPATCH (R312, R313): at the end of the cycle the best candidate's entry is freed, and its walk begins. -/
def execLaunchDispatch (d : DieId) (s : State) : Out :=
  let run := s.running d
  if s.phase ≠ .ending ∨ s.schedules d = false ∨ 64 ≤ run.length ∨ (run.any fun l => l.dispatchedAt == some s.gtime) ∨
      s.loadRuns [d] then .next s
  else
    match s.best d with
    | some l =>
      if s.resumesFirst d (s.priority l) ∨ s.loadRuns l.dies then .next s
      else .next (s.modLaunch l.id fun k => { k with dispatchedAt := some s.gtime, waiting := some s.gtime })
    | none => .next s

end Sys2Proof.Machine
end

