-- ==== Sys2Proof/Machine/Window.lean ====
section
/-! DEFINITION. The register window (R389, R151, R250, R287, R311, R365, R367, R390, R393), and the module's edge: cold
reset (R9), boot (R394), freeze (R396), keys (R397) and temperature (R398). -/

namespace Sys2Proof.Machine

open Sys2Proof

/-! ## Tables and words (R151, R250, R287, R393) -/

/-- R151: may an entry of the Pitch table hold this value? -/
def pitchOk (v : BitVec 16) : Bool :=
  let owner := bitsOf v.toNat 0 8
  bitsOf v.toNat 8 6 == 0 &&
    (match bitsOf v.toNat 14 2 with
      | 0 => owner == 0
      | 1 => decide (owner ≤ 131)
      | 2 => decide (owner ≤ 127)
      | _ => false)

/-- PITCH_WRITE (R151): only while no tile iteration is allocated on the die. -/
def execPitchWrite (d : DieId) (i : Fin 2112) (v : BitVec 16) (s : State) : Out :=
  if s.sys.ready = false ∨ s.dieBusy d ∨ pitchOk v = false then .next s
  else .next ((s.modDie d fun x => { x with pitch := x.pitch.put i.val v 0 }).modDev fun m => m.dropFlaws fun k => k == .pitch d i.val)

/-- PEER_TABLE_WRITE (R250): a write that sets a reserved bit is ignored. -/
def execPeerTableWrite (i : Fin 256) (ctl src : Byte) (qmask : BitVec 256) (s : State) : Out :=
  if s.sys.ready = false ∨ 8 ≤ ctl.toNat then .next s
  else .next (s.modSys fun y => { y with peers := y.peers.put i.val ⟨ctl, src, qmask⟩ Peer.reset })

/-- SIGNAL_WINDOW_WRITE (R23, R287): the write is sent to the word's home, from the station of home 0 of the same die, which
the register window reaches. (Log entry 52, DESIGN CHOICE.) -/
def execSignalWindowWrite (w : BitVec 17) (v : Word) (s : State) : Out :=
  let h := signalHome w
  if s.sys.ready = false then .next s
  else .next (s.sendFlit (homeStation (homeOf (h.val / 2) 0)) (homeStation h) .signal (.oper none w (.write v) none))

/-- R393: is a flush due: asked for, with no launch dispatched? -/
def State.flushDue (s : State) : Bool := s.sys.ctxflush && !s.launches.any fun l => l.dispatchedAt.isSome

/-- R393: the flush is done when it is due. (Log entry 50, DEDUCED.) -/
def State.flushWhenIdle (s : State) : State :=
  if s.flushDue then s.flushTlbs.modSys fun y => { y with ctxflush := false } else s

/-- CTXFLUSH_WRITE (R393). -/
def execCtxflushWrite (v : Word) (s : State) : Out :=
  if s.sys.ready ∧ v.getLsbD 0 then .next ((s.modSys fun y => { y with ctxflush := true }).flushWhenIdle) else .next s

/-! ## Registers (R389) -/

/-- A write of QCTL (R311). -/
def LQueue.writeCtl (k : LQueue) (v : Word) : LQueue :=
  { k with frozen := k.frozen && !v.getLsbD 11, en := v.getLsbD 10, maxprio := bitsOf v.toNat 0 3 }

/-- R390: a ring register changes; while a record waits, which slots are fetched is left open. -/
def LQueue.ringChanged (k : LQueue) : LQueue := { k with openSlots := k.openSlots || k.head != k.tail }

/-- A write of RCTL (R390): LOG2 takes 4 to 16. -/
def LQueue.writeRctl (k : LQueue) (v : Word) : LQueue :=
  let n := bitsOf v.toNat 0 5
  let k := { k with badTail := k.badTail && !v.getLsbD 31 }
  if 4 ≤ n ∧ n ≤ 16 then { k.ringChanged with log2 := n } else k

/-- A write of MCCTL (R365). -/
def McBank.writeCtl (k : McBank) (v : Word) : McBank :=
  { k with thresh := bitsOf v.toNat 32 16, leak := bitsOf v.toNat 16 8, xint := v.getLsbD 1, cint := v.getLsbD 0 }

/-- A write of MCST (R365): VAL and OVER are W1C. -/
def McBank.writeSt (k : McBank) (v : Word) : McBank :=
  let k := if v.getLsbD 63 then k.clearVal else k
  { k with past := k.past && !v.getLsbD 62 }

/-- R396: every clock stops; once a hold-up runs it runs to its end first (R371). (Log entry 45, DEDUCED.) -/
def State.freezeClocks (s : State) (bit : Bool) : State :=
  if s.holding then s else s.modSys fun y => { y with frozen := true, freezeBit := y.freezeBit || bit }

/-- REG_WRITE (R389): each field takes its value as its own layout says; ignored while READY = 0 (R394).
(Log entry 27, DESIGN CHOICE.) -/
def execRegWrite (r : WinReg) (v : Word) (s : State) : Out :=
  if s.sys.ready = false then .next s
  else
    .next (match r with
      | .savePool => s.modSys fun y => { y with savePool := v &&& 0x3FFC00003FF }
      | .shadowPool => s.modSys fun y => { y with shadowPool := v &&& 0x3FFC00000FF }
      | .bhctl => s.modSys fun y => { y with bhAllow := min (bitsOf v.toNat 0 24) 0xA00000 }
      | .qctl d q => s.modDie d fun x => x.modQueue q fun k => k.writeCtl v
      | .rbase d q => s.modDie d fun x => x.modQueue q fun k => { k.ringChanged with rbase := v &&& 0xFFFFFFFFFFFFF000 }
      | .rctl d q => s.modDie d fun x => x.modQueue q fun k => k.writeRctl v
      | .mcctl d b => s.modBank d b.val fun k => k.writeCtl v
      | .mcst d b => s.modBank d b.val fun k => k.writeSt v
      | .stctl d => s.modTest d fun y =>
        { y with period := bitsOf v.toNat 16 24 }.ask (v.getLsbD 8) (bitsOf v.toNat 0 5)
      | .devctl => if v.getLsbD 1 then s.freezeClocks true else s)

/-! ## Cold reset and boot (R9, R24, R371, R394) -/

/-- R9: the module after a cold reset: everything as `State.reset` has it but the Boathouse and its registers (R24,
R381), the fuses and what the module is built with, and what lies outside it. (Log entry 36, DEDUCED.) -/
def State.afterReset (s : State) : State :=
  { State.reset with
    agenda := s.agenda, fresh := s.fresh,
    dies := s.dies.map fun d => (d.1, { Die.reset with celsius := d.2.celsius }),
    sys := { Sys.reset with
      pairOk := s.sys.pairOk, tier2GiB := s.sys.tier2GiB, tceOnline := s.sys.tceOnline, bhSetv := s.sys.bhSetv, bhHoldno := s.sys.bhHoldno,
      bhBytes := s.sys.bhBytes, boathouse := s.sys.boathouse, hostMem := s.sys.hostMem } }

/-- R371, R396: may a cold reset come? A hold-up first runs to its end; a freeze always ends with one. -/
def State.resettable (s : State) : Bool :=
  s.sys.frozen || (match s.sys.hold with
    | none => true
    | some .write => decide (s.sys.holdEnd ≤ s.gtime)
    | some _ => false)

/-- COLD_RESET (R9). (Log entry 36, DEDUCED.) -/
def execColdReset (s : State) : Out := if s.resettable then .next s.afterReset else .next s

/-- BOOT (R394, R228, R230): one fetch and check of the firmware: it starts, or has failed; the third failure sets
BOOTFAIL. (Log entry 49, DESIGN CHOICE.) -/
def execBoot (good : Bool) (pkg : Byte) (fw : Firmware) (s : State) : Out :=
  if s.sys.ready ∨ s.sys.bootfail then .next s
  else if good then .next (s.modSys fun y => { y with ready := true, pkg := pkg, fwCps := fw.cps, fwVersion := fw.version })
  else .next (s.modSys fun y => { y with bootTries := y.bootTries + 1, bootfail := decide (3 ≤ y.bootTries + 1) })

/-! ## The capability list (R395, R16) -/

/-- The bodies of the capability list by ID: a body that R395 gives no widths for holds its figures in 4 bytes each.
(Log entry 49, DESIGN CHOICE.) -/
def State.capabilities (s : State) : List (Nat × List Nat) :=
  [(1, [s.sys.pkg.toNat, s.sys.domain]),
   (2, (List.range 4).map fun d => (s.die (Fin.ofNat 4 d)).test.online.toNat),
   (3, [if s.sys.tier2GiB = 0 then 0 else 1, s.sys.tier2GiB]),
   (4, [if s.sys.pairOk then 1 else 0, 0]),
   (5, [s.sys.tceOnline.toNat, 0]),
   (6, [8, 0]),
   (7, [s.sys.fwVersion.toNat, s.sys.fwCps.toNat])]

/-- The entries of the capability list from window offset `at'` on: ID, VERSION 1, the length of the body in 8 bytes, the
offset of the next entry, zeros, the body. -/
def capBytes (at' : Nat) : List (Nat × List Nat) → List Byte
  | [] => []
  | (id, body) :: rest =>
    let next := at' + 8 + 4 * body.length
    toBytes 2 id ++ toBytes 1 1 ++ toBytes 1 (body.length / 2) ++ toBytes 2 (if rest.isEmpty then 0 else next) ++
      toBytes 2 0 ++ body.flatMap (toBytes 4) ++ capBytes next rest

/-- R395: the bytes of the register window from offset 0x1000 on; R394: 0 after BOOTFAIL. -/
def State.capabilityList (s : State) : List Byte :=
  if s.sys.bootfail then [] else capBytes 0x1000 s.capabilities

/-! ## Freeze, keys, temperature (R396 to R398) -/

/-- FREEZE (R396): the pin: every clock stops; a write of 1 to DEVCTL.FREEZE is a REG_WRITE. (Log entry 45, DEDUCED.)
(Log entry 50, DEDUCED.) -/
def execFreeze (s : State) : Out := .next (s.freezeClocks false)

/-- R99, R73: a unit of eight cells that was written under `old`, as `new` reads it: the 64-bit cells are what decrypting
gives, and their guard bits, which the home keeps, stay. -/
def Extent.cellUnit (e : Extent) (old new : BitVec 512) (k : Nat) : List (Nat × Int) :=
  let phys := cellPhys e.pages (alignUp e.bytes (pageSizeFor e.bytes).1 + 64 * k)
  let cell (j : Nat) : Int := e.cells.get (8 * k + j) 0
  let bytes := rekey old new (phys / 64) ((List.range 8).flatMap fun j => toBytes 8 (cell j % 2 ^ 64).toNat)
  (List.range 8).map fun j => (8 * k + j, cell j / 2 ^ 64 * 2 ^ 64 + ofBytes ((bytes.drop (8 * j)).take 8))

/-- R99: the cells of an extent after its key has changed. (Log entry 23, DEDUCED.) -/
def Extent.rekeyed (e : Extent) (old new : BitVec 512) : Extent :=
  { e with cells := ((List.range (ceilDiv e.count 8)).flatMap (e.cellUnit old new)).filter fun c => c.2 ≠ 0 }

/-- KEY_LOAD (R397, R99): firmware loads a key slot; a cell area uses the key of its extent, in whatever context it lives.
(Log entry 23, DEDUCED.) -/
def execKeyLoad (slot : Fin 1024) (key : BitVec 512) (s : State) : Out :=
  if s.sys.ready then
    let old := s.keyOf slot.val
    let s := if old = key then s
      else
        let again (l : Map Extent) : Map Extent := l.map fun x =>
          (x.1, if x.2.acap ∧ x.2.key = slot.val ∧ x.2.tier ≠ 2 then x.2.rekeyed old key else x.2)
        s.modDev fun d => { d with
          extents := again d.extents, jobs := d.jobs.map fun j => (j.1, { j.2 with extents := again j.2.extents }) }
    .next (s.modSys fun y => { y with keys := y.keys.set slot.val key })
  else .next s

/-- THERMAL_LIMIT (R398): the junction of a die is at this temperature; at 115 °C the supply is cut. -/
def execThermalLimit (d : DieId) (celsius : Nat) (s : State) : Out :=
  let s := s.modDie d fun x => { x with celsius := celsius }
  if 115 ≤ celsius ∧ !s.holding ∧ !s.sys.frozen then .next s.loseSupply else .next s

end Sys2Proof.Machine
end

