-- ==== Sys2Proof/Machine/WindowMap.lean ====
section
/-! DEFINITION. The register window as the host sees it (R389): which register an offset names, what a read of it shows, and
the events that a write of 8 or 4 bytes brings. (Log entry 53, DESIGN CHOICE.) -/

namespace Sys2Proof.Machine

open Sys2Proof

/-! ## Offsets (R389) -/

/-- What the eight bytes at an offset of the window belong to. (Log entry 53, DESIGN CHOICE.) -/
inductive WinAt where
  | devctl
  /-- Eight bytes of the capability list. -/
  | cap (k : Nat)
  /-- Word `k` (0–4) of an entry of the peer access table. -/
  | peer (i : Fin 256) (k : Nat)
  | bhctl | bhstat | savePool | shadowPool | ctxflush | imgaddr | imghandle
  | signal (w : BitVec 17)
  /-- Four entries of the Pitch table, from entry `k` on. -/
  | pitch (d : DieId) (k : Nat)
  | qctl (d : DieId) (q : QueueId)
  /-- RBASE, RCTL, RHEAD and RTAIL. -/
  | ring (d : DieId) (q : QueueId) (k : Nat)
  /-- MCST, MCADDR, MCMISC and MCCTL. -/
  | bank (d : DieId) (b : Fin 48) (k : Nat)
  | stctl (d : DieId) | ststat (d : DieId)
  | tint (t : TileId) | tdbg (t : TileId)
  | preq (d : DieId)
  | completion (d : DieId) (k : Nat)
  | nothing
deriving DecidableEq, Repr

/-- The block of a die. -/
def dieWinAt (d : DieId) (o : Nat) : WinAt :=
  let tile (k : Nat) : TileId := Fin.ofNat 512 (128 * d.val + k)
  if o < 0x1080 then .pitch d (o / 2)
  else if 0x2000 ≤ o ∧ o < 0x2200 then .qctl d (Fin.ofNat 64 ((o - 0x2000) / 8))
  else if 0x4000 ≤ o ∧ o < 0x4800 then .ring d (Fin.ofNat 64 ((o - 0x4000) / 32)) (o % 32 / 8)
  else if 0x5000 ≤ o ∧ o < 0x5600 then .bank d (Fin.ofNat 48 ((o - 0x5000) / 32)) (o % 32 / 8)
  else if o = 0x5800 then .stctl d
  else if o = 0x5808 then .ststat d
  else if 0x6000 ≤ o ∧ o < 0x6400 then .tint (tile ((o - 0x6000) / 8))
  else if 0x6400 ≤ o ∧ o < 0x6800 then .tdbg (tile ((o - 0x6400) / 8))
  else if o = 0x6800 then .preq d
  else if 0x10000 ≤ o ∧ o < 0x18000 then .completion d ((o - 0x10000) / 8)
  else .nothing

/-- The register at an offset, a multiple of 8. -/
def winAt (off : Nat) : WinAt :=
  if off = 0 then .devctl
  else if 0x1000 ≤ off ∧ off < 0x2000 then .cap (off - 0x1000)
  else if 0x2000 ≤ off ∧ off < 0x4800 then .peer (Fin.ofNat 256 ((off - 0x2000) / 40)) ((off - 0x2000) % 40 / 8)
  else if off = 0x5000 then .bhctl
  else if off = 0x5008 then .bhstat
  else if off = 0x5010 then .savePool
  else if off = 0x5018 then .shadowPool
  else if off = 0x5020 then .ctxflush
  else if off = 0x5028 then .imgaddr
  else if off = 0x5030 then .imghandle
  else if 0x100000 ≤ off ∧ off < 0x200000 then .signal (BitVec.ofNat 17 ((off - 0x100000) / 8))
  else if 0x1000000 ≤ off ∧ off < 0x2000000 then
    dieWinAt (Fin.ofNat 4 ((off - 0x1000000) / 0x400000)) ((off - 0x1000000) % 0x400000)
  else .nothing

/-! ## Reads (R389, R394) -/

/-- QCTL as read (R311): PEND counts the launches of the queue that hold entries. -/
def State.qctl (s : State) (d : DieId) (q : QueueId) : Word :=
  let k := (s.die d).queue q
  let pend := (s.launches.filter fun l => l.die = d ∧ l.queue = q ∧ l.dispatchedAt.isNone ∧ l.verdict = none).length
  BitVec.ofNat 64 (pend * 2 ^ 20 + (if k.frozen then 2048 else 0) + (if k.en then 1024 else 0) + k.maxprio)

/-- A ring register as read (R390). -/
def LQueue.ringReg (k : LQueue) : Nat → Word
  | 0 => k.rbase
  | 1 => BitVec.ofNat 64 ((if k.badTail then 2 ^ 31 else 0) + k.log2)
  | 2 => k.head.setWidth 64
  | _ => k.tail.setWidth 64

/-- A register of a machine-check bank as read (R365). -/
def McBank.reg (k : McBank) : Nat → Word
  | 0 => k.mcst
  | 1 => k.addr
  | 2 => k.mcmisc
  | _ => k.mcctl

/-- STCTL as read (R367). -/
def SelfTest.ctl (y : SelfTest) : Word := BitVec.ofNat 64 (y.period * 2 ^ 16 + (if y.req then 256 else 0) + y.crew)

/-- STSTAT as read (R367). -/
def SelfTest.stat (y : SelfTest) : Word :=
  BitVec.ofNat 64 (y.online.toNat * 2 ^ 32 + y.tests * 2 ^ 16 + (if y.running.isSome || !y.queue.isEmpty then 256 else 0) +
    y.last * 64 + y.lastCrew)

/-- TINT as read (R392): the latched value, bit 63 being 1 while HOSTINT is pending. -/
def Cox.tintShown (c : Cox) : Word := if c.pend.hostint then c.tint ||| BitVec.ofNat 64 (2 ^ 63) else c.tint

/-- TDBG as read (R394). -/
def Cox.tdbg (c : Cox) : Word := if c.halted || c.dbgHalted then 2 else 0

/-- DEVCTL as read (R396). -/
def Sys.devctl (y : Sys) : Word :=
  BitVec.ofNat 64 ((if y.ready then 2 ^ 63 else 0) + (if y.bootfail then 2 ^ 62 else 0) + (if y.freezeBit then 2 else 0) +
    (if y.frozen then 1 else 0))

/-- BHSTAT as read (R381). -/
def Sys.bhstat (y : Sys) : Word :=
  BitVec.ofNat 64 ((if y.bhSetv then 2 ^ 63 else 0) + y.bhHoldno.toNat * 2 ^ 48 + y.bhBytes)

/-- Word `k` of an entry of the peer access table (R250). -/
def Peer.word (p : Peer) : Nat → Word
  | 0 => BitVec.ofNat 64 (p.ctl.toNat + p.src.toNat * 256)
  | k => BitVec.ofNat 64 (bitsOf p.qmask.toNat (64 * (k - 1)) 64)

/-- What the register that an offset names shows; a poisoned Signal word shows 0. -/
def State.shown (s : State) : WinAt → Word
  | .devctl => s.sys.devctl
  | .cap k => BitVec.ofNat 64 (recNat s.capabilityList k 8)
  | .peer i k => ((s.sys.peers.get i.val Peer.reset).word k)
  | .bhctl => BitVec.ofNat 64 s.sys.bhAllow
  | .bhstat => s.sys.bhstat
  | .savePool => s.sys.savePool
  | .shadowPool => s.sys.shadowPool
  | .ctxflush => if s.sys.ctxflush then 1 else 0
  | .imgaddr => s.sys.imgaddr
  | .imghandle => s.sys.imghandle
  | .signal w => if s.dev.sigPoison.contains w.toNat then 0 else s.dev.signals.get w.toNat 0
  | .pitch d k => BitVec.ofNat 64 (((List.range 4).map fun i => ((s.die d).pitch.get (k + i) 0).toNat * 2 ^ (16 * i)).foldl (· + ·) 0)
  | .qctl d q => s.qctl d q
  | .ring d q k => ((s.die d).queue q).ringReg k
  | .bank d b k => ((s.die d).bank b.val).reg k
  | .stctl d => (s.die d).test.ctl
  | .ststat d => (s.die d).test.stat
  | .tint t => (s.cox t).tintShown
  | .tdbg t => (s.cox t).tdbg
  | .preq _ => 0
  | .completion d k => (s.die d).window.get k 0
  | .nothing => 0

/-- Does an access to a register wait for a frozen die, which never answers it (R355)? -/
def State.silent (s : State) : WinAt → Bool
  | .signal w => (s.die (Fin.ofNat 4 ((signalHome w).val / 2))).frozen
  | _ => false

/-- R389, R394: a read of 8 bytes of the window, at an aligned offset: none when nothing answers; after BOOTFAIL everything
but DEVCTL reads as 0. (Log entry 53, DESIGN CHOICE.) -/
def State.windowRead (s : State) (off : Nat) : Option Word :=
  let r := winAt off
  if s.silent r then none
  else if s.sys.bootfail && r != .devctl then some 0
  else some (s.shown r)

/-- A read of 4 bytes: the half that the offset names. -/
def State.windowRead32 (s : State) (off : Nat) : Option (BitVec 32) :=
  (s.windowRead (off / 8 * 8)).map fun (v : Word) => if off % 8 < 4 then v.setWidth 32 else (v >>> 32).setWidth 32

/-! ## Writes (R389) -/

/-- What a write of one half leaves in the other: the register as it shows, but for the bits that act by being written 1. -/
def State.resting (s : State) (r : WinAt) : Word :=
  match r with
  | .qctl .. => s.shown r &&& ~~~(2048 : Word)
  | .ring _ _ 1 => s.shown r &&& ~~~(BitVec.ofNat 64 (2 ^ 31))
  | .bank _ _ 0 | .bhstat | .tdbg _ | .devctl | .ctxflush | .preq _ => 0
  | .tint t => (s.cox t).tint
  | _ => s.shown r

/-- The register's 8 bytes after a write. -/
def State.merged (s : State) (w : HostWrite) : Word :=
  let keep := s.resting (winAt (w.off / 8 * 8))
  if w.wide then w.v
  else if w.off % 8 < 4 then (keep &&& 0xFFFFFFFF00000000) ||| (w.v &&& 0xFFFFFFFF)
  else (keep &&& 0xFFFFFFFF) ||| (w.v <<< 32)

/-- Does a write reach the low half of its register? -/
def HostWrite.low (w : HostWrite) : Bool := w.wide || decide (w.off % 8 < 4)

/-- A write of word `k` of a peer entry, whose reserved bytes must be zero (R250). -/
def peerEvents (old : Peer) (i : Fin 256) (k : Nat) (v : Word) : List Instr :=
  match k with
  | 0 =>
    if bitsOf v.toNat 16 48 = 0 then
      [.peerTableWrite i (BitVec.ofNat 8 (bitsOf v.toNat 0 8)) (BitVec.ofNat 8 (bitsOf v.toNat 8 8)) old.qmask]
    else []
  | k =>
    let at' := 64 * (k - 1)
    let q := old.qmask.toNat
    [.peerTableWrite i old.ctl old.src (BitVec.ofNat 256 (q - bitsOf q at' 64 * 2 ^ at' + v.toNat * 2 ^ at'))]

/-- The events that a write of the host brings, in order. -/
def State.hostEvents (s : State) (w : HostWrite) : List Instr :=
  let r := winAt (w.off / 8 * 8)
  let v := s.merged w
  match r with
  | .devctl => if w.low then [.regWrite .devctl v] else []
  | .peer i k => peerEvents (s.sys.peers.get i.val Peer.reset) i k v
  | .bhctl => [.regWrite .bhctl v]
  | .bhstat => if v.getLsbD 63 then [.bhstatSetvClear] else []
  | .savePool => [.regWrite .savePool v]
  | .shadowPool => [.regWrite .shadowPool v]
  | .ctxflush => [.ctxflushWrite v]
  | .imgaddr => [.imgaddrWrite v]
  | .signal n => [.signalWindowWrite n v]
  | .pitch d k =>
    ((List.range 4).filter fun i => w.wide || decide (i / 2 = w.off % 8 / 4)).map fun i =>
      .pitchWrite d (Fin.ofNat 2112 (k + i)) (BitVec.ofNat 16 (bitsOf v.toNat (16 * i) 16))
  | .qctl d q => if w.low then [.regWrite (.qctl d q) v] else []
  | .ring d q 0 => [.regWrite (.rbase d q) v]
  | .ring d q 1 => if w.low then [.regWrite (.rctl d q) v] else []
  | .ring d q 3 => if w.low then [.rtailWrite d q (v.setWidth 32)] else []
  | .bank d b 0 => [.regWrite (.mcst d b) v]
  | .bank d b 3 => [.regWrite (.mcctl d b) v]
  | .stctl d => [.regWrite (.stctl d) v]
  | .tint t => [.tintWrite t v]
  | .tdbg t => if v.getLsbD 0 then [.tdbgResume t] else []
  | .preq d => if v.getLsbD 63 then [.preqWithdraw d] else [.preqRequest d (Fin.ofNat 128 v.toNat)]
  | .ring .. | .bank .. | .cap _ | .imghandle | .ststat _ | .completion .. | .nothing => []

/-- R389: a write to BAR2, whose contents the spec does not lay out. -/
def State.bar2Write (s : State) (w : HostWrite) : State :=
  s.modSys fun y => { y with bar2 := y.bar2.write (w.off % 4096) (toBytes (if w.wide then 8 else 4) w.v.toNat) }

/-- R389, R394: the host writes; while READY = 0 the write is ignored. Its events are the next turns. -/
def State.hostWrite (s : State) (w : HostWrite) : State :=
  if s.sys.ready = false ∨ w.off % (if w.wide then 8 else 4) ≠ 0 then s
  else if w.bar2 then s.bar2Write w
  else { s with agenda := (s.hostEvents w).map Turn.event ++ s.agenda }

/-- R390: the host writes its own memory; 64 bytes of a line at a time are seen whole. -/
def State.hostMemWrite (s : State) (addr : Nat) (bs : List Byte) : State :=
  s.modSys fun y => { y with hostMem := y.hostMem.write addr (bs.take (64 - addr % 64)) }

end Sys2Proof.Machine
end

