-- ==== Sys2Proof/Machine/Cycle.lean ====
section
/-! DEFINITION. What a step of the module does (log entry 4, DESIGN CHOICE): a cycle begins with what the clock makes due, takes the
events of its boundary, runs the turns of the agenda, and ends with what lands in it. Here stands which of these comes
next; Step.lean runs it. -/

namespace Sys2Proof.Machine

open Sys2Proof

/-- What a step does: an instruction runs in a state, a V word of a tile does, whose fetches the banks must serve (R161), the
state changes, or the machine stops. -/
inductive Act where
  | exec (i : Instr) (s : State)
  | port (t : TileId) (i : Instr) (s : State)
  | next (s : State)
  | stop (f : Fault)

/-! ## Which events the world may bring, and where (R355) -/

/-- Events whose time is not fixed by the clock: the agenda brings them. -/
def isInput : Instr → Bool
  | .tokenWaitEnd .. | .tceBlockDone _ | .flitInject .. | .homeAccessDone .. | .recastArrival _ | .recastFlip _
  | .packetArrive _ | .ackArrive .. | .resendTimeout .. | .flagDepart _ | .linkCrcRetry _ | .gtimeBoundLoss
  | .rtailWrite .. | .ringFetch .. | .poolEntry _ | .gangPlace _ | .pointAllocate _ | .qctlFrozenClear .. | .tintWrite ..
  | .preqRequest .. | .preqWithdraw _ | .preemptResume _ | .tdbgResume _ | .mcstValClear .. | .stctlReq ..
  | .pitchWrite .. | .peerTableWrite .. | .signalWindowWrite .. | .imgaddrWrite _ | .ctxflushWrite _ | .bhstatSetvClear
  | .regWrite .. | .supplyLoss | .coldReset | .boot .. | .freeze | .keyLoad .. | .thermalLimit .. => true
  | _ => false

/-- R372: is an event a loss of the supply, which is delivered at the start of a cycle? -/
def cutsSupply : Instr → Bool
  | .supplyLoss => true
  | .thermalLimit _ celsius => decide (115 ≤ celsius)
  | _ => false

/-- R375: what may still come once the save set is being written: nothing that writes a source. -/
def isHarmless : Instr → Bool
  | .coldReset | .freeze | .regWrite .. | .mcstValClear .. | .pitchWrite .. | .peerTableWrite .. | .imgaddrWrite _
  | .rtailWrite .. | .qctlFrozenClear .. | .thermalLimit .. | .linkCrcRetry _ | .gtimeBoundLoss => true
  | _ => false

/-- Events of the end of a cycle to which the agenda gives an outcome, or which it asks for. -/
def isLate : Instr → Bool
  | .requestDepart .. | .portPushLand .. | .vWriteLand .. | .mWritesLand .. | .selftestEnd .. | .launchDispatch _
  | .patrolScrubRead .. => true
  | _ => false

/-- Do two events differ in their outcome only? -/
def sameEvent : Instr → Instr → Bool
  | .requestDepart t _, .requestDepart u _ => t == u
  | .portPushLand a, .portPushLand b => a.tile == b.tile
  | .vWriteLand t _, .vWriteLand u _ => t == u
  | .mWritesLand c _, .mWritesLand d _ => c == d
  | .selftestEnd d _, .selftestEnd e _ => d == e
  | .patrolScrubRead h a b _, .patrolScrubRead i c d _ => h == i && a == c && b == d
  | _, _ => false

/-- R355: the die on whose core clocks an event of the agenda runs. -/
def eventDie (s : State) : Instr → Option DieId
  | .tokenWaitEnd t _ | .tdbgResume t | .preemptResume t => some (dieOf t)
  | .tceBlockDone d | .flitInject d _ => some d
  | .recastFlip e =>
    match s.extent? e.val with
    | some x => (s.walk x.base).map fun p => Fin.ofNat 4 ((homeFor (pteTier p.pte) (p.at' x.base)).val / 2)
    | none => none
  | _ => none

/-- Is a die's clock running? -/
def State.clocked (s : State) (d : DieId) : Bool := !(s.die d).frozen

/-- The first tile, on a die whose clock runs, that `p` holds of. -/
def State.tileWith (s : State) (p : TileId → Bool) : Option TileId :=
  (s.tiles.map fun x => (Fin.ofNat 512 x.1 : TileId)).find? fun t => s.clocked (dieOf t) && p t

/-- The first engine that `p` holds of. -/
def State.engWith (s : State) (p : TileId → Eng → Bool) : Option (TileId × Eng) :=
  (s.tiles.flatMap fun x => Sys2Proof.engines.map fun e => ((Fin.ofNat 512 x.1 : TileId), e)).find? fun x =>
    s.clocked (dieOf x.1) && p x.1 x.2

/-- The first crew. -/
def State.crewWith (s : State) (p : CrewId → Bool) : Option CrewId :=
  (s.crews.map fun x => (Fin.ofNat 128 x.1 : CrewId)).find? fun c => s.clocked (dieOfCrew c) && p c

/-- The first die. -/
def State.dieWith (s : State) (p : DieId → Bool) : Option DieId :=
  (s.dies.map fun x => (Fin.ofNat 4 x.1 : DieId)).find? fun d => s.clocked d && p d

/-- The first station of a die. -/
def State.stationWith (s : State) (p : DieId → Nat → Bool) : Option (DieId × Nat) :=
  (s.dies.flatMap fun x => (List.range 132).map fun k => ((Fin.ofNat 4 x.1 : DieId), k)).find? fun x =>
    s.clocked x.1 && p x.1 x.2

/-- The first home. -/
def State.homeWith (s : State) (p : Home → Bool) : Option HomeId :=
  (List.find? (fun h => s.clocked (Fin.ofNat 4 (h.1 / 2)) && p h.2) s.dev.homes).map fun h => Fin.ofNat 8 h.1

/-- The first open group. -/
def State.groupWith (s : State) (p : Program → Bool) : Option (Fin 4096) :=
  (List.find? (fun g => match g.2.prog with
    | some q => p q
    | none => false) s.fab.groups).map fun g => Fin.ofNat 4096 g.1

/-- The first launch, on dies whose clocks run. -/
def State.launchWith (s : State) (p : Launch → Bool) : Option (BitVec 32) :=
  if s.holding then none else (s.launches.find? fun l => l.dies.all s.clocked && p l).map Launch.id

/-! ## The start of a cycle -/

/-- R59: has the entry at the head of an engine everything that it waits for? -/
def State.headStarts (s : State) (t : TileId) (e : Eng) : Bool :=
  let x := s.tile t
  (x.eng e).going && x.live &&
    (match (x.eng e).cur? with
      | some n => n.st == .head && ((x.seeDeps e).eng e).depMet == 0b111
      | none => false)

/-- R59: is there an entry that reaches the head of an engine? -/
def State.headArrives (s : State) (t : TileId) (e : Eng) : Bool :=
  let x := s.tile t
  (x.eng e).going && x.live && !s.stopping t &&
    (match (x.eng e).cur? with
      | some n => n.st == .waiting
      | none => false)

/-- R124: would a command of Portage start now? (Log entry 39, DEDUCED.) -/
def State.cmdStarts (s : State) (t : TileId) : Bool :=
  !s.holding && (match execCommandStart t s with
    | .next s' => (s'.tile t).portage.buffer != (s.tile t).portage.buffer
    | _ => false)

/-- R330: does a tile take an event that enters its handler, or (`ends`) one that ends its iteration? -/
def State.takes (s : State) (ends : Bool) (t : TileId) : Bool :=
  match s.event? t with
  | some (.ends _) => ends
  | some _ => !ends
  | none => false

/-- R340: is the gang of a tile to be stopped, or saved, now? -/
def State.preemptsNow (s : State) (t : TileId) : Bool :=
  match s.gangOf t with
  | some (l, g) => s.stopsNow l g || s.savesNow l g
  | none => false

/-- What comes next at the start of a cycle: `sc` operations (R297), the ends of launches, expiries, the events of the
Coxes, pre-emption, leases, entries at their heads, tests, and the end of the hold-up. -/
def State.nextStart (s : State) : Option Instr :=
  (s.tileWith fun t => (s.tile t).scOps.any fun o => o.1 ≤ s.gtime).map .scPerform <|>
  (s.launchWith fun l => l.failure.isSome && !l.failed).map .launchFail <|>
  (s.launchWith fun l => l.overdue s.gtime).map .dbudgetExpiry <|>
  (s.launchWith fun l => l.ended && s.coversDone l && (l.failure.isSome || l.verdict.isSome || l.halves.isNone)).map
    .launchComplete <|>
  (s.launchWith fun l => l.halves.isSome && l.failure.isNone && l.verdict.isNone && (l.starved || (l.ended && s.coversDone l))).map
    .pairCompare <|>
  (s.tileWith fun t => (s.tile t).live && (s.tile t).budget == 0 && !(s.cox t).pend.deadline && !(s.cox t).stopped).map
    .iterationBudgetExpiry <|>
  (s.engWith fun t e => (((s.tile t).eng e).overdue?).isSome && ((s.tile t).eng e).expires e).map (fun x => .entryBudgetExpiry x.1 x.2) <|>
  (s.groupWith fun p => p.budget == 0).map .groupBudgetExpiry <|>
  (if s.fab.early.any fun p => p.2 + 2 ^ 24 ≤ s.gtime then some .earlyPacketTimeout else none) <|>
  (s.tileWith fun t => s.takes true t || s.endsNow t).map .iterationEnd <|>
  (s.tileWith (s.takes false)).map .trapEntry <|>
  (s.tileWith s.preemptsNow).map .preempt <|>
  (s.tileWith s.replayOver).map .replayEnd <|>
  (s.crewWith fun c => (s.grantee c).isSome).map .leaseGrant <|>
  (s.engWith s.headArrives).map (fun x => .entryHead x.1 x.2) <|>
  (s.engWith s.headStarts).map (fun x => .entryStart x.1 x.2) <|>
  (s.dieWith fun d => match (s.die d).test.queue, (s.die d).test.running with
    | c :: _, none => s.testable d c
    | _, _ => false).map .selftestStart

/-! ## What goes wrong (R353, R356, R358) -/

/-- R353: is there something at the place of a granule, so that it can go bad? -/
def State.holds (s : State) : Site → Bool
  | .queue t e => ((s.tile t).eng e).queue.any fun n => n.st == .waiting
  | .lead t p => !((s.tile t).port p).lead.isEmpty
  | .tlb 0 u e => (s.tile (Fin.ofNat 512 u)).tlb.contains e
  | .tlb 1 u e => (s.crew (Fin.ofNat 128 u)).tlb.contains e
  | .tlb _ u e => (s.die (Fin.ofNat 4 u)).tlb.contains e
  | .flit d k => (s.die d).slots.any fun f => f.1 == k
  | .mem tier _ => decide (tier < 3)
  | _ => true

/-- R356: an entry of a TLB that is beyond correction is never used again. -/
def State.discardTlb (s : State) : Site → State
  | .tlb 0 u e => s.modTile (Fin.ofNat 512 u) fun x => { x with tlb := x.tlb.filter fun y => y ≠ e }
  | .tlb 1 u e => s.modCrew (Fin.ofNat 128 u) fun x => { x with tlb := x.tlb.filter fun y => y ≠ e }
  | .tlb _ u e => s.modDie (Fin.ofNat 4 u) fun x => { x with tlb := x.tlb.filter fun y => y ≠ e }
  | _ => s

/-- R356, R159: a granule of the multicast window that is beyond correction is written at no member: contained for each. -/
def State.loseGranule (s : State) (g : McGranule) : State := g.members.foldl (fun s u =>
  if (s.tile u).delay.contains g then
    (s.modTile u fun x => { x with delay := x.delay.filter fun h => h ≠ g }).containTile u cMCSRAM none
  else s) s

/-- R353: a granule goes bad. -/
def State.spoil (s : State) (k : Site) (bit : Option Nat) : State :=
  if s.holds k = false then s
  else
    let s := s.modDev fun d => d.spoil k bit
    let worn := s.dev.flaws.any fun f => f.site == k && f.bit.isNone
    match k with
    | .flit d n =>
      match (s.die d).slots.find? n with
      | some ⟨_, _, _, _, _, _, .granule g⟩ => if worn then (s.modDev fun d => d.dropFlaws fun q => q == k).loseGranule g else s
      | _ => s
    | _ => if worn then s.discardTlb k else s

/-- R353, R358: something goes wrong: a granule, or a result of the Cox, whose region restarts as at a mismatch, or of a command of
Portage, for whose iteration it is contained. (Log entry 29, DEDUCED.) -/
def State.upset (s : State) : Upset → State
  | .granule k bit => s.spoil k bit
  | .cox t => if (s.tile t).live && s.clocked (dieOf t) && (s.cox t).fault.isNone then s.checkerMismatch t cMCPARITY none else s
  | .portage t id =>
    if s.clocked (dieOf t) && (s.tile t).portage.buffer.any (fun c => c.id == id && c.stage == .started) then
      (s.containTile t cMCPARITY none).modTile t fun x => x.cmdNack id 0 0 0 none
    else s

/-- R356: the entries of a Pitch table are read as their slots pass: a bad one is corrected, or fatal. -/
def State.checkPitch (s : State) : State :=
  if s.dev.flaws.isEmpty then s
  else
    let now (k : Site) : Bool := match k with
      | .pitch _ n => roundOf s.gtime (n % 132) == n / 132
      | _ => false
    (s.dev.flaws.filter fun f => now f.site).foldl (fun s f =>
      s.recordSite f.site (if f.bit.isSome then 1 else 3) cMCSRAM f.bit) (s.modDev fun d => d.dropFlaws now)

/-! ## The turns of a cycle -/

/-- May the Cox of a tile issue in this cycle (R161, R254, R284, R394)? -/
def State.coxReady (s : State) (t : TileId) : Bool :=
  let x := s.tile t
  let c := x.cox
  x.live && !c.stopped && !c.halted && !c.dbgHalted && c.fault.isNone && !c.closing && decide (c.nextIssue ≤ s.gtime) &&
    !c.bankWaits s.gtime && s.clocked (dieOf t)

/-- R61, R63: the word at PC issues; a PC that may not be fetched raises MISALIGN, a word that is none ILLOP. -/
def State.coxTurn (s : State) (t : TileId) : Act :=
  if s.coxReady t then
    let c := s.cox t
    let s := { s with cur := .cox t, tried := .cox t :: s.tried }
    if pcLegal c.pc = false then .next (s.coxFault t cMISALIGN 0 c.pc)
    else
      let m := s.goodRead t ((granules c.pc.toNat 12).map (.imem t))
      let s := m.1
      if m.2 = false then .next (s.modCox t fun c => { c with nextIssue := s.gtime + 1 })
      else
      match decodeBytes .cox (c.imem.read c.pc.toNat 12) with
      | .word i => .exec i s
      | .ill reason => .next (s.coxFault t cILLOP (BitVec.ofNat 64 reason) 0)
  else .next s

/-- R254: the Cox that is still to try its word in this cycle: a Cox waits only where the rule says so. -/
def State.untried (s : State) : Option TileId := s.tileWith fun t => s.coxReady t && !s.tried.contains (.cox t)

/-- R60, R63, R223: the next word of an engine issues; in a replay, the next retained command. -/
def State.engTurn (s : State) (t : TileId) (e : Eng) : Act :=
  if s.clocked (dieOf t) = false then .next s
  else if e = .m ∧ (s.tile t).m.replay.isSome then
    if ((s.tile t).eng .m).going then .next (s.replayNext t) else .next s
  else if s.engReady t e then
    match ((s.tile t).eng e).wordNow with
    | some bs =>
      match s.goodRead t (((s.tile t).eng e).wordSites t e) with
      | (s, false) => .next (s.modEng t e fun g => { g with stopped := true })
      | (s, true) =>
        match decodeBytes e.stream bs with
        | .word i => if e = .v then .port t i { s with cur := .eng t e } else .exec i { s with cur := .eng t e }
        | .ill reason => .next (s.engFault t e cILLOP reason)
    | none => .next s
  else .next s

/-- R66, R98: may the running context change: is no launch dispatched, no iteration allocated, and nothing on its way to
memory? -/
def State.contextFree (s : State) : Bool :=
  s.launches.all (fun l => l.dispatchedAt.isNone) &&
    s.tiles.all (fun x => x.2.iter.isNone && x.2.settled && x.2.portage.buffer.isEmpty) &&
    s.fab.groups.all (fun g => g.2.prog.isNone) &&
    s.dies.all fun d => d.2.slots.isEmpty && d.2.stations.all (fun q => q.2.isEmpty) && d.2.ingress.all fun q => q.2.isEmpty

/-- R239, R240: the next step of a group's program; the program itself is read first. -/
def State.cpTurn (s : State) (g : Fin 4096) : Act :=
  if ((s.group g.val).prog.bind Program.fetch).isSome then .next (s.loadProgram g.val)
  else if s.stepReady g.val then
    match (s.group g.val).prog with
    | some p =>
      match (p.steps[p.pc]?).bind fun w => decodeStep w.toNat with
      | some i => .exec i { s with cur := .cp g }
      | none => .next (s.groupFault g.val cILLOP p.pc)
    | none => .next s
  else .next s

/-- One turn of the agenda. (Log entry 4, DESIGN CHOICE.) -/
def State.turn (s : State) : Turn → Act
  | .cox t => s.coxTurn t
  | .eng t e => s.engTurn t e
  | .cp g => s.cpTurn g
  | .granule t id => if s.clocked (dieOf t) then .next (s.granule t id) else .next s
  | .event i => if isInput i && (eventDie s i).all s.clocked then .exec i s else .next s
  | .context n => if s.contextFree then .next (s.changeContext n) else .next s
  | .host w => .next (s.hostWrite w)
  | .hostMem a bs => .next (s.hostMemWrite a bs)
  | .upset u => .next (s.upset u)
  | .endCycle => .next s

/-! ## The end of a cycle -/

/-- What is due at the end of a cycle: an event, or a landing that is no row of the opcode table. -/
inductive Due where
  | event (i : Instr)
  | portage (t : TileId)
  | window (t : TileId)
  | serve (atomic : Bool) (d : DieId) (st : Nat)
deriving DecidableEq, Repr

/-- The first station of a tile at which a window request can be served. -/
def State.serveDue (s : State) (atomic : Bool) : Option Due :=
  (s.stationWith fun d k => decide (k < 128) && (s.windowReq atomic d k).isSome).map fun x => .serve atomic x.1 x.2

/-- R361: the patrol read that is due: in each cycle that of one channel, while its die runs. -/
def State.scrubs (s : State) : Option Instr :=
  let k := s.gtime % 4096
  let h : HomeId := channelHome (k / 64) (k % 64)
  if 768 ≤ k ∨ s.clocked (Fin.ofNat 4 (h.val / 2)) = false ∨ s.gtime < ((s.home h.val).scrub.get k (0, 0)).2 then none
  else some (.patrolScrubRead h (Fin.ofNat 3 (k / 64)) (Fin.ofNat 64 k) .good)

/-- What is due next at the end of a cycle: the starts of R124, which take in what the cycle has issued; flits and
requests on their way, a slot that is emptied among those that may be filled (R150; log entry 51, DESIGN CHOICE); the reads
of local loads, which are made before anything lands (R162); the writes of scratchpad in the order of R162, an atomic of a
member with the stores of its window; then registers, window reads, results, retirements, the clocks of homes and tests, and
the hold-up. -/
def State.nextDue (s : State) : Option Due :=
  ((s.tileWith s.cmdStarts).map fun t => .event (.commandStart t)) <|>
  ((s.launchWith fun l => l.failure.isSome && !l.failed).map fun l => .event (.launchFail l)) <|>
  ((s.tileWith fun t => (s.leavingOf t false).isSome || (s.cox t).compares s.gtime).map fun t => .event (.requestDepart t false)) <|>
  ((s.stationWith fun d k => (s.arriving d k).isSome).map fun x => .event (.flitArrive x.1 (Fin.ofNat 132 x.2))) <|>
  ((s.stationWith fun d k => !isBridge k && !((s.die d).stations.get k []).isEmpty && s.mayInject d k true).map fun x =>
    .event (.flitInject x.1 (Fin.ofNat 132 x.2))) <|>
  ((s.tileWith s.mcLeaves).map fun t => .event (.multicastDepart t)) <|>
  ((s.tileWith fun t => ((s.tile t).reply?).isSome).map fun t => .event (.rfElementArrive t)) <|>
  ((s.tileWith fun t => ((s.tile t).dueAt s.gtime 0).isSome).map fun t => .event (.coxWriteLand t)) <|>
  ((s.tileWith fun t => (s.tile t).flightLands).map .portage) <|>
  ((s.tileWith fun t => (s.tile t).windowLands).map .window) <|>
  s.serveDue true <|>
  ((s.tileWith fun t => ((s.tile t).dueAt s.gtime 1).isSome || ((s.tile t).dueAt s.gtime 2).isSome).map fun t =>
    .event (.coxWriteLand t)) <|>
  ((s.tileWith fun t => ((s.tile t).vLanding? s.gtime true).isSome).map fun t => .event (.portPushLand ⟨t, .good⟩)) <|>
  ((s.tileWith fun t => ((s.tile t).landing? s.gtime).isSome).map fun t => .event (.multicastLand t)) <|>
  ((s.tileWith fun t => ((s.tile t).due? s.gtime).isSome).map fun t => .event (.coxWriteLand t)) <|>
  s.serveDue false <|>
  ((s.tileWith fun t => ((s.tile t).vLanding? s.gtime false).isSome).map fun t => .event (.vWriteLand t .good)) <|>
  ((s.crewWith fun c => (s.landing? c).isSome).map fun c => .event (.mWritesLand c .good)) <|>
  ((s.tileWith fun t => (s.leavingOf t true).isSome).map fun t => .event (.requestDepart t false)) <|>
  ((s.tileWith s.batchReady).map fun t => .event (.batchRetire t)) <|>
  ((s.crewWith fun c => (s.crew c).cmds.any fun k => k.reading && decide (k.readEnd ≤ s.gtime)).map fun c =>
    .event (.lastReadCycleEnd c)) <|>
  ((s.crewWith s.turnOver).map fun c => .event (.leaseTurnEnd c)) <|>
  ((s.tiles.flatMap fun x => x.2.portage.buffer.map fun c => ((Fin.ofNat 512 x.1 : TileId), c)).find? fun x =>
    s.clocked (dieOf x.1) && x.2.stage == .retiring && (s.tile x.1).canPush x.2.stream x.2.push).map
      (fun x => .event (.commandRetire x.1 x.2.id)) <|>
  ((s.engWith fun t e => (((s.tile t).eng e).retiring?).isSome).map fun x => .event (.entryRetire x.1 x.2)) <|>
  ((s.engWith fun t e => ((s.tile t).eng e).fault.isSome && !((s.tile t).eng e).stopped && s.queueMayStop t e).map fun x =>
    .event (.queueStop x.1 x.2)) <|>
  ((s.groupWith fun p => p.notice.isSome && !p.busy).map fun g => .event (.errorNoticeArrival g)) <|>
  s.scrubs.map .event <|>
  ((s.homeWith fun h => h.moves.any fun m => m.copied s.gtime).map fun h => .event (.rowUnitCopyDone h)) <|>
  ((s.homeWith fun h => h.moves.any fun m => m.past s.gtime).map fun h => .event (.rowRemap h)) <|>
  ((s.dieWith fun d => ((s.die d).test.past s.gtime).isSome).map fun d => .event (.selftestEnd d true)) <|>
  (if s.sys.hold = some .handler ∧ s.sys.holdP + 4095 ≤ s.gtime then some (.event .handlerDeadline) else none) <|>
  (if (s.sys.hold = some .handler ∨ s.sys.hold = some .drain) ∧ (s.drained ∨ s.sys.holdP + 16384 ≤ s.gtime)
    then some (.event .drainEnd) else none)

/-- A due event, with the outcome that the head of the agenda gives it. -/
def State.runDue (s : State) (i : Instr) : Act :=
  match s.agenda with
  | .event j :: rest => if sameEvent i j then .exec j { s with agenda := rest } else .exec i s
  | _ => .exec i s

/-- R254, R273, R237: a cycle counts against the budgets of iterations, of entries at their heads, and of programs. -/
def State.countDown (s : State) : State :=
  let tile (k : Nat) (x : Tile) : Tile :=
    if x.live && s.clocked (dieOf (Fin.ofNat 512 k)) then
      { x with budget := x.budget - 1, engines := x.engines.map fun g =>
          { g with queue := g.queue.map fun n => if n.st = .waiting then n else { n with budget := n.budget - 1 } } }
    else x
  { s with
    tiles := s.tiles.map fun x => (x.1, tile x.1 x.2),
    fab := { s.fab with groups := s.fab.groups.map fun g =>
        (g.1, { g.2 with prog := g.2.prog.map fun p => { p with budget := p.budget - 1 } }) } }

/-- The next cycle begins: GTIME rises by one (R5), leases are chosen (R209) and announcements go on (R324); machine-check events reach their banks (R366); at a refresh
window of the weight stores (R90) that comes first. (Log entry 44, DESIGN CHOICE.) -/
def State.nextCycle (s : State) : State :=
  let s := (s.crews.map Prod.fst).foldl (fun s c => s.chooseNext (Fin.ofNat 128 c)) s
  let s := (s.dies.map Prod.fst).foldl (fun s d => if s.clocked (Fin.ofNat 4 d) then s.announce (Fin.ofNat 4 d) else s) s
  let s := ({ s with tiles := s.tiles.map fun (x : Nat × Tile) => (x.1, x.2.nextLines) }).checkPitch.applyEvents
  { s.countDown.flushWhenIdle with
    tried := [], gtime := s.gtime + 1, phase := if (s.gtime + 1) % 512 = 0 then .ticking 5 else .ticking 0 }

/-! ## A step -/

/-- R254: the words of a cycle come to their end, in state `t`, once every Cox that may issue has tried its word. -/
def State.endRunning (s t : State) : Act :=
  match s.untried with
  | some u => s.coxTurn u
  | none => .next { t with phase := .ending }

/-- R375: after W nothing is delivered, issues or lands: the time of the write goes by, and the host may write registers
that are no source. -/
def State.writing (s : State) : Act :=
  match s.phase with
  | .running =>
    match s.agenda with
    | [] | .endCycle :: _ => .next { s with phase := .ending, agenda := s.agenda.tail }
    | .event i :: rest =>
      if isInput i && isHarmless i then .exec i { s with agenda := rest } else .next { s with agenda := rest }
    | .host w :: rest => .next ({ s with agenda := rest }.hostWrite w)
    | .hostMem a bs :: rest => .next ({ s with agenda := rest }.hostMemWrite a bs)
    | _ :: rest => .next { s with agenda := rest }
  | .ending => .next { s.applyEvents with tried := [], gtime := s.gtime + 1, phase := .starting }
  | _ => if s.sys.holdEnd ≤ s.gtime then .exec .coldReset s else .next { s with phase := .running }

/-- R372: the loss of the supply with which the agenda begins, taken at the start of cycle P before anything else. -/
def State.cut? (s : State) : Option (Instr × List Turn) := match s.agenda with
  | .event i :: rest => if cutsSupply i then some (i, rest) else none
  | _ => none

/-- What the next step does. (Log entry 4, DESIGN CHOICE.) (Log entry 44, DESIGN CHOICE.) (Log entry 45, DEDUCED.) -/
def State.act (s : State) : Act :=
  if s.sys.frozen then
    match s.agenda with
    | .event .coldReset :: rest => .exec .coldReset { s with agenda := rest }
    | _ => .stop .frozen
  else if s.sys.hold = some .write then s.writing
  else
    match s.phase with
    | .ticking 0 => .exec .mcLeakTick s
    | .ticking k =>
      if k ≤ 4 then .exec (.selftestPeriod (Fin.ofNat 4 (k - 1))) s
      else
        let s' := { s with phase := if k < 8 then .ticking (k + 1) else .ticking 0 }
        if s.clocked (Fin.ofNat 4 (k - 5)) then .exec (.wsRefreshWindow (Fin.ofNat 4 (k - 5)) (Fin.ofNat 16 (s.gtime / 512))) s'
        else .next s'
    | .starting =>
      match s.cut? with
      | some (i, rest) => .exec i { s with agenda := rest }
      | none =>
        match s.nextStart with
        | some i => .exec i s
        | none => .next { s with phase := .running }
    | .running =>
      match s.agenda with
      | [] => s.endRunning s
      | .event i :: rest => if isLate i || cutsSupply i then s.endRunning s else { s with agenda := rest }.turn (.event i)
      | .endCycle :: rest => s.endRunning { s with agenda := rest }
      | t :: rest => { s with agenda := rest }.turn t
    | .ending =>
      match s.nextDue with
      | some (.event i) => s.runDue i
      | some (.portage t) => .next (s.landPortage t)
      | some (.window t) => .next (s.landWindow t)
      | some (.serve a d st) => .next (s.serveWindow a d st)
      | none =>
        match s.agenda with
        | .event (.launchDispatch d) :: rest => .exec (.launchDispatch d) { s with agenda := rest }
        | .event i :: rest => if isLate i then .next { s with agenda := rest } else .next s.nextCycle
        | _ => .next s.nextCycle

/-! ## A given instruction as the next one (log entry 22, DESIGN CHOICE) -/

/-- Tile 0 with a Cox that issues the word `bs` next. (Log entry 22, DESIGN CHOICE.) -/
def Tile.withCoxWord (x : Tile) (now : Nat) (bs : List Byte) : Tile :=
  let c := x.cox
  let pc := if pcLegal c.pc then c.pc else 0
  { x with
    iter := some (x.iter.getD 0),
    cox := { c with pc := pc, imem := c.imem.write pc.toNat bs, stopped := false, halted := false, dbgHalted := false,
                    fault := none, closing := false, nextIssue := min c.nextIssue now,
                    flight := c.flight.map fun l => { l with due := max l.due now } } }

/-- Tile 0 with an engine that issues the word `bs` next: section 0, of that word alone, in an entry that is expanded. -/
def Tile.withEngWord (x : Tile) (now : Nat) (e : Eng) (bs : List Byte) : Tile :=
  { x with iter := some (x.iter.getD 0), used := [] }.modEng e fun g =>
    { g with
      store := g.store.write 0 (toBytes 8 (0xA001000FFFFFFFFF) ++ bs), dir := g.dir.set 0 0,
      queue := [{ seq := g.pushed + 1, sec := 0, budget0 := 1000, budget := 1000, a := 0, b := 0, st := .running,
                  pendingWords := 0, retired := [], again := [] }], pushed := g.pushed + 1, index := 0, branch := none,
      fault := none, stopped := false, nextIssue := min g.nextIssue now }

/-- Group 0 with a program of one step. -/
def Group.withStep (g : Group) (w : Word) : Group :=
  { g with
    st := .opened,
    prog := some { cp := 0, base := 0, limit := 0, budget := 1000, fmts := Vector.replicate 4 0, count := 2, rank := 0,
                   rm := .rne, donesig := none, steps := [w], ranks := [(0, 0), (1, 0)], pc := 0, loops := [], ovf := false,
                   blkovf := false, blkunf := false, notice := none, fetch := none, sentTo := [], taken := [], asked := [], got := [],
                   seen := none, unacked := 0, refused := none, busy := false, opened := 0 } }

end Sys2Proof.Machine
end

