-- ==== Sys2Proof/Machine/Dispatch.lean ====
section
/-! DEFINITION. The meaning of every instruction: one arm per constructor, each a direct call. -/

namespace Sys2Proof.Machine

open Sys2Proof

/-- What an instruction does in a state: a word acts for the unit that `cur` names, an event for the units it names. -/
def exec (i : Instr) (s : State) : Host.Outcome State Fault Refusal :=
  match i with
  -- cox integer words (R264, R265)
  | .add o => Sys2Proof.Machine.execAdd o s
  | .sub o => Sys2Proof.Machine.execSub o s
  | .mul o => Sys2Proof.Machine.execMul o s
  | .mulh o => Sys2Proof.Machine.execMulh o s
  | .mulhn o => Sys2Proof.Machine.execMulhn o s
  | .div o => Sys2Proof.Machine.execDiv o s
  | .divn o => Sys2Proof.Machine.execDivn o s
  | .rem o => Sys2Proof.Machine.execRem o s
  | .remn o => Sys2Proof.Machine.execRemn o s
  | .and o => Sys2Proof.Machine.execAnd o s
  | .or o => Sys2Proof.Machine.execOr o s
  | .xor o => Sys2Proof.Machine.execXor o s
  | .andn o => Sys2Proof.Machine.execAndn o s
  | .shl o => Sys2Proof.Machine.execShl o s
  | .shr o => Sys2Proof.Machine.execShr o s
  | .sra o => Sys2Proof.Machine.execSra o s
  | .rot o => Sys2Proof.Machine.execRot o s
  | .clz o => Sys2Proof.Machine.execClz o s
  | .ctz o => Sys2Proof.Machine.execCtz o s
  | .popc o => Sys2Proof.Machine.execPopc o s
  | .min o => Sys2Proof.Machine.execMin o s
  | .max o => Sys2Proof.Machine.execMax o s
  | .minn o => Sys2Proof.Machine.execMinn o s
  | .maxn o => Sys2Proof.Machine.execMaxn o s
  | .sext o => Sys2Proof.Machine.execSext o s
  | .zext o => Sys2Proof.Machine.execZext o s
  | .li g d imm => Sys2Proof.Machine.execLi g d imm s
  | .lih o => Sys2Proof.Machine.execLih o s
  | .sel o => Sys2Proof.Machine.execSel o s
  -- compare and predicates (R266 to R268)
  | .cmp o => Sys2Proof.Machine.execCmp o s
  | .plog o => Sys2Proof.Machine.execPlog o s
  | .pmovPP g d a => Sys2Proof.Machine.execPmovPP g d a s
  | .pmovPX g d a => Sys2Proof.Machine.execPmovPX g d a s
  | .pmovXP g d a => Sys2Proof.Machine.execPmovXP g d a s
  | .pmovXPall g d => Sys2Proof.Machine.execPmovXPall g d s
  | .pmovPallX g a => Sys2Proof.Machine.execPmovPallX g a s
  -- scratchpad loads and stores (R269, R270)
  | .ld o d => Sys2Proof.Machine.execLd o d s
  | .ldFifo o => Sys2Proof.Machine.execLdFifo o s
  | .st o b => Sys2Proof.Machine.execSt o b s
  | .stAtomic g a off signed op b => Sys2Proof.Machine.execStAtomic g a off signed op b s
  | .stCas g a off signed b c => Sys2Proof.Machine.execStCas g a off signed b c s
  -- role space (R74)
  | .ldi o => Sys2Proof.Machine.execLdi o s
  | .ldiTouch o toP => Sys2Proof.Machine.execLdiTouch o toP s
  | .lds g a seg => Sys2Proof.Machine.execLds g a seg s
  | .ldsTouch g a seg toP => Sys2Proof.Machine.execLdsTouch g a seg toP s
  | .sts g a b seg => Sys2Proof.Machine.execSts g a b seg s
  | .close g a seg => Sys2Proof.Machine.execClose g a seg s
  | .adda g a b c ty => Sys2Proof.Machine.execAdda g a b c ty s
  -- Signal words and FENCE (R288, R298)
  | .sld o => Sys2Proof.Machine.execSld o s
  | .sst o b => Sys2Proof.Machine.execSst o b s
  | .satom o ty op b => Sys2Proof.Machine.execSatom o ty op b s
  | .fence sc => Sys2Proof.Machine.execFence sc s
  -- control flow (R271)
  | .br g imm => Sys2Proof.Machine.execBr g imm s
  | .brl g d imm => Sys2Proof.Machine.execBrl g d imm s
  | .jr g a => Sys2Proof.Machine.execJr g a s
  | .ret g a => Sys2Proof.Machine.execRet g a s
  | .bct g a imm => Sys2Proof.Machine.execBct g a imm s
  | .region g => Sys2Proof.Machine.execRegion g s
  -- queues (R273 to R275)
  | .exec o => Sys2Proof.Machine.execExec o s
  | .waitq g e a => Sys2Proof.Machine.execWaitq g e a s
  | .waitb g a => Sys2Proof.Machine.execWaitb g a s
  | .qstat g d e => Sys2Proof.Machine.execQstat g d e s
  -- matrix resources (R277)
  | .mlease g n tb => Sys2Proof.Machine.execMlease g n tb s
  | .mfree g => Sys2Proof.Machine.execMfree g s
  | .acalloc g d a => Sys2Proof.Machine.execAcalloc g d a s
  | .acown g a b => Sys2Proof.Machine.execAcown g a b s
  | .acfree g a => Sys2Proof.Machine.execAcfree g a s
  | .osclaim g d a => Sys2Proof.Machine.execOsclaim g d a s
  | .osrel g a => Sys2Proof.Machine.execOsrel g a s
  -- extents (R74)
  | .extnew g a acap => Sys2Proof.Machine.execExtnew g a acap s
  | .recast o => Sys2Proof.Machine.execRecast o s
  | .extq g a seg field => Sys2Proof.Machine.execExtq g a seg field s
  | .extfree g a => Sys2Proof.Machine.execExtfree g a s
  -- launches (R319, R322, R323)
  | .launch g pd xd a b csig => Sys2Proof.Machine.execLaunch g pd xd a b csig s
  | .launchw g xd a b csig => Sys2Proof.Machine.execLaunchw g xd a b csig s
  | .join g d a => Sys2Proof.Machine.execJoin g d a s
  | .done g => Sys2Proof.Machine.execDone g s
  -- system (R280, R283, R284, R374, R376, R384, R232, R235)
  | .trap g imm => Sys2Proof.Machine.execTrap g imm s
  | .rft g => Sys2Proof.Machine.execRft g s
  | .csrr g d csr => Sys2Proof.Machine.execCsrr g d csr s
  | .csrw g csr a => Sys2Proof.Machine.execCsrw g csr a s
  | .nop g => Sys2Proof.Machine.execNop g s
  | .halt g => Sys2Proof.Machine.execHalt g s
  | .waitcyc g a => Sys2Proof.Machine.execWaitcyc g a s
  | .waitcycUntil g a => Sys2Proof.Machine.execWaitcycUntil g a s
  | .msdecl g d a => Sys2Proof.Machine.execMsdecl g d a s
  | .pfack g => Sys2Proof.Machine.execPfack g s
  | .pfrestore g d a b => Sys2Proof.Machine.execPfrestore g d a b s
  | .grpopen g a => Sys2Proof.Machine.execGrpopen g a s
  | .grpfree g a => Sys2Proof.Machine.execGrpfree g a s
  -- V words (R185 to R205)
  | .vadd o => Sys2Proof.Machine.execVadd o s
  | .vsub o => Sys2Proof.Machine.execVsub o s
  | .vmul o => Sys2Proof.Machine.execVmul o s
  | .vfma o => Sys2Proof.Machine.execVfma o s
  | .vfms o => Sys2Proof.Machine.execVfms o s
  | .vnfma o => Sys2Proof.Machine.execVnfma o s
  | .vmin o => Sys2Proof.Machine.execVmin o s
  | .vmax o => Sys2Proof.Machine.execVmax o s
  | .vabs o => Sys2Proof.Machine.execVabs o s
  | .vneg o => Sys2Proof.Machine.execVneg o s
  | .vdiv o => Sys2Proof.Machine.execVdiv o s
  | .vsqrt o => Sys2Proof.Machine.execVsqrt o s
  | .vexp2 o => Sys2Proof.Machine.execVexp2 o s
  | .vlog2 o => Sys2Proof.Machine.execVlog2 o s
  | .vrcp o => Sys2Proof.Machine.execVrcp o s
  | .vrsq o => Sys2Proof.Machine.execVrsq o s
  | .viadd o => Sys2Proof.Machine.execViadd o s
  | .visub o => Sys2Proof.Machine.execVisub o s
  | .vimul o => Sys2Proof.Machine.execVimul o s
  | .vand o => Sys2Proof.Machine.execVand o s
  | .vor o => Sys2Proof.Machine.execVor o s
  | .vxor o => Sys2Proof.Machine.execVxor o s
  | .vshl o => Sys2Proof.Machine.execVshl o s
  | .vshr o => Sys2Proof.Machine.execVshr o s
  | .vsra o => Sys2Proof.Machine.execVsra o s
  | .vimin o => Sys2Proof.Machine.execVimin o s
  | .vimax o => Sys2Proof.Machine.execVimax o s
  | .vcmp o => Sys2Proof.Machine.execVcmp o s
  | .vsel h d a b c => Sys2Proof.Machine.execVsel h d a b c s
  | .vplog h d a b op => Sys2Proof.Machine.execVplog h d a b op s
  | .vcvt o => Sys2Proof.Machine.execVcvt o s
  | .vqblk h d a rm fmt => Sys2Proof.Machine.execVqblk h d a rm fmt s
  | .vdqblk h d a rm fmt => Sys2Proof.Machine.execVdqblk h d a rm fmt s
  | .vred o => Sys2Proof.Machine.execVred o s
  | .vscan o => Sys2Proof.Machine.execVscan o s
  | .vperm h d a b => Sys2Proof.Machine.execVperm h d a b s
  | .vbcst h d a n => Sys2Proof.Machine.execVbcst h d a n s
  | .vslide h d a b n => Sys2Proof.Machine.execVslide h d a b n s
  | .vldi h d base step => Sys2Proof.Machine.execVldi h d base step s
  | .vmov h d a => Sys2Proof.Machine.execVmov h d a s
  | .vmovK h d a => Sys2Proof.Machine.execVmovK h d a s
  | .vmovToCsr h csr a => Sys2Proof.Machine.execVmovToCsr h csr a s
  | .vmovFromCsr h d csr => Sys2Proof.Machine.execVmovFromCsr h d csr s
  | .vmovMaskToV h d a => Sys2Proof.Machine.execVmovMaskToV h d a s
  | .vmovVToMask h d a => Sys2Proof.Machine.execVmovVToMask h d a s
  | .vpset o a => Sys2Proof.Machine.execVpset o a s
  | .vprst o => Sys2Proof.Machine.execVprst o s
  | .vpsync o => Sys2Proof.Machine.execVpsync o s
  | .vacrd h d sel drain => Sys2Proof.Machine.execVacrd h d sel drain s
  | .vacwr h a sel add => Sys2Proof.Machine.execVacwr h a sel add s
  | .vtwin h d a b c kind => Sys2Proof.Machine.execVtwin h d a b c kind s
  | .vtcw h d a => Sys2Proof.Machine.execVtcw h d a s
  | .vloop tok target => Sys2Proof.Machine.execVloop tok target s
  | .vbr h all target => Sys2Proof.Machine.execVbr h all target s
  | .vend tok => Sys2Proof.Machine.execVend tok s
  | .vnop tok => Sys2Proof.Machine.execVnop tok s
  -- L and S commands (R128)
  | .cnop tok timed => Sys2Proof.Machine.execCnop tok timed s
  | .cpy o => Sys2Proof.Machine.execCpy o s
  | .cpyt o d => Sys2Proof.Machine.execCpyt o d s
  | .cpyr o => Sys2Proof.Machine.execCpyr o s
  | .cfill o => Sys2Proof.Machine.execCfill o s
  | .cgath o => Sys2Proof.Machine.execCgath o s
  | .cscat o => Sys2Proof.Machine.execCscat o s
  | .csg o => Sys2Proof.Machine.execCsg o s
  | .cseal o => Sys2Proof.Machine.execCseal o s
  | .copld o fin => Sys2Proof.Machine.execCopld o fin s
  | .covl o => Sys2Proof.Machine.execCovl o s
  | .cwtx o => Sys2Proof.Machine.execCwtx o s
  | .ctce o => Sys2Proof.Machine.execCtce o s
  | .csig o => Sys2Proof.Machine.execCsig o s
  | .cwaitSignal o => Sys2Proof.Machine.execCwaitSignal o s
  | .cwaitTime tok t => Sys2Proof.Machine.execCwaitTime tok t s
  | .cprb o => Sys2Proof.Machine.execCprb o s
  | .cend tok => Sys2Proof.Machine.execCend tok s
  -- M commands (R217)
  | .msetrow tok lo hi => Sys2Proof.Machine.execMsetrow tok lo hi s
  | .msetrowPart tok q b => Sys2Proof.Machine.execMsetrowPart tok q b s
  | .msetcol tok lo hi => Sys2Proof.Machine.execMsetcol tok lo hi s
  | .msetcolPart tok q b => Sys2Proof.Machine.execMsetcolPart tok q b s
  | .mfmt tok opb fmt => Sys2Proof.Machine.execMfmt tok opb fmt s
  | .mscale tok sa sb => Sys2Proof.Machine.execMscale tok sa sb s
  | .mma o => Sys2Proof.Machine.execMma o s
  | .mmaz o => Sys2Proof.Machine.execMmaz o s
  | .mmat o => Sys2Proof.Machine.execMmat o s
  | .mtcw o => Sys2Proof.Machine.execMtcw o s
  | .mcommit tok => Sys2Proof.Machine.execMcommit tok s
  | .macz tok bank => Sys2Proof.Machine.execMacz tok bank s
  | .mtile tok bank count1 => Sys2Proof.Machine.execMtile tok bank count1 s
  | .mend tok => Sys2Proof.Machine.execMend tok s
  -- step words (R240)
  | .send o f2 => Sys2Proof.Machine.execSend o f2 s
  | .recv o => Sys2Proof.Machine.execRecv o s
  | .copy f1 f2 nel1 doff off => Sys2Proof.Machine.execCopy f1 f2 nel1 doff off s
  | .rrs o f2 f3 snd => Sys2Proof.Machine.execRrs o f2 f3 snd s
  | .waitSignalStep sc word val => Sys2Proof.Machine.execWaitSignalStep sc word val s
  | .waitTimeStep val => Sys2Proof.Machine.execWaitTimeStep val s
  | .waitAfterT0Step val => Sys2Proof.Machine.execWaitAfterT0Step val s
  | .loop str cnt1 => Sys2Proof.Machine.execLoop str cnt1 s
  -- events of the groups (R237)
  | .groupBudgetExpiry g => Sys2Proof.Machine.execGroupBudgetExpiry g s
  | .errorNoticeArrival g => Sys2Proof.Machine.execErrorNoticeArrival g s
  -- events of the engine queues (R56, R59, R60, R254)
  | .entryHead t e => Sys2Proof.Machine.execEntryHead t e s
  | .entryStart t e => Sys2Proof.Machine.execEntryStart t e s
  | .entryRetire t e => Sys2Proof.Machine.execEntryRetire t e s
  | .entryBudgetExpiry t e => Sys2Proof.Machine.execEntryBudgetExpiry t e s
  | .iterationBudgetExpiry t => Sys2Proof.Machine.execIterationBudgetExpiry t s
  -- Portage and the TCE (R124, R121, R90)
  | .commandStart t => Sys2Proof.Machine.execCommandStart t s
  | .commandRetire t id => Sys2Proof.Machine.execCommandRetire t id s
  | .tceBlockDone d => Sys2Proof.Machine.execTceBlockDone d s
  | .wsRefreshWindow d g => Sys2Proof.Machine.execWsRefreshWindow d g s
  -- the Course (R152, R153, R158, R159)
  | .flitInject d st => Sys2Proof.Machine.execFlitInject d st s
  | .flitArrive d st => Sys2Proof.Machine.execFlitArrive d st s
  | .multicastDepart t => Sys2Proof.Machine.execMulticastDepart t s
  | .multicastLand t => Sys2Proof.Machine.execMulticastLand t s
  -- the Eight (R209, R214, R221, R223)
  | .leaseTurnEnd c => Sys2Proof.Machine.execLeaseTurnEnd c s
  | .leaseGrant c => Sys2Proof.Machine.execLeaseGrant c s
  | .mWritesLand c chk => Sys2Proof.Machine.execMWritesLand c chk s
  | .batchRetire t => Sys2Proof.Machine.execBatchRetire t s
  | .replayEnd t => Sys2Proof.Machine.execReplayEnd t s
  -- landings and requests of a tile (R169, R182, R252, R255, R261)
  | .portPushLand l => Sys2Proof.Machine.execPortPushLand l s
  | .vWriteLand t chk => Sys2Proof.Machine.execVWriteLand t chk s
  | .coxWriteLand t => Sys2Proof.Machine.execCoxWriteLand t s
  | .rfElementArrive t => Sys2Proof.Machine.execRfElementArrive t s
  | .requestDepart t mismatch => Sys2Proof.Machine.execRequestDepart t mismatch s
  -- homes (R402, R297, R81)
  | .homeAccessDone h chk => Sys2Proof.Machine.execHomeAccessDone h chk s
  | .scPerform t => Sys2Proof.Machine.execScPerform t s
  | .recastArrival h => Sys2Proof.Machine.execRecastArrival h s
  -- the scheduler (R307 to R326, R390)
  | .rtailWrite d q v => Sys2Proof.Machine.execRtailWrite d q v s
  | .launchDispatch d => Sys2Proof.Machine.execLaunchDispatch d s
  | .dbudgetExpiry id => Sys2Proof.Machine.execDbudgetExpiry id s
  | .gangPlace id => Sys2Proof.Machine.execGangPlace id s
  | .pointAllocate id => Sys2Proof.Machine.execPointAllocate id s
  | .launchComplete id => Sys2Proof.Machine.execLaunchComplete id s
  | .launchFail id => Sys2Proof.Machine.execLaunchFail id s
  -- traps and pre-emption (R330, R332, R336, R338 to R341, R392, R394)
  | .trapEntry t => Sys2Proof.Machine.execTrapEntry t s
  | .iterationEnd t => Sys2Proof.Machine.execIterationEnd t s
  | .queueStop t e => Sys2Proof.Machine.execQueueStop t e s
  | .tintWrite t v => Sys2Proof.Machine.execTintWrite t v s
  | .preempt t => Sys2Proof.Machine.execPreempt t s
  | .preemptResume t => Sys2Proof.Machine.execPreemptResume t s
  | .tdbgResume t => Sys2Proof.Machine.execTdbgResume t s
  -- reliability (R360 to R369)
  | .rowUnitCopyDone h => Sys2Proof.Machine.execRowUnitCopyDone h s
  | .rowRemap h => Sys2Proof.Machine.execRowRemap h s
  | .selftestPeriod d => Sys2Proof.Machine.execSelftestPeriod d s
  | .selftestStart d => Sys2Proof.Machine.execSelftestStart d s
  | .selftestEnd d pass => Sys2Proof.Machine.execSelftestEnd d pass s
  | .patrolScrubRead h stack ch chk => Sys2Proof.Machine.execPatrolScrubRead h stack ch chk s
  | .pairCompare id => Sys2Proof.Machine.execPairCompare id s
  | .lastReadCycleEnd c => Sys2Proof.Machine.execLastReadCycleEnd c s
  -- the register window (R151, R250, R287, R389, R392, R393)
  | .preqRequest d k => Sys2Proof.Machine.execPreqRequest d k s
  | .preqWithdraw d => Sys2Proof.Machine.execPreqWithdraw d s
  | .pitchWrite d k v => Sys2Proof.Machine.execPitchWrite d k v s
  | .peerTableWrite k ctl src qmask => Sys2Proof.Machine.execPeerTableWrite k ctl src qmask s
  | .signalWindowWrite w v => Sys2Proof.Machine.execSignalWindowWrite w v s
  | .imgaddrWrite v => Sys2Proof.Machine.execImgaddrWrite v s
  | .ctxflushWrite v => Sys2Proof.Machine.execCtxflushWrite v s
  | .regWrite r v => Sys2Proof.Machine.execRegWrite r v s
  -- constructor with fields beyond the 244th: the fabric, rings and pools, conversion (R81, R227 to R248, R309, R390)
  | .packetArrive p => Sys2Proof.Machine.execPacketArrive p s
  | .ackArrive pkg seq val => Sys2Proof.Machine.execAckArrive pkg seq val s
  | .resendTimeout pkg seq => Sys2Proof.Machine.execResendTimeout pkg seq s
  | .flagDepart pkg => Sys2Proof.Machine.execFlagDepart pkg s
  | .ringFetch d q => Sys2Proof.Machine.execRingFetch d q s
  | .poolEntry d => Sys2Proof.Machine.execPoolEntry d s
  | .qctlFrozenClear d q => Sys2Proof.Machine.execQctlFrozenClear d q s
  | .recastFlip e => Sys2Proof.Machine.execRecastFlip e s
  -- links, reliability, boot, keys and temperature (R361 to R367, R394 to R398); hold-up, reset and the ends of programs
  | .linkCrcRetry port => Sys2Proof.Machine.execLinkCrcRetry port s
  | .mcstValClear d b => Sys2Proof.Machine.execMcstValClear d b s
  | .stctlReq d c => Sys2Proof.Machine.execStctlReq d c s
  | .boot good pkg fw => Sys2Proof.Machine.execBoot good pkg fw s
  | .tokenWaitEnd t e => Sys2Proof.Machine.execTokenWaitEnd t e s
  | .keyLoad slot key => Sys2Proof.Machine.execKeyLoad slot key s
  | .thermalLimit d celsius => Sys2Proof.Machine.execThermalLimit d celsius s
  | .mcLeakTick => Sys2Proof.Machine.execMcLeakTick s
  | .earlyPacketTimeout => Sys2Proof.Machine.execEarlyPacketTimeout s
  | .gtimeBoundLoss => Sys2Proof.Machine.execGtimeBoundLoss s
  | .bhstatSetvClear => Sys2Proof.Machine.execBhstatSetvClear s
  | .supplyLoss => Sys2Proof.Machine.execSupplyLoss s
  | .handlerDeadline => Sys2Proof.Machine.execHandlerDeadline s
  | .drainEnd => Sys2Proof.Machine.execDrainEnd s
  | .coldReset => Sys2Proof.Machine.execColdReset s
  | .freeze => Sys2Proof.Machine.execFreeze s
  | .endl => Sys2Proof.Machine.execEndl s
  | .stepDone => Sys2Proof.Machine.execStepDone s

end Sys2Proof.Machine
end

