-- ==== Sys2Proof/Machine/Step.lean ====
section
/-! DEFINITION. One step of the module: what `State.act` says comes next, run. -/

namespace Sys2Proof.Machine

open Sys2Proof

/-- One step. -/
def step (s : State) : Host.Outcome State Fault Refusal :=
  match s.act with
  | .exec i s' => exec i s'
  | .port t i s' => s'.portedOut t (exec i s')
  | .next s' => .next s'
  | .stop f => .fault f

/-- `s` with an instruction as the one that the next step runs (log entry 22, DESIGN CHOICE): a step word in a program of group 0; a
Cox word in IMEM of tile 0 at its PC; an engine word alone in section 0 of its command store. Bits 103 to 96 of a word of
12 bytes name its stream: 1 L, 2 V, 3 M, 4 S, else the Cox. -/
def State.withFetchWord (s : State) (nbits w : Nat) : State :=
  let turn (s : State) (t : Turn) : State := { s with phase := .running, agenda := t :: s.agenda }
  if nbits = 64 then turn (s.modGroup 0 fun g => g.withStep (BitVec.ofNat 64 w)) (.cp 0)
  else
    let bs := toBytes 12 w
    match bitsOf w 96 8 with
    | 1 => turn (s.modTile 0 fun x => x.withEngWord s.gtime .l bs) (.eng 0 .l)
    | 2 => turn (s.modTile 0 fun x => x.withEngWord s.gtime .v bs) (.eng 0 .v)
    | 3 => turn (s.modTile 0 fun x => x.withEngWord s.gtime .m bs) (.eng 0 .m)
    | 4 => turn (s.modTile 0 fun x => x.withEngWord s.gtime .s bs) (.eng 0 .s)
    | _ => turn (s.modTile 0 fun x => x.withCoxWord s.gtime bs) (.cox 0)

end Sys2Proof.Machine
end

