-- ==== Sys2Proof/Safety.lean ====
section
/-! DEFINITION. What claims speak of: runs and invariants; the conditions under which a word of each stream runs, in
terms of the state alone; and what is left unchanged. -/

namespace Sys2Proof

open Sys2Proof.Machine

/-! ## Runs and invariants -/

/-- A run of `n` steps from `s` that stops at no fault and no refusal, and where it leads. -/
def Reaches (s t : State) (n : Nat) : Prop := core.run n s = .next t

/-- An invariant: every step that answers a next state keeps it. -/
def Kept (inv : State → Prop) : Prop := ∀ s t, inv s → step s = .next t → inv t

/-! ## Cox words (R50 to R55, R252, R255) -/

/-- R52, R255: the guard and the sources of a Cox word, in field order. -/
def Instr.coxHead : Instr → Option (CGuard × List COp)
  | .add o | .sub o | .mul o | .mulh o | .mulhn o | .div o | .divn o | .rem o | .remn o | .and o | .or o | .xor o
  | .andn o | .shl o | .shr o | .sra o | .rot o | .min o | .max o | .minn o | .maxn o => some (o.g, [o.a.op, o.b.op])
  | .clz o | .ctz o | .popc o => some (o.g, [o.a.op])
  | .sext o | .zext o => some (o.g, [o.a.op])
  | .li g _ _ => some (g, [])
  | .lih o => some (o.g, [o.a.op])
  | .sel o => some (o.g, [o.a.op, o.b.op, .p o.c])
  | .cmp o => some (o.g, [o.a.op, o.b.op])
  | .plog o => some (o.g, [.p o.a, .p o.b])
  | .pmovPP g _ a | .pmovXP g _ a => some (g, [.p a])
  | .pmovPX g _ a => some (g, [a.op])
  | .pmovXPall g _ => some (g, [])
  | .pmovPallX g a => some (g, [.x a])
  | .ld o _ | .ldFifo o | .ldi o | .ldiTouch o _ => some (o.g, [.x o.a])
  | .st o b => some (o.g, [.x o.a, b.op])
  | .stAtomic g a _ _ _ b => some (g, [.x a, b.op])
  | .stCas g a _ _ b c => some (g, [.x a, b.op, .x c])
  | .lds g a _ | .ldsTouch g a _ _ | .close g a _ => some (g, [.x a])
  | .sts g a b _ => some (g, [.x a, .x b])
  | .adda g a b c _ => some (g, [.x a, .x b, .x c])
  | .sld o => some (o.g, [.x o.a])
  | .sst o b => some (o.g, [.x o.a, b.op])
  | .satom o _ op b => some (o.g, .x o.a :: satomSrcs b op)
  | .fence _ => some (⟨0, false⟩, [])
  | .pfack g => some (g, [])
  | .br g _ | .brl g _ _ => some (g, [])
  | .jr g a | .ret g a | .bct g a _ => some (g, [.x a])
  | .region g => some (g, [])
  | .exec o => some (o.g, [.x o.a, .x o.b, budgetOp o.budget])
  | .waitq g _ a | .waitb g a => some (g, [a.op])
  | .qstat g _ _ => some (g, [])
  | .mlease g _ _ | .mfree g => some (g, [])
  | .acalloc g _ a | .acfree g a | .osclaim g _ a | .osrel g a => some (g, [a.op])
  | .acown g a b => some (g, [a.op, b.op])
  | .extnew g a _ | .extq g a _ _ | .extfree g a => some (g, [.x a])
  | .recast o => some (o.g, [.x o.a, .x o.b, .x o.c])
  | .launch g _ _ a b _ | .launchw g _ a b _ => some (g, [.x a, .x b])
  | .join g _ a => some (g, [a.op])
  | .done g | .trap g _ | .rft g | .csrr g _ _ => some (g, [])
  | .csrw g csr a => some (g, [match a with
      | some x => x.op
      | none => .imm (csr.setWidth 64)])
  | .nop g | .halt g => some (g, [])
  | .waitcyc g a | .waitcycUntil g a => some (g, [a.op])
  | .msdecl g _ a => some (g, [.x a])
  | .pfrestore g _ a b => some (g, [.x a, .x b])
  | .grpopen g a | .grpfree g a => some (g, [.x a])
  | _ => none

/-- R258: the words that close their region. -/
def Instr.closesRegion : Instr → Bool
  | .region _ | .exec _ | .stAtomic .. | .stCas .. | .acalloc .. | .acown .. | .acfree .. | .osclaim .. | .osrel ..
  | .trap .. | .lds .. | .ldsTouch .. | .sts .. | .close .. | .adda .. | .recast _ | .extnew .. | .extfree .. | .sst ..
  | .satom .. | .launch .. | .launchw .. | .grpopen .. | .grpfree .. => true
  | .csrr _ _ n => n == 0x031
  | _ => false

/-- Cox words whose only results are a register, a predicate or a CSR, or a place in the program (R252, R264 to R268, R271,
R274, R275, R280, R284, R322): they reach no memory and ask for nothing outside the Cox. -/
def Instr.coxOnly : Instr → Bool
  | .add _ | .sub _ | .mul _ | .mulh _ | .mulhn _ | .div _ | .divn _ | .rem _ | .remn _ | .and _ | .or _ | .xor _ | .andn _
  | .shl _ | .shr _ | .sra _ | .rot _ | .min _ | .max _ | .minn _ | .maxn _ | .clz _ | .ctz _ | .popc _ | .sext _ | .zext _
  | .li .. | .lih _ | .sel _ | .cmp _ | .plog _ | .pmovPP .. | .pmovXP .. | .pmovPX .. | .pmovXPall .. | .pmovPallX ..
  | .br .. | .brl .. | .jr .. | .ret .. | .bct .. | .waitq .. | .waitb .. | .qstat .. | .join .. | .csrw .. | .nop _
  | .waitcyc .. | .waitcycUntil .. => true
  | _ => false

/-- R272: the branch words. -/
def Instr.isBranch : Instr → Bool
  | .br .. | .brl .. | .jr .. | .ret .. | .bct .. => true
  | _ => false

/-- A Cox word with guard `g` and sources `srcs` runs at tile `t`: it is at work, its guard may be read and is true
(R55), its register sources may be read (R252), and every element that it pops has arrived (R255). -/
structure CoxRuns (s : State) (t : TileId) (g : CGuard) (srcs : List COp) : Prop where
  atWork : s.cur = .cox t
  guardReadable : (s.cox t).guardValid g = true
  guardTrue : (s.cox t).guardOn g = true
  readable : ∀ o ∈ srcs, (s.cox t).opValid o = true
  arrived : (s.cox t).popReady (popCount srcs) = some true

/-- The value of source `i` (R52, R53). -/
def coxValue (s : State) (t : TileId) (srcs : List COp) (i : Nat) : Word :=
  ((s.cox t).values srcs ((s.cox t).popped (popCount srcs))).getD i 0

/-- The state in which the word has popped its elements and issued (R61, R254, R255, R272). -/
def coxIssued (s : State) (t : TileId) (srcs : List COp) : State :=
  s.modCox t fun c => c.step s.gtime (popCount srcs)

/-- The same for a word that closes its region (R258). -/
def coxClosing (s : State) (t : TileId) (srcs : List COp) : State :=
  (coxIssued s t srcs).modCox t fun c => { c with closing := true }

/-- What lands at the end of cycle `gtime + l` (R252). -/
def coxSends (s : State) (t : TileId) (l : Nat) (w : CoxWrite) : State := s.modCox t fun c => c.send (s.gtime + l) w

/-- A request of the word at PC `pc` that leaves at the end of cycle `gtime + 6` (R261). -/
def coxAsks (s : State) (t : TileId) (slot closing : Bool) (pc : Word) (act : ReqAct) : State :=
  s.modTile t fun x => x.request s.gtime slot closing pc act

/-- R255: the same with a place for its element in the response FIFO. -/
def coxAsksElement (s : State) (t : TileId) (repeatable closing : Bool) (pc : Word) (act : ReqAct) : State :=
  coxAsks (s.modCox t fun c => c.placeSlot repeatable) t true closing pc act

/-! ## Granules (R353, R356) -/

/-- R353: none of these granules carries wrong bits. -/
def GranulesGood (s : State) (l : List Site) : Prop := ∀ f ∈ s.dev.flaws, f.site ∉ l

/-! ## Conditions -/

/-- The truth of *a* cc *b* (R266). -/
def condTruth (cc : Cond) (a b : Word) : Prop :=
  match cc with
  | .eq => a = b
  | .ne => a ≠ b
  | .lt => a.toInt < b.toInt
  | .le => a.toInt ≤ b.toInt
  | .gt => b.toInt < a.toInt
  | .ge => b.toInt ≤ a.toInt
  | .ltn => a.toNat < b.toNat
  | .len => a.toNat ≤ b.toNat
  | .gtn => b.toNat < a.toNat
  | .gen => b.toNat ≤ a.toNat

/-- The operations of R190 on single bits. -/
def logTruth (op : LogOp) (p q : Prop) : Prop :=
  match op with
  | .and => p ∧ q
  | .or => p ∨ q
  | .xor => ¬(p ↔ q)
  | .andn => p ∧ ¬q
  | .orn => p ∨ ¬q
  | .xnor => p ↔ q

/-! ## Words of the engines (R60, R183, R206, R214, R124) -/

/-- R183, R206: a V word with a guard runs at tile `t`: its token is there, its guard may be read, its register sources too
where a lane is enabled, and no position that it pops holds a fault. -/
structure VRuns (s : State) (t : TileId) (h : VHead) (srcs : List VIn) : Prop where
  atWork : s.cur = .eng t .v
  token : (s.tile t).canPop .v h.tok.pop = true
  guardReadable : (s.tile t).v.inValid (.k h.g.k) = true
  readable : (s.tile t).v.guard h.g ≠ 0 → ∀ o ∈ srcs, (s.tile t).v.inValid o = true
  popped : ∀ p ∈ popsOf srcs [], (s.tile t).popFault p.1 p.2 = none

/-- The lanes that a V word enables (R55). -/
def vMask (s : State) (t : TileId) (h : VHead) : Lane := (s.tile t).v.guard h.g

/-- Lane `l` of source `i` (R52, R171, R179). -/
def vLane (s : State) (t : TileId) (srcs : List VIn) (i : Nat) (l : Fin 32) : Lane :=
  (((s.tile t).vValues srcs []).getD i (allLanes 0))[l]

/-- The word's destination takes lanes, `lat` cycles on. -/
def vWrites (s : State) (t : TileId) (h : VHead) (srcs : List VIn) (d : VOut) (lat : Nat) (code : Byte)
    (f : Fin 32 → Lane) : State :=
  s.vTo t h.tok srcs d (vMask s t h) lat code (Vector.ofFn f)

/-- R55, R183: the guard and the sources of a V word that has a guard. -/
def Instr.vHead : Instr → Option (VHead × List VIn)
  | .vadd o | .vsub o | .vmul o | .vmin o | .vmax o | .vdiv o => some (o.h, [o.a.vin, o.b.vin])
  | .vfma o | .vfms o | .vnfma o => some (o.h, [o.a.vin, o.b.vin, o.c.vin])
  | .vabs o | .vneg o | .vsqrt o | .vexp2 o | .vlog2 o | .vrcp o | .vrsq o => some (o.h, [o.a.vin])
  | .viadd o | .visub o | .vimul o | .vimin o | .vimax o => some (o.h, [o.a.vin, o.b.vin])
  | .vand o | .vor o | .vxor o | .vshl o | .vshr o | .vsra o => some (o.h, [o.a.vin, o.b.vin])
  | .vcmp o => some (o.h, [o.a.vin, o.b.vin])
  | .vsel h _ a b c => some (h, [a.vin, b.vin, .k c])
  | .vplog h _ a b _ => some (h, [.k a, .k b])
  | .vcvt o => some (o.h, [o.a.vin])
  | .vqblk h _ a _ _ | .vbcst h _ a _ => some (h, [a.vin])
  | .vdqblk h _ a _ _ | .vmov h _ a | .vmovVToMask h _ a | .vtcw h _ a => some (h, [a.vin])
  | .vred o | .vscan o => some (o.h, [o.a.vin])
  | .vperm h _ a b | .vslide h _ a b _ => some (h, [a.vin, b.vin])
  | .vldi h _ _ _ | .vmovFromCsr h _ _ => some (h, [])
  | .vmovK h _ a | .vmovMaskToV h _ a => some (h, [.k a])
  | .vmovToCsr h _ a | .vacrd h _ a _ => some (h, [a.vin])
  | .vacwr h a b _ => some (h, [a.vin, b.vin])
  | .vtwin h _ a b c _ => some (h, [a.vin, b.vin, c.vin])
  | _ => none

/-- An M word runs at tile `t`: the tile holds the lease, no replay is under way, the read phase of the Eight is free, and its
token is there (R208, R210, R214, R223). -/
structure MRuns (s : State) (t : TileId) (tok : Tok) : Prop where
  atWork : s.cur = .eng t .m
  held : (s.tile t).m.lstate = .held
  noReplay : (s.tile t).m.replay = none
  free : (s.crew (crewOf t)).busyUntil ≤ s.gtime
  token : (s.tile t).canPop .m tok.pop = true

/-- A word of an L or S stream issues at tile `t` (R124, R145, R56), one that has not issued before in this entry (R146). -/
structure CmdRuns (s : State) (t : TileId) (e : Eng) (tok : Tok) : Prop where
  atWork : s.cur = .eng t e
  stream : e = .l ∨ e = .s
  buffered : ((s.tile t).portage.buffer.filter fun c => c.stage = .buffered ∨ c.stage = .stopped).length < 64
  noWait : ∀ c ∈ (s.tile t).portage.buffer, c.stream = e → isCwait c.instr = false
  token : (s.tile t).canPop e tok.pop = true
  unissued : ∀ n, ((s.tile t).eng e).cur? = some n →
    ((s.tile t).eng e).index ∉ n.retired ∧ ∀ a ∈ n.again, a.1 ≠ ((s.tile t).eng e).index
  fresh : ∀ c ∈ (s.tile t).portage.buffer, c.stream = e → c.seq = ((s.tile t).eng e).curSeq →
    c.index ≠ ((s.tile t).eng e).index

/-- A step of group `g` runs with program `p`: it has been read, no notice has come before the step, the writes of the step
before have landed, and no step of another group of its processor is under way (R230, R237, R239, R246; log entry 30, DESIGN CHOICE). -/
structure StepRuns (s : State) (g : Fin 4096) (p : Program) : Prop where
  atWork : s.cur = .cp g
  program : (s.group g.val).prog = some p
  opened : (s.group g.val).st = .opened
  noNotice : p.notice = none ∨ p.busy = true
  budget : p.budget ≠ 0
  wasRead : p.fetch = none
  landed : p.unacked = 0
  alone : ∀ k ∈ s.fab.groups, k.1 ≠ g.val → ∀ q, k.2.prog = some q → q.cp = p.cp → q.busy = false

/-! ## What stays -/

/-- Nothing outside tile `u` differs. -/
structure OnlyTile (s t : State) (u : TileId) : Prop where
  rest : t = { s with tiles := t.tiles }
  others : ∀ v, v ≠ u → t.tile v = s.tile v

/-- Nothing outside the Cox of tile `u` differs. -/
structure OnlyCox (s t : State) (u : TileId) : Prop extends OnlyTile s t u where
  tile : t.tile u = { s.tile u with cox := t.cox u }

/-- R252, R254: a Cox whose registers, predicates, valid bits, CSRs and regions are as they were: only its place in the
program, its response FIFO, its results in flight, what the checker has still to reach and a pending precise fault differ. -/
def CoxKeeps (c d : Cox) : Prop :=
  d = { c with pc := d.pc, branch := d.branch, rf := d.rf, flight := d.flight, checks := d.checks, nextIssue := d.nextIssue,
               nextReq := d.nextReq, fault := d.fault }

/-! ## Extents as a word may reach them (R68, R69, R76 to R79, R84, R97) -/

/-- R97: byte `va` is on a page that may be read (bit 1 of its PTE) or written (bit 2), under a key slot that holds a key. -/
structure PageAllows (s : State) (t : TileId) (va bit : Nat) (p : Page) : Prop where
  page : s.pageFor t va = some p
  allowed : p.pte.getLsbD bit = true
  key : (s.sys.keys.find? (pteKey p.pte)).isSome = true

/-- R84: extent `id` is there, and no collective keeps the tile's accesses to it waiting. -/
structure ExtentRests (s : State) (t : TileId) (id : Nat) (e : Extent) : Prop where
  extent : s.extent? id = some e
  noConvert : ∀ c, e.coll = some c → c.convert = false
  notArrived : e.coll = none ∨ id ∉ (s.tile t).arrived

/-- R76: `LDI` may read `w` bytes at `va`: aligned, of an extent outside the weight store, all their elements in I segments. -/
def LdiAllowed (s : State) (t : TileId) (va w : Nat) : Prop := w ∣ va ∧ ∃ p e, PageAllows s t va 1 p ∧
  ExtentRests s t (pteExt p.pte) e ∧ e.tier ≠ 2 ∧
  ∀ i k g, (e.elemsAt (va - e.base)).1 ≤ i → i ≤ (e.elemsAt (va + w - 1 - e.base)).2 → e.segOf i = some (k, g) →
    ((s.seg? t (pteExt p.pte) k).getD g).st = .i

/-- R74, R77, R78: segment `k` of the extent that `id` names, reached at its cursor by `LDS` or `STS`. -/
structure AtCursor (s : State) (t : TileId) (id k i bit : Nat) (e : Extent) (g : Segment) : Prop where
  named : id < 65536
  rests : ExtentRests s t id e
  segment : s.seg? t id k = some g
  page : ∃ p, PageAllows s t (e.addr (min i (e.count - 1))) bit p ∧ pteExt p.pte = id

/-- R77: `LDS` may read the next element: of a stream that holds one, which no other tile reads. -/
def LdsAllowed (s : State) (t : TileId) (id k : Nat) : Prop := ∃ e g, AtCursor s t id k g.rcur 1 e g ∧
  coxFormat e.fmt = true ∧ e.tier ≠ 2 ∧ (g.st = .sOpen ∨ g.st = .sClosed) ∧ g.rcur ≠ g.wcur ∧
  (g.reader = none ∨ g.reader = some t)

/-- R78: `STS` may append: to an open stream that is not full, which no other tile writes. -/
def StsAllowed (s : State) (t : TileId) (id k : Nat) : Prop := ∃ e g, AtCursor s t id k g.wcur 2 e g ∧
  coxFormat e.fmt = true ∧ e.tier ≠ 2 ∧ g.st = .sOpen ∧ g.wcur ≠ g.stop ∧ (g.writer = none ∨ g.writer = some t)

/-- R78: `CLOSE` may close: an open stream, which no other tile writes. -/
def CloseAllowed (s : State) (t : TileId) (id k : Nat) : Prop := ∃ e g, AtCursor s t id k g.wcur 2 e g ∧
  g.st = .sOpen ∧ (g.writer = none ∨ g.writer = some t)

/-- R305, R320: the 256 bytes of a launch record at `va` may be read: aligned, of an extent outside the weight store, all
their elements in one I segment. -/
def RecordAllowed (s : State) (t : TileId) (va : Nat) : Prop := 256 ∣ va ∧ ∃ p e k, PageAllows s t va 1 p ∧
  ExtentRests s t (pteExt p.pte) e ∧ e.tier ≠ 2 ∧
  let lo := (e.elemsAt (va - e.base)).1
  let hi := (e.elemsAt (va + 255 - e.base)).2
  (e.segOf lo).map Prod.fst = some k ∧ (e.segOf hi).map Prod.fst = some k ∧
  ∀ i j g, lo ≤ i → i ≤ hi → e.segOf i = some (j, g) → ((s.seg? t (pteExt p.pte) j).getD g).st = .i

/-- R79: `ADDA` may add to cell `i`: an element of an A segment. -/
def AddaAllowed (s : State) (t : TileId) (id i : Nat) : Prop := id < 65536 ∧ ∃ e p k g, ExtentRests s t id e ∧
  i < e.count ∧ PageAllows s t (e.addr i) 2 p ∧ pteExt p.pte = id ∧ e.segOf i = some (k, g) ∧ g.st = .a

/-! ## Records that a word reads from scratchpad (R233, R376) -/

/-- R376, R377: every field of a region descriptor keeps its limit. -/
def DescAllowed (l : List Byte) : Prop :=
  let d := (descOf l).2
  let a := d.a.toNat
  let b := d.b.toNat
  (descOf l).1 < 16 ∧ d.cls ≤ 1 ∧ (d.cls = 1 → d.prio = 0) ∧ recNat l 24 8 = 0 ∧
  (d.kind = 0 ∧ a = 0 ∧ b = 0 ∨ d.kind = 1 ∧ 64 ∣ a ∧ 64 ∣ b ∧ 64 ≤ b ∧ a + b ≤ 2 ^ 20 ∨
    d.kind = 2 ∧ 1 ≤ a ∧ a ≤ 7 ∧ b = 0 ∨ d.kind = 3 ∧ a = 0 ∧ b = 0 ∨ d.kind = 4 ∧ a < 65536 ∧ b = 0 ∨
    d.kind = 5 ∧ a < 131072 ∧ 1 ≤ b ∧ b ≤ 4096 ∧ a + b ≤ 131072)

/-- R376, R163: the descriptor at local address `a`, the Cox's earlier stores landed, when it lies in good granules of scratchpad
and keeps its limits. -/
def DescAt (s : State) (t : TileId) (a : Word) (l : List Byte) : Prop :=
  32 ∣ a.toNat ∧ a.toNat + 32 ≤ 2 ^ 20 ∧ GranulesGood s (spSites t a.toNat 32) ∧ ((s.tile t).spNow s.gtime).read a.toNat 32 = l ∧ DescAllowed l

/-- R233: every field of a group record keeps its limit. -/
def GroupRecAllowed (r : GroupRec) : Prop :=
  8 ∣ r.prog ∧ 2 ∣ r.rtab ∧ 32 ∣ r.base ∧ 32 ∣ r.limit ∧ 32 ≤ r.limit ∧ r.base + r.limit ≤ 2 ^ 20 ∧ 1 ≤ r.budget ∧
  r.rsv = 0 ∧ r.rsv2 = 0 ∧ (∀ i : Fin 4, fmtWf r.fmts[i] = true ∧ fmtKind r.fmts[i] ≤ 7) ∧ 1 ≤ r.count ∧ r.count ≤ 256 ∧
  r.rank < r.count ∧ 1 ≤ r.nstep ∧ r.nstep ≤ 4095 ∧ donesigOk r.donesig = true ∧ r.cp ≤ 31 ∧ r.rm ≤ 5

/-! ## The end of an iteration (R323) -/

/-- R323, R208, R212, R213, R238, R318: what `DONE` waits for at tile `t` has come: every queue is empty, no batch is left, no
crew word is on its way, no claimed slot is being filled or read, no owned bank is at work, no group is open or has lines on
their way, and the writes of the iteration are visible at the scope of level NLEV. -/
structure DoneAllowed (s : State) (t : TileId) : Prop where
  queues : ∀ e, (s.tile t).queued e = 0
  batches : (s.tile t).m.batches = [] ∧ (s.tile t).m.replay = none
  slots : ∀ n, let x := (s.crew (crewOf t)).slot n
    x.st = .free ∨ x.st = .kept ∨ x.claimer ≠ Machine.laneOf t ∨ x.started = 0 ∧ x.readers = 0
  banks : ∀ n, let x := (s.crew (crewOf t)).bank n
    x.st = .free ∨ x.st = .idle ∨ x.owners.getLsbD (Machine.laneOf t).val = false
  crew : ∀ r ∈ (s.tile t).reqs, ∀ a, r.act ≠ .crew a
  groups : ∀ g ∈ s.fab.groups, g.2.owner = t → g.2.st = .free ∨ g.2.st = .ended ∧ s.cpQuiet g.1 = true
  release : s.released t (s.cox t).nextReq (s.doneScope t) = true

/-! ## Traps (R328 to R333) -/

/-- The trap that an event enters its handler with, and the PC that TPC takes. -/
def trapOf (c : Cox) : Taken → Option (Trap × Word)
  | .precise e pc => some (e, pc)
  | .pfail => some (⟨cPFAIL, 5, 0, 0⟩, c.pc)
  | .engine e f => some (⟨f.code, e.src, f.info, f.addr⟩, c.pc)
  | .hostint => some (⟨cHOSTINT, 5, c.tint, 0⟩, c.pc)
  | .ends _ => none

/-- R332, R325: the iteration of tile `t` is over, with `code`: nothing of it is left to issue or to leave the tile, where only
requests of earlier iterations stay, which their `DONE` words cover (R318), the groups that it owned are free, and its launch has failed with that cause unless it had one. -/
structure IterationEnded (s u : State) (t : TileId) (code : Byte) : Prop where
  gone : (u.tile t).iter = none
  requests : (u.tile t).reqs = (s.tile t).covered ∧ (u.tile t).replies = [] ∧ (u.tile t).ending = none
  queues : ∀ e, ((u.tile t).eng e).queue = []
  cox : (u.cox t).rf = [] ∧ (u.cox t).closing = false ∧ (u.cox t).fault = none ∧ (u.cox t).pend = Pending.reset
  groups : ∀ g ∈ u.fab.groups, g.2.owner = t → g.2.st = .free
  launch : ∀ p l, (s.tile t).place = some p → s.launch? p.launch = some l →
    ∃ m, u.launch? p.launch = some m ∧ m.failure = some (l.failure.getD (code, t.val))

/-- R332, step 1: the iteration of tile `t` has ended with `code`; L and S still finish what they have begun. -/
structure IterationEnding (s u : State) (t : TileId) (code : Byte) : Prop where
  ending : (u.tile t).ending = some code
  requests : (u.tile t).reqs = (s.tile t).covered ∧ (u.tile t).replies = []
  queues : ((u.tile t).eng .v).queue = [] ∧ ((u.tile t).eng .m).queue = [] ∧
    ∀ e, e = .l ∨ e = .s → ∀ n ∈ ((u.tile t).eng e).queue, n.st ≠ .waiting
  cox : (u.cox t).stopped = true ∧ (u.cox t).rf = [] ∧ (u.cox t).closing = false ∧ (u.cox t).fault = none

/-- L and S of a tile have begun no entry that is left, and no command of theirs is. -/
structure StreamsIdle (s : State) (t : TileId) : Prop where
  entries : ∀ e, e = .l ∨ e = .s → ∀ n ∈ ((s.tile t).eng e).queue, n.st = .waiting
  commands : (s.tile t).portage.buffer = []

/-- R332: the iteration ends with `code`, at once where L and S have nothing to finish. -/
def EndsIteration (s u : State) (t : TileId) (code : Byte) : Prop :=
  (StreamsIdle s t → IterationEnded s u t code) ∧ (¬StreamsIdle s t → IterationEnding s u t code)

/-! ## Memories -/

/-- Every byte memory of the machine is in its canonical form (Machine/Map.lean). -/
def MemoriesOk (s : State) : Prop :=
  s.dev.hbm.wf = true ∧ s.dev.tier2.wf = true ∧ s.dev.ws.wf = true ∧ s.sys.boathouse.wf = true ∧ s.sys.hostMem.wf = true

end Sys2Proof
end

