-- ==== Sys2Proof/Certificates/Slice0/Obligations.lean ====
section
/-! DEFINITION. The statements for the provers. -/

open Sys2Proof Sys2Proof.Machine

/-! ## Cox words: integers and predicates (12_cox.md) -/

/-- R264, R253: what the two-source integer words write, each with its latency. R264: the integer words of one source,
`LIH` and `SEL`. -/
def Obligations.IntegerWords : Prop :=
  (∀ (s : State) (t : TileId) (o : Alu3),
  CoxRuns s t o.g [o.a.op, o.b.op] →
  let a := coxValue s t [o.a.op, o.b.op] 0
  let b := coxValue s t [o.a.op, o.b.op] 1
  let n := b.toNat % 64
  let writes (l : Nat) (v : Word) : Out := .next (coxSends (coxIssued s t [o.a.op, o.b.op]) t l (.x o.d v))
  exec (.add o) s = writes 1 (BitVec.ofNat 64 (a.toNat + b.toNat)) ∧
  exec (.sub o) s = writes 1 (BitVec.ofInt 64 (a.toInt - b.toInt)) ∧
  exec (.mul o) s = writes 3 (BitVec.ofNat 64 (a.toNat * b.toNat)) ∧
  exec (.mulh o) s = writes 3 (BitVec.ofInt 64 (a.toInt * b.toInt / 2 ^ 64)) ∧
  exec (.mulhn o) s = writes 3 (BitVec.ofNat 64 (a.toNat * b.toNat / 2 ^ 64)) ∧
  exec (.and o) s = writes 1 (a &&& b) ∧
  exec (.or o) s = writes 1 (a ||| b) ∧
  exec (.xor o) s = writes 1 (a ^^^ b) ∧
  exec (.andn o) s = writes 1 (a &&& ~~~b) ∧
  exec (.shl o) s = writes 1 (BitVec.ofNat 64 (a.toNat * 2 ^ n)) ∧
  exec (.shr o) s = writes 1 (BitVec.ofNat 64 (a.toNat / 2 ^ n)) ∧
  exec (.sra o) s = writes 1 (BitVec.ofInt 64 (a.toInt / 2 ^ n)) ∧
  exec (.rot o) s = writes 1 (a <<< n ||| a >>> (64 - n)) ∧
  exec (.min o) s = writes 1 (if a.toInt ≤ b.toInt then a else b) ∧
  exec (.max o) s = writes 1 (if a.toInt ≤ b.toInt then b else a) ∧
  exec (.minn o) s = writes 1 (if a.toNat ≤ b.toNat then a else b) ∧
  exec (.maxn o) s = writes 1 (if a.toNat ≤ b.toNat then b else a)) ∧
  (∀ (s : State) (t : TileId) (g : CGuard) (d : Fin 64),
  (∀ a : Src, CoxRuns s t g [a.op] →
    let v := coxValue s t [a.op] 0
    let writes (r : Word) : Out := .next (coxSends (coxIssued s t [a.op]) t 1 (.x d r))
    (∃ n, exec (.clz ⟨g, d, a⟩) s = writes (BitVec.ofNat 64 n) ∧ n ≤ 64 ∧
      (∀ i, 64 - n ≤ i → v.getLsbD i = false) ∧ (n < 64 → v.getLsbD (63 - n) = true)) ∧
    (∃ n, exec (.ctz ⟨g, d, a⟩) s = writes (BitVec.ofNat 64 n) ∧ n ≤ 64 ∧
      (∀ i, i < n → v.getLsbD i = false) ∧ (n < 64 → v.getLsbD n = true)) ∧
    exec (.popc ⟨g, d, a⟩) s = writes (BitVec.ofNat 64 ((List.range 64).countP fun i => v.getLsbD i)) ∧
    exec (.sext ⟨g, d, a, .b1⟩) s = writes ((v.setWidth 8).signExtend 64) ∧
    exec (.sext ⟨g, d, a, .b2⟩) s = writes ((v.setWidth 16).signExtend 64) ∧
    exec (.sext ⟨g, d, a, .b4⟩) s = writes ((v.setWidth 32).signExtend 64) ∧
    exec (.zext ⟨g, d, a, .b1⟩) s = writes ((v.setWidth 8).setWidth 64) ∧
    exec (.zext ⟨g, d, a, .b2⟩) s = writes ((v.setWidth 16).setWidth 64) ∧
    exec (.zext ⟨g, d, a, .b4⟩) s = writes ((v.setWidth 32).setWidth 64)) ∧
  (∀ i : BitVec 32, CoxRuns s t g [] →
    exec (.li g d i) s = .next (coxSends (coxIssued s t []) t 1 (.x d (BitVec.ofInt 64 i.toInt)))) ∧
  (∀ (a : XRf) (i : BitVec 32), CoxRuns s t g [a.op] →
    exec (.lih ⟨g, d, a, i⟩) s = .next (coxSends (coxIssued s t [a.op]) t 1
      (.x d (BitVec.ofNat 64 (i.toNat * 2 ^ 32 + (coxValue s t [a.op] 0).toNat % 2 ^ 32))))) ∧
  (∀ (a b : Src) (c : Fin 16), CoxRuns s t g [a.op, b.op, .p c] →
    let v := coxValue s t [a.op, b.op, .p c]
    exec (.sel ⟨g, d, a, b, c⟩) s = .next (coxSends (coxIssued s t [a.op, b.op, .p c]) t 1
      (.x d (if (s.cox t).pValid c = true ∧ (s.cox t).readP c = true then v 0 else v 1)))))

/-- R264, R265, R253: quotients truncate toward zero, remainders have the sign of the dividend, and the corners of
R265. -/
def Obligations.DivisionWords : Prop := ∀ (s : State) (t : TileId) (o : Alu3),
  CoxRuns s t o.g [o.a.op, o.b.op] →
  let a := coxValue s t [o.a.op, o.b.op] 0
  let b := coxValue s t [o.a.op, o.b.op] 1
  let writes (v : Word) : Out := .next (coxSends (coxIssued s t [o.a.op, o.b.op]) t 20 (.x o.d v))
  (b = 0 → exec (.div o) s = writes (BitVec.allOnes 64) ∧ exec (.divn o) s = writes (BitVec.allOnes 64) ∧
    exec (.rem o) s = writes a ∧ exec (.remn o) s = writes a) ∧
  (a.toInt = -2 ^ 63 → b.toInt = -1 → exec (.div o) s = writes (BitVec.ofInt 64 (-2 ^ 63)) ∧ exec (.rem o) s = writes 0) ∧
  (b ≠ 0 → exec (.div o) s = writes (BitVec.ofInt 64 (a.toInt.tdiv b.toInt)) ∧
    exec (.divn o) s = writes (BitVec.ofNat 64 (a.toNat / b.toNat)) ∧
    exec (.rem o) s = writes (BitVec.ofInt 64 (a.toInt.tmod b.toInt)) ∧
    exec (.remn o) s = writes (BitVec.ofNat 64 (a.toNat % b.toNat)))

/-- R266, R267, R268: `CMP`, `PLOG` and the five forms of `PMOV`. -/
def Obligations.PredicateWords : Prop := ∀ (s : State) (t : TileId) (g : CGuard),
  let holds (p : Fin 16) : Prop := (s.cox t).pValid p = true ∧ (s.cox t).readP p = true
  (∀ (d : Fin 16) (cc : Cond) (a b : Src), CoxRuns s t g [a.op, b.op] →
    let v := coxValue s t [a.op, b.op]
    ∃ r, exec (.cmp ⟨g, d, cc, a, b⟩) s = .next (coxSends (coxIssued s t [a.op, b.op]) t 1 (.p d r)) ∧
      (r = true ↔ condTruth cc (v 0) (v 1))) ∧
  (∀ (d a b : Fin 16) (op : LogOp), CoxRuns s t g [.p a, .p b] →
    ∃ r, exec (.plog ⟨g, d, a, b, op⟩) s = .next (coxSends (coxIssued s t [.p a, .p b]) t 1 (.p d r)) ∧
      (r = true ↔ logTruth op (holds a) (holds b))) ∧
  (∀ d a : Fin 16, CoxRuns s t g [.p a] →
    ∃ r, exec (.pmovPP g d a) s = .next (coxSends (coxIssued s t [.p a]) t 1 (.p d r)) ∧ (r = true ↔ holds a)) ∧
  (∀ (d : Fin 16) (a : Src), CoxRuns s t g [a.op] →
    ∃ r, exec (.pmovPX g d a) s = .next (coxSends (coxIssued s t [a.op]) t 1 (.p d r)) ∧
      (r = true ↔ coxValue s t [a.op] 0 ≠ 0)) ∧
  (∀ (d : Fin 64) (a : Fin 16), CoxRuns s t g [.p a] →
    ∃ v : Word, exec (.pmovXP g d a) s = .next (coxSends (coxIssued s t [.p a]) t 1 (.x d v)) ∧
      (holds a → v = 1) ∧ (¬holds a → v = 0)) ∧
  (∀ d : Fin 64, CoxRuns s t g [] →
    ∃ v : Word, exec (.pmovXPall g d) s = .next (coxSends (coxIssued s t []) t 1 (.x d v)) ∧
      (∀ p : Fin 16, (v.getLsbD p.val = true ↔ holds p) ∧ v.getLsbD (16 + p.val) = (s.cox t).pValid p) ∧
      ∀ i, 32 ≤ i → v.getLsbD i = false) ∧
  (∀ a : Fin 64, CoxRuns s t g [.x a] →
    ∃ v k : BitVec 16, exec (.pmovPallX g a) s = .next (coxSends (coxIssued s t [.x a]) t 1 (.pall v k)) ∧
      ∀ p : Fin 16, v.getLsbD p.val = (coxValue s t [.x a] 0).getLsbD p.val ∧
        k.getLsbD p.val = (coxValue s t [.x a] 0).getLsbD (16 + p.val))

/-- R283, R333: `TRAP` retires and then traps with its number; `RFT` outside a handler raises PROT, with ACT = 1 ends
the iteration, and otherwise resumes at TREGION, the head of a new region, and resumes the queue whose fault was
handled. R284, R254: `NOP`, `HALT` and both forms of `WAITCYC`; the time of `until` is that of R125. -/
def Obligations.SystemWords : Prop :=
  (∀ (s : State) (t : TileId) (g : CGuard),
  CoxRuns s t g [] →
  let c := s.cox t
  (∀ imm : BitVec 32, c.branch = none →
    exec (.trap g imm) s = .next (coxSends (coxSends (coxClosing s t []) t 0 .retire) t 0 (.trap imm))) ∧
  (c.tm = false → exec (.rft g) s = .next (s.modCox t fun c => { c with fault := some (⟨cPROT, 0, 0, 0⟩, c.pc) })) ∧
  (c.tm = true → c.tcause.getLsbD 12 = true → s.holding = false →
    ∃ u, exec (.rft g) s = .next u ∧ EndsIteration s u t (c.tcause.setWidth 8)) ∧
  (c.tm = true → c.tcause.getLsbD 12 = false → ∃ u, exec (.rft g) s = .next u ∧ OnlyTile s u t ∧
    let d := u.cox t
    u.tile t = { s.tile t with cox := d } ∧ d.tm = false ∧ d.pc = c.tregion ∧ d.head = c.tregion ∧ d.branch = none ∧
    d.nextIssue = s.gtime + 1 ∧ d.region = c.region + 1 ∧ d.x = c.x ∧ d.p = c.p ∧ d.checkpoint = ⟨c.x, c.xv, c.p, c.pv⟩ ∧
    ∀ e, (⟨s.gtime, c.region + 1, .resume e⟩ ∈ d.flight ↔
      ⟨s.gtime, c.region + 1, .resume e⟩ ∈ c.flight ∨ c.tcause.toNat / 2 ^ 8 % 8 = e.src))) ∧
  (∀ (s : State) (t : TileId) (g : CGuard),
  (CoxRuns s t g [] → exec (.nop g) s = .next (coxIssued s t []) ∧
    exec (.halt g) s = .next ((coxIssued s t []).modCox t fun c => { c with halted := true, dbgHalted := true })) ∧
  (∀ a : Src, CoxRuns s t g [a.op] →
    let n := (coxValue s t [a.op] 0).toNat % 2 ^ 32
    exec (.waitcyc g a) s =
      .next ((coxIssued s t [a.op]).modCox t fun c => { c with nextIssue := max c.nextIssue (s.gtime + n) }) ∧
    ∃ T : Int, (2 ^ 32 : Int) ∣ T - n ∧ (s.gtime : Int) - 2 ^ 31 ≤ T ∧ T < s.gtime + 2 ^ 31 ∧
      exec (.waitcycUntil g a) s =
        .next ((coxIssued s t [a.op]).modCox t fun c => { c with nextIssue := max c.nextIssue T.toNat })))

/-- R252, R55, R255: what keeps a Cox word from its effect: a guard or a source that is invalid, or a pop of an empty
FIFO, raises INVREG; a pop whose element is on its way waits; a word whose guard is false pops and goes on. -/
def Obligations.CoxIssueRules : Prop := ∀ (s : State) (t : TileId) (i : Instr) (g : CGuard) (srcs : List COp),
  i.coxHead = some (g, srcs) → s.cur = .cox t → (s.cox t).branch = none →
  let c := s.cox t
  let invreg : Out := .next (s.modCox t fun c => { c with fault := some (⟨cINVREG, 0, 0, 0⟩, c.pc) })
  (c.guardValid g = false → exec i s = invreg) ∧
  (c.guardValid g = true → c.popReady (popCount srcs) = none → exec i s = invreg) ∧
  (c.guardValid g = true → c.popReady (popCount srcs) = some false → exec i s = .next s) ∧
  (c.guardValid g = true → c.popReady (popCount srcs) = some true → c.guardOn g = false →
    exec i s = .next (coxIssued s t srcs)) ∧
  (c.guardValid g = true → c.popReady (popCount srcs) = some true → c.guardOn g = true →
    (∃ o ∈ srcs, c.opValid o = false) → exec i s = invreg)

/-! ## Cox words: control flow, memory, requests (12_cox.md, 04_memory.md, 13_model.md) -/

/-- R271, R253: where the branch words send the program, outside a delay slot, and `REGION`, which retires at the end
of its issue cycle. -/
def Obligations.BranchWords : Prop := ∀ (s : State) (t : TileId) (g : CGuard),
  (s.cox t).branch = none →
  let pc := (s.cox t).pc
  let taken (target : Word) (u : State) : Out := .next (u.modCox t fun c => { c with branch := some (target, 2) })
  (CoxRuns s t g [] →
    (∀ i : BitVec 32, exec (.br g i) s = taken (pc + i.signExtend 64) (coxIssued s t [])) ∧
    (∀ (d : Fin 64) (i : BitVec 32),
      exec (.brl g d i) s = taken (pc + i.signExtend 64) (coxSends (coxIssued s t []) t 1 (.x d (pc + 36)))) ∧
    exec (.region g) s = .next (coxSends (coxClosing s t []) t 0 .retire)) ∧
  ∀ a : Fin 64, CoxRuns s t g [.x a] →
    let v := coxValue s t [.x a] 0
    exec (.jr g a) s = taken v (coxIssued s t [.x a]) ∧ exec (.ret g a) s = taken v (coxIssued s t [.x a]) ∧
    ∀ i : BitVec 32,
      let u := coxSends (coxIssued s t [.x a]) t 1 (.x a (v - 1))
      (v - 1 ≠ 0 → exec (.bct g a i) s = taken (pc + i.signExtend 64) u) ∧ (v - 1 = 0 → exec (.bct g a i) s = .next u)

/-- R272: two delay slots, whether or not the branch is taken, and then the target of a taken one; a branch word in a
delay slot of a taken branch acts as `NOP`, and a closing word there raises ILLOP with reason 10; a restart
re-executes the branch, from the head of its region. -/
def Obligations.DelaySlots : Prop :=
  (∀ (c : Cox) (target : Word) (m1 n1 m2 n2 m3 n3 : Nat), c.branch = none →
    let c1 := c.step m1 n1
    let b1 := { c1 with branch := some (target, 2) }
    c1.pc = c.pc + 12 ∧ (c1.step m2 n2).pc = c.pc + 24 ∧ ((c1.step m2 n2).step m3 n3).pc = c.pc + 36 ∧
    (b1.step m2 n2).pc = c.pc + 24 ∧ ((b1.step m2 n2).step m3 n3).pc = target ∧
    ((b1.step m2 n2).step m3 n3).branch = none) ∧
  (∀ (s : State) (t : TileId) (i : Instr), s.cur = .cox t → (s.cox t).branch ≠ none →
    (i.isBranch = true → exec i s = exec (.nop ⟨0, false⟩) s) ∧
    (i.closesRegion = true →
      exec i s = .next (s.modCox t fun c => { c with fault := some (⟨cILLOP, 0, 10, 0⟩, c.pc) }))) ∧
  ∀ c : Cox, c.restart.pc = c.head ∧ c.restart.branch = none

/-- R269, R270, R163: `LD`, `ST` and the atomic forms of `ST` by where the address lies: what a local one does, what a
remote one asks for, and the MISALIGN and WINDOW faults. That a local load reads its bank, and a local atomic acts, in
the cycle after its issue is the model's choice (log entry 9). -/
def Obligations.ScratchpadWords : Prop := ∀ (s : State) (t : TileId),
  let c := s.cox t
  let fault (code : Byte) (va : Word) : Out := .next (s.modCox t fun c => { c with fault := some (⟨code, 0, 0, va⟩, c.pc) })
  (∀ o : MemOp, CoxRuns s t o.g [.x o.a] →
    let va := coxValue s t [.x o.a] 0 + o.off.signExtend 64
    let u := coxIssued s t [.x o.a]
    (¬widthBytes o.ty.width ∣ va.toNat →
      (∀ d, exec (.ld o d) s = fault cMISALIGN va) ∧ exec (.ldFifo o) s = fault cMISALIGN va) ∧
    (widthBytes o.ty.width ∣ va.toNat →
      match (s.tile t).locate va.toNat with
      | .own off | .multicast off =>
        (∀ d, exec (.ld o d) s = .next (coxSends u t 1 (.load off o.ty (.x d) []))) ∧
        (c.rfRoom = true → exec (.ldFifo o) s =
          .next (coxSends (u.modCox t fun c => c.placeLocal true) t 1 (.load off o.ty (.rf c.nextReq) [])))
      | .member m off =>
        (∀ d, exec (.ld o d) s = fault cWINDOW va) ∧
        (s.holding = false → c.rfRoom = true →
          exec (.ldFifo o) s = .next (coxAsksElement u t true false c.pc (.winLoad m off o.ty)))
      | .outside => (∀ d, exec (.ld o d) s = fault cWINDOW va) ∧ exec (.ldFifo o) s = fault cWINDOW va)) ∧
  (∀ (o : MemOp) (b : XRf), CoxRuns s t o.g [.x o.a, b.op] →
    let va := coxValue s t [.x o.a, b.op] 0 + o.off.signExtend 64
    let bytes := toBytes (widthBytes o.ty.width) (coxValue s t [.x o.a, b.op] 1).toNat
    let u := coxIssued s t [.x o.a, b.op]
    (¬widthBytes o.ty.width ∣ va.toNat → exec (.st o b) s = fault cMISALIGN va) ∧
    (widthBytes o.ty.width ∣ va.toNat →
      match (s.tile t).locate va.toNat with
      | .own off => exec (.st o b) s = .next (coxSends u t 1 (.store off bytes))
      | .member m off =>
        s.holding = false → exec (.st o b) s = .next (coxAsks u t false false c.pc (.winStore m off bytes))
      | .multicast off =>
        (c.mcdelay = 0 → exec (.st o b) s = fault cWINDOW va) ∧
        (c.mcdelay ≠ 0 → s.holding = false → (s.tile t).mcRoom = true →
          exec (.st o b) s = .next (coxAsks u t false false c.pc
            (.multicast off bytes ((s.tile t).gangTiles t) c.mcdelay.toNat (s.tile t).member)))
      | .outside => exec (.st o b) s = fault cWINDOW va)) ∧
  (c.branch = none → ∀ (g : CGuard) (a : Fin 64) (off : BitVec 32) (signed : Bool) (b : XRf) (i : Instr) (srcs : List COp)
      (op : SatOp), i.coxHead = some (g, srcs) →
    (i = .stAtomic g a off signed (match op with | .op o => o | .cas _ => .add) b ∧ (∃ o, op = .op o) ∨
      ∃ x, i = .stCas g a off signed b x ∧ op = .cas (.x x)) →
    CoxRuns s t g srcs →
    let va := coxValue s t srcs 0 + off.signExtend 64
    let u := coxClosing s t srcs
    (¬8 ∣ va.toNat → exec i s = fault cMISALIGN va) ∧
    (8 ∣ va.toNat →
      match (s.tile t).locate va.toNat with
      | .own o => c.rfRoom = true →
        exec i s = .next (coxSends (u.modCox t fun c => c.placeLocal false) t 1
          (.atomic o op signed (coxValue s t srcs 1) (coxValue s t srcs 2) c.nextReq))
      | .member m o => s.holding = false → c.rfRoom = true →
        exec i s = .next (coxAsksElement u t false true c.pc
          (.winAtomic m o op signed (coxValue s t srcs 1) (coxValue s t srcs 2)))
      | .outside | .multicast _ => exec i s = fault cWINDOW va))

/-- R76 to R79, R75, R69: where the extent, its page and its segment allow the access, the extent words by address and
by id issue and ask the element's home; `LDI` and `LDS` in their FIFO forms take a place of the response FIFO, their
touch forms wait for one as well (R335), and only `LDI` leaves its region open. R86 to R88, R80, R369, R373: the words
that make, convert, query and free extents ask the home agent, each with its operands as it reads them; an id that
names nothing, a PAIR launch and a hold-up raise PROT; the record of an `EXTNEW` is read as it issues, its granules
being good, and the others' checks are the home's. -/
def Obligations.RoleSpaceWords : Prop :=
  (∀ (s : State) (t : TileId) (g : CGuard),
  s.holding = false →
  let c := s.cox t
  (∀ (a : Fin 64) (off : BitVec 32) (ty : MemTy), CoxRuns s t g [.x a] → c.rfRoom = true →
    let va := coxValue s t [.x a] 0 + off.signExtend 64
    let u := (coxIssued s t [.x a]).touchTlb t va.toNat
    LdiAllowed s t va.toNat (widthBytes ty.width) →
    exec (.ldi ⟨g, a, off, ty⟩) s = .next (coxAsksElement u t true false c.pc (.ldi va.toNat ty)) ∧
    ∀ p, exec (.ldiTouch ⟨g, a, off, ty⟩ p) s = .next (coxAsks u t false false c.pc (.ldi va.toNat ty))) ∧
  (c.branch = none →
    (∀ (a : Fin 64) (k : Fin 8), CoxRuns s t g [.x a] →
      let id := coxValue s t [.x a] 0
      let u := coxClosing s t [.x a]
      (c.rfRoom = true → LdsAllowed s t id.toNat k.val →
        exec (.lds g a k) s = .next (coxAsksElement u t false true c.pc (.lds id.toNat k.val false)) ∧
        ∀ p, exec (.ldsTouch g a k p) s = .next (coxAsks u t false true c.pc (.lds id.toNat k.val true))) ∧
      (CloseAllowed s t id.toNat k.val →
        exec (.close g a k) s = .next (coxAsks u t false true c.pc (.close id.toNat k.val)))) ∧
    (∀ (a b : Fin 64) (k : Fin 8), CoxRuns s t g [.x a, .x b] →
      let id := coxValue s t [.x a, .x b] 0
      StsAllowed s t id.toNat k.val →
      exec (.sts g a b k) s = .next (coxAsks (coxClosing s t [.x a, .x b]) t false true c.pc
        (.sts id.toNat k.val (coxValue s t [.x a, .x b] 1)))) ∧
    ∀ (a b d : Fin 64) (ty : AddTy), CoxRuns s t g [.x a, .x b, .x d] → s.inPair t = false →
      let v := coxValue s t [.x a, .x b, .x d]
      AddaAllowed s t (v 0).toNat (v 1).toNat →
      exec (.adda g a b d ty) s = .next (coxAsks (coxClosing s t [.x a, .x b, .x d]) t false true c.pc
        (.adda (v 0).toNat (v 1).toNat (v 2) ty)))) ∧
  (∀ (s : State) (t : TileId) (g : CGuard),
  let c := s.cox t
  let prot (v : Word) : Out := .next (s.modCox t fun c => { c with fault := some (⟨cPROT, 0, 0, v⟩, c.pc) })
  let open' := s.holding = false ∧ s.inPair t = false
  let barred := s.holding = true ∨ s.inPair t = true
  (∀ (a : Fin 64), CoxRuns s t g [.x a] →
    let v := coxValue s t [.x a] 0
    (∀ (k : Fin 8) (f : Byte),
      (s.holding = false → v.toNat < 65536 → c.rfRoom = true →
        exec (.extq g a k f) s = .next (coxAsksElement (coxIssued s t [.x a]) t true false c.pc
          (.extq v.toNat k.val f.toNat))) ∧
      (s.holding = true ∨ 65536 ≤ v.toNat → exec (.extq g a k f) s = prot v)) ∧
    (c.branch = none →
      (∀ acap, (open' → 32 ∣ v.toNat → v.toNat + 32 ≤ 2 ^ 20 → c.rfRoom = true → GranulesGood s (spSites t v.toNat 32) →
          exec (.extnew g a acap) s = .next (coxAsksElement (coxClosing s t [.x a]) t false true c.pc
            (.extnew (((s.tile t).spNow s.gtime).read v.toNat 32) acap))) ∧
        (barred → exec (.extnew g a acap) s = prot v)) ∧
      (open' → v.toNat < 65536 →
        exec (.extfree g a) s = .next (coxAsks (coxClosing s t [.x a]) t false true c.pc (.extfree v.toNat))) ∧
      (barred ∨ 65536 ≤ v.toNat → exec (.extfree g a) s = prot v))) ∧
  (c.branch = none → ∀ (a b d : Fin 64) (role : Role) (fresh : Bool) (sig : Option (BitVec 17)),
    CoxRuns s t g [.x a, .x b, .x d] →
    let v := coxValue s t [.x a, .x b, .x d]
    (open' → (v 0).toNat < 65536 → (∃ e, s.extent? (v 0).toNat = some e) →
      exec (.recast ⟨g, a, b, d, role, fresh, sig⟩) s = .next (coxAsks (coxClosing s t [.x a, .x b, .x d]) t false true c.pc
        (.recast (v 0).toNat (v 1).toNat (v 2).toNat role fresh sig))) ∧
    (barred ∨ 65536 ≤ (v 0).toNat ∨ s.extent? (v 0).toNat = none →
      exec (.recast ⟨g, a, b, d, role, fresh, sig⟩) s = prot (v 0))))

/-- R69, R68: which access to an element of a segment faults, in the order READONCE, ROLE, STREAMEND: by state, by
cursors and by the bound tile. -/
def Obligations.SegmentFaults : Prop := ∀ (g : Segment) (t : TileId) (i : Nat),
  let streams := g.st = .sOpen ∨ g.st = .sClosed
  let others (bound : Option TileId) : Prop := ∃ u, bound = some u ∧ u ≠ t
  (g.fault t .addr i = some (cREADONCE, 0) ↔ streams ∧ i < g.rcur) ∧
  (g.fault t .addr i = some (cROLE, 1) ↔ g.st = .a ∨ streams ∧ g.rcur ≤ i) ∧
  (g.fault t .cursor i = some (cROLE, 1) ↔ ¬streams) ∧
  (g.fault t .cursor i = some (cROLE, 2) ↔ streams ∧ others g.reader) ∧
  (g.fault t .cursor i = some (cSTREAMEND, 0) ↔ g.st = .sClosed ∧ ¬others g.reader ∧ g.rcur = g.wcur) ∧
  (g.fault t .append i = some (cROLE, 1) ↔ ¬streams) ∧
  (g.fault t .append i = some (cROLE, 2) ↔ streams ∧ others g.writer) ∧
  (g.fault t .append i = some (cSTREAMEND, 0) ↔
    ¬others g.writer ∧ (g.st = .sClosed ∨ g.st = .sOpen ∧ g.wcur = g.stop)) ∧
  (g.fault t .add i = some (cROLE, 1) ↔ g.st ≠ .a) ∧
  (g.fault t .add i = none ↔ g.st = .a)

/-- R288 to R290, R10, R298: where the index, an exact sum, is one that the tile may name, the Signal words ask for
their operation on it, `SST` and `SATOM` closing their region, and otherwise raise PROT; `FENCE` issues once its reads
and its release are over. -/
def Obligations.SignalWords : Prop := ∀ (s : State) (t : TileId),
  s.holding = false → s.inPair t = false →
  let c := s.cox t
  let index (o : SigOp) (a : Word) : Nat := a.toNat + o.off.toNat
  let pkg (i : Nat) : Byte := BitVec.ofNat 8 (i / 2 ^ 17)
  let named (o : SigOp) (i : Nat) : Prop := i < 2 ^ 25 ∧
    (if o.sc = .dom then pkg i = s.sys.pkg ∨ pkg i ∈ s.sys.reach else i < 2 ^ 17)
  let act (o : SigOp) (i : Nat) (a : SigAct) : ReqAct :=
    .signal (if o.sc = .dom then pkg i else s.sys.pkg) ⟨BitVec.ofNat 17 i, o.ord, o.sc, a⟩
  let prot (i : Nat) : Out := .next (s.modCox t fun c => { c with fault := some (⟨cPROT, 0, 0, BitVec.ofNat 64 i⟩, c.pc) })
  (∀ o : SigOp, CoxRuns s t o.g [.x o.a] → named o (index o (coxValue s t [.x o.a] 0)) → c.rfRoom = true →
    exec (.sld o) s = .next (coxAsksElement (coxIssued s t [.x o.a]) t true false c.pc
      (act o (index o (coxValue s t [.x o.a] 0)) .read))) ∧
  (∀ o : SigOp, CoxRuns s t o.g [.x o.a] → ¬named o (index o (coxValue s t [.x o.a] 0)) →
    exec (.sld o) s = prot (index o (coxValue s t [.x o.a] 0))) ∧
  (c.branch = none →
    (∀ (o : SigOp) (b : XRf), CoxRuns s t o.g [.x o.a, b.op] → named o (index o (coxValue s t [.x o.a, b.op] 0)) →
      exec (.sst o b) s = .next (coxAsks (coxClosing s t [.x o.a, b.op]) t false true c.pc
        (act o (index o (coxValue s t [.x o.a, b.op] 0)) (.write (coxValue s t [.x o.a, b.op] 1))))) ∧
    (∀ (o : SigOp) (b : XRf), CoxRuns s t o.g [.x o.a, b.op] → ¬named o (index o (coxValue s t [.x o.a, b.op] 0)) →
      exec (.sst o b) s = prot (index o (coxValue s t [.x o.a, b.op] 0)) ∧
      ∀ (ty : AtomTy) (op : AtomOp), exec (.satom o ty (.op op) b) s = prot (index o (coxValue s t [.x o.a, b.op] 0))) ∧
    (∀ (o : SigOp) (ty : AtomTy) (op : AtomOp) (b : XRf), CoxRuns s t o.g [.x o.a, b.op] →
      named o (index o (coxValue s t [.x o.a, b.op] 0)) → c.rfRoom = true →
      exec (.satom o ty (.op op) b) s = .next (coxAsksElement (coxClosing s t [.x o.a, b.op]) t false true c.pc
        (act o (index o (coxValue s t [.x o.a, b.op] 0))
          (.atom op (decide (ty = .i64)) (coxValue s t [.x o.a, b.op] 1))))) ∧
    ∀ (o : SigOp) (ty : AtomTy) (b d : XRf), CoxRuns s t o.g [.x o.a, b.op, d.op] →
      let v := coxValue s t [.x o.a, b.op, d.op]
      named o (index o (v 0)) → c.rfRoom = true →
      exec (.satom o ty (.cas d) b) s = .next (coxAsksElement (coxClosing s t [.x o.a, b.op, d.op]) t false true c.pc
        (act o (index o (v 0)) (.cas (v 1) (v 2))))) ∧
  ∀ sc : Scope, CoxRuns s t ⟨0, false⟩ [] → s.readsDelivered t = true →
    s.writesDone t c.nextReq = true → s.released t c.nextReq sc = true →
    exec (.fence sc) s = .next (coxIssued s t [])

/-! ## Cox words: queues, the crew, launches, CSRs, groups, the hold-up; traps (12_cox.md, 15_traps.md) -/

/-- R273 to R275: `EXEC` pushes its entry, writes its number and retires six cycles on; `WAITQ` and `WAITB` issue once
the count has reached their value; what `QSTAT` reads. R278, R208, R212, R213, R373: outside a hold-up the matrix
resource words ask their crew; a bank or slot number above 31, a bad mask, a bank that the tile may not free or a slot
that it has not claimed faults, a slot kept for an iteration that is away among them by the model's choice (log entry
37), and `MFREE` waits until the M queue is empty. In a hold-up, from cycle P on, every one of these words raises
PROT, whatever its operands and its bank or slot. -/
def Obligations.QueueAndCrewWords : Prop :=
  (∀ (s : State) (t : TileId),
  let x := s.tile t
  let pc := (s.cox t).pc
  (∀ o : ExecOp, CoxRuns s t o.g [.x o.a, .x o.b, budgetOp o.budget] → (s.cox t).branch = none → x.queued o.e < 32 →
    let srcs := [.x o.a, .x o.b, budgetOp o.budget]
    let v := coxValue s t srcs
    let seq := (x.eng o.e).pushed + 1
    let budget := min (v 2).toNat (2 ^ 32 - 1)
    let u := coxSends ((coxClosing s t srcs).modEng t o.e fun g => { g with pushed := seq }) t 1 (.x o.d (seq.setWidth 64))
    exec (.exec o) s = .next (coxSends (coxAsks u t false true pc
      (.push o.e ⟨seq, o.sec, budget, budget, v 0, v 1, .waiting, 0, [], []⟩)) t 6 .retire)) ∧
  (∀ (g : CGuard) (e : Eng) (a : Src), CoxRuns s t g [a.op] →
    let v := (coxValue s t [a.op] 0).setWidth 32
    (((x.eng e).qseq - v).toNat < 2 ^ 31 → exec (.waitq g e a) s = .next (coxIssued s t [a.op])) ∧
    (2 ^ 31 ≤ ((x.eng e).qseq - v).toNat → exec (.waitq g e a) s = .next s) ∧
    ((x.m.bret - v).toNat < 2 ^ 31 → exec (.waitb g a) s = .next (coxIssued s t [a.op])) ∧
    (2 ^ 31 ≤ (x.m.bret - v).toNat → exec (.waitb g a) s = .next s)) ∧
  ∀ (g : CGuard) (d : Fin 64), CoxRuns s t g [] →
    (∀ e, ∃ v : Word, exec (.qstat g d (some e)) s = .next (coxSends (coxIssued s t []) t 2 (.x d v)) ∧
      v.toNat / 2 ^ 32 = (x.eng e).pushed.toNat ∧ v.toNat / 2 ^ 8 % 2 ^ 24 = 0 ∧
      v.toNat / 2 ^ 6 % 4 = (if e = .m then lstateCode x.m.lstate else 0) ∧ v.toNat % 2 ^ 6 = 32 - x.queued e) ∧
    ∃ v : Word, exec (.qstat g d none) s = .next (coxSends (coxIssued s t []) t 2 (.x d v)) ∧
      v.toNat / 2 ^ 32 = x.m.bclosed.toNat ∧ v.toNat % 2 ^ 32 = x.m.bret.toNat) ∧
  (∀ (s : State) (t : TileId) (g : CGuard),
  let c := s.cox t
  let y := s.crew (crewOf t)
  let k := Machine.laneOf t
  let fault (code : Byte) (n : Word) : Out :=
    .next (s.modCox t fun c => { c with fault := some (⟨code, 0, 0, n⟩, c.pc) })
  let asks (closing : Bool) (u : State) (a : CrewAct) : Out := .next (coxAsks u t false closing c.pc (.crew a))
  (s.holding = true →
    (CoxRuns s t g [] → (∀ n tb, exec (.mlease g n tb) s = fault cPROT 0) ∧ exec (.mfree g) s = fault cPROT 0) ∧
    (c.branch = none →
      (∀ a : XImm, CoxRuns s t g [a.op] →
        (∀ d, exec (.acalloc g d a) s = fault cPROT 0 ∧ exec (.osclaim g d a) s = fault cPROT 0) ∧
        exec (.acfree g a) s = fault cPROT 0 ∧ exec (.osrel g a) s = fault cPROT 0) ∧
      ∀ a b : XImm, CoxRuns s t g [a.op, b.op] → exec (.acown g a b) s = fault cPROT 0)) ∧
  (s.holding = false →
  (CoxRuns s t g [] →
    (∀ (n : Fin 128) (tb : BitVec 25), exec (.mlease g n tb) s = asks false (coxIssued s t []) (.lease n.val tb.toNat)) ∧
    ((s.tile t).queued .m = 0 → exec (.mfree g) s = asks false (coxIssued s t []) .free) ∧
    ((s.tile t).queued .m ≠ 0 → exec (.mfree g) s = .next s)) ∧
  (c.branch = none →
    (∀ a : XImm, CoxRuns s t g [a.op] →
      let v := coxValue s t [a.op] 0
      let u := coxClosing s t [a.op]
      (31 < v.toNat → (∀ d, exec (.acalloc g d a) s = fault cPROT v ∧ exec (.osclaim g d a) s = fault cPROT v) ∧
        exec (.acfree g a) s = fault cPROT v ∧ exec (.osrel g a) s = fault cPROT v) ∧
      ∀ n : Fin 32, v.toNat = n.val →
        (∀ d, exec (.acalloc g d a) s = asks true u (.acalloc n.val d) ∧
          exec (.osclaim g d a) s = asks true u (.osclaim n.val d)) ∧
        ((y.bank n).st = .free → exec (.acfree g a) s = fault cACCUNALLOC v) ∧
        ((y.bank n).st ≠ .free → (y.bank n).owners.getLsbD k.val = false → exec (.acfree g a) s = fault cACCOWN v) ∧
        ((y.bank n).st ≠ .free → (y.bank n).owners.getLsbD k.val = true →
          exec (.acfree g a) s = asks true u (.acfree n.val)) ∧
        ((y.slot n).st = .free ∨ (y.slot n).st = .kept ∨ (y.slot n).claimer ≠ k →
          exec (.osrel g a) s = fault cSLOTCLAIM v) ∧
        ((y.slot n).st ≠ .free → (y.slot n).st ≠ .kept → (y.slot n).claimer = k → exec (.osrel g a) s = asks true u (.osrel n.val))) ∧
    ∀ a b : XImm, CoxRuns s t g [a.op, b.op] →
      let v := coxValue s t [a.op, b.op]
      (31 < (v 0).toNat → exec (.acown g a b) s = fault cPROT (v 0)) ∧
      ((v 0).toNat ≤ 31 → (v 1).toNat = 0 ∨ 15 < (v 1).toNat → exec (.acown g a b) s = fault cPROT 0) ∧
      ∀ n : Fin 32, (v 0).toNat = n.val → 1 ≤ (v 1).toNat → (v 1).toNat ≤ 15 →
        ((y.bank n).st = .free → exec (.acown g a b) s = fault cACCUNALLOC (v 0)) ∧
        ((y.bank n).st ≠ .free → (y.bank n).owners.getLsbD k.val = false → exec (.acown g a b) s = fault cACCOWN (v 0)) ∧
        ((y.bank n).st ≠ .free → (y.bank n).owners.getLsbD k.val = true →
          exec (.acown g a b) s = asks true (coxClosing s t [a.op, b.op]) (.acown n.val (v 1).toNat)))))

/-- R319 to R323, R346, R373: launches made by an iteration, `JOIN`, and `DONE`, which ends the iteration once its
waits are over, its registers standing, or, in a hold-up, stops the Cox. -/
def Obligations.LaunchWords : Prop := ∀ (s : State) (t : TileId) (g : CGuard),
  let c := s.cox t
  (c.branch = none → s.holding = false → s.inPair t = false → ∀ (a b xd : Fin 64) (csig : BitVec 32),
    CoxRuns s t g [.x a, .x b] →
    let va := (coxValue s t [.x a, .x b] 0).toNat
    let route := coxValue s t [.x a, .x b] 1
    let u := coxClosing s t [.x a, .x b]
    route.toNat < 2 ^ 20 →
    (route.getLsbD 16 = true ∨ RecordAllowed s t va ∧ ∀ l, s.launchOf t = some l → l.depth < 7) →
    (∀ pd, exec (.launch g pd xd a b csig) s =
      .next (coxAsks u t false true c.pc (.launch (some pd) xd false va route csig))) ∧
    exec (.launchw g xd a b csig) s = .next (coxAsks u t false true c.pc (.launch none xd true va route csig))) ∧
  (∀ (d : Fin 64) (a : Src), CoxRuns s t g [a.op] →
    let id : BitVec 32 := (coxValue s t [a.op] 0).setWidth 32
    (s.launch? id ≠ none → exec (.join g d a) s = .next s) ∧
    (s.launch? id = none →
      exec (.join g d a) s = .next (coxSends (coxIssued s t [a.op]) t 0 (.x d ((s.completion id).getD 0))))) ∧
  (CoxRuns s t g [] →
    (s.holding = true → exec (.done g) s = .next ((coxIssued s t []).modCox t fun c => { c with stopped := true })) ∧
    (s.holding = false → DoneAllowed s t → ∃ u, exec (.done g) s = .next u ∧
      (u.tile t).iter = none ∧ (u.tile t).m = { (s.tile t).m with lstate := .none } ∧
      (∀ e, ((u.tile t).eng e).queue = []) ∧
      (u.cox t).x = c.x ∧ (u.cox t).xv = c.xv ∧ (u.cox t).p = c.p ∧ (u.cox t).pv = c.pv ∧ (u.cox t).rf = [] ∧ ∀ e ∈ u.fab.groups, e.2.owner = t → e.2.st = .free))

/-- R280, R91, R279, R101: `CSRR` reads a CSR with latency 2, and of WSREF clears DEFER and closes its region; `CSRW`
lands one cycle on, and an ill-formed BFMT raises PROT. That WSREF is read and DEFER cleared in the issue cycle, at
whose end the word retires, is the model's choice (log entry 25, DEDUCED). R281, R279, R91: the fields of the CSRs
that show the machine's state. -/
def Obligations.CsrWords : Prop :=
  (∀ (s : State) (t : TileId) (g : CGuard),
  (CoxRuns s t g [] → ∀ (d : Fin 64) (n : BitVec 12),
    (n ≠ 0x031 → exec (.csrr g d n) s = .next (coxSends (coxIssued s t []) t 2 (.x d (s.readCsr t n.toNat)))) ∧
    (n = 0x031 → (s.cox t).branch = none → exec (.csrr g d n) s =
      .next (coxSends ((coxSends (coxClosing s t []) t 2 (.x d (s.readCsr t 0x031))).modCox t fun c => { c with defer := 0 })
        t 0 .retire))) ∧
  ∀ (n : BitVec 12) (a : Option XRf),
    let src := match a with
      | some x => x.op
      | none => COp.imm (n.setWidth 64)
    CoxRuns s t g [src] →
    let v := coxValue s t [src] 0
    let bad := 0x40 ≤ n.toNat ∧ n.toNat ≤ 0x4F ∧ fmtWf (v.setWidth 32) = false
    (bad → exec (.csrw g n a) s = .next (s.modCox t fun c => { c with fault := some (⟨cPROT, 0, 0, 0⟩, c.pc) })) ∧
    (¬bad → exec (.csrw g n a) s = .next (coxSends (coxIssued s t [src]) t 1 (.csr n v)))) ∧
  (∀ (s : State) (t : TileId),
  let x := s.tile t
  let c := x.cox
  (c.rf.length ≤ 16 →
    let v := (s.readCsr t 0x000).toNat
    v / 2 ^ 13 = 0 ∧ v / 2 ^ 8 % 2 ^ 5 = c.rfCount ∧ v / 2 ^ 6 % 4 = 0 ∧ v / 2 ^ 4 % 4 = lstateCode x.m.lstate ∧
    v / 2 ^ 2 % 4 = 0 ∧ v / 2 % 2 = (if c.ie then 1 else 0) ∧ v % 2 = (if c.tm then 1 else 0)) ∧
  [s.readCsr t 0x001, s.readCsr t 0x002, s.readCsr t 0x003, s.readCsr t 0x004, s.readCsr t 0x005, s.readCsr t 0x006] =
    [c.tvec, c.tcause, c.tpc, c.tregion, c.taddr, c.tinfo] ∧
  (s.readCsr t 0x011).toNat = t.val ∧
  (s.readCsr t 0x013).toNat = t.val % 4 * 128 + t.val / 4 ∧
  (s.readCsr t 0x014).toNat = s.sys.pkg.toNat * 256 + t.val / 128 ∧
  (∀ r : Fin 64, (s.readCsr t 0x017).getLsbD r.val = c.xValid r) ∧
  ([Eng.l, .v, .m, .s].zip [0x020, 0x021, 0x022, 0x023]).all
    (fun e => (s.readCsr t e.2).toNat = (x.eng e.1).qseq.toNat) = true ∧
  (s.readCsr t 0x030).toNat = c.mcdelay.toNat ∧
  (let v := (s.readCsr t 0x031).toNat
   v / 2 ^ 32 = c.defer.toNat ∧ v % 2 ^ 13 = s.gtime % 8192 ∧ v / 2 ^ 13 % 16 = s.gtime / 512 % 16 ∧
   v / 2 ^ 17 % 2 = (if s.gtime % 512 < 64 then 1 else 0)) ∧
  (let v := (s.readCsr t 0x032).toNat
   v / 2 ^ 44 = 0 ∧ ∀ j : Fin 4, v / 2 ^ (11 * j.val) % 2 ^ 11 = (c.wheel[j]).toNat) ∧
  (let v := (s.readCsr t 0x033).toNat
   v / 2 ^ 63 = (if s.sys.bhSetv then 1 else 0) ∧ v / 2 ^ 48 % 2 ^ 15 = s.sys.bhHoldno.toNat ∧
   v / 2 ^ 32 % 2 ^ 16 = c.savePois.toNat ∧ v % 2 ^ 32 = c.saveSt.toNat) ∧
  ∀ n : Fin 16, (s.readCsr t (0x040 + n.val)).toNat = (c.bfmt[n]).toNat)

/-- R376 to R378, R374, R384, R373, R388: `MSDECL` retires eight cycles on, when its slot takes the declaration, where
the quota of the launch allows it, and the predicate says so; `PFACK` stops the Cox in a hold-up and raises PROT
outside one; `PFRESTORE` of a region with a whole record brings its bytes back and reports true, of one without a
record false, with the state that SAVEST shows. That the declaration waits for the word's retirement, and that the
bytes, the predicate and SAVEST are written in one cycle, are the model's choice (log entry 35). R232 to R235: where
the record, in good granules of scratchpad, keeps its limits, `GRPOPEN` asks for its group to be opened; `GRPFREE`
asks for the status of a group that the tile holds; each fault of the record stops the word. That the record is read
as the word issues is the model's choice (log entry 28). -/
def Obligations.HoldupAndGroupWords : Prop :=
  (∀ (s : State) (t : TileId) (g : CGuard),
  (∀ (d : Fin 16) (a : Fin 64) (l : List Byte), CoxRuns s t g [.x a] →
    DescAt s t (coxValue s t [.x a] 0) l →
    ((descOf l).2.kind = 4 → ∃ e, s.extent? (descOf l).2.a.toNat = some e) →
    exec (.msdecl g d a) s = .next (coxSends (coxIssued s t [.x a]) t 8
      (.declare (Fin.ofNat 16 (descOf l).1) (if (descOf l).2.kind = 0 then none else some (descOf l).2) d))) ∧
  (∀ (k : CoxLand) (rest : List CoxLand) (n : Fin 16) (new : Option MustSave) (d : Fin 16) (j : Launch),
    s.phase = .ending → (s.tile t).due? s.gtime = some (k, rest) → k.w = .declare n new d →
    let b := (s.modCox t fun c => { c with flight := rest }).modTile t fun x => x
    b.launchOf t = some j →
    let fits := b.usedG j.id + guaranteed new ≤ j.record.quota + guaranteed (s.cox t).mustSave[n]
    ∃ u, exec (.coxWriteLand t) s = .next u ∧
      (fits → (u.cox t).mustSave = (s.cox t).mustSave.set n new) ∧ (¬fits → (u.cox t).mustSave = (s.cox t).mustSave) ∧
      (d ≠ 0 → (u.cox t).pValid d = true ∧ ((u.cox t).readP d = true ↔ fits))) ∧
  (CoxRuns s t g [] →
    (s.holding = false →
      exec (.pfack g) s = .next (s.modCox t fun c => { c with fault := some (⟨cPROT, 0, 0, 0⟩, c.pc) })) ∧
    (s.holding = true → (s.cox t).completed = true →
      exec (.pfack g) s = .next ((coxIssued s t []).modCox t fun c => { c with stopped := true }))) ∧
  (∀ (d : Fin 16) (a b : Fin 64) (l : List Byte), CoxRuns s t g [.x a, .x b] → s.holding = false →
    DescAt s t (coxValue s t [.x a, .x b] 0) l → (descOf l).2.kind ≠ 0 →
    let dst := (coxValue s t [.x a, .x b] 1).toNat
    let size := 64 * ceilDiv (descOf l).2.len 64
    64 ∣ dst → dst + size ≤ 2 ^ 20 →
    let slot : Fin 16 := Fin.ofNat 16 (descOf l).1
    let found := s.sys.records.find? fun r => recNat r.head 6 1 == (descOf l).2.kind &&
      recNat r.head 8 4 == (descOf l).2.tag.toNat && recNat r.head 32 8 == (descOf l).2.len
    (found = none → exec (.pfrestore g d a b) s = .next ((coxIssued s t [.x a, .x b]).modCox t fun c =>
      { ((c.send (s.gtime + 1) (.savest slot 3 false)).send (s.gtime + 1) (.p d false)) with nextIssue := s.gtime + 2 })) ∧
    ∀ r, found = some r → s.sys.classify r = (1, false) →
      let due := s.gtime + max 1 (boathouseCycles size)
      let pois := bitOf (recNat r.head 13 1) 0
      exec (.pfrestore g d a b) s = .next ((coxIssued s t [.x a, .x b]).modCox t fun c =>
        { (((c.send due (.store dst (s.sys.boathouse.read (r.off + 64) size))).send due (.savest slot 1 pois)).send due
            (.p d true)) with nextIssue := due + 1 }))) ∧
  (∀ (s : State) (t : TileId) (g : CGuard) (a : Fin 64),
  CoxRuns s t g [.x a] → (s.cox t).branch = none → s.holding = false →
  let v := coxValue s t [.x a] 0
  let c := s.cox t
  let l := ((s.tile t).spNow s.gtime).read v.toNat 64
  let fault (code : Byte) (addr : Word) : Out :=
    .next (s.modCox t fun c => { c with fault := some (⟨code, 0, 0, addr⟩, c.pc) })
  (s.inPair t = true → exec (.grpopen g a) s = fault cPROT v) ∧
  (s.inPair t = false →
    (¬64 ∣ v.toNat → exec (.grpopen g a) s = fault cMISALIGN v) ∧
    (64 ∣ v.toNat → 2 ^ 20 < v.toNat + 64 → exec (.grpopen g a) s = fault cWINDOW v) ∧
    (64 ∣ v.toNat → v.toNat + 64 ≤ 2 ^ 20 → GranulesGood s (spSites t v.toNat 64) →
      ((groupRecOf l).count = 0 → exec (.grpopen g a) s = fault cGRPCOUNT 0) ∧
      ((groupRecOf l).count ≠ 0 → ¬GroupRecAllowed (groupRecOf l) → exec (.grpopen g a) s = fault cSGBAD v) ∧
      (GroupRecAllowed (groupRecOf l) →
        exec (.grpopen g a) s = .next (coxAsks (coxClosing s t [.x a]) t false true c.pc (.grpopen l))))) ∧
  let e := s.group (v.toNat % 4096)
  let held := v.toNat < 65536 ∧ e.st ≠ .free ∧ e.gen = v.toNat / 4096 ∧ e.owner = t
  (held → c.rfRoom = true →
    exec (.grpfree g a) s = .next (coxAsksElement (coxClosing s t [.x a]) t false true c.pc (.grpfree v.toNat))) ∧
  (¬held → exec (.grpfree g a) s = fault cPROT v))

/-! ## Traps (15_traps.md) -/

/-- R330: with TVEC.EN = 1 and TM = 0 an event enters the handler: the region restarts from its checkpoint, the trap
registers are written, TM is set, and the handler's first word issues four cycles on, at TVEC.PC. What a restart keeps
of the results in flight and of the response FIFO, and that TREGION takes the head, is the model's choice (log entry
8, DEDUCED). R331: in a handler PFAIL enters again, with NEST set, TPC the interrupted handler word, TREGION unchanged
and no register restored; a precise fault of a handler word ends the iteration. R328, R332: with TVEC.EN = 0 an event
that would enter the handler ends the iteration with its code, and iteration DEADLINE, CHKDIV and contained machine
checks end it always; it is over once L and S have finished what they have begun. -/
def Obligations.TrapsTaken : Prop :=
  (∀ (s : State) (t : TileId) (e : Taken) (k : Trap) (pc : Word),
  s.event? t = some e → trapOf (s.cox t) e = some (k, pc) → (s.cox t).tvec.getLsbD 16 = true → (s.cox t).tm = false →
  ∃ u, exec (.trapEntry t) s = .next u ∧ OnlyTile s u t ∧
    let c := s.cox t
    let d := u.cox t
    d.tm = true ∧ d.pc = c.tvec &&& 0xFFFF ∧ d.branch = none ∧ d.nextIssue = s.gtime + 4 ∧ d.fault = none ∧
    d.halted = false ∧ d.closing = false ∧
    d.tcause = BitVec.ofNat 64 (k.src * 256 + k.code.toNat) ∧ d.tpc = pc &&& 0xFFFF ∧ d.tregion = c.head &&& 0xFFFF ∧
    d.taddr = k.addr ∧ d.tinfo = k.info ∧ d.tvec = c.tvec ∧ d.ie = c.ie ∧
    (⟨d.x, d.xv, d.p, d.pv⟩ : Checkpoint) = c.checkpoint ∧ d.checkpoint = c.checkpoint ∧
    (∀ l, l ∈ d.flight ↔ l ∈ c.flight ∧ ¬(l.region = c.region ∧ l.w.discarded = true)) ∧
    (∀ r ∈ d.rf, r.marked = false ∧ ¬(r.region = c.region ∧ (r.repeatable = true ∨ r.data = none))) ∧
    (∀ r, r ∈ (u.tile t).reqs ↔ r ∈ (s.tile t).reqs ∧ ¬(r.slot = true ∧ r.region = c.region)) ∧
    (u.tile t).sp = (s.tile t).sp ∧ (u.tile t).iter = (s.tile t).iter) ∧
  (∀ (s : State) (t : TileId),
  (s.cox t).tvec.getLsbD 16 = true → (s.cox t).tm = true →
  (s.event? t = some .pfail → ∃ u, exec (.trapEntry t) s = .next u ∧ OnlyTile s u t ∧
    let c := s.cox t
    let d := u.cox t
    d.tm = true ∧ d.tcause = BitVec.ofNat 64 (2048 + 5 * 256 + 0x30) ∧ d.tpc = c.pc &&& 0xFFFF ∧ d.tregion = c.tregion ∧
    d.pc = c.tvec &&& 0xFFFF ∧ d.x = c.x ∧ d.xv = c.xv ∧ d.p = c.p ∧ d.pv = c.pv ∧ d.checkpoint = c.checkpoint ∧
    d.nextIssue = s.gtime + 4) ∧
  (∀ k pc, s.event? t = some (.precise k pc) → k.code ≠ cPFAIL → s.holding = false →
    ∃ u, exec (.trapEntry t) s = .next u ∧ EndsIteration s u t k.code)) ∧
  (∀ (s : State) (t : TileId), s.holding = false →
  (∀ e k pc, s.event? t = some e → trapOf (s.cox t) e = some (k, pc) → (s.cox t).tvec.getLsbD 16 = false →
    ∃ u, exec (.trapEntry t) s = .next u ∧ EndsIteration s u t k.code) ∧
  (∀ code, s.event? t = some (.ends code) → ∃ u, exec (.iterationEnd t) s = .next u ∧ EndsIteration s u t code) ∧
  (∀ code, (s.cox t).stopped = true → (s.tile t).ending = some code → s.streamQuiet t .l = true → s.streamQuiet t .s = true →
    ∃ u, exec (.iterationEnd t) s = .next u ∧ IterationEnded s u t code))

/-- R330, R331, R281: which event a Cox takes: its precise fault; then, once no closing word is at work (R258), PFAIL,
a contained machine check or CHKDIV, iteration DEADLINE, and, outside a handler, an engine fault, and HOSTINT while IE
= 1. While a closing word is at work an iteration DEADLINE is taken only where nothing else would end the word's wait,
which is the model's choice (log entry 31). -/
def Obligations.EventOrder : Prop := ∀ (s : State) (t : TileId),
  let c := s.cox t
  (s.tile t).live = true → c.stopped = false →
  (∀ k pc, c.fault = some (k, pc) → s.event? t = some (.precise k pc)) ∧
  (c.fault = none → c.closing = true →
    (c.pend.deadline = true ∧ s.closingLost t = true → s.event? t = some (.ends cDEADLINE)) ∧
    (c.pend.deadline = false ∨ s.closingLost t = false → s.event? t = none)) ∧
  (c.fault = none → c.closing = false →
    (c.pend.pfail = true → s.event? t = some .pfail) ∧
    (c.pend.pfail = false → ∀ k, c.pend.mc = some k → s.event? t = some (.ends k)) ∧
    (c.pend.pfail = false → c.pend.mc = none → c.pend.deadline = true → s.event? t = some (.ends cDEADLINE)) ∧
    (c.pend.pfail = false → c.pend.mc = none → c.pend.deadline = false →
      (c.tm = true → s.event? t = none) ∧
      (c.tm = false → (∀ e f, (s.tile t).engineEvent = some (e, f) → s.event? t = some (.engine e f)) ∧
        ((s.tile t).engineEvent = none →
          (c.pend.hostint = true → c.ie = true → s.event? t = some .hostint) ∧
          (c.pend.hostint = false ∨ c.ie = false → s.event? t = none)))))

/-! ## Landings, requests, homes (12_cox.md, 08_scratchpad.md, 04_memory.md, 13_model.md) -/

/-- R252, R259, R268, R51, R280: what a register result that has come due does as it lands: its register takes the
value and becomes valid, `x0` and `p0` stay as they are, every other register stays, and a result of a closed region
reaches the checkpoint too; a CSR takes its RW fields only. -/
def Obligations.RegisterResultsLand : Prop := ∀ (s : State) (t : TileId) (l : CoxLand) (rest : List CoxLand),
  s.phase = .ending → (s.tile t).due? s.gtime = some (l, rest) →
  let c := s.cox t
  (∀ d v, l.w = .x d v ∨ l.w = .xLoad d v → ∃ u, exec (.coxWriteLand t) s = .next u ∧ OnlyCox s u t ∧
    let e := u.cox t
    (d ≠ 0 → e.readX d = v ∧ e.xValid d = true ∧ (l.region ≠ c.region → e.checkpoint.x[d] = v ∧
      e.checkpoint.xv.getLsbD d.val = true)) ∧
    (l.region = c.region → e.checkpoint = c.checkpoint) ∧ e.readX 0 = 0 ∧ e.xValid 0 = true ∧
    (∀ r, r ≠ d → e.readX r = c.readX r ∧ e.xValid r = c.xValid r) ∧
    e = { c with x := e.x, xv := e.xv, checkpoint := e.checkpoint, flight := rest }) ∧
  (∀ d v, l.w = .p d v → ∃ u, exec (.coxWriteLand t) s = .next u ∧ OnlyCox s u t ∧
    let e := u.cox t
    (d ≠ 0 → e.readP d = v ∧ e.pValid d = true) ∧ e.readP 0 = true ∧ e.pValid 0 = true ∧
    (∀ r, r ≠ d → e.readP r = c.readP r ∧ e.pValid r = c.pValid r) ∧
    e = { c with p := e.p, pv := e.pv, checkpoint := e.checkpoint, flight := rest }) ∧
  (∀ v k, l.w = .pall v k → ∃ u, exec (.coxWriteLand t) s = .next u ∧ OnlyCox s u t ∧
    let e := u.cox t
    (∀ r : Fin 16, r ≠ 0 → e.pValid r = k.getLsbD r.val ∧ (k.getLsbD r.val = true → e.readP r = v.getLsbD r.val)) ∧
    e = { c with p := e.p, pv := e.pv, checkpoint := e.checkpoint, flight := rest }) ∧
  (∀ n v, l.w = .csr n v → ∃ u, exec (.coxWriteLand t) s = .next u ∧ OnlyCox s u t ∧
    let e := u.cox t
    e.ie = (if n = 0x000 then v.getLsbD 1 else c.ie) ∧ e.tm = c.tm ∧
    e.tvec = (if n = 0x001 then v &&& 0x1FFFF else c.tvec) ∧
    (∀ b, e.tcause.getLsbD b = (if n = 0x002 ∧ b = 12 then v.getLsbD 12 else c.tcause.getLsbD b)) ∧
    e.tpc = (if n = 0x003 then v &&& 0xFFFF else c.tpc) ∧
    e.tregion = (if n = 0x004 then v &&& 0xFFFF else c.tregion) ∧ e.taddr = c.taddr ∧ e.tinfo = c.tinfo ∧
    (∀ r : Fin 64, e.xValid r = (if n = 0x017 ∧ r ≠ 0 then v.getLsbD r.val else c.xValid r)) ∧
    (∀ k : Fin 16, e.bfmt[k] = (if n.toNat = 0x40 + k.val then v.setWidth 32 else c.bfmt[k])) ∧
    e.x = c.x ∧ e.p = c.p ∧ e.pv = c.pv ∧ e.defer = c.defer ∧ e.mcdelay = c.mcdelay ∧ e.wheel = c.wheel ∧
    e.pc = c.pc ∧ e.head = c.head ∧ e.rf = c.rf ∧ e.flight = rest)

/-- R163, R269, R270, R255, R160, R356: a local store writes its bytes and no other; a local load reads as the stores
stand, but for a byte that a multicast wrote after its word issued, and has its value three cycles on; an atomic
replaces its word by the new value and delivers the old one; an element that is due waits at the tile until its place
is the next to be filled. The load and the atomic read granules that are good. That the read of a load and an atomic
come in the cycle after the issue of their word is the model's choice (log entry 9). -/
def Obligations.ScratchpadResultsLand : Prop := ∀ (s : State) (t : TileId) (l : CoxLand) (rest : List CoxLand),
  s.phase = .ending → (s.tile t).due? s.gtime = some (l, rest) →
  let x := s.tile t
  (∀ addr bytes, l.w = .store addr bytes → ∃ u, exec (.coxWriteLand t) s = .next u ∧
    u = { s with tiles := u.tiles, dev := { s.dev with flaws := u.dev.flaws } } ∧ (∀ v, v ≠ t → u.tile v = s.tile v) ∧
    (∀ (i : Nat) (b : Byte), bytes[i]? = some b → (u.tile t).sp.get (addr + i) = b) ∧
    (∀ a, a < addr ∨ addr + bytes.length ≤ a → (u.tile t).sp.get a = x.sp.get a) ∧
    u.tile t = { x with sp := (u.tile t).sp, used := (u.tile t).used, cox := { x.cox with flight := rest } }) ∧
  (∀ addr ty dst old, l.w = .load addr ty dst old → GranulesGood s (spSites t addr (widthBytes ty.width)) →
    ∃ u bytes, exec (.coxWriteLand t) s = .next u ∧ OnlyTile s u t ∧ bytes.length = widthBytes ty.width ∧
    (∀ (i : Nat) (b : Byte), bytes[i]? = some b → match old.find? fun o => o.1 = addr + i with
      | none => b = x.sp.get (addr + i)
      | some o => b = if x.sp.get (addr + i) = o.2.1 then o.2.2 else x.sp.get (addr + i)) ∧
    let v := extend ty (ofBytes bytes)
    u.tile t = { x with used := (u.tile t).used, cox := { x.cox with flight := rest ++ [⟨s.gtime + 3, l.region, match dst with
      | .x d => .xLoad d v
      | .rf id => .rf id v⟩] } }) ∧
  (∀ addr op sg b c id, l.w = .atomic addr op sg b c id → GranulesGood s (spSites t addr 8) → ∃ u, exec (.coxWriteLand t) s = .next u ∧ OnlyTile s u t ∧
    let old : Word := BitVec.ofNat 64 (ofBytes (x.sp.read addr 8))
    let new : Word := match op with
      | .op .add => old + b
      | .op .swap => b
      | .op .max => if sg then (if old.toInt ≤ b.toInt then b else old) else if old.toNat ≤ b.toNat then b else old
      | .op .min => if sg then (if old.toInt ≤ b.toInt then old else b) else if old.toNat ≤ b.toNat then old else b
      | .op .and => old &&& b
      | .op .or => old ||| b
      | .cas _ => if old = c then b else old
    (u.tile t).sp.read addr 8 = toBytes 8 new.toNat ∧
    (∀ a, a < addr ∨ addr + 8 ≤ a → (u.tile t).sp.get a = x.sp.get a) ∧
    (u.cox t).flight = rest ++ [⟨s.gtime + 3, l.region, .rf id old⟩]) ∧
  (∀ id v, l.w = .rf id v → ∃ u, exec (.coxWriteLand t) s = .next u ∧ OnlyTile s u t ∧
    u.cox t = { x.cox with flight := rest } ∧ ((∃ e ∈ x.cox.rf, e.id = id) → (id, v) ∈ (u.tile t).replies))

/-- R258, R259, R257, R331, R283, R333: a closing word retires: outside a handler the next word is a head, with its
checkpoint and no marked element left; in a handler no checkpoint is recorded. `TRAP` then raises its trap, with TPC
the next word, and `RFT` lets its queue resume outside a hold-up: after an engine DEADLINE the entry that ran out has
its budget again, and the entries of L or S are expanded again from their first word (R146). R255, R256: replies enter
the response FIFO in the issue order of their words, and the word that closes its region retires with its element. -/
def Obligations.RegionsClose : Prop :=
  (∀ (s : State) (t : TileId) (l : CoxLand) (rest : List CoxLand),
  s.phase = .ending → (s.tile t).due? s.gtime = some (l, rest) →
  let c := s.cox t
  (l.w = .retire → c.closing = true → ∃ u, exec (.coxWriteLand t) s = .next u ∧ OnlyCox s u t ∧
    let e := u.cox t
    e.closing = false ∧ e.regcnt = c.regcnt + 1 ∧ e.nextIssue = max c.nextIssue (s.gtime + 1) ∧
    e.rf = c.rf.filter (fun r => !r.marked) ∧ e.x = c.x ∧ e.p = c.p ∧
    (c.tm = false → e.head = c.pc ∧ e.region = c.region + 1 ∧ e.checkpoint = ⟨c.x, c.xv, c.p, c.pv⟩ ∧ e.mismatches = 0) ∧
    (c.tm = true → e.head = c.head ∧ e.region = c.region ∧ e.checkpoint = c.checkpoint)) ∧
  (∀ imm, l.w = .trap imm → ∃ u, exec (.coxWriteLand t) s = .next u ∧ OnlyCox s u t ∧
    u.cox t = { c with flight := rest, fault := some (⟨0, 0, imm.setWidth 64, 0⟩, c.pc) }) ∧
  (∀ e, l.w = .resume e → s.holding = false → ∃ u, exec (.coxWriteLand t) s = .next u ∧ OnlyTile s u t ∧
    ((u.tile t).eng e).fault = none ∧ ((u.tile t).eng e).stopped = false ∧
    (e = .v ∨ e = .m →
      ((∀ f, ((s.tile t).eng e).fault = some f → f.code ≠ cDEADLINE) →
        ((u.tile t).eng e).queue = ((s.tile t).eng e).queue) ∧
      (∀ f n ns, ((s.tile t).eng e).fault = some f → f.code = cDEADLINE → ((s.tile t).eng e).queue = n :: ns →
        n.st ≠ .waiting → n.budget = 0 → ((u.tile t).eng e).queue = { n with budget := n.budget0 } :: ns)) ∧
    (e = .l ∨ e = .s → ((u.tile t).eng e).index = 0 ∧
      ∀ k ∈ (u.tile t).portage.buffer, k.stream = e → k.stage ≠ .stopped ∧ k.stage ≠ .buffered) ∧
    ∀ f, f ≠ e → (u.tile t).eng f = (s.tile t).eng f)) ∧
  (∀ (s : State) (t : TileId) (id : Nat) (v : Word) (rest : List (Nat × Word)),
  (s.tile t).reply? = some ((id, v), rest) →
  let c := s.cox t
  ∃ u, exec (.rfElementArrive t) s = .next u ∧ OnlyTile s u t ∧ (u.tile t).replies = rest ∧
    (∃ e ∈ c.rf, e.id = id ∧ e.data = none ∧ ∀ a ∈ c.rf.takeWhile (fun f => f.id ≠ id), a.data ≠ none) ∧
    (c.closing = false → (u.cox t).rf = c.rf.map fun e => if e.id = id ∧ e.data = none then { e with data := some v } else e) ∧
    (c.closing = true → id + 1 = c.nextReq → (∃ e ∈ c.rf, e.id = id ∧ e.repeatable = false) → (u.cox t).closing = false))

/-- R261, R262, R273, R278, R212, R213, R358: a request that may leave does; the checker's copy of it, or of a local
store or a CSR write that the checker reaches, differing, the region restarts instead, a second time with CHKDIV
pending, and what differed never leaves. In what order comparisons come and which requests a mismatch takes back is
the model's choice (log entry 33, DEDUCED). -/
def Obligations.RequestsLeave : Prop := ∀ (s : State) (t : TileId) (r : Req) (rest : List Req),
  s.phase = .ending → s.leaving t = some (r, rest) →
  let restarts (u : State) : Prop :=
    (u.cox t).pc = (s.cox t).head ∧ (⟨(u.cox t).x, (u.cox t).xv, (u.cox t).p, (u.cox t).pv⟩ : Checkpoint) = (s.cox t).checkpoint ∧
    (u.cox t).mismatches = (s.cox t).mismatches + 1 ∧ (∀ q ∈ (u.tile t).reqs, q.region ≠ (s.cox t).region) ∧
    (1 ≤ (s.cox t).mismatches → (s.tile t).live = true → (u.cox t).pend.mc = some cCHKDIV)
  ((∃ k ∈ (s.cox t).checks, k ≤ s.gtime) →
    (∃ u, exec (.requestDepart t false) s = .next u ∧ OnlyCox s u t ∧
      u.cox t = { s.cox t with checks := (s.cox t).checks.filter fun k => s.gtime < k }) ∧
    ∃ u, exec (.requestDepart t true) s = .next u ∧ restarts u) ∧
  ((∀ k ∈ (s.cox t).checks, s.gtime < k) →
  let b := s.modTile t fun x => { x with reqs := rest }
  let y := s.crew (crewOf t)
  let k := Machine.laneOf t
  (∀ e n, r.act = .push e n → ∃ u, exec (.requestDepart t false) s = .next u ∧ OnlyTile s u t ∧
    ((u.tile t).eng e).queue = ((s.tile t).eng e).queue ++ [n] ∧ (u.tile t).reqs = rest ∧ u.cox t = s.cox t) ∧
  (∀ n tb, r.act = .crew (.lease n tb) → ∃ u, exec (.requestDepart t false) s = .next u ∧
    (u.tile t).m.leaseN = n ∧ (u.tile t).m.leaseBudget = tb ∧
    (u.tile t).m.lstate = (if (s.tile t).m.lstate = .none then .waiting else (s.tile t).m.lstate)) ∧
  (r.act = .crew .free → ∃ u, exec (.requestDepart t false) s = .next u ∧
    (u.tile t).m.lstate = .none ∧ (u.crew (crewOf t)).holder ≠ some k) ∧
  (∀ (n : Fin 32) pd, r.act = .crew (.acalloc n.val pd) → ∃ u, exec (.requestDepart t false) s = .next u ∧
    let was := decide ((y.bank n).st = .free)
    (was = true → ((u.crew (crewOf t)).bank n).st = .idle ∧ ((u.crew (crewOf t)).bank n).owners = BitVec.ofNat 4 (2 ^ k.val)) ∧
    (was = false → u.crew (crewOf t) = y) ∧
    (u.cox t).flight = (s.cox t).flight ++
      [⟨s.gtime + 2, (s.cox t).region, .p pd was⟩, ⟨s.gtime + 2, (s.cox t).region, .retire⟩]) ∧
  (∀ (n : Fin 32) pd, r.act = .crew (.osclaim n.val pd) → ∃ u, exec (.requestDepart t false) s = .next u ∧
    let was := decide ((y.slot n).st = .free)
    (was = true → ((u.crew (crewOf t)).slot n).st = .claimed ∧ ((u.crew (crewOf t)).slot n).claimer = k) ∧
    (was = false → u.crew (crewOf t) = y) ∧
    (u.cox t).flight = (s.cox t).flight ++
      [⟨s.gtime + 2, (s.cox t).region, .p pd was⟩, ⟨s.gtime + 2, (s.cox t).region, .retire⟩]) ∧
  (∀ c, r.act.isRole = true → s.reqHome t r.act = some c →
    exec (.requestDepart t false) s = .next (b.sendFlit (tileStation t) (homeStation c.1) c.2 (.req t r))) ∧
  ∃ u, exec (.requestDepart t true) s = .next u ∧ restarts u ∧ ∀ q ∈ (u.tile t).reqs, q.id ≠ r.id)

/-- R402, R287, R87: a home serves the first access that it can: a Signal operation of a tile, or one that Portage or
the device sends, changes its word, and an `EXTQ` reads its field; each answer leaves for its tile. R287, R290, R297,
R356: an operation on a Signal word at its home gives the old value and leaves the new one, no other word changing.
R297 performs an `sc` operation at the end of cycle *d* + 512, before every other operation of that cycle at its home:
by the model's choice (log entry 32) that is the first thing of the cycle, here with none that its tile issued before
still travelling. -/
def Obligations.HomesServe : Prop :=
  (∀ (s : State) (h : HomeId) (t : TileId) (r : Req) (f : Flit) (rest : List Flit),
  let d : DieId := Fin.ofNat 4 (h.val / 2)
  let key := ingressKey (128 + h.val % 2)
  (s.die d).frozen = false →
  (∀ w a, f.msg = .oper none w a none → (s.die d).ingress.get (key .req) [] = [] → (s.die d).ingress.get (key .write) [] = [] →
    (s.die d).ingress.get (key .signal) [] = f :: rest → f.cls = .signal → s.dev.poisoned w a = false →
    ∃ u, exec (.homeAccessDone h .good) s = .next u ∧ u.dev = (s.dev.perform w a).2 ∧
      (u.die d).ingress.get (key .signal) [] = rest) ∧
  (∀ a, f.msg = .req t r → r.act = .signal s.sys.pkg a → (s.die d).ingress.get (key .req) [] = [] →
    (s.die d).ingress.get (key .write) [] = [] → (s.die d).ingress.get (key .signal) [] = f :: rest → f.cls = .signal →
    s.dev.poisoned a.word a.act = false → a.ord ≠ .sc → (s.tile t).scOps = [] →
    ∃ u, exec (.homeAccessDone h .good) s = .next u ∧ u.dev = (s.dev.perform a.word a.act).2 ∧
      (u.die d).ingress.get (key .signal) [] = rest) ∧
  (∀ ext seg field, f.msg = .req t r → r.act = .extq ext seg field → (s.die d).ingress.get (key .req) [] = f :: rest → f.cls = .req →
    (s.die d).writesApplied (128 + h.val % 2) f = true →
    ∃ u, exec (.homeAccessDone h .good) s = .next u ∧ (u.die d).ingress.get (key .req) [] = rest ∧ u.dev = s.dev ∧
      ∃ g ∈ (u.die d).stations.get (homeStation h % 132) [], g.dst = tileStation t ∧
        g.msg = .reply t r.id (s.extField ext seg field))) ∧
  ((∀ (d : DevMem) (w : BitVec 17) (a : SigAct), (d.perform w a).1 = d.signal w ∧
    ((d.perform w a).2.signal w = match a with
      | .read => d.signal w
      | .write v => v
      | .atom .add _ b => d.signal w + b
      | .atom .swap _ b => b
      | .atom .max sg b => if sg then (if (d.signal w).toInt ≤ b.toInt then b else d.signal w)
          else if (d.signal w).toNat ≤ b.toNat then b else d.signal w
      | .atom .min sg b => if sg then (if (d.signal w).toInt ≤ b.toInt then d.signal w else b)
          else if (d.signal w).toNat ≤ b.toNat then d.signal w else b
      | .atom .and _ b => d.signal w &&& b
      | .atom .or _ b => d.signal w ||| b
      | .cas b c => if d.signal w = c then b else d.signal w) ∧
    (∀ v, v ≠ w → (d.perform w a).2.signal v = d.signal v) ∧
    ((d.perform w a).2.hbm = d.hbm ∧ (d.perform w a).2.tier2 = d.tier2 ∧ (d.perform w a).2.ws = d.ws)) ∧
  ∀ (s : State) (t : TileId) (due : Nat) (r : Req) (pkg : Byte) (a : SigAccess) (rest : List (Nat × Req)),
    s.phase = .starting → (s.tile t).scOps = (due, r) :: rest → due ≤ s.gtime → r.act = .signal pkg a →
    (s.die (Fin.ofNat 4 ((signalHome a.word).val / 2))).frozen = false → s.dev.poisoned a.word a.act = false →
    (∀ f ∈ s.allFlits, ∀ q, f.msg = .req t q → r.id ≤ q.id) →
    ∃ u, exec (.scPerform t) s = .next u ∧ (u.tile t).scOps = rest ∧ u.dev = (s.dev.perform a.word a.act).2)

/-- R81, R70, R355: on dies that are not frozen the home counts an arrival whose operands are those of the open
collective and whose range and target pass, opening the collective at the first; the last starts the conversion; the
flip ends it, sends the add to the Signal word that was asked for, tells every tile that arrived, and closes the
collective. -/
def Obligations.RecastCollective : Prop := ∀ (s : State),
  (∀ (h : HomeId) (t : TileId) (r : Req) (f : Flit) (rest : List Flit) (ext lo hi : Nat) (role : Role) (fresh : Bool)
      (sig : Option (BitVec 17)) (e : Extent),
    let d : DieId := Fin.ofNat 4 (h.val / 2)
    let key := ingressKey (128 + h.val % 2) .req
    (s.die d).frozen = false → f.msg = .req t r → f.cls = .req → r.act = .recast ext lo hi role fresh sig →
    (s.die d).ingress.get key [] = f :: rest → (s.die d).writesApplied (128 + h.val % 2) f = true →
    s.extent? ext = some e → e.recastFault lo hi role fresh = none →
    (∀ c, e.coll = some c → c.convert = false ∧ c.lo = lo ∧ c.hi = hi ∧ c.role = role ∧ c.fresh = fresh ∧ c.sig = sig) →
    ∃ u, exec (.recastArrival h) s = .next u ∧ ∃ e' c', u.extent? ext = some e' ∧ e'.coll = some c' ∧
      c'.count = (e.coll.map Collective.count).getD 0 + 1 ∧ c'.convert = decide (c'.count = e.holders) ∧
      t ∈ c'.arrived ∧ e'.segs = e.segs) ∧
  ∀ (ext : Fin 65536) (e : Extent) (c : Collective),
    s.extent? ext.val = some e → e.coll = some c → c.convert = true → (∀ d, (s.die d).frozen = false) →
    ∃ u, exec (.recastFlip ext) s = .next u ∧ (∀ e', u.extent? ext.val = some e' → e'.coll = none) ∧
      (∀ w, c.sig = some w →
        ∃ g ∈ u.allFlits, g.dst = homeStation (signalHome w) ∧ g.msg = .oper none w (.atom .add false 1) none) ∧
      ∀ t ∈ c.arrived, ∃ g ∈ u.allFlits, g.dst = tileStation t ∧ g.msg = .flipNotice t ext.val

/-! ## V words (09_vector.md) -/

/-- R185, R186, R181, R184: the FP words decode their operands exactly and round once; `VABS` and `VNEG` change the
sign bit alone, but for a NaN. -/
def Obligations.VectorFpWords : Prop := ∀ (s : State) (t : TileId),
  (∀ o : VFp2, VRuns s t o.h [o.a.vin, o.b.vin] →
    let a (l : Fin 32) : Val := fpIn o.ty (vLane s t [o.a.vin, o.b.vin] 0 l).toNat
    let b (l : Fin 32) : Val := fpIn o.ty (vLane s t [o.a.vin, o.b.vin] 1 l).toNat
    let writes (lat : Nat) (f : Fin 32 → Nat) : Out :=
      .next (vWrites s t o.h [o.a.vin, o.b.vin] o.d.vout lat cMCVRES fun l => BitVec.ofNat 32 (f l))
    let down := o.rm == .rdn
    exec (.vadd o) s = writes 4 (fun l => convert ((a l).add down (b l)) o.ty.nf o.rm) ∧
    exec (.vsub o) s = writes 4 (fun l => convert ((a l).add down (b l).neg) o.ty.nf o.rm) ∧
    exec (.vmul o) s = writes 4 (fun l => convert ((a l).mul (b l)) o.ty.nf o.rm) ∧
    exec (.vmin o) s = writes 4 (fun l => convert (if a l = .nan ∨ b l = .nan then .nan
      else if (a l).cmp true (b l) = .gt then b l else a l) o.ty.nf o.rm) ∧
    exec (.vmax o) s = writes 4 (fun l => convert (if a l = .nan ∨ b l = .nan then .nan
      else if (a l).cmp true (b l) = .gt then a l else b l) o.ty.nf o.rm) ∧
    exec (.vdiv o) s = writes 12 (fun l => fpDiv (a l) (b l) o.ty.nf o.rm)) ∧
  (∀ o : VFp3, VRuns s t o.h [o.a.vin, o.b.vin, o.c.vin] →
    let srcs := [o.a.vin, o.b.vin, o.c.vin]
    let a (l : Fin 32) : Val := fpIn o.ty (vLane s t srcs 0 l).toNat
    let b (l : Fin 32) : Val := fpIn o.ty (vLane s t srcs 1 l).toNat
    let c (l : Fin 32) : Val := fpIn o.ty (vLane s t srcs 2 l).toNat
    let rounds (f : Fin 32 → Val) : Out :=
      .next (vWrites s t o.h srcs o.d.vout 4 cMCVRES fun l => BitVec.ofNat 32 (convert (f l) o.ty.nf o.rm))
    let down := o.rm == .rdn
    exec (.vfma o) s = rounds (fun l => ((a l).mul (b l)).add down (c l)) ∧
    exec (.vfms o) s = rounds (fun l => ((a l).mul (b l)).add down (c l).neg) ∧
    exec (.vnfma o) s = rounds (fun l => ((a l).mul (b l)).neg.add down (c l))) ∧
  ∀ o : VFp1, VRuns s t o.h [o.a.vin] →
    let a (l : Fin 32) : Val := fpIn o.ty (vLane s t [o.a.vin] 0 l).toNat
    let writes (lat : Nat) (f : Fin 32 → Nat) : Out :=
      .next (vWrites s t o.h [o.a.vin] o.d.vout lat cMCVRES fun l => BitVec.ofNat 32 (f l))
    let top := 2 ^ (o.ty.nf.w - 1)
    let code (l : Fin 32) : Nat := (vLane s t [o.a.vin] 0 l).toNat % (2 * top)
    exec (.vabs o) s = writes 1 (fun l => if a l = .nan then nanOf o.ty.nf else code l % top) ∧
    exec (.vneg o) s = writes 1 (fun l => if a l = .nan then nanOf o.ty.nf
      else if code l < top then code l + top else code l - top) ∧
    exec (.vsqrt o) s = writes 12 (fun l => fpSqrt (a l) o.ty.nf o.rm) ∧
    exec (.vexp2 o) s = writes 8 (fun l => fpExp2 (a l) o.ty.nf o.rm) ∧
    exec (.vlog2 o) s = writes 8 (fun l => fpLog2 (a l) o.ty.nf o.rm) ∧
    exec (.vrcp o) s = writes 8 (fun l => fpDiv (.fin false 1 0) (a l) o.ty.nf o.rm) ∧
    exec (.vrsq o) s = writes 8 (fun l => fpRsq (a l) o.ty.nf o.rm)

/-- R187, R181: the integer and logic words, one cycle on. R188 to R190: `VCMP`, `VSEL` and `VPLOG`. A NaN makes `.ne`
alone true, and −0 equals +0. -/
def Obligations.VectorIntegerWords : Prop :=
  (∀ (s : State) (t : TileId) (h : VHead) (d : VDst) (x y : VSrc),
  VRuns s t h [x.vin, y.vin] →
  let a (l : Fin 32) : Lane := vLane s t [x.vin, y.vin] 0 l
  let b (l : Fin 32) : Lane := vLane s t [x.vin, y.vin] 1 l
  let writes (f : Fin 32 → Lane) : Out := .next (vWrites s t h [x.vin, y.vin] d.vout 1 cMCPARITY f)
  let n (l : Fin 32) : Nat := (b l).toNat % 32
  (∀ ty, exec (.viadd ⟨h, d, x, y, ty⟩) s = writes (fun l => BitVec.ofNat 32 ((a l).toNat + (b l).toNat)) ∧
    exec (.visub ⟨h, d, x, y, ty⟩) s = writes (fun l => BitVec.ofInt 32 ((a l).toInt - (b l).toInt)) ∧
    exec (.vimul ⟨h, d, x, y, ty⟩) s = writes (fun l => BitVec.ofNat 32 ((a l).toNat * (b l).toNat))) ∧
  exec (.vand ⟨h, d, x, y⟩) s = writes (fun l => a l &&& b l) ∧
  exec (.vor ⟨h, d, x, y⟩) s = writes (fun l => a l ||| b l) ∧
  exec (.vxor ⟨h, d, x, y⟩) s = writes (fun l => a l ^^^ b l) ∧
  exec (.vshl ⟨h, d, x, y⟩) s = writes (fun l => BitVec.ofNat 32 ((a l).toNat * 2 ^ n l)) ∧
  exec (.vshr ⟨h, d, x, y⟩) s = writes (fun l => BitVec.ofNat 32 ((a l).toNat / 2 ^ n l)) ∧
  exec (.vsra ⟨h, d, x, y⟩) s = writes (fun l => BitVec.ofInt 32 ((a l).toInt / 2 ^ n l)) ∧
  exec (.vimin ⟨h, d, x, y, .i32⟩) s = writes (fun l => if (a l).toInt ≤ (b l).toInt then a l else b l) ∧
  exec (.vimin ⟨h, d, x, y, .n32⟩) s = writes (fun l => if (a l).toNat ≤ (b l).toNat then a l else b l) ∧
  exec (.vimax ⟨h, d, x, y, .i32⟩) s = writes (fun l => if (a l).toInt ≤ (b l).toInt then b l else a l) ∧
  exec (.vimax ⟨h, d, x, y, .n32⟩) s = writes (fun l => if (a l).toNat ≤ (b l).toNat then b l else a l)) ∧
  (∀ (s : State) (t : TileId) (h : VHead),
  (∀ (d : Fin 64) (cc : Cond) (ty : LaneTy) (x y : VSrc), VRuns s t h [x.vin, y.vin] →
    cc ∈ [Cond.eq, .ne, .lt, .le, .gt, .ge] →
    let a (l : Fin 32) : Lane := vLane s t [x.vin, y.vin] 0 l
    let b (l : Fin 32) : Lane := vLane s t [x.vin, y.vin] 1 l
    ∃ r : Fin 32 → Bool,
      exec (.vcmp ⟨h, d, cc, ty, x, y⟩) s =
        .next (vWrites s t h [x.vin, y.vin] (.k d) 1 cMCPARITY fun l => if r l then 1 else 0) ∧
      ∀ l, r l = true ↔ match ty with
        | .int .i32 => match cc with
          | .eq => a l = b l
          | .ne => a l ≠ b l
          | .lt => (a l).toInt < (b l).toInt
          | .le => (a l).toInt ≤ (b l).toInt
          | .gt => (b l).toInt < (a l).toInt
          | _ => (b l).toInt ≤ (a l).toInt
        | .int .n32 => match cc with
          | .eq => a l = b l
          | .ne => a l ≠ b l
          | .lt => (a l).toNat < (b l).toNat
          | .le => (a l).toNat ≤ (b l).toNat
          | .gt => (b l).toNat < (a l).toNat
          | _ => (b l).toNat ≤ (a l).toNat
        | .fp f =>
          let u := fpIn f (a l).toNat
          let v := fpIn f (b l).toNat
          if u = .nan ∨ v = .nan then cc = .ne
          else match cc with
            | .eq => u.cmp false v = .eq
            | .ne => u.cmp false v ≠ .eq
            | .lt => u.cmp false v = .lt
            | .le => u.cmp false v ≠ .gt
            | .gt => u.cmp false v = .gt
            | _ => u.cmp false v ≠ .lt) ∧
  (∀ (d : VDst) (x y : VSrc) (c : Fin 64), VRuns s t h [x.vin, y.vin, .k c] →
    let srcs := [x.vin, y.vin, .k c]
    exec (.vsel h d x y c) s = .next (vWrites s t h srcs d.vout 1 cMCPARITY fun l =>
      if ((s.tile t).v.readK c).getLsbD l.val then vLane s t srcs 0 l else vLane s t srcs 1 l)) ∧
  ∀ (d x y : Fin 64) (op : LogOp), VRuns s t h [.k x, .k y] →
    ∃ r : Fin 32 → Bool,
      exec (.vplog h d x y op) s = .next (vWrites s t h [.k x, .k y] (.k d) 1 cMCPARITY fun l => if r l then 1 else 0) ∧
      ∀ l, r l = true ↔
        logTruth op (((s.tile t).v.readK x).getLsbD l.val = true) (((s.tile t).v.readK y).getLsbD l.val = true))

/-- R191 to R193: the conversions, and the SGBAD of an FMT word that is not of the kind asked for. R194: a reduction
gives every enabled lane its result over the enabled lanes, a scan gives lane ℓ that of the lanes to ℓ; without an
enabled lane, the identity of the operation. For the operations whose order does not matter the result is the plain
fold. -/
def Obligations.VectorConversions : Prop :=
  (∀ (s : State) (t : TileId) (h : VHead) (rm : Rm) (fmt : BitVec 32),
  let bad : Out := .next (s.engFault t .v cSGBAD 0)
  let w := (fmtFields fmt).w
  (∀ (d : VDst) (a : VSrc) (src dst : CvtTy), VRuns s t h [a.vin] →
    let nf := src = .nf ∨ dst = .nf
    let ok := fmtWf fmt = true ∧ fmtKind fmt = 4
    (nf ∧ ¬ok → exec (.vcvt ⟨h, d, a, src, dst, rm, fmt⟩) s = bad) ∧
    (¬nf ∨ ok → exec (.vcvt ⟨h, d, a, src, dst, rm, fmt⟩) s =
      .next (vWrites s t h [a.vin] d.vout 3 cMCPARITY fun l =>
        BitVec.ofNat 32 (cvtOut dst fmt rm (cvtIn src fmt (vLane s t [a.vin] 0 l).toNat))))) ∧
  (∀ (d : Fin 64) (a : VP), VRuns s t h [a.vin] →
    let ok := fmtWf fmt = true ∧ fmtKind fmt = 5 ∧ fmtBlk fmt = 5
    let block := (List.range 32).map fun i =>
      if (vMask s t h).getLsbD i then f32Val (vLane s t [a.vin] 0 (Fin.ofNat 32 i)).toNat else Val.zero
    let q := quantiseBlock block (fmtFields fmt) rm
    (¬ok → exec (.vqblk h d a rm fmt) s = bad) ∧
    (ok → exec (.vqblk h d a rm fmt) s = .next (vWrites s t h [a.vin] (.v d) 8 cMCPARITY fun l =>
      BitVec.ofNat 32 ((if q.unf then 2 ^ 17 else 0) + (if q.ovf then 2 ^ 16 else 0) + wrapInt 8 q.sh * 2 ^ 8 +
        q.codes.getD l.val 0)))) ∧
  ∀ (d : VDst) (a : VSrc), VRuns s t h [a.vin] →
    let ok := fmtWf fmt = true ∧ (fmtKind fmt = 4 ∨ fmtKind fmt = 5)
    let v (l : Fin 32) : Nat := (vLane s t [a.vin] 0 l).toNat
    (¬ok → exec (.vdqblk h d a rm fmt) s = bad) ∧
    (ok → exec (.vdqblk h d a rm fmt) s = .next (vWrites s t h [a.vin] d.vout 3 cMCPARITY fun l =>
      BitVec.ofNat 32 (f32Of (blockElem (v l % 2 ^ w) (fmtFields fmt) (sextNat 8 (v l / 256))) rm)))) ∧
  (∀ (s : State) (t : TileId) (h : VHead) (d : Fin 64) (a : VP) (op : RedOp),
  VRuns s t h [a.vin] →
  let code := match op with
    | .arith _ (.fp _) _ => cMCVRES
    | _ => cMCPARITY
  let lat := match op with
    | .arith _ (.fp _) _ => 20
    | _ => 5
  let on (n : Nat) : List Nat := (List.range n).filter fun l => (vMask s t h).getLsbD l
  let x (l : Nat) : Lane := vLane s t [a.vin] 0 (Fin.ofNat 32 l)
  let fold (f : Lane → Lane → Lane) (e : Lane) (n : Nat) : Lane := ((on n).map x).foldl f e
  let is (f : Lane → Lane → Lane) (e : Lane) : Prop :=
    exec (.vred ⟨h, d, a, op⟩) s = .next (vWrites s t h [a.vin] (.v d) lat code fun _ => fold f e 32) ∧
    exec (.vscan ⟨h, d, a, op⟩) s = .next (vWrites s t h [a.vin] (.v d) lat code fun l => fold f e (l.val + 1))
  (op = .logic .and → is (· &&& ·) 0xFFFFFFFF) ∧
  (op = .logic .or → is (· ||| ·) 0) ∧
  (op = .logic .xor → is (· ^^^ ·) 0) ∧
  (∀ ty rm, op = .arith .add (.int ty) rm → is (· + ·) 0) ∧
  (∀ rm, op = .arith .max (.int .i32) rm → is (fun u v => if u.toInt ≤ v.toInt then v else u) 0x80000000) ∧
  (∀ rm, op = .arith .min (.int .i32) rm → is (fun u v => if u.toInt ≤ v.toInt then u else v) 0x7FFFFFFF) ∧
  (∀ rm, op = .arith .max (.int .n32) rm → is (fun u v => if u.toNat ≤ v.toNat then v else u) 0) ∧
  (∀ rm, op = .arith .min (.int .n32) rm → is (fun u v => if u.toNat ≤ v.toNat then u else v) 0xFFFFFFFF) ∧
  ∀ (o : RedArith) (f : FpTy) (rm : Rm), op = .arith o (.fp f) rm →
    let lanes := redLanes op (vMask s t h) (Vector.ofFn fun l => vLane s t [a.vin] 0 l)
    exec (.vred ⟨h, d, a, op⟩) s = .next (vWrites s t h [a.vin] (.v d) 20 cMCVRES fun _ =>
      ((treeReduce (withAbsent (redStep op)) lanes).getD 0 none).getD (redIdentity op)) ∧
    exec (.vscan ⟨h, d, a, op⟩) s = .next (vWrites s t h [a.vin] (.v d) 20 cMCVRES fun l =>
      ((scanLanes (withAbsent (redStep op)) lanes).getD l.val none).getD (redIdentity op)))

/-- R195, R196, R200, R201: the words that move lanes, and those of trellis-coded weights. -/
def Obligations.VectorMoves : Prop := ∀ (s : State) (t : TileId) (h : VHead) (d : VDst),
  let x := s.tile t
  let lane (srcs : List VIn) (i n : Nat) : Lane := vLane s t srcs i (Fin.ofNat 32 n)
  let writes (srcs : List VIn) (d : VOut) (f : Fin 32 → Lane) : Out := .next (vWrites s t h srcs d 1 cMCPARITY f)
  (∀ a b : VP, VRuns s t h [a.vin, b.vin] →
    let srcs := [a.vin, b.vin]
    exec (.vperm h d a b) s = writes srcs d.vout (fun l =>
      if (vLane s t srcs 1 l).toNat < 32 then lane srcs 0 (vLane s t srcs 1 l).toNat else 0) ∧
    ∀ n : Fin 32, exec (.vslide h d a b n) s = writes srcs d.vout (fun l =>
      if l.val + n.val < 32 then lane srcs 0 (l.val + n.val) else lane srcs 1 (l.val + n.val - 32))) ∧
  (∀ (a : VP) (n : Fin 32), VRuns s t h [a.vin] →
    exec (.vbcst h d a n) s = writes [a.vin] d.vout (fun _ => vLane s t [a.vin] 0 n)) ∧
  (VRuns s t h [] → ∀ (base : BitVec 32) (step : Fin 32),
    exec (.vldi h d base step) s = writes [] d.vout (fun l => BitVec.ofNat 32 (base.toNat + l.val * step.val))) ∧
  (∀ a : VSrc, VRuns s t h [a.vin] →
    exec (.vmov h d a) s = writes [a.vin] d.vout (fun l => vLane s t [a.vin] 0 l) ∧
    (∀ k : Fin 64, exec (.vmovVToMask h k a) s = writes [a.vin] (.k k) (fun l => vLane s t [a.vin] 0 l)) ∧
    exec (.vtcw h d a) s = .next (vWrites s t h [a.vin] d.vout 4 cMCPARITY fun l =>
      let v := (vLane s t [a.vin] 0 l).toNat
      BitVec.ofNat 32 (f32Of (tcwWeight (v % 65536) (sextNat 8 (v / 65536))) .rne))) ∧
  (∀ k : Fin 64, VRuns s t h [.k k] →
    let bit (l : Fin 32) : Lane := if (x.v.readK k).getLsbD l.val then 1 else 0
    exec (.vmovMaskToV h d k) s = writes [.k k] d.vout bit ∧
    ∀ e : Fin 64, exec (.vmovK h e k) s = writes [.k k] (.k e) bit) ∧
  (∀ (n : Fin 4) (a : VSI), VRuns s t h [a.vin] →
    exec (.vmovToCsr h n a) s = .next (s.vDone t h.tok [a.vin] 1 cMCPARITY
      (if (vMask s t h).getLsbD 0 then .csr n (vLane s t [a.vin] 0 0) else .none))) ∧
  (VRuns s t h [] → ∀ (e : Fin 64) (n : Fin 16),
    let v : Nat := match n.val with
      | 0 => x.v.vrb.toNat
      | 1 => x.v.krb.toNat
      | 2 => x.v.lc.toNat
      | 3 => x.v.ec.toNat
      | k => x.portcfg (Fin.ofNat 12 (k - 4))
    exec (.vmovFromCsr h e n) s = writes [] (.v e) (fun l =>
      if l = 0 then BitVec.ofNat 32 v else if l = 1 then BitVec.ofNat 32 (v / 2 ^ 32) else 0)) ∧
  ∀ (e : Fin 64) (a b : VP) (c : VSrc) (kind : TcKind), VRuns s t h [a.vin, b.vin, c.vin] →
    let srcs := [a.vin, b.vin, c.vin]
    let p := if kind = .tc1 then 8 else 12
    let byte (n : Nat) : Byte := BitVec.ofNat 8 ((lane srcs 0 (n / 4)).toNat / 256 ^ (n % 4))
    exec (.vtwin h e a b c kind) s = .next (vWrites s t h srcs (.v e) 3 cMCPARITY fun l =>
      let b := (vLane s t srcs 1 l).toNat
      let q := b / 64 % 16
      if 128 < p * (q + 1) then 0x00800000
      else BitVec.ofNat 32 (tcWindow kind (ofBytes ((List.range p).map fun k => byte (p * q + k))) (b % 64) +
        (vLane s t srcs 2 l).toNat % 256 * 2 ^ 16))

/-- R206, R183, R56, R171, R356: what keeps a V word with a guard from its effect: a missing token waits; a guard, a
source of an enabled lane, or a popped position that is faulty stops the queue, and the word has no effect at all; a
popped position whose fetch met an error that could not be corrected is a contained event, and V stops. -/
def Obligations.VectorIssueRules : Prop := ∀ (s : State) (t : TileId) (i : Instr) (h : VHead) (srcs : List VIn),
  i.vHead = some (h, srcs) → s.cur = .eng t .v →
  let x := s.tile t
  let stops (code : Byte) (addr : Word) : Out := .next (s.engFault t .v code 0 addr)
  (x.canPop .v h.tok.pop = false → exec i s = .next s) ∧
  (x.canPop .v h.tok.pop = true →
    (x.v.inValid (.k h.g.k) = false → exec i s = stops cINVREG 0) ∧
    (x.v.inValid (.k h.g.k) = true →
      ((x.v.guard h.g ≠ 0 ∧ ∃ o ∈ srcs, x.v.inValid o = false) → exec i s = stops cINVREG 0) ∧
      ((x.v.guard h.g = 0 ∨ ∀ o ∈ srcs, x.v.inValid o = true) →
        ∀ f, (popsOf srcs []).findSome? (fun p => x.popFault p.1 p.2) = some f →
          (f.1 ≠ cMCSRAM → exec i s = stops f.1 (BitVec.ofNat 64 f.2)) ∧
          (f.1 = cMCSRAM → exec i s =
            .next ((s.containTile t cMCSRAM none).modEng t .v fun g => { g with stopped := true }))))) ∧
  ∀ code addr, OnlyTile s (s.engFault t .v code 0 addr) t ∧
    ((s.engFault t .v code 0 addr).tile t).v = x.v ∧ ((s.engFault t .v code 0 addr).tile t).tokens = x.tokens ∧
    ((s.engFault t .v code 0 addr).tile t).sp = x.sp ∧
    ((x.eng .v).fault = none → ∃ f, (((s.engFault t .v code 0 addr).tile t).eng .v).fault = some f ∧ f.code = code ∧
      f.addr = addr ∧ f.taken = false)

/-- R181, R182, R169, R56, R60: a V word that issues pops its token and its ports, its entry goes on, and what it
writes is on its way; nothing else of its tile changes, and nothing outside it. A push that its port refuses stops the
queue instead. -/
def Obligations.VectorDestinations : Prop := ∀ (s : State) (t : TileId) (tok : Tok) (srcs : List VIn) (mask : Lane)
    (lat : Nat) (code : Byte) (v : Lanes),
  let x := s.tile t
  (∀ w : VWrite,
    let u := s.vDone t tok srcs lat code w
    let y := u.tile t
    OnlyTile s u t ∧ y.v.flight = x.v.flight ++ [⟨s.gtime + lat, (x.eng .v).curSeq, code, tok.push, false, w⟩] ∧
    y.v = { x.v with flight := y.v.flight, ports := y.v.ports } ∧
    y = { x with v := y.v, tokens := y.tokens, engines := y.engines } ∧ (∀ e, e ≠ Eng.v → y.eng e = x.eng e) ∧
    (y.eng .v).nextIssue = s.gtime + 1 ∧ ((x.eng .v).branch = none → (y.eng .v).index = (x.eng .v).index + 1) ∧
    (∀ p : Fin 8, (x.port (inPort p)).set ≠ none →
      (y.port (inPort p)).pos = (x.port (inPort p)).pos + (srcs.filter fun o => o = VIn.ip p).length) ∧
    ∀ e f, y.token e f = if tok.pop = some e ∧ f = .v then x.token e f - 1 else x.token e f) ∧
  (∀ r, s.vTo t tok srcs (.v r) mask lat code v = s.vDone t tok srcs lat code (.v (physReg x.v.vrb r) mask v)) ∧
  (∀ r, ∃ m : Lane,
    s.vTo t tok srcs (.k r) mask lat code v = s.vDone t tok srcs lat code (.k (physReg x.v.krb r) mask m) ∧
    ∀ l : Fin 32, m.getLsbD l.val = true ↔ v[l] ≠ 0) ∧
  ∀ p,
    (∀ o, x.push (outPort p) mask v = .ok o → ∃ u, s.vTo t tok srcs (.op p) mask lat code v = u ∧
      u = (s.vDone t tok srcs lat code (.push p o.bytes o.ovf o.unf)).modTile t (fun y =>
        y.modPort (outPort p) fun q => { q with pos := (x.port (outPort p)).pos + 1 })) ∧
    (∀ f, x.push (outPort p) mask v = .error f →
      s.vTo t tok srcs (.op p) mask lat code v = s.engFault t .v f.1 0 (BitVec.ofNat 64 f.2))

/-- R164, R165, R170, R174, R175: `VPSET` sets a port and fetches its lead, `VPRST` returns it to position 0, `VPSYNC`
fetches again; the fields of a parameter set, and the address of a position. R197, R198, R183, R329: a `VACRD` or
`VACWR` with an enabled lane checks its bank, in order, its fault naming the bank; a `VACRD` takes the cells as they
stand, and with `drain` sets those of the enabled lanes to +0. -/
def Obligations.VectorPortWords : Prop :=
  ((∀ (s : State) (t : TileId) (o : PortOp), s.cur = .eng t .v → (s.tile t).canPop .v o.tok.pop = true →
    let x := s.tile t
    let stops (code : Byte) : Out := .next (s.engFault t .v code 0)
    let lead (q : PortSet) (pos : Nat) : List Lead :=
      if o.port.val ≤ 7 then (List.range 4).map fun i => x.fetch q (pos + i) else []
    let gives (i : Instr) (p : Port) : Prop := ∃ u, exec i s = .next u ∧ OnlyTile s u t ∧ (u.tile t).port o.port = p ∧
      (u.tile t).sp = x.sp ∧ (u.tile t).v.v = x.v.v ∧ ∀ n, n ≠ o.port → (u.tile t).port n = x.port n
    (∀ a : Fin 64,
      let lanes := x.v.v[(physReg x.v.vrb a)]
      (x.v.inValid (.v a) = false → exec (.vpset o a) s = stops cINVREG) ∧
      (x.v.inValid (.v a) = true →
        (portSetOf lanes = none → exec (.vpset o a) s = stops cSGBAD) ∧
        ∀ q, portSetOf lanes = some q → gives (.vpset o a) ⟨some q, 0, lead q 0, false, false⟩)) ∧
    ((x.port o.port).set = none → exec (.vprst o) s = stops cINVREG ∧ exec (.vpsync o) s = stops cINVREG) ∧
    ∀ q, (x.port o.port).set = some q →
      gives (.vprst o) { x.port o.port with pos := 0, lead := lead q 0 } ∧
      gives (.vpsync o) { x.port o.port with lead := lead q (x.port o.port).pos }) ∧
  (∀ a : Lanes,
    let w (n : Nat) : Nat := (a[Fin.ofNat 32 n]).toNat
    (portSetOf a = none ↔ 5 < w 1 ∨ 2 ^ 20 ≤ w 0 ∨ 2 ^ 16 ≤ w 2 ∨ 2 ^ 16 ≤ w 4 ∨ 2 ^ 16 ≤ w 6 ∨ 2 ^ 16 ≤ w 8) ∧
    ∀ q, portSetOf a = some q → q.base.toNat = w 0 ∧ rmCode q.rm = w 1 ∧
      ∀ i : Fin 4, q.cnt[i] = w (2 + 2 * i.val) + 1 ∧ q.str[i] = a[Fin.ofNat 32 (3 + 2 * i.val)]) ∧
  ∀ (q : PortSet) (j : Nat),
    let c (i : Fin 4) : Nat := q.cnt[i]
    let str (i : Fin 4) : Int := (q.str[i]).toInt
    (q.addr j : Int) = ((q.base.toNat : Int) + (j % c 0 : Nat) * str 0 + (j / c 0 % c 1 : Nat) * str 1 +
      (j / c 0 / c 1 % c 2 : Nat) * str 2 + (j / c 0 / c 1 / c 2 % c 3 : Nat) * str 3) % 2 ^ 20) ∧
  (∀ (s : State) (t : TileId) (h : VHead) (sel : VSI),
  let k := Machine.laneOf t
  let y := s.crew (crewOf t)
  let mask := vMask s t h
  let checks (i : Instr) (n : Nat) (none idle : Prop) : Prop :=
    let b := y.bank (Fin.ofNat 32 n)
    let stops (code : Byte) : Out := .next (s.engFault t .v code 0 (BitVec.ofNat 64 (n % 32)))
    (mask = 0 → none) ∧
    (mask ≠ 0 →
      (b.st = .free → exec i s = stops cACCUNALLOC) ∧
      (b.st ≠ .free → b.owners.getLsbD k.val = false → exec i s = stops cACCOWN) ∧
      (b.owners.getLsbD k.val = true → (b.st = .busy → exec i s = stops cACCBUSY) ∧ (b.st = .replay → exec i s = .next s) ∧
        (b.st = .idle → idle)))
  let lands (u : State) (code : Byte) (w : VWrite) : Prop := (u.tile t).v.flight =
    (s.tile t).v.flight ++ [⟨s.gtime + 8, ((s.tile t).eng .v).curSeq, code, h.tok.push, false, w⟩]
  (∀ (d : Fin 64) (drain : Bool), VRuns s t h [sel.vin] →
    let i := Instr.vacrd h d sel drain
    let n := (vLane s t [sel.vin] 0 0).toNat
    let b := y.bank (Fin.ofNat 32 n)
    let row := n / 32 % 32
    let col := 32 * (n / 1024 % 4)
    checks i n (exec i s = .next (s.vDone t h.tok [sel.vin] 8 cMCSRAM .none)) (∃ u, exec i s = .next u ∧
      lands u cMCSRAM (.v (physReg (s.tile t).v.vrb d) mask (Vector.ofFn fun l => b.cell row (col + l.val))) ∧
      (∀ (r : Fin 32) (c : Fin 128), ((u.crew (crewOf t)).bank (Fin.ofNat 32 n)).cell r.val c.val =
        if drain = true ∧ r.val = row ∧ col ≤ c.val ∧ c.val < col + 32 ∧ mask.getLsbD (c.val - col) = true then 0
        else b.cell r.val c.val) ∧
      ∀ m, m ≠ Fin.ofNat 32 n → (u.crew (crewOf t)).bank m = y.bank m)) ∧
  ∀ (a : VP) (add : Bool), VRuns s t h [a.vin, sel.vin] →
    let i := Instr.vacwr h a sel add
    let n := (vLane s t [a.vin, sel.vin] 1 0).toNat
    checks i n (exec i s = .next (s.vDone t h.tok [a.vin, sel.vin] 8 cMCPARITY .none)) (∃ u, exec i s = .next u ∧
      lands u cMCPARITY (.acc (n % 32) (n / 32 % 32) (32 * (n / 1024 % 4)) mask
        (Vector.ofFn fun l => vLane s t [a.vin, sel.vin] 0 l) add) ∧ u.crews = s.crews))

/-- R202 to R206, R60: `VNOP` and `VEND`; when `VLOOP` and `VBR` are taken, where they go after two delay slots, what
they do in a delay slot, and the check of their target. That a `VLOOP` on its way carries the VRB, KRB, LC and EC of
its issue cycle is the model's choice (log entry 42). -/
def Obligations.VectorControlWords : Prop := ∀ (s : State) (t : TileId) (tok : Tok),
  s.cur = .eng t .v → (s.tile t).canPop .v tok.pop = true →
  let x := s.tile t
  let g := x.eng .v
  exec (.vnop tok) s = .next (s.vDone t tok [] 0 cMCPARITY .none) ∧
  (∃ u, exec (.vend tok) s = .next u ∧ OnlyTile s u t ∧
    (u.tile t).v.flight = x.v.flight ++ [⟨s.gtime, g.curSeq, cMCPARITY, tok.push, false, .none⟩] ∧
    ((u.tile t).eng .v).branch = none ∧ ((u.tile t).eng .v).nextIssue = s.gtime + 1 ∧
    ∀ n, g.cur? = some n → { n with st := .issued, pendingWords := n.pendingWords + 1 } ∈ ((u.tile t).eng .v).queue) ∧
  (let gives (i : Instr) (taken : Prop) (target : BitVec 12) (w : VWrite) : Prop :=
    (taken ∧ g.curLen ≤ target.toNat → exec i s = .next (s.engFault t .v cILLOP 9)) ∧
    (¬(taken ∧ g.curLen ≤ target.toNat) → ∃ u, exec i s = .next u ∧ OnlyTile s u t ∧
      (u.tile t).v.flight = x.v.flight ++ [⟨s.gtime, g.curSeq, cMCPARITY, tok.push, false, w⟩] ∧
      ((u.tile t).eng .v).index = g.index + 1 ∧
      (taken ∧ g.index + 1 < g.curLen → ((u.tile t).eng .v).branch = some (target.toNat, 2)) ∧
      (¬(taken ∧ g.index + 1 < g.curLen) → ((u.tile t).eng .v).branch = none))
   ∀ target : BitVec 12,
    (g.branch ≠ none → exec (.vloop tok target) s = exec (.vnop tok) s) ∧
    (g.branch = none → gives (.vloop tok target) (0 < x.v.lc.toNat ∨ 1 < x.v.ec.toNat) target
      (.loop x.v.vrb x.v.krb x.v.lc x.v.ec)) ∧
    ∀ (k : VGuard) (all : Bool), x.v.inValid (.k k.k) = true →
      let m := x.v.guard k
      (g.branch ≠ none → exec (.vbr ⟨k, tok⟩ all target) s = exec (.vnop tok) s) ∧
      (g.branch = none →
        gives (.vbr ⟨k, tok⟩ all target) (if all then m = BitVec.allOnes 32 else m ≠ 0) target .none)) ∧
  (∀ target, g.branch = some (target, 2) → g.issue.index = g.index + 1 ∧ g.issue.branch = some (target, 1)) ∧
  (∀ target, g.branch = some (target, 1) → g.issue.index = target ∧ g.issue.branch = none) ∧
  ∀ n, g.cur? = some n → g.branch = none → g.curLen ≤ g.index + 1 →
    { n with st := .issued, pendingWords := n.pendingWords + 1 } ∈ g.issue.queue

/-- R182, R51, R180, R202, R198, R56, R357: what a V result does as it lands: its lanes, its mask, its CSR, the
rotation of `VLOOP`, or its cells take their values and nothing else does; a result that its check finds bad writes
nothing and is pending as a contained machine check. That a `VLOOP` goes by the CSRs that it read as it issued (log
entry 42), and that a check's outcome comes with the event (log entry 29), are the model's choices. R169, R166, R168,
R358: a push writes its bytes under their masks, and no other byte; its flags stay with the port; one whose check is
bad writes nothing and is pending as a contained machine check; that a check's outcome comes with the event is the
model's choice (log entry 29). -/
def Obligations.VectorResultsLand : Prop :=
  (∀ (s : State) (t : TileId) (l : VLand) (i : Nat),
  s.phase = .ending → (s.tile t).vLanding? s.gtime false = some (l, i) →
  let x := s.tile t
  ∃ u, exec (.vWriteLand t .good) s = .next u ∧
    let y := u.tile t
    (x.canPush .v l.push = true → y.v.flight = x.v.flight.eraseIdx i ∧
      ∀ e f, y.token e f = if e = .v ∧ l.push = some f then x.token e f + 1 else x.token e f) ∧
    (x.canPush .v l.push = false → y.v.flight = x.v.flight.set i { l with landed := true, w := .none } ∧
      y.tokens = x.tokens) ∧
    (∀ r mask lanes, l.w = .v r mask lanes → OnlyTile s u t ∧ y.v.k = x.v.k ∧
      (∀ q : Fin 64, (∀ n : Fin 32, y.v.v[q][n] = if q = r ∧ mask.getLsbD n.val = true then lanes[n] else x.v.v[q][n]) ∧
        y.v.vv.getLsbD q.val = (x.v.vv.getLsbD q.val || decide (q = r ∧ mask ≠ 0)))) ∧
    (∀ r mask bits, l.w = .k r mask bits → OnlyTile s u t ∧ y.v.v = x.v.v ∧
      ∀ q : Fin 64, (∀ n : Fin 32, (y.v.k[q]).getLsbD n.val =
          if q = r ∧ r ≠ 0 ∧ mask.getLsbD n.val = true then bits.getLsbD n.val else (x.v.k[q]).getLsbD n.val) ∧
        y.v.kv.getLsbD q.val = (x.v.kv.getLsbD q.val || decide (q = r ∧ r ≠ 0 ∧ mask ≠ 0))) ∧
    (∀ n v, l.w = .csr n v → OnlyTile s u t ∧ y.v.vrb = (if n = 0 then v.setWidth 5 else x.v.vrb) ∧
      y.v.krb = (if n = 1 then v.setWidth 5 else x.v.krb) ∧ y.v.lc = (if n = 2 then v else x.v.lc) ∧
      y.v.ec = (if n = 3 then v.setWidth 8 else x.v.ec) ∧ y.v.v = x.v.v ∧ y.v.k = x.v.k) ∧
    (∀ vrb krb lc ec, l.w = .loop vrb krb lc ec → OnlyTile s u t ∧ y.v.v = x.v.v ∧
      let turns : Prop := lc ≠ 0 ∨ ec ≠ 0
      let k32 := physReg y.v.krb 32
      (turns → y.v.vrb = vrb - 1 ∧ y.v.krb = krb - 1 ∧ y.v.kv.getLsbD k32.val = true ∧
        y.v.k[k32] = (if lc ≠ 0 then BitVec.allOnes 32 else 0) ∧ ∀ q, q ≠ k32 → y.v.k[q] = x.v.k[q]) ∧
      (¬turns → y.v.vrb = x.v.vrb ∧ y.v.krb = x.v.krb ∧ y.v.k = x.v.k) ∧
      y.v.lc = (if lc ≠ 0 then lc - 1 else x.v.lc) ∧
      y.v.ec = (if lc = 0 ∧ ec ≠ 0 then ec - 1 else x.v.ec)) ∧
    (∀ (b : Fin 32) row col mask lanes add, l.w = .acc b.val row col mask lanes add → row < 32 → col ≤ 96 →
      let old := (s.crew (crewOf t)).bank b
      let new := (u.crew (crewOf t)).bank b
      (∀ (r : Fin 32) (c : Fin 128), new.cell r.val c.val =
        if r.val = row ∧ col ≤ c.val ∧ c.val < col + 32 ∧ mask.getLsbD (c.val - col) = true then
          (let v := lanes[Fin.ofNat 32 (c.val - col)]
           if add then BitVec.ofNat 32 (fp32AddRne (old.cell r.val c.val).toNat v.toNat) else v)
        else old.cell r.val c.val) ∧
      (∀ m, m ≠ b → (u.crew (crewOf t)).bank m = (s.crew (crewOf t)).bank m) ∧ y.v.v = x.v.v ∧ y.v.k = x.v.k) ∧
    (l.landed = false → l.w ≠ .none → (∀ a b n m, l.w ≠ .loop a b n m) → ∀ chk,
      chk = .double ∨ chk = .residue ∧ l.code = cMCVRES → ∃ b, exec (.vWriteLand t chk) s = .next b ∧
      (b.tile t).v.v = x.v.v ∧ (b.tile t).v.k = x.v.k ∧ (b.tile t).v.vv = x.v.vv ∧ b.crews = s.crews ∧
      (x.live = true → (b.cox t).pend.mc = some l.code))) ∧
  (∀ (s : State) (t : TileId) (l : VLand) (i : Nat) (p : Fin 4)
    (bytes : List (Nat × Byte × Byte)) (ovf unf : Bool),
  s.phase = .ending → (s.tile t).vLanding? s.gtime true = some (l, i) → l.w = .push p bytes ovf unf →
  let x := s.tile t
  (∀ chk, chk = .double ∨ chk = .residue ∧ l.code = cMCVRES → l.landed = false → ∃ b, exec (.portPushLand ⟨t, chk⟩) s = .next b ∧
    (b.tile t).sp = x.sp ∧ (x.live = true → (b.cox t).pend.mc = some l.code)) ∧
  ∃ u, exec (.portPushLand ⟨t, .good⟩) s = .next u ∧
    u = { s with tiles := u.tiles, dev := { s.dev with flaws := u.dev.flaws } } ∧ (∀ v, v ≠ t → u.tile v = s.tile v) ∧
    let y := u.tile t
    (∀ a, (∀ b ∈ bytes, b.1 ≠ a) → y.sp.get a = x.sp.get a) ∧
    ((bytes.map Prod.fst).Nodup → ∀ b ∈ bytes, ∀ n : Fin 8,
      (y.sp.get b.1).getLsbD n.val = if b.2.2.getLsbD n.val then b.2.1.getLsbD n.val else (x.sp.get b.1).getLsbD n.val) ∧
    (y.port (outPort p)).ovf = ((x.port (outPort p)).ovf || ovf) ∧
    (y.port (outPort p)).unf = ((x.port (outPort p)).unf || unf) ∧
    y.v.v = x.v.v ∧ y.v.k = x.v.k ∧ y.cox = x.cox ∧
    (x.canPush .v l.push = true → y.v.flight = x.v.flight.eraseIdx i))

/-! ## L, S and M words, and steps (06_portage.md, 10_eight.md, 11_regatta.md) -/

/-- R124, R125, R127, R128, R145: an L or S word issues into the time buffer with its start time and its entry's
arguments: the time of a timed word is the one nearest to GTIME that its field names, `CPYT` adds ARGB, and an untimed
one is GTIME. -/
def Obligations.CommandWords : Prop := ∀ (s : State) (t : TileId) (e : Eng) (tok : Tok), CmdRuns s t e tok →
  let x := s.tile t
  let g := x.eng e
  let near (f : BitVec 32) (T : Int) : Prop :=
    (2 ^ 32 : Int) ∣ T - f.toNat ∧ (s.gtime : Int) - 2 ^ 31 ≤ T ∧ T < s.gtime + 2 ^ 31
  let time (f : Option (BitVec 32)) (n : Int) : Prop := match f with
    | some f => near f n
    | none => n = s.gtime
  let issues (i : Instr) (start wait : Int → Prop) (ends : Bool) : Prop := ∃ u c, exec i s = .next u ∧ OnlyTile s u t ∧
    let y := u.tile t
    y.portage.buffer = x.portage.buffer ++ [c] ∧ c.instr = i ∧ c.stream = e ∧ c.push = tok.push ∧ c.seq = g.curSeq ∧
    start c.t ∧ wait c.waitFor ∧ c.stage = .buffered ∧ c.prog = none ∧ c.resume = (0, 0, 0) ∧ c.id = x.portage.nextId ∧ c.index = g.index ∧
    y.portage.nextId = x.portage.nextId + 1 ∧ (∀ n, g.cur? = some n → c.a = n.a ∧ c.b = n.b) ∧
    (∀ a b, y.token a b = if tok.pop = some a ∧ b = e then x.token a b - 1 else x.token a b) ∧
    (y.eng e).nextIssue = s.gtime + 1 ∧ (ends = false → g.branch = none → (y.eng e).index = g.index + 1) ∧
    (ends = true → ∀ n, g.cur? = some n → { n with st := .issued, pendingWords := n.pendingWords + 1 } ∈ (y.eng e).queue) ∧
    y = { x with portage := y.portage, tokens := y.tokens, engines := y.engines } ∧ ∀ f, f ≠ e → y.eng f = x.eng f
  let now (n : Int) : Prop := n = s.gtime
  (∀ f, issues (.cnop tok f) (time f) (· = 0) false) ∧
  (∀ o : ElemOp, o.tok = tok →
    (∀ i ∈ [Instr.cpy o, .cpyr o, .cfill o, .cgath o, .cscat o, .csg o, .cseal o, .copld o true, .copld o false, .covl o,
      .cwtx o, .ctce o], issues i (time o.timed) (· = 0) false) ∧
    issues (.cprb o) now (· = 0) false ∧
    ∀ (d : BitVec 32) (n : Entry), g.cur? = some n → issues (.cpyt o d) (near (n.b.setWidth 32 + d)) (· = 0) false) ∧
  (∀ o : CSigOp, o.tok = tok → issues (.csig o) now (· = 0) false ∧ issues (.cwaitSignal o) now (· = 0) false) ∧
  (∀ f, issues (.cwaitTime tok f) now (near f) false) ∧
  issues (.cend tok) now (· = 0) true

/-- R126, R146, R295: a command starts no earlier than its time, after every command of its stream that stands before
it in start order, where it or one that runs is serialising, alone, and not while one that runs has a predicate still
to read; a fault of its stream other than an ILLOP of a later word keeps it back. That the start order of a cycle is
settled at its end is the model's reading (log entry 39, DEDUCED). R124, R145, R130, R133, R141: the command that is
next starts: `CSIG` and `CWAIT` begin, in a PAIR launch they stop with PROT where they name a Signal word, `CNOP` and
`CEND` have nothing left to do, an element at a misaligned address stops it, and a copy whose checks pass, and whose
element lies in good granules of scratchpad, runs from the row at which it had stopped, its Signal predicate, if it
has one, being asked for first. A `COPLD` takes its slot. -/
def Obligations.CommandOrder : Prop :=
  (∀ (s : State) (t : TileId) (e : Eng) (c : PCmd),
  let buffer := (s.tile t).portage.buffer
  let runs (d : PCmd) : Prop := d ∈ buffer ∧ d.stream = e ∧ (d.stage = .started ∨ d.stage = .retiring)
  s.startable t e = some c →
  c ∈ buffer ∧ c.stream = e ∧ c.stage = .buffered ∧ c.t ≤ s.gtime ∧
  ((s.tile t).eng e).stopped = false ∧ (∀ f, ((s.tile t).eng e).fault = some f → f.code = cILLOP) ∧
  (∀ d ∈ buffer, d.stream = e → d.stage = .buffered → c.t < d.t ∨ c.t = d.t ∧ c.id ≤ d.id) ∧
  (∀ d, runs d → d.serial = false ∧ s.readsAhead t d = false) ∧ (s.serialising t c = true → ∀ d, ¬runs d)) ∧
  (∀ (s : State) (t : TileId) (c : PCmd),
  s.holding = false → s.phase = .ending →
  (s.startable t .l = some c ∧ (∀ d, s.startable t .s = some d → startsBefore d c = false) ∨
    s.startable t .s = some c ∧ ∀ d, s.startable t .l = some d → startsBefore c d = true) →
  let starts (p : State → PCmd → Prop) : Prop := ∃ u, exec (.commandStart t) s = .next u ∧
    (u.tile t).portage.order = (s.tile t).portage.order + 1 ∧
    ∃ d ∈ (u.tile t).portage.buffer, d.id = c.id ∧ d.startOrder = (s.tile t).portage.order + 1 ∧ p u d
  (∀ o, c.instr = .csig o ∨ c.instr = .cwaitSignal o →
    (s.inPair t = false → starts fun u d => d.stage = .started ∧ u.dev = s.dev) ∧
    (s.inPair t = true → starts fun u d => d.stage = .stopped ∧ u.dev = s.dev ∧
      (((s.tile t).eng c.stream).fault = none → ∃ f, ((u.tile t).eng c.stream).fault = some f ∧ f.code = cPROT))) ∧
  (∀ tok f, c.instr = .cwaitTime tok f → starts fun u d => d.stage = .started ∧ u.dev = s.dev) ∧
  ((∃ tok f, c.instr = .cnop tok f) ∨ (∃ tok, c.instr = .cend tok) → starts fun u d => d.stage = .retiring ∧ u.dev = s.dev) ∧
  (∀ k o, elemCmd c.instr = some (k, o) → c.ea % 64 ≠ 0 → starts fun u d =>
    d.stage = .stopped ∧ u.dev = s.dev ∧ (u.tile t).sp = (s.tile t).sp ∧
    (((s.tile t).eng c.stream).fault = none →
      ∃ f, ((u.tile t).eng c.stream).fault = some f ∧ f.code = cMISALIGN ∧ f.addr = BitVec.ofNat 64 c.ea)) ∧
  (∀ k o, elemCmd c.instr = some (k, o) → k ∉ [PKind.seal, .chain, .prb] → c.ea % 64 = 0 →
    let ea := chainAddr (s.tile t).sp c.ea c.resume.1
    let bytes := (s.tile t).sp.read ea 64
    let begun (d : PCmd) : PCmd :=
      { d with startOrder := (s.tile t).portage.order + 1, serial := s.serialising t c, mark := (s.cox t).nextReq }
    let s1 := s.modTile t fun x =>
      { x with portage := { x.portage with order := x.portage.order + 1 } }.modCmd c.id begun
    let at' (phase : PPhase) (ran : Bool) (list : List Nat) : PProgress :=
      { elem := bytes, ea := ea, ordinal := c.resume.1, phase := phase, ran := ran, row := c.resume.2.1,
        done := c.resume.2.2, units := [], asked := [], got := [], unacked := 0, bad := none, deferred := false, list := list,
        late := [] }
    GranulesGood s (spSites t ea 64 ++ s1.elemSites t k (elemOf bytes)) →
    c.answer = none → s1.startElem t (begun c) k (elemOf bytes) 0 = .run →
    ((elemOf bytes).predSignal = true → starts fun u d => d.stage = .started ∧ d.prog = some (at' .predicate false []) ∧
      d.answer = some none ∧ u.dev = s.dev ∧ (u.tile t).sp = (s.tile t).sp) ∧
    ((elemOf bytes).predSignal = false → starts fun u d => d.stage = .started ∧
      d.prog = some (at' .rows true (if k = .opld then [] else (s1.listed t (k.resolve (elemOf bytes)) (elemOf bytes)).list)) ∧
      u.dev = s.dev ∧ (u.tile t).sp = (s.tile t).sp ∧
      (k = .opld → ((u.crew (crewOf t)).slot (Fin.ofNat 32 (opldSlot (elemOf bytes)))).st = .filling) ∧
      (k ≠ .opld → u.crews = s.crews))))

/-- R124, R56, R212, R142: a command that has nothing left to do and room for its token retires at the end of a cycle
whose writes have landed: it leaves the buffer, its entry has one word fewer to wait for and keeps it as retired
(R146); after the last `COPLD` with FIN its slot is READY, and after a `COVL` that moved something no image counts as
loaded (R133). R149, R162, R169, R161: of the bytes that a command of Portage writes, those that a command which
started later has written or reduced onto stay away, and the others are its own from then on; a reduce is kept only
from bytes that a later command has written, and lets earlier writes no longer land; what leaves lands under its masks
at the end of a cycle in which its banks can serve it, and no other byte changes. -/
def Obligations.CommandsRetire : Prop :=
  (∀ (s : State) (t : TileId) (c : PCmd),
  let x := s.tile t
  x.portage.buffer.find? (fun d => d.id = c.id ∧ d.stage = .retiring) = some c → s.phase = .ending →
  x.portage.flight = [] → x.canPush c.stream c.push = true →
  ∃ u, exec (.commandRetire t c.id) s = .next u ∧
    let y := u.tile t
    y.portage.buffer = x.portage.buffer.filter (fun d => d.id ≠ c.id) ∧ y.sp = x.sp ∧ y.cox = x.cox ∧
    (∀ a b, y.token a b = if a = c.stream ∧ c.push = some b then x.token a b + 1 else x.token a b) ∧
    (∀ n, (x.eng c.stream).queue.find? (fun n => n.seq = c.seq) = some n →
      (y.eng c.stream).queue.find? (fun n => n.seq = c.seq) = 
        some { n with pendingWords := n.pendingWords - 1, retired := c.index :: n.retired }) ∧
    (∀ o fin (n : Fin 32), c.instr = .copld o fin → c.slot = some n.val →
      let a := (s.crew (crewOf t)).slot n
      let b := (u.crew (crewOf t)).slot n
      b.data = a.data ∧ b.started = a.started - 1 ∧
      (a.st = .filling → a.started ≤ 1 → (a.fin = true ∨ fin = true) → b.st = .ready) ∧
      (¬(a.st = .filling ∧ a.started ≤ 1 ∧ (a.fin = true ∨ fin = true)) → b.st = a.st)) ∧
    ∀ o p, c.instr = .covl o → c.prog = some p → (p.ran = true → y.image = none) ∧
      (p.ran = false → y.image = x.image ∧ ∀ e, (y.eng e).dir = (x.eng e).dir)) ∧
  (∀ (s : State) (t : TileId) (bs : List (Nat × Byte × Byte)),
  let x := s.tile t
  (∀ (order : Nat) (key : Nat → Nat),
    let u := s.claimBytes t order key bs
    let mine (a : Nat) : Prop := (x.portage.owner.get (key a) (0, 0)).2 ≤ order
    OnlyTile s u.1 t ∧ (u.1.tile t).sp = x.sp ∧ (∀ b, b ∈ u.2 ↔ b ∈ bs ∧ mine b.1) ∧
    (∀ b ∈ bs, mine b.1 → (u.1.tile t).portage.owner.get (key b.1) (0, 0) = (order, order)) ∧
    ∀ k, (∀ b ∈ bs, mine b.1 → key b.1 ≠ k) → (u.1.tile t).portage.owner.get k (0, 0) = x.portage.owner.get k (0, 0)) ∧
  (∀ (order key : Nat),
    let o := x.portage.owner.get key (0, 0)
    (x.portage.mayReduce order key = true ↔ o.1 ≤ order) ∧
    ∀ k, (x.portage.reduces order key).owner.get k (0, 0) = if k = key then (o.1, max o.2 order) else x.portage.owner.get k (0, 0)) ∧
  (x.portage.flight = [(none, .bytes (.sp t) bs)] → (bs.map Prod.fst).Nodup → x.linesFit .write (linesOf (bs.map Prod.fst)) = true →
    let v := s.landPortage t
    let y := v.tile t
    v = { s with tiles := v.tiles, dev := { s.dev with flaws := v.dev.flaws } } ∧ (∀ u, u ≠ t → v.tile u = s.tile u) ∧
    y.portage.flight = [] ∧
    (∀ a, (∀ b ∈ bs, b.1 ≠ a) → y.sp.get a = x.sp.get a) ∧
    ∀ b ∈ bs, ∀ n : Fin 8, (y.sp.get b.1).getLsbD n.val =
      if b.2.2.getLsbD n.val then b.2.1.getLsbD n.val else (x.sp.get b.1).getLsbD n.val))

/-- R144, R121, R349: the block at the head of a TCE that is online is done, and its results leave for the tile's
scratchpad; after its last block the command has no row left. R90, R91: GTIME alone says which group of a weight store
refreshes, so that the opening of a window changes nothing by itself; a started command whose next read lies in a
window has the read deferred, and DEFER counts it once, up to 0xFFFF, while nothing leaves its tile. -/
def Obligations.TceAndRefresh : Prop :=
  (∀ (s : State) (d : DieId) (j : TceJob) (rest : List TceJob) (c : PCmd) (p : PProgress),
  (s.die d).tce = j :: rest →
  (s.tile j.tile).portage.buffer.find? (fun c => c.id = j.cmd ∧ c.stage = .started) = some c → c.prog = some p →
  s.sys.tceOnline.getLsbD d.val = true → j.stream + 12 ≤ 2 ^ 20 → j.shAddr < 2 ^ 20 → (∀ a, j.cost = some a → a + 4 ≤ 2 ^ 20) →
  let r := tceBlock j.kind j.y j.sh
  let w := if j.kind = .tc1 then 8 else 12
  let bytes (a : Nat) (l : List Byte) : List (Nat × Byte × Byte) := l.zipIdx.map fun b => (a + b.2, b.1, 0xFF)
  ∃ u, exec (.tceBlockDone d) s = .next u ∧ (u.die d).tce = rest ∧
    (∃ ws : List (List (Nat × Byte × Byte)), (u.tile j.tile).portage.flight = (s.tile j.tile).portage.flight ++ ws.map (fun l => (none, .bytes (.sp j.tile) l)) ∧
      ∀ b, (∃ l ∈ ws, b ∈ l) ↔ (b ∈ bytes j.stream (toBytes w r.stream) ∨ b ∈ bytes j.shAddr [BitVec.ofInt 8 r.sh] ∨
          ∃ a, j.cost = some a ∧ b ∈ bytes a (toBytes 4 r.cost)) ∧
        ((s.tile j.tile).portage.owner.get ((PTarget.sp j.tile).key b.1) (0, 0)).2 ≤ c.startOrder) ∧
    (p.done = (elemOf p.elem).len / 256 → (∀ k ∈ rest, ¬(k.tile = j.tile ∧ k.cmd = j.cmd)) →
      ∃ e ∈ (u.tile j.tile).portage.buffer, e.id = c.id ∧ e.prog = some { p with row := (elemOf p.elem).rows })) ∧
  (∀ (s : State),
  (∀ (d : DieId) (g : Fin 16), ∃ u, exec (.wsRefreshWindow d g) s = .next u ∧ u = s) ∧
  (∀ (t : TileId) (va : Nat), s.refreshing t va = true ↔ ∃ p, s.pageFor t va = some p ∧ pteTier p.pte = 2 ∧
    let g := p.at' va / 2 ^ 12 % 16
    512 * g ≤ s.gtime % 8192 ∧ s.gtime % 8192 < 512 * g + 64) ∧
  ∀ (t : TileId) (c : PCmd) (o : ElemOp) (p : PProgress) (pl : Plan) (n : Machine.PUnit) (rest : List Machine.PUnit) (l : Nat),
    (s.tile t).portage.buffer.find? (fun d => d.id = c.id ∧ d.stage = .started) = some c →
    elemCmd c.instr = some (.copy, o) → c.prog = some p → p.bad = none → p.phase = .rows → p.element.ss = 0 →
    s.plan t c .copy p.element = .ok pl → p.units = n :: rest → n.sent = false →
    (s.unitLines t .copy p.element pl n).all p.has = false → s.nextLine t .copy p.element pl p = some l →
    s.refreshing t l = true →
    let v := s.granule t c.id
    OnlyTile s v t ∧ (v.cox t).defer.toNat = (if p.deferred then (s.cox t).defer.toNat else min 0xFFFF ((s.cox t).defer.toNat + 1)) ∧
    v.cox t = { s.cox t with defer := (v.cox t).defer } ∧
    ∀ d ∈ (v.tile t).portage.buffer, d.id = c.id → d.stage = .started ∧ (d = c ∨ d.prog = some { p with deferred := true }))

/-- R218, R221, R223, R214: the M words that set the tile's matrix state, `MFMT` with its SGBAD; each joins the open
batch and occupies one cycle. R221, R215, R60: `MCOMMIT` closes the batch, whose number is the new BCLOSED; `MEND`
ends its entry. -/
def Obligations.MatrixStateWords : Prop :=
  (∀ (s : State) (t : TileId) (tok : Tok), MRuns s t tok →
  let m := (s.tile t).m
  let sets (i : Instr) (p : MState → Prop) : Prop := ∃ u, exec i s = .next u ∧
    let n := (u.tile t).m
    p n ∧ n = { m with mrow := n.mrow, mcol := n.mcol, fmta := n.fmta, fmtb := n.fmtb, sa := n.sa, sb := n.sb,
                       batches := n.batches, window := n.window } ∧
    (∃ b ∈ n.batches, b.closed = false) ∧ ((u.tile t).eng .m).nextIssue = s.gtime + 1 ∧
    (∀ a b, (u.tile t).token a b = if tok.pop = some a ∧ b = .m then (s.tile t).token a b - 1 else (s.tile t).token a b) ∧
    (u.crew (crewOf t)).turnWords = (s.crew (crewOf t)).turnWords + 1 ∧
    (u.crew (crewOf t)).slots = (s.crew (crewOf t)).slots ∧ (u.crew (crewOf t)).banks = (s.crew (crewOf t)).banks
  (∀ lo hi : Byte,
    sets (.msetrow tok lo hi) (fun n => { n with batches := m.batches, window := m.window } = { m with mrow := n.mrow } ∧
      ∀ i : Fin 128, n.mrow.getLsbD i.val = decide (lo.toNat ≤ i.val ∧ i.val < hi.toNat)) ∧
    sets (.msetcol tok lo hi) (fun n => { n with batches := m.batches, window := m.window } = { m with mcol := n.mcol } ∧
      ∀ i : Fin 128, n.mcol.getLsbD i.val = decide (lo.toNat ≤ i.val ∧ i.val < hi.toNat))) ∧
  (∀ (q : Fin 4) (b : BitVec 32),
    sets (.msetrowPart tok q b) (fun n => { n with batches := m.batches, window := m.window } = { m with mrow := n.mrow } ∧
      ∀ i : Fin 128, n.mrow.getLsbD i.val = if i.val / 32 = q.val then b.getLsbD (i.val % 32) else m.mrow.getLsbD i.val) ∧
    sets (.msetcolPart tok q b) (fun n => { n with batches := m.batches, window := m.window } = { m with mcol := n.mcol } ∧
      ∀ i : Fin 128, n.mcol.getLsbD i.val = if i.val / 32 = q.val then b.getLsbD (i.val % 32) else m.mcol.getLsbD i.val)) ∧
  (∀ (opb : Bool) (f : BitVec 32),
    let ok := fmtWf f = true ∧ (2 ≤ fmtKind f ∧ fmtKind f ≤ 7 ∨ opb = true ∧ (fmtKind f = 8 ∨ fmtKind f = 9))
    (ok → sets (.mfmt tok opb f) (fun n => { n with batches := m.batches, window := m.window } =
      if opb then { m with fmtb := f } else { m with fmta := f })) ∧
    (¬ok → exec (.mfmt tok opb f) s = .next (s.engFault t .m cSGBAD 0))) ∧
  ∀ sa sb : Byte, sets (.mscale tok sa sb)
    (fun n => { n with batches := m.batches, window := m.window } = { m with sa := sa, sb := sb })) ∧
  (∀ (s : State) (t : TileId) (tok : Tok), MRuns s t tok →
  let m := (s.tile t).m
  let g := (s.tile t).eng .m
  (∃ u, exec (.mcommit tok) s = .next u ∧
    let n := (u.tile t).m
    n.bclosed = m.bclosed + 1 ∧ n.bret = m.bret ∧ (∀ b ∈ n.batches, b.closed = true) ∧ n.mrow = m.mrow ∧ n.fmta = m.fmta ∧
    (∃ b, n.batches.getLast? = some b ∧ b.push = tok.push ∧ b.seq = g.curSeq ∧
      (m.batches = [] → b.number = m.bclosed + 1 ∧ b.unlanded = 0 ∧ n.batches = [b])) ∧
    ((u.tile t).eng .m).nextIssue = s.gtime + 1 ∧ (u.crew (crewOf t)).turnWords = (s.crew (crewOf t)).turnWords + 1 ∧
    (u.crew (crewOf t)).banks = (s.crew (crewOf t)).banks) ∧
  ∃ u, exec (.mend tok) s = .next u ∧ (u.tile t).m = m ∧
    (u.crew (crewOf t)).turnWords = (s.crew (crewOf t)).turnWords ∧
    (u.crew (crewOf t)).banks = (s.crew (crewOf t)).banks ∧
    ∀ n, g.cur? = some n → { n with st := .issued, pendingWords := n.pendingWords + 1 } ∈ ((u.tile t).eng .m).queue)

/-- R219, R220, R214, R212, R213, R224: a multiply or zeroing command that passes its checks enters the array with the
contents of its slots, for as many cycles as R215 says, its banks BUSY and its slots read; the checks of R224 stop it,
in order, with the slot or the bank in TADDR (R329). That a bank kept for an iteration that is away counts as not
allocated (log entry 37), and that the slots' contents are those of the issue cycle (log entry 43), are the model's
choices. -/
def Obligations.MatrixCommands : Prop := ∀ (s : State) (t : TileId) (tok : Tok), MRuns s t tok →
  let m := (s.tile t).m
  let y := s.crew (crewOf t)
  let stops (i : Instr) (code : Byte) (n : Nat) : Prop := exec i s = .next (s.engFault t .m code 0 (BitVec.ofNat 64 n))
  let gone (b : Nat) : Bool := decide (32 ≤ b) || decide ((y.bank (Fin.ofNat 32 b)).st = .free) ||
    decide ((y.bank (Fin.ofNat 32 b)).st = .kept)
  let runs (i : Instr) (occ : Nat) (slots touched : List Nat) (w : ArrayWork) : Prop :=
    (∀ b, touched.find? gone = some b → stops i cACCUNALLOC b) ∧
    (touched.any gone = false →
      touched.any (fun b => decide ((y.bank (Fin.ofNat 32 b)).st = .replay)) = true → exec i s = .next s) ∧
    (touched.any gone = false →
      touched.any (fun b => decide ((y.bank (Fin.ofNat 32 b)).st = .replay)) = false → ∃ u c, exec i s = .next u ∧
        (u.crew (crewOf t)).cmds = y.cmds ++ [c] ∧ c.work = w ∧ c.due = s.gtime + occ + 23 ∧
        c.readEnd = s.gtime + occ - 1 ∧ c.slots = slots ∧ c.tile = Machine.laneOf t ∧ c.push = tok.push ∧
        c.seq = ((s.tile t).eng .m).curSeq ∧ c.replayed = false ∧ c.landed = false ∧
        (u.crew (crewOf t)).busyUntil = s.gtime + occ ∧ ((u.tile t).eng .m).nextIssue = s.gtime + occ ∧
        (∀ n : Fin 32, ((u.crew (crewOf t)).bank n).cells = (y.bank n).cells ∧
          ((u.crew (crewOf t)).bank n).st = (if n.val ∈ touched ∧ (y.bank n).st = .idle then .busy else (y.bank n).st)) ∧
        (∀ n : Fin 32, ((u.crew (crewOf t)).slot n).readers = (y.slot n).readers + (slots.filter fun k => k = n.val).length) ∧
        ∃ b ∈ (u.tile t).m.batches, b.closed = false ∧ ∀ n ∈ touched, b.touched.getLsbD n = true)
  let block (f : Lane) : Prop := fmtKind f = 5 ∨ fmtKind f = 8 ∨ fmtKind f = 9
  let tcw (f : Lane) : Prop := fmtKind f = 8 ∨ fmtKind f = 9
  (∀ o : MmaOp, o.tok = tok →
    let k := o.k1.toNat + 1
    let chunk := min (fmtChunk m.fmta) (fmtChunk m.fmtb)
    let slots := if o.sa = o.sb then [o.sa.val] else [o.sa.val, o.sb.val]
    let banks := ((List.range 4).filter fun q => decide (m.mrow.toNat / 2 ^ (32 * q) % 2 ^ 32 ≠ 0)).map fun q => o.bank.val + q
    let work (zero transp tcw : Bool) : ArrayWork :=
      .mul zero transp tcw o.bank.val k o.aoff.toNat o.boff.toNat m.mrow m.mcol m.fmta m.fmtb (m.sa.toInt + m.sb.toInt)
        (y.slot o.sa).data (y.slot o.sb).data
    let gives (i : Instr) (bad : Prop) (w : ArrayWork) : Prop :=
      (bad → stops i cSGBAD 0) ∧
      (¬bad → (y.slot o.sa).st ≠ .ready → stops i cSLOTSTATE o.sa.val) ∧
      (¬bad → (y.slot o.sa).st = .ready → (y.slot o.sb).st ≠ .ready → stops i cSLOTSTATE o.sb.val) ∧
      (¬bad → (y.slot o.sa).st = .ready → (y.slot o.sb).st = .ready → runs i (ceilDiv k (chunk / 32)) slots banks w)
    gives (.mma o) (block m.fmtb) (work false false false) ∧ gives (.mmaz o) (block m.fmtb) (work true false false) ∧
    gives (.mmat o) (tcw m.fmtb) (work false true false) ∧ gives (.mtcw o) (¬tcw m.fmtb) (work false false true)) ∧
  (∀ bank : Fin 32,
    let banks := ((List.range 4).filter fun q => decide (m.mrow.toNat / 2 ^ (32 * q) % 2 ^ 32 ≠ 0)).map fun q => bank.val + q
    runs (.macz tok bank) 1 [] banks (.zeroMasked bank.val m.mrow m.mcol)) ∧
  ∀ (bank : Fin 32) (n : Fin 4),
    let banks := (List.range (n.val + 1)).map fun i => bank.val + i
    runs (.mtile tok bank n) 1 [] banks (.zeroBanks bank.val (n.val + 1)) ∧
    ∀ u, exec (.mtile tok bank n) s = .next u → (u.tile t).m.batches ≠ m.batches →
      ∃ w, (u.tile t).m.window = some w ∧ w.words = [] ∧ w.whole = true ∧ ∀ b ∈ banks, b < 32 → w.banks.getLsbD b = true

/-- R214, R219, R220, R215, R223, R357: the writes of a command land in the cells of enabled rows and columns, and in
no other; a command whose check finds an uncorrectable error writes nothing: its whole window is zeroed and issued
again, or the iteration has a contained machine check and no cell changes. A command that came before the tile's last
`MTILE`, or meets the error in a replay, is contained: the first is the model's choice (log entry 43, DEDUCED). R221,
R223, R212: batches retire in order, each when its writes have landed; a replay ends, and its banks leave REPLAY, when
its last command has landed; a slot has one reader fewer after a command's last read cycle. -/
def Obligations.MatrixLandings : Prop :=
  (∀ (s : State) (c : CrewId) (k : ArrayCmd),
  s.phase = .ending → s.landing? c = some k → k.landed = false →
  let y := s.crew c
  let cell (y : Crew) (b r n : Nat) : Lane := (y.bank (Fin.ofNat 32 b)).cell r n
  (∀ zero transp tcw bank n aoff boff mrow mcol fmta fmtb scale a b,
    k.work = .mul zero transp tcw bank n aoff boff mrow mcol fmta fmtb scale a b →
    (∀ i : Fin 128, mrow.getLsbD i.val = true → bank + i.val / 32 < 32) →
    ∃ u, exec (.mWritesLand c .good) s = .next u ∧
      let on (q r j : Nat) : Prop := bank ≤ q ∧ 32 * (q - bank) + r < 128 ∧ mrow.getLsbD (32 * (q - bank) + r) = true ∧
        mcol.getLsbD j = true
      let chunk := min (fmtChunk fmta) (fmtChunk fmtb)
      ∀ (q r : Fin 32) (j : Fin 128),
        let i := 32 * (q.val - bank) + r.val
        let prod (x : Nat) : Val := ((slotElem a i (aoff + x) fmta).mul
          (if tcw then slotWeight b j.val (boff + x) fmtb
           else if transp then slotElem b j.val (boff + x) fmtb else slotElem b (boff + x) j.val fmtb)).scale scale
        (on q.val r.val j.val → cell (u.crew c) q.val r.val j.val =
          BitVec.ofNat 32 (eightUpdate (if zero then 0 else (cell y q.val r.val j.val).toNat) ((List.range n).map prod) chunk
            (ceilDiv n chunk))) ∧
        (¬on q.val r.val j.val → cell (u.crew c) q.val r.val j.val = cell y q.val r.val j.val)) ∧
  (∀ bank mrow mcol, k.work = .zeroMasked bank mrow mcol →
    (∀ i : Fin 128, mrow.getLsbD i.val = true → bank + i.val / 32 < 32) →
    ∃ u, exec (.mWritesLand c .good) s = .next u ∧ ∀ (q r : Fin 32) (j : Fin 128), cell (u.crew c) q.val r.val j.val =
      if bank ≤ q.val ∧ 32 * (q.val - bank) + r.val < 128 ∧ mrow.getLsbD (32 * (q.val - bank) + r.val) = true ∧
        mcol.getLsbD j.val = true then 0 else cell y q.val r.val j.val) ∧
  (∀ bank n, k.work = .zeroBanks bank n → bank + n ≤ 32 →
    ∃ u, exec (.mWritesLand c .good) s = .next u ∧ ∀ (q r : Fin 32) (j : Fin 128), cell (u.crew c) q.val r.val j.val =
      if bank ≤ q.val ∧ q.val < bank + n then 0 else cell y q.val r.val j.val) ∧
  (k.work.multiplies = true →
    let t := tileOf c k.tile
    let m := (s.tile t).m
    (∀ w, m.window = some w → w.whole = true → m.replay = none → k.window = m.windows →
      ∃ u, exec (.mWritesLand c .double) s = .next u ∧ (u.tile t).m.replay = some w.words ∧
        ∀ b : Fin 32, (w.banks.getLsbD b.val = true →
            ((u.crew c).bank b).st = .replay ∧ ∀ r j, ((u.crew c).bank b).cell r j = 0) ∧
          (w.banks.getLsbD b.val = false → (u.crew c).bank b = y.bank b)) ∧
    (¬(m.replay = none ∧ k.window = m.windows ∧ ∃ w, m.window = some w ∧ w.whole = true) →
      ∃ u, exec (.mWritesLand c .double) s = .next u ∧
        (∀ b : Fin 32, ((u.crew c).bank b).cells = (y.bank b).cells) ∧
        k ∉ (u.crew c).cmds ∧
        ((s.tile t).live = true → (u.cox t).pend.mc = some cMCSRAM)))) ∧
  ((∀ (s : State) (t : TileId) (b : Batch) (bs : List Batch), s.phase = .ending → (s.tile t).m.batches = b :: bs →
    let x := s.tile t
    let ready := b.closed = true ∧ b.unlanded = 0 ∧ x.m.replay = none ∧ x.canPush .m b.push = true
    (¬ready → exec (.batchRetire t) s = .next s) ∧
    (ready → ∃ u, exec (.batchRetire t) s = .next u ∧
      let y := u.tile t
      y.m = { x.m with bret := b.number, batches := bs } ∧
      (∀ a e, y.token a e = if a = .m ∧ b.push = some e then x.token a e + 1 else x.token a e) ∧
      ∀ n : Fin 32, ((u.crew (crewOf t)).bank n).cells = ((s.crew (crewOf t)).bank n).cells)) ∧
  (∀ (s : State) (t : TileId),
    let ended := (s.tile t).m.replay = some [] ∧
      ∀ k ∈ (s.crew (crewOf t)).cmds, ¬(k.replayed = true ∧ k.tile = Machine.laneOf t)
    (¬ended → exec (.replayEnd t) s = .next s) ∧
    (ended → ∀ w, (s.tile t).m.window = some w → ∃ u, exec (.replayEnd t) s = .next u ∧ (u.tile t).m.replay = none ∧
      ∀ n : Fin 32, (w.banks.getLsbD n.val = true → ((u.crew (crewOf t)).bank n).st ≠ .replay) ∧
      (w.banks.getLsbD n.val = false → ((s.crew (crewOf t)).bank n).st = .replay →
        ((u.crew (crewOf t)).bank n).st = .replay) ∧
      ((u.crew (crewOf t)).bank n).cells = ((s.crew (crewOf t)).bank n).cells)) ∧
  ∀ (s : State) (c : CrewId) (k : ArrayCmd), s.phase = .ending →
    (s.crew c).cmds.find? (fun k => k.reading && decide (k.readEnd ≤ s.gtime)) = some k →
    ∃ u, exec (.lastReadCycleEnd c) s = .next u ∧
      (∀ n : Fin 32, ((u.crew c).slot n).readers = ((s.crew c).slot n).readers - (k.slots.filter fun m => m % 32 = n.val).length ∧
        ((u.crew c).slot n).data = ((s.crew c).slot n).data) ∧
      (∀ j ∈ (u.crew c).cmds, j = { k with reading := false } ∨ j ∈ (s.crew c).cmds ∧ j ≠ k))

/-- R208, R209: a turn ends with its last word, its last cycle, or an M queue that holds no entry to issue; the next
waiting tile of the crew is then granted, when no command reads operands any more; without one the holder's next turn
begins. The choice among the waiting tiles when nobody holds the lease is the model's (log entry 26, DEDUCED). -/
def Obligations.LeaseTurns : Prop := ∀ (s : State) (c : CrewId),
  let y := s.crew c
  let m (k : Fin 4) : MState := (s.tile (tileOf c k)).m
  let begins (u : State) (k : Fin 4) (at' : Nat) : Prop := (u.crew c).holder = some k ∧ (u.crew c).grant = none ∧
    (u.crew c).turnWords = 0 ∧ (u.crew c).turnStart = at' ∧ (u.crew c).turnN = (m k).leaseN ∧
    (u.crew c).turnBudget = (m k).leaseBudget ∧ (u.tile (tileOf c k)).m.lstate = .held
  let waits (k : Fin 4) : Prop := (m k).lstate = .waiting
  (s.phase = .ending → ∀ k, y.holder = some k → y.turnStart ≤ s.gtime →
    let ends := y.turnN ≤ y.turnWords ∨ y.turnBudget ≤ s.gtime + 1 - y.turnStart ∨
      ∀ n ∈ ((s.tile (tileOf c k)).eng .m).queue, n.st = .issued
    (¬ends → exec (.leaseTurnEnd c) s = .next s) ∧
    (ends → ∃ u, exec (.leaseTurnEnd c) s = .next u ∧
      ((∀ j, j ≠ k → ¬waits j) → begins u k (s.gtime + 1)) ∧
      ((∃ j, j ≠ k ∧ waits j) → (u.crew c).holder = none ∧ (u.crew c).lastHolder = k ∧
        (u.tile (tileOf c k)).m.lstate = .waiting ∧ ∃ j, (u.crew c).grant = some j ∧ j ≠ k ∧ waits j ∧
          ∀ i : Fin 4, i ≠ k → waits i → (j - k).val ≤ (i - k).val))) ∧
  ((y.holder ≠ none ∨ y.lastReadEnd ≠ 0 ∧ s.gtime ≤ y.lastReadEnd) → exec (.leaseGrant c) s = .next s) ∧
  (y.holder = none → y.lastReadEnd = 0 ∨ y.lastReadEnd < s.gtime →
    (∀ j, y.grant = some j → waits j → ∃ u, exec (.leaseGrant c) s = .next u ∧ begins u j s.gtime) ∧
    ((∀ j, ¬waits j) → exec (.leaseGrant c) s = .next s) ∧
    ((∀ j, y.grant = some j → ¬waits j) → (∃ j, waits j) → ∃ u j, exec (.leaseGrant c) s = .next u ∧ begins u j s.gtime ∧
      waits j ∧ ∀ i : Fin 4, waits i → (j - y.lastHolder - 1).val ≤ (i - y.lastHolder - 1).val))

/-! ## Steps and groups (11_regatta.md) -/

/-- R242 to R246, R241: the data steps: whom they name; the faults of a peer outside the group, of a format and of an
area, in the order in which a step comes to them (log entry 18, DEDUCED, for KIND 0 formats); the lines of its vector
that a step asks for before it goes on; what it then writes, sends and consumes. A group of one rank sends and
receives nothing. What counts as a step boundary while a step waits is the model's choice (log entry 30, DESIGN
CHOICE). R245, R246, R241, R23: `WAIT` in its three modes, a Signal word being read at its home as often as it takes,
`LOOP` and `ENDL` with their limits, and `DONE`, which waits for every acknowledgement and for the release of DONESIG
over the owner's earlier writes (R290, R294, R296), sends the add of DONESIG to its word's home and ends the entry. A
step that waits is at a boundary, the model's choice (log entry 30, DESIGN CHOICE). -/
def Obligations.StepPrograms : Prop :=
  (∀ (s : State) (g : Fin 4096) (p : Program), StepRuns s g p →
  let e := s.group g.val
  let on (u : State) (f : Program → Program) : Out := .next (u.modProgram g.val fun p =>
    { f p with pc := (f p).pc + 1, asked := [], got := [], seen := none, busy := false })
  let busy (u : State) (b : Bool) : Out := .next (u.modProgram g.val fun p => { p with busy := b })
  let stops (i : Instr) (code : Byte) : Prop := exec i s = .next (s.groupFault g.val code p.pc)
  let waits (i : Instr) : Prop := exec i s = busy s false
  let up (k : Nat) : Nat := (p.rank + k) % p.count
  let down (k : Nat) : Nat := (p.rank + p.count - k % p.count) % p.count
  let names (pm : PeerMode) (k : Nat) : Nat := match pm with
    | .up => up k
    | .down => down k
    | .xor => p.rank ^^^ k
  let stored (f : Lane) (n : Nat) : Prop :=
    fmtKind f ≠ 8 ∧ fmtKind f ≠ 9 ∧ (fmtIsBlock f = true → n % fmtBlockLen f = 0)
  let clash (a b : Lane) : Prop := (fmtKind a = 0 ∨ fmtKind b = 0) ∧ a ≠ b
  let area (i : Instr) (o n : Nat) (f : Lane) (k : Prop) : Prop :=
    let inside := 0 ≤ p.eff o ∧ p.eff o + vecSize f n ≤ p.limit
    let aligned := (p.eff o).toNat % max 1 (fmtContainer f / 8) = 0
    (¬stored f n → stops i cSGBAD) ∧ (stored f n → ¬inside → stops i cWINDOW) ∧
    (stored f n → inside → ¬aligned → stops i cMISALIGN) ∧ (stored f n → inside → aligned → k)
  let reads (i : Instr) (o n : Nat) (f : Lane) (k : List Byte → Prop) : Prop :=
    ((∃ l ∈ p.lines o n f, p.got.find? l = none) → exec i s = busy (s.askArea g.val p o n f) true) ∧
    ((∀ l ∈ p.lines o n f, p.got.find? l ≠ none) → k ((List.range (vecSize f n)).map fun j => p.got.get (p.at' o + j) 0))
  let receives (i : Instr) (src : Nat) (k : Parcel → List Parcel → Prop) : Prop :=
    ((∀ m ∈ e.inbox, ¬(m.src = src ∧ m.no = p.taken.get src 0)) → waits i) ∧
    ∀ m rest, p.nextMessage src e.inbox = some (m, rest) → k m rest
  (∀ (o : DataStep) (f2 : Fin 4),
    let n := o.nel1.toNat + 1
    let a := p.fmts[o.f1]
    let b := p.fmts[f2]
    let peer := names o.pm o.k.toNat
    let i := Instr.send o f2
    let bad := clash a b ∨ ¬stored b n
    (p.count = 1 → exec i s = on s id) ∧
    (p.count ≠ 1 →
      (p.count ≤ peer → stops i cILLOP) ∧
      (peer < p.count → bad → stops i cSGBAD) ∧
      (peer < p.count → ¬bad → area i o.off.toNat n a (reads i o.off.toNat n a fun l =>
        let w := reencode a b n l p.rm
        exec i s = on (s.sendMessage g.val e p peer b n w.bytes) (Program.flag · w))))) ∧
  (∀ o : DataStep,
    let n := o.nel1.toNat + 1
    let a := p.fmts[o.f1]
    let peer := names o.pm o.k.toNat
    let i := Instr.recv o
    (p.count = 1 → exec i s = on s id) ∧
    (p.count ≠ 1 →
      (p.count ≤ peer → stops i cILLOP) ∧
      (peer < p.count → ¬stored a n → stops i cSGBAD) ∧
      (peer < p.count → stored a n → receives i peer fun m rest =>
        let bad := m.count ≠ n ∨ clash m.fmt a
        let w := reencode m.fmt a n m.data p.rm
        (bad → stops i cSGBAD) ∧
        (¬bad → area i o.off.toNat n a
          (exec i s = on ((s.consume g.val peer rest).writeArea g.val o.off.toNat n a p w.bytes) (Program.flag · w)))))) ∧
  (∀ (f1 f2 : Fin 4) (nel1 : BitVec 14) (doff off : BitVec 20),
    let n := nel1.toNat + 1
    let a := p.fmts[f1]
    let b := p.fmts[f2]
    let i := Instr.copy f1 f2 nel1 doff off
    let meet := p.eff off.toNat < p.eff doff.toNat + vecSize b n ∧ p.eff doff.toNat < p.eff off.toNat + vecSize a n
    (clash a b → stops i cSGBAD) ∧
    (¬clash a b → area i off.toNat n a (area i doff.toNat n b (
      (meet → stops i cWINDOW) ∧
      (¬meet → reads i off.toNat n a fun l =>
        let w := reencode a b n l p.rm
        exec i s = on (s.writeArea g.val doff.toNat n b p w.bytes) (Program.flag · w)))))) ∧
  ∀ (o : DataStep) (f2 f3 : Fin 4) (snd : Bool),
    let n := o.nel1.toNat + 1
    let a := p.fmts[o.f1]
    let b := p.fmts[f2]
    let c := p.fmts[f3]
    let i := Instr.rrs o f2 f3 snd
    let src := match o.pm with
      | .up => down o.k.toNat
      | .down => up o.k.toNat
      | .xor => p.rank ^^^ o.k.toNat
    let dest := names o.pm o.k.toNat
    let outside := p.count ≠ 1 ∧ (p.count ≤ src ∨ p.count ≤ dest)
    let bad := fmtKind a = 0 ∨ fmtKind b = 0 ∨ fmtKind c = 0 ∨ ¬stored a n ∨ ¬stored b n ∨ ¬stored c n
    (outside → stops i cILLOP) ∧
    (¬outside → bad → stops i cSGBAD) ∧
    (¬outside → ¬bad → area i o.off.toNat n a (reads i o.off.toNat n a fun l =>
      let ys := decodeVec a n l
      let gives (u : State) (vs : List Val) (sends : Bool) : Prop :=
        let r := encodeVec b vs p.rm
        let w := reencode b c n r.bytes p.rm
        let u := u.writeArea g.val o.off.toNat n c p w.bytes
        exec i s = on (if sends then u.sendMessage g.val e p dest c n w.bytes else u) (fun p => (p.flag r).flag w)
      (p.count = 1 → area i o.off.toNat n c (gives s ys false)) ∧
      (p.count ≠ 1 → receives i src fun m rest =>
        (m.count ≠ n ∨ fmtKind m.fmt = 0 → stops i cSGBAD) ∧
        (m.count = n → fmtKind m.fmt ≠ 0 → area i o.off.toNat n c (gives (s.consume g.val src rest)
          (List.zipWith (fun x y => x.add (p.rm == .rdn) y) (decodeVec m.fmt n m.data) ys) snd)))))) ∧
  (∀ (s : State) (g : Fin 4096) (p : Program), StepRuns s g p →
  let e := s.group g.val
  let on (q : Program) : Out := .next (s.modGroup g.val fun e => { e with prog := some q })
  let next := { p with pc := p.pc + 1, asked := [], got := [], seen := none, busy := false }
  let waits := on { p with busy := false }
  let released : Prop := ∀ sc pkg w, p.donesig = some (sc, pkg, w) → s.released e.owner p.opened sc = true
  let stops (code : Byte) : Out := .next (s.groupFault g.val code p.pc)
  (∀ sc w (v : BitVec 32),
    let i := Instr.waitSignalStep sc w v
    (p.seen = none → p.asked = [] → exec i s = .next (s.askSignal g.val p w)) ∧
    (p.seen = none → p.asked ≠ [] → exec i s = waits) ∧
    (∀ x, p.seen = some x → v.toNat ≤ x.toNat → exec i s = on next) ∧
    (∀ x, p.seen = some x → x.toNat < v.toNat → exec i s = .next (s.askSignal g.val p w))) ∧
  (∀ v : BitVec 32,
    (e.t0 + v.toNat ≤ s.gtime → exec (.waitAfterT0Step v) s = on next) ∧
    (s.gtime < e.t0 + v.toNat → exec (.waitAfterT0Step v) s = waits) ∧
    ∀ T : Int, (2 ^ 32 : Int) ∣ T - v.toNat → (s.gtime : Int) - 2 ^ 31 ≤ T → T < s.gtime + 2 ^ 31 →
      (T ≤ s.gtime → exec (.waitTimeStep v) s = on next) ∧ ((s.gtime : Int) < T → exec (.waitTimeStep v) s = waits)) ∧
  (∀ (str : BitVec 20) (cnt1 : BitVec 16),
    (4 ≤ p.loops.length → exec (.loop str cnt1) s = stops cILLOP) ∧
    (p.loops.length < 4 →
      exec (.loop str cnt1) s = on { next with loops := (p.pc, 0, cnt1.toNat, str.toInt) :: p.loops })) ∧
  (p.loops = [] → exec .endl s = stops cILLOP) ∧
  (∀ at' i cnt str rest, p.loops = (at', i, cnt, str) :: rest →
    (i < cnt → exec .endl s = on { p with pc := at' + 1, loops := (at', i + 1, cnt, str) :: rest }) ∧
    (cnt ≤ i → exec .endl s = on { next with loops := rest })) ∧
  (e.unacked ≠ 0 ∨ ¬released → exec .stepDone s = waits) ∧
  (e.unacked = 0 → released → ∃ u, exec .stepDone s = .next u ∧
    let f := u.group g.val
    f.st = .ended ∧ f.prog = none ∧ f.gen = e.gen ∧ f.owner = e.owner ∧ f.inbox = e.inbox ∧
    f.status.toNat % 2 ^ 8 = 0 ∧ f.status.getLsbD 8 = false ∧ f.status.toNat / 2 ^ 16 = 0 ∧
    u.dev = s.dev ∧ (p.donesig = none → u.fab.sent = s.fab.sent) ∧
    (∀ sc w, p.donesig = some (sc, s.sys.pkg, w) →
      ∃ q ∈ u.allFlits, q.dst = homeStation (signalHome w) ∧ q.msg = .oper (some e.owner) w (.atom .add false 1) none) ∧
    ∀ sc pkg w, p.donesig = some (sc, pkg, w) → pkg ≠ s.sys.pkg →
      ∃ k ∈ u.fab.sent, k.pkt.dst = pkg ∧ k.pkt.body = .flag ⟨w, .rel, sc, .atom .add false 1⟩))

/-- R237, R235, R243, R247: a rank that ends with a fault leaves its status and sends a notice to every other rank; a
notice that has arrived ends a rank with the notice's code and origin, and no notice follows; a message to another
rank is kept until it is acknowledged, one to the rank itself is received at once. -/
def Obligations.GroupEnds : Prop := ∀ (s : State) (g : Fin 4096) (p : Program),
  (s.group g.val).prog = some p →
  let e := s.group g.val
  let ended (u : State) (code : Byte) (origin : Nat) (remote : Bool) : Prop :=
    let f := u.group g.val
    f.st = .ended ∧ f.prog = none ∧ f.gen = e.gen ∧ f.owner = e.owner ∧ f.inbox = e.inbox ∧
    f.status = BitVec.ofNat 64 (origin * 2 ^ 32 + p.pc * 2 ^ 16 + (if p.ovf then 2 ^ 11 else 0) +
      (if p.blkunf then 2 ^ 10 else 0) + (if p.blkovf then 2 ^ 9 else 0) + (if remote then 2 ^ 8 else 0) + code.toNat)
  let notices (u : State) (code : Byte) : Prop := ∀ r q, p.ranks[r]? = some q → r ≠ p.rank →
    ∃ k ∈ u.fab.sent, k.pkt.src = s.sys.pkg ∧ k.pkt.dst = q.1 ∧ k.group = some g.val ∧
      k.pkt.body = .notice g (Fin.ofNat 16 e.gen) code p.rank
  (∀ code, ended (s.groupFault g.val code p.pc) code p.rank false ∧ notices (s.groupFault g.val code p.pc) code) ∧
  (p.budget ≠ 0 → exec (.groupBudgetExpiry g) s = .next s) ∧
  (p.budget = 0 → ∃ u, exec (.groupBudgetExpiry g) s = .next u ∧ ended u cDEADLINE p.rank false ∧ notices u cDEADLINE) ∧
  (p.notice = none → exec (.errorNoticeArrival g) s = .next s) ∧
  (∀ code origin, p.notice = some (code, origin) → ∃ u, exec (.errorNoticeArrival g) s = .next u ∧
    ended u code origin true ∧ u.fab.sent = s.fab.sent) ∧
  ∀ (peer n : Nat) (f : Lane) (l : List Byte),
    let u := s.sendMessage g.val e p peer f n l
    let no := p.sentTo.get peer 0
    (∀ q, (u.group g.val).prog = some q → q = { p with sentTo := p.sentTo.set peer (no + 1) }) ∧
    (peer = p.rank → (u.group g.val).inbox = e.inbox ++ [⟨p.rank, no, f, n, l⟩] ∧ u.fab.sent = s.fab.sent) ∧
    (∀ q, peer ≠ p.rank → p.ranks[peer]? = some q → (u.group g.val).inbox = e.inbox ∧
      (u.group g.val).unacked = e.unacked + 1 ∧ ∃ k, u.fab.sent = s.fab.sent ++ [k] ∧
        k.sentAt = (if s.fab.cut then none else some s.gtime) ∧
        k.group = some g.val ∧ k.pkt.src = s.sys.pkg ∧ k.pkt.dst = q.1 ∧
        k.pkt.body = .message g (Fin.ofNat 16 e.gen) p.rank peer q.2 no f n l ∧
        k.pkt.seq.toNat = (s.fab.seqOut.get q.1.toNat 0 + 1) % 2 ^ 32)

/-! ## Engine queues, the Course, the fabric (03_words.md, 07_course.md, 11_regatta.md, 15_traps.md) -/

/-- R59, R63, R210, R273: an entry that reaches the head of its queue: an absent section is ILLOP with reason 8, a
budget of 0 is DEADLINE, an M entry without a lease is LEASE; else its DEP fields are checked from now on, and once
each has been met the words are expanded from index 0. An entry whose words have all retired retires, and its section
is the engine's last: that of two which retire in one cycle each is seen by DEP checks is the model's choice (log
entry 56, DESIGN CHOICE). R56, R254, R273, R328, R336, R63: a word that waits for a token issues once it is there
(when it is tried is the model's choice, log entry 15, DEDUCED); a budget that runs out is DEADLINE, for an entry at
the word that its engine has reached, words of L and S that issued before an ILLOP included (R63, R125), and for an
iteration pending on its Cox; a queue stops when every issued word has landed, and after DEADLINE when what is left
waits (log entry 39, DEDUCED). R392, R394: a write of TINT and the debugger's resumption. -/
def Obligations.QueueEvents : Prop :=
  (∀ (s : State) (t : TileId) (e : Eng) (n : Entry),
  let x := s.tile t
  let g := x.eng e
  let met (h : Header) (i : Fin 3) (f : Eng) : Prop := h.dep[i] = 0xFFF ∨
    (x.eng f).noneRetired = false ∧ ((x.eng f).lastSec.toNat + 4096 - h.dep[i]) % 4096 < 2048
  (g.fault = none → g.stopped = false → x.live = true → g.cur? = some n →
    (n.st = .waiting → s.stopping t = false → GranulesGood s (g.headSites t e n) →
      let stops (code : Byte) (reason : Nat) : Prop := ∃ u, exec (.entryHead t e) s = .next u ∧ OnlyTile s u t ∧
        (u.tile t).eng e = { g with fault := some ⟨code, BitVec.ofNat 64 (reason + n.sec.toNat * 2 ^ 20), 0, false⟩ } ∧
        ∀ f, f ≠ e → (u.tile t).eng f = x.eng f
      (g.section? n.sec.toNat = none → stops cILLOP 8) ∧
      ∀ a h, g.section? n.sec.toNat = some (a, h) →
        (n.budget = 0 → stops cDEADLINE 0) ∧
        (n.budget ≠ 0 → e = .m → x.m.lstate = .none → stops cLEASE 0) ∧
        (n.budget ≠ 0 → (e = .m → x.m.lstate ≠ .none) → ∃ u, exec (.entryHead t e) s = .next u ∧ OnlyTile s u t ∧
          let k := (u.tile t).eng e
          k.cur? = some { n with st := .head } ∧ k.index = 0 ∧ k.queue.length = g.queue.length ∧
          ∀ (i : Fin 3) f, (others e)[i.val]? = some f → (k.depMet.getLsbD i.val = true ↔ met h i f))) ∧
    ∀ a h, n.st = .head → g.section? n.sec.toNat = some (a, h) →
      let all : Prop := ∀ (i : Fin 3) f, (others e)[i.val]? = some f → g.depMet.getLsbD i.val = true ∨ met h i f
      ∃ u, exec (.entryStart t e) s = .next u ∧ OnlyTile s u t ∧
        let k := (u.tile t).eng e
        (all → k.cur? = some { n with st := .running } ∧ k.index = 0 ∧ k.branch = none) ∧ (¬all → k.cur? = some n)) ∧
  ∀ rest, g.queue = n :: rest → n.st = .issued → n.pendingWords = 0 → s.phase = .ending →
    ∃ u, exec (.entryRetire t e) s = .next u ∧ OnlyTile s u t ∧
      (u.tile t).eng e = { g with queue := rest, qseq := g.qseq + 1, lastSec := n.sec, noneRetired := false } ∧
      ∀ f, f ≠ e → ∃ d, (u.tile t).eng f = { x.eng f with depMet := d } ∧
        ∀ i, (x.eng f).depMet.getLsbD i = true → d.getLsbD i = true) ∧
  (∀ (s : State) (t : TileId),
  let x := s.tile t
  let c := s.cox t
  (∀ (e : Eng) (bs : List Byte), s.phase = .running → s.engReady t e = true → (x.eng e).wordNow = some bs →
    exec (.tokenWaitEnd t e) s =
      .next (if x.canPop e (popOf e bs) then { s with agenda := .eng t e :: s.agenda } else s)) ∧
  (∀ (e : Eng) (n : Entry), let g := x.eng e
    g.stopped = false → (g.fault = none ∨ (e = .l ∨ e = .s) ∧ ∃ f, g.fault = some f ∧ f.code = cILLOP) →
    g.queue.find? (fun k => k.st ≠ .waiting ∧ k.budget = 0) = some n →
    ∃ u, exec (.entryBudgetExpiry t e) s = .next u ∧ OnlyTile s u t ∧
      (u.tile t).eng e = { g with fault := some ⟨cDEADLINE,
        BitVec.ofNat 64 ((4096 * n.sec.toNat + (if g.curSec = n.sec.toNat then g.index else 0)) * 2 ^ 8), 0, false⟩ } ∧
      ∀ f, f ≠ e → (u.tile t).eng f = x.eng f) ∧
  (x.live = true → (x.budget = 0 → ∃ u, exec (.iterationBudgetExpiry t) s = .next u ∧ OnlyCox s u t ∧
      u.cox t = { c with pend := { c.pend with deadline := true } }) ∧
    (x.budget ≠ 0 → exec (.iterationBudgetExpiry t) s = .next s)) ∧
  (∀ e : Eng, (x.eng e).fault.isSome = true → (x.eng e).stopped = false → s.phase = .ending →
    (s.engQuiet t e = true → (∀ k ∈ x.portage.buffer, k.stream = e → k.stage ≠ .started) →
      ∃ u, exec (.queueStop t e) s = .next u ∧ OnlyTile s u t ∧
        (u.tile t).eng e = { x.eng e with stopped := true } ∧ ∀ f, f ≠ e → (u.tile t).eng f = x.eng f) ∧
    (s.queueMayStop t e = true → ∃ u, exec (.queueStop t e) s = .next u ∧ ((u.tile t).eng e).stopped = true) ∧
    (s.engQuiet t e = false → (∀ k, (x.eng e).fault = some k → k.code ≠ cDEADLINE) → exec (.queueStop t e) s = .next s)) ∧
  (∀ v, (s.sys.ready = true → x.live = true → ∃ u, exec (.tintWrite t v) s = .next u ∧ OnlyCox s u t ∧
      u.cox t = { c with tint := v, pend := { c.pend with hostint := true } }) ∧
    (s.sys.ready = false ∨ x.live = false → exec (.tintWrite t v) s = .next s)) ∧
  (s.sys.ready = true → c.halted = true ∨ c.dbgHalted = true → ∃ u, exec (.tdbgResume t) s = .next u ∧ OnlyCox s u t ∧
    u.cox t = { c with halted := false, dbgHalted := false, nextIssue := max c.nextIssue s.gtime }))

/-- R150 to R154, R19: with slot `k` at station `st` in this cycle: an empty slot takes the station's oldest timed
flit, else its oldest, as the Pitch entry of the slot's round allows, and numbers it in its triple, with the WRITE
flits that it has injected for the same destination before; the station that a flit is bound for takes it and empties
the slot, in sequence and while its ingress buffer has room, and a bridge station passes it on. What answers a timed
command is not timed: the model's choice (log entry 14, DESIGN CHOICE). R158 to R160: a multicast store takes with it,
at its issue, the members of the gang and the cycle MCDELAY later; the oldest entry of a multicast queue leaves in the
next slot that passes under a multicast entry of its own; every member's delay buffer writes it at that cycle, that of
the lowest member first. -/
def Obligations.CourseSlots : Prop :=
  (∀ (s : State) (d : DieId) (st : Fin 132) (k : Fin 132),
  (k.val + s.gtime) % 132 = st.val → (s.die d).frozen = false →
  let x := s.die d
  let p := x.pitch.get (132 * ((s.gtime + k.val) / 132 % 16) + k.val) 0
  let out := x.stations.get st.val []
  let may : Prop := p.toNat / 2 ^ 14 = 0 ∨ p.toNat / 2 ^ 14 = 1 ∧ p.toNat % 2 ^ 8 = st.val
  (x.slots.find? k.val = none → out ≠ [] →
    (¬may → exec (.flitInject d st) s = .next s) ∧
    (may → ∃ u, exec (.flitInject d st) s = .next u ∧ ∃ pre f post, out = pre ++ f :: post ∧
      (if ∃ g ∈ out, g.timed = true then f.timed = true ∧ ∀ g ∈ pre, g.timed = false else pre = []) ∧
      (let here := f.src = 132 * d.val + st.val
       let tri := tripleKey f.src f.dst f.cls
       (here → (u.die d).slots.find? k.val = some { f with
          seq := x.seqOut.get tri 0, writesBefore := x.seqOut.get (tripleKey f.src f.dst .write) 0 } ∧
          (u.die d).seqOut.get tri 0 = x.seqOut.get tri 0 + 1) ∧
       (¬here → (u.die d).slots.find? k.val = some f)) ∧
      (u.die d).stations.get st.val [] = pre ++ post ∧
      (∀ j, j ≠ k.val → (u.die d).slots.find? j = x.slots.find? j) ∧ u.tiles = s.tiles)) ∧
  ∀ f, x.slots.find? k.val = some f → (∀ g, f.msg ≠ .granule g) → s.phase = .ending → exitOf d.val f.dst = st.val →
    GranulesGood s [.flit d k.val] →
    let tri := tripleKey f.src f.dst f.cls
    let key := ingressKey st.val f.cls
    let room := (x.ingress.get key []).length < 8
    (st.val < 130 →
      (x.seqIn.get tri 0 ≠ f.seq ∨ ¬room → exec (.flitArrive d st) s = .next s) ∧
      (x.seqIn.get tri 0 = f.seq → room → ∃ u, exec (.flitArrive d st) s = .next u ∧
        (u.die d).slots.find? k.val = none ∧ (u.die d).seqIn.get tri 0 = f.seq + 1 ∧
        (∀ t r, f.msg = .req t r → (∀ pe off bytes, r.act ≠ .winStore pe off bytes) →
          (u.die d).ingress.get key [] = x.ingress.get key [] ++ [f]) ∧
        (∀ t r pe off bytes, f.msg = .req t r → r.act = .winStore pe off bytes → st.val < 128 →
          let v : TileId := Fin.ofNat 512 (128 * d.val + st.val)
          (u.tile v).winIn = (s.tile v).winIn ++ [(t.val, off, bytes)]) ∧
        (∀ t c a, f.msg = .ask t c a → (∀ v w, a ≠ .store v w) →
          (u.die d).ingress.get key [] = x.ingress.get key [] ++ [f]) ∧
        (∀ t c v w, f.msg = .ask t c (.store v w) →
          (u.tile t).portage.flight = (s.tile t).portage.flight ++ [(some c, w)]) ∧
        (∀ t w a b, f.msg = .oper t w a b → (u.die d).ingress.get key [] = x.ingress.get key [] ++ [f]) ∧
        ∀ t id v, f.msg = .reply t id v → (∃ e ∈ (s.cox t).rf, e.id = id) → (id, v) ∈ (u.tile t).replies)) ∧
    (130 ≤ st.val →
      let b : DieId := Fin.ofNat 4 (if st.val = 130 then d.val + 1 else d.val + 3)
      let j := if st.val = 130 then 131 else 130
      let next := (s.die b).stations.get j []
      ((s.die b).frozen = false → (next.filter fun g => g.cls = f.cls).length < 8 →
        ∃ u, exec (.flitArrive d st) s = .next u ∧ (u.die d).slots.find? k.val = none ∧
          (u.die b).stations.get j [] = next ++ [f]) ∧
      (8 ≤ (next.filter fun g => g.cls = f.cls).length → exec (.flitArrive d st) s = .next s))) ∧
  (∀ (s : State) (t : TileId), s.phase = .ending →
  (∀ (g : McGranule) (rest : List McGranule) (k : Fin 132), (s.tile t).mcQueue = g :: rest →
    (k.val + s.gtime) % 132 = stationOf t →
    let x := s.die (dieOf t)
    let pe := x.pitch.get (132 * ((s.gtime + k.val) / 132 % 16) + k.val) 0
    x.frozen = false → x.slots.find? k.val = none → pe.toNat / 2 ^ 14 = 2 → pe.toNat % 2 ^ 8 = stationOf t →
    ∃ u, exec (.multicastDepart t) s = .next u ∧ u.tile t = { s.tile t with mcQueue := rest } ∧
      (∀ v, v ≠ t → u.tile v = s.tile v) ∧ ∃ f, (u.die (dieOf t)).slots.find? k.val = some f ∧ f.msg = .granule g) ∧
  (∀ (g : McGranule), 1 < g.members.length → g.members.Nodup →
    let u := s.mcJoin t g
    (u.tile t).mcQueue = (s.tile t).mcQueue ++ [g] ∧
    (∀ v ∈ g.members, (u.tile v).delay = (s.tile v).delay ++ [g]) ∧
    (∀ v, v ∉ g.members → (u.tile v).delay = (s.tile v).delay) ∧ ∀ v, (u.tile v).sp = (s.tile v).sp) ∧
  ((∀ g ∈ (s.tile t).delay, s.gtime < g.due) → exec (.multicastLand t) s = .next s) ∧
  ((∃ g ∈ (s.tile t).delay, g.due ≤ s.gtime) → ∃ u g, exec (.multicastLand t) s = .next u ∧ (∀ v, v ≠ t → u.tile v = s.tile v) ∧
    g ∈ (s.tile t).delay ∧ g.due ≤ s.gtime ∧ (∀ h ∈ (s.tile t).delay, h.due ≤ s.gtime → g.member ≤ h.member) ∧
    (s.tile t).delay.Perm (g :: (u.tile t).delay) ∧
    (∀ b ∈ g.bytes, (∀ c ∈ g.bytes, c.1 = b.1 → c = b) → 
      (u.tile t).sp.get (g.off + b.1) = mergeBits ((s.tile t).sp.get (g.off + b.1)) b.2.1 b.2.2) ∧
    (∀ a, (∀ b ∈ g.bytes, a ≠ g.off + b.1) → (u.tile t).sp.get a = (s.tile t).sp.get a) ∧
    u.tile t = { s.tile t with sp := (u.tile t).sp, delay := (u.tile t).delay, used := (u.tile t).used,
                               cox := { s.cox t with flight := (u.cox t).flight } }))

/-- R247, R250: a packet whose number is at or below H or marked is a duplicate, one more than 64 above H is refused,
and every other is committed once: its flag is sent to the home of the Signal word and committed when it has been
applied, a launch packet that is not accepted is logged and queues nothing, an accepted one enters the pool; with its
number it is a duplicate from then on. Where a flag meets its home and that it is not taken twice meanwhile is the
model's choice (log entry 27, DESIGN CHOICE). R248, R227, R228, R236, R363: an acknowledged packet is let go, and the
value of its Signal operation reaches the word that asked; one without its acknowledgement for 4,096 cycles is sent
again; a held flag leaves once nothing before it to its package waits, and while the ports are in the domain and one
works; early packets are dropped after 2^24 cycles; the events of the links are recorded, and the promotion of a
port's bank retires its link. When a held flag leaves, and what a package without a working port does, is the model's
choice (log entries 40 and 27, DESIGN CHOICE); bank 47 for the loss of the bound too (log entry 19, DEDUCED). -/
def Obligations.Packets : Prop :=
  (∀ (s : State) (p : Packet),
  s.phase = .running → p.dst = s.sys.pkg → s.fab.outOfDomain = false →
  let h := s.fab.high.get p.src.toNat 0
  let marks := s.fab.marks.get p.src.toNat []
  let above (n : Nat) : Nat := (n + 2 ^ 32 - h) % 2 ^ 32
  let n := p.seq.toNat
  let dup := above n = 0 ∨ 2 ^ 31 ≤ above n ∨ n ∈ marks
  let busy := (p.src, p.seq) ∈ s.fab.applying
  (dup ∨ 64 < above n ∨ busy → exec (.packetArrive p) s = .next s) ∧
  (¬dup → above n ≤ 64 → ¬busy →
    (∀ a, p.body = .flag a → ∃ u, exec (.packetArrive p) s = .next u ∧ u.dev = s.dev ∧ u.launches = s.launches ∧
      (p.src, p.seq) ∈ u.fab.applying ∧ ∃ q ∈ u.allFlits, ∃ st, q.dst = homeStation (signalHome a.word) ∧
        q.msg = .oper none a.word a.act (some (.packet st p.src p.seq))) ∧
    (∀ l, p.body = .launch l → s.acceptsLaunch l = false →
      ∃ u, exec (.packetArrive p) s = .next u ∧ u.launches = s.launches ∧ u.dev = s.dev) ∧
    (∀ l, p.body = .launch l → s.acceptsLaunch l = true →
      let d : DieId := Fin.ofNat 4 ((l.getD 0 0).toNat / 64)
      (s.schedules d = false ∨ s.inDieOrder d = false ∨ 256 ≤ s.held d 0 → exec (.packetArrive p) s = .next s) ∧
      (s.schedules d = true → s.inDieOrder d = true → s.held d 0 < 256 →
        ∃ u, exec (.packetArrive p) s = .next u ∧ (u.die d).counter = nextCounter (s.die d).counter)) ∧
    (h < 2 ^ 32 → (∀ m ∈ marks, 1 ≤ above m ∧ above m ≤ 64 ∧ m < 2 ^ 32) →
      (∀ u, (∀ a, p.body ≠ .flag a) → exec (.packetArrive p) s = .next u → u ≠ s →
        u.fab.freshness p.src p.seq = .duplicate) ∧
      ∀ st, (s.receive (.told (.packet st p.src p.seq))).fab.freshness p.src p.seq = .duplicate))) ∧
  (∀ (s : State),
  (∀ (pkg : Byte) (seq : BitVec 32) (val : Option Word) (k : Sent),
    s.fab.sent.find? (fun j => j.pkt.dst = pkg ∧ j.pkt.seq = seq ∧ j.sentAt.isSome) = some k →
    s.fab.outOfDomain = false → ∃ u, exec (.ackArrive pkg seq val) s = .next u ∧
      u.fab.sent = s.fab.sent.filter (fun j => ¬(j.pkt.dst = pkg ∧ j.pkt.seq = seq)) ∧
      (∀ g, k.group = some g → (u.group g).unacked = (s.group g).unacked - 1) ∧
      ∀ t r v, k.from' = some (t, r) → val = some v → r.slot = true → (∃ e ∈ (s.cox t).rf, e.id = r.id) →
        (r.id, v) ∈ (u.tile t).replies) ∧
  (∀ (pkg : Byte) (seq : BitVec 32), s.fab.cut = false → ∃ u, exec (.resendTimeout pkg seq) s = .next u ∧
    u = { s with fab := { s.fab with sent := u.fab.sent } } ∧
    u.fab.sent.length = s.fab.sent.length ∧ ∀ (i : Nat) k, s.fab.sent[i]? = some k →
      (∀ c, k.sentAt = some c → k.pkt.dst = pkg → k.pkt.seq = seq → c + 4096 ≤ s.gtime →
        u.fab.sent[i]? = some { k with sentAt := some s.gtime }) ∧
      (k.pkt.dst ≠ pkg ∨ k.pkt.seq ≠ seq ∨ k.sentAt = none ∨ (∃ c, k.sentAt = some c ∧ s.gtime < c + 4096) →
        u.fab.sent[i]? = some k)) ∧
  (∀ (pkg : Byte) (pre post : List Sent) (k : Sent), s.fab.sent = pre ++ k :: post → (∀ j ∈ pre, j.pkt.dst ≠ pkg) →
    k.pkt.dst = pkg → s.fab.cut = false →
    (k.sentAt = none → ∃ u, exec (.flagDepart pkg) s = .next u ∧
      u.fab.sent[pre.length]? = some { k with sentAt := some s.gtime }) ∧
    (k.sentAt ≠ none → exec (.flagDepart pkg) s = .next s)) ∧
  (s.fab.outOfDomain = true → ∀ pkg seq val, exec (.ackArrive pkg seq val) s = .next s) ∧
  (s.fab.outOfDomain = true ∨ (∀ p, p < 32 → p ∈ s.fab.linkRetired) → ∀ pkg seq,
    exec (.resendTimeout pkg seq) s = .next s ∧ exec (.flagDepart pkg) s = .next s) ∧
  (∃ u, exec .earlyPacketTimeout s = .next u ∧ u.fab.early = s.fab.early.filter (fun q => s.gtime < q.2 + 2 ^ 24) ∧
    u.tiles = s.tiles ∧ u.fab.groups = s.fab.groups) ∧
  (∃ u, exec .gtimeBoundLoss s = .next u ∧ u.fab.outOfDomain = true ∧ (u.die 0).frozen = true ∧
    (u.die 0).events = (s.die 0).events ++ [(47, ⟨3, cMCLINK, 0, none, none⟩)]) ∧
  ∀ port : CpId,
    let d : DieId := Fin.ofNat 4 (port.val / 8)
    let n := 38 + port.val % 8
    let e : McEvent := ⟨1, cMCLINK, 0, none, none⟩
    (∃ u, exec (.linkCrcRetry port) s = .next u ∧ (u.die d).events = (s.die d).events ++ [(n, e)] ∧ u.fab = s.fab) ∧
    let b := (s.die d).bank n
    let u := s.applyMc d n e
    let f := (u.die d).bank n
    f.val = true ∧ min 65535 (b.events + 1) ≤ f.events ∧ (b.val = false ∨ b.cls ≤ 1 → f.cls = 1 ∧ f.code = cMCLINK) ∧
    (b.thresh ≠ 0 → b.thresh ≤ min 65535 (b.bucket + 1) → port.val ∈ u.fab.linkRetired))

/-! ## Scheduling (14_scheduling.md, 13_model.md, 23_host.md) -/

/-- R390, R309, R304, R307, R308, R311: the doorbell of a ring; a record fetched whole, which takes the next launch id
and enters the pool as the newest of its queue, or is to complete refused, or cancelled by the first predecessor that
is not DONE; and a write of 1 to FROZEN. When a record is fetched is the model's choice (log entries 20 and 48, DESIGN
CHOICE). R310, R320, R321, R304: a launch word whose request has reached the pool has its answer: the id of its launch
and true while its depth's share has room, else false, a POOLFULL trap where the predicate is `p0`, or for `LAUNCHW`
none yet; the registers are written at the end of the cycle, in which the word retires. That the answer takes no flit
is the model's choice (log entry 28, DEDUCED). -/
def Obligations.RingsAndPools : Prop :=
  (∀ (s : State) (d : DieId) (q : QueueId),
  let x := s.die d
  let k := x.queue q
  (s.sys.ready = true → ∀ v : BitVec 32,
    (2 ^ k.log2 < (v.toNat + 2 ^ 32 - k.head.toNat) % 2 ^ 32 → ∃ u, exec (.rtailWrite d q v) s = .next u ∧
      (u.die d).queue q = { k with badTail := true }) ∧
    ((v.toNat + 2 ^ 32 - k.head.toNat) % 2 ^ 32 ≤ 2 ^ k.log2 → ∃ u, exec (.rtailWrite d q v) s = .next u ∧
      (u.die d).queue q = { k with tail := v } ∧ ∀ j, j ≠ q → (u.die d).queue j = x.queue j)) ∧
  (s.sys.ready = true → ∃ u, exec (.qctlFrozenClear d q) s = .next u ∧ (u.die d).queue q = { k with frozen := false } ∧
    (∀ j, j ≠ q → (u.die d).queue j = x.queue j) ∧ u.launches = s.launches) ∧
  (k.head = k.tail ∨ 256 ≤ s.held d 0 ∨ s.inDieOrder d = false → exec (.ringFetch d q) s = .next s) ∧
  (s.phase = .running → x.frozen = false → s.sys.hold = none → s.inDieOrder d = true → k.head ≠ k.tail → s.held d 0 < 256 → k.openSlots = false →
    let bytes := s.sys.hostMem.read (k.rbase.toNat + 256 * (k.head.toNat % 2 ^ k.log2)) 256
    let r := launchRecOf bytes
    let id := BitVec.ofNat 32 (d.val * 2 ^ 30 + x.counter)
    ∃ u, exec (.ringFetch d q) s = .next u ∧
      ((u.die d).queue q).head = k.head + 1 ∧ ((u.die d).queue q).recent = (id :: k.recent).take 255 ∧
      (u.die d).counter = (if 2 ^ 30 - 1 ≤ x.counter then 1 else x.counter + 1) ∧
      let preds := r.pred ++ k.relPreds r.relpred
      ∃ l, u.launches = s.launches ++ [l] ∧ l.id = id ∧ l.die = d ∧ l.queue = q ∧ l.depth = 0 ∧ l.record = r ∧
        l.entered = s.gtime ∧ l.dispatchedAt = none ∧ l.nextPoint = 0 ∧ l.preds = preds ∧
        let code := s.refusal d q bytes
        (code ≠ 0 → l.verdict = some (4, BitVec.ofNat 8 code)) ∧
        (code = 0 → (∀ p ∈ preds, ∀ w, s.completion p = some w → wordStatus w = 1) → l.verdict = none) ∧
        (code = 0 → ∀ pre p post w, preds = pre ++ p :: post → s.completion p = some w → wordStatus w ≠ 1 →
          (∀ b ∈ pre, ∀ v, s.completion b = some v → wordStatus v = 1) → l.verdict = some (3, wordCause w)))) ∧
  (∀ (s : State) (d : DieId) (q : PoolReq) (t : TileId) (r : Req) (pd : Option (Fin 16))
    (xd : Fin 64) (wait : Bool) (va : Nat) (route : Word) (csig : BitVec 32),
  s.phase = .running → (s.die d).frozen = false → s.sys.hold = none → s.inDieOrder d = true → (s.die d).poolReqs = [q] → q.from' = some (t, r) →
  r.act = .launch pd xd wait va route csig → (s.cox t).closingIs r = true → (s.cox t).closing = true →
  let full := (q.depth = 0 ∨ 256 ≤ s.held d q.depth) ∧ 256 ≤ s.held d 0
  let id := newId d (s.die d).counter
  let c := s.cox t
  let lands (u : State) (w : CoxWrite) : Prop := (⟨s.gtime, c.region, w⟩ : CoxLand) ∈ (u.cox t).flight
  (¬full → ∃ u, exec (.poolEntry d) s = .next u ∧ (u.die d).poolReqs = [] ∧ lands u (.x xd (id.setWidth 64)) ∧ lands u .retire ∧
    (∀ p, pd = some p → lands u (.p p true)) ∧ u.launches.length = s.launches.length + 1) ∧
  (full → wait = true → exec (.poolEntry d) s = .next s) ∧
  (full → wait = false → pd = some 0 → ∃ u, exec (.poolEntry d) s = .next u ∧ (u.cox t).fault = some (⟨cPOOLFULL, 0, 0, 0⟩, r.pc)) ∧
  (full → wait = false → ∀ p, pd = some p → p ≠ 0 → ∃ u, exec (.poolEntry d) s = .next u ∧ u.launches = s.launches ∧
    lands u (.p p false) ∧ lands u (.x xd 0) ∧ lands u .retire))

/-- R314, R318, R324, R325: DBUDGET that runs out fails a launch with DEADLINE and abandons the gang group that
waited; a failed launch freezes its queue, and under POLICY 0 places no further point; one with nothing left, the
writes that its `DONE` words cover in place, leaves with its completion word, and unless it is DONE no launch that
names it, or that it made, stays pending. What it announces follows in order, each step when the one before has been
performed: its CSIG write, sent to the word's home, its COMPSIG add, there or as a flag to another package, and its
vector. When a launch completes, and that each failure freezes, is the model's choice (log entry 20, DESIGN CHOICE),
and where its announcements leave (log entry 52, DESIGN CHOICE). R312, R313: of the ready heads the one of the highest
effective priority is dispatched, of equals the one that entered first, then the one of the lowest queue; its pool
entry is free and its walk begins. -/
def Obligations.LaunchEnds : Prop :=
  (∀ (s : State) (id : BitVec 32) (l : Launch), s.launch? id = some l →
  let word (status : Nat) (cause : Byte) (tile : Nat) : Word :=
    BitVec.ofNat 64 (id.toNat * 2 ^ 32 + tile * 2 ^ 23 + cause.toNat * 2 ^ 8 + status)
  let whole := l.gangs.filter fun g => g.loading = false
  (l.dispatchedAt = none → l.failure = none → l.verdict = none → l.entered + l.record.dbudget ≤ s.gtime →
    ∃ u, exec (.dbudgetExpiry id) s = .next u ∧
      u.launch? id = some { l with failure := some (cDEADLINE, 0), failed := false, gangs := whole }) ∧
  (∀ c w, l.dispatchedAt = some c → l.stopped = false → l.verdict = none → l.waiting = some w → w + l.record.dbudget ≤ s.gtime →
    ∃ u m g, exec (.dbudgetExpiry id) s = .next u ∧ u.launch? id = some m ∧ m.failed = false ∧ m.waiting = none ∧
      m.failure = some (l.failure.getD (cDEADLINE, 0)) ∧ m.gangs = whole ++ [g] ∧ g.group = l.groupOf l.point ∧ g.tiles = []) ∧
  (∀ f, l.failure = some f → l.failed = false → ∃ u m, exec (.launchFail id) s = .next u ∧
    ((u.die l.die).queue l.queue).frozen = true ∧ u.launch? id = some m ∧ m.failed = true ∧ m.failure = some f ∧
    (l.record.cont = false → m.stopped = true) ∧ (l.record.cont = true → m.stopped = l.stopped)) ∧
  (s.phase = .starting → s.coversDone l = true →
    (∀ c, l.dispatchedAt = some c → l.exhausted = true → l.gangs = [] → l.failure = none → l.verdict = none → l.halves = none →
      ∃ u, exec (.launchComplete id) s = .next u ∧ u = s.completeOne l 1 0 0) ∧
    ((∃ v, l.verdict = some v ∧ v.1 ≠ 1 ∧ l.dispatchedAt = none) ∨ (∃ f, l.failure = some f ∧ l.failed = true ∧ l.verdict = none ∧
        (l.dispatchedAt = none ∨ ((l.exhausted = true ∨ l.stopped = true) ∧ l.gangs = []))) →
      ∃ u, exec (.launchComplete id) s = .next u ∧ (∀ k ∈ u.launches, k.id ≠ id) ∧
        ∀ k ∈ u.launches, k.dispatchedAt = none → k.verdict = none → id ∉ k.preds ∧ k.parent ≠ some id)) ∧
  (∀ status cause tile, let u := s.completeOne l status cause tile
    (u.launches = s.launches.filter (fun k => k.id ≠ id)) ∧
    (u.die l.die).window.get (id.toNat % 4096) 0 = word status cause tile ∧
    (u.die l.die).done.head? = some (id, word status cause tile) ∧
    ∃ n, (u.die l.die).notices = (s.die l.die).notices ++ [n] ∧ n.sent = false ∧ n.flag = none ∧
      (∀ k v, n.csig = some (k, v) ↔ l.record.csig = some k ∧ v = word status cause tile) ∧
      (∀ c, n.compsig = some c ↔ l.compsig = some c ∧ c.getLsbD 31 = true) ∧
      (∀ v : Fin 2044, n.hostv = some v.val ↔ l.record.hostv = some v.val)) ∧
  ∀ (d : DieId) n rest, (s.die d).notices = n :: rest →
    let u := s.announce d
    let sends (w : BitVec 17) (a : SigAct) : Prop := ∃ f, (u.die d).stations.get 128 [] = (s.die d).stations.get 128 [] ++ [f] ∧
      f.dst = homeStation (signalHome w) ∧ f.cls = .signal ∧ f.msg = .oper none w a (some (.die d)) ∧
      (u.die d).notices = { n with sent := true } :: rest
    let waits : Prop := n.sent = true ∨ ∃ p, n.flag = some p ∧ ∃ k ∈ s.fab.sent, k.pkt.dst = p.1 ∧ k.pkt.seq = p.2
    (waits → u = s) ∧
    (¬waits →
      (∀ k v, n.csig = some (k, v) → sends k (.write v)) ∧
      (∀ c : BitVec 32, n.csig = none → n.compsig = some c →
        let pkg : Byte := BitVec.ofNat 8 (c.toNat / 2 ^ 17 % 2 ^ 8)
        (pkg = s.sys.pkg → sends (c.setWidth 17) (.atom .add false 1)) ∧
        (pkg ≠ s.sys.pkg → ∃ k, u.fab.sent = s.fab.sent ++ [k] ∧ k.pkt.dst = pkg ∧
          k.pkt.body = .flag ⟨c.setWidth 17, .rel, .dom, .atom .add false 1⟩ ∧
          (u.die d).notices = { n with compsig := none, flag := some (pkg, k.pkt.seq) } :: rest)) ∧
      (n.csig = none → n.compsig = none → (u.die d).notices = rest ∧
        ∀ v : Fin 2044, n.hostv = some v.val → u.sys.msix.getLsbD v.val = true))) ∧
  (∀ (s : State) (d : DieId) (l : Launch),
  let prio (k : Launch) : Nat :=
    min 7 (min k.record.prio ((s.die k.die).queue k.queue).maxprio + (s.gtime - k.entered) / 65536)
  let first (a b : Launch) : Prop := prio b < prio a ∨ prio a = prio b ∧
    (a.entered < b.entered ∨ a.entered = b.entered ∧ a.queue.val < b.queue.val)
  s.phase = .ending → (s.die d).frozen = false → s.sys.hold = none → (s.running d).length < 64 →
  (∀ k ∈ s.running d, k.dispatchedAt ≠ some s.gtime) →
  (∀ e, e = d ∨ e ∈ l.dies → ∀ k ∈ s.running e, k.record.wsload = false) → s.launch? l.id = some l →
  l ∈ s.candidates d → (∀ k ∈ s.candidates d, k = l ∨ first l k) → s.resumesFirst d (s.priority l) = false →
  ∃ u, exec (.launchDispatch d) s = .next u ∧
    u.launch? l.id = some { l with dispatchedAt := some s.gtime, waiting := some s.gtime } ∧
    (∀ k, k ≠ l.id → u.launch? k = s.launch? k) ∧ u = { s with launches := u.launches })

/-- R155, R316, R317, R159, R297, R368: a gang is placed on whole online crews whose four tiles are free and on the
partly used one, each member with its place, MCDELAY and Wheel positions; members that do not hold the image are given
it before any point, and the walk stands still while they are (R314); a free member takes a point as the walk reaches
it; a point starts on its member with cleared registers but its indices, at PC 0, with the scratchpad as it was. While
a weight-store load runs on a die, no other launch places a gang or a point there (R22, R143). That an image is loaded
by an event of its own is the model's choice (log entry 20, DESIGN CHOICE). -/
def Obligations.Placement : Prop := ∀ (s : State) (id : BitVec 32) (l : Launch), s.launch? id = some l →
  let unloaded : Prop := l.record.wsload = true ∨ ∀ d ∈ l.dies, ∀ k ∈ s.running d, k.record.wsload = false
  (¬unloaded → exec (.pointAllocate id) s = .next s ∧
    ((∀ g ∈ l.gangs, g.loading = false) → exec (.gangPlace id) s = .next s)) ∧
  (s.idleMember l = none → (∃ g ∈ l.gangs, g.loading = true) → exec (.pointAllocate id) s = .next s) ∧
  (∀ places, s.placement l = some places →
    places.length = l.record.gsize ∧ places.Nodup ∧ (∀ k ∈ places, k < 128 ∧ ∀ d ∈ l.dies,
      (s.die d).test.online.getLsbD (k / 4) = true ∧ (s.tile (Fin.ofNat 512 (128 * d.val + k))).place = none) ∧
    (∀ m k, places[m]? = some k → k % 4 = m % 4) ∧
    (s.phase = .running → l.needsGang s.gtime = true → l.dies.all s.mayPlace = true → unloaded →
      (∀ g ∈ l.gangs, g.loading = false) →
      let holds : Prop := ∀ d ∈ l.dies, ∀ k ∈ places, (s.tile (Fin.ofNat 512 (128 * d.val + k))).image = some l.record.image
      ∃ u m, exec (.gangPlace id) s = .next u ∧ u.launch? id = some m ∧ (holds → m.waiting = none) ∧ (¬holds → m.waiting = l.waiting) ∧
        (holds ↔ ∀ g ∈ m.gangs, g.loading = false) ∧
        (∀ g ∈ m.gangs, g ∈ l.gangs ∨ g.group = l.groupOf l.point ∧ g.tiles.length = l.record.gsize) ∧
        ∀ d ∈ l.dies, ∀ j k, places[j]? = some k →
          let t : TileId := Fin.ofNat 512 (128 * d.val + k)
          let tiles := places.map fun p => (Fin.ofNat 512 (128 * d.val + p) : TileId)
          let own := places.map fun p => (Fin.ofNat 512 (128 * l.die.val + p) : TileId)
          (u.tile t).place = some ⟨id, j, tiles, l.depth, l.record.pair⟩ ∧
          (u.cox t).mcdelay = BitVec.ofNat 32 (s.mcdelayFor l.die own) ∧
          (∀ i : Fin 4, ((u.cox t).wheel[i]).toNat = ((if l.record.wheelEn then l.record.wheel + j
            else 128 * l.die.val + k) + 512 * i.val) % 2048) ∧
          (u.tile t).sp = (s.tile t).sp ∧ (u.tile t).image = (s.tile t).image ∧ (u.cox t).imem = (s.cox t).imem)) ∧
  (s.phase = .running → l.dies.all s.schedules = true → (∃ g ∈ l.gangs, g.loading = true) →
    ∃ u, exec (.gangPlace id) s = .next u ∧
      u.launch? id = some { l with waiting := none, gangs := l.gangs.map fun g => { g with loading := false } } ∧
      ∀ g ∈ l.gangs, g.loading = true → ∀ t ∈ g.tiles, (u.tile t).place = (s.tile t).place ∧ (u.tile t).sp = (s.tile t).sp ∧
        ∀ f, s.sys.images.find? (fun i => i.1 = l.record.image) = some (l.record.image, f) →
          (u.tile t).image = some l.record.image ∧ ((s.tile t).image = some l.record.image → u.cox t = s.cox t) ∧
          ((s.tile t).image ≠ some l.record.image → (u.cox t).imem = (s.cox t).imem.write 0 f.imem)) ∧
  (∀ g (p : Point), let free (m : Nat) : Prop := g.lists.getD m [] = [] ∧ g.running.getD m none = none
    (∀ k m, g.tileBound = [(k, p.idx.take k, m)] → takesPoint [g] p = some m) ∧
    ((∀ b ∈ g.tileBound ++ g.crewBound, p.idx.take b.1 ≠ b.2.1) → ∀ m,
      (takesPoint [g] p = some m ↔ m < g.tiles.length ∧ free m ∧ ∀ j, j < m → ¬free j))) ∧
  ∀ c g m t p, s.phase = .running → l.dies.all s.schedules = true → l.dispatchedAt = some c → c ≠ s.gtime → l.stopped = false →
    l.failure = none ∨ l.failed = true → unloaded → s.idleMember l = some (g, m, t, p) →
    ∃ u, exec (.pointAllocate id) s = .next u ∧
      let x := u.tile t
      x.iter = some p.n ∧ x.budget = l.record.budget ∧ x.sp = (s.tile t).sp ∧ x.tokens = Tile.reset.tokens ∧
      x.v = VState.reset ∧ x.m = MState.reset ∧ x.cox.pc = 0 ∧ x.cox.tm = false ∧ x.cox.ie = true ∧ x.cox.fault = none ∧
      x.cox.nextIssue = s.gtime + 1 ∧
      (∀ r : Fin 64, x.cox.xValid r = decide (r.val ≤ 8)) ∧
      (∀ (j : Nat) (v : Level), l.record.levels[j]? = some v → 1 ≤ v.xreg → v.xreg ≤ 8 →
        (∀ i w, i < j → l.record.levels[i]? = some w → w.xreg ≠ v.xreg) →
        x.cox.readX (Fin.ofNat 64 v.xreg) = BitVec.ofNat 64 (p.idx.getD j 0)) ∧
      (∀ r : Fin 64, r.val ≤ 8 → (∀ v ∈ l.record.levels, v.xreg ≠ r.val) → x.cox.readX r = 0) ∧
      (∀ e, (x.eng e).queue = [] ∧ (x.eng e).noneRetired = true) ∧ ∀ v, v ≠ t → u.tile v = s.tile v

/-! ## Pre-emption, reliability, the register window (15_traps.md, 20_reliability.md, 21_holdup.md, 23_host.md) -/

/-- R338, R340 to R343, R392: a request for the gang of a tile stands until it is taken or withdrawn; at the boundary
every member stops at its region's head with V and M issuing nothing; once all are at rest each member's context, of
that boundary, is saved and its tile is free; of the saved gangs that may, the one of the highest effective priority
resumes on the same tiles with the contexts as they were saved. -/
def Obligations.Preemption : Prop := ∀ (s : State) (l : Launch) (g : Gang),
  (∀ (d : DieId) (i : Fin 128), s.sys.ready = true → s.gangOf (Fin.ofNat 512 (128 * d.val + i.val)) = some (l, g) →
    g.preempted = false →
    (g.requested = false → ∃ u m, exec (.preqRequest d i) s = .next u ∧ u.launch? l.id = some m ∧ i.val ∈ (u.die d).preq ∧
      (∀ h ∈ m.gangs, h.tiles = g.tiles → h.requested = true) ∧ u.tiles = s.tiles) ∧
    (i.val ∈ (s.die d).preq → ∃ u m, exec (.preqWithdraw d) s = .next u ∧ u.launch? l.id = some m ∧ (u.die d).preq = [] ∧
      (∀ h ∈ m.gangs, h.tiles = g.tiles → h.requested = false) ∧ u.tiles = s.tiles)) ∧
  (∀ (t : TileId), s.phase = .starting → s.gangOf t = some (l, g) →
    (s.stopsNow l g = true → ∃ u, exec (.preempt t) s = .next u ∧ ∀ v ∈ g.tiles, (s.tile v).live = true →
      let x := s.tile v
      let y := u.tile v
      y.iter = x.iter ∧ y.sp = x.sp ∧ y.cox.stopped = true ∧ y.cox.pc = x.cox.head ∧ y.cox.tm = x.cox.tm ∧
      (⟨y.cox.x, y.cox.xv, y.cox.p, y.cox.pv⟩ : Checkpoint) = x.cox.checkpoint ∧
      (y.eng .v).stopped = true ∧ (y.eng .m).stopped = true) ∧
    (s.savesNow l g = true → ((l.partners g).flatMap Gang.tiles).Nodup → ∃ u, exec (.preempt t) s = .next u ∧
      ∀ v ∈ g.tiles, (u.tile v).place = none ∧
        ∀ p n, (s.tile v).place = some p → (s.tile v).iter = some n → (u.tile v).iter = none ∧
          ∃ c, s.saving g.cut v = some c ∧ (u.tile v).contexts = (s.tile v).contexts ++ [c] ∧ c.launch = p.launch ∧
            c.at' = g.cut ∧ c.place = p ∧ c.iter = n ∧ c.cox = (s.tile v).cox ∧ c.sp = (s.tile v).sp ∧ c.tokens = (s.tile v).tokens)) ∧
  ∀ (t : TileId), s.phase = .running → s.resumable l g = true → ((l.partners g).flatMap Gang.tiles).Nodup →
    l ∈ s.launches → g ∈ l.gangs → t ∈ g.tiles →
    (∀ k ∈ s.launches, ∀ h ∈ k.gangs, t ∈ h.tiles → s.resumable k h = true → (k, h) = (l, g) ∨ s.before l k = true) →
    ∃ u, exec (.preemptResume t) s = .next u ∧ ∀ v ∈ g.tiles, ∀ j c, s.savedOf l g v = some (j, c) →
      let y := u.tile v
      y.cox.x = c.cox.x ∧ y.cox.xv = c.cox.xv ∧ y.cox.p = c.cox.p ∧ y.cox.pv = c.cox.pv ∧ y.cox.pc = c.cox.pc ∧
      y.cox.rf = c.cox.rf ∧ y.cox.tm = c.cox.tm ∧ y.cox.stopped = false ∧ y.sp = c.sp ∧ y.v = c.v ∧ y.tokens = c.tokens ∧
      y.iter = some c.iter ∧ y.budget = c.budget ∧ y.place = some c.place ∧
      (∀ e, (y.eng e).queue.map Entry.seq = (c.engines[e.ix]).queue.map Entry.seq ∧ (y.eng e).qseq = (c.engines[e.ix]).qseq ∧
        (e = .v ∨ e = .m → (y.eng e).queue = (c.engines[e.ix]).queue)) ∧ y.replies = c.replies ∧
      y.contexts = (s.tile v).contexts.eraseIdx j

/-- R365, R366, R363, R355: an event that is detected waits for the end of its cycle, and a fatal one freezes its die
now; what it then does to its bank, to the self-tests of its crew or the link of its port, and to the vector of its
die; the leak of the buckets; a write of 1 to VAL. What of a cycle's events comes first is the model's choice (log
entry 17, DEDUCED). R367, R16: requests and periodic tests wait in one queue; a test begins once its crew is empty,
and after 2^20 cycles the crew's memories hold zero and it has passed, or goes offline with MCTEST recorded. -/
def Obligations.McBanks : Prop :=
  (∀ (s : State),
  (∀ (d : DieId) (b : Nat) (e : McEvent),
    let u := s.recordMc d b e
    (u.die d).events = (s.die d).events ++ [(b, e)] ∧ (∀ j, (u.die d).bank j = (s.die d).bank j) ∧
    (e.cls = 3 → (u.die d).frozen = true) ∧ (e.cls ≠ 3 → (u.die d).frozen = (s.die d).frozen) ∧
    u.tiles = s.tiles ∧ u.dev = s.dev ∧ u.sys = s.sys) ∧
  (∀ (d : DieId) (b : Nat) (e : McEvent), 1 ≤ e.cls → e.cls ≤ 3 → (s.die d).events = [(b, e)] →
    (∀ f, f ≠ d → (s.die f).events = []) → s.applyEvents = (s.modDie d fun x => { x with events := [] }).applyMc d b e) ∧
  (∀ (d : DieId) (b : Nat) (e : McEvent),
    let k := (s.die d).bank b
    let u := s.applyMc d b e
    let m := (u.die d).bank b
    let promotes : Prop := k.thresh ≠ 0 ∧ k.thresh ≤ min (k.bucket + 1) 65535
    let port := 8 * d.val + (b - 38)
    let retires : Prop := promotes ∧ 38 ≤ b ∧ b ≤ 45 ∧ port ∉ s.fab.linkRetired
    (¬retires → m.events = min (k.events + 1) 65535 ∧ m.bucket = min (k.bucket + 1) 65535 ∧
      (m.lasting = true ↔ k.lasting = true ∨ promotes) ∧
      (k.val = false ∨ k.cls ≤ e.cls → m.val = true ∧ m.cls = e.cls ∧ m.code = e.code ∧ m.unit = e.unit ∧
        m.past = (k.past || k.val) ∧ m.addr = (e.addr.map Prod.snd).getD 0) ∧
      (k.val = true → e.cls < k.cls → m.past = true ∧ m.cls = k.cls ∧ m.code = k.code)) ∧
    (retires → port ∈ u.fab.linkRetired ∧ m = (k.record e).record ⟨1, cMCLINK, 0, none, none⟩) ∧
    (promotes → b < 32 → (u.die d).test.queue = (s.die d).test.queue ++ [b]) ∧
    (e.cls = 1 ∧ k.cint = true ∨ e.cls = 2 ∧ k.xint = true ∨ e.cls = 3 → u.sys.msix.getLsbD (2044 + d.val) = true) ∧
    (∀ j, j ≠ b → (u.die d).bank j = (s.die d).bank j) ∧ u.tiles = s.tiles ∧ u.dev = s.dev) ∧
  (s.phase = .ticking 0 → ∃ u, exec .mcLeakTick s = .next u ∧ u.phase = .ticking 1 ∧ u.tiles = s.tiles ∧
    ∀ (d : DieId) (b : Nat), let k := (s.die d).bank b
      (u.die d).bank b = { k with bucket :=
        if k.leak ≠ 0 ∧ s.gtime % (k.leak * 2 ^ 20) = 0 then k.bucket - 1 else k.bucket }) ∧
  ∀ (d : DieId) (b : Fin 48), s.sys.ready = true → ∃ u, exec (.mcstValClear d b) s = .next u ∧
    (u.die d).bank b.val = { (s.die d).bank b.val with val := false, events := 0 } ∧
    ∀ j, j ≠ b.val → (u.die d).bank j = (s.die d).bank j) ∧
  (∀ (s : State) (d : DieId),
  let y := (s.die d).test
  (s.sys.ready = true → ∀ c : Fin 32, ∃ u, exec (.stctlReq d c) s = .next u ∧
    (u.die d).test = { y with req := true, crew := c.val, queue := if y.req then y.queue else y.queue ++ [c.val] }) ∧
  (s.phase = .ticking (d.val + 1) → ∃ u, exec (.selftestPeriod d) s = .next u ∧ u.tiles = s.tiles ∧
    (y.period = 0 ∨ s.gtime % (y.period * 2 ^ 24) ≠ 0 → (u.die d).test = y) ∧
    ∀ i, y.period ≠ 0 → s.gtime % (y.period * 2 ^ 24) = 0 → i < 32 → y.online.getLsbD ((y.next + i) % 32) = true →
      (∀ j, j < i → y.online.getLsbD ((y.next + j) % 32) = false) →
      (u.die d).test = { y with queue := y.queue ++ [(y.next + i) % 32], next := ((y.next + i) % 32 + 1) % 32 }) ∧
  (∀ c rest, y.queue = c :: rest → s.phase = .starting → (s.die d).frozen = false →
    (y.running = none → s.testable d c = true → ∃ u, exec (.selftestStart d) s = .next u ∧
      (u.die d).test = { y with queue := rest, running := some (c, s.gtime) }) ∧
    (y.running ≠ none ∨ s.testable d c = false → exec (.selftestStart d) s = .next s)) ∧
  ∀ (c : Fin 32) (start : Nat), y.running = some (c.val, start) → s.phase = .ending →
    (s.gtime + 1 < start + 2 ^ 20 → ∀ ok, exec (.selftestEnd d ok) s = .next s) ∧
    (start + 2 ^ 20 ≤ s.gtime + 1 → ∀ ok, ∃ u, exec (.selftestEnd d ok) s = .next u ∧
      let z := (u.die d).test
      let w := u.crew (crewIn d c.val)
      z.running = none ∧ z.tests = min (y.tests + 1) 65535 ∧ z.last = (if ok then 1 else 2) ∧ z.lastCrew = c.val ∧
      (∀ j : Fin 32, z.online.getLsbD j.val = (y.online.getLsbD j.val && (ok || j != c))) ∧
      (∀ t ∈ crewTiles d c.val, (∀ a, (u.tile t).sp.get a = 0) ∧ ∀ i : Fin 16, (u.cox t).bfmt[i] = 0) ∧
      (∀ n : Fin 32, (w.slot n).data = [] ∧ (w.bank n).cells = []) ∧
      (ok = true → (u.die d).bank c.val = { (s.die d).bank c.val with bucket := 0, lasting := false }) ∧
      (ok = false → (u.die d).events = (s.die d).events ++ [(c.val, ⟨2, cMCTEST, 4, none, none⟩)])))

/-- R369, R361: halves that agree commit die 0's, and the launch is DONE; halves that differ end it with MCPAIR, as
does a launch that has run the shadow pool out; a moving row's units are copied in order, then those marked; its remap
is recorded; and a channel's scrub reads its next unit 4,096 cycles on, in the cycle of those that is the channel's,
which is the model's choice (log entry 40, DESIGN CHOICE). -/
def Obligations.PairsAndRows : Prop := ∀ (s : State),
  (∀ (id : BitVec 32) (l : Launch) (h : Machine.Half × Machine.Half), s.launch? id = some l → l.halves = some h → l.failure = none →
    s.phase = .starting →
    let recorded (u : State) (detail : Nat) : Prop := (u.die 0).events =
      (s.die 0).events ++ [(47, ⟨2, cMCPAIR, 0, some (8, id.setWidth 64), some detail⟩)]
    let starved := h.1.starved = true ∨ h.2.starved = true
    (starved → ∃ u m, exec (.pairCompare id) s = .next u ∧ u.launch? id = some m ∧
      m.failure = some (cMCPAIR, 0) ∧ m.stopped = true ∧ recorded u 1) ∧
    (¬starved → l.dispatchedAt ≠ none → l.exhausted = true → l.gangs = [] →
      (s.coversDone l = false → exec (.pairCompare id) s = .next s) ∧
      (s.coversDone l = true → halvesAgree h.1 h.2 = true →
        ∃ u, exec (.pairCompare id) s = .next u ∧ u = (s.commitHalf h.1).completeOne l 1 0 0) ∧
      (s.coversDone l = true → halvesAgree h.1 h.2 = false → ∃ u, exec (.pairCompare id) s = .next u ∧ u.dev.hbm = s.dev.hbm ∧
        (∀ k ∈ u.launches, k.id ≠ id) ∧ recorded u 2))) ∧
  (s.phase = .ending → ∀ h : HomeId,
    let moves := (s.home h.val).moves
    (∃ u, exec (.rowUnitCopyDone h) s = .next u ∧ ∀ (i : Nat) (m : RowMove), moves[i]? = some m →
      let n := (u.home h.val).moves[i]?
      let past := m.unit ≠ 8 ∧ m.began + 63 ≤ s.gtime
      (¬past → n = some m) ∧
      (past → m.firstPass = true → m.unit < 7 → n = some { m with unit := m.unit + 1, began := m.began + 64 }) ∧
      (past → ¬(m.firstPass = true ∧ m.unit < 7) → m.marks = [] →
        n = some { m with unit := 8, began := m.began + 64, firstPass := false }) ∧
      (past → ¬(m.firstPass = true ∧ m.unit < 7) → ∀ k ∈ m.marks, (∀ j ∈ m.marks, k ≤ j) →
        n = some { m with unit := k, began := m.began + 64, firstPass := false, marks := m.marks.filter fun j => j ≠ k })) ∧
    ∃ u, exec (.rowRemap h) s = .next u ∧
      let past := moves.filter fun m => m.unit = 8 ∧ m.began ≤ s.gtime
      (u.home h.val).moves = moves.filter (fun m => ¬(m.unit = 8 ∧ m.began ≤ s.gtime)) ∧
      (u.home h.val).remaps = (s.home h.val).remaps ++ past.map (fun m => (m.stack, m.ch, m.row, m.spare)) ∧
      u.dev.hbm = s.dev.hbm ∧ ∀ m, past = [m] →
        let d : DieId := Fin.ofNat 4 (m.stack / 3)
        ∃ a, (u.die d).events = (s.die d).events ++ [(32 + m.ch % 2, ⟨1, cMCREMAP, m.stack % 3, a, some m.spare⟩)]) ∧
  ∀ (h : HomeId) (stack : Fin 3) (ch : Fin 64) (chk : Check), ch.val % 2 = h.val % 2 →
    (s.die (Fin.ofNat 4 (h.val / 2))).frozen = false →
    let key := 64 * (3 * (h.val / 2) + stack.val) + ch.val
    let at' := (s.home h.val).scrub.get key (0, 0)
    (s.gtime < at'.2 ∨ s.gtime % 4096 ≠ key → exec (.patrolScrubRead h stack ch chk) s = .next s) ∧
    (at'.2 ≤ s.gtime → s.gtime % 4096 = key → ∃ u, exec (.patrolScrubRead h stack ch chk) s = .next u ∧
      (u.home h.val).scrub.get key (0, 0) = ((at'.1 + 1) % 2 ^ 22, s.gtime + 4096) ∧ u.dev.hbm = s.dev.hbm ∧ u.tiles = s.tiles)

/-- R151, R250, R287, R393, R47, R389, R394: what the register window writes: an entry of the Pitch table while no
iteration runs on its die, an entry of the peer table with no reserved bit, a Signal word, IMGADDR with its handle,
CTXFLUSH, and each register with its RW and W1C fields only; nothing while READY is 0. After BOOTFAIL all of the
window but DEVCTL reads as 0. Whence a write of a Signal word travels to its home, which handle an image gets and
where its checks are made is the model's choice (log entries 52, 7 and 51, DESIGN CHOICE); a flush waits for
dispatched launches, and LOG2 keeps its value at a wrong one (log entries 50 and 38, DEDUCED). -/
def Obligations.WindowWrites : Prop := ∀ (s : State),
  (s.sys.ready = false → ∀ i : Instr, (∃ d k v, i = .pitchWrite d k v) ∨ (∃ k c r q, i = .peerTableWrite k c r q) ∨
    (∃ w v, i = .signalWindowWrite w v) ∨ (∃ v, i = .imgaddrWrite v) ∨ (∃ v, i = .ctxflushWrite v) ∨ (∃ r v, i = .regWrite r v) →
    exec i s = .next s) ∧
  (s.sys.ready = false → ∀ w, s.hostWrite w = s) ∧
  (s.sys.bootfail = true → ∀ off, winAt off ≠ .devctl → ∀ v, s.windowRead off = some v → v = 0) ∧
  (s.sys.ready = true →
    (∀ (d : DieId) (k : Fin 2112) (v : BitVec 16),
      let kind := v.toNat / 2 ^ 14
      let owner := v.toNat % 2 ^ 8
      let ok := v.toNat / 2 ^ 8 % 2 ^ 6 = 0 ∧ (kind = 0 ∧ owner = 0 ∨ kind = 1 ∧ owner ≤ 131 ∨ kind = 2 ∧ owner ≤ 127)
      (s.dieBusy d = true ∨ ¬ok → exec (.pitchWrite d k v) s = .next s) ∧
      (s.dieBusy d = false → ok → ∃ u, exec (.pitchWrite d k v) s = .next u ∧ ∀ j,
        (u.die d).pitch.get j 0 = if j = k.val then v else (s.die d).pitch.get j 0)) ∧
    (∀ (k : Fin 256) (ctl src : Byte) (q : BitVec 256),
      (8 ≤ ctl.toNat → exec (.peerTableWrite k ctl src q) s = .next s) ∧
      (ctl.toNat < 8 → ∃ u, exec (.peerTableWrite k ctl src q) s = .next u ∧ ∀ j,
        u.sys.peers.get j Peer.reset = if j = k.val then ⟨ctl, src, q⟩ else s.sys.peers.get j Peer.reset)) ∧
    (∀ (w : BitVec 17) (v : Word), ∃ u, exec (.signalWindowWrite w v) s = .next u ∧ u.dev = s.dev ∧ u.tiles = s.tiles ∧
      let d : DieId := Fin.ofNat 4 ((signalHome w).val / 2)
      ∃ f, (u.die d).stations.get 128 [] = (s.die d).stations.get 128 [] ++ [f] ∧ f.dst = homeStation (signalHome w) ∧
        f.msg = .oper none w (.write v) none) ∧
    (∀ v : Word, s.sys.images.length < 2 ^ 32 → ∃ u, exec (.imgaddrWrite v) s = .next u ∧ u.sys.imgaddr = v ∧
      (u.sys.imghandle = 0 ∧ u.sys.images = s.sys.images ∨ u.sys.imghandle ≠ 0 ∧ ∃ f,
        u.sys.images = (u.sys.imghandle, f) :: s.sys.images ∧ ∀ g ∈ s.sys.images, g.1 ≠ u.sys.imghandle) ∧
      (s.walk v.toNat = none → u.sys.imghandle = 0) ∧
      ∀ p e k g, s.walk v.toNat = some p → s.extent? (pteExt p.pte) = some e →
        e.segOf (e.elemsAt (v.toNat - e.base)).1 = some (k, g) →
        let room := e.base + (g.stop * e.bits) / 8 - v.toNat
        let size := imageSize (s.deviceRead v.toNat (min 80 room))
        let l := s.deviceRead v.toNat size
        s.dev.flaws = [] → s.dev.poison = [] → s.dev.retiredChannels = [] →
        (∀ x q, v.toNat < x + 256 → x < v.toNat + room → s.walk x = some q → pteTier q.pte ≠ 2) →
        (g.st ≠ .i ∨ room < size ∨ imageOk l size = false → u.sys.imghandle = 0) ∧
        (g.st = .i → size ≤ room → imageOk l size = true → (imagePart l 6).2 = 0 → u.sys.imghandle ≠ 0 ∧
          ∃ f, u.sys.images = (u.sys.imghandle, f) :: s.sys.images ∧ f.imem = partBytes l 0 ∧
            ∀ i : Fin 4, f.parts[i] = partBytes l (i.val + 1))) ∧
    (∀ v : Word, (v.getLsbD 0 = false → exec (.ctxflushWrite v) s = .next s) ∧
      (v.getLsbD 0 = true → ∃ u, exec (.ctxflushWrite v) s = .next u ∧
        ((∃ l ∈ s.launches, l.dispatchedAt ≠ none) → u.sys.ctxflush = true ∧ u.tiles = s.tiles) ∧
        ((∀ l ∈ s.launches, l.dispatchedAt = none) → u.sys.ctxflush = false ∧ ∀ t, (u.tile t).tlb = []))) ∧
    ∀ v : Word,
      (∃ u, exec (.regWrite .devctl v) s = .next u ∧
        (v.getLsbD 1 = false ∨ s.sys.hold ≠ none → u = s) ∧
        (v.getLsbD 1 = true → s.sys.hold = none → u = { s with sys := { s.sys with frozen := true, freezeBit := true } })) ∧
      (∃ u, exec (.regWrite .savePool v) s = .next u ∧ ∀ b, u.sys.savePool.getLsbD b =
        (v.getLsbD b && decide (b < 10 ∨ 30 ≤ b ∧ b < 42))) ∧
      (∃ u, exec (.regWrite .shadowPool v) s = .next u ∧ ∀ b, u.sys.shadowPool.getLsbD b =
        (v.getLsbD b && decide (b < 8 ∨ 30 ≤ b ∧ b < 42))) ∧
      (∃ u, exec (.regWrite .bhctl v) s = .next u ∧ u = { s with sys := { s.sys with
        bhAllow := if v.toNat % 2 ^ 24 ≤ 0xA00000 then v.toNat % 2 ^ 24 else 0xA00000 } }) ∧
      (∀ d q, let k := (s.die d).queue q
        (∃ u, exec (.regWrite (.qctl d q) v) s = .next u ∧ (u.die d).queue q =
          { k with frozen := k.frozen && !v.getLsbD 11, en := v.getLsbD 10, maxprio := v.toNat % 8 }) ∧
        (∃ u, exec (.regWrite (.rbase d q) v) s = .next u ∧ let m := (u.die d).queue q
          m.rbase.toNat = v.toNat / 2 ^ 12 * 2 ^ 12 ∧ m = { k with rbase := m.rbase, openSlots := m.openSlots } ∧
          (k.head = k.tail → m.openSlots = k.openSlots)) ∧
        ∃ u, exec (.regWrite (.rctl d q) v) s = .next u ∧ let m := (u.die d).queue q
          let n := v.toNat % 2 ^ 5
          m.badTail = (k.badTail && !v.getLsbD 31) ∧ m.log2 = (if 4 ≤ n ∧ n ≤ 16 then n else k.log2) ∧ m.rbase = k.rbase ∧
          m.head = k.head ∧ m.tail = k.tail) ∧
      (∀ d (b : Fin 48), let k := (s.die d).bank b.val
        (∃ u, exec (.regWrite (.mcctl d b) v) s = .next u ∧ (u.die d).bank b.val = { k with
          thresh := v.toNat / 2 ^ 32 % 2 ^ 16, leak := v.toNat / 2 ^ 16 % 2 ^ 8, xint := v.getLsbD 1, cint := v.getLsbD 0 }) ∧
        ∃ u, exec (.regWrite (.mcst d b) v) s = .next u ∧ (u.die d).bank b.val = { k with
          val := k.val && !v.getLsbD 63, events := if v.getLsbD 63 then 0 else k.events, past := k.past && !v.getLsbD 62 }) ∧
      ∀ d, let y := (s.die d).test
        ∃ u, exec (.regWrite (.stctl d) v) s = .next u ∧ (u.die d).test = { y with
          period := v.toNat / 2 ^ 16 % 2 ^ 24, req := v.getLsbD 8, crew := v.toNat % 2 ^ 5,
          queue := if v.getLsbD 8 && !y.req then y.queue ++ [v.toNat % 2 ^ 5] else y.queue })

/-- R394, R397, R398, R396, R371: boot sets READY with the package's id and the firmware's version, or BOOTFAIL at its
third failure; keys, temperature and the freeze, which a hold-up that has begun does not take. What the id and the
version hold is the model's choice (log entry 49, DESIGN CHOICE); that cells are read under a new key as it decrypts
them, and that the freeze waits for a hold-up (log entries 23 and 45, DEDUCED). R370 to R375, R379, R381, R9: the loss
of supply stops every engine, is pending on each Cox with a handler and stops the others, and ends every open group;
at the end of cycle P + 4,095 every Cox stops; the set is written when the drain is over, and the cold reset after it
keeps the Boathouse and its registers and little else; a write of 1 to SETV erases the set's header. When the drain is
over, what a freeze and a reset do to each other and what reset keeps is the model's reading (log entries 35, 50, 23
and 36, DEDUCED); the values of registers at reset for which the spec states none are the model's (log entry 1, DESIGN
CHOICE). -/
def Obligations.BootAndHoldUp : Prop :=
  (∀ (s : State),
  (s.sys.ready = false → s.sys.bootfail = false → ∀ pkg fw,
    (∃ u, exec (.boot true pkg fw) s = .next u ∧
      u = { s with sys := { s.sys with ready := true, pkg := pkg, fwCps := fw.cps, fwVersion := fw.version } }) ∧
    ∃ u, exec (.boot false pkg fw) s = .next u ∧ u.sys.ready = false ∧ u.sys.bootTries = s.sys.bootTries + 1 ∧
      (u.sys.bootfail = true ↔ 3 ≤ s.sys.bootTries + 1)) ∧
  (s.sys.ready = true → ∀ (k : Fin 1024) (key : BitVec 512), ∃ u, exec (.keyLoad k key) s = .next u ∧
    (∀ j, u.sys.keys.get j 0 = if j = k.val then key else s.sys.keys.get j 0) ∧
    u.dev.hbm = s.dev.hbm ∧ u.dev.tier2 = s.dev.tier2 ∧ u.dev.ws = s.dev.ws ∧ u.dev.unitKey = s.dev.unitKey ∧
    u.dev.fills = s.dev.fills ∧ u.dev.signals = s.dev.signals ∧
    (∀ x ∈ s.dev.extents, x.2.acap = false ∨ x.2.key ≠ k.val ∨ s.sys.keys.get k.val 0 = key → x ∈ u.dev.extents)) ∧
  (∀ (d : DieId) (c : Nat), ∃ u, exec (.thermalLimit d c) s = .next u ∧ (u.die d).celsius = c ∧
    (c < 115 → u.sys = s.sys ∧ u.tiles = s.tiles) ∧
    (115 ≤ c → s.sys.hold = none → s.sys.frozen = false → u.sys.hold = some .handler ∧ u.sys.holdP = s.gtime)) ∧
  (s.sys.hold = none → exec .freeze s = .next { s with sys := { s.sys with frozen := true } }) ∧
  (s.sys.hold ≠ none → exec .freeze s = .next s)) ∧
  (∀ (s : State),
  (s.sys.hold ≠ none ∨ s.sys.frozen = true → exec .supplyLoss s = .next s) ∧
  (s.sys.hold = none → s.sys.frozen = false → ∃ u, exec .supplyLoss s = .next u ∧
    u.sys.hold = some .handler ∧ u.sys.holdP = s.gtime ∧ u.gtime = s.gtime ∧
    (∀ t, (s.tile t).live = true → (∀ e, ((u.tile t).eng e).stopped = true ∧ ((u.tile t).eng e).queue = ((s.tile t).eng e).queue) ∧
      (u.cox t).x = (s.cox t).x ∧ (u.tile t).sp = (s.tile t).sp ∧
      ((s.cox t).tvec.getLsbD 16 = true → (u.cox t).pend.pfail = true) ∧
      ((s.cox t).tvec.getLsbD 16 = false → (u.cox t).stopped = true)) ∧
    ∀ g p, (s.group g).st = .opened → (s.group g).prog = some p →
      (u.group g).st = .ended ∧ (u.group g).status.toNat % 2 ^ 8 = cPFAIL.toNat) ∧
  (s.phase = .ending → s.sys.hold = some .handler → s.sys.holdP + 4095 ≤ s.gtime → ∃ u, exec .handlerDeadline s = .next u ∧
    u.sys.hold = some .drain ∧ ∀ t, (s.tile t).live = true → (u.cox t).stopped = true) ∧
  (s.phase = .ending → s.sys.hold = some .handler ∨ s.sys.hold = some .drain →
    (s.drained = false → s.gtime < s.sys.holdP + 16384 → exec .drainEnd s = .next s) ∧
    (s.drained = true ∨ s.sys.holdP + 16384 ≤ s.gtime → ∃ u, exec .drainEnd s = .next u ∧
      u.sys.hold = some .write ∧ u.sys.bhSetv = true ∧ u.sys.bhHoldno = s.sys.bhHoldno + 1 ∧
      u.sys.bhBytes = s.saveSet.length ∧ (∀ i b, s.saveSet[i]? = some b → u.sys.boathouse.get i = b) ∧
      recNat s.saveSet 0 4 = 0x53424E45 ∧ recNat s.saveSet 4 2 = (s.sys.bhHoldno + 1).toNat)) ∧
  (s.sys.ready = true → s.sys.bhSetv = true → ∃ u, exec .bhstatSetvClear s = .next u ∧ u.sys.bhSetv = false ∧
    u.sys.bhHoldno = s.sys.bhHoldno ∧ ∀ a, a < 64 → u.sys.boathouse.get a = 0) ∧
  (s.sys.frozen = true ∨ s.sys.hold = none ∨ s.sys.hold = some .write ∧ s.sys.holdEnd ≤ s.gtime → ∃ u, exec .coldReset s = .next u ∧
    u.gtime = 0 ∧ u.launches = [] ∧ (∀ t, u.tile t = Tile.reset) ∧ (∀ w, u.dev.signal w = 0) ∧ u.dev.extents = [] ∧
    u.fab.groups = [] ∧ u.sys.ready = false ∧ u.sys.hold = none ∧ u.sys.frozen = false ∧
    (∀ d, (u.die d).frozen = false ∧ ∀ b, (u.die d).bank b = McBank.reset) ∧
    u.sys.boathouse = s.sys.boathouse ∧ u.sys.bhSetv = s.sys.bhSetv ∧ u.sys.bhHoldno = s.sys.bhHoldno ∧
    u.sys.bhBytes = s.sys.bhBytes))

/-! ## The machine as a whole (00_scope.md, 02_assembler.md, 03_words.md, 12_cox.md) -/

/-- R252, R255, R261: a word of the Cox that reaches no memory leaves every other tile, device memory and the fabric
as they are, and of its own Cox the registers, the predicates, their valid bits, the CSRs and the checkpoint, whether
it runs, waits or faults: its result lands later. -/
def Obligations.CoxFrame : Prop := ∀ (i : Instr) (s u : State) (t : TileId), i.coxOnly = true → s.cur = .cox t →
  exec i s = .next u → OnlyCox s u t ∧ CoxKeeps (s.cox t) (u.cox t) ∧
    (∀ r, (u.cox t).readX r = (s.cox t).readX r) ∧ ∀ l ∈ (s.cox t).flight, l ∈ (u.cox t).flight

/-- Values that the spec gives for reset: every Signal word 0, every Pitch entry open, no valid peer, the reset
columns of QCTL, RCTL, MCCTL, BHCTL, STCTL and DEVCTL, no launch, no iteration; `x0` reads 0 and `p0` true. -/
def Obligations.ResetState : Prop :=
  let s := State.reset
  (∀ w, s.dev.signal w = 0) ∧ s.launches = [] ∧ s.dev.extents = [] ∧
  (∀ (d : DieId), (∀ k, (s.die d).pitch.get k 0 = 0) ∧ (s.die d).counter = 1 ∧ (s.die d).test.period = 0 ∧
    (∀ q, let k := (s.die d).queue q
      k.en = false ∧ k.frozen = false ∧ k.maxprio = 7 ∧ k.log2 = 4 ∧ k.head = 0 ∧ k.tail = 0 ∧ k.rbase = 0) ∧
    ∀ b, let m := (s.die d).bank b
      m.val = false ∧ m.thresh = 16 ∧ m.leak = 64 ∧ m.bucket = 0 ∧ m.events = 0) ∧
  (∀ k, (s.sys.peers.get k Peer.reset).ctl = 0) ∧ s.sys.bhAllow = 0xA00000 ∧ s.sys.ready = false ∧ s.sys.hold = none ∧
  (∀ t, (s.tile t).live = false ∧ (s.cox t).readX 0 = 0 ∧ (s.cox t).readP 0 = true ∧ (s.cox t).tvec = 0 ∧ (s.cox t).tm = false) ∧
  (∀ g, (s.group g).st = .free) ∧ MemoriesOk s

/-- R62, R264, R273, R219 (the worked product of 10_eight.md), R60, R290, R81, R240: words that the spec writes out,
and what they stand for. -/
def Obligations.SpecWords : Prop :=
  decodeWord .cox 0x00860A0D80000000FFFFFFF4 = .word (.add ⟨⟨3, true⟩, 5, .x 6, .imm 0xFFFFFFF4⟩) ∧
  decodeWord .v 0x020111018000010740000000 =
    .word (.vmul ⟨⟨⟨0, false⟩, ⟨some .l, some .s⟩⟩, .op 0, .ip 0, .imm 0x40000000, .f32, .rne⟩) ∧
  decodeWord .cox 0x5000000C0E00100001000003 = .word (.exec ⟨⟨0, false⟩, .v, 0, 3, .imm 4096, 6, 7⟩) ∧
  decodeWord .m 0x1000080406000001000C1817 = .word (.mma ⟨⟨none, some .l⟩, 4, 2, 3, 23, 48, 48⟩) ∧
  decodeWord .cox 0x360000000000100020000011 = .word (.sld ⟨⟨0, false⟩, 0, .acq, .gang, 17⟩) ∧
  decodeWord .cox 0x6900000A0C0E0000000012C8 = .word (.recast ⟨⟨0, false⟩, 5, 6, 7, .i, false, some 300⟩) ∧
  decodeStep 0x0000000100000100 = some (.send ⟨.up, 0, 0, 1, 256⟩ 0) ∧
  decodeWord .cox 0x00860A0D80000001FFFFFFF4 = .ill 3

/-- R47 to R62: every well-formed instruction of a stream has a word of 96 bits that decodes to it, as a number and as
12 stored bytes, and every well-formed step a word of 64 bits. -/
def Obligations.RoundTrip : Prop :=
  (∀ (st : Stream) (i : Instr), i.wf st = true → ∃ w, encode st i = some w ∧ w < 2 ^ 96 ∧ decodeWord st w = .word i ∧
    decodeBytes st (toBytes 12 w) = .word i) ∧
  ∀ i : Instr, i.wfStep = true → ∃ w, encodeStep i = some w ∧ w < 2 ^ 64 ∧ decodeStep w = some i

/-- R60, R61, R63, R239: a step of a turn of the agenda decodes the next word of its Cox, engine or step program and
runs it: exec of the decoded instruction with the unit at work, a V word with what the ports of its tile make of it
(R161); a word that is none is ILLOP; an event of the agenda is run as it stands; past the agenda every Cox that may
issue and has not tried its word in this cycle still does. The agenda, which brings what the clock does not fix, is
the model's (log entry 4, DESIGN CHOICE), and what is said is of the running phase of a cycle. -/
def Obligations.DecodedWordsIssue : Prop := ∀ (s : State) (rest : List Turn), s.sys.frozen = false → s.phase = .running →
  s.sys.hold ≠ some .write →
  (∀ t, s.coxReady t = true → (s.agenda = .cox t :: rest ∨ s.agenda = [] ∧ rest = [] ∧ s.untried = some t) →
    let c := s.cox t
    let r := { s with agenda := rest, cur := .cox t, tried := .cox t :: s.tried }
    (pcLegal c.pc = false → step s = .next (r.coxFault t cMISALIGN 0 c.pc)) ∧
    (pcLegal c.pc = true → GranulesGood s ((granules c.pc.toNat 12).map (.imem t)) →
      (∀ i, decodeBytes .cox (c.imem.read c.pc.toNat 12) = .word i → step s = exec i r) ∧
      ∀ k, decodeBytes .cox (c.imem.read c.pc.toNat 12) = .ill k →
        step s = .next (r.coxFault t cILLOP (BitVec.ofNat 64 k) 0))) ∧
  (∀ t e bs, s.agenda = .eng t e :: rest → (s.die (dieOf t)).frozen = false → (e = .m → (s.tile t).m.replay = none) →
    s.engReady t e = true → ((s.tile t).eng e).wordNow = some bs → GranulesGood s (((s.tile t).eng e).wordSites t e) →
    let r := { s with agenda := rest, cur := .eng t e }
    (∀ i, decodeBytes e.stream bs = .word i →
      (e ≠ .v → step s = exec i r) ∧ (e = .v → step s = r.portedOut t (exec i r))) ∧
    ∀ k, decodeBytes e.stream bs = .ill k → step s = .next ({ s with agenda := rest }.engFault t e cILLOP k)) ∧
  (∀ g p, s.agenda = .cp g :: rest → (s.group g.val).prog = some p → p.fetch = none → s.stepReady g.val = true →
    (∀ w i, p.steps[p.pc]? = some w → decodeStep w.toNat = some i →
      step s = exec i { s with agenda := rest, cur := .cp g }) ∧
    ((∀ w, p.steps[p.pc]? = some w → decodeStep w.toNat = none) →
      step s = .next ({ s with agenda := rest }.groupFault g.val cILLOP p.pc))) ∧
  (∀ i, s.agenda = .event i :: rest → isInput i = true → (eventDie s i).all s.clocked = true → isLate i = false → cutsSupply i = false →
    step s = exec i { s with agenda := rest }) ∧
  (s.agenda = [] → s.untried = none → step s = .next { s with phase := .ending })

/-- R5: in no step does GTIME move but from the end of a cycle to the next, by one, or to 0, in the step that runs a
cold reset: one that the agenda brings, or that of the end of a hold-up's write. -/
def Obligations.TimeMoves : Prop := ∀ s t, step s = .next t →
  t.gtime = s.gtime ∨ t.gtime = s.gtime + 1 ∧ s.phase = .ending ∨
  t.gtime = 0 ∧ ((∃ rest, s.agenda = .event .coldReset :: rest) ∨ s.sys.hold = some .write ∧ s.sys.holdEnd ≤ s.gtime)

/-- Every step keeps device memory, the Boathouse and host memory in their canonical form: addresses rising, no entry
that reads as an unlisted address does. -/
def Obligations.MemoriesStayCanonical : Prop := Kept MemoriesOk
end

