-- ==== Sys2Proof/Laws/Encode.lean ====
section
/-! SUPPORT. The round trip of a word, in parts: fields into a word and back, each operand form into its specifier
and back, and the checks of R62 as hypotheses. -/

namespace Sys2Proof

/-! ## Fields and words (R48) -/

/-- The fields of the word of the fields. -/
theorem Fields.split_join (f : Fields) (h : f.Fits) : Fields.split f.join = f := by
  obtain ⟨opc, pn, pr, d, a, b, c, fn, ty, rm, r36, tp, ts, imm⟩ := f
  obtain ⟨h0, h1, h2, h3, h4, h5, h6, h7, h8, h9, h10, h11, h12, h13⟩ := h
  simp only [Fields.split, Fields.join, bitsOf, Nat.shiftRight_eq_div_pow, Fields.mk.injEq] at *
  and_intros <;> omega

/-- A word has 96 bits. -/
theorem Fields.join_lt (f : Fields) (h : f.Fits) : f.join < 2 ^ 96 := by
  obtain ⟨opc, pn, pr, d, a, b, c, fn, ty, rm, r36, tp, ts, imm⟩ := f
  obtain ⟨h0, h1, h2, h3, h4, h5, h6, h7, h8, h9, h10, h11, h12, h13⟩ := h
  simp only [Fields.join] at *
  omega

/-- The number in the bytes of a number (R6). -/
theorem ofBytes_toBytes (n x : Nat) (h : x < 256 ^ n) : ofBytes (toBytes n x) = x := by
  induction n generalizing x with
  | zero => simp at h; simp [toBytes, ofBytes, h]
  | succ n ih =>
    have h' : x / 256 < 256 ^ n := Nat.div_lt_of_lt_mul (by rwa [Nat.pow_succ, Nat.mul_comm] at h)
    rw [toBytes, ofBytes, ih _ h', BitVec.toNat_ofNat]
    omega

/-- How many bytes a number is written in. -/
@[simp] theorem length_toBytes (n x : Nat) : (toBytes n x).length = n := by
  induction n generalizing x with
  | zero => rfl
  | succ n ih => simp [toBytes, ih]

/-! ## The round trip of a word -/

/-- Word `i` of stream `st` has fields that fit, and they decode to it. -/
def WordTrips (st : Stream) (i : Instr) : Prop :=
  ∃ f, fieldsOf st i = some f ∧ f.Fits ∧ decodeFields st f = .word i

/-- The word of an instruction decodes to it, as a number and as 12 stored bytes. -/
theorem WordTrips.decode {st : Stream} {i : Instr} (h : WordTrips st i) :
    ∃ w, encode st i = some w ∧ w < 2 ^ 96 ∧ decodeWord st w = .word i ∧ decodeBytes st (toBytes 12 w) = .word i := by
  obtain ⟨f, hf, hfit, hd⟩ := h
  have hw : decodeWord st f.join = .word i := by rw [decodeWord, Fields.split_join f hfit, hd]
  refine ⟨f.join, by simp [encode, hf], f.join_lt hfit, hw, ?_⟩
  have hl := f.join_lt hfit
  rw [decodeBytes, List.take_of_length_le (by simp), ofBytes_toBytes _ _ (by simpa using hl), hw]

/-- R62: a reading of which every check passes. -/
theorem trip {st : Stream} {i : Instr} {f : Fields} {r : Reading} (hf : fieldsOf st i = some f)
    (hr : reading st f = some r) (fit : f.Fits) (h36 : f.r36 = 0) (hz : f.streamZero st = true) (h3 : r.three = true)
    (h4 : r.four = true) (h5 : st = .cox → f.pr < 16) (h6 : r.six = true) (h7 : r.seven = true) (hb : r.build = i) :
    WordTrips st i := by
  refine ⟨f, hf, fit, ?_⟩
  have h5' : (st == .cox && r.guard && decide (16 ≤ f.pr)) = false := by
    by_cases h : st = .cox
    · simp [h5 h]
    · simp [h]
  simp [decodeFields, hr, h36, hz, h3, h4, h5', h6, h7, hb]

/-! ## Specifiers -/

@[simp] theorem isReg_val (r : Fin 64) : isReg r.val = true := by simp [isReg]
@[simp] theorem idx_val (r : Fin 64) : idx r.val = r := by simp [idx, Fin.ofNat, Nat.mod_eq_of_lt r.isLt]
@[simp] theorem isReg_ge (n : Nat) (h : 64 ≤ n) : isReg n = false := by simp [isReg]; omega

@[simp] theorem isP_encP (p : Fin 16) : isP (encP p) = true := by revert p; decide
@[simp] theorem pidx_encP (p : Fin 16) : pidx (encP p) = p := by
  have := p.isLt
  simp only [pidx, encP, Fin.ofNat, Fin.ext_iff]; omega
@[simp] theorem pidx_val (p : Fin 16) : pidx p.val = p := by simp [pidx, Fin.ofNat, Nat.mod_eq_of_lt p.isLt]
@[simp] theorem isK_encP (k : Fin 64) : isK (encP k) = true := by revert k; decide
@[simp] theorem idx_encP (k : Fin 64) : idx (encP k) = k := by
  have := k.isLt
  simp only [idx, encP, Fin.ofNat, Fin.ext_iff]; omega
theorem encP_lt {n : Nat} (p : Fin n) (h : n ≤ 64) : encP p < 256 := by have := p.isLt; simp [encP]; omega
@[simp] theorem encP16_lt (p : Fin 16) : encP p < 256 := encP_lt p (by decide)
@[simp] theorem encP64_lt (p : Fin 64) : encP p < 256 := encP_lt p (by decide)

@[simp] theorem encB_lt (b : Bool) : encB b < 2 := by cases b <;> decide
@[simp] theorem encB_le (b : Bool) : encB b ≤ 1 := by cases b <;> decide
@[simp] theorem encB_eq_one (b : Bool) : (encB b == 1) = b := by cases b <;> rfl
@[simp] theorem val64_lt (r : Fin 64) : r.val < 256 := by omega
@[simp] theorem val16_lt (r : Fin 16) : r.val < 64 := by omega

@[simp] theorem encSrc_lt (a : Src) : encSrc a < 256 := by cases a <;> simp [encSrc]
@[simp] theorem isSrc_encSrc (a : Src) : isSrc (encSrc a) = true := by cases a <;> simp [encSrc, isSrc, isRf, isImm]
/-- A Cox source, when IMM is its immediate. -/
theorem srcOf_encSrc (a : Src) (imm : Nat) (h : ∀ i, a.imm? = some i → imm = i.toNat) : srcOf imm (encSrc a) = a := by
  cases a with
  | x r => simp [srcOf, encSrc]
  | rf => rfl
  | imm i => simp [srcOf, encSrc, isReg, isRf, h i rfl]
@[simp] theorem class11_encSrc (a : Src) : class11 (encSrc a) = a.imm?.isSome := by
  cases a with
  | x r => revert r; decide
  | rf => rfl
  | imm i => rfl

@[simp] theorem encXRf_lt (a : XRf) : encXRf a < 256 := by cases a <;> simp [encXRf]
@[simp] theorem isXRf_encXRf (a : XRf) : isXRf (encXRf a) = true := by cases a <;> simp [encXRf, isXRf, isRf]
@[simp] theorem isSrc_encXRf (a : XRf) : isSrc (encXRf a) = true := by cases a <;> simp [encXRf, isSrc, isRf]
@[simp] theorem xrfOf_encXRf (a : XRf) : xrfOf (encXRf a) = a := by
  cases a with
  | x r => simp [xrfOf, encXRf]
  | rf => rfl
@[simp] theorem class11_encXRf (a : XRf) : class11 (encXRf a) = false := by
  cases a with
  | x r => revert r; decide
  | rf => rfl

@[simp] theorem encXImm_lt (a : XImm) : encXImm a < 256 := by cases a <;> simp [encXImm]
@[simp] theorem isXImm_encXImm (a : XImm) : isXImm (encXImm a) = true := by cases a <;> simp [encXImm, isXImm, isImm]
/-- A source of class 00 or 11, when IMM is its immediate. -/
theorem xImmOf_encXImm (a : XImm) (imm : Nat) (h : ∀ i, a.imm? = some i → imm = i.toNat) :
    xImmOf imm (encXImm a) = a := by
  cases a with
  | x r => simp [xImmOf, encXImm]
  | imm i => simp [xImmOf, encXImm, isReg, h i rfl]
@[simp] theorem class11_encXImm (a : XImm) : class11 (encXImm a) = a.imm?.isSome := by
  cases a with
  | x r => revert r; decide
  | imm i => rfl

@[simp] theorem encVSrc_lt (a : VSrc) : encVSrc a < 256 := by
  cases a with
  | v r => revert r; decide
  | ip p => revert p; decide
  | s n => revert n; decide
  | imm i => exact (by decide : 0xC0 < 256)
@[simp] theorem isVs_encVSrc (a : VSrc) : isVs (encVSrc a) = true := by
  cases a with
  | v r => revert r; decide
  | ip p => revert p; decide
  | s n => revert n; decide
  | imm i => rfl
/-- A V source, when IMM is its immediate. -/
theorem vsrcOf_encVSrc (a : VSrc) (imm : Nat) (h : ∀ i, a.imm? = some i → imm = i.toNat) :
    vsrcOf imm (encVSrc a) = a := by
  cases a with
  | v r => simp [vsrcOf, encVSrc]
  | ip p =>
    have h1 := (by decide : ∀ p : Fin 8, isReg (encVSrc (.ip p)) = false) p
    have h2 := (by decide : ∀ p : Fin 8, isIp (encVSrc (.ip p)) = true) p
    have h3 := (by decide : ∀ p : Fin 8, Fin.ofNat 8 (encVSrc (.ip p)) = p) p
    simp [-Fin.ofNat_eq_cast, vsrcOf, h1, h2, h3]
  | s n =>
    have h1 := (by decide : ∀ n : Fin 4, isReg (encVSrc (.s n)) = false) n
    have h2 := (by decide : ∀ n : Fin 4, isIp (encVSrc (.s n)) = false) n
    have h3 := (by decide : ∀ n : Fin 4, isS (encVSrc (.s n)) = true) n
    have h4 := (by decide : ∀ n : Fin 4, Fin.ofNat 4 (encVSrc (.s n)) = n) n
    simp [-Fin.ofNat_eq_cast, vsrcOf, h1, h2, h3, h4]
  | imm i => simp [vsrcOf, encVSrc, isReg, isIp, isS, h i rfl]
@[simp] theorem class11_encVSrc (a : VSrc) : class11 (encVSrc a) = a.imm?.isSome := by
  cases a with
  | v r => revert r; decide
  | ip p => revert p; decide
  | s n => revert n; decide
  | imm i => rfl
@[simp] theorem isImm_encVSrc (a : VSrc) : isImm (encVSrc a) = a.imm?.isSome := by
  cases a with
  | v r => revert r; decide
  | ip p => revert p; decide
  | s n => revert n; decide
  | imm i => rfl

@[simp] theorem encVP_lt (a : VP) : encVP a < 256 := by
  cases a with
  | v r => revert r; decide
  | ip p => revert p; decide
@[simp] theorem isVp_encVP (a : VP) : isVp (encVP a) = true := by
  cases a with
  | v r => revert r; decide
  | ip p => revert p; decide
@[simp] theorem vpOf_encVP (a : VP) : vpOf (encVP a) = a := by
  cases a with
  | v r => revert r; decide
  | ip p => revert p; decide

@[simp] theorem encVSI_lt (a : VSI) : encVSI a < 256 := by
  cases a with
  | v r => revert r; decide
  | s n => revert n; decide
  | imm i => exact (by decide : 0xC0 < 256)
@[simp] theorem isVsi_encVSI (a : VSI) : isVsi (encVSI a) = true := by
  cases a with
  | v r => revert r; decide
  | s n => revert n; decide
  | imm i => rfl
/-- A source of classes V, S or #, when IMM is its immediate. -/
theorem vsiOf_encVSI (a : VSI) (imm : Nat) (h : ∀ i, a.imm? = some i → imm = i.toNat) : vsiOf imm (encVSI a) = a := by
  cases a with
  | v r => simp [-Fin.ofNat_eq_cast, vsiOf, encVSI]
  | s n =>
    have h1 := (by decide : ∀ n : Fin 4, isReg (encVSI (.s n)) = false) n
    have h2 := (by decide : ∀ n : Fin 4, isS (encVSI (.s n)) = true) n
    have h3 := (by decide : ∀ n : Fin 4, Fin.ofNat 4 (encVSI (.s n)) = n) n
    simp [-Fin.ofNat_eq_cast, vsiOf, h1, h2, h3]
  | imm i => simp [-Fin.ofNat_eq_cast, vsiOf, encVSI, isReg, isS, h i rfl]
@[simp] theorem class11_encVSI (a : VSI) : class11 (encVSI a) = a.imm?.isSome := by
  cases a with
  | v r => revert r; decide
  | s n => revert n; decide
  | imm i => rfl

@[simp] theorem encVD_lt (d : VDst) : encVD d < 256 := by
  cases d with
  | v r => revert r; decide
  | op p => revert p; decide
@[simp] theorem isVd_encVD (d : VDst) : isVd (encVD d) = true := by
  cases d with
  | v r => revert r; decide
  | op p => revert p; decide
@[simp] theorem vdOf_encVD (d : VDst) : vdOf (encVD d) = d := by
  cases d with
  | v r => revert r; decide
  | op p => revert p; decide
@[simp] theorem isK_encVD (d : VDst) : isK (encVD d) = false := by
  cases d with
  | v r => revert r; decide
  | op p => revert p; decide

/-! ## The immediate -/

@[simp] theorem encImms_lt (l : List (Option (BitVec 32))) : encImms l < 2 ^ 32 := by
  induction l with
  | nil => simp [encImms]
  | cons o l ih => cases o with
    | none => simpa [encImms] using ih
    | some i => simpa [encImms] using i.isLt

/-- IMM is the immediate of the only source. -/
theorem encImms_one {a : Option (BitVec 32)} : ∀ i, a = some i → encImms [a] = i.toNat := by
  rintro i rfl; rfl

/-- IMM is that of the first source that is an immediate. -/
theorem encImms_first {a : Option (BitVec 32)} {l : List (Option (BitVec 32))} :
    ∀ i, a = some i → encImms (a :: l) = i.toNat := by
  rintro i rfl; rfl

/-- IMM is that of the second source, when at most one is an immediate. -/
theorem encImms_second {a b : Option (BitVec 32)} {l : List (Option (BitVec 32))} (h : oneImm (a :: b :: l) = true) :
    ∀ i, b = some i → encImms (a :: b :: l) = i.toNat := by
  rintro i rfl
  cases a with
  | none => rfl
  | some j => simp [oneImm] at h

/-- IMM is that of the third source, when at most one is an immediate. -/
theorem encImms_third {a b c : Option (BitVec 32)} (h : oneImm [a, b, c] = true) :
    ∀ i, c = some i → encImms [a, b, c] = i.toNat := by
  rintro i rfl
  cases a <;> cases b <;> first | rfl | (simp [oneImm] at h)

/-- R53: IMM is zero when no source is an immediate. -/
theorem immUsed_imms (f : Fields) (l : List Nat) (m : List (Option (BitVec 32)))
    (hl : l.map class11 = m.map Option.isSome) (hf : f.imm = encImms m) : f.immUsed l = true := by
  have h : l.any class11 = m.any Option.isSome := by
    have e := congrArg (List.any · id) hl
    simpa [List.any_map, Function.comp_def] using e
  simp only [Fields.immUsed, h, hf]
  clear h hl hf
  induction m with
  | nil => rfl
  | cons o m ih => cases o with
    | none => simpa [encImms] using ih
    | some i => simp

end Sys2Proof
end

