-- ==== Sys2Proof/Laws/EncodeForms.lean ====
section
/-! SUPPORT. The round trip of the codes of R37, R54 and R110, and of the forms that several words share. -/

namespace Sys2Proof

/-! ## Codes -/

@[simp] theorem encTok_lt (e : Eng) (t : Option Eng) : encTok e t < 4 := by
  cases e <;> rcases t with _ | t <;> first | decide | (cases t <;> decide)

/-- TP and TS, of an engine other than the word's own (R37). -/
theorem tokOf_encTok (e : Eng) (t : Option Eng) (h : t ≠ some e) : tokOf e (encTok e t) = t := by
  rcases t with _ | t
  · cases e <;> rfl
  · cases e <;> cases t <;> first | rfl | exact absurd rfl h

/-- What the check of the tokens says (R56). -/
theorem Tok.ne_of_wf {e : Eng} {t : Tok} (h : t.wf e = true) : t.pop ≠ some e ∧ t.push ≠ some e := by
  simpa only [Tok.wf, Bool.and_eq_true, decide_eq_true_eq] using h

/-- The tokens of an engine word. -/
theorem tok_withTok (f : Fields) (e : Eng) (t : Tok) (h : t.wf e = true) : (f.withTok e t).tok e = t := by
  obtain ⟨a, b⟩ := t
  simp only [Tok.wf, Bool.and_eq_true, decide_eq_true_eq] at h
  simp only [Fields.tok, Fields.withTok, tokOf_encTok e a h.1, tokOf_encTok e b h.2]

/-- The guard and tokens of a V word. -/
theorem vh_withVH (f : Fields) (h : VHead) (hw : h.tok.wf .v = true) : (f.withVH h).vh = h := by
  obtain ⟨⟨k, n⟩, a, b⟩ := h
  simp only [Tok.wf, Bool.and_eq_true, decide_eq_true_eq] at hw
  simp [Fields.vh, Fields.tok, Fields.withVH, tokOf_encTok .v a hw.1, tokOf_encTok .v b hw.2]

@[simp] theorem isMemTy_encMemTy (t : MemTy) : isMemTy (encMemTy t) = true := by
  rcases t with ⟨w, s⟩; cases w <;> cases s <;> rfl
@[simp] theorem memTyOf_encMemTy (t : MemTy) : memTyOf (encMemTy t) = t := by
  rcases t with ⟨w, s⟩; cases w <;> cases s <;> rfl
@[simp] theorem encMemTy_lt (t : MemTy) : encMemTy t < 16 := by rcases t with ⟨w, s⟩; cases w <;> cases s <;> decide
@[simp] theorem atomOf_encAtom (o : AtomOp) : atomOf (encAtom o) = o := by cases o <;> rfl
@[simp] theorem encAtom_lt (o : AtomOp) : encAtom o < 8 := by cases o <;> decide
@[simp] theorem condOf_encCond (c : Cond) : condOf (encCond c) = c := by cases c <;> rfl
@[simp] theorem encCond_le (c : Cond) : encCond c ≤ 9 := by cases c <;> decide
@[simp] theorem logOf_encLog (o : LogOp) : logOf (encLog o) = o := by cases o <;> rfl
@[simp] theorem encLog_le (o : LogOp) : encLog o ≤ 5 := by cases o <;> decide
@[simp] theorem orderOf_encOrder (o : Order) : orderOf (encOrder o) = o := by cases o <;> rfl
@[simp] theorem encOrder_le (o : Order) : encOrder o ≤ 4 := by cases o <;> decide
@[simp] theorem scopeOf_encScope (s : Scope) : scopeOf (encScope s) = s := by cases s <;> rfl
@[simp] theorem encScope_le (s : Scope) : encScope s ≤ 4 := by cases s <;> decide
@[simp] theorem engOf_encEng (e : Eng) : engOf (encEng e) = e := by cases e <;> rfl
@[simp] theorem encEng_lt (e : Eng) : encEng e < 4 := by cases e <;> decide
@[simp] theorem rmOf_encRm (r : Rm) : rmOf (encRm r) = r := by cases r <;> rfl
@[simp] theorem encRm_le (r : Rm) : encRm r ≤ 5 := by cases r <;> decide
@[simp] theorem isFp_encFp (t : FpTy) : isFp (encFp t) = true := by cases t <;> rfl
@[simp] theorem fpOf_encFp (t : FpTy) : fpOf (encFp t) = t := by cases t <;> rfl
@[simp] theorem encFp_lt (t : FpTy) : encFp t < 16 := by cases t <;> decide
@[simp] theorem isI32_encInt (t : IntTy) : isI32 (encInt t) = true := by cases t <;> rfl
@[simp] theorem intOf_encInt (t : IntTy) : intOf (encInt t) = t := by cases t <;> rfl
@[simp] theorem encInt_lt (t : IntTy) : encInt t < 16 := by cases t <;> decide
@[simp] theorem isLane_encLane (t : LaneTy) : isLane (encLane t) = true := by rcases t with t | t <;> cases t <;> rfl
@[simp] theorem laneOf_encLane (t : LaneTy) : laneOf (encLane t) = t := by rcases t with t | t <;> cases t <;> rfl
@[simp] theorem encLane_lt (t : LaneTy) : encLane t < 16 := by rcases t with t | t <;> cases t <;> decide
@[simp] theorem isCvt_encCvt (t : CvtTy) : isCvt (encCvt t) = true := by cases t <;> rfl
@[simp] theorem cvtOf_encCvt (t : CvtTy) : cvtOf (encCvt t) = t := by cases t <;> rfl
@[simp] theorem encCvt_lt (t : CvtTy) : encCvt t < 16 := by cases t <;> decide

/-! ## Groups of fields -/

@[simp] theorem Fields.plain_eq (f : Fields) : f.plain = (f.fn == 0 && f.ty == 0 && f.rm == 0) := rfl
@[simp] theorem Fields.tr0_eq (f : Fields) : f.tr0 = (f.ty == 0 && f.rm == 0) := rfl
@[simp] theorem Fields.g_eq (f : Fields) : f.g = ⟨pidx f.pr, f.pn == 1⟩ := rfl
@[simp] theorem Fields.ng_eq (f : Fields) : f.ng = (f.pn == 0 && f.pr == 0) := rfl
@[simp] theorem Fields.m0_eq (f : Fields) : f.m0 = (f.ng && f.tr0) := rfl
@[simp] theorem Fields.spec0_eq (f : Fields) : f.spec0 = (f.d == 0 && f.a == 0 && f.b == 0 && f.c == 0) := rfl
@[simp] theorem Fields.i32_eq (f : Fields) : f.i32 = BitVec.ofNat 32 f.imm := rfl
@[simp] theorem Fields.withG_eq (f : Fields) (g : CGuard) : f.withG g = { f with pn := encB g.neg, pr := g.p.val } := rfl
@[simp] theorem Fields.withVH_eq (f : Fields) (h : VHead) : f.withVH h =
    { f with pn := encB h.g.neg, pr := h.g.k.val, tp := encTok .v h.tok.pop, ts := encTok .v h.tok.push } := rfl
@[simp] theorem Fields.withTok_eq (f : Fields) (e : Eng) (t : Tok) :
    f.withTok e t = { f with tp := encTok e t.pop, ts := encTok e t.push } := rfl

/-- A field of IMM read back as bits. -/
@[simp] theorem ofNat_toNat {n : Nat} (x : BitVec n) : BitVec.ofNat n x.toNat = x := by simp

@[simp] theorem encImms_lt' (l : List (Option (BitVec 32))) : encImms l < 4294967296 := encImms_lt l
@[simp] theorem toNat32_lt (x : BitVec 32) : x.toNat < 4294967296 := x.isLt

/-- R53 for one source. -/
@[simp] theorem immUsed_one (f : Fields) (a : Option (BitVec 32)) (n : Nat) (hn : class11 n = a.isSome)
    (hf : f.imm = encImms [a]) : f.immUsed [n] = true := immUsed_imms f [n] [a] (by simp [hn]) hf

@[simp] theorem immUsed_src (f : Fields) (a : Src) (hf : f.imm = encImms [a.imm?]) : f.immUsed [encSrc a] = true :=
  immUsed_one f a.imm? _ (by simp) hf
@[simp] theorem immUsed_xImm (f : Fields) (a : XImm) (hf : f.imm = encImms [a.imm?]) : f.immUsed [encXImm a] = true :=
  immUsed_one f a.imm? _ (by simp) hf
@[simp] theorem immUsed_vsrc (f : Fields) (a : VSrc) (hf : f.imm = encImms [a.imm?]) : f.immUsed [encVSrc a] = true :=
  immUsed_one f a.imm? _ (by simp) hf
@[simp] theorem immUsed_vsi (f : Fields) (a : VSI) (hf : f.imm = encImms [a.imm?]) : f.immUsed [encVSI a] = true :=
  immUsed_one f a.imm? _ (by simp) hf

@[simp] theorem srcOf_first (a : Src) (l : List (Option (BitVec 32))) : srcOf (encImms (a.imm? :: l)) (encSrc a) = a :=
  srcOf_encSrc a _ encImms_first
@[simp] theorem xImmOf_first (a : XImm) (l : List (Option (BitVec 32))) :
    xImmOf (encImms (a.imm? :: l)) (encXImm a) = a := xImmOf_encXImm a _ encImms_first
@[simp] theorem vsrcOf_first (a : VSrc) (l : List (Option (BitVec 32))) :
    vsrcOf (encImms (a.imm? :: l)) (encVSrc a) = a := vsrcOf_encVSrc a _ encImms_first
@[simp] theorem vsiOf_first (a : VSI) (l : List (Option (BitVec 32))) :
    vsiOf (encImms (a.imm? :: l)) (encVSI a) = a := vsiOf_encVSI a _ encImms_first

/-- The parts of IMM of a Signal word (R288). -/
theorem sig_imm (s q : Nat) (o : BitVec 25) (hs : s ≤ 4) (hq : q < 8) :
    let n := s * 536870912 + o.toNat + 67108864 * q;
    bitsOf n 29 3 = s ∧ bitsOf n 26 3 = q ∧ bitsOf n 25 1 = 0 ∧ n < 4294967296 ∧ BitVec.ofNat 25 n = o := by
  intro n
  have ho := o.isLt
  refine ⟨?_, ?_, ?_, ?_, BitVec.eq_of_toNat_eq ?_⟩ <;>
    simp only [bitsOf, Nat.shiftRight_eq_div_pow, BitVec.toNat_ofNat, n] <;> omega

/-- The same where no operation stands above the address. -/
theorem sig_imm0 (s : Nat) (o : BitVec 25) (hs : s ≤ 4) :
    let n := s * 536870912 + o.toNat
    bitsOf n 29 3 = s ∧ bitsOf n 25 4 = 0 ∧ n < 4294967296 ∧ BitVec.ofNat 25 n = o := by
  intro n
  have ho := o.isLt
  refine ⟨?_, ?_, ?_, BitVec.eq_of_toNat_eq ?_⟩ <;>
    simp only [bitsOf, Nat.shiftRight_eq_div_pow, BitVec.toNat_ofNat, n] <;> omega

/-- R288: order `sc` and scope `dom` do not go together. -/
theorem sigOk_enc (f : Fields) (ords : List Order) (o : Order) (s : Scope) (h : sigWf ords o s = true)
    (hn : f.ordN = encOrder o) (hs : f.scN = encScope s) (hr : f.rm = 0) : f.sigOk (ords.map encOrder) = true := by
  simp only [sigWf, Bool.and_eq_true, List.contains_iff_mem] at h
  simp only [Fields.sigOk, hn, hs, hr, Bool.and_eq_true, List.contains_iff_mem, decide_eq_true_eq]
  refine ⟨⟨⟨List.mem_map_of_mem h.1, encScope_le s⟩, ?_⟩, rfl⟩
  have h2 := h.2
  cases o <;> cases s <;> first | rfl | exact h2

/-- The order of FN. -/
@[simp] theorem encOrder_mod (o : Order) : encOrder o % 8 = encOrder o := by cases o <;> rfl

@[simp] theorem isImm_C0 : isImm 0xC0 = true := rfl
@[simp] theorem isSrc_C0 : isSrc 0xC0 = true := rfl
@[simp] theorem isReg_zero : isReg 0 = true := rfl
@[simp] theorem ofNat_val {n : Nat} [NeZero n] (x : Fin n) : Fin.ofNat n x.val = x := by simp

/-- R52 for several sources. -/
theorem one11_eq (f : Fields) (l : List Nat) (m : List (Option (BitVec 32)))
    (hl : l.map class11 = m.map Option.isSome) : f.one11 l = oneImm m := by
  have h : (l.filter class11).length = (m.filter Option.isSome).length := by
    have e := congrArg (fun x => (x.filter id).length) hl
    simpa [List.filter_map, Function.comp_def] using e
  simp [Fields.one11, oneImm, h]

/-- R53 for 16-bit types. -/
theorem halfOk_of (f : Fields) (half : Bool) (l : List Nat) (m : List (Option (BitVec 32)))
    (hl : l.map class11 = m.map Option.isSome) (hf : f.imm = encImms m) (h : immFits half m = true) :
    f.halfOk half l = true := by
  have ha : l.any class11 = m.any Option.isSome := by
    have e := congrArg (List.any · id) hl
    simpa [List.any_map, Function.comp_def] using e
  cases half with
  | false => rfl
  | true =>
    simp only [Fields.halfOk, ha, hf, Bool.not_true, Bool.false_or, Bool.or_eq_true, decide_eq_true_eq]
    refine .inr ?_
    simp only [immFits, Bool.not_true, Bool.false_or] at h
    clear hl ha hf
    induction m with
    | nil => decide
    | cons o m ih => cases o with
      | none => exact ih (by simpa using h)
      | some i =>
        simp only [List.all_cons, Bool.and_eq_true, decide_eq_true_eq] at h
        exact h.1

/-! ## Shared forms: Cox -/

/-- `op xd, a, b`. -/
theorem trip_alu3 (o : Alu3) (opc : Nat) (k : Alu3 → Instr) (hw : aluWf o.a o.b = true) (ho : opc < 256)
    (hf : fieldsOf .cox (k o) = some (encAlu3 opc o))
    (hr : reading .cox (encAlu3 opc o) = some (rdAlu3 (encAlu3 opc o) k)) : WordTrips .cox (k o) := by
  have hl : [encSrc o.a, encSrc o.b].map class11 = [o.a.imm?, o.b.imm?].map Option.isSome := by simp
  refine trip hf hr ?_ rfl rfl ?_ ?_ ?_ ?_ ?_ ?_
  · simp [Fields.Fits, encAlu3, ho]
  · simp only [rdAlu3, encAlu3, beq_self_eq_true, Bool.true_and]
    exact immUsed_imms _ _ _ hl rfl
  · simp [rdAlu3, encAlu3]
  · intro _; simp [encAlu3]
  · rfl
  · exact (one11_eq (encAlu3 opc o) _ _ hl).trans hw
  · obtain ⟨⟨p, n⟩, d, a, b⟩ := o
    simp [rdAlu3, encAlu3, srcOf_encSrc a _ encImms_first, srcOf_encSrc b _ (encImms_second hw)]

/-- `op xd, a`. -/
theorem trip_alu1 (o : Alu1) (opc : Nat) (k : Alu1 → Instr) (ho : opc < 256)
    (hf : fieldsOf .cox (k o) = some (encAlu1 opc o))
    (hr : reading .cox (encAlu1 opc o) = some (rdAlu1 (encAlu1 opc o) k)) : WordTrips .cox (k o) := by
  refine trip hf hr ?_ rfl rfl ?_ ?_ ?_ rfl rfl ?_
  · simp [Fields.Fits, encAlu1, ho]
  · simp only [rdAlu1, encAlu1, beq_self_eq_true, Bool.true_and]
    exact immUsed_one _ o.a.imm? _ (by simp) rfl
  · simp [rdAlu1, encAlu1]
  · intro _; simp [encAlu1]
  · obtain ⟨⟨p, n⟩, d, a⟩ := o
    simp [rdAlu1, encAlu1, srcOf_encSrc a _ encImms_one]

/-- A word of which only the guard is set. -/
theorem trip_bare (g : CGuard) (opc : Nat) (k : CGuard → Instr) (ho : opc < 256)
    (hf : fieldsOf .cox (k g) = some (encXa opc g 0))
    (hr : reading .cox (encXa opc g 0) = some (rdBare (encXa opc g 0) k)) : WordTrips .cox (k g) := by
  refine trip hf hr ?_ rfl rfl rfl rfl ?_ rfl rfl ?_
  · simp [Fields.Fits, encXa, ho]
  · intro _; simp [encXa]
  · obtain ⟨p, n⟩ := g
    simp [rdBare, encXa]

/-- A word with A of class 00 alone. -/
theorem trip_xa (g : CGuard) (a : Fin 64) (opc : Nat) (k : CGuard → Fin 64 → Instr) (ho : opc < 256)
    (hf : fieldsOf .cox (k g a) = some (encXa opc g a.val))
    (hr : reading .cox (encXa opc g a.val) = some (rdXa (encXa opc g a.val) k)) : WordTrips .cox (k g a) := by
  refine trip hf hr ?_ rfl rfl rfl ?_ ?_ rfl rfl ?_
  · simp [Fields.Fits, encXa, ho]
  · simp [rdXa, encXa]
  · intro _; simp [encXa]
  · obtain ⟨p, n⟩ := g
    simp [rdXa, encXa]

/-! ## Shared forms: V -/

/-- An FP word of one source. -/
theorem trip_fp1 (o : VFp1) (opc : Nat) (k : VFp1 → Instr) (hw : vfpWf o.h o.ty [o.a] = true) (ho : opc < 256)
    (hf : fieldsOf .v (k o) = some (encFp1 opc o))
    (hr : reading .v (encFp1 opc o) = some (rdFp1 (encFp1 opc o) k)) : WordTrips .v (k o) := by
  obtain ⟨h, d, a, ty, rm⟩ := o
  simp only [vfpWf, Bool.and_eq_true] at hw
  refine trip hf hr ?_ rfl rfl ?_ ?_ (nofun) ?_ ?_ ?_
  · have := encRm_le rm
    simp [Fields.Fits, encFp1, ho, h.g.k.isLt]; omega
  · simp only [rdFp1, encFp1, Fields.withVH_eq, beq_self_eq_true, Bool.true_and]
    exact immUsed_one _ a.imm? _ (by simp) rfl
  · simp [rdFp1, encFp1]
  · simp [rdFp1, encFp1]
  · simpa [rdFp1, encFp1] using halfOk_of _ _ [encVSrc a] [a.imm?] (by simp) rfl hw.2
  · rw [rdFp1, encFp1, vh_withVH _ _ hw.1.1]
    simp [vsrcOf_encVSrc a _ encImms_one]

/-- An FP word of two sources. -/
theorem trip_fp2 (o : VFp2) (opc : Nat) (k : VFp2 → Instr) (hw : vfpWf o.h o.ty [o.a, o.b] = true) (ho : opc < 256)
    (hf : fieldsOf .v (k o) = some (encFp2 opc o))
    (hr : reading .v (encFp2 opc o) = some (rdFp2 (encFp2 opc o) k)) : WordTrips .v (k o) := by
  obtain ⟨h, d, a, b, ty, rm⟩ := o
  have hl : [encVSrc a, encVSrc b].map class11 = [a.imm?, b.imm?].map Option.isSome := by simp
  simp only [vfpWf, Bool.and_eq_true] at hw
  have h1 : oneImm [a.imm?, b.imm?] = true := hw.1.2
  refine trip hf hr ?_ rfl rfl ?_ ?_ (nofun) ?_ ?_ ?_
  · have := encRm_le rm
    simp [Fields.Fits, encFp2, ho, h.g.k.isLt]; omega
  · simp only [rdFp2, encFp2, Fields.withVH_eq, beq_self_eq_true, Bool.true_and]
    exact immUsed_imms _ _ _ hl rfl
  · simp [rdFp2, encFp2]
  · simp [rdFp2, encFp2]
  · simp only [rdFp2, encFp2, Fields.withVH_eq, Bool.and_eq_true, fpOf_encFp]
    exact ⟨(one11_eq _ _ _ hl).trans hw.1.2, halfOk_of _ _ _ _ hl rfl hw.2⟩
  · rw [rdFp2, encFp2, vh_withVH _ _ hw.1.1]
    simp [vsrcOf_encVSrc a _ encImms_first, vsrcOf_encVSrc b _ (encImms_second h1)]

/-- An FP word of three sources. -/
theorem trip_fp3 (o : VFp3) (opc : Nat) (k : VFp3 → Instr) (hw : vfpWf o.h o.ty [o.a, o.b, o.c] = true) (ho : opc < 256)
    (hf : fieldsOf .v (k o) = some (encFp3 opc o))
    (hr : reading .v (encFp3 opc o) = some (rdFp3 (encFp3 opc o) k)) : WordTrips .v (k o) := by
  obtain ⟨h, d, a, b, c, ty, rm⟩ := o
  have hl : [encVSrc a, encVSrc b, encVSrc c].map class11 = [a.imm?, b.imm?, c.imm?].map Option.isSome := by simp
  simp only [vfpWf, Bool.and_eq_true] at hw
  have h1 : oneImm [a.imm?, b.imm?, c.imm?] = true := hw.1.2
  refine trip hf hr ?_ rfl rfl ?_ ?_ (nofun) ?_ ?_ ?_
  · have := encRm_le rm
    simp [Fields.Fits, encFp3, ho, h.g.k.isLt]; omega
  · exact immUsed_imms _ _ _ hl rfl
  · simp [rdFp3, encFp3]
  · simp [rdFp3, encFp3]
  · simp only [rdFp3, encFp3, Fields.withVH_eq, Bool.and_eq_true, fpOf_encFp]
    exact ⟨(one11_eq _ _ _ hl).trans hw.1.2, halfOk_of _ _ _ _ hl rfl hw.2⟩
  · rw [rdFp3, encFp3, vh_withVH _ _ hw.1.1]
    simp [vsrcOf_encVSrc a _ encImms_first, vsrcOf_encVSrc b _ (encImms_second h1),
      vsrcOf_encVSrc c _ (encImms_third h1)]

/-- An integer word. -/
theorem trip_int2 (o : VInt2) (opc : Nat) (k : VInt2 → Instr) (hw : vsrcWf o.h [o.a, o.b] = true) (ho : opc < 256)
    (hf : fieldsOf .v (k o) = some (encInt2 opc o))
    (hr : reading .v (encInt2 opc o) = some (rdInt2 (encInt2 opc o) k)) : WordTrips .v (k o) := by
  obtain ⟨h, d, a, b, ty⟩ := o
  have hl : [encVSrc a, encVSrc b].map class11 = [a.imm?, b.imm?].map Option.isSome := by simp
  simp only [vsrcWf, Bool.and_eq_true] at hw
  have h1 : oneImm [a.imm?, b.imm?] = true := hw.2
  refine trip hf hr ?_ rfl rfl ?_ ?_ (nofun) ?_ ?_ ?_
  · simp [Fields.Fits, encInt2, ho, h.g.k.isLt]
  · simp only [rdInt2, encInt2, Fields.withVH_eq, beq_self_eq_true, Bool.true_and]
    exact immUsed_imms _ _ _ hl rfl
  · simp [rdInt2, encInt2]
  · simp [rdInt2, encInt2]
  · exact (one11_eq (encInt2 opc ⟨h, d, a, b, ty⟩) _ _ hl).trans hw.2
  · rw [rdInt2, encInt2, vh_withVH _ _ hw.1]
    simp [vsrcOf_encVSrc a _ encImms_first, vsrcOf_encVSrc b _ (encImms_second h1)]

/-- A logic or shift word. -/
theorem trip_log2 (o : VLog2) (opc : Nat) (k : VLog2 → Instr) (hw : vsrcWf o.h [o.a, o.b] = true) (ho : opc < 256)
    (hf : fieldsOf .v (k o) = some (encLog2 opc o))
    (hr : reading .v (encLog2 opc o) = some (rdLog2 (encLog2 opc o) k)) : WordTrips .v (k o) := by
  obtain ⟨h, d, a, b⟩ := o
  have hl : [encVSrc a, encVSrc b].map class11 = [a.imm?, b.imm?].map Option.isSome := by simp
  simp only [vsrcWf, Bool.and_eq_true] at hw
  have h1 : oneImm [a.imm?, b.imm?] = true := hw.2
  refine trip hf hr ?_ rfl rfl ?_ ?_ (nofun) ?_ ?_ ?_
  · simp [Fields.Fits, encLog2, ho, h.g.k.isLt]
  · simp only [rdLog2, encLog2, Fields.withVH_eq, beq_self_eq_true, Bool.true_and]
    exact immUsed_imms _ _ _ hl rfl
  · simp [rdLog2, encLog2]
  · simp [rdLog2, encLog2]
  · exact (one11_eq (encLog2 opc ⟨h, d, a, b⟩) _ _ hl).trans hw.2
  · rw [rdLog2, encLog2, vh_withVH _ _ hw.1]
    simp [vsrcOf_encVSrc a _ encImms_first, vsrcOf_encVSrc b _ (encImms_second h1)]

/-- `VRED`, `VSCAN`. -/
theorem trip_red (o : VRedOp) (opc : Nat) (k : VRedOp → Instr) (hw : o.h.tok.wf .v = true) (ho : opc < 256)
    (hf : fieldsOf .v (k o) = some (encRed opc o))
    (hr : reading .v (encRed opc o) = some (rdRed (encRed opc o) k)) : WordTrips .v (k o) := by
  obtain ⟨h, d, a, op⟩ := o
  cases op with
  | arith op ty rm =>
    have hm := encRm_le rm
    cases op <;>
      (refine trip hf hr (by simp [Fields.Fits, encRed, encArith, ho, h.g.k.isLt]; omega) rfl rfl ?_ ?_ (nofun) ?_ rfl ?_
       iterate 3 (· simp [rdRed, encRed, encArith])
       · rw [rdRed, encRed, vh_withVH _ _ hw]
         simp [encArith])
  | logic op =>
    cases op <;>
      (refine trip hf hr (by simp [Fields.Fits, encRed, encLogic, ho, h.g.k.isLt]) rfl rfl ?_ ?_ (nofun) ?_ rfl ?_
       iterate 3 (· simp [rdRed, encRed, encLogic])
       · rw [rdRed, encRed, vh_withVH _ _ hw]
         simp [encLogic])

/-! ## Shared forms: L and S -/

/-- MODE of a base with an index below it (R127). -/
theorem elemBaseOf_enc (b : ElemBase) (i : Nat) (h : i < 64) : elemBaseOf (encBase b + i) = b := by
  have h0 : (0 + i) / 64 = 0 := by omega
  have h1 : (64 + i) / 64 = 1 := by omega
  have h2 : (128 + i) / 64 = 2 := by omega
  cases b <;> simp only [encBase, elemBaseOf, h0, h1, h2]

/-- The fields of an element operand (R127): the operand reads back, D and FN stay in range. -/
theorem elem_enc (e : Eng) (opc fn : Nat) (o : ElemOp) (ht : o.tok.wf e = true) (hn : fn < 16) (ho : opc < 256) :
    let f := encElem e opc fn o
    f.Fits ∧ f.elem e f.timed = o ∧ f.d < 0xC0 ∧ f.fn % 16 = fn ∧ (16 ≤ f.fn ↔ o.timed.isSome = true) ∧
      (o.timed = none → f.imm = 0) := by
  obtain ⟨⟨tp, ts⟩, base, index, timed, rm⟩ := o
  obtain ⟨h1, h2⟩ := Tok.ne_of_wf ht
  have hi := index.isLt
  have hq : index.toNat / 256 < 64 := by omega
  have hb : encBase base + index.toNat / 256 < 192 := by cases base <;> simp only [encBase] <;> omega
  have hm : (encBase base + index.toNat / 256) % 64 = index.toNat / 256 := by
    cases base <;> simp only [encBase] <;> omega
  have hx : BitVec.ofNat 14 (index.toNat / 256 * 256 + index.toNat % 256) = index :=
    BitVec.eq_of_toNat_eq (by rw [BitVec.toNat_ofNat]; omega)
  have hr := encRm_le rm
  have hk : index.toNat % 256 < 256 := Nat.mod_lt _ (by decide)
  have hf1 : ¬ 16 ≤ fn := by omega
  intro f
  cases timed with
  | none =>
    refine ⟨?_, ?_, hb, ?_, ?_, fun _ => rfl⟩
    · simp [f, Fields.Fits, encElem, encTimed, encTime, ho]; omega
    · simp [f, Fields.elem, Fields.timed, encElem, encTimed, Fields.tok, tokOf_encTok e _ h1, tokOf_encTok e _ h2,
        elemBaseOf_enc base _ hq, hm, hx, hn]
    · simp [f, encElem, encTimed]; omega
    · simp [f, encElem, encTimed]; omega
  | some t =>
    have h16 : 16 ≤ fn + 16 := by omega
    refine ⟨?_, ?_, hb, ?_, ?_, nofun⟩
    · simp [f, Fields.Fits, encElem, encTimed, encTime, ho]; omega
    · simp [f, Fields.elem, Fields.timed, encElem, encTimed, encTime, Fields.tok, tokOf_encTok e _ h1,
        tokOf_encTok e _ h2, elemBaseOf_enc base _ hq, hm, hx]
    · simp [f, encElem, encTimed]; omega
    · simp [f, encElem, encTimed]

/-- The checks of a command that names an element (R127, R128). -/
theorem elem_checks (e : Eng) (opc fn nfn : Nat) (rounds timed : Bool) (o : ElemOp) (k : ElemOp → Instr)
    (hw : o.wf e rounds timed = true) (hn : fn < nfn) (hm : nfn ≤ 16) (ho : opc < 256) :
    let f := encElem e opc fn o
    let r := rdElem f e rounds timed nfn k
    f.Fits ∧ r.three = true ∧ r.four = true ∧ r.six = true ∧ r.build = k o := by
  have hp := Bool.and_eq_true_iff.mp (show ((o.tok.wf e && (rounds || o.rm == .rne)) && (timed || o.timed == none)) =
    true from hw)
  have hq := Bool.and_eq_true_iff.mp hp.1
  obtain ⟨h1, h2, h3, h4, h5, h6⟩ := elem_enc e opc fn o hq.1 (by omega) ho
  intro f r
  refine ⟨h1, ?_, decide_eq_true h3, ?_, congrArg k h2⟩
  · show ((((true && true) && true) && true) && (decide (16 ≤ f.fn) || f.imm == 0)) = true
    cases ht : o.timed with
    | none => simp [f, h6 ht]
    | some t => simp [f, h5, ht]
  · show ((decide (f.fn % 16 < nfn) && (timed || decide (f.fn < 16))) &&
      (if rounds then decide (encRm o.rm ≤ 5) else encRm o.rm == 0)) = true
    have ha : f.fn % 16 < nfn := by rw [h4]; exact hn
    have hb : timed = true ∨ f.fn < 16 := by
      rcases Bool.or_eq_true_iff.mp hp.2 with h | h
      · exact .inl h
      · have hz : o.timed = none := by simpa using h
        have : ¬ 16 ≤ f.fn := fun k => by simpa [hz] using h5.mp k
        exact .inr (by omega)
    have hc : (if rounds then decide (encRm o.rm ≤ 5) else encRm o.rm == 0) = true := by
      cases rounds with
      | true => exact decide_eq_true (encRm_le _)
      | false =>
        have hz : o.rm = .rne := by simpa using hq.2
        simp [hz, encRm]
    rw [Bool.and_eq_true, Bool.and_eq_true]
    exact ⟨⟨decide_eq_true ha, by simp [hb]⟩, hc⟩

/-- A command that names an element. -/
theorem trip_elem {st : Stream} {e : Eng} (hs : st.ls? = some e) (o : ElemOp) (opc nfn : Nat) (rounds timed : Bool)
    (k : ElemOp → Instr) (hw : o.wf e rounds timed = true) (ho : opc < 256) (hn : 0 < nfn) (hm : nfn ≤ 16)
    (hf : fieldsOf st (k o) = some (encElem e opc 0 o))
    (hr : reading st (encElem e opc 0 o) = some (rdElem (encElem e opc 0 o) e rounds timed nfn k)) :
    WordTrips st (k o) := by
  obtain ⟨h1, h2, h3, h4, h5⟩ := elem_checks e opc 0 nfn rounds timed o k hw hn hm ho
  exact trip hf hr h1 rfl (by cases st <;> first | rfl | cases hs) h2 h3 (fun h => by subst h; cases hs) h4 rfl h5

/-- The same for the commands of the L stream alone, with a form bit. -/
theorem trip_only (o : ElemOp) (opc fn nfn : Nat) (rounds : Bool) (k : ElemOp → Instr) (i : Instr)
    (hw : o.wf .l rounds true = true) (ho : opc < 256) (hn : fn < nfn) (hm : nfn ≤ 16)
    (hf : fieldsOf .l i = some (encElem .l opc fn o)) (hi : k o = i)
    (hr : reading .l (encElem .l opc fn o) = some ((rdElem (encElem .l opc fn o) .l rounds true nfn k).only true)) :
    WordTrips .l i := by
  obtain ⟨h1, h2, h3, h4, h5⟩ := elem_checks .l opc fn nfn rounds true o k hw hn hm ho
  exact trip hf hr h1 rfl rfl h2 h3 nofun (Bool.and_eq_true_iff.mpr ⟨h4, rfl⟩) rfl (h5.trans hi)

/-- A signal form. -/
theorem trip_csig {st : Stream} {e : Eng} (hs : st.ls? = some e) (o : CSigOp) (opc : Nat) (ords : List Order)
    (k : CSigOp → Instr) (hw : o.wf e ords = true) (ho : opc < 256)
    (hf : fieldsOf st (k o) = some (encCSig e opc o))
    (hr : reading st (encCSig e opc o) = some (rdCSig (encCSig e opc o) e (ords.map encOrder) k)) :
    WordTrips st (k o) := by
  obtain ⟨⟨tp, ts⟩, ord, sc, use, n, w⟩ := o
  have hp := Bool.and_eq_true_iff.mp (show (Tok.wf e ⟨tp, ts⟩ && ords.contains ord) = true from hw)
  obtain ⟨h1, h2⟩ := Tok.ne_of_wf hp.1
  have hw := w.isLt
  have hn := n.isLt
  have hoc := encOrder_le ord
  have hsc := encScope_le sc
  obtain ⟨b, hb, h3, h4, h5, h6, h7⟩ : ∃ b, b = encOrder ord + 8 * encScope sc + (if use then 128 else 0) ∧
      b % 8 = encOrder ord ∧ bitsOf b 3 3 = encScope sc ∧ bitsOf b 6 1 = 0 ∧ bitOf b 7 = use ∧ b < 256 := by
    refine ⟨_, rfl, ?_⟩
    simp only [bitsOf, bitOf, Nat.testBit_eq_decide_div_mod_eq, Nat.shiftRight_eq_div_pow]
    cases use <;> simp <;> omega
  have hm : encOrder ord ∈ ords.map encOrder := List.mem_map_of_mem (by simpa using hp.2)
  refine trip hf hr ?_ rfl (by cases st <;> first | rfl | cases hs) ?_ rfl (fun h => by subst h; cases hs) ?_ rfl ?_
  · simp [Fields.Fits, encCSig, ← hb, ho]; omega
  · simp [rdCSig, encCSig, ← hb, h5]; omega
  · simp only [rdCSig, encCSig, ← hb, h3, h4, Fields.withTok_eq]
    simp [hsc]
    exact ⟨ord, by simpa using hp.2, rfl⟩
  · simp [rdCSig, encCSig, ← hb, h3, h4, h6, Fields.tok, tokOf_encTok e _ h1, tokOf_encTok e _ h2]

/-! ## Shared forms: M -/

/-- A multiply command. -/
theorem trip_mma (o : MmaOp) (opc : Nat) (k : MmaOp → Instr) (hw : o.wf = true) (ho : opc < 256)
    (hf : fieldsOf .m (k o) = some (encMma opc o))
    (hr : reading .m (encMma opc o) = some (rdMma (encMma opc o) k)) : WordTrips .m (k o) := by
  obtain ⟨⟨tp, ts⟩, bank, sa, sb, k1, ao, bo⟩ := o
  have hp := Bool.and_eq_true_iff.mp (show ((Tok.wf .m ⟨tp, ts⟩ && decide (ao.toNat + k1.toNat + 1 ≤ 128)) &&
    decide (bo.toNat + k1.toNat + 1 ≤ 128)) = true from hw)
  have hq := Bool.and_eq_true_iff.mp hp.1
  obtain ⟨h1, h2⟩ := Tok.ne_of_wf hq.1
  have ha := of_decide_eq_true hq.2
  have hb := of_decide_eq_true hp.2
  have l1 := k1.isLt
  have l2 := ao.isLt
  have l3 := bo.isLt
  obtain ⟨m, hm, m1, m2, m3, ml⟩ : ∃ m, m = k1.toNat + 128 * ao.toNat + 16384 * bo.toNat ∧ m % 128 = k1.toNat ∧
      m / 128 % 128 = ao.toNat ∧ m / 16384 % 128 = bo.toNat ∧ m < 2097152 := ⟨_, rfl, by omega⟩
  refine trip hf hr ?_ rfl rfl ?_ rfl nofun ?_ rfl ?_
  · simp [Fields.Fits, encMma, ← hm, ho]; omega
  · simp [rdMma, encMma, ← hm]; exact ml
  · simp only [rdMma, encMma, ← hm, m1, m2, m3, Fields.withTok_eq]; simp [ha, hb]
  · simp [rdMma, encMma, ← hm, m1, m2, m3, Fields.tok, tokOf_encTok .m _ h1, tokOf_encTok .m _ h2]

end Sys2Proof
end

