-- ==== Sys2Proof/Laws/EncodeWords.lean ====
section
/-! SUPPORT. The round trip of the words whose form they alone have. -/

set_option linter.unusedSimpArgs false
set_option linter.unusedVariables false

namespace Sys2Proof

/-- A step word decodes from its own encoding. -/
def StepTrips (i : Instr) : Prop := ∃ w, encodeStep i = some w ∧ w < 2 ^ 64 ∧ decodeStep w = some i

/-- The operands of a data step (R240). -/
theorem dataStepOf_of (o : DataStep) (w : Nat) (h1 : bitsOf w 58 2 = encPm o.pm) (h2 : bitsOf w 56 2 = o.f1.val)
    (h3 : bitsOf w 40 14 = o.nel1.toNat) (h4 : bitsOf w 32 8 = o.k.toNat) (h5 : w % 2 ^ 20 = o.off.toNat) :
    dataStepOf w = o := by
  obtain ⟨pm, f1, nel1, k, off⟩ := o
  have ho : BitVec.ofNat 20 w = off := BitVec.eq_of_toNat_eq (by rw [BitVec.toNat_ofNat]; exact h5)
  simp only at h1 h2 h3 h4
  simp only [dataStepOf, h1, h2, h3, h4, ho]
  simp
  cases pm <;> rfl

/-- A peer mode is never 3. -/
theorem encPm_ne (p : PeerMode) : encPm p ≠ 3 := by cases p <;> decide

/-- `sext`. -/
theorem word_sext (o : ExtOp) (hw : (Instr.sext o).wf .cox = true) : WordTrips .cox (.sext o) := by
  obtain ⟨⟨p, n⟩, d, a, w⟩ := o
  cases w <;> first
    | exact (Bool.false_ne_true hw).elim
    | (refine trip rfl rfl ?_ rfl rfl ?_ ?_ ?_ ?_ ?_ ?_ <;> simp [Fields.Fits, encExt, rdExt, encW, extWOf, memTyOf])

/-- `zext`. -/
theorem word_zext (o : ExtOp) (hw : (Instr.zext o).wf .cox = true) : WordTrips .cox (.zext o) := by
  obtain ⟨⟨p, n⟩, d, a, w⟩ := o
  cases w <;> first
    | exact (Bool.false_ne_true hw).elim
    | (refine trip rfl rfl ?_ rfl rfl ?_ ?_ ?_ ?_ ?_ ?_ <;> simp [Fields.Fits, encExt, rdExt, encW, extWOf, memTyOf])

/-- `li`. -/
theorem word_li (g : CGuard) (d : Fin 64) (imm : BitVec 32) (hw : (Instr.li g d imm).wf .cox = true) : WordTrips .cox (.li g d imm) := by
  obtain ⟨p, n⟩ := g
  refine trip rfl rfl ?_ rfl rfl ?_ ?_ ?_ ?_ ?_ ?_ <;> simp [Fields.Fits]

/-- `lih`. -/
theorem word_lih (o : LihOp) (hw : (Instr.lih o).wf .cox = true) : WordTrips .cox (.lih o) := by
  obtain ⟨⟨p, n⟩, d, a, imm⟩ := o
  exact trip rfl rfl (by simp [Fields.Fits]) rfl rfl (by simp) (by simp) (by simp) (by simp)
    (one11_eq { opc := 0 } [encXRf a, 0xC0] [none, some imm] (by simp; rfl)) (by simp)

/-- `sel`. -/
theorem word_sel (o : SelOp) (hw : (Instr.sel o).wf .cox = true) : WordTrips .cox (.sel o) := by
  obtain ⟨⟨p, n⟩, d, a, b, c⟩ := o
  have h1 : oneImm [a.imm?, b.imm?] = true := hw
  have hl : [encSrc a, encSrc b].map class11 = [a.imm?, b.imm?].map Option.isSome := by simp
  exact trip rfl rfl (by simp [Fields.Fits]) rfl rfl (immUsed_imms _ _ _ hl rfl) (by simp) (by simp) (by simp)
    ((one11_eq { opc := 0 } _ _ hl).trans h1) (by simp [srcOf_encSrc b _ (encImms_second h1)])

/-- `cmp`. -/
theorem word_cmp (o : CmpOp) (hw : (Instr.cmp o).wf .cox = true) : WordTrips .cox (.cmp o) := by
  obtain ⟨⟨p, n⟩, d, cc, a, b⟩ := o
  have h1 : oneImm [a.imm?, b.imm?] = true := hw
  have hl : [encSrc a, encSrc b].map class11 = [a.imm?, b.imm?].map Option.isSome := by simp
  have hc := encCond_le cc
  exact trip rfl rfl (by simp [Fields.Fits]; omega) rfl rfl (immUsed_imms _ _ _ hl rfl) (by simp) (by simp) (by simp)
    ((one11_eq { opc := 0 } _ _ hl).trans h1) (by simp [srcOf_encSrc b _ (encImms_second h1)])

/-- `plog`. -/
theorem word_plog (o : PlogOp) (hw : (Instr.plog o).wf .cox = true) : WordTrips .cox (.plog o) := by
  obtain ⟨⟨p, n⟩, d, a, b, op⟩ := o
  cases op <;> first
    | exact (Bool.false_ne_true hw).elim
    | (refine trip rfl rfl ?_ rfl rfl ?_ ?_ ?_ ?_ ?_ ?_ <;> simp [Fields.Fits, encLog, logOf])

/-- `pmovPP`. -/
theorem word_pmovPP (g : CGuard) (d a : Fin 16) (hw : (Instr.pmovPP g d a).wf .cox = true) : WordTrips .cox (.pmovPP g d a) := by
  obtain ⟨p, n⟩ := g
  refine trip rfl rfl ?_ rfl rfl ?_ ?_ ?_ ?_ ?_ ?_ <;> simp [Fields.Fits, rdPmov]

/-- `pmovPX`. -/
theorem word_pmovPX (g : CGuard) (d : Fin 16) (a : Src) (hw : (Instr.pmovPX g d a).wf .cox = true) : WordTrips .cox (.pmovPX g d a) := by
  obtain ⟨p, n⟩ := g
  refine trip rfl rfl ?_ rfl rfl ?_ ?_ ?_ ?_ ?_ ?_ <;> simp [Fields.Fits, rdPmov]

/-- `pmovXP`. -/
theorem word_pmovXP (g : CGuard) (d : Fin 64) (a : Fin 16) (hw : (Instr.pmovXP g d a).wf .cox = true) : WordTrips .cox (.pmovXP g d a) := by
  obtain ⟨p, n⟩ := g
  refine trip rfl rfl ?_ rfl rfl ?_ ?_ ?_ ?_ ?_ ?_ <;> simp [Fields.Fits, rdPmov]

/-- `pmovXPall`. -/
theorem word_pmovXPall (g : CGuard) (d : Fin 64) (hw : (Instr.pmovXPall g d).wf .cox = true) : WordTrips .cox (.pmovXPall g d) := by
  obtain ⟨p, n⟩ := g
  refine trip rfl rfl ?_ rfl rfl ?_ ?_ ?_ ?_ ?_ ?_ <;> simp [Fields.Fits, rdPmov]

/-- `pmovPallX`. -/
theorem word_pmovPallX (g : CGuard) (a : Fin 64) (hw : (Instr.pmovPallX g a).wf .cox = true) : WordTrips .cox (.pmovPallX g a) := by
  obtain ⟨p, n⟩ := g
  refine trip rfl rfl ?_ rfl rfl ?_ ?_ ?_ ?_ ?_ ?_ <;> simp [Fields.Fits, rdPmov]

/-- `ld`. -/
theorem word_ld (o : MemOp) (d : Fin 64) (hw : (Instr.ld o d).wf .cox = true) : WordTrips .cox (.ld o d) := by
  obtain ⟨⟨p, n⟩, a, off, ty⟩ := o
  refine trip rfl rfl ?_ rfl rfl ?_ ?_ ?_ ?_ ?_ ?_ <;> simp [Fields.Fits, rdLd, encMem, Fields.mem]

/-- `ldFifo`. -/
theorem word_ldFifo (o : MemOp) (hw : (Instr.ldFifo o).wf .cox = true) : WordTrips .cox (.ldFifo o) := by
  obtain ⟨⟨p, n⟩, a, off, ty⟩ := o
  refine trip rfl rfl ?_ rfl rfl ?_ ?_ ?_ ?_ ?_ ?_ <;> simp [Fields.Fits, rdLd, encMem, Fields.mem]

/-- `st`. -/
theorem word_st (o : MemOp) (b : XRf) (hw : (Instr.st o b).wf .cox = true) : WordTrips .cox (.st o b) := by
  obtain ⟨⟨p, n⟩, a, off, ty⟩ := o
  refine trip rfl rfl ?_ rfl rfl ?_ ?_ ?_ ?_ ?_ ?_ <;> simp [Fields.Fits, rdSt, encMem, Fields.mem]

/-- `stAtomic`. -/
theorem word_stAtomic (g : CGuard) (a : Fin 64) (off : BitVec 32) (signed : Bool) (op : AtomOp) (b : XRf) (hw : (Instr.stAtomic g a off signed op b).wf .cox = true) : WordTrips .cox (.stAtomic g a off signed op b) := by
  obtain ⟨p, n⟩ := g
  cases op <;> cases signed <;> first
    | exact (Bool.false_ne_true hw).elim
    | (refine trip rfl rfl ?_ rfl rfl ?_ ?_ ?_ ?_ ?_ ?_ <;> simp [Fields.Fits, rdSt, encMem, Fields.mem, encAtom, atomOf, encAtTy, isAtTy])

/-- `stCas`. -/
theorem word_stCas (g : CGuard) (a : Fin 64) (off : BitVec 32) (signed : Bool) (b : XRf) (c : Fin 64) (hw : (Instr.stCas g a off signed b c).wf .cox = true) : WordTrips .cox (.stCas g a off signed b c) := by
  obtain ⟨p, n⟩ := g
  cases signed <;> first
    | exact (Bool.false_ne_true hw).elim
    | (refine trip rfl rfl ?_ rfl rfl ?_ ?_ ?_ ?_ ?_ ?_ <;> simp [Fields.Fits, rdSt, encMem, Fields.mem, encAtTy, isAtTy])

/-- `ldi`. -/
theorem word_ldi (o : MemOp) (hw : (Instr.ldi o).wf .cox = true) : WordTrips .cox (.ldi o) := by
  obtain ⟨⟨p, n⟩, a, off, ty⟩ := o
  refine trip rfl rfl ?_ rfl rfl ?_ ?_ ?_ ?_ ?_ ?_ <;> simp [Fields.Fits, rdLdi, encMem, Fields.mem, isTouch]

/-- `ldiTouch`. -/
theorem word_ldiTouch (o : MemOp) (toP : Bool) (hw : (Instr.ldiTouch o toP).wf .cox = true) : WordTrips .cox (.ldiTouch o toP) := by
  obtain ⟨⟨p, n⟩, a, off, ty⟩ := o
  cases toP <;> first
    | exact (Bool.false_ne_true hw).elim
    | (refine trip rfl rfl ?_ rfl rfl ?_ ?_ ?_ ?_ ?_ ?_ <;> simp [Fields.Fits, rdLdi, encMem, Fields.mem, isTouch])

/-- `lds`. -/
theorem word_lds (g : CGuard) (a : Fin 64) (seg : Fin 8) (hw : (Instr.lds g a seg).wf .cox = true) : WordTrips .cox (.lds g a seg) := by
  obtain ⟨p, n⟩ := g
  have hs : seg.val ≤ 7 := by omega
  have hs' : seg.val < 4294967296 := by omega
  refine trip rfl rfl ?_ rfl rfl ?_ ?_ ?_ ?_ ?_ ?_ <;> simp [Fields.Fits, rdLds, isTouch, Fields.seg, hs, hs']

/-- `ldsTouch`. -/
theorem word_ldsTouch (g : CGuard) (a : Fin 64) (seg : Fin 8) (toP : Bool) (hw : (Instr.ldsTouch g a seg toP).wf .cox = true) : WordTrips .cox (.ldsTouch g a seg toP) := by
  obtain ⟨p, n⟩ := g
  have hs : seg.val ≤ 7 := by omega
  have hs' : seg.val < 4294967296 := by omega
  cases toP <;> first
    | exact (Bool.false_ne_true hw).elim
    | (refine trip rfl rfl ?_ rfl rfl ?_ ?_ ?_ ?_ ?_ ?_ <;> simp [Fields.Fits, rdLds, isTouch, Fields.seg, hs, hs'])

/-- `sts`. -/
theorem word_sts (g : CGuard) (a b : Fin 64) (seg : Fin 8) (hw : (Instr.sts g a b seg).wf .cox = true) : WordTrips .cox (.sts g a b seg) := by
  obtain ⟨p, n⟩ := g
  have hs : seg.val ≤ 7 := by omega
  have hs' : seg.val < 4294967296 := by omega
  refine trip rfl rfl ?_ rfl rfl ?_ ?_ ?_ ?_ ?_ ?_ <;> simp [Fields.Fits, rdSts, Fields.seg, hs, hs']

/-- `close`. -/
theorem word_close (g : CGuard) (a : Fin 64) (seg : Fin 8) (hw : (Instr.close g a seg).wf .cox = true) : WordTrips .cox (.close g a seg) := by
  obtain ⟨p, n⟩ := g
  have hs : seg.val ≤ 7 := by omega
  have hs' : seg.val < 4294967296 := by omega
  refine trip rfl rfl ?_ rfl rfl ?_ ?_ ?_ ?_ ?_ ?_ <;> simp [Fields.Fits, rdSts, Fields.seg, hs, hs']

/-- `adda`. -/
theorem word_adda (g : CGuard) (a b c : Fin 64) (ty : AddTy) (hw : (Instr.adda g a b c ty).wf .cox = true) : WordTrips .cox (.adda g a b c ty) := by
  obtain ⟨p, n⟩ := g
  cases ty <;> first
    | exact (Bool.false_ne_true hw).elim
    | (refine trip rfl rfl ?_ rfl rfl ?_ ?_ ?_ ?_ ?_ ?_ <;> simp [Fields.Fits, rdAdda, encAddTy, isFp])

/-- `sld`. -/
theorem word_sld (o : SigOp) (hw : (Instr.sld o).wf .cox = true) : WordTrips .cox (.sld o) := by
  obtain ⟨⟨p, n⟩, a, ord, sc, off⟩ := o
  have hs := encScope_le sc
  have ho := encOrder_le ord
  obtain ⟨h1, h2, h3, h4⟩ := sig_imm0 (encScope sc) off hs
  refine trip rfl rfl ?_ rfl rfl ?_ ?_ ?_ ?_ rfl ?_
  · simp [Fields.Fits, encSig, h3]; omega
  · simp [rdSld, encSig, h2]; exact decide_eq_true (by omega)
  · simp [rdSld, encSig]
  · simp [encSig]
  · simp only [rdSld, encSig, Bool.and_eq_true]
    exact ⟨sigOk_enc _ [.rlx, .acq, .sc] ord sc hw (by simp [Fields.ordN]) (by simpa [Fields.scN] using h1) rfl, rfl⟩
  · simp [rdSld, encSig, Fields.sig, Fields.ordN, Fields.scN, h1, h4]

/-- `sst`. -/
theorem word_sst (o : SigOp) (b : XRf) (hw : (Instr.sst o b).wf .cox = true) : WordTrips .cox (.sst o b) := by
  obtain ⟨⟨p, n⟩, a, ord, sc, off⟩ := o
  have hs := encScope_le sc
  have ho := encOrder_le ord
  obtain ⟨h1, h2, h3, h4⟩ := sig_imm0 (encScope sc) off hs
  refine trip rfl rfl ?_ rfl rfl ?_ ?_ ?_ ?_ rfl ?_
  · simp [Fields.Fits, encSig, h3]; omega
  · simp [rdSst, encSig, h2]; exact decide_eq_true (by omega)
  · simp [rdSst, encSig]
  · simp [encSig]
  · simp only [rdSst, encSig, Bool.and_eq_true]
    exact ⟨sigOk_enc _ [.rlx, .rel, .sc] ord sc hw (by simp [Fields.ordN]) (by simpa [Fields.scN] using h1) rfl, rfl⟩
  · simp [rdSst, encSig, Fields.sig, Fields.ordN, Fields.scN, h1, h4]

/-- `satom`. -/
theorem word_satom (o : SigOp) (ty : AtomTy) (op : SatOp) (b : XRf) (hw : (Instr.satom o ty op b).wf .cox = true) : WordTrips .cox (.satom o ty op b) := by
  obtain ⟨⟨p, n⟩, a, ord, sc, off⟩ := o
  have hs := encScope_le sc
  have ho := encOrder_le ord
  have hq : encSatOp op < 8 ∧ encSatOp op ≠ 0 ∧ encSatC op < 256 := by
    cases op with
    | op o => cases o <;> decide
    | cas c => exact ⟨show 3 < 8 by decide, show 3 ≠ 0 by decide, encXRf_lt c⟩
  obtain ⟨h1, h2, h3, h4, h5⟩ := sig_imm (encScope sc) (encSatOp op) off hs hq.1
  refine trip rfl rfl ?_ rfl rfl ?_ ?_ ?_ ?_ rfl ?_
  · have ht : encAtomTy ty < 16 := by cases ty <;> decide
    simp [Fields.Fits, encSig, h4, hq.2.2, ht]; omega
  · have hc : encSatOp op = 3 ∨ encSatC op = 0 := by cases op with
      | op o => exact .inr rfl
      | cas c => exact .inl rfl
    simp [rdSatom, encSig, h2, h3, hc]; exact decide_eq_true (by omega)
  · have hc : encSatOp op = 3 → isXRf (encSatC op) = true := by cases op with
      | op o => cases o <;> exact fun h => absurd h (by decide)
      | cas c => exact fun _ => isXRf_encXRf c
    simp [rdSatom, encSig, h2]
    by_cases h : encSatOp op = 3 <;> simp [h, hc]
  · simp [encSig]
  · simp only [rdSatom, encSig, Bool.and_eq_true]
    refine ⟨⟨sigOk_enc _ [.rlx, .acq, .rel, .ar, .sc] ord sc hw (by simp [Fields.ordN]) (by simpa [Fields.scN] using h1) rfl, ?_⟩, ?_⟩
    · cases ty <;> rfl
    · simp [h2, hq.2.1]
  · simp [rdSatom, encSig, Fields.sig, Fields.ordN, Fields.scN, h1, h2, h5]
    refine ⟨by cases ty <;> rfl, ?_⟩
    cases op with
    | op o => cases o <;> rfl
    | cas c => simp [encSatOp, encSatC]

/-- `fence`. -/
theorem word_fence (sc : Scope) (hw : (Instr.fence sc).wf .cox = true) : WordTrips .cox (.fence sc) := by
  cases sc <;> first
    | exact (Bool.false_ne_true hw).elim
    | (refine trip rfl rfl ?_ rfl rfl ?_ ?_ ?_ ?_ ?_ ?_ <;> simp [Fields.Fits, rdFence, Fields.scN, encScope, scopeOf, bitsOf])

/-- `br`. -/
theorem word_br (g : CGuard) (imm : BitVec 32) (hw : (Instr.br g imm).wf .cox = true) : WordTrips .cox (.br g imm) := by
  obtain ⟨p, n⟩ := g
  refine trip rfl rfl ?_ rfl rfl ?_ ?_ ?_ ?_ ?_ ?_ <;> simp [Fields.Fits]

/-- `brl`. -/
theorem word_brl (g : CGuard) (d : Fin 64) (imm : BitVec 32) (hw : (Instr.brl g d imm).wf .cox = true) : WordTrips .cox (.brl g d imm) := by
  obtain ⟨p, n⟩ := g
  refine trip rfl rfl ?_ rfl rfl ?_ ?_ ?_ ?_ ?_ ?_ <;> simp [Fields.Fits]

/-- `jr`. -/
theorem word_jr (g : CGuard) (a : Fin 64) (hw : (Instr.jr g a).wf .cox = true) : WordTrips .cox (.jr g a) := trip_xa g a 0x42 .jr (by decide) rfl rfl

/-- `ret`. -/
theorem word_ret (g : CGuard) (a : Fin 64) (hw : (Instr.ret g a).wf .cox = true) : WordTrips .cox (.ret g a) := trip_xa g a 0x43 .ret (by decide) rfl rfl

/-- `bct`. -/
theorem word_bct (g : CGuard) (a : Fin 64) (imm : BitVec 32) (hw : (Instr.bct g a imm).wf .cox = true) : WordTrips .cox (.bct g a imm) := by
  obtain ⟨p, n⟩ := g
  refine trip rfl rfl ?_ rfl rfl ?_ ?_ ?_ ?_ ?_ ?_ <;> simp [Fields.Fits]

/-- `region`. -/
theorem word_region (g : CGuard) (hw : (Instr.region g).wf .cox = true) : WordTrips .cox (.region g) := trip_bare g 0x45 .region (by decide) rfl rfl

/-- `exec`. -/
theorem word_exec (o : ExecOp) (hw : (Instr.exec o).wf .cox = true) : WordTrips .cox (.exec o) := by
  obtain ⟨⟨p, n⟩, e, d, sec, budget, a, b⟩ := o
  have hs := sec.isLt
  have he := encEng_lt e
  have h4 : encEng e % 4 = encEng e := by omega
  have h5 : (encEng e + 4) % 4 = encEng e := by omega
  have h6 : encEng e / 4 = 0 := by omega
  have h7 : (encEng e + 4) / 4 = 1 := by omega
  cases budget with
  | imm k =>
    have hk := k.isLt
    have h1 : bitsOf (sec.toNat + 4096 * k.toNat) 12 20 = k.toNat := by
      simp only [bitsOf, Nat.shiftRight_eq_div_pow]; omega
    have h2 : BitVec.ofNat 12 (sec.toNat + 4096 * k.toNat) = sec := BitVec.eq_of_toNat_eq (by simp; omega)
    refine trip rfl rfl ?_ rfl rfl ?_ ?_ ?_ ?_ rfl ?_
    · simp [Fields.Fits, encBudgetC, encBudgetFn, encBudgetImm]; omega
    · simp [rdExec, encBudgetC, encBudgetFn, encBudgetImm, h6]; omega
    · simp [rdExec, encBudgetC, encBudgetFn, encBudgetImm, h6]
    · simp
    · simp [rdExec]
    · simp [rdExec, encBudgetC, encBudgetFn, encBudgetImm, h1, h2, h4, h6]
  | reg r =>
    have h1 : bitsOf sec.toNat 12 20 = 0 := by simp only [bitsOf, Nat.shiftRight_eq_div_pow]; omega
    refine trip rfl rfl ?_ rfl rfl ?_ ?_ ?_ ?_ ?_ ?_ <;>
      simp [Fields.Fits, rdExec, encBudgetC, encBudgetFn, encBudgetImm, h1, h5, h7] <;> omega

/-- `waitq`. -/
theorem word_waitq (g : CGuard) (e : Eng) (a : Src) (hw : (Instr.waitq g e a).wf .cox = true) : WordTrips .cox (.waitq g e a) := by
  obtain ⟨p, n⟩ := g
  cases e <;> first
    | exact (Bool.false_ne_true hw).elim
    | (refine trip rfl rfl ?_ rfl rfl ?_ ?_ ?_ ?_ ?_ ?_ <;> simp [Fields.Fits, rdWait, encEng, engOf])

/-- `waitb`. -/
theorem word_waitb (g : CGuard) (a : Src) (hw : (Instr.waitb g a).wf .cox = true) : WordTrips .cox (.waitb g a) := by
  obtain ⟨p, n⟩ := g
  refine trip rfl rfl ?_ rfl rfl ?_ ?_ ?_ ?_ ?_ ?_ <;> simp [Fields.Fits, rdWait]

/-- `qstat`. -/
theorem word_qstat (g : CGuard) (d : Fin 64) (e : Option Eng) (hw : (Instr.qstat g d e).wf .cox = true) : WordTrips .cox (.qstat g d e) := by
  obtain ⟨p, n⟩ := g
  rcases e with _ | e
  · refine trip rfl rfl ?_ rfl rfl ?_ ?_ ?_ ?_ ?_ ?_ <;> simp [Fields.Fits, encQstat]
  · cases e <;> refine trip rfl rfl ?_ rfl rfl ?_ ?_ ?_ ?_ ?_ ?_ <;> simp [Fields.Fits, encQstat, encEng, engOf]

/-- `mlease`. -/
theorem word_mlease (g : CGuard) (n : Fin 128) (tb : BitVec 25) (hw : (Instr.mlease g n tb).wf .cox = true) : WordTrips .cox (.mlease g n tb) := by
  obtain ⟨p, n'⟩ := g
  have hn := n.isLt
  have ht := tb.isLt
  have h0 : (decide (1 ≤ n.val) && decide (n.val ≤ 64) && decide (1 ≤ tb.toNat)) = true := hw
  simp only [Bool.and_eq_true, decide_eq_true_eq] at h0
  have h1 : (n.val + 128 * tb.toNat) % 128 = n.val := by omega
  have h2 : (n.val + 128 * tb.toNat) / 128 = tb.toNat := by omega
  have h3 : Fin.ofNat 128 (n.val + 128 * tb.toNat) = n := Fin.ext h1
  refine trip rfl rfl ?_ rfl rfl ?_ ?_ ?_ ?_ rfl ?_
  · simp [Fields.Fits]; omega
  · simp
  · simp
  · simp
  · simp [h1, h0.1]; exact decide_eq_true (by omega)
  · simp [h2]; exact h3

/-- `mfree`. -/
theorem word_mfree (g : CGuard) (hw : (Instr.mfree g).wf .cox = true) : WordTrips .cox (.mfree g) := trip_bare g 0x61 .mfree (by decide) rfl rfl

/-- `acalloc`. -/
theorem word_acalloc (g : CGuard) (d : Fin 16) (a : XImm) (hw : (Instr.acalloc g d a).wf .cox = true) : WordTrips .cox (.acalloc g d a) := by
  obtain ⟨p, n⟩ := g
  refine trip rfl rfl ?_ rfl rfl ?_ ?_ ?_ ?_ ?_ ?_ <;> simp [Fields.Fits, rdClaim]

/-- `acown`. -/
theorem word_acown (g : CGuard) (a b : XImm) (hw : (Instr.acown g a b).wf .cox = true) : WordTrips .cox (.acown g a b) := by
  obtain ⟨p, n⟩ := g
  have h1 : oneImm [a.imm?, b.imm?] = true := by
    cases a <;> cases b <;> first | exact (Bool.false_ne_true hw).elim | rfl
  have hl : [encXImm a, encXImm b].map class11 = [a.imm?, b.imm?].map Option.isSome := by simp
  exact trip rfl rfl (by simp [Fields.Fits]) rfl rfl (immUsed_imms _ _ _ hl rfl) (by simp) (by simp) (by simp)
    ((one11_eq { opc := 0 } _ _ hl).trans h1) (by simp [xImmOf_encXImm b _ (encImms_second h1)])

/-- `acfree`. -/
theorem word_acfree (g : CGuard) (a : XImm) (hw : (Instr.acfree g a).wf .cox = true) : WordTrips .cox (.acfree g a) := by
  obtain ⟨p, n⟩ := g
  refine trip rfl rfl ?_ rfl rfl ?_ ?_ ?_ ?_ ?_ ?_ <;> simp [Fields.Fits, rdRel]

/-- `osclaim`. -/
theorem word_osclaim (g : CGuard) (d : Fin 16) (a : XImm) (hw : (Instr.osclaim g d a).wf .cox = true) : WordTrips .cox (.osclaim g d a) := by
  obtain ⟨p, n⟩ := g
  refine trip rfl rfl ?_ rfl rfl ?_ ?_ ?_ ?_ ?_ ?_ <;> simp [Fields.Fits, rdClaim]

/-- `osrel`. -/
theorem word_osrel (g : CGuard) (a : XImm) (hw : (Instr.osrel g a).wf .cox = true) : WordTrips .cox (.osrel g a) := by
  obtain ⟨p, n⟩ := g
  refine trip rfl rfl ?_ rfl rfl ?_ ?_ ?_ ?_ ?_ ?_ <;> simp [Fields.Fits, rdRel]

/-- `extnew`. -/
theorem word_extnew (g : CGuard) (a : Fin 64) (acap : Bool) (hw : (Instr.extnew g a acap).wf .cox = true) : WordTrips .cox (.extnew g a acap) := by
  obtain ⟨p, n⟩ := g
  have h1 : encB acap < 4294967296 ∧ encB acap ≤ 1 := by cases acap <;> decide
  refine trip rfl rfl ?_ rfl rfl ?_ ?_ ?_ ?_ ?_ ?_ <;> simp [Fields.Fits, h1]

/-- `recast`. -/
theorem word_recast (o : RecastOp) (hw : (Instr.recast o).wf .cox = true) : WordTrips .cox (.recast o) := by
  obtain ⟨⟨p, n⟩, a, b, c, role, fresh, sig⟩ := o
  have hf : fresh = true → role = .s := by
    rintro rfl
    cases role <;> first | rfl | exact (Bool.false_ne_true hw).elim
  obtain ⟨m, hm, h0, h2, h3, h4, h21, hl⟩ : ∃ m, m = encRole role + (if fresh then 4 else 0) + encRecastSig sig ∧
      bitsOf m 0 2 = encRole role ∧ bitOf m 2 = fresh ∧ bitOf m 3 = sig.isSome ∧
      bitsOf m 4 17 = (sig.getD 0).toNat ∧ bitsOf m 21 11 = 0 ∧ m < 4294967296 := by
    have hr : encRole role < 3 := by cases role <;> decide
    have hg := (sig.getD 0).isLt
    refine ⟨_, rfl, ?_⟩
    simp only [bitsOf, bitOf, Nat.testBit_eq_decide_div_mod_eq, Nat.shiftRight_eq_div_pow]
    rcases sig with _ | w <;> cases fresh <;> simp [encRecastSig] at hg ⊢ <;> omega
  have hs : (if sig.isSome then some (BitVec.ofNat 17 (sig.getD 0).toNat) else none) = sig := by
    rcases sig with _ | w <;> simp
  refine trip rfl rfl ?_ rfl rfl ?_ ?_ ?_ ?_ rfl ?_
  · simp [Fields.Fits, ← hm, hl]
  · simp only [rdRecast, Fields.withG_eq, ← hm, h0, h2, h3, h4, h21]
    clear hm h0 h2 h3 h4 h21 hl hs
    rcases sig with _ | w <;> cases role <;> cases fresh <;> first
      | rfl
      | exact absurd (hf rfl) (by decide)
  · simp [rdRecast]
  · simp
  · simp [rdRecast]
  · simp only [rdRecast, Fields.withG_eq, ← hm, h0, h2, h3, h4, hs]
    cases role <;> simp [encRole]

/-- `extq`. -/
theorem word_extq (g : CGuard) (a : Fin 64) (seg : Fin 8) (field : Byte) (hw : (Instr.extq g a seg field).wf .cox = true) : WordTrips .cox (.extq g a seg field) := by
  obtain ⟨p, n⟩ := g
  have hf := field.isLt
  have hs := seg.isLt
  have h1 : BitVec.ofNat 8 (field.toNat + 256 * seg.val) = field := BitVec.eq_of_toNat_eq (by simp; omega)
  have h2 : Fin.ofNat 8 ((field.toNat + 256 * seg.val) / 256) = seg := Fin.ext (by simp [Fin.ofNat]; omega)
  refine trip rfl rfl ?_ rfl rfl ?_ ?_ ?_ ?_ ?_ ?_ <;> simp [Fields.Fits, h1, h2] <;> first | omega | exact decide_eq_true (by omega)

/-- `extfree`. -/
theorem word_extfree (g : CGuard) (a : Fin 64) (hw : (Instr.extfree g a).wf .cox = true) : WordTrips .cox (.extfree g a) := by
  obtain ⟨p, n⟩ := g
  refine trip rfl rfl ?_ rfl rfl ?_ ?_ ?_ ?_ ?_ ?_ <;> simp [Fields.Fits, encXa]

/-- `launch`. -/
theorem word_launch (g : CGuard) (pd : Fin 16) (xd : Fin 64) (a b : Fin 64) (csig : BitVec 32) (hw : (Instr.launch g pd xd a b csig).wf .cox = true) : WordTrips .cox (.launch g pd xd a b csig) := by
  obtain ⟨p, n⟩ := g
  refine trip rfl rfl ?_ rfl rfl ?_ ?_ ?_ ?_ ?_ ?_ <;> simp [Fields.Fits]

/-- `launchw`. -/
theorem word_launchw (g : CGuard) (xd : Fin 64) (a b : Fin 64) (csig : BitVec 32) (hw : (Instr.launchw g xd a b csig).wf .cox = true) : WordTrips .cox (.launchw g xd a b csig) := by
  obtain ⟨p, n⟩ := g
  refine trip rfl rfl ?_ rfl rfl ?_ ?_ ?_ ?_ ?_ ?_ <;> simp [Fields.Fits]

/-- `join`. -/
theorem word_join (g : CGuard) (d : Fin 64) (a : Src) (hw : (Instr.join g d a).wf .cox = true) : WordTrips .cox (.join g d a) := by
  obtain ⟨p, n⟩ := g
  refine trip rfl rfl ?_ rfl rfl ?_ ?_ ?_ ?_ ?_ ?_ <;> simp [Fields.Fits]

/-- `done`. -/
theorem word_done (g : CGuard) (hw : (Instr.done g).wf .cox = true) : WordTrips .cox (.done g) := trip_bare g 0x73 .done (by decide) rfl rfl

/-- `trap`. -/
theorem word_trap (g : CGuard) (imm : BitVec 32) (hw : (Instr.trap g imm).wf .cox = true) : WordTrips .cox (.trap g imm) := by
  obtain ⟨p, n⟩ := g
  refine trip rfl rfl ?_ rfl rfl ?_ ?_ ?_ ?_ ?_ ?_ <;> simp [Fields.Fits]

/-- `rft`. -/
theorem word_rft (g : CGuard) (hw : (Instr.rft g).wf .cox = true) : WordTrips .cox (.rft g) := trip_bare g 0xE1 .rft (by decide) rfl rfl

/-- `csrr`. -/
theorem word_csrr (g : CGuard) (d : Fin 64) (csr : BitVec 12) (hw : (Instr.csrr g d csr).wf .cox = true) : WordTrips .cox (.csrr g d csr) := by
  obtain ⟨p, n⟩ := g
  have hc := csr.isLt
  have hl : csrListed csr.toNat = true := hw
  have h1 : csr.toNat % 4096 = csr.toNat := Nat.mod_eq_of_lt hc
  refine trip rfl rfl ?_ rfl rfl ?_ ?_ ?_ ?_ ?_ ?_ <;> simp [Fields.Fits, h1, hl] <;> first | omega | exact decide_eq_true (by omega)

/-- `csrw`. -/
theorem word_csrw (g : CGuard) (csr : BitVec 12) (a : Option XRf) (hw : (Instr.csrw g csr a).wf .cox = true) : WordTrips .cox (.csrw g csr a) := by
  obtain ⟨p, n⟩ := g
  have hc := csr.isLt
  have hl : csrListed csr.toNat = true := hw
  have h1 : csr.toNat % 4096 = csr.toNat := Nat.mod_eq_of_lt hc
  rcases a with _ | a
  · refine trip rfl rfl ?_ rfl rfl ?_ ?_ ?_ ?_ ?_ ?_ <;> simp [Fields.Fits, encCsrA, h1, hl] <;> first | omega | exact decide_eq_true (by omega)
  · have hi : isImm (encXRf a) = false := by
      cases a with
      | x r => exact (by decide : ∀ r : Fin 64, isImm r.val = false) r
      | rf => rfl
    refine trip rfl rfl ?_ rfl rfl ?_ ?_ ?_ ?_ ?_ ?_ <;> simp [Fields.Fits, encCsrA, h1, hl, hi] <;> first | omega | exact decide_eq_true (by omega)

/-- `nop`. -/
theorem word_nop (g : CGuard) (hw : (Instr.nop g).wf .cox = true) : WordTrips .cox (.nop g) := trip_bare g 0xE4 .nop (by decide) rfl rfl

/-- `halt`. -/
theorem word_halt (g : CGuard) (hw : (Instr.halt g).wf .cox = true) : WordTrips .cox (.halt g) := trip_bare g 0xE5 .halt (by decide) rfl rfl

/-- `waitcyc`. -/
theorem word_waitcyc (g : CGuard) (a : Src) (hw : (Instr.waitcyc g a).wf .cox = true) : WordTrips .cox (.waitcyc g a) := by
  obtain ⟨p, n⟩ := g
  refine trip rfl rfl ?_ rfl rfl ?_ ?_ ?_ ?_ ?_ ?_ <;> simp [Fields.Fits, rdWait]

/-- `waitcycUntil`. -/
theorem word_waitcycUntil (g : CGuard) (a : Src) (hw : (Instr.waitcycUntil g a).wf .cox = true) : WordTrips .cox (.waitcycUntil g a) := by
  obtain ⟨p, n⟩ := g
  refine trip rfl rfl ?_ rfl rfl ?_ ?_ ?_ ?_ ?_ ?_ <;> simp [Fields.Fits, rdWait]

/-- `msdecl`. -/
theorem word_msdecl (g : CGuard) (d : Fin 16) (a : Fin 64) (hw : (Instr.msdecl g d a).wf .cox = true) : WordTrips .cox (.msdecl g d a) := by
  obtain ⟨p, n⟩ := g
  refine trip rfl rfl ?_ rfl rfl ?_ ?_ ?_ ?_ ?_ ?_ <;> simp [Fields.Fits]

/-- `pfack`. -/
theorem word_pfack (g : CGuard) (hw : (Instr.pfack g).wf .cox = true) : WordTrips .cox (.pfack g) := by
  have hg : (g == ⟨0, false⟩) = true := hw
  obtain rfl := eq_of_beq hg
  refine trip rfl rfl ?_ rfl rfl ?_ ?_ ?_ ?_ ?_ ?_ <;> first | rfl | simp [Fields.Fits, encXa, Fields.withG, encB]

/-- `pfrestore`. -/
theorem word_pfrestore (g : CGuard) (d : Fin 16) (a b : Fin 64) (hw : (Instr.pfrestore g d a b).wf .cox = true) : WordTrips .cox (.pfrestore g d a b) := by
  obtain ⟨p, n⟩ := g
  refine trip rfl rfl ?_ rfl rfl ?_ ?_ ?_ ?_ ?_ ?_ <;> simp [Fields.Fits]

/-- `grpopen`. -/
theorem word_grpopen (g : CGuard) (a : Fin 64) (hw : (Instr.grpopen g a).wf .cox = true) : WordTrips .cox (.grpopen g a) := by
  obtain ⟨p, n⟩ := g
  refine trip rfl rfl ?_ rfl rfl ?_ ?_ ?_ ?_ ?_ ?_ <;> simp [Fields.Fits, encXa]

/-- `grpfree`. -/
theorem word_grpfree (g : CGuard) (a : Fin 64) (hw : (Instr.grpfree g a).wf .cox = true) : WordTrips .cox (.grpfree g a) := trip_xa g a 0xEB .grpfree (by decide) rfl rfl

/-- `vcmp`. -/
theorem word_vcmp (o : VCmpOp) (hw : (Instr.vcmp o).wf .v = true) : WordTrips .v (.vcmp o) := by
  obtain ⟨h, d, cc, ty, a, b⟩ := o
  have hp := Bool.and_eq_true_iff.mp (show ((vsrcWf h [a, b] && decide (cc ∈ [Cond.eq, .ne, .lt, .le, .gt, .ge])) &&
      immFits ty.half [a.imm?, b.imm?]) = true from hw)
  have hq := Bool.and_eq_true_iff.mp hp.1
  have hr := Bool.and_eq_true_iff.mp (show (h.tok.wf .v && oneImm [a.imm?, b.imm?]) = true from hq.1)
  have ho := hr.2
  have hc : encCond cc ≤ 5 ∧ encCond cc < 32 := by
    have := hq.2
    cases cc <;> first | decide | exact absurd this (by decide)
  obtain ⟨⟨k, n'⟩, tp, ts⟩ := h
  obtain ⟨h1, h2⟩ := Tok.ne_of_wf (show Tok.wf .v ⟨tp, ts⟩ = true from hr.1)
  have hl : [encVSrc a, encVSrc b].map class11 = [a.imm?, b.imm?].map Option.isSome := by simp
  refine trip rfl rfl (by simp [Fields.Fits, hc]) rfl rfl (immUsed_imms _ _ _ hl rfl) (by simp) (nofun) (by simp [hc]) ?_ ?_
  · refine Bool.and_eq_true_iff.mpr ⟨(one11_eq { opc := 0 } _ _ hl).trans ho, ?_⟩
    exact halfOk_of _ _ _ _ hl rfl (by simpa using hp.2)
  · simp [Fields.vh, Fields.tok, tokOf_encTok .v _ h1, tokOf_encTok .v _ h2, vsrcOf_encVSrc b _ (encImms_second ho)]

/-- `vsel`. -/
theorem word_vsel (h : VHead) (d : VDst) (a b : VSrc) (c : Fin 64) (hw : (Instr.vsel h d a b c).wf .v = true) : WordTrips .v (.vsel h d a b c) := by
  have hp := Bool.and_eq_true_iff.mp (show vsrcWf h [a, b] = true from hw)
  have ho : oneImm [a.imm?, b.imm?] = true := hp.2
  obtain ⟨⟨k, n'⟩, tp, ts⟩ := h
  obtain ⟨h1, h2⟩ := Tok.ne_of_wf (show Tok.wf .v ⟨tp, ts⟩ = true from hp.1)
  have hl : [encVSrc a, encVSrc b].map class11 = [a.imm?, b.imm?].map Option.isSome := by simp
  refine trip rfl rfl (by simp [Fields.Fits]) rfl rfl (immUsed_imms _ _ _ hl rfl) (by simp) (nofun) (by simp)
    ((one11_eq { opc := 0 } _ _ hl).trans ho) ?_
  simp [Fields.vh, Fields.tok, tokOf_encTok .v _ h1, tokOf_encTok .v _ h2, vsrcOf_encVSrc b _ (encImms_second ho)]

/-- `vplog`. -/
theorem word_vplog (h : VHead) (d a b : Fin 64) (op : LogOp) (hw : (Instr.vplog h d a b op).wf .v = true) : WordTrips .v (.vplog h d a b op) := by
  obtain ⟨⟨k, n'⟩, tp, ts⟩ := h
  obtain ⟨h1, h2⟩ := Tok.ne_of_wf (show Tok.wf .v ⟨tp, ts⟩ = true from hw)
  cases op <;> first
    | exact (Bool.false_ne_true hw).elim
    | (refine trip rfl rfl ?_ rfl rfl ?_ ?_ ?_ ?_ ?_ ?_ <;> simp [Fields.Fits, encLog, logOf, Fields.vh, Fields.tok, tokOf_encTok .v _ h1, tokOf_encTok .v _ h2])

/-- `vcvt`. -/
theorem word_vcvt (o : VCvtOp) (hw : (Instr.vcvt o).wf .v = true) : WordTrips .v (.vcvt o) := by
  obtain ⟨h, d, a, src, dst, rm, fmt⟩ := o
  have hm := encRm_le rm
  have hs : encCvt src < 16 := encCvt_lt src
  have hp := Bool.and_eq_true_iff.mp (show (((h.tok.wf .v && !(src == .nf && dst == .nf)) &&
      (if (src == .nf || dst == .nf) then a.imm? == none else decide (fmt = 0))) && immFits src.half [a.imm?]) = true from hw)
  have hq := Bool.and_eq_true_iff.mp hp.1
  have hr := Bool.and_eq_true_iff.mp hq.1
  have e1 : (encCvt src == 4) = (src == .nf) := by cases src <;> rfl
  have e2 : (encCvt dst == 4) = (dst == .nf) := by cases dst <;> rfl
  have hi : encImms [a.imm?, some fmt] = encImms [a.imm?] ∨ (src == .nf || dst == .nf) = true := by
    cases hn : (src == .nf || dst == .nf) with
    | true => exact .inr rfl
    | false =>
      have hz := hq.2
      rw [hn] at hz
      have hz : fmt = 0 := by simpa using hz
      subst hz
      cases a.imm? <;> exact .inl rfl
  obtain ⟨⟨k, n'⟩, tp, ts⟩ := h
  obtain ⟨h1, h2⟩ := Tok.ne_of_wf (show Tok.wf .v ⟨tp, ts⟩ = true from hr.1)
  refine trip rfl rfl (by simp [Fields.Fits]; omega) rfl rfl ?_ ?_ (nofun) ?_ ?_ ?_
  · simp only [rdCvt, Fields.withVH_eq, e1, e2, beq_self_eq_true, Bool.true_and, Bool.or_comm (dst == .nf)]
    cases hn : (src == .nf || dst == .nf) with
    | true => rfl
    | false => exact immUsed_vsrc _ a (hi.resolve_right (by simp [hn]))
  · simp only [rdCvt, Fields.withVH_eq, e1, e2, isVd_encVD, isVs_encVSrc, Bool.true_and, isImm_encVSrc,
      Bool.or_comm (dst == .nf)]
    cases hn : (src == .nf || dst == .nf) with
    | true => rw [hn] at hq; simpa using hq.2
    | false => rfl
  · simp only [rdCvt, Fields.withVH_eq, e1, e2, isCvt_encCvt, Bool.true_and, hm, decide_true, Bool.and_true]
    rw [Bool.and_comm]; exact hr.2
  · rcases hi with hi | hi
    · exact halfOk_of _ _ [encVSrc a] [a.imm?] (by simp) hi (by simpa [rdCvt] using hp.2)
    · rw [hi] at hq
      have ha : a.imm? = none := by simpa using hq.2
      simp [rdCvt, Fields.halfOk, ha]
  · have ha : vsrcOf (encImms [a.imm?, some fmt]) (encVSrc a) = a := vsrcOf_encVSrc a _ encImms_first
    have hf : (if (src == .nf || dst == .nf) = true then BitVec.ofNat 32 (encImms [a.imm?, some fmt]) else 0) = fmt := by
      cases hn : (src == .nf || dst == .nf) with
      | true =>
        rw [hn] at hq
        have hz : a.imm? = none := by simpa using hq.2
        simp [hz, encImms]
      | false =>
        have hz := hq.2
        rw [hn] at hz
        have hz : fmt = 0 := by simpa using hz
        simp [hz]
    simp only [rdCvt, Fields.withVH_eq, e1, e2, Bool.or_comm (dst == .nf), Fields.i32_eq, ha, hf]
    simp [Fields.vh, Fields.tok, tokOf_encTok .v _ h1, tokOf_encTok .v _ h2]

/-- `vqblk`. -/
theorem word_vqblk (h : VHead) (d : Fin 64) (a : VP) (rm : Rm) (fmt : BitVec 32) (hw : (Instr.vqblk h d a rm fmt).wf .v = true) : WordTrips .v (.vqblk h d a rm fmt) := by
  obtain ⟨⟨k, n'⟩, tp, ts⟩ := h
  obtain ⟨h1, h2⟩ := Tok.ne_of_wf (show Tok.wf .v ⟨tp, ts⟩ = true from hw)
  have hm : encRm rm ≤ 5 ∧ encRm rm < 8 := ⟨encRm_le rm, by have := encRm_le rm; omega⟩
  refine trip rfl rfl ?_ rfl rfl ?_ ?_ ?_ ?_ ?_ ?_ <;> simp [Fields.Fits, Fields.vh, Fields.tok, tokOf_encTok .v _ h1, tokOf_encTok .v _ h2, hm]

/-- `vdqblk`. -/
theorem word_vdqblk (h : VHead) (d : VDst) (a : VSrc) (rm : Rm) (fmt : BitVec 32) (hw : (Instr.vdqblk h d a rm fmt).wf .v = true) : WordTrips .v (.vdqblk h d a rm fmt) := by
  have hm := encRm_le rm
  have hp := Bool.and_eq_true_iff.mp (show (h.tok.wf .v && (match a.imm? with
    | some i => decide (i = fmt)
    | none => true)) = true from hw)
  have ha : ∀ i, a.imm? = some i → fmt.toNat = i.toNat := by
    intro i hi
    have hq := hp.2
    rw [hi] at hq
    rw [of_decide_eq_true hq]
  obtain ⟨⟨k, n'⟩, tp, ts⟩ := h
  obtain ⟨h1, h2⟩ := Tok.ne_of_wf (show Tok.wf .v ⟨tp, ts⟩ = true from hp.1)
  refine trip rfl rfl (by simp [Fields.Fits]; omega) rfl rfl rfl (by simp) (nofun) (by simp [hm]) rfl ?_
  simp [Fields.vh, Fields.tok, tokOf_encTok .v _ h1, tokOf_encTok .v _ h2, vsrcOf_encVSrc a _ ha]

/-- `vperm`. -/
theorem word_vperm (h : VHead) (d : VDst) (a b : VP) (hw : (Instr.vperm h d a b).wf .v = true) : WordTrips .v (.vperm h d a b) := by
  obtain ⟨⟨k, n'⟩, tp, ts⟩ := h
  obtain ⟨h1, h2⟩ := Tok.ne_of_wf (show Tok.wf .v ⟨tp, ts⟩ = true from hw)
  refine trip rfl rfl ?_ rfl rfl ?_ ?_ ?_ ?_ ?_ ?_ <;> simp [Fields.Fits, Fields.vh, Fields.tok, tokOf_encTok .v _ h1, tokOf_encTok .v _ h2]

/-- `vbcst`. -/
theorem word_vbcst (h : VHead) (d : VDst) (a : VP) (n : Fin 32) (hw : (Instr.vbcst h d a n).wf .v = true) : WordTrips .v (.vbcst h d a n) := by
  obtain ⟨⟨k, n'⟩, tp, ts⟩ := h
  obtain ⟨h1, h2⟩ := Tok.ne_of_wf (show Tok.wf .v ⟨tp, ts⟩ = true from hw)
  refine trip rfl rfl ?_ rfl rfl ?_ ?_ ?_ ?_ ?_ ?_ <;> simp [Fields.Fits, Fields.vh, Fields.tok, tokOf_encTok .v _ h1, tokOf_encTok .v _ h2]

/-- `vslide`. -/
theorem word_vslide (h : VHead) (d : VDst) (a b : VP) (n : Fin 32) (hw : (Instr.vslide h d a b n).wf .v = true) : WordTrips .v (.vslide h d a b n) := by
  obtain ⟨⟨k, n'⟩, tp, ts⟩ := h
  obtain ⟨h1, h2⟩ := Tok.ne_of_wf (show Tok.wf .v ⟨tp, ts⟩ = true from hw)
  refine trip rfl rfl ?_ rfl rfl ?_ ?_ ?_ ?_ ?_ ?_ <;> simp [Fields.Fits, Fields.vh, Fields.tok, tokOf_encTok .v _ h1, tokOf_encTok .v _ h2]

/-- `vldi`. -/
theorem word_vldi (h : VHead) (d : VDst) (base : BitVec 32) (step : Fin 32) (hw : (Instr.vldi h d base step).wf .v = true) : WordTrips .v (.vldi h d base step) := by
  obtain ⟨⟨k, n'⟩, tp, ts⟩ := h
  obtain ⟨h1, h2⟩ := Tok.ne_of_wf (show Tok.wf .v ⟨tp, ts⟩ = true from hw)
  refine trip rfl rfl ?_ rfl rfl ?_ ?_ ?_ ?_ ?_ ?_ <;> simp [Fields.Fits, Fields.vh, Fields.tok, tokOf_encTok .v _ h1, tokOf_encTok .v _ h2]

/-- `vmov`. -/
theorem word_vmov (h : VHead) (d : VDst) (a : VSrc) (hw : (Instr.vmov h d a).wf .v = true) : WordTrips .v (.vmov h d a) := by
  obtain ⟨⟨k, n'⟩, tp, ts⟩ := h
  obtain ⟨h1, h2⟩ := Tok.ne_of_wf (show Tok.wf .v ⟨tp, ts⟩ = true from hw)
  refine trip rfl rfl ?_ rfl rfl ?_ ?_ ?_ ?_ ?_ ?_ <;> simp [Fields.Fits, rdVmov, Fields.vh, Fields.tok, tokOf_encTok .v _ h1, tokOf_encTok .v _ h2]

/-- `vmovK`. -/
theorem word_vmovK (h : VHead) (d a : Fin 64) (hw : (Instr.vmovK h d a).wf .v = true) : WordTrips .v (.vmovK h d a) := by
  obtain ⟨⟨k, n'⟩, tp, ts⟩ := h
  obtain ⟨h1, h2⟩ := Tok.ne_of_wf (show Tok.wf .v ⟨tp, ts⟩ = true from hw)
  refine trip rfl rfl ?_ rfl rfl ?_ ?_ ?_ ?_ ?_ ?_ <;> simp [Fields.Fits, rdVmov, Fields.vh, Fields.tok, tokOf_encTok .v _ h1, tokOf_encTok .v _ h2]

/-- `vmovToCsr`. -/
theorem word_vmovToCsr (h : VHead) (csr : Fin 4) (a : VSI) (hw : (Instr.vmovToCsr h csr a).wf .v = true) : WordTrips .v (.vmovToCsr h csr a) := by
  obtain ⟨⟨k, n'⟩, tp, ts⟩ := h
  obtain ⟨h1, h2⟩ := Tok.ne_of_wf (show Tok.wf .v ⟨tp, ts⟩ = true from hw)
  have hc : csr.val < 256 ∧ csr.val ≤ 3 := by omega
  refine trip rfl rfl ?_ rfl rfl ?_ ?_ ?_ ?_ ?_ ?_ <;> simp [Fields.Fits, rdVmov, Fields.vh, Fields.tok, tokOf_encTok .v _ h1, tokOf_encTok .v _ h2, hc]

/-- `vmovFromCsr`. -/
theorem word_vmovFromCsr (h : VHead) (d : Fin 64) (csr : Fin 16) (hw : (Instr.vmovFromCsr h d csr).wf .v = true) : WordTrips .v (.vmovFromCsr h d csr) := by
  obtain ⟨⟨k, n'⟩, tp, ts⟩ := h
  obtain ⟨h1, h2⟩ := Tok.ne_of_wf (show Tok.wf .v ⟨tp, ts⟩ = true from hw)
  have hc : csr.val < 256 ∧ csr.val ≤ 15 := by omega
  refine trip rfl rfl ?_ rfl rfl ?_ ?_ ?_ ?_ ?_ ?_ <;> simp [Fields.Fits, rdVmov, Fields.vh, Fields.tok, tokOf_encTok .v _ h1, tokOf_encTok .v _ h2, hc]

/-- `vmovMaskToV`. -/
theorem word_vmovMaskToV (h : VHead) (d : VDst) (a : Fin 64) (hw : (Instr.vmovMaskToV h d a).wf .v = true) : WordTrips .v (.vmovMaskToV h d a) := by
  obtain ⟨⟨k, n'⟩, tp, ts⟩ := h
  obtain ⟨h1, h2⟩ := Tok.ne_of_wf (show Tok.wf .v ⟨tp, ts⟩ = true from hw)
  refine trip rfl rfl ?_ rfl rfl ?_ ?_ ?_ ?_ ?_ ?_ <;> simp [Fields.Fits, rdVmov, Fields.vh, Fields.tok, tokOf_encTok .v _ h1, tokOf_encTok .v _ h2]

/-- `vmovVToMask`. -/
theorem word_vmovVToMask (h : VHead) (d : Fin 64) (a : VSrc) (hw : (Instr.vmovVToMask h d a).wf .v = true) : WordTrips .v (.vmovVToMask h d a) := by
  obtain ⟨⟨k, n'⟩, tp, ts⟩ := h
  obtain ⟨h1, h2⟩ := Tok.ne_of_wf (show Tok.wf .v ⟨tp, ts⟩ = true from hw)
  refine trip rfl rfl ?_ rfl rfl ?_ ?_ ?_ ?_ ?_ ?_ <;> simp [Fields.Fits, rdVmov, Fields.vh, Fields.tok, tokOf_encTok .v _ h1, tokOf_encTok .v _ h2]

/-- `vpset`. -/
theorem word_vpset (o : PortOp) (a : Fin 64) (hw : (Instr.vpset o a).wf .v = true) : WordTrips .v (.vpset o a) := by
  obtain ⟨⟨tp, ts⟩, port⟩ := o
  obtain ⟨h1, h2⟩ := Tok.ne_of_wf (show Tok.wf .v ⟨tp, ts⟩ = true from hw)
  have hc : port.val < 32 := by omega
  refine trip rfl rfl ?_ rfl rfl ?_ ?_ ?_ ?_ ?_ ?_ <;> simp [Fields.Fits, rdPort, encPort, Fields.vh, Fields.tok, tokOf_encTok .v _ h1, tokOf_encTok .v _ h2, hc]

/-- `vprst`. -/
theorem word_vprst (o : PortOp) (hw : (Instr.vprst o).wf .v = true) : WordTrips .v (.vprst o) := by
  obtain ⟨⟨tp, ts⟩, port⟩ := o
  obtain ⟨h1, h2⟩ := Tok.ne_of_wf (show Tok.wf .v ⟨tp, ts⟩ = true from hw)
  have hc : port.val < 32 := by omega
  refine trip rfl rfl ?_ rfl rfl ?_ ?_ ?_ ?_ ?_ ?_ <;> simp [Fields.Fits, rdPort, encPort, Fields.vh, Fields.tok, tokOf_encTok .v _ h1, tokOf_encTok .v _ h2, hc]

/-- `vpsync`. -/
theorem word_vpsync (o : PortOp) (hw : (Instr.vpsync o).wf .v = true) : WordTrips .v (.vpsync o) := by
  obtain ⟨⟨tp, ts⟩, port⟩ := o
  obtain ⟨h1, h2⟩ := Tok.ne_of_wf (show Tok.wf .v ⟨tp, ts⟩ = true from hw)
  have hc : port.val < 32 := by omega
  refine trip rfl rfl ?_ rfl rfl ?_ ?_ ?_ ?_ ?_ ?_ <;> simp [Fields.Fits, rdPort, encPort, Fields.vh, Fields.tok, tokOf_encTok .v _ h1, tokOf_encTok .v _ h2, hc]

/-- `vacrd`. -/
theorem word_vacrd (h : VHead) (d : Fin 64) (sel : VSI) (drain : Bool) (hw : (Instr.vacrd h d sel drain).wf .v = true) : WordTrips .v (.vacrd h d sel drain) := by
  obtain ⟨⟨k, n'⟩, tp, ts⟩ := h
  obtain ⟨h1, h2⟩ := Tok.ne_of_wf (show Tok.wf .v ⟨tp, ts⟩ = true from hw)
  have hb : encB drain < 32 ∧ encB drain ≤ 1 := by cases drain <;> decide
  refine trip rfl rfl ?_ rfl rfl ?_ ?_ ?_ ?_ ?_ ?_ <;> simp [Fields.Fits, Fields.vh, Fields.tok, tokOf_encTok .v _ h1, tokOf_encTok .v _ h2, hb]

/-- `vacwr`. -/
theorem word_vacwr (h : VHead) (a : VP) (sel : VSI) (add : Bool) (hw : (Instr.vacwr h a sel add).wf .v = true) : WordTrips .v (.vacwr h a sel add) := by
  obtain ⟨⟨k, n'⟩, tp, ts⟩ := h
  obtain ⟨h1, h2⟩ := Tok.ne_of_wf (show Tok.wf .v ⟨tp, ts⟩ = true from hw)
  have hb : encB add < 32 ∧ encB add ≤ 1 := by cases add <;> decide
  refine trip rfl rfl ?_ rfl rfl ?_ ?_ ?_ ?_ ?_ ?_ <;> simp [Fields.Fits, Fields.vh, Fields.tok, tokOf_encTok .v _ h1, tokOf_encTok .v _ h2, hb]

/-- `vtwin`. -/
theorem word_vtwin (h : VHead) (d : Fin 64) (a b : VP) (c : VSrc) (kind : TcKind) (hw : (Instr.vtwin h d a b c kind).wf .v = true) : WordTrips .v (.vtwin h d a b c kind) := by
  obtain ⟨⟨k, n'⟩, tp, ts⟩ := h
  obtain ⟨h1, h2⟩ := Tok.ne_of_wf (show Tok.wf .v ⟨tp, ts⟩ = true from hw)
  cases kind <;> first
    | exact (Bool.false_ne_true hw).elim
    | (refine trip rfl rfl ?_ rfl rfl ?_ ?_ ?_ ?_ ?_ ?_ <;> simp [Fields.Fits, encTc, Fields.vh, Fields.tok, tokOf_encTok .v _ h1, tokOf_encTok .v _ h2])

/-- `vtcw`. -/
theorem word_vtcw (h : VHead) (d : VDst) (a : VSrc) (hw : (Instr.vtcw h d a).wf .v = true) : WordTrips .v (.vtcw h d a) := by
  obtain ⟨⟨k, n'⟩, tp, ts⟩ := h
  obtain ⟨h1, h2⟩ := Tok.ne_of_wf (show Tok.wf .v ⟨tp, ts⟩ = true from hw)
  refine trip rfl rfl ?_ rfl rfl ?_ ?_ ?_ ?_ ?_ ?_ <;> simp [Fields.Fits, Fields.vh, Fields.tok, tokOf_encTok .v _ h1, tokOf_encTok .v _ h2]

/-- `vloop`. -/
theorem word_vloop (tok : Tok) (target : BitVec 12) (hw : (Instr.vloop tok target).wf .v = true) : WordTrips .v (.vloop tok target) := by
  obtain ⟨tp, ts⟩ := tok
  obtain ⟨h1, h2⟩ := Tok.ne_of_wf (show Tok.wf .v ⟨tp, ts⟩ = true from hw)
  have hb : target.toNat < 4294967296 ∧ target.toNat < 4096 := by have := target.isLt; omega
  refine trip rfl rfl ?_ rfl rfl ?_ ?_ ?_ ?_ ?_ ?_ <;> simp [Fields.Fits, Fields.vh, Fields.tok, tokOf_encTok .v _ h1, tokOf_encTok .v _ h2, hb]

/-- `vbr`. -/
theorem word_vbr (h : VHead) (all : Bool) (target : BitVec 12) (hw : (Instr.vbr h all target).wf .v = true) : WordTrips .v (.vbr h all target) := by
  obtain ⟨⟨k, n'⟩, tp, ts⟩ := h
  obtain ⟨h1, h2⟩ := Tok.ne_of_wf (show Tok.wf .v ⟨tp, ts⟩ = true from hw)
  have hb : target.toNat < 4294967296 ∧ target.toNat < 4096 := by have := target.isLt; omega
  have hc : encB all < 32 ∧ encB all ≤ 1 := by cases all <;> decide
  refine trip rfl rfl ?_ rfl rfl ?_ ?_ ?_ ?_ ?_ ?_ <;> simp [Fields.Fits, Fields.vh, Fields.tok, tokOf_encTok .v _ h1, tokOf_encTok .v _ h2, hb, hc]

/-- `vend`. -/
theorem word_vend (tok : Tok) (hw : (Instr.vend tok).wf .v = true) : WordTrips .v (.vend tok) := by
  obtain ⟨tp, ts⟩ := tok
  obtain ⟨h1, h2⟩ := Tok.ne_of_wf (show Tok.wf .v ⟨tp, ts⟩ = true from hw)
  refine trip rfl rfl ?_ rfl rfl ?_ ?_ ?_ ?_ ?_ ?_ <;> simp [Fields.Fits, rdVbare, Fields.vh, Fields.tok, tokOf_encTok .v _ h1, tokOf_encTok .v _ h2]

/-- `vnop`. -/
theorem word_vnop (tok : Tok) (hw : (Instr.vnop tok).wf .v = true) : WordTrips .v (.vnop tok) := by
  obtain ⟨tp, ts⟩ := tok
  obtain ⟨h1, h2⟩ := Tok.ne_of_wf (show Tok.wf .v ⟨tp, ts⟩ = true from hw)
  refine trip rfl rfl ?_ rfl rfl ?_ ?_ ?_ ?_ ?_ ?_ <;> simp [Fields.Fits, rdVbare, Fields.vh, Fields.tok, tokOf_encTok .v _ h1, tokOf_encTok .v _ h2]

/-- `cnop`. -/
theorem word_cnop (st : Stream) (e : Eng) (he : st.ls? = some e) (tok : Tok) (timed : Option (BitVec 32)) (hw : (Instr.cnop tok timed).wf st = true) :
    WordTrips st (.cnop tok timed) := by
  obtain ⟨tp, ts⟩ := tok
  cases st <;> cases he <;>
      (obtain ⟨h1, h2⟩ := Tok.ne_of_wf (show Tok.wf _ ⟨tp, ts⟩ = true from hw)
       cases timed <;> refine trip rfl rfl ?_ rfl rfl ?_ rfl nofun ?_ rfl ?_ <;>
         simp [Fields.Fits, Fields.tok, encTimed, encTime, Fields.timed, tokOf_encTok _ _ h1, tokOf_encTok _ _ h2, Stream.ls?])

/-- `cpy`. -/
theorem word_cpy (st : Stream) (e : Eng) (he : st.ls? = some e) (o : ElemOp) (hw : (Instr.cpy o).wf st = true) :
    WordTrips st (.cpy o) := by
  cases st <;> cases he <;>
    (exact trip_elem rfl o 0x01 1 true true .cpy hw (by decide) (by decide) (by decide) rfl rfl)

/-- `cpyt`. -/
theorem word_cpyt (st : Stream) (e : Eng) (he : st.ls? = some e) (o : ElemOp) (d : BitVec 32) (hw : (Instr.cpyt o d).wf st = true) :
    WordTrips st (.cpyt o d) := by
  have key : ∀ e, o.wf e true false = true → ∃ f, f = { encElem e 0x02 0 o with imm := d.toNat } ∧ f.Fits ∧
      f.d < 0xC0 ∧ f.elem e none = o ∧ f.fn = 0 ∧ BitVec.ofNat 32 f.imm = d := by
    intro e hw
    have hp := Bool.and_eq_true_iff.mp (show ((o.tok.wf e && (true || o.rm == .rne)) && (false || o.timed == none)) =
      true from hw)
    have ht : o.timed = none := by simpa using hp.2
    obtain ⟨⟨g1, g2, g3, g4, g5, g6, g7, g8, g9, g10, g11, g12, g13, -⟩, h2, h3, -, -, -⟩ :=
      elem_enc e 0x02 0 o (Bool.and_eq_true_iff.mp hp.1).1 (by decide) (by decide)
    have hz : (encElem e 0x02 0 o).timed = none := by simp [Fields.timed, encElem, encTimed, ht]
    rw [hz] at h2
    exact ⟨_, rfl, ⟨g1, g2, g3, g4, g5, g6, g7, g8, g9, g10, g11, g12, g13, d.isLt⟩, h3, h2,
      by simp [encElem, encTimed, ht], by simp⟩
  cases st <;> cases he <;>
    (obtain ⟨f, hf, h1, h2, h3, h4, h5⟩ := key _ hw
     subst hf
     refine trip rfl rfl h1 rfl rfl rfl (decide_eq_true h2) nofun ?_ rfl
       (congr (congrArg Instr.cpyt h3) h5)
     exact Bool.and_eq_true_iff.mpr ⟨beq_iff_eq.mpr h4, decide_eq_true (encRm_le o.rm)⟩)

/-- `cpyr`. -/
theorem word_cpyr (st : Stream) (e : Eng) (he : st.ls? = some e) (o : ElemOp) (hw : (Instr.cpyr o).wf st = true) :
    WordTrips st (.cpyr o) := by
  cases st <;> cases he <;>
    (exact trip_elem rfl o 0x03 1 true true .cpyr hw (by decide) (by decide) (by decide) rfl rfl)

/-- `cfill`. -/
theorem word_cfill (st : Stream) (e : Eng) (he : st.ls? = some e) (o : ElemOp) (hw : (Instr.cfill o).wf st = true) :
    WordTrips st (.cfill o) := by
  cases st <;> cases he <;>
    (exact trip_elem rfl o 0x04 1 false true .cfill hw (by decide) (by decide) (by decide) rfl rfl)

/-- `cgath`. -/
theorem word_cgath (st : Stream) (e : Eng) (he : st.ls? = some e) (o : ElemOp) (hw : (Instr.cgath o).wf st = true) :
    WordTrips st (.cgath o) := by
  cases st <;> cases he <;>
    (exact trip_elem rfl o 0x05 1 true true .cgath hw (by decide) (by decide) (by decide) rfl rfl)

/-- `cscat`. -/
theorem word_cscat (st : Stream) (e : Eng) (he : st.ls? = some e) (o : ElemOp) (hw : (Instr.cscat o).wf st = true) :
    WordTrips st (.cscat o) := by
  cases st <;> cases he <;>
    (exact trip_elem rfl o 0x06 1 true true .cscat hw (by decide) (by decide) (by decide) rfl rfl)

/-- `csg`. -/
theorem word_csg (st : Stream) (e : Eng) (he : st.ls? = some e) (o : ElemOp) (hw : (Instr.csg o).wf st = true) :
    WordTrips st (.csg o) := by
  cases st <;> cases he <;>
    (exact trip_elem rfl o 0x08 1 true true .csg hw (by decide) (by decide) (by decide) rfl rfl)

/-- `cseal`. -/
theorem word_cseal (st : Stream) (e : Eng) (he : st.ls? = some e) (o : ElemOp) (hw : (Instr.cseal o).wf st = true) :
    WordTrips st (.cseal o) := by
  cases st <;> cases he <;>
    (exact trip_elem rfl o 0x09 1 true true .cseal hw (by decide) (by decide) (by decide) rfl rfl)

/-- `copld`. -/
theorem word_copld (o : ElemOp) (fin : Bool) (hw : (Instr.copld o fin).wf .l = true) : WordTrips .l (.copld o fin) := by
  cases fin <;>
    refine trip_only o 0x10 _ 2 false _ _ hw (by decide) (by decide) (by decide) rfl ?_ rfl <;>
    (cases ht : o.timed <;> simp [encElem, encTimed, encB, ht])

/-- `covl`. -/
theorem word_covl (o : ElemOp) (hw : (Instr.covl o).wf .l = true) : WordTrips .l (.covl o) := trip_only o 0x11 0 1 false .covl _ hw (by decide) (by decide) (by decide) rfl rfl rfl

/-- `cwtx`. -/
theorem word_cwtx (o : ElemOp) (hw : (Instr.cwtx o).wf .l = true) : WordTrips .l (.cwtx o) := trip_only o 0x12 0 1 true .cwtx _ hw (by decide) (by decide) (by decide) rfl rfl rfl

/-- `ctce`. -/
theorem word_ctce (st : Stream) (e : Eng) (he : st.ls? = some e) (o : ElemOp) (hw : (Instr.ctce o).wf st = true) :
    WordTrips st (.ctce o) := by
  cases st <;> cases he <;>
    (exact trip_elem rfl o 0x13 1 false true .ctce hw (by decide) (by decide) (by decide) rfl rfl)

/-- `csig`. -/
theorem word_csig (st : Stream) (e : Eng) (he : st.ls? = some e) (o : CSigOp) (hw : (Instr.csig o).wf st = true) :
    WordTrips st (.csig o) := by
  cases st <;> cases he <;>
    (exact trip_csig rfl o 0x20 [.rlx, .rel] .csig hw (by decide) rfl rfl)

/-- `cwaitSignal`. -/
theorem word_cwaitSignal (st : Stream) (e : Eng) (he : st.ls? = some e) (o : CSigOp) (hw : (Instr.cwaitSignal o).wf st = true) :
    WordTrips st (.cwaitSignal o) := by
  cases st <;> cases he <;>
    (exact trip_csig rfl o 0x21 [.rlx, .acq] .cwaitSignal hw (by decide) rfl rfl)

/-- `cwaitTime`. -/
theorem word_cwaitTime (st : Stream) (e : Eng) (he : st.ls? = some e) (tok : Tok) (t : BitVec 32) (hw : (Instr.cwaitTime tok t).wf st = true) :
    WordTrips st (.cwaitTime tok t) := by
  cases st <;> cases he <;>
    (obtain ⟨tp, ts⟩ := tok
     obtain ⟨h1, h2⟩ := Tok.ne_of_wf (show Tok.wf _ ⟨tp, ts⟩ = true from hw)
     refine trip rfl rfl ?_ rfl rfl ?_ rfl nofun ?_ rfl ?_ <;>
       simp [Fields.Fits, Fields.tok, tokOf_encTok _ _ h1, tokOf_encTok _ _ h2, Stream.ls?])

/-- `cprb`. -/
theorem word_cprb (st : Stream) (e : Eng) (he : st.ls? = some e) (o : ElemOp) (hw : (Instr.cprb o).wf st = true) :
    WordTrips st (.cprb o) := by
  cases st <;> cases he <;>
    (exact trip_elem rfl o 0x22 1 false false .cprb hw (by decide) (by decide) (by decide) rfl rfl)

/-- `cend`. -/
theorem word_cend (st : Stream) (e : Eng) (he : st.ls? = some e) (tok : Tok) (hw : (Instr.cend tok).wf st = true) :
    WordTrips st (.cend tok) := by
  cases st <;> cases he <;>
    (obtain ⟨tp, ts⟩ := tok
     obtain ⟨h1, h2⟩ := Tok.ne_of_wf (show Tok.wf _ ⟨tp, ts⟩ = true from hw)
     refine trip rfl rfl ?_ rfl rfl ?_ rfl nofun ?_ rfl ?_ <;>
       simp [Fields.Fits, Fields.tok, tokOf_encTok _ _ h1, tokOf_encTok _ _ h2, Stream.ls?])

/-- `msetrow`. -/
theorem word_msetrow (tok : Tok) (lo hi : Byte) (hw : (Instr.msetrow tok lo hi).wf .m = true) : WordTrips .m (.msetrow tok lo hi) := by
  obtain ⟨tp, ts⟩ := tok
  have hp := Bool.and_eq_true_iff.mp (show ((Tok.wf .m ⟨tp, ts⟩ && decide (lo.toNat ≤ hi.toNat)) &&
    decide (hi.toNat ≤ 128)) = true from hw)
  have hq := Bool.and_eq_true_iff.mp hp.1
  obtain ⟨h1, h2⟩ := Tok.ne_of_wf hq.1
  have ha := of_decide_eq_true hq.2
  have hb := of_decide_eq_true hp.2
  have hl := lo.isLt
  obtain ⟨m, hm, m1, m2, ml⟩ : ∃ m, m = lo.toNat + 256 * hi.toNat ∧ m % 256 = lo.toNat ∧ m / 256 = hi.toNat ∧ m < 65536 :=
    ⟨_, rfl, by omega⟩
  have hx : BitVec.ofNat 8 m = lo := BitVec.eq_of_toNat_eq (by rw [BitVec.toNat_ofNat]; omega)
  have hy : hi.toNat % 256 = hi.toNat := by omega
  refine trip rfl rfl ?_ rfl rfl ?_ rfl nofun ?_ rfl ?_
  · simp [Fields.Fits, ← hm]; omega
  · simp [rdMset, ← hm]; exact ml
  · simp only [rdMset, Fields.withTok_eq, ← hm, m1, m2, hy]; simp [ha, hb]
  · simp [rdMset, ← hm, hx, m2, Fields.tok, tokOf_encTok .m _ h1, tokOf_encTok .m _ h2]

/-- `msetrowPart`. -/
theorem word_msetrowPart (tok : Tok) (q : Fin 4) (b : BitVec 32) (hw : (Instr.msetrowPart tok q b).wf .m = true) : WordTrips .m (.msetrowPart tok q b) := by
  obtain ⟨tp, ts⟩ := tok
  obtain ⟨h1, h2⟩ := Tok.ne_of_wf (show Tok.wf .m ⟨tp, ts⟩ = true from hw)
  have hc : q.val < 256 ∧ q.val < 4 := by omega
  refine trip rfl rfl ?_ rfl rfl ?_ ?_ ?_ ?_ ?_ ?_ <;> simp [Fields.Fits, rdMset, Fields.tok, tokOf_encTok .m _ h1, tokOf_encTok .m _ h2, hc]

/-- `msetcol`. -/
theorem word_msetcol (tok : Tok) (lo hi : Byte) (hw : (Instr.msetcol tok lo hi).wf .m = true) : WordTrips .m (.msetcol tok lo hi) := by
  obtain ⟨tp, ts⟩ := tok
  have hp := Bool.and_eq_true_iff.mp (show ((Tok.wf .m ⟨tp, ts⟩ && decide (lo.toNat ≤ hi.toNat)) &&
    decide (hi.toNat ≤ 128)) = true from hw)
  have hq := Bool.and_eq_true_iff.mp hp.1
  obtain ⟨h1, h2⟩ := Tok.ne_of_wf hq.1
  have ha := of_decide_eq_true hq.2
  have hb := of_decide_eq_true hp.2
  have hl := lo.isLt
  obtain ⟨m, hm, m1, m2, ml⟩ : ∃ m, m = lo.toNat + 256 * hi.toNat ∧ m % 256 = lo.toNat ∧ m / 256 = hi.toNat ∧ m < 65536 :=
    ⟨_, rfl, by omega⟩
  have hx : BitVec.ofNat 8 m = lo := BitVec.eq_of_toNat_eq (by rw [BitVec.toNat_ofNat]; omega)
  have hy : hi.toNat % 256 = hi.toNat := by omega
  refine trip rfl rfl ?_ rfl rfl ?_ rfl nofun ?_ rfl ?_
  · simp [Fields.Fits, ← hm]; omega
  · simp [rdMset, ← hm]; exact ml
  · simp only [rdMset, Fields.withTok_eq, ← hm, m1, m2, hy]; simp [ha, hb]
  · simp [rdMset, ← hm, hx, m2, Fields.tok, tokOf_encTok .m _ h1, tokOf_encTok .m _ h2]

/-- `msetcolPart`. -/
theorem word_msetcolPart (tok : Tok) (q : Fin 4) (b : BitVec 32) (hw : (Instr.msetcolPart tok q b).wf .m = true) : WordTrips .m (.msetcolPart tok q b) := by
  obtain ⟨tp, ts⟩ := tok
  obtain ⟨h1, h2⟩ := Tok.ne_of_wf (show Tok.wf .m ⟨tp, ts⟩ = true from hw)
  have hc : q.val < 256 ∧ q.val < 4 := by omega
  refine trip rfl rfl ?_ rfl rfl ?_ ?_ ?_ ?_ ?_ ?_ <;> simp [Fields.Fits, rdMset, Fields.tok, tokOf_encTok .m _ h1, tokOf_encTok .m _ h2, hc]

/-- `mfmt`. -/
theorem word_mfmt (tok : Tok) (opb : Bool) (fmt : BitVec 32) (hw : (Instr.mfmt tok opb fmt).wf .m = true) : WordTrips .m (.mfmt tok opb fmt) := by
  obtain ⟨tp, ts⟩ := tok
  obtain ⟨h1, h2⟩ := Tok.ne_of_wf (show Tok.wf .m ⟨tp, ts⟩ = true from hw)
  cases opb <;> first
    | exact (Bool.false_ne_true hw).elim
    | (refine trip rfl rfl ?_ rfl rfl ?_ ?_ ?_ ?_ ?_ ?_ <;> simp [Fields.Fits, encB, Fields.tok, tokOf_encTok .m _ h1, tokOf_encTok .m _ h2])

/-- `mscale`. -/
theorem word_mscale (tok : Tok) (sa sb : Byte) (hw : (Instr.mscale tok sa sb).wf .m = true) : WordTrips .m (.mscale tok sa sb) := by
  obtain ⟨tp, ts⟩ := tok
  obtain ⟨h1, h2⟩ := Tok.ne_of_wf (show Tok.wf .m ⟨tp, ts⟩ = true from hw)
  have hl := sa.isLt
  have hh := sb.isLt
  obtain ⟨m, hm, m1, m2, ml⟩ : ∃ m, m = sa.toNat + 256 * sb.toNat ∧ m % 256 = sa.toNat ∧ m / 256 = sb.toNat ∧ m < 65536 :=
    ⟨_, rfl, by omega⟩
  have hx : BitVec.ofNat 8 m = sa := BitVec.eq_of_toNat_eq (by rw [BitVec.toNat_ofNat]; omega)
  refine trip rfl rfl ?_ rfl rfl ?_ rfl nofun rfl rfl ?_
  · simp [Fields.Fits, ← hm]; omega
  · simp [← hm]; exact ml
  · simp [← hm, hx, m2, Fields.tok, tokOf_encTok .m _ h1, tokOf_encTok .m _ h2]

/-- `mcommit`. -/
theorem word_mcommit (tok : Tok) (hw : (Instr.mcommit tok).wf .m = true) : WordTrips .m (.mcommit tok) := by
  obtain ⟨tp, ts⟩ := tok
  obtain ⟨h1, h2⟩ := Tok.ne_of_wf (show Tok.wf .m ⟨tp, ts⟩ = true from hw)
  refine trip rfl rfl ?_ rfl rfl ?_ ?_ ?_ ?_ ?_ ?_ <;> simp [Fields.Fits, Fields.tok, tokOf_encTok .m _ h1, tokOf_encTok .m _ h2]

/-- `macz`. -/
theorem word_macz (tok : Tok) (bank : Fin 32) (hw : (Instr.macz tok bank).wf .m = true) : WordTrips .m (.macz tok bank) := by
  obtain ⟨tp, ts⟩ := tok
  obtain ⟨h1, h2⟩ := Tok.ne_of_wf (show Tok.wf .m ⟨tp, ts⟩ = true from hw)
  have hb : bank.val < 256 := by omega
  refine trip rfl rfl ?_ rfl rfl ?_ ?_ ?_ ?_ ?_ ?_ <;> simp [Fields.Fits, Fields.tok, tokOf_encTok .m _ h1, tokOf_encTok .m _ h2, hb]

/-- `mtile`. -/
theorem word_mtile (tok : Tok) (bank : Fin 32) (count1 : Fin 4) (hw : (Instr.mtile tok bank count1).wf .m = true) : WordTrips .m (.mtile tok bank count1) := by
  obtain ⟨tp, ts⟩ := tok
  have hp := Bool.and_eq_true_iff.mp (show (Tok.wf .m ⟨tp, ts⟩ && decide (bank.val + count1.val + 1 ≤ 32)) = true from hw)
  obtain ⟨h1, h2⟩ := Tok.ne_of_wf hp.1
  have hb := of_decide_eq_true hp.2
  have hc : bank.val < 256 ∧ count1.val < 4294967296 := by omega
  refine trip rfl rfl ?_ rfl rfl ?_ ?_ nofun ?_ ?_ ?_ <;> simp [Fields.Fits, hc, hb, Fields.tok, tokOf_encTok .m _ h1, tokOf_encTok .m _ h2]

/-- `mend`. -/
theorem word_mend (tok : Tok) (hw : (Instr.mend tok).wf .m = true) : WordTrips .m (.mend tok) := by
  obtain ⟨tp, ts⟩ := tok
  obtain ⟨h1, h2⟩ := Tok.ne_of_wf (show Tok.wf .m ⟨tp, ts⟩ = true from hw)
  refine trip rfl rfl ?_ rfl rfl ?_ ?_ ?_ ?_ ?_ ?_ <;> simp [Fields.Fits, Fields.tok, tokOf_encTok .m _ h1, tokOf_encTok .m _ h2]

/-- `send`. -/
theorem step_send (o : DataStep) (f2 : Fin 4) (hw : (Instr.send o f2).wfStep = true) : StepTrips (.send o f2) := by
  clear hw
  obtain ⟨pm, f1, nel1, k, off⟩ := o
  have l1 := f1.isLt
  have l2 := nel1.isLt
  have l3 := k.isLt
  have l4 := off.isLt
  have lp : encPm pm ≤ 2 := by cases pm <;> decide
  have l5 := f2.isLt
  have hm := encPm_ne pm
  obtain ⟨w, hw⟩ : ∃ w, w = 0 * 2 ^ 60 + encPm pm * 2 ^ 58 + f1.val * 2 ^ 56 + nel1.toNat * 2 ^ 40 + k.toNat * 2 ^ 32 + off.toNat + f2.val * 2 ^ 54 := ⟨_, rfl⟩
  obtain ⟨b1, b2, b3, b5, b6, b8, b9, c1, c2⟩ : bitsOf w 60 4 = 0 ∧ bitsOf w 58 2 = encPm pm ∧ bitsOf w 56 2 = f1.val ∧
      bitsOf w 40 14 = nel1.toNat ∧ bitsOf w 32 8 = k.toNat ∧ w % 2 ^ 20 = off.toNat ∧ w < 2 ^ 64 ∧ bitsOf w 54 2 = f2.val ∧ bitsOf w 20 12 = 0 := by
    simp only [bitsOf, Nat.shiftRight_eq_div_pow]; omega
  have hd := dataStepOf_of ⟨pm, f1, nel1, k, off⟩ w b2 b3 b5 b6 b8
  refine ⟨w, congrArg some hw.symm, b9, ?_⟩
  simp [decodeStep, b1, b2, hm, hd, c1, c2]

/-- `recv`. -/
theorem step_recv (o : DataStep) (hw : (Instr.recv o).wfStep = true) : StepTrips (.recv o) := by
  clear hw
  obtain ⟨pm, f1, nel1, k, off⟩ := o
  have l1 := f1.isLt
  have l2 := nel1.isLt
  have l3 := k.isLt
  have l4 := off.isLt
  have lp : encPm pm ≤ 2 := by cases pm <;> decide
  have hm := encPm_ne pm
  obtain ⟨w, hw⟩ : ∃ w, w = 1 * 2 ^ 60 + encPm pm * 2 ^ 58 + f1.val * 2 ^ 56 + nel1.toNat * 2 ^ 40 + k.toNat * 2 ^ 32 + off.toNat := ⟨_, rfl⟩
  obtain ⟨b1, b2, b3, b5, b6, b8, b9, c1, c2⟩ : bitsOf w 60 4 = 1 ∧ bitsOf w 58 2 = encPm pm ∧ bitsOf w 56 2 = f1.val ∧
      bitsOf w 40 14 = nel1.toNat ∧ bitsOf w 32 8 = k.toNat ∧ w % 2 ^ 20 = off.toNat ∧ w < 2 ^ 64 ∧ bitsOf w 54 2 = 0 ∧ bitsOf w 20 12 = 0 := by
    simp only [bitsOf, Nat.shiftRight_eq_div_pow]; omega
  have hd := dataStepOf_of ⟨pm, f1, nel1, k, off⟩ w b2 b3 b5 b6 b8
  refine ⟨w, congrArg some hw.symm, b9, ?_⟩
  simp [decodeStep, b1, b2, hm, hd, c1, c2]

/-- `copy`. -/
theorem step_copy (f1 f2 : Fin 4) (nel1 : BitVec 14) (doff off : BitVec 20) (hw : (Instr.copy f1 f2 nel1 doff off).wfStep = true) : StepTrips (.copy f1 f2 nel1 doff off) := by
  clear hw
  have l1 := f1.isLt
  have l2 := f2.isLt
  have l3 := nel1.isLt
  have l4 := doff.isLt
  have l5 := off.isLt
  obtain ⟨w, hw⟩ : ∃ w, w = 3 * 2 ^ 60 + f1.val * 2 ^ 56 + f2.val * 2 ^ 54 + nel1.toNat * 2 ^ 40 + doff.toNat * 2 ^ 20 +
    off.toNat := ⟨_, rfl⟩
  obtain ⟨b1, b2, b3, b4, b5, b6, b7, b9⟩ : bitsOf w 60 4 = 3 ∧ bitsOf w 58 2 = 0 ∧ bitsOf w 56 2 = f1.val ∧ bitsOf w 54 2 = f2.val ∧
      bitsOf w 40 14 = nel1.toNat ∧ bitsOf w 20 20 = doff.toNat ∧ w % 2 ^ 20 = off.toNat ∧ w < 2 ^ 64 := by
    simp only [bitsOf, Nat.shiftRight_eq_div_pow]; omega
  have hx : BitVec.ofNat 20 w = off := BitVec.eq_of_toNat_eq (by rw [BitVec.toNat_ofNat]; exact b7)
  refine ⟨w, congrArg some hw.symm, b9, ?_⟩
  simp [decodeStep, b1, b2, b3, b4, b5, b6, hx]

/-- `rrs`. -/
theorem step_rrs (o : DataStep) (f2 f3 : Fin 4) (snd : Bool) (hw : (Instr.rrs o f2 f3 snd).wfStep = true) : StepTrips (.rrs o f2 f3 snd) := by
  clear hw
  obtain ⟨pm, f1, nel1, k, off⟩ := o
  have l1 := f1.isLt
  have l2 := nel1.isLt
  have l3 := k.isLt
  have l4 := off.isLt
  have lp : encPm pm ≤ 2 := by cases pm <;> decide
  have l5 := f2.isLt
  have l6 := f3.isLt
  have l7 := encB_lt snd
  have hm := encPm_ne pm
  obtain ⟨w, hw⟩ : ∃ w, w = 2 * 2 ^ 60 + encPm pm * 2 ^ 58 + f1.val * 2 ^ 56 + nel1.toNat * 2 ^ 40 + k.toNat * 2 ^ 32 + off.toNat + f2.val * 2 ^ 54 + f3.val * 2 ^ 30 + encB snd * 2 ^ 29 := ⟨_, rfl⟩
  obtain ⟨b1, b2, b3, b5, b6, b8, b9, c1, c2, c3, c4⟩ : bitsOf w 60 4 = 2 ∧ bitsOf w 58 2 = encPm pm ∧ bitsOf w 56 2 = f1.val ∧
      bitsOf w 40 14 = nel1.toNat ∧ bitsOf w 32 8 = k.toNat ∧ w % 2 ^ 20 = off.toNat ∧ w < 2 ^ 64 ∧ bitsOf w 54 2 = f2.val ∧ bitsOf w 20 9 = 0 ∧ bitsOf w 30 2 = f3.val ∧ w / 2 ^ 29 % 2 = encB snd := by
    simp only [bitsOf, Nat.shiftRight_eq_div_pow]; omega
  have hd := dataStepOf_of ⟨pm, f1, nel1, k, off⟩ w b2 b3 b5 b6 b8
  refine ⟨w, congrArg some hw.symm, b9, ?_⟩
  simp [decodeStep, b1, b2, hm, hd, c1, c2, c3, bitOf, Nat.testBit_eq_decide_div_mod_eq, show w / 536870912 % 2 = encB snd from c4]
  cases snd <;> rfl

/-- `waitSignalStep`. -/
theorem step_waitSignalStep (sc : Scope) (word : BitVec 17) (val : BitVec 32) (hw : (Instr.waitSignalStep sc word val).wfStep = true) : StepTrips (.waitSignalStep sc word val) := by
  have hs : 2 ≤ encScope sc ∧ encScope sc ≤ 4 := by cases sc <;> first | decide | exact (Bool.false_ne_true hw).elim
  have l1 := word.isLt
  have l2 := val.isLt
  clear hw
  obtain ⟨w, hw⟩ : ∃ w, w = 4 * 2 ^ 60 + encScope sc * 2 ^ 55 + word.toNat * 2 ^ 32 + val.toNat := ⟨_, rfl⟩
  obtain ⟨b1, b2, b3, b4, b5, b7, b9⟩ : bitsOf w 60 4 = 4 ∧ bitsOf w 58 2 = 0 ∧ bitsOf w 55 3 = encScope sc ∧ bitsOf w 49 6 = 0 ∧
      bitsOf w 32 17 = word.toNat ∧ w % 2 ^ 32 = val.toNat ∧ w < 2 ^ 64 := by
    simp only [bitsOf, Nat.shiftRight_eq_div_pow]; omega
  have hx : BitVec.ofNat 32 w = val := BitVec.eq_of_toNat_eq (by rw [BitVec.toNat_ofNat]; exact b7)
  refine ⟨w, congrArg some hw.symm, b9, ?_⟩
  simp [decodeStep, b1, b2, b3, b4, b5, hx, hs]

/-- `waitTimeStep`. -/
theorem step_waitTimeStep (val : BitVec 32) (hw : (Instr.waitTimeStep val).wfStep = true) : StepTrips (.waitTimeStep val) := by
  have l2 := val.isLt
  clear hw
  obtain ⟨w, hw⟩ : ∃ w, w = 4 * 2 ^ 60 + 1 * 2 ^ 58 + val.toNat := ⟨_, rfl⟩
  obtain ⟨b1, b2, b3, b7, b9⟩ : bitsOf w 60 4 = 4 ∧ bitsOf w 58 2 = 1 ∧ bitsOf w 32 26 = 0 ∧ w % 2 ^ 32 = val.toNat ∧ w < 2 ^ 64 := by
    simp only [bitsOf, Nat.shiftRight_eq_div_pow]; omega
  have hx : BitVec.ofNat 32 w = val := BitVec.eq_of_toNat_eq (by rw [BitVec.toNat_ofNat]; exact b7)
  refine ⟨w, congrArg some hw.symm, b9, ?_⟩
  simp [decodeStep, b1, b2, b3, hx]

/-- `waitAfterT0Step`. -/
theorem step_waitAfterT0Step (val : BitVec 32) (hw : (Instr.waitAfterT0Step val).wfStep = true) : StepTrips (.waitAfterT0Step val) := by
  have l2 := val.isLt
  clear hw
  obtain ⟨w, hw⟩ : ∃ w, w = 4 * 2 ^ 60 + 2 * 2 ^ 58 + val.toNat := ⟨_, rfl⟩
  obtain ⟨b1, b2, b3, b7, b9⟩ : bitsOf w 60 4 = 4 ∧ bitsOf w 58 2 = 2 ∧ bitsOf w 32 26 = 0 ∧ w % 2 ^ 32 = val.toNat ∧ w < 2 ^ 64 := by
    simp only [bitsOf, Nat.shiftRight_eq_div_pow]; omega
  have hx : BitVec.ofNat 32 w = val := BitVec.eq_of_toNat_eq (by rw [BitVec.toNat_ofNat]; exact b7)
  refine ⟨w, congrArg some hw.symm, b9, ?_⟩
  simp [decodeStep, b1, b2, b3, hx]

/-- `loop`. -/
theorem step_loop (str : BitVec 20) (cnt1 : BitVec 16) (hw : (Instr.loop str cnt1).wfStep = true) : StepTrips (.loop str cnt1) := by
  clear hw
  have l1 := str.isLt
  have l2 := cnt1.isLt
  obtain ⟨w, hw⟩ : ∃ w, w = 5 * 2 ^ 60 + str.toNat * 2 ^ 20 + cnt1.toNat := ⟨_, rfl⟩
  obtain ⟨b1, b2, b3, b4, b7, b9⟩ : bitsOf w 60 4 = 5 ∧ bitsOf w 40 20 = 0 ∧ bitsOf w 16 4 = 0 ∧ bitsOf w 20 20 = str.toNat ∧ w % 2 ^ 16 = cnt1.toNat ∧ w < 2 ^ 64 := by
    simp only [bitsOf, Nat.shiftRight_eq_div_pow]; omega
  have hx : BitVec.ofNat 16 w = cnt1 := BitVec.eq_of_toNat_eq (by rw [BitVec.toNat_ofNat]; exact b7)
  refine ⟨w, congrArg some hw.symm, b9, ?_⟩
  simp [decodeStep, b1, b2, b3, b4, hx]

/-- `endl`. -/
theorem step_endl (hw : (Instr.endl).wfStep = true) : StepTrips (.endl) := ⟨_, rfl, by decide, rfl⟩

/-- `stepDone`. -/
theorem step_stepDone (hw : (Instr.stepDone).wfStep = true) : StepTrips (.stepDone) := ⟨_, rfl, by decide, rfl⟩

end Sys2Proof
end

