-- ==== Sys2Proof/Laws/Map.lean ====
section
/-! SUPPORT. The laws of the finite maps: reading what was listed, leaving every other key alone, and keeping the
canonical form; and the same for byte memories. -/

namespace Sys2Proof.Machine

open Sys2Proof

variable {α : Type}

/-! ## Reading after a change -/

@[simp] theorem Map.get_nil (k : Nat) (d : α) : Map.get ([] : Map α) k d = d := rfl

/-- Reading the key just listed. -/
@[simp] theorem Map.get_set_same (m : Map α) (k : Nat) (v d : α) : Map.get (Map.set m k v) k d = v := by
  induction m with
  | nil => simp [Map.set, Map.get]
  | cons e m ih =>
    obtain ⟨j, w⟩ := e
    simp only [Map.set]
    split
    · simp [Map.get]
    · split
      · simp [Map.get]
      · rename_i h
        simp [Map.get, h, ih]

/-- Listing one key leaves every other alone. -/
theorem Map.get_set_ne (m : Map α) (k j : Nat) (v d : α) (h : j ≠ k) :
    Map.get (Map.set m k v) j d = Map.get m j d := by
  induction m with
  | nil => simp [Map.set, Map.get, Ne.symm h]
  | cons e m ih =>
    obtain ⟨i, w⟩ := e
    simp only [Map.set]
    split
    · simp [Map.get, Ne.symm h]
    · split
      · rename_i hi
        subst hi
        simp [Map.get, Ne.symm h]
      · simp [Map.get, ih]

/-- Looking up the key just listed. -/
@[simp] theorem Map.find?_set_same (m : Map α) (k : Nat) (v : α) : Map.find? (Map.set m k v) k = some v := by
  induction m with
  | nil => simp [Map.set, Map.find?]
  | cons e m ih =>
    obtain ⟨j, w⟩ := e
    simp only [Map.set]
    split
    · simp [Map.find?]
    · split
      · simp [Map.find?]
      · rename_i h
        simp [Map.find?, h, ih]

/-- Looking up another key. -/
theorem Map.find?_set_ne (m : Map α) (k j : Nat) (v : α) (h : j ≠ k) :
    Map.find? (Map.set m k v) j = Map.find? m j := by
  induction m with
  | nil => simp [Map.set, Map.find?, Ne.symm h]
  | cons e m ih =>
    obtain ⟨i, w⟩ := e
    simp only [Map.set]
    split
    · simp [Map.find?, Ne.symm h]
    · split
      · rename_i hi
        subst hi
        simp [Map.find?, Ne.symm h]
      · simp [Map.find?, ih]

/-- An erased key reads as unlisted. -/
@[simp] theorem Map.get_erase_same (m : Map α) (k : Nat) (d : α) : Map.get (Map.erase m k) k d = d := by
  induction m with
  | nil => rfl
  | cons e m ih =>
    obtain ⟨j, w⟩ := e
    by_cases h : j = k
    · simpa [Map.erase, List.filter, h] using ih
    · simpa [Map.erase, List.filter, h, Map.get] using ih

/-- Erasing one key leaves every other alone. -/
theorem Map.get_erase_ne (m : Map α) (k j : Nat) (d : α) (h : j ≠ k) :
    Map.get (Map.erase m k) j d = Map.get m j d := by
  induction m with
  | nil => rfl
  | cons e m ih =>
    obtain ⟨i, w⟩ := e
    by_cases hi : i = k
    · subst hi
      simpa [Map.erase, List.filter, Map.get, Ne.symm h] using ih
    · by_cases hj : i = j
      · subst hj
        simp [Map.erase, List.filter, hi, Map.get]
      · simpa [Map.erase, List.filter, hi, Map.get, hj] using ih

/-- Reading the key just put. -/
@[simp] theorem Map.get_put_same [DecidableEq α] (m : Map α) (k : Nat) (v d : α) :
    Map.get (Map.put m k v d) k d = v := by
  unfold Map.put
  split
  · rename_i h
    simp [h]
  · simp

/-- Putting one key leaves every other alone. -/
theorem Map.get_put_ne [DecidableEq α] (m : Map α) (k j : Nat) (v d : α) (h : j ≠ k) :
    Map.get (Map.put m k v d) j d = Map.get m j d := by
  unfold Map.put
  split
  · exact Map.get_erase_ne m k j d h
  · exact Map.get_set_ne m k j v d h

/-! ## The canonical form -/

/-- The canonical form as a property of all entries: keys rising pairwise, and no entry at the default. -/
theorem Map.wf_iff [DecidableEq α] (d : α) (m : Map α) :
    Map.wf d m = true ↔ m.Pairwise (fun a b => a.1 < b.1) ∧ ∀ e ∈ m, e.2 ≠ d := by
  induction m with
  | nil => simp [Map.wf]
  | cons e m ih =>
    obtain ⟨j, v⟩ := e
    cases m with
    | nil => simp [Map.wf]
    | cons e m =>
      obtain ⟨k, w⟩ := e
      simp only [Map.wf, Bool.and_eq_true, decide_eq_true_eq, ih, List.pairwise_cons, List.mem_cons,
        forall_eq_or_imp]
      constructor
      · rintro ⟨⟨hv, hjk⟩, ⟨hk, hp⟩, hw, hd⟩
        exact ⟨⟨⟨hjk, fun a ha => Nat.lt_trans hjk (hk a ha)⟩, hk, hp⟩, hv, hw, hd⟩
      · rintro ⟨⟨⟨hjk, -⟩, hk, hp⟩, hv, hw, hd⟩
        exact ⟨⟨hv, hjk⟩, ⟨hk, hp⟩, hw, hd⟩

/-- What a listed map holds was there or is the new entry. -/
theorem Map.mem_set {m : Map α} {k : Nat} {v : α} {e : Nat × α} (h : e ∈ Map.set m k v) : e ∈ m ∨ e = (k, v) := by
  induction m with
  | nil => simpa [Map.set] using h
  | cons f m ih =>
    obtain ⟨j, w⟩ := f
    simp only [Map.set] at h
    split at h
    · rcases List.mem_cons.mp h with h | h
      · exact .inr h
      · exact .inl h
    · split at h
      · rcases List.mem_cons.mp h with h | h
        · exact .inr h
        · exact .inl (List.mem_cons_of_mem _ h)
      · rcases List.mem_cons.mp h with h | h
        · exact .inl (h ▸ List.mem_cons_self)
        · rcases ih h with h | h
          · exact .inl (List.mem_cons_of_mem _ h)
          · exact .inr h

/-- Listing keeps the keys rising. -/
theorem Map.sorted_set {m : Map α} (k : Nat) (v : α) (h : m.Pairwise (fun a b => a.1 < b.1)) :
    (Map.set m k v).Pairwise (fun a b => a.1 < b.1) := by
  induction m with
  | nil => simp [Map.set]
  | cons f m ih =>
    obtain ⟨j, w⟩ := f
    obtain ⟨hj, hm⟩ := List.pairwise_cons.mp h
    simp only [Map.set]
    split
    · rename_i hk
      refine List.pairwise_cons.mpr ⟨fun a ha => ?_, h⟩
      rcases List.mem_cons.mp ha with ha | ha
      · exact ha ▸ hk
      · exact Nat.lt_trans hk (hj a ha)
    · split
      · rename_i hjk
        exact List.pairwise_cons.mpr ⟨fun a ha => hjk ▸ hj a ha, hm⟩
      · rename_i h1 h2
        refine List.pairwise_cons.mpr ⟨fun a ha => ?_, ih hm⟩
        rcases Map.mem_set ha with ha | ha
        · exact hj a ha
        · subst ha
          show j < k
          omega

/-- Listing a value that is not the default keeps the canonical form. -/
theorem Map.wf_set [DecidableEq α] {d v : α} {m : Map α} (k : Nat) (h : Map.wf d m = true) (hv : v ≠ d) :
    Map.wf d (Map.set m k v) = true := by
  rw [Map.wf_iff] at h ⊢
  refine ⟨Map.sorted_set k v h.1, fun e he => ?_⟩
  rcases Map.mem_set he with he | he
  · exact h.2 e he
  · exact he ▸ hv

/-- Erasing keeps the canonical form. -/
theorem Map.wf_erase [DecidableEq α] {d : α} {m : Map α} (k : Nat) (h : Map.wf d m = true) :
    Map.wf d (Map.erase m k) = true := by
  rw [Map.wf_iff] at h ⊢
  exact ⟨h.1.filter _, fun e he => h.2 e (List.mem_filter.mp he).1⟩

/-- Putting keeps the canonical form. -/
theorem Map.wf_put [DecidableEq α] {d : α} {m : Map α} (k : Nat) (v : α) (h : Map.wf d m = true) :
    Map.wf d (Map.put m k v d) = true := by
  unfold Map.put
  split
  · exact Map.wf_erase k h
  · rename_i hv
    exact Map.wf_set k h hv

/-! ## Byte memories -/

/-- The byte just written. -/
@[simp] theorem Memory.get_put_same (m : Memory) (a : Nat) (b : Byte) : (m.put a b).get a = b :=
  Map.get_put_same m a b 0

/-- A byte elsewhere. -/
theorem Memory.get_put_ne (m : Memory) (a c : Nat) (b : Byte) (h : c ≠ a) : (m.put a b).get c = m.get c :=
  Map.get_put_ne m a c b 0 h

/-- One byte written keeps the canonical form. -/
theorem Memory.wf_put {m : Memory} (a : Nat) (b : Byte) (h : m.wf = true) : (m.put a b).wf = true :=
  Map.wf_put a b h

/-- A write leaves every byte outside it alone. -/
theorem Memory.get_write_outside (bs : List Byte) (m : Memory) (a c : Nat) (h : c < a ∨ a + bs.length ≤ c) :
    (m.write a bs).get c = m.get c := by
  induction bs generalizing m a with
  | nil => rfl
  | cons b bs ih =>
    simp only [List.length_cons] at h
    rw [Memory.write, ih _ _ (by omega), Memory.get_put_ne _ _ _ _ (by omega)]

/-- A byte inside a write is the byte written. -/
theorem Memory.get_write_inside (bs : List Byte) (m : Memory) (a i : Nat) (h : i < bs.length) :
    (m.write a bs).get (a + i) = bs[i] := by
  induction bs generalizing m a i with
  | nil => simp at h
  | cons b bs ih =>
    rw [Memory.write]
    cases i with
    | zero => rw [Nat.add_zero, Memory.get_write_outside _ _ _ _ (.inl (by omega))]; simp
    | succ i =>
      have h' : i < bs.length := by simpa using h
      rw [show a + (i + 1) = a + 1 + i by omega, ih _ _ _ h']; simp

/-- A write keeps the canonical form. -/
theorem Memory.wf_write {m : Memory} (bs : List Byte) (a : Nat) (h : m.wf = true) : (m.write a bs).wf = true := by
  induction bs generalizing m a with
  | nil => exact h
  | cons b bs ih => exact ih _ (Memory.wf_put a b h)

/-- Bytes at their own addresses keep the canonical form. -/
theorem Memory.wf_writeAt {m : Memory} (l : List (Nat × Byte)) (h : m.wf = true) : (m.writeAt l).wf = true := by
  induction l generalizing m with
  | nil => exact h
  | cons e l ih => exact ih (Memory.wf_put _ _ h)

/-- Masked bytes keep the canonical form. -/
theorem Memory.wf_writeMasked {m : Memory} (l : List (Nat × Byte × Byte)) (h : m.wf = true) :
    (m.writeMasked l).wf = true := by
  induction l generalizing m with
  | nil => exact h
  | cons e l ih => exact ih (Memory.wf_put _ _ h)

/-- How many bytes a read gives. -/
@[simp] theorem Memory.length_read (m : Memory) (a n : Nat) : (m.read a n).length = n := by
  induction n generalizing a with
  | zero => rfl
  | succ n ih => simp [Memory.read, ih]

/-- A read gives the byte at each address. -/
theorem Memory.getElem_read (m : Memory) (a n i : Nat) (h : i < (m.read a n).length) :
    (m.read a n)[i] = m.get (a + i) := by
  induction n generalizing a i with
  | zero => simp [Memory.read] at h
  | succ n ih =>
    cases i with
    | zero => simp [Memory.read]
    | succ i =>
      have := ih (a + 1) i (by simpa [Memory.read] using h)
      simpa [Memory.read, show a + 1 + i = a + (i + 1) by omega] using this

/-- Reading back the bytes just written. -/
@[simp] theorem Memory.read_write (bs : List Byte) (m : Memory) (a : Nat) : (m.write a bs).read a bs.length = bs := by
  refine List.ext_getElem (by simp) fun i h1 h2 => ?_
  rw [Memory.getElem_read, Memory.get_write_inside _ _ _ _ h2]

/-- A read outside a write is unchanged. -/
theorem Memory.read_write_outside (bs : List Byte) (m : Memory) (a c n : Nat) (h : c + n ≤ a ∨ a + bs.length ≤ c) :
    (m.write a bs).read c n = m.read c n := by
  refine List.ext_getElem (by simp) fun i h1 h2 => ?_
  have hn : i < n := by simpa using h2
  rw [Memory.getElem_read, Memory.getElem_read, Memory.get_write_outside _ _ _ _ (by omega)]

end Sys2Proof.Machine
end

