-- ==== Sys2Proof/Laws/State.lean ====
section
/-! SUPPORT. What each update of the state leaves alone, one lemma per field and update, and what reading back what
was just written gives. -/

namespace Sys2Proof.Machine

open Sys2Proof

/-! ## Fields of the state -/

@[simp] theorem State.setTile_gtime (s : State) (t : TileId) (x : Tile) : (s.setTile t x).gtime = s.gtime := rfl
@[simp] theorem State.setTile_phase (s : State) (t : TileId) (x : Tile) : (s.setTile t x).phase = s.phase := rfl
@[simp] theorem State.setTile_agenda (s : State) (t : TileId) (x : Tile) : (s.setTile t x).agenda = s.agenda := rfl
@[simp] theorem State.setTile_cur (s : State) (t : TileId) (x : Tile) : (s.setTile t x).cur = s.cur := rfl
@[simp] theorem State.setTile_tried (s : State) (t : TileId) (x : Tile) : (s.setTile t x).tried = s.tried := rfl
@[simp] theorem State.setTile_fresh (s : State) (t : TileId) (x : Tile) : (s.setTile t x).fresh = s.fresh := rfl
@[simp] theorem State.setTile_tiles (s : State) (t : TileId) (x : Tile) : (s.setTile t x).tiles = s.tiles.set t.val x := rfl
@[simp] theorem State.setTile_crews (s : State) (t : TileId) (x : Tile) : (s.setTile t x).crews = s.crews := rfl
@[simp] theorem State.setTile_dies (s : State) (t : TileId) (x : Tile) : (s.setTile t x).dies = s.dies := rfl
@[simp] theorem State.setTile_launches (s : State) (t : TileId) (x : Tile) : (s.setTile t x).launches = s.launches := rfl
@[simp] theorem State.setTile_dev (s : State) (t : TileId) (x : Tile) : (s.setTile t x).dev = s.dev := rfl
@[simp] theorem State.setTile_fab (s : State) (t : TileId) (x : Tile) : (s.setTile t x).fab = s.fab := rfl
@[simp] theorem State.setTile_sys (s : State) (t : TileId) (x : Tile) : (s.setTile t x).sys = s.sys := rfl
@[simp] theorem State.modTile_gtime (s : State) (t : TileId) (f : Tile → Tile) : (s.modTile t f).gtime = s.gtime := rfl
@[simp] theorem State.modTile_phase (s : State) (t : TileId) (f : Tile → Tile) : (s.modTile t f).phase = s.phase := rfl
@[simp] theorem State.modTile_agenda (s : State) (t : TileId) (f : Tile → Tile) : (s.modTile t f).agenda = s.agenda := rfl
@[simp] theorem State.modTile_cur (s : State) (t : TileId) (f : Tile → Tile) : (s.modTile t f).cur = s.cur := rfl
@[simp] theorem State.modTile_tried (s : State) (t : TileId) (f : Tile → Tile) : (s.modTile t f).tried = s.tried := rfl
@[simp] theorem State.modTile_fresh (s : State) (t : TileId) (f : Tile → Tile) : (s.modTile t f).fresh = s.fresh := rfl
@[simp] theorem State.modTile_tiles (s : State) (t : TileId) (f : Tile → Tile) : (s.modTile t f).tiles = s.tiles.set t.val (f (s.tile t)) := rfl
@[simp] theorem State.modTile_crews (s : State) (t : TileId) (f : Tile → Tile) : (s.modTile t f).crews = s.crews := rfl
@[simp] theorem State.modTile_dies (s : State) (t : TileId) (f : Tile → Tile) : (s.modTile t f).dies = s.dies := rfl
@[simp] theorem State.modTile_launches (s : State) (t : TileId) (f : Tile → Tile) : (s.modTile t f).launches = s.launches := rfl
@[simp] theorem State.modTile_dev (s : State) (t : TileId) (f : Tile → Tile) : (s.modTile t f).dev = s.dev := rfl
@[simp] theorem State.modTile_fab (s : State) (t : TileId) (f : Tile → Tile) : (s.modTile t f).fab = s.fab := rfl
@[simp] theorem State.modTile_sys (s : State) (t : TileId) (f : Tile → Tile) : (s.modTile t f).sys = s.sys := rfl
@[simp] theorem State.modCox_gtime (s : State) (t : TileId) (f : Cox → Cox) : (s.modCox t f).gtime = s.gtime := rfl
@[simp] theorem State.modCox_phase (s : State) (t : TileId) (f : Cox → Cox) : (s.modCox t f).phase = s.phase := rfl
@[simp] theorem State.modCox_agenda (s : State) (t : TileId) (f : Cox → Cox) : (s.modCox t f).agenda = s.agenda := rfl
@[simp] theorem State.modCox_cur (s : State) (t : TileId) (f : Cox → Cox) : (s.modCox t f).cur = s.cur := rfl
@[simp] theorem State.modCox_tried (s : State) (t : TileId) (f : Cox → Cox) : (s.modCox t f).tried = s.tried := rfl
@[simp] theorem State.modCox_fresh (s : State) (t : TileId) (f : Cox → Cox) : (s.modCox t f).fresh = s.fresh := rfl
@[simp] theorem State.modCox_crews (s : State) (t : TileId) (f : Cox → Cox) : (s.modCox t f).crews = s.crews := rfl
@[simp] theorem State.modCox_dies (s : State) (t : TileId) (f : Cox → Cox) : (s.modCox t f).dies = s.dies := rfl
@[simp] theorem State.modCox_launches (s : State) (t : TileId) (f : Cox → Cox) : (s.modCox t f).launches = s.launches := rfl
@[simp] theorem State.modCox_dev (s : State) (t : TileId) (f : Cox → Cox) : (s.modCox t f).dev = s.dev := rfl
@[simp] theorem State.modCox_fab (s : State) (t : TileId) (f : Cox → Cox) : (s.modCox t f).fab = s.fab := rfl
@[simp] theorem State.modCox_sys (s : State) (t : TileId) (f : Cox → Cox) : (s.modCox t f).sys = s.sys := rfl
@[simp] theorem State.modEng_gtime (s : State) (t : TileId) (e : Eng) (f : Engine → Engine) : (s.modEng t e f).gtime = s.gtime := rfl
@[simp] theorem State.modEng_phase (s : State) (t : TileId) (e : Eng) (f : Engine → Engine) : (s.modEng t e f).phase = s.phase := rfl
@[simp] theorem State.modEng_agenda (s : State) (t : TileId) (e : Eng) (f : Engine → Engine) : (s.modEng t e f).agenda = s.agenda := rfl
@[simp] theorem State.modEng_cur (s : State) (t : TileId) (e : Eng) (f : Engine → Engine) : (s.modEng t e f).cur = s.cur := rfl
@[simp] theorem State.modEng_tried (s : State) (t : TileId) (e : Eng) (f : Engine → Engine) : (s.modEng t e f).tried = s.tried := rfl
@[simp] theorem State.modEng_fresh (s : State) (t : TileId) (e : Eng) (f : Engine → Engine) : (s.modEng t e f).fresh = s.fresh := rfl
@[simp] theorem State.modEng_crews (s : State) (t : TileId) (e : Eng) (f : Engine → Engine) : (s.modEng t e f).crews = s.crews := rfl
@[simp] theorem State.modEng_dies (s : State) (t : TileId) (e : Eng) (f : Engine → Engine) : (s.modEng t e f).dies = s.dies := rfl
@[simp] theorem State.modEng_launches (s : State) (t : TileId) (e : Eng) (f : Engine → Engine) : (s.modEng t e f).launches = s.launches := rfl
@[simp] theorem State.modEng_dev (s : State) (t : TileId) (e : Eng) (f : Engine → Engine) : (s.modEng t e f).dev = s.dev := rfl
@[simp] theorem State.modEng_fab (s : State) (t : TileId) (e : Eng) (f : Engine → Engine) : (s.modEng t e f).fab = s.fab := rfl
@[simp] theorem State.modEng_sys (s : State) (t : TileId) (e : Eng) (f : Engine → Engine) : (s.modEng t e f).sys = s.sys := rfl
@[simp] theorem State.modCrew_gtime (s : State) (c : CrewId) (f : Crew → Crew) : (s.modCrew c f).gtime = s.gtime := rfl
@[simp] theorem State.modCrew_phase (s : State) (c : CrewId) (f : Crew → Crew) : (s.modCrew c f).phase = s.phase := rfl
@[simp] theorem State.modCrew_agenda (s : State) (c : CrewId) (f : Crew → Crew) : (s.modCrew c f).agenda = s.agenda := rfl
@[simp] theorem State.modCrew_cur (s : State) (c : CrewId) (f : Crew → Crew) : (s.modCrew c f).cur = s.cur := rfl
@[simp] theorem State.modCrew_tried (s : State) (c : CrewId) (f : Crew → Crew) : (s.modCrew c f).tried = s.tried := rfl
@[simp] theorem State.modCrew_fresh (s : State) (c : CrewId) (f : Crew → Crew) : (s.modCrew c f).fresh = s.fresh := rfl
@[simp] theorem State.modCrew_tiles (s : State) (c : CrewId) (f : Crew → Crew) : (s.modCrew c f).tiles = s.tiles := rfl
@[simp] theorem State.modCrew_crews (s : State) (c : CrewId) (f : Crew → Crew) : (s.modCrew c f).crews = s.crews.set c.val (f (s.crew c)) := rfl
@[simp] theorem State.modCrew_dies (s : State) (c : CrewId) (f : Crew → Crew) : (s.modCrew c f).dies = s.dies := rfl
@[simp] theorem State.modCrew_launches (s : State) (c : CrewId) (f : Crew → Crew) : (s.modCrew c f).launches = s.launches := rfl
@[simp] theorem State.modCrew_dev (s : State) (c : CrewId) (f : Crew → Crew) : (s.modCrew c f).dev = s.dev := rfl
@[simp] theorem State.modCrew_fab (s : State) (c : CrewId) (f : Crew → Crew) : (s.modCrew c f).fab = s.fab := rfl
@[simp] theorem State.modCrew_sys (s : State) (c : CrewId) (f : Crew → Crew) : (s.modCrew c f).sys = s.sys := rfl
@[simp] theorem State.modDie_gtime (s : State) (d : DieId) (f : Die → Die) : (s.modDie d f).gtime = s.gtime := rfl
@[simp] theorem State.modDie_phase (s : State) (d : DieId) (f : Die → Die) : (s.modDie d f).phase = s.phase := rfl
@[simp] theorem State.modDie_agenda (s : State) (d : DieId) (f : Die → Die) : (s.modDie d f).agenda = s.agenda := rfl
@[simp] theorem State.modDie_cur (s : State) (d : DieId) (f : Die → Die) : (s.modDie d f).cur = s.cur := rfl
@[simp] theorem State.modDie_tried (s : State) (d : DieId) (f : Die → Die) : (s.modDie d f).tried = s.tried := rfl
@[simp] theorem State.modDie_fresh (s : State) (d : DieId) (f : Die → Die) : (s.modDie d f).fresh = s.fresh := rfl
@[simp] theorem State.modDie_tiles (s : State) (d : DieId) (f : Die → Die) : (s.modDie d f).tiles = s.tiles := rfl
@[simp] theorem State.modDie_crews (s : State) (d : DieId) (f : Die → Die) : (s.modDie d f).crews = s.crews := rfl
@[simp] theorem State.modDie_dies (s : State) (d : DieId) (f : Die → Die) : (s.modDie d f).dies = s.dies.set d.val (f (s.die d)) := rfl
@[simp] theorem State.modDie_launches (s : State) (d : DieId) (f : Die → Die) : (s.modDie d f).launches = s.launches := rfl
@[simp] theorem State.modDie_dev (s : State) (d : DieId) (f : Die → Die) : (s.modDie d f).dev = s.dev := rfl
@[simp] theorem State.modDie_fab (s : State) (d : DieId) (f : Die → Die) : (s.modDie d f).fab = s.fab := rfl
@[simp] theorem State.modDie_sys (s : State) (d : DieId) (f : Die → Die) : (s.modDie d f).sys = s.sys := rfl
@[simp] theorem State.modDev_gtime (s : State) (f : DevMem → DevMem) : (s.modDev f).gtime = s.gtime := rfl
@[simp] theorem State.modDev_phase (s : State) (f : DevMem → DevMem) : (s.modDev f).phase = s.phase := rfl
@[simp] theorem State.modDev_agenda (s : State) (f : DevMem → DevMem) : (s.modDev f).agenda = s.agenda := rfl
@[simp] theorem State.modDev_cur (s : State) (f : DevMem → DevMem) : (s.modDev f).cur = s.cur := rfl
@[simp] theorem State.modDev_tried (s : State) (f : DevMem → DevMem) : (s.modDev f).tried = s.tried := rfl
@[simp] theorem State.modDev_fresh (s : State) (f : DevMem → DevMem) : (s.modDev f).fresh = s.fresh := rfl
@[simp] theorem State.modDev_tiles (s : State) (f : DevMem → DevMem) : (s.modDev f).tiles = s.tiles := rfl
@[simp] theorem State.modDev_crews (s : State) (f : DevMem → DevMem) : (s.modDev f).crews = s.crews := rfl
@[simp] theorem State.modDev_dies (s : State) (f : DevMem → DevMem) : (s.modDev f).dies = s.dies := rfl
@[simp] theorem State.modDev_launches (s : State) (f : DevMem → DevMem) : (s.modDev f).launches = s.launches := rfl
@[simp] theorem State.modDev_dev (s : State) (f : DevMem → DevMem) : (s.modDev f).dev = f s.dev := rfl
@[simp] theorem State.modDev_fab (s : State) (f : DevMem → DevMem) : (s.modDev f).fab = s.fab := rfl
@[simp] theorem State.modDev_sys (s : State) (f : DevMem → DevMem) : (s.modDev f).sys = s.sys := rfl
@[simp] theorem State.modFab_gtime (s : State) (f : Fabric → Fabric) : (s.modFab f).gtime = s.gtime := rfl
@[simp] theorem State.modFab_phase (s : State) (f : Fabric → Fabric) : (s.modFab f).phase = s.phase := rfl
@[simp] theorem State.modFab_agenda (s : State) (f : Fabric → Fabric) : (s.modFab f).agenda = s.agenda := rfl
@[simp] theorem State.modFab_cur (s : State) (f : Fabric → Fabric) : (s.modFab f).cur = s.cur := rfl
@[simp] theorem State.modFab_tried (s : State) (f : Fabric → Fabric) : (s.modFab f).tried = s.tried := rfl
@[simp] theorem State.modFab_fresh (s : State) (f : Fabric → Fabric) : (s.modFab f).fresh = s.fresh := rfl
@[simp] theorem State.modFab_tiles (s : State) (f : Fabric → Fabric) : (s.modFab f).tiles = s.tiles := rfl
@[simp] theorem State.modFab_crews (s : State) (f : Fabric → Fabric) : (s.modFab f).crews = s.crews := rfl
@[simp] theorem State.modFab_dies (s : State) (f : Fabric → Fabric) : (s.modFab f).dies = s.dies := rfl
@[simp] theorem State.modFab_launches (s : State) (f : Fabric → Fabric) : (s.modFab f).launches = s.launches := rfl
@[simp] theorem State.modFab_dev (s : State) (f : Fabric → Fabric) : (s.modFab f).dev = s.dev := rfl
@[simp] theorem State.modFab_fab (s : State) (f : Fabric → Fabric) : (s.modFab f).fab = f s.fab := rfl
@[simp] theorem State.modFab_sys (s : State) (f : Fabric → Fabric) : (s.modFab f).sys = s.sys := rfl
@[simp] theorem State.modSys_gtime (s : State) (f : Sys → Sys) : (s.modSys f).gtime = s.gtime := rfl
@[simp] theorem State.modSys_phase (s : State) (f : Sys → Sys) : (s.modSys f).phase = s.phase := rfl
@[simp] theorem State.modSys_agenda (s : State) (f : Sys → Sys) : (s.modSys f).agenda = s.agenda := rfl
@[simp] theorem State.modSys_cur (s : State) (f : Sys → Sys) : (s.modSys f).cur = s.cur := rfl
@[simp] theorem State.modSys_tried (s : State) (f : Sys → Sys) : (s.modSys f).tried = s.tried := rfl
@[simp] theorem State.modSys_fresh (s : State) (f : Sys → Sys) : (s.modSys f).fresh = s.fresh := rfl
@[simp] theorem State.modSys_tiles (s : State) (f : Sys → Sys) : (s.modSys f).tiles = s.tiles := rfl
@[simp] theorem State.modSys_crews (s : State) (f : Sys → Sys) : (s.modSys f).crews = s.crews := rfl
@[simp] theorem State.modSys_dies (s : State) (f : Sys → Sys) : (s.modSys f).dies = s.dies := rfl
@[simp] theorem State.modSys_launches (s : State) (f : Sys → Sys) : (s.modSys f).launches = s.launches := rfl
@[simp] theorem State.modSys_dev (s : State) (f : Sys → Sys) : (s.modSys f).dev = s.dev := rfl
@[simp] theorem State.modSys_fab (s : State) (f : Sys → Sys) : (s.modSys f).fab = s.fab := rfl
@[simp] theorem State.modSys_sys (s : State) (f : Sys → Sys) : (s.modSys f).sys = f s.sys := rfl
@[simp] theorem State.modGroup_gtime (s : State) (g : Nat) (f : Group → Group) : (s.modGroup g f).gtime = s.gtime := rfl
@[simp] theorem State.modGroup_phase (s : State) (g : Nat) (f : Group → Group) : (s.modGroup g f).phase = s.phase := rfl
@[simp] theorem State.modGroup_agenda (s : State) (g : Nat) (f : Group → Group) : (s.modGroup g f).agenda = s.agenda := rfl
@[simp] theorem State.modGroup_cur (s : State) (g : Nat) (f : Group → Group) : (s.modGroup g f).cur = s.cur := rfl
@[simp] theorem State.modGroup_tried (s : State) (g : Nat) (f : Group → Group) : (s.modGroup g f).tried = s.tried := rfl
@[simp] theorem State.modGroup_fresh (s : State) (g : Nat) (f : Group → Group) : (s.modGroup g f).fresh = s.fresh := rfl
@[simp] theorem State.modGroup_tiles (s : State) (g : Nat) (f : Group → Group) : (s.modGroup g f).tiles = s.tiles := rfl
@[simp] theorem State.modGroup_crews (s : State) (g : Nat) (f : Group → Group) : (s.modGroup g f).crews = s.crews := rfl
@[simp] theorem State.modGroup_dies (s : State) (g : Nat) (f : Group → Group) : (s.modGroup g f).dies = s.dies := rfl
@[simp] theorem State.modGroup_launches (s : State) (g : Nat) (f : Group → Group) : (s.modGroup g f).launches = s.launches := rfl
@[simp] theorem State.modGroup_dev (s : State) (g : Nat) (f : Group → Group) : (s.modGroup g f).dev = s.dev := rfl
@[simp] theorem State.modGroup_sys (s : State) (g : Nat) (f : Group → Group) : (s.modGroup g f).sys = s.sys := rfl
@[simp] theorem State.setExtent_gtime (s : State) (e : Nat) (x : Extent) : (s.setExtent e x).gtime = s.gtime := rfl
@[simp] theorem State.setExtent_phase (s : State) (e : Nat) (x : Extent) : (s.setExtent e x).phase = s.phase := rfl
@[simp] theorem State.setExtent_agenda (s : State) (e : Nat) (x : Extent) : (s.setExtent e x).agenda = s.agenda := rfl
@[simp] theorem State.setExtent_cur (s : State) (e : Nat) (x : Extent) : (s.setExtent e x).cur = s.cur := rfl
@[simp] theorem State.setExtent_tried (s : State) (e : Nat) (x : Extent) : (s.setExtent e x).tried = s.tried := rfl
@[simp] theorem State.setExtent_fresh (s : State) (e : Nat) (x : Extent) : (s.setExtent e x).fresh = s.fresh := rfl
@[simp] theorem State.setExtent_tiles (s : State) (e : Nat) (x : Extent) : (s.setExtent e x).tiles = s.tiles := rfl
@[simp] theorem State.setExtent_crews (s : State) (e : Nat) (x : Extent) : (s.setExtent e x).crews = s.crews := rfl
@[simp] theorem State.setExtent_dies (s : State) (e : Nat) (x : Extent) : (s.setExtent e x).dies = s.dies := rfl
@[simp] theorem State.setExtent_launches (s : State) (e : Nat) (x : Extent) : (s.setExtent e x).launches = s.launches := rfl
@[simp] theorem State.setExtent_fab (s : State) (e : Nat) (x : Extent) : (s.setExtent e x).fab = s.fab := rfl
@[simp] theorem State.setExtent_sys (s : State) (e : Nat) (x : Extent) : (s.setExtent e x).sys = s.sys := rfl
@[simp] theorem State.modHome_gtime (s : State) (h : Nat) (f : Home → Home) : (s.modHome h f).gtime = s.gtime := rfl
@[simp] theorem State.modHome_phase (s : State) (h : Nat) (f : Home → Home) : (s.modHome h f).phase = s.phase := rfl
@[simp] theorem State.modHome_agenda (s : State) (h : Nat) (f : Home → Home) : (s.modHome h f).agenda = s.agenda := rfl
@[simp] theorem State.modHome_cur (s : State) (h : Nat) (f : Home → Home) : (s.modHome h f).cur = s.cur := rfl
@[simp] theorem State.modHome_tried (s : State) (h : Nat) (f : Home → Home) : (s.modHome h f).tried = s.tried := rfl
@[simp] theorem State.modHome_fresh (s : State) (h : Nat) (f : Home → Home) : (s.modHome h f).fresh = s.fresh := rfl
@[simp] theorem State.modHome_tiles (s : State) (h : Nat) (f : Home → Home) : (s.modHome h f).tiles = s.tiles := rfl
@[simp] theorem State.modHome_crews (s : State) (h : Nat) (f : Home → Home) : (s.modHome h f).crews = s.crews := rfl
@[simp] theorem State.modHome_dies (s : State) (h : Nat) (f : Home → Home) : (s.modHome h f).dies = s.dies := rfl
@[simp] theorem State.modHome_launches (s : State) (h : Nat) (f : Home → Home) : (s.modHome h f).launches = s.launches := rfl
@[simp] theorem State.modHome_fab (s : State) (h : Nat) (f : Home → Home) : (s.modHome h f).fab = s.fab := rfl
@[simp] theorem State.modHome_sys (s : State) (h : Nat) (f : Home → Home) : (s.modHome h f).sys = s.sys := rfl
@[simp] theorem State.modLaunch_gtime (s : State) (i : BitVec 32) (f : Launch → Launch) : (s.modLaunch i f).gtime = s.gtime := rfl
@[simp] theorem State.modLaunch_phase (s : State) (i : BitVec 32) (f : Launch → Launch) : (s.modLaunch i f).phase = s.phase := rfl
@[simp] theorem State.modLaunch_agenda (s : State) (i : BitVec 32) (f : Launch → Launch) : (s.modLaunch i f).agenda = s.agenda := rfl
@[simp] theorem State.modLaunch_cur (s : State) (i : BitVec 32) (f : Launch → Launch) : (s.modLaunch i f).cur = s.cur := rfl
@[simp] theorem State.modLaunch_tried (s : State) (i : BitVec 32) (f : Launch → Launch) : (s.modLaunch i f).tried = s.tried := rfl
@[simp] theorem State.modLaunch_fresh (s : State) (i : BitVec 32) (f : Launch → Launch) : (s.modLaunch i f).fresh = s.fresh := rfl
@[simp] theorem State.modLaunch_tiles (s : State) (i : BitVec 32) (f : Launch → Launch) : (s.modLaunch i f).tiles = s.tiles := rfl
@[simp] theorem State.modLaunch_crews (s : State) (i : BitVec 32) (f : Launch → Launch) : (s.modLaunch i f).crews = s.crews := rfl
@[simp] theorem State.modLaunch_dies (s : State) (i : BitVec 32) (f : Launch → Launch) : (s.modLaunch i f).dies = s.dies := rfl
@[simp] theorem State.modLaunch_dev (s : State) (i : BitVec 32) (f : Launch → Launch) : (s.modLaunch i f).dev = s.dev := rfl
@[simp] theorem State.modLaunch_fab (s : State) (i : BitVec 32) (f : Launch → Launch) : (s.modLaunch i f).fab = s.fab := rfl
@[simp] theorem State.modLaunch_sys (s : State) (i : BitVec 32) (f : Launch → Launch) : (s.modLaunch i f).sys = s.sys := rfl
@[simp] theorem State.tick_gtime (s : State) (n : Nat) : (s.tick n).gtime = s.gtime := rfl
@[simp] theorem State.tick_phase (s : State) (n : Nat) : (s.tick n).phase = s.phase := rfl
@[simp] theorem State.tick_agenda (s : State) (n : Nat) : (s.tick n).agenda = s.agenda := rfl
@[simp] theorem State.tick_cur (s : State) (n : Nat) : (s.tick n).cur = s.cur := rfl
@[simp] theorem State.tick_tried (s : State) (n : Nat) : (s.tick n).tried = s.tried := rfl
@[simp] theorem State.tick_fresh (s : State) (n : Nat) : (s.tick n).fresh = s.fresh + n := rfl
@[simp] theorem State.tick_tiles (s : State) (n : Nat) : (s.tick n).tiles = s.tiles := rfl
@[simp] theorem State.tick_crews (s : State) (n : Nat) : (s.tick n).crews = s.crews := rfl
@[simp] theorem State.tick_dies (s : State) (n : Nat) : (s.tick n).dies = s.dies := rfl
@[simp] theorem State.tick_launches (s : State) (n : Nat) : (s.tick n).launches = s.launches := rfl
@[simp] theorem State.tick_dev (s : State) (n : Nat) : (s.tick n).dev = s.dev := rfl
@[simp] theorem State.tick_fab (s : State) (n : Nat) : (s.tick n).fab = s.fab := rfl
@[simp] theorem State.tick_sys (s : State) (n : Nat) : (s.tick n).sys = s.sys := rfl

/-! ## Updates of a tile through other operations -/

@[simp] theorem State.coxFault_gtime (s : State) (t : TileId) (k : Byte) (i a : Word) : (s.coxFault t k i a).gtime = s.gtime := rfl
@[simp] theorem State.coxFault_phase (s : State) (t : TileId) (k : Byte) (i a : Word) : (s.coxFault t k i a).phase = s.phase := rfl
@[simp] theorem State.coxFault_agenda (s : State) (t : TileId) (k : Byte) (i a : Word) : (s.coxFault t k i a).agenda = s.agenda := rfl
@[simp] theorem State.coxFault_cur (s : State) (t : TileId) (k : Byte) (i a : Word) : (s.coxFault t k i a).cur = s.cur := rfl
@[simp] theorem State.coxFault_tried (s : State) (t : TileId) (k : Byte) (i a : Word) : (s.coxFault t k i a).tried = s.tried := rfl
@[simp] theorem State.coxFault_fresh (s : State) (t : TileId) (k : Byte) (i a : Word) : (s.coxFault t k i a).fresh = s.fresh := rfl
@[simp] theorem State.coxFault_crews (s : State) (t : TileId) (k : Byte) (i a : Word) : (s.coxFault t k i a).crews = s.crews := rfl
@[simp] theorem State.coxFault_dies (s : State) (t : TileId) (k : Byte) (i a : Word) : (s.coxFault t k i a).dies = s.dies := rfl
@[simp] theorem State.coxFault_launches (s : State) (t : TileId) (k : Byte) (i a : Word) : (s.coxFault t k i a).launches = s.launches := rfl
@[simp] theorem State.coxFault_dev (s : State) (t : TileId) (k : Byte) (i a : Word) : (s.coxFault t k i a).dev = s.dev := rfl
@[simp] theorem State.coxFault_fab (s : State) (t : TileId) (k : Byte) (i a : Word) : (s.coxFault t k i a).fab = s.fab := rfl
@[simp] theorem State.coxFault_sys (s : State) (t : TileId) (k : Byte) (i a : Word) : (s.coxFault t k i a).sys = s.sys := rfl
@[simp] theorem State.sendX_gtime (s : State) (d : Fin 64) (v : Word) (l : Nat) : (s.sendX d v l).gtime = s.gtime := rfl
@[simp] theorem State.sendX_phase (s : State) (d : Fin 64) (v : Word) (l : Nat) : (s.sendX d v l).phase = s.phase := rfl
@[simp] theorem State.sendX_agenda (s : State) (d : Fin 64) (v : Word) (l : Nat) : (s.sendX d v l).agenda = s.agenda := rfl
@[simp] theorem State.sendX_cur (s : State) (d : Fin 64) (v : Word) (l : Nat) : (s.sendX d v l).cur = s.cur := rfl
@[simp] theorem State.sendX_tried (s : State) (d : Fin 64) (v : Word) (l : Nat) : (s.sendX d v l).tried = s.tried := rfl
@[simp] theorem State.sendX_fresh (s : State) (d : Fin 64) (v : Word) (l : Nat) : (s.sendX d v l).fresh = s.fresh := rfl
@[simp] theorem State.sendX_crews (s : State) (d : Fin 64) (v : Word) (l : Nat) : (s.sendX d v l).crews = s.crews := rfl
@[simp] theorem State.sendX_dies (s : State) (d : Fin 64) (v : Word) (l : Nat) : (s.sendX d v l).dies = s.dies := rfl
@[simp] theorem State.sendX_launches (s : State) (d : Fin 64) (v : Word) (l : Nat) : (s.sendX d v l).launches = s.launches := rfl
@[simp] theorem State.sendX_dev (s : State) (d : Fin 64) (v : Word) (l : Nat) : (s.sendX d v l).dev = s.dev := rfl
@[simp] theorem State.sendX_fab (s : State) (d : Fin 64) (v : Word) (l : Nat) : (s.sendX d v l).fab = s.fab := rfl
@[simp] theorem State.sendX_sys (s : State) (d : Fin 64) (v : Word) (l : Nat) : (s.sendX d v l).sys = s.sys := rfl
@[simp] theorem State.sendP_gtime (s : State) (d : Fin 16) (b : Bool) (l : Nat) : (s.sendP d b l).gtime = s.gtime := rfl
@[simp] theorem State.sendP_phase (s : State) (d : Fin 16) (b : Bool) (l : Nat) : (s.sendP d b l).phase = s.phase := rfl
@[simp] theorem State.sendP_agenda (s : State) (d : Fin 16) (b : Bool) (l : Nat) : (s.sendP d b l).agenda = s.agenda := rfl
@[simp] theorem State.sendP_cur (s : State) (d : Fin 16) (b : Bool) (l : Nat) : (s.sendP d b l).cur = s.cur := rfl
@[simp] theorem State.sendP_tried (s : State) (d : Fin 16) (b : Bool) (l : Nat) : (s.sendP d b l).tried = s.tried := rfl
@[simp] theorem State.sendP_fresh (s : State) (d : Fin 16) (b : Bool) (l : Nat) : (s.sendP d b l).fresh = s.fresh := rfl
@[simp] theorem State.sendP_crews (s : State) (d : Fin 16) (b : Bool) (l : Nat) : (s.sendP d b l).crews = s.crews := rfl
@[simp] theorem State.sendP_dies (s : State) (d : Fin 16) (b : Bool) (l : Nat) : (s.sendP d b l).dies = s.dies := rfl
@[simp] theorem State.sendP_launches (s : State) (d : Fin 16) (b : Bool) (l : Nat) : (s.sendP d b l).launches = s.launches := rfl
@[simp] theorem State.sendP_dev (s : State) (d : Fin 16) (b : Bool) (l : Nat) : (s.sendP d b l).dev = s.dev := rfl
@[simp] theorem State.sendP_fab (s : State) (d : Fin 16) (b : Bool) (l : Nat) : (s.sendP d b l).fab = s.fab := rfl
@[simp] theorem State.sendP_sys (s : State) (d : Fin 16) (b : Bool) (l : Nat) : (s.sendP d b l).sys = s.sys := rfl
@[simp] theorem State.retireAt_gtime (s : State) (n : Nat) : (s.retireAt n).gtime = s.gtime := rfl
@[simp] theorem State.retireAt_phase (s : State) (n : Nat) : (s.retireAt n).phase = s.phase := rfl
@[simp] theorem State.retireAt_agenda (s : State) (n : Nat) : (s.retireAt n).agenda = s.agenda := rfl
@[simp] theorem State.retireAt_cur (s : State) (n : Nat) : (s.retireAt n).cur = s.cur := rfl
@[simp] theorem State.retireAt_tried (s : State) (n : Nat) : (s.retireAt n).tried = s.tried := rfl
@[simp] theorem State.retireAt_fresh (s : State) (n : Nat) : (s.retireAt n).fresh = s.fresh := rfl
@[simp] theorem State.retireAt_crews (s : State) (n : Nat) : (s.retireAt n).crews = s.crews := rfl
@[simp] theorem State.retireAt_dies (s : State) (n : Nat) : (s.retireAt n).dies = s.dies := rfl
@[simp] theorem State.retireAt_launches (s : State) (n : Nat) : (s.retireAt n).launches = s.launches := rfl
@[simp] theorem State.retireAt_dev (s : State) (n : Nat) : (s.retireAt n).dev = s.dev := rfl
@[simp] theorem State.retireAt_fab (s : State) (n : Nat) : (s.retireAt n).fab = s.fab := rfl
@[simp] theorem State.retireAt_sys (s : State) (n : Nat) : (s.retireAt n).sys = s.sys := rfl
@[simp] theorem State.request_gtime (s : State) (x y : Bool) (p : Word) (r : ReqAct) : (s.request x y p r).gtime = s.gtime := rfl
@[simp] theorem State.request_phase (s : State) (x y : Bool) (p : Word) (r : ReqAct) : (s.request x y p r).phase = s.phase := rfl
@[simp] theorem State.request_agenda (s : State) (x y : Bool) (p : Word) (r : ReqAct) : (s.request x y p r).agenda = s.agenda := rfl
@[simp] theorem State.request_cur (s : State) (x y : Bool) (p : Word) (r : ReqAct) : (s.request x y p r).cur = s.cur := rfl
@[simp] theorem State.request_tried (s : State) (x y : Bool) (p : Word) (r : ReqAct) : (s.request x y p r).tried = s.tried := rfl
@[simp] theorem State.request_fresh (s : State) (x y : Bool) (p : Word) (r : ReqAct) : (s.request x y p r).fresh = s.fresh := rfl
@[simp] theorem State.request_crews (s : State) (x y : Bool) (p : Word) (r : ReqAct) : (s.request x y p r).crews = s.crews := rfl
@[simp] theorem State.request_dies (s : State) (x y : Bool) (p : Word) (r : ReqAct) : (s.request x y p r).dies = s.dies := rfl
@[simp] theorem State.request_launches (s : State) (x y : Bool) (p : Word) (r : ReqAct) : (s.request x y p r).launches = s.launches := rfl
@[simp] theorem State.request_dev (s : State) (x y : Bool) (p : Word) (r : ReqAct) : (s.request x y p r).dev = s.dev := rfl
@[simp] theorem State.request_fab (s : State) (x y : Bool) (p : Word) (r : ReqAct) : (s.request x y p r).fab = s.fab := rfl
@[simp] theorem State.request_sys (s : State) (x y : Bool) (p : Word) (r : ReqAct) : (s.request x y p r).sys = s.sys := rfl
@[simp] theorem State.longLatency_gtime (s : State) (x y : Bool) (p : Word) (r : ReqAct) : (s.longLatency x y p r).gtime = s.gtime := rfl
@[simp] theorem State.longLatency_phase (s : State) (x y : Bool) (p : Word) (r : ReqAct) : (s.longLatency x y p r).phase = s.phase := rfl
@[simp] theorem State.longLatency_agenda (s : State) (x y : Bool) (p : Word) (r : ReqAct) : (s.longLatency x y p r).agenda = s.agenda := rfl
@[simp] theorem State.longLatency_cur (s : State) (x y : Bool) (p : Word) (r : ReqAct) : (s.longLatency x y p r).cur = s.cur := rfl
@[simp] theorem State.longLatency_tried (s : State) (x y : Bool) (p : Word) (r : ReqAct) : (s.longLatency x y p r).tried = s.tried := rfl
@[simp] theorem State.longLatency_fresh (s : State) (x y : Bool) (p : Word) (r : ReqAct) : (s.longLatency x y p r).fresh = s.fresh := rfl
@[simp] theorem State.longLatency_crews (s : State) (x y : Bool) (p : Word) (r : ReqAct) : (s.longLatency x y p r).crews = s.crews := rfl
@[simp] theorem State.longLatency_dies (s : State) (x y : Bool) (p : Word) (r : ReqAct) : (s.longLatency x y p r).dies = s.dies := rfl
@[simp] theorem State.longLatency_launches (s : State) (x y : Bool) (p : Word) (r : ReqAct) : (s.longLatency x y p r).launches = s.launches := rfl
@[simp] theorem State.longLatency_dev (s : State) (x y : Bool) (p : Word) (r : ReqAct) : (s.longLatency x y p r).dev = s.dev := rfl
@[simp] theorem State.longLatency_fab (s : State) (x y : Bool) (p : Word) (r : ReqAct) : (s.longLatency x y p r).fab = s.fab := rfl
@[simp] theorem State.longLatency_sys (s : State) (x y : Bool) (p : Word) (r : ReqAct) : (s.longLatency x y p r).sys = s.sys := rfl
@[simp] theorem State.dropClosing_gtime (s : State) (t : TileId) : (s.dropClosing t).gtime = s.gtime := rfl
@[simp] theorem State.dropClosing_phase (s : State) (t : TileId) : (s.dropClosing t).phase = s.phase := rfl
@[simp] theorem State.dropClosing_agenda (s : State) (t : TileId) : (s.dropClosing t).agenda = s.agenda := rfl
@[simp] theorem State.dropClosing_cur (s : State) (t : TileId) : (s.dropClosing t).cur = s.cur := rfl
@[simp] theorem State.dropClosing_tried (s : State) (t : TileId) : (s.dropClosing t).tried = s.tried := rfl
@[simp] theorem State.dropClosing_fresh (s : State) (t : TileId) : (s.dropClosing t).fresh = s.fresh := rfl
@[simp] theorem State.dropClosing_crews (s : State) (t : TileId) : (s.dropClosing t).crews = s.crews := rfl
@[simp] theorem State.dropClosing_dies (s : State) (t : TileId) : (s.dropClosing t).dies = s.dies := rfl
@[simp] theorem State.dropClosing_launches (s : State) (t : TileId) : (s.dropClosing t).launches = s.launches := rfl
@[simp] theorem State.dropClosing_dev (s : State) (t : TileId) : (s.dropClosing t).dev = s.dev := rfl
@[simp] theorem State.dropClosing_fab (s : State) (t : TileId) : (s.dropClosing t).fab = s.fab := rfl
@[simp] theorem State.dropClosing_sys (s : State) (t : TileId) : (s.dropClosing t).sys = s.sys := rfl
@[simp] theorem State.retireClosing_gtime (s : State) (t : TileId) : (s.retireClosing t).gtime = s.gtime := rfl
@[simp] theorem State.retireClosing_phase (s : State) (t : TileId) : (s.retireClosing t).phase = s.phase := rfl
@[simp] theorem State.retireClosing_agenda (s : State) (t : TileId) : (s.retireClosing t).agenda = s.agenda := rfl
@[simp] theorem State.retireClosing_cur (s : State) (t : TileId) : (s.retireClosing t).cur = s.cur := rfl
@[simp] theorem State.retireClosing_tried (s : State) (t : TileId) : (s.retireClosing t).tried = s.tried := rfl
@[simp] theorem State.retireClosing_fresh (s : State) (t : TileId) : (s.retireClosing t).fresh = s.fresh := rfl
@[simp] theorem State.retireClosing_crews (s : State) (t : TileId) : (s.retireClosing t).crews = s.crews := rfl
@[simp] theorem State.retireClosing_dies (s : State) (t : TileId) : (s.retireClosing t).dies = s.dies := rfl
@[simp] theorem State.retireClosing_launches (s : State) (t : TileId) : (s.retireClosing t).launches = s.launches := rfl
@[simp] theorem State.retireClosing_dev (s : State) (t : TileId) : (s.retireClosing t).dev = s.dev := rfl
@[simp] theorem State.retireClosing_fab (s : State) (t : TileId) : (s.retireClosing t).fab = s.fab := rfl
@[simp] theorem State.retireClosing_sys (s : State) (t : TileId) : (s.retireClosing t).sys = s.sys := rfl
@[simp] theorem State.refuseClosing_gtime (s : State) (t : TileId) (r : Req) (e : Trap) : (s.refuseClosing t r e).gtime = s.gtime := rfl
@[simp] theorem State.refuseClosing_phase (s : State) (t : TileId) (r : Req) (e : Trap) : (s.refuseClosing t r e).phase = s.phase := rfl
@[simp] theorem State.refuseClosing_agenda (s : State) (t : TileId) (r : Req) (e : Trap) : (s.refuseClosing t r e).agenda = s.agenda := rfl
@[simp] theorem State.refuseClosing_cur (s : State) (t : TileId) (r : Req) (e : Trap) : (s.refuseClosing t r e).cur = s.cur := rfl
@[simp] theorem State.refuseClosing_tried (s : State) (t : TileId) (r : Req) (e : Trap) : (s.refuseClosing t r e).tried = s.tried := rfl
@[simp] theorem State.refuseClosing_fresh (s : State) (t : TileId) (r : Req) (e : Trap) : (s.refuseClosing t r e).fresh = s.fresh := rfl
@[simp] theorem State.refuseClosing_crews (s : State) (t : TileId) (r : Req) (e : Trap) : (s.refuseClosing t r e).crews = s.crews := rfl
@[simp] theorem State.refuseClosing_dies (s : State) (t : TileId) (r : Req) (e : Trap) : (s.refuseClosing t r e).dies = s.dies := rfl
@[simp] theorem State.refuseClosing_launches (s : State) (t : TileId) (r : Req) (e : Trap) : (s.refuseClosing t r e).launches = s.launches := rfl
@[simp] theorem State.refuseClosing_dev (s : State) (t : TileId) (r : Req) (e : Trap) : (s.refuseClosing t r e).dev = s.dev := rfl
@[simp] theorem State.refuseClosing_fab (s : State) (t : TileId) (r : Req) (e : Trap) : (s.refuseClosing t r e).fab = s.fab := rfl
@[simp] theorem State.refuseClosing_sys (s : State) (t : TileId) (r : Req) (e : Trap) : (s.refuseClosing t r e).sys = s.sys := rfl

/-! ## Fields of a tile and of an engine -/

@[simp] theorem Tile.modEng_cox (x : Tile) (e : Eng) (f : Engine → Engine) : (x.modEng e f).cox = x.cox := rfl
@[simp] theorem Tile.modEng_tokens (x : Tile) (e : Eng) (f : Engine → Engine) : (x.modEng e f).tokens = x.tokens := rfl
@[simp] theorem Tile.modEng_v (x : Tile) (e : Eng) (f : Engine → Engine) : (x.modEng e f).v = x.v := rfl
@[simp] theorem Tile.modEng_m (x : Tile) (e : Eng) (f : Engine → Engine) : (x.modEng e f).m = x.m := rfl
@[simp] theorem Tile.modEng_portage (x : Tile) (e : Eng) (f : Engine → Engine) : (x.modEng e f).portage = x.portage := rfl
@[simp] theorem Tile.modEng_sp (x : Tile) (e : Eng) (f : Engine → Engine) : (x.modEng e f).sp = x.sp := rfl
@[simp] theorem Tile.modEng_used (x : Tile) (e : Eng) (f : Engine → Engine) : (x.modEng e f).used = x.used := rfl
@[simp] theorem Tile.modEng_place (x : Tile) (e : Eng) (f : Engine → Engine) : (x.modEng e f).place = x.place := rfl
@[simp] theorem Tile.modEng_iter (x : Tile) (e : Eng) (f : Engine → Engine) : (x.modEng e f).iter = x.iter := rfl
@[simp] theorem Tile.modEng_ending (x : Tile) (e : Eng) (f : Engine → Engine) : (x.modEng e f).ending = x.ending := rfl
@[simp] theorem Tile.modEng_budget (x : Tile) (e : Eng) (f : Engine → Engine) : (x.modEng e f).budget = x.budget := rfl
@[simp] theorem Tile.modEng_reqs (x : Tile) (e : Eng) (f : Engine → Engine) : (x.modEng e f).reqs = x.reqs := rfl
@[simp] theorem Tile.modEng_since (x : Tile) (e : Eng) (f : Engine → Engine) : (x.modEng e f).since = x.since := rfl
@[simp] theorem Tile.modEng_scOps (x : Tile) (e : Eng) (f : Engine → Engine) : (x.modEng e f).scOps = x.scOps := rfl
@[simp] theorem Tile.modEng_replies (x : Tile) (e : Eng) (f : Engine → Engine) : (x.modEng e f).replies = x.replies := rfl
@[simp] theorem Tile.modEng_mcQueue (x : Tile) (e : Eng) (f : Engine → Engine) : (x.modEng e f).mcQueue = x.mcQueue := rfl
@[simp] theorem Tile.modEng_delay (x : Tile) (e : Eng) (f : Engine → Engine) : (x.modEng e f).delay = x.delay := rfl
@[simp] theorem Tile.modEng_winIn (x : Tile) (e : Eng) (f : Engine → Engine) : (x.modEng e f).winIn = x.winIn := rfl
@[simp] theorem Tile.modEng_cpIn (x : Tile) (e : Eng) (f : Engine → Engine) : (x.modEng e f).cpIn = x.cpIn := rfl
@[simp] theorem Tile.modEng_arrived (x : Tile) (e : Eng) (f : Engine → Engine) : (x.modEng e f).arrived = x.arrived := rfl
@[simp] theorem Tile.modEng_contexts (x : Tile) (e : Eng) (f : Engine → Engine) : (x.modEng e f).contexts = x.contexts := rfl
@[simp] theorem Tile.modEng_image (x : Tile) (e : Eng) (f : Engine → Engine) : (x.modEng e f).image = x.image := rfl
@[simp] theorem Tile.modEng_tlb (x : Tile) (e : Eng) (f : Engine → Engine) : (x.modEng e f).tlb = x.tlb := rfl
@[simp] theorem Tile.modEng_tdbgResume (x : Tile) (e : Eng) (f : Engine → Engine) : (x.modEng e f).tdbgResume = x.tdbgResume := rfl
@[simp] theorem Tile.request_engines (x : Tile) (n : Nat) (a b : Bool) (p : Word) (r : ReqAct) : (x.request n a b p r).engines = x.engines := rfl
@[simp] theorem Tile.request_tokens (x : Tile) (n : Nat) (a b : Bool) (p : Word) (r : ReqAct) : (x.request n a b p r).tokens = x.tokens := rfl
@[simp] theorem Tile.request_v (x : Tile) (n : Nat) (a b : Bool) (p : Word) (r : ReqAct) : (x.request n a b p r).v = x.v := rfl
@[simp] theorem Tile.request_m (x : Tile) (n : Nat) (a b : Bool) (p : Word) (r : ReqAct) : (x.request n a b p r).m = x.m := rfl
@[simp] theorem Tile.request_portage (x : Tile) (n : Nat) (a b : Bool) (p : Word) (r : ReqAct) : (x.request n a b p r).portage = x.portage := rfl
@[simp] theorem Tile.request_sp (x : Tile) (n : Nat) (a b : Bool) (p : Word) (r : ReqAct) : (x.request n a b p r).sp = x.sp := rfl
@[simp] theorem Tile.request_used (x : Tile) (n : Nat) (a b : Bool) (p : Word) (r : ReqAct) : (x.request n a b p r).used = x.used := rfl
@[simp] theorem Tile.request_place (x : Tile) (n : Nat) (a b : Bool) (p : Word) (r : ReqAct) : (x.request n a b p r).place = x.place := rfl
@[simp] theorem Tile.request_iter (x : Tile) (n : Nat) (a b : Bool) (p : Word) (r : ReqAct) : (x.request n a b p r).iter = x.iter := rfl
@[simp] theorem Tile.request_ending (x : Tile) (n : Nat) (a b : Bool) (p : Word) (r : ReqAct) : (x.request n a b p r).ending = x.ending := rfl
@[simp] theorem Tile.request_budget (x : Tile) (n : Nat) (a b : Bool) (p : Word) (r : ReqAct) : (x.request n a b p r).budget = x.budget := rfl
@[simp] theorem Tile.request_since (x : Tile) (n : Nat) (a b : Bool) (p : Word) (r : ReqAct) : (x.request n a b p r).since = x.since := rfl
@[simp] theorem Tile.request_scOps (x : Tile) (n : Nat) (a b : Bool) (p : Word) (r : ReqAct) : (x.request n a b p r).scOps = x.scOps := rfl
@[simp] theorem Tile.request_replies (x : Tile) (n : Nat) (a b : Bool) (p : Word) (r : ReqAct) : (x.request n a b p r).replies = x.replies := rfl
@[simp] theorem Tile.request_mcQueue (x : Tile) (n : Nat) (a b : Bool) (p : Word) (r : ReqAct) : (x.request n a b p r).mcQueue = x.mcQueue := rfl
@[simp] theorem Tile.request_delay (x : Tile) (n : Nat) (a b : Bool) (p : Word) (r : ReqAct) : (x.request n a b p r).delay = x.delay := rfl
@[simp] theorem Tile.request_winIn (x : Tile) (n : Nat) (a b : Bool) (p : Word) (r : ReqAct) : (x.request n a b p r).winIn = x.winIn := rfl
@[simp] theorem Tile.request_cpIn (x : Tile) (n : Nat) (a b : Bool) (p : Word) (r : ReqAct) : (x.request n a b p r).cpIn = x.cpIn := rfl
@[simp] theorem Tile.request_arrived (x : Tile) (n : Nat) (a b : Bool) (p : Word) (r : ReqAct) : (x.request n a b p r).arrived = x.arrived := rfl
@[simp] theorem Tile.request_contexts (x : Tile) (n : Nat) (a b : Bool) (p : Word) (r : ReqAct) : (x.request n a b p r).contexts = x.contexts := rfl
@[simp] theorem Tile.request_image (x : Tile) (n : Nat) (a b : Bool) (p : Word) (r : ReqAct) : (x.request n a b p r).image = x.image := rfl
@[simp] theorem Tile.request_tlb (x : Tile) (n : Nat) (a b : Bool) (p : Word) (r : ReqAct) : (x.request n a b p r).tlb = x.tlb := rfl
@[simp] theorem Tile.request_tdbgResume (x : Tile) (n : Nat) (a b : Bool) (p : Word) (r : ReqAct) : (x.request n a b p r).tdbgResume = x.tdbgResume := rfl

/-! ## Fields of a Cox -/

@[simp] theorem Cox.send_x (c : Cox) (n : Nat) (w : CoxWrite) : (c.send n w).x = c.x := rfl
@[simp] theorem Cox.send_xv (c : Cox) (n : Nat) (w : CoxWrite) : (c.send n w).xv = c.xv := rfl
@[simp] theorem Cox.send_p (c : Cox) (n : Nat) (w : CoxWrite) : (c.send n w).p = c.p := rfl
@[simp] theorem Cox.send_pv (c : Cox) (n : Nat) (w : CoxWrite) : (c.send n w).pv = c.pv := rfl
@[simp] theorem Cox.send_pc (c : Cox) (n : Nat) (w : CoxWrite) : (c.send n w).pc = c.pc := rfl
@[simp] theorem Cox.send_branch (c : Cox) (n : Nat) (w : CoxWrite) : (c.send n w).branch = c.branch := rfl
@[simp] theorem Cox.send_imem (c : Cox) (n : Nat) (w : CoxWrite) : (c.send n w).imem = c.imem := rfl
@[simp] theorem Cox.send_rf (c : Cox) (n : Nat) (w : CoxWrite) : (c.send n w).rf = c.rf := rfl
@[simp] theorem Cox.send_nextReq (c : Cox) (n : Nat) (w : CoxWrite) : (c.send n w).nextReq = c.nextReq := rfl
@[simp] theorem Cox.send_checkpoint (c : Cox) (n : Nat) (w : CoxWrite) : (c.send n w).checkpoint = c.checkpoint := rfl
@[simp] theorem Cox.send_head (c : Cox) (n : Nat) (w : CoxWrite) : (c.send n w).head = c.head := rfl
@[simp] theorem Cox.send_region (c : Cox) (n : Nat) (w : CoxWrite) : (c.send n w).region = c.region := rfl
@[simp] theorem Cox.send_regcnt (c : Cox) (n : Nat) (w : CoxWrite) : (c.send n w).regcnt = c.regcnt := rfl
@[simp] theorem Cox.send_closing (c : Cox) (n : Nat) (w : CoxWrite) : (c.send n w).closing = c.closing := rfl
@[simp] theorem Cox.send_nextIssue (c : Cox) (n : Nat) (w : CoxWrite) : (c.send n w).nextIssue = c.nextIssue := rfl
@[simp] theorem Cox.send_halted (c : Cox) (n : Nat) (w : CoxWrite) : (c.send n w).halted = c.halted := rfl
@[simp] theorem Cox.send_fault (c : Cox) (n : Nat) (w : CoxWrite) : (c.send n w).fault = c.fault := rfl
@[simp] theorem Cox.send_pend (c : Cox) (n : Nat) (w : CoxWrite) : (c.send n w).pend = c.pend := rfl
@[simp] theorem Cox.send_ie (c : Cox) (n : Nat) (w : CoxWrite) : (c.send n w).ie = c.ie := rfl
@[simp] theorem Cox.send_tm (c : Cox) (n : Nat) (w : CoxWrite) : (c.send n w).tm = c.tm := rfl
@[simp] theorem Cox.send_tvec (c : Cox) (n : Nat) (w : CoxWrite) : (c.send n w).tvec = c.tvec := rfl
@[simp] theorem Cox.send_tcause (c : Cox) (n : Nat) (w : CoxWrite) : (c.send n w).tcause = c.tcause := rfl
@[simp] theorem Cox.send_tpc (c : Cox) (n : Nat) (w : CoxWrite) : (c.send n w).tpc = c.tpc := rfl
@[simp] theorem Cox.send_tregion (c : Cox) (n : Nat) (w : CoxWrite) : (c.send n w).tregion = c.tregion := rfl
@[simp] theorem Cox.send_taddr (c : Cox) (n : Nat) (w : CoxWrite) : (c.send n w).taddr = c.taddr := rfl
@[simp] theorem Cox.send_tinfo (c : Cox) (n : Nat) (w : CoxWrite) : (c.send n w).tinfo = c.tinfo := rfl
@[simp] theorem Cox.send_tint (c : Cox) (n : Nat) (w : CoxWrite) : (c.send n w).tint = c.tint := rfl
@[simp] theorem Cox.send_bfmt (c : Cox) (n : Nat) (w : CoxWrite) : (c.send n w).bfmt = c.bfmt := rfl
@[simp] theorem Cox.send_defer (c : Cox) (n : Nat) (w : CoxWrite) : (c.send n w).defer = c.defer := rfl
@[simp] theorem Cox.send_mcdelay (c : Cox) (n : Nat) (w : CoxWrite) : (c.send n w).mcdelay = c.mcdelay := rfl
@[simp] theorem Cox.send_wheel (c : Cox) (n : Nat) (w : CoxWrite) : (c.send n w).wheel = c.wheel := rfl
@[simp] theorem Cox.send_savePois (c : Cox) (n : Nat) (w : CoxWrite) : (c.send n w).savePois = c.savePois := rfl
@[simp] theorem Cox.send_saveSt (c : Cox) (n : Nat) (w : CoxWrite) : (c.send n w).saveSt = c.saveSt := rfl
@[simp] theorem Cox.send_mismatches (c : Cox) (n : Nat) (w : CoxWrite) : (c.send n w).mismatches = c.mismatches := rfl
@[simp] theorem Cox.send_stopped (c : Cox) (n : Nat) (w : CoxWrite) : (c.send n w).stopped = c.stopped := rfl
@[simp] theorem Cox.send_dbgHalted (c : Cox) (n : Nat) (w : CoxWrite) : (c.send n w).dbgHalted = c.dbgHalted := rfl
@[simp] theorem Cox.send_mustSave (c : Cox) (n : Nat) (w : CoxWrite) : (c.send n w).mustSave = c.mustSave := rfl
@[simp] theorem Cox.raise_x (c : Cox) (k : Byte) (i a : Word) : (c.raise k i a).x = c.x := rfl
@[simp] theorem Cox.raise_xv (c : Cox) (k : Byte) (i a : Word) : (c.raise k i a).xv = c.xv := rfl
@[simp] theorem Cox.raise_p (c : Cox) (k : Byte) (i a : Word) : (c.raise k i a).p = c.p := rfl
@[simp] theorem Cox.raise_pv (c : Cox) (k : Byte) (i a : Word) : (c.raise k i a).pv = c.pv := rfl
@[simp] theorem Cox.raise_pc (c : Cox) (k : Byte) (i a : Word) : (c.raise k i a).pc = c.pc := rfl
@[simp] theorem Cox.raise_branch (c : Cox) (k : Byte) (i a : Word) : (c.raise k i a).branch = c.branch := rfl
@[simp] theorem Cox.raise_imem (c : Cox) (k : Byte) (i a : Word) : (c.raise k i a).imem = c.imem := rfl
@[simp] theorem Cox.raise_rf (c : Cox) (k : Byte) (i a : Word) : (c.raise k i a).rf = c.rf := rfl
@[simp] theorem Cox.raise_nextReq (c : Cox) (k : Byte) (i a : Word) : (c.raise k i a).nextReq = c.nextReq := rfl
@[simp] theorem Cox.raise_checkpoint (c : Cox) (k : Byte) (i a : Word) : (c.raise k i a).checkpoint = c.checkpoint := rfl
@[simp] theorem Cox.raise_head (c : Cox) (k : Byte) (i a : Word) : (c.raise k i a).head = c.head := rfl
@[simp] theorem Cox.raise_region (c : Cox) (k : Byte) (i a : Word) : (c.raise k i a).region = c.region := rfl
@[simp] theorem Cox.raise_regcnt (c : Cox) (k : Byte) (i a : Word) : (c.raise k i a).regcnt = c.regcnt := rfl
@[simp] theorem Cox.raise_flight (c : Cox) (k : Byte) (i a : Word) : (c.raise k i a).flight = c.flight := rfl
@[simp] theorem Cox.raise_closing (c : Cox) (k : Byte) (i a : Word) : (c.raise k i a).closing = c.closing := rfl
@[simp] theorem Cox.raise_nextIssue (c : Cox) (k : Byte) (i a : Word) : (c.raise k i a).nextIssue = c.nextIssue := rfl
@[simp] theorem Cox.raise_halted (c : Cox) (k : Byte) (i a : Word) : (c.raise k i a).halted = c.halted := rfl
@[simp] theorem Cox.raise_pend (c : Cox) (k : Byte) (i a : Word) : (c.raise k i a).pend = c.pend := rfl
@[simp] theorem Cox.raise_ie (c : Cox) (k : Byte) (i a : Word) : (c.raise k i a).ie = c.ie := rfl
@[simp] theorem Cox.raise_tm (c : Cox) (k : Byte) (i a : Word) : (c.raise k i a).tm = c.tm := rfl
@[simp] theorem Cox.raise_tvec (c : Cox) (k : Byte) (i a : Word) : (c.raise k i a).tvec = c.tvec := rfl
@[simp] theorem Cox.raise_tcause (c : Cox) (k : Byte) (i a : Word) : (c.raise k i a).tcause = c.tcause := rfl
@[simp] theorem Cox.raise_tpc (c : Cox) (k : Byte) (i a : Word) : (c.raise k i a).tpc = c.tpc := rfl
@[simp] theorem Cox.raise_tregion (c : Cox) (k : Byte) (i a : Word) : (c.raise k i a).tregion = c.tregion := rfl
@[simp] theorem Cox.raise_taddr (c : Cox) (k : Byte) (i a : Word) : (c.raise k i a).taddr = c.taddr := rfl
@[simp] theorem Cox.raise_tinfo (c : Cox) (k : Byte) (i a : Word) : (c.raise k i a).tinfo = c.tinfo := rfl
@[simp] theorem Cox.raise_tint (c : Cox) (k : Byte) (i a : Word) : (c.raise k i a).tint = c.tint := rfl
@[simp] theorem Cox.raise_bfmt (c : Cox) (k : Byte) (i a : Word) : (c.raise k i a).bfmt = c.bfmt := rfl
@[simp] theorem Cox.raise_defer (c : Cox) (k : Byte) (i a : Word) : (c.raise k i a).defer = c.defer := rfl
@[simp] theorem Cox.raise_mcdelay (c : Cox) (k : Byte) (i a : Word) : (c.raise k i a).mcdelay = c.mcdelay := rfl
@[simp] theorem Cox.raise_wheel (c : Cox) (k : Byte) (i a : Word) : (c.raise k i a).wheel = c.wheel := rfl
@[simp] theorem Cox.raise_savePois (c : Cox) (k : Byte) (i a : Word) : (c.raise k i a).savePois = c.savePois := rfl
@[simp] theorem Cox.raise_saveSt (c : Cox) (k : Byte) (i a : Word) : (c.raise k i a).saveSt = c.saveSt := rfl
@[simp] theorem Cox.raise_mismatches (c : Cox) (k : Byte) (i a : Word) : (c.raise k i a).mismatches = c.mismatches := rfl
@[simp] theorem Cox.raise_checks (c : Cox) (k : Byte) (i a : Word) : (c.raise k i a).checks = c.checks := rfl
@[simp] theorem Cox.raise_stopped (c : Cox) (k : Byte) (i a : Word) : (c.raise k i a).stopped = c.stopped := rfl
@[simp] theorem Cox.raise_dbgHalted (c : Cox) (k : Byte) (i a : Word) : (c.raise k i a).dbgHalted = c.dbgHalted := rfl
@[simp] theorem Cox.raise_mustSave (c : Cox) (k : Byte) (i a : Word) : (c.raise k i a).mustSave = c.mustSave := rfl
@[simp] theorem Cox.pop_x (c : Cox) (n : Nat) : (c.pop n).x = c.x := rfl
@[simp] theorem Cox.pop_xv (c : Cox) (n : Nat) : (c.pop n).xv = c.xv := rfl
@[simp] theorem Cox.pop_p (c : Cox) (n : Nat) : (c.pop n).p = c.p := rfl
@[simp] theorem Cox.pop_pv (c : Cox) (n : Nat) : (c.pop n).pv = c.pv := rfl
@[simp] theorem Cox.pop_pc (c : Cox) (n : Nat) : (c.pop n).pc = c.pc := rfl
@[simp] theorem Cox.pop_branch (c : Cox) (n : Nat) : (c.pop n).branch = c.branch := rfl
@[simp] theorem Cox.pop_imem (c : Cox) (n : Nat) : (c.pop n).imem = c.imem := rfl
@[simp] theorem Cox.pop_nextReq (c : Cox) (n : Nat) : (c.pop n).nextReq = c.nextReq := rfl
@[simp] theorem Cox.pop_checkpoint (c : Cox) (n : Nat) : (c.pop n).checkpoint = c.checkpoint := rfl
@[simp] theorem Cox.pop_head (c : Cox) (n : Nat) : (c.pop n).head = c.head := rfl
@[simp] theorem Cox.pop_region (c : Cox) (n : Nat) : (c.pop n).region = c.region := rfl
@[simp] theorem Cox.pop_regcnt (c : Cox) (n : Nat) : (c.pop n).regcnt = c.regcnt := rfl
@[simp] theorem Cox.pop_flight (c : Cox) (n : Nat) : (c.pop n).flight = c.flight := rfl
@[simp] theorem Cox.pop_closing (c : Cox) (n : Nat) : (c.pop n).closing = c.closing := rfl
@[simp] theorem Cox.pop_nextIssue (c : Cox) (n : Nat) : (c.pop n).nextIssue = c.nextIssue := rfl
@[simp] theorem Cox.pop_halted (c : Cox) (n : Nat) : (c.pop n).halted = c.halted := rfl
@[simp] theorem Cox.pop_fault (c : Cox) (n : Nat) : (c.pop n).fault = c.fault := rfl
@[simp] theorem Cox.pop_pend (c : Cox) (n : Nat) : (c.pop n).pend = c.pend := rfl
@[simp] theorem Cox.pop_ie (c : Cox) (n : Nat) : (c.pop n).ie = c.ie := rfl
@[simp] theorem Cox.pop_tm (c : Cox) (n : Nat) : (c.pop n).tm = c.tm := rfl
@[simp] theorem Cox.pop_tvec (c : Cox) (n : Nat) : (c.pop n).tvec = c.tvec := rfl
@[simp] theorem Cox.pop_tcause (c : Cox) (n : Nat) : (c.pop n).tcause = c.tcause := rfl
@[simp] theorem Cox.pop_tpc (c : Cox) (n : Nat) : (c.pop n).tpc = c.tpc := rfl
@[simp] theorem Cox.pop_tregion (c : Cox) (n : Nat) : (c.pop n).tregion = c.tregion := rfl
@[simp] theorem Cox.pop_taddr (c : Cox) (n : Nat) : (c.pop n).taddr = c.taddr := rfl
@[simp] theorem Cox.pop_tinfo (c : Cox) (n : Nat) : (c.pop n).tinfo = c.tinfo := rfl
@[simp] theorem Cox.pop_tint (c : Cox) (n : Nat) : (c.pop n).tint = c.tint := rfl
@[simp] theorem Cox.pop_bfmt (c : Cox) (n : Nat) : (c.pop n).bfmt = c.bfmt := rfl
@[simp] theorem Cox.pop_defer (c : Cox) (n : Nat) : (c.pop n).defer = c.defer := rfl
@[simp] theorem Cox.pop_mcdelay (c : Cox) (n : Nat) : (c.pop n).mcdelay = c.mcdelay := rfl
@[simp] theorem Cox.pop_wheel (c : Cox) (n : Nat) : (c.pop n).wheel = c.wheel := rfl
@[simp] theorem Cox.pop_savePois (c : Cox) (n : Nat) : (c.pop n).savePois = c.savePois := rfl
@[simp] theorem Cox.pop_saveSt (c : Cox) (n : Nat) : (c.pop n).saveSt = c.saveSt := rfl
@[simp] theorem Cox.pop_mismatches (c : Cox) (n : Nat) : (c.pop n).mismatches = c.mismatches := rfl
@[simp] theorem Cox.pop_checks (c : Cox) (n : Nat) : (c.pop n).checks = c.checks := rfl
@[simp] theorem Cox.pop_stopped (c : Cox) (n : Nat) : (c.pop n).stopped = c.stopped := rfl
@[simp] theorem Cox.pop_dbgHalted (c : Cox) (n : Nat) : (c.pop n).dbgHalted = c.dbgHalted := rfl
@[simp] theorem Cox.pop_mustSave (c : Cox) (n : Nat) : (c.pop n).mustSave = c.mustSave := rfl
@[simp] theorem Cox.take_x (c : Cox) (w : Word) : (c.take w).x = c.x := rfl
@[simp] theorem Cox.take_xv (c : Cox) (w : Word) : (c.take w).xv = c.xv := rfl
@[simp] theorem Cox.take_p (c : Cox) (w : Word) : (c.take w).p = c.p := rfl
@[simp] theorem Cox.take_pv (c : Cox) (w : Word) : (c.take w).pv = c.pv := rfl
@[simp] theorem Cox.take_pc (c : Cox) (w : Word) : (c.take w).pc = c.pc := rfl
@[simp] theorem Cox.take_imem (c : Cox) (w : Word) : (c.take w).imem = c.imem := rfl
@[simp] theorem Cox.take_rf (c : Cox) (w : Word) : (c.take w).rf = c.rf := rfl
@[simp] theorem Cox.take_nextReq (c : Cox) (w : Word) : (c.take w).nextReq = c.nextReq := rfl
@[simp] theorem Cox.take_checkpoint (c : Cox) (w : Word) : (c.take w).checkpoint = c.checkpoint := rfl
@[simp] theorem Cox.take_head (c : Cox) (w : Word) : (c.take w).head = c.head := rfl
@[simp] theorem Cox.take_region (c : Cox) (w : Word) : (c.take w).region = c.region := rfl
@[simp] theorem Cox.take_regcnt (c : Cox) (w : Word) : (c.take w).regcnt = c.regcnt := rfl
@[simp] theorem Cox.take_flight (c : Cox) (w : Word) : (c.take w).flight = c.flight := rfl
@[simp] theorem Cox.take_closing (c : Cox) (w : Word) : (c.take w).closing = c.closing := rfl
@[simp] theorem Cox.take_nextIssue (c : Cox) (w : Word) : (c.take w).nextIssue = c.nextIssue := rfl
@[simp] theorem Cox.take_halted (c : Cox) (w : Word) : (c.take w).halted = c.halted := rfl
@[simp] theorem Cox.take_fault (c : Cox) (w : Word) : (c.take w).fault = c.fault := rfl
@[simp] theorem Cox.take_pend (c : Cox) (w : Word) : (c.take w).pend = c.pend := rfl
@[simp] theorem Cox.take_ie (c : Cox) (w : Word) : (c.take w).ie = c.ie := rfl
@[simp] theorem Cox.take_tm (c : Cox) (w : Word) : (c.take w).tm = c.tm := rfl
@[simp] theorem Cox.take_tvec (c : Cox) (w : Word) : (c.take w).tvec = c.tvec := rfl
@[simp] theorem Cox.take_tcause (c : Cox) (w : Word) : (c.take w).tcause = c.tcause := rfl
@[simp] theorem Cox.take_tpc (c : Cox) (w : Word) : (c.take w).tpc = c.tpc := rfl
@[simp] theorem Cox.take_tregion (c : Cox) (w : Word) : (c.take w).tregion = c.tregion := rfl
@[simp] theorem Cox.take_taddr (c : Cox) (w : Word) : (c.take w).taddr = c.taddr := rfl
@[simp] theorem Cox.take_tinfo (c : Cox) (w : Word) : (c.take w).tinfo = c.tinfo := rfl
@[simp] theorem Cox.take_tint (c : Cox) (w : Word) : (c.take w).tint = c.tint := rfl
@[simp] theorem Cox.take_bfmt (c : Cox) (w : Word) : (c.take w).bfmt = c.bfmt := rfl
@[simp] theorem Cox.take_defer (c : Cox) (w : Word) : (c.take w).defer = c.defer := rfl
@[simp] theorem Cox.take_mcdelay (c : Cox) (w : Word) : (c.take w).mcdelay = c.mcdelay := rfl
@[simp] theorem Cox.take_wheel (c : Cox) (w : Word) : (c.take w).wheel = c.wheel := rfl
@[simp] theorem Cox.take_savePois (c : Cox) (w : Word) : (c.take w).savePois = c.savePois := rfl
@[simp] theorem Cox.take_saveSt (c : Cox) (w : Word) : (c.take w).saveSt = c.saveSt := rfl
@[simp] theorem Cox.take_mismatches (c : Cox) (w : Word) : (c.take w).mismatches = c.mismatches := rfl
@[simp] theorem Cox.take_checks (c : Cox) (w : Word) : (c.take w).checks = c.checks := rfl
@[simp] theorem Cox.take_stopped (c : Cox) (w : Word) : (c.take w).stopped = c.stopped := rfl
@[simp] theorem Cox.take_dbgHalted (c : Cox) (w : Word) : (c.take w).dbgHalted = c.dbgHalted := rfl
@[simp] theorem Cox.take_mustSave (c : Cox) (w : Word) : (c.take w).mustSave = c.mustSave := rfl
@[simp] theorem Cox.placeSlot_x (c : Cox) (b : Bool) : (c.placeSlot b).x = c.x := rfl
@[simp] theorem Cox.placeSlot_xv (c : Cox) (b : Bool) : (c.placeSlot b).xv = c.xv := rfl
@[simp] theorem Cox.placeSlot_p (c : Cox) (b : Bool) : (c.placeSlot b).p = c.p := rfl
@[simp] theorem Cox.placeSlot_pv (c : Cox) (b : Bool) : (c.placeSlot b).pv = c.pv := rfl
@[simp] theorem Cox.placeSlot_pc (c : Cox) (b : Bool) : (c.placeSlot b).pc = c.pc := rfl
@[simp] theorem Cox.placeSlot_branch (c : Cox) (b : Bool) : (c.placeSlot b).branch = c.branch := rfl
@[simp] theorem Cox.placeSlot_imem (c : Cox) (b : Bool) : (c.placeSlot b).imem = c.imem := rfl
@[simp] theorem Cox.placeSlot_nextReq (c : Cox) (b : Bool) : (c.placeSlot b).nextReq = c.nextReq := rfl
@[simp] theorem Cox.placeSlot_checkpoint (c : Cox) (b : Bool) : (c.placeSlot b).checkpoint = c.checkpoint := rfl
@[simp] theorem Cox.placeSlot_head (c : Cox) (b : Bool) : (c.placeSlot b).head = c.head := rfl
@[simp] theorem Cox.placeSlot_region (c : Cox) (b : Bool) : (c.placeSlot b).region = c.region := rfl
@[simp] theorem Cox.placeSlot_regcnt (c : Cox) (b : Bool) : (c.placeSlot b).regcnt = c.regcnt := rfl
@[simp] theorem Cox.placeSlot_flight (c : Cox) (b : Bool) : (c.placeSlot b).flight = c.flight := rfl
@[simp] theorem Cox.placeSlot_closing (c : Cox) (b : Bool) : (c.placeSlot b).closing = c.closing := rfl
@[simp] theorem Cox.placeSlot_nextIssue (c : Cox) (b : Bool) : (c.placeSlot b).nextIssue = c.nextIssue := rfl
@[simp] theorem Cox.placeSlot_halted (c : Cox) (b : Bool) : (c.placeSlot b).halted = c.halted := rfl
@[simp] theorem Cox.placeSlot_fault (c : Cox) (b : Bool) : (c.placeSlot b).fault = c.fault := rfl
@[simp] theorem Cox.placeSlot_pend (c : Cox) (b : Bool) : (c.placeSlot b).pend = c.pend := rfl
@[simp] theorem Cox.placeSlot_ie (c : Cox) (b : Bool) : (c.placeSlot b).ie = c.ie := rfl
@[simp] theorem Cox.placeSlot_tm (c : Cox) (b : Bool) : (c.placeSlot b).tm = c.tm := rfl
@[simp] theorem Cox.placeSlot_tvec (c : Cox) (b : Bool) : (c.placeSlot b).tvec = c.tvec := rfl
@[simp] theorem Cox.placeSlot_tcause (c : Cox) (b : Bool) : (c.placeSlot b).tcause = c.tcause := rfl
@[simp] theorem Cox.placeSlot_tpc (c : Cox) (b : Bool) : (c.placeSlot b).tpc = c.tpc := rfl
@[simp] theorem Cox.placeSlot_tregion (c : Cox) (b : Bool) : (c.placeSlot b).tregion = c.tregion := rfl
@[simp] theorem Cox.placeSlot_taddr (c : Cox) (b : Bool) : (c.placeSlot b).taddr = c.taddr := rfl
@[simp] theorem Cox.placeSlot_tinfo (c : Cox) (b : Bool) : (c.placeSlot b).tinfo = c.tinfo := rfl
@[simp] theorem Cox.placeSlot_tint (c : Cox) (b : Bool) : (c.placeSlot b).tint = c.tint := rfl
@[simp] theorem Cox.placeSlot_bfmt (c : Cox) (b : Bool) : (c.placeSlot b).bfmt = c.bfmt := rfl
@[simp] theorem Cox.placeSlot_defer (c : Cox) (b : Bool) : (c.placeSlot b).defer = c.defer := rfl
@[simp] theorem Cox.placeSlot_mcdelay (c : Cox) (b : Bool) : (c.placeSlot b).mcdelay = c.mcdelay := rfl
@[simp] theorem Cox.placeSlot_wheel (c : Cox) (b : Bool) : (c.placeSlot b).wheel = c.wheel := rfl
@[simp] theorem Cox.placeSlot_savePois (c : Cox) (b : Bool) : (c.placeSlot b).savePois = c.savePois := rfl
@[simp] theorem Cox.placeSlot_saveSt (c : Cox) (b : Bool) : (c.placeSlot b).saveSt = c.saveSt := rfl
@[simp] theorem Cox.placeSlot_mismatches (c : Cox) (b : Bool) : (c.placeSlot b).mismatches = c.mismatches := rfl
@[simp] theorem Cox.placeSlot_checks (c : Cox) (b : Bool) : (c.placeSlot b).checks = c.checks := rfl
@[simp] theorem Cox.placeSlot_stopped (c : Cox) (b : Bool) : (c.placeSlot b).stopped = c.stopped := rfl
@[simp] theorem Cox.placeSlot_dbgHalted (c : Cox) (b : Bool) : (c.placeSlot b).dbgHalted = c.dbgHalted := rfl
@[simp] theorem Cox.placeSlot_mustSave (c : Cox) (b : Bool) : (c.placeSlot b).mustSave = c.mustSave := rfl
/-- Advancing PC changes PC and the branch only. -/
theorem Cox.nextPc_eq (c : Cox) : c.nextPc = { c with pc := c.nextPc.pc, branch := c.nextPc.branch } := by
  unfold Cox.nextPc
  cases c.branch with
  | none => rfl
  | some b => simp only; split <;> rfl
/-- Writing a register changes the register file only. -/
theorem Cox.writeX_eq (c : Cox) (r : Fin 64) (v : Word) :
    c.writeX r v = { c with x := (c.writeX r v).x, xv := (c.writeX r v).xv } := by
  unfold Cox.writeX; split <;> rfl
/-- Writing a predicate changes the predicates only. -/
theorem Cox.writeP_eq (c : Cox) (r : Fin 16) (v : Bool) :
    c.writeP r v = { c with p := (c.writeP r v).p, pv := (c.writeP r v).pv } := by
  unfold Cox.writeP; split <;> rfl

@[simp] theorem Cox.writeX_p (c : Cox) (r : Fin 64) (v : Word) : (c.writeX r v).p = c.p :=
  by rw [Cox.writeX_eq]
@[simp] theorem Cox.writeX_pv (c : Cox) (r : Fin 64) (v : Word) : (c.writeX r v).pv = c.pv :=
  by rw [Cox.writeX_eq]
@[simp] theorem Cox.writeX_pc (c : Cox) (r : Fin 64) (v : Word) : (c.writeX r v).pc = c.pc :=
  by rw [Cox.writeX_eq]
@[simp] theorem Cox.writeX_branch (c : Cox) (r : Fin 64) (v : Word) : (c.writeX r v).branch = c.branch :=
  by rw [Cox.writeX_eq]
@[simp] theorem Cox.writeX_imem (c : Cox) (r : Fin 64) (v : Word) : (c.writeX r v).imem = c.imem :=
  by rw [Cox.writeX_eq]
@[simp] theorem Cox.writeX_rf (c : Cox) (r : Fin 64) (v : Word) : (c.writeX r v).rf = c.rf :=
  by rw [Cox.writeX_eq]
@[simp] theorem Cox.writeX_nextReq (c : Cox) (r : Fin 64) (v : Word) : (c.writeX r v).nextReq = c.nextReq :=
  by rw [Cox.writeX_eq]
@[simp] theorem Cox.writeX_checkpoint (c : Cox) (r : Fin 64) (v : Word) : (c.writeX r v).checkpoint = c.checkpoint :=
  by rw [Cox.writeX_eq]
@[simp] theorem Cox.writeX_head (c : Cox) (r : Fin 64) (v : Word) : (c.writeX r v).head = c.head :=
  by rw [Cox.writeX_eq]
@[simp] theorem Cox.writeX_region (c : Cox) (r : Fin 64) (v : Word) : (c.writeX r v).region = c.region :=
  by rw [Cox.writeX_eq]
@[simp] theorem Cox.writeX_regcnt (c : Cox) (r : Fin 64) (v : Word) : (c.writeX r v).regcnt = c.regcnt :=
  by rw [Cox.writeX_eq]
@[simp] theorem Cox.writeX_flight (c : Cox) (r : Fin 64) (v : Word) : (c.writeX r v).flight = c.flight :=
  by rw [Cox.writeX_eq]
@[simp] theorem Cox.writeX_closing (c : Cox) (r : Fin 64) (v : Word) : (c.writeX r v).closing = c.closing :=
  by rw [Cox.writeX_eq]
@[simp] theorem Cox.writeX_nextIssue (c : Cox) (r : Fin 64) (v : Word) : (c.writeX r v).nextIssue = c.nextIssue :=
  by rw [Cox.writeX_eq]
@[simp] theorem Cox.writeX_halted (c : Cox) (r : Fin 64) (v : Word) : (c.writeX r v).halted = c.halted :=
  by rw [Cox.writeX_eq]
@[simp] theorem Cox.writeX_fault (c : Cox) (r : Fin 64) (v : Word) : (c.writeX r v).fault = c.fault :=
  by rw [Cox.writeX_eq]
@[simp] theorem Cox.writeX_pend (c : Cox) (r : Fin 64) (v : Word) : (c.writeX r v).pend = c.pend :=
  by rw [Cox.writeX_eq]
@[simp] theorem Cox.writeX_ie (c : Cox) (r : Fin 64) (v : Word) : (c.writeX r v).ie = c.ie :=
  by rw [Cox.writeX_eq]
@[simp] theorem Cox.writeX_tm (c : Cox) (r : Fin 64) (v : Word) : (c.writeX r v).tm = c.tm :=
  by rw [Cox.writeX_eq]
@[simp] theorem Cox.writeX_tvec (c : Cox) (r : Fin 64) (v : Word) : (c.writeX r v).tvec = c.tvec :=
  by rw [Cox.writeX_eq]
@[simp] theorem Cox.writeX_tcause (c : Cox) (r : Fin 64) (v : Word) : (c.writeX r v).tcause = c.tcause :=
  by rw [Cox.writeX_eq]
@[simp] theorem Cox.writeX_tpc (c : Cox) (r : Fin 64) (v : Word) : (c.writeX r v).tpc = c.tpc :=
  by rw [Cox.writeX_eq]
@[simp] theorem Cox.writeX_tregion (c : Cox) (r : Fin 64) (v : Word) : (c.writeX r v).tregion = c.tregion :=
  by rw [Cox.writeX_eq]
@[simp] theorem Cox.writeX_taddr (c : Cox) (r : Fin 64) (v : Word) : (c.writeX r v).taddr = c.taddr :=
  by rw [Cox.writeX_eq]
@[simp] theorem Cox.writeX_tinfo (c : Cox) (r : Fin 64) (v : Word) : (c.writeX r v).tinfo = c.tinfo :=
  by rw [Cox.writeX_eq]
@[simp] theorem Cox.writeX_tint (c : Cox) (r : Fin 64) (v : Word) : (c.writeX r v).tint = c.tint :=
  by rw [Cox.writeX_eq]
@[simp] theorem Cox.writeX_bfmt (c : Cox) (r : Fin 64) (v : Word) : (c.writeX r v).bfmt = c.bfmt :=
  by rw [Cox.writeX_eq]
@[simp] theorem Cox.writeX_defer (c : Cox) (r : Fin 64) (v : Word) : (c.writeX r v).defer = c.defer :=
  by rw [Cox.writeX_eq]
@[simp] theorem Cox.writeX_mcdelay (c : Cox) (r : Fin 64) (v : Word) : (c.writeX r v).mcdelay = c.mcdelay :=
  by rw [Cox.writeX_eq]
@[simp] theorem Cox.writeX_wheel (c : Cox) (r : Fin 64) (v : Word) : (c.writeX r v).wheel = c.wheel :=
  by rw [Cox.writeX_eq]
@[simp] theorem Cox.writeX_savePois (c : Cox) (r : Fin 64) (v : Word) : (c.writeX r v).savePois = c.savePois :=
  by rw [Cox.writeX_eq]
@[simp] theorem Cox.writeX_saveSt (c : Cox) (r : Fin 64) (v : Word) : (c.writeX r v).saveSt = c.saveSt :=
  by rw [Cox.writeX_eq]
@[simp] theorem Cox.writeX_mismatches (c : Cox) (r : Fin 64) (v : Word) : (c.writeX r v).mismatches = c.mismatches :=
  by rw [Cox.writeX_eq]
@[simp] theorem Cox.writeX_checks (c : Cox) (r : Fin 64) (v : Word) : (c.writeX r v).checks = c.checks :=
  by rw [Cox.writeX_eq]
@[simp] theorem Cox.writeX_stopped (c : Cox) (r : Fin 64) (v : Word) : (c.writeX r v).stopped = c.stopped :=
  by rw [Cox.writeX_eq]
@[simp] theorem Cox.writeX_dbgHalted (c : Cox) (r : Fin 64) (v : Word) : (c.writeX r v).dbgHalted = c.dbgHalted :=
  by rw [Cox.writeX_eq]
@[simp] theorem Cox.writeX_mustSave (c : Cox) (r : Fin 64) (v : Word) : (c.writeX r v).mustSave = c.mustSave :=
  by rw [Cox.writeX_eq]
@[simp] theorem Cox.writeP_x (c : Cox) (r : Fin 16) (v : Bool) : (c.writeP r v).x = c.x :=
  by rw [Cox.writeP_eq]
@[simp] theorem Cox.writeP_xv (c : Cox) (r : Fin 16) (v : Bool) : (c.writeP r v).xv = c.xv :=
  by rw [Cox.writeP_eq]
@[simp] theorem Cox.writeP_pc (c : Cox) (r : Fin 16) (v : Bool) : (c.writeP r v).pc = c.pc :=
  by rw [Cox.writeP_eq]
@[simp] theorem Cox.writeP_branch (c : Cox) (r : Fin 16) (v : Bool) : (c.writeP r v).branch = c.branch :=
  by rw [Cox.writeP_eq]
@[simp] theorem Cox.writeP_imem (c : Cox) (r : Fin 16) (v : Bool) : (c.writeP r v).imem = c.imem :=
  by rw [Cox.writeP_eq]
@[simp] theorem Cox.writeP_rf (c : Cox) (r : Fin 16) (v : Bool) : (c.writeP r v).rf = c.rf :=
  by rw [Cox.writeP_eq]
@[simp] theorem Cox.writeP_nextReq (c : Cox) (r : Fin 16) (v : Bool) : (c.writeP r v).nextReq = c.nextReq :=
  by rw [Cox.writeP_eq]
@[simp] theorem Cox.writeP_checkpoint (c : Cox) (r : Fin 16) (v : Bool) : (c.writeP r v).checkpoint = c.checkpoint :=
  by rw [Cox.writeP_eq]
@[simp] theorem Cox.writeP_head (c : Cox) (r : Fin 16) (v : Bool) : (c.writeP r v).head = c.head :=
  by rw [Cox.writeP_eq]
@[simp] theorem Cox.writeP_region (c : Cox) (r : Fin 16) (v : Bool) : (c.writeP r v).region = c.region :=
  by rw [Cox.writeP_eq]
@[simp] theorem Cox.writeP_regcnt (c : Cox) (r : Fin 16) (v : Bool) : (c.writeP r v).regcnt = c.regcnt :=
  by rw [Cox.writeP_eq]
@[simp] theorem Cox.writeP_flight (c : Cox) (r : Fin 16) (v : Bool) : (c.writeP r v).flight = c.flight :=
  by rw [Cox.writeP_eq]
@[simp] theorem Cox.writeP_closing (c : Cox) (r : Fin 16) (v : Bool) : (c.writeP r v).closing = c.closing :=
  by rw [Cox.writeP_eq]
@[simp] theorem Cox.writeP_nextIssue (c : Cox) (r : Fin 16) (v : Bool) : (c.writeP r v).nextIssue = c.nextIssue :=
  by rw [Cox.writeP_eq]
@[simp] theorem Cox.writeP_halted (c : Cox) (r : Fin 16) (v : Bool) : (c.writeP r v).halted = c.halted :=
  by rw [Cox.writeP_eq]
@[simp] theorem Cox.writeP_fault (c : Cox) (r : Fin 16) (v : Bool) : (c.writeP r v).fault = c.fault :=
  by rw [Cox.writeP_eq]
@[simp] theorem Cox.writeP_pend (c : Cox) (r : Fin 16) (v : Bool) : (c.writeP r v).pend = c.pend :=
  by rw [Cox.writeP_eq]
@[simp] theorem Cox.writeP_ie (c : Cox) (r : Fin 16) (v : Bool) : (c.writeP r v).ie = c.ie :=
  by rw [Cox.writeP_eq]
@[simp] theorem Cox.writeP_tm (c : Cox) (r : Fin 16) (v : Bool) : (c.writeP r v).tm = c.tm :=
  by rw [Cox.writeP_eq]
@[simp] theorem Cox.writeP_tvec (c : Cox) (r : Fin 16) (v : Bool) : (c.writeP r v).tvec = c.tvec :=
  by rw [Cox.writeP_eq]
@[simp] theorem Cox.writeP_tcause (c : Cox) (r : Fin 16) (v : Bool) : (c.writeP r v).tcause = c.tcause :=
  by rw [Cox.writeP_eq]
@[simp] theorem Cox.writeP_tpc (c : Cox) (r : Fin 16) (v : Bool) : (c.writeP r v).tpc = c.tpc :=
  by rw [Cox.writeP_eq]
@[simp] theorem Cox.writeP_tregion (c : Cox) (r : Fin 16) (v : Bool) : (c.writeP r v).tregion = c.tregion :=
  by rw [Cox.writeP_eq]
@[simp] theorem Cox.writeP_taddr (c : Cox) (r : Fin 16) (v : Bool) : (c.writeP r v).taddr = c.taddr :=
  by rw [Cox.writeP_eq]
@[simp] theorem Cox.writeP_tinfo (c : Cox) (r : Fin 16) (v : Bool) : (c.writeP r v).tinfo = c.tinfo :=
  by rw [Cox.writeP_eq]
@[simp] theorem Cox.writeP_tint (c : Cox) (r : Fin 16) (v : Bool) : (c.writeP r v).tint = c.tint :=
  by rw [Cox.writeP_eq]
@[simp] theorem Cox.writeP_bfmt (c : Cox) (r : Fin 16) (v : Bool) : (c.writeP r v).bfmt = c.bfmt :=
  by rw [Cox.writeP_eq]
@[simp] theorem Cox.writeP_defer (c : Cox) (r : Fin 16) (v : Bool) : (c.writeP r v).defer = c.defer :=
  by rw [Cox.writeP_eq]
@[simp] theorem Cox.writeP_mcdelay (c : Cox) (r : Fin 16) (v : Bool) : (c.writeP r v).mcdelay = c.mcdelay :=
  by rw [Cox.writeP_eq]
@[simp] theorem Cox.writeP_wheel (c : Cox) (r : Fin 16) (v : Bool) : (c.writeP r v).wheel = c.wheel :=
  by rw [Cox.writeP_eq]
@[simp] theorem Cox.writeP_savePois (c : Cox) (r : Fin 16) (v : Bool) : (c.writeP r v).savePois = c.savePois :=
  by rw [Cox.writeP_eq]
@[simp] theorem Cox.writeP_saveSt (c : Cox) (r : Fin 16) (v : Bool) : (c.writeP r v).saveSt = c.saveSt :=
  by rw [Cox.writeP_eq]
@[simp] theorem Cox.writeP_mismatches (c : Cox) (r : Fin 16) (v : Bool) : (c.writeP r v).mismatches = c.mismatches :=
  by rw [Cox.writeP_eq]
@[simp] theorem Cox.writeP_checks (c : Cox) (r : Fin 16) (v : Bool) : (c.writeP r v).checks = c.checks :=
  by rw [Cox.writeP_eq]
@[simp] theorem Cox.writeP_stopped (c : Cox) (r : Fin 16) (v : Bool) : (c.writeP r v).stopped = c.stopped :=
  by rw [Cox.writeP_eq]
@[simp] theorem Cox.writeP_dbgHalted (c : Cox) (r : Fin 16) (v : Bool) : (c.writeP r v).dbgHalted = c.dbgHalted :=
  by rw [Cox.writeP_eq]
@[simp] theorem Cox.writeP_mustSave (c : Cox) (r : Fin 16) (v : Bool) : (c.writeP r v).mustSave = c.mustSave :=
  by rw [Cox.writeP_eq]
@[simp] theorem Cox.nextPc_x (c : Cox) : c.nextPc.x = c.x := by rw [Cox.nextPc_eq]
@[simp] theorem Cox.nextPc_xv (c : Cox) : c.nextPc.xv = c.xv := by rw [Cox.nextPc_eq]
@[simp] theorem Cox.nextPc_p (c : Cox) : c.nextPc.p = c.p := by rw [Cox.nextPc_eq]
@[simp] theorem Cox.nextPc_pv (c : Cox) : c.nextPc.pv = c.pv := by rw [Cox.nextPc_eq]
@[simp] theorem Cox.nextPc_imem (c : Cox) : c.nextPc.imem = c.imem := by rw [Cox.nextPc_eq]
@[simp] theorem Cox.nextPc_rf (c : Cox) : c.nextPc.rf = c.rf := by rw [Cox.nextPc_eq]
@[simp] theorem Cox.nextPc_nextReq (c : Cox) : c.nextPc.nextReq = c.nextReq := by rw [Cox.nextPc_eq]
@[simp] theorem Cox.nextPc_checkpoint (c : Cox) : c.nextPc.checkpoint = c.checkpoint := by rw [Cox.nextPc_eq]
@[simp] theorem Cox.nextPc_head (c : Cox) : c.nextPc.head = c.head := by rw [Cox.nextPc_eq]
@[simp] theorem Cox.nextPc_region (c : Cox) : c.nextPc.region = c.region := by rw [Cox.nextPc_eq]
@[simp] theorem Cox.nextPc_regcnt (c : Cox) : c.nextPc.regcnt = c.regcnt := by rw [Cox.nextPc_eq]
@[simp] theorem Cox.nextPc_flight (c : Cox) : c.nextPc.flight = c.flight := by rw [Cox.nextPc_eq]
@[simp] theorem Cox.nextPc_closing (c : Cox) : c.nextPc.closing = c.closing := by rw [Cox.nextPc_eq]
@[simp] theorem Cox.nextPc_nextIssue (c : Cox) : c.nextPc.nextIssue = c.nextIssue := by rw [Cox.nextPc_eq]
@[simp] theorem Cox.nextPc_halted (c : Cox) : c.nextPc.halted = c.halted := by rw [Cox.nextPc_eq]
@[simp] theorem Cox.nextPc_fault (c : Cox) : c.nextPc.fault = c.fault := by rw [Cox.nextPc_eq]
@[simp] theorem Cox.nextPc_pend (c : Cox) : c.nextPc.pend = c.pend := by rw [Cox.nextPc_eq]
@[simp] theorem Cox.nextPc_ie (c : Cox) : c.nextPc.ie = c.ie := by rw [Cox.nextPc_eq]
@[simp] theorem Cox.nextPc_tm (c : Cox) : c.nextPc.tm = c.tm := by rw [Cox.nextPc_eq]
@[simp] theorem Cox.nextPc_tvec (c : Cox) : c.nextPc.tvec = c.tvec := by rw [Cox.nextPc_eq]
@[simp] theorem Cox.nextPc_tcause (c : Cox) : c.nextPc.tcause = c.tcause := by rw [Cox.nextPc_eq]
@[simp] theorem Cox.nextPc_tpc (c : Cox) : c.nextPc.tpc = c.tpc := by rw [Cox.nextPc_eq]
@[simp] theorem Cox.nextPc_tregion (c : Cox) : c.nextPc.tregion = c.tregion := by rw [Cox.nextPc_eq]
@[simp] theorem Cox.nextPc_taddr (c : Cox) : c.nextPc.taddr = c.taddr := by rw [Cox.nextPc_eq]
@[simp] theorem Cox.nextPc_tinfo (c : Cox) : c.nextPc.tinfo = c.tinfo := by rw [Cox.nextPc_eq]
@[simp] theorem Cox.nextPc_tint (c : Cox) : c.nextPc.tint = c.tint := by rw [Cox.nextPc_eq]
@[simp] theorem Cox.nextPc_bfmt (c : Cox) : c.nextPc.bfmt = c.bfmt := by rw [Cox.nextPc_eq]
@[simp] theorem Cox.nextPc_defer (c : Cox) : c.nextPc.defer = c.defer := by rw [Cox.nextPc_eq]
@[simp] theorem Cox.nextPc_mcdelay (c : Cox) : c.nextPc.mcdelay = c.mcdelay := by rw [Cox.nextPc_eq]
@[simp] theorem Cox.nextPc_wheel (c : Cox) : c.nextPc.wheel = c.wheel := by rw [Cox.nextPc_eq]
@[simp] theorem Cox.nextPc_savePois (c : Cox) : c.nextPc.savePois = c.savePois := by rw [Cox.nextPc_eq]
@[simp] theorem Cox.nextPc_saveSt (c : Cox) : c.nextPc.saveSt = c.saveSt := by rw [Cox.nextPc_eq]
@[simp] theorem Cox.nextPc_mismatches (c : Cox) : c.nextPc.mismatches = c.mismatches := by rw [Cox.nextPc_eq]
@[simp] theorem Cox.nextPc_checks (c : Cox) : c.nextPc.checks = c.checks := by rw [Cox.nextPc_eq]
@[simp] theorem Cox.nextPc_stopped (c : Cox) : c.nextPc.stopped = c.stopped := by rw [Cox.nextPc_eq]
@[simp] theorem Cox.nextPc_dbgHalted (c : Cox) : c.nextPc.dbgHalted = c.dbgHalted := by rw [Cox.nextPc_eq]
@[simp] theorem Cox.nextPc_mustSave (c : Cox) : c.nextPc.mustSave = c.mustSave := by rw [Cox.nextPc_eq]
@[simp] theorem Cox.issued_x (c : Cox) (n : Nat) : (c.issued n).x = c.x := c.nextPc_x
@[simp] theorem Cox.issued_xv (c : Cox) (n : Nat) : (c.issued n).xv = c.xv := c.nextPc_xv
@[simp] theorem Cox.issued_p (c : Cox) (n : Nat) : (c.issued n).p = c.p := c.nextPc_p
@[simp] theorem Cox.issued_pv (c : Cox) (n : Nat) : (c.issued n).pv = c.pv := c.nextPc_pv
@[simp] theorem Cox.issued_imem (c : Cox) (n : Nat) : (c.issued n).imem = c.imem := c.nextPc_imem
@[simp] theorem Cox.issued_rf (c : Cox) (n : Nat) : (c.issued n).rf = c.rf := c.nextPc_rf
@[simp] theorem Cox.issued_nextReq (c : Cox) (n : Nat) : (c.issued n).nextReq = c.nextReq := c.nextPc_nextReq
@[simp] theorem Cox.issued_checkpoint (c : Cox) (n : Nat) : (c.issued n).checkpoint = c.checkpoint := c.nextPc_checkpoint
@[simp] theorem Cox.issued_head (c : Cox) (n : Nat) : (c.issued n).head = c.head := c.nextPc_head
@[simp] theorem Cox.issued_region (c : Cox) (n : Nat) : (c.issued n).region = c.region := c.nextPc_region
@[simp] theorem Cox.issued_regcnt (c : Cox) (n : Nat) : (c.issued n).regcnt = c.regcnt := c.nextPc_regcnt
@[simp] theorem Cox.issued_flight (c : Cox) (n : Nat) : (c.issued n).flight = c.flight := c.nextPc_flight
@[simp] theorem Cox.issued_closing (c : Cox) (n : Nat) : (c.issued n).closing = c.closing := c.nextPc_closing
@[simp] theorem Cox.issued_halted (c : Cox) (n : Nat) : (c.issued n).halted = c.halted := c.nextPc_halted
@[simp] theorem Cox.issued_fault (c : Cox) (n : Nat) : (c.issued n).fault = c.fault := c.nextPc_fault
@[simp] theorem Cox.issued_pend (c : Cox) (n : Nat) : (c.issued n).pend = c.pend := c.nextPc_pend
@[simp] theorem Cox.issued_ie (c : Cox) (n : Nat) : (c.issued n).ie = c.ie := c.nextPc_ie
@[simp] theorem Cox.issued_tm (c : Cox) (n : Nat) : (c.issued n).tm = c.tm := c.nextPc_tm
@[simp] theorem Cox.issued_tvec (c : Cox) (n : Nat) : (c.issued n).tvec = c.tvec := c.nextPc_tvec
@[simp] theorem Cox.issued_tcause (c : Cox) (n : Nat) : (c.issued n).tcause = c.tcause := c.nextPc_tcause
@[simp] theorem Cox.issued_tpc (c : Cox) (n : Nat) : (c.issued n).tpc = c.tpc := c.nextPc_tpc
@[simp] theorem Cox.issued_tregion (c : Cox) (n : Nat) : (c.issued n).tregion = c.tregion := c.nextPc_tregion
@[simp] theorem Cox.issued_taddr (c : Cox) (n : Nat) : (c.issued n).taddr = c.taddr := c.nextPc_taddr
@[simp] theorem Cox.issued_tinfo (c : Cox) (n : Nat) : (c.issued n).tinfo = c.tinfo := c.nextPc_tinfo
@[simp] theorem Cox.issued_tint (c : Cox) (n : Nat) : (c.issued n).tint = c.tint := c.nextPc_tint
@[simp] theorem Cox.issued_bfmt (c : Cox) (n : Nat) : (c.issued n).bfmt = c.bfmt := c.nextPc_bfmt
@[simp] theorem Cox.issued_defer (c : Cox) (n : Nat) : (c.issued n).defer = c.defer := c.nextPc_defer
@[simp] theorem Cox.issued_mcdelay (c : Cox) (n : Nat) : (c.issued n).mcdelay = c.mcdelay := c.nextPc_mcdelay
@[simp] theorem Cox.issued_wheel (c : Cox) (n : Nat) : (c.issued n).wheel = c.wheel := c.nextPc_wheel
@[simp] theorem Cox.issued_savePois (c : Cox) (n : Nat) : (c.issued n).savePois = c.savePois := c.nextPc_savePois
@[simp] theorem Cox.issued_saveSt (c : Cox) (n : Nat) : (c.issued n).saveSt = c.saveSt := c.nextPc_saveSt
@[simp] theorem Cox.issued_mismatches (c : Cox) (n : Nat) : (c.issued n).mismatches = c.mismatches := c.nextPc_mismatches
@[simp] theorem Cox.issued_checks (c : Cox) (n : Nat) : (c.issued n).checks = c.checks := c.nextPc_checks
@[simp] theorem Cox.issued_stopped (c : Cox) (n : Nat) : (c.issued n).stopped = c.stopped := c.nextPc_stopped
@[simp] theorem Cox.issued_dbgHalted (c : Cox) (n : Nat) : (c.issued n).dbgHalted = c.dbgHalted := c.nextPc_dbgHalted
@[simp] theorem Cox.issued_mustSave (c : Cox) (n : Nat) : (c.issued n).mustSave = c.mustSave := c.nextPc_mustSave
@[simp] theorem Cox.step_x (c : Cox) (n k : Nat) : (c.step n k).x = c.x := (c.pop k).issued_x n
@[simp] theorem Cox.step_xv (c : Cox) (n k : Nat) : (c.step n k).xv = c.xv := (c.pop k).issued_xv n
@[simp] theorem Cox.step_p (c : Cox) (n k : Nat) : (c.step n k).p = c.p := (c.pop k).issued_p n
@[simp] theorem Cox.step_pv (c : Cox) (n k : Nat) : (c.step n k).pv = c.pv := (c.pop k).issued_pv n
@[simp] theorem Cox.step_imem (c : Cox) (n k : Nat) : (c.step n k).imem = c.imem := (c.pop k).issued_imem n
@[simp] theorem Cox.step_nextReq (c : Cox) (n k : Nat) : (c.step n k).nextReq = c.nextReq := (c.pop k).issued_nextReq n
@[simp] theorem Cox.step_checkpoint (c : Cox) (n k : Nat) : (c.step n k).checkpoint = c.checkpoint := (c.pop k).issued_checkpoint n
@[simp] theorem Cox.step_head (c : Cox) (n k : Nat) : (c.step n k).head = c.head := (c.pop k).issued_head n
@[simp] theorem Cox.step_region (c : Cox) (n k : Nat) : (c.step n k).region = c.region := (c.pop k).issued_region n
@[simp] theorem Cox.step_regcnt (c : Cox) (n k : Nat) : (c.step n k).regcnt = c.regcnt := (c.pop k).issued_regcnt n
@[simp] theorem Cox.step_flight (c : Cox) (n k : Nat) : (c.step n k).flight = c.flight := (c.pop k).issued_flight n
@[simp] theorem Cox.step_closing (c : Cox) (n k : Nat) : (c.step n k).closing = c.closing := (c.pop k).issued_closing n
@[simp] theorem Cox.step_halted (c : Cox) (n k : Nat) : (c.step n k).halted = c.halted := (c.pop k).issued_halted n
@[simp] theorem Cox.step_fault (c : Cox) (n k : Nat) : (c.step n k).fault = c.fault := (c.pop k).issued_fault n
@[simp] theorem Cox.step_pend (c : Cox) (n k : Nat) : (c.step n k).pend = c.pend := (c.pop k).issued_pend n
@[simp] theorem Cox.step_ie (c : Cox) (n k : Nat) : (c.step n k).ie = c.ie := (c.pop k).issued_ie n
@[simp] theorem Cox.step_tm (c : Cox) (n k : Nat) : (c.step n k).tm = c.tm := (c.pop k).issued_tm n
@[simp] theorem Cox.step_tvec (c : Cox) (n k : Nat) : (c.step n k).tvec = c.tvec := (c.pop k).issued_tvec n
@[simp] theorem Cox.step_tcause (c : Cox) (n k : Nat) : (c.step n k).tcause = c.tcause := (c.pop k).issued_tcause n
@[simp] theorem Cox.step_tpc (c : Cox) (n k : Nat) : (c.step n k).tpc = c.tpc := (c.pop k).issued_tpc n
@[simp] theorem Cox.step_tregion (c : Cox) (n k : Nat) : (c.step n k).tregion = c.tregion := (c.pop k).issued_tregion n
@[simp] theorem Cox.step_taddr (c : Cox) (n k : Nat) : (c.step n k).taddr = c.taddr := (c.pop k).issued_taddr n
@[simp] theorem Cox.step_tinfo (c : Cox) (n k : Nat) : (c.step n k).tinfo = c.tinfo := (c.pop k).issued_tinfo n
@[simp] theorem Cox.step_tint (c : Cox) (n k : Nat) : (c.step n k).tint = c.tint := (c.pop k).issued_tint n
@[simp] theorem Cox.step_bfmt (c : Cox) (n k : Nat) : (c.step n k).bfmt = c.bfmt := (c.pop k).issued_bfmt n
@[simp] theorem Cox.step_defer (c : Cox) (n k : Nat) : (c.step n k).defer = c.defer := (c.pop k).issued_defer n
@[simp] theorem Cox.step_mcdelay (c : Cox) (n k : Nat) : (c.step n k).mcdelay = c.mcdelay := (c.pop k).issued_mcdelay n
@[simp] theorem Cox.step_wheel (c : Cox) (n k : Nat) : (c.step n k).wheel = c.wheel := (c.pop k).issued_wheel n
@[simp] theorem Cox.step_savePois (c : Cox) (n k : Nat) : (c.step n k).savePois = c.savePois := (c.pop k).issued_savePois n
@[simp] theorem Cox.step_saveSt (c : Cox) (n k : Nat) : (c.step n k).saveSt = c.saveSt := (c.pop k).issued_saveSt n
@[simp] theorem Cox.step_mismatches (c : Cox) (n k : Nat) : (c.step n k).mismatches = c.mismatches := (c.pop k).issued_mismatches n
@[simp] theorem Cox.step_checks (c : Cox) (n k : Nat) : (c.step n k).checks = c.checks := (c.pop k).issued_checks n
@[simp] theorem Cox.step_stopped (c : Cox) (n k : Nat) : (c.step n k).stopped = c.stopped := (c.pop k).issued_stopped n
@[simp] theorem Cox.step_dbgHalted (c : Cox) (n k : Nat) : (c.step n k).dbgHalted = c.dbgHalted := (c.pop k).issued_dbgHalted n
@[simp] theorem Cox.step_mustSave (c : Cox) (n k : Nat) : (c.step n k).mustSave = c.mustSave := (c.pop k).issued_mustSave n

/-! ## Reading back -/

@[simp] theorem State.tile_setTile_same (s : State) (t : TileId) (x : Tile) : (s.setTile t x).tile t = x :=
  Map.get_set_same _ _ _ _

/-- Another tile. -/
theorem State.tile_setTile_ne (s : State) (t u : TileId) (x : Tile) (h : u ≠ t) : (s.setTile t x).tile u = s.tile u :=
  Map.get_set_ne _ _ _ _ _ fun k => h (Fin.ext k)

@[simp] theorem State.tile_modTile_same (s : State) (t : TileId) (f : Tile → Tile) :
    (s.modTile t f).tile t = f (s.tile t) := s.tile_setTile_same t _

/-- Another tile. -/
theorem State.tile_modTile_ne (s : State) (t u : TileId) (f : Tile → Tile) (h : u ≠ t) :
    (s.modTile t f).tile u = s.tile u := s.tile_setTile_ne t u _ h

@[simp] theorem State.cox_modTile_same (s : State) (t : TileId) (f : Tile → Tile) :
    (s.modTile t f).cox t = (f (s.tile t)).cox := congrArg Tile.cox (s.tile_modTile_same t f)

@[simp] theorem State.cox_modCox_same (s : State) (t : TileId) (f : Cox → Cox) : (s.modCox t f).cox t = f (s.cox t) :=
  congrArg Tile.cox (s.tile_modTile_same t _)

/-- Another tile's Cox. -/
theorem State.cox_modCox_ne (s : State) (t u : TileId) (f : Cox → Cox) (h : u ≠ t) : (s.modCox t f).cox u = s.cox u :=
  congrArg Tile.cox (s.tile_modTile_ne t u _ h)

/-- What a change of the Cox leaves of its tile. -/
theorem State.tile_modCox_same (s : State) (t : TileId) (f : Cox → Cox) :
    (s.modCox t f).tile t = { s.tile t with cox := f (s.cox t) } := s.tile_modTile_same t _

@[simp] theorem Tile.eng_modEng_same (x : Tile) (e : Eng) (f : Engine → Engine) : (x.modEng e f).eng e = f (x.eng e) := by
  simp [Tile.eng, Tile.modEng]

/-- Another engine of the tile. -/
theorem Tile.eng_modEng_ne (x : Tile) (e e' : Eng) (f : Engine → Engine) (h : e' ≠ e) :
    (x.modEng e f).eng e' = x.eng e' := by
  have k : e.ix.val ≠ e'.ix.val := by cases e <;> cases e' <;> first | exact absurd rfl h | decide
  exact Vector.getElem_set_ne e.ix.isLt e'.ix.isLt k

@[simp] theorem State.crew_modCrew_same (s : State) (c : CrewId) (f : Crew → Crew) :
    (s.modCrew c f).crew c = f (s.crew c) := Map.get_set_same _ _ _ _

/-- Another crew. -/
theorem State.crew_modCrew_ne (s : State) (c d : CrewId) (f : Crew → Crew) (h : d ≠ c) :
    (s.modCrew c f).crew d = s.crew d := Map.get_set_ne _ _ _ _ _ fun k => h (Fin.ext k)

@[simp] theorem State.die_modDie_same (s : State) (d : DieId) (f : Die → Die) : (s.modDie d f).die d = f (s.die d) :=
  Map.get_set_same _ _ _ _

/-- Another die. -/
theorem State.die_modDie_ne (s : State) (d e : DieId) (f : Die → Die) (h : e ≠ d) : (s.modDie d f).die e = s.die e :=
  Map.get_set_ne _ _ _ _ _ fun k => h (Fin.ext k)

@[simp] theorem Die.queue_modQueue_same (x : Die) (q : QueueId) (f : LQueue → LQueue) :
    (x.modQueue q f).queue q = f (x.queue q) := Map.get_set_same _ _ _ _

/-- Another queue of the die. -/
theorem Die.queue_modQueue_ne (x : Die) (q r : QueueId) (f : LQueue → LQueue) (h : r ≠ q) :
    (x.modQueue q f).queue r = x.queue r := Map.get_set_ne _ _ _ _ _ fun k => h (Fin.ext k)

@[simp] theorem State.group_modGroup_same (s : State) (g : Nat) (f : Group → Group) :
    (s.modGroup g f).group g = f (s.group g) := Map.get_set_same _ _ _ _

/-- Another group. -/
theorem State.group_modGroup_ne (s : State) (g h : Nat) (f : Group → Group) (k : h ≠ g) :
    (s.modGroup g f).group h = s.group h := Map.get_set_ne _ _ _ _ _ k

@[simp] theorem State.home_modHome_same (s : State) (h : Nat) (f : Home → Home) :
    (s.modHome h f).home h = f (s.home h) := Map.get_set_same _ _ _ _

/-- Another home. -/
theorem State.home_modHome_ne (s : State) (h k : Nat) (f : Home → Home) (n : k ≠ h) :
    (s.modHome h f).home k = s.home k := Map.get_set_ne _ _ _ _ _ n

@[simp] theorem State.extent?_setExtent_same (s : State) (e : Nat) (x : Extent) :
    (s.setExtent e x).extent? e = some x := Map.find?_set_same _ _ _

/-- Another extent. -/
theorem State.extent?_setExtent_ne (s : State) (e k : Nat) (x : Extent) (h : k ≠ e) :
    (s.setExtent e x).extent? k = s.extent? k := Map.find?_set_ne _ _ _ _ h

/-! ## The unit at work -/

@[simp] theorem State.curTile_setTile (s : State) (t : TileId) (x : Tile) : (s.setTile t x).curTile = s.curTile := rfl
@[simp] theorem State.curTile_modTile (s : State) (t : TileId) (f : Tile → Tile) : (s.modTile t f).curTile = s.curTile := rfl
@[simp] theorem State.curTile_modCox (s : State) (t : TileId) (f : Cox → Cox) : (s.modCox t f).curTile = s.curTile := rfl
@[simp] theorem State.curTile_modEng (s : State) (t : TileId) (e : Eng) (f : Engine → Engine) : (s.modEng t e f).curTile = s.curTile := rfl
@[simp] theorem State.curTile_modCrew (s : State) (c : CrewId) (f : Crew → Crew) : (s.modCrew c f).curTile = s.curTile := rfl
@[simp] theorem State.curTile_modDie (s : State) (d : DieId) (f : Die → Die) : (s.modDie d f).curTile = s.curTile := rfl
@[simp] theorem State.curTile_modDev (s : State) (f : DevMem → DevMem) : (s.modDev f).curTile = s.curTile := rfl
@[simp] theorem State.curTile_modSys (s : State) (f : Sys → Sys) : (s.modSys f).curTile = s.curTile := rfl
@[simp] theorem State.curTile_setExtent (s : State) (e : Nat) (x : Extent) : (s.setExtent e x).curTile = s.curTile := rfl
@[simp] theorem State.curTile_modHome (s : State) (h : Nat) (f : Home → Home) : (s.modHome h f).curTile = s.curTile := rfl
@[simp] theorem State.curTile_modLaunch (s : State) (i : BitVec 32) (f : Launch → Launch) : (s.modLaunch i f).curTile = s.curTile := rfl
@[simp] theorem State.curTile_tick (s : State) (n : Nat) : (s.tick n).curTile = s.curTile := rfl
@[simp] theorem State.curTile_coxFault (s : State) (t : TileId) (k : Byte) (i a : Word) : (s.coxFault t k i a).curTile = s.curTile := rfl
@[simp] theorem State.curTile_sendX (s : State) (d : Fin 64) (v : Word) (l : Nat) : (s.sendX d v l).curTile = s.curTile := rfl
@[simp] theorem State.curTile_sendP (s : State) (d : Fin 16) (b : Bool) (l : Nat) : (s.sendP d b l).curTile = s.curTile := rfl
@[simp] theorem State.curTile_retireAt (s : State) (n : Nat) : (s.retireAt n).curTile = s.curTile := rfl
@[simp] theorem State.curTile_request (s : State) (x y : Bool) (p : Word) (r : ReqAct) : (s.request x y p r).curTile = s.curTile := rfl
@[simp] theorem State.curTile_longLatency (s : State) (x y : Bool) (p : Word) (r : ReqAct) : (s.longLatency x y p r).curTile = s.curTile := rfl
@[simp] theorem State.curTile_dropClosing (s : State) (t : TileId) : (s.dropClosing t).curTile = s.curTile := rfl
@[simp] theorem State.curTile_retireClosing (s : State) (t : TileId) : (s.retireClosing t).curTile = s.curTile := rfl
@[simp] theorem State.curTile_refuseClosing (s : State) (t : TileId) (r : Req) (e : Trap) : (s.refuseClosing t r e).curTile = s.curTile := rfl

end Sys2Proof.Machine
end

