-- ==== Sys2Proof/Laws/Ops.lean ====
section
/-! SUPPORT. What the shared operations do: the issue of a Cox word (Machine/Operands.lean), its faults and waits. -/

namespace Sys2Proof.Machine

open Sys2Proof

/-! ## The unit at work -/

theorem State.curTile_cox {s : State} {t : TileId} (h : s.cur = .cox t) : s.curTile = t := by
  simp [State.curTile, h]

theorem State.curTile_eng {s : State} {t : TileId} {e : Eng} (h : s.cur = .eng t e) : s.curTile = t := by
  simp [State.curTile, h]

theorem State.curEng_eng {s : State} {t : TileId} {e : Eng} (h : s.cur = .eng t e) : s.curEng = e := by
  simp [State.curEng, h]

/-! ## `coxIssued` and what follows it -/

@[simp] theorem coxIssued_curTile (s : State) (t : TileId) (l : List COp) : (coxIssued s t l).curTile = s.curTile := rfl
@[simp] theorem coxIssued_gtime (s : State) (t : TileId) (l : List COp) : (coxIssued s t l).gtime = s.gtime := rfl
@[simp] theorem coxClosing_curTile (s : State) (t : TileId) (l : List COp) : (coxClosing s t l).curTile = s.curTile := rfl
@[simp] theorem coxClosing_gtime (s : State) (t : TileId) (l : List COp) : (coxClosing s t l).gtime = s.gtime := rfl

/-! ## The issue of a Cox word -/

/-- A word that runs has its effect `k` on the values of its sources. -/
theorem State.runCox_runs {s : State} {t : TileId} {g : CGuard} {srcs : List COp} (h : CoxRuns s t g srcs)
    (k : List Word → State → CoxRes) :
    s.runCox g srcs k =
      match k ((s.cox t).values srcs ((s.cox t).popped (popCount srcs))) (coxIssued s t srcs) with
      | .done s2 => s2
      | .wait => s
      | .waitIn s2 => s2
      | .fault code info addr => s.coxFault t code info addr := by
  have h1 := State.curTile_cox h.atWork
  have h2 : srcs.all (s.cox t).opValid = true := List.all_eq_true.2 h.readable
  simp only [State.runCox, h1, h.guardReadable, h.arrived, h.guardTrue, h2, coxIssued, Bool.true_eq_false, if_false]
  try rfl

/-- The same for a word that closes its region, outside a delay slot. -/
theorem State.runClosing_runs {s : State} {t : TileId} {g : CGuard} {srcs : List COp} (h : CoxRuns s t g srcs)
    (hb : (s.cox t).branch = none) (k : List Word → State → CoxRes) :
    s.runClosing g srcs k =
      match k ((s.cox t).values srcs ((s.cox t).popped (popCount srcs))) (coxClosing s t srcs) with
      | .done s2 => s2
      | .wait => s
      | .waitIn s2 => s2
      | .fault code info addr => s.coxFault t code info addr := by
  have h1 := State.curTile_cox h.atWork
  simp only [State.runClosing, h1, Cox.inSlot, hb, Option.isSome_none, Bool.false_eq_true, if_false,
    State.runCox_runs h, coxClosing]

/-- R55, R252: a guard that is not valid. -/
theorem State.runCox_badGuard {s : State} {t : TileId} {g : CGuard} {srcs : List COp} (hc : s.cur = .cox t)
    (h : (s.cox t).guardValid g = false) (k : List Word → State → CoxRes) :
    s.runCox g srcs k = s.coxFault t cINVREG 0 0 := by
  simp [State.runCox, State.curTile_cox hc, h]

/-- R255: a pop of an empty FIFO. -/
theorem State.runCox_empty {s : State} {t : TileId} {g : CGuard} {srcs : List COp} (hc : s.cur = .cox t)
    (hg : (s.cox t).guardValid g = true) (h : (s.cox t).popReady (popCount srcs) = none)
    (k : List Word → State → CoxRes) : s.runCox g srcs k = s.coxFault t cINVREG 0 0 := by
  simp [State.runCox, State.curTile_cox hc, hg, h]

/-- R255: a pop that waits. -/
theorem State.runCox_waits {s : State} {t : TileId} {g : CGuard} {srcs : List COp} (hc : s.cur = .cox t)
    (hg : (s.cox t).guardValid g = true) (h : (s.cox t).popReady (popCount srcs) = some false)
    (k : List Word → State → CoxRes) : s.runCox g srcs k = s := by
  simp [State.runCox, State.curTile_cox hc, hg, h]

/-- R55: a guard that is false. -/
theorem State.runCox_off {s : State} {t : TileId} {g : CGuard} {srcs : List COp} (hc : s.cur = .cox t)
    (hg : (s.cox t).guardValid g = true) (hp : (s.cox t).popReady (popCount srcs) = some true)
    (h : (s.cox t).guardOn g = false) (k : List Word → State → CoxRes) : s.runCox g srcs k = coxIssued s t srcs := by
  simp [State.runCox, State.curTile_cox hc, hg, hp, h, coxIssued]

/-- R252: a source that is not valid. -/
theorem State.runCox_badSource {s : State} {t : TileId} {g : CGuard} {srcs : List COp} (hc : s.cur = .cox t)
    (hg : (s.cox t).guardValid g = true) (hp : (s.cox t).popReady (popCount srcs) = some true)
    (ho : (s.cox t).guardOn g = true) (h : ∃ o ∈ srcs, (s.cox t).opValid o = false) (k : List Word → State → CoxRes) :
    s.runCox g srcs k = s.coxFault t cINVREG 0 0 := by
  have h2 : srcs.all (s.cox t).opValid = false := List.all_eq_false.2 (by simpa using h)
  simp [State.runCox, State.curTile_cox hc, hg, hp, ho, h2]

/-! ## Every Cox word issues by `runCox` -/

/-- R258: a closing word outside a delay slot. -/
theorem State.runClosing_open {s : State} {t : TileId} {g : CGuard} {srcs : List COp} (hc : s.cur = .cox t)
    (hb : (s.cox t).branch = none) (k : List Word → State → CoxRes) :
    s.runClosing g srcs k = s.runCox g srcs fun v s1 => k v (s1.modCox t fun c => { c with closing := true }) := by
  simp [State.runClosing, State.curTile_cox hc, Cox.inSlot, hb]

/-- R272: a branch word outside a delay slot. -/
theorem State.runBranch_open {s : State} {t : TileId} {g : CGuard} {srcs : List COp} (hc : s.cur = .cox t)
    (hb : (s.cox t).branch = none) (k : List Word → Word → State → State) :
    s.runBranch g srcs k = s.runCox g srcs fun v s1 => .done (k v (s.cox t).pc s1) := by
  simp [State.runBranch, State.curTile_cox hc, Cox.inSlot, hb]

/-- Outside a delay slot every Cox word is `runCox` with the guard and sources of `Instr.coxHead`. -/
theorem exec_coxHead {i : Instr} {g : CGuard} {srcs : List COp} (h : i.coxHead = some (g, srcs)) {s : State} {t : TileId}
    (hc : s.cur = .cox t) (hb : (s.cox t).branch = none) : ∃ k, exec i s = .next (s.runCox g srcs k) := by
  have c1 := fun g srcs k =>
    congrArg (Host.Outcome.next (φ := Fault) (ρ := Refusal)) (State.runClosing_open (g := g) (srcs := srcs) hc hb k)
  have c2 := fun g srcs k =>
    congrArg (Host.Outcome.next (φ := Fault) (ρ := Refusal)) (State.runBranch_open (g := g) (srcs := srcs) hc hb k)
  cases i <;> simp only [Instr.coxHead, Option.some.injEq, Prod.mk.injEq, reduceCtorEq] at h <;> (obtain ⟨rfl, rfl⟩ := h) <;>
    first
    | exact ⟨_, rfl⟩
    | exact ⟨_, c1 _ _ _⟩
    | exact ⟨_, c2 _ _ _⟩
    | skip
  rename_i d n
  by_cases hn : n = 0x031
  · subst hn
    exact ⟨_, c1 _ _ _⟩
  · exact ⟨_, by simp only [exec, execCsrr, hn, if_false]; rfl⟩

end Sys2Proof.Machine
end

