-- ==== Sys2Proof/Laws/Engines.lean ====
section
/-! SUPPORT. What the shared operations of the engines do: the issue of a V word, of an M word, of a command of Portage
(Machine/Vector.lean, Machine/Crew.lean, Machine/PortageRun.lean), with their waits and faults. -/

namespace Sys2Proof.Machine

open Sys2Proof

/-! ## The vector engine (R181, R183, R206) -/

/-- A V word whose sources can be read has its effect `k` on its mask and its sources' lanes. -/
theorem State.runV_runs {s : State} {t : TileId} {h : VHead} {srcs : List VIn} (r : VRuns s t h srcs) (dst : Option VOut)
    (lat : Nat) (code : Byte) (k : Lane → List Lanes → VOwn) :
    s.runV h srcs dst lat code k =
      match k ((s.tile t).v.guard h.g) ((s.tile t).vValues srcs []), dst with
      | .fault c a, _ => s.engFault t .v c 0 a
      | .wait, _ => s
      | .write w f, _ => (f s).vDone t h.tok srcs lat code w
      | .lanes v, some d => s.vTo t h.tok srcs d ((s.tile t).v.guard h.g) lat code v
      | .lanes _, none => s.vDone t h.tok srcs lat code .none := by
  have h1 := State.curTile_eng r.atWork
  have h2 : ¬((s.tile t).v.guard h.g ≠ 0 ∧ srcs.all (s.tile t).v.inValid = false) := by
    rintro ⟨a, b⟩
    have : srcs.all (s.tile t).v.inValid = true := List.all_eq_true.2 (r.readable a)
    simp [this] at b
  have h3 : ((popsOf srcs []).findSome? fun p => (s.tile t).popFault p.1 p.2) = none :=
    List.findSome?_eq_none_iff.2 r.popped
  simp only [State.runV, h1, r.token, r.guardReadable, Bool.true_eq_false, if_false, if_neg h2, h3]
  try rfl

/-- R56: a V word that pops a token waits for it. -/
theorem State.runV_waits {s : State} {t : TileId} {h : VHead} {srcs : List VIn} (hc : s.cur = .eng t .v)
    (hp : (s.tile t).canPop .v h.tok.pop = false) (dst : Option VOut) (lat : Nat) (code : Byte)
    (k : Lane → List Lanes → VOwn) : s.runV h srcs dst lat code k = s := by
  simp [State.runV, State.curTile_eng hc, hp]

/-- R183, R206: a guard that is not valid. -/
theorem State.runV_badGuard {s : State} {t : TileId} {h : VHead} {srcs : List VIn} (hc : s.cur = .eng t .v)
    (hp : (s.tile t).canPop .v h.tok.pop = true) (hg : (s.tile t).v.inValid (.k h.g.k) = false) (dst : Option VOut)
    (lat : Nat) (code : Byte) (k : Lane → List Lanes → VOwn) :
    s.runV h srcs dst lat code k = s.engFault t .v cINVREG 0 := by
  simp [State.runV, State.curTile_eng hc, hp, hg]

/-- R183, R206: with a lane enabled, a source that is not valid. -/
theorem State.runV_badSource {s : State} {t : TileId} {h : VHead} {srcs : List VIn} (hc : s.cur = .eng t .v)
    (hp : (s.tile t).canPop .v h.tok.pop = true) (hg : (s.tile t).v.inValid (.k h.g.k) = true)
    (hm : (s.tile t).v.guard h.g ≠ 0) (hs : ∃ o ∈ srcs, (s.tile t).v.inValid o = false) (dst : Option VOut)
    (lat : Nat) (code : Byte) (k : Lane → List Lanes → VOwn) :
    s.runV h srcs dst lat code k = s.engFault t .v cINVREG 0 := by
  have h2 : srcs.all (s.tile t).v.inValid = false := List.all_eq_false.2 (by simpa using hs)
  simp only [State.runV, State.curTile_eng hc, hp, hg, h2, Bool.true_eq_false, if_false]
  rw [if_pos ⟨hm, trivial⟩]

/-- R171, R356: the fault of a port position that the word pops, the first in the order of its fields; a position whose fetch
met an error is contained, and V stops. -/
theorem State.runV_popFault {s : State} {t : TileId} {h : VHead} {srcs : List VIn} {f : Byte × Nat}
    (hc : s.cur = .eng t .v) (hp : (s.tile t).canPop .v h.tok.pop = true)
    (hg : (s.tile t).v.inValid (.k h.g.k) = true) (hs : ∀ o ∈ srcs, (s.tile t).v.inValid o = true)
    (hf : ((popsOf srcs []).findSome? fun p => (s.tile t).popFault p.1 p.2) = some f) (dst : Option VOut)
    (lat : Nat) (code : Byte) (k : Lane → List Lanes → VOwn) :
    s.runV h srcs dst lat code k =
      if f.1 = cMCSRAM then (s.containTile t cMCSRAM none).modEng t .v fun g => { g with stopped := true }
      else s.engFault t .v f.1 0 (BitVec.ofNat 64 f.2) := by
  have h2 : srcs.all (s.tile t).v.inValid = true := List.all_eq_true.2 hs
  simp [State.runV, State.curTile_eng hc, hp, hg, h2, hf]

/-! ## The matrix engine (R209, R210, R224) -/

/-- An M word waits for its lease, for a replay to end, for the read phase of the Eight, and for its token. -/
theorem State.runM_waits {s : State} {t : TileId} (hc : s.cur = .eng t .m) (bad : Bool) (w : MWord) (f : MState → MState)
    (h : s.mOpen t = false ∨ (s.tile t).canPop .m w.tok.pop = false) : s.runM bad w f = s := by
  simp only [State.runM, State.curTile_eng hc]
  rw [if_pos h]

/-- What an M word does once nothing holds it back: its checks in order, the wait for a bank in REPLAY, its issue. -/
theorem State.runM_runs {s : State} {t : TileId} {w : MWord} (r : MRuns s t w.tok) (bad : Bool) (f : MState → MState) :
    s.runM bad w f =
      if bad then s.engFault t .m cSGBAD 0
      else match (s.crew (crewOf t)).unready w.slots, (s.crew (crewOf t)).unallocated w.touched with
        | some n, _ => s.engFault t .m cSLOTSTATE 0 (BitVec.ofNat 64 n)
        | none, some b => s.engFault t .m cACCUNALLOC 0 (BitVec.ofNat 64 b)
        | none, none => if (s.crew (crewOf t)).replaying w.touched then s else s.issueM t w f := by
  have h : ¬(s.mOpen t = false ∨ (s.tile t).canPop .m w.tok.pop = false) := by
    simp [State.mOpen, r.held, r.noReplay, r.token, r.free]
  simp only [State.runM, State.curTile_eng r.atWork]
  exact (if_neg h).trans rfl

/-- A word that names no slot and no bank issues. -/
theorem State.runM_plain {s : State} {t : TileId} {w : MWord} (r : MRuns s t w.tok) (hs : w.slots = []) (hb : w.touched = [])
    (f : MState → MState) : s.runM false w f = s.issueM t w f := by
  simp [State.runM_runs r, hs, hb, Crew.unready, Crew.unallocated, Crew.replaying]

/-! ## Portage (R124) -/

/-- R146: the word at work of an entry has neither retired nor begun before. -/
theorem State.unissued_fresh {g : Engine} (hn : ∀ n, g.cur? = some n → g.index ∉ n.retired ∧ ∀ a ∈ n.again, a.1 ≠ g.index) :
    ((g.cur?.map Entry.retired).any fun l => l.contains g.index) = false ∧
      (g.cur?.bind fun n => n.again.find? fun a => a.1 = g.index) = none := by
  cases h : g.cur? with
  | none => simp
  | some n =>
    obtain ⟨h1, h2⟩ := hn n h
    exact ⟨by simp [h1], by simpa using h2⟩

/-- R56, R146: no command of the entry at work with the number of its next word is in the time buffer. -/
theorem State.unissued_buffer {x : Tile} {e : Eng} {g : Engine}
    (hb : ∀ c ∈ x.portage.buffer, c.stream = e → c.seq = g.curSeq → c.index ≠ g.index) :
    (x.portage.buffer.any fun c => c.stream == e && c.seq == g.curSeq && c.index == g.index) = false :=
  List.any_eq_false.2 fun c hc h => by
    simp only [Bool.and_eq_true, beq_iff_eq] at h
    exact hb c hc h.1.1 h.1.2 h.2

/-- R124, R56: a command with no room in the time buffer, or without its token, waits. -/
theorem State.issueCmd_waits {s : State} {t : TileId} {e : Eng} (hc : s.cur = .eng t e) {tok : Tok}
    (hn : ∀ n, ((s.tile t).eng e).cur? = some n →
      ((s.tile t).eng e).index ∉ n.retired ∧ ∀ a ∈ n.again, a.1 ≠ ((s.tile t).eng e).index)
    (hb : ∀ c ∈ (s.tile t).portage.buffer, c.stream = e → c.seq = ((s.tile t).eng e).curSeq →
      c.index ≠ ((s.tile t).eng e).index)
    (h : (s.tile t).cmdRoom e tok = false) (i : Instr) (at' until' : Int) (ends : Bool) :
    s.issueCmd i tok at' until' ends = s := by
  have hx := State.unissued_fresh hn
  simp only [State.issueCmd, State.curTile_eng hc, State.curEng_eng hc, State.unissued_buffer hb, hx.1, hx.2, h,
    Bool.false_eq_true, or_self, if_false, if_true]

/-- R124: a command that has room enters the time buffer last, with the number that comes next. -/
theorem State.issueCmd_runs {s : State} {t : TileId} {e : Eng} {tok : Tok} (r : CmdRuns s t e tok) (i : Instr)
    (at' until' : Int) (ends : Bool) :
    ∃ c : PCmd, c.id = (s.tile t).portage.nextId ∧ c.stream = e ∧ c.instr = i ∧ c.push = tok.push ∧ c.t = at' ∧
      c.waitFor = until' ∧ c.stage = .buffered ∧ c.prog = none ∧ c.resume = (0, 0, 0) ∧
      s.issueCmd i tok at' until' ends = s.modTile t fun x =>
        ((x.popToken e tok.pop).modEng e fun g => { (if ends then g.issueEnd else g.issue) with
          nextIssue := s.gtime + 1 }).addCmd c := by
  have h : (s.tile t).cmdRoom e tok = true := by
    have h1 : ((s.tile t).portage.buffer.any fun c => c.stream == e && isCwait c.instr) = false :=
      List.any_eq_false.2 fun c hc => by
        by_cases hs : c.stream = e <;> simp [hs, r.noWait c hc]
    simp only [Tile.cmdRoom, Tile.bufferRoom, h1, r.token, decide_eq_true r.buffered]
    rfl
  have hx := State.unissued_fresh r.unissued
  refine ⟨s.newCmd i tok at' until' (0, 0, 0), ?_, ?_, rfl, rfl, rfl, rfl, rfl, rfl, rfl, ?_⟩
  · simp [State.newCmd, State.curTile_eng r.atWork]
  · simp [State.newCmd, State.curEng_eng r.atWork]
  · simp only [State.issueCmd, State.curTile_eng r.atWork, State.curEng_eng r.atWork, State.unissued_buffer r.fresh, hx.1, hx.2,
      h, Bool.false_eq_true, or_self, Bool.true_eq_false, if_false]

end Sys2Proof.Machine
end

