-- ==== Sys2Proof/Laws/PerInstr.lean ====
section
/-! SUPPORT. The family RoundTrip: for every constructor, a well-formed word decodes from its own encoding. -/

open Sys2Proof

/-- Every well-formed word of a stream, and every well-formed step word, decodes from its own encoding. -/
def Sys2Proof.Laws.RoundTrip.Statement (i : Instr) : Prop :=
  (∀ st, i.wf st = true → WordTrips st i) ∧ (i.wfStep = true → StepTrips i)

/-- A word of the Cox stream. -/
theorem Sys2Proof.Laws.RoundTrip.of_cox {i : Instr} (h0 : i.wf .l = false) (h1 : i.wf .v = false) (h2 : i.wf .m = false) (h3 : i.wf .s = false)
    (hs : i.wfStep = false) (h : i.wf .cox = true → WordTrips .cox i) : Sys2Proof.Laws.RoundTrip.Statement i := by
  refine ⟨fun st hw => ?_, fun k => Bool.noConfusion (hs.symm.trans k)⟩
  cases st <;> first | exact h hw | simp_all

/-- A word of the V stream. -/
theorem Sys2Proof.Laws.RoundTrip.of_v {i : Instr} (h0 : i.wf .cox = false) (h1 : i.wf .l = false) (h2 : i.wf .m = false) (h3 : i.wf .s = false)
    (hs : i.wfStep = false) (h : i.wf .v = true → WordTrips .v i) : Sys2Proof.Laws.RoundTrip.Statement i := by
  refine ⟨fun st hw => ?_, fun k => Bool.noConfusion (hs.symm.trans k)⟩
  cases st <;> first | exact h hw | simp_all

/-- A word of the M stream. -/
theorem Sys2Proof.Laws.RoundTrip.of_m {i : Instr} (h0 : i.wf .cox = false) (h1 : i.wf .l = false) (h2 : i.wf .v = false) (h3 : i.wf .s = false)
    (hs : i.wfStep = false) (h : i.wf .m = true → WordTrips .m i) : Sys2Proof.Laws.RoundTrip.Statement i := by
  refine ⟨fun st hw => ?_, fun k => Bool.noConfusion (hs.symm.trans k)⟩
  cases st <;> first | exact h hw | simp_all

/-- A word of the L stream alone. -/
theorem Sys2Proof.Laws.RoundTrip.of_l {i : Instr} (h0 : i.wf .cox = false) (h1 : i.wf .v = false) (h2 : i.wf .m = false) (h3 : i.wf .s = false)
    (hs : i.wfStep = false) (h : i.wf .l = true → WordTrips .l i) : Sys2Proof.Laws.RoundTrip.Statement i := by
  refine ⟨fun st hw => ?_, fun k => Bool.noConfusion (hs.symm.trans k)⟩
  cases st <;> first | exact h hw | simp_all

/-- A word of both copy streams. -/
theorem Sys2Proof.Laws.RoundTrip.of_ls {i : Instr} (h0 : i.wf .cox = false) (h1 : i.wf .v = false) (h2 : i.wf .m = false)
    (hs : i.wfStep = false) (h : ∀ st e, st.ls? = some e → i.wf st = true → WordTrips st i) :
    Sys2Proof.Laws.RoundTrip.Statement i := by
  refine ⟨fun st hw => ?_, fun k => Bool.noConfusion (hs.symm.trans k)⟩
  cases st <;> first | exact h _ _ rfl hw | simp_all

/-- A step word. -/
theorem Sys2Proof.Laws.RoundTrip.of_step {i : Instr} (h0 : i.wf .cox = false) (h1 : i.wf .l = false) (h2 : i.wf .v = false)
    (h3 : i.wf .m = false) (h4 : i.wf .s = false) (h : i.wfStep = true → StepTrips i) :
    Sys2Proof.Laws.RoundTrip.Statement i := by
  refine ⟨fun st hw => ?_, h⟩
  cases st <;> simp_all

/-- An event is a word of no stream. -/
theorem Sys2Proof.Laws.RoundTrip.of_event {i : Instr} (h0 : i.wf .cox = false) (h1 : i.wf .l = false) (h2 : i.wf .v = false)
    (h3 : i.wf .m = false) (h4 : i.wf .s = false) (hs : i.wfStep = false) : Sys2Proof.Laws.RoundTrip.Statement i :=
  of_step h0 h1 h2 h3 h4 fun k => Bool.noConfusion (hs.symm.trans k)

theorem Sys2Proof.Laws.RoundTrip.add (o : Alu3) : Sys2Proof.Laws.RoundTrip.Statement (.add o) :=
  of_cox rfl rfl rfl rfl rfl (fun h => trip_alu3 o 0x00 .add h (by decide) rfl rfl)
theorem Sys2Proof.Laws.RoundTrip.sub (o : Alu3) : Sys2Proof.Laws.RoundTrip.Statement (.sub o) :=
  of_cox rfl rfl rfl rfl rfl (fun h => trip_alu3 o 0x01 .sub h (by decide) rfl rfl)
theorem Sys2Proof.Laws.RoundTrip.mul (o : Alu3) : Sys2Proof.Laws.RoundTrip.Statement (.mul o) :=
  of_cox rfl rfl rfl rfl rfl (fun h => trip_alu3 o 0x02 .mul h (by decide) rfl rfl)
theorem Sys2Proof.Laws.RoundTrip.mulh (o : Alu3) : Sys2Proof.Laws.RoundTrip.Statement (.mulh o) :=
  of_cox rfl rfl rfl rfl rfl (fun h => trip_alu3 o 0x03 .mulh h (by decide) rfl rfl)
theorem Sys2Proof.Laws.RoundTrip.mulhn (o : Alu3) : Sys2Proof.Laws.RoundTrip.Statement (.mulhn o) :=
  of_cox rfl rfl rfl rfl rfl (fun h => trip_alu3 o 0x04 .mulhn h (by decide) rfl rfl)
theorem Sys2Proof.Laws.RoundTrip.div (o : Alu3) : Sys2Proof.Laws.RoundTrip.Statement (.div o) :=
  of_cox rfl rfl rfl rfl rfl (fun h => trip_alu3 o 0x05 .div h (by decide) rfl rfl)
theorem Sys2Proof.Laws.RoundTrip.divn (o : Alu3) : Sys2Proof.Laws.RoundTrip.Statement (.divn o) :=
  of_cox rfl rfl rfl rfl rfl (fun h => trip_alu3 o 0x06 .divn h (by decide) rfl rfl)
theorem Sys2Proof.Laws.RoundTrip.rem (o : Alu3) : Sys2Proof.Laws.RoundTrip.Statement (.rem o) :=
  of_cox rfl rfl rfl rfl rfl (fun h => trip_alu3 o 0x07 .rem h (by decide) rfl rfl)
theorem Sys2Proof.Laws.RoundTrip.remn (o : Alu3) : Sys2Proof.Laws.RoundTrip.Statement (.remn o) :=
  of_cox rfl rfl rfl rfl rfl (fun h => trip_alu3 o 0x08 .remn h (by decide) rfl rfl)
theorem Sys2Proof.Laws.RoundTrip.and (o : Alu3) : Sys2Proof.Laws.RoundTrip.Statement (.and o) :=
  of_cox rfl rfl rfl rfl rfl (fun h => trip_alu3 o 0x09 .and h (by decide) rfl rfl)
theorem Sys2Proof.Laws.RoundTrip.or (o : Alu3) : Sys2Proof.Laws.RoundTrip.Statement (.or o) :=
  of_cox rfl rfl rfl rfl rfl (fun h => trip_alu3 o 0x0A .or h (by decide) rfl rfl)
theorem Sys2Proof.Laws.RoundTrip.xor (o : Alu3) : Sys2Proof.Laws.RoundTrip.Statement (.xor o) :=
  of_cox rfl rfl rfl rfl rfl (fun h => trip_alu3 o 0x0B .xor h (by decide) rfl rfl)
theorem Sys2Proof.Laws.RoundTrip.andn (o : Alu3) : Sys2Proof.Laws.RoundTrip.Statement (.andn o) :=
  of_cox rfl rfl rfl rfl rfl (fun h => trip_alu3 o 0x0C .andn h (by decide) rfl rfl)
theorem Sys2Proof.Laws.RoundTrip.shl (o : Alu3) : Sys2Proof.Laws.RoundTrip.Statement (.shl o) :=
  of_cox rfl rfl rfl rfl rfl (fun h => trip_alu3 o 0x0D .shl h (by decide) rfl rfl)
theorem Sys2Proof.Laws.RoundTrip.shr (o : Alu3) : Sys2Proof.Laws.RoundTrip.Statement (.shr o) :=
  of_cox rfl rfl rfl rfl rfl (fun h => trip_alu3 o 0x0E .shr h (by decide) rfl rfl)
theorem Sys2Proof.Laws.RoundTrip.sra (o : Alu3) : Sys2Proof.Laws.RoundTrip.Statement (.sra o) :=
  of_cox rfl rfl rfl rfl rfl (fun h => trip_alu3 o 0x0F .sra h (by decide) rfl rfl)
theorem Sys2Proof.Laws.RoundTrip.rot (o : Alu3) : Sys2Proof.Laws.RoundTrip.Statement (.rot o) :=
  of_cox rfl rfl rfl rfl rfl (fun h => trip_alu3 o 0x10 .rot h (by decide) rfl rfl)
theorem Sys2Proof.Laws.RoundTrip.clz (o : Alu1) : Sys2Proof.Laws.RoundTrip.Statement (.clz o) :=
  of_cox rfl rfl rfl rfl rfl (fun _ => trip_alu1 o 0x11 .clz (by decide) rfl rfl)
theorem Sys2Proof.Laws.RoundTrip.ctz (o : Alu1) : Sys2Proof.Laws.RoundTrip.Statement (.ctz o) :=
  of_cox rfl rfl rfl rfl rfl (fun _ => trip_alu1 o 0x12 .ctz (by decide) rfl rfl)
theorem Sys2Proof.Laws.RoundTrip.popc (o : Alu1) : Sys2Proof.Laws.RoundTrip.Statement (.popc o) :=
  of_cox rfl rfl rfl rfl rfl (fun _ => trip_alu1 o 0x13 .popc (by decide) rfl rfl)
theorem Sys2Proof.Laws.RoundTrip.min (o : Alu3) : Sys2Proof.Laws.RoundTrip.Statement (.min o) :=
  of_cox rfl rfl rfl rfl rfl (fun h => trip_alu3 o 0x14 .min h (by decide) rfl rfl)
theorem Sys2Proof.Laws.RoundTrip.max (o : Alu3) : Sys2Proof.Laws.RoundTrip.Statement (.max o) :=
  of_cox rfl rfl rfl rfl rfl (fun h => trip_alu3 o 0x15 .max h (by decide) rfl rfl)
theorem Sys2Proof.Laws.RoundTrip.minn (o : Alu3) : Sys2Proof.Laws.RoundTrip.Statement (.minn o) :=
  of_cox rfl rfl rfl rfl rfl (fun h => trip_alu3 o 0x16 .minn h (by decide) rfl rfl)
theorem Sys2Proof.Laws.RoundTrip.maxn (o : Alu3) : Sys2Proof.Laws.RoundTrip.Statement (.maxn o) :=
  of_cox rfl rfl rfl rfl rfl (fun h => trip_alu3 o 0x17 .maxn h (by decide) rfl rfl)
theorem Sys2Proof.Laws.RoundTrip.sext (o : ExtOp) : Sys2Proof.Laws.RoundTrip.Statement (.sext o) :=
  of_cox rfl rfl rfl rfl rfl (fun hw => word_sext o hw)
theorem Sys2Proof.Laws.RoundTrip.zext (o : ExtOp) : Sys2Proof.Laws.RoundTrip.Statement (.zext o) :=
  of_cox rfl rfl rfl rfl rfl (fun hw => word_zext o hw)
theorem Sys2Proof.Laws.RoundTrip.li (g : CGuard) (d : Fin 64) (imm : BitVec 32) : Sys2Proof.Laws.RoundTrip.Statement (.li g d imm) :=
  of_cox rfl rfl rfl rfl rfl (fun hw => word_li g d imm hw)
theorem Sys2Proof.Laws.RoundTrip.lih (o : LihOp) : Sys2Proof.Laws.RoundTrip.Statement (.lih o) :=
  of_cox rfl rfl rfl rfl rfl (fun hw => word_lih o hw)
theorem Sys2Proof.Laws.RoundTrip.sel (o : SelOp) : Sys2Proof.Laws.RoundTrip.Statement (.sel o) :=
  of_cox rfl rfl rfl rfl rfl (fun hw => word_sel o hw)
theorem Sys2Proof.Laws.RoundTrip.cmp (o : CmpOp) : Sys2Proof.Laws.RoundTrip.Statement (.cmp o) :=
  of_cox rfl rfl rfl rfl rfl (fun hw => word_cmp o hw)
theorem Sys2Proof.Laws.RoundTrip.plog (o : PlogOp) : Sys2Proof.Laws.RoundTrip.Statement (.plog o) :=
  of_cox rfl rfl rfl rfl rfl (fun hw => word_plog o hw)
theorem Sys2Proof.Laws.RoundTrip.pmovPP (g : CGuard) (d a : Fin 16) : Sys2Proof.Laws.RoundTrip.Statement (.pmovPP g d a) :=
  of_cox rfl rfl rfl rfl rfl (fun hw => word_pmovPP g d a hw)
theorem Sys2Proof.Laws.RoundTrip.pmovPX (g : CGuard) (d : Fin 16) (a : Src) : Sys2Proof.Laws.RoundTrip.Statement (.pmovPX g d a) :=
  of_cox rfl rfl rfl rfl rfl (fun hw => word_pmovPX g d a hw)
theorem Sys2Proof.Laws.RoundTrip.pmovXP (g : CGuard) (d : Fin 64) (a : Fin 16) : Sys2Proof.Laws.RoundTrip.Statement (.pmovXP g d a) :=
  of_cox rfl rfl rfl rfl rfl (fun hw => word_pmovXP g d a hw)
theorem Sys2Proof.Laws.RoundTrip.pmovXPall (g : CGuard) (d : Fin 64) : Sys2Proof.Laws.RoundTrip.Statement (.pmovXPall g d) :=
  of_cox rfl rfl rfl rfl rfl (fun hw => word_pmovXPall g d hw)
theorem Sys2Proof.Laws.RoundTrip.pmovPallX (g : CGuard) (a : Fin 64) : Sys2Proof.Laws.RoundTrip.Statement (.pmovPallX g a) :=
  of_cox rfl rfl rfl rfl rfl (fun hw => word_pmovPallX g a hw)
theorem Sys2Proof.Laws.RoundTrip.ld (o : MemOp) (d : Fin 64) : Sys2Proof.Laws.RoundTrip.Statement (.ld o d) :=
  of_cox rfl rfl rfl rfl rfl (fun hw => word_ld o d hw)
theorem Sys2Proof.Laws.RoundTrip.ldFifo (o : MemOp) : Sys2Proof.Laws.RoundTrip.Statement (.ldFifo o) :=
  of_cox rfl rfl rfl rfl rfl (fun hw => word_ldFifo o hw)
theorem Sys2Proof.Laws.RoundTrip.st (o : MemOp) (b : XRf) : Sys2Proof.Laws.RoundTrip.Statement (.st o b) :=
  of_cox rfl rfl rfl rfl rfl (fun hw => word_st o b hw)
theorem Sys2Proof.Laws.RoundTrip.stAtomic (g : CGuard) (a : Fin 64) (off : BitVec 32) (signed : Bool) (op : AtomOp) (b : XRf) : Sys2Proof.Laws.RoundTrip.Statement (.stAtomic g a off signed op b) :=
  of_cox rfl rfl rfl rfl rfl (fun hw => word_stAtomic g a off signed op b hw)
theorem Sys2Proof.Laws.RoundTrip.stCas (g : CGuard) (a : Fin 64) (off : BitVec 32) (signed : Bool) (b : XRf) (c : Fin 64) : Sys2Proof.Laws.RoundTrip.Statement (.stCas g a off signed b c) :=
  of_cox rfl rfl rfl rfl rfl (fun hw => word_stCas g a off signed b c hw)
theorem Sys2Proof.Laws.RoundTrip.ldi (o : MemOp) : Sys2Proof.Laws.RoundTrip.Statement (.ldi o) :=
  of_cox rfl rfl rfl rfl rfl (fun hw => word_ldi o hw)
theorem Sys2Proof.Laws.RoundTrip.ldiTouch (o : MemOp) (toP : Bool) : Sys2Proof.Laws.RoundTrip.Statement (.ldiTouch o toP) :=
  of_cox rfl rfl rfl rfl rfl (fun hw => word_ldiTouch o toP hw)
theorem Sys2Proof.Laws.RoundTrip.lds (g : CGuard) (a : Fin 64) (seg : Fin 8) : Sys2Proof.Laws.RoundTrip.Statement (.lds g a seg) :=
  of_cox rfl rfl rfl rfl rfl (fun hw => word_lds g a seg hw)
theorem Sys2Proof.Laws.RoundTrip.ldsTouch (g : CGuard) (a : Fin 64) (seg : Fin 8) (toP : Bool) : Sys2Proof.Laws.RoundTrip.Statement (.ldsTouch g a seg toP) :=
  of_cox rfl rfl rfl rfl rfl (fun hw => word_ldsTouch g a seg toP hw)
theorem Sys2Proof.Laws.RoundTrip.sts (g : CGuard) (a b : Fin 64) (seg : Fin 8) : Sys2Proof.Laws.RoundTrip.Statement (.sts g a b seg) :=
  of_cox rfl rfl rfl rfl rfl (fun hw => word_sts g a b seg hw)
theorem Sys2Proof.Laws.RoundTrip.close (g : CGuard) (a : Fin 64) (seg : Fin 8) : Sys2Proof.Laws.RoundTrip.Statement (.close g a seg) :=
  of_cox rfl rfl rfl rfl rfl (fun hw => word_close g a seg hw)
theorem Sys2Proof.Laws.RoundTrip.adda (g : CGuard) (a b c : Fin 64) (ty : AddTy) : Sys2Proof.Laws.RoundTrip.Statement (.adda g a b c ty) :=
  of_cox rfl rfl rfl rfl rfl (fun hw => word_adda g a b c ty hw)
theorem Sys2Proof.Laws.RoundTrip.sld (o : SigOp) : Sys2Proof.Laws.RoundTrip.Statement (.sld o) :=
  of_cox rfl rfl rfl rfl rfl (fun hw => word_sld o hw)
theorem Sys2Proof.Laws.RoundTrip.sst (o : SigOp) (b : XRf) : Sys2Proof.Laws.RoundTrip.Statement (.sst o b) :=
  of_cox rfl rfl rfl rfl rfl (fun hw => word_sst o b hw)
theorem Sys2Proof.Laws.RoundTrip.satom (o : SigOp) (ty : AtomTy) (op : SatOp) (b : XRf) : Sys2Proof.Laws.RoundTrip.Statement (.satom o ty op b) :=
  of_cox rfl rfl rfl rfl rfl (fun hw => word_satom o ty op b hw)
theorem Sys2Proof.Laws.RoundTrip.fence (sc : Scope) : Sys2Proof.Laws.RoundTrip.Statement (.fence sc) :=
  of_cox rfl rfl rfl rfl rfl (fun hw => word_fence sc hw)
theorem Sys2Proof.Laws.RoundTrip.br (g : CGuard) (imm : BitVec 32) : Sys2Proof.Laws.RoundTrip.Statement (.br g imm) :=
  of_cox rfl rfl rfl rfl rfl (fun hw => word_br g imm hw)
theorem Sys2Proof.Laws.RoundTrip.brl (g : CGuard) (d : Fin 64) (imm : BitVec 32) : Sys2Proof.Laws.RoundTrip.Statement (.brl g d imm) :=
  of_cox rfl rfl rfl rfl rfl (fun hw => word_brl g d imm hw)
theorem Sys2Proof.Laws.RoundTrip.jr (g : CGuard) (a : Fin 64) : Sys2Proof.Laws.RoundTrip.Statement (.jr g a) :=
  of_cox rfl rfl rfl rfl rfl (fun hw => word_jr g a hw)
theorem Sys2Proof.Laws.RoundTrip.ret (g : CGuard) (a : Fin 64) : Sys2Proof.Laws.RoundTrip.Statement (.ret g a) :=
  of_cox rfl rfl rfl rfl rfl (fun hw => word_ret g a hw)
theorem Sys2Proof.Laws.RoundTrip.bct (g : CGuard) (a : Fin 64) (imm : BitVec 32) : Sys2Proof.Laws.RoundTrip.Statement (.bct g a imm) :=
  of_cox rfl rfl rfl rfl rfl (fun hw => word_bct g a imm hw)
theorem Sys2Proof.Laws.RoundTrip.region (g : CGuard) : Sys2Proof.Laws.RoundTrip.Statement (.region g) :=
  of_cox rfl rfl rfl rfl rfl (fun hw => word_region g hw)
theorem Sys2Proof.Laws.RoundTrip.exec (o : ExecOp) : Sys2Proof.Laws.RoundTrip.Statement (.exec o) :=
  of_cox rfl rfl rfl rfl rfl (fun hw => word_exec o hw)
theorem Sys2Proof.Laws.RoundTrip.waitq (g : CGuard) (e : Eng) (a : Src) : Sys2Proof.Laws.RoundTrip.Statement (.waitq g e a) :=
  of_cox rfl rfl rfl rfl rfl (fun hw => word_waitq g e a hw)
theorem Sys2Proof.Laws.RoundTrip.waitb (g : CGuard) (a : Src) : Sys2Proof.Laws.RoundTrip.Statement (.waitb g a) :=
  of_cox rfl rfl rfl rfl rfl (fun hw => word_waitb g a hw)
theorem Sys2Proof.Laws.RoundTrip.qstat (g : CGuard) (d : Fin 64) (e : Option Eng) : Sys2Proof.Laws.RoundTrip.Statement (.qstat g d e) :=
  of_cox rfl rfl rfl rfl rfl (fun hw => word_qstat g d e hw)
theorem Sys2Proof.Laws.RoundTrip.mlease (g : CGuard) (n : Fin 128) (tb : BitVec 25) : Sys2Proof.Laws.RoundTrip.Statement (.mlease g n tb) :=
  of_cox rfl rfl rfl rfl rfl (fun hw => word_mlease g n tb hw)
theorem Sys2Proof.Laws.RoundTrip.mfree (g : CGuard) : Sys2Proof.Laws.RoundTrip.Statement (.mfree g) :=
  of_cox rfl rfl rfl rfl rfl (fun hw => word_mfree g hw)
theorem Sys2Proof.Laws.RoundTrip.acalloc (g : CGuard) (d : Fin 16) (a : XImm) : Sys2Proof.Laws.RoundTrip.Statement (.acalloc g d a) :=
  of_cox rfl rfl rfl rfl rfl (fun hw => word_acalloc g d a hw)
theorem Sys2Proof.Laws.RoundTrip.acown (g : CGuard) (a b : XImm) : Sys2Proof.Laws.RoundTrip.Statement (.acown g a b) :=
  of_cox rfl rfl rfl rfl rfl (fun hw => word_acown g a b hw)
theorem Sys2Proof.Laws.RoundTrip.acfree (g : CGuard) (a : XImm) : Sys2Proof.Laws.RoundTrip.Statement (.acfree g a) :=
  of_cox rfl rfl rfl rfl rfl (fun hw => word_acfree g a hw)
theorem Sys2Proof.Laws.RoundTrip.osclaim (g : CGuard) (d : Fin 16) (a : XImm) : Sys2Proof.Laws.RoundTrip.Statement (.osclaim g d a) :=
  of_cox rfl rfl rfl rfl rfl (fun hw => word_osclaim g d a hw)
theorem Sys2Proof.Laws.RoundTrip.osrel (g : CGuard) (a : XImm) : Sys2Proof.Laws.RoundTrip.Statement (.osrel g a) :=
  of_cox rfl rfl rfl rfl rfl (fun hw => word_osrel g a hw)
theorem Sys2Proof.Laws.RoundTrip.extnew (g : CGuard) (a : Fin 64) (acap : Bool) : Sys2Proof.Laws.RoundTrip.Statement (.extnew g a acap) :=
  of_cox rfl rfl rfl rfl rfl (fun hw => word_extnew g a acap hw)
theorem Sys2Proof.Laws.RoundTrip.recast (o : RecastOp) : Sys2Proof.Laws.RoundTrip.Statement (.recast o) :=
  of_cox rfl rfl rfl rfl rfl (fun hw => word_recast o hw)
theorem Sys2Proof.Laws.RoundTrip.extq (g : CGuard) (a : Fin 64) (seg : Fin 8) (field : Byte) : Sys2Proof.Laws.RoundTrip.Statement (.extq g a seg field) :=
  of_cox rfl rfl rfl rfl rfl (fun hw => word_extq g a seg field hw)
theorem Sys2Proof.Laws.RoundTrip.extfree (g : CGuard) (a : Fin 64) : Sys2Proof.Laws.RoundTrip.Statement (.extfree g a) :=
  of_cox rfl rfl rfl rfl rfl (fun hw => word_extfree g a hw)
theorem Sys2Proof.Laws.RoundTrip.launch (g : CGuard) (pd : Fin 16) (xd : Fin 64) (a b : Fin 64) (csig : BitVec 32) : Sys2Proof.Laws.RoundTrip.Statement (.launch g pd xd a b csig) :=
  of_cox rfl rfl rfl rfl rfl (fun hw => word_launch g pd xd a b csig hw)
theorem Sys2Proof.Laws.RoundTrip.launchw (g : CGuard) (xd : Fin 64) (a b : Fin 64) (csig : BitVec 32) : Sys2Proof.Laws.RoundTrip.Statement (.launchw g xd a b csig) :=
  of_cox rfl rfl rfl rfl rfl (fun hw => word_launchw g xd a b csig hw)
theorem Sys2Proof.Laws.RoundTrip.join (g : CGuard) (d : Fin 64) (a : Src) : Sys2Proof.Laws.RoundTrip.Statement (.join g d a) :=
  of_cox rfl rfl rfl rfl rfl (fun hw => word_join g d a hw)
theorem Sys2Proof.Laws.RoundTrip.done (g : CGuard) : Sys2Proof.Laws.RoundTrip.Statement (.done g) :=
  of_cox rfl rfl rfl rfl rfl (fun hw => word_done g hw)
theorem Sys2Proof.Laws.RoundTrip.trap (g : CGuard) (imm : BitVec 32) : Sys2Proof.Laws.RoundTrip.Statement (.trap g imm) :=
  of_cox rfl rfl rfl rfl rfl (fun hw => word_trap g imm hw)
theorem Sys2Proof.Laws.RoundTrip.rft (g : CGuard) : Sys2Proof.Laws.RoundTrip.Statement (.rft g) :=
  of_cox rfl rfl rfl rfl rfl (fun hw => word_rft g hw)
theorem Sys2Proof.Laws.RoundTrip.csrr (g : CGuard) (d : Fin 64) (csr : BitVec 12) : Sys2Proof.Laws.RoundTrip.Statement (.csrr g d csr) :=
  of_cox rfl rfl rfl rfl rfl (fun hw => word_csrr g d csr hw)
theorem Sys2Proof.Laws.RoundTrip.csrw (g : CGuard) (csr : BitVec 12) (a : Option XRf) : Sys2Proof.Laws.RoundTrip.Statement (.csrw g csr a) :=
  of_cox rfl rfl rfl rfl rfl (fun hw => word_csrw g csr a hw)
theorem Sys2Proof.Laws.RoundTrip.nop (g : CGuard) : Sys2Proof.Laws.RoundTrip.Statement (.nop g) :=
  of_cox rfl rfl rfl rfl rfl (fun hw => word_nop g hw)
theorem Sys2Proof.Laws.RoundTrip.halt (g : CGuard) : Sys2Proof.Laws.RoundTrip.Statement (.halt g) :=
  of_cox rfl rfl rfl rfl rfl (fun hw => word_halt g hw)
theorem Sys2Proof.Laws.RoundTrip.waitcyc (g : CGuard) (a : Src) : Sys2Proof.Laws.RoundTrip.Statement (.waitcyc g a) :=
  of_cox rfl rfl rfl rfl rfl (fun hw => word_waitcyc g a hw)
theorem Sys2Proof.Laws.RoundTrip.waitcycUntil (g : CGuard) (a : Src) : Sys2Proof.Laws.RoundTrip.Statement (.waitcycUntil g a) :=
  of_cox rfl rfl rfl rfl rfl (fun hw => word_waitcycUntil g a hw)
theorem Sys2Proof.Laws.RoundTrip.msdecl (g : CGuard) (d : Fin 16) (a : Fin 64) : Sys2Proof.Laws.RoundTrip.Statement (.msdecl g d a) :=
  of_cox rfl rfl rfl rfl rfl (fun hw => word_msdecl g d a hw)
theorem Sys2Proof.Laws.RoundTrip.pfack (g : CGuard) : Sys2Proof.Laws.RoundTrip.Statement (.pfack g) :=
  of_cox rfl rfl rfl rfl rfl (fun hw => word_pfack g hw)
theorem Sys2Proof.Laws.RoundTrip.pfrestore (g : CGuard) (d : Fin 16) (a b : Fin 64) : Sys2Proof.Laws.RoundTrip.Statement (.pfrestore g d a b) :=
  of_cox rfl rfl rfl rfl rfl (fun hw => word_pfrestore g d a b hw)
theorem Sys2Proof.Laws.RoundTrip.grpopen (g : CGuard) (a : Fin 64) : Sys2Proof.Laws.RoundTrip.Statement (.grpopen g a) :=
  of_cox rfl rfl rfl rfl rfl (fun hw => word_grpopen g a hw)
theorem Sys2Proof.Laws.RoundTrip.grpfree (g : CGuard) (a : Fin 64) : Sys2Proof.Laws.RoundTrip.Statement (.grpfree g a) :=
  of_cox rfl rfl rfl rfl rfl (fun hw => word_grpfree g a hw)
theorem Sys2Proof.Laws.RoundTrip.vadd (o : VFp2) : Sys2Proof.Laws.RoundTrip.Statement (.vadd o) :=
  of_v rfl rfl rfl rfl rfl (fun h => trip_fp2 o 0x00 .vadd h (by decide) rfl rfl)
theorem Sys2Proof.Laws.RoundTrip.vsub (o : VFp2) : Sys2Proof.Laws.RoundTrip.Statement (.vsub o) :=
  of_v rfl rfl rfl rfl rfl (fun h => trip_fp2 o 0x01 .vsub h (by decide) rfl rfl)
theorem Sys2Proof.Laws.RoundTrip.vmul (o : VFp2) : Sys2Proof.Laws.RoundTrip.Statement (.vmul o) :=
  of_v rfl rfl rfl rfl rfl (fun h => trip_fp2 o 0x02 .vmul h (by decide) rfl rfl)
theorem Sys2Proof.Laws.RoundTrip.vfma (o : VFp3) : Sys2Proof.Laws.RoundTrip.Statement (.vfma o) :=
  of_v rfl rfl rfl rfl rfl (fun h => trip_fp3 o 0x03 .vfma h (by decide) rfl rfl)
theorem Sys2Proof.Laws.RoundTrip.vfms (o : VFp3) : Sys2Proof.Laws.RoundTrip.Statement (.vfms o) :=
  of_v rfl rfl rfl rfl rfl (fun h => trip_fp3 o 0x04 .vfms h (by decide) rfl rfl)
theorem Sys2Proof.Laws.RoundTrip.vnfma (o : VFp3) : Sys2Proof.Laws.RoundTrip.Statement (.vnfma o) :=
  of_v rfl rfl rfl rfl rfl (fun h => trip_fp3 o 0x05 .vnfma h (by decide) rfl rfl)
theorem Sys2Proof.Laws.RoundTrip.vmin (o : VFp2) : Sys2Proof.Laws.RoundTrip.Statement (.vmin o) :=
  of_v rfl rfl rfl rfl rfl (fun h => trip_fp2 o 0x06 .vmin h (by decide) rfl rfl)
theorem Sys2Proof.Laws.RoundTrip.vmax (o : VFp2) : Sys2Proof.Laws.RoundTrip.Statement (.vmax o) :=
  of_v rfl rfl rfl rfl rfl (fun h => trip_fp2 o 0x07 .vmax h (by decide) rfl rfl)
theorem Sys2Proof.Laws.RoundTrip.vabs (o : VFp1) : Sys2Proof.Laws.RoundTrip.Statement (.vabs o) :=
  of_v rfl rfl rfl rfl rfl (fun h => trip_fp1 o 0x08 .vabs h (by decide) rfl rfl)
theorem Sys2Proof.Laws.RoundTrip.vneg (o : VFp1) : Sys2Proof.Laws.RoundTrip.Statement (.vneg o) :=
  of_v rfl rfl rfl rfl rfl (fun h => trip_fp1 o 0x09 .vneg h (by decide) rfl rfl)
theorem Sys2Proof.Laws.RoundTrip.vdiv (o : VFp2) : Sys2Proof.Laws.RoundTrip.Statement (.vdiv o) :=
  of_v rfl rfl rfl rfl rfl (fun h => trip_fp2 o 0x0A .vdiv h (by decide) rfl rfl)
theorem Sys2Proof.Laws.RoundTrip.vsqrt (o : VFp1) : Sys2Proof.Laws.RoundTrip.Statement (.vsqrt o) :=
  of_v rfl rfl rfl rfl rfl (fun h => trip_fp1 o 0x0B .vsqrt h (by decide) rfl rfl)
theorem Sys2Proof.Laws.RoundTrip.vexp2 (o : VFp1) : Sys2Proof.Laws.RoundTrip.Statement (.vexp2 o) :=
  of_v rfl rfl rfl rfl rfl (fun h => trip_fp1 o 0x0C .vexp2 h (by decide) rfl rfl)
theorem Sys2Proof.Laws.RoundTrip.vlog2 (o : VFp1) : Sys2Proof.Laws.RoundTrip.Statement (.vlog2 o) :=
  of_v rfl rfl rfl rfl rfl (fun h => trip_fp1 o 0x0D .vlog2 h (by decide) rfl rfl)
theorem Sys2Proof.Laws.RoundTrip.vrcp (o : VFp1) : Sys2Proof.Laws.RoundTrip.Statement (.vrcp o) :=
  of_v rfl rfl rfl rfl rfl (fun h => trip_fp1 o 0x0E .vrcp h (by decide) rfl rfl)
theorem Sys2Proof.Laws.RoundTrip.vrsq (o : VFp1) : Sys2Proof.Laws.RoundTrip.Statement (.vrsq o) :=
  of_v rfl rfl rfl rfl rfl (fun h => trip_fp1 o 0x0F .vrsq h (by decide) rfl rfl)
theorem Sys2Proof.Laws.RoundTrip.viadd (o : VInt2) : Sys2Proof.Laws.RoundTrip.Statement (.viadd o) :=
  of_v rfl rfl rfl rfl rfl (fun h => trip_int2 o 0x20 .viadd h (by decide) rfl rfl)
theorem Sys2Proof.Laws.RoundTrip.visub (o : VInt2) : Sys2Proof.Laws.RoundTrip.Statement (.visub o) :=
  of_v rfl rfl rfl rfl rfl (fun h => trip_int2 o 0x21 .visub h (by decide) rfl rfl)
theorem Sys2Proof.Laws.RoundTrip.vimul (o : VInt2) : Sys2Proof.Laws.RoundTrip.Statement (.vimul o) :=
  of_v rfl rfl rfl rfl rfl (fun h => trip_int2 o 0x22 .vimul h (by decide) rfl rfl)
theorem Sys2Proof.Laws.RoundTrip.vand (o : VLog2) : Sys2Proof.Laws.RoundTrip.Statement (.vand o) :=
  of_v rfl rfl rfl rfl rfl (fun h => trip_log2 o 0x23 .vand h (by decide) rfl rfl)
theorem Sys2Proof.Laws.RoundTrip.vor (o : VLog2) : Sys2Proof.Laws.RoundTrip.Statement (.vor o) :=
  of_v rfl rfl rfl rfl rfl (fun h => trip_log2 o 0x24 .vor h (by decide) rfl rfl)
theorem Sys2Proof.Laws.RoundTrip.vxor (o : VLog2) : Sys2Proof.Laws.RoundTrip.Statement (.vxor o) :=
  of_v rfl rfl rfl rfl rfl (fun h => trip_log2 o 0x25 .vxor h (by decide) rfl rfl)
theorem Sys2Proof.Laws.RoundTrip.vshl (o : VLog2) : Sys2Proof.Laws.RoundTrip.Statement (.vshl o) :=
  of_v rfl rfl rfl rfl rfl (fun h => trip_log2 o 0x26 .vshl h (by decide) rfl rfl)
theorem Sys2Proof.Laws.RoundTrip.vshr (o : VLog2) : Sys2Proof.Laws.RoundTrip.Statement (.vshr o) :=
  of_v rfl rfl rfl rfl rfl (fun h => trip_log2 o 0x27 .vshr h (by decide) rfl rfl)
theorem Sys2Proof.Laws.RoundTrip.vsra (o : VLog2) : Sys2Proof.Laws.RoundTrip.Statement (.vsra o) :=
  of_v rfl rfl rfl rfl rfl (fun h => trip_log2 o 0x28 .vsra h (by decide) rfl rfl)
theorem Sys2Proof.Laws.RoundTrip.vimin (o : VInt2) : Sys2Proof.Laws.RoundTrip.Statement (.vimin o) :=
  of_v rfl rfl rfl rfl rfl (fun h => trip_int2 o 0x29 .vimin h (by decide) rfl rfl)
theorem Sys2Proof.Laws.RoundTrip.vimax (o : VInt2) : Sys2Proof.Laws.RoundTrip.Statement (.vimax o) :=
  of_v rfl rfl rfl rfl rfl (fun h => trip_int2 o 0x2A .vimax h (by decide) rfl rfl)
theorem Sys2Proof.Laws.RoundTrip.vcmp (o : VCmpOp) : Sys2Proof.Laws.RoundTrip.Statement (.vcmp o) :=
  of_v rfl rfl rfl rfl rfl (fun hw => word_vcmp o hw)
theorem Sys2Proof.Laws.RoundTrip.vsel (h : VHead) (d : VDst) (a b : VSrc) (c : Fin 64) : Sys2Proof.Laws.RoundTrip.Statement (.vsel h d a b c) :=
  of_v rfl rfl rfl rfl rfl (fun hw => word_vsel h d a b c hw)
theorem Sys2Proof.Laws.RoundTrip.vplog (h : VHead) (d a b : Fin 64) (op : LogOp) : Sys2Proof.Laws.RoundTrip.Statement (.vplog h d a b op) :=
  of_v rfl rfl rfl rfl rfl (fun hw => word_vplog h d a b op hw)
theorem Sys2Proof.Laws.RoundTrip.vcvt (o : VCvtOp) : Sys2Proof.Laws.RoundTrip.Statement (.vcvt o) :=
  of_v rfl rfl rfl rfl rfl (fun hw => word_vcvt o hw)
theorem Sys2Proof.Laws.RoundTrip.vqblk (h : VHead) (d : Fin 64) (a : VP) (rm : Rm) (fmt : BitVec 32) : Sys2Proof.Laws.RoundTrip.Statement (.vqblk h d a rm fmt) :=
  of_v rfl rfl rfl rfl rfl (fun hw => word_vqblk h d a rm fmt hw)
theorem Sys2Proof.Laws.RoundTrip.vdqblk (h : VHead) (d : VDst) (a : VSrc) (rm : Rm) (fmt : BitVec 32) : Sys2Proof.Laws.RoundTrip.Statement (.vdqblk h d a rm fmt) :=
  of_v rfl rfl rfl rfl rfl (fun hw => word_vdqblk h d a rm fmt hw)
theorem Sys2Proof.Laws.RoundTrip.vred (o : VRedOp) : Sys2Proof.Laws.RoundTrip.Statement (.vred o) :=
  of_v rfl rfl rfl rfl rfl (fun h => trip_red o 0x50 .vred h (by decide) rfl (by rcases o with ⟨_, _, _, _ | _⟩ <;> rfl))
theorem Sys2Proof.Laws.RoundTrip.vscan (o : VRedOp) : Sys2Proof.Laws.RoundTrip.Statement (.vscan o) :=
  of_v rfl rfl rfl rfl rfl (fun h => trip_red o 0x51 .vscan h (by decide) rfl (by rcases o with ⟨_, _, _, _ | _⟩ <;> rfl))
theorem Sys2Proof.Laws.RoundTrip.vperm (h : VHead) (d : VDst) (a b : VP) : Sys2Proof.Laws.RoundTrip.Statement (.vperm h d a b) :=
  of_v rfl rfl rfl rfl rfl (fun hw => word_vperm h d a b hw)
theorem Sys2Proof.Laws.RoundTrip.vbcst (h : VHead) (d : VDst) (a : VP) (n : Fin 32) : Sys2Proof.Laws.RoundTrip.Statement (.vbcst h d a n) :=
  of_v rfl rfl rfl rfl rfl (fun hw => word_vbcst h d a n hw)
theorem Sys2Proof.Laws.RoundTrip.vslide (h : VHead) (d : VDst) (a b : VP) (n : Fin 32) : Sys2Proof.Laws.RoundTrip.Statement (.vslide h d a b n) :=
  of_v rfl rfl rfl rfl rfl (fun hw => word_vslide h d a b n hw)
theorem Sys2Proof.Laws.RoundTrip.vldi (h : VHead) (d : VDst) (base : BitVec 32) (step : Fin 32) : Sys2Proof.Laws.RoundTrip.Statement (.vldi h d base step) :=
  of_v rfl rfl rfl rfl rfl (fun hw => word_vldi h d base step hw)
theorem Sys2Proof.Laws.RoundTrip.vmov (h : VHead) (d : VDst) (a : VSrc) : Sys2Proof.Laws.RoundTrip.Statement (.vmov h d a) :=
  of_v rfl rfl rfl rfl rfl (fun hw => word_vmov h d a hw)
theorem Sys2Proof.Laws.RoundTrip.vmovK (h : VHead) (d a : Fin 64) : Sys2Proof.Laws.RoundTrip.Statement (.vmovK h d a) :=
  of_v rfl rfl rfl rfl rfl (fun hw => word_vmovK h d a hw)
theorem Sys2Proof.Laws.RoundTrip.vmovToCsr (h : VHead) (csr : Fin 4) (a : VSI) : Sys2Proof.Laws.RoundTrip.Statement (.vmovToCsr h csr a) :=
  of_v rfl rfl rfl rfl rfl (fun hw => word_vmovToCsr h csr a hw)
theorem Sys2Proof.Laws.RoundTrip.vmovFromCsr (h : VHead) (d : Fin 64) (csr : Fin 16) : Sys2Proof.Laws.RoundTrip.Statement (.vmovFromCsr h d csr) :=
  of_v rfl rfl rfl rfl rfl (fun hw => word_vmovFromCsr h d csr hw)
theorem Sys2Proof.Laws.RoundTrip.vmovMaskToV (h : VHead) (d : VDst) (a : Fin 64) : Sys2Proof.Laws.RoundTrip.Statement (.vmovMaskToV h d a) :=
  of_v rfl rfl rfl rfl rfl (fun hw => word_vmovMaskToV h d a hw)
theorem Sys2Proof.Laws.RoundTrip.vmovVToMask (h : VHead) (d : Fin 64) (a : VSrc) : Sys2Proof.Laws.RoundTrip.Statement (.vmovVToMask h d a) :=
  of_v rfl rfl rfl rfl rfl (fun hw => word_vmovVToMask h d a hw)
theorem Sys2Proof.Laws.RoundTrip.vpset (o : PortOp) (a : Fin 64) : Sys2Proof.Laws.RoundTrip.Statement (.vpset o a) :=
  of_v rfl rfl rfl rfl rfl (fun hw => word_vpset o a hw)
theorem Sys2Proof.Laws.RoundTrip.vprst (o : PortOp) : Sys2Proof.Laws.RoundTrip.Statement (.vprst o) :=
  of_v rfl rfl rfl rfl rfl (fun hw => word_vprst o hw)
theorem Sys2Proof.Laws.RoundTrip.vpsync (o : PortOp) : Sys2Proof.Laws.RoundTrip.Statement (.vpsync o) :=
  of_v rfl rfl rfl rfl rfl (fun hw => word_vpsync o hw)
theorem Sys2Proof.Laws.RoundTrip.vacrd (h : VHead) (d : Fin 64) (sel : VSI) (drain : Bool) : Sys2Proof.Laws.RoundTrip.Statement (.vacrd h d sel drain) :=
  of_v rfl rfl rfl rfl rfl (fun hw => word_vacrd h d sel drain hw)
theorem Sys2Proof.Laws.RoundTrip.vacwr (h : VHead) (a : VP) (sel : VSI) (add : Bool) : Sys2Proof.Laws.RoundTrip.Statement (.vacwr h a sel add) :=
  of_v rfl rfl rfl rfl rfl (fun hw => word_vacwr h a sel add hw)
theorem Sys2Proof.Laws.RoundTrip.vtwin (h : VHead) (d : Fin 64) (a b : VP) (c : VSrc) (kind : TcKind) : Sys2Proof.Laws.RoundTrip.Statement (.vtwin h d a b c kind) :=
  of_v rfl rfl rfl rfl rfl (fun hw => word_vtwin h d a b c kind hw)
theorem Sys2Proof.Laws.RoundTrip.vtcw (h : VHead) (d : VDst) (a : VSrc) : Sys2Proof.Laws.RoundTrip.Statement (.vtcw h d a) :=
  of_v rfl rfl rfl rfl rfl (fun hw => word_vtcw h d a hw)
theorem Sys2Proof.Laws.RoundTrip.vloop (tok : Tok) (target : BitVec 12) : Sys2Proof.Laws.RoundTrip.Statement (.vloop tok target) :=
  of_v rfl rfl rfl rfl rfl (fun hw => word_vloop tok target hw)
theorem Sys2Proof.Laws.RoundTrip.vbr (h : VHead) (all : Bool) (target : BitVec 12) : Sys2Proof.Laws.RoundTrip.Statement (.vbr h all target) :=
  of_v rfl rfl rfl rfl rfl (fun hw => word_vbr h all target hw)
theorem Sys2Proof.Laws.RoundTrip.vend (tok : Tok) : Sys2Proof.Laws.RoundTrip.Statement (.vend tok) :=
  of_v rfl rfl rfl rfl rfl (fun hw => word_vend tok hw)
theorem Sys2Proof.Laws.RoundTrip.vnop (tok : Tok) : Sys2Proof.Laws.RoundTrip.Statement (.vnop tok) :=
  of_v rfl rfl rfl rfl rfl (fun hw => word_vnop tok hw)
theorem Sys2Proof.Laws.RoundTrip.cnop (tok : Tok) (timed : Option (BitVec 32)) : Sys2Proof.Laws.RoundTrip.Statement (.cnop tok timed) :=
  of_ls rfl rfl rfl rfl (fun st e he hw => word_cnop st e he tok timed hw)
theorem Sys2Proof.Laws.RoundTrip.cpy (o : ElemOp) : Sys2Proof.Laws.RoundTrip.Statement (.cpy o) :=
  of_ls rfl rfl rfl rfl (fun st e he hw => word_cpy st e he o hw)
theorem Sys2Proof.Laws.RoundTrip.cpyt (o : ElemOp) (d : BitVec 32) : Sys2Proof.Laws.RoundTrip.Statement (.cpyt o d) :=
  of_ls rfl rfl rfl rfl (fun st e he hw => word_cpyt st e he o d hw)
theorem Sys2Proof.Laws.RoundTrip.cpyr (o : ElemOp) : Sys2Proof.Laws.RoundTrip.Statement (.cpyr o) :=
  of_ls rfl rfl rfl rfl (fun st e he hw => word_cpyr st e he o hw)
theorem Sys2Proof.Laws.RoundTrip.cfill (o : ElemOp) : Sys2Proof.Laws.RoundTrip.Statement (.cfill o) :=
  of_ls rfl rfl rfl rfl (fun st e he hw => word_cfill st e he o hw)
theorem Sys2Proof.Laws.RoundTrip.cgath (o : ElemOp) : Sys2Proof.Laws.RoundTrip.Statement (.cgath o) :=
  of_ls rfl rfl rfl rfl (fun st e he hw => word_cgath st e he o hw)
theorem Sys2Proof.Laws.RoundTrip.cscat (o : ElemOp) : Sys2Proof.Laws.RoundTrip.Statement (.cscat o) :=
  of_ls rfl rfl rfl rfl (fun st e he hw => word_cscat st e he o hw)
theorem Sys2Proof.Laws.RoundTrip.csg (o : ElemOp) : Sys2Proof.Laws.RoundTrip.Statement (.csg o) :=
  of_ls rfl rfl rfl rfl (fun st e he hw => word_csg st e he o hw)
theorem Sys2Proof.Laws.RoundTrip.cseal (o : ElemOp) : Sys2Proof.Laws.RoundTrip.Statement (.cseal o) :=
  of_ls rfl rfl rfl rfl (fun st e he hw => word_cseal st e he o hw)
theorem Sys2Proof.Laws.RoundTrip.copld (o : ElemOp) (fin : Bool) : Sys2Proof.Laws.RoundTrip.Statement (.copld o fin) :=
  of_l rfl rfl rfl rfl rfl (fun hw => word_copld o fin hw)
theorem Sys2Proof.Laws.RoundTrip.covl (o : ElemOp) : Sys2Proof.Laws.RoundTrip.Statement (.covl o) :=
  of_l rfl rfl rfl rfl rfl (fun hw => word_covl o hw)
theorem Sys2Proof.Laws.RoundTrip.cwtx (o : ElemOp) : Sys2Proof.Laws.RoundTrip.Statement (.cwtx o) :=
  of_l rfl rfl rfl rfl rfl (fun hw => word_cwtx o hw)
theorem Sys2Proof.Laws.RoundTrip.ctce (o : ElemOp) : Sys2Proof.Laws.RoundTrip.Statement (.ctce o) :=
  of_ls rfl rfl rfl rfl (fun st e he hw => word_ctce st e he o hw)
theorem Sys2Proof.Laws.RoundTrip.csig (o : CSigOp) : Sys2Proof.Laws.RoundTrip.Statement (.csig o) :=
  of_ls rfl rfl rfl rfl (fun st e he hw => word_csig st e he o hw)
theorem Sys2Proof.Laws.RoundTrip.cwaitSignal (o : CSigOp) : Sys2Proof.Laws.RoundTrip.Statement (.cwaitSignal o) :=
  of_ls rfl rfl rfl rfl (fun st e he hw => word_cwaitSignal st e he o hw)
theorem Sys2Proof.Laws.RoundTrip.cwaitTime (tok : Tok) (t : BitVec 32) : Sys2Proof.Laws.RoundTrip.Statement (.cwaitTime tok t) :=
  of_ls rfl rfl rfl rfl (fun st e he hw => word_cwaitTime st e he tok t hw)
theorem Sys2Proof.Laws.RoundTrip.cprb (o : ElemOp) : Sys2Proof.Laws.RoundTrip.Statement (.cprb o) :=
  of_ls rfl rfl rfl rfl (fun st e he hw => word_cprb st e he o hw)
theorem Sys2Proof.Laws.RoundTrip.cend (tok : Tok) : Sys2Proof.Laws.RoundTrip.Statement (.cend tok) :=
  of_ls rfl rfl rfl rfl (fun st e he hw => word_cend st e he tok hw)
theorem Sys2Proof.Laws.RoundTrip.msetrow (tok : Tok) (lo hi : Byte) : Sys2Proof.Laws.RoundTrip.Statement (.msetrow tok lo hi) :=
  of_m rfl rfl rfl rfl rfl (fun hw => word_msetrow tok lo hi hw)
theorem Sys2Proof.Laws.RoundTrip.msetrowPart (tok : Tok) (q : Fin 4) (b : BitVec 32) : Sys2Proof.Laws.RoundTrip.Statement (.msetrowPart tok q b) :=
  of_m rfl rfl rfl rfl rfl (fun hw => word_msetrowPart tok q b hw)
theorem Sys2Proof.Laws.RoundTrip.msetcol (tok : Tok) (lo hi : Byte) : Sys2Proof.Laws.RoundTrip.Statement (.msetcol tok lo hi) :=
  of_m rfl rfl rfl rfl rfl (fun hw => word_msetcol tok lo hi hw)
theorem Sys2Proof.Laws.RoundTrip.msetcolPart (tok : Tok) (q : Fin 4) (b : BitVec 32) : Sys2Proof.Laws.RoundTrip.Statement (.msetcolPart tok q b) :=
  of_m rfl rfl rfl rfl rfl (fun hw => word_msetcolPart tok q b hw)
theorem Sys2Proof.Laws.RoundTrip.mfmt (tok : Tok) (opb : Bool) (fmt : BitVec 32) : Sys2Proof.Laws.RoundTrip.Statement (.mfmt tok opb fmt) :=
  of_m rfl rfl rfl rfl rfl (fun hw => word_mfmt tok opb fmt hw)
theorem Sys2Proof.Laws.RoundTrip.mscale (tok : Tok) (sa sb : Byte) : Sys2Proof.Laws.RoundTrip.Statement (.mscale tok sa sb) :=
  of_m rfl rfl rfl rfl rfl (fun hw => word_mscale tok sa sb hw)
theorem Sys2Proof.Laws.RoundTrip.mma (o : MmaOp) : Sys2Proof.Laws.RoundTrip.Statement (.mma o) :=
  of_m rfl rfl rfl rfl rfl (fun h => trip_mma o 0x10 .mma h (by decide) rfl rfl)
theorem Sys2Proof.Laws.RoundTrip.mmaz (o : MmaOp) : Sys2Proof.Laws.RoundTrip.Statement (.mmaz o) :=
  of_m rfl rfl rfl rfl rfl (fun h => trip_mma o 0x11 .mmaz h (by decide) rfl rfl)
theorem Sys2Proof.Laws.RoundTrip.mmat (o : MmaOp) : Sys2Proof.Laws.RoundTrip.Statement (.mmat o) :=
  of_m rfl rfl rfl rfl rfl (fun h => trip_mma o 0x12 .mmat h (by decide) rfl rfl)
theorem Sys2Proof.Laws.RoundTrip.mtcw (o : MmaOp) : Sys2Proof.Laws.RoundTrip.Statement (.mtcw o) :=
  of_m rfl rfl rfl rfl rfl (fun h => trip_mma o 0x13 .mtcw h (by decide) rfl rfl)
theorem Sys2Proof.Laws.RoundTrip.mcommit (tok : Tok) : Sys2Proof.Laws.RoundTrip.Statement (.mcommit tok) :=
  of_m rfl rfl rfl rfl rfl (fun hw => word_mcommit tok hw)
theorem Sys2Proof.Laws.RoundTrip.macz (tok : Tok) (bank : Fin 32) : Sys2Proof.Laws.RoundTrip.Statement (.macz tok bank) :=
  of_m rfl rfl rfl rfl rfl (fun hw => word_macz tok bank hw)
theorem Sys2Proof.Laws.RoundTrip.mtile (tok : Tok) (bank : Fin 32) (count1 : Fin 4) : Sys2Proof.Laws.RoundTrip.Statement (.mtile tok bank count1) :=
  of_m rfl rfl rfl rfl rfl (fun hw => word_mtile tok bank count1 hw)
theorem Sys2Proof.Laws.RoundTrip.mend (tok : Tok) : Sys2Proof.Laws.RoundTrip.Statement (.mend tok) :=
  of_m rfl rfl rfl rfl rfl (fun hw => word_mend tok hw)
theorem Sys2Proof.Laws.RoundTrip.send (o : DataStep) (f2 : Fin 4) : Sys2Proof.Laws.RoundTrip.Statement (.send o f2) :=
  of_step rfl rfl rfl rfl rfl (fun hw => step_send o f2 hw)
theorem Sys2Proof.Laws.RoundTrip.recv (o : DataStep) : Sys2Proof.Laws.RoundTrip.Statement (.recv o) :=
  of_step rfl rfl rfl rfl rfl (fun hw => step_recv o hw)
theorem Sys2Proof.Laws.RoundTrip.copy (f1 f2 : Fin 4) (nel1 : BitVec 14) (doff off : BitVec 20) : Sys2Proof.Laws.RoundTrip.Statement (.copy f1 f2 nel1 doff off) :=
  of_step rfl rfl rfl rfl rfl (fun hw => step_copy f1 f2 nel1 doff off hw)
theorem Sys2Proof.Laws.RoundTrip.rrs (o : DataStep) (f2 f3 : Fin 4) (snd : Bool) : Sys2Proof.Laws.RoundTrip.Statement (.rrs o f2 f3 snd) :=
  of_step rfl rfl rfl rfl rfl (fun hw => step_rrs o f2 f3 snd hw)
theorem Sys2Proof.Laws.RoundTrip.waitSignalStep (sc : Scope) (word : BitVec 17) (val : BitVec 32) : Sys2Proof.Laws.RoundTrip.Statement (.waitSignalStep sc word val) :=
  of_step rfl rfl rfl rfl rfl (fun hw => step_waitSignalStep sc word val hw)
theorem Sys2Proof.Laws.RoundTrip.waitTimeStep (val : BitVec 32) : Sys2Proof.Laws.RoundTrip.Statement (.waitTimeStep val) :=
  of_step rfl rfl rfl rfl rfl (fun hw => step_waitTimeStep val hw)
theorem Sys2Proof.Laws.RoundTrip.waitAfterT0Step (val : BitVec 32) : Sys2Proof.Laws.RoundTrip.Statement (.waitAfterT0Step val) :=
  of_step rfl rfl rfl rfl rfl (fun hw => step_waitAfterT0Step val hw)
theorem Sys2Proof.Laws.RoundTrip.loop (str : BitVec 20) (cnt1 : BitVec 16) : Sys2Proof.Laws.RoundTrip.Statement (.loop str cnt1) :=
  of_step rfl rfl rfl rfl rfl (fun hw => step_loop str cnt1 hw)
theorem Sys2Proof.Laws.RoundTrip.groupBudgetExpiry (g : Fin 4096) : Sys2Proof.Laws.RoundTrip.Statement (.groupBudgetExpiry g) :=
  of_event rfl rfl rfl rfl rfl rfl
theorem Sys2Proof.Laws.RoundTrip.errorNoticeArrival (g : Fin 4096) : Sys2Proof.Laws.RoundTrip.Statement (.errorNoticeArrival g) :=
  of_event rfl rfl rfl rfl rfl rfl
theorem Sys2Proof.Laws.RoundTrip.entryHead (t : TileId) (e : Eng) : Sys2Proof.Laws.RoundTrip.Statement (.entryHead t e) :=
  of_event rfl rfl rfl rfl rfl rfl
theorem Sys2Proof.Laws.RoundTrip.entryStart (t : TileId) (e : Eng) : Sys2Proof.Laws.RoundTrip.Statement (.entryStart t e) :=
  of_event rfl rfl rfl rfl rfl rfl
theorem Sys2Proof.Laws.RoundTrip.entryRetire (t : TileId) (e : Eng) : Sys2Proof.Laws.RoundTrip.Statement (.entryRetire t e) :=
  of_event rfl rfl rfl rfl rfl rfl
theorem Sys2Proof.Laws.RoundTrip.entryBudgetExpiry (t : TileId) (e : Eng) : Sys2Proof.Laws.RoundTrip.Statement (.entryBudgetExpiry t e) :=
  of_event rfl rfl rfl rfl rfl rfl
theorem Sys2Proof.Laws.RoundTrip.iterationBudgetExpiry (t : TileId) : Sys2Proof.Laws.RoundTrip.Statement (.iterationBudgetExpiry t) :=
  of_event rfl rfl rfl rfl rfl rfl
theorem Sys2Proof.Laws.RoundTrip.commandStart (t : TileId) : Sys2Proof.Laws.RoundTrip.Statement (.commandStart t) :=
  of_event rfl rfl rfl rfl rfl rfl
theorem Sys2Proof.Laws.RoundTrip.commandRetire (t : TileId) (id : Nat) : Sys2Proof.Laws.RoundTrip.Statement (.commandRetire t id) :=
  of_event rfl rfl rfl rfl rfl rfl
theorem Sys2Proof.Laws.RoundTrip.tceBlockDone (d : DieId) : Sys2Proof.Laws.RoundTrip.Statement (.tceBlockDone d) :=
  of_event rfl rfl rfl rfl rfl rfl
theorem Sys2Proof.Laws.RoundTrip.wsRefreshWindow (d : DieId) (g : Fin 16) : Sys2Proof.Laws.RoundTrip.Statement (.wsRefreshWindow d g) :=
  of_event rfl rfl rfl rfl rfl rfl
theorem Sys2Proof.Laws.RoundTrip.flitInject (d : DieId) (st : Fin 132) : Sys2Proof.Laws.RoundTrip.Statement (.flitInject d st) :=
  of_event rfl rfl rfl rfl rfl rfl
theorem Sys2Proof.Laws.RoundTrip.flitArrive (d : DieId) (st : Fin 132) : Sys2Proof.Laws.RoundTrip.Statement (.flitArrive d st) :=
  of_event rfl rfl rfl rfl rfl rfl
theorem Sys2Proof.Laws.RoundTrip.multicastDepart (t : TileId) : Sys2Proof.Laws.RoundTrip.Statement (.multicastDepart t) :=
  of_event rfl rfl rfl rfl rfl rfl
theorem Sys2Proof.Laws.RoundTrip.multicastLand (t : TileId) : Sys2Proof.Laws.RoundTrip.Statement (.multicastLand t) :=
  of_event rfl rfl rfl rfl rfl rfl
theorem Sys2Proof.Laws.RoundTrip.leaseTurnEnd (c : CrewId) : Sys2Proof.Laws.RoundTrip.Statement (.leaseTurnEnd c) :=
  of_event rfl rfl rfl rfl rfl rfl
theorem Sys2Proof.Laws.RoundTrip.leaseGrant (c : CrewId) : Sys2Proof.Laws.RoundTrip.Statement (.leaseGrant c) :=
  of_event rfl rfl rfl rfl rfl rfl
theorem Sys2Proof.Laws.RoundTrip.mWritesLand (c : CrewId) (chk : Check) : Sys2Proof.Laws.RoundTrip.Statement (.mWritesLand c chk) :=
  of_event rfl rfl rfl rfl rfl rfl
theorem Sys2Proof.Laws.RoundTrip.batchRetire (t : TileId) : Sys2Proof.Laws.RoundTrip.Statement (.batchRetire t) :=
  of_event rfl rfl rfl rfl rfl rfl
theorem Sys2Proof.Laws.RoundTrip.replayEnd (t : TileId) : Sys2Proof.Laws.RoundTrip.Statement (.replayEnd t) :=
  of_event rfl rfl rfl rfl rfl rfl
theorem Sys2Proof.Laws.RoundTrip.portPushLand (l : PushLand) : Sys2Proof.Laws.RoundTrip.Statement (.portPushLand l) :=
  of_event rfl rfl rfl rfl rfl rfl
theorem Sys2Proof.Laws.RoundTrip.vWriteLand (t : TileId) (chk : Check) : Sys2Proof.Laws.RoundTrip.Statement (.vWriteLand t chk) :=
  of_event rfl rfl rfl rfl rfl rfl
theorem Sys2Proof.Laws.RoundTrip.coxWriteLand (t : TileId) : Sys2Proof.Laws.RoundTrip.Statement (.coxWriteLand t) :=
  of_event rfl rfl rfl rfl rfl rfl
theorem Sys2Proof.Laws.RoundTrip.rfElementArrive (t : TileId) : Sys2Proof.Laws.RoundTrip.Statement (.rfElementArrive t) :=
  of_event rfl rfl rfl rfl rfl rfl
theorem Sys2Proof.Laws.RoundTrip.requestDepart (t : TileId) (mismatch : Bool) : Sys2Proof.Laws.RoundTrip.Statement (.requestDepart t mismatch) :=
  of_event rfl rfl rfl rfl rfl rfl
theorem Sys2Proof.Laws.RoundTrip.homeAccessDone (h : HomeId) (chk : Check) : Sys2Proof.Laws.RoundTrip.Statement (.homeAccessDone h chk) :=
  of_event rfl rfl rfl rfl rfl rfl
theorem Sys2Proof.Laws.RoundTrip.scPerform (t : TileId) : Sys2Proof.Laws.RoundTrip.Statement (.scPerform t) :=
  of_event rfl rfl rfl rfl rfl rfl
theorem Sys2Proof.Laws.RoundTrip.recastArrival (h : HomeId) : Sys2Proof.Laws.RoundTrip.Statement (.recastArrival h) :=
  of_event rfl rfl rfl rfl rfl rfl
theorem Sys2Proof.Laws.RoundTrip.rtailWrite (d : DieId) (q : QueueId) (v : BitVec 32) : Sys2Proof.Laws.RoundTrip.Statement (.rtailWrite d q v) :=
  of_event rfl rfl rfl rfl rfl rfl
theorem Sys2Proof.Laws.RoundTrip.launchDispatch (d : DieId) : Sys2Proof.Laws.RoundTrip.Statement (.launchDispatch d) :=
  of_event rfl rfl rfl rfl rfl rfl
theorem Sys2Proof.Laws.RoundTrip.dbudgetExpiry (id : BitVec 32) : Sys2Proof.Laws.RoundTrip.Statement (.dbudgetExpiry id) :=
  of_event rfl rfl rfl rfl rfl rfl
theorem Sys2Proof.Laws.RoundTrip.gangPlace (id : BitVec 32) : Sys2Proof.Laws.RoundTrip.Statement (.gangPlace id) :=
  of_event rfl rfl rfl rfl rfl rfl
theorem Sys2Proof.Laws.RoundTrip.pointAllocate (id : BitVec 32) : Sys2Proof.Laws.RoundTrip.Statement (.pointAllocate id) :=
  of_event rfl rfl rfl rfl rfl rfl
theorem Sys2Proof.Laws.RoundTrip.launchComplete (id : BitVec 32) : Sys2Proof.Laws.RoundTrip.Statement (.launchComplete id) :=
  of_event rfl rfl rfl rfl rfl rfl
theorem Sys2Proof.Laws.RoundTrip.launchFail (id : BitVec 32) : Sys2Proof.Laws.RoundTrip.Statement (.launchFail id) :=
  of_event rfl rfl rfl rfl rfl rfl
theorem Sys2Proof.Laws.RoundTrip.trapEntry (t : TileId) : Sys2Proof.Laws.RoundTrip.Statement (.trapEntry t) :=
  of_event rfl rfl rfl rfl rfl rfl
theorem Sys2Proof.Laws.RoundTrip.iterationEnd (t : TileId) : Sys2Proof.Laws.RoundTrip.Statement (.iterationEnd t) :=
  of_event rfl rfl rfl rfl rfl rfl
theorem Sys2Proof.Laws.RoundTrip.queueStop (t : TileId) (e : Eng) : Sys2Proof.Laws.RoundTrip.Statement (.queueStop t e) :=
  of_event rfl rfl rfl rfl rfl rfl
theorem Sys2Proof.Laws.RoundTrip.tintWrite (t : TileId) (v : Word) : Sys2Proof.Laws.RoundTrip.Statement (.tintWrite t v) :=
  of_event rfl rfl rfl rfl rfl rfl
theorem Sys2Proof.Laws.RoundTrip.preempt (t : TileId) : Sys2Proof.Laws.RoundTrip.Statement (.preempt t) :=
  of_event rfl rfl rfl rfl rfl rfl
theorem Sys2Proof.Laws.RoundTrip.preemptResume (t : TileId) : Sys2Proof.Laws.RoundTrip.Statement (.preemptResume t) :=
  of_event rfl rfl rfl rfl rfl rfl
theorem Sys2Proof.Laws.RoundTrip.tdbgResume (t : TileId) : Sys2Proof.Laws.RoundTrip.Statement (.tdbgResume t) :=
  of_event rfl rfl rfl rfl rfl rfl
theorem Sys2Proof.Laws.RoundTrip.rowUnitCopyDone (h : HomeId) : Sys2Proof.Laws.RoundTrip.Statement (.rowUnitCopyDone h) :=
  of_event rfl rfl rfl rfl rfl rfl
theorem Sys2Proof.Laws.RoundTrip.rowRemap (h : HomeId) : Sys2Proof.Laws.RoundTrip.Statement (.rowRemap h) :=
  of_event rfl rfl rfl rfl rfl rfl
theorem Sys2Proof.Laws.RoundTrip.selftestPeriod (d : DieId) : Sys2Proof.Laws.RoundTrip.Statement (.selftestPeriod d) :=
  of_event rfl rfl rfl rfl rfl rfl
theorem Sys2Proof.Laws.RoundTrip.selftestStart (d : DieId) : Sys2Proof.Laws.RoundTrip.Statement (.selftestStart d) :=
  of_event rfl rfl rfl rfl rfl rfl
theorem Sys2Proof.Laws.RoundTrip.selftestEnd (d : DieId) (pass : Bool) : Sys2Proof.Laws.RoundTrip.Statement (.selftestEnd d pass) :=
  of_event rfl rfl rfl rfl rfl rfl
theorem Sys2Proof.Laws.RoundTrip.patrolScrubRead (h : HomeId) (stack : Fin 3) (ch : Fin 64) (chk : Check) : Sys2Proof.Laws.RoundTrip.Statement (.patrolScrubRead h stack ch chk) :=
  of_event rfl rfl rfl rfl rfl rfl
theorem Sys2Proof.Laws.RoundTrip.pairCompare (id : BitVec 32) : Sys2Proof.Laws.RoundTrip.Statement (.pairCompare id) :=
  of_event rfl rfl rfl rfl rfl rfl
theorem Sys2Proof.Laws.RoundTrip.lastReadCycleEnd (c : CrewId) : Sys2Proof.Laws.RoundTrip.Statement (.lastReadCycleEnd c) :=
  of_event rfl rfl rfl rfl rfl rfl
theorem Sys2Proof.Laws.RoundTrip.preqRequest (d : DieId) (i : Fin 128) : Sys2Proof.Laws.RoundTrip.Statement (.preqRequest d i) :=
  of_event rfl rfl rfl rfl rfl rfl
theorem Sys2Proof.Laws.RoundTrip.preqWithdraw (d : DieId) : Sys2Proof.Laws.RoundTrip.Statement (.preqWithdraw d) :=
  of_event rfl rfl rfl rfl rfl rfl
theorem Sys2Proof.Laws.RoundTrip.pitchWrite (d : DieId) (i : Fin 2112) (v : BitVec 16) : Sys2Proof.Laws.RoundTrip.Statement (.pitchWrite d i v) :=
  of_event rfl rfl rfl rfl rfl rfl
theorem Sys2Proof.Laws.RoundTrip.peerTableWrite (i : Fin 256) (ctl : Byte) (src : Byte) (qmask : BitVec 256) : Sys2Proof.Laws.RoundTrip.Statement (.peerTableWrite i ctl src qmask) :=
  of_event rfl rfl rfl rfl rfl rfl
theorem Sys2Proof.Laws.RoundTrip.signalWindowWrite (w : BitVec 17) (v : Word) : Sys2Proof.Laws.RoundTrip.Statement (.signalWindowWrite w v) :=
  of_event rfl rfl rfl rfl rfl rfl
theorem Sys2Proof.Laws.RoundTrip.imgaddrWrite (v : Word) : Sys2Proof.Laws.RoundTrip.Statement (.imgaddrWrite v) :=
  of_event rfl rfl rfl rfl rfl rfl
theorem Sys2Proof.Laws.RoundTrip.ctxflushWrite (v : Word) : Sys2Proof.Laws.RoundTrip.Statement (.ctxflushWrite v) :=
  of_event rfl rfl rfl rfl rfl rfl
theorem Sys2Proof.Laws.RoundTrip.regWrite (r : WinReg) (v : Word) : Sys2Proof.Laws.RoundTrip.Statement (.regWrite r v) :=
  of_event rfl rfl rfl rfl rfl rfl
theorem Sys2Proof.Laws.RoundTrip.packetArrive (p : Packet) : Sys2Proof.Laws.RoundTrip.Statement (.packetArrive p) :=
  of_event rfl rfl rfl rfl rfl rfl
theorem Sys2Proof.Laws.RoundTrip.ackArrive (pkg : Byte) (seq : BitVec 32) (val : Option Word) : Sys2Proof.Laws.RoundTrip.Statement (.ackArrive pkg seq val) :=
  of_event rfl rfl rfl rfl rfl rfl
theorem Sys2Proof.Laws.RoundTrip.resendTimeout (pkg : Byte) (seq : BitVec 32) : Sys2Proof.Laws.RoundTrip.Statement (.resendTimeout pkg seq) :=
  of_event rfl rfl rfl rfl rfl rfl
theorem Sys2Proof.Laws.RoundTrip.flagDepart (pkg : Byte) : Sys2Proof.Laws.RoundTrip.Statement (.flagDepart pkg) :=
  of_event rfl rfl rfl rfl rfl rfl
theorem Sys2Proof.Laws.RoundTrip.ringFetch (d : DieId) (q : QueueId) : Sys2Proof.Laws.RoundTrip.Statement (.ringFetch d q) :=
  of_event rfl rfl rfl rfl rfl rfl
theorem Sys2Proof.Laws.RoundTrip.poolEntry (d : DieId) : Sys2Proof.Laws.RoundTrip.Statement (.poolEntry d) :=
  of_event rfl rfl rfl rfl rfl rfl
theorem Sys2Proof.Laws.RoundTrip.qctlFrozenClear (d : DieId) (q : QueueId) : Sys2Proof.Laws.RoundTrip.Statement (.qctlFrozenClear d q) :=
  of_event rfl rfl rfl rfl rfl rfl
theorem Sys2Proof.Laws.RoundTrip.recastFlip (e : Fin 65536) : Sys2Proof.Laws.RoundTrip.Statement (.recastFlip e) :=
  of_event rfl rfl rfl rfl rfl rfl
theorem Sys2Proof.Laws.RoundTrip.linkCrcRetry (port : CpId) : Sys2Proof.Laws.RoundTrip.Statement (.linkCrcRetry port) :=
  of_event rfl rfl rfl rfl rfl rfl
theorem Sys2Proof.Laws.RoundTrip.mcstValClear (d : DieId) (b : Fin 48) : Sys2Proof.Laws.RoundTrip.Statement (.mcstValClear d b) :=
  of_event rfl rfl rfl rfl rfl rfl
theorem Sys2Proof.Laws.RoundTrip.stctlReq (d : DieId) (c : Fin 32) : Sys2Proof.Laws.RoundTrip.Statement (.stctlReq d c) :=
  of_event rfl rfl rfl rfl rfl rfl
theorem Sys2Proof.Laws.RoundTrip.boot (good : Bool) (pkg : Byte) (fw : Firmware) : Sys2Proof.Laws.RoundTrip.Statement (.boot good pkg fw) :=
  of_event rfl rfl rfl rfl rfl rfl
theorem Sys2Proof.Laws.RoundTrip.tokenWaitEnd (t : TileId) (e : Eng) : Sys2Proof.Laws.RoundTrip.Statement (.tokenWaitEnd t e) :=
  of_event rfl rfl rfl rfl rfl rfl
theorem Sys2Proof.Laws.RoundTrip.keyLoad (slot : Fin 1024) (key : BitVec 512) : Sys2Proof.Laws.RoundTrip.Statement (.keyLoad slot key) :=
  of_event rfl rfl rfl rfl rfl rfl
theorem Sys2Proof.Laws.RoundTrip.thermalLimit (d : DieId) (celsius : Nat) : Sys2Proof.Laws.RoundTrip.Statement (.thermalLimit d celsius) :=
  of_event rfl rfl rfl rfl rfl rfl
theorem Sys2Proof.Laws.RoundTrip.mcLeakTick : Sys2Proof.Laws.RoundTrip.Statement (.mcLeakTick) :=
  of_event rfl rfl rfl rfl rfl rfl
theorem Sys2Proof.Laws.RoundTrip.earlyPacketTimeout : Sys2Proof.Laws.RoundTrip.Statement (.earlyPacketTimeout) :=
  of_event rfl rfl rfl rfl rfl rfl
theorem Sys2Proof.Laws.RoundTrip.gtimeBoundLoss : Sys2Proof.Laws.RoundTrip.Statement (.gtimeBoundLoss) :=
  of_event rfl rfl rfl rfl rfl rfl
theorem Sys2Proof.Laws.RoundTrip.bhstatSetvClear : Sys2Proof.Laws.RoundTrip.Statement (.bhstatSetvClear) :=
  of_event rfl rfl rfl rfl rfl rfl
theorem Sys2Proof.Laws.RoundTrip.supplyLoss : Sys2Proof.Laws.RoundTrip.Statement (.supplyLoss) :=
  of_event rfl rfl rfl rfl rfl rfl
theorem Sys2Proof.Laws.RoundTrip.handlerDeadline : Sys2Proof.Laws.RoundTrip.Statement (.handlerDeadline) :=
  of_event rfl rfl rfl rfl rfl rfl
theorem Sys2Proof.Laws.RoundTrip.drainEnd : Sys2Proof.Laws.RoundTrip.Statement (.drainEnd) :=
  of_event rfl rfl rfl rfl rfl rfl
theorem Sys2Proof.Laws.RoundTrip.coldReset : Sys2Proof.Laws.RoundTrip.Statement (.coldReset) :=
  of_event rfl rfl rfl rfl rfl rfl
theorem Sys2Proof.Laws.RoundTrip.freeze : Sys2Proof.Laws.RoundTrip.Statement (.freeze) :=
  of_event rfl rfl rfl rfl rfl rfl
theorem Sys2Proof.Laws.RoundTrip.endl : Sys2Proof.Laws.RoundTrip.Statement (.endl) :=
  of_step rfl rfl rfl rfl rfl (fun hw => step_endl hw)
theorem Sys2Proof.Laws.RoundTrip.stepDone : Sys2Proof.Laws.RoundTrip.Statement (.stepDone) :=
  of_step rfl rfl rfl rfl rfl (fun hw => step_stepDone hw)
end

