-- ==== Sys2Proof/Tests/Slice0.lean ====
section
/-! SUPPORT. Tests: terms that the checks refuse, words written out from the spec's encodings, single steps on small
states, and states that meet the hypotheses of the statements. Expected values are the spec's own or hand-computed. -/

open Sys2Proof Sys2Proof.Machine

namespace Sys2Proof.Tests

set_option maxRecDepth 4000
set_option Elab.async false

/-! ## Operands for the tests -/

/-- The true guard. -/
def tg : CGuard := ⟨0, false⟩
/-- No token. -/
def tk0 : Tok := ⟨none, none⟩
/-- A V head with guard `k0` and no token. -/
def th : VHead := ⟨⟨0, false⟩, tk0⟩
/-- An element operand at INDEX `n`, untimed. -/
def te (n : BitVec 14) : ElemOp := ⟨tk0, .none, n, none, .rne⟩

/-! ## Ill-formed terms, one for each check of WellFormed -/

/-- R52, R53: two immediates. -/
theorem test_wf_twoImm : (Instr.add ⟨tg, 1, .imm 1, .imm 2⟩).wf .cox = false := by decide
/-- R52, R53: the same among V sources. -/
theorem test_wf_twoImmV : (Instr.viadd ⟨th, .v 1, .imm 1, .imm 2, .i32⟩).wf .v = false := by decide
/-- R53: an immediate of a 16-bit type with IMM[31:16] ≠ 0. -/
theorem test_wf_immHalf : (Instr.vadd ⟨th, .v 1, .v 2, .imm 0x10000, .bf16, .rne⟩).wf .v = false := by decide
/-- R53: the same at a comparison. -/
theorem test_wf_immHalfCmp : (Instr.vcmp ⟨th, 1, .eq, .fp .f16, .v 2, .imm 0x10000⟩).wf .v = false := by decide
/-- R54: a condition that lanes do not have. -/
theorem test_wf_cond : (Instr.vcmp ⟨th, 1, .ltn, .int .i32, .v 2, .v 3⟩).wf .v = false := by decide
/-- R56: a token of the engine itself. -/
theorem test_wf_token : (Instr.vnop ⟨some .v, none⟩).wf .v = false := by decide
/-- R54: `sext` has no 64-bit type. -/
theorem test_wf_sext : (Instr.sext ⟨tg, 1, .x 2, .b8⟩).wf .cox = false := by decide
/-- R288: an order that `SLD` does not list. -/
theorem test_wf_order : (Instr.sld ⟨tg, 1, .rel, .gang, 0⟩).wf .cox = false := by decide
/-- R288: `sc` at `dom`. -/
theorem test_wf_scDom : (Instr.sst ⟨tg, 1, .sc, .dom, 0⟩ (.x 2)).wf .cox = false := by decide
/-- R208: a turn of no word. -/
theorem test_wf_mlease : (Instr.mlease tg 0 1).wf .cox = false := by decide
/-- R208: the longest turn. -/
theorem test_wf_mlease64 : (Instr.mlease tg 64 1).wf .cox = true ∧ (Instr.mlease tg 65 1).wf .cox = false := by decide
/-- R277: at most one operand of `ACOWN` is an immediate. -/
theorem test_wf_acown : (Instr.acown tg (.imm 1) (.imm 2)).wf .cox = false := by decide
/-- R80: `fresh` without role S. -/
theorem test_wf_recast : (Instr.recast ⟨tg, 1, 2, 3, .i, true, none⟩).wf .cox = false := by decide
/-- R279: a number that the CSR table does not list. -/
theorem test_wf_csr : (Instr.csrr tg 1 0x007).wf .cox = false ∧ (Instr.csrw tg 0x050 none).wf .cox = false := by decide
/-- R191: `.nf` on both sides, and an FMT word without `.nf`. -/
theorem test_wf_vcvt : (Instr.vcvt ⟨th, .v 1, .v 2, .nf, .nf, .rne, 0⟩).wf .v = false ∧
    (Instr.vcvt ⟨th, .v 1, .v 2, .f32, .bf16, .rne, 1⟩).wf .v = false := by decide
/-- R193: an immediate source of `VDQBLK` stands in IMM beside the FMT word. -/
theorem test_wf_vdqblk : (Instr.vdqblk th (.v 1) (.imm 1) .rne 2).wf .v = false := by decide
/-- R128: a rounding mode where nothing rounds, and a start time where none is taken. -/
theorem test_wf_elem : (Instr.cfill ⟨tk0, .none, 0, none, .rtz⟩).wf .l = false ∧
    (Instr.cprb ⟨tk0, .none, 0, some 1, .rne⟩).wf .l = false := by decide
/-- R128: `COPLD` belongs to the L stream. -/
theorem test_wf_stream : (Instr.copld (te 0) true).wf .s = false ∧ (Instr.copld (te 0) true).wf .l = true := by decide
/-- R128: an order that `CWAIT` does not list. -/
theorem test_wf_csig : (Instr.cwaitSignal ⟨tk0, .rel, .gang, false, 0, 0⟩).wf .l = false := by decide
/-- R217: an element window that leaves the slot. -/
theorem test_wf_mma : (Instr.mma ⟨tk0, 0, 0, 1, 127, 1, 0⟩).wf .m = false ∧
    (Instr.mma ⟨tk0, 0, 0, 1, 127, 0, 0⟩).wf .m = true := by decide
/-- R218: a range that ends before it begins, or past 128. -/
theorem test_wf_msetrow : (Instr.msetrow tk0 2 1).wf .m = false ∧ (Instr.msetcol tk0 0 129).wf .m = false := by decide
/-- R220: banks above 31. -/
theorem test_wf_mtile : (Instr.mtile tk0 31 1).wf .m = false := by decide
/-- A word of one stream is none of another, and an event is a word of no stream. -/
theorem test_wf_streams : (Instr.nop tg).wf .v = false ∧ Instr.supplyLoss.wf .cox = false := by decide
/-- R241: a WAIT step at the scope of a tile. -/
theorem test_wf_step : (Instr.waitSignalStep .tile 0 0).wfStep = false := by decide

/-! ## Words written out from the spec's encodings -/

/-- R62: the worked Cox word. -/
theorem test_decode_add : decodeWord .cox 0x00860A0D80000000FFFFFFF4 =
    .word (.add ⟨⟨3, true⟩, 5, .x 6, .imm 0xFFFFFFF4⟩) := by decide
/-- R62, check 3: TS set in a Cox word. -/
theorem test_decode_ill3 : decodeWord .cox 0x00860A0D80000001FFFFFFF4 = .ill 3 := by decide
/-- R62: the worked V word. -/
theorem test_decode_vmul : decodeWord .v 0x020111018000010740000000 =
    .word (.vmul ⟨⟨⟨0, false⟩, ⟨some .l, some .s⟩⟩, .op 0, .ip 0, .imm 0x40000000, .f32, .rne⟩) := by decide
/-- R273: `exec.v x0, 3, 4096, x6, x7`. -/
theorem test_decode_exec : decodeWord .cox 0x5000000C0E00100001000003 =
    .word (.exec ⟨tg, .v, 0, 3, .imm 4096, 6, 7⟩) := by decide
/-- R122: the worked `cpyt`, with ARGA, `D` = 50 and a push to V. -/
theorem test_decode_cpyt : decodeWord .l 0x020082000000000100000032 =
    .word (.cpyt ⟨⟨none, some .v⟩, .arga, 256, none, .rne⟩ 50) := by decide
/-- 10_eight.md, the worked product: `mma` of bank 4 with slots 2 and 3. -/
theorem test_decode_mma : decodeWord .m 0x1000080406000001000C1817 =
    .word (.mma ⟨⟨none, some .l⟩, 4, 2, 3, 23, 48, 48⟩) := by decide
/-- R290: `sld.acq.gang [x0 + 17]`. -/
theorem test_decode_sld : decodeWord .cox 0x360000000000100020000011 =
    .word (.sld ⟨tg, 0, .acq, .gang, 17⟩) := by decide
/-- R81: `recast x5, x6, x7, i, 300`. -/
theorem test_decode_recast : decodeWord .cox 0x6900000A0C0E0000000012C8 =
    .word (.recast ⟨tg, 5, 6, 7, .i, false, some 300⟩) := by decide
/-- 12_cox.md, the worked region: `li x5, 2` and `mul x5, x1, x1`. -/
theorem test_decode_li : decodeWord .cox 0x1A000B800000000000000002 = .word (.li tg 5 2) := by decide
theorem test_decode_mul : decodeWord .cox 0x02000A020200000000000000 = .word (.mul ⟨tg, 5, .x 1, .x 1⟩) := by decide
/-- R290: `satom.rel.pkg.n64 [x4 + 300], x9, add`. -/
theorem test_decode_satom : decodeWord .cox 0x3800000812002C006400012C =
    .word (.satom ⟨tg, 4, .rel, .pkg, 300⟩ .n64 (.op .add) (.x 9)) := by decide
/-- R319: `launch p2, x10, x4, x5`. -/
theorem test_decode_launch : decodeWord .cox 0x700084080A14000000000000 = .word (.launch tg 2 10 4 5 0) := by decide
/-- R208: `mlease 4, 4096`. -/
theorem test_decode_mlease : decodeWord .cox 0x600000000000000000080004 = .word (.mlease tg 4 4096) := by decide
/-- R284: `waitcyc 6`. -/
theorem test_decode_waitcyc : decodeWord .cox 0xE90001800000000000000006 = .word (.waitcyc tg (.imm 6)) := by decide
/-- 22_prog_holdup.md: `msdecl p3, x9`, `pfrestore p4, x9, x10` and `pfack`. -/
theorem test_decode_msdecl : decodeWord .cox 0xE60086120000000000000000 = .word (.msdecl tg 3 9) := by decide
theorem test_decode_pfrestore : decodeWord .cox 0xE80088121400000000000000 = .word (.pfrestore tg 4 9 10) := by decide
theorem test_decode_pfack : decodeWord .cox 0xE70000000000000000000000 = .word (.pfack ⟨0, false⟩) := by decide
/-- R174: `vpset ip3, v12`; R202: `vloop` to index 17. -/
theorem test_decode_vpset : decodeWord .v 0x600000180000300000000000 = .word (.vpset ⟨tk0, 3⟩ 12) := by decide
theorem test_decode_vloop : decodeWord .v 0x700000000000000000000011 = .word (.vloop tk0 17) := by decide
/-- R240: the send step of 11_regatta.md. -/
theorem test_decode_send : decodeStep 0x0000000100000100 = some (.send ⟨.up, 0, 0, 1, 256⟩ 0) := by decide

/-! ## Numbers and walks that the spec works out -/

/-- R201: lanes 0x0000_0001 and 0x0000_0003 as weights. -/
theorem test_vtcw : f32Of (tcwWeight 1 (sextNat 8 0)) .rne = 0x3F520000 ∧ f32Of (tcwWeight 3 (sextNat 8 0)) .rne = 0x3EE80000 := by
  decide +kernel
/-- R201: the windows of weights 0 and 63 of the block 01 00 00 00 00 00 00 80. -/
theorem test_vtwin : tcWindow .tc1 0x8000000000000001 0 = 1 ∧ tcWindow .tc1 0x8000000000000001 63 = 3 := by decide +kernel
/-- R191: 0.1 in FP32 rounds to BF16 0x3DCD. -/
theorem test_vcvt : cvtOut .bf16 0 .rne (cvtIn .f32 0 0x3DCCCCCD) = 0x3DCD := by decide +kernel
/-- R244: 0.875 + 0.3125 lies halfway between two codes of the format and goes to the even one. -/
theorem test_reencode : (encodeVec 0x4A1B0700 (decodeVec 0x10000000 1 (toBytes 4 0x3F980000)) .rne).bytes = [0x3A] := by
  decide +kernel

/-- The levels of the walk worked in 14_scheduling.md: gang row 2, tile snake 2, tile snake 3. -/
def tLevels : List Level := [⟨3, 0, 3, 1, 2⟩, ⟨5, 2, 4, 2, 2⟩, ⟨5, 2, 4, 3, 3⟩]
/-- The points of a walk from keys `ks`. -/
def tPoints (ls : List Level) : Nat → List Nat → List (List Nat)
  | 0, _ => []
  | n + 1, ks => walkPoint (nestsOf ls) ks :: match walkNext (nestsOf ls) ks with
    | some k => tPoints ls n k
    | none => []
/-- R315: its twelve points, in order. -/
theorem test_walk : tPoints tLevels 20 [0, 0] = [[0,0,0],[0,0,1],[0,0,2],[0,1,2],[0,1,1],[0,1,0],[1,0,0],[1,0,1],[1,0,2],
    [1,1,2],[1,1,1],[1,1,0]] := by decide +kernel
/-- R315: a morton nest of two levels of count 2 interleaves its digits. -/
theorem test_walk_morton : tPoints [⟨3, 3, 3, 1, 2⟩, ⟨3, 3, 3, 2, 2⟩] 9 [0] = [[0,0],[0,1],[1,0],[1,1]] := by decide +kernel

/-! ## States for single steps -/

/-- A Cox with every register valid: x1 = 7, x2 = 5, x4 = −1, x5 = −2^63, x6 = 0x100, x7 a misaligned address, and p1, p2
true. -/
def tCox : Cox := { Cox.reset with
  x := ((((((Vector.replicate 64 0).set 1 7).set 2 5).set 4 0xFFFFFFFFFFFFFFFF).set 5 0x8000000000000000).set 6 0x100).set 7 0x101
  xv := BitVec.allOnes 64, p := 7, pv := 0xFFFF }
/-- A tile with that Cox, and an iteration placed as member 0 of a gang of two. -/
def tTile : Tile := { Tile.reset with cox := tCox, iter := some 0, budget := 100, place := some ⟨1, 0, [0, 1], 0, false⟩ }
/-- A machine of which only tile 0 differs from its reset. -/
def tOf (x : Tile) : State := { State.reset with tiles := [(0, x)] }
/-- Tile 0 with that Cox at work. -/
def tS : State := tOf tTile
/-- The state that a meaning answers. -/
def after : Out → State
  | .next u => u
  | _ => State.reset
/-- The results in flight of tile 0. -/
def lands (i : Instr) (s : State) : List CoxLand := ((after (exec i s)).cox 0).flight
/-- The precise fault of tile 0, by its code. -/
def faults (i : Instr) (s : State) : Option Byte := ((after (exec i s)).cox 0).fault.map fun f => f.1.code

/-! ## Cox words -/

/-- R61: one step fetches, decodes and runs `li x5, 2`. -/
theorem test_step : (match step { tOf { tTile with cox := { tCox with imem := Memory.write [] 0 (toBytes 12 0x1A000B800000000000000002) } }
    with agenda := [.cox 0] } with
  | .next u => decide ((u.cox 0).flight = [⟨1, 0, .x 5 2⟩] ∧ (u.cox 0).pc = 12)
  | _ => false) = true := by decide +kernel
/-- R264: addition wraps. -/
theorem test_add : lands (.add ⟨tg, 8, .x 4, .x 1⟩) tS = [⟨1, 0, .x 8 6⟩] := by decide +kernel
/-- R264: the high half of −1 · 7, signed and unsigned. -/
theorem test_mulh : lands (.mulh ⟨tg, 8, .x 4, .x 1⟩) tS = [⟨3, 0, .x 8 0xFFFFFFFFFFFFFFFF⟩] ∧
    lands (.mulhn ⟨tg, 8, .x 4, .x 1⟩) tS = [⟨3, 0, .x 8 6⟩] := by decide +kernel
/-- R265: the corners. -/
theorem test_div : lands (.div ⟨tg, 8, .x 1, .x 0⟩) tS = [⟨20, 0, .x 8 0xFFFFFFFFFFFFFFFF⟩] ∧
    lands (.div ⟨tg, 8, .x 5, .x 4⟩) tS = [⟨20, 0, .x 8 0x8000000000000000⟩] := by decide +kernel
theorem test_rem : lands (.rem ⟨tg, 8, .x 1, .x 0⟩) tS = [⟨20, 0, .x 8 7⟩] ∧
    lands (.rem ⟨tg, 8, .x 5, .x 4⟩) tS = [⟨20, 0, .x 8 0⟩] := by decide +kernel
/-- R264: shift counts are taken modulo 64, and SRA keeps the sign. -/
theorem test_shifts : lands (.shl ⟨tg, 8, .x 1, .imm 65⟩) tS = [⟨1, 0, .x 8 14⟩] ∧
    lands (.sra ⟨tg, 8, .x 5, .imm 63⟩) tS = [⟨1, 0, .x 8 0xFFFFFFFFFFFFFFFF⟩] := by decide +kernel
/-- R264: leading zeros of 0 and of 7. -/
theorem test_clz : lands (.clz ⟨tg, 8, .x 0⟩) tS = [⟨1, 0, .x 8 64⟩] ∧ lands (.clz ⟨tg, 8, .x 1⟩) tS = [⟨1, 0, .x 8 61⟩] := by
  decide +kernel
/-- R264: `lih` replaces the high half. -/
theorem test_lih : lands (.lih ⟨tg, 8, .x 4, 1⟩) tS = [⟨1, 0, .x 8 0x1FFFFFFFF⟩] := by decide +kernel
/-- R266: signed and unsigned comparison of −1 with 7. -/
theorem test_cmp : lands (.cmp ⟨tg, 3, .lt, .x 4, .x 1⟩) tS = [⟨1, 0, .p 3 true⟩] ∧
    lands (.cmp ⟨tg, 3, .ltn, .x 4, .x 1⟩) tS = [⟨1, 0, .p 3 false⟩] := by decide +kernel
/-- R252: an invalid source raises INVREG; a false guard has no effect but the next PC. -/
theorem test_invreg : faults (.add ⟨tg, 8, .x 9, .x 1⟩) (tOf { tTile with cox := { tCox with xv := 0x3 } }) = some cINVREG ∧
    lands (.add ⟨⟨1, true⟩, 8, .x 4, .x 1⟩) tS = [] := by decide +kernel
/-- R269: a misaligned load, and one outside every window. -/
theorem test_ld_faults : faults (.ld ⟨tg, 7, 0, ⟨.b8, false⟩⟩ 8) tS = some cMISALIGN ∧
    faults (.ld ⟨tg, 5, 0, ⟨.b8, false⟩⟩ 8) tS = some cWINDOW := by decide +kernel
/-- R269: a store of two bytes lands one cycle on. -/
theorem test_st : lands (.st ⟨tg, 6, 2, ⟨.b2, false⟩⟩ (.x 4)) tS = [⟨1, 0, .store 0x102 [0xFF, 0xFF]⟩] := by decide +kernel
/-- R271: the link of `brl` is the word after its delay slots. -/
theorem test_brl : lands (.brl tg 8 (-12)) tS = [⟨1, 0, .x 8 36⟩] ∧
    ((after (exec (.brl tg 8 (-12)) tS)).cox 0).branch = some (0xFFFFFFFFFFFFFFF4, 2) := by decide +kernel
/-- R272: a branch word in a delay slot of a taken branch acts as `nop`, a closing word there is ILLOP. -/
theorem test_delaySlot : let s := tOf { tTile with cox := { tCox with branch := some (0x24, 2) } }
    ((after (exec (.br tg 48) s)).cox 0).branch = some (0x24, 1) ∧ faults (.region tg) s = some cILLOP := by decide +kernel
/-- R283: `rft` outside a handler raises PROT. -/
theorem test_rft : faults (.rft tg) tS = some cPROT := by decide +kernel
/-- R278: a slot number above 31 raises PROT. -/
theorem test_osclaim : faults (.osclaim tg 1 (.imm 32)) tS = some cPROT := by decide +kernel
/-- R280: GTIME, and an ill-formed BFMT. -/
theorem test_csr : lands (.csrr tg 8 0x010) { tS with gtime := 9 } = [⟨11, 0, .x 8 9⟩] ∧
    faults (.csrw tg 0x040 (some (.x 4))) tS = some cPROT := by decide +kernel
/-- R273: an entry is numbered from 1 and leaves as a push. -/
theorem test_exec : let u := after (exec (.exec ⟨tg, .v, 8, 3, .imm 4096, 1, 2⟩) tS)
    (((u.tile 0).eng .v).pushed, (u.tile 0).reqs.map Req.depart, (u.cox 0).flight) = (1, [6], [⟨1, 0, .x 8 1⟩, ⟨6, 0, .retire⟩]) := by
  decide +kernel
/-- R330: with a handler, the fault of a word enters it. -/
theorem test_trapEntry : let u := after (exec (.trapEntry 0) (tOf { tTile with cox := { tCox with tvec := 0x10120, fault := some (⟨cMISALIGN, 0, 0, 0x101⟩, 24), pc := 24 } }))
    ((u.cox 0).tm, (u.cox 0).pc, (u.cox 0).tpc, (u.cox 0).taddr, (u.cox 0).nextIssue) = (true, 0x120, 24, 0x101, 4) := by
  decide +kernel

/-! ## Landings -/

/-- R252: a register takes its value; `x0` does not. -/
theorem test_land : let s (d : Fin 64) : State := { tOf { tTile with cox := { tCox with flight := [⟨0, 0, .x d 9⟩] } } with phase := .ending }
    ((after (exec (.coxWriteLand 0) (s 8))).cox 0).readX 8 = 9 ∧ ((after (exec (.coxWriteLand 0) (s 0))).cox 0).readX 0 = 0 := by
  decide +kernel
/-- R163: a store lands little-endian, and leaves the next byte. -/
theorem test_landStore : let s : State := { tOf { tTile with cox := { tCox with flight := [⟨0, 0, .store 16 [1, 2]⟩] } } with phase := .ending }
    ((after (exec (.coxWriteLand 0) s)).tile 0).sp.read 15 4 = [0, 1, 2, 0] := by decide +kernel
/-- R287: an add at a Signal word gives the old value. -/
theorem test_signal : let d := (DevMem.reset.perform 5 (.write 40)).2
    (d.perform 5 (.atom .add false 2)).1 = 40 ∧ (d.perform 5 (.atom .add false 2)).2.signal 5 = 42 := by decide +kernel

/-! ## States that meet the hypotheses of the statements: words of the Cox -/

/-- The conditions of `CoxRuns` as one check. -/
def coxOk (s : State) (t : TileId) (g : CGuard) (l : List COp) : Bool :=
  decide (s.cur = .cox t) && (s.cox t).guardValid g && (s.cox t).guardOn g && l.all (s.cox t).opValid &&
    decide ((s.cox t).popReady (popCount l) = some true)
theorem coxOk_runs {s : State} {t : TileId} {g : CGuard} {l : List COp} (h : coxOk s t g l = true) : CoxRuns s t g l := by
  simp only [coxOk, Bool.and_eq_true, decide_eq_true_eq, List.all_eq_true] at h
  exact ⟨h.1.1.1.1, h.1.1.1.2, h.1.1.2, h.1.2, h.2⟩
theorem coxOk_all {s : State} {t : TileId} {g : CGuard} {ls : List (List COp)} (k : ls.all (coxOk s t g) = true) : ∀ l ∈ ls, CoxRuns s t g l :=
  fun l m => coxOk_runs (List.all_eq_true.mp k l m)

/-- The Cox with some registers set. -/
def tx (l : List (Fin 64 × Word)) : Cox := l.foldl (fun c p => { c with x := c.x.set p.1.val p.2 p.1.isLt }) tCox
/-- A launch of a gang of two, running, with a quota of 4,096 bytes. -/
def tLaunch : Launch :=
  ⟨1, 0, 0, 0, ⟨0, 100, 100, 4096, 2, 0, false, false, false, false, 0, none, none, [], tLevels, []⟩, [], none, none, 0, 0,
    some 0, [0, 0], 0, false, none, [], none, false, false, none, [], none⟩
/-- An extent of 64 FP32 elements at 0x10000 in one segment. -/
def tExtent (st : SegState) (w r : Nat) : Extent :=
  ⟨0x10000, 64, 0x10000000, 1, 0, 0, 0, false, 0, [⟨0, 64, st, 0, w, r, false, false, false, false, none, none⟩], none, [],
    [(0, 4096)]⟩
/-- Tile 0 with some registers set, its launch running, and extent 5 mapped. -/
def tE (st : SegState) (w r : Nat) (l : List (Fin 64 × Word)) : State :=
  { tOf { tTile with cox := tx l } with
    launches := [tLaunch],
    dev := { DevMem.reset with extents := [(5, tExtent st w r)], ptes := mapPage [] 0x10000 0 0 5 0 0 },
    sys := { Sys.reset with keys := [(0, 0)] } }

/-- For IntegerWords and OneSourceWords. -/
theorem test_hyp_IntegerWords : ∀ l ∈ [[(Src.x 1).op, (Src.imm 2).op], [(Src.x 1).op], [], [(XRf.x 1).op],
    [(Src.x 1).op, (Src.x 2).op, .p 1]], CoxRuns tS 0 tg l := coxOk_all (by decide +kernel)

theorem test_hyp_DivisionWords :
    let v (a b : Src) (i : Nat) := coxValue tS 0 [a.op, b.op] i
    (CoxRuns tS 0 tg [(Src.x 1).op, (Src.x 0).op] ∧ v (.x 1) (.x 0) 1 = 0) ∧
    (CoxRuns tS 0 tg [(Src.x 5).op, (Src.x 4).op] ∧ (v (.x 5) (.x 4) 0).toInt = -2 ^ 63 ∧ (v (.x 5) (.x 4) 1).toInt = -1) ∧
    CoxRuns tS 0 tg [(Src.x 1).op, (Src.x 2).op] ∧ v (.x 1) (.x 2) 1 ≠ 0 :=
  ⟨⟨coxOk_runs (by decide +kernel), by decide +kernel⟩, ⟨coxOk_runs (by decide +kernel), by decide +kernel⟩,
    coxOk_runs (by decide +kernel), by decide +kernel⟩

theorem test_hyp_PredicateWords : ∀ l ∈ [[.p 1, .p 3], [.p 1], [.x 1]], CoxRuns tS 0 tg l := coxOk_all (by decide +kernel)

/-- A handler of tile 0, with ACT as given. -/
def tHandler (act : Bool) : State :=
  tOf { tTile with cox := { tCox with tm := true, tcause := if act then 0x1000 else 0x200 } }
/-- For PlainSystemWords and TrapAndReturnWords. -/
theorem test_hyp_SystemWords : CoxRuns tS 0 tg [] ∧ (tS.cox 0).branch = none ∧ (tS.cox 0).tm = false ∧
    (CoxRuns (tHandler true) 0 tg [] ∧ ((tHandler true).cox 0).tm = true ∧
      ((tHandler true).cox 0).tcause.getLsbD 12 = true ∧ (tHandler true).holding = false) ∧
    CoxRuns (tHandler false) 0 tg [] ∧ ((tHandler false).cox 0).tcause.getLsbD 12 = false :=
  ⟨coxOk_runs (by decide +kernel), by decide +kernel, by decide +kernel, ⟨coxOk_runs (by decide +kernel), by decide +kernel⟩,
    coxOk_runs (by decide +kernel), by decide +kernel⟩

/-- A tile whose response FIFO holds one place, with or without its element. -/
def tRf (v : Option Word) : State := tOf { tTile with cox := { tCox with rf := [⟨0, 0, true, v, false⟩], nextReq := 1, xv := 3 } }
theorem test_hyp_CoxIssueRules : (Instr.add ⟨⟨3, true⟩, 5, .rf, .x 1⟩).coxHead = some (⟨3, true⟩, [.rf, .x 1]) ∧
    (∃ s : State, s.cur = .cox 0 ∧ (s.cox 0).branch = none ∧ (s.cox 0).guardValid ⟨3, true⟩ = false) ∧
    (tRf none).cur = .cox 0 ∧ ((tRf none).cox 0).branch = none ∧ ((tRf none).cox 0).guardValid ⟨3, true⟩ = true ∧
    ((tRf none).cox 0).popReady 1 = some false ∧ (tS.cox 0).popReady 1 = none ∧ ((tRf (some 4)).cox 0).popReady 1 = some true ∧
    ((tRf (some 4)).cox 0).guardOn ⟨1, true⟩ = false ∧ ((tRf (some 4)).cox 0).guardOn ⟨3, true⟩ = true ∧
    ((tRf (some 4)).cox 0).opValid (.x 9) = false :=
  ⟨rfl, ⟨State.reset, by decide +kernel⟩, by decide +kernel⟩

theorem test_hyp_BranchWords : (tS.cox 0).branch = none ∧ CoxRuns tS 0 tg [.x 1] ∧ coxValue tS 0 [.x 1] 0 - 1 ≠ 0 ∧
    CoxRuns (tOf { tTile with cox := tx [(1, 1)] }) 0 tg [.x 1] ∧
    coxValue (tOf { tTile with cox := tx [(1, 1)] }) 0 [.x 1] 0 - 1 = 0 :=
  ⟨by decide +kernel, coxOk_runs (by decide +kernel), by decide +kernel, coxOk_runs (by decide +kernel), by decide +kernel⟩

theorem test_hyp_DelaySlots : tCox.branch = none ∧
    (let s := tOf { tTile with cox := { tCox with branch := some (0x24, 1) } }
     s.cur = .cox 0 ∧ (s.cox 0).branch ≠ none) ∧
    (Instr.br tg 4).isBranch = true ∧ (Instr.region tg).closesRegion = true := by decide +kernel

/-- Where the tile's Cox finds an address: its own ranges and their ends, another member's window, the multicast window,
and outside. -/
theorem test_hyp_ScratchpadWords : (∀ l ∈ [[.x 0], [.x 0, .x 1], [.x 0, .x 1, .x 2]], CoxRuns tS 0 tg l) ∧
    ¬(8 ∣ (4 : Word).toNat) ∧ (8 ∣ (0xFFFF8 : Word).toNat) ∧ (tS.tile 0).locate 0xFFFF8 = .own 0xFFFF8 ∧
    (tS.tile 0).locate 0x100000 = .outside ∧ (tS.tile 0).locate 0x100FFFF8 = .own 0xFFFF8 ∧
    (tS.tile 0).locate 0x10100000 = .member 1 0 ∧ (tS.tile 0).locate 0x10200000 = .outside ∧
    (tS.tile 0).locate 0x20000008 = .multicast 8 ∧ (tS.tile 0).locate 0x20100000 = .outside ∧ tS.holding = false ∧
    (tS.cox 0).rfRoom = true ∧ (tS.cox 0).mcdelay = 0 ∧ (tS.tile 0).mcRoom = true ∧ (tS.cox 0).branch = none ∧
    (tOf { tTile with cox := { tCox with mcdelay := 300 } } |>.cox 0).mcdelay ≠ 0 ∧
    (Instr.stAtomic tg 0 0 true .add (.x 1)).coxHead = some (tg, [.x 0, .x 1]) ∧
    (Instr.stCas tg 0 0 true (.x 1) 2).coxHead = some (tg, [.x 0, .x 1, .x 2]) :=
  ⟨coxOk_all (by decide +kernel), by decide +kernel⟩

/-- x1 = 5 names the extent, x2 = 0x10000 lies in it. -/
def tRegs : List (Fin 64 × Word) := [(1, 5), (2, 0x10000), (3, 8), (8, 64)]
/-- The page of extent 5. -/
def tPg : Page := ((tE .i 0 0 tRegs).pageFor 0 0x10000).getD ⟨0, 0, 0, 0⟩
theorem tLdi : LdiAllowed (tE .i 0 0 tRegs) 0 0x10000 4 := by
  refine ⟨by decide, tPg, tExtent .i 0 0, ⟨by decide +kernel, by decide +kernel, by decide +kernel⟩,
    ⟨by decide +kernel, (fun _ h => nomatch h), .inl rfl⟩, by decide, fun i k g _ hi hs => ?_⟩
  obtain rfl : i = 0 := Nat.le_zero.mp (hi.trans (by decide +kernel))
  rw [show (tExtent .i 0 0).segOf 0 = some (0, ⟨0, 64, .i, 0, 0, 0, false, false, false, false, none, none⟩) by decide +kernel] at hs
  cases hs
  decide +kernel
/-- The segment of extent 5 as a stream: element 1 is read next, element 3 appended. -/
def tSeg (st : SegState) : Segment := ⟨0, 64, st, 0, 3, 1, false, false, false, false, none, none⟩
theorem tCursor (st : SegState) (i bit : Nat) (k : st = .sOpen ∨ st = .sClosed) (h : (i, bit) = (1, 1) ∨ (i, bit) = (3, 2)) :
    AtCursor (tE st 3 1 tRegs) 0 5 0 i bit (tExtent st 3 1) (tSeg st) := by
  rcases k with rfl | rfl <;> rcases h with h | h <;> cases h <;>
    exact ⟨by decide, ⟨by decide +kernel, (fun _ h => nomatch h), .inl rfl⟩, by decide +kernel, tPg,
      ⟨by decide +kernel, by decide +kernel, by decide +kernel⟩, by decide +kernel⟩
theorem tAdda (i : Nat) (h : i = 3 ∨ i = 63) : AddaAllowed (tE .a 0 0 tRegs) 0 5 i := by
  rcases h with rfl | rfl <;> exact ⟨by decide, tExtent .a 0 0, tPg, 0, ⟨0, 64, .a, 0, 0, 0, false, false, false, false, none, none⟩,
    ⟨by decide +kernel, (fun _ h => nomatch h), .inl rfl⟩, by decide, ⟨by decide +kernel, by decide +kernel, by decide +kernel⟩,
    by decide +kernel, by decide +kernel, rfl⟩
theorem test_hyp_RoleSpaceWords : CoxRuns (tE .i 0 0 tRegs) 0 tg [.x 2] ∧
    ((tE .i 0 0 tRegs).holding = false ∧ (tE .i 0 0 tRegs).inPair 0 = false ∧ ((tE .i 0 0 tRegs).cox 0).rfRoom = true ∧
      ((tE .i 0 0 tRegs).cox 0).branch = none ∧ coxValue (tE .i 0 0 tRegs) 0 [.x 2] 0 = 0x10000) ∧
    LdiAllowed (tE .i 0 0 tRegs) 0 0x10000 4 ∧ LdsAllowed (tE .sOpen 3 1 tRegs) 0 5 0 ∧ LdsAllowed (tE .sClosed 3 1 tRegs) 0 5 0 ∧
    StsAllowed (tE .sOpen 3 1 tRegs) 0 5 0 ∧ CloseAllowed (tE .sOpen 3 1 tRegs) 0 5 0 ∧
    AddaAllowed (tE .a 0 0 tRegs) 0 5 3 ∧ AddaAllowed (tE .a 0 0 tRegs) 0 5 63 :=
  ⟨coxOk_runs (by decide +kernel), by decide +kernel, tLdi,
    ⟨tExtent .sOpen 3 1, tSeg .sOpen, tCursor .sOpen 1 1 (.inl rfl) (.inl rfl), by decide +kernel, by decide, .inl rfl, by decide, .inl rfl⟩,
    ⟨tExtent .sClosed 3 1, tSeg .sClosed, tCursor .sClosed 1 1 (.inr rfl) (.inl rfl), by decide +kernel, by decide, .inr rfl, by decide, .inl rfl⟩,
    ⟨tExtent .sOpen 3 1, tSeg .sOpen, tCursor .sOpen 3 2 (.inl rfl) (.inr rfl), by decide +kernel, by decide, rfl, by decide, .inl rfl⟩,
    ⟨tExtent .sOpen 3 1, tSeg .sOpen, tCursor .sOpen 3 2 (.inl rfl) (.inr rfl), rfl, .inl rfl⟩, tAdda 3 (.inl rfl), tAdda 63 (.inr rfl)⟩
theorem test_hyp_ExtentWords : GranulesGood (tE .i 0 0 tRegs) (spSites 0 (2 ^ 20 - 32) 32) ∧ CoxRuns (tE .i 0 0 tRegs) 0 tg [.x 1] ∧ CoxRuns (tE .i 0 0 tRegs) 0 tg [.x 1, .x 3, .x 8] ∧
    ((32 ∣ 2 ^ 20 - 32 ∧ 2 ^ 20 - 32 + 32 ≤ 2 ^ 20) ∧ (tE .i 0 0 tRegs).extent? 5 = some (tExtent .i 0 0) ∧
      (tE .i 0 0 tRegs).extent? 6 = none ∧ coxValue (tE .i 0 0 tRegs) 0 [.x 1, .x 3, .x 8] 0 = 5 ∧
      (coxValue (tE .i 0 0 tRegs) 0 [.x 1] 0).toNat < 65536 ∧
      ({ tS with sys := { Sys.reset with hold := some .handler } }).holding = true ∧ ¬(65536 : Word).toNat < 65536) :=
  ⟨(fun _ h => nomatch h), coxOk_runs (by decide +kernel), coxOk_runs (by decide +kernel), by decide +kernel⟩

/-- A segment for each clause. -/
theorem test_hyp_SegmentFaults : let g (st : SegState) (w r : Nat) (b : Option TileId) : Segment :=
      ⟨0, 64, st, 0, w, r, false, false, false, false, b, b⟩
    ((g .sOpen 3 1 none).fault 0 .addr 0 = some (cREADONCE, 0)) ∧ ((g .sOpen 3 1 none).fault 0 .addr 1 = some (cROLE, 1)) ∧
    ((g .sOpen 3 1 (some 1)).fault 0 .cursor 0 = some (cROLE, 2)) ∧ ((g .sClosed 3 3 none).fault 0 .cursor 0 = some (cSTREAMEND, 0)) ∧
    ((g .sOpen 64 1 none).fault 0 .append 0 = some (cSTREAMEND, 0)) ∧ ((g .a 0 0 none).fault 0 .add 0 = none) := by
  decide +kernel

theorem test_hyp_SignalWords : (tS.holding = false ∧ tS.inPair 0 = false ∧ (tS.cox 0).rfRoom = true ∧ (tS.cox 0).branch = none ∧
      (0x1FFFF < 2 ^ 17 ∧ (BitVec.ofNat 8 (0x1FFFF / 2 ^ 17) : Byte) = tS.sys.pkg) ∧
      (BitVec.ofNat 8 (0x20000 / 2 ^ 17) : Byte) ∈ tS.sys.reach ∧ ¬((0xFFFFFFFFFFFFFFFF : Word).toNat + (1 : BitVec 17).toNat < 2 ^ 25) ∧ tS.readsDelivered 0 = true ∧
      tS.writesDone 0 (tS.cox 0).nextReq = true) ∧
    (∀ l ∈ [[.x 0], [.x 0, .x 1], [.x 0, .x 1, .x 2]], CoxRuns tS 0 tg l) ∧
    ∀ sc : Scope, tS.released 0 (tS.cox 0).nextReq sc = true :=
  ⟨by decide +kernel, coxOk_all (by decide +kernel),
    fun sc => by cases sc <;> decide +kernel⟩

/-- A crew in which tile 0 owns bank 3 and has claimed slot 3, and slot 4 is kept. -/
def tCrew : State := { tS with crews := [(0, { Crew.reset with
  banks := Crew.reset.banks.set 3 ⟨.idle, 1, [], 0⟩, slots := (Crew.reset.slots.set 3 ⟨.claimed, 0, 0, 0, false, []⟩).set 4 ⟨.kept, 0, 0, 0, false, []⟩ })] }
/-- For QueueWords and CrewWords. -/
theorem test_hyp_QueueAndCrewWords : CoxRuns tS 0 tg [.x 1, .x 2, budgetOp (.imm 9)] ∧ (tS.tile 0).queued .v < 32 ∧
    (tS.cox 0).branch = none ∧ CoxRuns tS 0 tg [.x 1] ∧ ((((tS.tile 0).eng .v).qseq - 0).toNat < 2 ^ 31) ∧
    (2 ^ 31 ≤ (((tS.tile 0).eng .v).qseq - 1).toNat) ∧ ((((tS.tile 0).m.bret) - 0).toNat < 2 ^ 31) ∧
    (tS.tile 0).queued .m = 0 ∧
    (tOf { tTile with engines := tTile.engines.set 2 { Engine.reset with queue := [⟨1, 0, 1, 1, 0, 0, .waiting, 0, [], []⟩], pushed := 1 } } |>.tile 0).queued .m ≠ 0 ∧
    (((tS.crew 0).bank 3).st = .free) ∧ ((tCrew.crew 0).bank 3).st ≠ .free ∧ ((tCrew.crew 0).bank 3).owners.getLsbD 0 = true ∧
    ((tCrew.crew 0).bank 3).owners.getLsbD 1 = false ∧ ((tCrew.crew 0).slot 3).st ≠ .free ∧ ((tCrew.crew 0).slot 3).claimer = 0 ∧
    ((tCrew.crew 0).slot 3).st ≠ .kept ∧ ((tCrew.crew 0).slot 4).st = .kept ∧ tCrew.holding = false ∧ tS.holding = false :=
  ⟨coxOk_runs (by decide +kernel), by decide +kernel, by decide +kernel, coxOk_runs (by decide +kernel), by decide +kernel⟩

/-- The same in a hold-up, of a bank that is free and a slot that is kept as well. -/
theorem test_hyp_CrewWords_holdup : let s := { tCrew with sys := { Sys.reset with hold := some .handler } }
    s.holding = true ∧ (s.cox 0).branch = none ∧ CoxRuns s 0 tg [] ∧ CoxRuns s 0 tg [(XImm.imm 4).op] ∧
    CoxRuns s 0 tg [(XImm.imm 4).op, (XImm.x 1).op] ∧ ((s.crew 0).bank 4).st = .free ∧ ((s.crew 0).slot 4).st = .kept :=
  ⟨by decide +kernel, by decide +kernel, coxOk_runs (by decide +kernel), coxOk_runs (by decide +kernel), coxOk_runs (by decide +kernel),
    by decide +kernel⟩

theorem tRecordAt : RecordAllowed (tE .i 0 0 tRegs) 0 0x10000 := by
  refine ⟨by decide, tPg, tExtent .i 0 0, 0, ⟨by decide +kernel, by decide +kernel, by decide +kernel⟩,
    ⟨by decide +kernel, (fun _ h => nomatch h), .inl rfl⟩, by decide, by decide +kernel, by decide +kernel, fun i k g _ _ hs => ?_⟩
  have h : ∀ x ∈ (tExtent .i 0 0).segs.zipIdx, x = (⟨0, 64, .i, 0, 0, 0, false, false, false, false, none, none⟩, 0) := by decide +kernel
  simp only [Extent.segOf, Option.map_eq_some_iff] at hs
  obtain ⟨x, hx, e⟩ := hs
  cases h x (List.mem_of_find?_eq_some hx)
  cases e
  decide +kernel
/-- A hold-up with tile 0 at work. -/
theorem test_hyp_LaunchWords_holdup : let s := { tS with sys := { Sys.reset with hold := some .handler } }
    s.holding = true ∧ CoxRuns s 0 tg [] := ⟨by decide +kernel, coxOk_runs (by decide +kernel)⟩
theorem test_hyp_LaunchWords : (CoxRuns (tE .i 0 0 tRegs) 0 tg [.x 2, .x 0] ∧ RecordAllowed (tE .i 0 0 tRegs) 0 0x10000 ∧
      coxValue (tE .i 0 0 tRegs) 0 [.x 2, .x 0] 0 = 0x10000 ∧ (coxValue (tE .i 0 0 tRegs) 0 [.x 2, .x 0] 1).toNat < 2 ^ 20) ∧
    (((tE .i 0 0 tRegs).launchOf 0).map Launch.depth = some 0 ∧ ((0x10000 : Word).getLsbD 16 = true) ∧
      (tE .i 0 0 tRegs).launch? 1 ≠ none ∧ (tE .i 0 0 tRegs).launch? 2 = none ∧ tS.holding = false ∧
      ({ tS with sys := { Sys.reset with hold := some .handler } }).holding = true) ∧ CoxRuns tS 0 tg [] ∧ DoneAllowed tS 0 :=
  ⟨⟨coxOk_runs (by decide +kernel), tRecordAt, by decide +kernel, by decide +kernel⟩, by decide +kernel,
    coxOk_runs (by decide +kernel), ⟨by intro e; cases e <;> rfl, ⟨rfl, rfl⟩, fun _ => by
      simp only [tS, tOf]
      exact .inl (by decide +revert +kernel), fun _ => .inl (by decide +revert +kernel), (fun _ h => nomatch h), (fun _ h => nomatch h), by decide +kernel⟩⟩

/-- For CsrWords and CsrValues. -/
theorem test_hyp_CsrWords : CoxRuns tS 0 tg [] ∧ (tS.cox 0).branch = none ∧ CoxRuns tS 0 tg [(XRf.x 4).op] ∧
    (0x40 ≤ (0x40 : BitVec 12).toNat ∧ (0x40 : BitVec 12).toNat ≤ 0x4F ∧ fmtWf ((coxValue tS 0 [.x 4] 0).setWidth 32) = false) ∧
    ¬(0x40 ≤ (0x3F : BitVec 12).toNat) ∧ (tS.cox 0).rf.length ≤ 16 :=
  ⟨coxOk_runs (by decide +kernel), by decide +kernel, coxOk_runs (by decide +kernel), by decide +kernel⟩

/-- A descriptor of 64 bytes of scratchpad for slot 3, GUARANTEED. -/
def tDesc (len : Nat) : List Byte := [1, 3, 1, 0, 7, 0, 0, 0] ++ toBytes 8 0 ++ toBytes 8 len ++ toBytes 8 0
/-- Tile 0 with that descriptor at 64, and x9 = 64, x10 = 128. -/
def tDecl (len : Nat) : State := { tOf { tTile with cox := tx [(9, 64), (10, 128)], sp := Memory.write [] 64 (tDesc len) } with
  launches := [tLaunch] }
/-- The same after a hold-up that saved the region. -/
def tRestored : State :=
  let c : Cox := { tx [(9, 64), (10, 128)] with mustSave := tCox.mustSave.set 3 (some (descOf (tDesc 64)).2) }
  let s : State := tOf { tTile with cox := c, sp := Memory.write [] 64 (tDesc 64) }
  { s with sys := { s.writeSet.sys with hold := none } }
/-- A group record of one rank and one step. -/
def tRecord (count : Nat) : List Byte := toBytes 16 0 ++ toBytes 4 0 ++ toBytes 4 64 ++ toBytes 4 10 ++ toBytes 4 0 ++
  (List.replicate 4 (toBytes 4 0x10000000)).flatten ++ toBytes 2 5 ++ toBytes 2 count ++ toBytes 2 0 ++ toBytes 2 1 ++ toBytes 8 0
theorem tDescAllowed (n : Nat) (h : n = 64 ∨ n = 8192) : DescAllowed (tDesc n) := by
  rcases h with rfl | rfl <;> exact ⟨by decide +kernel, by decide +kernel, by decide +kernel, by decide +kernel, .inr (.inl (by decide +kernel))⟩
theorem test_hyp_HoldupWords : (CoxRuns (tDecl 64) 0 tg [.x 9] ∧ DescAt (tDecl 64) 0 64 (tDesc 64) ∧ DescAt (tDecl 8192) 0 64 (tDesc 8192)) ∧
    ((tDecl 64).launchOf 0 = some tLaunch ∧ (descOf (tDesc 64)).2.kind ≠ 4 ∧ (descOf (tDesc 64)).2.kind ≠ 0 ∧
      (tDecl 64).usedG 1 + guaranteed (some (descOf (tDesc 64)).2) ≤ 4096 ∧
      ¬((tDecl 8192).usedG 1 + guaranteed (some (descOf (tDesc 8192)).2) ≤ 4096)) ∧
    (CoxRuns tRestored 0 tg [.x 9, .x 10] ∧ DescAt tRestored 0 64 (tDesc 64)) ∧
    (tRestored.holding = false ∧ (tDecl 64).sys.records = [] ∧
      (tRestored.sys.records.map fun r => (recNat r.head 6 1, recNat r.head 8 4, recNat r.head 32 8, tRestored.sys.classify r)) =
        [(1, 7, 64, 1, false)] ∧ (64 ∣ (128 : Word).toNat) ∧ (tCox.completed = true)) :=
  ⟨⟨coxOk_runs (by decide +kernel), ⟨by decide, by decide, (fun _ h => nomatch h), by decide +kernel, tDescAllowed 64 (.inl rfl)⟩,
      by decide, by decide, (fun _ h => nomatch h), by decide +kernel, tDescAllowed 8192 (.inr rfl)⟩, by decide +kernel,
    ⟨coxOk_runs (by decide +kernel), by decide, by decide, (fun _ h => nomatch h), by decide +kernel, tDescAllowed 64 (.inl rfl)⟩, by decide +kernel⟩
/-- The declaration of slot 3 that lands now. -/
def tDeclare : State :=
  { tDecl 64 with
    phase := .ending
    tiles := [(0, { tTile with cox := { tCox with flight := [⟨0, 0, .declare 3 (some (descOf (tDesc 64)).2) 2⟩] } })] }
/-- One that its quota allows, and one past it; a restore that finds no record. -/
theorem test_hyp_HoldupWords_declare : tDeclare.phase = .ending ∧
    (tDeclare.tile 0).due? tDeclare.gtime = some (⟨0, 0, .declare 3 (some (descOf (tDesc 64)).2) 2⟩, []) ∧
    tDeclare.launchOf 0 = some tLaunch ∧
    tDeclare.usedG 1 + guaranteed (some (descOf (tDesc 64)).2) ≤ tLaunch.record.quota + guaranteed tCox.mustSave[(3 : Fin 16)] ∧
    ¬(tDeclare.usedG 1 + guaranteed (some (descOf (tDesc 8192)).2) ≤ tLaunch.record.quota + guaranteed tCox.mustSave[(3 : Fin 16)]) ∧
    (tDecl 64).sys.records.find? (fun r => recNat r.head 6 1 == 1) = none := by decide +kernel
theorem test_hyp_GroupWords : GranulesGood (tDecl 64) (spSites 0 64 64) ∧ CoxRuns (tDecl 64) 0 tg [.x 9] ∧
    ((64 ∣ (64 : Word).toNat) ∧ ¬(64 ∣ (65 : Word).toNat) ∧ (2 ^ 20 < (0x100000 : Word).toNat + 64) ∧
      (groupRecOf (tRecord 0)).count = 0 ∧ (groupRecOf (tRecord 300)).count ≠ 0 ∧
      (let s : State := { tS with fab := { Fabric.reset with groups := [(5, { Group.reset with st := .ended, gen := 1 })] } }
       (s.group 5).st ≠ .free ∧ (s.group 5).gen = 0x1005 / 4096 ∧ (s.group 5).owner = 0) ∧ (tS.group 5).st = .free) ∧
    GroupRecAllowed (groupRecOf (tRecord 1)) ∧ ¬GroupRecAllowed (groupRecOf (tRecord 300)) :=
  ⟨(fun _ h => nomatch h), coxOk_runs (by decide +kernel), by decide +kernel, by unfold GroupRecAllowed; decide +kernel, by unfold GroupRecAllowed; decide +kernel⟩

/-! ## Traps, landings, requests and homes -/

/-- Tile 0 with events, a handler or none, in or out of it. -/
def tEv (on inside : Bool) (f : Option (Trap × Word)) (p : Pending) : State :=
  tOf { tTile with cox := { tCox with tvec := if on then 0x10000 else 0, tm := inside, fault := f, pend := p } }
/-- A fault of the word at 24. -/
def tFault : Trap × Word := (⟨cMISALIGN, 0, 0, 1⟩, 24)
/-- For TrapEntry, NestedTraps and IterationEnds. -/
theorem test_hyp_TrapsTaken : let s := tEv true false (some tFault) Pending.reset
    (s.event? 0 = some (.precise tFault.1 24) ∧ trapOf (s.cox 0) (.precise tFault.1 24) = some (tFault.1, 24) ∧
      (s.cox 0).tvec.getLsbD 16 = true ∧ (s.cox 0).tm = false) ∧
    (let s := tEv true true none { Pending.reset with pfail := true }
     s.event? 0 = some .pfail ∧ (s.cox 0).tm = true ∧ (s.cox 0).tvec.getLsbD 16 = true) ∧
    (let s := tEv true true (some tFault) Pending.reset
     s.event? 0 = some (.precise tFault.1 24) ∧ tFault.1.code ≠ cPFAIL ∧ s.holding = false) ∧
    (let s := tEv false false none { Pending.reset with hostint := true }
     s.event? 0 = some .hostint ∧ trapOf (s.cox 0) .hostint = some (⟨cHOSTINT, 5, 0, 0⟩, 0) ∧ s.holding = false ∧
       (s.cox 0).tvec.getLsbD 16 = false) ∧
    (tEv true false none { Pending.reset with deadline := true }).event? 0 = some (.ends cDEADLINE) ∧
    (let s := tOf { tTile with ending := some cDEADLINE, cox := { tCox with stopped := true } }
     (s.cox 0).stopped = true ∧ (s.tile 0).ending = some cDEADLINE ∧ s.streamQuiet 0 .l = true ∧ s.streamQuiet 0 .s = true) := by decide +kernel

/-- An engine fault that has not been taken. -/
def tEngFault : State := tOf { tTile with engines := tTile.engines.set 1 { Engine.reset with fault := some ⟨cINVREG, 0, 0, false⟩, stopped := true } }
theorem test_hyp_EventOrder : (tS.tile 0).live = true ∧ (tS.cox 0).stopped = false ∧
    ((tEv true false (some tFault) Pending.reset).cox 0).fault = some tFault ∧
    (let s := tOf { tTile with cox := { tCox with closing := true, flight := [⟨9, 0, .retire⟩] } }
     (s.cox 0).closing = true ∧ s.closingWaits 0 = false) ∧
    (tS.cox 0).fault = none ∧ (tS.cox 0).closing = false ∧ (tS.cox 0).pend = Pending.reset ∧ (tS.cox 0).ie = true ∧
    (tEngFault.tile 0).engineEvent = some (.v, ⟨cINVREG, 0, 0, false⟩) ∧ (tS.tile 0).engineEvent = none := by decide +kernel

/-- Tile 0 with one result that lands at the end of this cycle. -/
def tLand (w : CoxWrite) : State := { tOf { tTile with cox := { tCox with flight := [⟨0, 0, w⟩], closing := true } } with phase := .ending }
theorem test_hyp_RegisterResultsLand : ∀ w ∈ [CoxWrite.x 0 9, .x 8 9, .xLoad 63 9, .p 0 true, .p 15 false, .pall 7 0xFFFF, .csr 0x000 2, .csr 0x002 0,
    .csr 0x017 0, .csr 0x040 0, .csr 0x04F 0], (tLand w).phase = .ending ∧ ((tLand w).tile 0).due? (tLand w).gtime = some (⟨0, 0, w⟩, []) := by
  decide +kernel
theorem test_hyp_ScratchpadResultsLand_good : ∀ w, GranulesGood (tLand w) (spSites 0 8 8) := fun _ _ h => nomatch h
theorem test_hyp_ScratchpadResultsLand : ∀ w ∈ [CoxWrite.store 0xFFFFE [1, 2], .load 0 ⟨.b8, true⟩ (.x 8) [], .load 0 ⟨.b1, true⟩ (.rf 0) [(0, 1, 2)],
    .atomic 8 (.op .max) true 1 0 0, .atomic 8 (.cas (.x 1)) false 1 0 0],
    (tLand w).phase = .ending ∧ ((tLand w).tile 0).due? (tLand w).gtime = some (⟨0, 0, w⟩, []) := by decide +kernel
/-- For RegionsClose and ElementsArrive. -/
theorem test_hyp_RegionsClose : (∀ w ∈ [CoxWrite.retire, .trap 7, .resume .v],
      (tLand w).phase = .ending ∧ ((tLand w).tile 0).due? (tLand w).gtime = some (⟨0, 0, w⟩, []) ∧ ((tLand w).cox 0).closing = true ∧
      (tLand w).holding = false) ∧
    (let s := tOf { tTile with cox := { tCox with rf := [⟨0, 0, false, none, false⟩], nextReq := 1, closing := true }, replies := [(0, 9)] }
     (s.tile 0).reply? = some ((0, 9), []) ∧ (s.cox 0).closing = true ∧ 0 + 1 = (s.cox 0).nextReq) := by decide +kernel

/-- Tile 0 with one request that may leave now. -/
def tReq (a : ReqAct) : State := { tOf { tTile with reqs := [⟨0, false, 0, 0, 0, false, a⟩] } with phase := .ending }
theorem test_hyp_RequestsLeave : (∀ a ∈ [ReqAct.push .v ⟨1, 3, 9, 9, 0, 0, .waiting, 0, [], []⟩, .crew (.lease 4 4096), .crew .free, .crew (.acalloc 3 1),
      .crew (.osclaim 31 1), .extq 5 0 0, .signal 0 ⟨5, .rlx, .gang, .read⟩],
      (tReq a).phase = .ending ∧ ((tReq a).leaving 0).map (fun r => (r.1.act, r.2)) = some (a, []) ∧
        ∀ k ∈ ((tReq a).cox 0).checks, (tReq a).gtime < k) ∧
    (let s := { tReq (.crew .free) with tiles := [(0, { tTile with
       cox := { tCox with checks := [0] }, reqs := [⟨0, false, 0, 0, 0, false, .crew .free⟩] })] }
     (s.leaving 0).isSome = true ∧ ∃ k ∈ (s.cox 0).checks, k ≤ s.gtime) ∧
    (ReqAct.extq 5 0 0).isRole = true ∧ ((tReq (.extq 5 0 0)).reqHome 0 (.extq 5 0 0)).isSome = true := by decide +kernel

/-- A home of die 0 with one flit of a class at its station. -/
def tFlit (c : Cls) (a : ReqAct) : Flit := ⟨0, 128, c, 0, 0, false, .req 0 ⟨0, true, 0, 0, 0, false, a⟩⟩
def tHome (c : Cls) (a : ReqAct) (e : List (Nat × Extent)) : State :=
  { tS with dies := [(0, { Die.reset with ingress := [(ingressKey 128 c, [tFlit c a])] })],
            dev := { DevMem.reset with extents := e } }
/-- For HomeServes and SignalPerformance. -/
theorem test_hyp_HomesServe : let a : SigAccess := ⟨5, .rlx, .gang, .atom .add false 1⟩
    let s := tHome .signal (.signal 0 a) []
    (let f : Flit := ⟨0, 128, .signal, 0, 0, false, .oper none 5 (.atom .add false 1) none⟩
     let s := { tS with dies := [(0, { Die.reset with ingress := [(ingressKey 128 .signal, [f])] })] }
     (s.die 0).ingress.get (ingressKey 128 .req) [] = [] ∧ (s.die 0).ingress.get (ingressKey 128 .write) [] = [] ∧
       (s.die 0).ingress.get (ingressKey 128 .signal) [] = [f] ∧ s.dev.poisoned 5 (.atom .add false 1) = false) ∧
    (s.tile 0).scOps = [] ∧
    ((s.die 0).frozen = false ∧ (s.die 0).ingress.get (ingressKey 128 .req) [] = [] ∧ (s.die 0).ingress.get (ingressKey 128 .write) [] = [] ∧
      (s.die 0).ingress.get (ingressKey 128 .signal) [] = [tFlit .signal (.signal 0 a)] ∧ s.dev.poisoned a.word a.act = false) ∧
    (let s := tHome .req (.extq 5 0 0) []
     (s.die 0).ingress.get (ingressKey 128 .req) [] = [tFlit .req (.extq 5 0 0)] ∧ (s.die 0).writesApplied 128 (tFlit .req (.extq 5 0 0)) = true) ∧
    (let s := { tOf { tTile with scOps := [(0, ⟨0, true, 0, 0, 0, false, .signal 0 a⟩)] } with phase := .starting }
     s.phase = .starting ∧ s.allFlits = [] ∧ (s.tile 0).scOps = [(0, ⟨0, true, 0, 0, 0, false, .signal 0 a⟩)] ∧ (s.die (Fin.ofNat 4 ((signalHome a.word).val / 2))).frozen = false) := by
  decide +kernel

theorem test_hyp_RecastCollective : let a := ReqAct.recast 5 0 64 .i false (some 300)
    (∀ c ∈ [none, some (Collective.mk 0 64 .i false (some 300) 1 false [1])],
      let e := { tExtent .a 0 0 with coll := c, holders := 2 }
      let s := tHome .req a [(5, e)]
      (s.die 0).frozen = false ∧ (s.die 0).ingress.get (ingressKey 128 .req) [] = [tFlit .req a] ∧
        (s.die 0).writesApplied 128 (tFlit .req a) = true ∧ s.extent? 5 = some e ∧ e.recastFault 0 64 .i false = none) ∧
    (let c : Collective := ⟨0, 64, .i, false, some 300, 2, true, [0, 1]⟩
     let s := tHome .req a [(5, { tExtent .a 0 0 with coll := some c })]
     (s.extent? 5).map Extent.coll = some (some c) ∧ c.convert = true ∧ s.dev.poisoned 300 (.atom .add false 1) = false) := by
  decide +kernel

/-! ## Words of V -/

/-- A section 1 of three words at the store's start, with no dependence. -/
def tStore : Memory := Memory.write [] 0 (toBytes 8 (10 * 2 ^ 60 + 3 * 2 ^ 48 + 1 * 2 ^ 36 + 0xFFFFFFFFF))
/-- An engine that runs that section's first word. -/
def tEng : Engine := { Engine.reset with
  queue := [⟨1, 1, 50, 50, 7, 9, .running, 0, [], []⟩], pushed := 1, store := tStore, dir := [(1, 0)], noneRetired := true }
/-- Ports 0 and 8 stand at 0x100, contiguous, with four lead vectors for the first. -/
def tSet : PortSet := ⟨0x100, .rne, #v[32, 1, 1, 1], #v[4, 0, 0, 0]⟩
/-- A V engine with every register valid: lane ℓ of v1 is ℓ, v2 is FP32 1.0 throughout, v3 an invalid FMT value. -/
def tV : VState := { VState.reset with
  v := ((Vector.replicate 64 (Vector.replicate 32 0)).set 1 (Vector.ofFn fun l => BitVec.ofNat 32 l.val)).set 2 (Vector.replicate 32 0x3F800000)
  vv := BitVec.allOnes 64, kv := BitVec.allOnes 64
  ports := (VState.reset.ports.set 0 ⟨some tSet, 0, List.replicate 4 (.data (Vector.replicate 32 5)), false, false⟩).set 8 ⟨some tSet, 0, [], false, false⟩ }
/-- A tile whose V engine runs a section. -/
def tVTile : Tile := { tTile with v := tV, engines := tTile.engines.set 1 tEng, tokens := Vector.replicate 4 (Vector.replicate 4 1) }
/-- Tile 0 with V at work. -/
def tVS : State := { tOf tVTile with cur := .eng 0 .v }

/-- The conditions of `VRuns` as one check. -/
def vOk (s : State) (t : TileId) (h : VHead) (l : List VIn) : Bool :=
  decide (s.cur = .eng t .v) && (s.tile t).canPop .v h.tok.pop && (s.tile t).v.inValid (.k h.g.k) &&
    l.all (s.tile t).v.inValid && (popsOf l []).all fun p => decide ((s.tile t).popFault p.1 p.2 = none)
theorem vOk_runs {s : State} {t : TileId} {h : VHead} {l : List VIn} (k : vOk s t h l = true) : VRuns s t h l := by
  simp only [vOk, Bool.and_eq_true, decide_eq_true_eq, List.all_eq_true] at k
  exact ⟨k.1.1.1.1, k.1.1.1.2, k.1.1.2, fun _ => k.1.2, k.2⟩
theorem vOk_all {s : State} {t : TileId} {h : VHead} {ls : List (List VIn)} (k : ls.all (vOk s t h) = true) : ∀ l ∈ ls, VRuns s t h l :=
  fun l m => vOk_runs (List.all_eq_true.mp k l m)

/-- Sources of each class, with a token to pop, and a port popped twice. -/
theorem test_hyp_VectorFpWords : VRuns tVS 0 ⟨⟨0, false⟩, ⟨some .l, none⟩⟩ [(VSrc.v 1).vin, (VSrc.ip 0).vin] ∧
    ∀ l ∈ [[(VSrc.ip 0).vin, (VSrc.ip 0).vin, (VSrc.imm 0x40000000).vin], [(VSrc.s 0).vin]], VRuns tVS 0 th l :=
  ⟨vOk_runs (by decide +kernel), vOk_all (by decide +kernel)⟩
/-- For VectorIntegerWords, VectorMaskWords and VectorReductions. -/
theorem test_hyp_VectorIntegerWords : ∀ l ∈ [[(VSrc.v 1).vin, (VSrc.v 2).vin], [(VSrc.v 1).vin, (VSrc.v 2).vin, .k 5], [.k 5, .k 0]],
    VRuns tVS 0 th l := vOk_all (by decide +kernel)
theorem test_hyp_VectorConversions : VRuns tVS 0 th [(VSrc.v 1).vin] ∧ VRuns tVS 0 th [(VP.v 1).vin] ∧
    (fmtWf 0x4A1B0700 = true ∧ fmtKind 0x4A1B0700 = 4) ∧ (fmtWf 0x5A1B0705 = true ∧ fmtKind 0x5A1B0705 = 5 ∧ fmtBlk 0x5A1B0705 = 5) ∧
    ¬(fmtWf 0xFFFFFFFF = true) :=
  ⟨vOk_runs (by decide +kernel), vOk_runs (by decide +kernel), by decide +kernel⟩
theorem test_hyp_VectorMoves : ∀ l ∈ [[(VP.v 1).vin, (VP.v 2).vin], [(VP.ip 0).vin], [], [(VSrc.v 1).vin], [.k 5], [(VSI.v 1).vin],
    [(VP.v 1).vin, (VP.v 2).vin, (VSrc.v 3).vin]], VRuns tVS 0 th l := vOk_all (by decide +kernel)
theorem test_hyp_VectorIssueRules : (Instr.vadd ⟨⟨⟨5, false⟩, ⟨some .l, none⟩⟩, .v 1, .v 2, .ip 0, .f32, .rne⟩).vHead =
      some (⟨⟨5, false⟩, ⟨some .l, none⟩⟩, [.v 2, .ip 0]) ∧ tVS.cur = .eng 0 .v ∧ (tVS.tile 0).canPop .v (some .l) = true ∧
    (let x := { tVTile with tokens := Tile.reset.tokens, v := { VState.reset with k := VState.reset.k.set 5 1 } }
     x.canPop .v (some .l) = false ∧ x.v.inValid (.k 5) = false ∧ x.v.guard ⟨0, false⟩ ≠ 0 ∧ x.v.inValid (.v 2) = false ∧
       (popsOf [.v 2, .ip 0] []).findSome? (fun p => x.popFault p.1 p.2) = some (cINVREG, 0)) ∧
    (tVS.tile 0).v.guard ⟨5, false⟩ = 0 := by decide +kernel
theorem test_hyp_VectorDestinations : ((tVS.tile 0).port (inPort 0)).set ≠ none ∧ ((tVS.tile 0).eng .v).branch = none ∧
    (∃ o, (tVS.tile 0).push (outPort 0) 1 (Vector.replicate 32 0x3F800000) = .ok o) ∧
    (tVS.tile 0).push (outPort 1) 1 (Vector.replicate 32 0) = .error (cINVREG, 0) :=
  ⟨by decide +kernel, by decide +kernel, ⟨_, rfl⟩, rfl⟩
/-- For VectorPortWords and VectorBankWords. -/
theorem test_hyp_VectorPortWords : (tVS.cur = .eng 0 .v ∧ (tVS.tile 0).canPop .v none = true ∧
    ((tVS.tile 0).v.inValid (.v 1) = true ∧ (portSetOf (tVS.tile 0).v.v[1]).isSome = true ∧ portSetOf (tVS.tile 0).v.v[2] = none) ∧
    ((tVS.tile 0).port 1).set = none ∧ ((tVS.tile 0).port 8).set = some tSet) ∧ VRuns tVS 0 th [(VSI.v 1).vin] ∧
    VRuns tVS 0 th [(VP.v 2).vin, (VSI.imm 3).vin] ∧ vMask tVS 0 th ≠ 0 ∧ vMask tVS 0 ⟨⟨5, false⟩, tk0⟩ = 0 ∧
    ((tCrew.crew 0).bank 3).owners.getLsbD (Machine.laneOf 0).val = true ∧ ((tCrew.crew 0).bank 3).st = .idle :=
  ⟨by decide +kernel, vOk_runs (by decide +kernel), vOk_runs (by decide +kernel), by decide +kernel⟩
theorem test_hyp_VectorControlWords : (tVS.cur = .eng 0 .v ∧ (tVS.tile 0).canPop .v none = true ∧ ((tVS.tile 0).eng .v).cur?.isSome = true ∧
    ((tVS.tile 0).eng .v).branch = none ∧ ((tVS.tile 0).eng .v).curLen = 3 ∧ (tVS.tile 0).v.inValid (.k 5) = true) ∧
    (∀ l ∈ (tVS.tile 0).v.flight, l.due ≤ tVS.gtime → l.landed = false → ∀ n v, l.w ≠ .csr n v) ∧
    ({ tEng with branch := some (0, 2) }).branch = some (0, 2) ∧ ({ tEng with index := 2 }).curLen ≤ 2 + 1 :=
  ⟨by decide +kernel, (fun l h => nomatch h), by decide +kernel⟩

/-- V with one result that lands now. -/
def tVLand (w : VWrite) : State := { tOf { tVTile with v := { tV with flight := [⟨0, 1, cMCVRES, some .l, false, w⟩] } } with phase := .ending }
/-- For VectorResultsLand and PushesLand. -/
theorem test_hyp_VectorResultsLand : (∀ w ∈ [VWrite.v 1 1 (Vector.replicate 32 9), .k 0 1 0, .k 5 1 1, .csr 2 9, .loop 0 0 1 2, .loop 5 5 0 0, .none,
      .acc 31 31 96 1 (Vector.replicate 32 0) true],
      (tVLand w).phase = .ending ∧ ((tVLand w).tile 0).vLanding? 0 false = some (⟨0, 1, cMCVRES, some .l, false, w⟩, 0) ∧
      ((tVLand w).tile 0).canPush .v (some .l) = true ∧ ((tVLand w).tile 0).live = true) ∧
    (let w := VWrite.push 0 [(4, 1, 0xFF), (5, 2, 0x0F)] false true
     (tVLand w).phase = .ending ∧ ((tVLand w).tile 0).vLanding? 0 true = some (⟨0, 1, cMCVRES, some .l, false, w⟩, 0) ∧
       ([(4, (1 : Byte), (0xFF : Byte)), (5, 2, 0x0F)].map Prod.fst).Nodup) := by decide +kernel

/-- R187: lane 31 of `viadd v4, v1, v1`, one cycle on. -/
theorem test_viadd : ((after (exec (.viadd ⟨th, .v 4, .v 1, .v 1, .i32⟩) tVS)).tile 0).v.flight.map (fun l => (l.due, match l.w with
    | .v r _ v => (r.val, v[31])
    | _ => (64, 0))) = [(1, 4, 62)] := by decide +kernel
/-- R185: 1.0 + 1.0 in FP32, four cycles on. -/
theorem test_vadd : ((after (exec (.vadd ⟨th, .v 4, .v 2, .v 2, .f32, .rne⟩) tVS)).tile 0).v.flight.map (fun l => (l.due, match l.w with
    | .v r _ v => (r.val, v[0])
    | _ => (64, 0))) = [(4, 4, 0x40000000)] := by decide +kernel
/-- R206: an unset port stops the queue with INVREG, and nothing is on its way. -/
theorem test_vpopUnset : let x := (after (exec (.viadd ⟨th, .v 4, .v 1, .ip 1, .i32⟩) tVS)).tile 0
    ((x.eng .v).fault.map EngFault.code, x.v.flight) = (some cINVREG, []) := by decide +kernel
/-- R202: `vloop` with LC = 0 and EC = 0 is not taken, with LC = 1 it is. -/
theorem test_vloop : let s (n : Lane) : State := { tOf { tVTile with v := { tV with lc := n } } with cur := .eng 0 .v }
    (((after (exec (.vloop tk0 0) (s 0))).tile 0).eng .v).branch = none ∧
    (((after (exec (.vloop tk0 0) (s 1))).tile 0).eng .v).branch = some (0, 2) := by decide +kernel

/-! ## L, S and M words; steps and groups -/

/-- An element that moves two rows of 32 bytes from one space to another. -/
def tElem (space src dst : Nat) : List Byte := toBytes 8 src ++ toBytes 8 dst ++ toBytes 4 32 ++ toBytes 4 2 ++ toBytes 8 32 ++
  toBytes 8 256 ++ toBytes 4 0 ++ [BitVec.ofNat 8 space, 0, 0xFF, 0xFF] ++ toBytes 16 0
/-- A command of the L stream. -/
def tCmd (i : Instr) (st : PStage) : PCmd := ⟨0, .l, i, none, 1, 0, 1, 0, 0, 7, 9, [(0, Vector.replicate 16 0x10000000)], st, none, (0, 0, 0), 0, none, 0, false, 0, none⟩
/-- Tile 0 whose L and M engines run a section, with a time buffer and an element at 64. -/
def tLTile (b : List PCmd) (e : List Byte) : Tile := { tVTile with
  engines := (tVTile.engines.set 0 tEng).set 2 tEng, portage := { Portage.reset with buffer := b, nextId := 1 }, sp := Memory.write [] 64 e }
def tL (b : List PCmd) (e : List Byte) : State := { tOf (tLTile b e) with cur := .eng 0 .l }

theorem test_hyp_CommandWords : CmdRuns (tL [] []) 0 .l ⟨some .v, none⟩ ∧ ((tL [] []).tile 0 |>.eng .l).cur?.isSome = true ∧
    ((tL [] []).tile 0 |>.eng .l).branch = none :=
  ⟨⟨rfl, .inl rfl, by decide +kernel, (fun c h => nomatch h), by decide +kernel,
    (fun n h => by injection h with h; subst h; exact ⟨by decide, fun _ h => nomatch h⟩), fun c h => nomatch h⟩, by decide +kernel, by decide +kernel⟩

/-- The commands that start, each alone in its buffer. -/
theorem test_hyp_CommandOrder : ∀ i ∈ [Instr.csig ⟨tk0, .rlx, .gang, true, 0, 5⟩, .cwaitSignal ⟨tk0, .acq, .gang, false, 3, 5⟩,
      .cwaitTime tk0 9, .cnop tk0 none, .cend tk0, .cpy (te 1), .copld (te 1) true],
    let s := tL [tCmd i .buffered] (tElem (if i = .copld (te 1) true then 0x21 else 0x11) 0x200 (if i = .copld (te 1) true then 0 else 0x400))
    s.startable 0 .l = some (tCmd i .buffered) ∧ s.startable 0 .s = none := by decide +kernel
/-- What `tL` holds, at the end of a cycle. -/
def tLEnd (c : PCmd) (e : List Byte) : State := { tL [c] e with phase := .ending }
theorem test_hyp_CommandStarts : ∀ i ∈ [Instr.csig ⟨tk0, .rlx, .gang, true, 0, 5⟩, .cwaitSignal ⟨tk0, .acq, .gang, false, 3, 5⟩,
      .cwaitTime tk0 9, .cnop tk0 none, .cend tk0, .cpy (te 1), .copld (te 1) true],
    let s := tLEnd (tCmd i .buffered) []
    s.holding = false ∧ s.phase = .ending ∧ s.startable 0 .l = some (tCmd i .buffered) ∧ s.startable 0 .s = none ∧ s.inPair 0 = false := by
  decide +kernel
/-- In a PAIR launch. -/
theorem test_hyp_CommandStarts_pair : (tOf { tLTile [tCmd (.csig ⟨tk0, .rlx, .gang, true, 0, 5⟩) .buffered] [] with
    place := some ⟨1, 0, [0, 1], 0, true⟩ }).inPair 0 = true := by decide +kernel
theorem test_hyp_CommandStarts_run : let e := tElem 0x11 0x200 0x400
    let c := tCmd (.cpy (te 1)) .buffered
    let s := tLEnd c e
    elemCmd c.instr = some (.copy, te 1) ∧ c.ea % 64 = 0 ∧ c.answer = none ∧ (elemOf e).predSignal = false ∧
      (s.tile 0).sp.read (chainAddr (s.tile 0).sp c.ea c.resume.1) 64 = e ∧ s.startElem 0 c .copy (elemOf e) 0 = .run := by decide +kernel
/-- Every granule of that state is good. -/
theorem test_hyp_CommandStarts_good : ∀ l, GranulesGood (tLEnd (tCmd (.cpy (te 1)) .buffered) (tElem 0x11 0x200 0x400)) l :=
  fun _ _ h => nomatch h
/-- An element base of 1, which no multiple of 64 repairs. -/
theorem test_hyp_CommandStarts_misaligned : let c := { tCmd (.cpy ⟨tk0, .arga, 1, none, .rne⟩) .buffered with a := 1 }
    c.ea % 64 ≠ 0 ∧ elemCmd c.instr = some (.copy, ⟨tk0, .arga, 1, none, .rne⟩) ∧
      (tL [c] []).startable 0 .l = some c := by decide +kernel

/-- A command whose rows are still to be moved. -/
def tProg0 (e : List Byte) : PProgress := ⟨e, 64, 0, .rows, false, 0, 0, [], [], [], 0, none, false, [], []⟩
theorem test_hyp_CommandsRetire : (∀ i ∈ [Instr.cpy (te 1), .copld (te 1) true, .covl (te 1)],
      let c := { tCmd i .retiring with slot := some 3 }
      let s := { tL [c] [] with phase := .ending }
      (s.tile 0).portage.buffer.find? (fun d => d.id = c.id ∧ d.stage = .retiring) = some c ∧ s.phase = .ending ∧
        (s.tile 0).portage.flight = [] ∧ (s.tile 0).canPush c.stream c.push = true) ∧
    (let c := { tCmd (.covl (te 1)) .retiring with prog := some { tProg0 (tElem 0x11 0x200 0x400) with ran := true } }
     c.prog.map PProgress.ran = some true ∧ c.instr = .covl (te 1) ∧
       (((tL [c] []).tile 0).eng .l).queue.find? (fun n => n.seq = c.seq) = some ⟨1, 1, 50, 50, 7, 9, .running, 0, [], []⟩) := by
  decide +kernel
theorem test_hyp_PortageBytesLand :
    (let x := { tTile with portage := { Portage.reset with flight := [(none, .bytes (.sp 0) [(8, 1, 0xFF), (9, 2, 0xF0)])], owner := [((PTarget.sp 0).key 9, (1, 2))] } }
     ((tOf x).tile 0).portage.flight = [(none, .bytes (.sp 0) [(8, 1, 0xFF), (9, 2, 0xF0)])] ∧
       ([(8, (1 : Byte), (0xFF : Byte)), (9, 2, 0xF0)].map Prod.fst).Nodup ∧
       x.linesFit .write (linesOf ([(8, (1 : Byte), (0xFF : Byte)), (9, 2, 0xF0)].map Prod.fst)) = true ∧
       (((tOf x).tile 0).portage.owner.get ((PTarget.sp 0).key 8) (0, 0)).2 ≤ 1 ∧
       ¬(((tOf x).tile 0).portage.owner.get ((PTarget.sp 0).key 9) (0, 0)).2 ≤ 1 ∧
       x.portage.mayReduce 1 ((PTarget.sp 0).key 9) = true ∧ x.portage.mayReduce 0 ((PTarget.sp 0).key 9) = false) := by
  decide +kernel

/-- A block at the TCE of die 0, the last of its command. -/
def tJob : TceJob := ⟨0, 0, .tc1, List.replicate 64 0, none, 0x100, 0x200, some 0x300⟩
/-- A copy of two rows from the weight store, started. -/
def tWs : State :=
  let p := { tProg0 (tElem 0x10 0x10000 0x400) with units := [⟨0, 0, 8, false⟩] }
  let c := { tCmd (.cpy (te 1)) .started with prog := some p }
  { tL [c] (tElem 0x10 0x10000 0x400) with
    dev := { DevMem.reset with extents := [(5, { tExtent .i 0 0 with tier := 2 })], ptes := mapPage [] 0x10000 0 0 5 0 2 } }
theorem test_hyp_TceBlocks :
    (let p := { tProg0 (tElem 0x11 0x200 0x400) with done := 1 }
     let c := { tCmd (.ctce (te 1)) .started with prog := some p }
     let s := { tL [c] [] with dies := [(0, { Die.reset with tce := [tJob] })] }
     (s.die 0).tce = [tJob] ∧ (s.tile 0).portage.buffer.find? (fun c => c.id = tJob.cmd ∧ c.stage = .started) = some c ∧
       c.prog = some p ∧ s.sys.tceOnline.getLsbD 0 = true ∧ tJob.stream + 12 ≤ 2 ^ 20 ∧ tJob.shAddr < 2 ^ 20 ∧
       (∀ a, tJob.cost = some a → a + 4 ≤ 2 ^ 20)) :=
  ⟨by decide +kernel, by decide +kernel, by decide +kernel, by decide +kernel, by decide, by decide, fun a h => by cases h; decide⟩
theorem test_hyp_RefreshWindows :
    (tWs.gtime % 8192 = 512 * (0 : Fin 16).val ∧ dieOf 0 = 0 ∧
      ((tWs.tile 0).portage.buffer.map fun c => (c.stage, c.prog.isSome, (tWs.plan 0 c .copy (elemOf (tElem 0x10 0x10000 0x400))).toOption.isSome)) =
        [(.started, true, true)] ∧
      (elemOf (tElem 0x10 0x10000 0x400)).rows = 2 ∧ (elemOf (tElem 0x10 0x10000 0x400)).ss = 0 ∧ tWs.phase = .running ∧
      ((tWs.plan 0 (tCmd (.cpy (te 1)) .started) .copy (elemOf (tElem 0x10 0x10000 0x400))).toOption.bind fun pl =>
        tWs.nextLine 0 .copy (elemOf (tElem 0x10 0x10000 0x400)) pl
          { tProg0 (tElem 0x10 0x10000 0x400) with units := [⟨0, 0, 8, false⟩] }).isSome = true ∧
      tWs.refreshing 0 0x10000 = true ∧ (dieOf 511 ≠ 0)) := by decide +kernel

/-- Its command has not yet what its first unit reads. -/
theorem test_hyp_RefreshWindows_deferred : (tWs.tile 0).portage.buffer.map (fun c => (elemCmd c.instr).isSome && c.prog.any fun p =>
    decide (p.bad = none) && decide (p.phase = .rows) && decide (p.units = [⟨0, 0, 8, false⟩]) &&
    match tWs.plan 0 c .copy p.element with
    | .ok pl => p.units.all fun n => !(tWs.unitLines 0 .copy p.element pl n).all p.has
    | _ => false) = [true] := by decide +kernel

/-- Tile 0 with M at work and the lease held. -/
def tM (y : Crew) : State := { tOf { tLTile [] [] with m := { MState.reset with lstate := .held } } with cur := .eng 0 .m, crews := [(0, y)] }
theorem tM_runs (y : Crew) (h : y.busyUntil ≤ 0) : MRuns (tM y) 0 tk0 := ⟨rfl, rfl, rfl, h, by rfl⟩
/-- For MatrixStateWords and BatchWords. -/
theorem test_hyp_MatrixStateWords : MRuns (tM Crew.reset) 0 tk0 ∧ (fmtWf 0x20000000 = true ∧ fmtKind 0x20000000 = 2) ∧
    (fmtWf 0x80000006 = true ∧ fmtKind 0x80000006 = 8) ∧ fmtWf 0xFFFFFFFF = false ∧ ((tM Crew.reset).tile 0).m.batches = [] :=
  ⟨tM_runs _ (by decide), by decide +kernel⟩
/-- A crew with slots 2 and 3 READY and banks 4 to 7 idle, in replay or free. -/
def tArray (st : BankState) : Crew := { Crew.reset with
  slots := (Crew.reset.slots.set 2 ⟨.ready, 0, 0, 0, true, []⟩).set 3 ⟨.ready, 0, 0, 0, true, []⟩
  banks := (((Crew.reset.banks.set 4 ⟨st, 1, [], 0⟩).set 5 ⟨st, 1, [], 0⟩).set 6 ⟨st, 1, [], 0⟩).set 7 ⟨st, 1, [], 0⟩ }
theorem test_hyp_MatrixCommands : (∀ st, MRuns (tM (tArray st)) 0 tk0) ∧
    (let t (st : BankState) (b : Nat) := ([b, b + 1, b + 2, b + 3].any (fun b => decide (32 ≤ b) ||
        decide (((tArray st).bank (Fin.ofNat 32 b)).st = .free) || decide (((tArray st).bank (Fin.ofNat 32 b)).st = .kept)),
      [b, b + 1, b + 2, b + 3].any fun b => decide (((tArray st).bank (Fin.ofNat 32 b)).st = .replay))
     t .idle 4 = (false, false) ∧ t .replay 4 = (false, true) ∧ t .free 4 = (true, false) ∧ t .kept 4 = (true, false) ∧ (t .idle 29).1 = true) ∧
    ((tArray .idle).slot 2).st = .ready ∧ ((tArray .idle).slot 3).st = .ready ∧ ((tArray .idle).slot 4).st ≠ .ready ∧
    fmtKind MState.reset.fmtb = 2 ∧ fmtKind 0x80000006 = 8 :=
  ⟨fun _ => tM_runs _ (Nat.le_refl 0), by decide +kernel⟩

/-- Crew 0 with one command that lands now. -/
def tLanding (w : ArrayWork) (m : MState) : State :=
  { tOf { tTile with m := m } with phase := .ending, crews := [(0, { tArray .busy with cmds := [⟨0, 0, 1, none, 0, [2, 3], true, 0, false, false, 1, 0, 0, w, false⟩] })] }
theorem test_hyp_MatrixLandings : (∀ w ∈ [ArrayWork.mul false false false 4 8 0 0 (BitVec.allOnes 128) 1 0x20000000 0x20000000 0 [] [],
      .mul true false true 28 128 0 0 (BitVec.allOnes 128) 1 0x20000000 0x80000006 0 [] [], .zeroMasked 28 (BitVec.allOnes 128) 1,
      .zeroBanks 28 4], let s := tLanding w MState.reset
      s.phase = .ending ∧ ((s.landing? 0).map fun k => (k.work, k.landed)) = some (w, false) ∧ (s.tile 0).live = true ∧
        (s.tile 0).m.window = none ∧ w.multiplies = match w with
          | .mul .. => true
          | _ => false) ∧
    (∀ w ∈ [ArrayWork.zeroBanks 28 4], let s := tLanding w MState.reset
        ((s.crew 0).cmds.find? (fun k => k.reading && decide (k.readEnd ≤ s.gtime))).isSome = true) ∧
    (∀ i : Fin 128, (28 : Nat) + i.val / 32 < 32) ∧
    (let m := { MState.reset with window := some ⟨0xF0, [(.zeroBanks 4 4, 1)], true⟩ }
     let s := tLanding (.mul false false false 4 8 0 0 (BitVec.allOnes 128) 1 0x20000000 0x20000000 0 [] []) m
     m.window = some ⟨0xF0, [(.zeroBanks 4 4, 1)], true⟩ ∧ m.replay = none ∧ (s.landing? 0).map ArrayCmd.window = some m.windows) := by
  decide +kernel
theorem test_hyp_MatrixRetirement :
    (let b : Batch := ⟨1, true, 0, 0, 1, none⟩
     let s := { tOf { tTile with m := { MState.reset with batches := [b] } } with phase := .ending }
     s.phase = .ending ∧ (s.tile 0).m.batches = [b] ∧ b.closed = true ∧ b.unlanded = 0 ∧ (s.tile 0).m.replay = none ∧
       (s.tile 0).canPush .m b.push = true) ∧
    (let s := tOf { tTile with m := { MState.reset with replay := some [], window := some ⟨0xF0, [], true⟩ } }
     (s.tile 0).m.replay = some [] ∧ (s.tile 0).m.window.isSome = true ∧ ∀ k ∈ (s.crew 0).cmds, ¬(k.replayed = true ∧ k.tile = 0)) := by decide +kernel

/-- Crew 0 with tile 0 as its holder, or none, and tile 1 waiting, or not. -/
def tLease (h : Option (Fin 4)) (grant : Option (Fin 4)) (waits : Bool) : State :=
  { State.reset with
    phase := .ending
    tiles := [(0, { tLTile [] [] with m := { MState.reset with lstate := if h.isSome then .held else .none, leaseN := 4, leaseBudget := 9 } }),
      (1, { Tile.reset with m := { MState.reset with lstate := if waits then .waiting else .none, leaseN := 4, leaseBudget := 9 } })]
    crews := [(0, { Crew.reset with holder := h, grant := grant, turnN := 4, turnBudget := 9, turnWords := 4 })] }
theorem test_hyp_LeaseTurns : (let s := tLease (some 0) none true
      s.phase = .ending ∧ (s.crew 0).holder = some 0 ∧ (s.crew 0).turnStart ≤ s.gtime ∧ (s.crew 0).turnN ≤ (s.crew 0).turnWords ∧
      (s.tile (tileOf 0 1)).m.lstate = .waiting) ∧
    (∀ j : Fin 4, j ≠ 0 → ((tLease (some 0) none false).tile (tileOf 0 j)).m.lstate ≠ .waiting) ∧
    (let s := tLease none (some 1) true
     (s.crew 0).holder = none ∧ (s.crew 0).lastReadEnd = 0 ∧ (s.crew 0).grant = some 1 ∧ (s.tile (tileOf 0 1)).m.lstate = .waiting) ∧
    ((tLease none none true).crew 0).grant = none := by decide +kernel

/-- The program of rank 1 of the chain worked in 11_regatta.md. -/
def tProg : Program := ⟨0, 0, 0x200, 10, #v[0x4A1B0700, 0x10000000, 0x20000000, 0], 3, 1, .rne, some (.pkg, 0, 9), [0x2040000120000100],
  [(0, 0), (0, 1), (2, 0)], 0, [], false, false, false, none, none, [], [], [], [], none, 0, none, false, 0⟩
/-- Group 5 with a program at work, and messages. -/
def tG (p : Program) (inbox : List Parcel) : State :=
  { tOf { tTile with sp := Memory.write [] 0x100 [0x2A] } with
    cur := .cp 5
    fab := { Fabric.reset with groups := [(5, ⟨.opened, 1, none, 0, 0, 0, 0, some p, inbox, 0⟩)] } }
theorem tG_runs (p : Program) (l : List Parcel) (a : p.notice = none) (b : p.budget ≠ 0) (c : p.fetch = none) (d : p.unacked = 0) :
    StepRuns (tG p l) 5 p := ⟨rfl, rfl, rfl, .inl a, b, c, d, fun k m h => by
  cases m with
  | head => exact absurd rfl h
  | tail _ m => nomatch m⟩
/-- The program of the only rank of its group, in its area 0x100 to 0x1FF. -/
def tProg1 : Program := { tProg with count := 1, rank := 0 }
/-- A message of one element from rank 0. -/
def tParcel : Parcel := ⟨0, 0, 0x4A1B0700, 1, [0x36]⟩
/-- Rank 1 with a message from rank 0, and without; alone in its group. -/
theorem test_hyp_DataSteps : StepRuns (tG tProg [tParcel]) 5 tProg ∧ (tProg.nextMessage 0 [tParcel] = some (tParcel, []) ∧
    (0 ≤ tProg.eff 0x100 ∧ tProg.eff 0x100 + vecSize 0x4A1B0700 1 ≤ tProg.limit) ∧ ¬(tProg.eff 0x1000 + vecSize 0x4A1B0700 1 ≤ tProg.limit) ∧
    (fmtKind (tProg.fmts[3]) = 0 ∧ tProg.fmts[3] ≠ tProg.fmts[0] ∧ fmtKind (tProg.fmts[0]) ≠ 8 ∧ fmtIsBlock tProg.fmts[0] = false) ∧
    (tProg.lines 0x100 1 0x4A1B0700 ≠ [] ∧ ∀ l ∈ tProg.lines 0x100 1 0x4A1B0700, tProg.got.find? l = none) ∧
    (let q := { tProg with got := [(0x100, 0x2A)] }
     ∀ l ∈ q.lines 0x100 1 0x4A1B0700, q.got.find? l ≠ none)) ∧ StepRuns (tG tProg1 []) 5 tProg1 ∧
    (tProg.rank + 1) % tProg.count = 2 ∧ (tProg.rank ^^^ 2 = 3 ∧ tProg.count ≤ 3) :=
  ⟨tG_runs _ _ rfl (by decide) rfl rfl, by decide +kernel, tG_runs _ _ rfl (by decide) rfl rfl, by decide⟩
/-- In a loop and at its limit; a Signal word that has been read; with and without an acknowledgement outstanding. -/
theorem test_hyp_ControlSteps : (let p := { tProg with loops := [(0, 0, 2, 4)], seen := some 1, asked := [0] }
     StepRuns (tG p []) 5 p ∧ p.loops = [(0, 0, 2, 4)] ∧ p.seen = some 1 ∧ p.loops.length < 4) ∧
    (tProg.seen = none ∧ tProg.asked = [] ∧ (0 : BitVec 32).toNat ≤ (1 : Word).toNat ∧ (1 : Word).toNat < (2 : BitVec 32).toNat) ∧
    ((tG tProg []).group 5).unacked = 0 ∧ tProg.donesig = some (.pkg, (tG tProg []).sys.pkg, 9) :=
  ⟨⟨tG_runs _ _ rfl (by decide) rfl rfl, by decide⟩, by decide, rfl, rfl⟩
theorem test_hyp_GroupEnds : ((tG tProg []).group 5).prog = some tProg ∧ tProg.ranks[0]? = some (0, 0) ∧ (0 : Nat) ≠ tProg.rank ∧
    ({ tProg with budget := 0 }).budget = 0 ∧ ({ tProg with notice := some (cDEADLINE, 2) }).notice = some (cDEADLINE, 2) ∧
    tProg.ranks[2]? = some (2, 0) := by decide +kernel
/-- R244: rank 1 adds 0.875 to 0.3125, writes 0x3A and sends it to rank 2. -/
theorem test_rrs : let u := after (exec (.rrs ⟨.up, 0, 0, 1, 0x100⟩ 1 0 true) (tG { tProg with got := [(0x100, 0x2A)] } [tParcel]))
    (((u.group 5).prog.map fun p => (p.pc, p.unacked)), u.fab.sent.map fun k => (k.pkt.dst, match k.pkt.body with
      | .message _ _ _ _ _ _ f n l => (f, n, l)
      | _ => (0, 0, []))) = (some (1, 1), [(2, 0x4A1B0700, 1, [0x3A])]) := by decide +kernel
/-- R218: `mscale` and `msetrow` set what they name. -/
theorem test_msetrow : let u := after (exec (.msetrow tk0 0 4) (tM Crew.reset))
    ((u.tile 0).m.mrow, (u.tile 0).m.mcol) = (0xF, BitVec.allOnes 128) := by decide +kernel
/-- 10_eight.md, the worked product: an `mma` of 24 elements of 16 bits reads for 24 cycles and lands 24 + 23 on. -/
theorem test_mma : let u := after (exec (.mma ⟨tk0, 4, 2, 3, 23, 0, 0⟩) (tM (tArray .idle)))
    ((u.crew 0).cmds.map fun k => (k.due, k.readEnd, k.slots), ((u.crew 0).bank 4).st, ((u.crew 0).slot 2).readers) =
      ([(47, 23, [2, 3])], .busy, 1) := by decide +kernel

/-! ## Queues, the Course, packets, launches -/

/-- Tile 0 whose V engine holds an entry in some state, with its tokens and issued words. -/
def tQ (n : Entry) (g : Engine → Engine) : State := tOf { tTile with engines := tTile.engines.set 1 (g { tEng with queue := [n] }) }
theorem test_hyp_QueueHeads : (let n : Entry := ⟨1, 1, 50, 50, 7, 9, .waiting, 0, [], []⟩
      let s := tQ n id
      ((s.tile 0).eng .v).fault = none ∧ ((s.tile 0).eng .v).stopped = false ∧ (s.tile 0).live = true ∧ ((s.tile 0).eng .v).cur? = some n ∧
      s.stopping 0 = false ∧ (((s.tile 0).eng .v).section? 1).isSome = true ∧ ((s.tile 0).eng .v).section? 2 = none ∧
      ((tQ { n with st := .head } id).tile 0 |>.eng .v).cur? = some { n with st := .head }) ∧
    (let n : Entry := ⟨1, 1, 50, 0, 7, 9, .issued, 0, [], []⟩
     let s := { tQ n id with phase := .ending }
     ((s.tile 0).eng .v).queue = [n] ∧ n.st = .issued ∧ n.pendingWords = 0 ∧ s.phase = .ending) := by decide +kernel
/-- Every granule of the machine of tile 0 is good. -/
theorem test_hyp_QueueHeads_good : ∀ l, GranulesGood (tQ ⟨1, 1, 50, 50, 7, 9, .waiting, 0, [], []⟩ id) l := fun _ _ h => nomatch h
theorem test_hyp_QueueEvents :
    (let n : Entry := ⟨1, 1, 50, 0, 7, 9, .issued, 0, [], []⟩
     let s := tQ n id
     (((s.tile 0).eng .v).fault = none ∧ ((s.tile 0).eng .v).stopped = false ∧ ((s.tile 0).eng .v).queue.find? (fun k => k.st ≠ .waiting ∧ k.budget = 0) = some n)) ∧
    (let s := tQ ⟨1, 1, 50, 50, 7, 9, .running, 0, [], []⟩ id
     s.phase = .running ∧ s.engReady 0 .v = true ∧ ((s.tile 0).eng .v).wordNow.isSome = true) ∧
    ((tOf { tTile with budget := 0 }).tile 0).budget = 0 ∧ (tS.tile 0).budget ≠ 0 ∧
    (let s := { tQ ⟨1, 1, 50, 50, 7, 9, .running, 0, [], []⟩ (fun g => { g with fault := some ⟨cINVREG, 0, 0, false⟩ }) with phase := .ending }
     ((s.tile 0).eng .v).fault.isSome = true ∧ ((s.tile 0).eng .v).stopped = false ∧ s.engQuiet 0 .v = true ∧
       s.queueMayStop 0 .v = true ∧ (∀ k ∈ (s.tile 0).portage.buffer, k.stream = Eng.v → k.stage ≠ .started)) ∧
    (let s := { tOf { tTile with cox := { tCox with halted := true } } with sys := { Sys.reset with ready := true } }
     s.sys.ready = true ∧ (s.tile 0).live = true ∧ (s.cox 0).halted = true) := by decide +kernel

/-- Slot 0 of die 0 passes station 0 with a flit bound for a station, or empty. -/
def tSlot (dst : Option Nat) (q : List Flit) (m : Msg := .req 4 ⟨0, true, 0, 0, 0, false, .winLoad 0 0 ⟨.b8, false⟩⟩) : State := { tS with
  phase := .ending
  dies := [(0, { Die.reset with
    stations := [(0, q)], pitch := [(0, 0x8000)]
    slots := (dst.map fun d => (0, ⟨4, d, .req, 0, 0, false, m⟩)).toList })] }
theorem test_hyp_CourseSlots : ((0 : Fin 132).val + (tSlot none []).gtime) % 132 = (0 : Fin 132).val ∧ ((tSlot none []).die 0).frozen = false ∧
    (((tSlot none [tFlit .req (.extq 5 0 0)]).die 0).slots.find? 0 = none ∧
      ((tSlot none [tFlit .req (.extq 5 0 0)]).die 0).stations.get 0 [] = [tFlit .req (.extq 5 0 0)]) ∧
    (((tSlot (some 0) []).die 0).slots.find? 0).isSome = true ∧ exitOf 0 0 = 0 ∧ exitOf 0 131 = 131 ∧ exitOf 0 132 = 130 ∧ exitOf 0 (3 * 132) = 131 ∧
    (((tSlot (some 0) []).die 0).ingress.get (ingressKey 0 .req) []).length < 8 ∧
    (∀ m ∈ [Msg.req 4 ⟨0, false, 0, 0, 0, false, .winStore 0 8 [1]⟩, .ask 4 0 (.store 0 (.bytes (.sp 0) [])), .oper none 5 .read none, .reply 0 0 1],
      (match m with
        | .granule _ => false
        | _ => true) = true ∧ ((tSlot (some 0) [] m).die 0).slots.find? 0 = some ⟨4, 0, .req, 0, 0, false, m⟩ ∧
        ((tSlot (some 0) [] m).die 0).seqIn.get (tripleKey 4 0 .req) 0 = 0) := by decide +kernel
theorem test_hyp_Multicast :
    (let g : McGranule := ⟨8, [(0, 1, 0xFF)], 0, 0, 0, 0, [0, 1]⟩
     let s := { tSlot none [] with tiles := [(0, { tTile with mcQueue := [g], delay := [g] })] }
     (s.tile 0).mcQueue = [g] ∧ g.members.Nodup ∧ s.phase = .ending ∧ (s.die 0).frozen = false ∧ (0 + s.gtime) % 132 = stationOf 0 ∧
       (s.die 0).slots.find? 0 = none ∧ ((s.die 0).pitch.get (132 * ((s.gtime + 0) / 132 % 16) + 0) 0).toNat / 2 ^ 14 = 2 ∧
       ((s.die 0).pitch.get 0 0).toNat % 2 ^ 8 = stationOf 0 ∧ (∃ g ∈ (s.tile 0).delay, g.due ≤ s.gtime)) ∧
    (∀ g ∈ (tS.tile 0).delay, tS.gtime < g.due) := by decide +kernel

/-- The fabric with the marks of package 3 above H = 10, and packets that wait. -/
def tFab : State := { tS with fab := { Fabric.reset with
  high := [(3, 10)], marks := [(3, [12])]
  sent := [⟨⟨0, 3, 1, .flag ⟨5, .rlx, .dom, .atom .add false 1⟩⟩, some 0, some (0, ⟨0, true, 0, 0, 0, false, .extfree 0⟩), none⟩, ⟨⟨0, 4, 1, .flag ⟨5, .rlx, .dom, .atom .add false 1⟩⟩, none, none, none⟩] } }
theorem test_hyp_PacketsArrive : tFab.phase = .running ∧ tFab.fab.outOfDomain = false ∧ (0 : Byte) = tFab.sys.pkg ∧
    (let above (n : Nat) := (n + 2 ^ 32 - tFab.fab.high.get 3 0) % 2 ^ 32
     above 10 = 0 ∧ 2 ^ 31 ≤ above 9 ∧ 12 ∈ tFab.fab.marks.get 3 [] ∧ 64 < above 75 ∧ above 74 = 64 ∧
       (1 ≤ above 11 ∧ 11 ∉ tFab.fab.marks.get 3 [] ∧ ∀ m ∈ tFab.fab.marks.get 3 [], 1 ≤ above m ∧ above m ≤ 64 ∧ m < 2 ^ 32)) ∧
    tFab.acceptsLaunch [] = false ∧ tFab.dev.poisoned 5 (.atom .add false 1) = false := by decide +kernel
theorem test_hyp_PacketsLeave :
    (tFab.fab.sent.find? (fun j => j.pkt.dst = 3 ∧ j.pkt.seq = 1 ∧ j.sentAt.isSome)).isSome = true ∧
    (tFab.fab.sent.map fun k => (k.pkt.dst, k.sentAt.isSome)) = [(3, true), (4, false)] ∧ ((tFab.die 0).bank 47).cls ≤ 3 ∧
    ({ tFab.fab with outOfDomain := true }).outOfDomain = true := by decide +kernel
/-- A flag that has been sent to its home, and ports of which none works. -/
theorem test_hyp_PacketsArrive_busy : ((3 : Byte), (11 : BitVec 32)) ∈ ({ tFab.fab with applying := [(3, 11)] }).applying ∧ tFab.fab.cut = false ∧
    ({ tFab.fab with linkRetired := List.range 32 }).cut = true := by decide +kernel
/-- R250: a peer table that lets package 3 launch on queue 0 of die 0, and a packet of that kind. -/
theorem test_hyp_PacketsArrive_launch : let s := { tFab with sys := { Sys.reset with peers := [(0, ⟨3, 3, 1⟩)] } }
    let b : List Byte := [0, 3] ++ List.replicate 58 0
    let l := b ++ toBytes 4 (crc32c b).toNat
    s.acceptsLaunch l = true ∧ s.schedules (Fin.ofNat 4 ((l.getD 0 0).toNat / 64)) = true ∧ s.held 0 0 < 256 ∧
      s.inDieOrder (Fin.ofNat 4 ((l.getD 0 0).toNat / 64)) = true := by decide +kernel

/-- A launch record of one level: gang, row, x1, count 2; GSIZE 2, image 7. -/
def tRec : List Byte := toBytes 8 7 ++ toBytes 4 100 ++ toBytes 4 0 ++ toBytes 4 0 ++ [2, 3, 0, 1] ++ toBytes 40 0 ++
  [3, 0, 1, 1] ++ toBytes 4 2 ++ List.replicate 184 0
/-- Die 0 with a ring whose first slot holds that record. -/
def tRing : State := { tE .i 0 0 tRegs with
  dies := [(0, { Die.reset with queues := [(0, { LQueue.reset with en := true, tail := 1, rbase := 0x1000 })] })]
  sys := { Sys.reset with ready := true, keys := [(0, 0)], images := [(7, ⟨[], Vector.replicate 4 []⟩)], hostMem := Memory.write [] 0x1000 tRec } }
theorem test_hyp_Rings : tRing.sys.ready = true ∧ tRing.phase = .running ∧ (tRing.die 0).frozen = false ∧ tRing.sys.hold = none ∧
    ((tRing.die 0).queue 0).head ≠ ((tRing.die 0).queue 0).tail ∧ ((tRing.die 0).queue 1).head = ((tRing.die 0).queue 1).tail ∧
    tRing.held 0 0 < 256 ∧ tRing.inDieOrder 0 = true ∧ ((tRing.die 0).queue 0).openSlots = false ∧ tRing.refusal 0 0 tRec = 0 ∧ tRing.refusal 0 1 tRec = 4 ∧
    ((2 ^ 4 : Nat) < ((17 : BitVec 32).toNat + 2 ^ 32 - ((tRing.die 0).queue 0).head.toNat) % 2 ^ 32) ∧
    (((16 : BitVec 32).toNat + 2 ^ 32 - ((tRing.die 0).queue 0).head.toNat) % 2 ^ 32 ≤ 2 ^ 4) ∧
    (tRing.completion 3 = none ∧ ({ tRing with dies := [(0, { Die.reset with done := [(3, 4)] })] }).completion 3 = some 4 ∧ wordStatus 4 = 4) := by
  decide +kernel
theorem test_hyp_PoolAnswers :
    (let r : Req := ⟨0, false, 0, 0, 0, true, .launch (some 2) 10 false 0x10000 0 0⟩
     let s := { tOf { tTile with cox := { tCox with closing := true, nextReq := 1 } } with dies := [(0, { Die.reset with poolReqs := [⟨0, tRec, 1, some 1, none, some (0, r)⟩] })] }
     s.phase = .running ∧ (s.die 0).frozen = false ∧ s.sys.hold = none ∧ s.inDieOrder 0 = true ∧ (s.die 0).poolReqs = [⟨0, tRec, 1, some 1, none, some (0, r)⟩] ∧ (s.cox 0).closingIs r = true ∧ (s.cox 0).closing = true ∧
       ¬(((1 : Nat) = 0 ∨ 256 ≤ s.held 0 1) ∧ 256 ≤ s.held 0 0)) := by decide +kernel
/-- A pool without room. -/
theorem test_hyp_PoolAnswers_full : ({ tS with launches := List.replicate 256 { tLaunch with dispatchedAt := none } }).held 0 0 = 256 := by
  decide +kernel

/-- Launch 1 alone, changed. -/
def tL1 (f : Launch → Launch) (p : Phase) : State := { tS with launches := [f tLaunch], phase := p, gtime := 200 }
/-- What a launch has still to announce, at each stage. -/
theorem test_hyp_LaunchEnds_announce : (∀ n ∈ [Notice.mk (some (5, 1)) none none false none, ⟨none, some 0x80000005, none, false, none⟩,
      ⟨none, none, some 7, false, none⟩, ⟨some (5, 1), none, none, true, none⟩, ⟨none, none, some 7, false, some (3, 1)⟩],
      (({ tS with dies := [(0, { Die.reset with notices := [n] })] }).die 0).notices = [n]) ∧
    ((0x80000005 : BitVec 32).toNat / 2 ^ 17) % 2 ^ 8 = tS.sys.pkg.toNat := by decide +kernel
theorem test_hyp_LaunchEnds : (let s := tL1 (fun l => { l with dispatchedAt := none }) .running
      (s.launch? 1).isSome = true ∧ (tLaunch.entered + tLaunch.record.dbudget ≤ s.gtime)) ∧
    (let s := tL1 (fun l => { l with waiting := some 0 }) .running
     (s.launch? 1).map (fun l => (l.dispatchedAt, l.stopped, l.waiting)) = some (some 0, false, some 0)) ∧
    (let s := tL1 (fun l => { l with failure := some (cDEADLINE, 0) }) .running
     (s.launch? 1).map (fun l => (l.failure, l.failed)) = some (some (cDEADLINE, 0), false)) := by decide +kernel
theorem test_hyp_LaunchEnds_complete : (let s := tL1 (fun l => { l with exhausted := true }) .starting
     (s.launch? 1).map (fun l => (l.exhausted, l.gangs.isEmpty, l.failure.isNone, l.verdict.isNone, l.halves.isNone)) =
       some (true, true, true, true, true) ∧ s.phase = .starting ∧ (s.launch? 1).map s.coversDone = some true) ∧
    (let s := tL1 (fun l => { l with dispatchedAt := none, verdict := some (4, 2) }) .starting
     (s.launch? 1).map (fun l => (l.dispatchedAt, l.verdict, s.coversDone l)) = some (none, some (4, 2), true)) ∧
    (let s := tL1 (fun l => { l with failure := some (cDEADLINE, 0), failed := true, stopped := true }) .starting
     (s.launch? 1).map (fun l => (l.failed, l.stopped, l.gangs.isEmpty)) = some (true, true, true)) := by decide +kernel
/-- A pending launch, the only candidate. -/
def tPending : Launch := { tLaunch with dispatchedAt := none }
theorem test_hyp_Dispatch : let s := { tL1 (fun _ => tPending) .ending with dies := [(0, { Die.reset with queues := [(0, { LQueue.reset with en := true })] })] }
    s.phase = .ending ∧ (s.die 0).frozen = false ∧ s.sys.hold = none ∧ (s.running 0).length < 64 ∧
      (∀ e : DieId, s.running e = []) ∧ s.launch? tPending.id = some tPending ∧
      s.candidates 0 = [tPending] ∧ s.resumesFirst 0 (s.priority tPending) = false := by decide +kernel

/-- Launch 1 with a gang of tiles 0 and 1, whose member 0 has a point in its list. -/
def tGang : Gang := ⟨[0], [0, 1], [[⟨0, [0, 0, 0]⟩], []], [none, none], [(3, [0, 0, 0], 0)], [], false, false, false, 0, false, 0⟩
theorem test_hyp_Placement : (let s := { tL1 id .running with tiles := [] }
      s.placement tLaunch = some [0, 1] ∧ tLaunch.needsGang s.gtime = true ∧ tLaunch.dies.all s.mayPlace = true ∧ s.phase = .running) ∧
    tGang.tileBound = [(3, ([0, 0, 0] : List Nat).take 3, 0)] ∧ (∀ b ∈ tGang.tileBound ++ tGang.crewBound, ([0, 0, 1] : List Nat).take b.1 ≠ b.2.1) ∧
    (let s := { tL1 (fun l => { l with gangs := [{ tGang with loading := true }] }) .running with
        sys := { Sys.reset with images := [(7, ⟨[], Vector.replicate 4 []⟩)] } }
     (s.launch? 1).map (fun l => (l.dies.all s.schedules, l.gangs.map Gang.loading)) = some (true, [true])) ∧
    (let s := { tL1 (fun l => { l with gangs := [tGang] }) .running with tiles := [] }
     tLaunch.dies.all s.schedules = true ∧ ((s.launch? 1).bind s.idleMember) = some (tGang, 0, 0, ⟨0, [0, 0, 0]⟩) ∧
       (s.launch? 1).map (fun l => (l.dispatchedAt, l.stopped, l.failure)) = some (some 0, false, none) ∧ (0 : Nat) ≠ s.gtime) := by
  decide +kernel

/-- A die on which nothing is loaded, and one on which a load runs. -/
theorem test_hyp_Placement_load : (∀ d ∈ tLaunch.dies, ∀ k ∈ (tL1 id .running).running d, k.record.wsload = false) ∧
    (tL1 (fun l => { l with record := { l.record with wsload := true } }) .running).running 0 ≠ [] := by decide +kernel

/-- Launch 1 whose gang runs on tile 0, with its request and stop bits. -/
def tPre (r p : Bool) (ph : Phase) (x : Tile) : State :=
  { tL1 (fun l => { l with gangs := [{ tGang with requested := r, preempted := p }] }) ph with
    tiles := [(0, x), (1, { Tile.reset with place := x.place })], sys := { Sys.reset with ready := true, savePool := 0x40000001 } }
theorem test_hyp_Preemption : (let s := tPre false false .running tTile
      s.sys.ready = true ∧ (s.gangOf (Fin.ofNat 512 (128 * (0 : Fin 4).val + (0 : Fin 128).val))).map (fun g => g.2.requested) = some false) ∧
    (let s := tPre true false .starting tTile
     (s.gangOf 0).map (fun g => (s.stopsNow g.1 g.2, (s.tile 0).live)) = some (true, true)) ∧
    (let s := tPre true true .starting { tTile with cox := { tCox with stopped := true }, engines := tTile.engines.map fun g => { g with stopped := true } }
     (s.gangOf 0).map (fun g => (s.savesNow g.1 g.2, decide ((g.1.partners g.2).flatMap Gang.tiles).Nodup, (s.tile 0).iter)) = some (true, true, some 0)) := by
  decide +kernel

/-- The gang of launch 1 after its contexts were saved. -/
def tSaved : State := { after (exec (.preempt 0) (tPre true true .starting { tTile with cox := { tCox with stopped := true }, engines := tTile.engines.map fun g => { g with stopped := true } })) with phase := .running }
theorem test_hyp_Preemption_resume : (tSaved.launches.findSome? fun k => (k.gangs.find? fun h => h.preempted && h.tiles.contains 0).map fun h =>
      (tSaved.resumable k h, k.id, decide ((k.partners h).flatMap Gang.tiles).Nodup, (tSaved.savedOf k h 0).map fun c => (c.1, c.2.iter))) =
        some (true, 1, true, some (0, 0)) ∧ tSaved.phase = .running ∧
      tSaved.launches.map (fun k => k.gangs.length) = [1] := by decide +kernel

/-! ## Reliability, the register window, the hold-up, the machine -/

/-- For McBanks and SelfTests. -/
theorem test_hyp_McBanks : ({ tS with phase := .ticking 0 }).phase = .ticking 0 ∧ ({ Sys.reset with ready := true }).ready = true ∧
    (let s (q : List Nat) (r : Option (Nat × Nat)) (p : Phase) (g : Nat) : State :=
       { State.reset with phase := p, gtime := g, dies := [(0, { Die.reset with test := { SelfTest.reset with period := 1, queue := q, running := r } })] }
     ((s [] none (.ticking 1) (2 ^ 24)).phase = .ticking ((0 : Fin 4).val + 1) ∧ (s [] none (.ticking 1) (2 ^ 24)).gtime % (1 * 2 ^ 24) = 0 ∧
       ((s [] none (.ticking 1) 0).die 0).test.period = 1 ∧ ((s [] none (.ticking 1) 0).die 0).test.online.getLsbD 0 = true) ∧
     (((s [31] none .starting 0).die 0).test.queue = [31] ∧ (s [31] none .starting 0).testable 0 31 = true ∧ ((s [31] none .starting 0).die 0).frozen = false) ∧
     (((s [] (some (31, 5)) .ending (2 ^ 20 + 4)).die 0).test.running = some (31, 5) ∧ 5 + 2 ^ 20 ≤ (s [] (some (31, 5)) .ending (2 ^ 20 + 4)).gtime + 1)) := by
  decide +kernel

/-- A PAIR launch with both halves done, alike or not. -/
def tPair (sig : Word) : State := tL1 (fun l => { l with exhausted := true, halves := some (⟨0, [], [], [], true, false⟩, ⟨sig, [], [], [], true, false⟩) }) .starting
theorem test_hyp_PairsAndRows : ((tPair 0).launch? 1).map (fun l => (l.halves.isSome, l.failure.isNone, l.exhausted, l.gangs.isEmpty, l.dispatchedAt.isSome)) =
      some (true, true, true, true, true) ∧ (tPair 0).phase = .starting ∧ ((tPair 0).launch? 1).map (tPair 0).coversDone = some true ∧
    halvesAgree ⟨0, [], [], [], true, false⟩ ⟨0, [], [], [], true, false⟩ = true ∧ halvesAgree ⟨0, [], [], [], true, false⟩ ⟨1, [], [], [], true, false⟩ = false ∧
    (Half.mk 0 [] [1, 2] [] true true).starved = true ∧
    (let m : RowMove := ⟨0, 0, 5, 1, 3, 0, true, [2, 6]⟩
     m.unit ≠ 8 ∧ m.began + 63 ≤ 63 ∧ m.firstPass = true ∧ m.unit < 7 ∧ 2 ∈ m.marks ∧ ∀ j ∈ m.marks, 2 ≤ j) ∧
    ((63 : Fin 64).val % 2 = (1 : Fin 8).val % 2 ∧ ((tS.home 1).scrub.get (64 * (3 * 0 + 2) + 63) (0, 0)).2 ≤ tS.gtime ∧
      (191 : Nat) % 4096 = 64 * (3 * 0 + 2) + 63) := by decide +kernel

theorem test_hyp_WindowWrites : State.reset.sys.ready = false ∧ tRing.sys.ready = true ∧ tS.dieBusy 0 = true ∧ State.reset.dieBusy 0 = false ∧
    ((0x4083 : BitVec 16).toNat / 2 ^ 14 = 1 ∧ (0x4083 : BitVec 16).toNat % 2 ^ 8 ≤ 131 ∧ (0x4083 : BitVec 16).toNat / 2 ^ 8 % 2 ^ 6 = 0) ∧
    ((0x4084 : BitVec 16).toNat % 2 ^ 8 > 131) ∧ ((7 : Byte).toNat < 8) ∧ tRing.dev.poisoned 5 (.write 0) = false ∧
    (tRing.walk 0x10000).isSome = true ∧ tRing.sys.images.length < 2 ^ 32 ∧ (∃ l ∈ tRing.launches, l.dispatchedAt ≠ none) ∧
    (∀ l ∈ State.reset.launches, l.dispatchedAt = none) := by decide +kernel
/-- An image without parts, in extent 5. -/
def tImage : List Byte := let b := toBytes 4 0x4C424E45 ++ toBytes 4 1 ++ List.replicate 72 0
  b.take 72 ++ toBytes 4 (crc32c b).toNat ++ toBytes 4 0
theorem test_hyp_WindowWrites_image : let s := tRing.deviceWrite (tImage.zipIdx.map fun b => (0x10000 + b.2, b.1, 0xFF))
    let l := s.deviceRead 0x10000 80
    imageSize l = 80 ∧ imageOk l 80 = true ∧ (imagePart l 6).2 = 0 ∧ (s.extent? 5).map (fun e => (e.segOf (e.elemsAt 0).1).map fun g => (g.1, g.2.st)) =
      some (some (0, .i)) ∧ pteExt (((s.walk 0x10000).map Page.pte).getD 0) = 5 := by decide +kernel
/-- Nothing is in error there, and no page of a weight store. -/
theorem test_hyp_WindowWrites_good : tRing.dev.flaws = [] ∧ tRing.dev.poison = [] ∧ tRing.dev.retiredChannels = [] ∧
    ((tRing.walk 0x10000).map fun q => pteTier q.pte) = some 0 ∧
    ({ State.reset with sys := { Sys.reset with bootfail := true } }).windowRead 0x100000 ≠ none ∧ winAt 0x100000 ≠ .devctl := by decide +kernel
/-- Extent 5 as an image: 64 bytes of zeros follow its header, so the check of its magic fails, and the handle is 0. -/
theorem test_imgaddr : (after (exec (.imgaddrWrite 0x10000) tRing)).sys.imghandle = 0 := by decide +kernel

/-- For BootAndKeys and HoldUp. -/
theorem test_hyp_BootAndHoldUp : State.reset.sys.ready = false ∧ State.reset.sys.bootfail = false ∧ State.reset.sys.hold = none ∧ State.reset.sys.frozen = false ∧
    (tS.tile 0).live = true ∧ ((tEv true false none Pending.reset).cox 0).tvec.getLsbD 16 = true ∧ (tS.cox 0).tvec.getLsbD 16 = false ∧
    (((tG tProg []).group 5).st = .opened ∧ ((tG tProg []).group 5).prog = some tProg) ∧
    (let s := { tS with phase := .ending, gtime := 4095, sys := { Sys.reset with hold := some .handler } }
     s.phase = .ending ∧ s.sys.hold = some .handler ∧ s.sys.holdP + 4095 ≤ s.gtime ∧ s.drained = false) ∧
    (let s := { tS with phase := .ending, gtime := 16384, sys := { Sys.reset with hold := some .drain } }
     s.sys.holdP + 16384 ≤ s.gtime) ∧
    ({ State.reset with sys := { Sys.reset with hold := some .drain } }).drained = true ∧
    (tRestored.sys.bhSetv = true) ∧ ({ Sys.reset with hold := some .write, holdEnd := 5 }).holdEnd ≤ 5 := by decide +kernel

theorem test_hyp_CoxFrame : (Instr.add ⟨tg, 8, .x 4, .x 1⟩).coxOnly = true ∧ tS.cur = .cox 0 ∧
    ∃ u, exec (.add ⟨tg, 8, .x 4, .x 1⟩) tS = .next u := ⟨rfl, rfl, _, rfl⟩

theorem test_hyp_RoundTrip : (Instr.add ⟨tg, 8, .x 4, .x 1⟩).wf .cox = true ∧ (Instr.vnop tk0).wf .v = true ∧ (Instr.cend tk0).wf .l = true ∧
    (Instr.mend tk0).wf .m = true ∧ (Instr.cend tk0).wf .s = true ∧ Instr.endl.wfStep = true := by decide

/-- A turn of a Cox, of V, of a step program, of an event, and none. -/
theorem test_hyp_DecodedWordsIssue : tS.sys.frozen = false ∧ tS.sys.hold ≠ some .write ∧ tS.untried = some 0 ∧ tS.phase = .running ∧
    (let s := tOf { tTile with cox := { tCox with imem := Memory.write [] 0 (toBytes 12 0x1A000B800000000000000002) } }
     s.coxReady 0 = true ∧ pcLegal (s.cox 0).pc = true ∧ decodeBytes .cox ((s.cox 0).imem.read 0 12) = .word (.li tg 5 2)) ∧
    (pcLegal 4 = false ∧ (tOf { tTile with cox := { tCox with pc := 4 } }).coxReady 0 = true) ∧
    decodeBytes .cox (toBytes 12 0x00860A0D80000001FFFFFFF4) = .ill 3 ∧
    (let s := tQ ⟨1, 1, 50, 50, 7, 9, .running, 0, [], []⟩ (fun g => { g with store := Memory.write tStore 8 (toBytes 12 0x0043104320000100000000000) })
     (s.die (dieOf 0)).frozen = false ∧ s.engReady 0 .v = true ∧ (((s.tile 0).eng .v).wordNow.map List.length) = some 12) ∧
    (((tG tProg []).group 5).prog = some tProg ∧ (tG tProg []).stepReady 5 = true ∧ tProg.steps[tProg.pc]? = some 0x2040000120000100) ∧
    (isInput .supplyLoss = true ∧ (eventDie tS .supplyLoss).all tS.clocked = true ∧ isLate .supplyLoss = false) ∧
    (State.reset.agenda = []) := by decide +kernel

/-- A step of the end of a cycle, and one that is no end. -/
theorem test_hyp_TimeMoves : (∃ t, step State.reset = .next t) ∧ ∃ t, step { State.reset with phase := .ending } = .next t := ⟨⟨_, rfl⟩, ⟨_, rfl⟩⟩
theorem test_hyp_MemoriesStayCanonical : MemoriesOk State.reset ∧ ∃ t, step State.reset = .next t := ⟨⟨rfl, rfl, rfl, rfl, rfl⟩, ⟨_, rfl⟩⟩

/-! ## The words that the host asks about -/

/-- `li x5, 2` as the table numbers its bits runs as the first instruction after reset. -/
theorem test_withFetchWord : (match step (State.reset.withFetchWord 96 0x1A000B800000000000000002) with
  | .next u => decide ((u.cox 0).flight = [⟨1, 0, .x 5 2⟩])
  | _ => false) = true := by decide +kernel

end Sys2Proof.Tests
end

section
/-! ## Words of two sources, and the division words (R264, R265) -/

namespace Sys2Proof.Machine

open Sys2Proof

/-- R264: a word of two sources that runs writes `f a b` with its latency. -/
theorem State.alu3_runs {s : State} {t : TileId} {o : Alu3} (h : CoxRuns s t o.g [o.a.op, o.b.op]) (l : Nat)
    (f : Word → Word → Word) :
    s.alu3 o l f = coxSends (coxIssued s t [o.a.op, o.b.op]) t l
      (.x o.d (f (coxValue s t [o.a.op, o.b.op] 0) (coxValue s t [o.a.op, o.b.op] 1))) := by
  have hcur : (coxIssued s t [o.a.op, o.b.op]).curTile = t := State.curTile_cox h.atWork
  simp only [State.alu3, State.runCox_runs h, State.sendX, hcur]
  rfl

/-- R265: the quotients by 0 are 2^64 − 1. -/
theorem divS_zero (a : Word) : divS a 0 = BitVec.allOnes 64 := if_pos rfl
theorem divU_zero (a : Word) : divU a 0 = BitVec.allOnes 64 := if_pos rfl
/-- R265: the remainders by 0 are the dividend. -/
theorem remS_zero (a : Word) : remS a 0 = a := if_pos rfl
theorem remU_zero (a : Word) : remU a 0 = a := if_pos rfl

/-- R264: the signed quotient truncates toward zero. -/
theorem divS_eq_tdiv {a b : Word} (hb : b ≠ 0) : divS a b = BitVec.ofInt 64 (a.toInt.tdiv b.toInt) := by
  apply BitVec.eq_of_toInt_eq
  rw [divS, if_neg hb, BitVec.toInt_sdiv, BitVec.toInt_ofInt]

/-- R264: the signed remainder has the sign of the dividend. -/
theorem remS_eq_tmod {a b : Word} (hb : b ≠ 0) : remS a b = BitVec.ofInt 64 (a.toInt.tmod b.toInt) := by
  rw [remS, if_neg hb, ← BitVec.toInt_srem, BitVec.ofInt_toInt]

theorem divU_eq_div {a b : Word} (hb : b ≠ 0) : divU a b = BitVec.ofNat 64 (a.toNat / b.toNat) := by
  rw [divU, if_neg hb, ← BitVec.toNat_udiv, BitVec.ofNat_toNat, BitVec.setWidth_eq]

theorem remU_eq_mod {a b : Word} (hb : b ≠ 0) : remU a b = BitVec.ofNat 64 (a.toNat % b.toNat) := by
  rw [remU, if_neg hb, ← BitVec.toNat_umod, BitVec.ofNat_toNat, BitVec.setWidth_eq]

/-- R265: −2^63 by −1 overflows, and the quotient wraps to −2^63. -/
theorem divS_overflow {a b : Word} (ha : a.toInt = -2 ^ 63) (hb : b.toInt = -1) :
    divS a b = BitVec.ofInt 64 (-2 ^ 63) := by
  have hb0 : b ≠ 0 := by rintro rfl; exact absurd hb (by decide)
  rw [divS_eq_tdiv hb0, ha, hb]
  decide

/-- R265: the remainder of −2^63 by −1 is 0. -/
theorem remS_overflow {a b : Word} (ha : a.toInt = -2 ^ 63) (hb : b.toInt = -1) : remS a b = 0 := by
  have hb0 : b ≠ 0 := by rintro rfl; exact absurd hb (by decide)
  rw [remS_eq_tmod hb0, ha, hb]
  decide

/-- Settles O2: each division word writes its function of the two sources, whose corners the lemmas above give. -/
theorem divisionWords : Obligations.DivisionWords := by
  intro s t o h a b writes
  have hdiv : exec (.div o) s = writes (divS a b) := congrArg Host.Outcome.next (State.alu3_runs h 20 divS)
  have hdivn : exec (.divn o) s = writes (divU a b) := congrArg Host.Outcome.next (State.alu3_runs h 20 divU)
  have hrem : exec (.rem o) s = writes (remS a b) := congrArg Host.Outcome.next (State.alu3_runs h 20 remS)
  have hremn : exec (.remn o) s = writes (remU a b) := congrArg Host.Outcome.next (State.alu3_runs h 20 remU)
  rw [hdiv, hdivn, hrem, hremn]
  refine ⟨fun hb => ?_, fun ha hb => ?_, fun hb => ?_⟩
  · rw [hb, divS_zero, divU_zero, remS_zero, remU_zero]
    exact ⟨rfl, rfl, rfl, rfl⟩
  · rw [divS_overflow ha hb, remS_overflow ha hb]
    exact ⟨rfl, rfl⟩
  · rw [divS_eq_tdiv hb, divU_eq_div hb, remS_eq_tmod hb, remU_eq_mod hb]
    exact ⟨rfl, rfl, rfl, rfl⟩

end Sys2Proof.Machine
end

section
/-! ## Branch words in delay slots (R272) -/

namespace Sys2Proof.Machine

open Sys2Proof

/-- R272, R55: in a delay slot of a taken branch a branch word reads its own guard and no source, and does nothing else. -/
theorem State.runBranch_inSlot {s : State} {t : TileId} {g : CGuard} {srcs : List COp} (hc : s.cur = .cox t)
    (hb : (s.cox t).branch ≠ none) (k : List Word → Word → State → State) :
    s.runBranch g srcs k = s.runCox g [] fun _ s1 => .done s1 := by
  have hslot : (s.cox t).inSlot = true := Option.isSome_iff_ne_none.2 hb
  rw [State.runBranch, State.curTile_cox hc, hslot, if_pos rfl]

/-- R272: so it does what `NOP` does under the same guard. -/
theorem exec_br_inSlot {s : State} {t : TileId} (hc : s.cur = .cox t) (hb : (s.cox t).branch ≠ none) (g : CGuard)
    (i : BitVec 32) : exec (.br g i) s = exec (.nop g) s :=
  congrArg Host.Outcome.next (State.runBranch_inSlot hc hb _)

/-- R55, R252: `NOP` under a guard that may not be read raises INVREG. -/
theorem exec_nop_badGuard {s : State} {t : TileId} {g : CGuard} (hc : s.cur = .cox t)
    (hg : (s.cox t).guardValid g = false) : exec (.nop g) s = .next (s.coxFault t cINVREG 0 0) :=
  congrArg Host.Outcome.next (State.runCox_badGuard hc hg _)

/-- R51: `p0` is always valid and true, so that a word guarded by it runs where it has no source. -/
theorem coxRuns_p0 {s : State} {t : TileId} (hc : s.cur = .cox t) : CoxRuns s t ⟨0, false⟩ [] where
  atWork := hc
  guardReadable := by simp [Cox.guardValid, Cox.pValid]
  guardTrue := by simp [Cox.guardOn, Cox.pValid, Cox.readP]
  readable := by simp
  arrived := by simp [Cox.popReady, popCount]

/-- R284: `NOP` under `p0` always issues. -/
theorem exec_nop_p0 {s : State} {t : TileId} (hc : s.cur = .cox t) :
    exec (.nop ⟨0, false⟩) s = .next (coxIssued s t []) :=
  congrArg Host.Outcome.next (State.runCox_runs (coxRuns_p0 hc) _)

/-- A Cox after reset, `p1` being invalid, that stands in the second delay slot of a taken branch. -/
def slotState : State := State.reset.modCox 0 fun c => { c with branch := some (0x24, 1) }

theorem slotState_cox : slotState.cox 0 = { State.reset.cox 0 with branch := some (0x24, 1) } :=
  State.cox_modCox_same _ _ _

/-- Refutes O7: a branch word in a delay slot reads its own guard all the same (R55), and INVREG is raised where that is
invalid; `NOP` under `p0`, which the statement asks for whatever the guard of the branch word, goes on. -/
theorem not_delaySlots : ¬ Obligations.DelaySlots := by
  rintro ⟨-, hslots, -⟩
  have hc : slotState.cur = .cox 0 := rfl
  have hb : (slotState.cox 0).branch ≠ none := by simp [slotState_cox]
  have hg : (slotState.cox 0).guardValid ⟨1, false⟩ = false := by rw [slotState_cox]; rfl
  have hbr := (hslots slotState 0 (.br ⟨1, false⟩ 0) hc hb).1 rfl
  rw [exec_br_inSlot hc hb, exec_nop_badGuard hc hg, exec_nop_p0 hc] at hbr
  have hfault := congrArg (fun s : State => (s.cox 0).fault) (Host.Outcome.next.inj hbr)
  have hreset : (State.reset.cox 0).fault = none := rfl
  simp [State.coxFault, coxIssued, Cox.raise, slotState_cox, hreset] at hfault

end Sys2Proof.Machine
end

section
/-! ## The round trip of every instruction (R47 to R62) -/

namespace Sys2Proof.Machine

open Sys2Proof

/-- The lemma of each constructor in Laws/PerInstr.lean, put together. -/
theorem everyInstr_roundTrips : ∀ i : Instr, Laws.RoundTrip.Statement i
  | .add o => Laws.RoundTrip.add o | .sub o => Laws.RoundTrip.sub o | .mul o => Laws.RoundTrip.mul o
  | .mulh o => Laws.RoundTrip.mulh o | .mulhn o => Laws.RoundTrip.mulhn o | .div o => Laws.RoundTrip.div o
  | .divn o => Laws.RoundTrip.divn o | .rem o => Laws.RoundTrip.rem o | .remn o => Laws.RoundTrip.remn o
  | .and o => Laws.RoundTrip.and o | .or o => Laws.RoundTrip.or o | .xor o => Laws.RoundTrip.xor o
  | .andn o => Laws.RoundTrip.andn o | .shl o => Laws.RoundTrip.shl o | .shr o => Laws.RoundTrip.shr o
  | .sra o => Laws.RoundTrip.sra o | .rot o => Laws.RoundTrip.rot o | .clz o => Laws.RoundTrip.clz o
  | .ctz o => Laws.RoundTrip.ctz o | .popc o => Laws.RoundTrip.popc o | .min o => Laws.RoundTrip.min o
  | .max o => Laws.RoundTrip.max o | .minn o => Laws.RoundTrip.minn o | .maxn o => Laws.RoundTrip.maxn o
  | .sext o => Laws.RoundTrip.sext o | .zext o => Laws.RoundTrip.zext o | .li g d imm => Laws.RoundTrip.li g d imm
  | .lih o => Laws.RoundTrip.lih o | .sel o => Laws.RoundTrip.sel o | .cmp o => Laws.RoundTrip.cmp o
  | .plog o => Laws.RoundTrip.plog o | .pmovPP g d a => Laws.RoundTrip.pmovPP g d a
  | .pmovPX g d a => Laws.RoundTrip.pmovPX g d a | .pmovXP g d a => Laws.RoundTrip.pmovXP g d a
  | .pmovXPall g d => Laws.RoundTrip.pmovXPall g d | .pmovPallX g a => Laws.RoundTrip.pmovPallX g a
  | .ld o d => Laws.RoundTrip.ld o d | .ldFifo o => Laws.RoundTrip.ldFifo o | .st o b => Laws.RoundTrip.st o b
  | .stAtomic g a off signed op b => Laws.RoundTrip.stAtomic g a off signed op b
  | .stCas g a off signed b c => Laws.RoundTrip.stCas g a off signed b c | .ldi o => Laws.RoundTrip.ldi o
  | .ldiTouch o toP => Laws.RoundTrip.ldiTouch o toP | .lds g a seg => Laws.RoundTrip.lds g a seg
  | .ldsTouch g a seg toP => Laws.RoundTrip.ldsTouch g a seg toP | .sts g a b seg => Laws.RoundTrip.sts g a b seg
  | .close g a seg => Laws.RoundTrip.close g a seg | .adda g a b c ty => Laws.RoundTrip.adda g a b c ty
  | .sld o => Laws.RoundTrip.sld o | .sst o b => Laws.RoundTrip.sst o b
  | .satom o ty op b => Laws.RoundTrip.satom o ty op b | .fence sc => Laws.RoundTrip.fence sc
  | .br g imm => Laws.RoundTrip.br g imm | .brl g d imm => Laws.RoundTrip.brl g d imm
  | .jr g a => Laws.RoundTrip.jr g a | .ret g a => Laws.RoundTrip.ret g a | .bct g a imm => Laws.RoundTrip.bct g a imm
  | .region g => Laws.RoundTrip.region g | .exec o => Laws.RoundTrip.exec o
  | .waitq g e a => Laws.RoundTrip.waitq g e a | .waitb g a => Laws.RoundTrip.waitb g a
  | .qstat g d e => Laws.RoundTrip.qstat g d e | .mlease g n tb => Laws.RoundTrip.mlease g n tb
  | .mfree g => Laws.RoundTrip.mfree g | .acalloc g d a => Laws.RoundTrip.acalloc g d a
  | .acown g a b => Laws.RoundTrip.acown g a b | .acfree g a => Laws.RoundTrip.acfree g a
  | .osclaim g d a => Laws.RoundTrip.osclaim g d a | .osrel g a => Laws.RoundTrip.osrel g a
  | .extnew g a acap => Laws.RoundTrip.extnew g a acap | .recast o => Laws.RoundTrip.recast o
  | .extq g a seg field => Laws.RoundTrip.extq g a seg field | .extfree g a => Laws.RoundTrip.extfree g a
  | .launch g pd xd a b csig => Laws.RoundTrip.launch g pd xd a b csig
  | .launchw g xd a b csig => Laws.RoundTrip.launchw g xd a b csig | .join g d a => Laws.RoundTrip.join g d a
  | .done g => Laws.RoundTrip.done g | .trap g imm => Laws.RoundTrip.trap g imm | .rft g => Laws.RoundTrip.rft g
  | .csrr g d csr => Laws.RoundTrip.csrr g d csr | .csrw g csr a => Laws.RoundTrip.csrw g csr a
  | .nop g => Laws.RoundTrip.nop g | .halt g => Laws.RoundTrip.halt g | .waitcyc g a => Laws.RoundTrip.waitcyc g a
  | .waitcycUntil g a => Laws.RoundTrip.waitcycUntil g a | .msdecl g d a => Laws.RoundTrip.msdecl g d a
  | .pfack g => Laws.RoundTrip.pfack g | .pfrestore g d a b => Laws.RoundTrip.pfrestore g d a b
  | .grpopen g a => Laws.RoundTrip.grpopen g a | .grpfree g a => Laws.RoundTrip.grpfree g a
  | .vadd o => Laws.RoundTrip.vadd o | .vsub o => Laws.RoundTrip.vsub o | .vmul o => Laws.RoundTrip.vmul o
  | .vfma o => Laws.RoundTrip.vfma o | .vfms o => Laws.RoundTrip.vfms o | .vnfma o => Laws.RoundTrip.vnfma o
  | .vmin o => Laws.RoundTrip.vmin o | .vmax o => Laws.RoundTrip.vmax o | .vabs o => Laws.RoundTrip.vabs o
  | .vneg o => Laws.RoundTrip.vneg o | .vdiv o => Laws.RoundTrip.vdiv o | .vsqrt o => Laws.RoundTrip.vsqrt o
  | .vexp2 o => Laws.RoundTrip.vexp2 o | .vlog2 o => Laws.RoundTrip.vlog2 o | .vrcp o => Laws.RoundTrip.vrcp o
  | .vrsq o => Laws.RoundTrip.vrsq o | .viadd o => Laws.RoundTrip.viadd o | .visub o => Laws.RoundTrip.visub o
  | .vimul o => Laws.RoundTrip.vimul o | .vand o => Laws.RoundTrip.vand o | .vor o => Laws.RoundTrip.vor o
  | .vxor o => Laws.RoundTrip.vxor o | .vshl o => Laws.RoundTrip.vshl o | .vshr o => Laws.RoundTrip.vshr o
  | .vsra o => Laws.RoundTrip.vsra o | .vimin o => Laws.RoundTrip.vimin o | .vimax o => Laws.RoundTrip.vimax o
  | .vcmp o => Laws.RoundTrip.vcmp o | .vsel h d a b c => Laws.RoundTrip.vsel h d a b c
  | .vplog h d a b op => Laws.RoundTrip.vplog h d a b op | .vcvt o => Laws.RoundTrip.vcvt o
  | .vqblk h d a rm fmt => Laws.RoundTrip.vqblk h d a rm fmt
  | .vdqblk h d a rm fmt => Laws.RoundTrip.vdqblk h d a rm fmt | .vred o => Laws.RoundTrip.vred o
  | .vscan o => Laws.RoundTrip.vscan o | .vperm h d a b => Laws.RoundTrip.vperm h d a b
  | .vbcst h d a n => Laws.RoundTrip.vbcst h d a n | .vslide h d a b n => Laws.RoundTrip.vslide h d a b n
  | .vldi h d base step => Laws.RoundTrip.vldi h d base step | .vmov h d a => Laws.RoundTrip.vmov h d a
  | .vmovK h d a => Laws.RoundTrip.vmovK h d a | .vmovToCsr h csr a => Laws.RoundTrip.vmovToCsr h csr a
  | .vmovFromCsr h d csr => Laws.RoundTrip.vmovFromCsr h d csr
  | .vmovMaskToV h d a => Laws.RoundTrip.vmovMaskToV h d a | .vmovVToMask h d a => Laws.RoundTrip.vmovVToMask h d a
  | .vpset o a => Laws.RoundTrip.vpset o a | .vprst o => Laws.RoundTrip.vprst o | .vpsync o => Laws.RoundTrip.vpsync o
  | .vacrd h d sel drain => Laws.RoundTrip.vacrd h d sel drain
  | .vacwr h a sel add => Laws.RoundTrip.vacwr h a sel add
  | .vtwin h d a b c kind => Laws.RoundTrip.vtwin h d a b c kind | .vtcw h d a => Laws.RoundTrip.vtcw h d a
  | .vloop tok target => Laws.RoundTrip.vloop tok target | .vbr h all target => Laws.RoundTrip.vbr h all target
  | .vend tok => Laws.RoundTrip.vend tok | .vnop tok => Laws.RoundTrip.vnop tok
  | .cnop tok timed => Laws.RoundTrip.cnop tok timed | .cpy o => Laws.RoundTrip.cpy o
  | .cpyt o d => Laws.RoundTrip.cpyt o d | .cpyr o => Laws.RoundTrip.cpyr o | .cfill o => Laws.RoundTrip.cfill o
  | .cgath o => Laws.RoundTrip.cgath o | .cscat o => Laws.RoundTrip.cscat o | .csg o => Laws.RoundTrip.csg o
  | .cseal o => Laws.RoundTrip.cseal o | .copld o fin => Laws.RoundTrip.copld o fin | .covl o => Laws.RoundTrip.covl o
  | .cwtx o => Laws.RoundTrip.cwtx o | .ctce o => Laws.RoundTrip.ctce o | .csig o => Laws.RoundTrip.csig o
  | .cwaitSignal o => Laws.RoundTrip.cwaitSignal o | .cwaitTime tok t => Laws.RoundTrip.cwaitTime tok t
  | .cprb o => Laws.RoundTrip.cprb o | .cend tok => Laws.RoundTrip.cend tok
  | .msetrow tok lo hi => Laws.RoundTrip.msetrow tok lo hi
  | .msetrowPart tok q b => Laws.RoundTrip.msetrowPart tok q b
  | .msetcol tok lo hi => Laws.RoundTrip.msetcol tok lo hi
  | .msetcolPart tok q b => Laws.RoundTrip.msetcolPart tok q b | .mfmt tok opb fmt => Laws.RoundTrip.mfmt tok opb fmt
  | .mscale tok sa sb => Laws.RoundTrip.mscale tok sa sb | .mma o => Laws.RoundTrip.mma o
  | .mmaz o => Laws.RoundTrip.mmaz o | .mmat o => Laws.RoundTrip.mmat o | .mtcw o => Laws.RoundTrip.mtcw o
  | .mcommit tok => Laws.RoundTrip.mcommit tok | .macz tok bank => Laws.RoundTrip.macz tok bank
  | .mtile tok bank count1 => Laws.RoundTrip.mtile tok bank count1 | .mend tok => Laws.RoundTrip.mend tok
  | .send o f2 => Laws.RoundTrip.send o f2 | .recv o => Laws.RoundTrip.recv o
  | .copy f1 f2 nel1 doff off => Laws.RoundTrip.copy f1 f2 nel1 doff off
  | .rrs o f2 f3 snd => Laws.RoundTrip.rrs o f2 f3 snd
  | .waitSignalStep sc word val => Laws.RoundTrip.waitSignalStep sc word val
  | .waitTimeStep val => Laws.RoundTrip.waitTimeStep val | .waitAfterT0Step val => Laws.RoundTrip.waitAfterT0Step val
  | .loop str cnt1 => Laws.RoundTrip.loop str cnt1 | .groupBudgetExpiry g => Laws.RoundTrip.groupBudgetExpiry g
  | .errorNoticeArrival g => Laws.RoundTrip.errorNoticeArrival g | .entryHead t e => Laws.RoundTrip.entryHead t e
  | .entryStart t e => Laws.RoundTrip.entryStart t e | .entryRetire t e => Laws.RoundTrip.entryRetire t e
  | .entryBudgetExpiry t e => Laws.RoundTrip.entryBudgetExpiry t e
  | .iterationBudgetExpiry t => Laws.RoundTrip.iterationBudgetExpiry t
  | .commandStart t => Laws.RoundTrip.commandStart t | .commandRetire t id => Laws.RoundTrip.commandRetire t id
  | .tceBlockDone d => Laws.RoundTrip.tceBlockDone d | .wsRefreshWindow d g => Laws.RoundTrip.wsRefreshWindow d g
  | .flitInject d st => Laws.RoundTrip.flitInject d st | .flitArrive d st => Laws.RoundTrip.flitArrive d st
  | .multicastDepart t => Laws.RoundTrip.multicastDepart t | .multicastLand t => Laws.RoundTrip.multicastLand t
  | .leaseTurnEnd c => Laws.RoundTrip.leaseTurnEnd c | .leaseGrant c => Laws.RoundTrip.leaseGrant c
  | .mWritesLand c chk => Laws.RoundTrip.mWritesLand c chk | .batchRetire t => Laws.RoundTrip.batchRetire t
  | .replayEnd t => Laws.RoundTrip.replayEnd t | .portPushLand l => Laws.RoundTrip.portPushLand l
  | .vWriteLand t chk => Laws.RoundTrip.vWriteLand t chk | .coxWriteLand t => Laws.RoundTrip.coxWriteLand t
  | .rfElementArrive t => Laws.RoundTrip.rfElementArrive t
  | .requestDepart t mismatch => Laws.RoundTrip.requestDepart t mismatch
  | .homeAccessDone h chk => Laws.RoundTrip.homeAccessDone h chk | .scPerform t => Laws.RoundTrip.scPerform t
  | .recastArrival h => Laws.RoundTrip.recastArrival h | .rtailWrite d q v => Laws.RoundTrip.rtailWrite d q v
  | .launchDispatch d => Laws.RoundTrip.launchDispatch d | .dbudgetExpiry id => Laws.RoundTrip.dbudgetExpiry id
  | .gangPlace id => Laws.RoundTrip.gangPlace id | .pointAllocate id => Laws.RoundTrip.pointAllocate id
  | .launchComplete id => Laws.RoundTrip.launchComplete id | .launchFail id => Laws.RoundTrip.launchFail id
  | .trapEntry t => Laws.RoundTrip.trapEntry t | .iterationEnd t => Laws.RoundTrip.iterationEnd t
  | .queueStop t e => Laws.RoundTrip.queueStop t e | .tintWrite t v => Laws.RoundTrip.tintWrite t v
  | .preempt t => Laws.RoundTrip.preempt t | .preemptResume t => Laws.RoundTrip.preemptResume t
  | .tdbgResume t => Laws.RoundTrip.tdbgResume t | .rowUnitCopyDone h => Laws.RoundTrip.rowUnitCopyDone h
  | .rowRemap h => Laws.RoundTrip.rowRemap h | .selftestPeriod d => Laws.RoundTrip.selftestPeriod d
  | .selftestStart d => Laws.RoundTrip.selftestStart d | .selftestEnd d pass => Laws.RoundTrip.selftestEnd d pass
  | .patrolScrubRead h stack ch chk => Laws.RoundTrip.patrolScrubRead h stack ch chk
  | .pairCompare id => Laws.RoundTrip.pairCompare id | .lastReadCycleEnd c => Laws.RoundTrip.lastReadCycleEnd c
  | .preqRequest d i => Laws.RoundTrip.preqRequest d i | .preqWithdraw d => Laws.RoundTrip.preqWithdraw d
  | .pitchWrite d i v => Laws.RoundTrip.pitchWrite d i v
  | .peerTableWrite i ctl src qmask => Laws.RoundTrip.peerTableWrite i ctl src qmask
  | .signalWindowWrite w v => Laws.RoundTrip.signalWindowWrite w v | .imgaddrWrite v => Laws.RoundTrip.imgaddrWrite v
  | .ctxflushWrite v => Laws.RoundTrip.ctxflushWrite v | .regWrite r v => Laws.RoundTrip.regWrite r v
  | .packetArrive p => Laws.RoundTrip.packetArrive p | .ackArrive pkg seq val => Laws.RoundTrip.ackArrive pkg seq val
  | .resendTimeout pkg seq => Laws.RoundTrip.resendTimeout pkg seq | .flagDepart pkg => Laws.RoundTrip.flagDepart pkg
  | .ringFetch d q => Laws.RoundTrip.ringFetch d q | .poolEntry d => Laws.RoundTrip.poolEntry d
  | .qctlFrozenClear d q => Laws.RoundTrip.qctlFrozenClear d q | .recastFlip e => Laws.RoundTrip.recastFlip e
  | .linkCrcRetry port => Laws.RoundTrip.linkCrcRetry port | .mcstValClear d b => Laws.RoundTrip.mcstValClear d b
  | .stctlReq d c => Laws.RoundTrip.stctlReq d c | .boot good pkg fw => Laws.RoundTrip.boot good pkg fw
  | .tokenWaitEnd t e => Laws.RoundTrip.tokenWaitEnd t e | .keyLoad slot key => Laws.RoundTrip.keyLoad slot key
  | .thermalLimit d celsius => Laws.RoundTrip.thermalLimit d celsius | .mcLeakTick => Laws.RoundTrip.mcLeakTick
  | .earlyPacketTimeout => Laws.RoundTrip.earlyPacketTimeout | .gtimeBoundLoss => Laws.RoundTrip.gtimeBoundLoss
  | .bhstatSetvClear => Laws.RoundTrip.bhstatSetvClear | .supplyLoss => Laws.RoundTrip.supplyLoss
  | .handlerDeadline => Laws.RoundTrip.handlerDeadline | .drainEnd => Laws.RoundTrip.drainEnd
  | .coldReset => Laws.RoundTrip.coldReset | .freeze => Laws.RoundTrip.freeze | .endl => Laws.RoundTrip.endl
  | .stepDone => Laws.RoundTrip.stepDone

/-- Settles O57: a word of a stream by its fields, a step word by its own encoding, constructor by constructor. -/
theorem roundTrip : Obligations.RoundTrip :=
  ⟨fun st i hw => ((everyInstr_roundTrips i).1 st hw).decode, fun i hw => (everyInstr_roundTrips i).2 hw⟩

end Sys2Proof.Machine
end

section
/-! ## GTIME and the byte memories: what a function of the model leaves of them (R5; log entry 2) -/

namespace Sys2Proof.Machine

open Sys2Proof

/-- GTIME and the byte memories of `MemoriesOk`. -/
structure Stores where
  gtime : Nat
  hbm : Memory
  tier2 : Memory
  ws : Memory
  boathouse : Memory
  hostMem : Memory

/-- Those of a state. -/
def State.stores (s : State) : Stores :=
  ⟨s.gtime, s.dev.hbm, s.dev.tier2, s.dev.ws, s.sys.boathouse, s.sys.hostMem⟩

/-- Those of device memory. -/
def DevMem.stores (d : DevMem) : Memory × Memory × Memory := (d.hbm, d.tier2, d.ws)

/-- An answer whose next state, if it has one, has the stores of `s`. -/
def Steady (s : State) (o : Out) : Prop := ∀ u, o = .next u → u.stores = s.stores

/-- The same of what a Cox word makes of the state it runs in. -/
def CoxRes.Steady (s : State) : CoxRes → Prop
  | .done u | .waitIn u => u.stores = s.stores
  | .wait | .fault .. => True

/-- The same of what a V word does of its own. -/
def VOwn.Steady : VOwn → Prop
  | .write _ f => ∀ s : State, (f s).stores = s.stores
  | _ => True

@[simp] theorem steady_next {s u : State} : Steady s (.next u) ↔ u.stores = s.stores :=
  ⟨fun h => h u rfl, fun h _ hu => Host.Outcome.next.inj hu ▸ h⟩

@[simp] theorem CoxRes.steady_done {s u : State} : (CoxRes.done u).Steady s ↔ u.stores = s.stores := Iff.rfl
@[simp] theorem CoxRes.steady_waitIn {s u : State} : (CoxRes.waitIn u).Steady s ↔ u.stores = s.stores := Iff.rfl
@[simp] theorem CoxRes.steady_wait {s : State} : CoxRes.wait.Steady s := trivial
@[simp] theorem CoxRes.steady_fault {s : State} {c : Byte} {i a : Word} : (CoxRes.fault c i a).Steady s := trivial

@[simp] theorem stores_foldl {α : Type} {f : State → α → State} (h : ∀ s x, (f s x).stores = s.stores) (l : List α)
    (s : State) : (l.foldl f s).stores = s.stores := by
  induction l generalizing s with
  | nil => rfl
  | cons x l ih => rw [List.foldl_cons, ih, h]

@[simp] theorem stores_foldN {f : State → Nat → State} (h : ∀ s x, (f s x).stores = s.stores) (n : Nat) (s : State) :
    (foldN n f s).stores = s.stores := stores_foldl h _ s

@[simp] theorem State.modDev_stores {f : DevMem → DevMem} (s : State) (h : ∀ d, (f d).stores = d.stores) :
    (s.modDev f).stores = s.stores := by
  have h := h s.dev
  injection h with h1 h2
  injection h2 with h2 h3
  simp only [State.stores, State.modDev, h1, h2, h3]

theorem stores_eq {s u : State} (ht : u.gtime = s.gtime) (hd : u.dev.stores = s.dev.stores)
    (hb : u.sys.boathouse = s.sys.boathouse) (hh : u.sys.hostMem = s.sys.hostMem) : u.stores = s.stores := by
  injection hd with h1 h2
  injection h2 with h2 h3
  simp only [State.stores, ht, h1, h2, h3, hb, hh]

@[simp] theorem State.modSys_stores {f : Sys → Sys} {s : State} (hb : (f s.sys).boathouse = s.sys.boathouse)
    (hh : (f s.sys).hostMem = s.sys.hostMem) : (s.modSys f).stores = s.stores := stores_eq rfl rfl hb hh

theorem foldl_keeps {α β : Type} {p : β → Prop} {f : β → α → β} (h : ∀ b x, p b → p (f b x)) {l : List α} {b : β}
    (hb : p b) : p (l.foldl f b) := by
  induction l generalizing b with
  | nil => exact hb
  | cons x l ih => exact ih (h b x hb)

theorem DevMem.stores_iff {d e : DevMem} : d.stores = e.stores ↔ d.hbm = e.hbm ∧ d.tier2 = e.tier2 ∧ d.ws = e.ws := by
  simp [DevMem.stores]

/-- The same of what a step makes of the state it runs in. -/
def StepRes.Steady (s : State) : StepRes → Prop
  | .done _ u | .past u | .waitIn u => u.stores = s.stores
  | .wait | .fault _ => True

@[simp] theorem StepRes.steady_done {s u : State} {f : Program → Program} :
    (StepRes.done f u).Steady s ↔ u.stores = s.stores :=
  Iff.rfl
@[simp] theorem StepRes.steady_past {s u : State} : (StepRes.past u).Steady s ↔ u.stores = s.stores := Iff.rfl
@[simp] theorem StepRes.steady_waitIn {s u : State} : (StepRes.waitIn u).Steady s ↔ u.stores = s.stores := Iff.rfl
@[simp] theorem StepRes.steady_wait {s : State} : StepRes.wait.Steady s := trivial
@[simp] theorem StepRes.steady_fault {s : State} {c : Byte} : (StepRes.fault c).Steady s := trivial

@[simp] theorem VOwn.steady_fault {c : Byte} {a : Word} : (VOwn.fault c a).Steady := trivial
@[simp] theorem VOwn.steady_wait : VOwn.wait.Steady := trivial
@[simp] theorem VOwn.steady_lanes {v : Lanes} : (VOwn.lanes v).Steady := trivial
@[simp] theorem VOwn.steady_write {w : VWrite} {f : State → State} :
    (VOwn.write w f).Steady ↔ ∀ s : State, (f s).stores = s.stores := Iff.rfl

theorem CoxRes.steady_ite {s : State} {c : Prop} [Decidable c] {a b : CoxRes} (ha : a.Steady s) (hb : b.Steady s) :
    (if c then a else b).Steady s := by
  split
  · exact ha
  · exact hb

@[simp] theorem State.setTile_stores (s : State) (t : TileId) (x : Tile) :
    (State.setTile s t x).stores = s.stores := by rfl

@[simp] theorem State.modTile_stores (s : State) (t : TileId) (f : Tile → Tile) :
    (State.modTile s t f).stores = s.stores := by rfl

@[simp] theorem State.modCox_stores (s : State) (t : TileId) (f : Cox → Cox) :
    (State.modCox s t f).stores = s.stores := by rfl

@[simp] theorem State.modEng_stores (s : State) (t : TileId) (e : Eng) (f : Engine → Engine) :
    (State.modEng s t e f).stores = s.stores := by rfl

@[simp] theorem State.modCrew_stores (s : State) (c : CrewId) (f : Crew → Crew) :
    (State.modCrew s c f).stores = s.stores := by rfl

@[simp] theorem State.modDie_stores (s : State) (d : DieId) (f : Die → Die) :
    (State.modDie s d f).stores = s.stores := by rfl

@[simp] theorem State.modFab_stores (s : State) (f : Fabric → Fabric) : (State.modFab s f).stores = s.stores := by rfl

@[simp] theorem State.modGroup_stores (s : State) (g : Nat) (f : Group → Group) :
    (State.modGroup s g f).stores = s.stores := by rfl

@[simp] theorem State.setExtent_stores (s : State) (e : Nat) (x : Extent) :
    (State.setExtent s e x).stores = s.stores := by rfl

@[simp] theorem State.modHome_stores (s : State) (h : Nat) (f : Home → Home) :
    (State.modHome s h f).stores = s.stores := by rfl

@[simp] theorem State.modLaunch_stores (s : State) (id : BitVec 32) (f : Launch → Launch) :
    (State.modLaunch s id f).stores = s.stores := by rfl

@[simp] theorem State.tick_stores (s : State) (n : Nat) : (State.tick s n).stores = s.stores := by rfl

@[simp] theorem State.engFault_stores (s : State) (t : TileId) (e : Eng) (code : Byte) (reason : Nat) (addr : Word) :
    (State.engFault s t e code reason addr).stores = s.stores := by rfl

@[simp] theorem State.issueM_stores (s : State) (t : TileId) (w : MWord) (f : MState → MState) :
    (State.issueM s t w f).stores = s.stores := by
  simp [State.issueM]

@[simp] theorem State.runM_stores (s : State) (sgbad : Bool) (w : MWord) (f : MState → MState) :
    (State.runM s sgbad w f).stores = s.stores := by
  simp only [State.runM]
  (repeat' split) <;> simp

@[simp] theorem State.settleBanks_stores (s : State) (c : CrewId) :
    (State.settleBanks s c).stores = s.stores := by rfl

@[simp] theorem State.retireM_stores (s : State) (c : CrewId) (k : ArrayCmd) :
    (State.retireM s c k).stores = s.stores := by
  simp only [State.retireM]
  (repeat' split) <;> simp

@[simp] theorem State.landM_stores (s : State) (c : CrewId) (k : ArrayCmd) :
    (State.landM s c k).stores = s.stores := by
  simp only [State.landM]
  (repeat' split) <;> simp

@[simp] theorem State.startReplay_stores (s : State) (c : CrewId) (lane : Fin 4) (w : ReplayWindow) (code : Byte) :
    (State.startReplay s c lane w code).stores = s.stores := by rfl

@[simp] theorem State.replayNext_stores (s : State) (t : TileId) : (State.replayNext s t).stores = s.stores := by
  simp only [State.replayNext]
  (repeat' split) <;> simp

@[simp] theorem State.endReplay_stores (s : State) (t : TileId) : (State.endReplay s t).stores = s.stores := by rfl

@[simp] theorem State.beginTurn_stores (s : State) (c : CrewId) (k : Fin 4) (at' : Nat) :
    (State.beginTurn s c k at').stores = s.stores := by rfl

@[simp] theorem State.endTurn_stores (s : State) (c : CrewId) : (State.endTurn s c).stores = s.stores := by
  simp only [State.endTurn]
  (repeat' split) <;> simp

@[simp] theorem State.dropLease_stores (s : State) (t : TileId) : (State.dropLease s t).stores = s.stores := by rfl

@[simp] theorem State.chooseNext_stores (s : State) (c : CrewId) : (State.chooseNext s c).stores = s.stores := by
  simp only [State.chooseNext]
  (repeat' split) <;> simp

@[simp] theorem State.lease_stores (s : State) (t : TileId) (n tb : Nat) :
    (State.lease s t n tb).stores = s.stores := by rfl

@[simp] theorem State.dropCrew_stores (s : State) (t : TileId) : (State.dropCrew s t).stores = s.stores := by rfl

@[simp] theorem State.abandonCrew_stores (s : State) (t : TileId) :
    (State.abandonCrew s t).stores = s.stores := by rfl

@[simp] theorem State.raiseVector_stores (s : State) (v : Nat) : (State.raiseVector s v).stores = s.stores := by rfl

@[simp] theorem State.promote_stores (s : State) (d : DieId) (b : Nat) : (State.promote s d b).stores = s.stores := by
  simp only [State.promote]
  (repeat' split) <;> simp

@[simp] theorem State.applyMc_stores (s : State) (d : DieId) (b : Nat) (e : McEvent) :
    (s.applyMc d b e).stores = s.stores := by
  simp only [State.applyMc]
  split <;> split <;> simp

@[simp] theorem State.applyEvents_stores (s : State) : s.applyEvents.stores = s.stores := by
  refine stores_foldl (fun s k => ?_) _ _
  dsimp only
  split <;> simp

@[simp] theorem State.recordMc_stores (s : State) (d : DieId) (b : Nat) (e : McEvent) :
    (State.recordMc s d b e).stores = s.stores := by rfl

@[simp] theorem State.chargeMc_stores (s : State) (t : TileId) (code : Byte) :
    (State.chargeMc s t code).stores = s.stores := by
  unfold State.chargeMc
  split <;> simp

@[simp] theorem State.containUnit_stores (s : State) (t : TileId) (unit : Nat) (code : Byte) (addr : Option
    (Nat × Word)) :
    (State.containUnit s t unit code addr).stores = s.stores := by
  simp [State.containUnit]

@[simp] theorem State.containTile_stores (s : State) (t : TileId) (code : Byte) (addr : Option (Nat × Word)) :
    (State.containTile s t code addr).stores = s.stores := by
  simp [State.containTile]

@[simp] theorem State.containEight_stores (s : State) (t : TileId) (code : Byte) (addr : Option (Nat × Word)) :
    (State.containEight s t code addr).stores = s.stores := by
  simp [State.containEight]

@[simp] theorem State.correctUnit_stores (s : State) (t : TileId) (unit : Nat) (code : Byte) (detail : Option Nat) :
    (State.correctUnit s t unit code detail).stores = s.stores := by rfl

@[simp] theorem State.correctTile_stores (s : State) (t : TileId) (code : Byte) (detail : Option Nat) :
    (State.correctTile s t code detail).stores = s.stores := by rfl

@[simp] theorem State.recordSite_stores (s : State) (k : Site) (cls : Nat) (code : Byte) (detail : Option Nat) :
    (State.recordSite s k cls code detail).stores = s.stores := by rfl

@[simp] theorem DevMem.dropFlaws_stores (d : DevMem) (p : Site → Bool) : (d.dropFlaws p).stores = d.stores := by
  unfold DevMem.dropFlaws; split <;> rfl

@[simp] theorem DevMem.spoil_stores (d : DevMem) (k : Site) (bit : Option Nat) :
    (d.spoil k bit).stores = d.stores := by rfl

@[simp] theorem DevMem.wrote_stores (d : DevMem) (k : Nat → Site) (l : List Nat) :
    (d.wrote k l).stores = d.stores := by
  unfold DevMem.wrote; split <;> rfl

@[simp] theorem State.wroteSp_stores (s : State) (t : TileId) (bs : List (Nat × Byte × Byte)) :
    (State.wroteSp s t bs).stores = s.stores := by
  simp [State.wroteSp]

@[simp] theorem State.checkSites_stores (s : State) (l : List Site) : (State.checkSites s l).1.stores = s.stores := by
  unfold State.checkSites
  split <;> simp

@[simp] theorem State.goodRead_stores (s : State) (t : TileId) (l : List Site) :
    (State.goodRead s t l).1.stores = s.stores := by
  grind [State.goodRead, State.chargeMc_stores, State.checkSites_stores, State.recordSite_stores]

@[simp] theorem State.coxFault_stores (s : State) (t : TileId) (code : Byte) (info addr : Word) :
    (State.coxFault s t code info addr).stores = s.stores := by rfl

@[simp] theorem State.failLaunch_stores (s : State) (id : BitVec 32) (code : Byte) (tile : Nat) :
    (State.failLaunch s id code tile).stores = s.stores := by rfl

@[simp] theorem State.releaseGangs_stores (s : State) (id : BitVec 32) :
    (State.releaseGangs s id).stores = s.stores := by
  unfold State.releaseGangs
  split <;> simp

@[simp] theorem State.pointDone_stores (s : State) (t : TileId) : (State.pointDone s t).stores = s.stores := by
  unfold State.pointDone
  split <;> simp

@[simp] theorem State.mapFlits_stores (s : State) (f : Flit → Flit) : (State.mapFlits s f).stores = s.stores := by rfl

@[simp] theorem State.voidCp_stores (s : State) (g : Nat) : (State.voidCp s g).stores = s.stores := by rfl

@[simp] theorem State.dropGroups_stores (s : State) (t : TileId) : (State.dropGroups s t).stores = s.stores := by
  simp [State.dropGroups]

@[simp] theorem State.endNow_stores (s : State) (t : TileId) (code : Byte) :
    (State.endNow s t code).stores = s.stores := by
  simp only [State.endNow]
  split <;> simp

@[simp] theorem State.endIteration_stores (s : State) (t : TileId) (code : Byte) :
    (State.endIteration s t code).stores = s.stores := by
  simp only [State.endIteration]
  (repeat' split) <;> simp

@[simp] theorem State.dropClosing_stores (s : State) (t : TileId) :
    (State.dropClosing s t).stores = s.stores := by rfl

@[simp] theorem State.takeTrap_stores (s : State) (t : TileId) (e : Trap) (tpc : Word) :
    (State.takeTrap s t e tpc).stores = s.stores := by
  simp only [State.takeTrap]
  (repeat' split) <;> simp

@[simp] theorem State.returnTrap_stores (s : State) (t : TileId) : (State.returnTrap s t).stores = s.stores := by
  simp only [State.returnTrap]
  (repeat' split) <;> simp

@[simp] theorem State.retireClosing_stores (s : State) (t : TileId) :
    (State.retireClosing s t).stores = s.stores := by rfl

@[simp] theorem State.launchAnswer_stores (s : State) (t : TileId) (pd : Option (Fin 16)) (xd : Fin 64)
    (ok : Bool) (v : Word) :
    (State.launchAnswer s t pd xd ok v).stores = s.stores := by rfl

@[simp] theorem State.refuseLoad_stores (s : State) (t : TileId) (r : Req) (e : Trap) :
    (State.refuseLoad s t r e).stores = s.stores := by rfl

@[simp] theorem State.refuseClosing_stores (s : State) (t : TileId) (r : Req) (e : Trap) :
    (State.refuseClosing s t r e).stores = s.stores := by rfl

@[simp] theorem State.fillTlb_stores (s : State) (t : TileId) (e : TlbEntry) :
    (State.fillTlb s t e).stores = s.stores := by rfl

@[simp] theorem State.checkTlb_stores (s : State) (t : TileId) (va : Nat) :
    (State.checkTlb s t va).stores = s.stores := by
  simp [State.checkTlb]

@[simp] theorem State.touchTlb_stores (s : State) (t : TileId) (va : Nat) :
    (State.touchTlb s t va).stores = s.stores := by
  simp only [State.touchTlb]
  split <;> simp

@[simp] theorem State.dropTlb_stores (s : State) (ext : Nat) : (s.dropTlb ext).stores = s.stores :=
  stores_eq rfl (DevMem.dropFlaws_stores _ _) rfl rfl

@[simp] theorem State.flushTlbs_stores (s : State) : s.flushTlbs.stores = s.stores :=
  stores_eq rfl (DevMem.dropFlaws_stores _ _) rfl rfl

@[simp] theorem State.changeContext_stores (s : State) (n : Nat) : (s.changeContext n).stores = s.stores := by
  simp only [State.changeContext]
  split
  · rfl
  · rw [State.flushTlbs_stores]; rfl

@[simp] theorem DevMem.markRow_stores (d : DevMem) (phys : Nat) : (d.markRow phys).stores = d.stores := by
  unfold DevMem.markRow; split; · rfl
  dsimp only; split <;> rfl

@[simp] theorem State.modHalf_stores (s : State) (t : TileId) (f : Half → Half) :
    (State.modHalf s t f).stores = s.stores := by
  simp only [State.modHalf]
  (repeat' split) <;> simp

@[simp] theorem State.shadowPage_stores (s : State) (t : TileId) (page : Nat) :
    (State.shadowPage s t page).stores = s.stores := by
  simp [State.shadowPage]

@[simp] theorem State.signAppend_stores (s : State) (t : TileId) (writes : List (Nat × Byte)) :
    (State.signAppend s t writes).stores = s.stores := by
  simp [State.signAppend]

@[simp] theorem State.modSegment_stores (s : State) (t : TileId) (id k : Nat) (f : Segment → Segment) :
    (State.modSegment s t id k f).stores = s.stores := by
  simp only [State.modSegment]
  (repeat' split) <;> simp

@[simp] theorem State.bind_stores (s : State) (t : TileId) (id k : Nat) (write : Bool) :
    (State.bind s t id k write).stores = s.stores := by
  simp only [State.bind]
  (repeat' split) <;> simp

@[simp] theorem DevMem.setSignal_stores (d : DevMem) (w : BitVec 17) (v : Word) :
    (d.setSignal w v).stores = d.stores := by rfl

@[simp] theorem DevMem.perform_stores (d : DevMem) (w : BitVec 17) (a : SigAct) :
    (d.perform w a).2.stores = d.stores := by
  unfold DevMem.perform; dsimp only; split <;> split <;> rfl

@[simp] theorem State.signalBad_stores (s : State) (t : Option TileId) (w : BitVec 17) :
    (State.signalBad s t w).stores = s.stores := by
  unfold State.signalBad
  split <;> simp

@[simp] theorem DevMem.healUnit_stores (d : DevMem) (phys : Nat) : (d.healUnit phys).stores = d.stores := by rfl

@[simp] theorem State.healUnits_stores (s : State) (t : TileId) (a b0 b1 : Nat) :
    (s.healUnits t a b0 b1).stores = s.stores := by
  simp only [State.healUnits]
  split
  · rfl
  refine stores_foldl (fun s u => ?_) _ _
  split
  · split
    · simp
    · rfl
  · rfl

@[simp] theorem State.recordHbm_stores (s : State) (stack ch row cls : Nat) (code : Byte) (detail : Option Nat) :
    (State.recordHbm s stack ch row cls code detail).stores = s.stores := by rfl

@[simp] theorem State.retireChannel_stores (s : State) (stack ch row : Nat) :
    (State.retireChannel s stack ch row).stores = s.stores := by rfl

@[simp] theorem State.countChannel_stores (s : State) (stack ch row : Nat) :
    (State.countChannel s stack ch row).stores = s.stores := by
  simp only [State.countChannel]
  split <;> simp

@[simp] theorem State.correctRow_stores (s : State) (stack ch row bit : Nat) :
    (State.correctRow s stack ch row bit).stores = s.stores := by
  simp only [State.correctRow]
  split <;> simp

@[simp] theorem State.repair_stores (s : State) (l : List Site) : (State.repair s l).stores = s.stores := by
  simp [State.repair]

@[simp] theorem State.rebuild_stores (s : State) (stack ch row : Nat) (l : List Site) :
    (State.rebuild s stack ch row l).stores = s.stores := by
  simp [State.rebuild]

@[simp] theorem State.lost_stores (s : State) (t : Option TileId) (stack ch row : Nat) :
    (State.lost s t stack ch row).stores = s.stores := by
  unfold State.lost
  split <;> simp

@[simp] theorem State.readHbm_stores (s : State) (t : Option TileId) (phys n : Nat) (chk : Check) :
    (s.readHbm t phys n chk).1.stores = s.stores := by
  simp only [State.readHbm]
  (repeat' split) <;> simp [apply_ite DevMem.stores, DevMem.stores_iff]

@[simp] theorem State.readParity_stores (s : State) (t : Option TileId) (phys : Nat) (chk : Check) :
    (s.readParity t phys chk).1.stores = s.stores := by
  simp only [State.readParity]
  (repeat' split) <;> simp [DevMem.stores_iff]

@[simp] theorem State.wideError_stores (s : State) (t : Option TileId) (tier : Nat) (l : List Site) :
    (s.wideError t tier l).stores = s.stores := by
  have hd : ∀ d : DevMem, ((l.take 1).foldl (fun d k => d.spoil k none) d).stores = d.stores := fun d =>
    foldl_keeps (p := fun e : DevMem => e.stores = d.stores) (fun e k h => (DevMem.spoil_stores e k none).trans h) rfl
  simp only [State.wideError]
  (repeat' split) <;> simp [apply_ite DevMem.stores]

@[simp] theorem State.checkedRead_stores (s : State) (t : Option TileId) (tier phys n : Nat) (chk : Check) :
    (State.checkedRead s t tier phys n chk).1.stores = s.stores := by
  simp only [State.checkedRead]
  (repeat' split) <;> simp

@[simp] theorem State.checkedChange_stores (s : State) (t : Option TileId) (tier phys n : Nat) (chk : Check) :
    (State.checkedChange s t tier phys n chk).1.stores = s.stores := by
  simp only [State.checkedChange]
  split <;> simp

@[simp] theorem execRowUnitCopyDone_steady (h : HomeId) (s : State) : Steady s (execRowUnitCopyDone h s) := by
  unfold execRowUnitCopyDone
  split <;> simp

@[simp] theorem execRowRemap_steady (h : HomeId) (s : State) : Steady s (execRowRemap h s) := by
  unfold execRowRemap
  split <;> simp

@[simp] theorem execPatrolScrubRead_steady (h : HomeId) (stack : Fin 3) (ch : Fin 64) (chk : Check) (s : State) :
    Steady s (execPatrolScrubRead h stack ch chk s) := by
  simp only [execPatrolScrubRead]
  (repeat' split) <;> simp

@[simp] theorem State.purgeReplicas_stores (s : State) (ext : Nat) :
    (State.purgeReplicas s ext).stores = s.stores := by rfl

@[simp] theorem State.nextEpoch_stores (s : State) (ext : Nat) : (State.nextEpoch s ext).1.stores = s.stores := by
  simp only [State.nextEpoch]
  (repeat' split) <;> simp [DevMem.stores_iff]

@[simp] theorem State.extfree_stores (s : State) (ext : Nat) : (State.extfree s ext).stores = s.stores := by
  simp [State.extfree, DevMem.stores_iff]

@[simp] theorem State.deviceLoad_stores (s : State) (a n : Nat) : (s.deviceLoad a n).1.stores = s.stores :=
  foldl_keeps (p := fun c : State × Bool => c.1.stores = s.stores) (fun c u h => by
    (repeat' split) <;> simp [h]) rfl

@[simp] theorem execMsetrow_steady (tok : Tok) (lo hi : Byte) (s : State) : Steady s (execMsetrow tok lo hi s) := by
  simp [execMsetrow]

@[simp] theorem execMsetrowPart_steady (tok : Tok) (q : Fin 4) (b : BitVec 32) (s : State) :
    Steady s (execMsetrowPart tok q b s) := by
  simp [execMsetrowPart]

@[simp] theorem execMsetcol_steady (tok : Tok) (lo hi : Byte) (s : State) : Steady s (execMsetcol tok lo hi s) := by
  simp [execMsetcol]

@[simp] theorem execMsetcolPart_steady (tok : Tok) (q : Fin 4) (b : BitVec 32) (s : State) :
    Steady s (execMsetcolPart tok q b s) := by
  simp [execMsetcolPart]

@[simp] theorem execMfmt_steady (tok : Tok) (opb : Bool) (fmt : BitVec 32) (s : State) :
    Steady s (execMfmt tok opb fmt s) := by
  simp [execMfmt]

@[simp] theorem execMscale_steady (tok : Tok) (sa sb : Byte) (s : State) : Steady s (execMscale tok sa sb s) := by
  simp [execMscale]

@[simp] theorem State.runMul_stores (s : State) (zero transp tcw : Bool) (bad : Lane → Bool) (o : MmaOp) :
    (State.runMul s zero transp tcw bad o).stores = s.stores := by
  simp [State.runMul]

@[simp] theorem execMma_steady (o : MmaOp) (s : State) : Steady s (execMma o s) := by
  simp [execMma]

@[simp] theorem execMmaz_steady (o : MmaOp) (s : State) : Steady s (execMmaz o s) := by
  simp [execMmaz]

@[simp] theorem execMmat_steady (o : MmaOp) (s : State) : Steady s (execMmat o s) := by
  simp [execMmat]

@[simp] theorem execMtcw_steady (o : MmaOp) (s : State) : Steady s (execMtcw o s) := by
  simp [execMtcw]

@[simp] theorem execMacz_steady (tok : Tok) (bank : Fin 32) (s : State) : Steady s (execMacz tok bank s) := by
  simp [execMacz]

@[simp] theorem execMtile_steady (tok : Tok) (bank : Fin 32) (count1 : Fin 4) (s : State) :
    Steady s (execMtile tok bank count1 s) := by
  simp [execMtile]

@[simp] theorem execMcommit_steady (tok : Tok) (s : State) : Steady s (execMcommit tok s) := by
  simp only [execMcommit]
  split <;> simp

@[simp] theorem execMend_steady (tok : Tok) (s : State) : Steady s (execMend tok s) := by
  simp only [execMend]
  split <;> simp

@[simp] theorem execLeaseTurnEnd_steady (c : CrewId) (s : State) : Steady s (execLeaseTurnEnd c s) := by
  unfold execLeaseTurnEnd
  split <;> simp

@[simp] theorem execLeaseGrant_steady (c : CrewId) (s : State) : Steady s (execLeaseGrant c s) := by
  unfold execLeaseGrant
  split <;> simp

@[simp] theorem execLastReadCycleEnd_steady (c : CrewId) (s : State) : Steady s (execLastReadCycleEnd c s) := by
  simp only [execLastReadCycleEnd]
  (repeat' split) <;> simp

@[simp] theorem State.containCmd_stores (s : State) (c : CrewId) (k : ArrayCmd) (code : Byte) :
    (State.containCmd s c k code).stores = s.stores := by
  simp [State.containCmd]

@[simp] theorem State.uncorrectable_stores (s : State) (c : CrewId) (k : ArrayCmd) (code : Byte) :
    (State.uncorrectable s c k code).stores = s.stores := by
  simp only [State.uncorrectable]
  (repeat' split) <;> simp

@[simp] theorem execMWritesLand_steady (c : CrewId) (chk : Check) (s : State) :
    Steady s (execMWritesLand c chk s) := by
  simp only [execMWritesLand]
  (repeat' split) <;> simp

@[simp] theorem execBatchRetire_steady (t : TileId) (s : State) : Steady s (execBatchRetire t s) := by
  simp only [execBatchRetire]
  (repeat' split) <;> simp

@[simp] theorem execReplayEnd_steady (t : TileId) (s : State) : Steady s (execReplayEnd t s) := by
  unfold execReplayEnd
  split <;> simp

theorem State.runCox_stores {s : State} {g : CGuard} {srcs : List COp} {k : List Word → State → CoxRes}
    (h : ∀ v u, u.stores = s.stores → (k v u).Steady s) : (s.runCox g srcs k).stores = s.stores := by
  simp only [State.runCox]
  split; · simp
  split
  · simp
  · rfl
  split; · simp
  split; · simp
  have hk := h ((s.cox s.curTile).values srcs ((s.cox s.curTile).popped (popCount srcs)))
    (s.modCox s.curTile fun c => c.step s.gtime (popCount srcs)) (State.modCox_stores ..)
  split <;> simp_all

theorem State.runClosing_stores {s : State} {g : CGuard} {srcs : List COp} {k : List Word → State → CoxRes}
    (h : ∀ v u, u.stores = s.stores → (k v u).Steady s) : (s.runClosing g srcs k).stores = s.stores := by
  simp only [State.runClosing]
  split
  · simp
  · exact State.runCox_stores fun v u hu => h v _ (by simpa using hu)

theorem State.readsOwn_steady {s u : State} {a n : Nat} {k : State → CoxRes} (hu : u.stores = s.stores)
    (h : ∀ u, u.stores = s.stores → (k u).Steady s) : (s.readsOwn u a n k).Steady s := by
  unfold State.readsOwn
  have hg := State.goodRead_stores u s.curTile (spSites s.curTile a n)
  split
  · exact h _ (by simp_all)
  · simp

@[simp] theorem State.retireAt_stores (s : State) (due : Nat) : (State.retireAt s due).stores = s.stores := by rfl

@[simp] theorem State.sendX_stores (s : State) (d : Fin 64) (v : Word) (l : Nat) :
    (State.sendX s d v l).stores = s.stores := by rfl

@[simp] theorem State.sendP_stores (s : State) (d : Fin 16) (b : Bool) (l : Nat) :
    (State.sendP s d b l).stores = s.stores := by rfl

@[simp] theorem State.request_stores (s : State) (slot closing : Bool) (pc : Word) (act : ReqAct) :
    (State.request s slot closing pc act).stores = s.stores := by rfl

@[simp] theorem State.longLatency_stores (s : State) (repeatable closing : Bool) (pc : Word) (act : ReqAct) :
    (State.longLatency s repeatable closing pc act).stores = s.stores := by rfl

@[simp] theorem State.alu3_stores (s : State) (o : Alu3) (l : Nat) (f : Word → Word → Word) :
    (State.alu3 s o l f).stores = s.stores := State.runCox_stores fun v u hu => by simp [hu]

@[simp] theorem State.alu1_stores (s : State) (g : CGuard) (d : Fin 64) (a : Src) (f : Word → Word) :
    (State.alu1 s g d a f).stores = s.stores := State.runCox_stores fun v u hu => by simp [hu]

@[simp] theorem execAdd_steady (o : Alu3) (s : State) : Steady s (execAdd o s) := by
  simp [execAdd]

@[simp] theorem execSub_steady (o : Alu3) (s : State) : Steady s (execSub o s) := by
  simp [execSub]

@[simp] theorem execMul_steady (o : Alu3) (s : State) : Steady s (execMul o s) := by
  simp [execMul]

@[simp] theorem execMulh_steady (o : Alu3) (s : State) : Steady s (execMulh o s) := by
  simp [execMulh]

@[simp] theorem execMulhn_steady (o : Alu3) (s : State) : Steady s (execMulhn o s) := by
  simp [execMulhn]

@[simp] theorem execDiv_steady (o : Alu3) (s : State) : Steady s (execDiv o s) := by
  simp [execDiv]

@[simp] theorem execDivn_steady (o : Alu3) (s : State) : Steady s (execDivn o s) := by
  simp [execDivn]

@[simp] theorem execRem_steady (o : Alu3) (s : State) : Steady s (execRem o s) := by
  simp [execRem]

@[simp] theorem execRemn_steady (o : Alu3) (s : State) : Steady s (execRemn o s) := by
  simp [execRemn]

@[simp] theorem execAnd_steady (o : Alu3) (s : State) : Steady s (execAnd o s) := by
  simp [execAnd]

@[simp] theorem execOr_steady (o : Alu3) (s : State) : Steady s (execOr o s) := by
  simp [execOr]

@[simp] theorem execXor_steady (o : Alu3) (s : State) : Steady s (execXor o s) := by
  simp [execXor]

@[simp] theorem execAndn_steady (o : Alu3) (s : State) : Steady s (execAndn o s) := by
  simp [execAndn]

@[simp] theorem execShl_steady (o : Alu3) (s : State) : Steady s (execShl o s) := by
  simp [execShl]

@[simp] theorem execShr_steady (o : Alu3) (s : State) : Steady s (execShr o s) := by
  simp [execShr]

@[simp] theorem execSra_steady (o : Alu3) (s : State) : Steady s (execSra o s) := by
  simp [execSra]

@[simp] theorem execRot_steady (o : Alu3) (s : State) : Steady s (execRot o s) := by
  simp [execRot]

@[simp] theorem execMin_steady (o : Alu3) (s : State) : Steady s (execMin o s) := by
  simp [execMin]

@[simp] theorem execMax_steady (o : Alu3) (s : State) : Steady s (execMax o s) := by
  simp [execMax]

@[simp] theorem execMinn_steady (o : Alu3) (s : State) : Steady s (execMinn o s) := by
  simp [execMinn]

@[simp] theorem execMaxn_steady (o : Alu3) (s : State) : Steady s (execMaxn o s) := by
  simp [execMaxn]

@[simp] theorem execClz_steady (o : Alu1) (s : State) : Steady s (execClz o s) := by
  simp [execClz]

@[simp] theorem execCtz_steady (o : Alu1) (s : State) : Steady s (execCtz o s) := by
  simp [execCtz]

@[simp] theorem execPopc_steady (o : Alu1) (s : State) : Steady s (execPopc o s) := by
  simp [execPopc]

@[simp] theorem execSext_steady (o : ExtOp) (s : State) : Steady s (execSext o s) := by
  simp [execSext]

@[simp] theorem execZext_steady (o : ExtOp) (s : State) : Steady s (execZext o s) := by
  simp [execZext]

@[simp] theorem execLi_steady (g : CGuard) (d : Fin 64) (imm : BitVec 32) (s : State) :
    Steady s (execLi g d imm s) := steady_next.2 (State.runCox_stores fun v u hu => by simp [hu])

@[simp] theorem execLih_steady (o : LihOp) (s : State) :
    Steady s (execLih o s) := steady_next.2 (State.runCox_stores fun v u hu => by simp [hu])

@[simp] theorem execSel_steady (o : SelOp) (s : State) :
    Steady s (execSel o s) := steady_next.2 (State.runCox_stores fun v u hu => by simp [hu])

@[simp] theorem execCmp_steady (o : CmpOp) (s : State) :
    Steady s (execCmp o s) := steady_next.2 (State.runCox_stores fun v u hu => by simp [hu])

@[simp] theorem execPlog_steady (o : PlogOp) (s : State) :
    Steady s (execPlog o s) := steady_next.2 (State.runCox_stores fun v u hu => by simp [hu])

@[simp] theorem execPmovPP_steady (g : CGuard) (d a : Fin 16) (s : State) :
    Steady s (execPmovPP g d a s) := steady_next.2 (State.runCox_stores fun v u hu => by simp [hu])

@[simp] theorem execPmovPX_steady (g : CGuard) (d : Fin 16) (a : Src) (s : State) :
    Steady s (execPmovPX g d a s) := steady_next.2 (State.runCox_stores fun v u hu => by simp [hu])

@[simp] theorem execPmovXP_steady (g : CGuard) (d : Fin 64) (a : Fin 16) (s : State) :
    Steady s (execPmovXP g d a s) := steady_next.2 (State.runCox_stores fun v u hu => by simp [hu])

@[simp] theorem execPmovXPall_steady (g : CGuard) (d : Fin 64) (s : State) :
    Steady s (execPmovXPall g d s) := steady_next.2 (State.runCox_stores fun v u hu => by simp [hu])

@[simp] theorem execPmovPallX_steady (g : CGuard) (a : Fin 64) (s : State) :
    Steady s (execPmovPallX g a s) := steady_next.2 (State.runCox_stores fun v u hu => by simp [hu])

@[simp] theorem execNop_steady (g : CGuard) (s : State) :
    Steady s (execNop g s) := steady_next.2 (State.runCox_stores fun v u hu => by simp [hu])

@[simp] theorem execHalt_steady (g : CGuard) (s : State) :
    Steady s (execHalt g s) := steady_next.2 (State.runCox_stores fun v u hu => by simp [hu])

@[simp] theorem execWaitcyc_steady (g : CGuard) (a : Src) (s : State) :
    Steady s (execWaitcyc g a s) := steady_next.2 (State.runCox_stores fun v u hu => by simp [hu])

@[simp] theorem execWaitcycUntil_steady (g : CGuard) (a : Src) (s : State) :
    Steady s (execWaitcycUntil g a s) := steady_next.2 (State.runCox_stores fun v u hu => by simp [hu])

@[simp] theorem State.loadLocal_stores (s : State) (off : Nat) (ty : MemTy) (dst : LoadDst) :
    (State.loadLocal s off ty dst).stores = s.stores := by rfl

@[simp] theorem execLd_steady (o : MemOp) (d : Fin 64) (s : State) : Steady s (execLd o d s) := by
  refine steady_next.2 (State.runCox_stores fun v u hu => ?_)
  dsimp only
  (repeat' split) <;> simp [hu]

@[simp] theorem execLdFifo_steady (o : MemOp) (s : State) : Steady s (execLdFifo o s) := by
  refine steady_next.2 (State.runCox_stores fun v u hu => ?_)
  dsimp only
  (repeat' split) <;> simp [hu]

@[simp] theorem State.mcJoin_stores (s : State) (t : TileId) (g : McGranule) :
    (State.mcJoin s t g).stores = s.stores := by
  unfold State.mcJoin
  split <;> simp

@[simp] theorem execSt_steady (o : MemOp) (b : XRf) (s : State) : Steady s (execSt o b s) := by
  refine steady_next.2 (State.runCox_stores fun v u hu => ?_)
  dsimp only
  (repeat' split) <;> simp [hu]

@[simp] theorem State.atomic_stores (s : State) (g : CGuard) (a : Fin 64) (off : BitVec 32) (signed : Bool)
    (op : SatOp) (b : XRf) (extra : List COp) :
    (State.atomic s g a off signed op b extra).stores = s.stores := by
  refine State.runClosing_stores fun v u hu => ?_
  dsimp only
  (repeat' split) <;> simp [hu]

@[simp] theorem execStAtomic_steady (g : CGuard) (a : Fin 64) (off : BitVec 32) (signed : Bool) (op : AtomOp)
    (b : XRf) (s : State) :
    Steady s (execStAtomic g a off signed op b s) := by
  simp [execStAtomic]

@[simp] theorem execStCas_steady (g : CGuard) (a : Fin 64) (off : BitVec 32) (signed : Bool) (b : XRf)
    (c : Fin 64) (s : State) :
    Steady s (execStCas g a off signed b c s) := by
  simp [execStCas]

@[simp] theorem State.sendFlit_stores (s : State) (src dst : Nat) (c : Cls) (m : Msg) (timed : Bool) :
    (State.sendFlit s src dst c m timed).stores = s.stores := by rfl

@[simp] theorem State.number_stores (s : State) (d : DieId) (st : Nat) (f : Flit) :
    (State.number s d st f).1.stores = s.stores := by
  unfold State.number
  split <;> simp

@[simp] theorem State.checkFetches_stores (s : State) (t : TileId) (x : Tile) (n : Fin 12) :
    (s.checkFetches t x n).stores = s.stores := by
  simp only [State.checkFetches]
  split
  · rfl
  · exact stores_foldl (fun s j => by grind [State.checkSites_stores, State.modTile_stores]) _ _

theorem State.checkPorts_stores (s : State) (t : TileId) (u : State) :
    (s.checkPorts t u).stores = u.stores ∨ (s.checkPorts t u).stores = s.stores := by
  simp only [State.checkPorts]
  split; · exact .inl rfl
  split
  · exact .inr (by grind [State.goodRead_stores, State.modEng_stores])
  · refine .inl ?_
    rw [stores_foldl fun u n => State.checkFetches_stores u t _ n,
    State.modDev_stores _ fun d => DevMem.dropFlaws_stores d _]
    split <;> rfl

theorem State.ported_stores (s : State) (t : TileId) (u : State) :
    (s.ported t u).stores = u.stores ∨ (s.ported t u).stores = s.stores := by
  have hc := s.checkPorts_stores t u
  simp only [State.ported]
  (repeat' split) <;> simp [hc]

@[simp] theorem State.branchTo_stores (s : State) (target : Word) :
    (State.branchTo s target).stores = s.stores := by rfl

theorem State.runBranch_stores {s : State} {g : CGuard} {srcs : List COp} {k : List Word → Word → State → State}
    (h : ∀ v pc u, u.stores = s.stores → (k v pc u).stores = s.stores) : (s.runBranch g srcs k).stores = s.stores := by
  simp only [State.runBranch]
  split
  · exact State.runCox_stores fun _ _ hu => hu
  · exact State.runCox_stores fun v u hu => h v _ u hu

@[simp] theorem execBr_steady (g : CGuard) (imm : BitVec 32) (s : State) :
    Steady s (execBr g imm s) := steady_next.2 (State.runBranch_stores fun v pc u hu => by simp [hu])

@[simp] theorem execBrl_steady (g : CGuard) (d : Fin 64) (imm : BitVec 32) (s : State) :
    Steady s (execBrl g d imm s) := steady_next.2 (State.runBranch_stores fun v pc u hu => by simp [hu])

@[simp] theorem execJr_steady (g : CGuard) (a : Fin 64) (s : State) :
    Steady s (execJr g a s) := steady_next.2 (State.runBranch_stores fun v pc u hu => by simp [hu])

@[simp] theorem execRet_steady (g : CGuard) (a : Fin 64) (s : State) :
    Steady s (execRet g a s) := steady_next.2 (State.runBranch_stores fun v pc u hu => by simp [hu])

@[simp] theorem execBct_steady (g : CGuard) (a : Fin 64) (imm : BitVec 32) (s : State) :
    Steady s (execBct g a imm s) := by
  refine steady_next.2 (State.runBranch_stores fun v pc u hu => ?_)
  dsimp only
  (repeat' split) <;> simp [hu]

@[simp] theorem execRegion_steady (g : CGuard) (s : State) :
    Steady s (execRegion g s) := steady_next.2 (State.runClosing_stores fun v u hu => by simp [hu])

@[simp] theorem execExec_steady (o : ExecOp) (s : State) : Steady s (execExec o s) := by
  refine steady_next.2 (State.runClosing_stores fun v u hu => ?_)
  dsimp only
  (repeat' split) <;> simp [hu]

@[simp] theorem execWaitq_steady (g : CGuard) (e : Eng) (a : Src) (s : State) : Steady s (execWaitq g e a s) :=
  steady_next.2 (State.runCox_stores fun v u hu => by split <;> simp [hu])

@[simp] theorem execWaitb_steady (g : CGuard) (a : Src) (s : State) : Steady s (execWaitb g a s) :=
  steady_next.2 (State.runCox_stores fun v u hu => by split <;> simp [hu])

@[simp] theorem execQstat_steady (g : CGuard) (d : Fin 64) (e : Option Eng) (s : State) :
    Steady s (execQstat g d e s) := steady_next.2 (State.runCox_stores fun v u hu => by simp [hu])

@[simp] theorem State.unlessHolding_steady {s u : State} {k : CoxRes} (h : k.Steady u) :
    (s.unlessHolding k).Steady u := by
  unfold State.unlessHolding
  split <;> simp [h]

@[simp] theorem State.crewWord_steady {s u v : State} {c : Bool} {a : CrewAct} (h : u.stores = v.stores) :
    (s.crewWord u c a).Steady v := by
  simp [State.crewWord, h]

@[simp] theorem execMlease_steady (g : CGuard) (n : Fin 128) (tb : BitVec 25) (s : State) :
    Steady s (execMlease g n tb s) := steady_next.2 (State.runCox_stores fun v u hu => by simp [hu])

@[simp] theorem execMfree_steady (g : CGuard) (s : State) : Steady s (execMfree g s) :=
  steady_next.2 (State.runCox_stores fun v u hu => State.unlessHolding_steady (by split <;> simp [hu]))

@[simp] theorem numbered_steady {s : State} {n : Word} {f : Fin 32 → Option Byte} {k : Fin 32 → CoxRes} (h :
    ∀ n, (k n).Steady s) :
    (numbered n f k).Steady s := by
  unfold numbered
  split; · simp
  split <;> simp [h]

@[simp] theorem execAcalloc_steady (g : CGuard) (d : Fin 16) (a : XImm) (s : State) :
    Steady s (execAcalloc g d a s) := by
  refine steady_next.2 (State.runClosing_stores fun v u hu => ?_)
  grind [State.crewWord_steady, State.runClosing_stores, State.unlessHolding_steady, numbered_steady]

@[simp] theorem execAcown_steady (g : CGuard) (a b : XImm) (s : State) : Steady s (execAcown g a b s) := by
  refine steady_next.2 (State.runClosing_stores fun v u hu => ?_)
  dsimp only
  (repeat' split) <;> grind [CoxRes.steady_done, CoxRes.steady_waitIn, CoxRes.steady_wait, CoxRes.steady_fault,
    State.crewWord_steady, State.runClosing_stores, State.unlessHolding_steady, numbered_steady]

@[simp] theorem execAcfree_steady (g : CGuard) (a : XImm) (s : State) : Steady s (execAcfree g a s) := by
  refine steady_next.2 (State.runClosing_stores fun v u hu => ?_)
  grind [State.crewWord_steady, State.runClosing_stores, State.unlessHolding_steady, numbered_steady]

@[simp] theorem execOsclaim_steady (g : CGuard) (d : Fin 16) (a : XImm) (s : State) :
    Steady s (execOsclaim g d a s) := by
  refine steady_next.2 (State.runClosing_stores fun v u hu => ?_)
  grind [State.crewWord_steady, State.runClosing_stores, State.unlessHolding_steady, numbered_steady]

@[simp] theorem execOsrel_steady (g : CGuard) (a : XImm) (s : State) : Steady s (execOsrel g a s) := by
  refine steady_next.2 (State.runClosing_stores fun v u hu => ?_)
  grind [State.crewWord_steady, State.runClosing_stores, State.unlessHolding_steady, numbered_steady]

@[simp] theorem execCsrr_steady (g : CGuard) (d : Fin 64) (csr : BitVec 12) (s : State) :
    Steady s (execCsrr g d csr s) := by
  simp only [execCsrr]
  split
  · exact steady_next.2 (State.runClosing_stores fun v u hu => by simp [hu])
  · exact steady_next.2 (State.runCox_stores fun v u hu => by simp [hu])

@[simp] theorem execCsrw_steady (g : CGuard) (csr : BitVec 12) (a : Option XRf) (s : State) :
    Steady s (execCsrw g csr a s) := by
  refine steady_next.2 (State.runCox_stores fun v u hu => ?_)
  dsimp only
  (repeat' split) <;> simp [hu]

@[simp] theorem State.declare_stores (s : State) (t : TileId) (region : Nat) (slot : Fin 16)
    (new : Option MustSave) (pd : Fin 16) :
    (State.declare s t region slot new pd).stores = s.stores := by rfl

@[simp] theorem execTrap_steady (g : CGuard) (imm : BitVec 32) (s : State) :
    Steady s (execTrap g imm s) := steady_next.2 (State.runClosing_stores fun v u hu => by simp [hu])

@[simp] theorem execRft_steady (g : CGuard) (s : State) : Steady s (execRft g s) := by
  refine steady_next.2 (State.runCox_stores fun v u hu => ?_)
  split
  · rw [CoxRes.steady_done, State.returnTrap_stores, hu]
  · simp

@[simp] theorem Chk.then'_steady {s : State} {c : Chk} {k : CoxRes} (h : k.Steady s) : (c.then' k).Steady s := by
  unfold Chk.then'
  split <;> simp [h]

@[simp] theorem State.runLdi_stores (s : State) (o : MemOp) (touch : Bool) :
    (State.runLdi s o touch).stores = s.stores := by
  refine State.runCox_stores fun v u hu => ?_
  dsimp only
  (repeat' split) <;> simp [hu]

@[simp] theorem execLdi_steady (o : MemOp) (s : State) : Steady s (execLdi o s) := by
  simp [execLdi]

@[simp] theorem execLdiTouch_steady (o : MemOp) (_toP : Bool) (s : State) : Steady s (execLdiTouch o _toP s) := by
  simp [execLdiTouch]

@[simp] theorem State.runLds_stores (s : State) (g : CGuard) (a : Fin 64) (seg : Fin 8) (touch : Bool) :
    (State.runLds s g a seg touch).stores = s.stores := by
  refine State.runClosing_stores fun v u hu => ?_
  dsimp only
  (repeat' split) <;> simp [hu]

@[simp] theorem execLds_steady (g : CGuard) (a : Fin 64) (seg : Fin 8) (s : State) :
    Steady s (execLds g a seg s) := by
  simp [execLds]

@[simp] theorem execLdsTouch_steady (g : CGuard) (a : Fin 64) (seg : Fin 8) (_toP : Bool) (s : State) :
    Steady s (execLdsTouch g a seg _toP s) := by
  simp [execLdsTouch]

@[simp] theorem execSts_steady (g : CGuard) (a b : Fin 64) (seg : Fin 8) (s : State) :
    Steady s (execSts g a b seg s) := by
  refine steady_next.2 (State.runClosing_stores fun v u hu => ?_)
  dsimp only
  (repeat' split) <;> simp [hu]

@[simp] theorem execClose_steady (g : CGuard) (a : Fin 64) (seg : Fin 8) (s : State) :
    Steady s (execClose g a seg s) := by
  refine steady_next.2 (State.runClosing_stores fun v u hu => ?_)
  dsimp only
  (repeat' split) <;> simp [hu]

@[simp] theorem execAdda_steady (g : CGuard) (a b c : Fin 64) (ty : AddTy) (s : State) :
    Steady s (execAdda g a b c ty s) := by
  refine steady_next.2 (State.runClosing_stores fun v u hu => ?_)
  dsimp only
  (repeat' split) <;> simp [hu]

@[simp] theorem execRecast_steady (o : RecastOp) (s : State) : Steady s (execRecast o s) := by
  refine steady_next.2 (State.runClosing_stores fun v u hu => ?_)
  dsimp only
  (repeat' split) <;> simp [hu]

@[simp] theorem execExtq_steady (g : CGuard) (a : Fin 64) (seg : Fin 8) (field : Byte) (s : State) :
    Steady s (execExtq g a seg field s) := by
  refine steady_next.2 (State.runCox_stores fun v u hu => ?_)
  dsimp only
  (repeat' split) <;> simp [hu]

@[simp] theorem execExtfree_steady (g : CGuard) (a : Fin 64) (s : State) : Steady s (execExtfree g a s) := by
  refine steady_next.2 (State.runClosing_stores fun v u hu => ?_)
  dsimp only
  (repeat' split) <;> simp [hu]

@[simp] theorem State.issueCmd_stores (s : State) (i : Instr) (tok : Tok) (at' until' : Int) (ends : Bool) :
    (State.issueCmd s i tok at' until' ends).stores = s.stores := by
  simp only [State.issueCmd]
  (repeat' split) <;> simp

@[simp] theorem State.cmdFault_stores (s : State) (t : TileId) (c : PCmd) (code : Byte) (reason addr : Nat)
    (at' : Nat × Nat × Nat) :
    (State.cmdFault s t c code reason addr at').stores = s.stores := by rfl

@[simp] theorem State.cmdHalts_stores (s : State) (t : TileId) (c : PCmd) :
    (State.cmdHalts s t c).stores = s.stores := by rfl

@[simp] theorem State.cmdOver_stores (s : State) (t : TileId) (c : PCmd) :
    (State.cmdOver s t c).stores = s.stores := by rfl

@[simp] theorem State.cmdRuns_stores (s : State) (t : TileId) (c : PCmd) (p : PProgress) :
    (State.cmdRuns s t c p).stores = s.stores := by rfl

@[simp] theorem State.cmdAsk_stores (s : State) (t : TileId) (c : PCmd) (dst : Nat) (cls : Cls) (a : PAsk) :
    (State.cmdAsk s t c dst cls a).stores = s.stores := by rfl

@[simp] theorem State.cmdSignal_stores (s : State) (t : TileId) (c : PCmd) (w : BitVec 17) (a : SigAct) :
    (State.cmdSignal s t c w a).stores = s.stores := by rfl

@[simp] theorem State.cmdAnswered_stores (s : State) (t : TileId) (c : PCmd) :
    (State.cmdAnswered s t c).stores = s.stores := by rfl

@[simp] theorem State.claimBytes_stores (s : State) (t : TileId) (order : Nat) (key : Nat → Nat) (bs : List
    (Nat × Byte × Byte)) :
    (State.claimBytes s t order key bs).1.stores = s.stores := by rfl

@[simp] theorem State.flies_stores (s : State) (t : TileId) (w : PWrite) :
    (State.flies s t w).stores = s.stores := by rfl

@[simp] theorem State.runElem_stores (s : State) (t : TileId) (c : PCmd) (k : PKind) (bytes : List Byte)
    (ea ordinal row done : Nat) (runs : Bool) :
    (State.runElem s t c k bytes ea ordinal row done runs).stores = s.stores := by
  simp only [State.runElem]
  (repeat' split) <;> simp

@[simp] theorem State.beginElem_stores (s : State) (t : TileId) (c : PCmd) (k : PKind) (bytes : List Byte)
    (ea ordinal row done : Nat) :
    (State.beginElem s t c k bytes ea ordinal row done).stores = s.stores := by
  grind [State.beginElem, State.bind_stores, State.cmdAnswered_stores, State.cmdFault_stores, State.cmdHalts_stores,
    State.cmdRuns_stores, State.cmdSignal_stores, State.goodRead_stores, State.runElem_stores]

@[simp] theorem State.beginSeal_stores (s : State) (t : TileId) (c : PCmd) :
    (State.beginSeal s t c).stores = s.stores := by
  simp only [State.beginSeal]
  (repeat' split) <;> simp

@[simp] theorem State.sealCome_stores (s : State) (t : TileId) (c : PCmd) (p : PProgress) :
    (State.sealCome s t c p).stores = s.stores := by
  simp only [State.sealCome]
  split <;> simp

@[simp] theorem State.startCmd_stores (s : State) (t : TileId) (c : PCmd) :
    (State.startCmd s t c).stores = s.stores := by
  grind [State.startCmd, State.beginElem_stores, State.beginSeal_stores, State.cmdFault_stores,
    State.cmdHalts_stores, State.cmdOver_stores, State.goodRead_stores, State.modTile_stores]

@[simp] theorem execCommandStart_steady (t : TileId) (s : State) : Steady s (execCommandStart t s) := by
  simp only [execCommandStart]
  (repeat' split) <;> simp

@[simp] theorem State.writeAt_stores (s : State) (t : TileId) (c : PCmd) (u : TileId) (w : PWrite) :
    (State.writeAt s t c u w).stores = s.stores := by
  unfold State.writeAt
  split <;> simp

@[simp] theorem State.writeLocal_stores (s : State) (t : TileId) (c : PCmd) (bs : List (Nat × Byte × Byte)) :
    (State.writeLocal s t c bs).stores = s.stores := by
  simp [State.writeLocal]

@[simp] theorem State.writeMulticast_stores (s : State) (t : TileId) (c : PCmd) (bs : List (Nat × Byte × Byte)) :
    (State.writeMulticast s t c bs).stores = s.stores := by
  simp [State.writeMulticast]

@[simp] theorem State.writeDevice_stores (s : State) (t : TileId) (c : PCmd) (back : Nat × Nat) (lo hi : Nat)
    (bs : List (Nat × Byte × Byte)) :
    (State.writeDevice s t c back lo hi bs).stores = s.stores := by
  simp [State.writeDevice]

@[simp] theorem State.sendLate_stores (s : State) (t : TileId) (c : PCmd) (p : PProgress) :
    (State.sendLate s t c p).stores = s.stores := by
  simp [State.sendLate]

@[simp] theorem State.stopUnit_stores (s : State) (t : TileId) (c : PCmd) (p : PProgress) (code : Byte)
    (reason addr : Nat) :
    (State.stopUnit s t c p code reason addr).stores = s.stores := by
  simp only [State.stopUnit]
  (repeat' split) <;> simp

@[simp] theorem State.openUnit_stores (s : State) (t : TileId) (c : PCmd) (k : PKind) (e : Elem) (p : PProgress)
    (pl : Plan) :
    (s.openUnit t c k e p pl).stores = s.stores := by
  unfold State.openUnit
  extract_lets
  (repeat' split) <;> simp

@[simp] theorem State.deferRead_stores (s : State) (t : TileId) (c : PCmd) (p : PProgress) :
    (State.deferRead s t c p).stores = s.stores := by
  unfold State.deferRead
  split <;> simp

@[simp] theorem State.fetchLine_stores (s : State) (t : TileId) (c : PCmd) (k : PKind) (e : Elem) (pl : Plan)
    (p : PProgress) (line : Nat) :
    (State.fetchLine s t c k e pl p line).stores = s.stores := by
  grind [State.fetchLine, State.cmdAsk_stores, State.cmdHalts_stores, State.cmdRuns_stores, State.deferRead_stores,
    State.goodRead_stores, State.modTile_stores]

@[simp] theorem State.writeCells_stores (s : State) (t : TileId) (c : PCmd) (pl : Plan) (u : PUnit) (d : Nat)
    (v : Nat → Val) :
    (State.writeCells s t c pl u d v).stores = s.stores := by
  unfold State.writeCells
  split <;> simp

@[simp] theorem State.writeReduce_stores (s : State) (t : TileId) (c : PCmd) (e : Elem) (pl : Plan)
    (u : PUnit) (d : Nat) (v : Nat → Val) :
    (State.writeReduce s t c e pl u d v).stores = s.stores := by
  simp [State.writeReduce]

@[simp] theorem State.writeUnit_stores (s : State) (t : TileId) (c : PCmd) (k : PKind) (e : Elem)
    (p : PProgress) (pl : Plan) (u : PUnit) :
    (State.writeUnit s t c k e p pl u).stores = s.stores := by
  simp only [State.writeUnit]
  (repeat' split) <;> simp

@[simp] theorem State.joinMulticast_stores (s : State) (t : TileId) (c : PCmd) (p : PProgress) :
    (State.joinMulticast s t c p).stores = s.stores := by
  simp only [State.joinMulticast]
  (repeat' split) <;> simp

@[simp] theorem State.sendMoves_stores (s : State) (t : TileId) (c : PCmd) (write : Bool) (back : Nat × Nat)
    (l : List (Nat × Nat × Nat × Nat × Nat × Nat)) :
    (State.sendMoves s t c write back l).stores = s.stores := by
  simp [State.sendMoves]

@[simp] theorem State.sendUnit_stores (s : State) (t : TileId) (c : PCmd) (k : PKind) (e : Elem)
    (p : PProgress) (pl : Plan) (u : PUnit) (rest : List PUnit) :
    (State.sendUnit s t c k e p pl u rest).stores = s.stores := by
  simp [State.sendUnit]

@[simp] theorem State.moveUnit_stores (s : State) (t : TileId) (c : PCmd) (k : PKind) (e : Elem)
    (p : PProgress) (pl : Plan) (u : PUnit) (rest : List PUnit) :
    (State.moveUnit s t c k e p pl u rest).stores = s.stores := by
  simp only [State.moveUnit]
  (repeat' split) <;> simp

@[simp] theorem State.submitBlock_stores (s : State) (t : TileId) (c : PCmd) (e : Elem) (b : Nat) :
    (State.submitBlock s t c e b).stores = s.stores := by rfl

@[simp] theorem State.elemDone_stores (s : State) (t : TileId) (c : PCmd) (k : PKind) (e : Elem) (p : PProgress) :
    (State.elemDone s t c k e p).stores = s.stores := by
  grind [State.elemDone, State.beginElem_stores, State.bind_stores, State.cmdAnswered_stores, State.cmdHalts_stores,
    State.cmdOver_stores, State.cmdSignal_stores, State.goodRead_stores]

@[simp] theorem State.rowsTurn_stores (s : State) (t : TileId) (c : PCmd) (k0 : PKind) (p : PProgress) :
    (State.rowsTurn s t c k0 p).stores = s.stores := by
  simp only [State.rowsTurn]
  (repeat' split) <;> simp

@[simp] theorem State.elemTurn_stores (s : State) (t : TileId) (c : PCmd) (k0 : PKind) (p : PProgress) :
    (State.elemTurn s t c k0 p).stores = s.stores := by
  simp only [State.elemTurn]
  (repeat' split) <;> simp

@[simp] theorem State.granule_stores (s : State) (t : TileId) (id : Nat) :
    (State.granule s t id).stores = s.stores := by
  simp only [State.granule]
  (repeat' split) <;> simp

@[simp] theorem execTceBlockDone_steady (d : DieId) (s : State) : Steady s (execTceBlockDone d s) := by
  simp only [execTceBlockDone]
  (repeat' split) <;> simp

@[simp] theorem execWsRefreshWindow_steady (_d : DieId) (_g : Fin 16) (s : State) :
    Steady s (execWsRefreshWindow _d _g s) := by
  simp [execWsRefreshWindow]

@[simp] theorem State.landBytes_stores (s : State) (t : TileId) (dest : PTarget) (bs : List (Nat × Byte × Byte)) :
    (State.landBytes s t dest bs).stores = s.stores := by
  unfold State.landBytes
  split <;> simp

@[simp] theorem State.landWrite_stores (s : State) (t : TileId) (w : PWrite) :
    (s.landWrite t w).stores = s.stores := by
  cases w with
  | bytes dest bs => simp [State.landWrite]
  | reduce u op dfmt rm l => grind [State.landWrite, State.goodRead_stores, State.modTile_stores]

@[simp] theorem State.landPortage_stores (s : State) (t : TileId) : (s.landPortage t).stores = s.stores := by
  simp only [State.landPortage]
  rw [stores_foldl fun s w => by split <;> simp, State.modTile_stores]

@[simp] theorem State.enterSections_stores (s : State) (t : TileId) (e : Elem) :
    (s.enterSections t e).stores = s.stores := by
  simp only [State.enterSections]
  split
  · rfl
  · exact stores_foldl (fun s r => by split <;> simp) _ _

@[simp] theorem State.cmdEffects_stores (s : State) (t : TileId) (c : PCmd) :
    (State.cmdEffects s t c).stores = s.stores := by
  simp only [State.cmdEffects]
  (repeat' split) <;> simp

@[simp] theorem execCommandRetire_steady (t : TileId) (id : Nat) (s : State) :
    Steady s (execCommandRetire t id s) := by
  simp only [execCommandRetire]
  (repeat' split) <;> simp

@[simp] theorem execCnop_steady (tok : Tok) (timed : Option (BitVec 32)) (s : State) :
    Steady s (execCnop tok timed s) := by
  simp [execCnop]

@[simp] theorem execCpy_steady (o : ElemOp) (s : State) : Steady s (execCpy o s) := by
  simp [execCpy]

@[simp] theorem execCpyt_steady (o : ElemOp) (d : BitVec 32) (s : State) : Steady s (execCpyt o d s) := by
  simp [execCpyt]

@[simp] theorem execCpyr_steady (o : ElemOp) (s : State) : Steady s (execCpyr o s) := by
  simp [execCpyr]

@[simp] theorem execCfill_steady (o : ElemOp) (s : State) : Steady s (execCfill o s) := by
  simp [execCfill]

@[simp] theorem execCgath_steady (o : ElemOp) (s : State) : Steady s (execCgath o s) := by
  simp [execCgath]

@[simp] theorem execCscat_steady (o : ElemOp) (s : State) : Steady s (execCscat o s) := by
  simp [execCscat]

@[simp] theorem execCsg_steady (o : ElemOp) (s : State) : Steady s (execCsg o s) := by
  simp [execCsg]

@[simp] theorem execCseal_steady (o : ElemOp) (s : State) : Steady s (execCseal o s) := by
  simp [execCseal]

@[simp] theorem execCopld_steady (o : ElemOp) (fin : Bool) (s : State) : Steady s (execCopld o fin s) := by
  simp [execCopld]

@[simp] theorem execCovl_steady (o : ElemOp) (s : State) : Steady s (execCovl o s) := by
  simp [execCovl]

@[simp] theorem execCwtx_steady (o : ElemOp) (s : State) : Steady s (execCwtx o s) := by
  simp [execCwtx]

@[simp] theorem execCtce_steady (o : ElemOp) (s : State) : Steady s (execCtce o s) := by
  simp [execCtce]

@[simp] theorem execCsig_steady (o : CSigOp) (s : State) : Steady s (execCsig o s) := by
  simp [execCsig]

@[simp] theorem execCwaitSignal_steady (o : CSigOp) (s : State) : Steady s (execCwaitSignal o s) := by
  simp [execCwaitSignal]

@[simp] theorem execCwaitTime_steady (tok : Tok) (t : BitVec 32) (s : State) : Steady s (execCwaitTime tok t s) := by
  simp [execCwaitTime]

@[simp] theorem execCprb_steady (o : ElemOp) (s : State) : Steady s (execCprb o s) := by
  simp [execCprb]

@[simp] theorem execCend_steady (tok : Tok) (s : State) : Steady s (execCend tok s) := by
  simp [execCend]

@[simp] theorem State.arriveHead_stores (s : State) (t : TileId) (e : Eng) (n : Entry) :
    (State.arriveHead s t e n).stores = s.stores := by
  simp only [State.arriveHead]
  (repeat' split) <;> simp

@[simp] theorem execEntryHead_steady (t : TileId) (e : Eng) (s : State) : Steady s (execEntryHead t e s) := by
  have hg := State.goodRead_stores s t
  simp only [execEntryHead]
  (repeat' split) <;> grind [steady_next, State.arriveHead_stores, State.modEng_stores]

@[simp] theorem execEntryStart_steady (t : TileId) (e : Eng) (s : State) : Steady s (execEntryStart t e s) := by
  simp only [execEntryStart]
  (repeat' split) <;> simp

@[simp] theorem execEntryRetire_steady (t : TileId) (e : Eng) (s : State) : Steady s (execEntryRetire t e s) := by
  simp only [execEntryRetire]
  (repeat' split) <;> simp

@[simp] theorem execTokenWaitEnd_steady (t : TileId) (e : Eng) (s : State) : Steady s (execTokenWaitEnd t e s) := by
  simp only [execTokenWaitEnd]
  (repeat' split) <;> exact steady_next.2 rfl

@[simp] theorem execEntryBudgetExpiry_steady (t : TileId) (e : Eng) (s : State) :
    Steady s (execEntryBudgetExpiry t e s) := by
  simp only [execEntryBudgetExpiry]
  (repeat' split) <;> simp

@[simp] theorem execIterationBudgetExpiry_steady (t : TileId) (s : State) :
    Steady s (execIterationBudgetExpiry t s) := by
  simp only [execIterationBudgetExpiry]
  split <;> simp

@[simp] theorem State.landCox_stores (s : State) (t : TileId) (l : CoxLand) :
    (State.landCox s t l).stores = s.stores := by
  grind [State.landCox, State.declare_stores, State.goodRead_stores, State.modCox_stores, State.modTile_stores,
    State.retireClosing_stores, State.wroteSp_stores]

@[simp] theorem execCoxWriteLand_steady (t : TileId) (s : State) : Steady s (execCoxWriteLand t s) := by
  simp only [execCoxWriteLand]
  (repeat' split) <;> simp

@[simp] theorem State.enterElement_stores (s : State) (t : TileId) (id : Nat) (v : Word) :
    (State.enterElement s t id v).stores = s.stores := by
  simp only [State.enterElement]
  split <;> simp

@[simp] theorem execRfElementArrive_steady (t : TileId) (s : State) : Steady s (execRfElementArrive t s) := by
  unfold execRfElementArrive
  split <;> simp

@[simp] theorem execTrapEntry_steady (t : TileId) (s : State) : Steady s (execTrapEntry t s) := by
  unfold execTrapEntry
  split <;> simp

@[simp] theorem execIterationEnd_steady (t : TileId) (s : State) : Steady s (execIterationEnd t s) := by
  simp only [execIterationEnd]
  (repeat' split) <;> simp

@[simp] theorem execTintWrite_steady (t : TileId) (v : Word) (s : State) : Steady s (execTintWrite t v s) := by
  unfold execTintWrite
  split <;> simp

@[simp] theorem execTdbgResume_steady (t : TileId) (s : State) : Steady s (execTdbgResume t s) := by
  unfold execTdbgResume
  split <;> simp

@[simp] theorem State.fillSlot_stores (s : State) (d : DieId) (st : Nat) (f : Flit) :
    (State.fillSlot s d st f).stores = s.stores := by rfl

@[simp] theorem execFlitInject_steady (d : DieId) (st : Fin 132) (s : State) : Steady s (execFlitInject d st s) := by
  simp only [execFlitInject]
  (repeat' split) <;> simp

@[simp] theorem State.answered_stores (s : State) (t : TileId) (r : Req) (fault : Option Trap) :
    (State.answered s t r fault).stores = s.stores := by
  simp only [State.answered]
  (repeat' split) <;> simp

@[simp] theorem State.modProgram_stores (s : State) (g : Nat) (f : Program → Program) :
    (State.modProgram s g f).stores = s.stores := by rfl

@[simp] theorem State.receive_stores (s : State) (m : Msg) : (s.receive m).stores = s.stores := by
  unfold State.receive
  (repeat' split) <;> simp

@[simp] theorem State.enqueue_stores (s : State) (d : DieId) (st : Nat) (f : Flit) :
    (State.enqueue s d st f).stores = s.stores := by rfl

@[simp] theorem State.deliverFlit_stores (s : State) (d : DieId) (st : Nat) (f : Flit) :
    (State.deliverFlit s d st f).stores = s.stores := by
  simp only [State.deliverFlit]
  (repeat' split) <;> simp

@[simp] theorem State.lostFlit_stores (s : State) (d : DieId) (st : Nat) (f : Flit) :
    (State.lostFlit s d st f).stores = s.stores := by
  simp only [State.lostFlit]
  (repeat' split) <;> simp

@[simp] theorem execFlitArrive_steady (d : DieId) (st : Fin 132) (s : State) : Steady s (execFlitArrive d st s) := by
  simp only [execFlitArrive]
  (repeat' split) <;> simp

@[simp] theorem State.serveWindow_stores (s : State) (atomic : Bool) (d : DieId) (st : Nat) :
    (s.serveWindow atomic d st).stores = s.stores := by
  simp only [State.serveWindow]
  (repeat' split) <;> grind [State.goodRead_stores, State.sendFlit_stores, State.modTile_stores, State.modDie_stores]

@[simp] theorem State.landWindow_stores (s : State) (t : TileId) : (State.landWindow s t).stores = s.stores := by
  simp [State.landWindow]

@[simp] theorem execMulticastDepart_steady (t : TileId) (s : State) : Steady s (execMulticastDepart t s) := by
  simp only [execMulticastDepart]
  (repeat' split) <;> simp

@[simp] theorem execMulticastLand_steady (t : TileId) (s : State) : Steady s (execMulticastLand t s) := by
  simp only [execMulticastLand]
  (repeat' split) <;> simp

@[simp] theorem State.sendPacket_stores (s : State) (dst : Byte) (body : PacketBody) (from' : Option
    (TileId × Req)) (group : Option Nat) :
    (State.sendPacket s dst body from' group).stores = s.stores := by
  unfold State.sendPacket
  split <;> simp

@[simp] theorem State.signalAt_stores (s : State) (src : Nat) (t : Option TileId) (pkg : Byte) (a : SigAccess)
    (back : Option Teller) :
    (State.signalAt s src t pkg a back).stores = s.stores := by
  unfold State.signalAt
  split <;> simp

@[simp] theorem execAckArrive_steady (pkg : Byte) (seq : BitVec 32) (val : Option Word) (s : State) :
    Steady s (execAckArrive pkg seq val s) := by
  simp only [execAckArrive]
  (repeat' split) <;> simp

@[simp] theorem execResendTimeout_steady (pkg : Byte) (seq : BitVec 32) (s : State) :
    Steady s (execResendTimeout pkg seq s) := by
  unfold execResendTimeout
  split <;> simp

@[simp] theorem execFlagDepart_steady (pkg : Byte) (s : State) : Steady s (execFlagDepart pkg s) := by
  simp only [execFlagDepart]
  (repeat' split) <;> simp

@[simp] theorem execLinkCrcRetry_steady (port : CpId) (s : State) : Steady s (execLinkCrcRetry port s) := by
  simp [execLinkCrcRetry]

@[simp] theorem execGtimeBoundLoss_steady (s : State) : Steady s (execGtimeBoundLoss s) := by
  simp [execGtimeBoundLoss]

@[simp] theorem State.ldiBytes_stores (s : State) (h : HomeId) (t : TileId) (va n : Nat) (chk : Check) :
    (State.ldiBytes s h t va n chk).1.stores = s.stores := by
  simp only [State.ldiBytes]
  (repeat' split) <;> simp

@[simp] theorem State.replyTo_stores (s : State) (h : HomeId) (t : TileId) (m : Msg) :
    (State.replyTo s h t m).stores = s.stores := by rfl

@[simp] theorem State.accept_stores (s : State) (h : HomeId) (t : TileId) (r : Req) :
    (State.accept s h t r).stores = s.stores := by rfl

@[simp] theorem State.refuse_stores (s : State) (h : HomeId) (t : TileId) (r : Req) (code : Byte)
    (reason : Nat) (addr : Word) :
    (State.refuse s h t r code reason addr).stores = s.stores := by rfl

theorem State.afterHome_keeps {p : State → Prop} {s u : State} {h : HomeId} {t : TileId} {r : Req} {chk : Chk} {k : Unit → State}
    (hk : p (k ())) (hr : ∀ c n a, p (s.refuse h t r c n a)) (hu : s.afterHome h t r chk k = some u) : p u := by
  unfold State.afterHome at hu
  split at hu <;> cases hu
  · exact hk
  · exact hr ..

@[simp] theorem State.checkCells_stores (s : State) (t : Option TileId) (e : Extent) (is : List Nat) (chk : Check) :
    (s.checkCells t e is chk).1.stores = s.stores :=
  foldl_keeps (p := fun c : State × Bool => c.1.stores = s.stores) (fun c u h => by split <;> simp [h]) rfl

theorem State.serveLdi_stores (s : State) (h : HomeId) (t : TileId) (r : Req) (va : Nat) (ty : MemTy) (chk : Check) :
    ∀ u, State.serveLdi s h t r va ty chk = some u → u.stores = s.stores := by
  grind [State.serveLdi, State.ldiBytes_stores, State.refuse_stores, State.replyTo_stores]

theorem State.serveLds_stores {s u : State} {h : HomeId} {t : TileId} {r : Req} {ext seg : Nat} {touch : Bool} {chk : Check}
    (hu : s.serveLds h t r ext seg touch chk = some u) : u.stores = s.stores := by
  refine State.afterHome_keeps (p := fun u => u.stores = s.stores) ?_ (by simp) hu
  dsimp only
  (repeat' split) <;> simp

@[simp] theorem State.completeRow_stores (s : State) (t : Option TileId) (e : Extent) (g : Segment) (chk : Check) :
    (s.completeRow t e g chk).1.stores = s.stores := by
  simp only [State.completeRow]
  split; · rfl
  split; · rfl
  split; · rfl
  exact foldl_keeps (p := fun c : State × Bool => c.1.stores = s.stores) (fun c a h => by split <;> simp [h]) (by simp)

theorem State.serveClose_stores {s u : State} {h : HomeId} {t : TileId} {r : Req} {ext seg : Nat} {chk : Check}
    (hu : s.serveClose h t r ext seg chk = some u) : u.stores = s.stores := by
  refine State.afterHome_keeps (p := fun u => u.stores = s.stores) ?_ (by simp) hu
  dsimp only
  (repeat' split) <;> simp

theorem State.serveAdda_stores {s u : State} {h : HomeId} {t : TileId} {r : Req} {ext i : Nat} {v : Word} {ty : AddTy} {chk : Check}
    (hu : s.serveAdda h t r ext i v ty chk = some u) : u.stores = s.stores := by
  refine State.afterHome_keeps (p := fun u => u.stores = s.stores) ?_ (by simp) hu
  dsimp only
  (repeat' split) <;> simp

@[simp] theorem State.checkSignal_stores (s : State) (w : BitVec 17) (chk : Check) :
    (State.checkSignal s w chk).stores = s.stores := by
  simp only [State.checkSignal]
  (repeat' split) <;> simp [DevMem.stores_iff]

theorem State.perform_stores (s : State) (w : BitVec 17) (a : SigAct) :
    (s.modDev fun _ => (s.dev.perform w a).2).stores = s.stores := stores_eq rfl (DevMem.perform_stores ..) rfl rfl

@[simp] theorem State.serveSignal_stores (s : State) (h : HomeId) (t : TileId) (r : Req) (a : SigAccess) (chk : Check) :
    (s.serveSignal h t r a chk).stores = s.stores := by
  simp only [State.serveSignal]
  (repeat' split) <;> simp [State.perform_stores]

@[simp] theorem State.performAt_stores (s : State) (t : Option TileId) (w : BitVec 17) (a : SigAct) (chk : Check) :
    (s.performAt t w a chk).1.stores = s.stores := by
  simp only [State.performAt]
  split <;> simp [State.perform_stores]

@[simp] theorem State.bindUse_stores (s : State) (t : TileId) (va : Nat) (use : PUse) (write : Bool) :
    (s.bindUse t va use write).stores = s.stores := by
  simp only [State.bindUse]
  split; · rfl
  split; · rfl
  exact stores_foldl (fun s g => by split <;> simp) _ _

theorem State.askRead_stores (s : State) (h : HomeId) (t : TileId) (c va n : Nat) (use : PUse) (chk : Check) :
    ∀ u, State.askRead s h t c va n use chk = some u → u.stores = s.stores := by
  grind [State.askRead, State.bindUse_stores, State.ldiBytes_stores, State.replyTo_stores]

theorem State.askCells_stores (s : State) (h : HomeId) (t : TileId) (c ext : Nat) (l : List
    (Nat × Int × Bool)) (va : Nat) (back : Nat × Nat) (chk : Check) :
    ∀ u, State.askCells s h t c ext l va back chk = some u → u.stores = s.stores := by
  grind [State.askCells, State.checkCells_stores, State.replyTo_stores, State.setExtent_stores]

theorem State.askMove_stores (s : State) (h : HomeId) (t : TileId) (c : Nat) (write : Bool)
    (ext seg n va bit bits : Nat) (back : Nat × Nat) :
    ∀ u, State.askMove s h t c write ext seg n va bit bits back = some u → u.stores = s.stores := by
  grind [State.askMove, State.healUnits_stores, State.modSegment_stores, State.replyTo_stores]

@[simp] theorem State.portLaunch_stores (s : State) (h : HomeId) (t : TileId) (r : Req) (va : Nat)
    (route : Word) (csig : BitVec 32) :
    (State.portLaunch s h t r va route csig).stores = s.stores := by rfl

theorem State.readLaunch_stores (s : State) (h : HomeId) (t : TileId) (r : Req) (va : Nat) (route : Word)
    (chk : Check) :
    ∀ u, State.readLaunch s h t r va route chk = some u → u.stores = s.stores := by
  grind [State.readLaunch, State.accept_stores, State.checkedRead_stores, State.refuse_stores, State.sendFlit_stores]

theorem pickFirst_sound {β : Type} {f : Flit → Option β} {l : List Flit} {r : β × List Flit}
    (h : pickFirst f l = some r) :
    ∃ a, f a = some r.1 := by
  induction l generalizing r with
  | nil => simp [pickFirst] at h
  | cons a l ih =>
    rw [pickFirst] at h
    split at h
    · rename_i hb
      cases h
      exact ⟨a, hb⟩
    · obtain ⟨q, hq, hr⟩ := Option.map_eq_some_iff.1 h
      subst hr
      exact ih (r := q) hq

/-- What `k` makes of a message that is served, but for the ingress buffer that it has left. -/
theorem State.serveClass_sound {s u : State} {h : HomeId} {c : Cls} {k : Msg → Option State}
    (hu : s.serveClass h c k = some u) :
    ∃ m v, k m = some v ∧ ∃ d f, u = v.modDie d f := by
  simp only [State.serveClass] at hu
  split at hu
  · rename_i v rest hp
    obtain ⟨f, hf⟩ := pickFirst_sound hp
    split at hf
    · cases hu
      exact ⟨_, v, hf, _, _, rfl⟩
    · cases hf
  · cases hu

theorem State.cpRead_stores (s : State) (h : HomeId) (g va n : Nat) (chk : Check) :
    ∀ u, State.cpRead s h g va n chk = some u → u.stores = s.stores := by
  grind [State.cpRead, State.checkedRead_stores, State.sendFlit_stores]

theorem State.recastArrive_stores (s : State) (h : HomeId) (t : TileId) (r : Req) :
    ∀ u, State.recastArrive s h t r = some u → u.stores = s.stores := by
  grind [State.recastArrive, State.accept_stores, State.refuse_stores, State.setExtent_stores]

@[simp] theorem execRecastArrival_steady (h : HomeId) (s : State) : Steady s (execRecastArrival h s) := by
  simp only [execRecastArrival]
  split; · simp
  split
  · rename_i u hu
    obtain ⟨m, v, hv, d, f, rfl⟩ := State.serveClass_sound hu
    split at hv
    · simp [State.recastArrive_stores _ _ _ _ _ hv]
    · cases hv
  · simp

@[simp] theorem State.flipReads_stores (s : State) (e : Extent) (c : Collective) :
    (s.flipReads e c).stores = s.stores := by
  simp only [State.flipReads]
  split
  · simp
  rw [stores_foldl fun s g => stores_foldl (fun s i => ?_) _ _]
  · simp
  (repeat' split) <;> simp [DevMem.stores_iff]

@[simp] theorem State.sendNotices_stores (s : State) (g : Nat) (code : Byte) :
    (s.sendNotices g code).stores = s.stores := by
  simp only [State.sendNotices]
  split
  · rfl
  · exact stores_foldl (fun s k => by split <;> simp) _ _

@[simp] theorem State.endGroup_stores (s : State) (g : Nat) (code : Byte) (step origin : Nat) (remote : Bool) :
    (State.endGroup s g code step origin remote).stores = s.stores := by rfl

@[simp] theorem State.groupFault_stores (s : State) (g : Nat) (code : Byte) (step : Nat) :
    (State.groupFault s g code step).stores = s.stores := by
  unfold State.groupFault
  split <;> simp

@[simp] theorem State.askProgram_stores (s : State) (g : Nat) (p : Program) (l : List (Nat × Nat)) :
    (State.askProgram s g p l).stores = s.stores := by
  simp [State.askProgram]

@[simp] theorem State.loadProgram_stores (s : State) (g : Nat) : (State.loadProgram s g).stores = s.stores := by
  simp only [State.loadProgram]
  (repeat' split) <;> simp

@[simp] theorem State.openGroup_stores (s : State) (t : TileId) (r : GroupRec) (opened : Nat) :
    (State.openGroup s t r opened).stores = s.stores := by rfl

@[simp] theorem execGrpopen_steady (g : CGuard) (a : Fin 64) (s : State) : Steady s (execGrpopen g a s) := by
  refine steady_next.2 (State.runClosing_stores fun _ _ hu =>
    CoxRes.steady_ite CoxRes.steady_fault (CoxRes.steady_ite CoxRes.steady_fault (CoxRes.steady_ite CoxRes.steady_fault
      (State.readsOwn_steady hu fun _ hw => ?_))))
  extract_lets l r
  clear_value r
  split
  · simp
  · split
    · simp
    · rw [CoxRes.steady_done, State.request_stores, hw]

@[simp] theorem execGrpfree_steady (g : CGuard) (a : Fin 64) (s : State) : Steady s (execGrpfree g a s) := by
  refine steady_next.2 (State.runClosing_stores fun v u hu => ?_)
  dsimp only
  (repeat' split) <;> simp [hu]

@[simp] theorem State.logStale_stores (s : State) : (State.logStale s).stores = s.stores := by rfl

theorem State.groupPacket_stores (s : State) (p : Packet) (g gen : Nat) :
    ∀ u, State.groupPacket s p g gen = some u → u.stores = s.stores := by
  grind [State.groupPacket, State.logStale_stores, State.modFab_stores, State.modGroup_stores]

@[simp] theorem execEarlyPacketTimeout_steady (s : State) : Steady s (execEarlyPacketTimeout s) := by
  simp [execEarlyPacketTimeout]

@[simp] theorem execGroupBudgetExpiry_steady (g : Fin 4096) (s : State) : Steady s (execGroupBudgetExpiry g s) := by
  simp only [execGroupBudgetExpiry]
  (repeat' split) <;> simp

@[simp] theorem execErrorNoticeArrival_steady (g : Fin 4096) (s : State) : Steady s (execErrorNoticeArrival g s) := by
  simp only [execErrorNoticeArrival]
  (repeat' split) <;> simp

@[simp] theorem State.askArea_stores (s : State) (g : Nat) (p : Program) (o n : Nat) (f : Lane) :
    (State.askArea s g p o n f).stores = s.stores := by
  simp [State.askArea]

@[simp] theorem State.writeArea_stores (s : State) (g o n : Nat) (f : Lane) (p : Program) (l : List Byte) :
    (State.writeArea s g o n f p l).stores = s.stores := by
  simp [State.writeArea]

theorem State.runStep_stores {s : State} {f : Group → Program → StepRes} (h : ∀ e p, (f e p).Steady s) :
    (s.runStep f).stores = s.stores := by
  simp only [State.runStep]
  split; · rfl
  rename_i p _
  split; · rfl
  have hf := h (s.group s.curGroup) p
  split <;> simp_all

@[simp] theorem State.consume_stores (s : State) (g src : Nat) (rest : List Parcel) :
    (State.consume s g src rest).stores = s.stores := by rfl

@[simp] theorem State.sendMessage_stores (s : State) (g : Nat) (e : Group) (p : Program) (peer : Nat)
    (fmt : Lane) (n : Nat) (l : List Byte) :
    (State.sendMessage s g e p peer fmt n l).stores = s.stores := by
  simp only [State.sendMessage]
  (repeat' split) <;> simp

@[simp] theorem execSend_steady (o : DataStep) (f2 : Fin 4) (s : State) : Steady s (execSend o f2 s) := by
  refine steady_next.2 (State.runStep_stores fun a b => ?_)
  dsimp only
  (repeat' split) <;> simp

@[simp] theorem execRecv_steady (o : DataStep) (s : State) : Steady s (execRecv o s) := by
  refine steady_next.2 (State.runStep_stores fun a b => ?_)
  dsimp only
  (repeat' split) <;> simp

@[simp] theorem execCopy_steady (f1 f2 : Fin 4) (nel1 : BitVec 14) (doff off : BitVec 20) (s : State) :
    Steady s (execCopy f1 f2 nel1 doff off s) := by
  refine steady_next.2 (State.runStep_stores fun a b => ?_)
  dsimp only
  (repeat' split) <;> simp

theorem State.rrs_steady {s u : State} (h : s.stores = u.stores) (e : Group) (p : Program) (o : DataStep) (f2 f3 : Lane)
    (snd : Bool) (dest : Nat) (ys : List Val) (xs : Option (List Val)) : (s.rrs e p o f2 f3 snd dest ys xs).Steady u := by
  simp only [State.rrs]
  (repeat' split) <;> simp [h]

@[simp] theorem execRrs_steady (o : DataStep) (f2 f3 : Fin 4) (snd : Bool) (s : State) :
    Steady s (execRrs o f2 f3 snd s) := by
  refine steady_next.2 (State.runStep_stores fun e p => ?_)
  dsimp only
  split; · simp
  split; · simp
  split; · simp
  split; · simp
  split
  · exact State.rrs_steady rfl ..
  split; · simp
  split; · simp
  exact State.rrs_steady (State.consume_stores ..) ..

@[simp] theorem State.askSignal_stores (s : State) (g : Nat) (p : Program) (w : BitVec 17) :
    (State.askSignal s g p w).stores = s.stores := by rfl

@[simp] theorem execWaitSignalStep_steady (sc : Scope) (word : BitVec 17) (val : BitVec 32) (s : State) :
    Steady s (execWaitSignalStep sc word val s) :=
  steady_next.2 (State.runStep_stores fun e p => by (repeat' split) <;> simp)

@[simp] theorem execWaitTimeStep_steady (val : BitVec 32) (s : State) : Steady s (execWaitTimeStep val s) :=
  steady_next.2 (State.runStep_stores fun e p => by (repeat' split) <;> simp)

@[simp] theorem execWaitAfterT0Step_steady (val : BitVec 32) (s : State) : Steady s (execWaitAfterT0Step val s) :=
  steady_next.2 (State.runStep_stores fun e p => by (repeat' split) <;> simp)

@[simp] theorem execLoop_steady (str : BitVec 20) (cnt1 : BitVec 16) (s : State) :
    Steady s (execLoop str cnt1 s) := by
  refine steady_next.2 (State.runStep_stores fun a b => ?_)
  dsimp only
  (repeat' split) <;> simp

@[simp] theorem execEndl_steady (s : State) : Steady s (execEndl s) := by
  refine steady_next.2 (State.runStep_stores fun a b => ?_)
  dsimp only
  (repeat' split) <;> simp

@[simp] theorem execStepDone_steady (s : State) : Steady s (execStepDone s) := by
  refine steady_next.2 (State.runStep_stores fun a b => ?_)
  dsimp only
  (repeat' split) <;> simp

@[simp] theorem execFence_steady (sc : Scope) (s : State) : Steady s (execFence sc s) := by
  refine steady_next.2 (State.runCox_stores fun v u hu => ?_)
  dsimp only
  (repeat' split) <;> simp [hu]

@[simp] theorem State.sigCheck_steady {s u : State} {o : SigOp} {a : Word} {k : Nat → CoxRes} (h :
    ∀ i, (k i).Steady u) :
    (s.sigCheck o a k).Steady u := by
  simp only [State.sigCheck]
  split <;> simp [h]

@[simp] theorem execSld_steady (o : SigOp) (s : State) : Steady s (execSld o s) := by
  refine steady_next.2 (State.runCox_stores fun v u hu => ?_)
  dsimp only
  (repeat' split) <;> simp [hu]

@[simp] theorem execSst_steady (o : SigOp) (b : XRf) (s : State) :
    Steady s (execSst o b s) := steady_next.2 (State.runClosing_stores fun v u hu => by simp [hu])

@[simp] theorem execSatom_steady (o : SigOp) (ty : AtomTy) (op : SatOp) (b : XRf) (s : State) :
    Steady s (execSatom o ty op b s) := by
  refine steady_next.2 (State.runClosing_stores fun v u hu => ?_)
  dsimp only
  (repeat' split) <;> simp [hu]

@[simp] theorem State.crewAct_stores (s : State) (t : TileId) (r : Req) (a : CrewAct) :
    (State.crewAct s t r a).stores = s.stores := by
  simp only [State.crewAct]
  (repeat' split) <;> simp

@[simp] theorem State.toMember_stores (s : State) (t u : TileId) (c : Cls) (r : Req) :
    (State.toMember s t u c r).stores = s.stores := by rfl

@[simp] theorem State.toHome_stores (s : State) (t : TileId) (r : Req) : (State.toHome s t r).stores = s.stores := by
  unfold State.toHome
  split <;> simp

@[simp] theorem State.toPort_stores (s : State) (t : TileId) (r : Req) :
    (State.toPort s t r).stores = s.stores := by rfl

@[simp] theorem State.signalLeaves_stores (s : State) (t : TileId) (r : Req) (pkg : Byte) (a : SigAccess) :
    (State.signalLeaves s t r pkg a).stores = s.stores := by
  simp only [State.signalLeaves]
  (repeat' split) <;> simp

@[simp] theorem State.launchLeaves_stores (s : State) (t : TileId) (r : Req) (route : Word) :
    (State.launchLeaves s t r route).stores = s.stores := by
  unfold State.launchLeaves
  split <;> simp

@[simp] theorem State.grpopenLeaves_stores (s : State) (t : TileId) (r : Req) (l : List Byte) :
    (State.grpopenLeaves s t r l).stores = s.stores := by
  simp only [State.grpopenLeaves]
  split <;> simp

@[simp] theorem State.grpfreeLeaves_stores (s : State) (t : TileId) (r : Req) (g : Nat) :
    (State.grpfreeLeaves s t r g).stores = s.stores := by
  unfold State.grpfreeLeaves
  split <;> simp

@[simp] theorem State.leave_stores (s : State) (t : TileId) (r : Req) : (State.leave s t r).stores = s.stores := by
  unfold State.leave
  split <;> simp

@[simp] theorem State.checkerMismatch_stores (s : State) (t : TileId) (code : Byte) (odd : Option Nat) :
    (State.checkerMismatch s t code odd).stores = s.stores := by
  simp only [State.checkerMismatch]
  split <;> simp

@[simp] theorem execRequestDepart_steady (t : TileId) (mismatch : Bool) (s : State) :
    Steady s (execRequestDepart t mismatch s) := by
  simp only [execRequestDepart]
  (repeat' split) <;> simp

@[simp] theorem State.performEarlier_stores (s : State) (h : HomeId) (t : TileId) (id : Nat) (w : BitVec 17) :
    (s.performEarlier h t id w).stores = s.stores := by
  simp only [State.performEarlier]
  rw [stores_foldl fun s n => by split <;> simp, State.mapFlits_stores]

@[simp] theorem execScPerform_steady (t : TileId) (s : State) : Steady s (execScPerform t s) := by
  simp only [execScPerform]
  (repeat' split) <;> simp

@[simp] theorem State.announce_stores (s : State) (d : DieId) : (State.announce s d).stores = s.stores := by
  simp only [State.announce]
  (repeat' split) <;> simp

@[simp] theorem State.completeOne_stores (s : State) (l : Launch) (status : Nat) (cause : Byte) (tile : Nat) :
    (State.completeOne s l status cause tile).stores = s.stores := by rfl

@[simp] theorem State.spread_stores (n : Nat) (l : List (BitVec 32 × Byte)) (s : State) :
    (State.spread n l s).stores = s.stores := by
  induction n generalizing l s with
  | zero => rfl
  | succ n ih =>
    match l with
    | [] => rfl
    | (id, c) :: rest =>
      rw [State.spread]
      split <;> simp [ih]

@[simp] theorem State.complete_stores (s : State) (l : Launch) (status : Nat) (cause : Byte) (tile : Nat) :
    (State.complete s l status cause tile).stores = s.stores := by
  unfold State.complete
  split <;> simp

@[simp] theorem State.enterPool_stores (s : State) (d : DieId) (q : QueueId) (bytes : List Byte) (depth : Nat)
    (parent : Option (BitVec 32)) (compsig : Option (BitVec 32)) (share : Share) :
    (State.enterPool s d q bytes depth parent compsig share).1.stores = s.stores := by rfl

theorem State.answerPool_stores (s : State) (d : DieId) (q : PoolReq) :
    ∀ u, State.answerPool s d q = some u → u.stores = s.stores := by
  grind [State.answerPool, State.enterPool_stores, State.launchAnswer_stores, State.refuseClosing_stores]

theorem State.firstAnswer_stores {s u : State} {d : DieId} {l r : List PoolReq} (h : s.firstAnswer d l = some (u, r)) :
    u.stores = s.stores := by
  induction l generalizing r with
  | nil => simp [State.firstAnswer] at h
  | cons q l ih =>
    rw [State.firstAnswer] at h
    split at h
    · rename_i hq
      obtain ⟨rfl, rfl⟩ := h
      exact State.answerPool_stores _ _ _ _ hq
    · obtain ⟨⟨v, r'⟩, hr, he⟩ := Option.map_eq_some_iff.1 h
      cases he
      exact ih hr

@[simp] theorem execPoolEntry_steady (d : DieId) (s : State) : Steady s (execPoolEntry d s) := by
  simp only [execPoolEntry]
  split; · simp
  split
  · rename_i h
    simp [State.firstAnswer_stores h]
  · simp

@[simp] theorem State.runLaunch_stores (s : State) (g : CGuard) (pd : Option (Fin 16)) (xd a b : Fin 64)
    (wait : Bool) (csig : BitVec 32) :
    (State.runLaunch s g pd xd a b wait csig).stores = s.stores := by
  refine State.runClosing_stores fun v u hu => ?_
  dsimp only
  (repeat' split) <;> simp [hu]

@[simp] theorem execLaunch_steady (g : CGuard) (pd : Fin 16) (xd a b : Fin 64) (csig : BitVec 32) (s : State) :
    Steady s (execLaunch g pd xd a b csig s) := by
  simp [execLaunch]

@[simp] theorem execLaunchw_steady (g : CGuard) (xd a b : Fin 64) (csig : BitVec 32) (s : State) :
    Steady s (execLaunchw g xd a b csig s) := by
  simp [execLaunchw]

@[simp] theorem execJoin_steady (g : CGuard) (d : Fin 64) (a : Src) (s : State) : Steady s (execJoin g d a s) := by
  refine steady_next.2 (State.runCox_stores fun v u hu => ?_)
  dsimp only
  (repeat' split) <;> simp [hu]

@[simp] theorem State.peerRecord_stores (s : State) (va : Nat) : (s.peerRecord va).1.stores = s.stores := by
  simp only [State.peerRecord]
  (repeat' split) <;> simp

theorem State.launchPacketIn_stores (s : State) (l : List Byte) :
    ∀ u, State.launchPacketIn s l = some u → u.stores = s.stores := by
  grind [State.launchPacketIn, State.enterPool_stores, State.logStale_stores, State.peerRecord_stores]

@[simp] theorem State.applyFlag_stores (s : State) (p : Packet) (a : SigAccess) :
    (State.applyFlag s p a).stores = s.stores := by rfl

theorem State.commitBody_stores (s : State) (p : Packet) :
    ∀ u, State.commitBody s p = some u → u.stores = s.stores := by
  grind [State.commitBody, State.applyFlag_stores, State.groupPacket_stores, State.launchPacketIn_stores]

@[simp] theorem execPacketArrive_steady (p : Packet) (s : State) : Steady s (execPacketArrive p s) := by
  simp only [execPacketArrive]
  split; · simp
  split
  · simp
  · simp
  split
  · rename_i u hu
    have hc := State.commitBody_stores s p u hu
    split
    · exact steady_next.2 ((State.modFab_stores ..).trans hc)
    · exact steady_next.2 hc
  · simp

@[simp] theorem State.vDone_stores (s : State) (t : TileId) (tok : Tok) (srcs : List VIn) (lat : Nat)
    (code : Byte) (w : VWrite) :
    (State.vDone s t tok srcs lat code w).stores = s.stores := by rfl

@[simp] theorem State.vTo_stores (s : State) (t : TileId) (tok : Tok) (srcs : List VIn) (dst : VOut)
    (mask : Lane) (lat : Nat) (code : Byte) (v : Lanes) :
    (State.vTo s t tok srcs dst mask lat code v).stores = s.stores := by
  simp only [State.vTo]
  (repeat' split) <;> simp

theorem State.runV_stores {s : State} {h : VHead} {srcs : List VIn} {dst : Option VOut} {lat : Nat} {code : Byte}
    {k : Lane → List Lanes → VOwn} (hk : ∀ m v, (k m v).Steady) : (s.runV h srcs dst lat code k).stores = s.stores := by
  simp only [State.runV]
  split; · rfl
  split; · simp
  split; · simp
  split
  · split <;> simp
  have hw := hk ((s.tile s.curTile).v.guard h.g) ((s.tile s.curTile).vValues srcs [])
  split <;> simp_all

@[simp] theorem State.vLanewise_stores (s : State) (h : VHead) (srcs : List VIn) (d : VOut) (lat : Nat)
    (code : Byte) (f : List Nat → Nat) :
    (State.vLanewise s h srcs d lat code f).stores = s.stores := State.runV_stores fun a b => by simp

@[simp] theorem State.vFp_stores (s : State) (h : VHead) (srcs : List VSrc) (d : VDst) (lat : Nat) (ty : FpTy)
    (rm : Rm) (f : List Val → Val) :
    (State.vFp s h srcs d lat ty rm f).stores = s.stores := by
  simp [State.vFp]

@[simp] theorem State.vFp1_stores (s : State) (o : VFp1) (lat : Nat) (f : Val → Nf → Rm → Nat) :
    (State.vFp1 s o lat f).stores = s.stores := by
  simp [State.vFp1]

@[simp] theorem execVadd_steady (o : VFp2) (s : State) : Steady s (execVadd o s) := by
  simp [execVadd]

@[simp] theorem execVsub_steady (o : VFp2) (s : State) : Steady s (execVsub o s) := by
  simp [execVsub]

@[simp] theorem execVmul_steady (o : VFp2) (s : State) : Steady s (execVmul o s) := by
  simp [execVmul]

@[simp] theorem execVfma_steady (o : VFp3) (s : State) : Steady s (execVfma o s) := by
  simp [execVfma]

@[simp] theorem execVfms_steady (o : VFp3) (s : State) : Steady s (execVfms o s) := by
  simp [execVfms]

@[simp] theorem execVnfma_steady (o : VFp3) (s : State) : Steady s (execVnfma o s) := by
  simp [execVnfma]

@[simp] theorem execVmin_steady (o : VFp2) (s : State) : Steady s (execVmin o s) := by
  simp [execVmin]

@[simp] theorem execVmax_steady (o : VFp2) (s : State) : Steady s (execVmax o s) := by
  simp [execVmax]

@[simp] theorem execVabs_steady (o : VFp1) (s : State) : Steady s (execVabs o s) := by
  simp [execVabs]

@[simp] theorem execVneg_steady (o : VFp1) (s : State) : Steady s (execVneg o s) := by
  simp [execVneg]

@[simp] theorem execVdiv_steady (o : VFp2) (s : State) : Steady s (execVdiv o s) := by
  simp [execVdiv]

@[simp] theorem execVsqrt_steady (o : VFp1) (s : State) : Steady s (execVsqrt o s) := by
  simp [execVsqrt]

@[simp] theorem execVexp2_steady (o : VFp1) (s : State) : Steady s (execVexp2 o s) := by
  simp [execVexp2]

@[simp] theorem execVlog2_steady (o : VFp1) (s : State) : Steady s (execVlog2 o s) := by
  simp [execVlog2]

@[simp] theorem execVrcp_steady (o : VFp1) (s : State) : Steady s (execVrcp o s) := by
  simp [execVrcp]

@[simp] theorem execVrsq_steady (o : VFp1) (s : State) : Steady s (execVrsq o s) := by
  simp [execVrsq]

@[simp] theorem State.vInt_stores (s : State) (h : VHead) (a b : VSrc) (d : VDst) (f : Lane → Lane → Lane) :
    (State.vInt s h a b d f).stores = s.stores := State.runV_stores fun a b => by simp

@[simp] theorem execViadd_steady (o : VInt2) (s : State) : Steady s (execViadd o s) := by
  simp [execViadd]

@[simp] theorem execVisub_steady (o : VInt2) (s : State) : Steady s (execVisub o s) := by
  simp [execVisub]

@[simp] theorem execVimul_steady (o : VInt2) (s : State) : Steady s (execVimul o s) := by
  simp [execVimul]

@[simp] theorem execVand_steady (o : VLog2) (s : State) : Steady s (execVand o s) := by
  simp [execVand]

@[simp] theorem execVor_steady (o : VLog2) (s : State) : Steady s (execVor o s) := by
  simp [execVor]

@[simp] theorem execVxor_steady (o : VLog2) (s : State) : Steady s (execVxor o s) := by
  simp [execVxor]

@[simp] theorem execVshl_steady (o : VLog2) (s : State) : Steady s (execVshl o s) := by
  simp [execVshl]

@[simp] theorem execVshr_steady (o : VLog2) (s : State) : Steady s (execVshr o s) := by
  simp [execVshr]

@[simp] theorem execVsra_steady (o : VLog2) (s : State) : Steady s (execVsra o s) := by
  simp [execVsra]

@[simp] theorem execVimin_steady (o : VInt2) (s : State) : Steady s (execVimin o s) := by
  simp [execVimin]

@[simp] theorem execVimax_steady (o : VInt2) (s : State) : Steady s (execVimax o s) := by
  simp [execVimax]

@[simp] theorem execVcmp_steady (o : VCmpOp) (s : State) :
    Steady s (execVcmp o s) := steady_next.2 (State.runV_stores fun a b => by simp)

@[simp] theorem execVsel_steady (h : VHead) (d : VDst) (a b : VSrc) (c : Fin 64) (s : State) :
    Steady s (execVsel h d a b c s) := steady_next.2 (State.runV_stores fun a b => by simp)

@[simp] theorem execVplog_steady (h : VHead) (d a b : Fin 64) (op : LogOp) (s : State) :
    Steady s (execVplog h d a b op s) := steady_next.2 (State.runV_stores fun a b => by simp)

@[simp] theorem execVcvt_steady (o : VCvtOp) (s : State) : Steady s (execVcvt o s) := by
  refine steady_next.2 (State.runV_stores fun m v => ?_)
  split
  · exact VOwn.steady_fault
  · exact VOwn.steady_lanes

@[simp] theorem execVqblk_steady (h : VHead) (d : Fin 64) (a : VP) (rm : Rm) (fmt : BitVec 32) (s : State) :
    Steady s (execVqblk h d a rm fmt s) := by
  refine steady_next.2 (State.runV_stores fun a b => ?_)
  dsimp only
  (repeat' split) <;> simp

@[simp] theorem execVdqblk_steady (h : VHead) (d : VDst) (a : VSrc) (rm : Rm) (fmt : BitVec 32) (s : State) :
    Steady s (execVdqblk h d a rm fmt s) := by
  refine steady_next.2 (State.runV_stores fun a b => ?_)
  dsimp only
  (repeat' split) <;> simp

@[simp] theorem execVred_steady (o : VRedOp) (s : State) :
    Steady s (execVred o s) := steady_next.2 (State.runV_stores fun a b => by simp)

@[simp] theorem execVscan_steady (o : VRedOp) (s : State) :
    Steady s (execVscan o s) := steady_next.2 (State.runV_stores fun a b => by simp)

@[simp] theorem execVperm_steady (h : VHead) (d : VDst) (a b : VP) (s : State) :
    Steady s (execVperm h d a b s) := steady_next.2 (State.runV_stores fun a b => by simp)

@[simp] theorem execVbcst_steady (h : VHead) (d : VDst) (a : VP) (n : Fin 32) (s : State) :
    Steady s (execVbcst h d a n s) := steady_next.2 (State.runV_stores fun a b => by simp)

@[simp] theorem execVslide_steady (h : VHead) (d : VDst) (a b : VP) (n : Fin 32) (s : State) :
    Steady s (execVslide h d a b n s) := steady_next.2 (State.runV_stores fun a b => by simp)

@[simp] theorem execVldi_steady (h : VHead) (d : VDst) (base : BitVec 32) (step : Fin 32) (s : State) :
    Steady s (execVldi h d base step s) := steady_next.2 (State.runV_stores fun a b => by simp)

@[simp] theorem execVmov_steady (h : VHead) (d : VDst) (a : VSrc) (s : State) :
    Steady s (execVmov h d a s) := steady_next.2 (State.runV_stores fun a b => by simp)

@[simp] theorem execVmovK_steady (h : VHead) (d a : Fin 64) (s : State) :
    Steady s (execVmovK h d a s) := steady_next.2 (State.runV_stores fun a b => by simp)

@[simp] theorem execVmovToCsr_steady (h : VHead) (csr : Fin 4) (a : VSI) (s : State) :
    Steady s (execVmovToCsr h csr a s) := steady_next.2 (State.runV_stores fun a b => by simp)

@[simp] theorem execVmovFromCsr_steady (h : VHead) (d : Fin 64) (csr : Fin 16) (s : State) :
    Steady s (execVmovFromCsr h d csr s) := steady_next.2 (State.runV_stores fun a b => by simp)

@[simp] theorem execVmovMaskToV_steady (h : VHead) (d : VDst) (a : Fin 64) (s : State) :
    Steady s (execVmovMaskToV h d a s) := steady_next.2 (State.runV_stores fun a b => by simp)

@[simp] theorem execVmovVToMask_steady (h : VHead) (d : Fin 64) (a : VSrc) (s : State) :
    Steady s (execVmovVToMask h d a s) := steady_next.2 (State.runV_stores fun a b => by simp)

@[simp] theorem State.runPort_stores (s : State) (o : PortOp) (check : Tile → Option Byte) (f : Tile → Tile) :
    (State.runPort s o check f).stores = s.stores := by
  simp only [State.runPort]
  (repeat' split) <;> simp

@[simp] theorem execVpset_steady (o : PortOp) (a : Fin 64) (s : State) : Steady s (execVpset o a s) := by
  simp [execVpset]

@[simp] theorem execVprst_steady (o : PortOp) (s : State) : Steady s (execVprst o s) := by
  simp [execVprst]

@[simp] theorem execVpsync_steady (o : PortOp) (s : State) : Steady s (execVpsync o s) := by
  simp [execVpsync]

theorem Crew.drainCheck_steady {c : Crew} {k : Fin 4} {b : Fin 32} {r : VOwn}
    (h : c.drainCheck k b = some r) : r.Steady := by
  unfold Crew.drainCheck at h
  split at h
  · cases h; simp
  · split at h <;> cases h <;> simp

@[simp] theorem State.breakWindows_stores (s : State) (c : CrewId) (b : Nat) :
    (State.breakWindows s c b).stores = s.stores := by rfl

@[simp] theorem execVacrd_steady (h : VHead) (d : Fin 64) (sel : VSI) (drain : Bool) (s : State) :
    Steady s (execVacrd h d sel drain s) := by
  refine steady_next.2 (State.runV_stores fun m v => ?_)
  dsimp only
  split
  · exact fun _ => rfl
  split
  · rename_i hr
    exact Crew.drainCheck_steady hr
  · intro u
    split <;> simp

@[simp] theorem execVacwr_steady (h : VHead) (a : VP) (sel : VSI) (add : Bool) (s : State) :
    Steady s (execVacwr h a sel add s) := by
  refine steady_next.2 (State.runV_stores fun m v => ?_)
  dsimp only
  split
  · exact fun _ => rfl
  split
  · rename_i hr
    exact Crew.drainCheck_steady hr
  · exact fun u => State.breakWindows_stores ..

@[simp] theorem execVtwin_steady (h : VHead) (d : Fin 64) (a b : VP) (c : VSrc) (kind : TcKind) (s : State) :
    Steady s (execVtwin h d a b c kind s) := steady_next.2 (State.runV_stores fun a b => by simp)

@[simp] theorem execVtcw_steady (h : VHead) (d : VDst) (a : VSrc) (s : State) : Steady s (execVtcw h d a s) := by
  simp [execVtcw]

@[simp] theorem State.vBranch_stores (s : State) (t : TileId) (tok : Tok) (taken : Bool) (target : Nat) (w : VWrite) :
    (State.vBranch s t tok taken target w).stores = s.stores := by rfl

@[simp] theorem execVloop_steady (tok : Tok) (target : BitVec 12) (s : State) :
    Steady s (execVloop tok target s) := by
  simp only [execVloop]
  (repeat' split) <;> simp

@[simp] theorem execVbr_steady (h : VHead) (all : Bool) (target : BitVec 12) (s : State) :
    Steady s (execVbr h all target s) := by
  simp only [execVbr]
  (repeat' split) <;> simp

@[simp] theorem execVend_steady (tok : Tok) (s : State) : Steady s (execVend tok s) := by
  simp only [execVend]
  split <;> simp

@[simp] theorem execVnop_steady (tok : Tok) (s : State) : Steady s (execVnop tok s) := by
  simp only [execVnop]
  split <;> simp

@[simp] theorem State.landVWrite_stores (s : State) (t : TileId) (w : VWrite) :
    (State.landVWrite s t w).stores = s.stores := by
  unfold State.landVWrite
  split <;> simp

@[simp] theorem State.landVWord_stores (s : State) (t : TileId) (chk : Check) (l : VLand) (i : Nat) :
    (State.landVWord s t chk l i).stores = s.stores := by
  simp only [State.landVWord]
  (repeat' split) <;> simp

@[simp] theorem execPortPushLand_steady (p : PushLand) (s : State) : Steady s (execPortPushLand p s) := by
  simp only [execPortPushLand]
  (repeat' split) <;> simp

@[simp] theorem execVWriteLand_steady (t : TileId) (chk : Check) (s : State) : Steady s (execVWriteLand t chk s) := by
  simp only [execVWriteLand]
  (repeat' split) <;> simp

@[simp] theorem execRtailWrite_steady (d : DieId) (q : QueueId) (v : BitVec 32) (s : State) :
    Steady s (execRtailWrite d q v s) := by
  unfold execRtailWrite
  split <;> simp

@[simp] theorem execRingFetch_steady (d : DieId) (q : QueueId) (s : State) : Steady s (execRingFetch d q s) := by
  simp only [execRingFetch]
  (repeat' split) <;> simp

@[simp] theorem execQctlFrozenClear_steady (d : DieId) (q : QueueId) (s : State) :
    Steady s (execQctlFrozenClear d q s) := by
  unfold execQctlFrozenClear
  split <;> simp

@[simp] theorem State.dropLoading_stores (s : State) (id : BitVec 32) :
    (State.dropLoading s id).stores = s.stores := by
  unfold State.dropLoading
  split <;> simp

@[simp] theorem execDbudgetExpiry_steady (id : BitVec 32) (s : State) : Steady s (execDbudgetExpiry id s) := by
  simp only [execDbudgetExpiry]
  (repeat' split) <;> simp

@[simp] theorem execLaunchFail_steady (id : BitVec 32) (s : State) : Steady s (execLaunchFail id s) := by
  simp only [execLaunchFail]
  (repeat' split) <;> simp

@[simp] theorem execLaunchComplete_steady (id : BitVec 32) (s : State) : Steady s (execLaunchComplete id s) := by
  simp only [execLaunchComplete]
  (repeat' split) <;> simp

@[simp] theorem State.loadMember_stores (s : State) (l : Launch) (t : TileId) :
    (s.loadMember l t).stores = s.stores := by
  simp only [State.loadMember]
  split; · rfl
  split
  · refine (State.modDev_stores _ fun d => ?_).trans (State.modTile_stores ..)
    exact foldl_keeps (p := fun e : DevMem => e.stores = d.stores) (fun e k h => (DevMem.wrote_stores ..).trans h)
      (DevMem.wrote_stores ..)
  · rfl

@[simp] theorem State.placeMember_stores (s : State) (l : Launch) (tiles : List TileId) (mcdelay m : Nat)
    (t : TileId) :
    (State.placeMember s l tiles mcdelay m t).stores = s.stores := by rfl

@[simp] theorem State.placeGang_stores (s : State) (l : Launch) (d : DieId) (places : List Nat) :
    (State.placeGang s l d places).stores = s.stores := by
  simp [State.placeGang]

@[simp] theorem State.loaded_stores (s : State) (l : Launch) : (State.loaded s l).stores = s.stores := by
  simp [State.loaded]

@[simp] theorem execGangPlace_steady (id : BitVec 32) (s : State) : Steady s (execGangPlace id s) := by
  simp only [execGangPlace]
  (repeat' split) <;> simp

@[simp] theorem State.startPoint_stores (s : State) (l : Launch) (g : Gang) (m : Nat) (t : TileId) (p : Point) :
    (State.startPoint s l g m t p).stores = s.stores := by
  simp [State.startPoint]

@[simp] theorem execPointAllocate_steady (id : BitVec 32) (s : State) : Steady s (execPointAllocate id s) := by
  simp only [execPointAllocate]
  (repeat' split) <;> simp

@[simp] theorem State.coverTile_stores (s : State) (t : TileId) : (State.coverTile s t).stores = s.stores := by
  unfold State.coverTile
  split <;> simp

@[simp] theorem State.finish_stores (s : State) (t : TileId) : (State.finish s t).stores = s.stores := by
  simp [State.finish]

@[simp] theorem execDone_steady (g : CGuard) (s : State) : Steady s (execDone g s) := by
  refine steady_next.2 (State.runCox_stores fun v u hu => ?_)
  dsimp only
  (repeat' split) <;> simp [hu]

@[simp] theorem State.leak_stores (s : State) : (State.leak s).stores = s.stores := by rfl

@[simp] theorem execMcLeakTick_steady (s : State) : Steady s (execMcLeakTick s) := by
  simp only [execMcLeakTick]
  split
  · exact steady_next.2 (State.leak_stores s)
  · simp

@[simp] theorem State.modBank_stores (s : State) (d : DieId) (b : Nat) (f : McBank → McBank) :
    (State.modBank s d b f).stores = s.stores := by rfl

@[simp] theorem execMcstValClear_steady (d : DieId) (b : Fin 48) (s : State) : Steady s (execMcstValClear d b s) := by
  unfold execMcstValClear
  split <;> simp

@[simp] theorem State.modTest_stores (s : State) (d : DieId) (f : SelfTest → SelfTest) :
    (State.modTest s d f).stores = s.stores := by rfl

@[simp] theorem execStctlReq_steady (d : DieId) (c : Fin 32) (s : State) : Steady s (execStctlReq d c s) := by
  unfold execStctlReq
  split <;> simp

@[simp] theorem execSelftestPeriod_steady (d : DieId) (s : State) : Steady s (execSelftestPeriod d s) := by
  simp only [execSelftestPeriod]
  split
  · exact steady_next.2 (State.modTest_stores s d fun y => y.periodic s.gtime)
  · simp

@[simp] theorem execSelftestStart_steady (d : DieId) (s : State) : Steady s (execSelftestStart d s) := by
  simp only [execSelftestStart]
  (repeat' split) <;> simp

@[simp] theorem State.scrubCrew_stores (s : State) (d : DieId) (c : Nat) : (s.scrubCrew d c).stores = s.stores := by
  simp [State.scrubCrew]

@[simp] theorem execSelftestEnd_steady (d : DieId) (pass : Bool) (s : State) :
    Steady s (execSelftestEnd d pass s) := by
  simp only [execSelftestEnd]
  (repeat' split) <;> simp

@[simp] theorem State.recordPair_stores (s : State) (id : BitVec 32) (detail : Nat) :
    (State.recordPair s id detail).stores = s.stores := by rfl

@[simp] theorem execMsdecl_steady (g : CGuard) (d : Fin 16) (a : Fin 64) (s : State) :
    Steady s (execMsdecl g d a s) := by
  refine steady_next.2 (State.runCox_stores fun v u hu => ?_)
  split
  · simp
  · exact State.readsOwn_steady hu fun w hw => (State.modCox_stores ..).trans hw

@[simp] theorem execPfack_steady (g : CGuard) (s : State) : Steady s (execPfack g s) := by
  refine steady_next.2 (State.runCox_stores fun v u hu => ?_)
  split; · simp
  split
  · exact (State.modCox_stores ..).trans hu
  · simp

@[simp] theorem State.stopCox_stores (s : State) (t : TileId) : (State.stopCox s t).stores = s.stores := by
  unfold State.stopCox
  split <;> simp

@[simp] theorem State.haltCmd_stores (s : State) (t : TileId) (c : PCmd) :
    (State.haltCmd s t c).stores = s.stores := by
  simp only [State.haltCmd]
  (repeat' split) <;> simp

@[simp] theorem execQueueStop_steady (t : TileId) (e : Eng) (s : State) : Steady s (execQueueStop t e s) := by
  simp only [execQueueStop]
  split <;> simp

@[simp] theorem State.haltPortage_stores (s : State) (t : TileId) : (State.haltPortage s t).stores = s.stores := by
  simp [State.haltPortage]

@[simp] theorem State.haltEngines_stores (s : State) (t : TileId) : (State.haltEngines s t).stores = s.stores := by
  simp [State.haltEngines]

@[simp] theorem State.abandonArray_stores (s : State) (c : CrewId) :
    (State.abandonArray s c).stores = s.stores := by rfl

@[simp] theorem State.failTile_stores (s : State) (t : TileId) : (State.failTile s t).stores = s.stores := by
  simp only [State.failTile]
  (repeat' split) <;> simp

@[simp] theorem State.loseSupply_stores (s : State) : s.loseSupply.stores = s.stores := by
  simp only [State.loseSupply]
  rw [stores_foldl fun s g => by split <;> simp]
  simp

@[simp] theorem execSupplyLoss_steady (s : State) : Steady s (execSupplyLoss s) := by
  unfold execSupplyLoss
  split <;> simp

@[simp] theorem execHandlerDeadline_steady (s : State) : Steady s (execHandlerDeadline s) := by
  unfold execHandlerDeadline
  split <;> simp

@[simp] theorem execPfrestore_steady (g : CGuard) (d : Fin 16) (a b : Fin 64) (s : State) :
    Steady s (execPfrestore g d a b s) := by
  refine steady_next.2 (State.runCox_stores fun v u hu => ?_)
  dsimp only
  split; · simp
  split; · simp
  split; · simp
  split; · simp
  split; · simp
  refine State.readsOwn_steady hu fun w hw => (State.modCox_stores ..).trans ?_
  split <;> simp [hw]

@[simp] theorem State.modPartners_stores (s : State) (l : Launch) (g : Gang) (f : Gang → Gang) :
    (State.modPartners s l g f).stores = s.stores := by rfl

@[simp] theorem execPreqRequest_steady (d : DieId) (i : Fin 128) (s : State) : Steady s (execPreqRequest d i s) := by
  simp only [execPreqRequest]
  (repeat' split) <;> simp

@[simp] theorem execPreqWithdraw_steady (d : DieId) (s : State) : Steady s (execPreqWithdraw d s) := by
  simp only [execPreqWithdraw]
  split
  · simp
  · rw [steady_next, State.modDie_stores]
    exact stores_foldl (fun s i => by (repeat' split) <;> simp) _ _

@[simp] theorem State.resumeMember_stores (s : State) (l : Launch) (g : Gang) (m : Nat) (t : TileId) :
    (State.resumeMember s l g m t).stores = s.stores := by
  simp only [State.resumeMember]
  (repeat' split) <;> simp

@[simp] theorem execPreemptResume_steady (t : TileId) (s : State) : Steady s (execPreemptResume t s) := by
  simp only [execPreemptResume]
  (repeat' split) <;> simp

@[simp] theorem execLaunchDispatch_steady (d : DieId) (s : State) : Steady s (execLaunchDispatch d s) := by
  simp only [execLaunchDispatch]
  (repeat' split) <;> simp

@[simp] theorem execPitchWrite_steady (d : DieId) (i : Fin 2112) (v : BitVec 16) (s : State) :
    Steady s (execPitchWrite d i v s) := by
  unfold execPitchWrite
  split <;> simp

@[simp] theorem execPeerTableWrite_steady (i : Fin 256) (ctl src : Byte) (qmask : BitVec 256) (s : State) :
    Steady s (execPeerTableWrite i ctl src qmask s) := by
  unfold execPeerTableWrite
  split <;> simp

@[simp] theorem execSignalWindowWrite_steady (w : BitVec 17) (v : Word) (s : State) :
    Steady s (execSignalWindowWrite w v s) := by
  unfold execSignalWindowWrite
  split <;> simp

@[simp] theorem State.flushWhenIdle_stores (s : State) : (State.flushWhenIdle s).stores = s.stores := by
  unfold State.flushWhenIdle
  split <;> simp

@[simp] theorem execCtxflushWrite_steady (v : Word) (s : State) : Steady s (execCtxflushWrite v s) := by
  unfold execCtxflushWrite
  split <;> simp

@[simp] theorem State.freezeClocks_stores (s : State) (bit : Bool) :
    (State.freezeClocks s bit).stores = s.stores := by
  unfold State.freezeClocks
  split <;> simp

@[simp] theorem execRegWrite_steady (r : WinReg) (v : Word) (s : State) : Steady s (execRegWrite r v s) := by
  simp only [execRegWrite]
  (repeat' split) <;> simp

@[simp] theorem execBoot_steady (good : Bool) (pkg : Byte) (fw : Firmware) (s : State) :
    Steady s (execBoot good pkg fw s) := by
  simp only [execBoot]
  (repeat' split) <;> simp

@[simp] theorem execFreeze_steady (s : State) : Steady s (execFreeze s) := by
  simp [execFreeze]

@[simp] theorem execKeyLoad_steady (slot : Fin 1024) (key : BitVec 512) (s : State) :
    Steady s (execKeyLoad slot key s) := by
  simp only [execKeyLoad]
  split
  · rw [steady_next, State.modSys_stores rfl rfl]
    split <;> simp [DevMem.stores_iff]
  · simp

@[simp] theorem execThermalLimit_steady (d : DieId) (celsius : Nat) (s : State) :
    Steady s (execThermalLimit d celsius s) := by
  simp only [execThermalLimit]
  split <;> simp

@[simp] theorem State.bar2Write_stores (s : State) (w : HostWrite) : (State.bar2Write s w).stores = s.stores := by rfl

@[simp] theorem State.hostWrite_stores (s : State) (w : HostWrite) : (s.hostWrite w).stores = s.stores := by
  unfold State.hostWrite
  (repeat' split) <;> rfl

@[simp] theorem State.discardTlb_stores (s : State) (k : Site) : (s.discardTlb k).stores = s.stores := by
  unfold State.discardTlb
  split <;> simp

@[simp] theorem State.loseGranule_stores (s : State) (g : McGranule) : (s.loseGranule g).stores = s.stores :=
  stores_foldl (fun s u => by split <;> simp) _ _

@[simp] theorem State.spoil_stores (s : State) (k : Site) (bit : Option Nat) :
    (State.spoil s k bit).stores = s.stores := by
  grind [State.spoil, DevMem.dropFlaws_stores, DevMem.spoil_stores, State.discardTlb_stores, State.granule_stores,
    State.loseGranule_stores, State.modDev_stores]

@[simp] theorem State.upset_stores (s : State) (u : Upset) : (s.upset u).stores = s.stores := by
  cases u <;> simp only [State.upset] <;> (try split) <;> simp

@[simp] theorem State.checkPitch_stores (s : State) : (State.checkPitch s).stores = s.stores := by
  unfold State.checkPitch
  split <;> simp

@[simp] theorem State.countDown_stores (s : State) : (State.countDown s).stores = s.stores := by rfl

end Sys2Proof.Machine
end

section
/-! ## What the functions that write a byte memory make of it (log entry 2) -/

namespace Sys2Proof.Machine

open Sys2Proof

/-- The stores of device memory in their canonical form. -/
def DevMem.Ok (d : DevMem) : Prop := d.hbm.wf = true ∧ d.tier2.wf = true ∧ d.ws.wf = true

/-- All byte memories of `MemoriesOk` are in theirs. -/
def Stores.Ok (a : Stores) : Prop :=
  a.hbm.wf = true ∧ a.tier2.wf = true ∧ a.ws.wf = true ∧ a.boathouse.wf = true ∧ a.hostMem.wf = true

/-- GTIME as it was, and the memories canonical where they were. -/
def Follows (s u : State) : Prop := u.stores.gtime = s.stores.gtime ∧ (s.stores.Ok → u.stores.Ok)

theorem memoriesOk_iff {s : State} : MemoriesOk s ↔ s.stores.Ok := Iff.rfl

theorem Follows.of_stores {s u : State} (h : u.stores = s.stores) : Follows s u := by rw [Follows, h]; exact ⟨rfl, id⟩

theorem Follows.refl (s : State) : Follows s s := .of_stores rfl

theorem Follows.trans {s u v : State} (hu : Follows s u) (hv : Follows u v) : Follows s v :=
  ⟨hv.1.trans hu.1, hv.2 ∘ hu.2⟩

/-- A function that leaves the stores may come last or first. -/
theorem Follows.then_stores {s u v : State} (hu : Follows s u) (h : v.stores = u.stores) : Follows s v :=
  hu.trans (.of_stores h)

theorem Follows.after_stores {s u v : State} (h : u.stores = s.stores) (hv : Follows u v) : Follows s v :=
  (Follows.of_stores h).trans hv

theorem Follows.foldl {α : Type} {f : State → α → State} (h : ∀ s x, Follows s (f s x)) (l : List α) (s : State) :
    Follows s (l.foldl f s) :=
  foldl_keeps (p := Follows s) (fun b x hb => hb.trans (h b x)) (Follows.refl s)

theorem Follows.modDev {s : State} {f : DevMem → DevMem} (h : s.dev.Ok → (f s.dev).Ok) : Follows s (s.modDev f) := by
  refine ⟨rfl, fun ⟨h1, h2, h3, h4⟩ => ?_⟩
  obtain ⟨k1, k2, k3⟩ := h ⟨h1, h2, h3⟩
  exact ⟨k1, k2, k3, h4⟩

theorem Follows.modSys {s : State} {f : Sys → Sys} (hb : s.sys.boathouse.wf = true → (f s.sys).boathouse.wf = true)
    (hh : s.sys.hostMem.wf = true → (f s.sys).hostMem.wf = true) : Follows s (s.modSys f) :=
  ⟨rfl, fun ⟨h1, h2, h3, h4, h5⟩ => ⟨h1, h2, h3, hb h4, hh h5⟩⟩

/-! ### Device memory -/

theorem DevMem.Ok.of_stores {d e : DevMem} (h : e.stores = d.stores) (hd : d.Ok) : e.Ok := by
  obtain ⟨h1, h2, h3⟩ := DevMem.stores_iff.1 h
  rwa [DevMem.Ok, h1, h2, h3]

theorem DevMem.Ok.store {d : DevMem} (h : d.Ok) (tier : Nat) : (d.store tier).wf = true := by
  obtain ⟨h1, h2, h3⟩ := h
  match tier with
  | 0 => exact h1
  | 1 => exact h2
  | _ + 2 => exact h3

theorem DevMem.Ok.setStore {d : DevMem} (h : d.Ok) (tier : Nat) {m : Memory} (hm : m.wf = true) :
    (d.setStore tier m).Ok := by
  obtain ⟨h1, h2, h3⟩ := h
  match tier with
  | 0 => exact ⟨hm, h2, h3⟩
  | 1 => exact ⟨h1, hm, h3⟩
  | _ + 2 => exact ⟨h1, h2, hm⟩

theorem DevMem.Ok.putByte {d : DevMem} (h : d.Ok) (tier phys : Nat) (key : BitVec 512) (b : Byte) :
    (d.putByte tier phys key b).Ok := by
  have hw : (d.wrote (.mem tier) [phys]).Ok := h.of_stores (by simp)
  rw [DevMem.putByte]
  generalize d.wrote (.mem tier) [phys] = e at hw
  dsimp only
  have hm : Memory.wf (match e.keyAt (unitOf tier phys) with
      | some k => if k = key then e.store tier else (e.store tier).write (phys / 64 * 64) (e.unit tier phys key)
      | none => e.store tier) = true := by
    split
    · split
      · exact hw.store tier
      · exact Memory.wf_write _ _ (hw.store tier)
    · exact hw.store tier
  split
  · exact hw.setStore 2 (Memory.wf_put _ _ hw.2.2)
  · have hs := hw.setStore tier (Memory.wf_put phys b hm)
    split
    · exact DevMem.Ok.of_stores (DevMem.markRow_stores _ _) hs
    · exact hs

theorem DevMem.Ok.zeroPage {d : DevMem} (h : d.Ok) (tier : Nat) (key : BitVec 512) (p : Nat × Nat) :
    (d.zeroPage tier key p).Ok := by
  have hm : Memory.wf ((d.store tier).filter fun c => !(decide (p.1 ≤ c.1) && decide (c.1 < p.1 + p.2))) = true := by
    have := h.store tier
    rw [Memory.wf, Map.wf_iff] at this ⊢
    exact ⟨this.1.filter _, fun e he => this.2 e (List.mem_of_mem_filter he)⟩
  have hs := h.setStore tier hm
  rw [DevMem.zeroPage]
  dsimp only
  split
  · exact hs.of_stores (by simp)
  · exact (DevMem.Ok.of_stores (DevMem.dropFlaws_stores _ _) hs).of_stores (DevMem.stores_iff.2 ⟨rfl, rfl, rfl⟩)

/-! ### Bytes by virtual address -/

theorem State.vput_follows (s : State) (t : TileId) (va : Nat) (b : Byte) : Follows s (s.vput t va b) := by
  rw [State.vput]
  split
  · refine .of_stores ?_
    (repeat' split) <;> simp
  · split
    · exact .modDev fun h => h.putByte ..
    · exact .refl s

theorem State.vwrite_follows (s : State) (t : TileId) (va : Nat) (bs : List Byte) : Follows s (s.vwrite t va bs) := by
  induction bs generalizing s va with
  | nil => exact .refl s
  | cons b bs ih => exact (s.vput_follows t va b).trans (ih _ _)

theorem State.writeElem_follows (s : State) (t : TileId) (e : Extent) (i code : Nat) : Follows s
    (s.writeElem t e i code) := by
  rw [State.writeElem]
  dsimp only
  split
  · exact State.vput_follows ..
  · exact State.vwrite_follows ..

theorem State.deviceWrite_follows (s : State) (l : List (Nat × Byte × Byte)) : Follows s (s.deviceWrite l) := by
  induction l generalizing s with
  | nil => exact .refl s
  | cons x l ih =>
    obtain ⟨a, b, mask⟩ := x
    rw [State.deviceWrite]
    split
    · exact (Follows.modDev fun h => h.putByte ..).trans (ih _)
    · exact ih s

/-! ### Extents -/

theorem State.makeExtent_follows (s : State) (r : ExtRec) (acap full : Bool) : Follows s
    (s.makeExtent r acap full).1 := by
  rw [State.makeExtent]
  split
  · exact .refl s
  extract_lets bytes pg n cellBytes cpg cn rg used
  clear_value cellBytes cpg
  (split; · exact .refl s)
  (split; · exact .refl s)
  (split; · exact .refl s)
  (split; · exact .refl s)
  dsimp only
  rw [Follows, State.tick_stores, State.dropTlb_stores]
  refine Follows.after_stores (State.nextEpoch_stores s _) (.modDev fun h => ?_)
  exact DevMem.Ok.of_stores (DevMem.stores_iff.2 ⟨rfl, rfl, rfl⟩) (foldl_keeps (fun _ p hd => hd.zeroPage r.tier _ p) h)

theorem State.extnew_follows (s : State) (l : List Byte) (acap : Bool) : Follows s (s.extnew l acap).1 := by
  rw [State.extnew]
  split
  · exact .refl s
  · exact State.makeExtent_follows ..

theorem State.makeExtents_follows (s : State) (l : List Byte) (es : List (List Byte)) (made : List Nat) :
    Follows s (s.makeExtents l es made).1 := by
  induction es generalizing s made with
  | nil => exact .refl s
  | cons e es ih =>
    rw [State.makeExtents]
    dsimp only
    have hm := s.makeExtent_follows (extRecOf e) (bitOf (extRecOf e).flags 0) ((extRecOf e).init != 0xFFFFFFFF)
    split
    · exact .refl s
    split
    · next v id heq =>
      rw [heq] at hm
      refine hm.trans (Follows.trans ?_ (ih _ _))
      split
      · split
        · exact .refl v
        · exact State.deviceWrite_follows ..
      · exact .refl v
    · next v n _ heq => rwa [heq] at hm

theorem State.flip_follows (s : State) (ext : Nat) (e : Extent) (c : Collective) : Follows s (s.flip ext e c) :=
  (s.deviceWrite_follows ((e.cut c.lo c.hi).foldl (convertPart c.role) (e, ⟨[], false, false,
    false⟩)).2.bytes).then_stores
    (by simp [State.flip])

/-! ### Answers -/

/-- An answer whose next state, if it has one, follows `s`. -/
def OutFollows (s : State) (o : Out) : Prop := ∀ u, o = .next u → Follows s u

theorem outFollows_next {s u : State} (h : Follows s u) : OutFollows s (.next u) :=
  fun _ hu => Host.Outcome.next.inj hu ▸ h

theorem Steady.follows {s : State} {o : Out} (h : Steady s o) : OutFollows s o := fun u hu => .of_stores (h u hu)

theorem State.portedOut_follows {s : State} {o : Out} (t : TileId) (h : OutFollows s o) : OutFollows s
    (s.portedOut t o) := by
  cases o with
  | next u =>
    refine outFollows_next ((s.ported_stores t u).elim (fun hu => ?_) fun hu => .of_stores hu)
    exact (h u rfl).then_stores hu
  | fault r => exact h
  | refused r => exact h

theorem execExtnew_steady (g : CGuard) (a : Fin 64) (acap : Bool) (s : State) : Steady s (execExtnew g a acap s) :=
  steady_next.2 (State.runClosing_stores fun _ _ hu =>
    CoxRes.steady_ite CoxRes.steady_fault (CoxRes.steady_ite CoxRes.steady_fault (CoxRes.steady_ite CoxRes.steady_fault
      (CoxRes.steady_ite CoxRes.steady_wait (State.readsOwn_steady hu fun _ hw => by
        rw [CoxRes.steady_done, State.longLatency_stores, hw])))))

/-! ### The homes -/

theorem State.serveSts_follows {s u : State} {h : HomeId} {t : TileId} {r : Req} {ext seg : Nat} {v : Word}
    (hu : s.serveSts h t r ext seg v = some u) : Follows s u := by
  refine State.afterHome_keeps (p := Follows s) ?_ (fun _ _ _ => .of_stores (by simp)) hu
  dsimp only
  split
  · next e g _ _ =>
    exact (s.writeElem_follows t e g.wcur (v.toNat % 2 ^ e.bits)).then_stores (by simp)
  · exact .refl s

theorem State.askPut_follows {s u : State} {h : HomeId} {t : TileId} {c : Nat} {bs : List
    (Nat × Byte × Byte)} {use : PUse}
    {back : Nat × Nat} (hu : s.askPut h t c bs use back = some u) : Follows s u := by
  simp only [State.askPut] at hu
  split at hu
  · cases hu
  · cases hu; exact .of_stores (by simp)
  · cases hu
    refine Follows.then_stores ?_ (State.replyTo_stores ..)
    exact Follows.after_stores (s.bindUse_stores ..) (.foldl (fun s b => s.vput_follows ..) _ _)

theorem State.serveAsk_follows {s u : State} {h : HomeId} {t : TileId} {c : Nat} {a : PAsk} {chk : Check}
    (hu : s.serveAsk h t c a chk = some u) : Follows s u := by
  cases a with
  | read va n use => exact .of_stores (s.askRead_stores _ _ _ _ _ _ _ _ hu)
  | put bs use back => exact State.askPut_follows hu
  | cells ext l va back => exact .of_stores (s.askCells_stores _ _ _ _ _ _ _ _ _ hu)
  | move write ext seg n va bit bits back => exact .of_stores (s.askMove_stores _ _ _ _ _ _ _ _ _ _ _ _ hu)
  | signal w act =>
    refine .of_stores ?_
    have hp := s.performAt_stores (some t) w act chk
    simp only [State.serveAsk] at hu
    split at hu <;> next heq => cases hu; simpa [heq] using hp
  | line | store => cases hu; exact .refl s

theorem State.serve_follows {s u : State} {h : HomeId} {t : TileId} {r : Req} {chk : Check}
    (hu : s.serve h t r chk = some u) : Follows s u := by
  rw [State.serve] at hu
  split at hu
  · exact .of_stores (s.serveLdi_stores _ _ _ _ _ _ _ hu)
  · exact .of_stores (State.serveLds_stores hu)
  · exact State.serveSts_follows hu
  · exact .of_stores (State.serveClose_stores hu)
  · exact .of_stores (State.serveAdda_stores hu)
  · refine .of_stores ?_
    (repeat' split at hu) <;> cases hu <;> simp
  · split at hu
    · cases hu; exact .of_stores (by simp)
    · exact .of_stores (s.readLaunch_stores _ _ _ _ _ _ _ hu)
  · cases hu; exact Follows.then_stores (State.extnew_follows ..) (State.replyTo_stores ..)
  · cases hu; exact .of_stores (by simp)
  · refine .of_stores ?_
    (repeat' split at hu) <;> cases hu <;> simp
  · cases hu

theorem State.serveMsg_follows {s u : State} {h : HomeId} {chk : Check} {m : Msg} (hu : s.serveMsg h chk m = some u) :
    Follows s u := by
  rw [State.serveMsg.eq_def] at hu
  split at hu
  · exact State.serve_follows hu
  · exact State.serveAsk_follows hu
  · refine .of_stores ?_
    dsimp only at hu
    split at hu <;> cases hu <;> simp
  · exact .of_stores (s.cpRead_stores _ _ _ _ _ _ hu)
  · cases hu; exact .of_stores (by simp)
  · cases hu; exact .refl s
  · cases hu

theorem State.serveClass_follows {s u : State} {h : HomeId} {c : Cls} {chk : Check}
    (hu : s.serveClass h c (s.serveMsg h chk) = some u) : Follows s u := by
  obtain ⟨m, v, hv, d, f, rfl⟩ := State.serveClass_sound hu
  exact (State.serveMsg_follows hv).then_stores (by simp)

theorem execHomeAccessDone_follows (h : HomeId) (chk : Check) (s : State) : OutFollows s
    (execHomeAccessDone h chk s) := by
  rw [execHomeAccessDone]
  split
  · exact outFollows_next (.refl s)
  · split
    · next u heq =>
      obtain ⟨c, -, hc⟩ := List.exists_of_findSome?_eq_some heq
      exact outFollows_next (State.serveClass_follows hc)
    · exact outFollows_next (.refl s)

theorem execRecastFlip_follows (ext : Fin 65536) (s : State) : OutFollows s (execRecastFlip ext s) := by
  rw [execRecastFlip]
  split
  · exact outFollows_next (.refl s)
  split
  · exact outFollows_next (.refl s)
  split
  · exact outFollows_next (.refl s)
  · next e _ _ c _ _ =>
    refine outFollows_next (Follows.then_stores (u := (s.flipReads e c).flip ext.val e c)
      (.after_stores (s.flipReads_stores e c) (State.flip_follows ..)) ?_)
    rw [stores_foldl (fun _ _ => by simp)]
    split <;> simp

theorem execImgaddrWrite_follows (v : Word) (s : State) : OutFollows s (execImgaddrWrite v s) := by
  rw [execImgaddrWrite]
  split
  · exact outFollows_next (.refl s)
  extract_lets s1
  have h1 : s1.stores = s.stores := by simp [s1]
  split
  · exact outFollows_next (.of_stores h1)
  split
  · exact outFollows_next (.of_stores h1)
  split
  · exact outFollows_next (.of_stores h1)
  extract_lets room head size body s2 l entries
  have h2 : s2.stores = s.stores := by
    simp only [s2, body]
    split <;> simp [head, h1]
  split
  · exact outFollows_next (.of_stores h2)
  have hm := Follows.after_stores h2 (s2.makeExtents_follows l entries [])
  split <;> next heq =>
    rw [heq] at hm
    exact outFollows_next (hm.then_stores (by simp))

/-! ### Launches, records, the Boathouse -/

theorem State.commitHalf_follows (s : State) (h : Half) : Follows s (s.commitHalf h) :=
  (s.deviceWrite_follows _).then_stores (stores_foldl (fun s x => by split <;> simp) _ _)

theorem execPairCompare_follows (id : BitVec 32) (s : State) : OutFollows s (execPairCompare id s) := by
  rw [execPairCompare]
  split
  · exact outFollows_next (.refl s)
  split
  · exact outFollows_next (.refl s)
  split
  · exact outFollows_next (.refl s)
  split
  · exact outFollows_next (.of_stores (by simp))
  split
  · exact outFollows_next (.refl s)
  split
  · exact outFollows_next (Follows.then_stores (s.commitHalf_follows _) (State.complete_stores ..))
  · exact outFollows_next (.of_stores (by simp))

theorem State.writeRecord_follows (s : State) (t : TileId) (c : SavedCtx) : Follows s (s.writeRecord t c) :=
  .modDev fun h => foldl_keeps (fun _ _ hd => hd.putByte ..) h

theorem State.saveMember_follows (s : State) (t : TileId) (c : Option SavedCtx) : Follows s (s.saveMember t c) := by
  cases c with
  | none => exact .of_stores (by simp [State.saveMember])
  | some c => exact (s.writeRecord_follows t c).then_stores (by simp [State.saveMember])

theorem execPreempt_follows (t : TileId) (s : State) : OutFollows s (execPreempt t s) := by
  rw [execPreempt]
  split
  · exact outFollows_next (.refl s)
  dsimp only
  split
  · exact outFollows_next (.refl s)
  split
  · refine outFollows_next (.of_stores ?_)
    rw [stores_foldl (fun _ _ => by simp), stores_foldl (fun _ _ => by split <;> simp), State.modPartners_stores]
  split
  · refine outFollows_next (Follows.then_stores ?_ (State.modPartners_stores ..))
    exact .foldl (fun s (c : TileId × Option SavedCtx) => s.saveMember_follows c.1 c.2) _ s
  · exact outFollows_next (.refl s)

theorem State.writeSet_follows (s : State) : Follows s s.writeSet := by
  rw [State.writeSet]
  generalize s.saveSet = l
  exact Follows.modSys (Memory.wf_write l 0) id

theorem execDrainEnd_follows (s : State) : OutFollows s (execDrainEnd s) := by
  rw [execDrainEnd]
  split
  · exact outFollows_next s.writeSet_follows
  · exact outFollows_next (.refl s)

theorem execBhstatSetvClear_follows (s : State) : OutFollows s (execBhstatSetvClear s) := by
  rw [execBhstatSetvClear]
  split
  · refine outFollows_next (Follows.modSys (fun h => ?_) id)
    dsimp only
    generalize 0 :: s.sys.records.map Found.off = offs
    generalize List.replicate 64 (0 : Byte) = zeros
    exact foldl_keeps (p := fun m : Memory => m.wf = true) (fun _ _ h => Memory.wf_write _ _ h) h
  · exact outFollows_next (.refl s)

theorem State.hostMemWrite_follows (s : State) (a : Nat) (bs : List Byte) : Follows s (s.hostMemWrite a bs) :=
  .modSys id (fun h => Memory.wf_write _ _ h)

end Sys2Proof.Machine
end

section
/-! ## One step: GTIME (R5) and the canonical form of the memories (log entry 2) -/

namespace Sys2Proof.Machine

open Sys2Proof

/-- Every instruction but a cold reset leaves GTIME, and the memories canonical. -/
theorem exec_follows (s : State) : ∀ i : Instr, i ≠ .coldReset → OutFollows s (exec i s)
  | .add _, _ => (execAdd_steady _ s).follows | .sub _, _ => (execSub_steady _ s).follows
  | .mul _, _ => (execMul_steady _ s).follows | .mulh _, _ => (execMulh_steady _ s).follows
  | .mulhn _, _ => (execMulhn_steady _ s).follows | .div _, _ => (execDiv_steady _ s).follows
  | .divn _, _ => (execDivn_steady _ s).follows | .rem _, _ => (execRem_steady _ s).follows
  | .remn _, _ => (execRemn_steady _ s).follows | .and _, _ => (execAnd_steady _ s).follows
  | .or _, _ => (execOr_steady _ s).follows | .xor _, _ => (execXor_steady _ s).follows
  | .andn _, _ => (execAndn_steady _ s).follows | .shl _, _ => (execShl_steady _ s).follows
  | .shr _, _ => (execShr_steady _ s).follows | .sra _, _ => (execSra_steady _ s).follows
  | .rot _, _ => (execRot_steady _ s).follows | .clz _, _ => (execClz_steady _ s).follows
  | .ctz _, _ => (execCtz_steady _ s).follows | .popc _, _ => (execPopc_steady _ s).follows
  | .min _, _ => (execMin_steady _ s).follows | .max _, _ => (execMax_steady _ s).follows
  | .minn _, _ => (execMinn_steady _ s).follows | .maxn _, _ => (execMaxn_steady _ s).follows
  | .sext _, _ => (execSext_steady _ s).follows | .zext _, _ => (execZext_steady _ s).follows
  | .li _ _ _, _ => (execLi_steady _ _ _ s).follows | .lih _, _ => (execLih_steady _ s).follows
  | .sel _, _ => (execSel_steady _ s).follows | .cmp _, _ => (execCmp_steady _ s).follows
  | .plog _, _ => (execPlog_steady _ s).follows | .pmovPP _ _ _, _ => (execPmovPP_steady _ _ _ s).follows
  | .pmovPX _ _ _, _ => (execPmovPX_steady _ _ _ s).follows | .pmovXP _ _ _, _ => (execPmovXP_steady _ _ _ s).follows
  | .pmovXPall _ _, _ => (execPmovXPall_steady _ _ s).follows | .pmovPallX _ _, _ => (execPmovPallX_steady _ _ s).follows
  | .ld _ _, _ => (execLd_steady _ _ s).follows | .ldFifo _, _ => (execLdFifo_steady _ s).follows
  | .st _ _, _ => (execSt_steady _ _ s).follows | .stAtomic _ _ _ _ _ _, _ => (execStAtomic_steady _ _ _ _ _ _ s).follows
  | .stCas _ _ _ _ _ _, _ => (execStCas_steady _ _ _ _ _ _ s).follows | .ldi _, _ => (execLdi_steady _ s).follows
  | .ldiTouch _ p, _ => (execLdiTouch_steady _ p s).follows | .lds _ _ _, _ => (execLds_steady _ _ _ s).follows
  | .ldsTouch _ _ _ p, _ => (execLdsTouch_steady _ _ _ p s).follows | .sts _ _ _ _,
    _ => (execSts_steady _ _ _ _ s).follows
  | .close _ _ _, _ => (execClose_steady _ _ _ s).follows | .adda _ _ _ _ _, _ => (execAdda_steady _ _ _ _ _ s).follows
  | .sld _, _ => (execSld_steady _ s).follows | .sst _ _, _ => (execSst_steady _ _ s).follows
  | .satom _ _ _ _, _ => (execSatom_steady _ _ _ _ s).follows | .fence _, _ => (execFence_steady _ s).follows
  | .br _ _, _ => (execBr_steady _ _ s).follows | .brl _ _ _, _ => (execBrl_steady _ _ _ s).follows
  | .jr _ _, _ => (execJr_steady _ _ s).follows | .ret _ _, _ => (execRet_steady _ _ s).follows
  | .bct _ _ _, _ => (execBct_steady _ _ _ s).follows | .region _, _ => (execRegion_steady _ s).follows
  | .exec _, _ => (execExec_steady _ s).follows | .waitq _ _ _, _ => (execWaitq_steady _ _ _ s).follows
  | .waitb _ _, _ => (execWaitb_steady _ _ s).follows | .qstat _ _ _, _ => (execQstat_steady _ _ _ s).follows
  | .mlease _ _ _, _ => (execMlease_steady _ _ _ s).follows | .mfree _, _ => (execMfree_steady _ s).follows
  | .acalloc _ _ _, _ => (execAcalloc_steady _ _ _ s).follows | .acown _ _ _, _ => (execAcown_steady _ _ _ s).follows
  | .acfree _ _, _ => (execAcfree_steady _ _ s).follows | .osclaim _ _ _, _ => (execOsclaim_steady _ _ _ s).follows
  | .osrel _ _, _ => (execOsrel_steady _ _ s).follows | .extnew _ _ _, _ => (execExtnew_steady _ _ _ s).follows
  | .recast _, _ => (execRecast_steady _ s).follows | .extq _ _ _ _, _ => (execExtq_steady _ _ _ _ s).follows
  | .extfree _ _, _ => (execExtfree_steady _ _ s).follows
  | .launch _ _ _ _ _ _, _ => (execLaunch_steady _ _ _ _ _ _ s).follows
  | .launchw _ _ _ _ _, _ => (execLaunchw_steady _ _ _ _ _ s).follows | .join _ _ _,
    _ => (execJoin_steady _ _ _ s).follows
  | .done _, _ => (execDone_steady _ s).follows | .trap _ _, _ => (execTrap_steady _ _ s).follows
  | .rft _, _ => (execRft_steady _ s).follows | .csrr _ _ _, _ => (execCsrr_steady _ _ _ s).follows
  | .csrw _ _ _, _ => (execCsrw_steady _ _ _ s).follows | .nop _, _ => (execNop_steady _ s).follows
  | .halt _, _ => (execHalt_steady _ s).follows | .waitcyc _ _, _ => (execWaitcyc_steady _ _ s).follows
  | .waitcycUntil _ _, _ => (execWaitcycUntil_steady _ _ s).follows | .msdecl _ _ _,
    _ => (execMsdecl_steady _ _ _ s).follows
  | .pfack _, _ => (execPfack_steady _ s).follows | .pfrestore _ _ _ _, _ => (execPfrestore_steady _ _ _ _ s).follows
  | .grpopen _ _, _ => (execGrpopen_steady _ _ s).follows | .grpfree _ _, _ => (execGrpfree_steady _ _ s).follows
  | .vadd _, _ => (execVadd_steady _ s).follows | .vsub _, _ => (execVsub_steady _ s).follows
  | .vmul _, _ => (execVmul_steady _ s).follows | .vfma _, _ => (execVfma_steady _ s).follows
  | .vfms _, _ => (execVfms_steady _ s).follows | .vnfma _, _ => (execVnfma_steady _ s).follows
  | .vmin _, _ => (execVmin_steady _ s).follows | .vmax _, _ => (execVmax_steady _ s).follows
  | .vabs _, _ => (execVabs_steady _ s).follows | .vneg _, _ => (execVneg_steady _ s).follows
  | .vdiv _, _ => (execVdiv_steady _ s).follows | .vsqrt _, _ => (execVsqrt_steady _ s).follows
  | .vexp2 _, _ => (execVexp2_steady _ s).follows | .vlog2 _, _ => (execVlog2_steady _ s).follows
  | .vrcp _, _ => (execVrcp_steady _ s).follows | .vrsq _, _ => (execVrsq_steady _ s).follows
  | .viadd _, _ => (execViadd_steady _ s).follows | .visub _, _ => (execVisub_steady _ s).follows
  | .vimul _, _ => (execVimul_steady _ s).follows | .vand _, _ => (execVand_steady _ s).follows
  | .vor _, _ => (execVor_steady _ s).follows | .vxor _, _ => (execVxor_steady _ s).follows
  | .vshl _, _ => (execVshl_steady _ s).follows | .vshr _, _ => (execVshr_steady _ s).follows
  | .vsra _, _ => (execVsra_steady _ s).follows | .vimin _, _ => (execVimin_steady _ s).follows
  | .vimax _, _ => (execVimax_steady _ s).follows | .vcmp _, _ => (execVcmp_steady _ s).follows
  | .vsel _ _ _ _ _, _ => (execVsel_steady _ _ _ _ _ s).follows
  | .vplog _ _ _ _ _, _ => (execVplog_steady _ _ _ _ _ s).follows | .vcvt _, _ => (execVcvt_steady _ s).follows
  | .vqblk _ _ _ _ _, _ => (execVqblk_steady _ _ _ _ _ s).follows
  | .vdqblk _ _ _ _ _, _ => (execVdqblk_steady _ _ _ _ _ s).follows | .vred _, _ => (execVred_steady _ s).follows
  | .vscan _, _ => (execVscan_steady _ s).follows | .vperm _ _ _ _, _ => (execVperm_steady _ _ _ _ s).follows
  | .vbcst _ _ _ _, _ => (execVbcst_steady _ _ _ _ s).follows
  | .vslide _ _ _ _ _, _ => (execVslide_steady _ _ _ _ _ s).follows | .vldi _ _ _ _,
    _ => (execVldi_steady _ _ _ _ s).follows
  | .vmov _ _ _, _ => (execVmov_steady _ _ _ s).follows | .vmovK _ _ _, _ => (execVmovK_steady _ _ _ s).follows
  | .vmovToCsr _ _ _, _ => (execVmovToCsr_steady _ _ _ s).follows
  | .vmovFromCsr _ _ _, _ => (execVmovFromCsr_steady _ _ _ s).follows
  | .vmovMaskToV _ _ _, _ => (execVmovMaskToV_steady _ _ _ s).follows
  | .vmovVToMask _ _ _, _ => (execVmovVToMask_steady _ _ _ s).follows | .vpset _ _, _ => (execVpset_steady _ _ s).follows
  | .vprst _, _ => (execVprst_steady _ s).follows | .vpsync _, _ => (execVpsync_steady _ s).follows
  | .vacrd _ _ _ _, _ => (execVacrd_steady _ _ _ _ s).follows | .vacwr _ _ _ _, _ => (execVacwr_steady _ _ _ _ s).follows
  | .vtwin _ _ _ _ _ _, _ => (execVtwin_steady _ _ _ _ _ _ s).follows | .vtcw _ _ _,
    _ => (execVtcw_steady _ _ _ s).follows
  | .vloop _ _, _ => (execVloop_steady _ _ s).follows | .vbr _ _ _, _ => (execVbr_steady _ _ _ s).follows
  | .vend _, _ => (execVend_steady _ s).follows | .vnop _, _ => (execVnop_steady _ s).follows
  | .cnop _ _, _ => (execCnop_steady _ _ s).follows | .cpy _, _ => (execCpy_steady _ s).follows
  | .cpyt _ _, _ => (execCpyt_steady _ _ s).follows | .cpyr _, _ => (execCpyr_steady _ s).follows
  | .cfill _, _ => (execCfill_steady _ s).follows | .cgath _, _ => (execCgath_steady _ s).follows
  | .cscat _, _ => (execCscat_steady _ s).follows | .csg _, _ => (execCsg_steady _ s).follows
  | .cseal _, _ => (execCseal_steady _ s).follows | .copld _ _, _ => (execCopld_steady _ _ s).follows
  | .covl _, _ => (execCovl_steady _ s).follows | .cwtx _, _ => (execCwtx_steady _ s).follows
  | .ctce _, _ => (execCtce_steady _ s).follows | .csig _, _ => (execCsig_steady _ s).follows
  | .cwaitSignal _, _ => (execCwaitSignal_steady _ s).follows | .cwaitTime _ _, _ => (execCwaitTime_steady _ _ s).follows
  | .cprb _, _ => (execCprb_steady _ s).follows | .cend _, _ => (execCend_steady _ s).follows
  | .msetrow _ _ _, _ => (execMsetrow_steady _ _ _ s).follows
  | .msetrowPart _ _ _, _ => (execMsetrowPart_steady _ _ _ s).follows
  | .msetcol _ _ _, _ => (execMsetcol_steady _ _ _ s).follows
  | .msetcolPart _ _ _, _ => (execMsetcolPart_steady _ _ _ s).follows | .mfmt _ _ _,
    _ => (execMfmt_steady _ _ _ s).follows
  | .mscale _ _ _, _ => (execMscale_steady _ _ _ s).follows | .mma _, _ => (execMma_steady _ s).follows
  | .mmaz _, _ => (execMmaz_steady _ s).follows | .mmat _, _ => (execMmat_steady _ s).follows
  | .mtcw _, _ => (execMtcw_steady _ s).follows | .mcommit _, _ => (execMcommit_steady _ s).follows
  | .macz _ _, _ => (execMacz_steady _ _ s).follows | .mtile _ _ _, _ => (execMtile_steady _ _ _ s).follows
  | .mend _, _ => (execMend_steady _ s).follows | .send _ _, _ => (execSend_steady _ _ s).follows
  | .recv _, _ => (execRecv_steady _ s).follows | .copy _ _ _ _ _, _ => (execCopy_steady _ _ _ _ _ s).follows
  | .rrs _ _ _ _, _ => (execRrs_steady _ _ _ _ s).follows
  | .waitSignalStep sc _ _, _ => (execWaitSignalStep_steady sc _ _ s).follows
  | .waitTimeStep _, _ => (execWaitTimeStep_steady _ s).follows
  | .waitAfterT0Step _, _ => (execWaitAfterT0Step_steady _ s).follows | .loop _ _, _ => (execLoop_steady _ _ s).follows
  | .groupBudgetExpiry _, _ => (execGroupBudgetExpiry_steady _ s).follows
  | .errorNoticeArrival _, _ => (execErrorNoticeArrival_steady _ s).follows
  | .entryHead _ _, _ => (execEntryHead_steady _ _ s).follows | .entryStart _ _,
    _ => (execEntryStart_steady _ _ s).follows
  | .entryRetire _ _, _ => (execEntryRetire_steady _ _ s).follows
  | .entryBudgetExpiry _ _, _ => (execEntryBudgetExpiry_steady _ _ s).follows
  | .iterationBudgetExpiry _, _ => (execIterationBudgetExpiry_steady _ s).follows
  | .commandStart _, _ => (execCommandStart_steady _ s).follows
  | .commandRetire _ _, _ => (execCommandRetire_steady _ _ s).follows
  | .tceBlockDone _, _ => (execTceBlockDone_steady _ s).follows
  | .wsRefreshWindow d g, _ => (execWsRefreshWindow_steady d g s).follows
  | .flitInject _ _, _ => (execFlitInject_steady _ _ s).follows | .flitArrive _ _,
    _ => (execFlitArrive_steady _ _ s).follows
  | .multicastDepart _, _ => (execMulticastDepart_steady _ s).follows
  | .multicastLand _, _ => (execMulticastLand_steady _ s).follows
  | .leaseTurnEnd _, _ => (execLeaseTurnEnd_steady _ s).follows | .leaseGrant _, _ => (execLeaseGrant_steady _ s).follows
  | .mWritesLand _ _, _ => (execMWritesLand_steady _ _ s).follows | .batchRetire _,
    _ => (execBatchRetire_steady _ s).follows
  | .replayEnd _, _ => (execReplayEnd_steady _ s).follows | .portPushLand _, _ => (execPortPushLand_steady _ s).follows
  | .vWriteLand _ _, _ => (execVWriteLand_steady _ _ s).follows | .coxWriteLand _,
    _ => (execCoxWriteLand_steady _ s).follows
  | .rfElementArrive _, _ => (execRfElementArrive_steady _ s).follows
  | .requestDepart _ _, _ => (execRequestDepart_steady _ _ s).follows
  | .homeAccessDone _ _, _ => execHomeAccessDone_follows _ _ s | .scPerform _, _ => (execScPerform_steady _ s).follows
  | .recastArrival _, _ => (execRecastArrival_steady _ s).follows
  | .rtailWrite _ _ _, _ => (execRtailWrite_steady _ _ _ s).follows
  | .launchDispatch _, _ => (execLaunchDispatch_steady _ s).follows
  | .dbudgetExpiry _, _ => (execDbudgetExpiry_steady _ s).follows | .gangPlace _, _ => (execGangPlace_steady _ s).follows
  | .pointAllocate _, _ => (execPointAllocate_steady _ s).follows
  | .launchComplete _, _ => (execLaunchComplete_steady _ s).follows | .launchFail _,
    _ => (execLaunchFail_steady _ s).follows
  | .trapEntry _, _ => (execTrapEntry_steady _ s).follows | .iterationEnd _, _ => (execIterationEnd_steady _ s).follows
  | .queueStop _ _, _ => (execQueueStop_steady _ _ s).follows | .tintWrite _ _, _ => (execTintWrite_steady _ _ s).follows
  | .preempt _, _ => execPreempt_follows _ s | .preemptResume _, _ => (execPreemptResume_steady _ s).follows
  | .tdbgResume _, _ => (execTdbgResume_steady _ s).follows
  | .rowUnitCopyDone _, _ => (execRowUnitCopyDone_steady _ s).follows | .rowRemap _,
    _ => (execRowRemap_steady _ s).follows
  | .selftestPeriod _, _ => (execSelftestPeriod_steady _ s).follows
  | .selftestStart _, _ => (execSelftestStart_steady _ s).follows
  | .selftestEnd _ _, _ => (execSelftestEnd_steady _ _ s).follows
  | .patrolScrubRead _ _ _ _, _ => (execPatrolScrubRead_steady _ _ _ _ s).follows
  | .pairCompare _, _ => execPairCompare_follows _ s | .lastReadCycleEnd _, _ => (execLastReadCycleEnd_steady _ s).follows
  | .preqRequest _ _, _ => (execPreqRequest_steady _ _ s).follows
  | .preqWithdraw _, _ => (execPreqWithdraw_steady _ s).follows
  | .pitchWrite _ _ _, _ => (execPitchWrite_steady _ _ _ s).follows
  | .peerTableWrite _ _ _ _, _ => (execPeerTableWrite_steady _ _ _ _ s).follows
  | .signalWindowWrite _ _, _ => (execSignalWindowWrite_steady _ _ s).follows
  | .imgaddrWrite _, _ => execImgaddrWrite_follows _ s | .ctxflushWrite _, _ => (execCtxflushWrite_steady _ s).follows
  | .regWrite _ _, _ => (execRegWrite_steady _ _ s).follows | .packetArrive _, _ => (execPacketArrive_steady _ s).follows
  | .ackArrive _ _ _, _ => (execAckArrive_steady _ _ _ s).follows
  | .resendTimeout _ _, _ => (execResendTimeout_steady _ _ s).follows
  | .flagDepart _, _ => (execFlagDepart_steady _ s).follows | .ringFetch _ _, _ => (execRingFetch_steady _ _ s).follows
  | .poolEntry _, _ => (execPoolEntry_steady _ s).follows
  | .qctlFrozenClear _ _, _ => (execQctlFrozenClear_steady _ _ s).follows | .recastFlip _, _ => execRecastFlip_follows _ s
  | .linkCrcRetry _, _ => (execLinkCrcRetry_steady _ s).follows
  | .mcstValClear _ _, _ => (execMcstValClear_steady _ _ s).follows | .stctlReq _ _,
    _ => (execStctlReq_steady _ _ s).follows
  | .boot _ _ _, _ => (execBoot_steady _ _ _ s).follows | .tokenWaitEnd _ _, _ => (execTokenWaitEnd_steady _ _ s).follows
  | .keyLoad _ _, _ => (execKeyLoad_steady _ _ s).follows | .thermalLimit _ _,
    _ => (execThermalLimit_steady _ _ s).follows
  | .mcLeakTick, _ => (execMcLeakTick_steady s).follows | .earlyPacketTimeout,
    _ => (execEarlyPacketTimeout_steady s).follows
  | .gtimeBoundLoss, _ => (execGtimeBoundLoss_steady s).follows | .bhstatSetvClear, _ => execBhstatSetvClear_follows s
  | .supplyLoss, _ => (execSupplyLoss_steady s).follows | .handlerDeadline, _ => (execHandlerDeadline_steady s).follows
  | .drainEnd, _ => execDrainEnd_follows s | .freeze, _ => (execFreeze_steady s).follows
  | .endl, _ => (execEndl_steady s).follows | .stepDone, _ => (execStepDone_steady s).follows
  | .coldReset, h => absurd rfl h

/-! ### No word of a stream, and no step word, stands for a cold reset -/

theorem coxReading_build {f : Fields} {r : Reading} (h : coxReading f = some r) : r.build ≠ .coldReset := by
  rw [coxReading] at h
  split at h <;> cases h <;>
    simp only [rdAlu3, rdAlu1, rdExt, rdBare, rdPmov, rdLd, rdSt, rdLdi, rdLds, rdSts, rdAdda, rdSld, rdSst, rdSatom,
    rdFence, rdPfack,
      rdExec, rdWait, rdClaim, rdRel, rdRecast, rdXa] <;>
    (try split) <;> exact Instr.noConfusion

theorem vReading_build {f : Fields} {r : Reading} (h : vReading f = some r) : r.build ≠ .coldReset := by
  rw [vReading] at h
  split at h <;> cases h <;>
    simp only [rdFp1, rdFp2, rdFp3, rdInt2, rdLog2, rdRed, rdVmov, rdPort, rdVbare, rdCvt] <;>
    (try split) <;> (try split) <;> exact Instr.noConfusion

theorem lsReading_build {e : Eng} {f : Fields} {r : Reading} (h : lsReading e f = some r) : r.build ≠ .coldReset := by
  rw [lsReading] at h
  split at h <;> (try split at h) <;> (try split at h) <;> cases h <;>
    simp only [rdElem, rdCSig, Reading.only] <;> exact Instr.noConfusion

theorem mReading_build {f : Fields} {r : Reading} (h : mReading f = some r) : r.build ≠ .coldReset := by
  rw [mReading] at h
  split at h <;> cases h <;> simp only [rdMset, rdMma] <;> (try split) <;> exact Instr.noConfusion

theorem reading_build {st : Stream} {f : Fields} {r : Reading} (h : reading st f = some r) : r.build ≠ .coldReset := by
  cases st with
  | cox => exact coxReading_build h
  | l | s => exact lsReading_build h
  | v => exact vReading_build h
  | m => exact mReading_build h

theorem decodeBytes_ne_coldReset {st : Stream} {bs : List Byte} {i : Instr} (h : decodeBytes st bs = .word i) :
    i ≠ .coldReset := by
  rw [decodeBytes, decodeWord, decodeFields] at h
  split at h
  · cases h
  · next r hr =>
    (repeat' split at h) <;> cases h
    exact reading_build hr

theorem decodeStep_ne_coldReset {w : Nat} {i : Instr} (h : decodeStep w = some i) : i ≠ .coldReset := by
  rw [decodeStep] at h
  dsimp only at h
  (repeat' split at h) <;> cases h <;> exact Instr.noConfusion

end Sys2Proof.Machine
end

section
/-! ## What the next step is: when it may be a cold reset, and when GTIME moves (R5) -/

namespace Sys2Proof.Machine

open Sys2Proof

theorem forall_orElse {α : Type} {p : α → Prop} {a b : Option α} (ha : ∀ x ∈ a, p x) (hb : ∀ x ∈ b, p x) :
    ∀ x ∈ (a <|> b), p x := by
  cases a with
  | none => exact hb
  | some y => exact ha

theorem forall_map {α β : Type} {p : β → Prop} {f : α → β} (h :
    ∀ x, p (f x)) (o : Option α) : ∀ y ∈ o.map f, p y := by
  cases o with
  | none => exact fun _ hy => nomatch hy
  | some x => exact fun y hy => Option.some.inj hy ▸ h x

theorem forall_ite {α : Type} {p : α → Prop} {x : α} (c : Prop) [Decidable c] (h : p x) :
    ∀ y ∈ (if c then some x else none), p y := by
  split
  · exact fun y hy => Option.some.inj hy ▸ h
  · exact fun _ hy => nomatch hy

theorem State.nextStart_ne_coldReset (s : State) : ∀ i ∈ s.nextStart, i ≠ .coldReset := by
  rw [State.nextStart]
  iterate 8 refine forall_orElse (forall_map (fun _ => Instr.noConfusion) _) ?_
  refine forall_orElse (forall_ite _ Instr.noConfusion) ?_
  iterate 7 refine forall_orElse (forall_map (fun _ => Instr.noConfusion) _) ?_
  exact forall_map (fun _ => Instr.noConfusion) _

theorem State.scrubs_ne_coldReset (s : State) : ∀ i ∈ s.scrubs, i ≠ .coldReset := by
  simp only [State.scrubs]
  split
  · exact fun _ h => nomatch h
  · exact fun _ h => Option.some.inj h ▸ Instr.noConfusion

/-- What is due is no cold reset. -/
def Due.Plain (d : Due) : Prop := d ≠ .event .coldReset

theorem Due.plain_event {i : Instr} (h : i ≠ .coldReset) : (Due.event i).Plain := fun he => h (Due.event.inj he)

theorem State.serveDue_plain (s : State) (atomic : Bool) : ∀ d ∈ s.serveDue atomic, d.Plain :=
  forall_map (fun _ => Due.noConfusion) _

theorem State.nextDue_plain (s : State) : ∀ d ∈ s.nextDue, d.Plain := by
  have event {α : Type} (f : α → Instr) (h : ∀ x,
    f x ≠ .coldReset) (o : Option α) : ∀ d ∈ o.map (fun x => Due.event (f x)), d.Plain :=
    forall_map (fun x => Due.plain_event (h x)) o
  rw [State.nextDue]
  iterate 8 refine forall_orElse (event _ (fun _ => Instr.noConfusion) _) ?_
  iterate 2 refine forall_orElse (forall_map (fun _ => Due.noConfusion) _) ?_
  refine forall_orElse (s.serveDue_plain true) ?_
  iterate 4 refine forall_orElse (event _ (fun _ => Instr.noConfusion) _) ?_
  refine forall_orElse (s.serveDue_plain false) ?_
  iterate 10 refine forall_orElse (event _ (fun _ => Instr.noConfusion) _) ?_
  refine forall_orElse (fun d hd => ?_) ?_
  · obtain ⟨i, hi, rfl⟩ := Option.map_eq_some_iff.1 hd
    exact Due.plain_event (s.scrubs_ne_coldReset i hi)
  iterate 3 refine forall_orElse (event _ (fun _ => Instr.noConfusion) _) ?_
  refine forall_orElse (forall_ite _ (Due.plain_event Instr.noConfusion)) ?_
  exact forall_ite _ (Due.plain_event Instr.noConfusion)

/-! ### Acts -/

/-- An act that is no cold reset, in a state that follows `s`. -/
def Act.Plain (s : State) : Act → Prop
  | .exec i u | .port _ i u => i ≠ .coldReset ∧ Follows s u
  | .next u => Follows s u
  | .stop _ => True

theorem Act.plain_exec {s u : State} {i : Instr} (hi : i ≠ .coldReset) (h : u.stores = s.stores) :
    (Act.exec i u).Plain s :=
  ⟨hi, .of_stores h⟩

theorem Act.plain_next {s u : State} (h : u.stores = s.stores) : (Act.next u).Plain s := Follows.of_stores h

theorem Act.Plain.after {s u : State} {a : Act} (h : u.stores = s.stores) (ha : a.Plain u) : a.Plain s := by
  cases a with
  | exec i v | port t i v => exact ⟨ha.1, .after_stores h ha.2⟩
  | next v => exact Follows.after_stores h ha
  | stop f => trivial

theorem State.coxTurn_plain (s : State) (t : TileId) : (s.coxTurn t).Plain s := by
  rw [State.coxTurn]
  split
  · extract_lets c s1 m s2
    have h1 : s1.stores = s.stores := rfl
    have h2 : s2.stores = s.stores := (s1.goodRead_stores ..).trans h1
    split
    · exact Act.plain_next (by simp [h1])
    split
    · exact Act.plain_next (by simp [h2])
    split
    · next i hi => exact Act.plain_exec (decodeBytes_ne_coldReset hi) h2
    · exact Act.plain_next (by simp [h2])
  · exact Act.plain_next rfl

theorem State.engTurn_plain (s : State) (t : TileId) (e : Eng) : (s.engTurn t e).Plain s := by
  rw [State.engTurn]
  split
  · exact Act.plain_next rfl
  split
  · split
    · exact Act.plain_next (by simp)
    · exact Act.plain_next rfl
  split
  · split
    · next bs _ =>
      have hg := s.goodRead_stores t (((s.tile t).eng e).wordSites t e)
      split
      · next u heq => exact Act.plain_next (by simpa [heq] using hg)
      · next u heq =>
        rw [heq] at hg
        split
        · next i hi =>
          split
          · exact ⟨decodeBytes_ne_coldReset hi, .of_stores hg⟩
          · exact Act.plain_exec (decodeBytes_ne_coldReset hi) hg
        · exact Act.plain_next (by simpa using hg)
    · exact Act.plain_next rfl
  · exact Act.plain_next rfl

theorem State.cpTurn_plain (s : State) (g : Fin 4096) : (s.cpTurn g).Plain s := by
  rw [State.cpTurn]
  split
  · exact Act.plain_next (by simp)
  split
  · split
    · split
      · next i hi =>
        obtain ⟨w, -, hw⟩ := Option.bind_eq_some_iff.1 hi
        exact Act.plain_exec (decodeStep_ne_coldReset hw) rfl
      · exact Act.plain_next (by simp)
    · exact Act.plain_next rfl
  · exact Act.plain_next rfl

theorem State.turn_plain {s : State} {t : Turn} (ht : t ≠ .event .coldReset) : (s.turn t).Plain s := by
  cases t with
  | cox t => exact s.coxTurn_plain t
  | eng t e => exact s.engTurn_plain t e
  | cp g => exact s.cpTurn_plain g
  | granule t id =>
    rw [State.turn]
    split <;> exact Act.plain_next (by simp)
  | event i =>
    rw [State.turn]
    split
    · exact Act.plain_exec (fun h => ht (h ▸ rfl)) rfl
    · exact Act.plain_next rfl
  | context n =>
    rw [State.turn]
    split <;> exact Act.plain_next (by simp)
  | host w => exact Act.plain_next (by simp)
  | hostMem a bs => exact s.hostMemWrite_follows a bs
  | upset u => exact Act.plain_next (by simp)
  | endCycle => exact Act.plain_next rfl

theorem State.endRunning_plain {s t : State} (ht : t.stores = s.stores) : (s.endRunning t).Plain s := by
  rw [State.endRunning]
  split
  · exact s.coxTurn_plain _
  · exact Act.plain_next ht

theorem sameEvent_ne_coldReset {i j : Instr} (h : sameEvent i j = true) : j ≠ .coldReset := by
  rintro rfl
  rw [sameEvent.eq_def] at h
  split at h <;> simp_all

theorem State.runDue_plain {s : State} {i : Instr} (hi : i ≠ .coldReset) : (s.runDue i).Plain s := by
  rw [State.runDue]
  split
  · split
    · next h => exact Act.plain_exec (sameEvent_ne_coldReset h) rfl
    · exact Act.plain_exec hi rfl
  · exact Act.plain_exec hi rfl

/-! ### The three kinds of step -/

/-- The same stores at another GTIME. -/
def Stores.at' (a : Stores) (now : Nat) : Stores := { a with gtime := now }

/-- An act that ends a cycle: GTIME rises by one. -/
def Act.Ends (s : State) (a : Act) : Prop :=
  s.phase = .ending ∧ ∃ u, a = .next u ∧ u.stores = s.stores.at' (s.gtime + 1)

/-- A cold reset that R5 allows. -/
def Act.Resets (s : State) (a : Act) : Prop :=
  (∃ u, a = .exec .coldReset u ∧ u.stores = s.stores) ∧
    ((∃ rest, s.agenda = .event .coldReset :: rest) ∨ s.sys.hold = some .write ∧ s.sys.holdEnd ≤ s.gtime)

/-- The three kinds of act. -/
def Act.Ok (s : State) (a : Act) : Prop := a.Plain s ∨ a.Ends s ∨ a.Resets s

theorem State.nextCycle_stores (s : State) : s.nextCycle.stores = s.stores.at' (s.gtime + 1) := by
  unfold State.nextCycle
  extract_lets s1 s2 s3
  have h1 : s1.stores = s.stores := stores_foldl (fun _ _ => by simp) _ _
  have h2 : s2.stores = s.stores := (stores_foldl (fun _ _ => by split <;> simp) _ _).trans h1
  have h3 : s3.stores = s.stores := by simp only [s3, State.applyEvents_stores, State.checkPitch_stores]; exact h2
  clear_value s3
  have hf : s3.countDown.flushWhenIdle.stores = s.stores := by simp [h3]
  have ht : s3.gtime = s.gtime := congrArg Stores.gtime h3
  rw [← hf, ← ht]
  rfl

/-- An event of the agenda that is run as it stands. -/
theorem Act.ok_agenda {s u : State} {i : Instr} {rest : List Turn} (ha : s.agenda = .event i :: rest)
    (hu : u.stores = s.stores) :
    (Act.exec i u).Ok s := by
  by_cases hi : i = .coldReset
  · subst hi
    exact .inr (.inr ⟨⟨u, rfl, hu⟩, .inl ⟨rest, ha⟩⟩)
  · exact .inl (Act.plain_exec hi hu)

theorem State.writing_ok {s : State} (hw : s.sys.hold = some .write) : s.writing.Ok s := by
  rw [State.writing]
  split
  · split
    · exact .inl (Act.plain_next rfl)
    · exact .inl (Act.plain_next rfl)
    · next i rest ha =>
      split
      · exact Act.ok_agenda ha rfl
      · exact .inl (Act.plain_next rfl)
    · exact .inl (Act.plain_next (by simp; rfl))
    · exact .inl (Follows.after_stores rfl (State.hostMemWrite_follows ..))
    · exact .inl (Act.plain_next rfl)
  · next hp =>
    refine .inr (.inl ⟨hp, _, rfl, ?_⟩)
    have h := s.applyEvents_stores
    generalize s.applyEvents = u at h ⊢
    rw [← h]
    rfl
  · split
    · next h => exact .inr (.inr ⟨⟨s, rfl, rfl⟩, .inr ⟨hw, h⟩⟩)
    · exact .inl (Act.plain_next rfl)

theorem State.turnOf_ok {s u : State} {t : Turn} {rest : List Turn} (ha : s.agenda = t :: rest)
    (hu : u.stores = s.stores) :
    (u.turn t).Ok s := by
  by_cases ht : t = .event .coldReset
  · subst ht
    rw [State.turn]
    split
    · exact Act.ok_agenda ha hu
    · exact .inl (Act.plain_next hu)
  · exact .inl ((State.turn_plain ht).after hu)

theorem State.cut?_agenda {s : State} {i : Instr} {rest : List Turn} (h : s.cut? = some (i, rest)) :
    s.agenda = .event i :: rest := by
  rw [State.cut?] at h
  split at h
  · split at h <;> cases h
    assumption
  · cases h

theorem State.act_ok (s : State) : s.act.Ok s := by
  rw [State.act]
  split
  · split
    · next ha => exact Act.ok_agenda ha rfl
    · exact .inl trivial
  split
  · next hw => exact State.writing_ok hw
  split
  · exact .inl (Act.plain_exec Instr.noConfusion rfl)
  · split
    · exact .inl (Act.plain_exec Instr.noConfusion rfl)
    · dsimp only
      split
      · exact .inl (Act.plain_exec Instr.noConfusion rfl)
      · exact .inl (Act.plain_next rfl)
  · split
    · next i rest hc => exact Act.ok_agenda (State.cut?_agenda hc) rfl
    · split
      · next i hi => exact .inl (Act.plain_exec (s.nextStart_ne_coldReset i hi) rfl)
      · exact .inl (Act.plain_next rfl)
  · split
    · exact .inl (State.endRunning_plain rfl)
    · next ha =>
      split
      · exact .inl (State.endRunning_plain rfl)
      · exact State.turnOf_ok ha rfl
    · exact .inl (State.endRunning_plain rfl)
    · next ha => exact State.turnOf_ok ha rfl
  · next hp =>
    split
    · next i hi => exact .inl (State.runDue_plain fun h => s.nextDue_plain _ hi (h ▸ rfl))
    · exact .inl (Act.plain_next (by simp))
    · exact .inl (Act.plain_next (by simp))
    · exact .inl (Act.plain_next (by simp))
    · split
      · exact .inl (Act.plain_exec Instr.noConfusion rfl)
      · split
        · exact .inl (Act.plain_next rfl)
        · exact .inr (.inl ⟨hp, _, rfl, s.nextCycle_stores⟩)
      · exact .inr (.inl ⟨hp, _, rfl, s.nextCycle_stores⟩)

/-! ### Cold reset -/

theorem State.afterReset_follows (s : State) : s.afterReset.gtime = 0 ∧ (MemoriesOk s → MemoriesOk s.afterReset) :=
  ⟨rfl, fun h => ⟨rfl, rfl, rfl, h.2.2.2⟩⟩

theorem execColdReset_next {s t : State} (h : execColdReset s = .next t) : t = s.afterReset ∨ t = s := by
  rw [execColdReset] at h
  split at h <;> cases h
  · exact .inl rfl
  · exact .inr rfl

/-! ### Obligations -/

theorem step_plain {s t : State} (ha : s.act.Plain s) (h : step s = .next t) : Follows s t := by
  rw [step] at h
  cases hact : s.act with
  | exec i u =>
    rw [hact] at ha h
    exact ha.2.trans (exec_follows u i ha.1 t h)
  | port x i u =>
    rw [hact] at ha h
    exact ha.2.trans (State.portedOut_follows x (exec_follows u i ha.1) t h)
  | next u =>
    rw [hact] at ha h
    cases h
    exact ha
  | stop f =>
    rw [hact] at h
    cases h

/-- What a step makes of GTIME and the memories, by the kind of its act. -/
theorem step_cases {s t : State} (h : step s = .next t) :
    Follows s t ∨
    (s.phase = .ending ∧ t.stores = s.stores.at' (s.gtime + 1)) ∨
    (((∃ rest, s.agenda = .event .coldReset :: rest) ∨ s.sys.hold = some .write ∧ s.sys.holdEnd ≤ s.gtime) ∧
      t.gtime = 0 ∧ (MemoriesOk s → MemoriesOk t)) := by
  obtain ha | ⟨hp, u, ha, hu⟩ | ⟨⟨u, ha, hu⟩, hr⟩ := s.act_ok
  · exact .inl (step_plain ha h)
  · rw [step, ha] at h
    cases h
    exact .inr (.inl ⟨hp, hu⟩)
  · rw [step, ha] at h
    have hf := Follows.of_stores hu
    obtain rfl | rfl := execColdReset_next h
    · exact .inr (.inr ⟨hr, u.afterReset_follows.1, fun hs => u.afterReset_follows.2 (hf.2 hs)⟩)
    · exact .inl hf

/-- Settles O59: by the kinds of act that `State.act_ok` tells apart. -/
theorem timeMoves : Obligations.TimeMoves := by
  intro s t h
  obtain hf | ⟨hp, ht⟩ | ⟨hr, h0, -⟩ := step_cases h
  · exact .inl hf.1
  · exact .inr (.inl ⟨congrArg Stores.gtime ht, hp⟩)
  · exact .inr (.inr ⟨h0, hr⟩)

/-- Settles O60: every writer of a byte memory keeps it canonical, and a cold reset empties it or leaves it. -/
theorem memoriesStayCanonical : Obligations.MemoriesStayCanonical := by
  intro s t hs h
  obtain hf | ⟨-, ht⟩ | ⟨-, -, hm⟩ := step_cases h
  · exact hf.2 hs
  · have hs : (s.stores.at' (s.gtime + 1)).Ok := hs
    rw [← ht] at hs
    exact hs
  · exact hm hs

end Sys2Proof.Machine
end

section
/-! ## What keeps a Cox word from its effect (R252, R55, R255) -/

namespace Sys2Proof.Machine

open Sys2Proof

/-- Settles O5: outside a delay slot every Cox word issues by `runCox`, whose refusals are one lemma each. -/
theorem coxIssueRules : Obligations.CoxIssueRules := by
  intro s t i g srcs hi hc hb c invreg
  obtain ⟨k, hk⟩ := exec_coxHead hi hc hb
  rw [hk]
  exact ⟨fun hg => congrArg _ (State.runCox_badGuard hc hg k), fun hg hp => congrArg _ (State.runCox_empty hc hg hp k),
    fun hg hp => congrArg _ (State.runCox_waits hc hg hp k), fun hg hp ho => congrArg _ (State.runCox_off hc hg hp ho k),
    fun hg hp ho hs => congrArg _ (State.runCox_badSource hc hg hp ho hs k)⟩

end Sys2Proof.Machine
end

section
/-! ## Accesses to a segment (R68, R69) -/

namespace Sys2Proof.Machine

open Sys2Proof

/-- R69: a stream bound to another tile, as the model tests it. -/
theorem boundElsewhere_iff {b : Option TileId} {t : TileId} :
    (b.isSome = true ∧ b ≠ some t) ↔ ∃ u, b = some u ∧ u ≠ t := by
  cases b <;> simp

/-- Settles O10: by the state of the segment, the kinds of access of R68's table one by one. -/
theorem segmentFaults : Obligations.SegmentFaults := by
  intro g t i streams others
  have hr := boundElsewhere_iff (b := g.reader) (t := t)
  have hw := boundElsewhere_iff (b := g.writer) (t := t)
  have hrole : (cROLE, 2) ≠ (cSTREAMEND, 0) := by decide
  have hread : (cREADONCE, 0) ≠ (cROLE, 1) := by decide
  have hmoved : ¬i < g.rcur ↔ g.rcur ≤ i := Nat.not_lt
  cases hst : g.st with
  | i | a => simp [Segment.fault, streams, others, hst, cROLE, cREADONCE, cSTREAMEND]
  | sOpen | sClosed =>
    simp only [Segment.fault, streams, others, hst, hr, hw]
    grind

end Sys2Proof.Machine
end

section
/-! ## The words and the reset values that the spec writes out -/

namespace Sys2Proof.Machine

open Sys2Proof

/-- Settles O56: each word is decoded. -/
theorem specWords : Obligations.SpecWords := by
  unfold Obligations.SpecWords
  decide

/-! At reset every sparse map is empty, so that each unit reads as its own reset value. -/

theorem State.reset_tile (t : TileId) : State.reset.tile t = Tile.reset := rfl
theorem State.reset_cox (t : TileId) : State.reset.cox t = Cox.reset := rfl
theorem State.reset_die (d : DieId) : State.reset.die d = Die.reset := rfl
theorem State.reset_group (g : Nat) : State.reset.group g = Group.reset := rfl
theorem Die.reset_queue (q : QueueId) : Die.reset.queue q = LQueue.reset := rfl
theorem Die.reset_bank (b : Nat) : Die.reset.bank b = McBank.reset := rfl

theorem State.reset_memoriesOk : MemoriesOk State.reset := ⟨rfl, rfl, rfl, rfl, rfl⟩

/-- Settles O55: by the reset value of each unit. -/
theorem resetState : Obligations.ResetState := by
  unfold Obligations.ResetState
  simp only [State.reset_tile, State.reset_cox, State.reset_die, State.reset_group, Die.reset_queue, Die.reset_bank]
  exact ⟨fun _ => rfl, rfl, rfl, fun _ => ⟨fun _ => rfl, rfl, rfl, fun _ => ⟨rfl, rfl, rfl, rfl, rfl, rfl, rfl⟩,
    fun _ => ⟨rfl, rfl, rfl, rfl, rfl⟩⟩, fun _ => rfl, rfl, rfl, rfl, fun _ => ⟨rfl, rfl, rfl, rfl, rfl⟩, fun _ => rfl,
    State.reset_memoriesOk⟩
end Sys2Proof.Machine
end

section
/-! ## Integer and predicate words (R264, R266 to R268) -/

namespace Sys2Proof.Machine

open Sys2Proof

/-! ### Results -/

theorem word_sub_eq {w : Nat} (a b : BitVec w) : a - b = BitVec.ofInt w (a.toInt - b.toInt) := by
  apply BitVec.eq_of_toInt_eq
  rw [BitVec.toInt_sub, BitVec.toInt_ofInt]

theorem word_add_eq {w : Nat} (a b : BitVec w) : a + b = BitVec.ofNat w (a.toNat + b.toNat) := by
  rw [BitVec.ofNat_add, BitVec.ofNat_toNat, BitVec.ofNat_toNat, BitVec.setWidth_eq, BitVec.setWidth_eq]

theorem word_mul_eq {w : Nat} (a b : BitVec w) : a * b = BitVec.ofNat w (a.toNat * b.toNat) := by
  rw [BitVec.ofNat_mul, BitVec.ofNat_toNat, BitVec.ofNat_toNat, BitVec.setWidth_eq, BitVec.setWidth_eq]

theorem word_shl_eq {w : Nat} (a : BitVec w) (n : Nat) : a <<< n = BitVec.ofNat w (a.toNat * 2 ^ n) := by
  apply BitVec.eq_of_toNat_eq
  rw [BitVec.toNat_shiftLeft, BitVec.toNat_ofNat, Nat.shiftLeft_eq]

theorem word_shr_eq {w : Nat} (a : BitVec w) (n : Nat) : a >>> n = BitVec.ofNat w (a.toNat / 2 ^ n) := by
  rw [← Nat.shiftRight_eq_div_pow, ← BitVec.toNat_ushiftRight, BitVec.ofNat_toNat, BitVec.setWidth_eq]

theorem word_sra_eq {w : Nat} (a : BitVec w) (n : Nat) : a.sshiftRight n = BitVec.ofInt w (a.toInt / 2 ^ n) := by
  rw [BitVec.sshiftRight, Int.shiftRight_eq_div_pow]
  norm_cast

theorem word_rot_eq (a : Word) (n : Nat) (h : n < 64) : a.rotateLeft n = a <<< n ||| a >>> (64 - n) := by
  rw [BitVec.rotateLeft, Nat.mod_eq_of_lt h, BitVec.rotateLeftAux]

theorem minWord_signed (a b : Word) : minWord true a b = if a.toInt ≤ b.toInt then a else b := by
  grind [minWord, BitVec.slt_iff_toInt_lt, BitVec.toInt_inj]

theorem maxWord_signed (a b : Word) : maxWord true a b = if a.toInt ≤ b.toInt then b else a := by
  grind [maxWord, BitVec.slt_iff_toInt_lt, BitVec.toInt_inj]

theorem minWord_unsigned (a b : Word) : minWord false a b = if a.toNat ≤ b.toNat then a else b := by
  grind [minWord, BitVec.ult_iff_toNat_lt, BitVec.toNat_inj]

theorem maxWord_unsigned (a b : Word) : maxWord false a b = if a.toNat ≤ b.toNat then b else a := by
  grind [maxWord, BitVec.ult_iff_toNat_lt, BitVec.toNat_inj]

/-- R264: the leading zeros of a word. -/
theorem clzWord_spec (v : Word) : ∃ n, clzWord v = BitVec.ofNat 64 n ∧ n ≤ 64 ∧
    (∀ i, 64 - n ≤ i → v.getLsbD i = false) ∧ (n < 64 → v.getLsbD (63 - n) = true) := by
  by_cases hv : v = 0
  · exact ⟨64, by simp [clzWord, hv], le_rfl, by simp [hv], fun h => absurd h (by decide)⟩
  · have h0 : v.toNat ≠ 0 := fun h => hv (BitVec.eq_of_toNat_eq h)
    have hl : v.toNat.log2 < 64 := (Nat.log2_lt h0).2 v.isLt
    refine ⟨63 - v.toNat.log2, by rw [clzWord, if_neg hv], by omega, fun i hi => ?_, fun _ => ?_⟩
    · exact Nat.testBit_lt_two_pow (Nat.lt_of_lt_of_le Nat.lt_log2_self (Nat.pow_le_pow_right (by decide) (by omega)))
    · rw [show 63 - (63 - v.toNat.log2) = v.toNat.log2 by omega]
      exact Nat.testBit_log2 h0

/-- R264: the trailing zeros of a word. -/
theorem ctzWord_spec (v : Word) : ∃ n, ctzWord v = BitVec.ofNat 64 n ∧ n ≤ 64 ∧
    (∀ i, i < n → v.getLsbD i = false) ∧ (n < 64 → v.getLsbD n = true) := by
  refine ⟨_, rfl, ?_⟩
  cases hf : (List.range 64).find? fun i => v.getLsbD i with
  | none =>
    refine ⟨le_rfl, fun i hi => ?_, fun h => absurd h (by decide)⟩
    simpa using List.find?_eq_none.1 hf i (List.mem_range.2 hi)
  | some n =>
    obtain ⟨hn, hl, hlt⟩ := List.find?_range_eq_some.1 hf
    exact ⟨(List.mem_range.1 hl).le, fun i hi => by simpa using hlt i hi, fun _ => hn⟩

theorem popcWord_eq (v : Word) : popcWord v = BitVec.ofNat 64 ((List.range 64).countP fun i => v.getLsbD i) := by
  rw [popcWord, List.countP_eq_length_filter]

theorem sextNat_eq_toInt {w : Nat} (b : BitVec w) : sextNat w b.toNat = b.toInt := by
  rw [sextNat, BitVec.toInt_eq_toNat_cond, Nat.mod_eq_of_lt b.isLt]

theorem sextNat_mod (w n : Nat) : sextNat w (n % 2 ^ w) = sextNat w n := by
  rw [sextNat, sextNat, Nat.mod_mod]

/-- R264: the low `w` bytes of a word, extended by their sign. -/
theorem extend_signed (w : Width) (v : Word) :
    extend ⟨w, true⟩ v.toNat = (v.setWidth (8 * widthBytes w)).signExtend 64 := by
  have hs : sextNat (8 * widthBytes w) v.toNat = (v.setWidth (8 * widthBytes w)).toInt := by
    rw [← sextNat_mod, ← BitVec.toNat_setWidth, sextNat_eq_toInt]
  rw [extend, if_pos rfl, hs, BitVec.signExtend]

theorem extend_unsigned (w : Width) (v : Word) :
    extend ⟨w, false⟩ v.toNat = (v.setWidth (8 * widthBytes w)).setWidth 64 := by
  rw [extend, if_neg Bool.false_ne_true]
  apply BitVec.eq_of_toNat_eq
  simp

/-- R264: `LIH`. -/
theorem lih_eq (i : BitVec 32) (v : Word) :
    i ++ v.setWidth 32 = BitVec.ofNat 64 (i.toNat * 2 ^ 32 + v.toNat % 2 ^ 32) := by
  apply BitVec.eq_of_toNat_eq
  have := i.isLt
  rw [BitVec.toNat_append, BitVec.toNat_setWidth, BitVec.toNat_ofNat, Nat.shiftLeft_eq, ← Nat.shiftLeft_eq,
    ← Nat.shiftLeft_add_eq_or_of_lt (Nat.mod_lt _ (by decide)), Nat.shiftLeft_eq]
  omega

/-! ### Sources -/

/-- R52, R51: a predicate among the sources reads as 1 where it is valid and true, else as 0. -/
theorem Cox.values_p (c : Cox) (p : Fin 16) (l : List COp) (e : List Word) (i : Nat) (h : l[i]? = some (.p p)) :
    (c.values l e).getD i 0 = if c.pValid p && c.readP p then 1 else 0 := by
  induction l generalizing i e with
  | nil => simp at h
  | cons o l ih =>
    cases i with
    | zero =>
      obtain rfl : o = .p p := by simpa using h
      simp [Cox.values]
    | succ i =>
      have h : l[i]? = some (.p p) := by simpa using h
      cases o <;> simpa [Cox.values] using ih _ i h

theorem coxValue_p (s : State) (t : TileId) {l : List COp} {i : Nat} {p : Fin 16} (h : l[i]? = some (.p p)) :
    coxValue s t l i = if (s.cox t).pValid p && (s.cox t).readP p then 1 else 0 := Cox.values_p _ _ _ _ _ h

theorem coxValue_p_ne_zero (s : State) (t : TileId) {l : List COp} {i : Nat} {p : Fin 16} (h : l[i]? = some (.p p)) :
    coxValue s t l i ≠ 0 ↔ (s.cox t).pValid p = true ∧ (s.cox t).readP p = true := by
  rw [coxValue_p s t h]
  split <;> simp_all

/-! ### Words that write a register or a predicate -/

/-- A word that runs and sends one result, made from its sources. -/
theorem State.runCox_sends {s : State} {t : TileId} {g : CGuard} {srcs : List COp} (h : CoxRuns s t g srcs) (l : Nat)
    (f : List Word → CoxWrite) :
    s.runCox g srcs (fun v u => .done (u.modCox u.curTile fun c => c.send (u.gtime + l) (f v))) =
      coxSends (coxIssued s t srcs) t l (f ((s.cox t).values srcs ((s.cox t).popped (popCount srcs)))) := by
  have hcur : (coxIssued s t srcs).curTile = t := State.curTile_cox h.atWork
  rw [State.runCox_runs h]
  simp only [hcur]
  rfl

/-- Settles O1: each word writes its function of its sources, which the lemmas above bring to the form of R264. -/
theorem integerWords : Obligations.IntegerWords := by
  refine ⟨fun s t o h => ?_, fun s t g d => ⟨fun a h => ?_, fun i h => ?_, fun a i h => ?_, fun a b c h => ?_⟩⟩
  · intro a b n writes
    have w {l : Nat} {f : Word → Word → Word} {v : Word} (hv : f a b = v) : (.next (s.alu3 o l f) : Out) = writes l v :=
      hv ▸ congrArg Host.Outcome.next (State.alu3_runs h l f)
    have hn : n < 64 := Nat.mod_lt _ (by decide)
    exact ⟨w (word_add_eq a b), w (word_sub_eq a b), w (word_mul_eq a b), w rfl, w rfl, w rfl, w rfl, w rfl, w rfl,
      w (word_shl_eq a n), w (word_shr_eq a n), w (word_sra_eq a n), w (word_rot_eq a n hn), w (minWord_signed a b),
      w (maxWord_signed a b), w (minWord_unsigned a b), w (maxWord_unsigned a b)⟩
  · intro v writes
    have w {f : Word → Word} {r : Word} (hr : f v = r) : (.next (s.alu1 g d a f) : Out) = writes r :=
      hr ▸ congrArg Host.Outcome.next (State.runCox_sends h 1 fun v => .x d (f (nth v 0)))
    obtain ⟨n, hn, hclz⟩ := clzWord_spec v
    obtain ⟨m, hm, hctz⟩ := ctzWord_spec v
    exact ⟨⟨n, w hn, hclz⟩, ⟨m, w hm, hctz⟩, w (popcWord_eq v), w (extend_signed .b1 v), w (extend_signed .b2 v),
      w (extend_signed .b4 v), w (extend_unsigned .b1 v), w (extend_unsigned .b2 v), w (extend_unsigned .b4 v)⟩
  · exact congrArg Host.Outcome.next (State.runCox_sends h 1 fun _ => .x d (sextImm i))
  · rw [← lih_eq]
    exact congrArg Host.Outcome.next (State.runCox_sends h 1 fun v => .x d (i ++ (nth v 0).setWidth 32))
  · intro v
    have hc : (coxValue s t [a.op, b.op, .p c] 2 ≠ 0) = ((s.cox t).pValid c = true ∧ (s.cox t).readP c = true) :=
      propext (coxValue_p_ne_zero s t (i := 2) rfl)
    simp only [← hc]
    exact congrArg Host.Outcome.next (State.runCox_sends h 1 fun v => .x d (if nth v 2 ≠ 0 then nth v 0 else nth v 1))

theorem condHolds_iff (cc : Cond) (a b : Word) : condHolds cc a b = true ↔ condTruth cc a b := by
  cases cc <;> simp [condHolds, condTruth, BitVec.slt_iff_toInt_lt, BitVec.sle_iff_toInt_le, BitVec.ult_iff_toNat_lt,
    BitVec.ule_iff_toNat_le]

theorem logBit_iff (op : LogOp) (a b : Bool) : logBit op a b = true ↔ logTruth op (a = true) (b = true) := by
  cases op <;> cases a <;> cases b <;> simp [logBit, logTruth]

/-- R268, FN = 3: the predicates below, their valid bits above. -/
theorem Cox.pallImage_eq (c : Cox) : c.pallImage = ((c.pv ||| 1) ++ ((c.p ||| 1) &&& (c.pv ||| 1))).setWidth 64 := by
  rw [Cox.pallImage]
  generalize c.pv ||| 1 = v
  generalize (c.p ||| 1) &&& v = p
  apply BitVec.eq_of_toNat_eq
  rw [BitVec.toNat_setWidth, BitVec.toNat_append, ← Nat.shiftLeft_add_eq_or_of_lt p.isLt, BitVec.toNat_ofNat, Nat.shiftLeft_eq]
  omega

theorem Cox.getLsbD_or_one (v : BitVec 16) (p : Fin 16) : (v ||| 1).getLsbD p.val = (p == 0 || v.getLsbD p.val) := by
  rw [BitVec.getLsbD_or, Bool.or_comm]
  congr 1
  revert p
  decide

theorem Cox.pallImage_spec (c : Cox) (p : Fin 16) :
    (c.pallImage.getLsbD p.val = true ↔ c.pValid p = true ∧ c.readP p = true) ∧ c.pallImage.getLsbD (16 + p.val) = c.pValid p := by
  have h1 : p.val < 64 := by omega
  have h2 : 16 + p.val < 64 := by omega
  simp only [Cox.pallImage_eq, BitVec.getLsbD_setWidth, BitVec.getLsbD_append, h1, h2, p.isLt, Nat.not_lt.2 (Nat.le_add_right 16 p.val),
    BitVec.getLsbD_and, Cox.getLsbD_or_one, Nat.add_sub_cancel_left, Cox.pValid, Cox.readP, decide_true, Bool.true_and, if_true,
    if_false, Bool.and_eq_true, and_comm, and_self]

theorem Cox.pallImage_high (c : Cox) (i : Nat) (h : 32 ≤ i) : c.pallImage.getLsbD i = false := by
  rw [Cox.pallImage_eq, BitVec.getLsbD_setWidth, BitVec.getLsbD_of_ge _ _ h, Bool.and_false]

/-- Settles O3: each word writes its predicate or register, as R266 to R268 give it. -/
theorem predicateWords : Obligations.PredicateWords := by
  intro s t g holds
  have hp {l : List COp} {i : Nat} {p : Fin 16} (h : l[i]? = some (.p p)) : (coxValue s t l i != 0) = true ↔ holds p :=
    bne_iff_ne.trans (coxValue_p_ne_zero s t h)
  refine ⟨fun d cc a b h => ?_, fun d a b op h => ?_, fun d a h => ?_, fun d a h => ?_, fun d a h => ?_, fun d h => ?_, fun a h => ?_⟩
  · exact ⟨_, congrArg Host.Outcome.next (State.runCox_sends h 1 fun v => .p d (condHolds cc (nth v 0) (nth v 1))), condHolds_iff ..⟩
  · refine ⟨_, congrArg Host.Outcome.next (State.runCox_sends h 1 fun v => .p d (logBit op (nth v 0 != 0) (nth v 1 != 0))), ?_⟩
    have := logBit_iff op (coxValue s t [.p a, .p b] 0 != 0) (coxValue s t [.p a, .p b] 1 != 0)
    rwa [hp (i := 0) (p := a) rfl, hp (i := 1) (p := b) rfl] at this
  · exact ⟨_, congrArg Host.Outcome.next (State.runCox_sends h 1 fun v => .p d (nth v 0 != 0)), hp rfl⟩
  · exact ⟨_, congrArg Host.Outcome.next (State.runCox_sends h 1 fun v => .p d (nth v 0 != 0)), bne_iff_ne⟩
  · have hv := coxValue_p s t (l := [.p a]) (i := 0) rfl
    refine ⟨_, congrArg Host.Outcome.next (State.runCox_sends h 1 fun v => .x d (nth v 0)), fun ha => ?_, fun ha => ?_⟩
    · exact hv.trans (if_pos (Bool.and_eq_true_iff.2 ha))
    · exact hv.trans (if_neg fun hb => ha (Bool.and_eq_true_iff.1 hb))
  · refine ⟨(s.cox t).pallImage, ?_, fun p => (s.cox t).pallImage_spec p, fun i => (s.cox t).pallImage_high i⟩
    have hcur : (coxIssued s t []).curTile = t := State.curTile_cox h.atWork
    have himage : ((coxIssued s t []).cox t).pallImage = (s.cox t).pallImage := by
      rw [coxIssued, State.cox_modCox_same]
      simp [Cox.pallImage]
    refine congrArg Host.Outcome.next ((State.runCox_runs h _).trans ?_)
    simp only [State.sendX, hcur, himage]
    rfl
  · refine ⟨_, _, congrArg Host.Outcome.next (State.runCox_sends h 1 fun v => .pall ((nth v 0).setWidth 16) ((nth v 0).extractLsb' 16 16)),
      fun p => ⟨?_, ?_⟩⟩
    · rw [BitVec.getLsbD_setWidth, decide_eq_true p.isLt, Bool.true_and]
      rfl
    · rw [BitVec.getLsbD_extractLsb', decide_eq_true p.isLt, Bool.true_and]
      rfl

end Sys2Proof.Machine
end

section
/-! ## States that differ in one tile, or in one Cox -/

namespace Sys2Proof.Machine

open Sys2Proof

theorem onlyTile_refl (s : State) (t : TileId) : OnlyTile s s t := ⟨rfl, fun _ _ => rfl⟩

theorem onlyTile_modTile (s : State) (t : TileId) (f : Tile → Tile) : OnlyTile s (s.modTile t f) t :=
  ⟨rfl, fun v h => State.tile_modTile_ne s t v f h⟩

theorem onlyTile_trans {s u v : State} {t : TileId} (h : OnlyTile s u t) (k : OnlyTile u v t) : OnlyTile s v t :=
  ⟨by rw [k.rest, h.rest], fun w hw => (k.others w hw).trans (h.others w hw)⟩

theorem onlyCox_refl (s : State) (t : TileId) : OnlyCox s s t := ⟨onlyTile_refl s t, rfl⟩

theorem onlyCox_modCox (s : State) (t : TileId) (f : Cox → Cox) : OnlyCox s (s.modCox t f) t :=
  ⟨onlyTile_modTile s t _, by rw [State.tile_modCox_same, State.cox_modCox_same]⟩

theorem onlyCox_trans {s u v : State} {t : TileId} (h : OnlyCox s u t) (k : OnlyCox u v t) : OnlyCox s v t :=
  ⟨onlyTile_trans h.toOnlyTile k.toOnlyTile, by rw [k.tile, h.tile]⟩

theorem onlyCox_modTile {s : State} {t : TileId} {f : Tile → Tile} (h : f (s.tile t) = { s.tile t with cox := (f (s.tile t)).cox }) :
    OnlyCox s (s.modTile t f) t :=
  ⟨onlyTile_modTile s t f, by rw [State.cox_modTile_same, State.tile_modTile_same]; exact h⟩

end Sys2Proof.Machine
end

section
/-! ## The end of an iteration (R325, R332), and the events a Cox takes (R328 to R333) -/

namespace Sys2Proof.Machine

open Sys2Proof

/-! ### Launches -/

theorem find?_map_id (l : List Launch) (id : BitVec 32) {f : Launch → Launch} (hf : ∀ x, (f x).id = x.id) :
    (l.map fun x => if x.id = id then f x else x).find? (fun x => x.id = id) = (l.find? fun x => x.id = id).map f := by
  induction l with
  | nil => rfl
  | cons x l ih =>
    by_cases hx : x.id = id
    · simp [hx, hf]
    · simp [hx, ih]

theorem State.launch?_modLaunch_same (s : State) (id : BitVec 32) {f : Launch → Launch} (hf : ∀ x, (f x).id = x.id) :
    (s.modLaunch id f).launch? id = (s.launch? id).map f := find?_map_id s.launches id hf

theorem State.launches_foldl {α : Type} {f : State → α → State} (h : ∀ s x, (f s x).launches = s.launches) (l : List α) (s : State) :
    (l.foldl f s).launches = s.launches :=
  foldl_keeps (p := fun u : State => u.launches = s.launches) (fun u x hu => (h u x).trans hu) rfl

theorem State.fab_foldl {α : Type} {f : State → α → State} (h : ∀ s x, (f s x).fab = s.fab) (l : List α) (s : State) :
    (l.foldl f s).fab = s.fab :=
  foldl_keeps (p := fun u : State => u.fab = s.fab) (fun u x hu => (h u x).trans hu) rfl

theorem State.tiles_foldl {α : Type} {f : State → α → State} (h : ∀ s x, (f s x).tiles = s.tiles) (l : List α) (s : State) :
    (l.foldl f s).tiles = s.tiles :=
  foldl_keeps (p := fun u : State => u.tiles = s.tiles) (fun u x hu => (h u x).trans hu) rfl

theorem State.tile_of_tiles {s u : State} (h : u.tiles = s.tiles) (t : TileId) : u.tile t = s.tile t := by rw [State.tile, h, State.tile]

/-! ### R332, steps 2 to 4 -/

/-- A tile in which only the gang's place and the image differ. -/
def SameButPlace (x y : Tile) : Prop := y = { x with place := y.place, image := y.image }

theorem sameButPlace_refl (x : Tile) : SameButPlace x x := rfl

theorem SameButPlace.trans {x y z : Tile} (h : SameButPlace x y) (k : SameButPlace y z) : SameButPlace x z := by
  rw [SameButPlace] at *
  rw [k, h]

theorem State.releaseGangs_tile (s : State) (id : BitVec 32) (t : TileId) :
    SameButPlace (s.tile t) ((s.releaseGangs id).tile t) := by
  have step (s : State) (u : TileId) (f : Tile → Tile) (hf : ∀ x, SameButPlace x (f x)) : SameButPlace (s.tile t) ((s.modTile u f).tile t) := by
    by_cases h : t = u
    · rw [h, State.tile_modTile_same]; exact hf _
    · rw [State.tile_modTile_ne _ _ _ _ h]; exact sameButPlace_refl _
  rw [State.releaseGangs]
  split
  · exact sameButPlace_refl _
  · refine foldl_keeps (p := fun u : State => SameButPlace (s.tile t) (u.tile t)) (fun u g hu => ?_) rfl
    exact foldl_keeps (p := fun u : State => SameButPlace (s.tile t) (u.tile t)) (fun u v hu => hu.trans (step u v _ fun _ => by rfl)) hu

theorem State.releaseGangs_fab (s : State) (id : BitVec 32) : (s.releaseGangs id).fab = s.fab := by
  rw [State.releaseGangs]
  split
  · rfl
  · refine (State.fab_foldl (fun u g => ?_) _ _).trans rfl
    exact State.fab_foldl (fun _ _ => by rfl) _ _

theorem State.releaseGangs_launch? (s : State) (id : BitVec 32) {l : Launch} (h : s.launch? id = some l) :
    ∃ m, (s.releaseGangs id).launch? id = some m ∧ m.failure = l.failure := by
  rw [State.releaseGangs, h]
  refine ⟨{ l with gangs := l.gangs.filter fun g => !g.past l.stopped }, ?_, rfl⟩
  dsimp only
  rw [State.launch?, State.launches_foldl fun u g => ?_]
  · rw [← State.launch?, State.launch?_modLaunch_same, h]
    · rfl
    · exact fun _ => rfl
  · exact State.launches_foldl (fun _ _ => by rfl) _ _

theorem State.settleBanks_tile (s : State) (c : CrewId) (t : TileId) : (s.settleBanks c).tile t = s.tile t := rfl

theorem State.dropCrew_tile (s : State) (t : TileId) :
    (s.dropCrew t).tile t = { s.tile t with m := { (s.tile t).m with lstate := .none } } :=
  s.tile_modTile_same t fun x => { x with m := { x.m with lstate := .none } }

theorem State.abandonCrew_tile (s : State) (t : TileId) :
    (s.abandonCrew t).tile t = { s.tile t with m := { MState.reset with lstate := .none } } := by
  rw [State.abandonCrew]
  simp only [State.settleBanks_tile, State.tile_modTile_same, State.dropCrew_tile]
  rfl

theorem State.settleBanks_launches (s : State) (c : CrewId) : (s.settleBanks c).launches = s.launches := by
  rw [State.settleBanks]
  exact State.modCrew_launches _ _ _

theorem State.dropCrew_launches (s : State) (t : TileId) : (s.dropCrew t).launches = s.launches := by
  simp only [State.dropCrew, State.dropLease, State.modCrew_launches, State.modTile_launches]

theorem State.abandonCrew_launches (s : State) (t : TileId) : (s.abandonCrew t).launches = s.launches := by
  rw [State.abandonCrew]
  simp only [State.settleBanks_launches, State.modTile_launches, State.dropCrew_launches, State.modCrew_launches, State.tick_launches]

theorem State.dropGroups_tiles (s : State) (t : TileId) : (s.dropGroups t).tiles = s.tiles := by
  rw [State.dropGroups]
  exact State.tiles_foldl (fun _ _ => by rfl) _ _

theorem State.dropGroups_launches (s : State) (t : TileId) : (s.dropGroups t).launches = s.launches := by
  rw [State.dropGroups]
  exact State.launches_foldl (fun _ _ => by rfl) _ _

/-- R238: no group of the tile is left open. -/
theorem State.dropGroups_free (s : State) (t : TileId) : ∀ g ∈ (s.dropGroups t).fab.groups, g.2.owner = t → g.2.st = .free := by
  rw [State.dropGroups]
  simp only [State.modFab_fab, List.mem_map]
  rintro g ⟨⟨k, e⟩, -, rfl⟩ ho
  dsimp only at ho ⊢
  split
  · rfl
  · next h =>
    rw [if_neg h] at ho
    exact not_not.1 fun hs => h ⟨ho, hs⟩

/-- The launch of a gang's member takes its first cause. -/
theorem State.failLaunch_launch? (s : State) (id : BitVec 32) (code : Byte) (k : Nat) {l : Launch} (h : s.launch? id = some l) :
    ∃ m, (s.failLaunch id code k).launch? id = some m ∧ m.failure = some (l.failure.getD (code, k)) := by
  rw [State.failLaunch, State.launch?_modLaunch_same, h]
  · exact ⟨_, rfl, rfl⟩
  · exact fun _ => rfl

theorem State.pointDone_tile (s : State) (t : TileId) : SameButPlace (s.tile t) ((s.pointDone t).tile t) := by
  rw [State.pointDone]
  split
  · exact sameButPlace_refl _
  · exact State.releaseGangs_tile _ _ t

theorem State.pointDone_fab (s : State) (t : TileId) : (s.pointDone t).fab = s.fab := by
  rw [State.pointDone]
  split
  · rfl
  · exact State.releaseGangs_fab _ _

theorem State.pointDone_launch? (s : State) (t : TileId) {p : Place} {l : Launch} (hp : (s.tile t).place = some p)
    (h : s.launch? p.launch = some l) : ∃ m, (s.pointDone t).launch? p.launch = some m ∧ m.failure = l.failure := by
  rw [State.pointDone, hp]
  have h' := (State.launch?_modLaunch_same s p.launch (f := fun l =>
    { l with gangs := l.gangs.map fun g => if g.tiles = p.tiles then g.doneAt p.member else g }) fun _ => rfl).trans
      (congrArg (Option.map _) h)
  obtain ⟨m, hm, hf⟩ := State.releaseGangs_launch? _ _ h'
  exact ⟨m, hm, hf⟩

theorem Tile.abandonEngines_queue (x : Tile) (e : Eng) : (x.abandonEngines.eng e).queue = [] := by
  simp [Tile.abandonEngines, Tile.eng, Engine.reset]

/-- What of tile `t` and its launch the end of an iteration goes by. -/
structure SameIteration (s w : State) (t : TileId) : Prop where
  reqs : (w.tile t).covered = (s.tile t).covered
  place : (w.tile t).place = (s.tile t).place
  queues : ∀ e, ((w.tile t).eng e).queue = ((s.tile t).eng e).queue
  buffer : (w.tile t).portage.buffer = (s.tile t).portage.buffer
  launches : w.launches = s.launches

theorem State.endNow_ended {s w : State} {t : TileId} (h : SameIteration s w t) (code : Byte) :
    IterationEnded s (w.endNow t code) t code := by
  unfold State.endNow
  extract_lets u1 u2 u3 u4
  have h1 : u1.tile t = { w.tile t with m := { MState.reset with lstate := .none } } := w.abandonCrew_tile t
  have h2 : u2.tile t = u1.tile t := State.tile_of_tiles (u1.dropGroups_tiles t) t
  have hg2 := u1.dropGroups_free t
  have hl2 : u2.launches = s.launches := ((u1.dropGroups_launches t).trans (w.abandonCrew_launches t)).trans h.launches
  have h3 : u3.tile t = u2.tile t := by
    simp only [u3]
    split <;> rfl
  have h4 : SameButPlace (u3.tile t) (u4.tile t) := u3.pointDone_tile t
  have hfab : u4.fab = u2.fab := by
    refine (State.pointDone_fab u3 t).trans ?_
    simp only [u3]
    split <;> rfl
  refine ⟨?_, ?_, fun e => ?_, ?_, ?_, fun p l hp hl => ?_⟩
  · simp
  · simp only [State.tile_modTile_same, and_true]
    rw [h4, h3, h2, h1]
    exact h.reqs
  · simp only [State.tile_modTile_same]
    exact Tile.abandonEngines_queue _ e
  · simp [Cox.abandon, Cox.rest]
  · simp only [State.modTile_fab, hfab]
    exact hg2
  · have hp2 : (u2.tile t).place = some p := by rw [h2, h1]; exact h.place.trans hp
    have hl : u2.launch? p.launch = some l := by rw [State.launch?, hl2]; exact hl
    obtain ⟨m, hm, hf⟩ := u2.failLaunch_launch? p.launch code t.val hl
    have hu3 : u3 = u2.failLaunch p.launch code t.val := by simp only [u3, hp2]
    obtain ⟨k, hk, hkf⟩ := u3.pointDone_launch? t (p := p) (h3 ▸ hp2) (hu3 ▸ hm)
    exact ⟨k, hk, hkf.trans hf⟩

theorem Tile.streamsOver_iff (x : Tile) : x.streamsOver = true ↔
    (∀ e, e = .l ∨ e = .s → ∀ n ∈ (x.eng e).queue, n.st = .waiting) ∧ x.portage.buffer = [] := by
  simp [Tile.streamsOver, and_assoc]

/-- R332, step 1. -/
theorem State.ends_ending {s w : State} {t : TileId} (h : SameIteration s w t) (code : Byte) :
    IterationEnding s (w.modTile t fun x => x.ends code) t code := by
  have hq (e : Eng) (he : e = .v ∨ e = .m) (x : Tile) : ((x.ends code).eng e).queue = [] := by
    rcases he with rfl | rfl <;> simp [Tile.ends, Tile.eng, Eng.ix, Engine.reset]
  have hl (e : Eng) (he : e = .l ∨ e = .s) (x : Tile) : ((x.ends code).eng e).queue = (x.eng e).queue.filter fun n => n.st ≠ .waiting := by
    rcases he with rfl | rfl <;> simp [Tile.ends, Tile.eng, Eng.ix]
  refine ⟨?_, ?_, ⟨?_, ?_, fun e he n hn => ?_⟩, ?_⟩
  · simp [Tile.ends]
  · simp only [State.tile_modTile_same]
    exact ⟨h.reqs, rfl⟩
  · simp only [State.tile_modTile_same]; exact hq _ (.inl rfl) _
  · simp only [State.tile_modTile_same]; exact hq _ (.inr rfl) _
  · simp only [State.tile_modTile_same, hl e he, List.mem_filter] at hn
    simpa using hn.2
  · simp [Tile.ends, Cox.abandon, Cox.rest]

/-- R332: outside a hold-up an iteration ends at once, or once L and S have finished. -/
theorem State.endIteration_ends {s w : State} {t : TileId} (h : SameIteration s w t) (hw : w.holding = false) (code : Byte) :
    EndsIteration s (w.endIteration t code) t code := by
  have hidle : (w.tile t).streamsOver = true ↔ StreamsIdle s t := by
    rw [Tile.streamsOver_iff]
    simp only [h.queues, h.buffer]
    exact ⟨fun k => ⟨k.1, k.2⟩, fun k => ⟨k.1, k.2⟩⟩
  simp only [State.endIteration, hw, Bool.false_eq_true, if_false]
  refine ⟨fun hs => ?_, fun hs => ?_⟩
  · rw [if_pos (hidle.2 hs)]
    exact State.endNow_ended h code
  · rw [if_neg fun k => hs (hidle.1 k)]
    exact State.ends_ending h code

/-- A change of the Cox of the tile leaves what the end of its iteration goes by. -/
theorem sameIteration_modCox (s : State) (t : TileId) (f : Cox → Cox) : SameIteration s (s.modCox t f) t := by
  constructor <;> simp [State.tile_modCox_same, Tile.covered, Tile.eng]

theorem sameIteration_refl (s : State) (t : TileId) : SameIteration s s t := ⟨rfl, rfl, fun _ => rfl, rfl, rfl⟩

theorem Tile.takenBy_queue (x : Tile) (e f : Eng) : ((x.takenBy e).eng f).queue = (x.eng f).queue := by
  rw [Tile.takenBy]
  by_cases h : f = e
  · subst h; rw [Tile.eng_modEng_same]
  · rw [Tile.eng_modEng_ne _ _ _ _ h]

/-- So does a fault of an engine that has been reported. -/
theorem sameIteration_takenBy (s : State) (t : TileId) (e : Eng) : SameIteration s (s.modTile t fun x => x.takenBy e) t where
  reqs := by rw [State.tile_modTile_same]; rfl
  place := by rw [State.tile_modTile_same]; rfl
  queues f := by rw [State.tile_modTile_same]; exact Tile.takenBy_queue _ e f
  buffer := by rw [State.tile_modTile_same]; rfl
  launches := rfl

/-! ## Events (R330, R331, R281) -/

/-- Settles O17: the guards of `State.event?` in their order. -/
theorem eventOrder : Obligations.EventOrder := by
  intro s t
  simp only [State.cox]
  intro hlive hstop
  have he : s.event? t = _ := if_neg (by simp [hlive, hstop])
  rw [he]
  refine ⟨fun k pc hf => ?_, fun hf hc => ⟨fun hd => ?_, fun hd => ?_⟩, fun hf hc => ⟨fun hp => ?_, fun hp k hm => ?_, fun hp hm hd => ?_,
    fun hp hm hd => ⟨fun ht => ?_, fun ht => ⟨fun e f hef => ?_, fun hef => ⟨fun hi he => ?_, fun hi => ?_⟩⟩⟩⟩⟩
  · rw [hf]
  · simp [hf, hc, hd.1, hd.2]
  · rcases hd with hd | hd <;> simp [hf, hc, hd]
  · simp [hf, hc, hp]
  · simp [hf, hc, hp, hm]
  · simp [hf, hc, hp, hm, hd]
  · simp [hf, hc, hp, hm, hd, ht]
  · simp [hf, hc, hp, hm, hd, ht, hef]
  · simp [hf, hc, hp, hm, hd, ht, hef, hi, he]
  · rcases hi with hi | hi <;> simp [hf, hc, hp, hm, hd, ht, hef, hi]

/-! ## Entering the handler -/

/-- R330: what an entry outside a handler makes of the Cox. -/
theorem State.takeTrap_enters {w : State} {t : TileId} (hen : (w.cox t).tvec.getLsbD 16 = true) (htm : (w.cox t).tm = false) (k : Trap)
    (pc : Word) : w.takeTrap t k pc =
      (w.modTile t fun x => { x with reqs := x.reqs.filter fun r => !(r.slot && r.region == x.cox.region) }).modCox t
        fun c => c.enter w.gtime k pc := by
  simp [State.takeTrap, Cox.trapsOn, hen, htm]

theorem State.takeTrap_nests {w : State} {t : TileId} (hen : (w.cox t).tvec.getLsbD 16 = true) (htm : (w.cox t).tm = true) {k : Trap}
    (hk : k.code = cPFAIL) (pc : Word) : w.takeTrap t k pc = w.modCox t fun c => c.enterNested w.gtime k pc := by
  simp [State.takeTrap, Cox.trapsOn, hen, htm, hk]

theorem State.takeTrap_ends {w : State} {t : TileId} {k : Trap}
    (h : (w.cox t).tvec.getLsbD 16 = false ∨ (w.cox t).tm = true ∧ k.code ≠ cPFAIL) (pc : Word) :
    w.takeTrap t k pc = w.endIteration t k.code := by
  rcases h with h | ⟨h, hk⟩
  · exact if_pos h
  · simp [State.takeTrap, h, hk]

/-- An event that enters a handler is first marked as taken, which no more than the fault, what is pending, and the flags of an engine
show. -/
structure Marked (s w : State) (t : TileId) : Prop where
  only : OnlyTile s w t
  cox : ∃ f p, w.cox t = { s.cox t with fault := f, pend := p }
  tile : ∃ g, w.tile t = { s.tile t with cox := w.cox t, engines := g }
  iteration : SameIteration s w t

theorem marked_modCox (s : State) (t : TileId) {f : Cox → Cox} (h : ∃ k p, f (s.cox t) = { s.cox t with fault := k, pend := p }) :
    Marked s (s.modCox t f) t where
  only := onlyTile_modTile s t _
  cox := by rw [State.cox_modCox_same]; exact h
  tile := ⟨(s.tile t).engines, by rw [State.tile_modCox_same, State.cox_modCox_same]⟩
  iteration := sameIteration_modCox s t f

theorem marked_takenBy (s : State) (t : TileId) (e : Eng) : Marked s (s.modTile t fun x => x.takenBy e) t where
  only := onlyTile_modTile s t _
  cox := ⟨_, _, by rw [State.cox_modTile_same]; rfl⟩
  tile := ⟨_, by rw [State.cox_modTile_same, State.tile_modTile_same]; rfl⟩
  iteration := sameIteration_takenBy s t e

/-- TRAP_ENTRY takes the trap of the event. -/
theorem execTrapEntry_takes {s : State} {t : TileId} {e : Taken} {k : Trap} {pc : Word} (he : s.event? t = some e)
    (hk : trapOf (s.cox t) e = some (k, pc)) : ∃ w, Marked s w t ∧ exec (.trapEntry t) s = .next (w.takeTrap t k pc) := by
  have hx : exec (.trapEntry t) s = _ := execTrapEntry.eq_def t s
  rw [he] at hx
  cases e with
  | precise | pfail | hostint =>
    cases hk
    exact ⟨_, marked_modCox s t ⟨_, _, by rfl⟩, hx⟩
  | ends code => cases hk
  | engine e f =>
    cases hk
    exact ⟨_, marked_takenBy s t e, hx⟩

/-- Settles O16: the event is marked as taken, and then the trap enters, nests or ends the iteration. -/
theorem trapsTaken : Obligations.TrapsTaken := by
  refine ⟨fun s t e k pc he hk hen htm => ?_, fun s t hen htm => ⟨fun he => ?_, fun k pc he hk hh => ?_⟩,
    fun s t hh => ⟨fun e k pc he hk hen => ?_, fun code he => ?_, fun code hs hc hl hs' => ?_⟩⟩
  · obtain ⟨w, hm, hx⟩ := execTrapEntry_takes he hk
    obtain ⟨f, p, hcox⟩ := hm.cox
    obtain ⟨g, htile⟩ := hm.tile
    rw [State.takeTrap_enters (by rw [hcox]; exact hen) (by rw [hcox]; exact htm)] at hx
    refine ⟨_, hx, onlyTile_trans hm.only (onlyTile_trans (onlyTile_modTile _ _ _) (onlyTile_modTile _ _ _)), ?_⟩
    have hg : w.gtime = s.gtime := by rw [hm.only.rest]
    simp only [State.cox_modCox_same, State.tile_modCox_same, State.tile_modTile_same, State.cox_modTile_same, htile, hcox, hg]
    refine ⟨rfl, rfl, rfl, rfl, rfl, rfl, rfl, ?_, rfl, rfl, rfl, rfl, rfl, rfl, rfl, rfl, fun l => ?_, fun r hr => ?_, fun r => ?_, trivial, trivial⟩
    · simp [Cox.enter, Cox.toHandler, causeOf]
    · simp [Cox.enter, Cox.toHandler, Cox.restart, List.mem_filter, imp_iff_not_or]
    · simp only [Cox.enter, Cox.toHandler, Cox.restart, List.mem_map, List.mem_filter] at hr
      obtain ⟨q, ⟨-, hq⟩, rfl⟩ := hr
      exact ⟨rfl, by simpa [imp_iff_not_or, Option.isSome_iff_ne_none] using hq⟩
    · simp [List.mem_filter, imp_iff_not_or]
  · obtain ⟨w, hm, hx⟩ := execTrapEntry_takes he (k := ⟨cPFAIL, 5, 0, 0⟩) (pc := (s.cox t).pc) rfl
    obtain ⟨f, p, hcox⟩ := hm.cox
    rw [State.takeTrap_nests (by rw [hcox]; exact hen) (by rw [hcox]; exact htm) rfl] at hx
    refine ⟨_, hx, onlyTile_trans hm.only (onlyTile_modTile _ _ _), ?_⟩
    have hg : w.gtime = s.gtime := by rw [hm.only.rest]
    simp only [State.cox_modCox_same, hcox, hg]
    exact ⟨rfl, rfl, rfl, rfl, rfl, rfl, rfl, rfl, rfl, rfl, rfl⟩
  · obtain ⟨w, hm, hx⟩ := execTrapEntry_takes he (k := k) (pc := pc) rfl
    obtain ⟨f, p, hcox⟩ := hm.cox
    rw [State.takeTrap_ends (.inr ⟨by rw [hcox]; exact htm, hk⟩)] at hx
    exact ⟨_, hx, State.endIteration_ends hm.iteration (by rw [hm.only.rest]; exact hh) _⟩
  · obtain ⟨w, hm, hx⟩ := execTrapEntry_takes he hk
    obtain ⟨f, p, hcox⟩ := hm.cox
    rw [State.takeTrap_ends (.inl (by rw [hcox]; exact hen))] at hx
    exact ⟨_, hx, State.endIteration_ends hm.iteration (by rw [hm.only.rest]; exact hh) _⟩
  · have hx : exec (.iterationEnd t) s = _ := execIterationEnd.eq_def t s
    rw [he] at hx
    exact ⟨_, hx, State.endIteration_ends (sameIteration_modCox s t _) hh code⟩
  · have hev : s.event? t = none := by simp only [State.event?]; exact if_pos (.inr hs)
    refine ⟨_, ?_, State.endNow_ended (sameIteration_refl s t) code⟩
    simp [exec, execIterationEnd, hev, State.endsNow, hc, hl, hs']

end Sys2Proof.Machine
end

section
/-! ## System words of the Cox (R283, R284, R333) -/

namespace Sys2Proof.Machine

open Sys2Proof

/-- R125: the time that a 32-bit field names is the one nearest to the clock. -/
theorem timeOf_nearest (now n : Nat) (hn : n < 2 ^ 32) :
    (2 ^ 32 : Int) ∣ timeOf now n - n ∧ (now : Int) - 2 ^ 31 ≤ timeOf now n ∧ timeOf now n < now + 2 ^ 31 := by
  have h : sextNat 32 (n + 2 ^ 32 - now % 2 ^ 32) = if (n + 2 ^ 32 - now % 2 ^ 32) % 2 ^ 32 < 2 ^ 31
      then (((n + 2 ^ 32 - now % 2 ^ 32) % 2 ^ 32 : Nat) : Int) else (((n + 2 ^ 32 - now % 2 ^ 32) % 2 ^ 32 : Nat) : Int) - 2 ^ 32 := by
    simp only [sextNat]; split <;> split <;> omega
  rw [timeOf, h]
  split <;> omega

/-- The engine of a source number is the one with that number. -/
theorem engOfSrc_eq_some (n : Nat) (e : Eng) : engOfSrc n = some e ↔ n = e.src := by
  cases e <;> simp only [Eng.src] <;> unfold engOfSrc <;> split <;> simp_all

theorem State.returnTrap_ends {w : State} {t : TileId} (h : (w.cox t).tcause.getLsbD 12 = true) :
    w.returnTrap t = w.endIteration t ((w.cox t).tcause.setWidth 8) := if_pos h

/-- A second write at a key covers the first. -/
theorem Map.set_set {α : Type} (m : Map α) (k : Nat) (v w : α) : Map.set (Map.set m k v) k w = Map.set m k w := by
  induction m with
  | nil => simp [Map.set]
  | cons e m ih =>
    rcases e with ⟨j, u⟩
    simp only [Map.set]
    split
    · simp [Map.set]
    · split
      · simp [Map.set]
      · next h1 h2 => simp [Map.set, h1, h2, ih]

theorem State.modTile_modTile (s : State) (t : TileId) (f g : Tile → Tile) :
    (s.modTile t f).modTile t g = s.modTile t fun x => g (f x) := by
  rw [State.modTile, State.tile_modTile_same]
  exact congrArg (fun l => { s with tiles := l }) (Map.set_set s.tiles t.val _ _)

theorem State.modCox_modCox (s : State) (t : TileId) (f g : Cox → Cox) :
    (s.modCox t f).modCox t g = s.modCox t fun c => g (f c) := s.modTile_modTile t _ _

theorem State.modTile_congr {s : State} {t : TileId} {f g : Tile → Tile} (h : f (s.tile t) = g (s.tile t)) :
    s.modTile t f = s.modTile t g := congrArg (s.setTile t) h

theorem State.modCox_congr {s : State} {t : TileId} {f g : Cox → Cox} (h : f (s.cox t) = g (s.cox t)) :
    s.modCox t f = s.modCox t g := State.modTile_congr (by rw [← State.cox, h])

/-- R333: the handler returns; the queue of the engine whose fault was handled, if one was, resumes at the end of the cycle. -/
theorem State.returnTrap_resumes {w : State} {t : TileId} (h : (w.cox t).tcause.getLsbD 12 = false) :
    ∃ l : List CoxLand, (∀ e, ⟨w.gtime, (w.cox t).region + 1, .resume e⟩ ∈ l ↔ (w.cox t).causeSrc = e.src) ∧
      w.returnTrap t = w.modCox t fun c => { c.ret w.gtime with flight := c.flight ++ l } := by
  simp only [State.returnTrap, h, Bool.false_eq_true, if_false]
  split
  · next e he =>
    refine ⟨[⟨w.gtime, (w.cox t).region + 1, .resume e⟩], fun f => ?_, ?_⟩
    · rw [← engOfSrc_eq_some, he]; simp [eq_comm]
    · rw [State.modCox_modCox]
      exact State.modCox_congr (by rfl)
  · next he =>
    refine ⟨[], fun f => ?_, State.modCox_congr ?_⟩
    · rw [← engOfSrc_eq_some, he]; simp
    · simp [Cox.ret, Cox.newHead]

/-- Settles O4: each word runs when its guard does; `RFT` returns from the trap or ends the iteration. -/
theorem systemWords : Obligations.SystemWords := by
  refine ⟨fun s t g h => ⟨fun imm hb => ?_, fun htm => ?_, fun htm ha hh => ?_, fun htm ha => ?_⟩,
    fun s t g => ⟨fun h => ⟨?_, ?_⟩, fun a h => ⟨?_, timeOf s.gtime ((coxValue s t [a.op] 0).toNat % 2 ^ 32), ?_⟩⟩⟩
  · rw [exec, execTrap, State.runClosing_runs h hb]
    simp [State.curTile_cox h.atWork, coxSends, State.modCox_modCox]
  · rw [exec, execRft, State.runCox_runs h, State.curTile_cox h.atWork, htm]
    rfl
  · have hx : exec (.rft g) s = .next ((coxIssued s t []).returnTrap t) := by
      rw [exec, execRft, State.runCox_runs h, State.curTile_cox h.atWork, htm]
      simp [State.curTile_cox h.atWork]
    have hc : ((coxIssued s t []).cox t).tcause = (s.cox t).tcause := by simp [coxIssued]
    rw [State.returnTrap_ends (by rw [hc]; exact ha), hc] at hx
    exact ⟨_, hx, State.endIteration_ends (sameIteration_modCox s t _) hh _⟩
  · have hx : exec (.rft g) s = .next ((coxIssued s t []).returnTrap t) := by
      rw [exec, execRft, State.runCox_runs h, State.curTile_cox h.atWork, htm]
      simp [State.curTile_cox h.atWork]
    obtain ⟨l, hl, hr⟩ := State.returnTrap_resumes (w := coxIssued s t []) (t := t) (by simpa [coxIssued] using ha)
    rw [hr, coxIssued, State.modCox_modCox] at hx
    refine ⟨_, hx, onlyTile_modTile s t _, ?_⟩
    simp only [State.tile_modCox_same, State.cox_modCox_same]
    refine ⟨?_, rfl, ?_, ?_, rfl, rfl, ?_, ?_, ?_, ?_, fun e => ?_⟩ <;> simp [Cox.ret, Cox.newHead, Cox.snapshot, Cox.step_x, Cox.step_xv, Cox.step_p, Cox.step_pv, Cox.step_tregion, Cox.step_region]
    rw [show (s.cox t).tcause.toNat / 256 % 8 = (s.cox t).causeSrc by simp [Cox.causeSrc, bitsOf, Nat.shiftRight_eq_div_pow]]
    simpa [coxIssued, Cox.causeSrc] using or_congr_right (hl e)
  · rw [exec, execNop, State.runCox_runs h]
  · rw [exec, execHalt, State.runCox_runs h]
    simp [State.curTile_cox h.atWork]
  · rw [exec, execWaitcyc, State.runCox_runs h]
    simp [State.curTile_cox h.atWork, coxValue, nth]
  · obtain ⟨h1, h2, h3⟩ := timeOf_nearest s.gtime ((coxValue s t [a.op] 0).toNat % 2 ^ 32) (Nat.mod_lt _ (by decide))
    refine ⟨h1, h2, h3, ?_⟩
    rw [exec, execWaitcycUntil, State.runCox_runs h]
    simp [State.curTile_cox h.atWork, coxValue, nth]

end Sys2Proof.Machine
end

section
/-! ## Results of the Cox that land (R252, R259, R163) -/

namespace Sys2Proof.Machine

open Sys2Proof

/-! ### Registers and predicates -/

theorem getElem_setBit {w : Nat} (v : BitVec w) (i j : Nat) (b : Bool) (_ : i < w) (hj : j < w) :
    (setBit v i b)[j] = if j = i then b else v[j] := by
  have h : (2 ^ i : Nat).testBit j = decide (j = i) := by rw [Nat.testBit_two_pow]; exact decide_eq_decide.2 eq_comm
  have ho : (BitVec.ofNat w (2 ^ i))[j] = decide (j = i) := by rw [← BitVec.getLsbD_eq_getElem hj, BitVec.getLsbD_ofNat, h]; simp [hj]
  cases b
  · simp only [setBit, Bool.false_eq_true, if_false, BitVec.getElem_and, BitVec.getElem_not, ho]
    by_cases h : j = i <;> simp [h]
  · simp only [setBit, if_true, BitVec.getElem_or, ho]
    by_cases h : j = i <;> simp [h]

@[simp] theorem Cox.readX_zero (c : Cox) : c.readX 0 = 0 := rfl
@[simp] theorem Cox.xValid_zero (c : Cox) : c.xValid 0 = true := rfl
@[simp] theorem Cox.readP_zero (c : Cox) : c.readP 0 = true := rfl
@[simp] theorem Cox.pValid_zero (c : Cox) : c.pValid 0 = true := rfl

theorem Cox.writeX_same {c : Cox} {d : Fin 64} (h : d ≠ 0) (v : Word) : (c.writeX d v).readX d = v ∧ (c.writeX d v).xValid d = true := by
  simp [Cox.writeX, Cox.readX, Cox.xValid, h, getElem_setBit]

theorem Cox.writeX_other (c : Cox) {d r : Fin 64} (h : r ≠ d) (v : Word) :
    (c.writeX d v).readX r = c.readX r ∧ (c.writeX d v).xValid r = c.xValid r := by
  have hv : r.val ≠ d.val := fun k => h (Fin.ext k)
  by_cases h0 : d = 0
  · simp [Cox.writeX, h0]
  · simp [Cox.writeX, Cox.readX, Cox.xValid, h0, getElem_setBit, hv, hv.symm]

theorem Checkpoint.writeX_same {k : Checkpoint} {d : Fin 64} (h : d ≠ 0) (v : Word) :
    (k.writeX d v).x[d] = v ∧ (k.writeX d v).xv.getLsbD d.val = true := by
  simp [Checkpoint.writeX, h, getElem_setBit]

theorem Cox.writeP_same {c : Cox} {d : Fin 16} (h : d ≠ 0) (v : Bool) : (c.writeP d v).readP d = v ∧ (c.writeP d v).pValid d = true := by
  simp [Cox.writeP, Cox.readP, Cox.pValid, h, getElem_setBit]

theorem Cox.writeP_other (c : Cox) {d r : Fin 16} (h : r ≠ d) (v : Bool) :
    (c.writeP d v).readP r = c.readP r ∧ (c.writeP d v).pValid r = c.pValid r := by
  have hv : r.val ≠ d.val := fun k => h (Fin.ext k)
  by_cases h0 : d = 0
  · simp [Cox.writeP, h0]
  · simp [Cox.writeP, Cox.readP, Cox.pValid, h0, getElem_setBit, hv]

theorem Cox.writePall_spec (c : Cox) (v k : BitVec 16) {r : Fin 16} (h : r ≠ 0) :
    (c.writePall v k).pValid r = k.getLsbD r.val ∧ (k.getLsbD r.val = true → (c.writePall v k).readP r = v.getLsbD r.val) := by
  refine ⟨by simp [Cox.writePall, Cox.pValid, h], fun hk => ?_⟩
  rw [BitVec.getLsbD_eq_getElem r.isLt] at hk
  simp [Cox.writePall, Cox.readP, h, hk]

/-- What a result for `x` does: the register, and the checkpoint's when its region has closed. -/
theorem Cox.landX_eq (c : Cox) (region : Nat) (d : Fin 64) (v : Word) :
    c.landX region d v = { c with x := (c.writeX d v).x, xv := (c.writeX d v).xv,
                                  checkpoint := if region = c.region then c.checkpoint else c.checkpoint.writeX d v } := by
  unfold Cox.landX
  split
  · exact Cox.writeX_eq c d v
  · unfold Cox.writeX; split <;> rfl

theorem Cox.landP_eq (c : Cox) (region : Nat) (d : Fin 16) (v : Bool) :
    c.landP region d v = { c with p := (c.writeP d v).p, pv := (c.writeP d v).pv,
                                  checkpoint := if region = c.region then c.checkpoint else c.checkpoint.writeP d v } := by
  unfold Cox.landP
  split
  · exact Cox.writeP_eq c d v
  · unfold Cox.writeP; split <;> rfl

theorem Cox.landPall_eq (c : Cox) (region : Nat) (v k : BitVec 16) :
    c.landPall region v k = { c with p := (c.writePall v k).p, pv := (c.writePall v k).pv,
                                     checkpoint := (c.landPall region v k).checkpoint } := by
  unfold Cox.landPall
  split <;> rfl

/-! ### CSRs -/

/-- Of TCAUSE only ACT, bit 12, may be written. -/
theorem getLsbD_maskWrite_act (old v : Word) (b : Nat) :
    (maskWrite old v 0x1000).getLsbD b = if b = 12 then v.getLsbD 12 else old.getLsbD b := by
  have h : (0x1000 : Word).getLsbD b = decide (b = 12) := by
    rw [show (0x1000 : Word) = BitVec.twoPow 64 12 by decide, BitVec.getLsbD_twoPow]
    simp [eq_comm]
  by_cases hb : b = 12
  · simp [maskWrite, hb]
  · by_cases hl : b < 64
    · simp only [maskWrite, BitVec.getLsbD_or, BitVec.getLsbD_and, BitVec.getLsbD_not, h]
      simp [hb, hl]
    · rw [if_neg hb, BitVec.getLsbD_of_ge _ _ (by omega), BitVec.getLsbD_of_ge _ _ (by omega)]

/-- Of a write of XVALID the bit of `x0` is not taken. -/
theorem xvalid_written {xv : BitVec 64} (n : BitVec 12) (v : Word) (r : Fin 64) :
    (r == 0 || (if n = 0x017 then v ||| 1 else xv).getLsbD r.val) =
      if n = 0x017 ∧ r ≠ 0 then v.getLsbD r.val else (r == 0 || xv.getLsbD r.val) := by
  by_cases h0 : r = 0
  · simp [h0]
  · have h1 : (1 : Word).getLsbD r.val = false := by
      rw [show (1 : Word) = BitVec.twoPow 64 0 by decide, BitVec.getLsbD_twoPow]
      simpa [eq_comm] using fun k => h0 (Fin.ext k)
    have hr : (r == 0) = false := beq_false_of_ne h0
    simp only [hr, Bool.false_or, ne_eq, h0, not_false_eq_true, and_true]
    split
    · rw [BitVec.getLsbD_or, h1, Bool.or_false]
    · rfl

theorem bfmt_written {l : Vector (BitVec 32) 16} (n : BitVec 12) (v : Word) (k : Fin 16) :
    (if 0x40 ≤ n.toNat ∧ n.toNat ≤ 0x4F then l.set (Fin.ofNat 16 n.toNat) (v.setWidth 32) else l)[k] =
      if n.toNat = 0x40 + k.val then v.setWidth 32 else l[k] := by
  have hk := k.isLt
  by_cases h : 0x40 ≤ n.toNat ∧ n.toNat ≤ 0x4F
  · rw [if_pos h]
    have hm : n.toNat % 16 = k.val ↔ n.toNat = 0x40 + k.val := by omega
    simp only [Fin.getElem_fin, Vector.getElem_set, Fin.val_ofNat, hm]
  · rw [if_neg h, if_neg fun e => h (by omega)]

/-- What a CSR's landing changes. -/
theorem Cox.landCsr_eq (c : Cox) (region n : Nat) (v : Word) :
    c.landCsr region n v = { c with
      ie := if n = 0x000 then v.getLsbD 1 else c.ie, tvec := if n = 0x001 then v &&& 0x1FFFF else c.tvec,
      tcause := if n = 0x002 then maskWrite c.tcause v 0x1000 else c.tcause, tpc := if n = 0x003 then v &&& 0xFFFF else c.tpc,
      tregion := if n = 0x004 then v &&& 0xFFFF else c.tregion, xv := if n = 0x017 then v ||| 1 else c.xv,
      bfmt := if 0x40 ≤ n ∧ n ≤ 0x4F then c.bfmt.set (Fin.ofNat 16 n) (v.setWidth 32) else c.bfmt,
      checkpoint := (c.landCsr region n v).checkpoint } := by
  have hw : c.landCsr region n v = { c.writeCsr n v with checkpoint := (c.landCsr region n v).checkpoint } := by
    unfold Cox.landCsr
    split <;> rfl
  rw [hw]
  unfold Cox.writeCsr
  split
  · rfl
  · rfl
  · rfl
  · rfl
  · rfl
  · rfl
  · next h0 h1 h2 h3 h4 h5 =>
    simp only [if_neg h0, if_neg h1, if_neg h2, if_neg h3, if_neg h4, if_neg h5]
    split <;> rfl

theorem Cox.landCsr_number (c : Cox) (region : Nat) (n : BitVec 12) (v : Word) :
    c.landCsr region n.toNat v = { c with
      ie := if n = 0x000 then v.getLsbD 1 else c.ie, tvec := if n = 0x001 then v &&& 0x1FFFF else c.tvec,
      tcause := if n = 0x002 then maskWrite c.tcause v 0x1000 else c.tcause, tpc := if n = 0x003 then v &&& 0xFFFF else c.tpc,
      tregion := if n = 0x004 then v &&& 0xFFFF else c.tregion, xv := if n = 0x017 then v ||| 1 else c.xv,
      bfmt := if 0x40 ≤ n.toNat ∧ n.toNat ≤ 0x4F then c.bfmt.set (Fin.ofNat 16 n.toNat) (v.setWidth 32) else c.bfmt,
      checkpoint := (c.landCsr region n.toNat v).checkpoint } := by
  have hn (k : Nat) (hk : k < 4096) : (n.toNat = k) = (n = BitVec.ofNat 12 k) :=
    propext ⟨fun h => by rw [← h, BitVec.ofNat_toNat, BitVec.setWidth_eq], fun h => by rw [h]; exact Nat.mod_eq_of_lt hk⟩
  rw [Cox.landCsr_eq]
  simp only [hn 0 (by decide), hn 1 (by decide), hn 2 (by decide), hn 3 (by decide), hn 4 (by decide), hn 0x17 (by decide)]
  rfl

/-! ### The landing -/

/-- COX_WRITE_LAND takes the result out of those in flight and uses its bank. -/
theorem execCoxWriteLand_lands {s : State} {t : TileId} {l : CoxLand} {rest : List CoxLand} (hp : s.phase = .ending)
    (h : (s.tile t).due? s.gtime = some (l, rest)) :
    exec (.coxWriteLand t) s =
      .next ((s.modTile t fun x => ({ x with cox := { x.cox with flight := rest } } : Tile).useAccess l.w).landCox t l) := by
  have hx : exec (.coxWriteLand t) s = _ := execCoxWriteLand.eq_def t s
  rw [hx, h]
  simp only [hp, if_true, State.modCox, State.modTile_modTile]

theorem Tile.useAccess_none {x : Tile} {w : CoxWrite} (h : w.access = none) : x.useAccess w = x := by
  simp [Tile.useAccess, h]

/-- A result that is no access to a bank. -/
theorem execCoxWriteLand_register {s : State} {t : TileId} {l : CoxLand} {rest : List CoxLand} (hp : s.phase = .ending)
    (h : (s.tile t).due? s.gtime = some (l, rest)) (ha : l.w.access = none) :
    exec (.coxWriteLand t) s = .next ((s.modCox t fun c => { c with flight := rest }).landCox t l) := by
  rw [execCoxWriteLand_lands hp h]
  exact congrArg (fun u : State => Host.Outcome.next (u.landCox t l)) (State.modTile_congr (Tile.useAccess_none ha))

/-- A result that lands in its Cox. -/
theorem execCoxWriteLand_cox {s : State} {t : TileId} {l : CoxLand} {rest : List CoxLand} {f : Cox → Cox} (hp : s.phase = .ending)
    (h : (s.tile t).due? s.gtime = some (l, rest)) (ha : l.w.access = none) (hl : ∀ u, State.landCox u t l = u.modCox t f) :
    exec (.coxWriteLand t) s = .next (s.modCox t fun c => f { c with flight := rest }) := by
  rw [execCoxWriteLand_register hp h ha, hl, State.modCox_modCox]

/-- Settles O18: a result of each kind lands by the write of its register. -/
theorem registerResultsLand : Obligations.RegisterResultsLand := by
  intro s t l rest hp h
  refine ⟨fun d v hw => ?_, fun d v hw => ?_, fun v k hw => ?_, fun n v hw => ?_⟩
  · have ha : l.w.access = none := by rcases hw with hw | hw <;> rw [hw] <;> rfl
    have hx : exec (.coxWriteLand t) s = .next (s.modCox t fun c => ({ c with flight := rest } : Cox).landX l.region d v) := by
      refine execCoxWriteLand_cox (f := fun c => c.landX l.region d v) hp h ha fun u => ?_
      rcases hw with hw | hw <;> rw [State.landCox, hw]
    refine ⟨_, hx, onlyCox_modCox s t _, ?_⟩
    rw [State.cox_modCox_same, Cox.landX_eq]
    refine ⟨fun hd => ⟨(Cox.writeX_same hd v).1, (Cox.writeX_same hd v).2, fun hr => ?_⟩, fun hr => if_pos hr, rfl, rfl,
      fun r hr => ⟨(Cox.writeX_other _ hr v).1, (Cox.writeX_other _ hr v).2⟩, rfl⟩
    rw [if_neg hr]
    exact Checkpoint.writeX_same hd v
  · have hx : exec (.coxWriteLand t) s = .next (s.modCox t fun c => ({ c with flight := rest } : Cox).landP l.region d v) :=
      execCoxWriteLand_cox (f := fun c => c.landP l.region d v) hp h (by rw [hw]; rfl) fun u => by rw [State.landCox, hw]
    refine ⟨_, hx, onlyCox_modCox s t _, ?_⟩
    rw [State.cox_modCox_same, Cox.landP_eq]
    exact ⟨fun hd => ⟨(Cox.writeP_same hd v).1, (Cox.writeP_same hd v).2⟩, rfl, rfl,
      fun r hr => ⟨(Cox.writeP_other _ hr v).1, (Cox.writeP_other _ hr v).2⟩, rfl⟩
  · have hx : exec (.coxWriteLand t) s = .next (s.modCox t fun c => ({ c with flight := rest } : Cox).landPall l.region v k) :=
      execCoxWriteLand_cox (f := fun c => c.landPall l.region v k) hp h (by rw [hw]; rfl) fun u => by rw [State.landCox, hw]
    refine ⟨_, hx, onlyCox_modCox s t _, ?_⟩
    rw [State.cox_modCox_same, Cox.landPall_eq]
    exact ⟨fun r hr => Cox.writePall_spec _ v k hr, rfl⟩
  · have hx : exec (.coxWriteLand t) s = .next (s.modCox t fun c => ({ c with flight := rest } : Cox).landCsr l.region n.toNat v) :=
      execCoxWriteLand_cox (f := fun c => c.landCsr l.region n.toNat v) hp h (by rw [hw]; rfl) fun u => by rw [State.landCox, hw]
    refine ⟨_, hx, onlyCox_modCox s t _, ?_⟩
    rw [State.cox_modCox_same, Cox.landCsr_number]
    refine ⟨rfl, rfl, rfl, fun b => ?_, rfl, rfl, rfl, rfl, fun r => ?_, fun k => ?_, rfl, rfl, rfl, rfl, rfl, rfl, rfl, rfl, rfl, rfl⟩
    · change (if n = 0x002 then _ else _ : Word).getLsbD b = _
      by_cases hn : n = 0x002
      · rw [if_pos hn, getLsbD_maskWrite_act]
        simp [hn]
      · rw [if_neg hn, if_neg fun k => hn k.1]
    · exact xvalid_written n v r
    · exact bfmt_written n v k

end Sys2Proof.Machine
end

section
/-! ## Local stores, loads and atomics that land (R163, R269, R270) -/

namespace Sys2Proof.Machine

open Sys2Proof

/-- R356: a read of granules without wrong bits changes nothing. -/
theorem State.goodRead_good {u : State} {l : List Site} (h : GranulesGood u l) (t : TileId) : u.goodRead t l = (u, true) := by
  have hf : (u.dev.flaws.filter fun f => l.contains f.site) = [] := by
    rw [List.filter_eq_nil_iff]
    exact fun f hf k => h f hf (List.contains_iff_mem.1 k)
  have hd : u.dev.dropFlaws (fun _ => false) = u.dev := by
    rw [DevMem.dropFlaws]
    split
    · rfl
    · simp
  have hc : u.checkSites l = (u, none) := by
    rw [State.checkSites, hf]
    split
    · rfl
    · simp only [List.filter_nil, List.any_nil, State.modDev, hd]
      rfl
  rw [State.goodRead, hc]

theorem GranulesGood.of_dev {s u : State} {l : List Site} (h : GranulesGood s l) (hd : u.dev.flaws = s.dev.flaws) : GranulesGood u l := by
  rw [GranulesGood, hd]; exact h

/-- R357: a write leaves of device memory all but the wrong bits. -/
theorem DevMem.wrote_eq (d : DevMem) (k : Nat → Site) (l : List Nat) : d.wrote k l = { d with flaws := (d.wrote k l).flaws } := by
  unfold DevMem.wrote
  split <;> rfl

theorem State.tile_wroteSp (s : State) (t v : TileId) (bs : List (Nat × Byte × Byte)) : (s.wroteSp t bs).tile v = s.tile v := rfl

/-- The use of a bank shows only in the lines used. -/
theorem Tile.useAccess_eq (x : Tile) (w : CoxWrite) : x.useAccess w = { x with used := (x.useAccess w).used } := by
  unfold Tile.useAccess
  split
  · rfl
  · split <;> split <;> rfl

theorem satNew_spec (op : SatOp) (sg : Bool) (old b c : Word) : satNew op sg old b c = match op with
    | .op .add => old + b
    | .op .swap => b
    | .op .max => if sg then (if old.toInt ≤ b.toInt then b else old) else if old.toNat ≤ b.toNat then b else old
    | .op .min => if sg then (if old.toInt ≤ b.toInt then old else b) else if old.toNat ≤ b.toNat then old else b
    | .op .and => old &&& b
    | .op .or => old ||| b
    | .cas _ => if old = c then b else old := by
  cases op with
  | cas => rfl
  | op o => cases o <;> cases sg <;> simp [satNew, atomNew, minWord_signed, minWord_unsigned, maxWord_signed, maxWord_unsigned]

theorem Tile.length_loadBytes (x : Tile) (a n : Nat) (old : List (Nat × Byte × Byte)) : (x.loadBytes a n old).length = n := by
  simp [Tile.loadBytes]

theorem Tile.loadBytes_spec {x : Tile} {a n : Nat} {old : List (Nat × Byte × Byte)} {i : Nat} {b : Byte}
    (h : (x.loadBytes a n old)[i]? = some b) : match old.find? fun o => o.1 = a + i with
      | none => b = x.sp.get (a + i)
      | some o => b = if x.sp.get (a + i) = o.2.1 then o.2.2 else x.sp.get (a + i) := by
  obtain ⟨hi, rfl⟩ := List.getElem?_eq_some_iff.1 h
  cases hf : old.find? fun o => o.1 = a + i with
  | none => simp only [Tile.loadBytes, List.getElem_map, List.getElem_zipIdx, Memory.getElem_read, Nat.zero_add, hf]
  | some o => simp only [Tile.loadBytes, List.getElem_map, List.getElem_zipIdx, Memory.getElem_read, Nat.zero_add, hf]

/-- A tile whose result has left those in flight, its bank being used. -/
def Tile.lands (x : Tile) (w : CoxWrite) (rest : List CoxLand) : Tile := ({ x with cox := { x.cox with flight := rest } } : Tile).useAccess w

theorem Tile.lands_eq (x : Tile) (w : CoxWrite) (rest : List CoxLand) :
    x.lands w rest = { x with used := (x.lands w rest).used, cox := { x.cox with flight := rest } } :=
  Tile.useAccess_eq _ w

/-- Settles O19: a landing of each kind reads and writes the bytes of its own address. -/
theorem scratchpadResultsLand : Obligations.ScratchpadResultsLand := by
  intro s t l rest hp h x
  have hx : exec (.coxWriteLand t) s = .next ((s.modTile t fun x => x.lands l.w rest).landCox t l) := execCoxWriteLand_lands hp h
  refine ⟨fun addr bytes hw => ?_, fun addr ty dst old hw hg => ?_, fun addr op sg b c id hw hg => ?_, fun id v hw => ?_⟩
  · simp only [State.landCox, hw, State.modTile_modTile] at hx
    refine ⟨_, hx, ?_, fun v hv => by rw [State.tile_wroteSp, State.tile_modTile_ne _ _ _ _ hv], ?_⟩
    · simp only [State.wroteSp, State.modDev]
      rw [DevMem.wrote_eq]
      rfl
    · rw [State.tile_wroteSp, State.tile_modTile_same, Tile.lands_eq]
      refine ⟨fun i b hb => ?_, fun a ha => Memory.get_write_outside bytes x.sp addr a ha, rfl⟩
      obtain ⟨hi, rfl⟩ := List.getElem?_eq_some_iff.1 hb
      exact Memory.get_write_inside bytes x.sp addr i hi
  · simp only [State.landCox, hw] at hx
    rw [State.goodRead_good (u := s.modTile t _) (GranulesGood.of_dev hg rfl)] at hx
    simp only [State.modTile_modTile] at hx
    refine ⟨_, x.loadBytes addr (widthBytes ty.width) old, hx, onlyTile_modTile s t _, x.length_loadBytes _ _ _,
      fun i b hb => Tile.loadBytes_spec hb, ?_⟩
    rw [State.tile_modTile_same, Tile.lands_eq]
    rfl
  · simp only [State.landCox, hw] at hx
    rw [State.goodRead_good (u := s.modTile t _) (GranulesGood.of_dev hg rfl)] at hx
    simp only [State.modTile_modTile] at hx
    refine ⟨_, hx, onlyTile_modTile s t _, ?_⟩
    rw [State.tile_modTile_same, State.cox_modTile_same, Tile.lands_eq]
    refine ⟨?_, fun a ha => Memory.get_write_outside _ x.sp addr a (by simpa using ha), rfl⟩
    refine Eq.trans ?_ (congrArg (fun w : Word => toBytes 8 w.toNat) (satNew_spec op sg (BitVec.ofNat 64 (ofBytes (x.sp.read addr 8))) b c))
    have hr := Memory.read_write (toBytes 8 (satNew op sg (BitVec.ofNat 64 (ofBytes (x.sp.read addr 8))) b c).toNat) x.sp addr
    rw [length_toBytes] at hr
    exact hr
  · have hl (x : Tile) : x.lands l.w rest = { x with cox := { x.cox with flight := rest } } := Tile.useAccess_none (by rw [hw]; rfl)
    simp only [State.landCox, hw, State.modTile_modTile] at hx
    refine ⟨_, hx, onlyTile_modTile s t _, ?_⟩
    rw [← hw]
    rw [State.tile_modTile_same, State.cox_modTile_same, hl]
    refine ⟨rfl, fun ⟨e, he, hid⟩ => ?_⟩
    simp only [Tile.takeReply, List.mem_filter, List.mem_append, List.mem_singleton, or_true, true_and, List.any_eq_true, decide_eq_true_eq]
    exact ⟨e, he, hid⟩

end Sys2Proof.Machine
end

section
/-! ## Regions close, queues resume, elements enter the response FIFO (R255 to R259, R333) -/

namespace Sys2Proof.Machine

open Sys2Proof

/-! ### A closing word retires -/

/-- What the retirement of a closing word leaves of its Cox. -/
theorem Cox.closeRegion_spec (c : Cox) : (c.closeRegion).closing = false ∧ (c.closeRegion).regcnt = c.regcnt + 1 ∧
    (c.closeRegion).nextIssue = c.nextIssue ∧ (c.closeRegion).rf = c.rf.filter (fun r => !r.marked) ∧
    (c.closeRegion).x = c.x ∧ (c.closeRegion).p = c.p ∧
    (c.tm = false → (c.closeRegion).head = c.pc ∧ (c.closeRegion).region = c.region + 1 ∧
      (c.closeRegion).checkpoint = ⟨c.x, c.xv, c.p, c.pv⟩ ∧ (c.closeRegion).mismatches = 0) ∧
    (c.tm = true → (c.closeRegion).head = c.head ∧ (c.closeRegion).region = c.region ∧ (c.closeRegion).checkpoint = c.checkpoint) := by
  unfold Cox.closeRegion
  cases h : c.tm <;> simp [Cox.newHead, Cox.snapshot]

/-! ### A queue resumes -/

theorem Engine.resume_queue_kept {g : Engine} (h : ∀ f, g.fault = some f → f.code ≠ cDEADLINE) : g.resume.queue = g.queue := by
  have hl : (g.fault.map EngFault.code == some cDEADLINE) = false := by
    cases hf : g.fault with
    | none => rfl
    | some f => simpa using h f hf
  simp [Engine.resume, hl]

theorem Engine.resume_queue_late {g : Engine} {f : EngFault} {n : Entry} {ns : List Entry} (hf : g.fault = some f)
    (hc : f.code = cDEADLINE) (hq : g.queue = n :: ns) (hn : n.st ≠ .waiting) (hb : n.budget = 0) :
    g.resume.queue = { n with budget := n.budget0 } :: ns := by
  simp [Engine.resume, hf, hc, hq, modFirst, hn, hb]

theorem Tile.reexpand_same (x : Tile) (e : Eng) : ((x.reexpand e).eng e).fault = (x.eng e).fault ∧
    ((x.reexpand e).eng e).stopped = (x.eng e).stopped ∧ ((x.reexpand e).eng e).index = 0 := by
  unfold Tile.reexpand
  rw [Tile.eng_modEng_same]
  exact ⟨rfl, rfl, rfl⟩

theorem Tile.reexpand_ne (x : Tile) {e f : Eng} (h : f ≠ e) : (x.reexpand e).eng f = x.eng f := by
  unfold Tile.reexpand
  rw [Tile.eng_modEng_ne _ _ _ _ h]
  rfl

/-- R146: what is expanded again leaves no command of its stream in the time buffer that had not begun. -/
theorem Tile.reexpand_buffer (x : Tile) (e : Eng) : ∀ k ∈ (x.reexpand e).portage.buffer, k.stream = e →
    k.stage ≠ .stopped ∧ k.stage ≠ .buffered := by
  intro k hk he
  simp only [Tile.reexpand, Tile.modEng, List.mem_filter] at hk
  simpa [he] using hk.2

theorem Tile.resumeQueue_vm (x : Tile) {e : Eng} (h : e = .v ∨ e = .m) : x.resumeQueue e = x.modEng e Engine.resume := by
  rcases h with rfl | rfl <;> rfl

theorem Tile.resumeQueue_ls (x : Tile) {e : Eng} (h : e = .l ∨ e = .s) : x.resumeQueue e = (x.modEng e Engine.resume).reexpand e := by
  rcases h with rfl | rfl <;> rfl

theorem Tile.resumeQueue_cases (x : Tile) (e : Eng) :
    x.resumeQueue e = x.modEng e Engine.resume ∨ x.resumeQueue e = (x.modEng e Engine.resume).reexpand e := by
  cases e
  case l | s => exact .inr rfl
  case v | m => exact .inl rfl

theorem Tile.resumeQueue_fault (x : Tile) (e : Eng) :
    ((x.resumeQueue e).eng e).fault = none ∧ ((x.resumeQueue e).eng e).stopped = false := by
  rcases x.resumeQueue_cases e with h | h <;> rw [h]
  · rw [Tile.eng_modEng_same]
    exact ⟨rfl, rfl⟩
  · obtain ⟨hf, hs, -⟩ := (x.modEng e Engine.resume).reexpand_same e
    rw [hf, hs, Tile.eng_modEng_same]
    exact ⟨rfl, rfl⟩

theorem Tile.resumeQueue_ne (x : Tile) {e f : Eng} (h : f ≠ e) : (x.resumeQueue e).eng f = x.eng f := by
  rcases x.resumeQueue_cases e with k | k <;> rw [k]
  · exact Tile.eng_modEng_ne _ _ _ _ h
  · rw [Tile.reexpand_ne _ h]
    exact Tile.eng_modEng_ne _ _ _ _ h

/-! ### An element enters -/

theorem removeFirst_some {α : Type} {p : α → Bool} {l rest : List α} {a : α} (h : removeFirst p l = some (a, rest)) : p a = true := by
  induction l generalizing rest with
  | nil => simp [removeFirst] at h
  | cons b l ih =>
    rw [removeFirst] at h
    split at h
    · next hb => cases h; exact hb
    · obtain ⟨⟨c, r⟩, hc, he⟩ := Option.map_eq_some_iff.1 h
      cases he
      exact ih hc

/-- R255: the place that is filled next is the first without an element. -/
theorem Cox.nextSlot_spec {c : Cox} {id : Nat} (h : c.nextSlot = some id) :
    ∃ e ∈ c.rf, e.id = id ∧ e.data = none ∧ ∀ a ∈ c.rf.takeWhile (fun f => f.id ≠ id), a.data ≠ none := by
  unfold Cox.nextSlot at h
  split at h
  · next e he =>
    obtain ⟨hd, as, bs, hl, ha⟩ := List.find?_eq_some_iff_append.1 he
    cases h
    refine ⟨e, by simp [hl], rfl, by simpa using hd, fun a hm => ?_⟩
    rw [hl, List.takeWhile_append, List.takeWhile_cons_of_neg (by simp), List.append_nil] at hm
    have hm : a ∈ as := by
      split at hm
      · exact hm
      · exact (List.takeWhile_sublist _).subset hm
    simpa [Option.isSome_iff_ne_none] using ha a hm
  · cases h

theorem Tile.reply?_spec {x : Tile} {id : Nat} {v : Word} {rest : List (Nat × Word)} (h : x.reply? = some ((id, v), rest)) :
    x.cox.nextSlot = some id := by
  cases hk : x.cox.nextSlot with
  | none =>
    rw [Tile.reply?, hk] at h
    cases h
  | some k =>
    rw [Tile.reply?, hk] at h
    have hb : (id == k) = true := removeFirst_some (p := fun r : Nat × Word => r.1 == k) h
    rw [eq_of_beq hb]

theorem State.enterElement_tile (s : State) (t : TileId) (id : Nat) (v : Word) : OnlyCox s (s.enterElement t id v) t := by
  unfold State.enterElement
  extract_lets c closes u
  split
  · exact onlyCox_trans (onlyCox_modCox s t _) (onlyCox_modCox _ t _)
  · exact onlyCox_modCox s t _

theorem State.enterElement_stays {s : State} {t : TileId} {id : Nat} (h : (s.cox t).closing = false) (v : Word) :
    s.enterElement t id v = s.modCox t fun c => c.deliver id v := by
  simp [State.enterElement, h]

theorem State.enterElement_closes {s : State} {t : TileId} {id : Nat} (h : (s.cox t).closing = true) (hid : id + 1 = (s.cox t).nextReq)
    (he : ∃ e ∈ (s.cox t).rf, e.id = id ∧ e.repeatable = false) (v : Word) : ((s.enterElement t id v).cox t).closing = false := by
  have ha : ((s.cox t).rf.any fun e => e.id == id && !e.repeatable) = true := by simpa using he
  simp only [State.enterElement, h, ha, hid, BEq.rfl, Bool.and_true, if_true, State.retireClosing, State.cox_modCox_same, Cox.deliver]
  exact (Cox.closeRegion_spec _).1

/-- Settles O20: a closing word retires by `closeRegion`, a queue resumes, and an element enters the first empty place. -/
theorem regionsClose : Obligations.RegionsClose := by
  refine ⟨fun s t l rest hp h => ⟨fun hw hc => ?_, fun imm hw => ?_, fun e hw hh => ?_⟩, fun s t id v rest h => ?_⟩
  · have hx := execCoxWriteLand_register hp h (by rw [hw]; rfl)
    simp only [State.landCox, hw, State.retireClosing, State.modCox_modCox] at hx
    refine ⟨_, hx, onlyCox_modCox s t _, ?_⟩
    simp only [State.cox_modCox_same, hc, if_true]
    obtain ⟨h1, h2, -, h4, h5, h6, h7, h8⟩ := Cox.closeRegion_spec { s.cox t with flight := rest }
    exact ⟨h1, h2, rfl, h4, h5, h6, h7, h8⟩
  · exact ⟨_, execCoxWriteLand_cox hp h (by rw [hw]; rfl) fun u => by rw [State.landCox, hw], onlyCox_modCox s t _, by
      rw [State.cox_modCox_same]⟩
  · have hx := execCoxWriteLand_register hp h (by rw [hw]; rfl)
    have hu : (s.modCox t fun c => { c with flight := rest }).holding = false := hh
    simp only [State.landCox, hw, hu, Bool.false_eq_true, if_false] at hx
    refine ⟨_, hx, onlyTile_trans (onlyTile_modTile s t _) (onlyTile_modTile _ t _), ?_⟩
    rw [State.tile_modTile_same, State.tile_modCox_same]
    have heng (f : Eng) : ({ s.tile t with cox := { (s.tile t).cox with flight := rest } } : Tile).eng f = (s.tile t).eng f := rfl
    generalize hy : ({ s.tile t with cox := { (s.tile t).cox with flight := rest } } : Tile) = y at heng
    rw [show ({ s.tile t with cox := { s.cox t with flight := rest } } : Tile) = y from hy]
    simp only [← heng]
    obtain ⟨hf, hs⟩ := y.resumeQueue_fault e
    refine ⟨hf, hs, fun he => ?_, fun he => ?_, fun f hne => y.resumeQueue_ne hne⟩
    · rw [Tile.resumeQueue_vm _ he, Tile.eng_modEng_same]
      exact ⟨Engine.resume_queue_kept, fun f n ns => Engine.resume_queue_late⟩
    · rw [Tile.resumeQueue_ls _ he]
      exact ⟨((y.modEng e Engine.resume).reexpand_same e).2.2, (y.modEng e Engine.resume).reexpand_buffer e⟩
  · have hx : exec (.rfElementArrive t) s = .next ((s.modTile t fun x => { x with replies := rest }).enterElement t id v) := by
      have hx : exec (.rfElementArrive t) s = _ := execRfElementArrive.eq_def t s
      rw [hx, h]
    have ho := (s.modTile t fun x => { x with replies := rest }).enterElement_tile t id v
    have hc : (s.modTile t fun x => { x with replies := rest }).cox t = s.cox t := by rw [State.cox_modTile_same, State.cox]
    refine ⟨_, hx, onlyTile_trans (onlyTile_modTile s t _) ho.toOnlyTile, ?_, Cox.nextSlot_spec (Tile.reply?_spec h), fun hcl => ?_, fun hcl hid he => ?_⟩
    · rw [ho.tile, State.tile_modTile_same]
    · rw [State.enterElement_stays (by rw [hc]; exact hcl), State.cox_modCox_same, hc]
      rfl
    · exact State.enterElement_closes (by rw [hc]; exact hcl) (by rw [hc]; exact hid) (by rw [hc]; exact he) v

end Sys2Proof.Machine
end

section
/-! ## Words of the Cox that reach no memory (R252, R255, R261, R271) -/

namespace Sys2Proof.Machine

open Sys2Proof

/-! ### What such a word may change of its Cox -/

/-- The registers, predicates and CSRs stay, and no result in flight is lost. -/
def CoxFlows (c d : Cox) : Prop := CoxKeeps c d ∧ ∀ l ∈ c.flight, l ∈ d.flight

theorem coxFlows_refl (c : Cox) : CoxFlows c c := ⟨rfl, fun _ h => h⟩

theorem CoxFlows.trans {c d e : Cox} (h : CoxFlows c d) (k : CoxFlows d e) : CoxFlows c e := by
  refine ⟨?_, fun l hl => k.2 l (h.2 l hl)⟩
  have h1 := h.1
  have k1 := k.1
  rw [CoxKeeps] at *
  rw [k1, h1]

theorem coxFlows_send (c : Cox) (due : Nat) (w : CoxWrite) : CoxFlows c (c.send due w) :=
  ⟨rfl, fun _ h => List.mem_append_left _ h⟩

theorem coxFlows_raise (c : Cox) (code : Byte) (info addr : Word) : CoxFlows c (c.raise code info addr) := ⟨rfl, fun _ h => h⟩

theorem coxFlows_take (c : Cox) (target : Word) : CoxFlows c (c.take target) := ⟨rfl, fun _ h => h⟩

theorem coxFlows_nextIssue (c : Cox) (n : Nat) : CoxFlows c { c with nextIssue := n } := ⟨rfl, fun _ h => h⟩

theorem coxFlows_step (c : Cox) (now n : Nat) : CoxFlows c (c.step now n) := by
  refine ⟨?_, fun l h => by simpa using h⟩
  unfold Cox.step Cox.issued Cox.nextPc
  split
  · rfl
  · split <;> rfl

/-- Nothing outside the Cox of tile `t` changes, and of that Cox only what a word that reaches no memory may change. -/
def StaysInCox (s u : State) (t : TileId) : Prop := OnlyCox s u t ∧ CoxFlows (s.cox t) (u.cox t)

theorem staysInCox_refl (s : State) (t : TileId) : StaysInCox s s t := ⟨onlyCox_refl s t, coxFlows_refl _⟩

theorem StaysInCox.trans {s u v : State} {t : TileId} (h : StaysInCox s u t) (k : StaysInCox u v t) : StaysInCox s v t :=
  ⟨onlyCox_trans h.1 k.1, h.2.trans k.2⟩

theorem staysInCox_modCox {s : State} {t : TileId} {f : Cox → Cox} (h : CoxFlows (s.cox t) (f (s.cox t))) : StaysInCox s (s.modCox t f) t :=
  ⟨onlyCox_modCox s t f, by rw [State.cox_modCox_same]; exact h⟩

theorem staysInCox_sendX {s : State} {t : TileId} (h : s.cur = .cox t) (d : Fin 64) (v : Word) (l : Nat) :
    StaysInCox s (s.sendX d v l) t := by
  rw [State.sendX, State.curTile_cox h]
  exact staysInCox_modCox (coxFlows_send _ _ _)

theorem staysInCox_sendP {s : State} {t : TileId} (h : s.cur = .cox t) (d : Fin 16) (b : Bool) (l : Nat) :
    StaysInCox s (s.sendP d b l) t := by
  rw [State.sendP, State.curTile_cox h]
  exact staysInCox_modCox (coxFlows_send _ _ _)

theorem staysInCox_branchTo {s : State} {t : TileId} (h : s.cur = .cox t) (target : Word) : StaysInCox s (s.branchTo target) t := by
  rw [State.branchTo, State.curTile_cox h]
  exact staysInCox_modCox (coxFlows_take _ _)

/-- A word whose effect stays in its Cox, whether it runs, waits or faults. -/
theorem staysInCox_runCox {s : State} {t : TileId} {g : CGuard} {srcs : List COp} {k : List Word → State → CoxRes} (hc : s.cur = .cox t)
    (hk : ∀ v w, w.cur = .cox t → (k v w = .wait ∨ ∃ c i a, k v w = .fault c i a) ∨ ∃ u, k v w = .done u ∧ StaysInCox w u t) :
    StaysInCox s (s.runCox g srcs k) t := by
  have hfault (code : Byte) (info addr : Word) : StaysInCox s (s.coxFault t code info addr) t :=
    staysInCox_modCox (coxFlows_raise _ _ _ _)
  have hstep : StaysInCox s (s.modCox t fun c => c.step s.gtime (popCount srcs)) t := staysInCox_modCox (coxFlows_step _ _ _)
  simp only [State.runCox, State.curTile_cox hc]
  split
  · exact hfault _ _ _
  · split
    · exact hfault _ _ _
    · exact staysInCox_refl s t
    · split
      · exact hstep
      · split
        · exact hfault _ _ _
        · rcases hk ((s.cox t).values srcs ((s.cox t).popped (popCount srcs))) (s.modCox t fun c => c.step s.gtime (popCount srcs)) hc with
            (h | ⟨c, i, a, h⟩) | ⟨u, h, hu⟩ <;> rw [h]
          · exact staysInCox_refl s t
          · exact hfault _ _ _
          · exact hstep.trans hu

theorem staysInCox_runDone {s : State} {t : TileId} {g : CGuard} {srcs : List COp} {k : List Word → State → State} (hc : s.cur = .cox t)
    (hk : ∀ v w, w.cur = .cox t → StaysInCox w (k v w) t) : StaysInCox s (s.runCox g srcs fun v w => .done (k v w)) t :=
  staysInCox_runCox hc fun v w hw => .inr ⟨_, rfl, hk v w hw⟩

theorem staysInCox_alu3 {s : State} {t : TileId} (hc : s.cur = .cox t) (o : Alu3) (l : Nat) (f : Word → Word → Word) :
    StaysInCox s (s.alu3 o l f) t := staysInCox_runDone hc fun _ _ hw => staysInCox_sendX hw _ _ _

theorem staysInCox_alu1 {s : State} {t : TileId} (hc : s.cur = .cox t) (g : CGuard) (d : Fin 64) (a : Src) (f : Word → Word) :
    StaysInCox s (s.alu1 g d a f) t := staysInCox_runDone hc fun _ _ hw => staysInCox_sendX hw _ _ _

theorem staysInCox_runBranch {s : State} {t : TileId} {g : CGuard} {srcs : List COp} {k : List Word → Word → State → State}
    (hc : s.cur = .cox t) (hk : ∀ v pc w, w.cur = .cox t → StaysInCox w (k v pc w) t) : StaysInCox s (s.runBranch g srcs k) t := by
  unfold State.runBranch
  extract_lets c
  split
  · exact staysInCox_runDone hc fun _ w _ => staysInCox_refl w t
  · exact staysInCox_runDone hc fun v w hw => hk v _ w hw

theorem staysInCox_of_next {s u v : State} {t : TileId} (h : StaysInCox s v t) (hx : (.next v : Out) = .next u) : StaysInCox s u t :=
  Host.Outcome.next.inj hx ▸ h

/-- A word that reaches no memory stays in its Cox. -/
theorem exec_staysInCox {i : Instr} {s u : State} {t : TileId} (hi : i.coxOnly = true) (hc : s.cur = .cox t) (hx : exec i s = .next u) :
    StaysInCox s u t := by
  have hsend {v : State} {c : Cox → Cox} (hv : v.cur = .cox t) (h : CoxFlows (v.cox t) (c (v.cox t))) :
      StaysInCox v (v.modCox v.curTile c) t := by rw [State.curTile_cox hv]; exact staysInCox_modCox h
  have hlink {v : State} (hv : v.cur = .cox t) (d : Fin 64) (x target : Word) : StaysInCox v ((v.sendX d x 1).branchTo target) t :=
    (staysInCox_sendX hv d x 1).trans (staysInCox_branchTo (s := v.sendX d x 1) hv target)
  cases i
  case add o | sub o | mul o | mulh o | mulhn o | div o | divn o | rem o | remn o | and o | or o | xor o | andn o | shl o | shr o
      | sra o | rot o | min o | max o | minn o | maxn o => exact staysInCox_of_next (staysInCox_alu3 hc o _ _) hx
  case clz o | ctz o | popc o | sext o | zext o => exact staysInCox_of_next (staysInCox_alu1 hc _ _ _ _) hx
  case li | lih | sel | pmovXP | pmovXPall | qstat =>
    exact staysInCox_of_next (staysInCox_runDone hc fun _ _ hw => staysInCox_sendX hw _ _ _) hx
  case cmp | plog | pmovPP | pmovPX =>
    exact staysInCox_of_next (staysInCox_runDone hc fun _ _ hw => staysInCox_sendP hw _ _ _) hx
  case pmovPallX => exact staysInCox_of_next (staysInCox_runDone hc fun _ _ hw => hsend hw (coxFlows_send _ _ _)) hx
  case waitcyc | waitcycUntil => exact staysInCox_of_next (staysInCox_runDone hc fun _ _ hw => hsend hw (coxFlows_nextIssue _ _)) hx
  case nop => exact staysInCox_of_next (staysInCox_runDone hc fun _ w _ => staysInCox_refl w t) hx
  case br | jr | ret => exact staysInCox_of_next (staysInCox_runBranch hc fun _ _ _ hw => staysInCox_branchTo hw _) hx
  case brl =>
    exact staysInCox_of_next (staysInCox_runBranch hc fun _ _ _ hw => hlink hw _ _ _) hx
  case bct =>
    refine staysInCox_of_next (staysInCox_runBranch hc fun v pc w hw => ?_) hx
    dsimp only
    split
    · exact hlink hw _ _ _
    · exact staysInCox_sendX hw _ _ _
  case waitq | waitb =>
    refine staysInCox_of_next (staysInCox_runCox hc fun v w hw => ?_) hx
    split
    · exact .inr ⟨_, rfl, staysInCox_refl w t⟩
    · exact .inl (.inl rfl)
  case join =>
    refine staysInCox_of_next (staysInCox_runCox hc fun v w hw => ?_) hx
    dsimp only
    split
    · exact .inl (.inl rfl)
    · exact .inr ⟨_, rfl, staysInCox_sendX hw _ _ _⟩
  case csrw =>
    refine staysInCox_of_next (staysInCox_runCox hc fun v w hw => ?_) hx
    dsimp only
    split
    · exact .inl (.inr ⟨_, _, _, rfl⟩)
    · exact .inr ⟨_, rfl, hsend hw (coxFlows_send _ _ _)⟩
  all_goals exact absurd hi (by simp [Instr.coxOnly])

/-- Settles O54: every such word stays in its Cox, whether it runs, waits or faults. -/
theorem coxFrame : Obligations.CoxFrame := by
  intro i s u t hi hc hx
  obtain ⟨ho, hk, hf⟩ := exec_staysInCox hi hc hx
  refine ⟨ho, hk, fun r => ?_, hf⟩
  rw [CoxKeeps] at hk
  rw [hk]
  rfl

/-! ### Branch words -/

/-- A branch word outside a delay slot has its effect on the values of its sources. -/
theorem State.runBranch_runs {s : State} {t : TileId} {g : CGuard} {srcs : List COp} (h : CoxRuns s t g srcs)
    (hb : (s.cox t).branch = none) (k : List Word → Word → State → State) :
    s.runBranch g srcs k = k ((s.cox t).values srcs ((s.cox t).popped (popCount srcs))) (s.cox t).pc (coxIssued s t srcs) := by
  rw [State.runBranch_open h.atWork hb, State.runCox_runs h]

theorem State.branchTo_eq {u : State} {t : TileId} (h : u.cur = .cox t) (target : Word) :
    u.branchTo target = u.modCox t fun c => { c with branch := some (target, 2) } := by
  rw [State.branchTo, State.curTile_cox h]
  rfl

theorem State.sendX_eq {u : State} {t : TileId} (h : u.cur = .cox t) (d : Fin 64) (v : Word) (l : Nat) :
    u.sendX d v l = coxSends u t l (.x d v) := by
  rw [State.sendX, State.curTile_cox h]
  rfl

/-- Settles O6: outside a delay slot a branch word sets the branch of its Cox, a link being sent before. -/
theorem branchWords : Obligations.BranchWords := by
  intro s t g hb
  refine ⟨fun h => ⟨fun i => ?_, fun d i => ?_, ?_⟩, fun a h => ?_⟩
  · rw [exec, execBr, State.runBranch_runs h hb, State.branchTo_eq (u := coxIssued s t []) h.atWork]
    rfl
  · rw [exec, execBrl, State.runBranch_runs h hb, State.sendX_eq (u := coxIssued s t []) h.atWork,
      State.branchTo_eq (u := coxSends (coxIssued s t []) t 1 (.x d ((s.cox t).pc + 36))) h.atWork]
    rfl
  · rw [exec, execRegion, State.runClosing_runs h hb]
    simp only [State.retireAt, coxClosing_curTile, State.curTile_cox h.atWork]
    rfl
  · refine ⟨?_, ?_, fun i => ⟨fun hn => ?_, fun hn => ?_⟩⟩
    · rw [exec, execJr, State.runBranch_runs h hb, State.branchTo_eq (u := coxIssued s t [.x a]) h.atWork]
      rfl
    · rw [exec, execRet, State.runBranch_runs h hb, State.branchTo_eq (u := coxIssued s t [.x a]) h.atWork]
      rfl
    · rw [exec, execBct, State.runBranch_runs h hb]
      dsimp only
      rw [if_pos (show nth ((s.cox t).values [.x a] ((s.cox t).popped (popCount [.x a]))) 0 - 1 ≠ 0 from hn), State.sendX_eq (u := coxIssued s t [.x a]) h.atWork, State.branchTo_eq (u := coxSends (coxIssued s t [.x a]) t 1 _) h.atWork]
      rfl
    · rw [exec, execBct, State.runBranch_runs h hb]
      dsimp only
      rw [if_neg (not_not.2 (show nth ((s.cox t).values [.x a] ((s.cox t).popped (popCount [.x a]))) 0 - 1 = 0 from hn)), State.sendX_eq (u := coxIssued s t [.x a]) h.atWork]
      rfl

end Sys2Proof.Machine
end

section
/-! ## Steps of the running phase (R60, R61, R63, R239) -/

namespace Sys2Proof.Machine

open Sys2Proof

/-- In the running phase the head of the agenda has its turn. -/
theorem State.act_running {s : State} (hf : s.sys.frozen = false) (hp : s.phase = .running) (hw : s.sys.hold ≠ some .write) :
    s.act = match s.agenda with
      | [] => s.endRunning s
      | .event i :: rest => if isLate i || cutsSupply i then s.endRunning s else { s with agenda := rest }.turn (.event i)
      | .endCycle :: rest => s.endRunning { s with agenda := rest }
      | t :: rest => { s with agenda := rest }.turn t := by
  simp only [State.act, hf, Bool.false_eq_true, if_false, hw, hp] <;> rfl

theorem step_of_exec {s u : State} {i : Instr} (h : s.act = .exec i u) : step s = exec i u := by rw [step, h]

theorem step_of_next {s u : State} (h : s.act = .next u) : step s = .next u := by rw [step, h]

theorem step_of_port {s u : State} {t : TileId} {i : Instr} (h : s.act = .port t i u) : step s = u.portedOut t (exec i u) := by
  rw [step, h]

/-- The turn of a Cox that may issue: a PC that may not be fetched. -/
theorem State.coxTurn_misaligned {u : State} {t : TileId} (h : u.coxReady t = true) (hpc : pcLegal (u.cox t).pc = false) :
    u.coxTurn t = .next ({ u with cur := .cox t, tried := .cox t :: u.tried }.coxFault t cMISALIGN 0 (u.cox t).pc) := by
  simp only [State.coxTurn, h, hpc, if_true]

/-- The same where the word can be fetched and is one. -/
theorem State.coxTurn_word {u : State} {t : TileId} {i : Instr} (h : u.coxReady t = true) (hpc : pcLegal (u.cox t).pc = true)
    (hg : GranulesGood u ((granules (u.cox t).pc.toNat 12).map (.imem t)))
    (hi : decodeBytes .cox ((u.cox t).imem.read (u.cox t).pc.toNat 12) = .word i) :
    u.coxTurn t = .exec i { u with cur := .cox t, tried := .cox t :: u.tried } := by
  have hg' := State.goodRead_good (u := { u with cur := .cox t, tried := .cox t :: u.tried }) (GranulesGood.of_dev (s := u) hg rfl) t
  simp only [State.coxTurn, h, hpc, if_true, Bool.true_eq_false, if_false, hg', hi]

/-- A word that is none. -/
theorem State.coxTurn_ill {u : State} {t : TileId} {k : Nat} (h : u.coxReady t = true) (hpc : pcLegal (u.cox t).pc = true)
    (hg : GranulesGood u ((granules (u.cox t).pc.toNat 12).map (.imem t)))
    (hi : decodeBytes .cox ((u.cox t).imem.read (u.cox t).pc.toNat 12) = .ill k) :
    u.coxTurn t = .next ({ u with cur := .cox t, tried := .cox t :: u.tried }.coxFault t cILLOP (BitVec.ofNat 64 k) 0) := by
  have hg' := State.goodRead_good (u := { u with cur := .cox t, tried := .cox t :: u.tried }) (GranulesGood.of_dev (s := u) hg rfl) t
  simp only [State.coxTurn, h, hpc, if_true, Bool.true_eq_false, if_false, hg', hi]

/-- The turn of an engine, outside a replay, that has a word. -/
theorem State.engTurn_fetched {u : State} {t : TileId} {e : Eng} {bs : List Byte} (hd : (u.die (dieOf t)).frozen = false)
    (hm : e = .m → (u.tile t).m.replay = none) (hr : u.engReady t e = true) (hw : ((u.tile t).eng e).wordNow = some bs)
    (hg : GranulesGood u (((u.tile t).eng e).wordSites t e)) :
    u.engTurn t e = match decodeBytes e.stream bs with
      | .word i => if e = .v then .port t i { u with cur := .eng t e } else .exec i { u with cur := .eng t e }
      | .ill k => .next (u.engFault t e cILLOP k) := by
  have hc : u.clocked (dieOf t) = true := by rw [State.clocked, hd]; rfl
  have hn : ¬(e = .m ∧ (u.tile t).m.replay.isSome = true) := fun ⟨he, hs⟩ => by rw [hm he] at hs; cases hs
  simp only [State.engTurn, hc, Bool.true_eq_false, if_false, hn, hr, if_true, hw, State.goodRead_good hg] <;> rfl

/-- Settles O58: the turn of the agenda decodes the word and runs it. -/
theorem decodedWordsIssue : Obligations.DecodedWordsIssue := by
  intro s rest hf hp hw
  have hact := State.act_running hf hp hw
  refine ⟨fun t hr ha => ?_, fun t e bs ha hd hm hr hword hg => ⟨fun i hi => ⟨fun hv => ?_, fun hv => ?_⟩, fun k hk => ?_⟩,
    fun g p ha hpr hfe hr => ⟨fun w i hpc hi => ?_, fun hill => ?_⟩, fun i ha hin hcl hl hc => ?_, fun ha hu => ?_⟩
  · have hturn : s.act = ({ s with agenda := rest } : State).coxTurn t := by
      rcases ha with ha | ⟨ha, rfl, hu⟩
      · rw [hact, ha]; rfl
      · rw [hact, ha]
        simp only [State.endRunning, hu]
        rw [← ha]
    refine ⟨fun hpc => step_of_next (hturn.trans (State.coxTurn_misaligned hr hpc)), fun hpc hg => ?_⟩
    have hg' := GranulesGood.of_dev (s := s) (u := { s with agenda := rest }) hg rfl
    exact ⟨fun i hi => step_of_exec (hturn.trans (State.coxTurn_word hr hpc hg' hi)),
      fun k hk => step_of_next (hturn.trans (State.coxTurn_ill hr hpc hg' hk))⟩
  all_goals have hturn : s.act = _ := hact
  all_goals rw [ha] at hturn
  · have hfetch := hturn.trans (State.engTurn_fetched (u := { s with agenda := rest }) hd hm hr hword (GranulesGood.of_dev (s := s) hg rfl))
    rw [hi] at hfetch
    exact step_of_exec (hfetch.trans (if_neg hv))
  · have hfetch := hturn.trans (State.engTurn_fetched (u := { s with agenda := rest }) hd hm hr hword (GranulesGood.of_dev (s := s) hg rfl))
    rw [hi] at hfetch
    exact step_of_port (hfetch.trans (if_pos hv))
  · have hfetch := hturn.trans (State.engTurn_fetched (u := { s with agenda := rest }) hd hm hr hword (GranulesGood.of_dev (s := s) hg rfl))
    rw [hk] at hfetch
    exact step_of_next hfetch
  · refine step_of_exec (hturn.trans ?_)
    have hr' : ({ s with agenda := rest } : State).stepReady g.val = true := hr
    have hg' : ({ s with agenda := rest } : State).group g.val = s.group g.val := rfl
    simp only [State.turn, State.cpTurn, hg', hpr, Option.bind_some, hfe, Option.isSome_none, Bool.false_eq_true, if_false, hr', if_true, hpc, hi]
  · refine step_of_next (hturn.trans ?_)
    have hr' : ({ s with agenda := rest } : State).stepReady g.val = true := hr
    have hg' : ({ s with agenda := rest } : State).group g.val = s.group g.val := rfl
    have hb : (p.steps[p.pc]?.bind fun w => decodeStep w.toNat) = none := by
      cases hw : p.steps[p.pc]? with
      | none => rfl
      | some w => exact hill w hw
    simp only [State.turn, State.cpTurn, hg', hpr, Option.bind_some, hfe, Option.isSome_none, Bool.false_eq_true, if_false, hr', if_true, hb]
  · refine step_of_exec (hturn.trans ?_)
    have hcl' : (eventDie { s with agenda := rest } i).all (State.clocked { s with agenda := rest }) = true := hcl
    simp only [hl, hc, State.turn, hin, hcl', Bool.or_self, Bool.false_eq_true, if_false, Bool.and_self, if_true]
  · refine step_of_next (hturn.trans ?_)
    simp [State.endRunning, hu]

end Sys2Proof.Machine
end

section
/-! ## Scratchpad words of the Cox (R269, R270, R163) -/

namespace Sys2Proof.Machine

open Sys2Proof

/-! ### The outcome of a word that runs -/

/-- The values of the sources of a word that runs, in one list. -/
theorem exists_coxValues (s : State) (t : TileId) (srcs : List COp) :
    ∃ v, (s.cox t).values srcs ((s.cox t).popped (popCount srcs)) = v ∧ coxValue s t srcs = nth v := ⟨_, rfl, rfl⟩

section
variable {s u : State} {t : TileId} {g : CGuard} {srcs : List COp} {v : List Word} {k : List Word → State → CoxRes}

theorem State.runCox_done (h : CoxRuns s t g srcs) (hv : (s.cox t).values srcs ((s.cox t).popped (popCount srcs)) = v)
    (hk : k v (coxIssued s t srcs) = .done u) : s.runCox g srcs k = u := by
  rw [State.runCox_runs h, hv, hk]

theorem State.runCox_faults {code : Byte} {info addr : Word} (h : CoxRuns s t g srcs)
    (hv : (s.cox t).values srcs ((s.cox t).popped (popCount srcs)) = v) (hk : k v (coxIssued s t srcs) = .fault code info addr) :
    s.runCox g srcs k = s.modCox t fun c => { c with fault := some (⟨code, 0, info, addr⟩, c.pc) } := by
  rw [State.runCox_runs h, hv, hk]
  rfl

theorem State.runClosing_done (h : CoxRuns s t g srcs) (hb : (s.cox t).branch = none)
    (hv : (s.cox t).values srcs ((s.cox t).popped (popCount srcs)) = v) (hk : k v (coxClosing s t srcs) = .done u) :
    s.runClosing g srcs k = u := by
  rw [State.runClosing_runs h hb, hv, hk]

theorem State.runClosing_faults {code : Byte} {info addr : Word} (h : CoxRuns s t g srcs) (hb : (s.cox t).branch = none)
    (hv : (s.cox t).values srcs ((s.cox t).popped (popCount srcs)) = v) (hk : k v (coxClosing s t srcs) = .fault code info addr) :
    s.runClosing g srcs k = s.modCox t fun c => { c with fault := some (⟨code, 0, info, addr⟩, c.pc) } := by
  rw [State.runClosing_runs h hb, hv, hk]
  rfl
end

theorem State.tile_cox (s : State) (t : TileId) : (s.tile t).cox = s.cox t := rfl

@[simp] theorem coxIssued_nextReq (s : State) (t : TileId) (srcs : List COp) : ((coxIssued s t srcs).cox t).nextReq = (s.cox t).nextReq := by
  simp [coxIssued]

@[simp] theorem coxClosing_nextReq (s : State) (t : TileId) (srcs : List COp) : ((coxClosing s t srcs).cox t).nextReq = (s.cox t).nextReq := by
  simp [coxClosing]

/-! ### Addresses -/

theorem misaligned_iff (va : Word) {w : Nat} : misaligned va w = true ↔ ¬w ∣ va.toNat := by
  rw [misaligned, decide_eq_true_eq, Nat.dvd_iff_mod_eq_zero]

theorem misaligned_eq_false_iff (va : Word) {w : Nat} : misaligned va w = false ↔ w ∣ va.toNat := by
  rw [← Bool.not_eq_true, misaligned_iff, not_not]

theorem locate_coxIssued (s : State) (t : TileId) (srcs : List COp) (a : Nat) :
    ((coxIssued s t srcs).tile t).locate a = (s.tile t).locate a := by
  rw [coxIssued, State.tile_modCox_same]
  rfl

theorem State.loadLocal_eq {u : State} {t : TileId} (h : u.curTile = t) (off : Nat) (ty : MemTy) (dst : LoadDst) :
    u.loadLocal off ty dst = coxSends u t 1 (.load off ty dst []) := by
  rw [State.loadLocal, h]
  rfl

/-- The request of the word at work is that of its tile. -/
theorem State.request_eq {u : State} {t : TileId} (h : u.curTile = t) (slot closing : Bool) (pc : Word) (act : ReqAct) :
    u.request slot closing pc act = coxAsks u t slot closing pc act := by
  rw [State.request, h]
  rfl

theorem State.longLatency_eq {u : State} {t : TileId} (h : u.curTile = t) (repeatable closing : Bool) (pc : Word) (act : ReqAct) :
    u.longLatency repeatable closing pc act = coxAsksElement u t repeatable closing pc act := by
  rw [State.longLatency, h, State.request_eq (by exact h)]
  rfl

/-- An `LD` whose address is aligned, by where that lies. -/
theorem exec_ld_aligned {s : State} {t : TileId} {o : MemOp} {v : List Word} (h : CoxRuns s t o.g [.x o.a])
    (hv : (s.cox t).values [.x o.a] ((s.cox t).popped (popCount [.x o.a])) = v)
    (hm : misaligned (nth v 0 + o.off.signExtend 64) (widthBytes o.ty.width) = false) (d : Fin 64) :
    exec (.ld o d) s = .next (match (s.tile t).locate (nth v 0 + o.off.signExtend 64).toNat with
      | .own off | .multicast off => coxSends (coxIssued s t [.x o.a]) t 1 (.load off o.ty (.x d) [])
      | .member .. | .outside => s.coxFault t cWINDOW 0 (nth v 0 + o.off.signExtend 64)) := by
  rw [exec, execLd, State.runCox_runs h, hv]
  simp only [memAddr, sextImm, hm, Bool.false_eq_true, if_false, coxIssued_curTile, State.curTile_cox h.atWork, locate_coxIssued]
  cases (s.tile t).locate (nth v 0 + o.off.signExtend 64).toNat <;> simp only [State.loadLocal_eq (u := coxIssued s t [.x o.a]) (State.curTile_cox h.atWork)]

/-- The same in the FIFO form. -/
theorem exec_ldFifo_aligned {s : State} {t : TileId} {o : MemOp} {v : List Word} (h : CoxRuns s t o.g [.x o.a])
    (hv : (s.cox t).values [.x o.a] ((s.cox t).popped (popCount [.x o.a])) = v)
    (hm : misaligned (nth v 0 + o.off.signExtend 64) (widthBytes o.ty.width) = false) :
    exec (.ldFifo o) s = .next (match (s.tile t).locate (nth v 0 + o.off.signExtend 64).toNat with
      | .outside => s.coxFault t cWINDOW 0 (nth v 0 + o.off.signExtend 64)
      | .own off | .multicast off =>
        if (s.cox t).rfRoom then coxSends ((coxIssued s t [.x o.a]).modCox t fun c => c.placeLocal true) t 1 (.load off o.ty (.rf (s.cox t).nextReq) [])
        else s
      | .member m off =>
        if s.holding then s.coxFault t cPROT 0 (nth v 0 + o.off.signExtend 64)
        else if (s.cox t).rfRoom then coxAsksElement (coxIssued s t [.x o.a]) t true false (s.cox t).pc (.winLoad m off o.ty)
        else s) := by
  rw [exec, execLdFifo, State.runCox_runs h, hv]
  simp only [memAddr, sextImm, hm, Bool.false_eq_true, if_false, coxIssued_curTile, State.curTile_cox h.atWork]
  have hti : (coxIssued s t [.x o.a]).curTile = t := State.curTile_cox h.atWork
  cases (s.tile t).locate (nth v 0 + o.off.signExtend 64).toNat <;> cases (s.cox t).rfRoom <;> cases s.holding <;>
    simp only [if_true, Bool.false_eq_true, if_false, State.longLatency_eq hti,
      State.loadLocal_eq (u := (coxIssued s t [.x o.a]).modCox t fun c => c.placeLocal true) hti]

/-- An `ST` whose address is aligned. -/
theorem exec_st_aligned {s : State} {t : TileId} {o : MemOp} {b : XRf} {v : List Word} (h : CoxRuns s t o.g [.x o.a, b.op])
    (hv : (s.cox t).values [.x o.a, b.op] ((s.cox t).popped (popCount [.x o.a, b.op])) = v)
    (hm : misaligned (nth v 0 + o.off.signExtend 64) (widthBytes o.ty.width) = false) :
    exec (.st o b) s = .next (match (s.tile t).locate (nth v 0 + o.off.signExtend 64).toNat with
      | .outside => s.coxFault t cWINDOW 0 (nth v 0 + o.off.signExtend 64)
      | .own off => coxSends (coxIssued s t [.x o.a, b.op]) t 1 (.store off (toBytes (widthBytes o.ty.width) (nth v 1).toNat))
      | .member m off =>
        if s.holding then s.coxFault t cPROT 0 (nth v 0 + o.off.signExtend 64)
        else coxAsks (coxIssued s t [.x o.a, b.op]) t false false (s.cox t).pc
          (.winStore m off (toBytes (widthBytes o.ty.width) (nth v 1).toNat))
      | .multicast off =>
        if (s.cox t).mcdelay = 0 then s.coxFault t cWINDOW 0 (nth v 0 + o.off.signExtend 64)
        else if s.holding then s.coxFault t cPROT 0 (nth v 0 + o.off.signExtend 64)
        else if (s.tile t).mcRoom then coxAsks (coxIssued s t [.x o.a, b.op]) t false false (s.cox t).pc
          (.multicast off (toBytes (widthBytes o.ty.width) (nth v 1).toNat) ((s.tile t).gangTiles t) (s.cox t).mcdelay.toNat
            (s.tile t).member)
        else s) := by
  rw [exec, execSt, State.runCox_runs h, hv]
  have hti : (coxIssued s t [.x o.a, b.op]).curTile = t := State.curTile_cox h.atWork
  simp only [memAddr, sextImm, hm, Bool.false_eq_true, if_false, State.curTile_cox h.atWork, hti, storeBytes, State.tile_cox]
  cases (s.tile t).locate (nth v 0 + o.off.signExtend 64).toNat with
  | own off => rfl
  | outside => rfl
  | member m off => cases s.holding <;> simp only [if_true, Bool.false_eq_true, if_false, State.request_eq hti]
  | multicast off =>
    by_cases h0 : (s.cox t).mcdelay = 0 <;> cases s.holding <;> cases (s.tile t).mcRoom <;>
      simp only [h0, if_true, Bool.false_eq_true, if_false, State.request_eq hti]

/-- The atomic forms of `ST` are one operation. -/
theorem exec_atomic {g : CGuard} {a : Fin 64} {off : BitVec 32} {signed : Bool} {b : XRf} {i : Instr} {srcs : List COp} {op : SatOp}
    (hhead : i.coxHead = some (g, srcs))
    (hi : i = .stAtomic g a off signed (match op with | .op o => o | .cas _ => .add) b ∧ (∃ o, op = .op o) ∨
      ∃ x, i = .stCas g a off signed b x ∧ op = .cas (.x x)) :
    ∃ (b : XRf) (extra : List COp), srcs = [.x a, b.op] ++ extra ∧ ∀ s, exec i s = .next (s.atomic g a off signed op b extra) := by
  rcases hi with ⟨rfl, o, rfl⟩ | ⟨x, rfl, rfl⟩
  · cases hhead
    exact ⟨b, [], rfl, fun _ => rfl⟩
  · cases hhead
    exact ⟨b, [.x x], rfl, fun _ => rfl⟩

/-- An atomic form of `ST` whose address is aligned. -/
theorem State.atomic_aligned {s : State} {t : TileId} {g : CGuard} {a : Fin 64} {off : BitVec 32} {signed : Bool} {op : SatOp} {b : XRf}
    {extra : List COp} {v : List Word} (h : CoxRuns s t g ([.x a, b.op] ++ extra)) (hb : (s.cox t).branch = none)
    (hv : (s.cox t).values ([.x a, b.op] ++ extra) ((s.cox t).popped (popCount ([.x a, b.op] ++ extra))) = v)
    (hm : misaligned (nth v 0 + off.signExtend 64) 8 = false) :
    s.atomic g a off signed op b extra = match (s.tile t).locate (nth v 0 + off.signExtend 64).toNat with
      | .outside | .multicast _ => s.coxFault t cWINDOW 0 (nth v 0 + off.signExtend 64)
      | .own o =>
        if (s.cox t).rfRoom then
          coxSends ((coxClosing s t ([.x a, b.op] ++ extra)).modCox t fun c => c.placeLocal false) t 1
            (.atomic o op signed (nth v 1) (nth v 2) (s.cox t).nextReq)
        else s
      | .member m o =>
        if s.holding then s.coxFault t cPROT 0 (nth v 0 + off.signExtend 64)
        else if (s.cox t).rfRoom then
          coxAsksElement (coxClosing s t ([.x a, b.op] ++ extra)) t false true (s.cox t).pc (.winAtomic m o op signed (nth v 1) (nth v 2))
        else s := by
  rw [State.atomic, State.runClosing_runs h hb, hv]
  have hti : (coxClosing s t ([.x a, b.op] ++ extra)).curTile = t := State.curTile_cox h.atWork
  simp only [sextImm, hm, Bool.false_eq_true, if_false, State.curTile_cox h.atWork, hti, State.tile_cox]
  cases (s.tile t).locate (nth v 0 + off.signExtend 64).toNat with
  | outside | multicast o => rfl
  | own o =>
    cases (s.cox t).rfRoom
    · simp only [Bool.false_eq_true, if_false]
    · simp only [if_true, coxSends, State.modCox_modCox]
      exact State.modCox_congr (by rw [coxClosing_nextReq]; rfl)
  | member m o =>
    cases s.holding <;> cases (s.cox t).rfRoom <;> simp only [if_true, Bool.false_eq_true, if_false, State.longLatency_eq hti]

/-- Settles O8: an aligned address is local, a member's, the multicast window's, or outside. -/
theorem scratchpadWords : Obligations.ScratchpadWords := by
  intro s t
  refine ⟨fun o h => ?_, fun o b h => ?_, fun hb g a off signed b i srcs op hhead hi h => ?_⟩
  · obtain ⟨v, hv, hval⟩ := exists_coxValues s t [.x o.a]
    simp only [hval]
    refine ⟨fun hm => ⟨fun d => congrArg _ (State.runCox_faults h hv (if_pos ((misaligned_iff _).2 hm))),
      congrArg _ (State.runCox_faults h hv (if_pos ((misaligned_iff _).2 hm)))⟩, fun hm => ?_⟩
    have hm' := (misaligned_eq_false_iff _).2 hm
    simp only [exec_ld_aligned h hv hm', exec_ldFifo_aligned h hv hm']
    cases (s.tile t).locate (nth v 0 + o.off.signExtend 64).toNat with
    | own off | multicast off => exact ⟨fun _ => rfl, fun hr => congrArg _ (if_pos hr)⟩
    | member m off => exact ⟨fun _ => rfl, fun hh hr => congrArg _ ((if_neg (ne_true_of_eq_false hh)).trans (if_pos hr))⟩
    | outside => exact ⟨fun _ => rfl, rfl⟩
  · obtain ⟨v, hv, hval⟩ := exists_coxValues s t [.x o.a, b.op]
    simp only [hval]
    refine ⟨fun hm => congrArg _ (State.runCox_faults h hv (if_pos ((misaligned_iff _).2 hm))), fun hm => ?_⟩
    have hm' := (misaligned_eq_false_iff _).2 hm
    simp only [exec_st_aligned h hv hm']
    cases (s.tile t).locate (nth v 0 + o.off.signExtend 64).toNat with
    | own off | outside => rfl
    | member m off => exact fun hh => congrArg _ (if_neg (ne_true_of_eq_false hh))
    | multicast off =>
      exact ⟨fun h0 => congrArg _ (if_pos h0),
        fun h0 hh hr => congrArg _ ((if_neg h0).trans ((if_neg (ne_true_of_eq_false hh)).trans (if_pos hr)))⟩
  · obtain ⟨v, hv, hval⟩ := exists_coxValues s t srcs
    obtain ⟨b, extra, rfl, hx⟩ := exec_atomic hhead hi
    simp only [hval, hx]
    refine ⟨fun hm => congrArg _ (State.runClosing_faults h hb hv (if_pos ((misaligned_iff _).2 hm))), fun hm => ?_⟩
    have hm' := (misaligned_eq_false_iff _).2 hm
    rw [State.atomic_aligned h hb hv hm']
    cases (s.tile t).locate (nth v 0 + off.signExtend 64).toNat with
    | own o => exact fun hr => congrArg _ (if_pos hr)
    | member m o => exact fun hh hr => congrArg _ ((if_neg (ne_true_of_eq_false hh)).trans (if_pos hr))
    | outside | multicast o => rfl

end Sys2Proof.Machine
end

section
/-! ## Words of role space and of extents (R69, R76 to R81, R86 to R88) -/

namespace Sys2Proof.Machine

open Sys2Proof

/-! ### Checks that pass -/

theorem State.translate_read {s : State} {t : TileId} {va : Nat} {p : Page} (h : PageAllows s t va 1 p) :
    s.translate t va .read none = .ok p := by
  simp [State.translate, h.page, Need.bit, h.allowed, Option.isNone_eq_false_iff.2 h.key]

theorem State.translate_named {s : State} {t : TileId} {va id : Nat} {p : Page} {need : Need} (h : PageAllows s t va need.bit p)
    (hid : pteExt p.pte = id) : s.translate t va need (some id) = .ok p := by
  simp [State.translate, h.page, h.allowed, Option.isNone_eq_false_iff.2 h.key, hid]

theorem State.extentWaits_rests {s : State} {t : TileId} {id : Nat} {e : Extent} (h : ExtentRests s t id e) :
    s.extentWaits t id e = false := by
  have hc : e.converting = false := by
    unfold Extent.converting
    split
    · next c hc => exact h.noConvert c hc
    · rfl
  rw [State.extentWaits, hc]
  rcases h.notArrived with hn | hn
  · simp [Extent.collOpen, hn]
  · simp [hn]

theorem State.namedExtent_ok {s : State} {v : Word} {e : Extent} (hv : v.toNat < 65536) (he : s.extent? v.toNat = some e) :
    s.namedExtent v = .ok (v.toNat, e) := by
  rw [State.namedExtent, if_neg (by omega), he]

theorem State.namedExtent_none {s : State} {v : Word} (h : 65536 ≤ v.toNat ∨ s.extent? v.toNat = none) :
    s.namedExtent v = .error cPROT := by
  unfold State.namedExtent
  split
  · rfl
  · next hv => rw [h.resolve_left hv]

theorem Segment.fault_addr_input {g : Segment} (h : g.st = .i) (t : TileId) (i : Nat) : g.fault t .addr i = none := by
  simp [Segment.fault, h]

theorem mem_numbersFrom {a n i : Nat} : i ∈ numbersFrom a n ↔ a ≤ i ∧ i < a + n := by
  rw [numbersFrom, List.mem_map]
  constructor
  · rintro ⟨k, hk, rfl⟩
    have := List.mem_range.1 hk
    omega
  · exact fun h => ⟨i - a, List.mem_range.2 (by omega), by omega⟩

theorem State.addrFaults_ok {s : State} {t : TileId} {id : Nat} {e : Extent} {va w : Nat}
    (h : ∀ i k g, (e.elemsAt (va - e.base)).1 ≤ i → i ≤ (e.elemsAt (va + w - 1 - e.base)).2 → e.segOf i = some (k, g) →
      ((s.seg? t id k).getD g).st = .i) : s.addrFaults t id e va w = .ok := by
  unfold State.addrFaults
  extract_lets lo hi faults
  have hf : faults = [] := by
    refine List.filterMap_eq_nil_iff.2 fun i hi' => ?_
    obtain ⟨hlo, hhi⟩ := mem_numbersFrom.1 hi'
    split
    · next k g hg => rw [Segment.fault_addr_input (h i k g hlo (by omega) hg)]; rfl
    · rfl
  rw [hf]
  rfl

theorem State.ldiCheck_ok {s : State} {t : TileId} {va : Word} {w : Nat} (h : LdiAllowed s t va.toNat w) : s.ldiCheck t va w = .ok := by
  obtain ⟨hd, p, e, hp, he, ht, hs⟩ := h
  simp only [State.ldiCheck, (misaligned_eq_false_iff va).2 hd, Bool.false_eq_true, if_false, State.translate_read hp, State.addrCheck,
    he.extent, ht, State.extentWaits_rests he, State.addrFaults_ok hs]

theorem State.streamCheck_cursor {s : State} {t : TileId} {v : Word} {k : Nat} (h : LdsAllowed s t v.toNat k) :
    s.streamCheck t v k .cursor true = .ok := by
  obtain ⟨e, g, hc, hf, ht, hst, hne, hr⟩ := h
  obtain ⟨p, hp, hid⟩ := hc.page
  have hfault : g.fault t .cursor g.rcur = none := by
    rcases hst with hst | hst <;> rcases hr with hr | hr <;> simp [Segment.fault, hst, hr, hne]
  have hempty : g.empty = false := by simp [Segment.empty, hne]
  simp [State.streamCheck, State.namedExtent_ok hc.named hc.rests.extent, hc.segment, State.translate_named (need := .read) hp hid, Except.map,
    hf, ht, State.extentWaits_rests hc.rests, hfault, hempty]

theorem State.streamCheck_append {s : State} {t : TileId} {v : Word} {k : Nat} (h : StsAllowed s t v.toNat k) :
    s.streamCheck t v k .append true = .ok := by
  obtain ⟨e, g, hc, hf, ht, hst, hne, hr⟩ := h
  obtain ⟨p, hp, hid⟩ := hc.page
  have hfault : g.fault t .append g.wcur = none := by
    rcases hr with hr | hr <;> simp [Segment.fault, hst, hr, hne]
  simp [State.streamCheck, State.namedExtent_ok hc.named hc.rests.extent, hc.segment, State.translate_named (need := .write) hp hid, Except.map,
    hf, ht, State.extentWaits_rests hc.rests, hfault]

theorem State.closeCheck_ok {s : State} {t : TileId} {v : Word} {k : Nat} (h : CloseAllowed s t v.toNat k) : s.closeCheck t v k = .ok := by
  obtain ⟨e, g, hc, hst, hr⟩ := h
  obtain ⟨p, hp, hid⟩ := hc.page
  rcases hr with hr | hr <;>
    simp [State.closeCheck, State.namedExtent_ok hc.named hc.rests.extent, hc.segment, State.translate_named (need := .write) hp hid,
      State.extentWaits_rests hc.rests, hst, hr]

theorem State.addaCheck_ok {s : State} {t : TileId} {v i : Word} (h : AddaAllowed s t v.toNat i.toNat) : s.addaCheck t v i = .ok := by
  obtain ⟨hv, e, p, k, g, he, hi, hp, hid, hs, hg⟩ := h
  simp [State.addaCheck, State.namedExtent_ok hv he.extent, not_le.2 hi, State.translate_named (need := .write) hp hid,
    State.extentWaits_rests he, hs, Segment.fault, hg]

/-! ### Words -/

theorem State.cur_touchTlb (s : State) (t : TileId) (va : Nat) : (s.touchTlb t va).cur = s.cur := by
  have hc : (s.checkTlb t va).cur = s.cur :=
    foldl_keeps (p := fun u : State => u.cur = s.cur) (fun _ _ hu => by exact hu) rfl
  unfold State.touchTlb
  extract_lets u
  split <;> exact hc

theorem then_ok {c : Chk} (h : c = .ok) (k : CoxRes) : c.then' k = k := by rw [h]; rfl

theorem State.not_barred {s : State} (h : s.holding = false ∧ s.inPair s.curTile = false) : ¬s.barred true = true := by
  simp [State.barred, h.1, h.2]

theorem State.barred_of {s : State} (h : s.holding = true ∨ s.inPair s.curTile = true) : s.barred true = true := by
  simpa [State.barred] using h

/-- R356: a word that reads good granules of its scratchpad goes on. -/
theorem State.readsOwn_good {s u : State} {a n : Nat} (h : GranulesGood u (spSites s.curTile a n)) (k : State → CoxRes) :
    s.readsOwn u a n k = k u := by
  rw [State.readsOwn, State.goodRead_good h]

/-- Settles O9: where the checks pass a word asks its home, and where they are not the issue's it asks or raises PROT. -/
theorem roleSpaceWords : Obligations.RoleSpaceWords := by
  refine ⟨fun s t g hh => ⟨fun a off ty h hr hl => ?_, fun hb => ⟨fun a k h => ⟨fun hr hl => ?_, fun hl => ?_⟩, fun a b k h hl => ?_,
    fun a b d ty h hp hl => ?_⟩⟩, fun s t g => ⟨fun a h => ⟨fun k f => ⟨fun hh hv hr => ?_, fun hp => ?_⟩,
    fun hb => ⟨fun acap => ⟨fun ho hd hw hr hg => ?_, fun hp => ?_⟩, fun ho hv => ?_, fun hp => ?_⟩⟩,
    fun hb a b d role fresh sig h => ⟨fun ho hv he => ?_, fun hp => ?_⟩⟩⟩
  all_goals obtain rfl := State.curTile_cox h.atWork
  · have hroom : ¬(!(s.cox s.curTile).rfRoom) = true := by rw [hr]; decide
    have hu (va : Nat) : ((coxIssued s s.curTile [.x a]).touchTlb s.curTile va).curTile = s.curTile :=
      State.curTile_cox ((State.cur_touchTlb _ _ _).trans h.atWork)
    have hchk {A B : CoxRes} (k : CoxRes) : (if s.holding then A else if !(s.cox s.curTile).rfRoom then B
        else (s.ldiCheck s.curTile (coxValue s s.curTile [.x a] 0 + off.signExtend 64) (widthBytes ty.width)).then' k) = k := (if_neg (ne_true_of_eq_false hh)).trans ((if_neg hroom).trans (then_ok (State.ldiCheck_ok hl) k))
    exact ⟨congrArg _ (State.runCox_done h rfl ((hchk _).trans (congrArg CoxRes.done (State.longLatency_eq (hu _) _ _ _ _)))),
      fun p => congrArg _ (State.runCox_done h rfl ((hchk _).trans (congrArg CoxRes.done (State.request_eq (hu _) _ _ _ _))))⟩
  · have hroom : ¬(!(s.cox s.curTile).rfRoom) = true := by rw [hr]; decide
    have hchk := State.streamCheck_cursor hl
    refine ⟨congrArg _ (State.runClosing_done h hb rfl ?_), fun p => congrArg _ (State.runClosing_done h hb rfl ?_)⟩
    all_goals
      dsimp only
      rw [if_neg (ne_true_of_eq_false hh), if_neg hroom, show s.streamCheck s.curTile (nth _ 0) k.val .cursor true = .ok from hchk]
      rfl
  · exact congrArg _ (State.runClosing_done h hb rfl ((if_neg (ne_true_of_eq_false hh)).trans (then_ok (State.closeCheck_ok hl) _)))
  · exact congrArg _ (State.runClosing_done h hb rfl ((if_neg (ne_true_of_eq_false hh)).trans (then_ok (State.streamCheck_append hl) _)))
  · exact congrArg _ (State.runClosing_done h hb rfl ((if_neg (State.not_barred ⟨hh, hp⟩)).trans (then_ok (State.addaCheck_ok hl) _)))
  · have hroom : ¬(!(s.cox s.curTile).rfRoom) = true := by rw [hr]; decide
    exact congrArg _ (State.runCox_done h rfl ((if_neg (not_or.2 ⟨ne_true_of_eq_false hh, not_le.2 hv⟩)).trans (if_neg hroom)))
  · exact congrArg _ (State.runCox_faults h rfl (if_pos hp))
  · have hroom : ¬(!(s.cox s.curTile).rfRoom) = true := by rw [hr]; decide
    refine congrArg _ (State.runClosing_done h hb rfl ((if_neg (State.not_barred ho)).trans
      ((if_neg (fun hm => (misaligned_iff _).1 hm hd)).trans ((if_neg (not_lt.2 hw)).trans ((if_neg hroom).trans ?_)))))
    exact State.readsOwn_good (u := coxClosing s s.curTile [.x a]) (GranulesGood.of_dev (s := s) hg rfl) _
  · exact congrArg _ (State.runClosing_faults h hb rfl (if_pos (State.barred_of hp)))
  · exact congrArg _ (State.runClosing_done h hb rfl ((if_neg (State.not_barred ho)).trans (if_neg (not_le.2 hv))))
  · refine congrArg _ (State.runClosing_faults h hb rfl ?_)
    by_cases hbar : s.barred true = true
    · exact if_pos hbar
    · exact (if_neg hbar).trans (if_pos (hp.resolve_left fun k => hbar (State.barred_of k)))
  · obtain ⟨e, he⟩ := he
    refine congrArg _ (State.runClosing_done h hb rfl ?_)
    dsimp only
    rw [if_neg (State.not_barred ho), show s.namedExtent (nth _ 0) = _ from State.namedExtent_ok hv he]
    rfl
  · refine congrArg _ (State.runClosing_faults h hb rfl ?_)
    by_cases hbar : s.barred true = true
    · exact if_pos hbar
    · dsimp only
      rw [if_neg hbar, show s.namedExtent (nth _ 0) = _ from State.namedExtent_none (hp.resolve_left fun k => hbar (State.barred_of k))]
      rfl

end Sys2Proof.Machine
end

section
/-! ## Signal words and fences of the Cox (R288 to R290, R298) -/

namespace Sys2Proof.Machine

open Sys2Proof

theorem ofNat_bitsOf_package (i : Nat) : (BitVec.ofNat 8 (bitsOf i 17 8) : Byte) = BitVec.ofNat 8 (i / 2 ^ 17) := by
  rw [bitsOf, Nat.shiftRight_eq_div_pow]
  exact BitVec.eq_of_toNat_eq (by simp)

/-- R289: the index is one that a tile may name: below `.dom`, of its own package. -/
def SigNamed (s : State) (o : SigOp) (i : Nat) : Prop := i < 2 ^ 25 ∧
  (if o.sc = .dom then BitVec.ofNat 8 (i / 2 ^ 17) = s.sys.pkg ∨ BitVec.ofNat 8 (i / 2 ^ 17) ∈ s.sys.reach else i < 2 ^ 17)

theorem State.sigFault_eq_false_iff (s : State) (o : SigOp) (i : Nat) : s.sigFault o i = false ↔ SigNamed s o i := by
  rw [SigNamed]
  have hlow (hi : i < 2 ^ 25) : bitsOf i 17 8 = 0 ↔ i < 2 ^ 17 := by
    rw [bitsOf, Nat.shiftRight_eq_div_pow]; omega
  by_cases hi : i < 2 ^ 25
  · by_cases hd : o.sc = .dom
    · simp [State.sigFault, ofNat_bitsOf_package, hd]
      tauto
    · simp [State.sigFault, hd, hlow hi]
  · have hf : s.sigFault o i = true := by rw [State.sigFault, decide_eq_true (not_lt.1 hi)]; rfl
    rw [hf]
    exact iff_of_false (by decide) fun h => hi h.1

theorem State.sigFault_of_not {s : State} {o : SigOp} {i : Nat} (h : ¬SigNamed s o i) : s.sigFault o i = true := by
  rw [← Bool.not_eq_false, State.sigFault_eq_false_iff]; exact h

theorem State.sigReq_eq (s : State) (o : SigOp) (i : Nat) (a : SigAct) : s.sigReq o i a =
    .signal (if o.sc = .dom then BitVec.ofNat 8 (i / 2 ^ 17) else s.sys.pkg) ⟨BitVec.ofNat 17 i, o.ord, o.sc, a⟩ := by
  rw [State.sigReq, State.sigPkg, ofNat_bitsOf_package]

theorem State.sigCheck_ok {s : State} {o : SigOp} {a : Word} (hb : ¬s.barred true = true) (h : s.sigFault o (a.toNat + o.off.toNat) = false)
    (k : Nat → CoxRes) : s.sigCheck o a k = k (a.toNat + o.off.toNat) :=
  if_neg fun hf => hf.elim hb (ne_true_of_eq_false h)

theorem State.sigCheck_fault {s : State} {o : SigOp} {a : Word} (h : s.sigFault o (a.toNat + o.off.toNat) = true)
    (k : Nat → CoxRes) : s.sigCheck o a k = .fault cPROT 0 (BitVec.ofNat 64 (a.toNat + o.off.toNat)) := if_pos (.inr h)

/-- Settles O11: where the index may be named a Signal word asks for its operation. -/
theorem signalWords : Obligations.SignalWords := by
  intro s t hh hp
  refine ⟨fun o h hn hr => ?_, fun o h hn => ?_, fun hb => ⟨fun o b h hn => ?_, fun o b h hn => ⟨?_, fun ty op => ?_⟩,
    fun o ty op b h hn hr => ?_, fun o ty b d h hn hr => ?_⟩, fun sc h hrd hwr hrel => ?_⟩
  all_goals obtain rfl := State.curTile_cox h.atWork
  all_goals have hbar := State.not_barred ⟨hh, hp⟩
  · have hroom : ¬(!(s.cox s.curTile).rfRoom) = true := by rw [hr]; decide
    have hn' := (s.sigFault_eq_false_iff o _).2 hn
    refine congrArg _ (State.runCox_done h rfl ((State.sigCheck_ok hbar hn' _).trans ((if_neg hroom).trans ?_)))
    rw [State.sigReq_eq]
    rfl
  · exact congrArg _ (State.runCox_faults h rfl (State.sigCheck_fault (State.sigFault_of_not hn) _))
  · have hn' := (s.sigFault_eq_false_iff o _).2 hn
    refine congrArg _ (State.runClosing_done h hb rfl ((State.sigCheck_ok hbar hn' _).trans ?_))
    rw [State.sigReq_eq]
    rfl
  · exact congrArg _ (State.runClosing_faults h hb rfl (State.sigCheck_fault (State.sigFault_of_not hn) _))
  · exact congrArg _ (State.runClosing_faults h hb rfl (State.sigCheck_fault (State.sigFault_of_not hn) _))
  · have hroom : ¬(!(s.cox s.curTile).rfRoom) = true := by rw [hr]; decide
    have hn' := (s.sigFault_eq_false_iff o _).2 hn
    refine congrArg _ (State.runClosing_done h hb rfl ((State.sigCheck_ok hbar hn' _).trans ((if_neg hroom).trans ?_)))
    rw [State.sigReq_eq]
    rfl
  · have hroom : ¬(!(s.cox s.curTile).rfRoom) = true := by rw [hr]; decide
    have hn' := (s.sigFault_eq_false_iff o _).2 hn
    refine congrArg _ (State.runClosing_done h hb rfl ((State.sigCheck_ok hbar hn' _).trans ((if_neg hroom).trans ?_)))
    rw [State.sigReq_eq]
    rfl
  · exact congrArg _ (State.runCox_done h rfl (if_pos ⟨hrd, hwr, hrel⟩))

end Sys2Proof.Machine
end

section
/-! ## Queue words and matrix resource words of the Cox (R273 to R275, R278, R373) -/

namespace Sys2Proof.Machine

open Sys2Proof

theorem State.runCox_stays {s : State} {t : TileId} {g : CGuard} {srcs : List COp} {k : List Word → State → CoxRes} (h : CoxRuns s t g srcs)
    (hk : k ((s.cox t).values srcs ((s.cox t).popped (popCount srcs))) (coxIssued s t srcs) = .wait) : s.runCox g srcs k = s := by
  rw [State.runCox_runs h, hk]

/-! ### Queue words -/

theorem reached_iff (count value : BitVec 32) : reached count value = true ↔ (count - value).toNat < 2 ^ 31 := by
  rw [reached, decide_eq_true_eq]

theorem reached_eq_false_iff (count value : BitVec 32) : reached count value = false ↔ 2 ^ 31 ≤ (count - value).toNat := by
  rw [← Bool.not_eq_true, reached_iff, not_lt]

/-- R275: the fields of what `QSTAT` reads of a queue. -/
theorem Tile.qstat_engine (x : Tile) (e : Eng) : let v := x.qstat (some e)
    v.toNat / 2 ^ 32 = (x.eng e).pushed.toNat ∧ v.toNat / 2 ^ 8 % 2 ^ 24 = 0 ∧
      v.toNat / 2 ^ 6 % 4 = (if e = .m then lstateCode x.m.lstate else 0) ∧ v.toNat % 2 ^ 6 = 32 - x.queued e := by
  have hl : (if e = .m then lstateCode x.m.lstate else 0) ≤ 2 := by
    split
    · cases x.m.lstate <;> decide
    · decide
  generalize hk : (if e = .m then lstateCode x.m.lstate else 0) = k at hl
  have hp := (x.eng e).pushed.isLt
  dsimp only
  rw [Tile.qstat, hk, BitVec.toNat_ofNat]
  omega

theorem Tile.qstat_batches (x : Tile) : let v := x.qstat none
    v.toNat / 2 ^ 32 = x.m.bclosed.toNat ∧ v.toNat % 2 ^ 32 = x.m.bret.toNat := by
  have hc := x.m.bclosed.isLt
  have hr := x.m.bret.isLt
  dsimp only
  rw [Tile.qstat, BitVec.toNat_ofNat]
  omega

/-! ### Crew words -/

theorem State.unlessHolding_held {s : State} (h : s.holding = true) (k : CoxRes) : s.unlessHolding k = .fault cPROT 0 0 := if_pos h

theorem State.unlessHolding_free {s : State} (h : s.holding = false) (k : CoxRes) : s.unlessHolding k = k :=
  if_neg (ne_true_of_eq_false h)

theorem numbered_out {n : Word} (h : 31 < n.toNat) (f : Fin 32 → Option Byte) (k : Fin 32 → CoxRes) :
    numbered n f k = .fault cPROT 0 n := if_pos h

theorem numbered_fault {v : Word} {n : Fin 32} {f : Fin 32 → Option Byte} {code : Byte} (hv : v.toNat = n.val) (h : f n = some code)
    (k : Fin 32 → CoxRes) : numbered v f k = .fault code 0 v := by
  have hn : Fin.ofNat 32 n.val = n := Fin.ext (Nat.mod_eq_of_lt n.isLt)
  rw [numbered, if_neg (by omega), hv, hn, h]

theorem numbered_ok {v : Word} {n : Fin 32} {f : Fin 32 → Option Byte} (hv : v.toNat = n.val) (h : f n = none)
    (k : Fin 32 → CoxRes) : numbered v f k = k n := by
  have hn : Fin.ofNat 32 n.val = n := Fin.ext (Nat.mod_eq_of_lt n.isLt)
  rw [numbered, if_neg (by omega), hv, hn, h]

section
variable {c : Crew} {k : Fin 4} {n : Fin 32}

theorem Crew.bankFault_free (h : (c.bank n).st = .free) : c.bankFault k n = some cACCUNALLOC := if_pos h

theorem Crew.bankFault_other (h : (c.bank n).st ≠ .free) (ho : (c.bank n).owners.getLsbD k.val = false) :
    c.bankFault k n = some cACCOWN := (if_neg h).trans (if_neg (ne_true_of_eq_false ho))

theorem Crew.bankFault_own (h : (c.bank n).st ≠ .free) (ho : (c.bank n).owners.getLsbD k.val = true) : c.bankFault k n = none :=
  (if_neg h).trans (if_pos ho)

theorem Crew.slotFault_other (h : (c.slot n).st = .free ∨ (c.slot n).st = .kept ∨ (c.slot n).claimer ≠ k) :
    c.slotFault k n = some cSLOTCLAIM := if_neg fun ⟨h1, h2, h3⟩ => by tauto

theorem Crew.slotFault_own (h1 : (c.slot n).st ≠ .free) (h2 : (c.slot n).st ≠ .kept) (h3 : (c.slot n).claimer = k) :
    c.slotFault k n = none := if_pos ⟨h1, h2, h3⟩
end

/-- In a hold-up a crew word that closes its region raises PROT. -/
theorem State.runClosing_held {s : State} {t : TileId} {g : CGuard} {srcs : List COp} (h : CoxRuns s t g srcs)
    (hb : (s.cox t).branch = none) (hh : s.holding = true) (k : List Word → State → CoxRes) :
    s.runClosing g srcs (fun v s1 => s.unlessHolding (k v s1)) =
      s.modCox t fun c => { c with fault := some (⟨cPROT, 0, 0, 0⟩, c.pc) } :=
  State.runClosing_faults h hb rfl (State.unlessHolding_held hh _)

/-- Settles O12: an entry is pushed, the counts compared, and the crew asked where its table allows it. -/
theorem queueAndCrewWords : Obligations.QueueAndCrewWords := by
  refine ⟨fun s t => ⟨fun o h hb hq => ?_, fun g e a h => ⟨fun hr => ?_, fun hr => ?_, fun hr => ?_, fun hr => ?_⟩,
    fun g d h => ⟨fun e => ⟨(s.tile t).qstat (some e), ?_, (s.tile t).qstat_engine e⟩, (s.tile t).qstat none, ?_, (s.tile t).qstat_batches⟩⟩,
    fun s t g => ⟨fun hh => ⟨fun h => ?_, fun hb => ⟨fun a h => ?_, fun a b h => ?_⟩⟩,
      fun hh => ⟨fun h => ?_, fun hb => ⟨fun a h => ?_, fun a b h => ?_⟩⟩⟩⟩
  all_goals obtain rfl := State.curTile_cox h.atWork
  · exact congrArg _ (State.runClosing_done h hb rfl (if_neg (not_le.2 hq)))
  · exact congrArg _ (State.runCox_done h rfl (if_pos ((reached_iff _ _).2 hr)))
  · exact congrArg _ (State.runCox_stays h (if_neg (ne_true_of_eq_false ((reached_eq_false_iff _ _).2 hr))))
  · exact congrArg _ (State.runCox_done h rfl (if_pos ((reached_iff _ _).2 hr)))
  · exact congrArg _ (State.runCox_stays h (if_neg (ne_true_of_eq_false ((reached_eq_false_iff _ _).2 hr))))
  · exact congrArg _ (State.runCox_done h rfl rfl)
  · exact congrArg _ (State.runCox_done h rfl rfl)
  · exact ⟨fun n tb => congrArg _ (State.runCox_faults h rfl (State.unlessHolding_held hh _)),
      congrArg _ (State.runCox_faults h rfl (State.unlessHolding_held hh _))⟩
  · exact ⟨fun d => ⟨congrArg _ (State.runClosing_held h hb hh _), congrArg _ (State.runClosing_held h hb hh _)⟩,
      congrArg _ (State.runClosing_held h hb hh _), congrArg _ (State.runClosing_held h hb hh _)⟩
  · exact congrArg _ (State.runClosing_held h hb hh _)
  · have hfree := State.unlessHolding_free hh
    refine ⟨fun n tb => congrArg _ (State.runCox_done h rfl (hfree _)), fun hq => congrArg _ (State.runCox_done h rfl ((hfree _).trans (if_pos ?_))),
      fun hq => ?_⟩
    · exact beq_iff_eq.2 hq
    · exact congrArg _ (State.runCox_stays h ((hfree _).trans (if_neg fun hd => hq (beq_iff_eq.1 hd))))
  · have hfree := State.unlessHolding_free hh
    refine ⟨fun hv => ⟨fun d => ⟨?_, ?_⟩, ?_, ?_⟩, fun n hn => ⟨fun d => ⟨?_, ?_⟩, fun hf => ?_, fun hf ho => ?_, fun hf ho => ?_, fun ho => ?_,
      fun h1 h2 h3 => ?_⟩⟩
    · exact congrArg _ (State.runClosing_faults h hb rfl ((hfree _).trans (numbered_out hv _ _)))
    · exact congrArg _ (State.runClosing_faults h hb rfl ((hfree _).trans (numbered_out hv _ _)))
    · exact congrArg _ (State.runClosing_faults h hb rfl ((hfree _).trans (numbered_out hv _ _)))
    · exact congrArg _ (State.runClosing_faults h hb rfl ((hfree _).trans (numbered_out hv _ _)))
    · exact congrArg _ (State.runClosing_done h hb rfl ((hfree _).trans (numbered_ok hn rfl _)))
    · exact congrArg _ (State.runClosing_done h hb rfl ((hfree _).trans (numbered_ok hn rfl _)))
    · exact congrArg _ (State.runClosing_faults h hb rfl ((hfree _).trans (numbered_fault hn (Crew.bankFault_free hf) _)))
    · exact congrArg _ (State.runClosing_faults h hb rfl ((hfree _).trans (numbered_fault hn (Crew.bankFault_other hf ho) _)))
    · exact congrArg _ (State.runClosing_done h hb rfl ((hfree _).trans (numbered_ok hn (Crew.bankFault_own hf ho) _)))
    · exact congrArg _ (State.runClosing_faults h hb rfl ((hfree _).trans (numbered_fault hn (Crew.slotFault_other ho) _)))
    · exact congrArg _ (State.runClosing_done h hb rfl ((hfree _).trans (numbered_ok hn (Crew.slotFault_own h1 h2 h3) _)))
  · have hfree := State.unlessHolding_free hh
    refine ⟨fun hv => ?_, fun hv hm => ?_, fun n hn hlo hhi => ⟨fun hf => ?_, fun hf ho => ?_, fun hf ho => ?_⟩⟩
    · exact congrArg _ (State.runClosing_faults h hb rfl ((hfree _).trans (if_pos hv)))
    · exact congrArg _ (State.runClosing_faults h hb rfl ((hfree _).trans ((if_neg (not_lt.2 hv)).trans (if_pos hm))))
    all_goals
      have hv : ¬31 < (coxValue s s.curTile [a.op, b.op] 0).toNat := by omega
      have hm : ¬((coxValue s s.curTile [a.op, b.op] 1).toNat = 0 ∨ 15 < (coxValue s s.curTile [a.op, b.op] 1).toNat) := by omega
    · exact congrArg _ (State.runClosing_faults h hb rfl ((hfree _).trans ((if_neg hv).trans ((if_neg hm).trans
        (numbered_fault hn (Crew.bankFault_free hf) _)))))
    · exact congrArg _ (State.runClosing_faults h hb rfl ((hfree _).trans ((if_neg hv).trans ((if_neg hm).trans
        (numbered_fault hn (Crew.bankFault_other hf ho) _)))))
    · exact congrArg _ (State.runClosing_done h hb rfl ((hfree _).trans ((if_neg hv).trans ((if_neg hm).trans
        (numbered_ok hn (Crew.bankFault_own hf ho) _)))))

end Sys2Proof.Machine
end

section
/-! ## Launches made by iterations, `JOIN` and `DONE` (R319 to R323) -/

namespace Sys2Proof.Machine

open Sys2Proof

/-! ### Launch words -/

/-- R305, R320: a record that may be read. -/
theorem State.recordCheck_ok {s : State} {t : TileId} {va : Nat} (h : RecordAllowed s t va) : s.recordCheck t va = .ok := by
  obtain ⟨-, p, e, k, hp, he, ht, hlo, hhi, hs⟩ := h
  have hf : s.addrFaults t (pteExt p.pte) e va 256 = .ok := State.addrFaults_ok hs
  simp [State.recordCheck, State.translate_read hp, State.addrCheck, he.extent, ht, State.extentWaits_rests he, hf, hlo, hhi]

theorem bitsOf_eq_zero {x lo len : Nat} (h : x < 2 ^ lo) : bitsOf x lo len = 0 := by
  rw [bitsOf, Nat.shiftRight_eq_div_pow, Nat.div_eq_of_lt h, Nat.zero_mod]

/-- A launch word whose route and record pass asks for its launch. -/
theorem State.runLaunch_asks {s : State} {t : TileId} {g : CGuard} {a b : Fin 64} (h : CoxRuns s t g [.x a, .x b])
    (hb : (s.cox t).branch = none) (hh : s.holding = false) (hp : s.inPair t = false)
    (hr : (coxValue s t [.x a, .x b] 1).toNat < 2 ^ 20)
    (hrec : (coxValue s t [.x a, .x b] 1).getLsbD 16 = true ∨ RecordAllowed s t (coxValue s t [.x a, .x b] 0).toNat ∧
      ∀ l, s.launchOf t = some l → l.depth < 7) (pd : Option (Fin 16)) (xd : Fin 64) (wait : Bool) (csig : BitVec 32) :
    s.runLaunch g pd xd a b wait csig = coxAsks (coxClosing s t [.x a, .x b]) t false true (s.cox t).pc
      (.launch pd xd wait (coxValue s t [.x a, .x b] 0).toNat (coxValue s t [.x a, .x b] 1) csig) := by
  obtain rfl := State.curTile_cox h.atWork
  refine State.runClosing_done h hb rfl ((if_neg (not_or.2 ⟨State.not_barred ⟨hh, hp⟩, not_not.2 (bitsOf_eq_zero hr)⟩)).trans ?_)
  by_cases hf : (coxValue s s.curTile [.x a, .x b] 1).getLsbD 16 = true
  · exact if_pos hf
  · obtain ⟨hr, hd⟩ := hrec.resolve_left hf
    have hm : ¬misaligned (coxValue s s.curTile [.x a, .x b] 0) 256 = true := fun hm => (misaligned_iff _).1 hm hr.1
    have hdepth : ¬((s.launchOf s.curTile).map Launch.depth).getD 0 = 7 := by
      cases hl : s.launchOf s.curTile with
      | none => decide
      | some l => exact ne_of_lt (hd l hl)
    exact (if_neg hf).trans ((if_neg hm).trans ((then_ok (State.recordCheck_ok hr) _).trans (if_neg hdepth)))

/-! ### `DONE` -/

theorem Tile.queue_eq_nil {x : Tile} {e : Eng} (h : x.queued e = 0) : (x.eng e).queue = [] :=
  List.eq_nil_of_length_eq_zero (Nat.eq_zero_of_add_eq_zero h).1

theorem State.crewQuiet_of_done {s : State} {t : TileId} (h : DoneAllowed s t) : s.crewQuiet t = true := by
  have hm : ((s.tile t).eng .m).queue = [] := Tile.queue_eq_nil (h.queues .m)
  simp only [State.crewQuiet, hm, h.batches.1, h.batches.2, Bool.and_eq_true, List.all_eq_true, Bool.or_eq_true, decide_eq_true_eq]
  refine ⟨⟨by decide, fun n _ => ?_⟩, fun n _ => ?_⟩
  · have := h.slots (Fin.ofNat 32 n)
    tauto
  · have := h.banks (Fin.ofNat 32 n)
    tauto

theorem State.ownsOpen_of_done {s : State} {t : TileId} (h : DoneAllowed s t) : s.ownsOpen t = false := by
  refine List.any_eq_false.2 fun g hg => ?_
  by_cases ho : g.2.owner = t
  · rcases h.groups g hg ho with hf | ⟨hf, hq⟩ <;> simp [*]
  · simp [ho]

/-- R323: the waits of `DONE` are over. -/
theorem State.doneReady_of_done {s : State} {t : TileId} (h : DoneAllowed s t) : s.doneReady t = true := by
  have hcrew : (s.tile t).crewAsked = false := by
    refine List.any_eq_false.2 fun r hr => ?_
    split
    · next a ha => exact absurd ha (h.crew r hr a)
    · decide
  have hrel : s.released t (s.tile t).cox.nextReq (s.doneScope t) = true := h.release
  simp [State.doneReady, Tile.drained, h.queues, hcrew, State.crewQuiet_of_done h, State.ownsOpen_of_done h, hrel]

/-- What the end of an iteration by `DONE` leaves of its tile. -/
theorem State.finish_tile (s : State) (t : TileId) : ∃ p i, (s.finish t).tile t = { s.tile t with
    cox := (s.cox t).ended, m := { (s.tile t).m with lstate := .none }, iter := none, replies := [], place := p, image := i } := by
  unfold State.finish
  extract_lets u1 u2 u3
  have h1 : u1.tile t = s.tile t := by
    simp only [u1, State.coverTile]
    split <;> rfl
  have h2 : u2.tile t = { s.tile t with m := { (s.tile t).m with lstate := .none } } := by
    rw [State.tile_of_tiles (State.dropGroups_tiles _ t) t, State.settleBanks_tile, State.dropCrew_tile, h1]
  have h3 : SameButPlace (u2.tile t) (u3.tile t) := u2.pointDone_tile t
  refine ⟨(u3.tile t).place, (u3.tile t).image, ?_⟩
  rw [State.tile_modTile_same, h3, h2]
  rfl

theorem State.finish_groups (s : State) (t : TileId) : ∀ e ∈ (s.finish t).fab.groups, e.2.owner = t → e.2.st = .free := by
  unfold State.finish
  extract_lets u1 u2 u3
  have hf : u3.fab = u2.fab := State.pointDone_fab u2 t
  rw [State.modTile_fab, hf]
  exact State.dropGroups_free _ t

/-- Settles O13: a launch word asks its pool, `JOIN` reads a completion word, and `DONE` ends the iteration. -/
theorem launchWords : Obligations.LaunchWords := by
  refine fun s t g => ⟨fun hb hh hp a b xd csig h => fun hr hrec => ⟨fun pd => ?_, ?_⟩, fun d a h => ⟨fun hl => ?_, fun hl => ?_⟩,
    fun h => ⟨fun hh => ?_, fun hh hd => ?_⟩⟩
  · exact congrArg _ (State.runLaunch_asks h hb hh hp hr hrec _ _ _ _)
  · exact congrArg _ (State.runLaunch_asks h hb hh hp hr hrec _ _ _ _)
  · exact congrArg _ (State.runCox_stays h (if_pos (Option.isSome_iff_ne_none.2 hl)))
  · obtain rfl := State.curTile_cox h.atWork
    have hn : ¬(s.launch? ((coxValue s s.curTile [a.op] 0).setWidth 32)).isSome = true := by rw [hl]; decide
    exact congrArg _ (State.runCox_done h rfl (if_neg hn))
  · obtain rfl := State.curTile_cox h.atWork
    exact congrArg _ (State.runCox_done h rfl (if_pos hh))
  · obtain rfl := State.curTile_cox h.atWork
    obtain ⟨p, i, ht⟩ := s.finish_tile s.curTile
    refine ⟨s.finish s.curTile, congrArg _ (State.runCox_done h rfl ((if_neg (ne_true_of_eq_false hh)).trans
      (if_pos (State.doneReady_of_done hd)))), ?_⟩
    rw [State.cox, ht]
    exact ⟨rfl, rfl, fun e => Tile.queue_eq_nil (hd.queues e), rfl, rfl, rfl, rfl, rfl, s.finish_groups s.curTile⟩

end Sys2Proof.Machine
end

section
/-! ## CSRs (R279 to R281, R91) -/

namespace Sys2Proof.Machine

open Sys2Proof

theorem Cox.rfCount_le (c : Cox) : c.rfCount ≤ c.rf.length := List.length_filter_le _ _

/-- R281: the fields of STATUS. -/
theorem Tile.status_fields {x : Tile} (h : x.cox.rf.length ≤ 16) : let v := x.status.toNat
    v / 2 ^ 13 = 0 ∧ v / 2 ^ 8 % 2 ^ 5 = x.cox.rfCount ∧ v / 2 ^ 6 % 4 = 0 ∧ v / 2 ^ 4 % 4 = lstateCode x.m.lstate ∧
      v / 2 ^ 2 % 4 = 0 ∧ v / 2 % 2 = (if x.cox.ie then 1 else 0) ∧ v % 2 = (if x.cox.tm then 1 else 0) := by
  have hc := x.cox.rfCount_le
  have hl : lstateCode x.m.lstate ≤ 2 := by cases x.m.lstate <;> decide
  dsimp only
  rw [Tile.status, BitVec.toNat_ofNat]
  cases x.cox.ie <;> cases x.cox.tm <;> simp only [if_true, Bool.false_eq_true, if_false] <;> omega

/-- R91: the fields of WSREF. -/
theorem wsref_fields (defer : BitVec 16) (now : Nat) : let v := (wsref defer now).toNat
    v / 2 ^ 32 = defer.toNat ∧ v % 2 ^ 13 = now % 8192 ∧ v / 2 ^ 13 % 16 = now / 512 % 16 ∧
      v / 2 ^ 17 % 2 = (if now % 512 < 64 then 1 else 0) := by
  have hd := defer.isLt
  have hm : now % 8192 % 512 = now % 512 := by omega
  have hq : now % 8192 / 512 = now / 512 % 16 := by omega
  have hp : now % 8192 < 8192 := Nat.mod_lt _ (by decide)
  dsimp only
  rw [wsref, BitVec.toNat_ofNat, hm, hq]
  generalize now % 8192 = p at hp
  have hr : now / 512 % 16 < 16 := Nat.mod_lt _ (by decide)
  generalize now / 512 % 16 = r at hr
  split <;> omega

theorem toNat_append_eq {m n : Nat} (a : BitVec m) (b : BitVec n) : (a ++ b).toNat = a.toNat * 2 ^ n + b.toNat := by
  rw [BitVec.toNat_append, ← Nat.shiftLeft_add_eq_or_of_lt b.isLt, Nat.shiftLeft_eq]

/-- The four Wheel positions of a word of 44 bits. -/
theorem wheel_fields (w : Vector (BitVec 11) 4) : let v := ((w[3] ++ w[2] ++ w[1] ++ w[0]).setWidth 64).toNat
    v / 2 ^ 44 = 0 ∧ ∀ j : Fin 4, v / 2 ^ (11 * j.val) % 2 ^ 11 = (w[j]).toNat := by
  have h0 := w[0].isLt
  have h1 := w[1].isLt
  have h2 := w[2].isLt
  have h3 := w[3].isLt
  have hv : ((w[3] ++ w[2] ++ w[1] ++ w[0]).setWidth 64).toNat =
      w[3].toNat * 2 ^ 33 + w[2].toNat * 2 ^ 22 + w[1].toNat * 2 ^ 11 + w[0].toNat := by
    rw [BitVec.toNat_setWidth, toNat_append_eq, toNat_append_eq, toNat_append_eq]
    omega
  dsimp only
  rw [hv]
  refine ⟨by omega, fun j => ?_⟩
  match j with
  | 0 => show _ / 2 ^ 0 % 2 ^ 11 = w[0].toNat; omega
  | 1 => show _ / 2 ^ 11 % 2 ^ 11 = w[1].toNat; omega
  | 2 => show _ / 2 ^ 22 % 2 ^ 11 = w[2].toNat; omega
  | 3 => show _ / 2 ^ 33 % 2 ^ 11 = w[3].toNat; omega

/-- R383: the fields of SAVEST. -/
theorem State.savest_fields (s : State) (c : Cox) : let v := (s.savest c).toNat
    v / 2 ^ 63 = (if s.sys.bhSetv then 1 else 0) ∧ v / 2 ^ 48 % 2 ^ 15 = s.sys.bhHoldno.toNat ∧
      v / 2 ^ 32 % 2 ^ 16 = c.savePois.toNat ∧ v % 2 ^ 32 = c.saveSt.toNat := by
  have h1 := s.sys.bhHoldno.isLt
  have h2 := c.savePois.isLt
  have h3 := c.saveSt.isLt
  dsimp only
  rw [State.savest, BitVec.toNat_ofNat]
  split <;> omega

theorem State.readCsr_bfmt (s : State) (t : TileId) (n : Fin 16) : (s.readCsr t (0x040 + n.val)).toNat = ((s.cox t).bfmt[n]).toNat := by
  fin_cases n <;> simp [State.readCsr, State.cox] <;> omega

/-- Settles O14: CSRs are read as the word issues and written as it lands; the fields of each. -/
theorem csrWords : Obligations.CsrWords := by
  refine ⟨fun s t g => ⟨fun h d n => ⟨fun hn => ?_, fun hn hb => ?_⟩, fun n a => ?_⟩, fun s t => ?_⟩
  · obtain rfl := State.curTile_cox h.atWork
    have hx : exec (.csrr g d n) s = _ := execCsrr.eq_def g d n s
    rw [hx, if_neg hn]
    exact congrArg _ (State.runCox_done h rfl rfl)
  · obtain rfl := State.curTile_cox h.atWork
    have hx : exec (.csrr g d n) s = _ := execCsrr.eq_def g d n s
    rw [hx, if_pos hn]
    exact congrArg _ (State.runClosing_done h hb rfl rfl)
  · intro src h v bad
    obtain rfl := State.curTile_cox h.atWork
    exact ⟨fun hb => congrArg _ (State.runCox_faults h rfl (if_pos hb)), fun hb => congrArg _ (State.runCox_done h rfl (if_neg hb))⟩
  · have ht := t.isLt
    refine ⟨Tile.status_fields, rfl, ?_, ?_, ?_, fun r => ?_, ?_, ?_, wsref_fields _ _, wheel_fields _, s.savest_fields _, s.readCsr_bfmt t⟩
    · exact Nat.mod_eq_of_lt (by omega)
    · show (BitVec.ofNat 64 ((t.val % 4) * 128 + t.val / 4 % 128)).toNat = _
      rw [Nat.mod_eq_of_lt (show t.val / 4 < 128 by omega), BitVec.toNat_ofNat]
      exact Nat.mod_eq_of_lt (by omega)
    · show (BitVec.ofNat 64 (s.sys.pkg.toNat * 256 + t.val / 128 % 4)).toNat = _
      have := s.sys.pkg.isLt
      rw [BitVec.toNat_ofNat]
      omega
    · have h0 : (s.readCsr t 0x017) = (s.cox t).xv ||| 1 := rfl
      rw [h0, Cox.xValid, State.tile_cox]
      by_cases hr : r = 0
      · subst hr
        simp
      · have h1 := xvalid_written (xv := 0) 0x017 (s.cox t).xv r
        rw [beq_false_of_ne hr, Bool.false_or, Bool.false_or, if_pos rfl, if_pos ⟨rfl, hr⟩] at h1
        rw [h1, beq_false_of_ne hr, Bool.false_or]
    · simp only [List.zip_cons_cons, List.zip_nil_right, List.all_cons, List.all_nil, Bool.and_true, Bool.and_eq_true, decide_eq_true_eq]
      exact ⟨BitVec.toNat_setWidth_of_le (by decide), BitVec.toNat_setWidth_of_le (by decide), BitVec.toNat_setWidth_of_le (by decide),
        BitVec.toNat_setWidth_of_le (by decide)⟩
    · show ((s.cox t).mcdelay.setWidth 64).toNat = _
      exact BitVec.toNat_setWidth_of_le (by decide)

end Sys2Proof.Machine
end

section
/-! ## Declared regions, the stop of a hold-up, and groups of peers (R232 to R235, R374 to R384) -/

namespace Sys2Proof.Machine

open Sys2Proof

/-! ### Records in scratchpad -/

theorem descOk_of_allowed {l : List Byte} (h : DescAllowed l) : descOk l = true := by
  obtain ⟨hs, hc, hp, hr, hk⟩ := h
  have hcp : ((descOf l).2.cls == 0 || (descOf l).2.prio == 0) = true := by
    rcases Nat.le_one_iff_eq_zero_or_eq_one.1 hc with h0 | h1
    · simp [h0]
    · simp [hp h1]
  simp only [descOk, hs, hc, hcp, hr, decide_true, BEq.rfl, Bool.true_and]
  generalize (descOf l).2.a.toNat = a at hk
  generalize (descOf l).2.b.toNat = b at hk
  rcases hk with ⟨k, ha, hb⟩ | ⟨k, ha, hb, hw, hl⟩ | ⟨k, h1, h7, hb⟩ | ⟨k, ha, hb⟩ | ⟨k, ha, hb⟩ | ⟨k, ha, h1, hb, hl⟩
  all_goals
    simp only [k, Bool.and_eq_true, decide_eq_true_eq, beq_iff_eq]
    omega

theorem GroupRec.ok_iff (r : GroupRec) (hc : r.count ≠ 0) : r.ok = true ↔ GroupRecAllowed r := by
  have hf : ((List.range 4).all fun i => fmtWf r.fmts[Fin.ofNat 4 i] && decide (fmtKind r.fmts[Fin.ofNat 4 i] ≤ 7)) = true ↔
      ∀ i : Fin 4, fmtWf r.fmts[i] = true ∧ fmtKind r.fmts[i] ≤ 7 := by
    simp only [List.all_eq_true, List.mem_range, Bool.and_eq_true, decide_eq_true_eq]
    exact ⟨fun h i => by simpa using h i.val i.isLt, fun h i _ => h (Fin.ofNat 4 i)⟩
  have h1 : 1 ≤ r.count := Nat.one_le_iff_ne_zero.2 hc
  simp only [GroupRec.ok, GroupRecAllowed, Bool.and_eq_true, hf, decide_eq_true_eq, beq_iff_eq, Nat.dvd_iff_mod_eq_zero, h1, true_and]
  tauto

/-- R376, R378: a descriptor that may be read. -/
theorem State.descAt_ok {s : State} {a : Word} {l : List Byte} (h : DescAt s s.curTile a l) (live : Bool)
    (he : live = true → (descOf l).2.kind = 4 → ∃ e, s.extent? (descOf l).2.a.toNat = some e) : s.descAt a live = .ok l := by
  obtain ⟨hd, hw, -, hl, hok⟩ := h
  have hk : ¬(live && (descOf l).2.kind == 4 && (s.extent? (descOf l).2.a.toNat).isNone) = true := by
    intro h
    simp only [Bool.and_eq_true, beq_iff_eq, Option.isNone_iff_eq_none] at h
    obtain ⟨⟨h1, h2⟩, h3⟩ := h
    obtain ⟨e, h4⟩ := he h1 h2
    rw [h3] at h4
    cases h4
  rw [State.descAt, if_neg (not_not.2 (Nat.mod_eq_zero_of_dvd hd)), if_neg (not_lt.2 hw)]
  simp only [hl]
  rw [if_neg (by rw [descOk_of_allowed hok]; decide), if_neg hk]

/-! ### `MSDECL` -/

/-- What the landing of a declaration leaves in its Cox. -/
theorem State.declare_cox {s : State} {t : TileId} {j : Launch} (hj : s.launchOf t = some j) (region : Nat) (n : Fin 16)
    (new : Option MustSave) (d : Fin 16) :
    let fits : Bool := decide (s.usedG j.id + guaranteed new ≤ j.record.quota + guaranteed (s.cox t).mustSave[n])
    (s.declare t region n new d).cox t =
      ({ s.cox t with mustSave := if fits then (s.cox t).mustSave.set n new else (s.cox t).mustSave }).landP region d fits := by
  intro fits
  rw [State.declare, State.cox_modCox_same, hj]

/-! ### `PFRESTORE` -/

/-- What `PFRESTORE` leaves of `u` in state `s` by the record that it has found, for `size` bytes at `dst`, `slot` and `pd`. -/
def State.restoreOf (s u : State) (slot : Fin 16) (size dst : Nat) (d : Fin 16) (found : Option Found) : State :=
  let cls := found.map s.sys.classify
  let whole := cls.map Prod.fst = some 1
  let pois := whole && (found.map fun r => bitOf (recNat r.head 13 1) 0) == some true
  let body := match found with
    | some r => s.sys.boathouse.read (r.off + 64) size
    | none => []
  let due := s.gtime + max 1 (if whole then boathouseCycles size else 1)
  let u := if cls.map Prod.snd = some true then u.recordMc 0 47 (contained cMCSRAM 0 none none) else u
  u.modCox u.curTile fun c =>
    let c := if whole then c.send due (.store dst body) else c
    { (c.send due (.savest slot ((cls.map Prod.fst).getD 3) pois)).send due (.p d whole) with nextIssue := due + 1 }

theorem State.pfrestore_restores {s : State} {g : CGuard} {d : Fin 16} {a b : Fin 64} {l : List Byte}
    (h : CoxRuns s s.curTile g [.x a, .x b]) (hh : s.holding = false) (hd : DescAt s s.curTile (coxValue s s.curTile [.x a, .x b] 0) l)
    (hk : (descOf l).2.kind ≠ 0) (hdst : 64 ∣ (coxValue s s.curTile [.x a, .x b] 1).toNat)
    (hw : (coxValue s s.curTile [.x a, .x b] 1).toNat + 64 * ceilDiv (descOf l).2.len 64 ≤ 2 ^ 20) :
    exec (.pfrestore g d a b) s = .next (s.restoreOf (coxIssued s s.curTile [.x a, .x b]) (Fin.ofNat 16 (descOf l).1)
      (64 * ceilDiv (descOf l).2.len 64) (coxValue s s.curTile [.x a, .x b] 1).toNat d
      (s.sys.records.find? fun r => recNat r.head 6 1 == (descOf l).2.kind && recNat r.head 8 4 == (descOf l).2.tag.toNat &&
        recNat r.head 32 8 == (descOf l).2.len)) := by
  refine congrArg _ (State.runCox_done h rfl ((if_neg (ne_true_of_eq_false hh)).trans ?_))
  rw [show s.descAt (nth _ 0) false = .ok l from State.descAt_ok hd false nofun]
  refine (if_neg hk).trans ((if_neg (not_not.2 (Nat.mod_eq_zero_of_dvd hdst))).trans ((if_neg (not_lt.2 hw)).trans ?_))
  exact State.readsOwn_good (u := coxIssued s s.curTile [.x a, .x b]) (GranulesGood.of_dev (s := s) hd.2.2.1 rfl) _

/-! ### `GRPFREE` -/

theorem State.holdsGroup_iff (s : State) (t : TileId) (v : Nat) : s.holdsGroup t v = true ↔
    (s.group (v % 4096)).st ≠ .free ∧ (s.group (v % 4096)).gen = v / 4096 ∧ (s.group (v % 4096)).owner = t := by
  simp [State.holdsGroup, and_assoc]

/-- Settles O15: declarations, the stop and the restoring of regions, and the opening and freeing of groups. -/
theorem holdupAndGroupWords : Obligations.HoldupAndGroupWords := by
  refine ⟨fun s t g => ⟨fun d a l h hd he => ?_, fun k rest n new d j hp hdue hw => ?_, fun h => ⟨fun hh => ?_, fun hh hc => ?_⟩,
    fun d a b l h hh hd hk => fun hdst hw => ⟨fun hf => ?_, fun r hf hc => ?_⟩⟩,
    fun s t g a h hb hh => ⟨fun hp => ?_, fun hp => ⟨fun hm => ?_, fun hm hw => ?_, fun hm hw hg => ⟨fun hc => ?_, fun hc hr => ?_, fun hr => ?_⟩⟩,
      fun hheld hr => ?_, fun hheld => ?_⟩⟩
  · obtain rfl := State.curTile_cox h.atWork
    refine congrArg _ (State.runCox_done h rfl ?_)
    dsimp only
    rw [show s.descAt (nth _ 0) true = .ok l from State.descAt_ok hd true fun _ => he]
    exact State.readsOwn_good (u := coxIssued s s.curTile [.x a]) (GranulesGood.of_dev (s := s) hd.2.2.1 rfl) _
  · intro b hj fits
    have hb : b = s.modCox t fun c => { c with flight := rest } := State.modTile_modTile ..
    have hx := execCoxWriteLand_register hp hdue (by rw [hw]; rfl)
    simp only [State.landCox, hw, ← hb] at hx
    have hc : b.cox t = { s.cox t with flight := rest } := by rw [hb, State.cox_modCox_same]
    have hland := State.declare_cox hj k.region n new d
    have hfits : decide (b.usedG j.id + guaranteed new ≤ j.record.quota + guaranteed (b.cox t).mustSave[n]) = decide fits := by rw [hc]
    simp only [hfits, Cox.landP_eq] at hland
    refine ⟨_, hx, fun hf => ?_, fun hf => ?_, fun hd => ?_⟩
    · rw [hland, hc, if_pos (decide_eq_true hf)]
    · rw [hland, hc, if_neg (by rw [decide_eq_false hf]; decide)]
    · obtain ⟨h1, h2⟩ := Cox.writeP_same (c := { b.cox t with mustSave := if decide fits then (b.cox t).mustSave.set n new else (b.cox t).mustSave }) hd (decide fits)
      rw [hland]
      exact ⟨h2, (Bool.eq_iff_iff.1 h1).trans decide_eq_true_iff⟩
  · obtain rfl := State.curTile_cox h.atWork
    exact congrArg _ (State.runCox_faults h rfl (if_pos hh))
  · obtain rfl := State.curTile_cox h.atWork
    exact congrArg _ (State.runCox_done h rfl ((if_neg (by rw [hh]; decide)).trans (if_pos hc)))
  · obtain rfl := State.curTile_cox h.atWork
    rw [State.pfrestore_restores h hh hd hk hdst hw, hf]
    rfl
  · obtain rfl := State.curTile_cox h.atWork
    rw [State.pfrestore_restores h hh hd hk hdst hw, hf]
    simp only [State.restoreOf, Option.map_some, hc]
    cases bitOf (recNat r.head 13 1) 0 <;> rfl
  · obtain rfl := State.curTile_cox h.atWork
    exact congrArg _ (State.runClosing_faults h hb rfl (if_pos (State.barred_of (.inr hp))))
  · obtain rfl := State.curTile_cox h.atWork
    exact congrArg _ (State.runClosing_faults h hb rfl ((if_neg (State.not_barred ⟨hh, hp⟩)).trans (if_pos ((misaligned_iff _).2 hm))))
  · obtain rfl := State.curTile_cox h.atWork
    exact congrArg _ (State.runClosing_faults h hb rfl ((if_neg (State.not_barred ⟨hh, hp⟩)).trans
      ((if_neg fun k => (misaligned_iff _).1 k hm).trans (if_pos hw))))
  · obtain rfl := State.curTile_cox h.atWork
    refine congrArg _ (State.runClosing_faults h hb rfl ((if_neg (State.not_barred ⟨hh, hp⟩)).trans
      ((if_neg fun k => (misaligned_iff _).1 k hm).trans ((if_neg (not_lt.2 hw)).trans ?_))))
    exact (State.readsOwn_good (u := coxClosing s s.curTile [.x a]) (GranulesGood.of_dev (s := s) hg rfl) _).trans (if_pos hc)
  · obtain rfl := State.curTile_cox h.atWork
    refine congrArg _ (State.runClosing_faults h hb rfl ((if_neg (State.not_barred ⟨hh, hp⟩)).trans
      ((if_neg fun k => (misaligned_iff _).1 k hm).trans ((if_neg (not_lt.2 hw)).trans ?_))))
    exact (State.readsOwn_good (u := coxClosing s s.curTile [.x a]) (GranulesGood.of_dev (s := s) hg rfl) _).trans ((if_neg hc).trans (if_pos (Bool.eq_false_iff.2 fun k => hr ((GroupRec.ok_iff _ hc).1 k))))
  · obtain rfl := State.curTile_cox h.atWork
    have hc : (groupRecOf (((s.tile s.curTile).spNow s.gtime).read (coxValue s s.curTile [.x a] 0).toNat 64)).count ≠ 0 := by
      obtain ⟨-, -, -, -, -, -, -, -, -, -, hc, -⟩ := hr
      exact Nat.one_le_iff_ne_zero.1 hc
    have hok := (GroupRec.ok_iff _ hc).2 hr
    refine congrArg _ (State.runClosing_done h hb rfl ((if_neg (State.not_barred ⟨hh, hp⟩)).trans
      ((if_neg fun k => (misaligned_iff _).1 k hm).trans ((if_neg (not_lt.2 hw)).trans ?_))))
    exact (State.readsOwn_good (u := coxClosing s s.curTile [.x a]) (GranulesGood.of_dev (s := s) hg rfl) _).trans ((if_neg hc).trans
      ((if_neg (ne_false_of_eq_true hok)).trans (congrArg CoxRes.done (State.request_eq
        (u := coxClosing s s.curTile [.x a]) (State.curTile_cox h.atWork) ..))))
  · obtain rfl := State.curTile_cox h.atWork
    obtain ⟨hl, hst, hgen, ho⟩ := hheld
    have hroom : ¬(!(s.cox s.curTile).rfRoom) = true := by rw [hr]; decide
    have hown : ¬s.holdsGroup s.curTile (coxValue s s.curTile [.x a] 0).toNat = false :=
      fun k => ne_true_of_eq_false k ((s.holdsGroup_iff ..).2 ⟨hst, hgen, ho⟩)
    refine congrArg _ (State.runClosing_done h hb rfl
      ((if_neg (not_or.2 ⟨ne_true_of_eq_false hh, not_or.2 ⟨not_le.2 hl, hown⟩⟩)).trans ((if_neg hroom).trans ?_)))
    exact congrArg CoxRes.done (State.longLatency_eq (u := coxClosing s s.curTile [.x a]) (State.curTile_cox h.atWork) ..)
  · obtain rfl := State.curTile_cox h.atWork
    refine congrArg _ (State.runClosing_faults h hb rfl (if_pos (.inr ?_)))
    refine or_iff_not_imp_left.2 fun hl => Bool.eq_false_iff.2 fun k => hheld ⟨not_le.1 hl, ?_⟩
    exact (s.holdsGroup_iff ..).1 k

end Sys2Proof.Machine
end

section
/-! ## V words that compute lanes (R184 to R190, R195, R196, R200, R201) -/

namespace Sys2Proof.Machine

open Sys2Proof

/-! ### The lanes of a word that runs -/

section
variable {s : State} {t : TileId} {h : VHead} {srcs : List VIn}

theorem lanesAt_eq_vLane (s : State) (t : TileId) (srcs : List VIn) (i : Nat) (l : Fin 32) :
    (lanesAt ((s.tile t).vValues srcs []) i)[l] = vLane s t srcs i l := rfl

/-- A V word whose effect is on its lanes writes its destination. -/
theorem State.runV_lanes (r : VRuns s t h srcs) {d : VOut} {lat : Nat} {code : Byte} {k : Lane → List Lanes → VOwn}
    {v : Lanes} {f : Fin 32 → Lane} (hk : k (vMask s t h) ((s.tile t).vValues srcs []) = .lanes v) (hv : ∀ l, v[l] = f l) :
    s.runV h srcs (some d) lat code k = vWrites s t h srcs d lat code f := by
  have hf : v = Vector.ofFn f := Vector.ext fun i hi => by
    rw [Vector.getElem_ofFn]
    exact hv ⟨i, hi⟩
  rw [State.runV_runs r, show k ((s.tile t).v.guard h.g) _ = .lanes v from hk, hf]
  rfl

theorem State.runV_faults (r : VRuns s t h srcs) {dst : Option VOut} {lat : Nat} {code c : Byte} {a : Word}
    {k : Lane → List Lanes → VOwn} (hk : k (vMask s t h) ((s.tile t).vValues srcs []) = .fault c a) :
    s.runV h srcs dst lat code k = s.engFault t .v c 0 a := by
  refine (State.runV_runs r ..).trans ?_
  generalize ho : k ((s.tile t).v.guard h.g) ((s.tile t).vValues srcs []) = o
  cases ho.symm.trans hk
  rfl

theorem State.runV_writes (r : VRuns s t h srcs) {dst : Option VOut} {lat : Nat} {code : Byte} {w : VWrite} {f : State → State}
    {k : Lane → List Lanes → VOwn} (hk : k (vMask s t h) ((s.tile t).vValues srcs []) = .write w f) :
    s.runV h srcs dst lat code k = (f s).vDone t h.tok srcs lat code w := by
  refine (State.runV_runs r ..).trans ?_
  generalize ho : k ((s.tile t).v.guard h.g) ((s.tile t).vValues srcs []) = o
  cases ho.symm.trans hk
  rfl

/-- A word that goes lane by lane, by the numbers that its sources hold in the lane. -/
theorem State.vLanewise_eq (r : VRuns s t h srcs) {d : VOut} {lat : Nat} {code : Byte} {f : List Nat → Nat} {k : Fin 32 → Nat}
    (hf : ∀ l (c : List Nat), (∀ i, c.getD i 0 = (vLane s t srcs i l).toNat) → f c = k l) :
    s.vLanewise h srcs d lat code f = vWrites s t h srcs d lat code fun l => BitVec.ofNat 32 (k l) := by
  refine State.runV_lanes r rfl fun l => ?_
  rw [Fin.getElem_fin, Vector.getElem_ofFn, Fin.eta, hf]
  intro i
  rw [show (0 : Nat) = (((allLanes 0)[l] : Lane)).toNat from by simp [allLanes]]
  exact List.getD_map ((s.tile t).vValues srcs []) (allLanes 0) fun v : Lanes => v[l].toNat

theorem Tile.vValues_length (x : Tile) (srcs : List VIn) (seen : List (Fin 8)) : (x.vValues srcs seen).length = srcs.length := by
  induction srcs generalizing seen with
  | nil => rfl
  | cons i l ih => cases i <;> exact congrArg (· + 1) (ih _)

/-- An FP word of which every lane is rounded once. -/
theorem State.vFp_eq {l : List VSrc} (r : VRuns s t h (l.map VSrc.vin)) {d : VDst} {lat : Nat} {ty : FpTy} {rm : Rm} {f : List Val → Val}
    {k : Fin 32 → Val}
    (hf : ∀ n (v : List Val), (∀ i < l.length, valAt v i = fpIn ty (vLane s t (l.map VSrc.vin) i n).toNat) → f v = k n) :
    s.vFp h l d lat ty rm f = vWrites s t h (l.map VSrc.vin) d.vout lat cMCVRES fun n => BitVec.ofNat 32 (convert (k n) ty.nf rm) := by
  unfold State.vFp State.vLanewise
  refine State.runV_lanes r rfl fun n => ?_
  rw [Fin.getElem_fin, Vector.getElem_ofFn, Fin.eta]
  dsimp only
  rw [hf n]
  intro i hi
  have hl : i < ((s.tile t).vValues (l.map VSrc.vin) []).length := by rwa [Tile.vValues_length, List.length_map]
  rw [valAt, List.map_map, List.getD_eq_getElem _ _ (by rwa [List.length_map]), List.getElem_map, vLane, List.getD_eq_getElem _ _ hl]
  rfl

/-- A word of two sources over 32-bit lanes. -/
theorem State.vInt_eq {a b : VSrc} (r : VRuns s t h [a.vin, b.vin]) {d : VDst} {f : Lane → Lane → Lane} {k : Fin 32 → Lane}
    (hf : ∀ l, f (vLane s t [a.vin, b.vin] 0 l) (vLane s t [a.vin, b.vin] 1 l) = k l) :
    s.vInt h a b d f = vWrites s t h [a.vin, b.vin] d.vout 1 cMCPARITY k := by
  refine State.runV_lanes r rfl fun l => ?_
  rw [Fin.getElem_fin, Vector.getElem_ofFn]
  exact hf l
end

/-! ### FP words -/

theorem fpMinMax_min (a b : Val) :
    fpMinMax false a b = if a = .nan ∨ b = .nan then .nan else if a.cmp true b = .gt then b else a := by
  by_cases h : a.cmp true b = .gt <;> cases a <;> cases b <;> simp [fpMinMax, h]

theorem fpMinMax_max (a b : Val) :
    fpMinMax true a b = if a = .nan ∨ b = .nan then .nan else if a.cmp true b = .gt then a else b := by
  by_cases h : a.cmp true b = .gt <;> cases a <;> cases b <;> simp [fpMinMax, h]

/-- R186: the sign bit alone changes. -/
theorem signOnly_eq (ty : FpTy) (c sign : Nat) :
    signOnly ty c sign = if fpIn ty c = .nan then nanOf ty.nf else c % 2 ^ (ty.nf.w - 1) + sign * 2 ^ (ty.nf.w - 1) := by
  cases hn : nfValue (c % 2 ^ ty.nf.w) ty.nf <;> simp [signOnly, fpIn, hn]

theorem mod_sign (c top : Nat) : c % (2 * top) % top = c % top := Nat.mod_mul_left_mod c 2 top

/-- The other sign bit over the same bits below. -/
theorem mod_flip_sign (c i : Nat) : c % 2 ^ i + (if c.testBit i then 0 else 1) * 2 ^ i =
    if c % (2 * 2 ^ i) < 2 ^ i then c % (2 * 2 ^ i) + 2 ^ i else c % (2 * 2 ^ i) - 2 ^ i := by
  have hlt : c % 2 ^ i < 2 ^ i := Nat.mod_lt _ (Nat.two_pow_pos i)
  rw [Nat.mul_comm 2, Nat.mod_mul, Nat.testBit_eq_decide_div_mod_eq]
  rcases Nat.mod_two_eq_zero_or_one (c / 2 ^ i) with h | h
  · simp [h, hlt]
  · simp [h]

/-- Settles O24: every FP word rounds once what its operands give; `VABS` and `VNEG` go by the sign bit. -/
theorem vectorFpWords : Obligations.VectorFpWords := by
  refine fun s t => ⟨fun o r => ?_, fun o r => ?_, fun o r => ?_⟩
  · have h2 {lat : Nat} {f : List Val → Val} {k : Fin 32 → Val} (hf : ∀ n (v : List Val),
        (∀ i < 2, valAt v i = fpIn o.ty (vLane s t [o.a.vin, o.b.vin] i n).toNat) → f v = k n) := State.vFp_eq (l := [o.a, o.b]) (d := o.d)
      (lat := lat) (rm := o.rm) r hf
    refine ⟨congrArg _ (h2 fun n v hv => ?_), congrArg _ (h2 fun n v hv => ?_), congrArg _ (h2 fun n v hv => ?_),
      congrArg _ (h2 fun n v hv => ?_), congrArg _ (h2 fun n v hv => ?_), congrArg _ (State.vLanewise_eq r fun n c hc => ?_)⟩
    · rw [hv 0 (by decide), hv 1 (by decide)]
    · rw [hv 0 (by decide), hv 1 (by decide)]
    · rw [hv 0 (by decide), hv 1 (by decide)]
    · rw [hv 0 (by decide), hv 1 (by decide), fpMinMax_min]
    · rw [hv 0 (by decide), hv 1 (by decide), fpMinMax_max]
    · rw [hc 0, hc 1]
  · have h3 {f : List Val → Val} {k : Fin 32 → Val} (hf : ∀ n (v : List Val),
        (∀ i < 3, valAt v i = fpIn o.ty (vLane s t [o.a.vin, o.b.vin, o.c.vin] i n).toNat) → f v = k n) :=
      State.vFp_eq (l := [o.a, o.b, o.c]) (d := o.d) (lat := 4) (rm := o.rm) r hf
    refine ⟨congrArg _ (h3 fun n v hv => ?_), congrArg _ (h3 fun n v hv => ?_), congrArg _ (h3 fun n v hv => ?_)⟩
    all_goals rw [hv 0 (by decide), hv 1 (by decide), hv 2 (by decide)]
  · have h1 {lat : Nat} {f : Val → Nf → Rm → Nat} : s.vFp1 o lat f = vWrites s t o.h [o.a.vin] o.d.vout lat cMCVRES fun l =>
        BitVec.ofNat 32 (f (fpIn o.ty (vLane s t [o.a.vin] 0 l).toNat) o.ty.nf o.rm) :=
      State.vLanewise_eq r fun n c hc => by rw [hc 0]
    refine ⟨congrArg _ (State.vLanewise_eq r fun n c hc => ?_), congrArg _ (State.vLanewise_eq r fun n c hc => ?_),
      congrArg _ h1, congrArg _ h1, congrArg _ h1, congrArg _ h1, congrArg _ h1⟩
    · rw [hc 0, signOnly_eq, mod_sign, Nat.zero_mul, Nat.add_zero]
    · rw [hc 0, signOnly_eq, mod_flip_sign]

/-! ### Integer, compare, select and mask words -/

theorem intMinMax_min_signed (a b : Lane) : intMinMax false .i32 a b = if a.toInt ≤ b.toInt then a else b := by
  grind [intMinMax, intLt, BitVec.slt_iff_toInt_lt, BitVec.toInt_inj]

theorem intMinMax_max_signed (a b : Lane) : intMinMax true .i32 a b = if a.toInt ≤ b.toInt then b else a := by
  grind [intMinMax, intLt, BitVec.slt_iff_toInt_lt, BitVec.toInt_inj]

theorem intMinMax_min_unsigned (a b : Lane) : intMinMax false .n32 a b = if a.toNat ≤ b.toNat then a else b := by
  grind [intMinMax, intLt, BitVec.ult_iff_toNat_lt, BitVec.toNat_inj]

theorem intMinMax_max_unsigned (a b : Lane) : intMinMax true .n32 a b = if a.toNat ≤ b.toNat then b else a := by
  grind [intMinMax, intLt, BitVec.ult_iff_toNat_lt, BitVec.toNat_inj]

/-- The source that names a mask register holds its bits. -/
theorem Tile.vValues_mask (x : Tile) (c : Fin 64) : ∀ (srcs : List VIn) (seen : List (Fin 8)) (i : Nat), srcs[i]? = some (.k c) →
    (x.vValues srcs seen)[i]? = some (maskLanes (x.v.readK c))
  | [], _, _, h => by cases h
  | o :: l, seen, 0, h => by
    cases h
    rfl
  | o :: l, seen, i + 1, h => by
    cases o <;> exact x.vValues_mask c l _ i h

theorem getElem_maskLanes (m : Lane) (l : Fin 32) : (maskLanes m)[l] = if m.getLsbD l.val then 1 else 0 := by
  rw [maskLanes, Fin.getElem_fin, Vector.getElem_ofFn]

/-- A lane of a mask source is its bit. -/
theorem vLane_mask {s : State} {t : TileId} {srcs : List VIn} {i : Nat} {c : Fin 64} (h : srcs[i]? = some (.k c)) (l : Fin 32) :
    vLane s t srcs i l = if ((s.tile t).v.readK c).getLsbD l.val then 1 else 0 := by
  rw [vLane, List.getD_eq_getElem?_getD, Tile.vValues_mask _ c srcs [] i h, Option.getD_some, getElem_maskLanes]

theorem getLsbD_foldl_or (p : Nat → Prop) [DecidablePred p] (n i : Nat) (hn : n ≤ 32) (hi : i < 32) :
    ((List.range n).foldl (fun m l => if p l then m ||| BitVec.ofNat 32 (2 ^ l) else m) (0 : Lane)).getLsbD i = decide (i < n ∧ p i) := by
  induction n with
  | zero => simp
  | succ n ih =>
    have hbit : (BitVec.ofNat 32 (2 ^ n)).getLsbD i = decide (n = i) := by
      rw [BitVec.getLsbD_ofNat, decide_eq_true hi, Bool.true_and, Nat.testBit_two_pow]
    rw [List.range_succ, List.foldl_append, List.foldl_cons, List.foldl_nil]
    by_cases hp : p n
    · rw [if_pos hp, BitVec.getLsbD_or, ih (by omega), hbit]
      by_cases h : n = i
      · subst h
        simp [hp]
      · simp [h, show i < n + 1 ↔ i < n by omega]
    · rw [if_neg hp, ih (by omega)]
      by_cases h : n = i
      · subst h
        simp [hp]
      · simp [show i < n + 1 ↔ i < n by omega]

theorem getLsbD_lanesMask (v : Lanes) (l : Fin 32) : (lanesMask v).getLsbD l.val = decide (v[l] ≠ 0) := by
  rw [lanesMask, getLsbD_foldl_or (fun n => v[(Fin.ofNat 32 n)] ≠ 0) 32 l.val (le_refl _) l.isLt]
  simp only [l.isLt, true_and, Fin.ofNat_val_eq_self]

theorem lanesMask_maskLanes (m : Lane) : lanesMask (maskLanes m) = m := by
  refine BitVec.eq_of_getLsbD_eq fun i hi => ?_
  have h := getLsbD_lanesMask (maskLanes m) ⟨i, hi⟩
  rw [getElem_maskLanes] at h
  cases hm : m.getLsbD i <;> simpa [hm] using h

theorem getLsbD_logLane (op : LogOp) (a b : Lane) (l : Fin 32) : (logLane op a b).getLsbD l.val = true ↔
    logTruth op (a.getLsbD l.val = true) (b.getLsbD l.val = true) := by
  have hl := decide_eq_true l.isLt
  cases op <;> cases ha : a.getLsbD l.val <;> cases hb : b.getLsbD l.val <;>
    simp only [logLane, logTruth, BitVec.getLsbD_and, BitVec.getLsbD_or, BitVec.getLsbD_xor, BitVec.getLsbD_not, ha, hb, hl] <;> decide

/-- R188: the order of two integer lanes. -/
theorem vcmpHolds_int {cc : Cond} (hcc : cc ∈ [Cond.eq, .ne, .lt, .le, .gt, .ge]) (ty : IntTy) (a b : Lane) (f : Lane → Int)
    (hf : ∀ u v, f u = f v → u = v) (hlt : ∀ u v, intLt ty u v = true ↔ f u < f v) :
    vcmpHolds cc (.int ty) a b = true ↔ match (generalizing := false) cc with
      | .eq => a = b
      | .ne => a ≠ b
      | .lt => f a < f b
      | .le => f a ≤ f b
      | .gt => f b < f a
      | _ => f b ≤ f a := by
  have hab := hlt a b
  have hinj := hf a b
  by_cases he : a = b
  · subst he
    fin_cases hcc <;> simp [vcmpHolds, ordHolds]
  · have hne : f a ≠ f b := fun k => he (hinj k)
    by_cases hl : f a < f b
    · fin_cases hcc <;> simp [vcmpHolds, ordHolds, he, hab.2 hl] <;> omega
    · have hi : intLt ty a b = false := Bool.eq_false_iff.2 fun k => hl (hab.1 k)
      fin_cases hcc <;> simp [vcmpHolds, ordHolds, he, hi] <;> omega

/-- R188: the order of two FP lanes; a NaN makes `.ne` alone true. -/
theorem vcmpHolds_fp {cc : Cond} (hcc : cc ∈ [Cond.eq, .ne, .lt, .le, .gt, .ge]) (ty : FpTy) (a b : Lane) :
    vcmpHolds cc (.fp ty) a b = true ↔ if fpIn ty a.toNat = .nan ∨ fpIn ty b.toNat = .nan then cc = .ne else match (generalizing := false) cc with
      | .eq => (fpIn ty a.toNat).cmp false (fpIn ty b.toNat) = .eq
      | .ne => (fpIn ty a.toNat).cmp false (fpIn ty b.toNat) ≠ .eq
      | .lt => (fpIn ty a.toNat).cmp false (fpIn ty b.toNat) = .lt
      | .le => (fpIn ty a.toNat).cmp false (fpIn ty b.toNat) ≠ .gt
      | .gt => (fpIn ty a.toNat).cmp false (fpIn ty b.toNat) = .gt
      | _ => (fpIn ty a.toNat).cmp false (fpIn ty b.toNat) ≠ .lt := by
  rw [vcmpHolds]
  generalize fpIn ty a.toNat = u
  generalize fpIn ty b.toNat = v
  by_cases hn : u = .nan ∨ v = .nan
  · rw [if_pos hn]
    rcases hn with rfl | rfl
    · exact beq_iff_eq
    · cases u <;> exact beq_iff_eq
  · rw [if_neg hn]
    have h : (match (generalizing := false) u, v with | .nan, _ | _, .nan => cc == .ne | x, y => ordHolds cc (x.cmp false y)) = ordHolds cc (u.cmp false v) := by
      clear hcc
      revert hn
      cases u <;> cases v <;> simp
    refine (Bool.eq_iff_iff.1 h).trans ?_
    fin_cases hcc <;> cases u.cmp false v <;> decide

/-- Settles O25. -/
theorem vectorIntegerWords : Obligations.VectorIntegerWords := by
  refine ⟨fun s t h d x y r => ?_, fun s t h => ⟨fun d cc ty x y r hcc => ?_, fun d x y c r => ?_, fun d x y op r => ?_⟩⟩
  · have h2 {f : Lane → Lane → Lane} {k : Fin 32 → Lane} (hf : ∀ l, f (vLane s t [x.vin, y.vin] 0 l) (vLane s t [x.vin, y.vin] 1 l) = k l) :
        (.next (s.vInt h x y d f) : Out) = .next (vWrites s t h [x.vin, y.vin] d.vout 1 cMCPARITY k) :=
      congrArg _ (State.vInt_eq r hf)
    exact ⟨fun ty => ⟨h2 fun l => word_add_eq _ _, h2 fun l => word_sub_eq _ _, h2 fun l => word_mul_eq _ _⟩,
      h2 fun l => rfl, h2 fun l => rfl, h2 fun l => rfl, h2 fun l => word_shl_eq _ _, h2 fun l => word_shr_eq _ _,
      h2 fun l => word_sra_eq _ _, h2 fun l => intMinMax_min_signed _ _, h2 fun l => intMinMax_min_unsigned _ _,
      h2 fun l => intMinMax_max_signed _ _, h2 fun l => intMinMax_max_unsigned _ _⟩
  · refine ⟨fun l => vcmpHolds cc ty (vLane s t [x.vin, y.vin] 0 l) (vLane s t [x.vin, y.vin] 1 l),
      congrArg _ (State.runV_lanes r rfl fun l => ?_), fun l => ?_⟩
    · rw [Fin.getElem_fin, Vector.getElem_ofFn]
      rfl
    · cases ty with
      | int ty =>
        cases ty with
        | i32 =>
          refine (vcmpHolds_int hcc .i32 _ _ BitVec.toInt (fun u v => BitVec.eq_of_toInt_eq) fun u v => BitVec.slt_iff_toInt_lt).trans ?_
          fin_cases hcc <;> rfl
        | n32 =>
          refine (vcmpHolds_int hcc .n32 _ _ (fun u => (u.toNat : Int)) (fun u v k => BitVec.eq_of_toNat_eq (by simpa using k))
            fun u v => BitVec.ult_iff_toNat_lt.trans Int.ofNat_lt.symm).trans ?_
          fin_cases hcc <;> simp
      | fp ty =>
        refine (vcmpHolds_fp hcc ty _ _).trans ?_
        fin_cases hcc <;> rfl
  · refine congrArg _ (State.runV_lanes r rfl fun l => ?_)
    rw [Fin.getElem_fin, Vector.getElem_ofFn, Fin.eta, lanesAt_eq_vLane, lanesAt_eq_vLane, lanesAt_eq_vLane, vLane_mask rfl]
    cases ((s.tile t).v.readK c).getLsbD l.val <;> rfl
  · refine ⟨fun l => (logLane op ((s.tile t).v.readK x) ((s.tile t).v.readK y)).getLsbD l.val,
      congrArg _ (State.runV_lanes r rfl fun l => ?_), fun l => getLsbD_logLane ..⟩
    rw [show lanesAt ((s.tile t).vValues [.k x, .k y] []) 0 = maskLanes ((s.tile t).v.readK x) from rfl,
      show lanesAt ((s.tile t).vValues [.k x, .k y] []) 1 = maskLanes ((s.tile t).v.readK y) from rfl, lanesMask_maskLanes,
      lanesMask_maskLanes, getElem_maskLanes]

end Sys2Proof.Machine
end

section
/-! ## V words that move lanes, and trellis-coded weights (R195, R196, R200, R201) -/

namespace Sys2Proof.Machine

open Sys2Proof

theorem getElem_allLanes (v : Lane) (l : Fin 32) : (allLanes v)[l] = v := Vector.getElem_replicate _

theorem Tile.readVCsr_eq (x : Tile) (n : Fin 16) : x.readVCsr n = match n.val with
    | 0 => x.v.vrb.toNat
    | 1 => x.v.krb.toNat
    | 2 => x.v.lc.toNat
    | 3 => x.v.ec.toNat
    | k => x.portcfg (Fin.ofNat 12 (k - 4)) := rfl

/-- R200: the number that bytes of a vector spell. -/
theorem ofBytes_lanesByte (v : Lanes) (l : List Nat) :
    l.foldr (fun n acc => lanesByte v n + 256 * acc) 0 =
      ofBytes (l.map fun n => BitVec.ofNat 8 ((laneAt v (n / 4)).toNat / 256 ^ (n % 4))) := by
  induction l with
  | nil => rfl
  | cons n l ih =>
    rw [List.foldr_cons, List.map_cons, ofBytes, ← ih, BitVec.toNat_ofNat]
    rfl

theorem bitsOf_eq_div (m lo len : Nat) : bitsOf m lo len = m / 2 ^ lo % 2 ^ len :=
  congrArg (· % 2 ^ len) (Nat.shiftRight_eq_div_pow m lo)

/-- R200: the window of one lane. -/
theorem twinLane_eq (kind : TcKind) (a : Lanes) (b c : Nat) :
    twinLane kind a b c =
      let p := if kind = .tc1 then 8 else 12
      let q := b / 64 % 16
      if 128 < p * (q + 1) then 0x00800000
      else tcWindow kind (ofBytes ((List.range p).map fun k =>
        BitVec.ofNat 8 ((laneAt a ((p * q + k) / 4)).toNat / 256 ^ ((p * q + k) % 4)))) (b % 64) + c % 256 * 2 ^ 16 := by
  have hq : bitsOf b 6 4 = b / 64 % 16 := bitsOf_eq_div b 6 4
  have hs (p : Nat) : (List.range p).foldr (fun k acc => lanesByte a (p * (b / 64 % 16) + k) + 256 * acc) 0 =
      ofBytes ((List.range p).map fun k => BitVec.ofNat 8 ((laneAt a ((p * (b / 64 % 16) + k) / 4)).toNat /
        256 ^ ((p * (b / 64 % 16) + k) % 4))) := by
    have h := ofBytes_lanesByte a ((List.range p).map fun k => p * (b / 64 % 16) + k)
    rw [List.foldr_map, List.map_map] at h
    exact h
  cases kind
  all_goals
    simp only [twinLane, hq, hs]
    rfl

/-- Settles O27. -/
theorem vectorMoves : Obligations.VectorMoves := by
  refine fun s t h d => ⟨fun a b r => ⟨?_, fun n => ?_⟩, fun a n r => ?_, fun r base step => ?_, fun a r => ⟨?_, fun k => ?_, ?_⟩,
    fun k r => ⟨?_, fun e => ?_⟩, fun n a r => ?_, fun r e n => ?_, fun e a b c kind r => ?_⟩
  · exact congrArg _ (State.runV_lanes r rfl fun l => by rw [Fin.getElem_fin, Vector.getElem_ofFn]; rfl)
  · exact congrArg _ (State.runV_lanes r rfl fun l => by rw [Fin.getElem_fin, Vector.getElem_ofFn]; rfl)
  · exact congrArg _ (State.runV_lanes r rfl fun l => by rw [getElem_allLanes]; rfl)
  · refine congrArg _ (State.runV_lanes r rfl fun l => ?_)
    rw [Fin.getElem_fin, Vector.getElem_ofFn, BitVec.ofNat_add, BitVec.ofNat_toNat, BitVec.setWidth_eq]
  · exact congrArg _ (State.runV_lanes r rfl fun l => rfl)
  · exact congrArg _ (State.runV_lanes r rfl fun l => rfl)
  · exact congrArg _ (State.vLanewise_eq r fun l c hc => by rw [hc 0])
  · exact congrArg _ (State.runV_lanes r rfl fun l => vLane_mask rfl l)
  · exact congrArg _ (State.runV_lanes r rfl fun l => vLane_mask rfl l)
  · exact congrArg _ (State.runV_writes (f := id) r rfl)
  · refine congrArg _ (State.runV_lanes r rfl fun l => ?_)
    rw [Fin.getElem_fin, Vector.getElem_ofFn, State.curTile_eng r.atWork, Tile.readVCsr_eq]
    simp only [Fin.ext_iff]
    rfl
  · refine congrArg _ (State.runV_lanes r rfl fun l => ?_)
    rw [Fin.getElem_fin, Vector.getElem_ofFn, twinLane_eq]
    exact apply_ite (BitVec.ofNat 32) _ _ _

end Sys2Proof.Machine
end

section
/-! ## Conversions, reductions and scans of V (R191 to R194) -/

namespace Sys2Proof.Machine

open Sys2Proof

/-! ### Folds of the trees (R117, R194) -/

section
variable {α : Type} (op : Option α → Option α → Option α)

/-- The fold of a list of lanes, absent lanes being `none`. -/
def foldLanes (l : List (Option α)) : Option α := l.foldl op none

/-- An operation on lanes of which `none` is the identity. -/
structure LaneOp : Prop where
  assoc : ∀ a b c, op (op a b) c = op a (op b c)
  id_left : ∀ a, op none a = a
  id_right : ∀ a, op a none = a

variable {op} (h : LaneOp op)
include h

theorem LaneOp.foldl_eq (l : List (Option α)) (a : Option α) : l.foldl op a = op a (foldLanes op l) := by
  induction l generalizing a with
  | nil => exact (h.id_right a).symm
  | cons b l ih =>
    have hb : foldLanes op (b :: l) = op b (foldLanes op l) := (ih (op none b)).trans (by rw [h.id_left])
    rw [List.foldl_cons, ih, hb, h.assoc]

theorem LaneOp.fold_cons (a : Option α) (l : List (Option α)) : foldLanes op (a :: l) = op a (foldLanes op l) := by
  rw [foldLanes, List.foldl_cons, h.foldl_eq, h.id_left]

theorem LaneOp.fold_append (l m : List (Option α)) : foldLanes op (l ++ m) = op (foldLanes op l) (foldLanes op m) := by
  rw [foldLanes, List.foldl_append, h.foldl_eq]
  rfl

theorem LaneOp.fold_singleton (a : Option α) : foldLanes op [a] = a := h.id_left a

/-- A level of the tree keeps the fold, where the order does not matter. -/
theorem LaneOp.fold_zipWith (hc : ∀ a b, op a b = op b a) (l m : List (Option α)) (hl : l.length = m.length) :
    foldLanes op (List.zipWith op l m) = op (foldLanes op l) (foldLanes op m) := by
  induction l generalizing m with
  | nil =>
    rw [List.length_nil] at hl
    rw [List.eq_nil_of_length_eq_zero hl.symm]
    exact (h.id_left none).symm
  | cons a l ih =>
    cases m with
    | nil => cases hl
    | cons b m =>
      rw [List.zipWith_cons_cons, h.fold_cons, h.fold_cons, h.fold_cons, ih m (Nat.succ.inj hl), h.assoc, h.assoc,
        ← h.assoc b, hc b, h.assoc]

theorem LaneOp.fold_treeLevel (hc : ∀ a b, op a b = op b a) (l : List (Option α)) (n : Nat) (hl : l.length = 2 * n) :
    foldLanes op (treeLevel op l n) = foldLanes op l ∧ (treeLevel op l n).length = n := by
  have h1 : (l.take n).length = (l.drop n).length := by
    rw [List.length_take, List.length_drop]
    omega
  refine ⟨?_, ?_⟩
  · rw [treeLevel, h.fold_zipWith hc _ _ h1, ← h.fold_append, List.take_append_drop]
  · rw [treeLevel, List.length_zipWith, List.length_take, List.length_drop]
    omega

/-- R117: the tree over 32 lanes gives their fold. -/
theorem LaneOp.treeReduce_eq (hc : ∀ a b, op a b = op b a) (l : List (Option α)) (hl : l.length = 32) :
    treeReduce op l = [foldLanes op l] := by
  obtain ⟨h1, l1⟩ := h.fold_treeLevel hc l 16 hl
  obtain ⟨h2, l2⟩ := h.fold_treeLevel hc _ 8 l1
  obtain ⟨h3, l3⟩ := h.fold_treeLevel hc _ 4 l2
  obtain ⟨h4, l4⟩ := h.fold_treeLevel hc _ 2 l3
  obtain ⟨h5, l5⟩ := h.fold_treeLevel hc _ 1 l4
  obtain ⟨a, ha⟩ := List.length_eq_one_iff.1 l5
  have hf := h5.trans (h4.trans (h3.trans (h2.trans h1)))
  rw [ha, h.fold_singleton] at hf
  rw [← hf, ← ha]
  rfl

/-- The lanes below `n`, as many of the last as `w`. -/
def window (l : List (Option α)) (n w : Nat) : List (Option α) := (l.take n).drop (n - w)

/-- A scan level doubles the window that each lane holds. -/
theorem LaneOp.scanLevel_window (l xs : List (Option α)) (w : Nat) (hl : xs.length = l.length)
    (hx : ∀ (n : Nat) (hn : n < xs.length), xs[n] = foldLanes op (window l (n + 1) w)) :
    (scanLevel op xs w).length = l.length ∧
      ∀ (n : Nat) (hn : n < (scanLevel op xs w).length), (scanLevel op xs w)[n] = foldLanes op (window l (n + 1) (2 * w)) := by
  have hlen : (scanLevel op xs w).length = l.length := by
    rw [scanLevel, List.length_append, List.length_zipWith, List.length_take, List.length_drop]
    omega
  refine ⟨hlen, fun n hn => ?_⟩
  simp only [scanLevel]
  rw [List.getElem_append]
  split
  · next hw =>
    rw [List.length_take] at hw
    rw [List.getElem_take, hx, window, window, show n + 1 - w = 0 by omega, show n + 1 - 2 * w = 0 by omega]
  · next hw =>
    rw [List.length_take] at hw
    have hwn : w ≤ n := by omega
    rw [List.getElem_zipWith, List.getElem_drop, hx, hx, ← h.fold_append]
    refine congrArg (foldLanes op) ?_
    have ht : (xs.take w).length = w := by rw [List.length_take]; omega
    simp only [ht, show w + (n - w) + 1 = n + 1 by omega, window]
    rw [show n - w + 1 = n + 1 - w by omega, show n + 1 - w - w = n + 1 - 2 * w by omega]
    generalize hL : l.take (n + 1) = L
    rw [show l.take (n + 1 - w) = L.take (n + 1 - w) by rw [← hL, List.take_take, Nat.min_eq_left (by omega)]]
    have hd : L.drop (n + 1 - w) = (L.drop (n + 1 - 2 * w)).drop (n + 1 - w - (n + 1 - 2 * w)) := by
      rw [List.drop_drop, Nat.add_sub_cancel' (by omega)]
    rw [List.drop_take, hd, List.take_append_drop]

/-- R194: the scan over 32 lanes gives each lane the fold of the lanes to it. -/
theorem LaneOp.scanLanes_eq (l : List (Option α)) (hl : l.length = 32) :
    (scanLanes op l).length = 32 ∧
      ∀ (n : Nat) (hn : n < (scanLanes op l).length), (scanLanes op l)[n] = foldLanes op (l.take (n + 1)) := by
  have h0 (n : Nat) (hn : n < l.length) : l[n] = foldLanes op (window l (n + 1) 1) := by
    rw [window, Nat.add_sub_cancel, List.take_succ_eq_append_getElem hn, List.drop_left' (by rw [List.length_take]; omega),
      h.fold_singleton]
  obtain ⟨l1, h1⟩ := h.scanLevel_window l l 1 rfl h0
  obtain ⟨l2, h2⟩ := h.scanLevel_window l _ 2 l1 h1
  obtain ⟨l3, h3⟩ := h.scanLevel_window l _ 4 l2 h2
  obtain ⟨l4, h4⟩ := h.scanLevel_window l _ 8 l3 h3
  obtain ⟨l5, h5⟩ := h.scanLevel_window l _ 16 l4 h4
  refine ⟨l5.trans hl, fun n hn => ?_⟩
  have hn32 : n < l.length := by rwa [← l5]
  refine (h5 n hn).trans ?_
  rw [window, show n + 1 - 2 * 16 = 0 by omega, List.drop_zero]
end

/-! ### Reductions over the enabled lanes -/

/-- The fold of the lanes that are present, the identity being what an empty one gives. -/
theorem foldl_withAbsent (f : Lane → Lane → Lane) (e : Lane) (he : ∀ a, f e a = a) (l : List (Option Lane)) (o : Option Lane) :
    (l.foldl (withAbsent f) o).getD e = (l.reduceOption).foldl f (o.getD e) := by
  induction l generalizing o with
  | nil => rfl
  | cons a l ih =>
    rw [List.foldl_cons, ih]
    cases a with
    | none => cases o <;> rfl
    | some a =>
      cases o with
      | none => simp [withAbsent, he]
      | some b => rfl

theorem LaneOp.withAbsent {f : Lane → Lane → Lane} (ha : ∀ a b c, f (f a b) c = f a (f b c)) : LaneOp (withAbsent f) where
  assoc a b c := by cases a <;> cases b <;> cases c <;> simp [Machine.withAbsent, ha]
  id_left _ := rfl
  id_right a := by cases a <;> rfl

/-- The part of a lane that a reduction reads. -/
def redLaneOf : RedOp → Lane → Lane
  | .arith _ ty _, x => trimLane ty x
  | .logic _, x => x

theorem redLanes_eq (op : RedOp) (m : Lane) (v : Lanes) : redLanes op m v =
    (List.range 32).map fun l => if m.getLsbD l then some (redLaneOf op (laneAt v l)) else none := by
  cases op <;> rfl

/-- The lanes below `n` that a mask enables. -/
theorem reduceOption_redLanes {op : RedOp} (hop : ∀ x, redLaneOf op x = x) (m : Lane) (v : Lanes) (n : Nat) (hn : n ≤ 32) :
    ((redLanes op m v).take n).reduceOption = ((List.range n).filter fun l => m.getLsbD l).map (laneAt v) := by
  rw [redLanes_eq, ← List.map_take, List.take_range, Nat.min_eq_left hn]
  simp only [hop]
  induction List.range n with
  | nil => rfl
  | cons l ls ih =>
    rw [List.map_cons, List.filter_cons]
    cases m.getLsbD l
    · exact ih
    · exact congrArg _ ih

theorem redLanes_length (op : RedOp) (m : Lane) (v : Lanes) : (redLanes op m v).length = 32 := by
  rw [redLanes, List.length_map, List.length_range]

/-- An operation on whole lanes whose order does not matter, with its identity. -/
structure PlainRed (op : RedOp) (f : Lane → Lane → Lane) (e : Lane) : Prop where
  step : ∀ a b, redStep op a b = f a b
  identity : redIdentity op = e
  lane : ∀ x, redLaneOf op x = x
  assoc : ∀ a b c, f (f a b) c = f a (f b c)
  comm : ∀ a b, f a b = f b a
  id_left : ∀ a, f e a = a

section
variable {op : RedOp} {f : Lane → Lane → Lane} {e : Lane} (h : PlainRed op f e) (m : Lane) (v : Lanes)
include h

theorem PlainRed.fold_eq (n : Nat) (hn : n ≤ 32) :
    (foldLanes (withAbsent (redStep op)) ((redLanes op m v).take n)).getD (redIdentity op) =
      (((List.range n).filter fun l => m.getLsbD l).map (laneAt v)).foldl f e := by
  have hs : redStep op = f := funext fun a => funext fun b => h.step a b
  rw [hs, h.identity, foldLanes, foldl_withAbsent f e h.id_left, reduceOption_redLanes h.lane m v n hn]
  rfl

theorem PlainRed.treeReduce_eq : ((treeReduce (withAbsent (redStep op)) (redLanes op m v)).getD 0 none).getD (redIdentity op) =
    (((List.range 32).filter fun l => m.getLsbD l).map (laneAt v)).foldl f e := by
  have hs : redStep op = f := funext fun a => funext fun b => h.step a b
  have hc (a b : Option Lane) : withAbsent f a b = withAbsent f b a := by
    cases a <;> cases b <;> simp [withAbsent, h.comm]
  rw [← h.fold_eq m v 32 (le_refl _), List.take_of_length_le (by rw [redLanes_length]), hs,
    (LaneOp.withAbsent h.assoc).treeReduce_eq hc _ (redLanes_length op m v)]
  rfl

theorem PlainRed.scanLanes_eq (l : Fin 32) :
    ((scanLanes (withAbsent (redStep op)) (redLanes op m v)).getD l.val none).getD (redIdentity op) =
      (((List.range (l.val + 1)).filter fun l => m.getLsbD l).map (laneAt v)).foldl f e := by
  have hs : redStep op = f := funext fun a => funext fun b => h.step a b
  obtain ⟨hl, hx⟩ := (LaneOp.withAbsent h.assoc).scanLanes_eq (redLanes op m v) (redLanes_length op m v)
  rw [← h.fold_eq m v (l.val + 1) l.isLt, hs, List.getD_eq_getElem _ _ (by rw [hl]; exact l.isLt), hx]
end

/-- Both words of a plain reduction. -/
theorem PlainRed.words {op : RedOp} {f : Lane → Lane → Lane} {e : Lane} (hop : PlainRed op f e) {s : State} {t : TileId} {h : VHead}
    {a : VP} (r : VRuns s t h [a.vin]) (d : Fin 64) (hl : redLat op = 5) (hc : redCode op = cMCPARITY) :
    let fold (n : Nat) : Lane := (((List.range n).filter fun l => (vMask s t h).getLsbD l).map fun l =>
      vLane s t [a.vin] 0 (Fin.ofNat 32 l)).foldl f e
    exec (.vred ⟨h, d, a, op⟩) s = .next (vWrites s t h [a.vin] (.v d) 5 cMCPARITY fun _ => fold 32) ∧
    exec (.vscan ⟨h, d, a, op⟩) s = .next (vWrites s t h [a.vin] (.v d) 5 cMCPARITY fun l => fold (l.val + 1)) := by
  rw [← hl, ← hc]
  refine ⟨congrArg _ (State.runV_lanes r rfl fun l => ?_), congrArg _ (State.runV_lanes r rfl fun l => ?_)⟩
  · rw [getElem_allLanes]
    exact hop.treeReduce_eq (vMask s t h) _
  · rw [Fin.getElem_fin, Vector.getElem_ofFn]
    exact hop.scanLanes_eq (vMask s t h) _ l

/-! ### The plain operations -/

theorem plainRed_and : PlainRed (.logic .and) (· &&& ·) 0xFFFFFFFF :=
  ⟨fun _ _ => rfl, rfl, fun _ => rfl, BitVec.and_assoc, BitVec.and_comm, fun _ => BitVec.allOnes_and⟩

theorem plainRed_or : PlainRed (.logic .or) (· ||| ·) 0 :=
  ⟨fun _ _ => rfl, rfl, fun _ => rfl, BitVec.or_assoc, BitVec.or_comm, fun _ => BitVec.zero_or⟩

theorem plainRed_xor : PlainRed (.logic .xor) (· ^^^ ·) 0 :=
  ⟨fun _ _ => rfl, rfl, fun _ => rfl, BitVec.xor_assoc, BitVec.xor_comm, fun _ => BitVec.zero_xor⟩

theorem plainRed_add (ty : IntTy) (rm : Rm) : PlainRed (.arith .add (.int ty) rm) (· + ·) 0 :=
  ⟨fun _ _ => rfl, rfl, fun _ => rfl, BitVec.add_assoc, BitVec.add_comm, BitVec.zero_add⟩

section
variable (f : Lane → Int) (hf : ∀ u v, f u = f v → u = v)
include hf

theorem pick_assoc_comm (p : Lane → Lane → Lane) (hp : (∀ u v, p u v = if f u ≤ f v then v else u) ∨ ∀ u v, p u v = if f u ≤ f v then u else v) :
    (∀ a b c, p (p a b) c = p a (p b c)) ∧ ∀ a b, p a b = p b a := by
  rcases hp with hp | hp
  · refine ⟨fun a b c => ?_, fun a b => ?_⟩
    · grind
    · have := hf a b
      grind
  · refine ⟨fun a b c => ?_, fun a b => ?_⟩
    · grind
    · have := hf a b
      grind
end

theorem plainRed_max_signed (rm : Rm) : PlainRed (.arith .max (.int .i32) rm) (fun u v => if u.toInt ≤ v.toInt then v else u) 0x80000000 := by
  obtain ⟨ha, hc⟩ := pick_assoc_comm BitVec.toInt (fun _ _ => BitVec.eq_of_toInt_eq) _ (.inl fun _ _ => rfl)
  refine ⟨intMinMax_max_signed, rfl, fun _ => rfl, ha, hc, fun a => if_pos ?_⟩
  have := BitVec.le_toInt a
  simpa using this

theorem plainRed_min_signed (rm : Rm) : PlainRed (.arith .min (.int .i32) rm) (fun u v => if u.toInt ≤ v.toInt then u else v) 0x7FFFFFFF := by
  obtain ⟨ha, hc⟩ := pick_assoc_comm BitVec.toInt (fun _ _ => BitVec.eq_of_toInt_eq) _ (.inr fun _ _ => rfl)
  refine ⟨intMinMax_min_signed, rfl, fun _ => rfl, ha, hc, fun a => ?_⟩
  have := BitVec.toInt_lt (x := a)
  have he : (0x7FFFFFFF : Lane).toInt = 2147483647 := rfl
  by_cases h : (0x7FFFFFFF : Lane).toInt ≤ a.toInt
  · rw [if_pos h]
    refine BitVec.eq_of_toInt_eq ?_
    rw [he] at h ⊢
    omega
  · exact if_neg h

theorem plainRed_max_unsigned (rm : Rm) : PlainRed (.arith .max (.int .n32) rm) (fun u v => if u.toNat ≤ v.toNat then v else u) 0 := by
  obtain ⟨ha, hc⟩ := pick_assoc_comm (fun u => (u.toNat : Int)) (fun _ _ k => BitVec.eq_of_toNat_eq (by simpa using k))
    (fun u v => if u.toNat ≤ v.toNat then v else u) (.inl fun _ _ => by simp)
  exact ⟨intMinMax_max_unsigned, rfl, fun _ => rfl, ha, hc, fun a => if_pos (Nat.zero_le _)⟩

theorem plainRed_min_unsigned (rm : Rm) : PlainRed (.arith .min (.int .n32) rm) (fun u v => if u.toNat ≤ v.toNat then u else v) 0xFFFFFFFF := by
  obtain ⟨ha, hc⟩ := pick_assoc_comm (fun u => (u.toNat : Int)) (fun _ _ k => BitVec.eq_of_toNat_eq (by simpa using k))
    (fun u v => if u.toNat ≤ v.toNat then u else v) (.inr fun _ _ => by simp)
  refine ⟨intMinMax_min_unsigned, rfl, fun _ => rfl, ha, hc, fun a => ?_⟩
  have := a.isLt
  have he : (0xFFFFFFFF : Lane).toNat = 4294967295 := rfl
  by_cases h : (0xFFFFFFFF : Lane).toNat ≤ a.toNat
  · rw [if_pos h]
    refine BitVec.eq_of_toNat_eq ?_
    rw [he] at h ⊢
    omega
  · exact if_neg h

/-! ### Conversions -/

theorem ofFn_vLane (s : State) (t : TileId) (srcs : List VIn) (i : Nat) :
    (Vector.ofFn fun l => vLane s t srcs i l) = lanesAt ((s.tile t).vValues srcs []) i :=
  Vector.ext fun n hn => by
    rw [Vector.getElem_ofFn]
    rfl

/-- Settles O26. -/
theorem vectorConversions : Obligations.VectorConversions := by
  refine ⟨fun s t h rm fmt => ⟨fun d a src dst r => ⟨fun hb => ?_, fun hok => ?_⟩, fun d a r => ⟨fun hb => ?_, fun hok => ?_⟩,
    fun d a r => ⟨fun hb => ?_, fun hok => ?_⟩⟩, fun s t h d a op r => ⟨?_, ?_, ?_, ?_, ?_, ?_, ?_, ?_, fun o f rm hop => ?_⟩⟩
  · refine congrArg _ (State.runV_faults r (if_pos ⟨hb.1, ?_⟩))
    rw [← Bool.not_eq_true, ← not_and_or]
    exact hb.2
  · refine congrArg _ (State.runV_lanes r (if_neg ?_) fun l => by rw [Fin.getElem_fin, Vector.getElem_ofFn]; rfl)
    rintro ⟨hn, hk⟩
    obtain ⟨h1, h2⟩ := hok.resolve_left (not_not.2 hn)
    exact hk.elim (fun k => ne_true_of_eq_false k h1) fun k => k h2
  · refine congrArg _ (State.runV_faults r (if_pos ?_))
    rw [← Bool.not_eq_true, ← not_and_or, ← not_and_or]
    exact hb
  · refine congrArg _ (State.runV_lanes r (if_neg ?_) fun l => by rw [Fin.getElem_fin, Vector.getElem_ofFn]; rfl)
    rw [← Bool.not_eq_true, ← not_and_or, ← not_and_or]
    exact not_not.2 hok
  · refine congrArg _ (State.runV_faults r (if_pos ?_))
    rw [← Bool.not_eq_true, ← not_or, ← not_and_or]
    exact hb
  · refine congrArg _ (State.runV_lanes r (if_neg ?_) fun l => by rw [Fin.getElem_fin, Vector.getElem_ofFn]; rfl)
    rw [← Bool.not_eq_true, ← not_or, ← not_and_or]
    exact not_not.2 hok
  · rintro rfl
    exact plainRed_and.words r d rfl rfl
  · rintro rfl
    exact plainRed_or.words r d rfl rfl
  · rintro rfl
    exact plainRed_xor.words r d rfl rfl
  · rintro ty rm rfl
    exact (plainRed_add ty rm).words r d rfl rfl
  · rintro rm rfl
    exact (plainRed_max_signed rm).words r d rfl rfl
  · rintro rm rfl
    exact (plainRed_min_signed rm).words r d rfl rfl
  · rintro rm rfl
    exact (plainRed_max_unsigned rm).words r d rfl rfl
  · rintro rm rfl
    exact (plainRed_min_unsigned rm).words r d rfl rfl
  · subst hop
    simp only [ofFn_vLane]
    refine ⟨congrArg _ (State.runV_lanes r rfl fun l => getElem_allLanes _ l), congrArg _ (State.runV_lanes r rfl fun l => ?_)⟩
    rw [Fin.getElem_fin, Vector.getElem_ofFn]

end Sys2Proof.Machine
end

section
/-! ## The issue of V words (R183, R206, R181, R182) -/

namespace Sys2Proof.Machine

open Sys2Proof

/-! ### What keeps a word from its effect -/

theorem State.vFp_runV (s : State) (h : VHead) (l : List VSrc) (d : VDst) (lat : Nat) (ty : FpTy) (rm : Rm) (f : List Val → Val) :
    ∃ dst lat' code k, (.next (s.vFp h l d lat ty rm f) : Out) = .next (s.runV h (l.map VSrc.vin) dst lat' code k) := by
  unfold State.vFp State.vLanewise
  exact ⟨_, _, _, _, rfl⟩

theorem State.vFp1_runV (s : State) (o : VFp1) (lat : Nat) (f : Val → Nf → Rm → Nat) :
    ∃ dst lat' code k, (.next (s.vFp1 o lat f) : Out) = .next (s.runV o.h [o.a.vin] dst lat' code k) := by
  unfold State.vFp1 State.vLanewise
  exact ⟨_, _, _, _, rfl⟩

/-- A V word with a guard goes the way of R206. -/
theorem exec_vHead {i : Instr} {h : VHead} {srcs : List VIn} (hi : i.vHead = some (h, srcs)) (s : State) :
    ∃ dst lat code k, exec i s = .next (s.runV h srcs dst lat code k) := by
  cases i
  all_goals cases hi
  case vadd | vsub | vmul | vmin | vmax | vfma | vfms | vnfma => exact State.vFp_runV ..
  case vsqrt | vexp2 | vlog2 | vrcp | vrsq => exact State.vFp1_runV ..
  all_goals exact ⟨_, _, _, _, rfl⟩

/-- R171, R356: the first fault of the positions that a word pops, where its sources may be read. -/
theorem State.runV_popped {s : State} {t : TileId} {h : VHead} {srcs : List VIn} {f : Byte × Nat} (hc : s.cur = .eng t .v)
    (hp : (s.tile t).canPop .v h.tok.pop = true) (hg : (s.tile t).v.inValid (.k h.g.k) = true)
    (hs : (s.tile t).v.guard h.g = 0 ∨ ∀ o ∈ srcs, (s.tile t).v.inValid o = true)
    (hf : ((popsOf srcs []).findSome? fun p => (s.tile t).popFault p.1 p.2) = some f) (dst : Option VOut) (lat : Nat) (code : Byte)
    (k : Lane → List Lanes → VOwn) :
    s.runV h srcs dst lat code k =
      if f.1 = cMCSRAM then (s.containTile t cMCSRAM none).modEng t .v fun g => { g with stopped := true }
      else s.engFault t .v f.1 0 (BitVec.ofNat 64 f.2) := by
  have h2 : ¬((s.tile t).v.guard h.g ≠ 0 ∧ srcs.all (s.tile t).v.inValid = false) := by
    rintro ⟨h0, ha⟩
    exact ne_true_of_eq_false ha (List.all_eq_true.2 (hs.resolve_left h0))
  simp only [State.runV, State.curTile_eng hc, hp, hg, hf, if_neg h2, Bool.true_eq_false, if_false]

theorem Tile.wordFault_eq (x : Tile) (e : Eng) (code : Byte) (addr : Word) : x.wordFault e code 0 addr = x.modEng e fun g =>
    if g.fault.isSome then g else { g with fault := some ⟨code, engInfo 0 (x.eng e).upc 0, addr, false⟩ } := rfl

/-- Settles O28: the token, the guard, the sources and the popped positions, in this order. -/
theorem vectorIssueRules : Obligations.VectorIssueRules := by
  intro s t i h srcs hi hc
  obtain ⟨dst, lat, code, k, hx⟩ := exec_vHead hi s
  simp only [hx]
  refine ⟨fun hp => ?_, fun hp => ⟨fun hg => ?_, fun hg => ⟨fun hm => ?_, fun hs f hf => ⟨fun hne => ?_, fun he => ?_⟩⟩⟩,
    fun code addr => ⟨onlyTile_modTile s t _, ?_⟩⟩
  · rw [State.runV_waits hc hp]
  · rw [State.runV_badGuard hc hp hg]
  · rw [State.runV_badSource hc hp hg hm.1 hm.2]
  · rw [State.runV_popped hc hp hg hs hf, if_neg hne]
  · rw [State.runV_popped hc hp hg hs hf, if_pos he]
  · rw [State.engFault, State.tile_modTile_same, Tile.wordFault_eq]
    refine ⟨rfl, rfl, rfl, fun hf => ?_⟩
    rw [Tile.eng_modEng_same, hf]
    exact ⟨_, rfl, rfl, rfl, rfl⟩

/-! ### The pops of a word -/

theorem Tile.port_modPort_same (x : Tile) (n : Fin 12) (f : Port → Port) : (x.modPort n f).port n = f (x.port n) := by
  simp [Tile.port, Tile.modPort]

theorem Tile.modPort_congr {x : Tile} (n : Fin 12) {f g : Port → Port} (h : f (x.port n) = g (x.port n)) : x.modPort n f = x.modPort n g :=
  congrArg (fun p => { x with v := { x.v with ports := x.v.ports.set n p } }) h

theorem Tile.port_modPort_ne (x : Tile) {n m : Fin 12} (h : m ≠ n) (f : Port → Port) : (x.modPort n f).port m = x.port m := by
  have hv : n.val ≠ m.val := fun k => h (Fin.ext k.symm)
  simp [Tile.port, Tile.modPort, Vector.getElem_set_ne _ _ hv]

/-- The step of `Tile.popAll` at port `p`. -/
def popStep (srcs : List VIn) (y : Tile) (p : Nat) : Tile :=
  let n := (srcs.filter fun o => o = VIn.ip (Fin.ofNat 8 p)).length
  if n = 0 then y else y.popPort (Fin.ofNat 12 p) n

/-- What `Tile.popAll` leaves unchanged: all but the ports. -/
def SameButPorts (x y : Tile) : Prop := y = { x with v := { x.v with ports := y.v.ports } }

theorem popStep_same (srcs : List VIn) (y : Tile) (p : Nat) : SameButPorts y (popStep srcs y p) := by
  unfold popStep
  extract_lets n
  split <;> rfl

theorem foldl_popStep_same (srcs : List VIn) (l : List Nat) (x : Tile) : SameButPorts x (l.foldl (popStep srcs) x) := by
  induction l generalizing x with
  | nil => rfl
  | cons p l ih =>
    have h1 := popStep_same srcs x p
    have h2 := ih (popStep srcs x p)
    rw [List.foldl_cons]
    generalize l.foldl (popStep srcs) (popStep srcs x p) = z at h2
    generalize popStep srcs x p = y at h1 h2
    rw [SameButPorts] at h1 h2 ⊢
    rw [h2, h1]

/-- A step changes its own port alone. -/
theorem popStep_port_ne (srcs : List VIn) (y : Tile) {p : Nat} (hp : p < 12) {m : Fin 12} (h : m.val ≠ p) : (popStep srcs y p).port m = y.port m := by
  have hm : m ≠ Fin.ofNat 12 p := fun k => h (by rw [k]; exact Nat.mod_eq_of_lt hp)
  unfold popStep
  extract_lets n
  split
  · rfl
  · exact Tile.port_modPort_ne y hm _

theorem popStep_port_same (srcs : List VIn) (y : Tile) (p : Fin 8) (h : (y.port (inPort p)).set ≠ none) :
    ((popStep srcs y p.val).port (inPort p)).pos = (y.port (inPort p)).pos + (srcs.filter fun o => o = VIn.ip p).length := by
  unfold popStep
  rw [Fin.ofNat_val_eq_self]
  extract_lets n
  split
  · next h0 => exact (congrArg ((y.port (inPort p)).pos + ·) h0).symm
  · rw [Tile.popPort, show Fin.ofNat 12 p.val = inPort p from rfl, Tile.port_modPort_same]
    cases hset : (y.port (inPort p)).set with
    | none => exact absurd hset h
    | some q => rfl

theorem foldl_popStep_ne (srcs : List VIn) {m : Fin 12} (l : List Nat) (hl : ∀ p ∈ l, p < 12 ∧ m.val ≠ p) (x : Tile) :
    (l.foldl (popStep srcs) x).port m = x.port m := by
  induction l generalizing x with
  | nil => rfl
  | cons p l ih =>
    obtain ⟨hp, hm⟩ := hl p List.mem_cons_self
    rw [List.foldl_cons, ih (fun q hq => hl q (List.mem_cons_of_mem _ hq)), popStep_port_ne srcs x hp hm]

theorem Tile.popAll_eq (x : Tile) (srcs : List VIn) : x.popAll srcs = (List.range 8).foldl (popStep srcs) x := rfl

theorem Tile.popAll_same (x : Tile) (srcs : List VIn) : SameButPorts x (x.popAll srcs) := foldl_popStep_same srcs _ x

theorem Tile.popAll_outPort (x : Tile) (srcs : List VIn) (p : Fin 4) : (x.popAll srcs).port (outPort p) = x.port (outPort p) :=
  foldl_popStep_ne srcs _ (fun q hq => by
    have := List.mem_range.1 hq
    have hv : (outPort p).val = 8 + p.val := Nat.mod_eq_of_lt (by omega)
    omega) x

/-- R165, R170: an input port goes on by as many positions as the word pops. -/
theorem Tile.popAll_inPort (x : Tile) (srcs : List VIn) (p : Fin 8) (h : (x.port (inPort p)).set ≠ none) :
    ((x.popAll srcs).port (inPort p)).pos = (x.port (inPort p)).pos + (srcs.filter fun o => o = VIn.ip p).length := by
  have hv : (inPort p).val = p.val := Nat.mod_eq_of_lt (by omega)
  have hr : List.range 8 = List.range p.val ++ p.val :: (List.range (7 - p.val)).map (fun i => p.val + 1 + i) := by
    fin_cases p <;> rfl
  rw [Tile.popAll_eq, hr, List.foldl_append, List.foldl_cons, foldl_popStep_ne, popStep_port_same, foldl_popStep_ne]
  · intro q hq
    have := List.mem_range.1 hq
    omega
  · rw [foldl_popStep_ne]
    · exact h
    · intro q hq
      have := List.mem_range.1 hq
      omega
  · intro q hq
    obtain ⟨i, hi, rfl⟩ := List.mem_map.1 hq
    have := List.mem_range.1 hi
    omega

/-! ### Tokens -/

theorem engines_ix (e : Eng) : Sys2Proof.engines[e.ix.val]? = some e := by
  cases e <;> rfl

theorem Eng.ix_inj {e f : Eng} (h : e.ix = f.ix) : e = f :=
  Option.some.inj ((engines_ix e).symm.trans (h ▸ engines_ix f))

/-- R56: the counts after one of them is set. -/
theorem Tile.token_setToken (x : Tile) (e f a b : Eng) (n : Nat) :
    (x.setToken e f n).token a b = if a = e ∧ b = f then n else x.token a b := by
  by_cases h : a = e
  · subst h
    by_cases k : b = f
    · subst k
      simp [Tile.setToken, Tile.token]
    · have hv : f.ix.val ≠ b.ix.val := fun q => k (Eng.ix_inj (Fin.ext q.symm))
      simp [Tile.setToken, Tile.token, k, Vector.getElem_set_ne _ _ hv]
  · have hv : e.ix.val ≠ a.ix.val := fun q => h (Eng.ix_inj (Fin.ext q.symm))
    simp [Tile.setToken, Tile.token, h, Vector.getElem_set_ne _ _ hv]

theorem Tile.token_popToken (x : Tile) (f : Eng) (pop : Option Eng) (a b : Eng) :
    (x.popToken f pop).token a b = if pop = some a ∧ b = f then x.token a b - 1 else x.token a b := by
  cases pop with
  | none => rfl
  | some e =>
    rw [Tile.popToken, Tile.token_setToken]
    by_cases h : a = e ∧ b = f
    · obtain ⟨rfl, rfl⟩ := h
      simp
    · have h' : ¬(some e = some a ∧ b = f) := fun k => h ⟨(Option.some.inj k.1).symm, k.2⟩
      rw [if_neg h, if_neg h']

theorem Tile.popToken_same (x : Tile) (f : Eng) (pop : Option Eng) : x.popToken f pop = { x with tokens := (x.popToken f pop).tokens } := by
  cases pop <;> rfl

/-! ### The issue -/

theorem Engine.advance_index (g : Engine) (h : g.branch = none) : g.advance.index = g.index + 1 := by
  simp only [Engine.advance, h]
  split <;> rfl

theorem Engine.issue_index (g : Engine) (h : g.branch = none) : g.issue.index = g.index + 1 := Engine.advance_index _ h

/-- What the issue of a V word leaves of its tile. -/
theorem Tile.vIssue_spec (x : Tile) (now : Nat) (tok : Tok) (lat : Nat) (code : Byte) (w : VWrite) :
    let y := x.vIssue now tok lat code w
    y = { x with v := { x.v with flight := x.v.flight ++ [⟨now + lat, (x.eng .v).curSeq, code, tok.push, false, w⟩] },
                 tokens := (x.popToken .v tok.pop).tokens, engines := y.engines } ∧
    (∀ e, e ≠ .v → y.eng e = x.eng e) ∧ y.eng .v = { (x.eng .v).issue with nextIssue := now + 1 } := by
  intro y
  have hy : y = { (x.popToken .v tok.pop).modEng .v fun g => { g.issue with nextIssue := now + 1 } with
      v := { x.v with flight := x.v.flight ++ [⟨now + lat, (x.eng .v).curSeq, code, tok.push, false, w⟩] } } := by
    simp only [y, Tile.vIssue]
    rw [x.popToken_same .v tok.pop]
    rfl
  rw [hy]
  refine ⟨?_, fun e he => ?_, ?_⟩
  · rw [x.popToken_same .v tok.pop]
    rfl
  · rw [← Tile.eng_modEng_ne x .v e (fun g => { g.issue with nextIssue := now + 1 }) he, x.popToken_same .v tok.pop]
    rfl
  · rw [← Tile.eng_modEng_same x .v fun g => { g.issue with nextIssue := now + 1 }, x.popToken_same .v tok.pop]
    rfl

/-- Settles O29. -/
theorem vectorDestinations : Obligations.VectorDestinations := by
  intro s t tok srcs mask lat code v
  refine ⟨fun w => ?_, fun r => rfl, fun r => ⟨lanesMask v, rfl, fun l => ?_⟩, fun p => ⟨fun o ho => ⟨_, rfl, ?_⟩, fun f hf => ?_⟩⟩
  · have hp := (s.tile t).popAll_same srcs
    obtain ⟨hy, he, hv⟩ := Tile.vIssue_spec ((s.tile t).popAll srcs) s.gtime tok lat code w
    have hu : (s.vDone t tok srcs lat code w).tile t = ((s.tile t).popAll srcs).vIssue s.gtime tok lat code w :=
      State.tile_modTile_same ..
    have hports (n : Fin 12) : (((s.tile t).popAll srcs).vIssue s.gtime tok lat code w).port n = ((s.tile t).popAll srcs).port n := by
      rw [hy]
      rfl
    have htok : (((s.tile t).popAll srcs).vIssue s.gtime tok lat code w).tokens = ((s.tile t).popToken .v tok.pop).tokens := by
      rw [hy, hp]
      cases tok.pop <;> rfl
    have heng (e : Eng) : ((s.tile t).popAll srcs).eng e = (s.tile t).eng e := by
      rw [hp]
      rfl
    simp only [hu]
    refine ⟨onlyTile_modTile s t _, ?_, ?_, ?_, fun e hne => ?_, ?_, fun hb => ?_, fun p hset => ?_, fun e f => ?_⟩
    · rw [hy, ← heng .v, hp]
    · rw [hy, hp]
    · rw [hy, hp]
    · rw [he e hne, heng]
    · rw [hv]
    · rw [hv, heng]
      exact Engine.issue_index _ hb
    · rw [hports, Tile.popAll_inPort _ _ _ hset]
    · rw [← Tile.token_popToken, Tile.token, htok]
      rfl
  · rw [getLsbD_lanesMask, decide_eq_true_iff]
  · simp only [State.vTo, ho]
    refine State.modTile_congr (Tile.modPort_congr _ ?_)
    have hy := (Tile.vIssue_spec ((s.tile t).popAll srcs) s.gtime tok lat code (.push p o.bytes o.ovf o.unf)).1
    have hport : ((s.vDone t tok srcs lat code (.push p o.bytes o.ovf o.unf)).tile t).port (outPort p) = (s.tile t).port (outPort p) := by
      rw [State.vDone, State.tile_modTile_same, hy]
      exact (s.tile t).popAll_outPort srcs p
    rw [hport]
  · simp only [State.vTo, hf]

end Sys2Proof.Machine
end

section
/-! ## Port words, banks, and the control words of V (R164 to R175, R197, R198, R202 to R206) -/

namespace Sys2Proof.Machine

open Sys2Proof

/-! ### Cells of a bank -/

theorem Bank.cell_setCell (b : Bank) {r c : Nat} (r' c' : Nat) (v : Lane) (hc : c < 128) (hc' : c' < 128) :
    (b.setCell r c v).cell r' c' = if r' = r ∧ c' = c then v else b.cell r' c' := by
  by_cases h : r' = r ∧ c' = c
  · obtain ⟨rfl, rfl⟩ := h
    rw [if_pos ⟨rfl, rfl⟩, Bank.cell, Bank.setCell, Map.get_put_same]
  · rw [if_neg h]
    refine Map.get_put_ne _ _ _ _ _ ?_
    omega

/-- Cells of one row that take new values, each from its own old one. -/
theorem Bank.cell_foldl_setCell (p : Nat → Bool) (g : Bank → Nat → Lane) (k : Bank) {row col : Nat} (n : Nat) (hn : col + n ≤ 128)
    (hg : ∀ (y : Bank) (l : Nat), y.cell row (col + l) = k.cell row (col + l) → g y l = g k l) {r c : Nat} (hc : c < 128) :
    ((List.range n).foldl (fun y l => if p l then y.setCell row (col + l) (g y l) else y) k).cell r c =
      if r = row ∧ col ≤ c ∧ c < col + n ∧ p (c - col) = true then g k (c - col) else k.cell r c := by
  induction n generalizing r c with
  | zero => rw [if_neg (by omega)]; rfl
  | succ n ih =>
    rw [List.range_succ, List.foldl_append, List.foldl_cons, List.foldl_nil]
    have ih' := fun {r c : Nat} (hc : c < 128) => ih (by omega) (r := r) (c := c) hc
    generalize (List.range n).foldl (fun y l => if p l then y.setCell row (col + l) (g y l) else y) k = z at ih'
    have hz : g z n = g k n := hg z n (by rw [ih' (by omega), if_neg (by omega)])
    by_cases hp : p n = true
    · rw [if_pos hp, Bank.cell_setCell _ _ _ _ (by omega) hc, ih' hc, hz]
      by_cases h : r = row ∧ c = col + n
      · obtain ⟨rfl, rfl⟩ := h
        rw [if_pos ⟨rfl, rfl⟩, if_pos ⟨rfl, by omega, by omega, by rw [Nat.add_sub_cancel_left]; exact hp⟩, Nat.add_sub_cancel_left]
      · rw [if_neg h]
        exact if_congr (by constructor <;> (rintro ⟨h1, h2, h3, h4⟩; exact ⟨h1, h2, by omega, h4⟩)) rfl rfl
    · rw [if_neg hp, ih' hc]
      refine if_congr ?_ rfl rfl
      constructor
      · rintro ⟨h1, h2, h3, h4⟩
        exact ⟨h1, h2, by omega, h4⟩
      · rintro ⟨h1, h2, h3, h4⟩
        refine ⟨h1, h2, ?_, h4⟩
        by_contra h5
        rw [show c - col = n by omega] at h4
        exact hp h4

theorem Crew.bank_modBank_same (c : Crew) (n : Fin 32) (f : Bank → Bank) : (c.modBank n f).bank n = f (c.bank n) := by
  simp [Crew.bank, Crew.modBank]

theorem Crew.bank_modBank_ne (c : Crew) {n m : Fin 32} (h : m ≠ n) (f : Bank → Bank) : (c.modBank n f).bank m = c.bank m := by
  have hv : n.val ≠ m.val := fun k => h (Fin.ext k.symm)
  simp [Crew.bank, Crew.modBank, Vector.getElem_set_ne _ _ hv]

/-- What breaks windows leaves of a tile: all but its matrix state. -/
theorem State.breakWindows_tile (s : State) (c : CrewId) (b : Nat) (t : TileId) :
    (s.breakWindows c b).tile t = { s.tile t with m := ((s.breakWindows c b).tile t).m } := by
  unfold State.breakWindows
  generalize List.range 4 = l
  induction l generalizing s with
  | nil => rfl
  | cons k l ih =>
    rw [List.foldl_cons]
    generalize hu : s.modTile (tileOf c (Fin.ofNat 4 k)) (fun x => { x with m := x.m.breakWindow (bankMask [b]) }) = u
    have h1 : u.tile t = { s.tile t with m := (u.tile t).m } := by
      by_cases h : t = tileOf c (Fin.ofNat 4 k)
      · subst h
        rw [← hu, State.tile_modTile_same]
      · rw [← hu, State.tile_modTile_ne _ _ _ _ h]
    rw [ih u, h1]

theorem State.breakWindows_crews (s : State) (c : CrewId) (b : Nat) : (s.breakWindows c b).crews = s.crews := by
  unfold State.breakWindows
  generalize List.range 4 = l
  induction l generalizing s with
  | nil => rfl
  | cons k l ih =>
    rw [List.foldl_cons, ih]
    rfl

/-! ### Parameter sets and positions -/

theorem rmOf_some {n : Nat} {rm : Rm} (h : rmOf n = some rm) : rmCode rm = n := by
  unfold rmOf at h
  split at h
  case h_7 => exact nomatch h
  all_goals
    cases h
    rfl

theorem rmOf_none (n : Nat) : rmOf n = none ↔ 5 < n := by
  by_cases h : 5 < n
  · obtain ⟨m, rfl⟩ : ∃ m, n = m + 6 := ⟨n - 6, by omega⟩
    simp [rmOf]
  · interval_cases n <;> simp [rmOf]

theorem bitsOf_top_eq_zero (v : Lane) {lo len : Nat} (h : lo + len = 32) : bitsOf v.toNat lo len = 0 ↔ v.toNat < 2 ^ lo := by
  have hv : v.toNat < 2 ^ lo * 2 ^ len := by rw [← Nat.pow_add, h]; exact v.isLt
  rw [bitsOf, Nat.shiftRight_eq_div_pow, Nat.mod_eq_of_lt (Nat.div_lt_of_lt_mul hv), Nat.div_eq_zero_iff]
  simp

/-- R164: which lanes spell a parameter set, and its fields. -/
theorem portSetOf_spec (a : Lanes) :
    let w (n : Nat) : Nat := (a[Fin.ofNat 32 n]).toNat
    (portSetOf a = none ↔ 5 < w 1 ∨ 2 ^ 20 ≤ w 0 ∨ 2 ^ 16 ≤ w 2 ∨ 2 ^ 16 ≤ w 4 ∨ 2 ^ 16 ≤ w 6 ∨ 2 ^ 16 ≤ w 8) ∧
    ∀ q, portSetOf a = some q → q.base.toNat = w 0 ∧ rmCode q.rm = w 1 ∧
      ∀ i : Fin 4, q.cnt[i] = w (2 + 2 * i.val) + 1 ∧ q.str[i] = a[Fin.ofNat 32 (3 + 2 * i.val)] := by
  intro w
  unfold portSetOf
  have hn := rmOf_none (w 1)
  cases hr : rmOf (w 1) with
  | none =>
    simp only [w] at hr
    simp only [hr]
    exact ⟨⟨fun _ => .inl (hn.1 hr), fun _ => by trivial⟩, nofun⟩
  | some rm =>
    have h5 : ¬5 < w 1 := fun k => by rw [hn.2 k] at hr; cases hr
    simp only [w] at hr
    simp only [hr, bitsOf_top_eq_zero _ (show 20 + 12 = 32 from rfl), bitsOf_top_eq_zero _ (show 16 + 16 = 32 from rfl)]
    split
    · next h =>
      obtain ⟨h0, h2, h4, h6, h8⟩ := h
      refine ⟨⟨nofun, fun k => ?_⟩, fun q hq => ?_⟩
      · simp only [w] at k h5
        omega
      · cases hq
        refine ⟨Nat.mod_eq_of_lt h0, rmOf_some hr, fun i => ?_⟩
        fin_cases i <;> exact ⟨rfl, rfl⟩
    · next h =>
      refine ⟨⟨fun _ => ?_, fun _ => rfl⟩, nofun⟩
      simp only [w] at h5 ⊢
      omega

/-- R165: the address of a position. -/
theorem PortSet.addr_eq (q : PortSet) (j : Nat) :
    let c (i : Fin 4) : Nat := q.cnt[i]
    let str (i : Fin 4) : Int := (q.str[i]).toInt
    (q.addr j : Int) = ((q.base.toNat : Int) + (j % c 0 : Nat) * str 0 + (j / c 0 % c 1 : Nat) * str 1 +
      (j / c 0 / c 1 % c 2 : Nat) * str 2 + (j / c 0 / c 1 / c 2 % c 3 : Nat) * str 3) % 2 ^ 20 := by
  intro c str
  rw [PortSet.addr, wrapInt, Int.toNat_of_nonneg (Int.emod_nonneg _ (by decide))]
  rfl

/-! ### Port words -/

/-- What a port word that issues leaves of its tile. -/
structure PortWordGives (s u : State) (t : TileId) (n : Fin 12) (p : Port) : Prop where
  only : OnlyTile s u t
  port : (u.tile t).port n = p
  sp : (u.tile t).sp = (s.tile t).sp
  regs : (u.tile t).v.v = (s.tile t).v.v
  others : ∀ m, m ≠ n → (u.tile t).port m = (s.tile t).port m

/-- A port word that passes its check changes its port alone. -/
theorem State.runPort_gives {s : State} {t : TileId} {o : PortOp} (hc : s.cur = .eng t .v)
    (hp : (s.tile t).canPop .v o.tok.pop = true) {check : Tile → Option Byte} (hok : check (s.tile t) = none) {f : Tile → Tile}
    {p : Port} (hf : f (s.tile t) = (s.tile t).modPort o.port fun _ => p) :
    PortWordGives s (s.runPort o check f) t o.port p := by
  have hx : s.runPort o check f = s.modTile t fun x => (f x).vIssue s.gtime o.tok 0 cMCPARITY .none := by
    simp only [State.runPort, State.curTile_eng hc, hp, hok, Bool.true_eq_false, if_false]
  obtain ⟨hy, -, -⟩ := Tile.vIssue_spec ((s.tile t).modPort o.port fun _ => p) s.gtime o.tok 0 cMCPARITY .none
  have hu : (s.runPort o check f).tile t = ((s.tile t).modPort o.port fun _ => p).vIssue s.gtime o.tok 0 cMCPARITY .none := by
    rw [hx, State.tile_modTile_same, hf]
  have hport (m : Fin 12) : ((s.runPort o check f).tile t).port m = ((s.tile t).modPort o.port fun _ => p).port m := by
    rw [hu, hy]
    rfl
  refine ⟨?_, ?_, ?_, ?_, fun m hm => ?_⟩
  · rw [hx]
    exact onlyTile_modTile s t _
  · rw [hport, Tile.port_modPort_same]
  · rw [hu, hy]
    rfl
  · rw [hu, hy]
    rfl
  · rw [hport, Tile.port_modPort_ne _ hm]

theorem State.runPort_faults {s : State} {t : TileId} {o : PortOp} (hc : s.cur = .eng t .v)
    (hp : (s.tile t).canPop .v o.tok.pop = true) {check : Tile → Option Byte} {c : Byte} (hbad : check (s.tile t) = some c)
    (f : Tile → Tile) : s.runPort o check f = s.engFault t .v c 0 := by
  simp only [State.runPort, State.curTile_eng hc, hp, hbad, Bool.true_eq_false, if_false]

theorem Tile.modPort_modPort (x : Tile) (n : Fin 12) (f g : Port → Port) : (x.modPort n f).modPort n g = x.modPort n fun p => g (f p) := by
  simp [Tile.modPort]

/-- R170, R175: the lead of a port whose position and set are given. -/
theorem Tile.refetch_modPort (x : Tile) (n : Fin 12) {f : Port → Port} {q : PortSet} (h : (f (x.port n)).set = some q) :
    (x.modPort n f).refetch n = x.modPort n fun p => { f p with
      lead := if n.val ≤ 7 then (List.range 4).map fun i => x.fetch q ((f (x.port n)).pos + i) else [] } := by
  rw [Tile.refetch, Tile.modPort_modPort]
  refine Tile.modPort_congr n ?_
  simp only [h]
  rfl

theorem Tile.refetch_eq (x : Tile) (n : Fin 12) {q : PortSet} (h : (x.port n).set = some q) :
    x.refetch n = x.modPort n fun _ => { x.port n with
      lead := if n.val ≤ 7 then (List.range 4).map fun i => x.fetch q ((x.port n).pos + i) else [] } := by
  refine Tile.modPort_congr n ?_
  simp only [h]

/-! ### Drains and writes of a bank -/

theorem selOf_eq (v : Lanes) : selOf v = (Fin.ofNat 32 (v[(0 : Fin 32)]).toNat, (v[(0 : Fin 32)]).toNat / 32 % 32,
    32 * ((v[(0 : Fin 32)]).toNat / 1024 % 4)) := by
  have h0 (m : Nat) : Fin.ofNat 32 (bitsOf m 0 5) = Fin.ofNat 32 m := Fin.ext (Nat.mod_mod ..)
  have h1 (m : Nat) : bitsOf m 5 5 = m / 32 % 32 := bitsOf_eq_div m 5 5
  have h2 (m : Nat) : bitsOf m 10 2 = m / 1024 % 4 := bitsOf_eq_div m 10 2
  simp only [selOf, h0, h1, h2]

section
variable {c : Crew} {k : Fin 4} {b : Fin 32}

theorem Crew.drainCheck_free (h : (c.bank b).st = .free) : c.drainCheck k b = some (.fault cACCUNALLOC (BitVec.ofNat 64 b.val)) := by
  simp only [Crew.drainCheck, Crew.bankFault_free h]

theorem Crew.drainCheck_other (h : (c.bank b).st ≠ .free) (ho : (c.bank b).owners.getLsbD k.val = false) :
    c.drainCheck k b = some (.fault cACCOWN (BitVec.ofNat 64 b.val)) := by
  simp only [Crew.drainCheck, Crew.bankFault_other h ho]

theorem Crew.drainCheck_busy (h : (c.bank b).st = .busy) (ho : (c.bank b).owners.getLsbD k.val = true) :
    c.drainCheck k b = some (.fault cACCBUSY (BitVec.ofNat 64 b.val)) := by
  have hf : (c.bank b).st ≠ .free := by rw [h]; decide
  simp only [Crew.drainCheck, Crew.bankFault_own hf ho, h]

theorem Crew.drainCheck_replay (h : (c.bank b).st = .replay) (ho : (c.bank b).owners.getLsbD k.val = true) :
    c.drainCheck k b = some .wait := by
  have hf : (c.bank b).st ≠ .free := by rw [h]; decide
  simp only [Crew.drainCheck, Crew.bankFault_own hf ho, h]

theorem Crew.drainCheck_idle (h : (c.bank b).st = .idle) (ho : (c.bank b).owners.getLsbD k.val = true) : c.drainCheck k b = none := by
  have hf : (c.bank b).st ≠ .free := by rw [h]; decide
  simp only [Crew.drainCheck, Crew.bankFault_own hf ho, h]

theorem Crew.zeroCells_bank (row col : Nat) (mask : Lane) (hcol : col + 32 ≤ 128) :
    (∀ (r : Nat) (n : Nat), n < 128 → ((c.zeroCells b row col mask).bank b).cell r n =
      if r = row ∧ col ≤ n ∧ n < col + 32 ∧ mask.getLsbD (n - col) = true then 0 else (c.bank b).cell r n) ∧
    ∀ m, m ≠ b → (c.zeroCells b row col mask).bank m = c.bank m := by
  refine ⟨fun r n hn => ?_, fun m hm => Crew.bank_modBank_ne c hm _⟩
  rw [Crew.zeroCells, Crew.bank_modBank_same]
  exact Bank.cell_foldl_setCell (fun l => mask.getLsbD l) (fun _ _ => 0) (c.bank b) 32 hcol (fun _ _ _ => rfl) hn
end

section
variable {s : State} {t : TileId} {h : VHead}

/-- What `VACRD` leaves of its bank and of the windows of its crew. -/
def State.afterDrain (s : State) (c : CrewId) (drain : Bool) (b : Fin 32) (row col : Nat) (mask : Lane) : State :=
  if drain then (s.modCrew c fun c => c.zeroCells b row col mask).breakWindows c b.val else s

theorem State.afterDrain_tile (s : State) (c : CrewId) (drain : Bool) (b : Fin 32) (row col : Nat) (mask : Lane) (t : TileId) :
    (s.afterDrain c drain b row col mask).tile t = { s.tile t with m := ((s.afterDrain c drain b row col mask).tile t).m } := by
  cases drain
  · rfl
  · exact State.breakWindows_tile (s.modCrew c fun c => c.zeroCells b row col mask) c b.val t

theorem State.breakWindows_gtime (s : State) (c : CrewId) (b : Nat) : (s.breakWindows c b).gtime = s.gtime := rfl

theorem State.afterDrain_gtime (s : State) (c : CrewId) (drain : Bool) (b : Fin 32) (row col : Nat) (mask : Lane) :
    (s.afterDrain c drain b row col mask).gtime = s.gtime := by
  cases drain <;> rfl

theorem State.crew_of_crews {s u : State} (h : u.crews = s.crews) (c : CrewId) : u.crew c = s.crew c := by
  rw [State.crew, State.crew, h]

/-- What `VACRD` does once it runs, by the bank that its *sel* names. -/
theorem exec_vacrd_runs {sel : VSI} (r : VRuns s t h [sel.vin]) (hm : vMask s t h ≠ 0) (d : Fin 64) (drain : Bool) :
    let y := s.crew (crewOf t)
    let n := (vLane s t [sel.vin] 0 0).toNat
    let b : Fin 32 := Fin.ofNat 32 n
    let row := n / 32 % 32
    let col := 32 * (n / 1024 % 4)
    (∀ code a, y.drainCheck (Machine.laneOf t) b = some (.fault code a) → exec (.vacrd h d sel drain) s = .next (s.engFault t .v code 0 a)) ∧
    (y.drainCheck (Machine.laneOf t) b = some .wait → exec (.vacrd h d sel drain) s = .next s) ∧
    (y.drainCheck (Machine.laneOf t) b = none → exec (.vacrd h d sel drain) s =
      .next ((s.afterDrain (crewOf t) drain b row col (vMask s t h)).vDone t
        h.tok [sel.vin] 8 cMCSRAM (.v (physReg (s.tile t).v.vrb d) (vMask s t h) (Vector.ofFn fun l => (y.bank b).cell row (col + l.val))))) := by
  intro y n b row col
  have hx : exec (.vacrd h d sel drain) s = _ := execVacrd.eq_def h d sel drain s
  have hs : selOf (lanesAt ((s.tile t).vValues [sel.vin] []) 0) = (b, row, col) := selOf_eq _
  have hm' : ¬(s.tile t).v.guard h.g = 0 := hm
  rw [hx]
  simp only [State.runV_runs r, State.curTile_eng r.atWork, hs, if_neg hm']
  exact ⟨fun code a hc => by rw [hc], fun hc => by rw [hc], fun hc => by rw [hc]; rfl⟩

/-- What `VACWR` does once it runs, by the bank that its *sel* names. -/
theorem exec_vacwr_runs {a : VP} {sel : VSI} (r : VRuns s t h [a.vin, sel.vin]) (hm : vMask s t h ≠ 0) (add : Bool) :
    let y := s.crew (crewOf t)
    let n := (vLane s t [a.vin, sel.vin] 1 0).toNat
    let b : Fin 32 := Fin.ofNat 32 n
    (∀ code a', y.drainCheck (Machine.laneOf t) b = some (.fault code a') → exec (.vacwr h a sel add) s = .next (s.engFault t .v code 0 a')) ∧
    (y.drainCheck (Machine.laneOf t) b = some .wait → exec (.vacwr h a sel add) s = .next s) ∧
    (y.drainCheck (Machine.laneOf t) b = none → exec (.vacwr h a sel add) s =
      .next ((s.breakWindows (crewOf t) b.val).vDone t h.tok [a.vin, sel.vin] 8 cMCPARITY
        (.acc b.val (n / 32 % 32) (32 * (n / 1024 % 4)) (vMask s t h) (lanesAt ((s.tile t).vValues [a.vin, sel.vin] []) 0) add))) := by
  intro y n b
  have hx : exec (.vacwr h a sel add) s = _ := execVacwr.eq_def h a sel add s
  have hs : selOf (lanesAt ((s.tile t).vValues [a.vin, sel.vin] []) 1) = (b, n / 32 % 32, 32 * (n / 1024 % 4)) := selOf_eq _
  have hm' : ¬(s.tile t).v.guard h.g = 0 := hm
  rw [hx]
  simp only [State.runV_runs r, State.curTile_eng r.atWork, hs, if_neg hm']
  exact ⟨fun code a hc => by rw [hc], fun hc => by rw [hc], fun hc => by rw [hc]; rfl⟩

/-- What is on its way after a word has issued from a state whose tile differs in its matrix state alone. -/
theorem State.vDone_flight {u : State} (hu : u.tile t = { s.tile t with m := (u.tile t).m }) (hg : u.gtime = s.gtime) (tok : Tok)
    (srcs : List VIn) (lat : Nat) (code : Byte) (w : VWrite) : ((u.vDone t tok srcs lat code w).tile t).v.flight =
      (s.tile t).v.flight ++ [⟨s.gtime + lat, ((s.tile t).eng .v).curSeq, code, tok.push, false, w⟩] := by
  have hf := ((vectorDestinations u t tok srcs 0 lat code (allLanes 0)).1 w).2.1
  rw [hf, hu, hg]
  rfl

theorem State.vDone_crews (u : State) (tok : Tok) (srcs : List VIn) (lat : Nat) (code : Byte) (w : VWrite) :
    (u.vDone t tok srcs lat code w).crews = u.crews := rfl
end

/-- Settles O30. -/
theorem vectorPortWords : Obligations.VectorPortWords := by
  refine ⟨⟨fun s t o hc hp => ⟨fun a => ⟨fun hv => ?_, fun hv => ⟨fun hn => ?_, fun q hq => ?_⟩⟩, fun hn => ⟨?_, ?_⟩,
    fun q hq => ⟨?_, ?_⟩⟩, portSetOf_spec, PortSet.addr_eq⟩, fun s t h sel => ⟨fun d drain r => ⟨fun hm => ?_, fun hm =>
      ⟨fun hb => ?_, fun hb ho => ?_, fun ho => ⟨fun hb => ?_, fun hb => ?_, fun hb => ?_⟩⟩⟩, fun a add r => ⟨fun hm => ?_, fun hm =>
      ⟨fun hb => ?_, fun hb ho => ?_, fun ho => ⟨fun hb => ?_, fun hb => ?_, fun hb => ?_⟩⟩⟩⟩⟩
  · exact congrArg _ (State.runPort_faults hc hp (if_pos hv) _)
  · exact congrArg _ (State.runPort_faults hc hp ((if_neg (by rw [hv]; decide)).trans (if_pos (by rw [hn]; rfl))) _)
  · obtain ⟨h1, h2, h3, h4, h5⟩ := State.runPort_gives (s := s) (o := o) hc hp (check := fun x => if x.v.inValid (.v a) = false then some cINVREG
      else if (portSetOf (x.v.v[(physReg x.v.vrb a)])).isNone then some cSGBAD else none)
      ((if_neg (by rw [hv]; decide)).trans (if_neg (by rw [hq]; exact Bool.false_ne_true)))
      (f := fun x => (x.modPort o.port fun _ => ⟨portSetOf (x.v.v[(physReg x.v.vrb a)]), 0, [], false, false⟩).refetch o.port)
      (Tile.refetch_modPort (s.tile t) o.port hq)
    exact ⟨_, rfl, h1, h2.trans (by rw [hq]), h3, h4, h5⟩
  · exact congrArg _ (State.runPort_faults hc hp (if_pos (by rw [hn]; rfl)) _)
  · exact congrArg _ (State.runPort_faults hc hp (if_pos (by rw [hn]; rfl)) _)
  · obtain ⟨h1, h2, h3, h4, h5⟩ := State.runPort_gives (s := s) (o := o) hc hp (check := unsetFault o.port)
      (if_neg (by rw [hq]; exact Bool.false_ne_true)) (f := fun x => (x.modPort o.port fun p => { p with pos := 0 }).refetch o.port)
      (p := { (s.tile t).port o.port with pos := 0, lead := if o.port.val ≤ 7 then (List.range 4).map fun i => (s.tile t).fetch q (0 + i) else [] })
      (Tile.refetch_modPort (s.tile t) o.port (f := fun p => { p with pos := 0 }) hq)
    exact ⟨_, rfl, h1, h2, h3, h4, h5⟩
  · obtain ⟨h1, h2, h3, h4, h5⟩ := State.runPort_gives (s := s) (o := o) hc hp (check := unsetFault o.port)
      (if_neg (by rw [hq]; exact Bool.false_ne_true)) (f := fun x => x.refetch o.port) (Tile.refetch_eq (s.tile t) o.port hq)
    exact ⟨_, rfl, h1, h2, h3, h4, h5⟩
  · have hx : exec (.vacrd h d sel drain) s = _ := execVacrd.eq_def h d sel drain s
    have hm' : (s.tile t).v.guard h.g = 0 := hm
    rw [hx]
    simp only [State.runV_runs r, State.curTile_eng r.atWork, if_pos hm']
    rfl
  · exact (exec_vacrd_runs r hm d drain).1 _ _ (Crew.drainCheck_free hb)
  · exact (exec_vacrd_runs r hm d drain).1 _ _ (Crew.drainCheck_other hb ho)
  · exact (exec_vacrd_runs r hm d drain).1 _ _ (Crew.drainCheck_busy hb ho)
  · exact (exec_vacrd_runs r hm d drain).2.1 (Crew.drainCheck_replay hb ho)
  · refine ⟨_, (exec_vacrd_runs r hm d drain).2.2 (Crew.drainCheck_idle hb ho), ?_, ?_⟩
    · exact State.vDone_flight (s.afterDrain_tile ..) (s.afterDrain_gtime ..) ..
    · simp only [State.crew_of_crews (State.vDone_crews ..)]
      cases drain with
      | false => exact ⟨fun r c => (if_neg nofun).symm, fun m _ => rfl⟩
      | true =>
        have hz := Crew.zeroCells_bank (c := s.crew (crewOf t)) (b := Fin.ofNat 32 (vLane s t [sel.vin] 0 0).toNat)
          ((vLane s t [sel.vin] 0 0).toNat / 32 % 32) (32 * ((vLane s t [sel.vin] 0 0).toNat / 1024 % 4)) (vMask s t h) (by omega)
        rw [State.afterDrain, if_pos rfl, State.crew_of_crews (State.breakWindows_crews ..), State.crew_modCrew_same]
        refine ⟨fun r c => ?_, hz.2⟩
        rw [hz.1 r.val c.val c.isLt]
        simp only [true_and]
  · have hx : exec (.vacwr h a sel add) s = _ := execVacwr.eq_def h a sel add s
    have hm' : (s.tile t).v.guard h.g = 0 := hm
    rw [hx]
    simp only [State.runV_runs r, State.curTile_eng r.atWork, if_pos hm']
    rfl
  · exact (exec_vacwr_runs r hm add).1 _ _ (Crew.drainCheck_free hb)
  · exact (exec_vacwr_runs r hm add).1 _ _ (Crew.drainCheck_other hb ho)
  · exact (exec_vacwr_runs r hm add).1 _ _ (Crew.drainCheck_busy hb ho)
  · exact (exec_vacwr_runs r hm add).2.1 (Crew.drainCheck_replay hb ho)
  · refine ⟨_, (exec_vacwr_runs r hm add).2.2 (Crew.drainCheck_idle hb ho), ?_, ?_⟩
    · rw [ofFn_vLane]
      exact State.vDone_flight (State.breakWindows_tile ..) (State.breakWindows_gtime ..) ..
    · exact (State.vDone_crews ..).trans (State.breakWindows_crews ..)

end Sys2Proof.Machine
end

section
/-! ## The control words of V (R202 to R206) -/

namespace Sys2Proof.Machine

open Sys2Proof

/-! ### The entry at work -/

theorem mem_modFirst {p : Entry → Bool} {f : Entry → Entry} {l : List Entry} {n : Entry} (h : l.find? p = some n) :
    f n ∈ modFirst p f l := by
  induction l with
  | nil => cases h
  | cons m l ih =>
    rw [List.find?_cons] at h
    rw [modFirst]
    cases hp : p m with
    | true =>
      rw [hp] at h
      cases h
      exact List.mem_cons_self
    | false =>
      rw [hp] at h
      exact List.mem_cons_of_mem _ (ih h)

theorem find?_modFirst {p : Entry → Bool} {f : Entry → Entry} {l : List Entry} {n : Entry} (h : l.find? p = some n) (hf : p (f n) = true) :
    (modFirst p f l).find? p = some (f n) := by
  induction l with
  | nil => cases h
  | cons m l ih =>
    rw [List.find?_cons] at h
    rw [modFirst]
    cases hp : p m with
    | true =>
      rw [hp] at h
      cases h
      rw [if_pos rfl, List.find?_cons, hf]
    | false =>
      rw [hp] at h
      rw [if_neg Bool.false_ne_true, List.find?_cons, hp]
      exact ih h

section
variable {g : Engine} {n : Entry}

theorem Engine.cur?_modCur (h : g.cur? = some n) {f : Entry → Entry} (hf : (f n).st ≠ .issued) : (g.modCur f).cur? = some (f n) :=
  find?_modFirst h (decide_eq_true hf)

theorem Engine.mem_modCur (h : g.cur? = some n) (f : Entry → Entry) : f n ∈ (g.modCur f).queue := mem_modFirst h

theorem Engine.cur?_st (h : g.cur? = some n) : n.st ≠ .issued := by
  have hs := List.find?_some h
  exact of_decide_eq_true hs

theorem Engine.curLen_eq {g' : Engine} (hd : g'.dir = g.dir) (hs : g'.store = g.store) (hc : g'.curSec = g.curSec) :
    g'.curLen = g.curLen := by
  rw [Engine.curLen, Engine.curLen, Engine.section?, Engine.section?, hd, hs, hc]

theorem Engine.curSec_eq (h : g.cur? = some n) : g.curSec = n.sec.toNat := by
  rw [Engine.curSec, h]

theorem Engine.advance_last (hb : g.branch = none) (hc : g.cur? = some n) (hl : g.curLen ≤ g.index + 1) :
    { n with st := .issued } ∈ g.advance.queue := by
  simp only [Engine.advance, hb]
  rw [if_pos (show ({ g with index := g.index + 1, branch := none } : Engine).curLen ≤ g.index + 1 from hl)]
  exact mem_modFirst hc

/-- The last word of a section issues: the entry at work has issued whole. -/
theorem Engine.issue_last (hb : g.branch = none) (hc : g.cur? = some n) (hl : g.curLen ≤ g.index + 1) :
    { n with st := .issued, pendingWords := n.pendingWords + 1 } ∈ g.issue.queue := by
  have hc' : (g.modCur fun n => { n with pendingWords := n.pendingWords + 1 }).cur? = some { n with pendingWords := n.pendingWords + 1 } :=
    Engine.cur?_modCur hc (Engine.cur?_st (n := n) hc)
  have hlen : (g.modCur fun n => { n with pendingWords := n.pendingWords + 1 }).curLen = g.curLen :=
    Engine.curLen_eq rfl rfl (by rw [Engine.curSec_eq hc', Engine.curSec_eq hc])
  exact Engine.advance_last (g := g.modCur fun n => { n with pendingWords := n.pendingWords + 1 }) hb hc' (by rw [hlen]; exact hl)

theorem Engine.advance_branch (h : g.branch = none) : g.advance.branch = none := by
  simp only [Engine.advance, h]
  split <;> rfl

theorem Engine.issue_branch (h : g.branch = none) : g.issue.branch = none := Engine.advance_branch (g := g.modCur _) h

/-- R204: the two delay slots of a taken branch. -/
theorem Engine.issue_slot {target left : Nat} (h : g.branch = some (target, left)) :
    g.issue.index = (if left ≤ 1 then target else g.index + 1) ∧
      g.issue.branch = if left ≤ 1 then none else some (target, left - 1) := by
  have hb : (g.modCur fun n => { n with pendingWords := n.pendingWords + 1 }).branch = some (target, left) := h
  simp only [Engine.issue, Engine.advance, hb]
  by_cases hl : left ≤ 1
  · simp only [if_pos hl]
    split <;> exact ⟨rfl, rfl⟩
  · simp only [if_neg hl]
    split <;> exact ⟨rfl, rfl⟩
end

theorem Engine.issueEnd_spec {g : Engine} : g.issueEnd.branch = none ∧
    ∀ n, g.cur? = some n → { n with st := .issued, pendingWords := n.pendingWords + 1 } ∈ g.issueEnd.queue :=
  ⟨rfl, fun _ hc => Engine.mem_modCur hc _⟩

/-! ### Branches -/

/-- What a branch word that issues outside a delay slot leaves. -/
theorem State.vBranch_spec (s : State) (t : TileId) (tok : Tok) (taken : Bool) (target : Nat) (w : VWrite)
    (hb : ((s.tile t).eng .v).branch = none) :
    let g := (s.tile t).eng .v
    let u := s.vBranch t tok taken target w
    OnlyTile s u t ∧ (u.tile t).v.flight = (s.tile t).v.flight ++ [⟨s.gtime, g.curSeq, cMCPARITY, tok.push, false, w⟩] ∧
      ((u.tile t).eng .v).index = g.index + 1 ∧
      (taken = true ∧ g.index + 1 < g.curLen → ((u.tile t).eng .v).branch = some (target, 2)) ∧
      (¬(taken = true ∧ g.index + 1 < g.curLen) → ((u.tile t).eng .v).branch = none) := by
  intro g u
  obtain ⟨hy, -, hv⟩ := Tile.vIssue_spec (s.tile t) s.gtime tok 0 cMCPARITY w
  have hu : (u.tile t) = ((s.tile t).vIssue s.gtime tok 0 cMCPARITY w).modEng .v fun y =>
      if taken && decide (g.index + 1 < g.curLen) then { y with branch := some (target, 2) } else y := State.tile_modTile_same ..
  have he : (u.tile t).eng .v = if taken && decide (g.index + 1 < g.curLen) then
      { g.issue with nextIssue := s.gtime + 1, branch := some (target, 2) } else { g.issue with nextIssue := s.gtime + 1 } := by
    rw [hu, Tile.eng_modEng_same, hv]
  refine ⟨onlyTile_modTile s t _, ?_, ?_, fun hk => ?_, fun hk => ?_⟩
  · rw [hu, hy]
    rfl
  · rw [he]
    split <;> exact Engine.issue_index _ hb
  · rw [he, if_pos (by simpa using hk)]
  · rw [he, if_neg (by simpa using hk)]
    exact Engine.issue_branch hb

/-- R203: when `VBR` is taken. -/
theorem vbr_taken (all : Bool) (m : Lane) :
    (if all then m == 0xFFFFFFFF else m != 0) = true ↔ if all then m = BitVec.allOnes 32 else m ≠ 0 := by
  cases all
  · exact bne_iff_ne
  · exact beq_iff_eq

/-- Settles O31. -/
theorem vectorControlWords : Obligations.VectorControlWords := by
  intro s t tok hc hp
  have ht := State.curTile_eng hc
  have hp' : ¬(s.tile t).canPop .v tok.pop = false := by rw [hp]; decide
  have hnop : exec (.vnop tok) s = .next (s.vDone t tok [] 0 cMCPARITY .none) := by
    have hx : exec (.vnop tok) s = _ := execVnop.eq_def tok s
    rw [hx, ht]
    exact if_neg hp'
  refine ⟨hnop, ?_, fun target => ⟨fun hb => ?_, fun hb => ⟨fun hk => ?_, fun hk => ?_⟩, fun k all hg => ⟨fun hb => ?_, fun hb =>
    ⟨fun hk => ?_, fun hk => ?_⟩⟩⟩, fun target hb => ?_, fun target hb => ?_, fun n hn hb hl => Engine.issue_last hb hn hl⟩
  · have hx : exec (.vend tok) s = _ := execVend.eq_def tok s
    rw [hx, ht]
    refine ⟨_, if_neg hp', onlyTile_modTile s t _, ?_⟩
    have he := Tile.eng_modEng_same ((s.tile t).popToken .v tok.pop) .v fun g => { g.issueEnd with nextIssue := s.gtime + 1 }
    have hq : ((s.tile t).popToken .v tok.pop).eng .v = (s.tile t).eng .v := by cases tok.pop <;> rfl
    obtain ⟨hb, hn⟩ := Engine.issueEnd_spec (g := (s.tile t).eng .v)
    rw [hq] at he
    rw [State.tile_modTile_same]
    refine ⟨?_, (congrArg Engine.branch he).trans hb, congrArg Engine.nextIssue he, fun n hc => ?_⟩
    · cases tok.pop <;> rfl
    · exact (congrArg Engine.queue he).symm ▸ hn n hc
  · have hx : exec (.vloop tok target) s = _ := execVloop.eq_def tok target s
    rw [hx, ht, hnop]
    exact (if_neg hp').trans (if_pos (Option.isSome_iff_ne_none.2 hb))
  · have hx : exec (.vloop tok target) s = _ := execVloop.eq_def tok target s
    rw [hx, ht]
    refine (if_neg hp').trans ((if_neg (by rw [hb]; decide)).trans (if_pos ?_))
    simpa using hk
  · have hx : exec (.vloop tok target) s = _ := execVloop.eq_def tok target s
    obtain ⟨h1, h2, h3, h4, h5⟩ := s.vBranch_spec t tok (decide (0 < (s.tile t).v.lc.toNat) || decide (1 < (s.tile t).v.ec.toNat)) target.toNat
      (.loop (s.tile t).v.vrb (s.tile t).v.krb (s.tile t).v.lc (s.tile t).v.ec) hb
    rw [hx, ht]
    refine ⟨_, (if_neg hp').trans ((if_neg (by rw [hb]; decide)).trans (if_neg ?_)), h1, h2, h3, fun k => h4 ?_, fun k => h5 ?_⟩
    · simpa using hk
    · simpa using k
    · simpa using k
  · have hx : exec (.vbr ⟨k, tok⟩ all target) s = _ := execVbr.eq_def ⟨k, tok⟩ all target s
    rw [hx, ht, hnop]
    exact (if_neg hp').trans ((if_neg (by rw [hg]; decide)).trans (if_pos (Option.isSome_iff_ne_none.2 hb)))
  · have hx : exec (.vbr ⟨k, tok⟩ all target) s = _ := execVbr.eq_def ⟨k, tok⟩ all target s
    rw [hx, ht]
    refine (if_neg hp').trans ((if_neg (by rw [hg]; decide)).trans ((if_neg (by rw [hb]; decide)).trans (if_pos ?_)))
    exact ⟨(vbr_taken ..).2 hk.1, hk.2⟩
  · have hx : exec (.vbr ⟨k, tok⟩ all target) s = _ := execVbr.eq_def ⟨k, tok⟩ all target s
    obtain ⟨h1, h2, h3, h4, h5⟩ := s.vBranch_spec t tok (if all then (s.tile t).v.guard k == 0xFFFFFFFF else (s.tile t).v.guard k != 0) target.toNat
      .none hb
    rw [hx, ht]
    refine ⟨_, (if_neg hp').trans ((if_neg (by rw [hg]; decide)).trans ((if_neg (by rw [hb]; decide)).trans (if_neg ?_))), h1, h2, h3,
      fun k => h4 ?_, fun k => h5 ?_⟩
    · exact fun q => hk ⟨(vbr_taken ..).1 q.1, q.2⟩
    · exact ⟨(vbr_taken ..).2 k.1, k.2⟩
    · exact fun q => k ⟨(vbr_taken ..).1 q.1, q.2⟩
  · exact Engine.issue_slot hb
  · exact Engine.issue_slot hb

end Sys2Proof.Machine
end

section
/-! ## The landing of V results and pushes (R182, R202, R198, R169, R357, R358) -/

namespace Sys2Proof.Machine

open Sys2Proof

/-! ### The retirement of a landed word -/

theorem Tile.canPush_congr {x y : Tile} (h : y.tokens = x.tokens) (e : Eng) (p : Option Eng) : y.canPush e p = x.canPush e p := by
  cases p with
  | none => rfl
  | some f => rw [Tile.canPush, Tile.canPush, Tile.token, Tile.token, h]

theorem Tile.token_pushToken (x : Tile) (e : Eng) (push : Option Eng) (a b : Eng) :
    (x.pushToken e push).token a b = if a = e ∧ push = some b then x.token a b + 1 else x.token a b := by
  cases push with
  | none => exact (if_neg nofun).symm
  | some f =>
    rw [Tile.pushToken, Tile.token_setToken]
    by_cases h : a = e ∧ b = f
    · obtain ⟨rfl, rfl⟩ := h
      simp
    · have h' : ¬(a = e ∧ some f = some b) := fun k => h ⟨k.1, (Option.some.inj k.2).symm⟩
      rw [if_neg h, if_neg h']

theorem Tile.pushToken_same (x : Tile) (e : Eng) (push : Option Eng) : x.pushToken e push = { x with tokens := (x.pushToken e push).tokens } := by
  cases push <;> rfl

/-- What the retirement of a V word leaves of its tile. -/
theorem Tile.vRetire_spec (x : Tile) (l : VLand) (i : Nat) :
    let y := x.vRetire l i
    y = { x with v := { x.v with flight := y.v.flight }, tokens := y.tokens, engines := y.engines } ∧
    (x.canPush .v l.push = true → y.v.flight = x.v.flight.eraseIdx i ∧ y.tokens = (x.pushToken .v l.push).tokens) ∧
    (x.canPush .v l.push = false → y.v.flight = x.v.flight.set i { l with landed := true, w := .none } ∧ y.tokens = x.tokens) := by
  intro y
  cases hp : x.canPush .v l.push with
  | true =>
    have hy : y = { x with v := { x.v with flight := x.v.flight.eraseIdx i } }.retireWord .v l.seq l.push := if_pos hp
    rw [hy, Tile.retireWord, Tile.pushToken_same]
    refine ⟨rfl, fun _ => ⟨rfl, ?_⟩, nofun⟩
    cases l.push <;> rfl
  | false =>
    have hy : y = { x with v := { x.v with flight := x.v.flight.set i { l with landed := true, w := .none } } } :=
      if_neg (by rw [hp]; decide)
    rw [hy]
    exact ⟨rfl, nofun, fun _ => ⟨rfl, rfl⟩⟩

/-! ### Landing -/

theorem VState.loop_flight (v : VState) (vrb krb : BitVec 5) (lc : Lane) (ec : BitVec 8) : (v.loop vrb krb lc ec).flight = v.flight := by
  unfold VState.loop
  split
  · rfl
  · split
    · rfl
    · split <;> rfl

/-- What a write that lands leaves of its tile's queue of results and tokens. -/
theorem State.landVWrite_keeps (s : State) (t : TileId) (w : VWrite) :
    ((s.landVWrite t w).tile t).v.flight = (s.tile t).v.flight ∧ ((s.landVWrite t w).tile t).tokens = (s.tile t).tokens := by
  cases w with
  | v r mask lanes =>
    rw [State.landVWrite, State.tile_modTile_same, VState.landV]
    split <;> exact ⟨rfl, rfl⟩
  | k r mask bits =>
    rw [State.landVWrite, State.tile_modTile_same, VState.landK]
    split <;> exact ⟨rfl, rfl⟩
  | csr n v =>
    rw [State.landVWrite, State.tile_modTile_same]
    fin_cases n <;> exact ⟨rfl, rfl⟩
  | push p bytes ovf unf =>
    rw [State.landVWrite, State.tile_wroteSp, State.tile_modTile_same]
    exact ⟨rfl, rfl⟩
  | acc b row col mask lanes add => exact ⟨rfl, rfl⟩
  | loop vrb krb lc ec =>
    rw [State.landVWrite, State.tile_modTile_same]
    exact ⟨VState.loop_flight .., rfl⟩
  | none => exact ⟨rfl, rfl⟩

/-- The state after a word has landed. -/
def State.landed (s : State) (t : TileId) (l : VLand) (i : Nat) : State :=
  (s.landVWrite t l.w).modTile t fun x => (x.useLines .write l.w.lines).vRetire l i

theorem State.landVWord_good (s : State) (t : TileId) (l : VLand) (i : Nat) : s.landVWord t .good l i = s.landed t l i := by
  unfold State.landVWord
  extract_lets land unit bad
  split <;> rfl

/-- What a landed word leaves of its tile. -/
theorem State.landed_tile (s : State) (t : TileId) (l : VLand) (i : Nat) :
    let x := s.tile t
    let z := (s.landVWrite t l.w).tile t
    let y := (s.landed t l i).tile t
    y = { z with v := { z.v with flight := y.v.flight }, tokens := y.tokens, engines := y.engines, used := y.used } ∧
    (x.canPush .v l.push = true → y.v.flight = x.v.flight.eraseIdx i ∧
      ∀ e f, y.token e f = if e = .v ∧ l.push = some f then x.token e f + 1 else x.token e f) ∧
    (x.canPush .v l.push = false → y.v.flight = x.v.flight.set i { l with landed := true, w := .none } ∧ y.tokens = x.tokens) := by
  intro x z y
  obtain ⟨hf, ht⟩ := s.landVWrite_keeps t l.w
  have hy : y = (z.useLines .write l.w.lines).vRetire l i := State.tile_modTile_same ..
  obtain ⟨h1, h2, h3⟩ := (z.useLines .write l.w.lines).vRetire_spec l i
  rw [← hy] at h1 h2 h3
  have hc : (z.useLines .write l.w.lines).canPush .v l.push = x.canPush .v l.push := Tile.canPush_congr (y := z.useLines .write l.w.lines) ht _ _
  rw [hc] at h2 h3
  refine ⟨?_, fun hp => ⟨(h2 hp).1.trans (congrArg (·.eraseIdx i) hf), fun e f => ?_⟩, fun hp => ⟨(h3 hp).1.trans (congrArg (fun q : List VLand => q.set i { l with landed := true, w := .none }) hf),
    (h3 hp).2.trans ht⟩⟩
  · rw [h1]
    rfl
  · rw [Tile.token, (h2 hp).2, ← Tile.token, Tile.token_pushToken]
    have htok : (z.useLines .write l.w.lines).token e f = x.token e f := by
      rw [Tile.token, Tile.token, show (z.useLines .write l.w.lines).tokens = x.tokens from ht]
    rw [htok]

theorem State.landed_crews (s : State) (t : TileId) (l : VLand) (i : Nat) : (s.landed t l i).crews = (s.landVWrite t l.w).crews := rfl

/-- A word that changes its tile alone. -/
theorem State.landed_only {s : State} {t : TileId} {l : VLand} (i : Nat) (h : OnlyTile s (s.landVWrite t l.w) t) :
    OnlyTile s (s.landed t l i) t := onlyTile_trans h (onlyTile_modTile _ t _)

/-! ### What a check finds bad -/

theorem VWrite.carries_of {w : VWrite} (hn : w ≠ .none) (hl : ∀ a b n m, w ≠ .loop a b n m) : w.carries = true := by
  cases w with
  | none => exact absurd rfl hn
  | loop a b n m => exact absurd rfl (hl a b n m)
  | _ => rfl

/-- The state after a word has been found bad. -/
def State.foundBad (s : State) (t : TileId) (l : VLand) (i : Nat) : State :=
  (s.containUnit t (if l.code = cMCSRAM then 4 else (laneOf t).val) l.code none).modTile t fun x => x.vRetire { l with w := .none } i

theorem State.landVWord_bad {s : State} {t : TileId} {l : VLand} {i : Nat} {chk : Check} (hl : l.landed = false) (hc : l.w.carries = true)
    (h : chk = .double ∨ chk = .residue ∧ l.code = cMCVRES) : s.landVWord t chk l i = s.foundBad t l i := by
  unfold State.landVWord
  extract_lets land unit bad
  rw [if_neg (by rw [hl, hc]; decide)]
  rcases h with rfl | ⟨rfl, hr⟩
  · rfl
  · exact if_pos hr

theorem State.containUnit_tile (s : State) (t : TileId) (unit : Nat) (code : Byte) (a : Option (Nat × Word)) :
    (s.containUnit t unit code a).tile t = { s.tile t with cox := (s.containUnit t unit code a).cox t } ∧
      (s.containUnit t unit code a).crews = s.crews ∧
      ((s.tile t).live = true → ((s.containUnit t unit code a).cox t).pend.mc = some code) := by
  unfold State.containUnit State.chargeMc
  split
  · refine ⟨?_, rfl, fun _ => ?_⟩
    · rw [State.tile_modCox_same, State.cox_modCox_same]
      rfl
    · rw [State.cox_modCox_same]
  · next h => exact ⟨rfl, rfl, fun k => absurd k h⟩

theorem State.foundBad_spec (s : State) (t : TileId) (l : VLand) (i : Nat) :
    let b := s.foundBad t l i
    (b.tile t).v.v = (s.tile t).v.v ∧ (b.tile t).v.k = (s.tile t).v.k ∧ (b.tile t).v.vv = (s.tile t).v.vv ∧ (b.tile t).sp = (s.tile t).sp ∧
      b.crews = s.crews ∧ ((s.tile t).live = true → (b.cox t).pend.mc = some l.code) := by
  intro b
  obtain ⟨h1, h2, h3⟩ := s.containUnit_tile t (if l.code = cMCSRAM then 4 else (laneOf t).val) l.code none
  have hb : b.tile t = _ := State.tile_modTile_same ..
  obtain ⟨hr, -, -⟩ := Tile.vRetire_spec ((s.containUnit t (if l.code = cMCSRAM then 4 else (laneOf t).val) l.code none).tile t) { l with w := .none } i
  rw [State.cox, hb, hr, h1]
  exact ⟨rfl, rfl, rfl, rfl, h2, h3⟩

/-! ### What each result writes -/

theorem getLsbD_or_twoPow {w : Nat} (v : BitVec w) {i j : Nat} (hi : i < w) :
    (v ||| BitVec.ofNat w (2 ^ j)).getLsbD i = (v.getLsbD i || decide (i = j)) := by
  rw [BitVec.getLsbD_or, BitVec.getLsbD_ofNat, decide_eq_true hi, Bool.true_and, Nat.testBit_two_pow]
  simp only [eq_comm]

theorem VState.landV_spec (v : VState) (r : Fin 64) (mask : Lane) (lanes : Lanes) :
    (v.landV r mask lanes).k = v.k ∧ ∀ q : Fin 64,
      (∀ n : Fin 32, (v.landV r mask lanes).v[q][n] = if q = r ∧ mask.getLsbD n.val = true then lanes[n] else v.v[q][n]) ∧
      (v.landV r mask lanes).vv.getLsbD q.val = (v.vv.getLsbD q.val || decide (q = r ∧ mask ≠ 0)) := by
  by_cases hm : mask = 0
  · subst hm
    simp [VState.landV]
  · rw [VState.landV, if_neg hm]
    refine ⟨rfl, fun q => ⟨fun n => ?_, ?_⟩⟩
    · by_cases hq : q = r
      · subst hq
        simp
      · have hv : r.val ≠ q.val := fun k => hq (Fin.ext k.symm)
        simp [hq, Vector.getElem_set_ne _ _ hv]
    · rw [getLsbD_or_twoPow _ q.isLt]
      exact congrArg (v.vv.getLsbD q.val || ·) (decide_eq_decide.2 ⟨fun k => ⟨Fin.ext k, hm⟩, fun k => congrArg Fin.val k.1⟩)

theorem VState.landK_spec (v : VState) (r : Fin 64) (mask bits : Lane) :
    (v.landK r mask bits).v = v.v ∧ ∀ q : Fin 64,
      (∀ n : Fin 32, ((v.landK r mask bits).k[q]).getLsbD n.val =
        if q = r ∧ r ≠ 0 ∧ mask.getLsbD n.val = true then bits.getLsbD n.val else (v.k[q]).getLsbD n.val) ∧
      (v.landK r mask bits).kv.getLsbD q.val = (v.kv.getLsbD q.val || decide (q = r ∧ r ≠ 0 ∧ mask ≠ 0)) := by
  by_cases hm : mask = 0 ∨ r = 0
  · rw [VState.landK, if_pos hm]
    refine ⟨rfl, fun q => ⟨fun n => ?_, ?_⟩⟩
    · rcases hm with rfl | rfl <;> simp
    · rcases hm with rfl | rfl <;> simp
  · rw [VState.landK, if_neg hm]
    rw [not_or] at hm
    refine ⟨rfl, fun q => ⟨fun n => ?_, ?_⟩⟩
    · by_cases hq : q = r
      · subst hq
        have hn := decide_eq_true n.isLt
        simp only [Fin.getElem_fin, Vector.getElem_set_self, BitVec.getLsbD_or, BitVec.getLsbD_and, BitVec.getLsbD_not, hn, Bool.true_and]
        cases mask.getLsbD n.val <;> simp [hm.2]
      · have hv : r.val ≠ q.val := fun k => hq (Fin.ext k.symm)
        simp [hq, Vector.getElem_set_ne _ _ hv]
    · rw [getLsbD_or_twoPow _ q.isLt]
      exact congrArg (v.kv.getLsbD q.val || ·)
        (decide_eq_decide.2 ⟨fun k => ⟨Fin.ext k, hm.2, hm.1⟩, fun k => congrArg Fin.val k.1⟩)

theorem VState.landCsr_spec (v : VState) (n : Fin 4) (x : Lane) :
    (v.landCsr n x).vrb = (if n = 0 then x.setWidth 5 else v.vrb) ∧ (v.landCsr n x).krb = (if n = 1 then x.setWidth 5 else v.krb) ∧
    (v.landCsr n x).lc = (if n = 2 then x else v.lc) ∧ (v.landCsr n x).ec = (if n = 3 then x.setWidth 8 else v.ec) ∧
    (v.landCsr n x).v = v.v ∧ (v.landCsr n x).k = v.k := by
  fin_cases n <;> exact ⟨rfl, rfl, rfl, rfl, rfl, rfl⟩

/-- A rotation: the register that the new KRB names takes a value. -/
def VState.rotate (v : VState) (vrb krb : BitVec 5) (ones : Lane) : VState :=
  { v with vrb := vrb - 1, krb := krb - 1, k := v.k.set (physReg (krb - 1) 32) ones,
           kv := v.kv ||| BitVec.ofNat 64 (2 ^ (physReg (krb - 1) 32).val) }

theorem VState.rotate_spec (v : VState) (vrb krb : BitVec 5) (ones : Lane) :
    (v.rotate vrb krb ones).kv.getLsbD (physReg (krb - 1) 32).val = true ∧ (v.rotate vrb krb ones).k[physReg (krb - 1) 32] = ones ∧
      ∀ q, q ≠ physReg (krb - 1) 32 → (v.rotate vrb krb ones).k[q] = v.k[q] := by
  refine ⟨?_, ?_, fun q hq => ?_⟩
  · rw [VState.rotate, getLsbD_or_twoPow _ (physReg (krb - 1) 32).isLt, decide_eq_true rfl, Bool.or_true]
  · simp [VState.rotate]
  · have hv : (physReg (krb - 1) 32).val ≠ q.val := fun k => hq (Fin.ext k.symm)
    exact Vector.getElem_set_ne (physReg (krb - 1) 32).isLt _ hv

theorem VState.loop_eq (v : VState) (vrb krb : BitVec 5) (lc : Lane) (ec : BitVec 8) :
    v.loop vrb krb lc ec = if lc ≠ 0 ∨ ec ≠ 0 then
      { v with lc := if lc ≠ 0 then lc - 1 else v.lc, ec := if lc = 0 then ec - 1 else v.ec }.rotate vrb krb (if lc ≠ 0 then BitVec.allOnes 32 else 0)
      else v := by
  unfold VState.loop
  by_cases hl : lc = 0
  · by_cases he : ec = 0
    · subst hl he
      rfl
    · by_cases h1 : ec = 1
      · subst hl h1
        rfl
      · have h2 : 1 < ec.toNat := by
          have h0 : ec.toNat ≠ 0 := fun k => he (BitVec.eq_of_toNat_eq k)
          have h1 : ec.toNat ≠ 1 := fun k => h1 (BitVec.eq_of_toNat_eq k)
          omega
        simp only [hl, he, ne_eq, not_true_eq_false, not_false_eq_true, or_true, if_true, if_false, h2]
        rfl
  · simp only [hl, ne_eq, not_false_eq_true, true_or, if_true, if_false]
    rfl

/-- R202: what `VLOOP` leaves. -/
theorem VState.loop_spec {v w : VState} {vrb krb : BitVec 5} {lc : Lane} {ec : BitVec 8}
    (hw : w = { v.loop vrb krb lc ec with flight := w.flight }) : w.v = v.v ∧
      let turns : Prop := lc ≠ 0 ∨ ec ≠ 0
      let k32 := physReg w.krb 32
      (turns → w.vrb = vrb - 1 ∧ w.krb = krb - 1 ∧ w.kv.getLsbD k32.val = true ∧
        w.k[k32] = (if lc ≠ 0 then BitVec.allOnes 32 else 0) ∧ ∀ q, q ≠ k32 → w.k[q] = v.k[q]) ∧
      (¬turns → w.vrb = v.vrb ∧ w.krb = v.krb ∧ w.k = v.k) ∧
      w.lc = (if lc ≠ 0 then lc - 1 else v.lc) ∧ w.ec = (if lc = 0 ∧ ec ≠ 0 then ec - 1 else v.ec) := by
  generalize w.flight = f at hw
  subst hw
  have hl := v.loop_eq vrb krb lc ec
  generalize v.loop vrb krb lc ec = z at hl
  by_cases ht : lc ≠ 0 ∨ ec ≠ 0
  · rw [if_pos ht] at hl
    subst hl
    obtain ⟨h1, h2, h3⟩ := VState.rotate_spec { v with lc := if lc ≠ 0 then lc - 1 else v.lc, ec := if lc = 0 then ec - 1 else v.ec }
      vrb krb (if lc ≠ 0 then BitVec.allOnes 32 else 0)
    refine ⟨rfl, fun _ => ⟨rfl, rfl, h1, h2, h3⟩, fun k => absurd ht k, rfl, if_congr ⟨fun k => ⟨k, ?_⟩, fun k => k.1⟩ rfl rfl⟩
    exact ht.resolve_left (not_not.2 k)
  · rw [if_neg ht] at hl
    subst hl
    rw [not_or, not_not, not_not] at ht
    obtain ⟨rfl, rfl⟩ := ht
    exact ⟨rfl, fun k => absurd k (by decide), fun _ => ⟨rfl, rfl, rfl⟩, rfl, rfl⟩

/-- R169: the bytes that a masked write touches. -/
theorem Memory.get_writeMasked_outside (bs : List (Nat × Byte × Byte)) (m : Memory) (a : Nat) (h : ∀ b ∈ bs, b.1 ≠ a) :
    (m.writeMasked bs).get a = m.get a := by
  induction bs generalizing m with
  | nil => rfl
  | cons b bs ih =>
    rw [Memory.writeMasked, ih _ fun c hc => h c (List.mem_cons_of_mem _ hc), Memory.get_put_ne _ _ _ _ (h b List.mem_cons_self).symm]

theorem getLsbD_mergeBits (old b mask : Byte) (n : Fin 8) :
    (mergeBits old b mask).getLsbD n.val = if mask.getLsbD n.val then b.getLsbD n.val else old.getLsbD n.val := by
  have hn := decide_eq_true n.isLt
  rw [mergeBits, BitVec.getLsbD_or, BitVec.getLsbD_and, BitVec.getLsbD_and, BitVec.getLsbD_not, hn, Bool.true_and]
  cases mask.getLsbD n.val <;> simp

theorem Memory.get_writeMasked_inside (bs : List (Nat × Byte × Byte)) (m : Memory) (h : (bs.map Prod.fst).Nodup) :
    ∀ b ∈ bs, (m.writeMasked bs).get b.1 = mergeBits (m.get b.1) b.2.1 b.2.2 := by
  induction bs generalizing m with
  | nil => exact nofun
  | cons c bs ih =>
    rw [List.map_cons, List.nodup_cons] at h
    obtain ⟨hc, hd⟩ := h
    intro b hb
    rw [Memory.writeMasked]
    rcases List.mem_cons.1 hb with rfl | hb
    · rw [Memory.get_writeMasked_outside _ _ _ fun e he k => hc (List.mem_map.2 ⟨e, he, k⟩), Memory.get_put_same]
    · have hne : b.1 ≠ c.1 := fun k => hc (k ▸ List.mem_map_of_mem hb)
      rw [ih _ hd b hb, Memory.get_put_ne _ _ _ _ hne]

/-- R198: the cells of a bank that take lanes. -/
theorem Crew.landAcc_bank (c : Crew) (b : Fin 32) {row col : Nat} (hcol : col ≤ 96) (mask : Lane) (lanes : Lanes) (add : Bool) :
    (∀ (r n : Nat), n < 128 → ((c.landAcc b.val row col mask lanes add).bank b).cell r n =
      if r = row ∧ col ≤ n ∧ n < col + 32 ∧ mask.getLsbD (n - col) = true then
        (let v := lanes[Fin.ofNat 32 (n - col)]
         if add then BitVec.ofNat 32 (fp32AddRne ((c.bank b).cell r n).toNat v.toNat) else v)
      else (c.bank b).cell r n) ∧
    ∀ m, m ≠ b → (c.landAcc b.val row col mask lanes add).bank m = c.bank m := by
  refine ⟨fun r n hn => ?_, fun m hm => ?_⟩
  · rw [Crew.landAcc, Fin.ofNat_val_eq_self, Crew.bank_modBank_same]
    have h := Bank.cell_foldl_setCell (fun l => mask.getLsbD l) (fun y l => BitVec.ofNat 32 (if add then
      fp32AddRne (y.cell row (col + l)).toNat (laneAt lanes l).toNat else (laneAt lanes l).toNat)) (c.bank b) 32 (by omega)
      (row := row) (col := col) (fun y l hy => by simp only [hy]) (r := r) hn
    refine h.trans (if_ctx_congr Iff.rfl (fun hk => ?_) fun _ => rfl)
    obtain ⟨rfl, hc, -, -⟩ := hk
    rw [Nat.add_sub_cancel' hc]
    cases add
    · exact BitVec.ofNat_toNat .. ▸ BitVec.setWidth_eq _
    · rfl
  · rw [Crew.landAcc, Fin.ofNat_val_eq_self]
    exact Crew.bank_modBank_ne c hm _

theorem execVWriteLand_eq {s : State} {t : TileId} {l : VLand} {i : Nat} (hp : s.phase = .ending)
    (h : (s.tile t).vLanding? s.gtime false = some (l, i)) (chk : Check) : exec (.vWriteLand t chk) s = .next (s.landVWord t chk l i) := by
  have hx : exec (.vWriteLand t chk) s = _ := execVWriteLand.eq_def t chk s
  rw [hx, h]
  exact if_pos hp

theorem execPortPushLand_eq {s : State} {p : PushLand} {l : VLand} {i : Nat} (hp : s.phase = .ending)
    (h : (s.tile p.tile).vLanding? s.gtime true = some (l, i)) : exec (.portPushLand p) s = .next (s.landVWord p.tile p.chk l i) := by
  have hx : exec (.portPushLand p) s = _ := execPortPushLand.eq_def p s
  rw [hx, h]
  exact if_pos hp

/-- Settles O32. -/
theorem vectorResultsLand : Obligations.VectorResultsLand := by
  refine ⟨fun s t l i hp h => ?_, fun s t l i p bytes ovf unf hp h hw => ⟨fun chk hk hl => ?_, ?_⟩⟩
  · have hx := execVWriteLand_eq hp h
    obtain ⟨hy, hroom, hfull⟩ := s.landed_tile t l i
    refine ⟨_, (hx .good).trans (congrArg _ (s.landVWord_good t l i)), hroom, hfull, fun r mask lanes hw => ?_, fun r mask bits hw => ?_,
      fun n v hw => ?_, fun vrb krb lc ec hw => ?_, fun b row col mask lanes add hw hr hc => ?_, fun hl hn hloop chk hk => ?_⟩
    · have hz : s.landVWrite t l.w = s.modTile t fun x => { x with v := x.v.landV r mask lanes } := by rw [hw]; rfl
      obtain ⟨hk, hv⟩ := (s.tile t).v.landV_spec r mask lanes
      rw [hz, State.tile_modTile_same] at hy
      rw [hy]
      exact ⟨State.landed_only i (by rw [hz]; exact onlyTile_modTile s t _), hk, hv⟩
    · have hz : s.landVWrite t l.w = s.modTile t fun x => { x with v := x.v.landK r mask bits } := by rw [hw]; rfl
      obtain ⟨hv, hk⟩ := (s.tile t).v.landK_spec r mask bits
      rw [hz, State.tile_modTile_same] at hy
      rw [hy]
      exact ⟨State.landed_only i (by rw [hz]; exact onlyTile_modTile s t _), hv, hk⟩
    · have hz : s.landVWrite t l.w = s.modTile t fun x => { x with v := x.v.landCsr n v } := by rw [hw]; rfl
      rw [hz, State.tile_modTile_same] at hy
      rw [hy]
      exact ⟨State.landed_only i (by rw [hz]; exact onlyTile_modTile s t _), (s.tile t).v.landCsr_spec n v⟩
    · have hz : s.landVWrite t l.w = s.modTile t fun x => { x with v := x.v.loop vrb krb lc ec } := by rw [hw]; rfl
      rw [hz, State.tile_modTile_same] at hy
      exact ⟨State.landed_only i (by rw [hz]; exact onlyTile_modTile s t _), VState.loop_spec (congrArg Tile.v hy)⟩
    · have hz : s.landVWrite t l.w = s.modCrew (crewOf t) fun c => c.landAcc b.val row col mask lanes add := by rw [hw]; rfl
      obtain ⟨h1, h2⟩ := (s.crew (crewOf t)).landAcc_bank b (row := row) hc mask lanes add
      rw [hz] at hy
      rw [hy, State.crew_of_crews (State.landed_crews ..), hz, State.crew_modCrew_same]
      exact ⟨fun r c => h1 r.val c.val c.isLt, h2, rfl, rfl⟩
    · obtain ⟨h1, h2, h3, -, h5, h6⟩ := s.foundBad_spec t l i
      exact ⟨_, (hx chk).trans (congrArg _ (State.landVWord_bad hl (VWrite.carries_of hn hloop) hk)), h1, h2, h3, h5, h6⟩
  · obtain ⟨-, -, -, h4, -, h6⟩ := s.foundBad_spec t l i
    exact ⟨_, (execPortPushLand_eq (p := ⟨t, chk⟩) hp h).trans (congrArg _ (State.landVWord_bad hl (by rw [hw]; rfl) hk)), h4, h6⟩
  · obtain ⟨due, seq, code, push, landed, w⟩ := l
    obtain rfl : w = .push p bytes ovf unf := hw
    obtain ⟨hy, hroom, -⟩ := s.landed_tile t ⟨due, seq, code, push, landed, .push p bytes ovf unf⟩ i
    have hz : s.landVWrite t (.push p bytes ovf unf) = (s.modTile t fun x => { x with sp := x.sp.writeMasked bytes }.modPort (outPort p) fun q =>
        { q with ovf := q.ovf || ovf, unf := q.unf || unf }).wroteSp t bytes := rfl
    refine ⟨_, (execPortPushLand_eq (p := ⟨t, .good⟩) hp h).trans (congrArg _ (s.landVWord_good ..)), ?_, fun v hv => ?_, ?_⟩
    · exact congrArg (fun d => { s.landed t ⟨due, seq, code, push, landed, .push p bytes ovf unf⟩ i with dev := d })
        (s.dev.wrote_eq (.sp t) ((bytes.filter fun b => b.2.2 == 0xFF).map Prod.fst))
    · rw [State.landed, State.tile_modTile_ne _ _ _ _ hv, hz, State.tile_wroteSp, State.tile_modTile_ne _ _ _ _ hv]
    · rw [hz, State.tile_wroteSp, State.tile_modTile_same] at hy
      rw [hy]
      refine ⟨fun a ha => Memory.get_writeMasked_outside _ _ _ ha, fun hd b hb n => ?_, ?_, ?_, rfl, rfl, rfl, fun hr => (hroom hr).1⟩
      · rw [← getLsbD_mergeBits, ← Memory.get_writeMasked_inside _ _ hd b hb]
        rfl
      · exact congrArg Port.ovf (Tile.port_modPort_same _ (outPort p) fun q => { q with ovf := q.ovf || ovf, unf := q.unf || unf })
      · exact congrArg Port.unf (Tile.port_modPort_same _ (outPort p) fun q => { q with ovf := q.ovf || ovf, unf := q.unf || unf })

end Sys2Proof.Machine
end

section
/-! ## Command words of the L and S streams (R124, R125, R127, R128, R145) -/

namespace Sys2Proof.Machine

open Sys2Proof

/-- R125: the time that a command's field names. -/
theorem timeNear_nearest (now : Nat) (f : BitVec 32) :
    (2 ^ 32 : Int) ∣ timeNear now f - f.toNat ∧ (now : Int) - 2 ^ 31 ≤ timeNear now f ∧ timeNear now f < now + 2 ^ 31 :=
  timeOf_nearest now f.toNat f.isLt

section
variable {s : State} {t : TileId} {e : Eng} {tok : Tok}

/-- R124: a command that issues enters the time buffer as it stands at its issue. -/
theorem State.issueCmd_new (r : CmdRuns s t e tok) (i : Instr) (at' until' : Int) (ends : Bool) :
    s.issueCmd i tok at' until' ends = s.modTile t fun x =>
      ((x.popToken e tok.pop).modEng e fun g => { (if ends then g.issueEnd else g.issue) with nextIssue := s.gtime + 1 }).addCmd
        (s.newCmd i tok at' until' (0, 0, 0)) := by
  have h : (s.tile t).cmdRoom e tok = true := by
    have h1 : ((s.tile t).portage.buffer.any fun c => c.stream == e && isCwait c.instr) = false :=
      List.any_eq_false.2 fun c hc => by
        by_cases hs : c.stream = e <;> simp [hs, r.noWait c hc]
    simp only [Tile.cmdRoom, Tile.bufferRoom, h1, r.token, decide_eq_true r.buffered]
    rfl
  have hx := State.unissued_fresh r.unissued
  simp only [State.issueCmd, State.curTile_eng r.atWork, State.curEng_eng r.atWork, State.unissued_buffer r.fresh, hx.1, hx.2,
    h, Bool.false_eq_true, or_self, Bool.true_eq_false, if_false]

/-- The tile after a command has issued. -/
def cmdIssued (x : Tile) (now : Nat) (e : Eng) (tok : Tok) (ends : Bool) (c : PCmd) : Tile :=
  ((x.popToken e tok.pop).modEng e fun g => { (if ends then g.issueEnd else g.issue) with nextIssue := now + 1 }).addCmd c

theorem Tile.eng_addCmd (x : Tile) (c : PCmd) (f : Eng) : (x.addCmd c).eng f = x.eng f := rfl

theorem cmdIssued_spec (x : Tile) (now : Nat) (e : Eng) (tok : Tok) (ends : Bool) (c : PCmd) :
    let y := cmdIssued x now e tok ends c
    y.portage = { x.portage with buffer := x.portage.buffer ++ [c], nextId := x.portage.nextId + 1 } ∧
    y.tokens = (x.popToken e tok.pop).tokens ∧
    y.eng e = { (if ends then (x.eng e).issueEnd else (x.eng e).issue) with nextIssue := now + 1 } ∧
    (∀ f, f ≠ e → y.eng f = x.eng f) ∧ y = { x with portage := y.portage, tokens := y.tokens, engines := y.engines } := by
  have he (f : Eng) : ({ x with tokens := (x.popToken e tok.pop).tokens } : Tile).eng f = x.eng f := rfl
  unfold cmdIssued
  rw [Tile.popToken_same]
  refine ⟨rfl, rfl, ?_, fun f hf => ?_, rfl⟩
  · rw [Tile.eng_addCmd, Tile.eng_modEng_same]
    rfl
  · rw [Tile.eng_addCmd, Tile.eng_modEng_ne _ e f _ hf]
    rfl
end

/-- Settles O33: every command word issues by `State.issueCmd_new`, with its own times. -/
theorem commandWords : Obligations.CommandWords := by
  intro s t e tok r x g near time issues now
  have key (i : Instr) (start wait : Int → Prop) (ends : Bool) (at' until' : Int)
      (hx : exec i s = .next (s.issueCmd i tok at' until' ends)) (hs : start at') (hw : wait until') : issues i start wait ends := by
    obtain ⟨h1, h2, h3, h4, h5⟩ := cmdIssued_spec (s.tile t) s.gtime e tok ends (s.newCmd i tok at' until' (0, 0, 0))
    have hu : (s.issueCmd i tok at' until' ends).tile t = cmdIssued (s.tile t) s.gtime e tok ends (s.newCmd i tok at' until' (0, 0, 0)) := by
      rw [State.issueCmd_new r, State.tile_modTile_same]
      rfl
    refine ⟨_, s.newCmd i tok at' until' (0, 0, 0), hx, ?_, ?_⟩
    · rw [State.issueCmd_new r]
      exact onlyTile_modTile s t _
    · intro y
      have ht := State.curTile_eng r.atWork
      have hc := State.curEng_eng r.atWork
      rw [show y = _ from hu]
      refine ⟨congrArg Portage.buffer h1, rfl, hc, rfl, ?_, hs, hw, rfl, rfl, rfl, ?_, ?_, congrArg Portage.nextId h1, fun n hn => ?_,
        fun a b => ?_, congrArg Engine.nextIssue h3, fun hf hb => ?_, fun hf n hn => ?_, h5, h4⟩
      · simp only [State.newCmd, ht, hc]
        rfl
      · simp only [State.newCmd, ht]
        rfl
      · simp only [State.newCmd, ht, hc]
        rfl
      · have hn' : ((s.tile t).eng e).cur? = some n := hn
        simp only [State.newCmd, ht, hc, hn']
        exact ⟨rfl, rfl⟩
      · rw [← Tile.token_popToken, Tile.token, h2]
        rfl
      · subst hf
        exact (congrArg Engine.index h3).trans (Engine.issue_index _ hb)
      · subst hf
        rw [h3]
        exact Engine.issueEnd_spec.2 n hn
  have htime (f : Option (BitVec 32)) : time f (s.startTime f) := by
    cases f with
    | none => rfl
    | some f => exact timeNear_nearest s.gtime f
  refine ⟨fun f => key _ _ (· = 0) _ _ 0 rfl (htime f) rfl, fun o ho => ⟨fun i hi => ?_, ?_, fun d n hn => ?_⟩, fun o ho => ⟨?_, ?_⟩, fun f => ?_, ?_⟩
  · subst ho
    fin_cases hi <;> exact key _ _ (· = 0) _ _ 0 rfl (htime _) rfl
  · subst ho
    exact key _ now (· = 0) _ _ 0 rfl rfl rfl
  · subst ho
    refine key _ _ (· = 0) _ _ 0 rfl ?_ rfl
    rw [State.curTile_eng r.atWork, State.curEng_eng r.atWork, show ((s.tile t).eng e).cur? = some n from hn]
    exact timeNear_nearest ..
  · subst ho
    exact key _ now (· = 0) _ _ 0 rfl rfl rfl
  · subst ho
    exact key _ now (· = 0) _ _ 0 rfl rfl rfl
  · exact key _ now (near f) _ _ _ rfl rfl (timeNear_nearest ..)
  · exact key _ now (· = 0) _ _ 0 rfl rfl rfl

end Sys2Proof.Machine
end

section
/-! ## The M words (R217 to R221, R223, R224) -/

namespace Sys2Proof.Machine

open Sys2Proof

/-! ### Slots and banks of a crew under a list of changes -/

theorem Crew.slot_modSlot_same (c : Crew) (n : Fin 32) (f : Slot → Slot) : (c.modSlot n f).slot n = f (c.slot n) := by
  simp [Crew.slot, Crew.modSlot]

theorem Crew.slot_modSlot_ne (c : Crew) {n m : Fin 32} (h : m ≠ n) (f : Slot → Slot) : (c.modSlot n f).slot m = c.slot m := by
  have hv : n.val ≠ m.val := fun k => h (Fin.ext k.symm)
  simp [Crew.slot, Crew.modSlot, Vector.getElem_set_ne _ _ hv]

/-- How often a list names slot or bank `n`. -/
def namedTimes (l : List Nat) (n : Fin 32) : Nat := (l.filter fun m => m % 32 = n.val).length

theorem namedTimes_cons_same {l : List Nat} {m : Nat} {n : Fin 32} (h : n = Fin.ofNat 32 m) : namedTimes (m :: l) n = namedTimes l n + 1 := by
  subst h
  simp [namedTimes]

theorem namedTimes_cons_ne {l : List Nat} {m : Nat} {n : Fin 32} (h : n ≠ Fin.ofNat 32 m) : namedTimes (m :: l) n = namedTimes l n := by
  have hv : ¬m % 32 = n.val := fun k => h (Fin.ext k.symm)
  simp [namedTimes, hv]

theorem Crew.slot_foldl_modSlot (f : Slot → Slot) (l : List Nat) (c : Crew) (n : Fin 32) :
    (l.foldl (fun c m => c.modSlot (Fin.ofNat 32 m) f) c).slot n = f^[namedTimes l n] (c.slot n) := by
  induction l generalizing c with
  | nil => rfl
  | cons m l ih =>
    rw [List.foldl_cons, ih]
    by_cases h : n = Fin.ofNat 32 m
    · rw [namedTimes_cons_same h, Function.iterate_succ_apply, h, Crew.slot_modSlot_same]
    · rw [namedTimes_cons_ne h, Crew.slot_modSlot_ne c h]

theorem Crew.bank_foldl_modBank (f : Bank → Bank) (l : List Nat) (c : Crew) (n : Fin 32) :
    (l.foldl (fun c m => c.modBank (Fin.ofNat 32 m) f) c).bank n = f^[namedTimes l n] (c.bank n) := by
  induction l generalizing c with
  | nil => rfl
  | cons m l ih =>
    rw [List.foldl_cons, ih]
    by_cases h : n = Fin.ofNat 32 m
    · rw [namedTimes_cons_same h, Function.iterate_succ_apply, h, Crew.bank_modBank_same]
    · rw [namedTimes_cons_ne h, Crew.bank_modBank_ne c h]

/-- What changes of slots leave of a crew. -/
theorem Crew.foldl_modSlot_same (f : Slot → Slot) (l : List Nat) (c : Crew) :
    l.foldl (fun c m => c.modSlot (Fin.ofNat 32 m) f) c = { c with slots := (l.foldl (fun c m => c.modSlot (Fin.ofNat 32 m) f) c).slots } := by
  induction l generalizing c with
  | nil => rfl
  | cons m l ih =>
    rw [List.foldl_cons]
    exact ih _

theorem Crew.foldl_modBank_same (f : Bank → Bank) (l : List Nat) (c : Crew) :
    l.foldl (fun c m => c.modBank (Fin.ofNat 32 m) f) c = { c with banks := (l.foldl (fun c m => c.modBank (Fin.ofNat 32 m) f) c).banks } := by
  induction l generalizing c with
  | nil => rfl
  | cons m l ih =>
    rw [List.foldl_cons]
    exact ih _

/-- An iterate of a change that does nothing the second time. -/
theorem iterate_idempotent {α : Type} {f : α → α} (hf : ∀ x, f (f x) = f x) (n : Nat) (x : α) : f^[n] x = if n = 0 then x else f x := by
  induction n with
  | zero => rfl
  | succ n ih =>
    rw [Function.iterate_succ_apply', ih, if_neg (Nat.succ_ne_zero n)]
    split
    · rfl
    · exact hf x

/-! ### A word issues -/

theorem Crew.slot_of_slots {c d : Crew} (h : d.slots = c.slots) (n : Fin 32) : d.slot n = c.slot n := by rw [Crew.slot, Crew.slot, h]
theorem Crew.bank_of_banks {c d : Crew} (h : d.banks = c.banks) (n : Fin 32) : d.bank n = c.bank n := by rw [Crew.bank, Crew.bank, h]

theorem Slot.iterate_readers (n : Nat) (k : Slot) : (fun k : Slot => { k with readers := k.readers + 1 })^[n] k = { k with readers := k.readers + n } := by
  induction n with
  | zero => rfl
  | succ n ih =>
    rw [Function.iterate_succ_apply', ih]
    rfl

/-- The command that a word becomes in the array. -/
def acceptedCmd (t : TileId) (now : Nat) (seq batch : BitVec 32) (window place : Nat) (w : MWord) (replayed : Bool) : ArrayCmd :=
  { due := if w.work ≠ .none then now + w.occ + 23 else now, tile := laneOf t, seq := seq, push := w.tok.push,
    readEnd := now + w.occ - 1, slots := w.slots, reading := !w.slots.isEmpty, touched := bankMask w.touched,
    landed := false, replayed := replayed, batch := batch, window := window, place := place, work := w.work,
    hollow := false }

/-- What the acceptance of a command leaves of its crew. -/
theorem Crew.accept_spec (c : Crew) (t : TileId) (now : Nat) (seq batch : BitVec 32) (window place : Nat) (w : MWord) (replayed : Bool) :
    let d := c.accept t now seq batch window place w replayed
    d.cmds = c.cmds ++ [acceptedCmd t now seq batch window place w replayed] ∧ d.turnWords = c.turnWords + 1 ∧ d.busyUntil = now + w.occ ∧
    (∀ n, d.bank n = if namedTimes w.touched n = 0 then c.bank n else if (c.bank n).st = .idle then { c.bank n with st := .busy } else c.bank n) ∧
    (∀ n, d.slot n = { c.slot n with readers := (c.slot n).readers + namedTimes w.slots n }) := by
  have h1 := Crew.foldl_modBank_same (fun k => if k.st = .idle then { k with st := .busy } else k) w.touched c
  have hb := Crew.bank_foldl_modBank (fun k => if k.st = .idle then { k with st := .busy } else k) w.touched c
  unfold Crew.accept
  generalize w.touched.foldl (fun c m => c.modBank (Fin.ofNat 32 m) fun k => if k.st = .idle then { k with st := .busy } else k) c = c1 at h1 hb
  have h2 := Crew.foldl_modSlot_same (fun k => { k with readers := k.readers + 1 }) w.slots c1
  have hs := Crew.slot_foldl_modSlot (fun k => { k with readers := k.readers + 1 }) w.slots c1
  extract_lets c2 c3 lands cmd d
  change c3 = _ at h2
  have hcmds : c3.cmds = c.cmds := by rw [h2, h1]
  have hwords : c3.turnWords = c.turnWords := by rw [h2, h1]
  have hbanks : c3.banks = c1.banks := by rw [h2]
  have hslots : c1.slots = c.slots := by rw [h1]
  refine ⟨congrArg (· ++ [cmd]) hcmds, congrArg (· + 1) hwords, rfl, fun n => ?_, fun n => ?_⟩
  · rw [show d.bank n = c1.bank n from Crew.bank_of_banks hbanks n, hb n, iterate_idempotent fun k => by by_cases h : k.st = .idle <;> simp [h]]
  · rw [show d.slot n = c3.slot n from rfl, show c3.slot n = _ from hs n, Slot.iterate_readers, Crew.slot_of_slots hslots n]

/-- Changes of other tiles. -/
theorem State.foldl_modTile_others (f : Tile → Tile) (l : List TileId) (s : State) {t : TileId} (h : t ∉ l) :
    let u := l.foldl (fun s u => s.modTile u f) s
    u.tile t = s.tile t ∧ u.crews = s.crews ∧ u.gtime = s.gtime := by
  induction l generalizing s with
  | nil => exact ⟨rfl, rfl, rfl⟩
  | cons v l ih =>
    rw [List.mem_cons, not_or] at h
    obtain ⟨h1, h2, h3⟩ := ih (s.modTile v f) h.2
    exact ⟨h1.trans (s.tile_modTile_ne v t f h.1), h2, h3⟩

theorem State.crew_modTile (s : State) (t : TileId) (f : Tile → Tile) (c : CrewId) : (s.modTile t f).crew c = s.crew c := rfl

theorem self_notMem_crewMates (t : TileId) : t ∉ crewMates t := by
  simp [crewMates]

/-- The matrix state of the tile whose word `w` has issued. -/
def MState.took (m : MState) (w : MWord) : MState :=
  (if w.opens then m else m.retain w.work w.occ).touch (bankMask w.touched) (if w.work = .none then 0 else 1)

/-- What the issue of an M word leaves of its crew and of its tile. -/
theorem State.issueM_spec (s : State) (t : TileId) (w : MWord) (f : MState → MState) :
    let u := s.issueM t w f
    let x := s.tile t
    u.crew (crewOf t) = (s.crew (crewOf t)).accept t s.gtime (x.eng .m).curSeq x.m.openNumber (x.m.windows + if w.opens then 1 else 0)
      x.m.retained w false ∧
    (u.tile t).m = f (x.m.took w) ∧ (u.tile t).tokens = (x.popToken .m w.tok.pop).tokens ∧
    (u.tile t).eng .m = { (x.eng .m).issue with nextIssue := s.gtime + w.occ } := by
  obtain ⟨h1, h2, h3⟩ := s.foldl_modTile_others (fun y => { y with m := y.m.breakWindow (bankMask w.touched) }) (crewMates t) (self_notMem_crewMates t)
  unfold State.issueM
  extract_lets x g banks s1 s2
  change s1.tile t = _ at h1
  change s1.crews = _ at h2
  change s1.gtime = _ at h3
  have hg : s2.gtime = s.gtime := h3
  have hc : s1.crew (crewOf t) = s.crew (crewOf t) := State.crew_of_crews h2 _
  have ht : s2.tile t = x := h1
  refine ⟨?_, ?_⟩
  · change s2.crew (crewOf t) = _
    rw [State.crew_modCrew_same, hc, h3]
  · rw [State.tile_modTile_same, ht, hg, Tile.popToken_same]
    exact ⟨rfl, rfl, Tile.eng_modEng_same x .m fun g => { g.issue with nextIssue := s.gtime + w.occ }⟩

/-! ### The open batch -/

theorem MState.touch_same (m : MState) (banks : BitVec 32) (lands : Nat) : m.touch banks lands = { m with batches := (m.touch banks lands).batches } := by
  unfold MState.touch
  split
  · split <;> rfl
  · rfl

theorem MState.retain_same (m : MState) (w : ArrayWork) (occ : Nat) : m.retain w occ = { m with window := (m.retain w occ).window } := rfl

/-- A command joins the open batch, the last. -/
theorem MState.touch_open (m : MState) (banks : BitVec 32) (lands : Nat) :
    ∃ b, (m.touch banks lands).batches.getLast? = some b ∧ b.closed = false ∧ b.touched &&& banks = banks := by
  unfold MState.touch
  split
  case h_1 b hb =>
    split
    · exact ⟨_, List.getLast?_concat, rfl, BitVec.and_self⟩
    next hclosed =>
      refine ⟨_, List.getLast?_concat, by simpa using hclosed, ?_⟩
      ext i
      simp
      grind
  · exact ⟨_, rfl, rfl, BitVec.and_self⟩

theorem MState.touch_empty (m : MState) (banks : BitVec 32) (lands : Nat) (h : m.batches = []) :
    (m.touch banks lands).batches = [⟨m.bclosed + 1, false, banks, lands, 0, none⟩] := by
  simp [MState.touch, h]

/-- What a word that issues leaves of its tile's matrix state but for what it sets itself. -/
theorem MState.took_same (m : MState) (w : MWord) : m.took w = { m with batches := (m.took w).batches, window := (m.took w).window } := by
  rw [MState.took, MState.touch_same]
  split <;> rfl

/-! ### Masks of R218 -/

theorem getLsbD_rangeMask (lo hi : Nat) (i : Fin 128) :
    (rangeMask lo hi).getLsbD i.val = decide (lo ≤ i.val ∧ i.val < hi) := by
  have hi' : i.val < 128 := i.isLt
  rw [rangeMask, BitVec.getLsbD_ofNat]
  by_cases h : lo ≤ hi
  · have hpow : 2 ^ hi - 2 ^ lo = (2 ^ (hi - lo) - 1) * 2 ^ lo := by
      rw [Nat.sub_mul, ← Nat.pow_add, Nat.sub_add_cancel h, Nat.one_mul]
    rw [hpow, Nat.testBit_mul_two_pow, Nat.testBit_two_pow_sub_one]
    simp only [hi', decide_true, Bool.true_and]
    grind
  · have hpow : 2 ^ hi - 2 ^ lo = 0 := Nat.sub_eq_zero_of_le (Nat.pow_le_pow_right (by decide) (by omega))
    rw [hpow, Nat.zero_testBit, Bool.and_false]
    exact (decide_eq_false (by omega)).symm

/-- Bit `i` of 32 bits that stand from bit `32 * q` on. -/
theorem testBit_quarter {n q i : Nat} (h : n < 2 ^ 32) : (n * 2 ^ (32 * q)).testBit i = (decide (i / 32 = q) && n.testBit (i % 32)) := by
  rw [Nat.testBit_mul_two_pow]
  by_cases hq : i / 32 = q
  · have h1 : i - 32 * q = i % 32 := by omega
    have h2 : 32 * q ≤ i := by omega
    simp [hq, h1, h2]
  · by_cases hle : 32 * q ≤ i
    · have h1 : n < 2 ^ (i - 32 * q) := h.trans_le (Nat.pow_le_pow_right (by decide) (by omega))
      simp [hq, Nat.testBit_lt_two_pow h1]
    · simp [hq, hle]

theorem getLsbD_setQuarter (m : BitVec 128) (q : Fin 4) (b : BitVec 32) (i : Fin 128) :
    (setQuarter m q.val b).getLsbD i.val = if i.val / 32 = q.val then b.getLsbD (i.val % 32) else m.getLsbD i.val := by
  have hones : (0xFFFFFFFF : Nat).testBit (i.val % 32) = true := by
    have := Nat.testBit_two_pow_sub_one 32 (i.val % 32)
    simpa [Nat.mod_lt] using this
  simp only [setQuarter, BitVec.getLsbD_or, BitVec.getLsbD_and, BitVec.getLsbD_not, BitVec.getLsbD_ofNat, i.isLt, decide_true,
    Bool.true_and, testBit_quarter (show 0xFFFFFFFF < 2 ^ 32 by decide), testBit_quarter b.isLt, hones, BitVec.testBit_toNat]
  by_cases h : i.val / 32 = q.val <;> simp [h]

theorem mfmtOk_iff (opb : Bool) (f : BitVec 32) :
    mfmtOk opb f = true ↔ fmtWf f = true ∧ (2 ≤ fmtKind f ∧ fmtKind f ≤ 7 ∨ opb = true ∧ (fmtKind f = 8 ∨ fmtKind f = 9)) := by
  simp [mfmtOk]

/-- What a word that sets matrix state through `f` leaves once it runs: R218's words. -/
theorem State.runM_sets {s : State} {t : TileId} {tok : Tok} (r : MRuns s t tok) {i : Instr} {p : MState → Prop} {f : MState → MState}
    (hi : exec i s = .next (s.runM false { tok := tok } f))
    (hf : ∀ bs win, let m := (s.tile t).m
      let n := f { m with batches := bs, window := win }
      p n ∧ n = { m with mrow := n.mrow, mcol := n.mcol, fmta := n.fmta, fmtb := n.fmtb, sa := n.sa, sb := n.sb, batches := bs, window := win }) :
    let m := (s.tile t).m
    ∃ u, exec i s = .next u ∧
      let n := (u.tile t).m
      p n ∧ n = { m with mrow := n.mrow, mcol := n.mcol, fmta := n.fmta, fmtb := n.fmtb, sa := n.sa, sb := n.sb,
                         batches := n.batches, window := n.window } ∧
      (∃ b ∈ n.batches, b.closed = false) ∧ ((u.tile t).eng .m).nextIssue = s.gtime + 1 ∧
      (∀ a b, (u.tile t).token a b = if tok.pop = some a ∧ b = .m then (s.tile t).token a b - 1 else (s.tile t).token a b) ∧
      (u.crew (crewOf t)).turnWords = (s.crew (crewOf t)).turnWords + 1 ∧
      (u.crew (crewOf t)).slots = (s.crew (crewOf t)).slots ∧ (u.crew (crewOf t)).banks = (s.crew (crewOf t)).banks := by
  intro m
  obtain ⟨hcrew, hm, htokens, heng⟩ := s.issueM_spec t { tok := tok } f
  obtain ⟨b, hlast, hopen, -⟩ := MState.touch_open (m.retain .none 1) 0 0
  obtain ⟨hp, hn⟩ := hf (m.took { tok := tok }).batches (m.took { tok := tok }).window
  rw [← MState.took_same, ← hm] at hp hn
  have hbatches := congrArg MState.batches hn
  have hwindow := congrArg MState.window hn
  refine ⟨s.issueM t { tok := tok } f, hi.trans (congrArg _ (State.runM_plain r rfl rfl f)), ?_⟩
  intro n
  refine ⟨hp, hn.trans ?_, ⟨b, hbatches.symm ▸ List.mem_of_getLast? hlast, hopen⟩, by rw [heng], fun a c => ?_, by rw [hcrew]; rfl, by rw [hcrew]; rfl, by rw [hcrew]; rfl⟩
  · rw [← show n.batches = (m.took { tok := tok }).batches from hbatches,
      ← show n.window = (m.took { tok := tok }).window from hwindow]
  · rw [← Tile.token_popToken, Tile.token, Tile.token, htokens]

/-- R221: what `MCOMMIT` makes of the batches. -/
theorem MState.commit_spec (m : MState) (seq : BitVec 32) (push : Option Eng) :
    let n := m.commit seq push
    n = { m with bclosed := m.bclosed + 1, batches := n.batches } ∧ (∀ b ∈ n.batches, b.closed = true) ∧
    ∃ b, n.batches.getLast? = some b ∧ b.push = push ∧ b.seq = seq ∧
      (m.batches = [] → b.number = m.bclosed + 1 ∧ b.unlanded = 0 ∧ n.batches = [b]) := by
  obtain ⟨b, hlast, hopen, -⟩ := m.touch_open 0 0
  refine ⟨?_, fun b hb => ?_, { b with closed := true, seq := seq, push := push }, ?_, rfl, rfl, fun he => ?_⟩
  · unfold MState.commit
    rw [MState.touch_same]
  · obtain ⟨a, -, rfl⟩ := List.mem_map.1 hb
    split <;> simp_all
  · exact List.getLast?_map.trans (by rw [hlast]; simp [hopen])
  · have ht := m.touch_empty 0 0 he
    obtain rfl : _ = b := Option.some.inj ((congrArg List.getLast? ht).symm.trans hlast)
    exact ⟨rfl, rfl, congrArg (List.map _) ht⟩

/-- What a word's pop and its count at its engine leave of a tile. -/
theorem Tile.popToken_modEng (x : Tile) (e : Eng) (pop : Option Eng) (f : Engine → Engine) :
    ((x.popToken e pop).modEng e f).m = x.m ∧ ((x.popToken e pop).modEng e f).eng e = f (x.eng e) := by
  rw [Tile.popToken_same]
  exact ⟨rfl, Tile.eng_modEng_same x e f⟩

/-- Settles O37. -/
theorem matrixStateWords : Obligations.MatrixStateWords := by
  refine ⟨fun s t tok hr => ?_, fun s t tok hr => ?_⟩
  · intro m sets
    have key : ∀ {i : Instr} {p : MState → Prop} (f : MState → MState), exec i s = .next (s.runM false { tok := tok } f) →
        (∀ bs win, let n := f { m with batches := bs, window := win }
          p n ∧ n = { m with mrow := n.mrow, mcol := n.mcol, fmta := n.fmta, fmtb := n.fmtb, sa := n.sa, sb := n.sb, batches := bs, window := win }) →
        sets i p := fun _ hi hf => State.runM_sets hr hi hf
    clear_value sets
    refine ⟨fun lo hi => ⟨?_, ?_⟩, fun q b => ⟨?_, ?_⟩, fun opb f => ⟨fun hok => ?_, fun hok => ?_⟩, fun sa sb => ?_⟩
    · exact key _ rfl fun _ _ => ⟨⟨rfl, getLsbD_rangeMask _ _⟩, rfl⟩
    · exact key _ rfl fun _ _ => ⟨⟨rfl, getLsbD_rangeMask _ _⟩, rfl⟩
    · exact key _ rfl fun _ _ => ⟨⟨rfl, getLsbD_setQuarter _ q b⟩, rfl⟩
    · exact key _ rfl fun _ _ => ⟨⟨rfl, getLsbD_setQuarter _ q b⟩, rfl⟩
    · have hx : exec (.mfmt tok opb f) s = .next (s.runM false { tok := tok } fun m => if opb then { m with fmtb := f } else { m with fmta := f }) := by
        rw [show exec (.mfmt tok opb f) s = execMfmt tok opb f s from rfl, execMfmt, (mfmtOk_iff opb f).2 hok]
        rfl
      refine key _ hx fun _ _ => ?_
      cases opb <;> exact ⟨rfl, rfl⟩
    · have hbad : (!mfmtOk opb f) = true := by simpa using fun h => hok ((mfmtOk_iff opb f).1 h)
      exact congrArg Host.Outcome.next ((State.runM_runs (w := { tok := tok }) hr _ _).trans (if_pos hbad))
    · exact key _ rfl fun _ _ => ⟨rfl, rfl⟩
  · intro m g
    have hgo : ¬(s.mOpen t = false ∨ (s.tile t).canPop .m tok.pop = false) := by simp [State.mOpen, hr.held, hr.noReplay, hr.token, hr.free]
    have hcur := State.curTile_eng hr.atWork
    constructor
    · obtain ⟨hn, hclosed, hlast⟩ := (m.retain .none 1).commit_spec g.curSeq tok.push
      have hx : exec (.mcommit tok) s = _ := execMcommit.eq_def tok s
      rw [hcur] at hx
      refine ⟨_, hx.trans (if_neg hgo), ?_⟩
      intro n
      have hm : n = (m.retain .none 1).commit g.curSeq tok.push :=
        (congrArg Tile.m (State.tile_modTile_same ..)).trans (Tile.popToken_modEng { s.tile t with m := _ } .m tok.pop _).1
      rw [hm]
      refine ⟨by rw [hn]; rfl, by rw [hn]; rfl, hclosed, by rw [hn]; rfl, by rw [hn]; rfl, hlast, ?_, ?_, ?_⟩
      · rw [State.tile_modTile_same, (Tile.popToken_modEng _ .m tok.pop _).2]
        rfl
      · rw [State.crew_modTile, State.crew_modCrew_same]
      · rw [State.crew_modTile, State.crew_modCrew_same]
    · have hx : exec (.mend tok) s = _ := execMend.eq_def tok s
      rw [hcur] at hx
      refine ⟨_, hx.trans (if_neg hgo), ?_, ?_, ?_, fun n hn => ?_⟩
      · exact (congrArg Tile.m (State.tile_modTile_same ..)).trans (Tile.popToken_modEng _ .m tok.pop _).1
      · rw [State.crew_modTile, State.crew_modCrew_same]
      · rw [State.crew_modTile, State.crew_modCrew_same]
      · rw [State.tile_modTile_same, (Tile.popToken_modEng _ .m tok.pop _).2]
        exact Engine.issueEnd_spec.2 n hn

/-! ### Commands -/

theorem getLsbD_foldl_or_twoPow (l : List Nat) (v : BitVec 32) (i : Fin 32) :
    (l.foldl (fun m b => m ||| BitVec.ofNat 32 (2 ^ b)) v).getLsbD i.val = (v.getLsbD i.val || decide (i.val ∈ l)) := by
  induction l generalizing v with
  | nil => simp
  | cons b l ih =>
    rw [List.foldl_cons, ih, getLsbD_or_twoPow v i.isLt, Bool.or_assoc]
    simp

theorem getLsbD_bankMask (l : List Nat) (i : Fin 32) : (bankMask l).getLsbD i.val = decide (i.val ∈ l) :=
  (getLsbD_foldl_or_twoPow l 0 i).trans (by simp)

theorem namedTimes_eq_zero {l : List Nat} (h : ∀ m ∈ l, m < 32) (n : Fin 32) : namedTimes l n = 0 ↔ n.val ∉ l := by
  rw [namedTimes, List.length_eq_zero_iff, List.filter_eq_nil_iff]
  refine ⟨fun k hn => k _ hn (by simp [Nat.mod_eq_of_lt n.isLt]), fun k m hm => ?_⟩
  rw [Nat.mod_eq_of_lt (h m hm)]
  rintro hmn
  exact k (of_decide_eq_true hmn ▸ hm)

theorem namedTimes_of_lt {l : List Nat} (h : ∀ m ∈ l, m < 32) (n : Fin 32) : namedTimes l n = (l.filter fun k => k = n.val).length :=
  congrArg List.length (List.filter_congr fun m hm => by rw [Nat.mod_eq_of_lt (h m hm)])

/-- What a command that names banks or slots does once nothing holds it back: R224's checks, then its issue (R214, R219, R220). -/
theorem State.runM_command {s : State} {t : TileId} (w : MWord) (r : MRuns s t w.tok) {i : Instr} (f : MState → MState)
    (hi : exec i s = .next (s.runM false w f)) (hready : (s.crew (crewOf t)).unready w.slots = none) (hslots : ∀ n ∈ w.slots, n < 32)
    (hw : w.work ≠ .none) (hf : ∀ m, (f m).batches = m.batches) :
    let y := s.crew (crewOf t)
    let gone (b : Nat) : Bool := decide (32 ≤ b) || decide ((y.bank (Fin.ofNat 32 b)).st = .free) ||
      decide ((y.bank (Fin.ofNat 32 b)).st = .kept)
    (∀ b, w.touched.find? gone = some b → exec i s = .next (s.engFault t .m cACCUNALLOC 0 (BitVec.ofNat 64 b))) ∧
    (w.touched.any gone = false →
      w.touched.any (fun b => decide ((y.bank (Fin.ofNat 32 b)).st = .replay)) = true → exec i s = .next s) ∧
    (w.touched.any gone = false →
      w.touched.any (fun b => decide ((y.bank (Fin.ofNat 32 b)).st = .replay)) = false → ∃ u c, exec i s = .next u ∧
        (u.crew (crewOf t)).cmds = y.cmds ++ [c] ∧ c.work = w.work ∧ c.due = s.gtime + w.occ + 23 ∧
        c.readEnd = s.gtime + w.occ - 1 ∧ c.slots = w.slots ∧ c.tile = Machine.laneOf t ∧ c.push = w.tok.push ∧
        c.seq = ((s.tile t).eng .m).curSeq ∧ c.replayed = false ∧ c.landed = false ∧
        (u.crew (crewOf t)).busyUntil = s.gtime + w.occ ∧ ((u.tile t).eng .m).nextIssue = s.gtime + w.occ ∧
        (∀ n : Fin 32, ((u.crew (crewOf t)).bank n).cells = (y.bank n).cells ∧
          ((u.crew (crewOf t)).bank n).st = (if n.val ∈ w.touched ∧ (y.bank n).st = .idle then .busy else (y.bank n).st)) ∧
        (∀ n : Fin 32, ((u.crew (crewOf t)).slot n).readers = (y.slot n).readers + (w.slots.filter fun k => k = n.val).length) ∧
        ∃ b ∈ (u.tile t).m.batches, b.closed = false ∧ ∀ n ∈ w.touched, b.touched.getLsbD n = true) := by
  intro y gone
  have hun : ∀ {v}, w.touched.find? gone = v → y.unallocated w.touched = v := fun h => h
  have hx : exec i s = .next (match (none : Option Nat), y.unallocated w.touched with
        | some n, _ => s.engFault t .m cSLOTSTATE 0 (BitVec.ofNat 64 n)
        | none, some b => s.engFault t .m cACCUNALLOC 0 (BitVec.ofNat 64 b)
        | none, none => if y.replaying w.touched then s else s.issueM t w f) := by
    rw [hi, State.runM_runs r, hready]
    rfl
  refine ⟨fun b hb => ?_, fun hg hr => ?_, fun hg hr => ?_⟩
  · rw [hx, hun hb]
  · rw [hx, hun (List.find?_eq_none.2 (by simpa using hg))]
    exact congrArg _ (if_pos hr)
  · have hlt : ∀ b ∈ w.touched, b < 32 := fun b hb => by
      have := List.any_eq_false.1 hg b hb
      simp only [gone, Bool.or_eq_true, decide_eq_true_eq] at this
      omega
    obtain ⟨hcrew, hm, -, heng⟩ := s.issueM_spec t w f
    obtain ⟨hcmds, -, hbusy, hbanks, hreaders⟩ := y.accept_spec t s.gtime ((s.tile t).eng .m).curSeq (s.tile t).m.openNumber
      ((s.tile t).m.windows + if w.opens then 1 else 0) (s.tile t).m.retained w false
    obtain ⟨b, hlast, hopen, htouched⟩ := MState.touch_open (if w.opens then (s.tile t).m else (s.tile t).m.retain w.work w.occ)
      (bankMask w.touched) (if w.work = .none then 0 else 1)
    rw [← hcrew] at hcmds hbusy hbanks hreaders
    refine ⟨_, _, ?_, hcmds, rfl, if_pos hw, rfl, rfl, rfl, rfl, rfl, rfl, rfl, hbusy, by rw [heng], fun n => ?_, fun n => ?_, b, ?_, hopen, fun n hn => ?_⟩
    · rw [hx, hun (List.find?_eq_none.2 (by simpa using hg))]
      exact congrArg _ (if_neg (by rw [Crew.replaying, hr]; decide))
    · rw [hbanks n]
      simp only [namedTimes_eq_zero hlt n]
      grind
    · rw [hreaders n, namedTimes_of_lt hslots]
    · rw [hm, hf]
      exact List.mem_of_getLast? hlast
    · have := congrArg (fun v => v.getLsbD n) htouched
      simp only [BitVec.getLsbD_and, getLsbD_bankMask w.touched ⟨n, hlt n hn⟩, hn, decide_true, Bool.and_true] at this
      exact this

theorem touchedBanks_eq (bank : Nat) (mrow : BitVec 128) :
    touchedBanks bank mrow = ((List.range 4).filter fun q => decide (mrow.toNat / 2 ^ (32 * q) % 2 ^ 32 ≠ 0)).map fun q => bank + q := by
  simp [touchedBanks, bitsOf, Nat.shiftRight_eq_div_pow]

theorem Crew.unready_pair (c : Crew) (a b : Fin 32) :
    c.unready (if a = b then [a.val] else [a.val, b.val]) =
      if (c.slot a).st ≠ .ready then some a.val else if (c.slot b).st ≠ .ready then some b.val else none := by
  by_cases h : a = b <;> by_cases ha : (c.slot a).st = .ready <;> by_cases hb : (c.slot b).st = .ready <;>
    simp [Crew.unready, h, ha, hb]

/-- Settles O38. -/
theorem matrixCommands : Obligations.MatrixCommands := by
  intro s t tok hr m y stops gone runs block tcw
  have hcur := State.curTile_eng hr.atWork
  have key : ∀ {i : Instr} (w : MWord) (f : MState → MState), w.tok = tok → exec i s = .next (s.runM false w f) → y.unready w.slots = none →
      (∀ n ∈ w.slots, n < 32) → w.work ≠ .none → (∀ m, (f m).batches = m.batches) → runs i w.occ w.slots w.touched w.work := by
    rintro i w f rfl hi hready hslots hw hf
    exact State.runM_command w hr f hi hready hslots hw hf
  have hblock : ∀ f, fmtIsBlock f = true ↔ block f := fun f => by simp [fmtIsBlock, block, or_assoc]
  have htcw : ∀ f, (fmtKind f == 8 || fmtKind f == 9) = true ↔ tcw f := fun f => by simp [tcw]
  refine ⟨fun o ho => ?_, fun bank => ?_, fun bank n => ⟨?_, fun u hu hne => ?_⟩⟩
  · subst ho
    intro k chunk slots banks work gives
    have hgives : ∀ {i : Instr} {bad : Prop} (z tr tc : Bool) (c : Lane → Bool), exec i s = .next (s.runMul z tr tc c o) → (c m.fmtb = true ↔ bad) →
        gives i bad (work z tr tc) := by
      intro i bad z tr tc c hi hbad
      have hw : exec i s = .next (s.runM (c m.fmtb) (mulWord z tr tc o m y)) := hi.trans (by rw [State.runMul, hcur])
      have hunready : y.unready (mulWord z tr tc o m y).slots = _ := y.unready_pair o.sa o.sb
      refine ⟨fun hb => ?_, fun hb hsa => ?_, fun hb hsa hsb => ?_, fun hb hsa hsb => ?_⟩
      · rw [hbad.2 hb] at hw
        exact hw.trans (congrArg _ (State.runM_runs (w := mulWord z tr tc o m y) hr true id))
      all_goals rw [Bool.eq_false_iff.2 fun k => hb (hbad.1 k)] at hw
      · rw [if_pos hsa] at hunready
        refine hw.trans (congrArg _ ((State.runM_runs (w := mulWord z tr tc o m y) hr false id).trans ?_))
        rw [hunready]
        rfl
      · rw [if_neg (not_not.2 hsa), if_pos hsb] at hunready
        refine hw.trans (congrArg _ ((State.runM_runs (w := mulWord z tr tc o m y) hr false id).trans ?_))
        rw [hunready]
        rfl
      · rw [if_neg (not_not.2 hsa), if_neg (not_not.2 hsb)] at hunready
        have hlt : ∀ n ∈ slots, n < 32 := fun n hn => by
          simp only [slots] at hn
          split at hn <;> simp at hn <;> omega
        have hruns := key (mulWord z tr tc o m y) id rfl hw hunready hlt nofun fun _ => rfl
        rw [show (mulWord z tr tc o m y).touched = banks from touchedBanks_eq o.bank.val m.mrow] at hruns
        exact hruns
    exact ⟨hgives _ _ _ _ rfl (hblock _), hgives _ _ _ _ rfl (hblock _), hgives _ _ _ _ rfl (htcw _),
      hgives _ _ _ _ rfl (by rw [Bool.not_eq_true', ← htcw]; simp)⟩
  · refine touchedBanks_eq bank.val m.mrow ▸ key { tok := tok, touched := touchedBanks bank.val m.mrow, work := .zeroMasked bank.val m.mrow m.mcol } id rfl ?_ rfl nofun nofun fun _ => rfl
    rw [show exec (.macz tok bank) s = execMacz tok bank s from rfl, execMacz, hcur]
  · exact key { tok := tok, touched := numbersFrom bank.val (n.val + 1), work := .zeroBanks bank.val (n.val + 1), opens := true } _ rfl rfl rfl nofun nofun fun _ => rfl
  · have hx : exec (.mtile tok bank n) s = _ := congrArg Host.Outcome.next (State.runM_runs
      (w := { tok := tok, touched := numbersFrom bank.val (n.val + 1), work := .zeroBanks bank.val (n.val + 1), opens := true }) hr false
      fun m => { m with window := some ⟨bankMask (numbersFrom bank.val (n.val + 1)), [], true⟩, windows := m.windows + 1 })
    have hu' := Host.Outcome.next.inj (hu.symm.trans hx)
    rw [if_neg Bool.false_ne_true] at hu'
    cases hun : y.unallocated (numbersFrom bank.val (n.val + 1)) with
    | some b =>
      rw [show (s.crew (crewOf t)).unallocated _ = _ from hun] at hu'
      subst hu'
      exact absurd (congrArg (MState.batches ∘ Tile.m) (State.tile_modTile_same s t fun x => x.wordFault .m cACCUNALLOC 0 (BitVec.ofNat 64 b))) hne
    | none =>
      rw [show (s.crew (crewOf t)).unallocated _ = _ from hun] at hu'
      change u = ite _ _ _ at hu'
      split at hu'
      · exact absurd (by rw [hu']) hne
      · rw [hu', (s.issueM_spec t _ _).2.1]
        exact ⟨_, rfl, rfl, rfl, fun b hb hlt => (getLsbD_bankMask _ ⟨b, hlt⟩).trans (decide_eq_true hb)⟩

end Sys2Proof.Machine
end

section
/-! ## The writes of the array land; batches, replays and readers end (R212 to R215, R219 to R223, R357) -/

namespace Sys2Proof.Machine

open Sys2Proof

/-! ### The cells of a command -/

theorem mem_enabledCells (mrow mcol : BitVec 128) (i j : Nat) :
    (i, j) ∈ enabledCells mrow mcol ↔ (i < 128 ∧ mrow.getLsbD i = true) ∧ j < 128 ∧ mcol.getLsbD j = true := by
  simp [enabledCells]

theorem nodup_enabledCells (mrow mcol : BitVec 128) : (enabledCells mrow mcol).Nodup := by
  refine List.nodup_flatMap.2 ⟨fun m _ => ?_, ?_⟩
  · exact (List.nodup_range.filter _).map fun a b h => congrArg Prod.snd h
  · refine (List.nodup_range.filter _).imp fun {a b} hab => ?_
    intro p hp hq
    obtain ⟨x, -, rfl⟩ := List.mem_map.1 hp
    obtain ⟨y, -, hy⟩ := List.mem_map.1 hq
    exact hab (congrArg Prod.fst hy).symm

theorem Crew.cell_setCell (c : Crew) (bank : Nat) {m n : Nat} (hm : bank + m / 32 < 32) (hn : n < 128) (v : Lane) (q : Fin 32) {r j : Nat} (hr : r < 32)
    (hj : j < 128) : ((c.setCell bank m n v).bank q).cell r j = if bank ≤ q.val ∧ m = 32 * (q.val - bank) + r ∧ n = j then v else (c.bank q).cell r j := by
  unfold Crew.setCell
  by_cases hq : q = Fin.ofNat 32 (bank + m / 32)
  · have hv : q.val = bank + m / 32 := by rw [hq]; exact Nat.mod_eq_of_lt hm
    rw [← hq, Crew.bank_modBank_same, Bank.cell_setCell _ _ _ _ hn hj]
    exact if_congr (by omega) rfl rfl
  · have hv : q.val ≠ bank + m / 32 := fun k => hq (Fin.ext (k.trans (Nat.mod_eq_of_lt hm).symm))
    rw [Crew.bank_modBank_ne c hq, if_neg (by omega)]

/-- Cells that take new values, each from its own old one, once. -/
theorem Crew.cell_foldl_setCell (bank : Nat) (g : Lane → Nat → Nat → Lane) (l : List (Nat × Nat)) (hl : l.Nodup)
    (hlt : ∀ p ∈ l, bank + p.1 / 32 < 32 ∧ p.2 < 128) (c : Crew) (q : Fin 32) {r j : Nat} (hr : r < 32) (hj : j < 128) :
    ((l.foldl (fun c p => c.setCell bank p.1 p.2 (g ((c.bank (Fin.ofNat 32 (bank + p.1 / 32))).cell (p.1 % 32) p.2) p.1 p.2)) c).bank q).cell r j =
      if bank ≤ q.val ∧ (32 * (q.val - bank) + r, j) ∈ l then g ((c.bank q).cell r j) (32 * (q.val - bank) + r) j else (c.bank q).cell r j := by
  induction l generalizing c with
  | nil => simp
  | cons p l ih =>
    obtain ⟨hp, hl'⟩ := List.nodup_cons.1 hl
    obtain ⟨⟨h1, h2⟩, hlt'⟩ := List.forall_mem_cons.1 hlt
    rw [List.foldl_cons, ih hl' hlt', Crew.cell_setCell c bank h1 h2 _ q hr hj]
    by_cases hk : bank ≤ q.val ∧ p.1 = 32 * (q.val - bank) + r ∧ p.2 = j
    · obtain ⟨hq, hm, hn⟩ := hk
      have hpe : p = (32 * (q.val - bank) + r, j) := Prod.ext hm hn
      have hb : Fin.ofNat 32 (bank + p.1 / 32) = q := Fin.ext ((Nat.mod_eq_of_lt h1).trans (by omega))
      have hr' : p.1 % 32 = r := by omega
      have hmem : (32 * (q.val - bank) + r, j) ∉ l := hpe ▸ hp
      rw [if_neg (fun k => hmem k.2), if_pos ⟨hq, hm, hn⟩, if_pos ⟨hq, hpe ▸ List.mem_cons_self⟩, hb, hr', hm, hn]
    · rw [if_neg hk]
      refine if_congr (and_congr_right fun hq => ?_) rfl rfl
      rw [List.mem_cons, or_iff_right]
      rintro rfl
      exact hk ⟨hq, rfl, rfl⟩

/-! ### Banks that change together -/

theorem Crew.modBank_id (c : Crew) (n : Fin 32) : c.modBank n id = c := by
  unfold Crew.modBank
  simp

/-- Every bank changes by its number. -/
theorem Crew.bank_foldN (g : Nat → Bank → Bank) (c : Crew) (n : Fin 32) :
    (foldN 32 (fun k b => k.modBank (Fin.ofNat 32 b) (g b)) c).bank n = g n.val (c.bank n) := by
  have key : ∀ m ≤ 32, ((List.range m).foldl (fun k b => k.modBank (Fin.ofNat 32 b) (g b)) c).bank n = if n.val < m then g n.val (c.bank n) else c.bank n := by
    intro m hm
    induction m with
    | zero => rfl
    | succ m ih =>
      have ih := ih (by omega)
      rw [List.range_succ, List.foldl_append, List.foldl_cons, List.foldl_nil]
      by_cases h : n = Fin.ofNat 32 m
      · have hv : n.val = m := by rw [h]; exact Nat.mod_eq_of_lt (by omega)
        rw [← h, Crew.bank_modBank_same, ih, if_neg (by omega), if_pos (by omega), hv]
      · have hv : n.val ≠ m := fun k => h (Fin.ext (k.trans (Nat.mod_eq_of_lt (by omega)).symm))
        rw [Crew.bank_modBank_ne _ h, ih]
        exact if_congr (by omega) rfl rfl
  exact (key 32 (by omega)).trans (if_pos n.isLt)

theorem Crew.foldN_modBank_same (g : Nat → Bank → Bank) (c : Crew) :
    foldN 32 (fun k b => k.modBank (Fin.ofNat 32 b) (g b)) c = { c with banks := (foldN 32 (fun k b => k.modBank (Fin.ofNat 32 b) (g b)) c).banks } := by
  unfold foldN
  generalize List.range 32 = l
  induction l generalizing c with
  | nil => rfl
  | cons b l ih =>
    rw [List.foldl_cons]
    exact ih _

/-- R213: what the banks of a crew settle to. -/
theorem State.settleBanks_spec (s : State) (c : CrewId) :
    let u := s.settleBanks c
    u.tiles = s.tiles ∧ (u.crew c).cmds = (s.crew c).cmds ∧ (u.crew c).slots = (s.crew c).slots ∧
    ∀ n, (u.crew c).bank n = if ((s.crew c).bank n).st = .busy ∧ (s.touchedBy c).getLsbD n.val = false
      then { (s.crew c).bank n with st := ((s.crew c).bank n).resting } else (s.crew c).bank n := by
  intro u
  have hu : u.crew c = foldN 32 (fun k b => k.modBank (Fin.ofNat 32 b) fun x =>
      if x.st = .busy ∧ (s.touchedBy c).getLsbD b = false then { x with st := x.resting } else x) (s.crew c) := State.crew_modCrew_same ..
  refine ⟨rfl, ?_, ?_, fun n => ?_⟩
  · rw [hu, Crew.foldN_modBank_same]
  · rw [hu, Crew.foldN_modBank_same]
  · rw [hu]
    exact Crew.bank_foldN _ _ n

theorem State.settleBanks_cells (s : State) (c : CrewId) (n : Fin 32) :
    (((s.settleBanks c).crew c).bank n).cells = ((s.crew c).bank n).cells := by
  rw [s.settleBanks_spec c |>.2.2.2 n]
  split <;> rfl

/-! ### A command retires -/

theorem Tile.retireWord_spec (x : Tile) (e : Eng) (seq : BitVec 32) (push : Option Eng) :
    let y := x.retireWord e seq push
    y = { x with tokens := y.tokens, engines := y.engines } ∧ y.tokens = (x.pushToken e push).tokens := by
  intro y
  have hy : y = (x.pushToken e push).modEng e fun g => g.wordDone seq := rfl
  rw [hy, Tile.pushToken_same]
  refine ⟨rfl, ?_⟩
  cases push <;> rfl

theorem State.retireM_spec (s : State) (c : CrewId) (k : ArrayCmd) :
    let u := s.retireM c k
    (∀ n, ((u.crew c).bank n).cells = ((s.crew c).bank n).cells) ∧
    (∀ j ∈ (u.crew c).cmds, j ∈ (s.crew c).cmds ∨ j.work = .none) ∧
    (u.tile (tileOf c k.tile)).live = (s.tile (tileOf c k.tile)).live := by
  intro u
  let t := tileOf c k.tile
  let gone := s.modCrew c fun y => { y with cmds := y.cmds.erase k }
  have hgone : gone.crew c = { s.crew c with cmds := (s.crew c).cmds.erase k } := State.crew_modCrew_same ..
  have hcells : ∀ n, ((gone.crew c).bank n).cells = ((s.crew c).bank n).cells := fun n => by rw [hgone]; rfl
  have hcmds : (gone.crew c).cmds = (s.crew c).cmds.erase k := by rw [hgone]
  by_cases hr : k.replayed = true
  · have hu : u = gone.settleBanks c := if_pos hr
    obtain ⟨h1, h2, -, -⟩ := gone.settleBanks_spec c
    rw [hu]
    refine ⟨fun n => (gone.settleBanks_cells c n).trans (hcells n), fun j hj => .inl ?_, ?_⟩
    · rw [h2, hcmds] at hj
      exact List.mem_of_mem_erase hj
    · rw [State.tile, h1]
      rfl
  by_cases hp : (s.tile t).canPush .m k.push = true
  · have hu : u = (gone.modTile t fun x => x.retireWord .m k.seq k.push).settleBanks c := (if_neg hr).trans (if_pos hp)
    obtain ⟨h1, h2, -, -⟩ := (gone.modTile t fun x => x.retireWord .m k.seq k.push).settleBanks_spec c
    rw [hu]
    refine ⟨fun n => (State.settleBanks_cells _ c n).trans (hcells n), fun j hj => .inl ?_, ?_⟩
    · rw [h2, State.crew_modTile, hcmds] at hj
      exact List.mem_of_mem_erase hj
    · rw [State.tile, h1, ← State.tile, State.tile_modTile_same, (Tile.retireWord_spec _ .m k.seq k.push).1]
      rfl
  · have hu : u = s.modCrew c fun y =>
        { y with cmds := y.cmds.map fun j => if j = k then { j with landed := true, work := .none, hollow := false } else j } :=
      (if_neg hr).trans (if_neg hp)
    rw [hu]
    refine ⟨fun n => ?_, fun j hj => ?_, rfl⟩
    · rw [State.crew_modCrew_same]
      rfl
    · rw [State.crew_modCrew_same] at hj
      obtain ⟨i, hi, rfl⟩ := List.mem_map.1 hj
      split
      · exact .inr rfl
      · exact .inl hi

/-- What the landing of a command leaves of its crew. -/
theorem State.landM_spec (s : State) (c : CrewId) (k : ArrayCmd) (hk : k.landed = false) :
    let u := s.landM c k
    (∀ n, ((u.crew c).bank n).cells = ((k.work.apply (s.crew c)).bank n).cells) ∧
    (∀ j ∈ (u.crew c).cmds, j ∈ (k.work.apply (s.crew c)).cmds ∨ j.work = .none) ∧
    (u.tile (tileOf c k.tile)).live = (s.tile (tileOf c k.tile)).live := by
  intro u
  let s1 := s.modCrew c fun y => k.work.apply y
  let s2 := if k.work = .none ∧ k.hollow = false then s1 else s1.modTile (tileOf c k.tile) fun x => { x with m := unlanded x.m k.batch }
  have hu : u = s2.retireM c k := if_neg (by rw [hk]; decide)
  have hcrew : s2.crew c = k.work.apply (s.crew c) := by
    rw [← State.crew_modCrew_same s c fun y => k.work.apply y]
    unfold s2
    split <;> rfl
  have hlive : (s2.tile (tileOf c k.tile)).live = (s.tile (tileOf c k.tile)).live := by
    unfold s2
    split
    · rfl
    · rw [State.tile_modTile_same]
      rfl
  obtain ⟨h1, h2, h3⟩ := s2.retireM_spec c k
  rw [hu]
  exact ⟨fun n => by rw [h1 n, hcrew], fun j hj => hcrew ▸ h2 j hj, h3.trans hlive⟩

theorem Crew.cell_of_cells {y z : Crew} {n : Fin 32} (h : (y.bank n).cells = (z.bank n).cells) (r j : Nat) : (y.bank n).cell r j = (z.bank n).cell r j := by
  rw [Bank.cell, h]
  rfl

theorem execMWritesLand_eq {s : State} {c : CrewId} {k : ArrayCmd} (hp : s.phase = .ending) (h : s.landing? c = some k) :
    exec (.mWritesLand c .good) s = .next (s.landM c k) ∧
    (k.work.multiplies = true → exec (.mWritesLand c .double) s = .next (s.uncorrectable c k cMCSRAM)) := by
  have hx : ∀ chk, exec (.mWritesLand c chk) s = _ := fun chk => execMWritesLand.eq_def c chk s
  have hne : ¬s.phase ≠ .ending := not_not.2 hp
  refine ⟨?_, fun hm => ?_⟩
  · rw [hx .good, h]
    exact if_neg hne
  · rw [hx .double, h]
    exact (if_neg hne).trans (if_pos hm)

/-- R223: what the start of a replay leaves. -/
theorem State.startReplay_spec (s : State) (c : CrewId) (lane : Fin 4) (w : ReplayWindow) (code : Byte) :
    let u := s.startReplay c lane w code
    (u.tile (tileOf c lane)).m.replay = some w.words ∧
    ∀ b : Fin 32, (u.crew c).bank b = if w.banks.getLsbD b.val = true then { (s.crew c).bank b with st := .replay, cells := [] } else (s.crew c).bank b := by
  refine ⟨congrArg (MState.replay ∘ Tile.m) (State.tile_modTile_same ..), fun b => ?_⟩
  have hfun : (fun (y : Crew) b => if w.banks.getLsbD b then
      y.modBank (Fin.ofNat 32 b) fun x => { x with st := .replay, cells := [] } else y) = fun y b => y.modBank (Fin.ofNat 32 b)
        (if w.banks.getLsbD b then fun x => { x with st := .replay, cells := [] } else id) := by
    funext y b
    split
    · rfl
    · exact (y.modBank_id _).symm
  unfold State.startReplay
  rw [State.crew_modTile, State.crew_modCrew_same, hfun]
  refine (Crew.bank_foldN _ _ b).trans ?_
  split <;> rfl

/-- R223, R357: what a contained error of a command leaves. -/
theorem State.containCmd_spec (s : State) (c : CrewId) (k : ArrayCmd) (code : Byte) (hk : k.landed = false) (hw : k.work ≠ .none) :
    let u := s.containCmd c k code
    (∀ b, ((u.crew c).bank b).cells = ((s.crew c).bank b).cells) ∧ k ∉ (u.crew c).cmds ∧
    ((s.tile (tileOf c k.tile)).live = true → (u.cox (tileOf c k.tile)).pend.mc = some code) := by
  intro u
  let k' : ArrayCmd := { k with work := .none, hollow := true }
  let s1 := s.modCrew c fun y => { y with cmds := y.cmds.map fun j => if j = k then k' else j }
  have hcrew : s1.crew c = { s.crew c with cmds := (s.crew c).cmds.map fun j => if j = k then k' else j } := State.crew_modCrew_same ..
  obtain ⟨h1, h2, h3⟩ := s1.landM_spec c k' hk
  obtain ⟨-, h5, h6⟩ := (s1.landM c k').containUnit_tile (tileOf c k.tile) 4 code none
  have hu : ∀ d, u.crew d = (s1.landM c k').crew d := State.crew_of_crews h5
  refine ⟨fun b => ?_, fun hmem => ?_, fun hl => h6 (h3.trans hl)⟩
  · have hb : ((s1.crew c).bank b).cells = ((s.crew c).bank b).cells := by
      rw [hcrew]
      rfl
    exact (by rw [hu]; exact h1 b : ((u.crew c).bank b).cells = _).trans hb
  · rw [hu] at hmem
    rcases h2 k hmem with hk' | hk'
    · rw [show (k'.work.apply (s1.crew c)).cmds = _ from congrArg Crew.cmds hcrew] at hk'
      obtain ⟨j, -, hj⟩ := List.mem_map.1 hk'
      split at hj
      · exact hw (congrArg ArrayCmd.work hj).symm
      next hne => exact hne hj
    · exact hw hk'

/-- R219: the new value of an enabled cell. -/
theorem mulCell_enabled (zero transp tcw : Bool) (k aoff boff : Nat) {mrow mcol : BitVec 128} (fmta fmtb : Lane) (scale : Int) (a b : Memory) {m n : Nat}
    (old : Lane) (hm : mrow.getLsbD m = true) (hn : mcol.getLsbD n = true) :
    mulCell zero transp tcw k aoff boff mrow mcol fmta fmtb scale a b m n old =
      let chunk := min (fmtChunk fmta) (fmtChunk fmtb)
      BitVec.ofNat 32 (eightUpdate (if zero then 0 else old.toNat) ((List.range k).map fun x => ((slotElem a m (aoff + x) fmta).mul
        (if tcw then slotWeight b n (boff + x) fmtb
          else if transp then slotElem b n (boff + x) fmtb else slotElem b (boff + x) n fmtb)).scale scale) chunk (ceilDiv k chunk)) := by
  simp only [mulCell, hm, hn, if_true]

theorem ArrayWork.mem_cells {bank : Nat} {mrow mcol : BitVec 128} (hrow : ∀ i : Fin 128, mrow.getLsbD i.val = true → bank + i.val / 32 < 32) :
    ∀ p ∈ enabledCells mrow mcol, bank + p.1 / 32 < 32 ∧ p.2 < 128 := by
  rintro ⟨i, j⟩ hp
  obtain ⟨⟨hi, hri⟩, hj, -⟩ := (mem_enabledCells ..).1 hp
  exact ⟨hrow ⟨i, hi⟩ hri, hj⟩

theorem Bank.resting_ne_replay (x : Bank) : x.resting ≠ .replay := by
  unfold Bank.resting
  split
  · decide
  · split <;> decide

/-- R223: what the end of a replay leaves. -/
theorem State.endReplay_spec (s : State) (t : TileId) :
    let u := s.endReplay t
    let banks := (s.tile t).m.replayBanks
    (u.tile t).m.replay = none ∧ ∀ n : Fin 32,
      (banks.getLsbD n.val = true → ((u.crew (crewOf t)).bank n).st ≠ .replay) ∧
      (banks.getLsbD n.val = false → ((s.crew (crewOf t)).bank n).st = .replay → ((u.crew (crewOf t)).bank n).st = .replay) ∧
      ((u.crew (crewOf t)).bank n).cells = ((s.crew (crewOf t)).bank n).cells := by
  unfold State.endReplay
  extract_lets touched banks s1 u
  have hs1 : ∀ n, ((s1.modTile t fun x => { x with m := { x.m with replay := none } }).crew (crewOf t)).bank n =
      if ((s.crew (crewOf t)).bank n).st = .replay ∧ banks.getLsbD n.val = true then
        { (s.crew (crewOf t)).bank n with st := if touched.getLsbD n.val then .busy else ((s.crew (crewOf t)).bank n).resting }
      else (s.crew (crewOf t)).bank n := fun n => by
    rw [State.crew_modTile, State.crew_modCrew_same]
    exact Crew.bank_foldN _ _ n
  have hu := ((s1.modTile t fun x => { x with m := { x.m with replay := none } }).settleBanks_spec (crewOf t)).2.2.2
  refine ⟨congrArg (MState.replay ∘ Tile.m) (State.tile_modTile_same s1 t fun x => { x with m := { x.m with replay := none } }), fun n => ?_⟩
  have hn := hu n
  rw [hs1 n] at hn
  rw [show (u.crew (crewOf t)).bank n = _ from hn]
  have hrest := Bank.resting_ne_replay
  refine ⟨fun hb => ?_, fun hb hst => ?_, ?_⟩
  · grind
  · grind
  · grind

theorem Slot.iterate_fewerReaders (n : Nat) (k : Slot) :
    (fun k : Slot => { k with readers := k.readers - 1 })^[n] k = { k with readers := k.readers - n } := by
  induction n with
  | zero => rfl
  | succ n ih =>
    rw [Function.iterate_succ_apply', ih]
    rfl

/-- Settles O39. -/
theorem matrixLandings : Obligations.MatrixLandings := by
  refine ⟨fun s c k hp hl hk => ?_, fun s t b bs hp hb => ?_, fun s t => ?_, fun s c k hp hf => ?_⟩
  · intro y cell
    obtain ⟨hgood, hdouble⟩ := execMWritesLand_eq hp hl
    obtain ⟨hcells, -, -⟩ := s.landM_spec c k hk
    have hofNat : ∀ n : Fin 32, Fin.ofNat 32 n.val = n := fun n => Fin.ext (Nat.mod_eq_of_lt n.isLt)
    refine ⟨?_, ?_, ?_, ?_⟩
    · intro zero transp tcw bank n aoff boff mrow mcol fmta fmtb scale a b hw hrow
      refine ⟨_, hgood, ?_⟩
      intro on chunk q r j i prod
      have hcell := Crew.cell_foldl_setCell bank (fun old m j => mulCell zero transp tcw n aoff boff mrow mcol fmta fmtb scale a b m j old)
        (enabledCells mrow mcol) (nodup_enabledCells ..) (ArrayWork.mem_cells hrow) y q r.isLt j.isLt
      have hq := Crew.cell_of_cells (hcells q) r.val j.val
      rw [hw] at hq
      replace hq := hq.trans hcell
      simp only [mem_enabledCells] at hq
      simp only [cell, hofNat]
      refine ⟨fun hon => ?_, fun hoff => hq.trans (if_neg fun h => hoff ⟨h.1, h.2.1.1, h.2.1.2, h.2.2.2⟩)⟩
      obtain ⟨h1, h2, h3, h4⟩ := hon
      exact (hq.trans (if_pos ⟨h1, ⟨h2, h3⟩, j.isLt, h4⟩)).trans (mulCell_enabled zero transp tcw n aoff boff fmta fmtb scale a b _ h3 h4)
    · intro bank mrow mcol hw hrow
      refine ⟨_, hgood, fun q r j => ?_⟩
      have hcell := Crew.cell_foldl_setCell bank (fun _ _ _ => 0)
        (enabledCells mrow mcol) (nodup_enabledCells ..) (ArrayWork.mem_cells hrow) y q r.isLt j.isLt
      have hq := Crew.cell_of_cells (hcells q) r.val j.val
      rw [hw] at hq
      replace hq := hq.trans hcell
      simp only [mem_enabledCells] at hq
      simp only [cell, hofNat]
      refine hq.trans (if_congr ?_ rfl rfl)
      simp only [j.isLt, true_and, and_assoc]
    · intro bank n hw hn
      refine ⟨_, hgood, fun q r j => ?_⟩
      have hq := Crew.cell_of_cells (hcells q) r.val j.val
      have hmem : ∀ m, m ∈ numbersFrom bank n ↔ bank ≤ m ∧ m < bank + n := fun m => by
        simp only [numbersFrom, List.mem_map, List.mem_range]
        exact ⟨fun ⟨i, hi, h⟩ => by omega, fun h => ⟨m - bank, by omega, by omega⟩⟩
      have hzero := Crew.bank_foldl_modBank (fun k => { k with cells := [] }) (numbersFrom bank n) y q
      rw [iterate_idempotent (f := fun k : Bank => { k with cells := [] }) (fun _ => rfl), if_congr (namedTimes_eq_zero (fun m hm => by have := (hmem m).1 hm; omega) q) rfl rfl] at hzero
      rw [hw] at hq
      simp only [cell, hofNat]
      refine hq.trans ((congrArg (fun k : Bank => k.cell r.val j.val) hzero).trans ?_)
      simp only [hmem]
      split
      next h => rfl
      next h => exact (if_pos (not_not.1 h)).symm
    · intro hm t m
      have hx := hdouble hm
      refine ⟨fun w hwin hwhole hrep hnum => ?_, fun hno => ?_⟩
      · obtain ⟨h1, h2⟩ := s.startReplay_spec c k.tile w cMCSRAM
        have hun : s.uncorrectable c k cMCSRAM = s.startReplay c k.tile w cMCSRAM := by
          rw [State.uncorrectable.eq_def]
          simp only
          rw [show (s.tile (tileOf c k.tile)).m.window = some w from hwin]
          exact if_pos ⟨hwhole, by rw [show (s.tile (tileOf c k.tile)).m.replay = none from hrep]; rfl, hnum⟩
        refine ⟨_, hx, hun ▸ h1, fun b => ⟨fun hb => ?_, fun hb => ?_⟩⟩
        · rw [hun, h2 b, if_pos hb]
          exact ⟨rfl, fun _ _ => rfl⟩
        · rw [hun, h2 b, if_neg (by rw [hb]; decide)]
      · have hun : s.uncorrectable c k cMCSRAM = s.containCmd c k cMCSRAM := by
          rw [State.uncorrectable.eq_def]
          simp only
          split
          next w hwin =>
            refine if_neg fun h => hno ⟨Option.isNone_iff_eq_none.1 h.2.1, h.2.2, w, hwin, h.1⟩
          · rfl
        rw [hun] at hx
        exact ⟨_, hx, s.containCmd_spec c k cMCSRAM hk (by rintro h; rw [h] at hm; exact absurd hm (by decide))⟩
  · intro x ready
    have hx : exec (.batchRetire t) s = _ := execBatchRetire.eq_def t s
    have hready : s.batchReady t = true ↔ ready := by
      rw [State.batchReady, hb]
      simp [ready, x, and_assoc]
    rw [hb] at hx
    refine ⟨fun hno => hx.trans (if_neg fun h => hno (hready.1 h.2)), fun hyes => ⟨_, hx.trans (if_pos ⟨hp, hready.2 hyes⟩), ?_⟩⟩
    obtain ⟨h1, h2⟩ := Tile.retireWord_spec { x with m := { x.m with batches := bs, bret := b.number } } .m b.seq b.push
    intro y
    have hy : y = ({ x with m := { x.m with batches := bs, bret := b.number } } : Tile).retireWord .m b.seq b.push :=
      State.tile_modTile_same s t fun x => ({ x with m := { x.m with batches := bs, bret := b.number } } : Tile).retireWord .m b.seq b.push
    refine ⟨?_, fun a e => ?_, fun n => (State.settleBanks_cells _ (crewOf t) n).trans (by rfl)⟩
    · rw [hy]
      exact congrArg Tile.m h1
    · rw [Tile.token, hy, show Tile.tokens _ = _ from h2, ← Tile.token, Tile.token_pushToken]
      rfl
  · intro ended
    have hended : s.replayOver t = true ↔ ended := by
      simp [State.replayOver, ended]
    have hx : exec (.replayEnd t) s = _ := execReplayEnd.eq_def t s
    refine ⟨fun hno => hx.trans (if_neg fun h => hno (hended.1 h)), fun hyes w hw => ⟨_, hx.trans (if_pos (hended.2 hyes)), ?_, fun n => ?_⟩⟩
    · exact (s.endReplay_spec t).1
    · have hbanks : (s.tile t).m.replayBanks = w.banks := by
        rw [MState.replayBanks.eq_def, hyes.1, hw]
      obtain ⟨-, h⟩ := s.endReplay_spec t
      obtain ⟨h1, h2, h3⟩ := h n
      rw [hbanks] at h1 h2
      exact ⟨h1, h2, h3⟩
  · have hx : exec (.lastReadCycleEnd c) s = _ := execLastReadCycleEnd.eq_def c s
    rw [hf] at hx
    refine ⟨_, hx.trans (if_pos hp), ?_⟩
    rw [State.crew_modCrew_same]
    have hsame := Crew.foldl_modSlot_same (fun x => { x with readers := x.readers - 1 }) k.slots (s.crew c)
    refine ⟨fun n => ?_, fun j hj => ?_⟩
    · have hslot := Crew.slot_foldl_modSlot (fun x => { x with readers := x.readers - 1 }) k.slots (s.crew c) n
      rw [Slot.iterate_fewerReaders] at hslot
      have hreaders := congrArg Slot.readers hslot
      have hdata := congrArg Slot.data hslot
      exact ⟨hreaders, hdata⟩
    · obtain ⟨i, hi, rfl⟩ := List.mem_map.1 hj
      rw [hsame] at hi
      split
      next h => exact .inl (by rw [h])
      next h => exact .inr ⟨hi, h⟩

end Sys2Proof.Machine
end

section
/-! ## The lease of the array (R208, R209) -/

namespace Sys2Proof.Machine

open Sys2Proof

/-! ### The next tile that waits -/

/-- Lane `j` comes `(j - k - 1).val + 1` places after lane `k`, the lane itself last. -/
theorem lane_after (k j : Fin 4) : Fin.ofNat 4 (k.val + ((j - k - 1).val + 1)) = j := by
  revert k j
  decide

theorem lane_after_dist (k d : Fin 4) : Fin.ofNat 4 (k.val + (d.val + 1)) - k - 1 = d := by
  revert k d
  decide

/-- A lane other than `k` is at most three places after it. -/
theorem lane_other_iff (k j : Fin 4) : j ≠ k ↔ (j - k - 1).val < 3 := by
  revert k j
  decide

theorem lane_dist_pred {k j : Fin 4} (h : j ≠ k) : (j - k).val = (j - k - 1).val + 1 := by
  revert k j
  decide

/-- The first of the `n` lanes after lane `k` with a property. -/
theorem find?_lanes (p : Fin 4 → Bool) (k : Fin 4) (n : Nat) (hn : n ≤ 4) :
    let l := (List.range' 1 n).map fun i => Fin.ofNat 4 (k.val + i)
    (l.find? p = none ↔ ∀ j, (j - k - 1).val < n → p j = false) ∧
    ∀ j, l.find? p = some j → p j = true ∧ (j - k - 1).val < n ∧ ∀ i, (i - k - 1).val < n → p i = true → (j - k - 1).val ≤ (i - k - 1).val := by
  intro l
  refine ⟨?_, fun j hj => ?_⟩
  · simp only [l, List.find?_eq_none, List.mem_map, List.mem_range'_1, forall_exists_index, and_imp]
    refine ⟨fun h j hj => ?_, fun h i d hd hdn hi => ?_⟩
    · simpa using h j ((j - k - 1).val + 1) (by omega) (by omega) (lane_after k j)
    · have := lane_after_dist k ⟨d - 1, by omega⟩
      rw [show d - 1 + 1 = d by omega] at this
      rw [← hi, h _ (by rw [this]; simp; omega)]
      decide
  · rw [List.find?_map, Option.map_eq_some_iff] at hj
    obtain ⟨d, hd, rfl⟩ := hj
    obtain ⟨hp, hmem, hfirst⟩ := List.find?_range'_eq_some.1 hd
    rw [List.mem_range'_1] at hmem
    have hdist := lane_after_dist k ⟨d - 1, by omega⟩
    rw [show d - 1 + 1 = d by omega] at hdist
    rw [hdist]
    refine ⟨hp, by simp; omega, fun i hi hpi => ?_⟩
    by_contra hlt
    have := hfirst ((i - k - 1).val + 1) (by omega) (by simp at hlt; omega)
    rw [Function.comp_apply, lane_after, hpi] at this
    exact absurd this (by decide)

theorem State.nextWaiting_others {s : State} {c : CrewId} {k : Fin 4} :
    (s.nextWaiting c k false = none ↔ ∀ j, j ≠ k → (s.tile (tileOf c j)).m.lstate ≠ .waiting) ∧
    ∀ j, s.nextWaiting c k false = some j → j ≠ k ∧ (s.tile (tileOf c j)).m.lstate = .waiting ∧
      ∀ i, i ≠ k → (s.tile (tileOf c i)).m.lstate = .waiting → (j - k).val ≤ (i - k).val := by
  obtain ⟨h1, h2⟩ := find?_lanes (fun j => decide ((s.tile (tileOf c j)).m.lstate = .waiting)) k 3 (by decide)
  simp only [decide_eq_false_iff_not, decide_eq_true_eq, ← lane_other_iff] at h1 h2
  refine ⟨h1, fun j hj => ?_⟩
  obtain ⟨h3, h4, h5⟩ := h2 j hj
  refine ⟨h4, h3, fun i hi hw => ?_⟩
  rw [lane_dist_pred h4, lane_dist_pred hi]
  exact Nat.succ_le_succ (h5 i hi hw)

theorem State.nextWaiting_all {s : State} {c : CrewId} {k : Fin 4} :
    (s.nextWaiting c k true = none ↔ ∀ j, (s.tile (tileOf c j)).m.lstate ≠ .waiting) ∧
    ∀ j, s.nextWaiting c k true = some j → (s.tile (tileOf c j)).m.lstate = .waiting ∧
      ∀ i, (s.tile (tileOf c i)).m.lstate = .waiting → (j - k - 1).val ≤ (i - k - 1).val := by
  obtain ⟨h1, h2⟩ := find?_lanes (fun j => decide ((s.tile (tileOf c j)).m.lstate = .waiting)) k 4 (by decide)
  simp only [decide_eq_false_iff_not, decide_eq_true_eq, Fin.is_lt, true_implies, true_and] at h1 h2
  exact ⟨h1, h2⟩

/-! ### Turns -/

theorem State.beginTurn_spec (s : State) (c : CrewId) (k : Fin 4) (at' : Nat) :
    let u := s.beginTurn c k at'
    let m := (s.tile (tileOf c k)).m
    (u.crew c).holder = some k ∧ (u.crew c).grant = none ∧ (u.crew c).turnWords = 0 ∧ (u.crew c).turnStart = at' ∧
    (u.crew c).turnN = m.leaseN ∧ (u.crew c).turnBudget = m.leaseBudget ∧ (u.tile (tileOf c k)).m.lstate = .held := by
  unfold State.beginTurn
  extract_lets m s1 u
  have hu : u.crew c = _ := (State.crew_modTile ..).trans (State.crew_modCrew_same s c _)
  rw [hu, State.tile_modTile_same]
  exact ⟨rfl, rfl, rfl, rfl, rfl, rfl, rfl⟩

theorem State.turnOver_iff {s : State} {c : CrewId} {k : Fin 4} (h : (s.crew c).holder = some k) :
    s.turnOver c = true ↔ (s.crew c).turnStart ≤ s.gtime ∧ ((s.crew c).turnN ≤ (s.crew c).turnWords ∨
      (s.crew c).turnBudget ≤ s.gtime + 1 - (s.crew c).turnStart ∨ ∀ n ∈ ((s.tile (tileOf c k)).eng .m).queue, n.st = .issued) := by
  rw [State.turnOver, h]
  simp [Tile.mPending, or_assoc]

/-- Settles O40. -/
theorem leaseTurns : Obligations.LeaseTurns := by
  intro s c y m begins waits
  have hgrant : exec (.leaseGrant c) s = _ := execLeaseGrant.eq_def c s
  refine ⟨fun hp k hk hstart => ?_, fun hno => ?_, fun hnone hread => ?_⟩
  · intro ends
    have hover : s.turnOver c = true ↔ ends := (State.turnOver_iff hk).trans (and_iff_right hstart)
    have hx : exec (.leaseTurnEnd c) s = _ := execLeaseTurnEnd.eq_def c s
    refine ⟨fun hno => hx.trans (if_neg fun h => hno (hover.1 h.2)), fun hyes => ⟨_, hx.trans (if_pos ⟨hp, hover.2 hyes⟩), fun hall => ?_, fun hsome => ?_⟩⟩
    · have hend : s.endTurn c = s.beginTurn c k (s.gtime + 1) := by
        rw [State.endTurn, hk]
        dsimp only
        rw [State.nextWaiting_others.1.2 hall]
      rw [hend]
      exact s.beginTurn_spec c k _
    · cases hn : s.nextWaiting c k false with
      | none =>
        obtain ⟨j, hjk, hj⟩ := hsome
        exact absurd hj (State.nextWaiting_others.1.1 hn j hjk)
      | some j =>
        have hend : s.endTurn c = (s.modTile (tileOf c k) fun x => { x with m := { x.m with lstate := .waiting } }).modCrew c fun y =>
            { y with holder := none, grant := some j, lastHolder := k } := by
          rw [State.endTurn, hk]
          dsimp only
          rw [hn]
        obtain ⟨hjk, hj, hfirst⟩ := State.nextWaiting_others.2 j hn
        rw [hend, State.crew_modCrew_same]
        exact ⟨rfl, rfl, congrArg (MState.lstate ∘ Tile.m) (State.tile_modTile_same s (tileOf c k) fun x => { x with m := { x.m with lstate := .waiting } }), j, rfl, hjk, hj, hfirst⟩
  · have hg : s.grantee c = none := if_pos (by simpa [Option.isSome_iff_ne_none] using hno)
    rw [hgrant, hg]
  have hfree : ¬((s.crew c).holder.isSome ∨ ((s.crew c).lastReadEnd ≠ 0 ∧ s.gtime ≤ (s.crew c).lastReadEnd)) := by
    rw [show (s.crew c).holder = none from hnone]
    simp only [Option.isSome_none, Bool.false_eq_true, false_or]
    rintro ⟨h1, h2⟩
    exact hread.elim h1 (Nat.not_lt.2 h2)
  have hgrantee : s.grantee c = _ := (State.grantee.eq_def s c).trans (if_neg hfree)
  refine ⟨fun j hj hw => ?_, fun hw => ?_, fun hj hw => ?_⟩
  · have hg : s.grantee c = some j := by
      rw [hgrantee, show (s.crew c).grant = some j from hj]
      exact if_pos hw
    rw [hg] at hgrant
    exact ⟨_, hgrant, s.beginTurn_spec c j _⟩
  · have hg : s.grantee c = none := by
      rw [hgrantee]
      split
      next j hj => exact (if_neg (hw j)).trans (State.nextWaiting_all.1.2 hw)
      · exact State.nextWaiting_all.1.2 hw
    rw [hgrant, hg]
  · have hg : s.grantee c = s.nextWaiting c y.lastHolder true := by
      rw [hgrantee]
      split
      next j hgranted => exact if_neg (hj j hgranted)
      · rfl
    cases hn : s.nextWaiting c y.lastHolder true with
    | none =>
      obtain ⟨j, hwj⟩ := hw
      exact absurd hwj (State.nextWaiting_all.1.1 hn j)
    | some j =>
      rw [hg, hn] at hgrant
      exact ⟨_, j, hgrant, s.beginTurn_spec c j _, State.nextWaiting_all.2 j hn⟩

end Sys2Proof.Machine
end

section
/-! ## Which command of Portage starts, and what its start does (R124, R126, R130, R133, R141, R145, R146) -/

namespace Sys2Proof.Machine

open Sys2Proof

/-! ### Start order -/

/-- R124: of two commands of one stream the one of the earlier time starts first, of two with one time the one that issued first. -/
theorem startsBefore_same {a b : PCmd} (h : a.stream = b.stream) : startsBefore a b = true ↔ a.t < b.t ∨ a.t = b.t ∧ a.id < b.id := by
  have hno : ¬(b.stream = .l ∧ b.stream = .s) := by
    rintro ⟨h1, h2⟩
    rw [h1] at h2
    exact absurd h2 (by decide)
  simp [startsBefore, h, hno]

theorem firstCmd_first (l : List PCmd) {e : Eng} (hl : ∀ d ∈ l, d.stream = e) {c : PCmd} (h : firstCmd l = some c) :
    c ∈ l ∧ ∀ d ∈ l, c.t < d.t ∨ c.t = d.t ∧ c.id ≤ d.id := by
  induction l generalizing c with
  | nil => exact absurd h (by simp [firstCmd])
  | cons b l ih =>
    obtain ⟨hb, hl'⟩ := List.forall_mem_cons.1 hl
    rw [firstCmd] at h
    cases hf : firstCmd l with
    | none =>
      rw [hf] at h
      obtain rfl := Option.some.inj h
      have hnil : l = [] := by
        cases l with
        | nil => rfl
        | cons a l =>
          rw [firstCmd] at hf
          split at hf
          · split at hf <;> exact absurd hf (by simp)
          · exact absurd hf (by simp)
      subst hnil
      simp
    | some d =>
      rw [hf] at h
      obtain ⟨hd, hleast⟩ := ih hl' hf
      have hs : d.stream = b.stream := (hl' d hd).trans hb.symm
      simp only at h
      split at h
      next hbefore =>
        obtain rfl := Option.some.inj h
        have := (startsBefore_same hs).1 hbefore
        refine ⟨List.mem_cons_of_mem _ hd, List.forall_mem_cons.2 ⟨?_, hleast⟩⟩
        omega
      next hnot =>
        obtain rfl := Option.some.inj h
        have hno : ¬(d.t < b.t ∨ d.t = b.t ∧ d.id < b.id) := fun k => hnot ((startsBefore_same hs).2 k)
        refine ⟨List.mem_cons_self, List.forall_mem_cons.2 ⟨by omega, fun a ha => ?_⟩⟩
        have := hleast a ha
        omega

theorem Engine.startsMore_iff (g : Engine) : g.startsMore = true ↔ g.stopped = false ∧ ∀ f, g.fault = some f → f.code = cILLOP := by
  unfold Engine.startsMore
  cases g.fault <;> simp

/-- R126, R146, R295: what the command of a stream that may start has met. -/
theorem State.startable_spec {s : State} {t : TileId} {e : Eng} {c : PCmd} (h : s.startable t e = some c) :
    let buffer := (s.tile t).portage.buffer
    let runs (d : PCmd) : Prop := d ∈ buffer ∧ d.stream = e ∧ (d.stage = .started ∨ d.stage = .retiring)
    c ∈ buffer ∧ c.stream = e ∧ c.stage = .buffered ∧ c.t ≤ s.gtime ∧
    ((s.tile t).eng e).stopped = false ∧ (∀ f, ((s.tile t).eng e).fault = some f → f.code = cILLOP) ∧
    (∀ d ∈ buffer, d.stream = e → d.stage = .buffered → c.t < d.t ∨ c.t = d.t ∧ c.id ≤ d.id) ∧
    (∀ d, runs d → d.serial = false ∧ s.readsAhead t d = false) ∧ (s.serialising t c = true → ∀ d, ¬runs d) := by
  intro buffer runs
  unfold State.startable at h
  simp only at h
  split at h
  · exact absurd h (by simp)
  next hmore =>
    split at h
    · exact absurd h (by simp)
    next c' hfirst =>
      split at h
      · exact absurd h (by simp)
      next htime =>
        split at h
        · exact absurd h (by simp)
        next hahead =>
          split at h
          · exact absurd h (by simp)
          next hserial =>
            obtain rfl := Option.some.inj h
            have hm := (Engine.startsMore_iff _).1 (by simpa using hmore)
            obtain ⟨hc, hleast⟩ := firstCmd_first _ (e := e) (fun d hd => by simp at hd; exact hd.2.1) hfirst
            simp only [List.mem_filter, decide_eq_true_eq] at hc hleast
            have hruns : ∀ d, runs d ↔ d ∈ (s.tile t).portage.buffer.filter fun d => d.stream = e ∧ (d.stage = .started ∨ d.stage = .retiring) :=
              fun d => by simp [runs, buffer]
            refine ⟨hc.1, hc.2.1, hc.2.2, by omega, hm.1, hm.2, fun d hd hs hst => hleast d ⟨hd, hs, hst⟩, fun d hd => ?_, fun hser d hd => ?_⟩
            · have hd := (hruns d).1 hd
              exact ⟨by simpa using fun k => hahead (.inl (List.any_eq_true.2 ⟨d, hd, k⟩)), by simpa using fun k => hahead (.inr (List.any_eq_true.2 ⟨d, hd, k⟩))⟩
            · exact hserial ⟨hser, List.ne_nil_of_mem ((hruns d).1 hd)⟩

/-! ### A command starts -/

/-- What a command keeps of its start. -/
def PCmd.begun (s : State) (t : TileId) (c d : PCmd) : PCmd :=
  { d with startOrder := (s.tile t).portage.order + 1, serial := s.serialising t c, mark := (s.cox t).nextReq }

/-- The state in which a command that starts makes its checks. -/
def State.begun (s : State) (t : TileId) (c : PCmd) : State := s.modTile t fun x =>
  { x with portage := { x.portage with order := x.portage.order + 1 } }.modCmd c.id (c.begun s t)

theorem Tile.mem_modCmd {x : Tile} {d : PCmd} (h : d ∈ x.portage.buffer) (f : PCmd → PCmd) : f d ∈ (x.modCmd d.id f).portage.buffer :=
  List.mem_map.2 ⟨d, h, if_pos rfl⟩

theorem State.begun_tile (s : State) (t : TileId) (c : PCmd) :
    (s.begun t c).tile t = { s.tile t with portage := { (s.tile t).portage with order := (s.tile t).portage.order + 1 } }.modCmd c.id (c.begun s t) :=
  State.tile_modTile_same ..

theorem State.mem_begun {s : State} {t : TileId} {c : PCmd} (h : c ∈ (s.tile t).portage.buffer) :
    c.begun s t c ∈ ((s.begun t c).tile t).portage.buffer := by
  rw [State.begun_tile]
  exact Tile.mem_modCmd (x := { s.tile t with portage := { (s.tile t).portage with order := (s.tile t).portage.order + 1 } }) h (c.begun s t)

theorem State.begun_order (s : State) (t : TileId) (c : PCmd) : ((s.begun t c).tile t).portage.order = (s.tile t).portage.order + 1 := by
  rw [State.begun_tile]
  rfl

theorem State.inPair_of_place {s u : State} {t : TileId} (h : (u.tile t).place = (s.tile t).place) : u.inPair t = s.inPair t := by
  rw [State.inPair, h]
  rfl

theorem State.begun_inPair (s : State) (t : TileId) (c : PCmd) : (s.begun t c).inPair t = s.inPair t :=
  State.inPair_of_place (by rw [State.begun_tile]; rfl)

theorem State.begun_eq (s : State) (t : TileId) (c : PCmd) : { c with startOrder := ((s.begun t c).tile t).portage.order, serial := s.serialising t c, mark := (s.cox t).nextReq } = c.begun s t c := by
  rw [State.begun_order]
  rfl

/-- What the start of a command is once it has been counted: by its instruction. -/
theorem State.startCmd_eq (s : State) (t : TileId) (c : PCmd) : s.startCmd t c =
    let s1 := s.begun t c
    let d := c.begun s t c
    match c.instr with
    | .csig _ | .cwaitSignal _ =>
      if s1.inPair t then s1.cmdFault t d cPROT 0 0 (0, 0, 0) else s1.modTile t fun x => x.modCmd d.id fun d => { d with stage := .started }
    | .cwaitTime .. => s1.modTile t fun x => x.modCmd d.id fun d => { d with stage := .started }
    | i =>
      match elemCmd i with
      | none => s1.cmdOver t d
      | some (k, _) =>
        if d.ea % 64 ≠ 0 then s1.cmdFault t d cMISALIGN 0 d.ea (0, 0, 0)
        else
          let ea := if k = .seal then d.ea else chainAddr (s1.tile t).sp d.ea d.resume.1
          match s1.goodRead t (spSites t ea 64) with
          | (s, false) => s.cmdHalts t d
          | (s, true) =>
            if k = .seal then s.beginSeal t d
            else s.beginElem t d k ((s.tile t).sp.read ea 64) ea d.resume.1 d.resume.2.1 d.resume.2.2 := by
  unfold State.startCmd
  extract_lets serial mark s1 c1 s2 d2
  have hc1 : c1 = d2 := s.begun_eq t c
  clear_value c1
  subst hc1
  rfl

/-- The start of a command that names an element. -/
theorem State.startCmd_elem {s : State} {t : TileId} {c : PCmd} {k : PKind} {o : ElemOp} (h : elemCmd c.instr = some (k, o)) :
    s.startCmd t c =
      let s1 := s.begun t c
      let d := c.begun s t c
      if c.ea % 64 ≠ 0 then s1.cmdFault t d cMISALIGN 0 c.ea (0, 0, 0)
      else
        let ea := if k = .seal then c.ea else chainAddr (s1.tile t).sp c.ea c.resume.1
        match s1.goodRead t (spSites t ea 64) with
        | (s, false) => s.cmdHalts t d
        | (s, true) =>
          if k = .seal then s.beginSeal t d
          else s.beginElem t d k ((s.tile t).sp.read ea 64) ea c.resume.1 c.resume.2.1 c.resume.2.2 := by
  have hstart := s.startCmd_eq t c
  cases hi : c.instr <;> rw [hi] at h hstart <;> simp only [elemCmd, reduceCtorEq, Option.some.injEq, Prod.mk.injEq] at h <;>
    (obtain ⟨rfl, rfl⟩ := h) <;> exact hstart

theorem State.begun_sp (s : State) (t : TileId) (c : PCmd) : ((s.begun t c).tile t).sp = (s.tile t).sp := by
  rw [State.begun_tile]
  rfl

/-- An element whose address is aligned is read from good granules. -/
theorem State.startCmd_good {s : State} {t : TileId} {c : PCmd} {k : PKind} {o : ElemOp} (h : elemCmd c.instr = some (k, o)) (ha : c.ea % 64 = 0)
    (hk : k ≠ .seal) (hg : GranulesGood s (spSites t (chainAddr (s.tile t).sp c.ea c.resume.1) 64)) :
    let ea := chainAddr (s.tile t).sp c.ea c.resume.1
    s.startCmd t c = (s.begun t c).beginElem t (c.begun s t c) k ((s.tile t).sp.read ea 64) ea c.resume.1 c.resume.2.1 c.resume.2.2 := by
  intro ea
  have hread : (s.begun t c).goodRead t (spSites t ea 64) = (s.begun t c, true) :=
    State.goodRead_good (GranulesGood.of_dev (u := s.begun t c) hg rfl) t
  rw [State.startCmd_elem h]
  dsimp only
  rw [if_neg (not_not.2 ha), if_neg hk, State.begun_sp, hread]
  dsimp only
  rw [if_neg hk, State.begun_sp]

/-- The command that is next in start order starts (log entry 39). -/
theorem execCommandStart_eq {s : State} {t : TileId} {c : PCmd} (hh : s.holding = false) (hp : s.phase = .ending)
    (h : s.startable t .l = some c ∧ (∀ d, s.startable t .s = some d → startsBefore d c = false) ∨
      s.startable t .s = some c ∧ ∀ d, s.startable t .l = some d → startsBefore c d = true) :
    exec (.commandStart t) s = .next (s.startCmd t c) := by
  have hgo : ¬(s.holding = true ∨ s.phase ≠ .ending) := by simp [hh, hp]
  refine (execCommandStart.eq_def t s).trans ((if_neg hgo).trans ?_)
  rcases h with ⟨hl, hs⟩ | ⟨hs, hl⟩
  · rw [hl]
    cases hk : s.startable t .s with
    | none => rfl
    | some d =>
      simp only [hs d hk]
      rfl
  · rw [hs]
    cases hk : s.startable t .l with
    | none => rfl
    | some d =>
      simp only [hl d hk]
      rfl

/-- What a command that has stopped at a fault leaves. -/
theorem State.cmdFault_spec (s : State) (t : TileId) (c : PCmd) (code : Byte) (reason addr : Nat) (at' : Nat × Nat × Nat) :
    let u := s.cmdFault t c code reason addr at'
    (u.tile t).portage.order = (s.tile t).portage.order ∧ u.dev = s.dev ∧ (u.tile t).sp = (s.tile t).sp ∧
    (c ∈ (s.tile t).portage.buffer → { c with stage := .stopped, prog := none, answer := none, resume := at', offset := s.rowOffset t c at'.2.2 } ∈ (u.tile t).portage.buffer) ∧
    (((s.tile t).eng c.stream).fault = none → ∃ f, ((u.tile t).eng c.stream).fault = some f ∧ f.code = code ∧ f.addr = BitVec.ofNat 64 addr) := by
  intro u
  have hu : u.tile t = ((s.tile t).commandFault c code (engInfo reason (4096 * c.sec + c.index) at'.1) (BitVec.ofNat 64 addr)).modCmd c.id fun d =>
      { d with stage := .stopped, prog := none, answer := none, resume := at', offset := s.rowOffset t c at'.2.2 } := State.tile_modTile_same ..
  refine ⟨by rw [hu]; rfl, rfl, by rw [hu]; rfl, fun hc => ?_, fun hf => ?_⟩
  · rw [hu]
    exact Tile.mem_modCmd (x := (s.tile t).commandFault c code _ _) hc _
  · rw [hu, show Tile.eng (Tile.modCmd _ _ _) c.stream = Tile.eng (Tile.commandFault ..) c.stream from rfl]
    rw [Tile.commandFault, Tile.eng_modEng_same, hf]
    exact ⟨_, rfl, rfl, rfl⟩

/-- What a change of a command that has just started leaves. -/
theorem State.begun_modCmd {s : State} {t : TileId} {c : PCmd} (hc : c ∈ (s.tile t).portage.buffer) (f : PCmd → PCmd) :
    let u := (s.begun t c).modTile t fun x => x.modCmd c.id f
    (u.tile t).portage.order = (s.tile t).portage.order + 1 ∧ f (c.begun s t c) ∈ (u.tile t).portage.buffer := by
  intro u
  have hu : u.tile t = ((s.begun t c).tile t).modCmd c.id f := State.tile_modTile_same ..
  rw [hu]
  exact ⟨s.begun_order t c, Tile.mem_modCmd (d := c.begun s t c) (State.mem_begun hc) f⟩

/-- What a command leaves that asks for its Signal predicate. -/
theorem State.cmdSignal_cmdRuns (s : State) (t : TileId) {c : PCmd} (w : BitVec 17) (a : SigAct) (p : PProgress) (hc : c ∈ (s.tile t).portage.buffer) :
    let u := (s.cmdSignal t c w a).cmdRuns t c p
    (u.tile t).portage.order = (s.tile t).portage.order ∧
    { c with answer := some none, stage := .started, prog := some p } ∈ (u.tile t).portage.buffer ∧ (u.tile t).sp = (s.tile t).sp := by
  intro u
  have hu : u.tile t = (((s.tile t).modCmd c.id fun d => { d with answer := some none }).modCmd c.id fun d => { d with stage := .started, prog := some p }) := by
    rw [show u = (s.cmdSignal t c w a).cmdRuns t c p from rfl, State.cmdRuns, State.cmdSignal, State.tile_modTile_same, State.tile_modTile_same]
    rfl
  rw [hu]
  exact ⟨rfl, Tile.mem_modCmd (d := { c with answer := some none }) (Tile.mem_modCmd hc fun d => { d with answer := some none })
    fun d => { d with stage := .started, prog := some p }, rfl⟩

/-- An element whose checks pass, and whose granules of scratchpad are good, begins. -/
theorem State.beginElem_run {s : State} {t : TileId} {c : PCmd} {k : PKind} {bytes : List Byte} {ea ordinal row done : Nat} (hk : k ≠ .chain)
    (ha : c.answer = none) (hrun : s.startElem t c k (elemOf bytes) 0 = .run) (hg : GranulesGood s (s.elemSites t k (elemOf bytes))) :
    s.beginElem t c k bytes ea ordinal row done =
      if (elemOf bytes).predSignal = true then
        (s.cmdSignal t c (BitVec.ofNat 17 (elemOf bytes).pred) .read).cmdRuns t c (.start bytes ea ordinal .predicate false row done)
      else (s.cmdAnswered t c).runElem t c k bytes ea ordinal row done true := by
  unfold State.beginElem
  extract_lets e
  rw [if_neg fun h => hk h.1, ha, show s.startElem t c k e ((none.bind id).getD 0) = .run from hrun, show s.goodRead t (s.elemSites t k e) = (s, true) from State.goodRead_good hg t]
  exact if_congr (by simp [e]) rfl rfl

/-- R130, R141: an element that runs is at its row, a `COPLD` with its slot filling. -/
theorem State.runElem_spec (s : State) (t : TileId) (c : PCmd) {k : PKind} (hk : k ∉ [PKind.seal, .chain, .prb]) (bytes : List Byte) (ea ordinal row done : Nat)
    (hc : c ∈ (s.tile t).portage.buffer) :
    let u := s.runElem t c k bytes ea ordinal row done true
    let p : PProgress := { PProgress.start bytes ea ordinal .rows true row done with
      list := if k = .opld then [] else (s.listed t (k.resolve (elemOf bytes)) (elemOf bytes)).list }
    (u.tile t).portage.order = (s.tile t).portage.order ∧
    (∃ d ∈ (u.tile t).portage.buffer, d.id = c.id ∧ d.startOrder = c.startOrder ∧ d.stage = .started ∧ d.prog = some p) ∧
    u.dev = s.dev ∧ (u.tile t).sp = (s.tile t).sp ∧
    (k = .opld → ((u.crew (crewOf t)).slot (Fin.ofNat 32 (opldSlot (elemOf bytes)))).st = .filling) ∧ (k ≠ .opld → u.crews = s.crews) := by
  intro u p
  by_cases ho : k = .opld
  · subst ho
    have hu : u.tile t = (((s.tile t).modCmd c.id fun d => { d with slot := some (opldSlot (elemOf bytes)) }).modCmd c.id fun d =>
        { d with stage := .started, prog := some p }) := by
      let s1 := s.modCrew (crewOf t) fun y => y.startFill (opldSlot (elemOf bytes))
      have hrun : u = (s1.modTile t fun x => x.modCmd c.id fun d => { d with slot := some (opldSlot (elemOf bytes)) }).modTile t fun x =>
        x.modCmd c.id fun d => { d with stage := .started, prog := some p } := rfl
      rw [hrun, State.tile_modTile_same, State.tile_modTile_same]
      rfl
    have hcrew : u.crew (crewOf t) = (s.crew (crewOf t)).startFill (opldSlot (elemOf bytes)) := State.crew_modCrew_same s (crewOf t) fun y => y.startFill (opldSlot (elemOf bytes))
    have hmem : { c with slot := some (opldSlot (elemOf bytes)), stage := .started, prog := some p } ∈ (u.tile t).portage.buffer := by
      rw [hu]
      exact Tile.mem_modCmd (d := { c with slot := some (opldSlot (elemOf bytes)) })
        (Tile.mem_modCmd hc fun d => { d with slot := some (opldSlot (elemOf bytes)) }) fun d => { d with stage := .started, prog := some p }
    refine ⟨by rw [hu]; rfl, ⟨_, hmem, rfl, rfl, rfl, rfl⟩, rfl, by rw [hu]; rfl, fun _ => ?_, fun h => absurd rfl h⟩
    rw [hcrew, Crew.startFill, Crew.slot_modSlot_same]
  · have hu : u = s.cmdRuns t c p := by
      refine (State.runElem.eq_def ..).trans ((if_neg (by decide)).trans ?_)
      cases k with
      | prb => exact absurd (by decide) hk
      | opld => exact absurd rfl ho
      | _ => rfl
    have ht : u.tile t = (s.tile t).modCmd c.id fun d => { d with stage := .started, prog := some p } := by
      rw [hu]
      exact State.tile_modTile_same ..
    have hmem : { c with stage := .started, prog := some p } ∈ (u.tile t).portage.buffer := by
      rw [ht]
      exact Tile.mem_modCmd hc fun d => { d with stage := .started, prog := some p }
    refine ⟨by rw [ht]; rfl, ⟨_, hmem, rfl, rfl, rfl, rfl⟩, by rw [hu]; rfl, by rw [ht]; rfl, fun h => absurd h ho, fun _ => by rw [hu]; rfl⟩

/-- Settles O34. -/
theorem commandOrder : Obligations.CommandOrder := by
  refine ⟨fun s t e c => State.startable_spec, fun s t c hh hp hnext => ?_⟩
  intro starts
  have hx := execCommandStart_eq hh hp hnext
  have hc : c ∈ (s.tile t).portage.buffer := by
    rcases hnext with ⟨h, -⟩ | ⟨h, -⟩ <;> exact (State.startable_spec h).1
  have hb := State.mem_begun hc
  have hstart := s.startCmd_eq t c
  refine ⟨fun o ho => ?_, fun tok f hi => ?_, fun hi => ?_, fun k o hk hea => ?_, fun k o hk hno hea => ?_⟩
  · have hsig : s.startCmd t c = if (s.begun t c).inPair t then (s.begun t c).cmdFault t (c.begun s t c) cPROT 0 0 (0, 0, 0)
        else (s.begun t c).modTile t fun x => x.modCmd c.id fun d => { d with stage := .started } := by
      rcases ho with h | h <;> rw [h] at hstart <;> exact hstart
    rw [State.begun_inPair] at hsig
    refine ⟨fun hpair => ?_, fun hpair => ?_⟩
    · rw [hpair] at hsig
      obtain ⟨h1, h2⟩ := State.begun_modCmd hc fun d => { d with stage := .started }
      exact ⟨_, hx.trans (congrArg _ hsig), h1, _, h2, rfl, rfl, rfl, rfl⟩
    · rw [hpair] at hsig
      obtain ⟨h1, h2, h3, h4, h5⟩ := (s.begun t c).cmdFault_spec t (c.begun s t c) cPROT 0 0 (0, 0, 0)
      refine ⟨_, hx.trans (congrArg _ hsig), h1.trans (s.begun_order t c), _, h4 hb, rfl, rfl, rfl, rfl, fun hf => ?_⟩
      obtain ⟨f, h6, h7, -⟩ := h5 (by rw [State.begun_tile]; exact hf)
      exact ⟨f, h6, h7⟩
  · rw [hi] at hstart
    obtain ⟨h1, h2⟩ := State.begun_modCmd hc fun d => { d with stage := .started }
    exact ⟨_, hx.trans (congrArg _ hstart), h1, _, h2, rfl, rfl, rfl, rfl⟩
  · have hover : s.startCmd t c = (s.begun t c).cmdOver t (c.begun s t c) := by
      rcases hi with ⟨tok, f, h⟩ | ⟨tok, h⟩ <;> rw [h] at hstart <;> exact hstart
    obtain ⟨h1, h2⟩ := State.begun_modCmd hc fun d => { d with stage := .retiring }
    exact ⟨_, hx.trans (congrArg _ hover), h1, _, h2, rfl, rfl, rfl, rfl⟩
  · have helem := State.startCmd_elem (s := s) (t := t) hk
    rw [if_pos hea] at helem
    obtain ⟨h1, h2, h3, h4, h5⟩ := (s.begun t c).cmdFault_spec t (c.begun s t c) cMISALIGN 0 c.ea (0, 0, 0)
    refine ⟨_, hx.trans (congrArg _ helem), h1.trans (s.begun_order t c), _, h4 hb, rfl, rfl, rfl, rfl, h3.trans (by rw [State.begun_tile]; rfl), fun hf => ?_⟩
    exact h5 (by rw [State.begun_tile]; exact hf)
  · have helem := State.startCmd_elem (s := s) (t := t) hk
    rw [if_neg (not_not.2 hea)] at helem
    intro ea bytes begun s1 at' hgood hans hrun
    have hkind : k ≠ .seal ∧ k ≠ .chain := by
      simp only [List.mem_cons, not_or] at hno
      exact ⟨hno.1, hno.2.1⟩
    have hs1 : s1 = s.begun t c := rfl
    have hsp : (s1.tile t).sp = (s.tile t).sp := by
      rw [hs1, State.begun_tile]
      rfl
    have hgood1 : GranulesGood s1 (spSites t ea 64 ++ s1.elemSites t k (elemOf bytes)) := GranulesGood.of_dev hgood rfl
    have hstarts : s.startCmd t c = s1.beginElem t (c.begun s t c) k bytes ea c.resume.1 c.resume.2.1 c.resume.2.2 :=
      State.startCmd_good hk hea hkind.1 fun f hf hm => hgood f hf (List.mem_append_left _ hm)
    have hbegin := State.beginElem_run (ea := ea) (ordinal := c.resume.1) (row := c.resume.2.1) (done := c.resume.2.2) hkind.2 (c := c.begun s t c) hans hrun
      fun f hf hm => hgood1 f hf (List.mem_append_right _ hm)
    rw [hstarts, hbegin] at hx
    refine ⟨fun hpred => ?_, fun hpred => ?_⟩
    · rw [if_pos hpred] at hx
      obtain ⟨h1, h2, h3⟩ := s1.cmdSignal_cmdRuns t (BitVec.ofNat 17 (elemOf bytes).pred) .read (at' .predicate false []) (State.mem_begun hc)
      exact ⟨_, hx, h1.trans (s.begun_order t c), _, h2, rfl, rfl, rfl, rfl, rfl, rfl, h3.trans hsp⟩
    · rw [if_neg (by rw [hpred]; decide)] at hx
      obtain ⟨ho, hm⟩ := State.begun_modCmd hc fun d => { d with answer := none }
      have hlisted : (s1.cmdAnswered t (c.begun s t c)).listed t (k.resolve (elemOf bytes)) (elemOf bytes) = s1.listed t (k.resolve (elemOf bytes)) (elemOf bytes) := by
        have : ((s1.cmdAnswered t (c.begun s t c)).tile t).sp = (s1.tile t).sp := by
          rw [State.cmdAnswered, State.tile_modTile_same]
          rfl
        rw [State.listed, State.listed, this]
      obtain ⟨h1, ⟨d, hd, h2, h3, h4, h5⟩, h6, h7, h8, h9⟩ := (s1.cmdAnswered t (c.begun s t c)).runElem_spec t { c.begun s t c with answer := none } hno bytes ea c.resume.1 c.resume.2.1 c.resume.2.2 hm
      rw [hlisted] at h5
      refine ⟨_, hx, h1.trans ho, d, hd, h2, h3, h4, h5, h6, h7.trans ?_, h8, h9⟩
      rw [State.cmdAnswered, State.tile_modTile_same]
      exact hsp

end Sys2Proof.Machine
end

section
/-! ## Commands of Portage retire; their bytes land (R56, R124, R142, R146, R149, R161, R212) -/

namespace Sys2Proof.Machine

open Sys2Proof

/-! ### A command retires -/

/-- What a queue keeps when the word of an entry has retired. -/
theorem Engine.wordDone_keepRetired {g : Engine} {seq : BitVec 32} {n : Entry} (i : Nat) (h : g.queue.find? (fun n => n.seq = seq) = some n) :
    ((g.wordDone seq).keepRetired seq i).queue.find? (fun n => n.seq = seq) = some { n with pendingWords := n.pendingWords - 1, retired := i :: n.retired } := by
  have hn : n.seq = seq := by simpa using List.find?_some h
  have h1 := find?_modFirst (f := fun n => { n with pendingWords := n.pendingWords - 1 }) h (by simpa using hn)
  exact find?_modFirst (f := fun n => { n with retired := i :: n.retired }) h1 (by simpa using hn)

/-- What a tile keeps when its engines change directories alone. -/
structure SameButDirs (x y : Tile) : Prop where
  tile : y = { x with engines := y.engines }
  eng : ∀ e, y.eng e = { x.eng e with dir := (y.eng e).dir }

theorem sameButDirs_refl (x : Tile) : SameButDirs x x := ⟨rfl, fun _ => rfl⟩

theorem sameButDirs_modEng {x y : Tile} (h : SameButDirs x y) (g : Eng) (f : Engine → Map Nat) :
    SameButDirs x (y.modEng g fun n => { n with dir := f n }) := by
  refine ⟨?_, fun e => ?_⟩
  · rw [h.tile]
    rfl
  · by_cases he : e = g
    · subst he
      rw [Tile.eng_modEng_same, h.eng]
    · rw [Tile.eng_modEng_ne y g e _ he, h.eng]

/-- R142: the sections of a `COVL` change directories alone. -/
theorem State.enterSections_tile (s : State) (t : TileId) (e : Elem) :
    SameButDirs (s.tile t) ((s.enterSections t e).tile t) ∧ (s.enterSections t e).crews = s.crews := by
  unfold State.enterSections
  split
  · exact ⟨sameButDirs_refl _, rfl⟩
  extract_lets g
  refine List.foldlRecOn (motive := fun u : State => SameButDirs (s.tile t) (u.tile t) ∧ u.crews = s.crews) _ _ ⟨sameButDirs_refl _, rfl⟩ fun u hu r _ => ?_
  dsimp only
  split
  · refine List.foldlRecOn (motive := fun u : State => SameButDirs (s.tile t) (u.tile t) ∧ u.crews = s.crews) _ _ hu fun v hv x _ => ?_
    refine ⟨?_, hv.2⟩
    rw [State.modEng, State.tile_modTile_same]
    exact sameButDirs_modEng hv.1 g fun n => n.dir.set x.2 (rowAt e.dst e.dstr r + x.1)
  · exact hu

/-- What the retirement of a command makes complete leaves of the tile. -/
theorem State.cmdEffects_tile (s : State) (t : TileId) (c : PCmd) :
    SameButDirs { s.tile t with image := ((s.cmdEffects t c).tile t).image } ((s.cmdEffects t c).tile t) := by
  unfold State.cmdEffects
  split
  · split
    · exact ⟨rfl, fun _ => rfl⟩
    · exact sameButDirs_refl _
  · split
    · split
      · obtain ⟨⟨h1, h2⟩, -⟩ := s.enterSections_tile t (elemOf (PProgress.elem ‹_›))
        rw [State.tile_modTile_same]
        refine ⟨?_, h2⟩
        exact congrArg (fun x : Tile => { x with image := none }) h1
      · exact sameButDirs_refl _
    · exact sameButDirs_refl _
  · exact sameButDirs_refl _

theorem Crew.endFill_slot (c : Crew) (n : Fin 32) (fin : Bool) :
    let a := c.slot n
    let b := (c.endFill n.val fin).slot n
    b.data = a.data ∧ b.started = a.started - 1 ∧ (a.st = .filling → a.started ≤ 1 → (a.fin = true ∨ fin = true) → b.st = .ready) ∧
    (¬(a.st = .filling ∧ a.started ≤ 1 ∧ (a.fin = true ∨ fin = true)) → b.st = a.st) := by
  intro a b
  have hb : b = if a.st = .filling ∧ (a.fin || fin) = true ∧ a.started - 1 = 0 then { a with started := a.started - 1, fin := a.fin || fin, st := .ready }
      else { a with started := a.started - 1, fin := a.fin || fin } := by
    change (c.endFill n.val fin).slot n = _
    rw [Crew.endFill, show Fin.ofNat 32 n.val = n from Fin.ext (Nat.mod_eq_of_lt n.isLt), Crew.slot_modSlot_same]
  rw [hb]
  split
  next h => 
    obtain ⟨h1, h2, h3⟩ := h
    exact ⟨rfl, rfl, fun _ _ _ => rfl, fun h => absurd ⟨h1, by omega, by simpa using h2⟩ h⟩
  next h => exact ⟨rfl, rfl, fun h1 h2 h3 => absurd ⟨h1, by simpa using h3, by omega⟩ h, fun _ => rfl⟩

/-- A tile without the command that retires; once nothing runs, nobody owns a byte (R149). -/
def Tile.withoutCmd (x : Tile) (id : Nat) : Tile :=
  let buf := x.portage.buffer.filter fun d => d.id ≠ id
  let idle := !buf.any fun d => d.stage = .started || d.stage = .retiring
  { x with portage := { x.portage with buffer := buf, owner := if idle then [] else x.portage.owner } }

theorem execCommandRetire_eq {s : State} {t : TileId} {c : PCmd}
    (hc : (s.tile t).portage.buffer.find? (fun d => d.id = c.id ∧ d.stage = .retiring) = some c) (hp : s.phase = .ending)
    (hf : (s.tile t).portage.flight = []) (hpush : (s.tile t).canPush c.stream c.push = true) :
    exec (.commandRetire t c.id) s = .next ((s.cmdEffects t c).modTile t fun x =>
      ((x.withoutCmd c.id).retireWord c.stream c.seq c.push).modEng c.stream fun g => g.keepRetired c.seq c.index) := by
  have hx : exec (.commandRetire t c.id) s = _ := execCommandRetire.eq_def t c.id s
  dsimp only at hx
  rw [hc] at hx
  exact hx.trans (if_neg (by simp [hp, hf, hpush]))

theorem Tile.token_of_tokens {x y : Tile} (h : y.tokens = x.tokens) (a b : Eng) : y.token a b = x.token a b := by
  rw [Tile.token, h]
  rfl

theorem Tile.eng_pushToken (x : Tile) (e f : Eng) (push : Option Eng) : (x.pushToken e push).eng f = x.eng f := by
  cases push <;> rfl

/-- What the retirement of a word leaves of its tile, with its entry's word kept as retired (R146). -/
theorem Tile.retired_spec (x : Tile) (e : Eng) (seq : BitVec 32) (push : Option Eng) (i : Nat) :
    let y := (x.retireWord e seq push).modEng e fun g => g.keepRetired seq i
    y = { x with tokens := (x.pushToken e push).tokens, engines := y.engines } ∧
    y.eng e = ((x.eng e).wordDone seq).keepRetired seq i ∧ ∀ f, (y.eng f).dir = (x.eng f).dir := by
  intro y
  have he : y.eng e = ((x.eng e).wordDone seq).keepRetired seq i := by
    rw [show y = (x.retireWord e seq push).modEng e _ from rfl, Tile.eng_modEng_same, Tile.retireWord, Tile.eng_modEng_same, Tile.eng_pushToken]
  refine ⟨?_, he, fun f => ?_⟩
  · have h := (x.retireWord_spec e seq push).1
    rw [(x.retireWord_spec e seq push).2] at h
    rw [show y = (x.retireWord e seq push).modEng e _ from rfl, h]
    rfl
  · by_cases hf : f = e
    · rw [hf, he]
      rfl
    · rw [show y = (x.retireWord e seq push).modEng e _ from rfl, Tile.eng_modEng_ne _ e f _ hf, Tile.retireWord, Tile.eng_modEng_ne _ e f _ hf, Tile.eng_pushToken]

/-! ### Bytes that land -/

/-- Owners that are set to one value. -/
theorem Map.get_foldl_set {α β : Type} (key : β → Nat) (v d : α) (l : List β) (m : Map α) :
    (∀ b ∈ l, (l.foldl (fun m b => m.set (key b) v) m).get (key b) d = v) ∧
    ∀ k, (∀ b ∈ l, key b ≠ k) → (l.foldl (fun m b => m.set (key b) v) m).get k d = m.get k d := by
  induction l generalizing m with
  | nil => exact ⟨nofun, fun _ _ => rfl⟩
  | cons c l ih =>
    obtain ⟨h1, h2⟩ := ih (m.set (key c) v)
    refine ⟨fun b hb => ?_, fun k hk => ?_⟩
    · by_cases hin : ∃ a ∈ l, key a = key b
      · obtain ⟨a, ha, hab⟩ := hin
        rw [← hab]
        exact h1 a ha
      · push Not at hin
        obtain rfl : b = c := (List.mem_cons.1 hb).resolve_right fun hl => hin b hl rfl
        exact (h2 _ hin).trans (Map.get_set_same ..)
    · obtain ⟨hc, hl⟩ := List.forall_mem_cons.1 hk
      exact (h2 k hl).trans (Map.get_set_ne _ _ _ _ _ hc.symm)

theorem State.landPortage_own {s : State} {t : TileId} {bs : List (Nat × Byte × Byte)} (hf : (s.tile t).portage.flight = [(none, .bytes (.sp t) bs)])
    (hfit : (s.tile t).linesFit .write (linesOf (bs.map Prod.fst)) = true) :
    s.landPortage t = ((s.modTile t fun x => { x.useLines .write (linesOf (bs.map Prod.fst)) with portage := { x.portage with flight := [] } }).modTile t fun x =>
      { x with sp := x.sp.writeMasked bs }).wroteSp t bs := by
  have hlines : (PWrite.bytes (.sp t) bs).lines = (linesOf (bs.map Prod.fst), false) := rfl
  have hsplit : (s.tile t).splitFlight = ((s.tile t).useLines .write (linesOf (bs.map Prod.fst)), [(none, .bytes (.sp t) bs)], []) := by
    rw [Tile.splitFlight, hf]
    simp only [List.foldl_cons, List.foldl_nil, hlines, List.any_nil, Bool.not_false, hfit, Bool.true_and, Bool.true_or, if_true, List.nil_append]
    rfl
  have ht : s.modTile t (fun _ => { (s.tile t).useLines .write (linesOf (bs.map Prod.fst)) with
      portage := { ((s.tile t).useLines .write (linesOf (bs.map Prod.fst))).portage with flight := [] } }) =
    s.modTile t fun x => { x.useLines .write (linesOf (bs.map Prod.fst)) with portage := { x.portage with flight := [] } } := rfl
  rw [State.landPortage, hsplit]
  exact congrArg (fun u : State => (u.modTile t fun x => { x with sp := x.sp.writeMasked bs }).wroteSp t bs) ht

/-- Settles O35. -/
theorem commandsRetire : Obligations.CommandsRetire := by
  refine ⟨fun s t c => ?_, fun s t bs => ?_⟩
  · intro x hc hp hf hpush
    have hx := execCommandRetire_eq hc hp hf hpush
    obtain ⟨h1, h2⟩ := s.cmdEffects_tile t c
    refine ⟨_, hx, ?_⟩
    generalize hz : (s.cmdEffects t c).tile t = z at h1 h2
    intro y
    obtain ⟨h3, h4, h5⟩ := (z.withoutCmd c.id).retired_spec c.stream c.seq c.push c.index
    have hy : y = _ := (State.tile_modTile_same (s.cmdEffects t c) t _).trans (by rw [hz])
    rw [← hy] at h3 h4 h5
    have hport : z.portage = x.portage := by rw [h1]
    refine ⟨?_, ?_, ?_, fun a b => ?_, fun n hn => ?_, fun o fin n hi hslot => ?_, fun o p hi hprog => ⟨fun hran => ?_, fun hran => ?_⟩⟩
    · rw [h3, ← hport]
      rfl
    · rw [h3]
      change z.sp = x.sp
      rw [h1]
    · rw [h3]
      change z.cox = x.cox
      rw [h1]
    · have hy : y.tokens = ((z.withoutCmd c.id).pushToken c.stream c.push).tokens := by rw [h3]
      have hz : (z.withoutCmd c.id).tokens = x.tokens := by
        change z.tokens = x.tokens
        rw [h1]
      rw [Tile.token_of_tokens hy, Tile.token_pushToken, Tile.token_of_tokens hz]
    · rw [h4]
      refine Engine.wordDone_keepRetired c.index ?_
      rw [show (z.withoutCmd c.id).eng c.stream = _ from h2 c.stream]
      exact hn
    · have hcrews : (s.cmdEffects t c).crew (crewOf t) = (s.crew (crewOf t)).endFill n.val fin := by
        rw [State.cmdEffects, hi, hslot]
        exact State.crew_modCrew_same ..
      rw [State.crew_modTile, hcrews]
      exact Crew.endFill_slot _ n fin
    · rw [h3]
      change z.image = none
      rw [← hz, State.cmdEffects, hi, hprog]
      dsimp only
      rw [if_pos hran, State.tile_modTile_same]
    · have hsame : s.cmdEffects t c = s := by
        rw [State.cmdEffects, hi, hprog]
        exact if_neg (by rw [hran]; decide)
      obtain rfl : s.tile t = z := by rw [← hz, hsame]
      exact ⟨by rw [h3]; rfl, h5⟩
  · intro x
    refine ⟨fun order key => ?_, fun order key => ?_, fun hf hnodup hfit => ?_⟩
    · intro u mine
      have hu : u.2 = bs.filter fun b => (x.portage.owner.get (key b.1) (0, 0)).2 ≤ order := rfl
      have hmem : ∀ b, b ∈ u.2 ↔ b ∈ bs ∧ mine b.1 := fun b => by
        rw [hu, List.mem_filter, decide_eq_true_eq]
      let f (x : Tile) : Tile := { x with portage := { x.portage with
        owner := u.2.foldl (fun m b => m.set (key b.1) (order, order)) (s.tile t).portage.owner } }
      have hu1 : u.1 = s.modTile t f := rfl
      have ht : u.1.tile t = f x := State.tile_modTile_same s t f
      obtain ⟨h1, h2⟩ := Map.get_foldl_set (fun b : Nat × Byte × Byte => key b.1) (order, order) (0, 0) u.2 x.portage.owner
      refine ⟨hu1 ▸ onlyTile_modTile s t f, by rw [ht], hmem, fun b hb hm => ?_, fun k hk => ?_⟩
      · rw [ht]
        exact h1 b ((hmem b).2 ⟨hb, hm⟩)
      · rw [ht]
        exact h2 k fun b hb => hk b ((hmem b).1 hb).1 ((hmem b).1 hb).2
    · intro o
      refine ⟨decide_eq_true_iff, fun k => ?_⟩
      by_cases hk : k = key
      · rw [if_pos hk, hk]
        exact Map.get_set_same ..
      · rw [if_neg hk]
        exact Map.get_set_ne _ _ _ _ _ hk
    · intro v y
      let f (x : Tile) : Tile := { x.useLines .write (linesOf (bs.map Prod.fst)) with portage := { x.portage with flight := [] } }
      let g (x : Tile) : Tile := { x with sp := x.sp.writeMasked bs }
      have hv : v = ((s.modTile t f).modTile t g).wroteSp t bs := State.landPortage_own hf hfit
      have hy : y = g (f x) := by
        rw [show y = v.tile t from rfl, hv, State.tile_wroteSp, State.tile_modTile_same, State.tile_modTile_same]
      refine ⟨?_, fun u hu => ?_, by rw [hy], fun a ha => ?_, fun b hb n => ?_⟩
      · rw [hv, State.wroteSp, State.modDev, DevMem.wrote_eq]
        rfl
      · rw [hv, State.tile_wroteSp, State.tile_modTile_ne _ t u _ hu, State.tile_modTile_ne _ t u _ hu]
      · rw [hy]
        exact Memory.get_writeMasked_outside bs _ a ha
      · rw [hy, ← getLsbD_mergeBits]
        exact congrArg (fun v : Byte => v.getLsbD n.val) (Memory.get_writeMasked_inside bs _ hnodup b hb)

end Sys2Proof.Machine
end

section
/-! ## Reads deferred by refresh (R90, R91): two commands with one id -/

namespace Sys2Proof.Machine

open Sys2Proof

/-- The 64 bytes of an element that copies 32 bytes at virtual address 0 to scratchpad. -/
def twinElem : List Byte := List.replicate 16 0 ++ [32, 0, 0, 0, 1, 0, 0, 0] ++ List.replicate 20 0 ++ [0x10] ++ List.replicate 19 0

/-- A `CPY` whose first unit is opened and whose read has been deferred already. -/
def twinProgress : PProgress :=
  { PProgress.start twinElem 0 0 .rows true 1 0 with units := [⟨0, 0, 32, false⟩], deferred := true }

/-- That command, started. -/
def twinOp : ElemOp := ⟨⟨none, none⟩, .none, 0, none, .rne⟩
def twinStarted : PCmd :=
  { id := 0, stream := .l, instr := .cpy twinOp, push := none, seq := 0, index := 0, sec := 0, t := 0, startOrder := 1, a := 0,
    b := 0, bfmts := [], stage := .started, prog := some twinProgress, resume := (0, 0, 0), waitFor := 0, slot := none, offset := 0, serial := false,
    mark := 0, answer := none }

/-- Another command of the same id, still buffered: no hypothesis of the statement keeps it away. -/
def twinBuffered : PCmd := { twinStarted with stage := .buffered, prog := none }

/-- A state whose first page of virtual space, of 1 GiB, lies in a weight store; its refresh group 0 refreshes in cycle 0. -/
def twinState : State :=
  ({ State.reset with dev := { State.reset.dev with ptes := [(0, 0x101), (512, 0xB3)] } } : State).modTile 0 fun x =>
    { x with portage := { x.portage with buffer := [twinStarted, twinBuffered] } }

theorem twinState_refreshing : twinState.refreshing 0 0 = true := by
  decide

theorem twinState_plan : twinState.plan 0 twinStarted .copy twinProgress.element = .ok ⟨0, 0, 32, 32, 32, true⟩ := by
  rfl

theorem twinState_line : twinState.nextLine 0 .copy twinProgress.element ⟨0, 0, 32, 32, 32, true⟩ twinProgress = some 0 := by
  decide

theorem twinState_missing : (twinState.unitLines 0 .copy twinProgress.element ⟨0, 0, 32, 32, 32, true⟩ ⟨0, 0, 32, false⟩).all twinProgress.has = false := by
  decide

/-- The read is deferred already, so the turn leaves the state as it is. -/
theorem twinState_granule : twinState.granule 0 0 = twinState := by
  have hturn : twinState.granule 0 0 = twinState.elemTurn 0 twinStarted .copy twinProgress := rfl
  have hfetch : twinState.elemTurn 0 twinStarted .copy twinProgress =
      twinState.fetchLine 0 twinStarted .copy twinProgress.element ⟨0, 0, 32, 32, 32, true⟩ twinProgress 0 := rfl
  rw [hturn, hfetch, State.fetchLine, if_pos (by decide), if_pos twinState_refreshing]
  rfl

/-- Refutes O36: the last clause says of every command of the buffer that has the id of the command at work that it is started, and
the state's buffer holds another, buffered, of that id; the read having been deferred before, the turn changes nothing. -/
theorem not_tceAndRefresh : ¬ Obligations.TceAndRefresh := by
  intro h
  obtain ⟨-, -, h⟩ := h.2 twinState
  have hv := h 0 twinStarted twinOp twinProgress ⟨0, 0, 32, 32, 32, true⟩ ⟨0, 0, 32, false⟩ [] 0 (by decide) rfl rfl rfl rfl (by decide) twinState_plan rfl rfl
    twinState_missing twinState_line twinState_refreshing
  obtain ⟨-, -, -, h⟩ := hv
  rw [show twinState.granule 0 twinStarted.id = twinState from twinState_granule] at h
  obtain ⟨hst, -⟩ := h twinBuffered (by decide) rfl
  exact absurd hst (by decide)

end Sys2Proof.Machine
end

section
/-! ## Flits that a station holds -/

namespace Sys2Proof.Machine

open Sys2Proof

/-- What is listed is read, where it is not what an unlisted key reads as. -/
theorem Map.mem_of_get_ne {α : Type} {m : Map α} {k : Nat} {d : α} (h : m.get k d ≠ d) : (k, m.get k d) ∈ m := by
  induction m with
  | nil => exact absurd rfl h
  | cons e m ih =>
    obtain ⟨j, v⟩ := e
    unfold Map.get at h ⊢
    split
    next hj => exact hj ▸ List.mem_cons_self
    next hj =>
      rw [if_neg hj] at h
      exact List.mem_cons_of_mem _ (ih h)

/-- A station of a die has a flit to inject. -/
def State.sends (s : State) (d : DieId) (st : Nat) (g : Flit) : Prop := g ∈ (s.die d).stations.get st []

theorem State.sends_allFlits {s : State} {d : DieId} {st : Nat} {g : Flit} (h : s.sends d st g) : g ∈ s.allFlits := by
  have hst : (st, (s.die d).stations.get st []) ∈ (s.die d).stations := Map.mem_of_get_ne (List.ne_nil_of_mem h)
  have hd : (d.val, s.die d) ∈ s.dies := by
    refine Map.mem_of_get_ne fun k => ?_
    rw [State.sends, State.die, k] at h
    exact absurd h List.not_mem_nil
  exact List.mem_flatMap.2 ⟨_, hd, List.mem_append_left _ (List.mem_append_right _ (List.mem_flatMap.2 ⟨_, hst, h⟩))⟩

theorem State.sends_sendFlit_new (s : State) (src dst : Nat) (c : Cls) (m : Msg) (timed : Bool) :
    (s.sendFlit src dst c m timed).sends (Fin.ofNat 4 (src / 132)) (src % 132) ⟨src, dst, c, 0, 0, timed, m⟩ := by
  rw [State.sends, State.sendFlit, State.die_modDie_same, Map.get_set_same]
  exact List.mem_append_right _ List.mem_cons_self

theorem State.sends_sendFlit {s : State} {d : DieId} {st : Nat} {g : Flit} (h : s.sends d st g) (src dst : Nat) (c : Cls) (m : Msg) (timed : Bool) :
    (s.sendFlit src dst c m timed).sends d st g := by
  unfold State.sends State.sendFlit at *
  by_cases hd : d = Fin.ofNat 4 (src / 132)
  · subst hd
    rw [State.die_modDie_same]
    by_cases hst : st = src % 132
    · subst hst
      rw [Map.get_set_same]
      exact List.mem_append_left _ h
    · rw [Map.get_set_ne _ _ _ _ _ hst]
      exact h
  · rw [State.die_modDie_ne _ _ _ _ hd]
    exact h

/-- Flits for a list of tiles. -/
theorem State.foldl_sendFlit (src : Nat) (dst : TileId → Nat) (c : Cls) (m : TileId → Msg) (l : List TileId) (s : State) :
    let u := l.foldl (fun s t => s.sendFlit src (dst t) c (m t)) s
    u.dev = s.dev ∧ (∀ d st g, s.sends d st g → u.sends d st g) ∧
    ∀ t ∈ l, u.sends (Fin.ofNat 4 (src / 132)) (src % 132) ⟨src, dst t, c, 0, 0, false, m t⟩ := by
  induction l generalizing s with
  | nil => exact ⟨rfl, fun _ _ _ h => h, nofun⟩
  | cons t l ih =>
    obtain ⟨h1, h2, h3⟩ := ih (s.sendFlit src (dst t) c (m t))
    refine ⟨h1, fun d st g h => h2 d st g (State.sends_sendFlit h ..), List.forall_mem_cons.2 ⟨h2 _ _ _ (s.sends_sendFlit_new ..), h3⟩⟩

end Sys2Proof.Machine
end

section
/-! ## The recast collective (R70, R81 to R85) -/

namespace Sys2Proof.Machine

open Sys2Proof

/-- R154: the message at the head of its class, where its order lets it be served. -/
theorem State.serveClass_head {s : State} {h : HomeId} {c : Cls} {k : Msg → Option State} {f : Flit} {rest : List Flit} {u : State}
    (hq : (s.die (Fin.ofNat 4 (h.val / 2))).ingress.get (ingressKey (128 + h.val % 2) c) [] = f :: rest) (ho : s.flitInOrder h f = true)
    (hk : k f.msg = some u) :
    s.serveClass h c k = some (u.modDie (Fin.ofNat 4 (h.val / 2)) fun x => { x with ingress := x.ingress.set (ingressKey (128 + h.val % 2) c) rest }) := by
  have hpick : pickFirst (fun f => if s.flitInOrder h f then k f.msg else none) (f :: rest) = some (u, rest) := by
    rw [pickFirst]
    simp only [ho, if_true, hk]
  rw [State.serveClass]
  simp only [hq, hpick]

theorem State.recastArrive_counts {s : State} {h : HomeId} {t : TileId} {r : Req} {ext lo hi : Nat} {role : Role} {fresh : Bool} {sig : Option (BitVec 17)}
    {e : Extent} (ha : r.act = .recast ext lo hi role fresh sig) (he : s.extent? ext = some e) (hf : e.recastFault lo hi role fresh = none)
    (hc : ∀ c, e.coll = some c → c.convert = false ∧ c.lo = lo ∧ c.hi = hi ∧ c.role = role ∧ c.fresh = fresh ∧ c.sig = sig) :
    ∃ c', c'.count = (e.coll.map Collective.count).getD 0 + 1 ∧ c'.convert = decide (c'.count = e.holders) ∧ t ∈ c'.arrived ∧
      s.recastArrive h t r = some ((s.setExtent ext { e with coll := some c' }).accept h t r) := by
  let c : Collective := e.coll.getD ⟨lo, hi, role, fresh, sig, 0, false, []⟩
  refine ⟨{ c with count := c.count + 1, arrived := t :: c.arrived, convert := c.count + 1 == e.holders }, ?_, rfl, List.mem_cons_self, ?_⟩
  · show c.count + 1 = _
    simp only [c]
    cases e.coll <;> rfl
  · have hsame : ¬(c.lo ≠ lo ∨ c.hi ≠ hi ∨ c.role ≠ role ∨ c.fresh ≠ fresh ∨ c.sig ≠ sig) := by
      simp only [c]
      cases hcoll : e.coll with
      | none => simp
      | some c' =>
        obtain ⟨-, h1, h2, h3, h4, h5⟩ := hc c' hcoll
        simp [h1, h2, h3, h4, h5]
    have hconv : ¬e.converting = true := by
      rw [Extent.converting]
      cases hcoll : e.coll with
      | none => simp
      | some c' => simp [(hc c' hcoll).1]
    rw [State.recastArrive, ha]
    simp only [he, if_neg hconv, hf]
    exact if_neg hsame

/-- Settles O23. -/
theorem recastCollective : Obligations.RecastCollective := by
  refine fun s => ⟨fun h t r f rest ext lo hi role fresh sig e => ?_, fun ext e c he hc hconv hfrozen => ?_⟩
  · intro d key hfrozen hmsg hcls hact hq hwrites hext hfault hcoll
    obtain ⟨c', h1, h2, h3, h4⟩ := State.recastArrive_counts (h := h) (t := t) hact hext hfault hcoll
    have hx : exec (.recastArrival h) s = _ := execRecastArrival.eq_def h s
    rw [if_neg (by rw [hfrozen]; decide), State.serveClass_head (u := (s.setExtent ext { e with coll := some c' }).accept h t r) hq
      (by rw [State.flitInOrder, hwrites, Bool.or_true]) (by rw [hmsg]; exact h4)] at hx
    exact ⟨_, hx, { e with coll := some c' }, c', Map.find?_set_same .., rfl, h1, h2, h3, rfl⟩
  · have hpages : ¬(c.convert = false ∨ (e.pages.all fun p => (pageDies e.tier p.1).all fun d => !(s.die d).frozen) = false) := by
      simp [hconv, hfrozen]
    have hx : exec (.recastFlip ext) s = _ := execRecastFlip.eq_def ext s
    rw [he] at hx
    dsimp only at hx
    rw [hc] at hx
    dsimp only at hx
    rw [if_neg hpages] at hx
    refine ⟨_, hx, ?_⟩
    have hall := fun src z => State.foldl_sendFlit src tileStation .control (fun t => .flipNotice t ext.val) c.arrived.eraseDups z
    refine ⟨fun e' he' => ?_, fun w hw => ?_, fun t ht =>
      ⟨_, State.sends_allFlits ((hall _ _).2.2 t (List.mem_eraseDups.2 ht)), rfl, rfl⟩⟩
    · rw [State.extent?, (hall _ _).1] at he'
      have hflip : ∀ z : State, (z.flip ext.val e c).extent? ext.val = some e' → e'.coll = none := fun z hz => by
        rw [← Option.some.inj ((Map.find?_set_same ..).symm.trans hz)]
      exact hflip (s.flipReads e c) (by cases hs : c.sig <;> rw [hs] at he' <;> exact he')
    · simp only [hw]
      exact ⟨_, State.sends_allFlits ((hall _ _).2.1 _ _ _ (State.sends_sendFlit_new ..)), rfl, rfl⟩

end Sys2Proof.Machine
end

section
/-! ## Step programs (R241 to R246) -/

namespace Sys2Proof.Machine

open Sys2Proof

theorem State.stepReady_of_stepRuns {s : State} {g : Fin 4096} {p : Program} (h : StepRuns s g p) :
    s.curGroup = g.val ∧ s.stepReady g.val = true := by
  obtain ⟨hcur, hp, ho, hn, hb, hf, hl, ha⟩ := h
  refine ⟨by rw [State.curGroup, hcur], ?_⟩
  have hbusy : s.cpBusy g.val p.cp = false := by
    rw [State.cpBusy, List.any_eq_false]
    intro k hk
    cases hq : k.2.prog with
    | none => simp
    | some q =>
      have := ha k hk
      simp only [Bool.and_eq_true, bne_iff_ne, beq_iff_eq]
      rintro ⟨h1, h2, h3⟩
      exact absurd (this h1 q hq h2) (by rw [h3]; decide)
  rw [State.stepReady, hp]
  dsimp only
  rw [hbusy, ho, hf, hl]
  rcases hn with hn | hn <;> simp [hn, hb]

/-- The state after what a step comes to. -/
def State.stepped (s : State) (g : Nat) (p : Program) : StepRes → State
  | .wait => s.modProgram g fun p => { p with busy := false }
  | .waitIn u => u.modProgram g fun p => { p with busy := true }
  | .past u => u
  | .fault code => s.groupFault g code p.pc
  | .done k u => u.modProgram g k

theorem State.runStep_of_stepRuns {s : State} {g : Fin 4096} {p : Program} (h : StepRuns s g p) (f : Group → Program → StepRes) :
    s.runStep f = s.stepped g.val p (f (s.group g.val) p) := by
  obtain ⟨hg, hr⟩ := State.stepReady_of_stepRuns h
  simp only [State.runStep, hg, h.program, hr, Bool.true_eq_false, if_false]
  cases f (s.group g.val) p <;> rfl

/-- The step at work, run: what it comes to, and the state that this leaves. -/
theorem exec_of_stepRuns {s : State} {g : Fin 4096} {p : Program} (h : StepRuns s g p) {i : Instr} {f : Group → Program → StepRes}
    (hi : exec i s = .next (s.runStep f)) {r : StepRes} (hr : f (s.group g.val) p = r) :
    exec i s = .next (s.stepped g.val p r) := by
  rw [hi, State.runStep_of_stepRuns h, hr]

theorem vecOk_iff {f : Lane} {n : Nat} :
    vecOk f n = true ↔ fmtKind f ≠ 8 ∧ fmtKind f ≠ 9 ∧ (fmtIsBlock f = true → n % fmtBlockLen f = 0) := by
  rw [vecOk]
  cases fmtIsBlock f <;> simp [and_assoc]

theorem rawClash_iff {a b : Lane} : rawClash a b = true ↔ (fmtKind a = 0 ∨ fmtKind b = 0) ∧ a ≠ b := by
  simp [rawClash]

/-- R241, R244: the faults of a vector's area, in the order in which a step comes to them. -/
theorem Program.areaFault_cases (p : Program) (o n : Nat) (f : Lane) :
    let stored : Prop := fmtKind f ≠ 8 ∧ fmtKind f ≠ 9 ∧ (fmtIsBlock f = true → n % fmtBlockLen f = 0)
    let inside := 0 ≤ p.eff o ∧ p.eff o + vecSize f n ≤ p.limit
    let aligned := (p.eff o).toNat % max 1 (fmtContainer f / 8) = 0
    (¬stored → p.areaFault o n f = some cSGBAD) ∧ (stored → ¬inside → p.areaFault o n f = some cWINDOW) ∧
    (stored → inside → ¬aligned → p.areaFault o n f = some cMISALIGN) ∧ (stored → inside → aligned → p.areaFault o n f = none) := by
  intro stored inside aligned
  have hs : stored ↔ vecOk f n = true := vecOk_iff.symm
  have hi : inside ↔ ¬(p.eff o < 0 ∨ (p.limit : Int) < p.eff o + vecSize f n) := by simp only [inside]; omega
  rw [Program.areaFault, hs, hi]
  refine ⟨fun h => if_pos (by simpa using h), fun h k => ?_, fun h k l => ?_, fun h k l => ?_⟩
  · rw [if_neg (by simp [h]), if_pos (not_not.1 k)]
  · rw [if_neg (by simp [h]), if_neg k, if_pos l]
  · rw [if_neg (by simp [h]), if_neg k, if_neg (not_not.2 l)]

theorem Program.area?_eq_none {p : Program} {o n : Nat} {f : Lane} (h : ∃ l ∈ p.lines o n f, p.got.find? l = none) :
    p.area? o n f = none := by
  obtain ⟨l, hl, hn⟩ := h
  refine if_neg fun k => ?_
  have := List.all_eq_true.1 k l hl
  rw [hn] at this
  exact absurd this (by decide)

theorem Program.area?_eq_some {p : Program} {o n : Nat} {f : Lane} (h : ∀ l ∈ p.lines o n f, p.got.find? l ≠ none) :
    p.area? o n f = some ((List.range (vecSize f n)).map fun j => p.got.get (p.at' o + j) 0) := by
  rw [Program.area?, if_pos (List.all_eq_true.2 fun l hl => Option.isSome_iff_ne_none.2 (h l hl)), numbersFrom, List.map_map]
  rfl

theorem removeFirst_eq_none {α : Type} {p : α → Bool} {l : List α} (h : ∀ a ∈ l, p a = false) : removeFirst p l = none := by
  induction l with
  | nil => rfl
  | cons a l ih =>
    rw [removeFirst, h a List.mem_cons_self, ih fun b hb => h b (List.mem_cons_of_mem _ hb)]
    rfl

theorem Program.nextMessage_eq_none {p : Program} {src : Nat} {l : List Parcel}
    (h : ∀ m ∈ l, ¬(m.src = src ∧ m.no = p.taken.get src 0)) : p.nextMessage src l = none :=
  removeFirst_eq_none fun m hm => by simpa using h m hm

theorem length_decodeVec (f : Lane) (n : Nat) (l : List Byte) : (decodeVec f n l).length = n := by
  rw [decodeVec, List.length_map, List.length_range]

theorem State.curGroup_writeArea (s : State) (g o n : Nat) (f : Lane) (p : Program) (l : List Byte) :
    (s.writeArea g o n f p l).curGroup = s.curGroup := by
  have key : ∀ {α : Type} (src dst : Nat) (m : α → Msg) (ks : List α) (u : State),
      (ks.foldl (fun u k => u.sendFlit src dst .write (m k)) u).curGroup = u.curGroup := fun src dst m ks => by
    induction ks with
    | nil => exact fun _ => rfl
    | cons k ks ih => exact fun u => (ih _).trans rfl
  exact (key ..).trans rfl

theorem State.rrs_of_areaFault {s : State} {e : Group} {p : Program} {o : DataStep} {f2 f3 : Lane} {snd : Bool} {dest : Nat}
    {ys : List Val} {xs : Option (List Val)} {c : Byte} (h : p.areaFault o.off.toNat (o.nel1.toNat + 1) f3 = some c) :
    s.rrs e p o f2 f3 snd dest ys xs = .fault c := by
  simp only [State.rrs, h]

/-- R112, R244: `RRS` rounds twice, writes its area and, where it also sends, sends what it wrote. -/
theorem State.rrs_of_areaOk {s : State} {e : Group} {p : Program} {o : DataStep} {f2 f3 : Lane} {snd : Bool} {dest : Nat}
    {ys vs : List Val} {xs : Option (List Val)} (h : p.areaFault o.off.toNat (o.nel1.toNat + 1) f3 = none)
    (hn : ys.length = o.nel1.toNat + 1)
    (hvs : (match xs with
      | some xs => List.zipWith (Val.add (p.rm == .rdn)) xs ys
      | none => ys) = vs) :
    let r := encodeVec f2 vs p.rm
    let w := reencode f2 f3 (o.nel1.toNat + 1) r.bytes p.rm
    let u := s.writeArea s.curGroup o.off.toNat (o.nel1.toNat + 1) f3 p w.bytes
    s.rrs e p o f2 f3 snd dest ys xs = .done (fun p => ((p.flag r).flag w).advance)
      (if snd ∧ p.count ≠ 1 then u.sendMessage u.curGroup e p dest f3 (o.nel1.toNat + 1) w.bytes else u) := by
  subst hvs
  simp only [State.rrs, h, rrsVec, hn] <;> rfl

/-- R235: what the end of a program leaves of its group, and that it reaches nothing else. -/
theorem State.endGroup_spec {s : State} {g : Nat} {p : Program} (h : (s.group g).prog = some p) (code : Byte) (step origin : Nat) (remote : Bool) :
    (s.endGroup g code step origin remote).group g =
      { s.group g with st := .ended, status := statusWord p code step origin remote, prog := none } := by
  rw [State.endGroup, State.group_modGroup_same, h]

theorem State.endGroup_fab_sent (s : State) (g : Nat) (code : Byte) (step origin : Nat) (remote : Bool) :
    (s.endGroup g code step origin remote).fab.sent = s.fab.sent := rfl

/-- R245, R246: the state in which a program's `DONE` has sent the add of DONESIG. -/
def State.doneAdd (s : State) (e : Group) (p : Program) : State := match p.donesig with
  | some d => s.signalAt (cpStation p.cp) (some e.owner) d.2.1 ⟨d.2.2, .rel, d.1, .atom .add false 1⟩ none
  | none => s

theorem State.doneAdd_group (s : State) (e : Group) (p : Program) (g : Nat) : (s.doneAdd e p).group g = s.group g := by
  unfold State.doneAdd State.signalAt
  split
  · split <;> rfl
  · rfl

theorem State.doneAdd_dev (s : State) (e : Group) (p : Program) : (s.doneAdd e p).dev = s.dev := by
  unfold State.doneAdd State.signalAt
  split
  · split <;> rfl
  · rfl

theorem State.doneAdd_curGroup (s : State) (e : Group) (p : Program) : (s.doneAdd e p).curGroup = s.curGroup := by
  unfold State.doneAdd State.signalAt
  split
  · split <;> rfl
  · rfl

theorem State.stepDone_spec (s : State) (g : Fin 4096) (p : Program) (h : (s.group g.val).prog = some p) :
    let e := s.group g.val
    let u := (s.doneAdd e p).endGroup g.val 0 0 0 false
    let f := u.group g.val
    f.st = .ended ∧ f.prog = none ∧ f.gen = e.gen ∧ f.owner = e.owner ∧ f.inbox = e.inbox ∧
    f.status.toNat % 2 ^ 8 = 0 ∧ f.status.getLsbD 8 = false ∧ f.status.toNat / 2 ^ 16 = 0 ∧
    u.dev = s.dev ∧ (p.donesig = none → u.fab.sent = s.fab.sent) ∧
    (∀ sc w, p.donesig = some (sc, s.sys.pkg, w) →
      ∃ q ∈ u.allFlits, q.dst = homeStation (signalHome w) ∧ q.msg = .oper (some e.owner) w (.atom .add false 1) none) ∧
    ∀ sc pkg w, p.donesig = some (sc, pkg, w) → pkg ≠ s.sys.pkg →
      ∃ k ∈ u.fab.sent, k.pkt.dst = pkg ∧ k.pkt.body = .flag ⟨w, .rel, sc, .atom .add false 1⟩ := by
  intro e u f
  have hgrp := s.doneAdd_group e p g.val
  have hf : f = { e with st := .ended, status := statusWord p 0 0 0 false, prog := none } :=
    (State.endGroup_spec (by rw [hgrp]; exact h) ..).trans (by rw [hgrp])
  have hst : ∃ n < 8, f.status.toNat = n * 512 := by
    rw [hf]
    refine ⟨(if p.ovf then 4 else 0) + (if p.blkunf then 2 else 0) + (if p.blkovf then 1 else 0), ?_, ?_⟩
    · cases p.ovf <;> cases p.blkunf <;> cases p.blkovf <;> decide
    · show (statusWord ..).toNat = _
      rw [statusWord]
      cases p.ovf <;> cases p.blkunf <;> cases p.blkovf <;> rfl
  obtain ⟨n, hn, hs⟩ := hst
  refine ⟨by rw [hf], by rw [hf], by rw [hf], by rw [hf], by rw [hf], by omega, ?_, by omega, s.doneAdd_dev e p, fun hd => ?_,
    fun sc w hd => ?_, fun sc pkg w hd hpkg => ?_⟩
  · rw [← BitVec.testBit_toNat, Nat.testBit_eq_decide_div_mod_eq, hs]
    simp only [decide_eq_false_iff_not]
    omega
  · show (s.doneAdd e p).fab.sent = _
    rw [State.doneAdd, hd]
  · have hu : s.doneAdd e p = s.sendFlit (cpStation p.cp) (homeStation (signalHome w)) .signal (.oper (some e.owner) w (.atom .add false 1) none) := by
      rw [State.doneAdd, hd]
      exact if_pos rfl
    have hmem : ∀ q, q ∈ (s.doneAdd e p).allFlits → q ∈ u.allFlits := fun _ hq => hq
    rw [hu] at hmem
    exact ⟨_, hmem _ (State.sends_allFlits (State.sends_sendFlit_new ..)), rfl, rfl⟩
  · have hu : s.doneAdd e p = s.sendPacket pkg (.flag ⟨w, .rel, sc, .atom .add false 1⟩) none none := by
      rw [State.doneAdd, hd]
      exact if_neg hpkg
    have hmem : ∀ k, k ∈ (s.doneAdd e p).fab.sent → k ∈ u.fab.sent := fun _ hk => hk
    rw [hu] at hmem
    exact ⟨_, hmem _ (List.mem_append_right _ List.mem_cons_self), rfl, rfl⟩

/-- Settles O41: each step is run by `exec_of_stepRuns`, and its checks are those of the model in order. -/
theorem stepPrograms : Obligations.StepPrograms := by
  refine ⟨fun s g p hr => ?_, fun s g p hr => ?_⟩
  · intro e on busy stops waits up down names stored clash area reads receives
    have hg : s.curGroup = g.val := (State.stepReady_of_stepRuns hr).1
    have hstored : ∀ {f : Lane} {n : Nat}, stored f n ↔ vecOk f n = true := vecOk_iff.symm
    have hclash : ∀ {a b : Lane}, clash a b ↔ rawClash a b = true := rawClash_iff.symm
    have hpeer : ∀ pm k, p.peer pm k true = names pm k := fun pm k => by cases pm <;> rfl
    have harea : ∀ {i : Instr} {o n : Nat} {f : Lane} {k : Prop}, (∀ c, p.areaFault o n f = some c → stops i c) →
        (p.areaFault o n f = none → k) → area i o n f k := fun hc hk => by
      obtain ⟨h1, h2, h3, h4⟩ := p.areaFault_cases _ _ _
      exact ⟨fun a => hc _ (h1 a), fun a b => hc _ (h2 a b), fun a b c => hc _ (h3 a b c), fun a b c => hk (h4 a b c)⟩
    have hreads : ∀ {i : Instr} {o n : Nat} {f : Lane} {k : List Byte → Prop},
        (p.area? o n f = none → exec i s = busy (s.askArea g.val p o n f) true) → (∀ l, p.area? o n f = some l → k l) →
        reads i o n f k := fun h1 h2 => ⟨fun a => h1 (Program.area?_eq_none a), fun a => h2 _ (Program.area?_eq_some a)⟩
    have hrecv : ∀ {i : Instr} {src : Nat} {k : Parcel → List Parcel → Prop}, (p.nextMessage src e.inbox = none → waits i) →
        (∀ m rest, p.nextMessage src e.inbox = some (m, rest) → k m rest) → receives i src k :=
      fun h1 h2 => ⟨fun a => h1 (Program.nextMessage_eq_none a), h2⟩
    clear_value area reads receives names
    refine ⟨fun o f2 => ?_, fun o => ?_, fun f1 f2 nel1 doff off => ?_, fun o f2 f3 snd => ?_⟩
    · intro n a b peer i bad
      have hb : bad ↔ rawClash a b = true ∨ vecOk b n = false := by
        simp only [bad, hclash, hstored, Bool.not_eq_true]
      have hx := fun r h => exec_of_stepRuns hr (i := i) (execSend.eq_def o f2 s) (r := r) h
      have hp := hpeer o.pm o.k.toNat
      dsimp only at hx
      rw [hp, hg] at hx
      refine ⟨fun h => ?_, fun h => ⟨fun h1 => ?_, fun h1 h2 => ?_, fun h1 h2 => ?_⟩⟩
      · exact hx _ (if_pos h)
      · exact hx _ ((if_neg h).trans (if_pos h1))
      · exact hx _ ((if_neg h).trans ((if_neg (Nat.not_le.2 h1)).trans (if_pos (hb.1 h2))))
      · have hx := fun r k => hx r ((if_neg h).trans ((if_neg (Nat.not_le.2 h1)).trans ((if_neg (mt hb.2 h2)).trans k)))
        refine harea (fun c hc => ?_) fun hc => hreads (fun hl => ?_) fun l hl => ?_
        · exact hx (.fault c) (by rw [hc])
        · exact hx (.waitIn _) (by rw [hc, hl])
        · exact hx (.done _ _) (by rw [hc, hl]; rfl)
    · intro n a peer i
      have hx := fun r h => exec_of_stepRuns hr (i := i) (execRecv.eq_def o s) (r := r) h
      have hp := hpeer o.pm o.k.toNat
      dsimp only at hx
      rw [hp, hg] at hx
      refine ⟨fun h => ?_, fun h => ⟨fun h1 => ?_, fun h1 h2 => ?_, fun h1 h2 => ?_⟩⟩
      · exact hx _ (if_pos h)
      · exact hx _ ((if_neg h).trans (if_pos h1))
      · exact hx _ ((if_neg h).trans ((if_neg (Nat.not_le.2 h1)).trans (if_pos (Bool.eq_false_iff.2 (mt hstored.2 h2)))))
      · have hok : ¬vecOk a n = false := by rw [hstored.1 h2]; decide
        have hx := fun r k => hx r ((if_neg h).trans ((if_neg (Nat.not_le.2 h1)).trans ((if_neg hok).trans k)))
        refine hrecv (fun hm => hx .wait (by rw [hm])) fun m rest hm => ?_
        intro bad w
        have hb : bad ↔ m.count ≠ n ∨ rawClash m.fmt a = true := by simp only [bad, hclash]
        refine ⟨fun hbad => hx (.fault cSGBAD) (by rw [hm]; exact if_pos (hb.1 hbad)), fun hbad => ?_⟩
        have hx := fun r k => hx r (by rw [hm]; exact (if_neg (mt hb.2 hbad)).trans k)
        exact harea (fun c hc => hx (.fault c) (by rw [hc])) fun hc => hx (.done _ _) (by rw [hc]; rfl)
    · intro n a b i meet
      have hmeet : p.overlap off.toNat n a doff.toNat b = true ↔ meet := by
        rw [Program.overlap, Bool.and_eq_true, decide_eq_true_iff, decide_eq_true_iff]
      have hx := fun r h => exec_of_stepRuns hr (i := i) (execCopy.eq_def f1 f2 nel1 doff off s) (r := r) h
      dsimp only at hx
      rw [hg] at hx
      refine ⟨fun h => hx _ (if_pos (hclash.1 h)), fun h => ?_⟩
      have hx := fun r k => hx r ((if_neg (mt hclash.2 h)).trans k)
      refine harea (fun c hc => hx (.fault c) (by rw [hc]; rfl)) fun hc => harea (fun d hd => hx (.fault d) (by rw [hc, hd]; rfl)) fun hd => ?_
      refine ⟨fun hm => hx (.fault cWINDOW) (by rw [hc, hd]; exact if_pos (hmeet.2 hm)), fun hm => hreads (fun hl => hx (.waitIn _) ?_) fun l hl => hx (.done _ _) ?_⟩
      · rw [hc, hd]
        exact (if_neg (mt hmeet.1 hm)).trans (by rw [hl])
      · rw [hc, hd]
        exact (if_neg (mt hmeet.1 hm)).trans (by rw [hl]; rfl)
    · intro n a b c i src dest outside bad
      have hb : bad ↔ fmtKind a = 0 ∨ fmtKind b = 0 ∨ fmtKind c = 0 ∨ vecOk a n = false ∨ vecOk b n = false ∨ vecOk c n = false := by
        simp only [bad, hstored, Bool.not_eq_true]
      have hsrc : p.peer o.pm o.k.toNat false = src := by
        simp only [src]
        cases o.pm <;> rfl
      have hdest := hpeer o.pm o.k.toNat
      have hx := fun r h => exec_of_stepRuns hr (i := i) (execRrs.eq_def o f2 f3 snd s) (r := r) h
      dsimp only at hx
      rw [hsrc, hdest, hg] at hx
      refine ⟨fun h => hx _ (if_pos h), fun h h1 => hx _ ((if_neg h).trans (if_pos (hb.1 h1))), fun h h1 => ?_⟩
      have hx := fun r k => hx r ((if_neg h).trans ((if_neg (mt hb.2 h1)).trans k))
      refine harea (fun k hk => hx (.fault k) (by rw [hk])) fun hk => hreads (fun hl => hx (.waitIn _) (by rw [hk, hl])) fun l hl => ?_
      intro ys gives
      have hx := fun r k => hx r (by rw [hk, hl]; exact k)
      have hys : ys.length = n := length_decodeVec ..
      have hrrs : ∀ (u : State) (xs : Option (List Val)) (vs : List Val) (sends : Bool), u.curGroup = g.val →
          (match xs with
            | some xs => List.zipWith (Val.add (p.rm == .rdn)) xs ys
            | none => ys) = vs → (sends = true ↔ snd = true ∧ p.count ≠ 1) →
          (∀ r, u.rrs e p o b c snd dest ys xs = r → exec i s = .next (s.stepped g.val p r)) →
          area i o.off.toNat n c (gives u vs sends) := fun u xs vs sends hu hvs hsnd hx => by
        refine harea (fun k hk => hx (.fault k) (State.rrs_of_areaFault hk)) fun hk => ?_
        have hend := hx _ (State.rrs_of_areaOk hk hys hvs)
        refine hend.trans ?_
        simp only [hu]
        cases sends with
        | false => rw [if_neg (mt hsnd.2 (by decide))]; rfl
        | true => rw [if_pos (hsnd.1 rfl), State.curGroup_writeArea, hu]; rfl
      refine ⟨fun h1 => hrrs s none ys false hg rfl (by simp [h1]) fun r k => hx r ((if_pos h1).trans k), fun h1 => ?_⟩
      have hx := fun r k => hx r ((if_neg h1).trans k)
      refine hrecv (fun hm => hx .wait (by rw [hm])) fun m rest hm =>
        ⟨fun hbad => hx (.fault cSGBAD) (by rw [hm]; exact if_pos hbad), fun h2 h3 => ?_⟩
      exact hrrs (s.consume g.val src rest) (some (decodeVec m.fmt n m.data)) _ snd hg rfl (by simp [h1]) fun r k =>
        hx r (by rw [hm]; exact (if_neg (not_or.2 ⟨not_not.2 h2, h3⟩)).trans k)
  · intro e on next waits released stops
    have hon : ∀ f : Program → Program, s.stepped g.val p (.done f s) = s.modGroup g.val fun e => { e with prog := some (f p) } := fun f => by
      show (s.modFab fun b => { b with groups := b.groups.set g.val { s.group g.val with prog := (s.group g.val).prog.map f } }) = _
      rw [hr.program]
      rfl
    have hdone : ∀ {i : Instr} (f : Program → Program), exec i s = .next (s.stepped g.val p (.done f s)) → exec i s = on (f p) :=
      fun f h => h.trans (congrArg _ (hon f))
    have hg : s.curGroup = g.val := (State.stepReady_of_stepRuns hr).1
    have hwaits : ∀ {i : Instr}, exec i s = .next (s.stepped g.val p .wait) → exec i s = waits := fun h =>
      h.trans (congrArg _ (hon fun p => { p with busy := false }))
    have hrel : s.donesigReleased e p = true ↔ released := by
      simp only [State.donesigReleased, released]
      cases p.donesig with
      | none => simp
      | some d => exact ⟨fun hd sc pkg w k => by cases k; exact hd, fun hd => hd _ _ _ rfl⟩
    refine ⟨fun sc w v => ?_, fun v => ⟨fun h => ?_, fun h => ?_, fun T h1 h2 h3 => ?_⟩, fun str cnt1 => ⟨fun h => ?_, fun h => ?_⟩,
      fun h => ?_, fun at' i cnt str rest h => ⟨fun k => ?_, fun k => ?_⟩, fun h => ?_, fun h k => ?_⟩
    · intro i
      have hx := fun r h => exec_of_stepRuns hr (i := i) (execWaitSignalStep.eq_def sc w v s) (r := r) h
      rw [hg] at hx
      refine ⟨fun h k => hx (.past _) (by rw [h]; exact if_pos k), fun h k => hwaits (hx .wait (by rw [h]; exact if_neg k)),
        fun x h k => hdone _ (hx (.done _ s) (by rw [h]; exact if_pos k)),
        fun x h k => hx (.past _) (by rw [h]; exact if_neg (Nat.not_le.2 k))⟩
    · exact hdone _ (exec_of_stepRuns hr (i := .waitAfterT0Step v) (execWaitAfterT0Step.eq_def v s) (if_pos h))
    · exact hwaits (exec_of_stepRuns hr (i := .waitAfterT0Step v) (execWaitAfterT0Step.eq_def v s) (if_neg (Nat.not_le.2 h)))
    · have hT : timeNear s.gtime v = T := by
        obtain ⟨k1, k2, k3⟩ := timeNear_nearest s.gtime v
        omega
      subst hT
      exact ⟨fun k => hdone _ (exec_of_stepRuns hr (i := .waitTimeStep v) (execWaitTimeStep.eq_def v s) (if_pos k)),
        fun k => hwaits (exec_of_stepRuns hr (i := .waitTimeStep v) (execWaitTimeStep.eq_def v s) (if_neg (Int.not_le.2 k)))⟩
    · exact exec_of_stepRuns hr (i := .loop str cnt1) (execLoop.eq_def str cnt1 s) (r := .fault cILLOP) (if_pos h)
    · exact hdone _ (exec_of_stepRuns hr (i := .loop str cnt1) (execLoop.eq_def str cnt1 s) (if_neg (Nat.not_le.2 h)))
    · exact exec_of_stepRuns hr (i := .endl) (execEndl.eq_def s) (r := .fault cILLOP) (by rw [h])
    · exact hdone _ (exec_of_stepRuns hr (i := .endl) (execEndl.eq_def s) (r := .done _ s) (by rw [h]; exact if_pos k))
    · exact hdone _ (exec_of_stepRuns hr (i := .endl) (execEndl.eq_def s) (r := .done _ s) (by rw [h]; exact if_neg (Nat.not_lt.2 k)))
    · refine hwaits (exec_of_stepRuns hr (i := .stepDone) (execStepDone.eq_def s) (if_pos (h.imp_right fun k => ?_)))
      exact Bool.eq_false_iff.2 (mt hrel.1 k)
    · have hx : exec .stepDone s = .next ((s.doneAdd e p).endGroup (s.doneAdd e p).curGroup 0 0 0 false) :=
        exec_of_stepRuns hr (i := .stepDone) (execStepDone.eq_def s) (r := .past _)
          (if_neg (not_or.2 ⟨not_not.2 h, by rw [hrel.2 k]; decide⟩))
      rw [s.doneAdd_curGroup, hg] at hx
      exact ⟨_, hx, State.stepDone_spec s g p hr.program⟩

end Sys2Proof.Machine
end

section
/-! ## How a rank of a group ends (R235, R237, R243, R247) -/

namespace Sys2Proof.Machine

open Sys2Proof

theorem State.sendPacket_group (s : State) (dst : Byte) (body : PacketBody) (f : Option (TileId × Req)) (g : Nat) :
    (s.sendPacket dst body f (some g)).group g = { s.group g with unacked := (s.group g).unacked + 1 } :=
  State.group_modGroup_same ..

/-- R247: what a packet is as it is sent: numbered, and kept from then on. -/
theorem State.sendPacket_sent (s : State) (dst : Byte) (body : PacketBody) (f : Option (TileId × Req)) (g : Option Nat) :
    (s.sendPacket dst body f g).fab.sent = s.fab.sent ++
      [{ pkt := ⟨s.sys.pkg, dst, BitVec.ofNat 32 ((s.fab.seqOut.get dst.toNat 0 + 1) % 2 ^ 32), body⟩,
         sentAt := if s.fab.cut || (waitsFor body && s.fab.unackedTo dst) then none else some s.gtime, from' := f, group := g }] := by
  cases g <;> rfl

theorem State.sendPacket_sys (s : State) (dst : Byte) (body : PacketBody) (f : Option (TileId × Req)) (g : Option Nat) :
    (s.sendPacket dst body f g).sys = s.sys := by
  cases g <;> rfl

/-- R237: notices for a list of ranks, and what they leave of the group. -/
theorem State.foldl_notices (g rank : Nat) (body : PacketBody) (l : List ((Byte × CpId) × Nat)) (s : State) :
    let u := l.foldl (fun s k => if k.2 = rank then s else s.sendPacket k.1.1 body none (some g)) s
    (∃ n, u.group g = { s.group g with unacked := n }) ∧ u.sys = s.sys ∧ (∀ k ∈ s.fab.sent, k ∈ u.fab.sent) ∧
    ∀ k ∈ l, k.2 ≠ rank → ∃ j ∈ u.fab.sent, j.pkt.src = s.sys.pkg ∧ j.pkt.dst = k.1.1 ∧ j.group = some g ∧ j.pkt.body = body := by
  induction l generalizing s with
  | nil => exact ⟨⟨_, rfl⟩, rfl, fun _ h => h, nofun⟩
  | cons a l ih =>
    simp only [List.foldl_cons]
    by_cases ha : a.2 = rank
    · rw [if_pos ha]
      obtain ⟨h1, h2, h3, h4⟩ := ih s
      exact ⟨h1, h2, h3, List.forall_mem_cons.2 ⟨fun h => absurd ha h, h4⟩⟩
    · rw [if_neg ha]
      obtain ⟨⟨n, h1⟩, h2, h3, h4⟩ := ih (s.sendPacket a.1.1 body none (some g))
      rw [State.sendPacket_group] at h1
      rw [State.sendPacket_sys] at h2 h4
      rw [State.sendPacket_sent] at h3
      refine ⟨⟨n, h1⟩, h2, fun k hk => h3 k (List.mem_append_left _ hk), List.forall_mem_cons.2 ⟨fun _ => ?_, h4⟩⟩
      exact ⟨_, h3 _ (List.mem_append_right _ List.mem_cons_self), rfl, rfl, rfl, rfl⟩

/-- R235, R237: a rank that ends with a fault of its own. -/
theorem State.groupFault_spec {s : State} {g : Fin 4096} {p : Program} (h : (s.group g.val).prog = some p) (code : Byte) (step : Nat) :
    let e := s.group g.val
    let u := s.groupFault g.val code step
    (∃ n, u.group g.val = { e with st := .ended, status := statusWord p code step p.rank false, prog := none, unacked := n }) ∧
    ∀ r q, p.ranks[r]? = some q → r ≠ p.rank → ∃ k ∈ u.fab.sent, k.pkt.src = s.sys.pkg ∧ k.pkt.dst = q.1 ∧ k.group = some g.val ∧
      k.pkt.body = .notice g (Fin.ofNat 16 e.gen) code p.rank := by
  intro e u
  have hu : u = (s.sendNotices g.val code).endGroup g.val code step p.rank false := by
    simp only [u, State.groupFault, h]
  have hn : s.sendNotices g.val code = p.ranks.zipIdx.foldl (fun s k => if k.2 = p.rank then s
      else s.sendPacket k.1.1 (.notice g (Fin.ofNat 16 e.gen) code p.rank) none (some g.val)) s := by
    simp only [State.sendNotices, h, Fin.ofNat_val_eq_self, e]
  obtain ⟨⟨n, h1⟩, h2, h3, h4⟩ := State.foldl_notices g.val p.rank (.notice g (Fin.ofNat 16 e.gen) code p.rank) p.ranks.zipIdx s
  rw [← hn] at h1 h4
  refine ⟨⟨n, ?_⟩, fun r q hq hr => ?_⟩
  · rw [hu, State.endGroup_spec (by rw [h1]; exact h), h1]
  · rw [hu]
    exact h4 (q, r) (List.mem_zipIdx_iff_getElem?.2 (by simpa using hq)) hr

/-- R242, R243: a message to another rank is kept until it is acknowledged, one to the rank itself is received at once. -/
theorem State.sendMessage_spec {s : State} {g : Fin 4096} {p : Program} (h : (s.group g.val).prog = some p) (peer n : Nat) (f : Lane)
    (l : List Byte) :
    let e := s.group g.val
    let u := s.sendMessage g.val e p peer f n l
    let no := p.sentTo.get peer 0
    (∀ q, (u.group g.val).prog = some q → q = { p with sentTo := p.sentTo.set peer (no + 1) }) ∧
    (peer = p.rank → (u.group g.val).inbox = e.inbox ++ [⟨p.rank, no, f, n, l⟩] ∧ u.fab.sent = s.fab.sent) ∧
    (∀ q, peer ≠ p.rank → p.ranks[peer]? = some q → (u.group g.val).inbox = e.inbox ∧
      (u.group g.val).unacked = e.unacked + 1 ∧ ∃ k, u.fab.sent = s.fab.sent ++ [k] ∧
        k.sentAt = (if s.fab.cut then none else some s.gtime) ∧
        k.group = some g.val ∧ k.pkt.src = s.sys.pkg ∧ k.pkt.dst = q.1 ∧
        k.pkt.body = .message g (Fin.ofNat 16 e.gen) p.rank peer q.2 no f n l ∧
        k.pkt.seq.toNat = (s.fab.seqOut.get q.1.toNat 0 + 1) % 2 ^ 32) := by
  intro e u no
  let z := s.modProgram g.val fun p => { p with sentTo := p.sentTo.set peer (no + 1) }
  have hz : z.group g.val = { e with prog := some { p with sentTo := p.sentTo.set peer (no + 1) } } :=
    (State.group_modGroup_same ..).trans (by rw [h]; rfl)
  by_cases hp : peer = p.rank
  · have hu : u = z.modGroup g.val fun e => { e with inbox := e.inbox ++ [⟨p.rank, no, f, n, l⟩] } := if_pos hp
    rw [hu, State.group_modGroup_same, hz]
    exact ⟨fun q hq => (Option.some.inj hq).symm, fun _ => ⟨rfl, rfl⟩, fun q k => absurd hp k⟩
  · cases hr : p.ranks[peer]? with
    | none =>
      have hu : u = z := (if_neg hp).trans (by rw [hr])
      rw [hu, hz]
      exact ⟨fun q hq => (Option.some.inj hq).symm, fun k => absurd k hp, nofun⟩
    | some r =>
      have hu : u = z.sendPacket r.1 (.message (Fin.ofNat 4096 g.val) (Fin.ofNat 16 e.gen) p.rank peer r.2 no f n l) none (some g.val) :=
        (if_neg hp).trans (by rw [hr])
      rw [hu, State.sendPacket_group, hz, State.sendPacket_sent]
      refine ⟨fun q hq => (Option.some.inj hq).symm, fun k => absurd k hp, fun q _ hq => ?_⟩
      cases hq
      refine ⟨rfl, rfl, _, rfl, by simp [waitsFor]; rfl, rfl, rfl, rfl, by rw [Fin.ofNat_val_eq_self], ?_⟩
      exact (BitVec.toNat_ofNat ..).trans (Nat.mod_eq_of_lt (Nat.mod_lt _ (by decide)))

/-- Settles O42, by what each end leaves (`State.groupFault_spec`, `State.endGroup_spec`) and by `State.sendMessage_spec`. -/
theorem groupEnds : Obligations.GroupEnds := by
  intro s g p hp e ended notices
  have hended : ∀ {u : State} {code : Byte} {origin : Nat} {remote : Bool} {n : Nat},
      u.group g.val = { e with st := .ended, status := statusWord p code p.pc origin remote, prog := none, unacked := n } →
      ended u code origin remote := fun h => by
    simp only [ended]
    rw [h]
    exact ⟨rfl, rfl, rfl, rfl, rfl, rfl⟩
  have hfault : ∀ code, ended (s.groupFault g.val code p.pc) code p.rank false ∧ notices (s.groupFault g.val code p.pc) code := fun code => by
    obtain ⟨⟨n, h1⟩, h2⟩ := State.groupFault_spec hp code p.pc
    exact ⟨hended h1, h2⟩
  have hb : exec (.groupBudgetExpiry g) s = _ := execGroupBudgetExpiry.eq_def g s
  have hn : exec (.errorNoticeArrival g) s = _ := execErrorNoticeArrival.eq_def g s
  rw [hp] at hb hn
  dsimp only at hb hn
  refine ⟨hfault, fun h => hb.trans (if_neg h), fun h => ⟨_, hb.trans (if_pos h), hfault _⟩, fun h => by rw [hn, h],
    fun code origin h => ⟨s.endGroup g.val code p.pc origin true, by rw [hn, h], hended (State.endGroup_spec hp ..), rfl⟩, fun peer n f l => ?_⟩
  exact State.sendMessage_spec hp peer n f l

end Sys2Proof.Machine
end

section
/-! ## Entries and queues (R59, R63, R210, R273, R336) -/

namespace Sys2Proof.Machine

open Sys2Proof

theorem getLsbD_foldl_marks {α : Type} (p : α × Nat → Bool) (l : List (α × Nat)) (m : BitVec 3) (i : Fin 3) :
    (l.foldl (fun m f => if p f then m ||| BitVec.ofNat 3 (2 ^ f.2) else m) m).getLsbD i.val = true ↔
      m.getLsbD i.val = true ∨ ∃ f ∈ l, f.2 = i.val ∧ p f = true := by
  induction l generalizing m with
  | nil => simp
  | cons a l ih =>
    have hbit : (BitVec.ofNat 3 (2 ^ a.2)).getLsbD i.val = decide (a.2 = i.val) := by
      rw [BitVec.getLsbD_ofNat, Nat.testBit_two_pow]
      simp [i.isLt]
    rw [List.foldl_cons, ih]
    by_cases ha : p a = true
    · simp only [ha, if_true, BitVec.getLsbD_or, hbit, Bool.or_eq_true, decide_eq_true_iff, List.mem_cons, exists_eq_or_imp, and_true, or_assoc]
    · simp only [ha, Bool.false_eq_true, if_false, List.mem_cons, exists_eq_or_imp, and_false, false_or]

/-- R59: a DEP field is met once and for all, or by what its engine has retired. -/
theorem Tile.getLsbD_depsNow (x : Tile) (e : Eng) (h : Header) (i : Fin 3) (f : Eng) (hf : (others e)[i.val]? = some f) :
    (x.depsNow e h).getLsbD i.val = true ↔ (x.eng e).depMet.getLsbD i.val = true ∨ h.dep[i] = 0xFFF ∨
      (x.eng f).noneRetired = false ∧ ((x.eng f).lastSec.toNat + 4096 - h.dep[i]) % 4096 < 2048 := by
  rw [Tile.depsNow, getLsbD_foldl_marks fun f => (x.eng f.1).depMetBy (h.dep.toList.getD f.2 0xFFF)]
  have hmem : ∀ a : Eng × Nat, (a ∈ (others e).zipIdx ∧ a.2 = i.val) ↔ a = (f, i.val) := fun a => by
    rw [List.mem_zipIdx_iff_getElem?]
    constructor
    · rintro ⟨h1, h2⟩
      rw [h2, hf] at h1
      exact Prod.ext (Option.some.inj h1).symm h2
    · rintro rfl
      exact ⟨hf, rfl⟩
  have hget : h.dep.toList.getD i.val 0xFFF = h.dep[i] := by
    rw [List.getD_eq_getElem?_getD]
    simp
  simp only [← and_assoc, hmem, exists_eq_left, hget, Engine.depMetBy]
  refine or_congr_right ?_
  by_cases h1 : h.dep[i] = 0xFFF
  · simp only [h1, if_true, true_or]
  · simp only [h1, false_or]
    cases (x.eng f).noneRetired <;> simp

theorem mem_others {e f : Eng} : f ∈ others e ↔ f ≠ e := by
  cases e <;> cases f <;> decide

theorem length_others (e : Eng) : (others e).length = 3 := by
  cases e <;> rfl

theorem getElem?_others (e : Eng) (i : Fin 3) : ∃ f, f ≠ e ∧ (others e)[i.val]? = some f := by
  have hi : i.val < (others e).length := by rw [length_others]; exact i.isLt
  exact ⟨_, mem_others.1 (List.getElem_mem hi), List.getElem?_eq_getElem hi⟩

/-- Every DEP field is met. -/
theorem eq_seven_iff (d : BitVec 3) : d = 0b111 ↔ ∀ i : Fin 3, d.getLsbD i.val = true := by
  revert d
  decide

/-- R59: the DEP fields of a head entry, and nothing else, are brought up to date. -/
theorem Tile.seeDeps_spec (x : Tile) (e : Eng) : ∃ d,
    (x.seeDeps e).eng e = { x.eng e with depMet := d } ∧ (∀ f, f ≠ e → (x.seeDeps e).eng f = x.eng f) ∧
    (∀ i, (x.eng e).depMet.getLsbD i = true → d.getLsbD i = true) := by
  unfold Tile.seeDeps
  split
  · next n hn =>
    split
    · split
      · next a h hs =>
        refine ⟨_, Tile.eng_modEng_same .., fun f hf => Tile.eng_modEng_ne _ _ _ _ hf, fun i hi => ?_⟩
        by_cases hlt : i < 3
        · exact (getLsbD_foldl_marks (fun f => (x.eng f.1).depMetBy (h.dep.toList.getD f.2 0xFFF)) _ _ ⟨i, hlt⟩).2 (.inl hi)
        · rw [BitVec.getLsbD_of_ge _ _ (Nat.not_lt.1 hlt)] at hi
          exact absurd hi (by decide)
      · exact ⟨_, rfl, fun _ _ => rfl, fun _ h => h⟩
    · exact ⟨_, rfl, fun _ _ => rfl, fun _ h => h⟩
  · exact ⟨_, rfl, fun _ _ => rfl, fun _ h => h⟩

theorem Tile.seeDeps_head {x : Tile} {e : Eng} {n : Entry} {a : Nat} {h : Header} (hn : (x.eng e).cur? = some n) (hst : n.st = .head)
    (hs : (x.eng e).section? n.sec.toNat = some (a, h)) : x.seeDeps e = x.modEng e fun g => { g with depMet := x.depsNow e h } := by
  rw [Tile.seeDeps, hn]
  simp only [hst, if_true, hs]

/-- R60: the retirement of an entry is seen by the DEP checks of the other engines. -/
theorem Tile.foldl_seeDeps (l : List Eng) (x : Tile) (e : Eng) (he : e ∉ l) :
    (l.foldl Tile.seeDeps x).eng e = x.eng e ∧ ∀ f, ∃ d, (l.foldl Tile.seeDeps x).eng f = { x.eng f with depMet := d } ∧
      ∀ i, (x.eng f).depMet.getLsbD i = true → d.getLsbD i = true := by
  induction l generalizing x with
  | nil => exact ⟨rfl, fun f => ⟨_, rfl, fun _ h => h⟩⟩
  | cons a l ih =>
    obtain ⟨hne, hl⟩ := not_or.1 (mt List.mem_cons.2 he)
    obtain ⟨d, h1, h2, h3⟩ := x.seeDeps_spec a
    obtain ⟨k1, k2⟩ := ih (x.seeDeps a) hl
    refine ⟨k1.trans (h2 e hne), fun f => ?_⟩
    obtain ⟨d', k3, k4⟩ := k2 f
    by_cases hf : f = a
    · subst hf
      exact ⟨d', by rw [List.foldl_cons, k3, h1], fun i hi => k4 i (by rw [h1]; exact h3 i hi)⟩
    · exact ⟨d', by rw [List.foldl_cons, k3, h2 f hf], fun i hi => k4 i (by rw [h2 f hf]; exact hi)⟩

section
variable {s : State} {t : TileId} {e : Eng} {n : Entry}

theorem length_modFirst (p : Entry → Bool) (f : Entry → Entry) (l : List Entry) : (modFirst p f l).length = l.length := by
  induction l with
  | nil => rfl
  | cons n l ih =>
    rw [modFirst]
    split
    · rfl
    · rw [List.length_cons, List.length_cons, ih]

theorem Engine.going_of {g : Engine} (hf : g.fault = none) (hs : g.stopped = false) : g.going = true := by
  rw [Engine.going, hf, hs]
  rfl

theorem Tile.eng_engFault {x : Tile} (h : (x.eng e).fault = none) (code : Byte) (info addr : Word) :
    (x.engFault e code info addr).eng e = { x.eng e with fault := some ⟨code, info, addr, false⟩ } := by
  rw [Tile.engFault, Tile.eng_modEng_same, h]
  rfl

theorem engInfo_word (reason sec : Nat) : engInfo reason (4096 * sec) 0 = BitVec.ofNat 64 (reason + sec * 2 ^ 20) := by
  have h : reason + 4096 * sec * 2 ^ 8 + 0 * 2 ^ 32 = reason + sec * 2 ^ 20 := by omega
  exact congrArg (BitVec.ofNat 64) h

theorem exec_entryHead (hf : ((s.tile t).eng e).fault = none) (hs : ((s.tile t).eng e).stopped = false) (hl : (s.tile t).live = true)
    (hn : ((s.tile t).eng e).cur? = some n) (hst : n.st = .waiting) (hp : s.stopping t = false)
    (hg : GranulesGood s (((s.tile t).eng e).headSites t e n)) : exec (.entryHead t e) s = .next (s.arriveHead t e n) := by
  have hx : exec (.entryHead t e) s = _ := execEntryHead.eq_def t e s
  dsimp only at hx
  rw [Engine.going_of hf hs, hl, hp] at hx
  simp only [Bool.not_true, Bool.false_eq_true, or_self, if_false, hn, hst, ne_eq, not_true_eq_false] at hx
  rw [hx, State.goodRead_good hg]

theorem State.arriveHead_noSection (h : ((s.tile t).eng e).section? n.sec.toNat = none) :
    s.arriveHead t e n = s.modTile t fun x => x.engFault e cILLOP (engInfo 8 (4096 * n.sec.toNat) 0) 0 := by
  simp only [State.arriveHead, h]

theorem State.arriveHead_noBudget {k : Nat × Header} (h : ((s.tile t).eng e).section? n.sec.toNat = some k) (hb : n.budget = 0) :
    s.arriveHead t e n = s.modTile t fun x => x.engFault e cDEADLINE (engInfo 0 (4096 * n.sec.toNat) 0) 0 := by
  simp only [State.arriveHead, h, hb, if_true]

theorem State.arriveHead_noLease {k : Nat × Header} (h : ((s.tile t).eng e).section? n.sec.toNat = some k) (hb : n.budget ≠ 0)
    (he : e = .m) (hl : (s.tile t).m.lstate = .none) :
    s.arriveHead t e n = s.modTile t fun x => x.engFault e cLEASE (engInfo 0 (4096 * n.sec.toNat) 0) 0 := by
  subst he
  simp only [State.arriveHead, h, if_neg hb, hl, and_self, if_true]

/-- R59: an entry that is at the head, with what its DEP wait has met by now. -/
theorem State.arriveHead_head {a : Nat} {h : Header} (hs : ((s.tile t).eng e).section? n.sec.toNat = some (a, h)) (hb : n.budget ≠ 0)
    (hl : e = .m → (s.tile t).m.lstate ≠ .none) (hn : ((s.tile t).eng e).cur? = some n) :
    let u := s.arriveHead t e n
    let k := (u.tile t).eng e
    OnlyTile s u t ∧ k.cur? = some { n with st := .head } ∧ k.index = 0 ∧ k.queue.length = ((s.tile t).eng e).queue.length ∧
    ∀ (i : Fin 3) f, (others e)[i.val]? = some f → (k.depMet.getLsbD i.val = true ↔ h.dep[i] = 0xFFF ∨
      ((s.tile t).eng f).noneRetired = false ∧ (((s.tile t).eng f).lastSec.toNat + 4096 - h.dep[i]) % 4096 < 2048) := by
  intro u k
  let q (g : Engine) : Engine := { g.modCur (fun n => { n with st := .head }) with depMet := 0, index := 0, branch := none }
  let y := (s.tile t).modEng e q
  have hu : u = s.modTile t fun x => (x.modEng e q).seeDeps e := by
    simp only [u, State.arriveHead, hs, if_neg hb]
    exact if_neg fun h => hl h.1 h.2
  have hy : y.eng e = q ((s.tile t).eng e) := Tile.eng_modEng_same ..
  have hcur : (y.eng e).cur? = some { n with st := .head } := by
    rw [hy]
    exact Engine.cur?_modCur (f := fun n => { n with st := .head }) hn nofun
  have hk : k = { y.eng e with depMet := y.depsNow e h } := by
    simp only [k, hu]
    rw [State.tile_modTile_same, Tile.seeDeps_head hcur rfl (by rw [hy]; exact hs)]
    exact Tile.eng_modEng_same ..
  refine ⟨hu ▸ onlyTile_modTile .., by rw [hk]; exact hcur, by rw [hk, hy], ?_, fun i f hf => ?_⟩
  · rw [hk, hy]
    exact length_modFirst ..
  · have hfe : f ≠ e := mem_others.1 (List.mem_of_getElem? hf)
    rw [hk]
    refine (Tile.getLsbD_depsNow y e h i f hf).trans ?_
    rw [hy, Tile.eng_modEng_ne _ _ _ _ hfe]
    simp [q]

/-- R59: with every field met the words of the head entry are expanded from index 0. -/
theorem exec_entryStart {a : Nat} {h : Header} (hf : ((s.tile t).eng e).fault = none) (hs : ((s.tile t).eng e).stopped = false)
    (hl : (s.tile t).live = true) (hn : ((s.tile t).eng e).cur? = some n) (hst : n.st = .head)
    (hsec : ((s.tile t).eng e).section? n.sec.toNat = some (a, h)) :
    let all : Prop := ∀ (i : Fin 3) f, (others e)[i.val]? = some f → ((s.tile t).eng e).depMet.getLsbD i.val = true ∨ h.dep[i] = 0xFFF ∨
      ((s.tile t).eng f).noneRetired = false ∧ (((s.tile t).eng f).lastSec.toNat + 4096 - h.dep[i]) % 4096 < 2048
    ∃ u, exec (.entryStart t e) s = .next u ∧ OnlyTile s u t ∧
      let k := (u.tile t).eng e
      (all → k.cur? = some { n with st := .running } ∧ k.index = 0 ∧ k.branch = none) ∧ (¬all → k.cur? = some n) := by
  intro all
  let x := s.tile t
  let y := x.modEng e fun g => { g with depMet := x.depsNow e h }
  have hy : y.eng e = { x.eng e with depMet := x.depsNow e h } := Tile.eng_modEng_same ..
  have hx : exec (.entryStart t e) s = _ := execEntryStart.eq_def t e s
  dsimp only at hx
  rw [Tile.seeDeps_head hn hst hsec] at hx
  have hgo : (y.eng e).going = true := by
    rw [hy]
    exact Engine.going_of hf hs
  have hcur : (y.eng e).cur? = some n := by
    rw [hy]
    exact hn
  have hlive : y.live = true := hl
  have hall : (y.eng e).depMet = 0b111 ↔ all := by
    rw [hy, eq_seven_iff]
    refine ⟨fun k i f hf => (Tile.getLsbD_depsNow x e h i f hf).1 (k i), fun k i => ?_⟩
    obtain ⟨f, -, hf⟩ := getElem?_others e i
    exact (Tile.getLsbD_depsNow x e h i f hf).2 (k i f hf)
  change exec (.entryStart t e) s = if (!(y.eng e).going) = true ∨ (!y.live) = true then _ else _ at hx
  rw [hgo, hlive, if_neg (by decide)] at hx
  change exec (.entryStart t e) s = match (y.eng e).cur? with | some n => _ | none => _ at hx
  rw [hcur] at hx
  change exec (.entryStart t e) s = if n.st = .head then _ else _ at hx
  rw [if_pos hst] at hx
  by_cases hm : (y.eng e).depMet = 0b111
  · replace hx := hx.trans (if_pos hm)
    refine ⟨_, hx, onlyTile_modTile s t fun _ => _, ?_⟩
    rw [State.tile_setTile_same, Tile.eng_modEng_same]
    refine ⟨fun _ => ⟨?_, rfl, rfl⟩, fun k => absurd (hall.1 hm) k⟩
    exact Engine.cur?_modCur (f := fun n => { n with st := .running }) hcur nofun
  · replace hx := hx.trans (if_neg hm)
    refine ⟨_, hx, onlyTile_modTile s t fun _ => _, fun k => absurd (hall.2 k) hm, fun _ => ?_⟩
    rw [State.tile_setTile_same]
    exact hcur

end

/-- Settles O43: heads, starts and retirements by `Tile.seeDeps`, the rest by the branches of each event. -/
theorem queueEvents : Obligations.QueueEvents := by
  refine ⟨fun s t e n => ?_, fun s t => ?_⟩
  · intro x g met
    refine ⟨fun hf hs hl hn => ⟨fun hst hp hg => ?_, fun a h hst hsec => exec_entryStart hf hs hl hn hst hsec⟩, fun rest hq hst hp hph => ?_⟩
    · intro stops
      have hx := exec_entryHead hf hs hl hn hst hp hg
      have hstops : ∀ code reason, s.arriveHead t e n = s.modTile t (fun x => x.engFault e code (engInfo reason (4096 * n.sec.toNat) 0) 0) →
          stops code reason := fun code reason h => by
        refine ⟨_, hx, h ▸ onlyTile_modTile .., ?_, fun f hfe => ?_⟩
        · rw [h, State.tile_modTile_same, Tile.eng_engFault hf, engInfo_word]
        · rw [h, State.tile_modTile_same]
          exact Tile.eng_modEng_ne _ _ _ _ hfe
      refine ⟨fun h => hstops _ _ (State.arriveHead_noSection h), fun a h hsec => ⟨fun hb => hstops _ _ (State.arriveHead_noBudget hsec hb),
        fun hb he hl => hstops _ _ (State.arriveHead_noLease hsec hb he hl), fun hb he => ?_⟩⟩
      obtain ⟨h1, h2⟩ := State.arriveHead_head hsec hb he hn
      exact ⟨_, hx, h1, h2⟩
    · have hret : (x.eng e).retiring? = some n := by
        rw [Engine.retiring?, hq]
        exact if_pos ⟨hst, hp⟩
      have hx : exec (.entryRetire t e) s = _ := execEntryRetire.eq_def t e s
      rw [hret] at hx
      obtain ⟨h1, h2⟩ := Tile.foldl_seeDeps (others e) (x.modEng e fun g => g.retireEntry n) e fun h => mem_others.1 h rfl
      refine ⟨_, hx.trans (if_pos hph), onlyTile_modTile .., ?_, fun f hfe => ?_⟩
      · rw [State.tile_modTile_same]
        refine h1.trans ((Tile.eng_modEng_same ..).trans ?_)
        rw [Engine.retireEntry, hq]
        rfl
      · rw [State.tile_modTile_same]
        obtain ⟨d, h3, h4⟩ := h2 f
        rw [Tile.eng_modEng_ne _ _ _ _ hfe] at h3 h4
        exact ⟨d, h3, h4⟩
  · intro x c
    refine ⟨fun e bs hph hr hw => ?_, fun e n => ?_, fun hl => ⟨fun hb => ?_, fun hb => ?_⟩, fun e hf hs hph => ⟨fun hq hb => ?_, fun hq => ?_, fun hq hd => ?_⟩,
      fun v => ⟨fun h1 h2 => ?_, fun h => ?_⟩, fun h1 h2 => ?_⟩
    · have hx : exec (.tokenWaitEnd t e) s = _ := execTokenWaitEnd.eq_def t e s
      rw [if_pos ⟨hph, hr⟩, hw] at hx
      refine hx.trans ?_
      dsimp only
      split <;> rfl
    · intro g hs hf hfind
      have hexp : g.expires e = true := by
        rw [Engine.expires, Engine.going, Engine.startsMore, hs]
        rcases hf with hf | ⟨he, f, hf, hc⟩
        · rw [hf]
          rfl
        · rw [hf]
          rcases he with he | he <;> simp [he, hc]
      have hx : exec (.entryBudgetExpiry t e) s = _ := execEntryBudgetExpiry.eq_def t e s
      dsimp only at hx
      rw [show ((s.tile t).eng e).overdue? = some n from hfind] at hx
      refine ⟨_, hx.trans (if_pos hexp), onlyTile_modTile .., ?_, fun f hfe => ?_⟩
      · rw [State.modEng, State.tile_modTile_same, Tile.eng_modEng_same]
        simp only [engInfo, Nat.zero_add, Nat.zero_mul, Nat.add_zero]
        rfl
      · rw [State.modEng, State.tile_modTile_same]
        exact Tile.eng_modEng_ne _ _ _ _ hfe
    · have hx : exec (.iterationBudgetExpiry t) s = _ := execIterationBudgetExpiry.eq_def t s
      exact ⟨_, hx.trans (if_pos ⟨hl, hb⟩), onlyCox_modCox .., State.cox_modCox_same ..⟩
    · have hx : exec (.iterationBudgetExpiry t) s = _ := execIterationBudgetExpiry.eq_def t s
      exact hx.trans (if_neg fun h => hb h.2)
    · have hx : exec (.queueStop t e) s = _ := execQueueStop.eq_def t e s
      have hmay : s.queueMayStop t e = true := by
        rw [State.queueMayStop, hq]
        rfl
      have hnil : (x.portage.buffer.filter fun c => c.stream = e ∧ c.stage = .started) = [] :=
        List.filter_eq_nil_iff.2 fun k hk h => by
          obtain ⟨h1, h2⟩ := of_decide_eq_true h
          exact hb k hk h1 h2
      replace hx := hx.trans (if_pos ⟨hph, hf, hs, hmay⟩)
      rw [hnil] at hx
      exact ⟨_, hx, onlyTile_modTile .., (congrArg (Tile.eng · e) (State.tile_modTile_same ..)).trans (Tile.eng_modEng_same ..),
        fun f hfe => (congrArg (Tile.eng · f) (State.tile_modTile_same ..)).trans (Tile.eng_modEng_ne _ _ _ _ hfe)⟩
    · have hx : exec (.queueStop t e) s = _ := execQueueStop.eq_def t e s
      refine ⟨_, hx.trans (if_pos ⟨hph, hf, hs, hq⟩), ?_⟩
      rw [State.modEng, State.tile_modTile_same, Tile.eng_modEng_same]
    · have hx : exec (.queueStop t e) s = _ := execQueueStop.eq_def t e s
      refine hx.trans (if_neg fun k => ?_)
      obtain ⟨-, -, -, hmay⟩ := k
      rw [State.queueMayStop, hq] at hmay
      have hdl : ((s.tile t).eng e).fault.any (fun f => f.code == cDEADLINE) = false := by
        cases hfault : ((s.tile t).eng e).fault with
        | none => rfl
        | some f => exact beq_false_of_ne (hd f hfault)
      simp [hdl] at hmay
    · have hx : exec (.tintWrite t v) s = _ := execTintWrite.eq_def t v s
      exact ⟨_, hx.trans (if_pos (by rw [h1]; exact h2)), onlyCox_modCox .., State.cox_modCox_same ..⟩
    · have hx : exec (.tintWrite t v) s = _ := execTintWrite.eq_def t v s
      refine hx.trans (if_neg fun k => ?_)
      obtain ⟨k1, k2⟩ := Bool.and_eq_true_iff.1 k
      rcases h with h | h
      · exact absurd (k1.symm.trans h) (by decide)
      · exact absurd (k2.symm.trans h) (by decide)
    · have hx : exec (.tdbgResume t) s = _ := execTdbgResume.eq_def t s
      exact ⟨_, hx.trans (if_pos ⟨h1, h2⟩), onlyCox_modCox .., State.cox_modCox_same ..⟩

end Sys2Proof.Machine
end

section
/-! ## Slots of the Course (R150 to R154) -/

namespace Sys2Proof.Machine

open Sys2Proof

/-- What is taken out of a list, and where it stood. -/
theorem removeFirst_split {α : Type} {p : α → Bool} {l rest : List α} {a : α} (h : removeFirst p l = some (a, rest)) :
    ∃ pre post, l = pre ++ a :: post ∧ rest = pre ++ post ∧ p a = true ∧ ∀ b ∈ pre, p b = false := by
  induction l generalizing rest with
  | nil => exact nomatch h
  | cons c l ih =>
    rw [removeFirst] at h
    split at h
    · next hc =>
      cases h
      exact ⟨[], l, rfl, rfl, hc, nofun⟩
    · next hc =>
      obtain ⟨⟨b, r⟩, hr, he⟩ := Option.map_eq_some_iff.1 h
      cases he
      obtain ⟨pre, post, rfl, rfl, hp, hpre⟩ := ih hr
      exact ⟨c :: pre, post, rfl, rfl, hp, List.forall_mem_cons.2 ⟨by simpa using hc, hpre⟩⟩

theorem removeFirst_of_mem {α : Type} {p : α → Bool} {l : List α} {a : α} (ha : a ∈ l) (hp : p a = true) : ∃ r, removeFirst p l = some r := by
  induction l with
  | nil => exact absurd ha List.not_mem_nil
  | cons c l ih =>
    rw [removeFirst]
    split
    · exact ⟨_, rfl⟩
    · next hc =>
      rcases List.mem_cons.1 ha with rfl | ha
      · exact absurd hp hc
      · obtain ⟨r, hr⟩ := ih ha
        exact ⟨_, by rw [hr]; rfl⟩

theorem Map.find?_erase_same {α : Type} (m : Map α) (k : Nat) : (m.erase k).find? k = none := by
  induction m with
  | nil => rfl
  | cons e m ih =>
    obtain ⟨j, v⟩ := e
    by_cases h : j = k
    · simpa [Map.erase, List.filter, h] using ih
    · simpa [Map.erase, List.filter, h, Map.find?] using ih

theorem slotAt_eq {now st k : Nat} (hk : k < 132) (h : (k + now) % 132 = st) : slotAt now st = k := by
  rw [slotAt]
  omega

/-- R152: the oldest timed flit, else the oldest. -/
theorem nextOut_split {l : List Flit} (h : l ≠ []) : ∃ pre f post, nextOut l = some (f, pre ++ post) ∧ l = pre ++ f :: post ∧
    (if ∃ g ∈ l, g.timed = true then f.timed = true ∧ ∀ g ∈ pre, g.timed = false else pre = []) := by
  by_cases ht : ∃ g ∈ l, g.timed = true
  · obtain ⟨g, hg, hgt⟩ := ht
    obtain ⟨⟨f, rest⟩, hr⟩ := removeFirst_of_mem (p := fun f : Flit => f.timed) hg hgt
    obtain ⟨pre, post, hl, rfl, hf, hpre⟩ := removeFirst_split hr
    exact ⟨pre, f, post, by rw [nextOut, hr], hl, by rw [if_pos ⟨g, hg, hgt⟩]; exact ⟨hf, hpre⟩⟩
  · have hnone : removeFirst (fun f : Flit => f.timed) l = none :=
      removeFirst_eq_none fun g hg => Bool.eq_false_iff.2 fun k => ht ⟨g, hg, k⟩
    cases l with
    | nil => exact absurd rfl h
    | cons f l => exact ⟨[], f, l, by rw [nextOut, hnone]; rfl, rfl, by rw [if_neg ht]⟩

theorem pitchKind_eq (p : BitVec 16) : pitchKind p = p.toNat / 2 ^ 14 := by
  have hlt : p.toNat < 2 ^ 16 := p.isLt
  rw [pitchKind, bitsOf, Nat.shiftRight_eq_div_pow]
  exact Nat.mod_eq_of_lt (by omega)

theorem pitchOwner_eq (p : BitVec 16) : pitchOwner p = p.toNat % 2 ^ 8 := by
  rw [pitchOwner, bitsOf, Nat.shiftRight_zero]

/-- R150, R151: the Pitch entry of a slot, by its two fields. -/
theorem State.mayInject_iff {s : State} {d : DieId} {st k : Nat} (hk : slotAt s.gtime st = k) (hfree : (s.die d).slots.find? k = none)
    (hz : (s.die d).frozen = false) :
    let p := (s.die d).pitch.get (132 * ((s.gtime + k) / 132 % 16) + k) 0
    s.mayInject d st false = true ↔ p.toNat / 2 ^ 14 = 0 ∨ p.toNat / 2 ^ 14 = 1 ∧ p.toNat % 2 ^ 8 = st := by
  intro p
  have hp : s.pitchAt d st = p := by rw [State.pitchAt, hk]; rfl
  rw [State.mayInject, hp, State.passing, hk, hfree, hz, pitchKind_eq, pitchOwner_eq]
  simp only [Option.isNone_none, Bool.not_false, Bool.true_and, Bool.or_eq_true, Bool.and_eq_true, beq_iff_eq]
  tauto

/-- FLIT_INJECT, where the Pitch entry allows it: what the station numbers enters the slot. -/
theorem State.inject_spec {s : State} {d : DieId} {st : Fin 132} {k : Nat} {f : Flit} {rest : List Flit}
    (hk : slotAt s.gtime st.val = k) (hout : nextOut ((s.die d).stations.get st.val []) = some (f, rest)) (hmay : s.mayInject d st.val false = true) :
    ∃ u, exec (.flitInject d st) s = .next u ∧
      (let here := f.src = 132 * d.val + st.val
       let tri := tripleKey f.src f.dst f.cls
       (here → (u.die d).slots.find? k = some { f with
          seq := (s.die d).seqOut.get tri 0, writesBefore := (s.die d).seqOut.get (tripleKey f.src f.dst .write) 0 } ∧
          (u.die d).seqOut.get tri 0 = (s.die d).seqOut.get tri 0 + 1) ∧
       (¬here → (u.die d).slots.find? k = some f)) ∧
      (u.die d).stations.get st.val [] = rest ∧ (∀ j, j ≠ k → (u.die d).slots.find? j = (s.die d).slots.find? j) ∧ u.tiles = s.tiles := by
  have hx : exec (.flitInject d st) s = _ := execFlitInject.eq_def d st s
  rw [hout] at hx
  replace hx := hx.trans (if_pos hmay)
  let z := s.modDie d fun x => { x with stations := x.stations.set st.val rest }
  have hz : z.die d = { s.die d with stations := (s.die d).stations.set st.val rest } := State.die_modDie_same ..
  change exec (.flitInject d st) s = .next ((z.number d st.val f).1.fillSlot d st.val (z.number d st.val f).2) at hx
  refine ⟨_, hx, ?_⟩
  have hfill : ∀ (v : State) (g : Flit), v.gtime = s.gtime → v.tiles = s.tiles → (v.die d).stations = (z.die d).stations →
      (v.die d).slots = (s.die d).slots →
      let u := v.fillSlot d st.val g
      (u.die d).slots.find? k = some g ∧ (u.die d).seqOut = (v.die d).seqOut ∧ (u.die d).stations.get st.val [] = rest ∧
      (∀ j, j ≠ k → (u.die d).slots.find? j = (s.die d).slots.find? j) ∧ u.tiles = s.tiles := fun v g hg ht hst hsl => by
    intro u
    have hu : u.die d = { v.die d with slots := (v.die d).slots.set k g } := by
      rw [← hk, ← hg]
      exact State.die_modDie_same ..
    refine ⟨by rw [hu, Map.find?_set_same], by rw [hu], ?_, fun j hj => ?_, ht⟩
    · rw [hu, hst, hz, Map.get_set_same]
    · rw [hu, ← hsl]
      exact Map.find?_set_ne _ _ _ _ hj
  by_cases hs : f.src = station d st.val
  · have hn : z.number d st.val f = _ := if_neg (not_not.2 hs)
    rw [hn, hz]
    let tri := tripleKey f.src f.dst f.cls
    let n := (s.die d).seqOut.get tri 0
    let g : Flit := { f with seq := n, writesBefore := (s.die d).seqOut.get (tripleKey f.src f.dst .write) 0 }
    obtain ⟨h1, h2, h3, h4, h5⟩ := hfill (z.modDie d fun x => { x with seqOut := x.seqOut.set tri (n + 1) }) g rfl rfl (by rw [State.die_modDie_same]) (by rw [State.die_modDie_same, hz])
    refine ⟨⟨fun _ => ⟨h1, ?_⟩, fun h => absurd hs h⟩, h3, h4, h5⟩
    refine (congrArg (Map.get · _ 0) h2).trans ?_
    rw [State.die_modDie_same, Map.get_set_same]
  · have hn : z.number d st.val f = (z, f) := if_pos hs
    rw [hn]
    obtain ⟨h1, -, h3, h4, h5⟩ := hfill z f rfl rfl rfl (by rw [hz])
    exact ⟨⟨fun h => absurd h hs, fun _ => h1⟩, h3, h4, h5⟩


/-! ## Arrival (R150, R153, R154) -/

theorem State.checkSites_good {u : State} {l : List Site} (h : GranulesGood u l) : u.checkSites l = (u, none) := by
  have hf : (u.dev.flaws.filter fun f => l.contains f.site) = [] := by
    rw [List.filter_eq_nil_iff]
    exact fun f hf k => h f hf (List.contains_iff_mem.1 k)
  have hd : u.dev.dropFlaws (fun _ => false) = u.dev := by
    rw [DevMem.dropFlaws]
    split
    · rfl
    · simp
  rw [State.checkSites, hf]
  split
  · rfl
  · simp only [List.filter_nil, List.any_nil, State.modDev, hd]
    rfl

theorem State.answered_dies (s : State) (t : TileId) (r : Req) (f : Option Trap) : (s.answered t r f).dies = s.dies := by
  unfold State.answered
  split
  · rfl
  · have hend : ∀ z : State, z.dies = s.dies → (match r.act with
        | .launch pd xd .. => z.launchAnswer t pd xd true 0
        | _ => if r.closing then z.retireClosing t else z).dies = s.dies := fun z hz => by
      split
      · exact hz
      · split <;> exact hz
    cases f with
    | some e =>
      dsimp only
      split <;> rfl
    | none =>
      refine hend _ ?_
      split
      · split <;> rfl
      · rfl

/-- What a message does that is no request moves no slot, and takes none out of sequence. -/
theorem State.receive_die (s : State) (m : Msg) (d : DieId) :
    ((s.receive m).die d).slots = (s.die d).slots ∧ ((s.receive m).die d).seqIn = (s.die d).seqIn := by
  have hsame : ∀ u : State, u.dies = s.dies → (u.die d).slots = (s.die d).slots ∧ (u.die d).seqIn = (s.die d).seqIn := fun u h => by
    rw [State.die, h]
    exact ⟨rfl, rfl⟩
  have hmod : ∀ (e : DieId) (f : Die → Die), (∀ x, (f x).slots = x.slots ∧ (f x).seqIn = x.seqIn) →
      ((s.modDie e f).die d).slots = (s.die d).slots ∧ ((s.modDie e f).die d).seqIn = (s.die d).seqIn := fun e f hf => by
    by_cases he : d = e
    · subst he
      rw [State.die_modDie_same]
      exact hf _
    · rw [State.die_modDie_ne _ _ _ _ he]
      exact ⟨rfl, rfl⟩
  cases m with
  | told b =>
    cases b with
    | die e => exact hmod _ _ fun _ => ⟨rfl, rfl⟩
    | packet => exact hsame _ rfl
  | launch e q => exact hmod _ _ fun _ => ⟨rfl, rfl⟩
  | answer t r f => exact hsame _ (s.answered_dies t r f)
  | flipNotice t ext =>
    rw [State.receive]
    split <;> exact hsame _ rfl
  | _ => exact hsame _ rfl

section
variable {s : State} {d : DieId} {st : Fin 132} {k : Nat} {f : Flit}

/-- The state in which the slot at hand has been emptied. -/
def State.emptied (s : State) (d : DieId) (k : Nat) : State := s.modDie d fun x => { x with slots := x.slots.erase k }

theorem State.arriving_eq (hk : slotAt s.gtime st.val = k) (hf : (s.die d).slots.find? k = some f) (hz : (s.die d).frozen = false)
    (he : exitOf d.val f.dst = st.val) : s.arriving d st.val = if s.accepts d st.val f then some f else none := by
  rw [State.arriving, State.passing, hk, hf, hz]
  dsimp only
  rw [he]
  simp

theorem exec_flitArrive_refused (h : s.arriving d st.val = none) : exec (.flitArrive d st) s = .next s := by
  have hx : exec (.flitArrive d st) s = _ := execFlitArrive.eq_def d st s
  rw [h] at hx
  exact hx

theorem exec_flitArrive (hk : slotAt s.gtime st.val = k) (h : s.arriving d st.val = some f) (hph : s.phase = .ending)
    (hm : ∀ g, f.msg ≠ .granule g) (hg : GranulesGood s [.flit d k]) :
    exec (.flitArrive d st) s = .next ((s.emptied d k).deliverFlit d st.val f) := by
  have hx : exec (.flitArrive d st) s = _ := execFlitArrive.eq_def d st s
  rw [h] at hx
  dsimp only at hx
  rw [if_pos hph, hk, State.checkSites_good (GranulesGood.of_dev (u := s.modDie d fun x => { x with slots := x.slots.erase k }) hg rfl)] at hx
  dsimp only at hx
  refine hx.trans ?_
  split
  · next g hgr => exact absurd hgr (hm g)
  · rfl

theorem State.accepts_station (hst : st.val < 130) (hm : ∀ g, f.msg ≠ .granule g) :
    s.accepts d st.val f = true ↔ (s.die d).seqIn.get (tripleKey f.src f.dst f.cls) 0 = f.seq ∧
      ((s.die d).ingress.get (ingressKey st.val f.cls) []).length < 8 := by
  have hb : isBridge st.val = false := by
    rw [isBridge, Bool.or_eq_false_iff]
    exact ⟨beq_false_of_ne (by omega), beq_false_of_ne (by omega)⟩
  rw [State.accepts]
  split
  · next g hgr => exact absurd hgr (hm g)
  · rw [hb, if_neg (by decide), Bool.and_eq_true, beq_iff_eq, decide_eq_true_iff]

theorem isBridge_of_le (hst : 130 ≤ st.val) : isBridge st.val = true := by
  rw [isBridge, Bool.or_eq_true, beq_iff_eq, beq_iff_eq]
  omega

theorem State.accepts_bridge (hst : 130 ≤ st.val) (hm : ∀ g, f.msg ≠ .granule g) :
    s.accepts d st.val f = true ↔ (s.die (bridge d.val st.val).1).frozen = false ∧
      (((s.die (bridge d.val st.val).1).stations.get (bridge d.val st.val).2 []).filter fun g => g.cls = f.cls).length < 8 := by
  rw [State.accepts]
  split
  · next g hgr => exact absurd hgr (hm g)
  · rw [if_pos (isBridge_of_le hst)]
    simp

/-- A flit that its station takes: its message is in line, in its place, or has been served. -/
theorem State.deliverFlit_station (hst : st.val < 130) (z : State) (hz : z.die d = { s.die d with slots := (s.die d).slots.erase k })
    (ht : z.tiles = s.tiles) :
    let u := z.deliverFlit d st.val f
    let key := ingressKey st.val f.cls
    let queued := (u.die d).ingress.get key [] = (s.die d).ingress.get key [] ++ [f]
    (u.die d).slots.find? k = none ∧ (u.die d).seqIn.get (tripleKey f.src f.dst f.cls) 0 = f.seq + 1 ∧
    (∀ t r, f.msg = .req t r → (∀ pe off bytes, r.act ≠ .winStore pe off bytes) → queued) ∧
    (∀ t r pe off bytes, f.msg = .req t r → r.act = .winStore pe off bytes → st.val < 128 →
      let v : TileId := Fin.ofNat 512 (128 * d.val + st.val)
      (u.tile v).winIn = (s.tile v).winIn ++ [(t.val, off, bytes)]) ∧
    (∀ t c a, f.msg = .ask t c a → (∀ v w, a ≠ .store v w) → queued) ∧
    (∀ t c v w, f.msg = .ask t c (.store v w) → (u.tile t).portage.flight = (s.tile t).portage.flight ++ [(some c, w)]) ∧
    (∀ t w a b, f.msg = .oper t w a b → queued) ∧
    ∀ t id v, f.msg = .reply t id v → (∃ e ∈ (s.cox t).rf, e.id = id) → (id, v) ∈ (u.tile t).replies := by
  intro u key queued
  let y := z.modDie d fun x => { x with seqIn := x.seqIn.set (tripleKey f.src f.dst f.cls) (f.seq + 1) }
  have hyd : y.die d = { s.die d with slots := (s.die d).slots.erase k, seqIn := (s.die d).seqIn.set (tripleKey f.src f.dst f.cls) (f.seq + 1) } := by
    rw [State.die_modDie_same, hz]
  have hyt : ∀ t, y.tile t = s.tile t := fun t => congrArg (Map.get · t.val Tile.reset) ht
  have hq : (y.enqueue d st.val f).die d = { y.die d with ingress := (y.die d).ingress.set key ((y.die d).ingress.get key [] ++ [f]) } :=
    State.die_modDie_same ..
  have hb : isBridge st.val = false := by
    rw [isBridge, Bool.or_eq_false_iff]
    exact ⟨beq_false_of_ne (by omega), beq_false_of_ne (by omega)⟩
  have hu : u = _ := if_neg (ne_true_of_eq_false hb)
  have hqueued : u = y.enqueue d st.val f → queued := fun h => by
    show (u.die d).ingress.get key [] = _
    rw [h, hq, hyd, Map.get_set_same]
  have hdie : (u.die d).slots = (y.die d).slots ∧ (u.die d).seqIn = (y.die d).seqIn := by
    have henq : ((y.enqueue d st.val f).die d).slots = (y.die d).slots ∧ ((y.enqueue d st.val f).die d).seqIn = (y.die d).seqIn := by
      rw [hq]
      exact ⟨rfl, rfl⟩
    rw [hu]
    dsimp only
    split
    · split
      · exact ⟨rfl, rfl⟩
      · exact henq
    · split
      · exact ⟨rfl, rfl⟩
      · exact henq
    · split
      · exact ⟨rfl, rfl⟩
      · exact henq
    · exact henq
    · exact henq
    · exact y.receive_die _ d
  rw [hdie.1, hdie.2, hyd, Map.get_set_same, Map.find?_erase_same]
  refine ⟨rfl, rfl, fun t r hm hr => hqueued ?_, fun t r pe off bytes hm hr _ => ?_, fun t c a hm ha => hqueued ?_, fun t c v w hm => ?_,
    fun t w a b hm => hqueued ?_, fun t id v hm he => ?_⟩
  · rw [hu]
    simp only [hm]
    rfl
  · rw [hu]
    simp only [hm, hr]
    rw [State.tile_modTile_same, ← hyt]
  · rw [hu]
    simp only [hm]
    rfl
  · rw [hu]
    simp only [hm]
    rw [State.tile_modTile_same, ← hyt]
  · rw [hu]
    simp only [hm]
    rfl
  · rw [hu]
    simp only [hm, State.receive]
    rw [State.tile_modTile_same]
    obtain ⟨e, he, hid⟩ := he
    refine List.mem_filter.2 ⟨List.mem_append_right _ List.mem_cons_self, List.any_eq_true.2 ⟨e, ?_, decide_eq_true hid⟩⟩
    exact (hyt t).symm ▸ he

/-- R19: a flit that a bridge station passes on to the next die. -/
theorem State.deliverFlit_bridge (hst : 130 ≤ st.val) (z : State) :
    let b := bridge d.val st.val
    let u := z.deliverFlit d st.val f
    (u.die b.1).stations.get b.2 [] = (z.die b.1).stations.get b.2 [] ++ [f] ∧ (u.die d).slots = (z.die d).slots := by
  intro b u
  have hu : u = z.modDie b.1 fun x => { x with stations := x.stations.set b.2 (x.stations.get b.2 [] ++ [f]) } := if_pos (isBridge_of_le hst)
  rw [hu]
  refine ⟨by rw [State.die_modDie_same, Map.get_set_same], ?_⟩
  by_cases hd : d = b.1
  · rw [hd, State.die_modDie_same]
  · rw [State.die_modDie_ne _ _ _ _ hd]

end

/-! ## Multicast (R158 to R160) -/

/-- R158: the oldest entry of a multicast queue leaves in the slot that passes. -/
theorem exec_multicastDepart {s : State} {t : TileId} {g : McGranule} {rest : List McGranule} {k : Nat} (hph : s.phase = .ending)
    (hq : (s.tile t).mcQueue = g :: rest) (hk : slotAt s.gtime (stationOf t) = k) (hz : (s.die (dieOf t)).frozen = false)
    (hfree : (s.die (dieOf t)).slots.find? k = none)
    (hp : let pe := (s.die (dieOf t)).pitch.get (132 * ((s.gtime + k) / 132 % 16) + k) 0
      pe.toNat / 2 ^ 14 = 2 ∧ pe.toNat % 2 ^ 8 = stationOf t) :
    ∃ u, exec (.multicastDepart t) s = .next u ∧ u.tile t = { s.tile t with mcQueue := rest } ∧
      (∀ v, v ≠ t → u.tile v = s.tile v) ∧ ∃ f, (u.die (dieOf t)).slots.find? k = some f ∧ f.msg = .granule g := by
  have hx : exec (.multicastDepart t) s = _ := execMulticastDepart.eq_def t s
  rw [hq] at hx
  have hp' : s.pitchAt (dieOf t) (stationOf t) = (s.die (dieOf t)).pitch.get (132 * ((s.gtime + k) / 132 % 16) + k) 0 := by
    rw [State.pitchAt, hk]
    rfl
  have hleaves : s.mcLeaves t = true := by
    rw [State.mcLeaves, hp', State.passing, hk, hfree, hz, hq, pitchKind_eq, pitchOwner_eq, hp.1, hp.2]
    simp
  replace hx := hx.trans (if_pos ⟨hleaves, hph⟩)
  let z := s.modTile t fun x => { x with mcQueue := rest }
  have hzt : z.tile t = { s.tile t with mcQueue := rest } := State.tile_modTile_same ..
  have hzv : ∀ v, v ≠ t → z.tile v = s.tile v := fun v hv => State.tile_modTile_ne _ _ _ _ hv
  let f : Flit := ⟨tileStation t, tileStation t, .write, s.gtime, 0, false, .granule g⟩
  refine ⟨_, hx, hzt, hzv, f, ?_, rfl⟩
  rw [State.fillSlot, State.die_modDie_same]
  exact hk ▸ Map.find?_set_same ..

theorem State.mcJoin_spec (s : State) (t : TileId) {g : McGranule} (hg : 1 < g.members.length) (hn : g.members.Nodup) :
    let u := s.mcJoin t g
    (u.tile t).mcQueue = (s.tile t).mcQueue ++ [g] ∧ (∀ v ∈ g.members, (u.tile v).delay = (s.tile v).delay ++ [g]) ∧
    (∀ v, v ∉ g.members → (u.tile v).delay = (s.tile v).delay) ∧ ∀ v, (u.tile v).sp = (s.tile v).sp := by
  intro u
  have hfold : ∀ (l : List TileId) (z : State), l.Nodup → let w := l.foldl (fun s u => s.modTile u fun x => { x with delay := x.delay ++ [g] }) z
      ∀ v, w.tile v = { z.tile v with delay := if v ∈ l then (z.tile v).delay ++ [g] else (z.tile v).delay } := fun l => by
    induction l with
    | nil => exact fun z _ v => rfl
    | cons a l ih =>
      intro z hl w v
      obtain ⟨ha, hl⟩ := List.nodup_cons.1 hl
      refine (ih _ hl v).trans ?_
      by_cases hv : v = a
      · subst hv
        rw [State.tile_modTile_same, if_neg ha, if_pos List.mem_cons_self]
      · rw [State.tile_modTile_ne _ _ _ _ hv]
        simp [hv]
  let z := s.modTile t fun x => { x with mcQueue := x.mcQueue ++ [g] }
  have hu : u = g.members.foldl (fun s u => s.modTile u fun x => { x with delay := x.delay ++ [g] }) z := by
    simp only [u, State.mcJoin, if_neg (Nat.not_le.2 hg)]
    rfl
  have hz : ∀ v, (z.tile v).delay = (s.tile v).delay ∧ (z.tile v).sp = (s.tile v).sp := fun v => by
    by_cases hv : v = t
    · subst hv
      rw [State.tile_modTile_same]
      exact ⟨rfl, rfl⟩
    · rw [State.tile_modTile_ne _ _ _ _ hv]
      exact ⟨rfl, rfl⟩
  have hall := hfold g.members z hn
  rw [hu]
  refine ⟨?_, fun v hv => ?_, fun v hv => ?_, fun v => ?_⟩
  · rw [hall, State.tile_modTile_same]
  · rw [hall, if_pos hv, (hz v).1]
  · rw [hall, if_neg hv, (hz v).1]
  · rw [hall, (hz v).2]

/-- R160: of the granules that are due, that of the lowest member lands first. -/
theorem Tile.landing?_none {x : Tile} {now : Nat} (h : ∀ g ∈ x.delay, now < g.due) : x.landing? now = none := by
  have hnil : (x.delay.filter fun g => g.due ≤ now) = [] :=
    List.filter_eq_nil_iff.2 fun g hg k => absurd (of_decide_eq_true k) (Nat.not_le.2 (h g hg))
  rw [Tile.landing?, hnil]
  rfl

theorem Tile.landing?_some {x : Tile} {now : Nat} (h : ∃ g ∈ x.delay, g.due ≤ now) : ∃ g rest, x.landing? now = some (g, rest) ∧
    g ∈ x.delay ∧ g.due ≤ now ∧ (∀ h ∈ x.delay, h.due ≤ now → g.member ≤ h.member) ∧ x.delay.Perm (g :: rest) := by
  obtain ⟨g, hg, hd⟩ := h
  let ms := (x.delay.filter fun g => g.due ≤ now).map McGranule.member
  have hmem : ∀ h ∈ x.delay, h.due ≤ now → h.member ∈ ms := fun h hh hd =>
    List.mem_map_of_mem (List.mem_filter.2 ⟨hh, decide_eq_true hd⟩)
  obtain ⟨m, hm⟩ : ∃ m, ms.min? = some m := Option.ne_none_iff_exists'.1 (mt List.min?_eq_none_iff.1 (List.ne_nil_of_mem (hmem g hg hd)))
  obtain ⟨hin, hle⟩ := List.min?_eq_some_iff.1 hm
  obtain ⟨a, ha, rfl⟩ := List.mem_map.1 hin
  obtain ⟨hax, had⟩ := List.mem_filter.1 ha
  obtain ⟨⟨b, rest⟩, hr⟩ := removeFirst_of_mem (p := fun g : McGranule => decide (g.due ≤ now) && g.member == a.member) hax (by simpa using had)
  obtain ⟨pre, post, hl, rfl, hp, -⟩ := removeFirst_split hr
  obtain ⟨h1, h2⟩ := Bool.and_eq_true_iff.1 hp
  refine ⟨b, pre ++ post, ?_, ?_, of_decide_eq_true h1,
    fun h hh hd => ?_, ?_⟩
  · have hx : x.landing? now = _ := Tile.landing?.eq_def x now
    change _ = match ms.min? with | some m => _ | none => _ at hx
    rw [hm] at hx
    exact hx.trans hr
  · rw [hl]
    exact List.mem_append_right _ List.mem_cons_self
  · rw [eq_of_beq h2]
    exact hle _ (hmem h hh hd)
  · rw [hl]
    exact List.perm_middle

theorem mergeBits_idem (old b mask : Byte) : mergeBits (mergeBits old b mask) b mask = mergeBits old b mask := by
  refine BitVec.eq_of_getLsbD_eq fun i hi => ?_
  rw [getLsbD_mergeBits _ _ _ ⟨i, hi⟩, getLsbD_mergeBits _ _ _ ⟨i, hi⟩]
  split <;> rfl

/-- R159: a byte of a masked write that no other byte of it meets. -/
theorem Memory.get_writeMasked_sole (bs : List (Nat × Byte × Byte)) (m : Memory) {b : Nat × Byte × Byte} (hb : b ∈ bs)
    (h : ∀ c ∈ bs, c.1 = b.1 → c = b) : (m.writeMasked bs).get b.1 = mergeBits (m.get b.1) b.2.1 b.2.2 := by
  induction bs generalizing m with
  | nil => exact absurd hb List.not_mem_nil
  | cons c bs ih =>
    have htail : ∀ e ∈ bs, e.1 = b.1 → e = b := fun e he => h e (List.mem_cons_of_mem _ he)
    rw [Memory.writeMasked]
    by_cases hmem : b ∈ bs
    · rw [ih _ hmem htail]
      by_cases hc : c.1 = b.1
      · rw [h c List.mem_cons_self hc, Memory.get_put_same, mergeBits_idem]
      · rw [Memory.get_put_ne _ _ _ _ (Ne.symm hc)]
    · have hc : c = b := ((List.mem_cons.1 hb).resolve_right hmem).symm
      subst hc
      rw [Memory.get_writeMasked_outside _ _ _ fun e he k => hmem (htail e he k ▸ he), Memory.get_put_same]

theorem Tile.landMulticast_eq (x : Tile) (g : McGranule) : x.landMulticast g =
    { x with sp := x.sp.writeMasked (g.bytes.map fun b => (g.off + b.1, b.2)), used := (x.landMulticast g).used,
             cox := { x.cox with flight := (x.landMulticast g).cox.flight } } := rfl

/-- Settles O44: injection, arrival, and the multicast of a granule from its queue to its landing. -/
theorem courseSlots : Obligations.CourseSlots := by
  refine ⟨fun s d st k hk hz => ?_, fun s t hph => ?_⟩
  · have hslot : slotAt s.gtime st.val = k.val := slotAt_eq k.isLt hk
    intro x p out may
    refine ⟨fun hfree hout => ?_, fun f hf hm hph he hg => ?_⟩
    · have hmay := State.mayInject_iff (st := st.val) hslot hfree hz
      obtain ⟨pre, f, post, hnext, hl, hfirst⟩ := nextOut_split hout
      refine ⟨fun h => ?_, fun h => ?_⟩
      · have hx : exec (.flitInject d st) s = _ := execFlitInject.eq_def d st s
        rw [show nextOut ((s.die d).stations.get st.val []) = _ from hnext] at hx
        exact hx.trans (if_neg (mt hmay.1 h))
      · obtain ⟨u, hu, h1, h2, h3, h4⟩ := State.inject_spec hslot hnext (hmay.2 h)
        exact ⟨u, hu, pre, f, post, hl, hfirst, h1, h2, h3, h4⟩
    · have harr := State.arriving_eq hslot hf hz he
      have hd : (s.emptied d k.val).die d = { s.die d with slots := (s.die d).slots.erase k.val } := State.die_modDie_same ..
      intro tri key room
      refine ⟨fun hst => ⟨fun h => ?_, fun hseq hroom => ?_⟩, fun hst => ?_⟩
      · refine exec_flitArrive_refused (harr.trans (if_neg fun ha => ?_))
        obtain ⟨h1, h2⟩ := (State.accepts_station hst hm).1 ha
        exact h.elim (fun k => k h1) fun k => k h2
      · have hx := exec_flitArrive hslot (harr.trans (if_pos ((State.accepts_station hst hm).2 ⟨hseq, hroom⟩))) hph hm hg
        exact ⟨_, hx, State.deliverFlit_station hst _ hd rfl⟩
      · intro b j next
        have hb : bridge d.val st.val = (b, j) := by
          simp only [bridge, b, j]
          split <;> rfl
        have hacc := State.accepts_bridge (s := s) (d := d) (f := f) hst hm
        rw [hb] at hacc
        refine ⟨fun h1 h2 => ?_, fun h => exec_flitArrive_refused (harr.trans (if_neg fun ha => ?_))⟩
        · have hx := exec_flitArrive hslot (harr.trans (if_pos (hacc.2 ⟨h1, h2⟩))) hph hm hg
          obtain ⟨h3, h4⟩ := State.deliverFlit_bridge (d := d) (f := f) hst (s.emptied d k.val)
          rw [hb] at h3
          refine ⟨_, hx, ?_, ?_⟩
          · rw [h4, hd]
            exact Map.find?_erase_same ..
          · refine h3.trans (congrArg (· ++ [f]) ?_)
            by_cases hdb : b = d
            · rw [hdb, hd]
              simp only [next, hdb]
            · rw [State.emptied, State.die_modDie_ne _ _ _ _ hdb]
        · exact absurd (hacc.1 ha).2 (Nat.not_lt.2 h)
  · refine ⟨fun g rest k hq hk => ?_, fun g hg hn => s.mcJoin_spec t hg hn, fun h => ?_, fun h => ?_⟩
    · intro x pe hz hfree hkind hown
      exact exec_multicastDepart hph hq (slotAt_eq k.isLt hk) hz hfree ⟨hkind, hown⟩
    · have hx : exec (.multicastLand t) s = _ := execMulticastLand.eq_def t s
      rwa [Tile.landing?_none h] at hx
    · obtain ⟨g, rest, hl, h1, h2, h3, h4⟩ := Tile.landing?_some h
      have hx : exec (.multicastLand t) s = _ := execMulticastLand.eq_def t s
      rw [hl] at hx
      replace hx := hx.trans (if_pos hph)
      let y : Tile := { s.tile t with delay := rest }
      let z := s.modTile t fun x => { x with delay := rest }.landMulticast g
      have hzt : z.tile t = y.landMulticast g := State.tile_modTile_same ..
      have hzv : ∀ v, v ≠ t → z.tile v = s.tile v := fun v hv => State.tile_modTile_ne _ _ _ _ hv
      refine ⟨z.wroteSp t (g.bytes.map fun b => (g.off + b.1, b.2)), g, hx, hzv, h1, h2, h3, ?_⟩
      have hcox : (z.wroteSp t (g.bytes.map fun b => (g.off + b.1, b.2))).cox t = (y.landMulticast g).cox := congrArg Tile.cox hzt
      rw [hcox, State.tile_wroteSp, hzt, Tile.landMulticast_eq]
      refine ⟨h4, fun b hb hsole => ?_, fun a ha => ?_, ?_⟩
      · refine Memory.get_writeMasked_sole _ _ (b := (g.off + b.1, b.2)) (List.mem_map_of_mem hb) fun c hc hcb => ?_
        obtain ⟨e, he, rfl⟩ := List.mem_map.1 hc
        rw [hsole e he (Nat.add_left_cancel hcb)]
      · refine Memory.get_writeMasked_outside _ _ _ fun c hc => ?_
        obtain ⟨e, he, rfl⟩ := List.mem_map.1 hc
        exact (ha e he).symm
      · rfl

end Sys2Proof.Machine
end

section
/-! ## Reads of a home leave the fabric and the launch counters (R359 to R362) -/

namespace Sys2Proof.Machine

open Sys2Proof

/-- What a home's read of a memory leaves: the registers of the module, the package's side of the fabric and the launch counter of every die. -/
structure ReadKeeps (s u : State) : Prop where
  fab : u.fab = s.fab
  sys : u.sys = s.sys
  counter : ∀ d, (u.die d).counter = (s.die d).counter

theorem ReadKeeps.refl (s : State) : ReadKeeps s s := ⟨rfl, rfl, fun _ => rfl⟩

theorem ReadKeeps.trans {s u v : State} (h : ReadKeeps s u) (k : ReadKeeps u v) : ReadKeeps s v :=
  ⟨k.fab.trans h.fab, k.sys.trans h.sys, fun d => (k.counter d).trans (h.counter d)⟩

theorem readKeeps_modDev (s : State) (f : DevMem → DevMem) : ReadKeeps s (s.modDev f) := ⟨rfl, rfl, fun _ => rfl⟩

theorem readKeeps_modHome (s : State) (h : Nat) (f : Home → Home) : ReadKeeps s (s.modHome h f) := ⟨rfl, rfl, fun _ => rfl⟩

theorem readKeeps_recordMc (s : State) (d : DieId) (b : Nat) (e : McEvent) : ReadKeeps s (s.recordMc d b e) := by
  refine ⟨rfl, rfl, fun c => ?_⟩
  by_cases hc : c = d
  · subst hc
    rw [State.recordMc, State.die_modDie_same]
  · rw [State.recordMc, State.die_modDie_ne _ _ _ _ hc]

theorem readKeeps_chargeMc (s : State) (t : TileId) (code : Byte) : ReadKeeps s (s.chargeMc t code) := by
  unfold State.chargeMc
  split
  · exact ⟨rfl, rfl, fun _ => rfl⟩
  · exact .refl s

theorem readKeeps_charge (s : State) (t : Option TileId) (code : Byte) : ReadKeeps s (match t with
    | some t => s.chargeMc t code
    | none => s) := by
  cases t with
  | none => exact .refl s
  | some t => exact readKeeps_chargeMc s t code

theorem readKeeps_countChannel (s : State) (stack ch row : Nat) : ReadKeeps s (s.countChannel stack ch row) := by
  unfold State.countChannel
  have hret : ∀ u : State, ReadKeeps u (u.retireChannel stack ch row) := fun u =>
    (readKeeps_modHome u _ _).trans (readKeeps_recordMc ..)
  dsimp only
  split
  · exact (readKeeps_modHome s _ _).trans (hret _)
  · exact readKeeps_modHome s _ _

theorem readKeeps_lost (s : State) (t : Option TileId) (stack ch row : Nat) : ReadKeeps s (s.lost t stack ch row) :=
  ((readKeeps_recordMc ..).trans (readKeeps_countChannel ..)).trans (readKeeps_charge _ t _)

theorem readKeeps_correctRow (s : State) (stack ch row bit : Nat) : ReadKeeps s (s.correctRow stack ch row bit) := by
  unfold State.correctRow
  dsimp only
  split
  · exact .refl s
  · exact (readKeeps_recordMc ..).trans (readKeeps_modHome ..)

theorem readKeeps_repair (s : State) (l : List Site) : ReadKeeps s (s.repair l) := readKeeps_modDev s _

theorem readKeeps_rebuild (s : State) (stack ch row : Nat) (l : List Site) : ReadKeeps s (s.rebuild stack ch row l) :=
  ((readKeeps_recordMc ..).trans (readKeeps_countChannel ..)).trans (readKeeps_repair ..)

theorem readKeeps_readHbm (s : State) (t : Option TileId) (phys n : Nat) (chk : Check) : ReadKeeps s (s.readHbm t phys n chk).1 := by
  have hbad : ∀ a b c, ReadKeeps s (((s.repair (memSites 0 (phys / 256 * 256) 256)).modDev fun d =>
      if d.poison.contains (phys / 256) then d else { d with poison := phys / 256 :: d.poison }).lost t a b c) := fun a b c =>
    ((readKeeps_modDev s _).trans (readKeeps_modDev _ _)).trans (readKeeps_lost ..)
  unfold State.readHbm
  dsimp only
  split
  · exact hbad ..
  · split
    · exact .refl s
    · split
      · exact .refl s
      · exact .refl s
      · exact (readKeeps_modDev s _).trans (readKeeps_correctRow ..)
      · split
        · exact readKeeps_rebuild ..
        · exact hbad ..

theorem readKeeps_wideError (s : State) (t : Option TileId) (tier : Nat) (l : List Site) : ReadKeeps s (s.wideError t tier l) := by
  unfold State.wideError
  dsimp only
  refine ReadKeeps.trans ?_ (readKeeps_charge _ t _)
  split
  · exact (readKeeps_modDev s _).trans (readKeeps_recordMc ..)
  · exact readKeeps_modDev s _

theorem readKeeps_checkedRead (s : State) (t : Option TileId) (tier phys n : Nat) (chk : Check) :
    ReadKeeps s (s.checkedRead t tier phys n chk).1 := by
  unfold State.checkedRead
  split
  · exact readKeeps_readHbm ..
  · dsimp only
    split
    · exact readKeeps_wideError ..
    · exact readKeeps_repair ..
    · exact .refl s

theorem readKeeps_deviceLoad (s : State) (a n : Nat) : ReadKeeps s (s.deviceLoad a n).1 := by
  have hfold : ∀ (l : List Nat) (c : State × Bool), ReadKeeps s c.1 → ReadKeeps s (l.foldl (fun (c : State × Bool) u =>
      match s.walk (256 * u) with
      | some p =>
        if pteTier p.pte = 2 then (c.1, false)
        else if c.2 then c.1.checkedRead none (pteTier p.pte) (p.at' (256 * u)) 256 .good else c
      | none => c) c).1 := fun l => by
    induction l with
    | nil => exact fun _ h => h
    | cons u l ih =>
      intro c hc
      refine ih _ ?_
      dsimp only
      split
      · split
        · exact hc
        · split
          · exact hc.trans (readKeeps_checkedRead ..)
          · exact hc
      · exact hc
  exact hfold _ (s, true) (.refl s)

theorem readKeeps_peerRecord (s : State) (va : Nat) : ReadKeeps s (s.peerRecord va).1 := by
  unfold State.peerRecord
  dsimp only
  split
  · exact .refl s
  · split
    · exact .refl s
    · split
      · exact .refl s
      · split
        · split
          · exact readKeeps_deviceLoad ..
          · exact .refl s
        · exact .refl s

end Sys2Proof.Machine
end

section
/-! ## Packets (R247, R250) -/

namespace Sys2Proof.Machine

open Sys2Proof

/-- How far a number lies above H. -/
def aboveHigh (h n : Nat) : Nat := (n + 2 ^ 32 - h) % 2 ^ 32

theorem Fabric.freshness_eq (f : Fabric) (src : Byte) (n : BitVec 32) :
    f.freshness src n =
      if aboveHigh (f.high.get src.toNat 0) n.toNat = 0 ∨ 2 ^ 31 ≤ aboveHigh (f.high.get src.toNat 0) n.toNat ∨ n.toNat ∈ f.marks.get src.toNat [] then
        .duplicate
      else if 64 < aboveHigh (f.high.get src.toNat 0) n.toNat ∨ (src, n) ∈ f.applying then .beyond else .fresh := by
  simp only [Fabric.freshness, aboveHigh, List.contains_iff_mem]
  rfl

theorem Fabric.freshness_duplicate_iff (f : Fabric) (src : Byte) (n : BitVec 32) : f.freshness src n = .duplicate ↔
    aboveHigh (f.high.get src.toNat 0) n.toNat = 0 ∨ 2 ^ 31 ≤ aboveHigh (f.high.get src.toNat 0) n.toNat ∨ n.toNat ∈ f.marks.get src.toNat [] := by
  rw [Fabric.freshness_eq]
  split
  · next h => exact ⟨fun _ => h, fun _ => rfl⟩
  · next h =>
    refine ⟨fun k => ?_, fun k => absurd k h⟩
    split at k <;> exact nomatch k

/-- R247: as H moves up over the marks, a number that was marked is at or below it, or still marked. -/
theorem raiseHigh_spec {h n : Nat} (hh : h < 2 ^ 32) : ∀ (fuel j : Nat) (marks : List Nat),
    j ≤ 64 → (∀ m ∈ marks, j < aboveHigh h m ∧ aboveHigh h m ≤ 64 ∧ m < 2 ^ 32) → 
    (aboveHigh h n ≤ j ∨ n ∈ marks) →
    let r := raiseHigh fuel ((h + j) % 2 ^ 32) marks
    ∃ i, i ≤ 64 ∧ r.1 = (h + i) % 2 ^ 32 ∧ (aboveHigh h n ≤ i ∨ n ∈ r.2) := by
  intro fuel
  induction fuel with
  | zero => exact fun j marks hj _ hn => ⟨j, hj, rfl, hn⟩
  | succ fuel ih =>
    intro j marks hj hm hn r
    have hnext : ((h + j) % 2 ^ 32 + 1) % 2 ^ 32 = (h + (j + 1)) % 2 ^ 32 := by omega
    by_cases hc : marks.contains ((h + (j + 1)) % 2 ^ 32) = true
    · have hr : r = raiseHigh fuel ((h + (j + 1)) % 2 ^ 32) (marks.filter fun m => m ≠ (h + (j + 1)) % 2 ^ 32) := by
        simp only [r, raiseHigh, hnext]
        exact if_pos hc
      rw [hr]
      have hmem := hm _ (List.contains_iff_mem.1 hc)
      have habove : aboveHigh h ((h + (j + 1)) % 2 ^ 32) = j + 1 := by
        unfold aboveHigh at hmem ⊢
        omega
      refine ih (j + 1) _ (habove ▸ hmem.2.1) (fun m hmm => ?_) ?_
      · obtain ⟨h1, h2⟩ := List.mem_filter.1 hmm
        obtain ⟨h3, h4, h5⟩ := hm m h1
        have hne : m ≠ (h + (j + 1)) % 2 ^ 32 := of_decide_eq_true h2
        refine ⟨?_, h4, h5⟩
        unfold aboveHigh at h3 h4 ⊢
        omega
      · rcases hn with hn | hn
        · exact .inl (by omega)
        · by_cases he : n = (h + (j + 1)) % 2 ^ 32
          · exact .inl (by rw [he, habove])
          · exact .inr (List.mem_filter.2 ⟨hn, decide_eq_true he⟩)
    · have hr : r = ((h + j) % 2 ^ 32, marks) := by
        simp only [r, raiseHigh, hnext]
        exact if_neg hc
      rw [hr]
      exact ⟨j, hj, rfl, hn⟩

/-- R247: a number that has been committed is a duplicate. -/
theorem Fabric.freshness_commit {f : Fabric} {src : Byte} {n : BitVec 32} (hh : f.high.get src.toNat 0 < 2 ^ 32)
    (hn : 1 ≤ aboveHigh (f.high.get src.toNat 0) n.toNat ∧ aboveHigh (f.high.get src.toNat 0) n.toNat ≤ 64)
    (hm : ∀ m ∈ f.marks.get src.toNat [], 1 ≤ aboveHigh (f.high.get src.toNat 0) m ∧ aboveHigh (f.high.get src.toNat 0) m ≤ 64 ∧ m < 2 ^ 32) :
    (f.commit src n).freshness src n = .duplicate := by
  let h := f.high.get src.toNat 0
  let marks := n.toNat :: f.marks.get src.toNat []
  have hnl : n.toNat < 2 ^ 32 := n.isLt
  obtain ⟨i, hi, h1, h2⟩ := raiseHigh_spec (n := n.toNat) hh marks.length 0 marks (by decide)
    (List.forall_mem_cons.2 ⟨⟨hn.1, hn.2, hnl⟩, hm⟩) (.inr List.mem_cons_self)
  rw [Nat.add_zero, Nat.mod_eq_of_lt hh] at h1 h2
  rw [Fabric.freshness_eq, Fabric.commit]
  dsimp only
  rw [Map.get_set_same, Map.get_set_same]
  refine if_pos ?_
  change aboveHigh (raiseHigh marks.length h marks).1 n.toNat = 0 ∨ 2 ^ 31 ≤ aboveHigh (raiseHigh marks.length h marks).1 n.toNat ∨ n.toNat ∈ (raiseHigh marks.length h marks).2
  rcases h2 with h2 | h2
  · rw [h1]
    unfold aboveHigh at *
    omega
  · exact .inr (.inr h2)

/-- What keeps the numbers of the packets that have come. -/
def KeepsNumbers (s u : State) : Prop := u.fab.high = s.fab.high ∧ u.fab.marks = s.fab.marks

theorem keepsNumbers_groupPacket {s u : State} {p : Packet} {g gen : Nat} (h : s.groupPacket p g gen = some u) : KeepsNumbers s u := by
  unfold State.groupPacket at h
  split at h
  · split at h
    · cases h; exact ⟨rfl, rfl⟩
    · cases h
  · split at h
    · split at h
      · cases h; exact ⟨rfl, rfl⟩
      · cases h
    · cases h; exact ⟨rfl, rfl⟩
  · cases h; exact ⟨rfl, rfl⟩
  · split at h
    · cases h; exact ⟨rfl, rfl⟩
    · cases h

theorem State.enterPool_counter (s : State) (d : DieId) (q : QueueId) (bytes : List Byte) (depth : Nat) (parent : Option (BitVec 32))
    (compsig : Option (BitVec 32)) (share : Share) :
    ((s.enterPool d q bytes depth parent compsig share).1.die d).counter = nextCounter (s.die d).counter := by
  let id := newId d (s.die d).counter
  let f (x : Die) : Die :=
    let x := x.modQueue q fun k => { k with recent := (id :: k.recent).take 255, received := k.received + 1 }
    { x with counter := nextCounter x.counter }
  exact congrArg Die.counter (State.die_modDie_same s d f)

/-- R309: an accepted launch that takes an entry has its id. -/
theorem State.launchPacketIn_accepted {s : State} {l : List Byte} (ha : s.acceptsLaunch l = true) :
    let d : DieId := Fin.ofNat 4 (recNat l 0 1 / 64)
    (s.schedules d = false ∨ s.inDieOrder d = false ∨ 256 ≤ s.held d 0 → s.launchPacketIn l = none) ∧
    (s.schedules d = true → s.inDieOrder d = true → s.held d 0 < 256 → ∃ u, s.launchPacketIn l = some u ∧ u.fab = s.fab ∧
      (u.die d).counter = nextCounter (s.die d).counter) := by
  intro d
  have hu : s.launchPacketIn l = _ := State.launchPacketIn.eq_def s l
  rw [if_neg (by rw [ha]; decide)] at hu
  refine ⟨fun h => hu.trans ?_, fun h1 h2 h3 => ⟨_, hu.trans ((if_neg ?_).trans (if_pos h3)), ?_, ?_⟩⟩
  · rcases h with h | h | h
    · exact if_pos (.inl h)
    · exact if_pos (.inr h)
    · dsimp only
      split
      · rfl
      · exact if_neg (Nat.not_lt.2 h)
  · rw [h1, h2]
    decide
  · exact (readKeeps_peerRecord s _).fab
  · exact (State.enterPool_counter ..).trans (congrArg nextCounter ((readKeeps_peerRecord s _).counter d))

theorem keepsNumbers_launchPacketIn {s u : State} {l : List Byte} (h : s.launchPacketIn l = some u) : KeepsNumbers s u := by
  cases ha : s.acceptsLaunch l with
  | false =>
    rw [State.launchPacketIn, if_pos ha] at h
    cases h
    exact ⟨rfl, rfl⟩
  | true =>
    obtain ⟨h1, h2⟩ := State.launchPacketIn_accepted ha
    by_cases hr : s.schedules (Fin.ofNat 4 (recNat l 0 1 / 64)) = true ∧ s.inDieOrder (Fin.ofNat 4 (recNat l 0 1 / 64)) = true ∧
        s.held (Fin.ofNat 4 (recNat l 0 1 / 64)) 0 < 256
    · obtain ⟨v, hv, hf, -⟩ := h2 hr.1 hr.2.1 hr.2.2
      cases hv.symm.trans h
      exact ⟨by rw [hf], by rw [hf]⟩
    · have := h1 (by
        simp only [Bool.eq_false_iff, ← Nat.not_lt]
        tauto)
      cases this.symm.trans h

theorem keepsNumbers_commitBody {s u : State} {p : Packet} (h : s.commitBody p = some u) : KeepsNumbers s u := by
  unfold State.commitBody at h
  split at h
  · exact keepsNumbers_groupPacket h
  · exact keepsNumbers_groupPacket h
  · cases h; exact ⟨rfl, rfl⟩
  · exact keepsNumbers_launchPacketIn h

theorem exec_packetArrive {s : State} {p : Packet} (hr : s.phase = .running) (hd : p.dst = s.sys.pkg) (ho : s.fab.outOfDomain = false) :
    exec (.packetArrive p) s = match s.fab.freshness p.src p.seq with
      | .duplicate | .beyond => .next s
      | .fresh => match s.commitBody p with
        | some u => .next (if atOnce p.body then u.modFab fun f => f.commit p.src p.seq else u)
        | none => .next s := by
  have hx : exec (.packetArrive p) s = _ := execPacketArrive.eq_def p s
  rw [if_neg (by rw [hr, hd, ho]; simp)] at hx
  refine hx.trans ?_
  cases s.fab.freshness p.src p.seq <;> rfl

theorem recNat_first (l : List Byte) : recNat l 0 1 = (l.getD 0 0).toNat := by
  cases l with
  | nil => rfl
  | cons b l => simp [recNat, ofBytes]

/-- R247: what a packet of this package does as it arrives, by its number and its kind. -/
theorem packetArrive_spec {s : State} {p : Packet} (hr : s.phase = .running) (hd : p.dst = s.sys.pkg) (ho : s.fab.outOfDomain = false) :
  let h := s.fab.high.get p.src.toNat 0
  let marks := s.fab.marks.get p.src.toNat []
  let above (n : Nat) : Nat := (n + 2 ^ 32 - h) % 2 ^ 32
  let n := p.seq.toNat
  let dup := above n = 0 ∨ 2 ^ 31 ≤ above n ∨ n ∈ marks
  let busy := (p.src, p.seq) ∈ s.fab.applying
  (dup ∨ 64 < above n ∨ busy → exec (.packetArrive p) s = .next s) ∧
  (¬dup → above n ≤ 64 → ¬busy →
    (∀ a, p.body = .flag a → ∃ u, exec (.packetArrive p) s = .next u ∧ u.dev = s.dev ∧ u.launches = s.launches ∧
      (p.src, p.seq) ∈ u.fab.applying ∧ ∃ q ∈ u.allFlits, ∃ st, q.dst = homeStation (signalHome a.word) ∧
        q.msg = .oper none a.word a.act (some (.packet st p.src p.seq))) ∧
    (∀ l, p.body = .launch l → s.acceptsLaunch l = false →
      ∃ u, exec (.packetArrive p) s = .next u ∧ u.launches = s.launches ∧ u.dev = s.dev) ∧
    (∀ l, p.body = .launch l → s.acceptsLaunch l = true →
      let d : DieId := Fin.ofNat 4 ((l.getD 0 0).toNat / 64)
      (s.schedules d = false ∨ s.inDieOrder d = false ∨ 256 ≤ s.held d 0 → exec (.packetArrive p) s = .next s) ∧
      (s.schedules d = true → s.inDieOrder d = true → s.held d 0 < 256 →
        ∃ u, exec (.packetArrive p) s = .next u ∧ (u.die d).counter = nextCounter (s.die d).counter)) ∧
    (h < 2 ^ 32 → (∀ m ∈ marks, 1 ≤ above m ∧ above m ≤ 64 ∧ m < 2 ^ 32) →
      (∀ u, (∀ a, p.body ≠ .flag a) → exec (.packetArrive p) s = .next u → u ≠ s →
        u.fab.freshness p.src p.seq = .duplicate) ∧
      ∀ st, (s.receive (.told (.packet st p.src p.seq))).fab.freshness p.src p.seq = .duplicate)) := by
  intro h marks above n dup busy
  have hx := exec_packetArrive hr hd ho
  have hf := s.fab.freshness_eq p.src p.seq
  refine ⟨fun hold => ?_, fun hdup hwin hbusy => ?_⟩
  · have hstay : s.fab.freshness p.src p.seq ≠ .fresh := by
      by_cases hdup : dup
      · rw [hf.trans (if_pos hdup)]
        decide
      · rw [hf.trans ((if_neg hdup).trans (if_pos (hold.resolve_left hdup)))]
        decide
    rw [hx]
    cases hfr : s.fab.freshness p.src p.seq with
    | fresh => exact absurd hfr hstay
    | duplicate | beyond => rfl
  · rw [show s.fab.freshness p.src p.seq = .fresh from hf.trans ((if_neg hdup).trans (if_neg (not_or.2 ⟨Nat.not_lt.2 hwin, hbusy⟩)))] at hx
    dsimp only at hx
    refine ⟨fun a hb => ?_, fun l hb ha => ?_, fun l hb ha => ?_, fun hh hm => ?_⟩
    · have hc : s.commitBody p = some (s.applyFlag p a) := by rw [State.commitBody, hb]
      rw [hc, hb] at hx
      refine ⟨_, hx, rfl, rfl, List.mem_cons_self, _, State.sends_allFlits (State.sends_sendFlit_new ..), s.portStation 0, rfl, rfl⟩
    · have hc : s.commitBody p = some s.logStale := by
        rw [State.commitBody, hb]
        exact if_pos ha
      rw [hc, hb] at hx
      exact ⟨_, hx, rfl, rfl⟩
    · have hc : s.commitBody p = s.launchPacketIn l := by rw [State.commitBody, hb]
      obtain ⟨h1, h2⟩ := State.launchPacketIn_accepted ha
      rw [recNat_first] at h1 h2
      rw [hc] at hx
      refine ⟨fun hold => by rw [hx, h1 hold], fun k1 k2 k3 => ?_⟩
      obtain ⟨u, hu, -, hcount⟩ := h2 k1 k2 k3
      rw [hu, hb] at hx
      exact ⟨_, hx, hcount⟩
    · have hn : 1 ≤ aboveHigh h n ∧ aboveHigh h n ≤ 64 := ⟨Nat.one_le_iff_ne_zero.2 fun k => hdup (.inl k), hwin⟩
      refine ⟨fun u hb hu hne => ?_, fun st => ?_⟩
      · cases hc : s.commitBody p with
        | none =>
          rw [hc] at hx
          cases hx.symm.trans hu
          exact absurd rfl hne
        | some v =>
          rw [hc] at hx
          have hat : atOnce p.body = true := by
            cases hbody : p.body with
            | flag a => exact absurd hbody (hb a)
            | _ => rfl
          rw [hat] at hx
          cases hx.symm.trans hu
          obtain ⟨h1, h2⟩ := keepsNumbers_commitBody hc
          exact Fabric.freshness_commit (by rw [h1]; exact hh) (by rw [h1]; exact hn) (by rw [h1, h2]; exact hm)
      · exact (Fabric.freshness_duplicate_iff ..).2 ((Fabric.freshness_duplicate_iff (s.fab.commit p.src p.seq) ..).1 (Fabric.freshness_commit (n := p.seq) hh hn hm))

/-! ## Acknowledgements, resends and the events of links (R227, R228, R236, R248, R363) -/

section
variable (s : State)

theorem Sent.named_iff {k : Sent} {pkg : Byte} {n : BitVec 32} : k.named pkg n = true ↔ k.pkt.dst = pkg ∧ k.pkt.seq = n := by
  rw [Sent.named, Bool.and_eq_true, beq_iff_eq, beq_iff_eq]

theorem ackArrive_spec (pkg : Byte) (seq : BitVec 32) (val : Option Word) (k : Sent)
    (hk : s.fab.sent.find? (fun j => j.pkt.dst = pkg ∧ j.pkt.seq = seq ∧ j.sentAt.isSome) = some k) (ho : s.fab.outOfDomain = false) :
    ∃ u, exec (.ackArrive pkg seq val) s = .next u ∧
      u.fab.sent = s.fab.sent.filter (fun j => ¬(j.pkt.dst = pkg ∧ j.pkt.seq = seq)) ∧
      (∀ g, k.group = some g → (u.group g).unacked = (s.group g).unacked - 1) ∧
      ∀ t r v, k.from' = some (t, r) → val = some v → r.slot = true → (∃ e ∈ (s.cox t).rf, e.id = r.id) →
        (r.id, v) ∈ (u.tile t).replies := by
  have hfind : (s.fab.sent.find? fun k => !s.fab.outOfDomain && k.named pkg seq && k.sentAt.isSome) = some k := by
    rw [← hk, ho]
    refine congrArg (List.find? · s.fab.sent) (funext fun j => ?_)
    rw [Bool.eq_iff_iff, decide_eq_true_iff]
    simp [Sent.named_iff, and_assoc]
  have hfilter : (s.fab.sent.filter fun j => !j.named pkg seq) = s.fab.sent.filter (fun j => ¬(j.pkt.dst = pkg ∧ j.pkt.seq = seq)) := by
    refine congrArg (List.filter · s.fab.sent) (funext fun j => ?_)
    rw [Bool.eq_iff_iff, decide_eq_true_iff, Bool.not_eq_true', ← Bool.not_eq_true, Sent.named_iff]
  let y := s.modFab fun f => { f with sent := f.sent.filter fun j => !j.named pkg seq }
  let z := match k.group with
    | some g => y.modGroup g fun e => { e with unacked := e.unacked - 1 }
    | none => y
  have hz : z.fab.sent = s.fab.sent.filter (fun j => ¬(j.pkt.dst = pkg ∧ j.pkt.seq = seq)) ∧ z.tiles = s.tiles ∧
      ∀ g, k.group = some g → (z.group g).unacked = (s.group g).unacked - 1 := by
    simp only [z]
    cases k.group with
    | none => exact ⟨hfilter, rfl, nofun⟩
    | some g =>
      refine ⟨hfilter, rfl, fun g' hg' => ?_⟩
      cases hg'
      exact congrArg Group.unacked (State.group_modGroup_same ..)
  obtain ⟨h1, h2, h3⟩ := hz
  have hx : exec (.ackArrive pkg seq val) s = _ := execAckArrive.eq_def pkg seq val s
  rw [hfind] at hx
  cases hfrom : k.from' with
  | none =>
    have hend : exec (.ackArrive pkg seq val) s = .next z := hx.trans (by dsimp only; rw [hfrom] <;> rfl)
    exact ⟨z, hend, h1, h3, fun _ _ _ h => absurd h.symm (Option.some_ne_none _)⟩
  | some tr =>
    obtain ⟨t, r⟩ := tr
    cases hval : val with
    | none =>
      have hend : exec (.ackArrive pkg seq val) s = .next z := hx.trans (by dsimp only; rw [hfrom, hval] <;> rfl)
      exact ⟨z, hval ▸ hend, h1, h3, fun _ _ _ _ h => absurd h.symm (Option.some_ne_none _)⟩
    | some v =>
      have hend : exec (.ackArrive pkg seq val) s = if r.slot then .next (z.modTile t fun x => x.takeReply r.id v) else .next z :=
        hx.trans (by dsimp only; rw [hfrom, hval] <;> rfl)
      rw [hval] at hend
      by_cases hslot : r.slot = true
      · refine ⟨_, hend.trans (if_pos hslot), h1, h3, fun t' r' v' h h' _ he => ?_⟩
        cases h
        cases h'
        rw [State.tile_modTile_same]
        obtain ⟨e, he, hid⟩ := he
        refine List.mem_filter.2 ⟨List.mem_append_right _ List.mem_cons_self, List.any_eq_true.2 ⟨e, ?_, decide_eq_true hid⟩⟩
        exact (congrArg (fun m => (Map.get m t.val Tile.reset).cox.rf) h2).symm ▸ he
      · refine ⟨z, hend.trans (if_neg hslot), h1, h3, fun t' r' v' h _ k => ?_⟩
        cases h
        exact absurd k hslot

theorem exec_ackArrive_outOfDomain (ho : s.fab.outOfDomain = true) (pkg : Byte) (seq : BitVec 32) (val : Option Word) :
    exec (.ackArrive pkg seq val) s = .next s := by
  have hx : exec (.ackArrive pkg seq val) s = _ := execAckArrive.eq_def pkg seq val s
  have hnone : (s.fab.sent.find? fun k => !s.fab.outOfDomain && k.named pkg seq && k.sentAt.isSome) = none := by
    rw [ho]
    exact List.find?_eq_none.2 fun _ _ => by simp
  rwa [hnone] at hx

theorem resendTimeout_spec (pkg : Byte) (seq : BitVec 32) (hc : s.fab.cut = false) : ∃ u, exec (.resendTimeout pkg seq) s = .next u ∧
    u = { s with fab := { s.fab with sent := u.fab.sent } } ∧
    u.fab.sent.length = s.fab.sent.length ∧ ∀ (i : Nat) k, s.fab.sent[i]? = some k →
      (∀ c, k.sentAt = some c → k.pkt.dst = pkg → k.pkt.seq = seq → c + 4096 ≤ s.gtime →
        u.fab.sent[i]? = some { k with sentAt := some s.gtime }) ∧
      (k.pkt.dst ≠ pkg ∨ k.pkt.seq ≠ seq ∨ k.sentAt = none ∨ (∃ c, k.sentAt = some c ∧ s.gtime < c + 4096) →
        u.fab.sent[i]? = some k) := by
  have hx : exec (.resendTimeout pkg seq) s = _ := execResendTimeout.eq_def pkg seq s
  rw [hc] at hx
  refine ⟨_, hx.trans (if_neg (by decide)), rfl, List.length_map .., fun i k hi => ?_⟩
  have hget := fun (f : Sent → Sent) => (List.getElem?_map (f := f) (l := s.fab.sent) (i := i)).trans (by rw [hi, Option.map_some])
  refine ⟨fun c h1 h2 h3 h4 => (hget _).trans ?_, fun h => (hget _).trans ?_⟩
  · rw [h1]
    exact congrArg some (if_pos ⟨Sent.named_iff.2 ⟨h2, h3⟩, h4⟩)
  · cases ha : k.sentAt with
    | none => rfl
    | some c =>
      refine congrArg some (if_neg fun hn => ?_)
      obtain ⟨h1, h2⟩ := Sent.named_iff.1 hn.1
      rcases h with h | h | h | ⟨c', h, h'⟩
      · exact h h1
      · exact h h2
      · exact nomatch ha.symm.trans h
      · cases ha.symm.trans h
        exact absurd hn.2 (Nat.not_le.2 h')

theorem firstHeld_append {pkg : Byte} {pre post : List Sent} {k : Sent} (hpre : ∀ j ∈ pre, j.pkt.dst ≠ pkg) (hk : k.pkt.dst = pkg) :
    firstHeld pkg (pre ++ k :: post) = if k.sentAt = none then some k else none := by
  induction pre with
  | nil => exact if_pos hk
  | cons a pre ih =>
    obtain ⟨ha, hpre⟩ := List.forall_mem_cons.1 hpre
    exact (if_neg ha).trans (ih hpre)

theorem flagDepart_spec {pkg : Byte} {pre post : List Sent} {k : Sent} (hs : s.fab.sent = pre ++ k :: post) (hpre : ∀ j ∈ pre, j.pkt.dst ≠ pkg)
    (hk : k.pkt.dst = pkg) (hc : s.fab.cut = false) :
    (k.sentAt = none → ∃ u, exec (.flagDepart pkg) s = .next u ∧
      u.fab.sent[pre.length]? = some { k with sentAt := some s.gtime }) ∧
    (k.sentAt ≠ none → exec (.flagDepart pkg) s = .next s) := by
  have hx : exec (.flagDepart pkg) s = _ := execFlagDepart.eq_def pkg s
  rw [show firstHeld pkg s.fab.sent = _ from (congrArg (firstHeld pkg) hs).trans (firstHeld_append hpre hk)] at hx
  refine ⟨fun h => ?_, fun h => ?_⟩
  · rw [if_pos h, hc] at hx
    refine ⟨_, hx.trans (if_neg (by decide)), (List.getElem?_map ..).trans ?_⟩
    rw [hs, List.getElem?_append_right (Nat.le_refl _), Nat.sub_self]
    exact congrArg some (if_pos (Sent.named_iff.2 ⟨hk, rfl⟩))
  · rwa [if_neg h] at hx

theorem Fabric.cut_of {f : Fabric} (h : f.outOfDomain = true ∨ ∀ p, p < 32 → p ∈ f.linkRetired) : f.cut = true := by
  rw [Fabric.cut, Bool.or_eq_true]
  refine h.imp_right fun h => List.isEmpty_iff.2 (List.filter_eq_nil_iff.2 fun p hp => ?_)
  have hlt : p < 32 := by
    rcases List.mem_append.1 hp with hp | hp
    · have := (mem_numbersFrom.1 hp).2
      omega
    · exact List.mem_range.1 hp
  simpa using h p hlt

theorem exec_cut (hc : s.fab.cut = true) (pkg : Byte) (seq : BitVec 32) :
    exec (.resendTimeout pkg seq) s = .next s ∧ exec (.flagDepart pkg) s = .next s := by
  have hx : exec (.resendTimeout pkg seq) s = _ := execResendTimeout.eq_def pkg seq s
  have hy : exec (.flagDepart pkg) s = _ := execFlagDepart.eq_def pkg s
  refine ⟨hx.trans (if_pos hc), hy.trans ?_⟩
  split
  · exact if_pos hc
  · rfl

theorem earlyPacketTimeout_spec : ∃ u, exec .earlyPacketTimeout s = .next u ∧
    u.fab.early = s.fab.early.filter (fun q => s.gtime < q.2 + 2 ^ 24) ∧ u.tiles = s.tiles ∧ u.fab.groups = s.fab.groups := by
  have hfold : ∀ {α : Type} (l : List α) (z : State), (l.foldl (fun s _ => s.logStale) z).fab = z.fab ∧ (l.foldl (fun s _ => s.logStale) z).tiles = z.tiles :=
    fun l => by
      induction l with
      | nil => exact fun _ => ⟨rfl, rfl⟩
      | cons a l ih => exact fun z => ih z.logStale
  obtain ⟨h1, h2⟩ := hfold (s.fab.early.filter fun p => p.2 + 2 ^ 24 ≤ s.gtime)
    (s.modFab fun f => { f with early := f.early.filter fun p => s.gtime < p.2 + 2 ^ 24 })
  exact ⟨_, execEarlyPacketTimeout.eq_def s, by rw [h1]; rfl, h2, by rw [h1]; rfl⟩

theorem State.recordMc_die (d : DieId) (b : Nat) (e : McEvent) :
    (s.recordMc d b e).die d = { s.die d with events := (s.die d).events ++ [(b, e)], frozen := (s.die d).frozen || e.cls == 3 } :=
  State.die_modDie_same ..

end

/-- R366: what a bank shows after a corrected event. -/
theorem McBank.record_corrected (k : McBank) (code : Byte) :
    let f := k.record ⟨1, code, 0, none, none⟩
    f.val = true ∧ f.events = min 65535 (k.events + 1) ∧
    (k.val = false ∨ k.cls ≤ 1 → f.cls = 1 ∧ f.code = code) := by
  intro f
  have hf : f = _ := McBank.record.eq_def k ⟨1, code, 0, none, none⟩
  dsimp only at hf
  by_cases h : k.val = false ∨ k.cls ≤ 1
  · rw [if_pos h] at hf
    rw [hf]
    exact ⟨rfl, Nat.min_comm .., fun _ => ⟨rfl, rfl⟩⟩
  · rw [if_neg h] at hf
    rw [hf]
    exact ⟨by simpa using fun k => h (.inl k), Nat.min_comm .., fun k => absurd k h⟩

/-- R366, R363: the event of a link in the bank of its port. -/
theorem State.applyMc_link (s : State) (port : CpId) :
    let d : DieId := Fin.ofNat 4 (port.val / 8)
    let n := 38 + port.val % 8
    let e : McEvent := ⟨1, cMCLINK, 0, none, none⟩
    let b := (s.die d).bank n
    let u := s.applyMc d n e
    let f := (u.die d).bank n
    f.val = true ∧ min 65535 (b.events + 1) ≤ f.events ∧ (b.val = false ∨ b.cls ≤ 1 → f.cls = 1 ∧ f.code = cMCLINK) ∧
    (b.thresh ≠ 0 → b.thresh ≤ min 65535 (b.bucket + 1) → port.val ∈ u.fab.linkRetired) := by
  intro d n e b u f
  let y := s.modDie d fun x => { x with banks := x.banks.set n (b.record e) }
  let z := if b.promotes then y.promote d n else y
  have hraise : ∀ (c : Prop) [Decidable c] (v : Nat), (if c then z.raiseVector v else z).dies = z.dies ∧ (if c then z.raiseVector v else z).fab = z.fab :=
    fun c _ v => by split <;> exact ⟨rfl, rfl⟩
  obtain ⟨hd, hf⟩ := hraise ((e.cls = 1 ∧ b.cint) ∨ (e.cls = 2 ∧ b.xint) ∨ e.cls = 3) (2044 + d.val)
  have hfz : f = (z.die d).bank n := congrArg (fun m => (Map.get m d.val Die.reset).bank n) hd
  have hyb : (y.die d).bank n = b.record e := by
    simp only [y]
    rw [State.die_modDie_same]
    exact Map.get_set_same ..
  have hport : 8 * d.val + (n - 38) = port.val := by
    have := port.isLt
    simp only [d, n, Fin.val_ofNat]
    omega
  obtain ⟨r1, r2, r3⟩ := McBank.record_corrected b cMCLINK
  have hpromote : ∀ w : State, (w.die d).bank n = b.record e → 
      let v := w.promote d n
      (((v.die d).bank n = b.record e ∨ (v.die d).bank n = (b.record e).record e) ∧ port.val ∈ v.fab.linkRetired) := fun w hw => by
    intro v
    have hn : ¬n < 32 := by simp only [n]; omega
    have hrange : 38 ≤ n ∧ n ≤ 45 := by simp only [n]; omega
    have hv : v = _ := (if_neg hn).trans (if_pos hrange)
    dsimp only at hv
    rw [hport] at hv
    by_cases hc : w.fab.linkRetired.contains port.val = true
    · rw [if_pos hc] at hv
      rw [hv]
      exact ⟨.inl hw, List.contains_iff_mem.1 hc⟩
    · rw [if_neg hc] at hv
      rw [hv, State.die_modDie_same]
      refine ⟨.inr ((Map.get_set_same ..).trans ?_), List.mem_cons_self⟩
      exact congrArg (McBank.record · e) hw
  have hz : (z.die d).bank n = b.record e ∨ (z.die d).bank n = (b.record e).record e := by
    simp only [z]
    split
    · exact (hpromote y hyb).1
    · exact .inl hyb
  obtain ⟨q1, q2, q3⟩ := McBank.record_corrected (b.record e) cMCLINK
  have hcode : cMCLINK = e.code := rfl
  refine ⟨?_, ?_, fun h => ?_, fun h1 h2 => ?_⟩
  · rw [hfz]
    rcases hz with hz | hz <;> rw [hz]
    · exact r1
    · exact q1
  · rw [hfz]
    rcases hz with hz | hz <;> rw [hz]
    · exact le_of_eq r2.symm
    · exact le_trans (by rw [r2]; omega) (le_of_eq q2.symm)
  · rw [hfz]
    rcases hz with hz | hz <;> rw [hz]
    · exact r3 h
    · exact q3 (.inr (le_of_eq (r3 h).1))
  · have hp : b.promotes = true := by
      rw [McBank.promotes, sat16, Nat.min_comm]
      simp [h1, h2]
    have hzp : z = y.promote d n := if_pos hp
    exact hf.symm ▸ hzp.symm ▸ (hpromote y hyb).2

/-- Settles O45: arrivals by `packetArrive_spec`, the rest by a lemma for each event. -/
theorem packets : Obligations.Packets := by
  refine ⟨fun s p hr hd ho => packetArrive_spec hr hd ho, fun s => ⟨ackArrive_spec s, resendTimeout_spec s,
    fun pkg pre post k hs hpre hk hc => flagDepart_spec s hs hpre hk hc, exec_ackArrive_outOfDomain s, fun h pkg seq => exec_cut s (Fabric.cut_of h) pkg seq,
    earlyPacketTimeout_spec s, ⟨_, execGtimeBoundLoss.eq_def s, rfl, ?_, ?_⟩, fun port => ⟨⟨_, execLinkCrcRetry.eq_def port s, ?_, rfl⟩, State.applyMc_link s port⟩⟩⟩
  · exact (congrArg Die.frozen (s.recordMc_die 0 47 ⟨3, cMCLINK, 0, none, none⟩)).trans (Bool.or_true _)
  · exact congrArg Die.events (s.recordMc_die 0 47 ⟨3, cMCLINK, 0, none, none⟩)
  · exact congrArg Die.events (s.recordMc_die ..)

end Sys2Proof.Machine
end

section
/-! ## Host rings and pools (R304, R307 to R311, R320, R321, R390) -/

namespace Sys2Proof.Machine

open Sys2Proof

section
variable (s : State) (d : DieId) (q : QueueId)

theorem State.shareFor_zero : s.shareFor d 0 = if s.held d 0 < 256 then some 0 else none :=
  if_neg fun h => absurd h.1 (by decide)

theorem toNat_sub_head (v h : BitVec 32) : (v - h).toNat = (v.toNat + 2 ^ 32 - h.toNat) % 2 ^ 32 := by
  rw [BitVec.toNat_sub]
  omega

theorem State.queue_modQueue (f : LQueue → LQueue) :
    let u := s.modDie d fun x => x.modQueue q f
    (u.die d).queue q = f ((s.die d).queue q) ∧ ∀ j, j ≠ q → (u.die d).queue j = (s.die d).queue j := by
  intro u
  have hu : u.die d = (s.die d).modQueue q f := State.die_modDie_same ..
  rw [hu]
  exact ⟨Die.queue_modQueue_same .., fun j hj => Die.queue_modQueue_ne _ _ _ _ hj⟩

theorem rtailWrite_spec (hr : s.sys.ready = true) (v : BitVec 32) :
    let k := (s.die d).queue q
    (2 ^ k.log2 < (v.toNat + 2 ^ 32 - k.head.toNat) % 2 ^ 32 → ∃ u, exec (.rtailWrite d q v) s = .next u ∧
      (u.die d).queue q = { k with badTail := true }) ∧
    ((v.toNat + 2 ^ 32 - k.head.toNat) % 2 ^ 32 ≤ 2 ^ k.log2 → ∃ u, exec (.rtailWrite d q v) s = .next u ∧
      (u.die d).queue q = { k with tail := v } ∧ ∀ j, j ≠ q → (u.die d).queue j = (s.die d).queue j) := by
  intro k
  have hx : exec (.rtailWrite d q v) s = _ := execRtailWrite.eq_def d q v s
  replace hx := hx.trans (if_neg (by rw [hr]; decide))
  obtain ⟨h1, h2⟩ := s.queue_modQueue d q fun k => if 2 ^ k.log2 < (v - k.head).toNat then { k with badTail := true } else { k with tail := v }
  rw [toNat_sub_head] at h1
  exact ⟨fun h => ⟨_, hx, h1.trans (if_pos h)⟩, fun h => ⟨_, hx, h1.trans (if_neg (Nat.not_lt.2 h)), h2⟩⟩

theorem ringFetch_none (h : ((s.die d).queue q).head = ((s.die d).queue q).tail ∨ 256 ≤ s.held d 0 ∨ s.inDieOrder d = false) :
    exec (.ringFetch d q) s = .next s := by
  have hx : exec (.ringFetch d q) s = _ := execRingFetch.eq_def d q s
  refine hx.trans ?_
  dsimp only
  split
  · rfl
  · next hn =>
    rw [not_or, not_or, not_or] at hn
    obtain ⟨-, -, ho, ht⟩ := hn
    have hfull : ¬s.held d 0 < 256 := Nat.not_lt.2 ((h.resolve_left ht).resolve_right ho)
    rw [State.shareFor_zero, if_neg hfull]

/-- R304, R307, R308: the launch that has entered a pool. -/
theorem State.enterPool_spec (bytes : List Byte) (depth : Nat) (parent : Option (BitVec 32)) (compsig : Option (BitVec 32)) (share : Share) :
    let k := (s.die d).queue q
    let r := launchRecOf bytes
    let id := newId d (s.die d).counter
    let e := s.enterPool d q bytes depth parent compsig share
    let preds := r.pred ++ k.relPreds r.relpred
    e.2 = id ∧ (e.1.die d).queue q = { k with recent := (id :: k.recent).take 255, received := k.received + 1 } ∧
    (e.1.die d).counter = nextCounter (s.die d).counter ∧ e.1.tiles = s.tiles ∧ e.1.gtime = s.gtime ∧
    ∃ l, e.1.launches = s.launches ++ [l] ∧ l.id = id ∧ l.die = d ∧ l.queue = q ∧ l.depth = depth ∧ l.record = r ∧
      l.entered = s.gtime ∧ l.dispatchedAt = none ∧ l.nextPoint = 0 ∧ l.preds = preds ∧
      l.verdict = (if s.refusal d q bytes ≠ 0 then some (4, BitVec.ofNat 8 (s.refusal d q bytes))
        else ((preds.filterMap s.completion).find? fun w => wordStatus w ≠ 1).map fun w => (3, wordCause w)) := by
  intro k r id e preds
  let f (x : Die) : Die :=
    let x := x.modQueue q fun k => { k with recent := (id :: k.recent).take 255, received := k.received + 1 }
    { x with counter := nextCounter x.counter }
  have hd : e.1.die d = f (s.die d) := State.die_modDie_same s d f
  refine ⟨rfl, ?_, by rw [hd]; rfl, rfl, rfl, _, rfl, rfl, rfl, rfl, rfl, rfl, rfl, rfl, rfl, rfl, rfl⟩
  rw [hd]
  exact Die.queue_modQueue_same (s.die d) q fun k => { k with recent := (id :: k.recent).take 255, received := k.received + 1 }

end

/-- R308: what the predecessors that have completed make of a launch. -/
theorem find?_completions {f : BitVec 32 → Option Word} (preds : List (BitVec 32)) :
    ((∀ p ∈ preds, ∀ w, f p = some w → wordStatus w = 1) → (preds.filterMap f).find? (fun w => wordStatus w ≠ 1) = none) ∧
    ∀ pre p post w, preds = pre ++ p :: post → f p = some w → wordStatus w ≠ 1 →
      (∀ b ∈ pre, ∀ v, f b = some v → wordStatus v = 1) → (preds.filterMap f).find? (fun w => wordStatus w ≠ 1) = some w := by
  have hnone : ∀ l : List (BitVec 32), (∀ p ∈ l, ∀ w, f p = some w → wordStatus w = 1) →
      (l.filterMap f).find? (fun w => wordStatus w ≠ 1) = none := fun l h => by
    refine List.find?_eq_none.2 fun w hw => ?_
    obtain ⟨p, hp, hf⟩ := List.mem_filterMap.1 hw
    simpa using h p hp w hf
  refine ⟨hnone preds, fun pre p post w hl hp hw hpre => ?_⟩
  rw [hl, List.filterMap_append, List.find?_append, hnone pre hpre, List.filterMap_cons_some hp, List.find?_cons_of_pos (by simpa using hw)]
  rfl

/-- R307, R308: the verdict on a record, by its refusal code and its predecessors. -/
theorem verdict_cases {v : Option (Nat × Byte)} {code : Nat} {preds : List (BitVec 32)} {f : BitVec 32 → Option Word}
    (hv : v = if code ≠ 0 then some (4, BitVec.ofNat 8 code)
      else ((preds.filterMap f).find? fun w => wordStatus w ≠ 1).map fun w => (3, wordCause w)) :
    (code ≠ 0 → v = some (4, BitVec.ofNat 8 code)) ∧
    (code = 0 → (∀ p ∈ preds, ∀ w, f p = some w → wordStatus w = 1) → v = none) ∧
    (code = 0 → ∀ pre p post w, preds = pre ++ p :: post → f p = some w → wordStatus w ≠ 1 →
      (∀ b ∈ pre, ∀ u, f b = some u → wordStatus u = 1) → v = some (3, wordCause w)) := by
  obtain ⟨hall, hfirst⟩ := find?_completions (f := f) preds
  refine ⟨fun h => hv.trans (if_pos h), fun h hp => ?_, fun h pre p post w hl hp hw hpre => ?_⟩
  · rw [hv, if_neg (not_not.2 h), hall hp]
    rfl
  · rw [hv, if_neg (not_not.2 h), hfirst pre p post w hl hp hw hpre]
    rfl

section
variable {s : State} {d : DieId} {q : QueueId}

/-- The state in which the head of a ring has moved on. -/
def State.fetched (s : State) (d : DieId) (q : QueueId) : State := s.modDie d fun x => x.modQueue q fun k =>
  { k with head := k.head + 1, openSlots := k.openSlots && decide (k.head + 1 ≠ k.tail) }

theorem State.fetched_queue : ((s.fetched d q).die d).queue q =
    let k := (s.die d).queue q
    { k with head := k.head + 1, openSlots := k.openSlots && decide (k.head + 1 ≠ k.tail) } :=
  (s.queue_modQueue d q _).1

theorem State.fetched_completion (id : BitVec 32) : (s.fetched d q).completion id = s.completion id := by
  have hdone : ∀ e, ((s.fetched d q).die e).done = (s.die e).done := fun e => by
    by_cases he : e = d
    · subst he
      rw [State.fetched, State.die_modDie_same]
      rfl
    · rw [State.fetched, State.die_modDie_ne _ _ _ _ he]
  rw [State.completion, hdone]
  rfl

theorem State.fetched_refusal (l : List Byte) : (s.fetched d q).refusal d q l = s.refusal d q l := by
  rw [State.refusal, State.fetched_queue]
  rfl

theorem exec_ringFetch (hr : s.phase = .running) (hz : (s.die d).frozen = false) (hh : s.sys.hold = none) (ho : s.inDieOrder d = true)
    (ht : ((s.die d).queue q).head ≠ ((s.die d).queue q).tail) (hheld : s.held d 0 < 256) (hs : ((s.die d).queue q).openSlots = false) :
    let k := (s.die d).queue q
    let bytes := s.sys.hostMem.read (k.rbase.toNat + 256 * (k.head.toNat % 2 ^ k.log2)) 256
    exec (.ringFetch d q) s = .next (((s.fetched d q).enterPool d q bytes 0 none none 0).1.tick 1) := by
  intro k bytes
  have hsched : s.schedules d = true := by
    rw [State.schedules, hz, State.holding, hh]
    rfl
  have hx : exec (.ringFetch d q) s = _ := execRingFetch.eq_def d q s
  have haddr : k.slotAddr (Config.freeSlot s.fresh) = k.rbase.toNat + 256 * (k.head.toNat % 2 ^ k.log2) := if_neg (by rw [hs]; decide)
  dsimp only at hx
  rw [hr, hsched, ho, if_neg (by simpa using ht), State.shareFor_zero, if_pos hheld] at hx
  dsimp only at hx
  rw [hx]
  exact congrArg (fun a => Host.Outcome.next (((s.fetched d q).enterPool d q (s.sys.hostMem.read a 256) 0 none none 0).1.tick 1)) haddr

theorem ringFetch_spec (hr : s.phase = .running) (hz : (s.die d).frozen = false) (hh : s.sys.hold = none) (ho : s.inDieOrder d = true)
    (ht : ((s.die d).queue q).head ≠ ((s.die d).queue q).tail) (hheld : s.held d 0 < 256) (hs : ((s.die d).queue q).openSlots = false) :
    let x := s.die d
    let k := x.queue q
    let bytes := s.sys.hostMem.read (k.rbase.toNat + 256 * (k.head.toNat % 2 ^ k.log2)) 256
    let r := launchRecOf bytes
    let id := BitVec.ofNat 32 (d.val * 2 ^ 30 + x.counter)
    ∃ u, exec (.ringFetch d q) s = .next u ∧
      ((u.die d).queue q).head = k.head + 1 ∧ ((u.die d).queue q).recent = (id :: k.recent).take 255 ∧
      (u.die d).counter = (if 2 ^ 30 - 1 ≤ x.counter then 1 else x.counter + 1) ∧
      let preds := r.pred ++ k.relPreds r.relpred
      ∃ l, u.launches = s.launches ++ [l] ∧ l.id = id ∧ l.die = d ∧ l.queue = q ∧ l.depth = 0 ∧ l.record = r ∧
        l.entered = s.gtime ∧ l.dispatchedAt = none ∧ l.nextPoint = 0 ∧ l.preds = preds ∧
        let code := s.refusal d q bytes
        (code ≠ 0 → l.verdict = some (4, BitVec.ofNat 8 code)) ∧
        (code = 0 → (∀ p ∈ preds, ∀ w, s.completion p = some w → wordStatus w = 1) → l.verdict = none) ∧
        (code = 0 → ∀ pre p post w, preds = pre ++ p :: post → s.completion p = some w → wordStatus w ≠ 1 →
          (∀ b ∈ pre, ∀ v, s.completion b = some v → wordStatus v = 1) → l.verdict = some (3, wordCause w)) := by
  intro x k bytes r id
  have hx := exec_ringFetch hr hz hh ho ht hheld hs
  have hcount : ((s.fetched d q).die d).counter = x.counter := by
    rw [State.fetched, State.die_modDie_same]
    rfl
  have hcomp : (s.fetched d q).completion = s.completion := funext fun _ => State.fetched_completion _
  obtain ⟨-, hqueue, hctr, -, -, l, h1, h2, h3, h4, h5, h6, h7, h8, h9, h10, h11⟩ := (s.fetched d q).enterPool_spec d q bytes 0 none none 0
  rw [hcount] at hqueue hctr h2
  have hrel : (((s.fetched d q).die d).queue q).relPreds = k.relPreds := by
    rw [State.fetched_queue]
    rfl
  rw [State.fetched_queue] at hqueue
  rw [hrel] at h10 h11
  rw [State.fetched_refusal, hcomp] at h11
  let u := ((s.fetched d q).enterPool d q bytes 0 none none 0).1.tick 1
  have hhead : ((u.die d).queue q).head = k.head + 1 := congrArg LQueue.head hqueue
  have hrecent : ((u.die d).queue q).recent = (id :: k.recent).take 255 := congrArg LQueue.recent hqueue
  have hcounter : (u.die d).counter = (if 2 ^ 30 - 1 ≤ x.counter then 1 else x.counter + 1) := hctr
  refine ⟨u, hx, hhead, hrecent, hcounter, l, h1, h2, h3, h4, h5, h6, h7, h8, h9, h10, ?_⟩
  exact verdict_cases h11

end

/-! ## Answers to launch words (R310, R320, R321) -/

section
variable {s : State} {d : DieId} {q : PoolReq} {t : TileId} {r : Req} {pd : Option (Fin 16)} {xd : Fin 64} {wait : Bool} {va : Nat}
  {route : Word} {csig : BitVec 32}

/-- R320: the results of an answered launch word are on their way, its retirement last. -/
theorem State.launchAnswer_flight (s : State) (t : TileId) (pd : Option (Fin 16)) (xd : Fin 64) (ok : Bool) (v : Word) :
    let u := s.launchAnswer t pd xd ok v
    let lands (w : CoxWrite) : Prop := (⟨s.gtime, (s.cox t).region, w⟩ : CoxLand) ∈ (u.cox t).flight
    lands (.x xd v) ∧ lands .retire ∧ ∀ p, pd = some p → lands (.p p ok) := by
  intro u lands
  have hc : u.cox t = _ := State.cox_modCox_same ..
  cases pd with
  | none =>
    refine ⟨?_, ?_, nofun⟩ <;> simp only [lands] <;> rw [hc] <;> simp [Cox.send]
  | some p =>
    refine ⟨?_, ?_, fun p' h => ?_⟩
    · simp only [lands]
      rw [hc]
      simp [Cox.send]
    · simp only [lands]
      rw [hc]
      simp [Cox.send]
    · cases h
      simp only [lands]
      rw [hc]
      simp [Cox.send]

theorem State.shareFor_eq_none (s : State) (d : DieId) (depth : Nat) :
    s.shareFor d depth = none ↔ (depth = 0 ∨ 256 ≤ s.held d depth) ∧ 256 ≤ s.held d 0 := by
  rw [State.shareFor]
  split
  · next h => 
    refine ⟨nofun, fun k => ?_⟩
    obtain ⟨h1, h2⟩ := h
    omega
  · next h =>
    split
    · next h0 =>
      refine ⟨nofun, fun k => ?_⟩
      omega
    · next h0 => 
      refine ⟨fun _ => ?_, fun _ => rfl⟩
      omega

theorem exec_poolEntry (hr : s.phase = .running) (hz : (s.die d).frozen = false) (hh : s.sys.hold = none) (ho : s.inDieOrder d = true)
    (hq : (s.die d).poolReqs = [q]) : exec (.poolEntry d) s = match s.answerPool d q with
      | some u => .next (u.modDie d fun x => { x with poolReqs := [] })
      | none => .next s := by
  have hsched : s.schedules d = true := by
    rw [State.schedules, hz, State.holding, hh]
    rfl
  have hx : exec (.poolEntry d) s = _ := execPoolEntry.eq_def d s
  rw [hr, hsched, ho, if_neg (by decide), hq, State.firstAnswer] at hx
  refine hx.trans ?_
  cases s.answerPool d q <;> rfl

/-- R320, R321: the answer of a pool to a launch word that still waits. -/
theorem State.answerPool_launch (hf : q.from' = some (t, r)) (ha : r.act = .launch pd xd wait va route csig) (hc : (s.cox t).closingIs r = true) :
    s.answerPool d q = match s.shareFor d q.depth with
      | some sh =>
        let e := s.enterPool d q.queue q.bytes q.depth q.parent q.compsig sh
        some (e.1.launchAnswer t pd xd true (e.2.setWidth 64))
      | none =>
        if wait then none
        else if pd = some 0 then some (s.refuseClosing t r ⟨cPOOLFULL, 0, 0, 0⟩)
        else some (s.launchAnswer t pd xd false 0) := by
  have hstale : s.poolStale q = false := by
    rw [State.poolStale, hf]
    simp [hc]
  rw [State.answerPool, hstale, if_neg (by decide), hf]
  dsimp only
  cases s.shareFor d q.depth <;> rw [ha]

end

/-- Settles O46: rings by `ringFetch_spec`, pools by `State.answerPool_launch`. -/
theorem ringsAndPools : Obligations.RingsAndPools := by
  refine ⟨fun s d q => ⟨fun hr v => rtailWrite_spec s d q hr v, fun hr => ?_, ringFetch_none s d q, ringFetch_spec⟩, ?_⟩
  · have hx : exec (.qctlFrozenClear d q) s = _ := execQctlFrozenClear.eq_def d q s
    obtain ⟨h1, h2⟩ := s.queue_modQueue d q fun k => { k with frozen := false }
    exact ⟨_, hx.trans (if_pos hr), h1, h2, rfl⟩
  · intro s d q t r pd xd wait va route csig hr hz hh ho hq hf ha hc hcl full id c lands
    have hx := exec_poolEntry hr hz hh ho hq
    rw [State.answerPool_launch hf ha hc] at hx
    have hfull : s.shareFor d q.depth = none ↔ full := s.shareFor_eq_none d q.depth
    have hcox : ∀ (u : State) (f : Die → Die), (u.modDie d f).cox t = u.cox t := fun _ _ => rfl
    refine ⟨fun h => ?_, fun h hw => ?_, fun h hw hp => ?_, fun h hw p hp h0 => ?_⟩
    · obtain ⟨sh, hsh⟩ := Option.ne_none_iff_exists'.1 (mt hfull.1 h)
      rw [hsh] at hx
      obtain ⟨h2, -, -, htiles, htime, l, hl, -⟩ := s.enterPool_spec d q.queue q.bytes q.depth q.parent q.compsig sh
      let e := s.enterPool d q.queue q.bytes q.depth q.parent q.compsig sh
      obtain ⟨k1, k2, k3⟩ := State.launchAnswer_flight e.1 t pd xd true (e.2.setWidth 64)
      have hc' : e.1.cox t = c := congrArg (fun m => (Map.get m t.val Tile.reset).cox) htiles
      rw [hc', htime] at k1 k2 k3
      refine ⟨_, hx, ?_, ?_, k2, k3, ?_⟩
      · exact congrArg Die.poolReqs (State.die_modDie_same ..)
      · exact h2 ▸ k1
      · exact (congrArg List.length hl).trans List.length_append
    · rw [hfull.2 h, hw] at hx
      exact hx
    · rw [hfull.2 h, hw, hp] at hx
      have hcox : (s.refuseClosing t r ⟨cPOOLFULL, 0, 0, 0⟩).cox t = _ := State.cox_modCox_same ..
      exact ⟨_, hx, congrArg Cox.fault hcox⟩
    · rw [hfull.2 h, hw, hp] at hx
      obtain ⟨k1, k2, k3⟩ := State.launchAnswer_flight s t (some p) xd false 0
      have hne : ¬some p = some (0 : Fin 16) := fun k => h0 (Option.some.inj k)
      simp only [Bool.false_eq_true, if_false, if_neg hne] at hx
      exact ⟨_, hx, rfl, k3 p rfl, k1, k2⟩

end Sys2Proof.Machine
end

section
/-! ## Launches that end (R311, R314, R324, R325) -/

namespace Sys2Proof.Machine

open Sys2Proof

section
variable {s : State} {id : BitVec 32} {l : Launch}

theorem State.launch?_id (h : s.launch? id = some l) : l.id = id := by
  simpa using List.find?_some h

theorem State.launch?_modLaunch {f : Launch → Launch} (hf : ∀ l, (f l).id = l.id) (h : s.launch? id = some l) :
    (s.modLaunch id f).launch? id = some (f l) := by
  rw [State.launch?_modLaunch_same s id hf, h, Option.map_some]

theorem State.launch?_modLaunch_ne {f : Launch → Launch} (hf : ∀ l, (f l).id = l.id) {j : BitVec 32} (hj : j ≠ id) :
    (s.modLaunch id f).launch? j = s.launch? j := by
  have key : ∀ ls : List Launch, (ls.map fun l => if l.id = id then f l else l).find? (fun l => l.id = j) = ls.find? fun l => l.id = j :=
    fun ls => by
      induction ls with
      | nil => rfl
      | cons a ls ih =>
        by_cases ha : a.id = id
        · have hne : a.id ≠ j := fun k => hj (k.symm.trans ha)
          rw [List.map_cons, if_pos ha, List.find?_cons_of_neg (by simpa [hf] using hne), List.find?_cons_of_neg (by simpa using hne), ih]
        · rw [List.map_cons, if_neg ha, List.find?_cons, List.find?_cons, ih]
  exact key s.launches

/-- A fold over tiles touches no launch and no die. -/
theorem foldl_modTile_keeps {α : Type} (l : List α) (t : α → TileId) (f : α → Tile → Tile) (s : State) :
    let u := l.foldl (fun s a => s.modTile (t a) (f a)) s
    u.launches = s.launches ∧ u.dies = s.dies :=
  foldl_keeps (p := fun u : State => u.launches = s.launches ∧ u.dies = s.dies) (f := fun s a => s.modTile (t a) (f a)) (fun _ _ hu => hu) ⟨rfl, rfl⟩

/-- R317, R325: what is left of a launch whose gang groups are given up before their image was whole. -/
theorem State.launch?_dropLoading (h : s.launch? id = some l) :
    (s.dropLoading id).launch? id = some { l with gangs := l.gangs.filter fun g => !g.loading } := by
  rw [State.dropLoading, h]
  dsimp only
  rw [State.launch?, (foldl_modTile_keeps _ (fun t => t) (fun _ x => { x with place := none, image := none }) _).1]
  exact State.launch?_modLaunch (f := fun l => { l with gangs := l.gangs.filter fun g => !g.loading }) (fun _ => rfl) h

theorem State.launch?_releaseGangs (h : s.launch? id = some l) :
    (s.releaseGangs id).launch? id = some { l with gangs := l.gangs.filter fun g => !g.past l.stopped } ∧ (s.releaseGangs id).dies = s.dies := by
  rw [State.releaseGangs, h]
  dsimp only
  let z := s.modLaunch id fun l => { l with gangs := l.gangs.filter fun g => !g.past l.stopped }
  let y (g : Gang) (x : Tile) : Tile := { x with place := none, image := if g.loading then none else x.image }
  obtain ⟨h1, h2⟩ := foldl_keeps (p := fun u : State => u.launches = z.launches ∧ u.dies = z.dies) (l := l.gangs.filter (Gang.past l.stopped))
    (f := fun s g => g.tiles.foldl (fun s t => s.modTile t (y g)) s) (fun u g hu => by
      obtain ⟨k1, k2⟩ := foldl_modTile_keeps g.tiles (fun t => t) (fun _ => y g) u
      exact ⟨k1.trans hu.1, k2.trans hu.2⟩) ⟨rfl, rfl⟩
  refine ⟨?_, h2⟩
  rw [State.launch?, h1]
  exact State.launch?_modLaunch (f := fun l => { l with gangs := l.gangs.filter fun g => !g.past l.stopped }) (fun _ => rfl) h

theorem filter_not_loading (gs : List Gang) : (gs.filter fun g => !g.loading) = gs.filter fun g => g.loading = false :=
  congrArg (List.filter · gs) (funext fun g => by cases g.loading <;> rfl)

theorem dbudgetExpiry_pending (h : s.launch? id = some l) (hd : l.dispatchedAt = none) (hf : l.failure = none) (hv : l.verdict = none)
    (ho : l.entered + l.record.dbudget ≤ s.gtime) : ∃ u, exec (.dbudgetExpiry id) s = .next u ∧
      u.launch? id = some { l with failure := some (cDEADLINE, 0), failed := false, gangs := l.gangs.filter fun g => g.loading = false } := by
  have hover : l.overdue s.gtime = true := by
    rw [Launch.overdue, Launch.waitsSince, hd, hf, hv]
    simp [ho]
  have hx : exec (.dbudgetExpiry id) s = _ := execDbudgetExpiry.eq_def id s
  rw [h] at hx
  replace hx := hx.trans (if_pos hover)
  rw [hd] at hx
  refine ⟨_, hx, ?_⟩
  have hfail : (s.failLaunch id cDEADLINE 0).launch? id = some { l with failure := some (l.failure.getD (cDEADLINE, 0)), failed := false } :=
    State.launch?_modLaunch (f := fun l => { l with failure := some (l.failure.getD (cDEADLINE, 0)), failed := false }) (fun _ => rfl) h
  refine (State.launch?_dropLoading hfail).trans ?_
  rw [hf, filter_not_loading]
  rfl

theorem dbudgetExpiry_dispatched {c w : Nat} (h : s.launch? id = some l) (hd : l.dispatchedAt = some c) (hs : l.stopped = false)
    (hv : l.verdict = none) (hw : l.waiting = some w) (ho : w + l.record.dbudget ≤ s.gtime) :
    ∃ u m g, exec (.dbudgetExpiry id) s = .next u ∧ u.launch? id = some m ∧ m.failed = false ∧ m.waiting = none ∧
      m.failure = some (l.failure.getD (cDEADLINE, 0)) ∧ m.gangs = (l.gangs.filter fun g => g.loading = false) ++ [g] ∧
      g.group = l.groupOf l.point ∧ g.tiles = [] := by
  have hover : l.overdue s.gtime = true := by
    rw [Launch.overdue, Launch.waitsSince, hd, hs, hv]
    simp [hw, ho]
  have hx : exec (.dbudgetExpiry id) s = _ := execDbudgetExpiry.eq_def id s
  rw [h] at hx
  replace hx := hx.trans (if_pos hover)
  rw [hd] at hx
  have hfail : (s.failLaunch id cDEADLINE 0).launch? id = some { l with failure := some (l.failure.getD (cDEADLINE, 0)), failed := false } :=
    State.launch?_modLaunch (f := fun l => { l with failure := some (l.failure.getD (cDEADLINE, 0)), failed := false }) (fun _ => rfl) h
  have hend := State.launch?_modLaunch (f := fun l => { l with waiting := none, gangs := l.gangs ++ [abandonedGang (l.groupOf l.point)] })
    (fun _ => rfl) (State.launch?_dropLoading hfail)
  exact ⟨_, _, abandonedGang (l.groupOf l.point), hx, hend, rfl, rfl, rfl, congrArg (· ++ _) (filter_not_loading _), rfl, rfl⟩

theorem launchFail_spec {f : Byte × Nat} (h : s.launch? id = some l) (hf : l.failure = some f) (hn : l.failed = false) :
    ∃ u m, exec (.launchFail id) s = .next u ∧
    ((u.die l.die).queue l.queue).frozen = true ∧ u.launch? id = some m ∧ m.failed = true ∧ m.failure = some f ∧
    (l.record.cont = false → m.stopped = true) ∧ (l.record.cont = true → m.stopped = l.stopped) := by
  have hx : exec (.launchFail id) s = _ := execLaunchFail.eq_def id s
  rw [h] at hx
  replace hx := hx.trans (if_pos ⟨by rw [hf]; rfl, hn⟩)
  let k (l : Launch) : Launch :=
    { l with failed := true, stopped := l.stopped || !l.record.cont, waiting := if l.record.cont then l.waiting else none }
  let z := (s.modLaunch id k).modDie l.die fun d => d.modQueue l.queue fun q => { q with frozen := true }
  have hz : z.launch? id = some (k l) := State.launch?_modLaunch (f := k) (fun _ => rfl) h
  obtain ⟨h1, h2⟩ := State.launch?_releaseGangs hz
  refine ⟨_, _, hx, ?_, h1, rfl, hf, fun hc => ?_, fun hc => ?_⟩
  · have hq := ((s.modLaunch id k).queue_modQueue l.die l.queue fun q => { q with frozen := true }).1
    exact (congrArg (fun m => ((Map.get m l.die.val Die.reset).queue l.queue).frozen) h2).trans (congrArg LQueue.frozen hq)
  · simp [k, hc]
  · simp [k, hc]

end

end Sys2Proof.Machine
end

section
/-! ## Completion, announcements and dispatch (R311 to R313, R324, R325) -/

namespace Sys2Proof.Machine

open Sys2Proof

section
variable {s : State} {id : BitVec 32} {l : Launch}

theorem State.completeOne_launches (s : State) (l : Launch) (status : Nat) (cause : Byte) (tile : Nat) :
    (s.completeOne l status cause tile).launches = s.launches.filter fun k => k.id ≠ l.id := rfl

theorem State.completeOne_spec (s : State) (l : Launch) (status : Nat) (cause : Byte) (tile : Nat) :
    let w := completionWord l.id tile cause status
    let u := s.completeOne l status cause tile
    (u.die l.die).window.get (l.id.toNat % 4096) 0 = w ∧ (u.die l.die).done.head? = some (l.id, w) ∧
    (u.die l.die).notices = (s.die l.die).notices ++ [l.notice w] := by
  intro w u
  have hu : u.die l.die = _ := State.die_modDie_same ..
  rw [hu]
  exact ⟨Map.get_set_same .., rfl, rfl⟩

theorem Launch.notice_spec (l : Launch) (w : Word) :
    (l.notice w).sent = false ∧ (l.notice w).flag = none ∧
    (∀ k v, (l.notice w).csig = some (k, v) ↔ l.record.csig = some k ∧ v = w) ∧
    (∀ c, (l.notice w).compsig = some c ↔ l.compsig = some c ∧ c.getLsbD 31 = true) ∧
    ∀ v : Fin 2044, (l.notice w).hostv = some v.val ↔ l.record.hostv = some v.val := by
  refine ⟨rfl, rfl, fun k v => ?_, fun c => Option.filter_eq_some_iff, fun v => ?_⟩
  · show l.record.csig.map (fun k => (k, w)) = some (k, v) ↔ _
    rw [Option.map_eq_some_iff]
    constructor
    · rintro ⟨a, ha, hp⟩
      cases hp
      exact ⟨ha, rfl⟩
    · rintro ⟨ha, rfl⟩
      exact ⟨k, ha, rfl⟩
  · refine (Option.filter_eq_some_iff).trans ⟨fun h => h.1, fun h => ⟨h, ?_⟩⟩
    have := v.isLt
    exact decide_eq_true (by omega)

/-- R325: tokens that spread take launches away, and add none. -/
theorem State.spread_subset : ∀ (fuel : Nat) (ts : List (BitVec 32 × Byte)) (s : State),
    (∀ k ∈ (State.spread fuel ts s).launches, k ∈ s.launches) := by
  intro fuel
  induction fuel with
  | zero => exact fun ts s k hk => hk
  | succ fuel ih =>
    intro ts s k hk
    cases ts with
    | nil => exact hk
    | cons a rest =>
      rw [State.spread] at hk
      split at hk
      · exact ih _ _ k hk
      · exact List.mem_of_mem_filter (ih _ _ k hk)

/-- R325: no launch that a token reaches is left, where the fuel lets it be seen. -/
theorem State.spread_reached (id : BitVec 32) (c : Byte) : ∀ (fuel : Nat) (rest : List (BitVec 32 × Byte)) (s : State),
    s.launches.length < fuel → ∀ k ∈ (State.spread fuel ((id, c) :: rest) s).launches, s.tokenReaches id k = false := by
  intro fuel
  induction fuel with
  | zero => exact fun _ _ h => absurd h (Nat.not_lt_zero _)
  | succ fuel ih =>
    intro rest s hlen k hk
    rw [State.spread] at hk
    cases hfind : s.launches.find? (s.tokenReaches id) with
    | none =>
      rw [hfind] at hk
      exact Bool.eq_false_iff.2 (List.find?_eq_none.1 hfind k (State.spread_subset _ _ _ k hk))
    | some v =>
      rw [hfind] at hk
      have hv : v ∈ s.launches := List.mem_of_find?_eq_some hfind
      have hless : (s.completeOne v 3 c 0).launches.length < s.launches.length := by
        rw [State.completeOne_launches]
        exact List.length_filter_lt_length_iff_exists.2 ⟨v, hv, by simp⟩
      exact ih _ (s.completeOne v 3 c 0) (by omega) k hk

/-- R324, R325: once a launch has completed that is not DONE, no launch that names it or that it made stays pending. -/
theorem State.complete_spread (s : State) (l : Launch) {status : Nat} (cause : Byte) (tile : Nat) (hs : status ≠ 1) :
    let u := s.complete l status cause tile
    (∀ k ∈ u.launches, k.id ≠ l.id) ∧ ∀ k ∈ u.launches, k.dispatchedAt = none → k.verdict = none → l.id ∉ k.preds ∧ k.parent ≠ some l.id := by
  intro u
  let z := s.completeOne l status cause tile
  have hu : u = State.spread (2 * z.launches.length + 2) [(l.id, cause)] z := if_neg hs
  rw [hu]
  refine ⟨fun k hk => ?_, fun k hk hd hv => ?_⟩
  · exact of_decide_eq_true (List.mem_filter.1 (State.spread_subset _ _ _ k hk)).2
  · have hreach := State.spread_reached l.id cause _ [] z (by omega) k hk
    rw [State.tokenReaches, hd, hv] at hreach
    simpa using hreach

theorem exec_launchComplete (h : s.launch? id = some l) (hp : s.phase = .starting) (he : l.ended = true) (hc : s.coversDone l = true) :
    exec (.launchComplete id) s = match l.verdict, l.failure with
      | some v, _ => .next (s.complete l v.1 v.2 0)
      | none, some f => .next (s.complete l 2 f.1 f.2)
      | none, none => if l.halves.isSome then .next s else .next (s.complete l 1 0 0) := by
  have hx : exec (.launchComplete id) s = _ := execLaunchComplete.eq_def id s
  rw [h] at hx
  refine (hx.trans (if_pos ⟨hp, he, hc⟩)).trans ?_
  cases l.verdict <;> cases l.failure <;> rfl

theorem launchComplete_spec (h : s.launch? id = some l) (hp : s.phase = .starting) (hcov : s.coversDone l = true) :
    (∀ c, l.dispatchedAt = some c → l.exhausted = true → l.gangs = [] → l.failure = none → l.verdict = none → l.halves = none →
      ∃ u, exec (.launchComplete id) s = .next u ∧ u = s.completeOne l 1 0 0) ∧
    ((∃ v, l.verdict = some v ∧ v.1 ≠ 1 ∧ l.dispatchedAt = none) ∨ (∃ f, l.failure = some f ∧ l.failed = true ∧ l.verdict = none ∧
        (l.dispatchedAt = none ∨ ((l.exhausted = true ∨ l.stopped = true) ∧ l.gangs = []))) →
      ∃ u, exec (.launchComplete id) s = .next u ∧ (∀ k ∈ u.launches, k.id ≠ id) ∧
        ∀ k ∈ u.launches, k.dispatchedAt = none → k.verdict = none → id ∉ k.preds ∧ k.parent ≠ some id) := by
  have hid := State.launch?_id h
  refine ⟨fun c hd hex hg hf hv hh => ?_, ?_⟩
  · have he : l.ended = true := by simp [Launch.ended, hd, hex, hg, hf]
    have hx := exec_launchComplete h hp he hcov
    rw [hv, hf, hh] at hx
    exact ⟨_, hx, rfl⟩
  · rintro (⟨v, hv, hne, hd⟩ | ⟨f, hf, hfd, hv, hrest⟩)
    · have he : l.ended = true := by simp [Launch.ended, hd, hv]
      have hx := exec_launchComplete h hp he hcov
      rw [hv] at hx
      exact ⟨_, hx, hid ▸ s.complete_spread l v.2 0 hne⟩
    · have he : l.ended = true := by
        rw [Launch.ended]
        cases hd : l.dispatchedAt with
        | none => simp [hfd]
        | some c =>
          obtain ⟨h1, h2⟩ := hrest.resolve_left (by rw [hd]; exact Option.some_ne_none _)
          simp [hfd, h1, h2]
      have hx := exec_launchComplete h hp he hcov
      rw [hv, hf] at hx
      exact ⟨_, hx, hid ▸ s.complete_spread l f.1 f.2 (by decide)⟩

end

/-! ## Announcements (R324) -/

section
variable {s : State} {d : DieId} {n : Notice} {rest : List Notice}

/-- R324: the station of home 0 of a die, at which its announcements leave. -/
theorem announceStation (d : DieId) : homeStation (homeOf d.val 0) = 132 * d.val + 128 := by
  revert d
  decide

theorem State.announcing_iff (s : State) (n : Notice) : s.announcing n = true ↔
    n.sent = true ∨ ∃ p, n.flag = some p ∧ ∃ k ∈ s.fab.sent, k.pkt.dst = p.1 ∧ k.pkt.seq = p.2 := by
  rw [State.announcing, Bool.or_eq_true]
  refine or_congr_right ?_
  cases n.flag with
  | none => simp
  | some p => simp [Sent.named_iff]

/-- The announcements of a die with their first replaced. -/
def State.putNotice (s : State) (d : DieId) (rest : List Notice) (n : Notice) : State := s.modDie d fun x => { x with notices := n :: rest }

theorem State.signalAt_sys (s : State) (src : Nat) (t : Option TileId) (pkg : Byte) (a : SigAccess) (back : Option Teller) :
    (s.signalAt src t pkg a back).sys = s.sys := by
  unfold State.signalAt
  split <;> rfl

theorem State.announce_csig {k : BitVec 17} {w : Word} (hn : (s.die d).notices = n :: rest) (h : s.announcing n = false) (hk : n.csig = some (k, w)) :
    s.announce d =
      (s.signalAt (132 * d.val + 128) none s.sys.pkg ⟨k, .rel, .pkg, .write w⟩ (some (.die d))).putNotice d rest { n with sent := true } := by
  have hu : s.announce d = _ := State.announce.eq_def s d
  rw [hn] at hu
  refine (hu.trans (if_neg (by rw [h]; decide))).trans ?_
  rw [announceStation]
  obtain ⟨csig, compsig, hostv, sent, flag⟩ := n
  subst hk
  rfl

theorem State.announce_compsig {c : BitVec 32} {pkg : Byte} (hn : (s.die d).notices = n :: rest) (h : s.announcing n = false)
    (hk : n.csig = none) (hc : n.compsig = some c) (hpkg : BitVec.ofNat 8 (c.toNat / 2 ^ 17 % 2 ^ 8) = pkg) :
    let u := s.signalAt (132 * d.val + 128) none pkg ⟨c.setWidth 17, .rel, .dom, .atom .add false 1⟩ (some (.die d))
    s.announce d = u.putNotice d rest (if pkg = s.sys.pkg then { n with sent := true }
      else { n with compsig := none, flag := some (pkg, BitVec.ofNat 32 (u.fab.seqOut.get pkg.toNat 0)) }) := by
  intro u
  have hu : s.announce d = _ := State.announce.eq_def s d
  rw [hn] at hu
  refine (hu.trans (if_neg (by rw [h]; decide))).trans ?_
  have hbits : (BitVec.ofNat 8 (bitsOf c.toNat 17 8) : Byte) = pkg := by
    rw [bitsOf, Nat.shiftRight_eq_div_pow]
    exact hpkg
  obtain ⟨csig, compsig, hostv, sent, flag⟩ := n
  subst hk
  subst hc
  dsimp only
  rw [announceStation, hbits, BitVec.ofNat_toNat, State.signalAt_sys]
  rfl

theorem State.announce_hostv (hn : (s.die d).notices = n :: rest) (h : s.announcing n = false) (hk : n.csig = none) (hc : n.compsig = none) :
    s.announce d = (match n.hostv with
      | some v => s.raiseVector v
      | none => s).modDie d fun x => { x with notices := rest } := by
  have hu : s.announce d = _ := State.announce.eq_def s d
  rw [hn] at hu
  refine (hu.trans (if_neg (by rw [h]; decide))).trans ?_
  obtain ⟨csig, compsig, hostv, sent, flag⟩ := n
  subst hk
  subst hc
  cases hostv <;> rfl

/-- R324: a Signal operation that leaves at home 0 of the die. -/
theorem State.announce_sends (s : State) (d : DieId) (rest : List Notice) (m : Notice) (a : SigAccess) :
    let u := (s.signalAt (132 * d.val + 128) none s.sys.pkg a (some (.die d))).putNotice d rest m
    ∃ f, (u.die d).stations.get 128 [] = (s.die d).stations.get 128 [] ++ [f] ∧
      f.dst = homeStation (signalHome a.word) ∧ f.cls = .signal ∧ f.msg = .oper none a.word a.act (some (.die d)) ∧
      (u.die d).notices = m :: rest := by
  intro u
  have hd : (Fin.ofNat 4 ((132 * d.val + 128) / 132) : DieId) = d := by
    revert d
    decide
  have hst : (132 * d.val + 128) % 132 = 128 := by omega
  let f : Flit := ⟨132 * d.val + 128, homeStation (signalHome a.word), .signal, 0, 0, false, .oper none a.word a.act (some (.die d))⟩
  have hsig : (s.signalAt (132 * d.val + 128) none s.sys.pkg a (some (.die d))).die d =
      { s.die d with stations := (s.die d).stations.set 128 ((s.die d).stations.get 128 [] ++ [f]) } := by
    rw [State.signalAt, if_pos rfl, State.sendFlit, hd, State.die_modDie_same, hst]
  have hu : u.die d = _ := State.die_modDie_same ..
  rw [hsig] at hu
  refine ⟨f, ?_, rfl, rfl, rfl, by rw [hu]⟩
  rw [hu]
  exact Map.get_set_same ..

theorem announce_spec (s : State) (d : DieId) (n : Notice) (rest : List Notice) (hn : (s.die d).notices = n :: rest) :
    let u := s.announce d
    let sends (w : BitVec 17) (a : SigAct) : Prop := ∃ f, (u.die d).stations.get 128 [] = (s.die d).stations.get 128 [] ++ [f] ∧
      f.dst = homeStation (signalHome w) ∧ f.cls = .signal ∧ f.msg = .oper none w a (some (.die d)) ∧
      (u.die d).notices = { n with sent := true } :: rest
    let waits : Prop := n.sent = true ∨ ∃ p, n.flag = some p ∧ ∃ k ∈ s.fab.sent, k.pkt.dst = p.1 ∧ k.pkt.seq = p.2
    (waits → u = s) ∧
    (¬waits →
      (∀ k v, n.csig = some (k, v) → sends k (.write v)) ∧
      (∀ c : BitVec 32, n.csig = none → n.compsig = some c →
        let pkg : Byte := BitVec.ofNat 8 (c.toNat / 2 ^ 17 % 2 ^ 8)
        (pkg = s.sys.pkg → sends (c.setWidth 17) (.atom .add false 1)) ∧
        (pkg ≠ s.sys.pkg → ∃ k, u.fab.sent = s.fab.sent ++ [k] ∧ k.pkt.dst = pkg ∧
          k.pkt.body = .flag ⟨c.setWidth 17, .rel, .dom, .atom .add false 1⟩ ∧
          (u.die d).notices = { n with compsig := none, flag := some (pkg, k.pkt.seq) } :: rest)) ∧
      (n.csig = none → n.compsig = none → (u.die d).notices = rest ∧
        ∀ v : Fin 2044, n.hostv = some v.val → u.sys.msix.getLsbD v.val = true)) := by
  intro u sends waits
  have hw : s.announcing n = true ↔ waits := s.announcing_iff n
  refine ⟨fun h => ?_, fun h => ?_⟩
  · have hu : s.announce d = _ := State.announce.eq_def s d
    rw [hn] at hu
    exact hu.trans (if_pos (hw.2 h))
  · have hgo : s.announcing n = false := Bool.eq_false_iff.2 (mt hw.1 h)
    refine ⟨fun k v hk => ?_, fun c hk hc => ?_, fun hk hc => ?_⟩
    · have hu : u = _ := State.announce_csig hn hgo hk
      simp only [sends]
      rw [hu]
      exact s.announce_sends d rest _ ⟨k, .rel, .pkg, .write v⟩
    · intro pkg
      have hu : u = _ := State.announce_compsig (pkg := pkg) hn hgo hk hc rfl
      refine ⟨fun hp => ?_, fun hp => ?_⟩
      · rw [if_pos hp, hp] at hu
        simp only [sends]
        rw [hu]
        exact s.announce_sends d rest _ ⟨c.setWidth 17, .rel, .dom, .atom .add false 1⟩
      · rw [if_neg hp, State.signalAt, if_neg hp] at hu
        have hsent := s.sendPacket_sent pkg (.flag ⟨c.setWidth 17, .rel, .dom, .atom .add false 1⟩) none none
        rw [hu]
        refine ⟨_, hsent, rfl, rfl, ?_⟩
        refine (congrArg Die.notices (State.die_modDie_same ..)).trans ?_
        exact congrArg (fun b => { n with compsig := none, flag := some (pkg, BitVec.ofNat 32 b) } :: rest) (Map.get_set_same ..)
    · have hu : u = _ := State.announce_hostv hn hgo hk hc
      rw [hu]
      refine ⟨congrArg Die.notices (State.die_modDie_same ..), fun v hv => ?_⟩
      rw [hv]
      have hlt := v.isLt
      show (s.sys.msix ||| BitVec.ofNat 2048 (2 ^ v.val)).getLsbD v.val = true
      rw [BitVec.getLsbD_or, BitVec.getLsbD_ofNat, Nat.testBit_two_pow_self, decide_eq_true (by omega : v.val < 2048)]
      exact Bool.or_true _

end

/-! ## Dispatch (R312, R313) -/

section
variable {s : State} {d : DieId} {l : Launch}

/-- R312: the fold that looks for the best candidate. -/
def State.better (s : State) (m : Option Launch) (l : Launch) : Option Launch :=
  match m with
  | none => some l
  | some k => if s.before l k then some l else some k

/-- The candidates of a die stand in the order of their queues. -/
theorem State.candidates_sorted (s : State) (d : DieId) : (s.candidates d).Pairwise fun a b => a.queue.val < b.queue.val := by
  have hqueue : ∀ q < 64, ∀ a, (match s.headOf d (Fin.ofNat 64 q) with
      | some l =>
        if s.freezing d (Fin.ofNat 64 q) || !s.predsDone l || l.failure.isSome || (l.record.wsload && s.dieBusy d) then none
        else some l
      | none => none) = some a → a.queue.val = q := fun q hq a ha => by
    cases hh : s.headOf d (Fin.ofNat 64 q) with
    | none => rw [hh] at ha; exact nomatch ha
    | some l =>
      rw [hh] at ha
      dsimp only at ha
      split at ha
      · exact nomatch ha
      · cases ha
        have hl := List.find?_some hh
        simp only [Bool.and_eq_true, decide_eq_true_iff] at hl
        rw [hl.1.1.2, Fin.val_ofNat, Nat.mod_eq_of_lt hq]
  rw [State.candidates, List.pairwise_filterMap]
  refine List.Pairwise.imp_of_mem (fun {a b} ha hb hab x hx y hy => ?_) List.pairwise_lt_range
  rw [hqueue a (List.mem_range.1 ha) x hx, hqueue b (List.mem_range.1 hb) y hy]
  exact hab

/-- R312: the candidate that goes before every other is the best. -/
theorem State.best_of_first (hl : l ∈ s.candidates d)
    (h : ∀ k ∈ s.candidates d, k = l ∨ s.priority k < s.priority l ∨ s.priority l = s.priority k ∧
      (l.entered < k.entered ∨ l.entered = k.entered ∧ l.queue.val < k.queue.val)) : s.best d = some l := by
  obtain ⟨pre, post, hc⟩ := List.append_of_mem hl
  have hsort := s.candidates_sorted d
  rw [hc, List.pairwise_append, List.pairwise_cons] at hsort
  obtain ⟨-, ⟨hpost, -⟩, hpre⟩ := hsort
  rw [hc] at h
  have hbefore : ∀ k ∈ pre, s.before l k = true := fun k hk => by
    have hq : k.queue.val < l.queue.val := hpre k hk l List.mem_cons_self
    rw [State.before, Bool.or_eq_true, decide_eq_true_iff, Bool.and_eq_true, beq_iff_eq, decide_eq_true_iff]
    rcases h k (List.mem_append_left _ hk) with rfl | h | ⟨h1, h2 | ⟨-, h2⟩⟩
    · omega
    · exact .inl h
    · exact .inr ⟨h1.symm, h2⟩
    · omega
  have hafter : ∀ k ∈ post, s.before k l = false := fun k hk => by
    have hq : l.queue.val < k.queue.val := hpost k hk
    rw [State.before, Bool.or_eq_false_iff, decide_eq_false_iff_not, Bool.and_eq_false_iff, beq_eq_false_iff_ne, decide_eq_false_iff_not]
    rcases h k (List.mem_append_right _ (List.mem_cons_of_mem _ hk)) with rfl | h | ⟨h1, h2 | ⟨h2, -⟩⟩
    · omega
    · exact ⟨by omega, .inl (by omega)⟩
    · exact ⟨by omega, .inr (by omega)⟩
    · exact ⟨by omega, .inr (by omega)⟩
  have hb : s.best d = (s.candidates d).foldl s.better none := rfl
  have hfst : ∀ (ks : List Launch) (m : Option Launch), (∀ k ∈ ks, k ∈ pre) → (∀ k, m = some k → k ∈ pre) →
      ∀ k, ks.foldl s.better m = some k → k ∈ pre := fun ks => by
    induction ks with
    | nil => exact fun m _ hm => hm
    | cons a ks ih =>
      intro m hks hm
      obtain ⟨ha, hks⟩ := List.forall_mem_cons.1 hks
      refine ih _ hks fun k hk => ?_
      cases m with
      | none => cases hk; exact ha
      | some b =>
        rw [State.better] at hk
        split at hk
        · cases hk; exact ha
        · cases hk; exact hm _ rfl
  have hlast : ∀ ks : List Launch, (∀ k ∈ ks, s.before k l = false) → ks.foldl s.better (some l) = some l := fun ks => by
    induction ks with
    | nil => exact fun _ => rfl
    | cons a ks ih =>
      intro hks
      obtain ⟨ha, hks⟩ := List.forall_mem_cons.1 hks
      refine Eq.trans (congrArg (List.foldl s.better · ks) ?_) (ih hks)
      exact if_neg (by rw [ha]; decide)
  rw [hb, hc, List.foldl_append, List.foldl_cons]
  have hmid : s.better (pre.foldl s.better none) l = some l := by
    cases hm : pre.foldl s.better none with
    | none => rfl
    | some k => exact if_pos (hbefore k (hfst pre none (fun _ h => h) (fun k hk => absurd hk.symm (Option.some_ne_none _)) k hm))
  rw [hmid]
  exact hlast post hafter

theorem State.loadRuns_eq_false {ds : List DieId} (h : ∀ e ∈ ds, ∀ k ∈ s.running e, k.record.wsload = false) : s.loadRuns ds = false :=
  List.any_eq_false.2 fun e he => by
    rw [Bool.not_eq_true]
    exact List.any_eq_false.2 fun k hk => by rw [h e he k hk]; decide

theorem launchDispatch_spec (hp : s.phase = .ending) (hz : (s.die d).frozen = false) (hh : s.sys.hold = none) (hlen : (s.running d).length < 64)
    (hnow : ∀ k ∈ s.running d, k.dispatchedAt ≠ some s.gtime) (hload : ∀ e, e = d ∨ e ∈ l.dies → ∀ k ∈ s.running e, k.record.wsload = false)
    (hl : s.launch? l.id = some l) (hbest : s.best d = some l) (hres : s.resumesFirst d (s.priority l) = false) :
    ∃ u, exec (.launchDispatch d) s = .next u ∧
    u.launch? l.id = some { l with dispatchedAt := some s.gtime, waiting := some s.gtime } ∧
    (∀ k, k ≠ l.id → u.launch? k = s.launch? k) ∧ u = { s with launches := u.launches } := by
  have hsched : s.schedules d = true := by
    rw [State.schedules, hz, State.holding, hh]
    rfl
  have hany : ((s.running d).any fun l => l.dispatchedAt == some s.gtime) = false :=
    List.any_eq_false.2 fun k hk => by simpa using hnow k hk
  have hx : exec (.launchDispatch d) s = _ := execLaunchDispatch.eq_def d s
  dsimp only at hx
  rw [hp, hsched, hany, State.loadRuns_eq_false fun e he => hload e (.inl (List.mem_singleton.1 he)), hbest,
    if_neg (by simp; omega)] at hx
  dsimp only at hx
  rw [hres, State.loadRuns_eq_false fun e he => hload e (.inr he), if_neg (by decide)] at hx
  let f (k : Launch) : Launch := { k with dispatchedAt := some s.gtime, waiting := some s.gtime }
  exact ⟨_, hx, State.launch?_modLaunch (f := f) (fun _ => rfl) hl, fun k hk => State.launch?_modLaunch_ne (f := f) (fun _ => rfl) hk, rfl⟩

end

/-- Settles O47: what DBUDGET, a failure and a completion leave, the announcements, and the dispatch of the best head. -/
theorem launchEnds : Obligations.LaunchEnds := by
  refine ⟨fun s id l h => ?_, fun s d l => ?_⟩
  · intro word whole
    have hid := State.launch?_id h
    refine ⟨fun hd hf hv ho => dbudgetExpiry_pending h hd hf hv ho, fun c w hd hs hv hw ho => dbudgetExpiry_dispatched h hd hs hv hw ho,
      fun f hf hn => launchFail_spec h hf hn, launchComplete_spec h, fun status cause tile => ?_, announce_spec s⟩
    obtain ⟨h1, h2, h3⟩ := s.completeOne_spec l status cause tile
    rw [hid] at h1 h2
    intro u
    refine ⟨hid ▸ rfl, h1, h2, _, h3, ?_⟩
    rw [hid]
    exact l.notice_spec _
  · intro prio first hp hz hh hlen hnow hload hl hc hfirst hres
    exact launchDispatch_spec hp hz hh hlen hnow hload hl (State.best_of_first hc hfirst) hres

end Sys2Proof.Machine
end

section
/-! ## The loss of supply (R147, R370 to R374) -/

namespace Sys2Proof.Machine

open Sys2Proof

/-! ### What the stop of Portage's commands leaves -/

/-- All of a state but its tiles and its dies, whose temperature alone counts. -/
def State.around (s : State) : State × (DieId → Nat) := ({ s with tiles := [], dies := [] }, fun d => (s.die d).celsius)

/-- All of a state but its dies and Portage. -/
def State.apart (s : State) : (State × (DieId → Nat)) × (TileId → Tile) :=
  (s.around, fun v => { s.tile v with portage := Portage.reset })

theorem State.modDie_apart {s : State} {d : DieId} {f : Die → Die} (h : ∀ x, (f x).celsius = x.celsius) :
    (s.modDie d f).apart = s.apart := by
  refine Prod.ext (Prod.ext rfl (funext fun e => ?_)) rfl
  show ((s.modDie d f).die e).celsius = (s.die e).celsius
  by_cases he : e = d
  · rw [he, State.die_modDie_same, h]
  · rw [State.die_modDie_ne _ _ _ _ he]

theorem State.modTile_apart {s : State} {t : TileId} {f : Tile → Tile}
    (h : ∀ x, { f x with portage := Portage.reset } = { x with portage := Portage.reset }) : (s.modTile t f).apart = s.apart := by
  refine Prod.ext rfl (funext fun v => ?_)
  show ({ (s.modTile t f).tile v with portage := Portage.reset } : Tile) = { s.tile v with portage := Portage.reset }
  by_cases hv : v = t
  · rw [hv, State.tile_modTile_same, h]
  · rw [State.tile_modTile_ne _ _ _ _ hv]

theorem State.sendFlit_apart (s : State) (src dst : Nat) (c : Cls) (m : Msg) (timed : Bool) :
    (s.sendFlit src dst c m timed).apart = s.apart :=
  State.modDie_apart fun _ => rfl

theorem State.cmdAsk_owes_apart (s : State) (t : TileId) (c : PCmd) (dst : Nat) (cls : Cls) (a : PAsk) :
    ((s.cmdAsk t c dst cls a).modTile t fun x => x.owes c.id).apart = s.apart :=
  Eq.trans (State.modTile_apart (f := fun x => x.owes c.id) fun _ => rfl) (s.sendFlit_apart ..)

theorem foldl_apart {α : Type} {f : State → α → State} (h : ∀ s x, (f s x).apart = s.apart) (l : List α) (s : State) :
    (l.foldl f s).apart = s.apart := by
  induction l generalizing s with
  | nil => rfl
  | cons x l ih => exact (ih _).trans (h s x)

theorem State.writeAt_apart (s : State) (t : TileId) (c : PCmd) (u : TileId) (w : PWrite) : (s.writeAt t c u w).apart = s.apart := by
  rw [State.writeAt]
  split
  · exact State.modTile_apart fun _ => rfl
  · exact s.cmdAsk_owes_apart ..

theorem State.writeLocal_apart (s : State) (t : TileId) (c : PCmd) (bs : List (Nat × Byte × Byte)) :
    (s.writeLocal t c bs).apart = s.apart := by
  refine foldl_apart (fun s l => (State.writeAt_apart ..).trans ?_) _ _
  exact State.modTile_apart fun _ => rfl

theorem State.sendLate_apart (s : State) (t : TileId) (c : PCmd) (p : PProgress) : (s.sendLate t c p).apart = s.apart :=
  (State.writeLocal_apart ..).trans (State.modTile_apart fun _ => rfl)

theorem State.sendMoves_apart (s : State) (t : TileId) (c : PCmd) (write : Bool) (back : Nat × Nat)
    (l : List (Nat × Nat × Nat × Nat × Nat × Nat)) : (s.sendMoves t c write back l).apart = s.apart :=
  foldl_apart (fun s _ => s.cmdAsk_owes_apart ..) _ _

theorem State.moveUnit_apart (s : State) (t : TileId) (c : PCmd) (k : PKind) (e : Elem) (p : PProgress) (pl : Plan) (u : PUnit)
    (rest : List PUnit) : (s.moveUnit t c k e p pl u rest).apart = s.apart := by
  have h1 : (s.cmdRuns t c { p with units := rest }).apart = s.apart := State.modTile_apart fun _ => rfl
  rw [State.moveUnit]
  split <;> split
  · exact (State.sendMoves_apart ..).trans ((State.sendMoves_apart ..).trans h1)
  · exact (State.sendMoves_apart ..).trans h1
  · exact (State.sendMoves_apart ..).trans h1
  · exact h1

theorem State.haltCmd_apart (s : State) (t : TileId) (c : PCmd) : (s.haltCmd t c).apart = s.apart := by
  rw [State.haltCmd]
  split
  · refine (State.modTile_apart fun _ => ?_).trans (State.modDie_apart fun _ => ?_)
    all_goals rfl
  · extract_lets
    have hlate (p : PProgress) (b : Bool) : (if b then s else s.sendLate t c p).apart = s.apart := by
      cases b
      · exact s.sendLate_apart t c p
      · rfl
    split
    · refine (State.modTile_apart fun _ => ?_).trans ?_
      · rfl
      split
      · exact (State.moveUnit_apart ..).trans (hlate _ _)
      · exact hlate _ _
    · refine (State.modTile_apart fun _ => ?_).trans (hlate _ _)
      rfl
  · exact State.modTile_apart fun _ => rfl
  · exact State.modTile_apart fun _ => rfl

theorem State.haltPortage_apart (s : State) (t : TileId) : (s.haltPortage t).apart = s.apart :=
  foldl_apart (fun s c => s.haltCmd_apart t c) _ _

/-! ### One tile (R372, R374) -/

/-- A tile as it was, but for what a stop of its engines and its Cox touches. -/
structure Tile.Stands (x y : Tile) : Prop where
  iter : y.iter = x.iter
  sp : y.sp = x.sp
  regs : y.cox.x = x.cox.x
  tvec : y.cox.tvec = x.cox.tvec
  queue : ∀ e, (y.eng e).queue = (x.eng e).queue

/-- R372, R374: a tile whose engines have stopped, with PFAIL pending on its Cox or its Cox stopped. -/
structure Tile.Fallen (y : Tile) : Prop where
  engines : ∀ e, (y.eng e).stopped = true
  pending : y.live = true → y.cox.tvec.getLsbD 16 = true → y.cox.pend.pfail = true
  stopped : y.live = true → y.cox.tvec.getLsbD 16 = false → y.cox.stopped = true

theorem Tile.Stands.trans {x y z : Tile} (h : x.Stands y) (k : y.Stands z) : x.Stands z :=
  ⟨k.iter.trans h.iter, k.sp.trans h.sp, k.regs.trans h.regs, k.tvec.trans h.tvec, fun e => (k.queue e).trans (h.queue e)⟩

theorem Tile.Stands.of_unported {x y : Tile} (h : ({ y with portage := Portage.reset } : Tile) = { x with portage := Portage.reset }) :
    x.Stands y := by
  let f (z : Tile) : Option Nat × Memory × Cox × Vector Engine 4 := (z.iter, z.sp, z.cox, z.engines)
  have hf : f { y with portage := Portage.reset } = f { x with portage := Portage.reset } := congrArg f h
  simp only [f, Prod.mk.injEq] at hf
  obtain ⟨h1, h2, h3, h4⟩ := hf
  exact ⟨h1, h2, by rw [h3], by rw [h3], fun e => by rw [Tile.eng, h4]; rfl⟩

theorem Tile.Fallen.of_unported {x y : Tile} (h : ({ y with portage := Portage.reset } : Tile) = { x with portage := Portage.reset })
    (k : x.Fallen) : y.Fallen := by
  let f (z : Tile) : Option Nat × Cox × Vector Engine 4 := (z.iter, z.cox, z.engines)
  have hf : f { y with portage := Portage.reset } = f { x with portage := Portage.reset } := congrArg f h
  simp only [f, Prod.mk.injEq] at hf
  obtain ⟨h1, h3, h4⟩ := hf
  obtain ⟨k1, k2, k3⟩ := k
  rw [Tile.live] at k2 k3
  exact ⟨fun e => by rw [Tile.eng, h4]; exact k1 e, by rw [Tile.live, h1, h3]; exact k2, by rw [Tile.live, h1, h3]; exact k3⟩

theorem State.haltEngines_around (s : State) (t : TileId) : (s.haltEngines t).around = s.around :=
  (congrArg Prod.fst (s.haltPortage_apart t) :)

theorem State.haltEngines_tile_ne {s : State} {t v : TileId} (h : v ≠ t) :
    ({ (s.haltEngines t).tile v with portage := Portage.reset } : Tile) = { s.tile v with portage := Portage.reset } := by
  rw [State.haltEngines, State.tile_modTile_ne _ _ _ _ h]
  exact congrFun (congrArg Prod.snd (s.haltPortage_apart t)) v

theorem State.haltEngines_tile (s : State) (t : TileId) :
    (s.tile t).Stands ((s.haltEngines t).tile t) ∧ ∀ e, (((s.haltEngines t).tile t).eng e).stopped = true := by
  have h := Tile.Stands.of_unported (congrFun (congrArg Prod.snd (s.haltPortage_apart t)) t)
  rw [State.haltEngines, State.tile_modTile_same]
  have heng (x : Tile) (e : Eng) : (x.engines.map fun g => { g with stopped := true })[e.ix] = { x.eng e with stopped := true } := by
    rw [Fin.getElem_fin, Vector.getElem_map]
    rfl
  refine ⟨h.trans ⟨rfl, rfl, rfl, rfl, fun e => ?_⟩, fun e => ?_⟩
  · have hq := congrArg Engine.queue (heng ((s.haltPortage t).tile t) e)
    exact hq
  · have hq := congrArg Engine.stopped (heng ((s.haltPortage t).tile t) e)
    exact hq

theorem State.stopCox_around (s : State) (t : TileId) : (s.stopCox t).around = s.around := by
  rw [State.stopCox]
  split <;> rfl

theorem State.stopCox_tile_ne {s : State} {t v : TileId} (h : v ≠ t) : (s.stopCox t).tile v = s.tile v := by
  refine (State.tile_modTile_ne _ _ _ _ h).trans ?_
  split
  · exact State.tile_modTile_ne _ _ _ _ h
  · rfl

theorem State.stopCox_tile (s : State) (t : TileId) :
    (s.tile t).Stands ((s.stopCox t).tile t) ∧ ((s.stopCox t).cox t).stopped = true ∧
    ∀ e, ((s.stopCox t).tile t).eng e = (s.tile t).eng e := by
  have hz : (s.tile t).Stands ((if s.closingWaits t then s.dropClosing t else s).tile t) ∧
      ((if s.closingWaits t then s.dropClosing t else s).tile t).engines = (s.tile t).engines := by
    split
    · rw [State.dropClosing, State.tile_modTile_same]
      exact ⟨⟨rfl, rfl, rfl, rfl, fun _ => rfl⟩, rfl⟩
    · exact ⟨.of_unported rfl, rfl⟩
  obtain ⟨h1, h2⟩ := hz
  rw [State.stopCox, State.cox_modCox_same, State.tile_modCox_same]
  exact ⟨h1.trans ⟨rfl, rfl, rfl, rfl, fun _ => rfl⟩, rfl, fun e => congrArg (·[e.ix]) h2⟩

theorem State.failTile_around (s : State) (t : TileId) : (s.failTile t).around = s.around := by
  have h := s.haltEngines_around t
  rw [State.failTile]
  dsimp only
  split
  · exact h
  · split
    · exact h
    · exact (State.stopCox_around ..).trans h

theorem State.failTile_tile_ne {s : State} {t v : TileId} (h : v ≠ t) :
    ({ (s.failTile t).tile v with portage := Portage.reset } : Tile) = { s.tile v with portage := Portage.reset } := by
  refine Eq.trans ?_ (State.haltEngines_tile_ne (s := s) h)
  rw [State.failTile]
  dsimp only
  split
  · rfl
  · split
    · rw [State.modCox, State.tile_modTile_ne _ _ _ _ h]
    · rw [State.stopCox_tile_ne h]

theorem State.failTile_tile (s : State) (t : TileId) :
    (s.tile t).Stands ((s.failTile t).tile t) ∧ ((s.failTile t).tile t).Fallen := by
  obtain ⟨h1, h2⟩ := s.haltEngines_tile t
  rw [State.failTile]
  dsimp only
  split
  next hl =>
    exact ⟨h1, h2, fun h => absurd (hl.symm.trans h) (by decide), fun h => absurd (hl.symm.trans h) (by decide)⟩
  next hl =>
    split
    next ht =>
      rw [State.tile_modCox_same]
      exact ⟨h1.trans ⟨rfl, rfl, rfl, rfl, fun _ => rfl⟩, h2, fun _ _ => rfl, fun _ h => absurd (h.symm.trans ht) (by decide)⟩
    next ht =>
      obtain ⟨k1, k2, k3⟩ := State.stopCox_tile (s.haltEngines t) t
      refine ⟨h1.trans k1, fun e => by rw [k3]; exact h2 e, fun _ h => absurd ?_ ht, fun _ _ => k2⟩
      rw [k1.tvec] at h
      exact h

/-- R372, R374: the tiles of a list fall, and what they keep stands. -/
theorem State.foldl_failTile (l : List Nat) (s : State) :
    let u := l.foldl (fun s t => s.failTile (Fin.ofNat 512 t)) s
    u.around = s.around ∧ ∀ v, (s.tile v).Stands (u.tile v) ∧ ((s.tile v).Fallen ∨ v.val ∈ l → (u.tile v).Fallen) := by
  induction l generalizing s with
  | nil => exact ⟨rfl, fun v => ⟨.of_unported rfl, fun h => h.resolve_right nofun⟩⟩
  | cons a l ih =>
    obtain ⟨h1, h2⟩ := ih (s.failTile (Fin.ofNat 512 a))
    refine ⟨h1.trans (s.failTile_around _), fun v => ?_⟩
    obtain ⟨k1, k2⟩ := h2 v
    by_cases hv : v = Fin.ofNat 512 a
    · rw [hv] at k1 k2 ⊢
      obtain ⟨j1, j2⟩ := s.failTile_tile (Fin.ofNat 512 a)
      exact ⟨j1.trans k1, fun _ => k2 (.inl j2)⟩
    · have hne := State.failTile_tile_ne (s := s) hv
      refine ⟨(Tile.Stands.of_unported hne).trans k1, fun h => k2 ?_⟩
      rcases h with h | h
      · exact .inl (h.of_unported hne)
      · refine .inr ((List.mem_cons.1 h).resolve_left fun h => hv ?_)
        exact Fin.ext (by rw [← h]; exact (Nat.mod_eq_of_lt v.isLt).symm)

/-! ### The groups (R237) -/

theorem State.sendPacket_group_ne {g h : Nat} (hg : h ≠ g) (s : State) (dst : Byte) (body : PacketBody) (f : Option (TileId × Req)) :
    (s.sendPacket dst body f (some g)).group h = s.group h :=
  State.group_modGroup_ne _ _ _ _ hg

/-- A state but its fabric. -/
def State.unlinked (s : State) : State := { s with fab := Fabric.reset }

theorem State.groupFault_unlinked (s : State) (g : Nat) (code : Byte) (step : Nat) : (s.groupFault g code step).unlinked = s.unlinked := by
  rw [State.groupFault]
  split
  next p hp =>
    refine Eq.trans (b := (s.sendNotices g code).unlinked) rfl ?_
    rw [State.sendNotices]
    split
    · rfl
    · exact foldl_keeps (p := fun u : State => u.unlinked = s.unlinked) (fun u k hu => by split <;> exact hu) rfl
  · rfl

theorem State.groupFault_group_ne {g h : Nat} (hg : h ≠ g) (s : State) (code : Byte) (step : Nat) :
    (s.groupFault g code step).group h = s.group h := by
  rw [State.groupFault]
  split
  next p hp =>
    refine (State.group_modGroup_ne _ _ _ _ hg).trans ?_
    rw [State.sendNotices]
    split
    · rfl
    · refine foldl_keeps (p := fun u : State => u.group h = s.group h) (fun u k hu => ?_) rfl
      split
      · exact hu
      · exact (State.sendPacket_group_ne hg ..).trans hu
  · rfl

theorem State.groupFault_group {s : State} {g : Nat} {p : Program} (h : (s.group g).prog = some p) (code : Byte) (step : Nat) :
    ∃ n, (s.groupFault g code step).group g =
      { s.group g with st := .ended, status := statusWord p code step p.rank false, prog := none, unacked := n } := by
  obtain ⟨⟨n, hn⟩, -⟩ := State.foldl_notices g p.rank (.notice (Fin.ofNat 4096 g) (Fin.ofNat 16 (s.group g).gen) code p.rank)
    p.ranks.zipIdx s
  have hs : (s.sendNotices g code).group g = { s.group g with unacked := n } := by
    refine Eq.trans (congrArg (State.group · g) ?_) hn
    simp only [State.sendNotices, h]
  refine ⟨n, ?_⟩
  simp only [State.groupFault, h]
  rw [State.endGroup_spec (by rw [hs]; exact h), hs]

theorem statusWord_code (p : Program) (code : Byte) (step origin : Nat) (remote : Bool) :
    (statusWord p code step origin remote).toNat % 2 ^ 8 = code.toNat := by
  rw [statusWord, BitVec.toNat_ofNat]
  have hc := code.isLt
  split <;> split <;> split <;> split <;> omega

/-- R374: one step of the end of the open groups. -/
def State.endOpen (s : State) (code : Byte) (g : Nat) : State :=
  match (s.group g).st, (s.group g).prog with
  | .opened, some p => s.groupFault g code p.pc
  | _, _ => s

theorem State.endOpen_unlinked (s : State) (code : Byte) (g : Nat) : (s.endOpen code g).unlinked = s.unlinked := by
  rw [State.endOpen]
  split
  · exact State.groupFault_unlinked ..
  · rfl

/-- R372: an open group with a program, which the list holds, ends with the code. -/
theorem State.foldl_endOpen (code : Byte) (l : List Nat) (s : State) :
    (l.foldl (fun s g => s.endOpen code g) s).unlinked = s.unlinked ∧
    ∀ g, ((s.group g).st ≠ .opened → (l.foldl (fun s g => s.endOpen code g) s).group g = s.group g) ∧
      ∀ p, (s.group g).st = .opened → (s.group g).prog = some p → g ∈ l →
        ((l.foldl (fun s g => s.endOpen code g) s).group g).st = .ended ∧
        ((l.foldl (fun s g => s.endOpen code g) s).group g).status.toNat % 2 ^ 8 = code.toNat := by
  induction l generalizing s with
  | nil => exact ⟨rfl, fun g => ⟨fun _ => rfl, fun _ _ _ h => absurd h List.not_mem_nil⟩⟩
  | cons a l ih =>
    simp only [List.foldl_cons]
    obtain ⟨h1, h2⟩ := ih (s.endOpen code a)
    have hne {g : Nat} (hg : g ≠ a) : (s.endOpen code a).group g = s.group g := by
      rw [State.endOpen]
      split
      · exact State.groupFault_group_ne hg ..
      · rfl
    refine ⟨h1.trans (s.endOpen_unlinked code a), fun g => ?_⟩
    obtain ⟨h2, h3⟩ := h2 g
    by_cases hg : g = a
    · rw [hg] at h2 h3 ⊢
      refine ⟨fun hst => ?_, fun p hst hp _ => ?_⟩
      · have hs : s.endOpen code a = s := by
          rw [State.endOpen]
          split
          next hst' _ => exact absurd hst' hst
          next => rfl
        rw [hs] at h2 ⊢
        exact h2 hst
      · obtain ⟨n, hn⟩ := State.groupFault_group hp code p.pc
        have hs : s.endOpen code a = s.groupFault a code p.pc := by
          rw [State.endOpen, hst, hp]
        rw [hs] at h2 ⊢
        rw [h2 (by rw [hn]; exact nofun), hn]
        exact ⟨rfl, statusWord_code ..⟩
    · rw [hne hg] at h2 h3
      exact ⟨h2, fun p hst hp hm => h3 p hst hp ((List.mem_cons.1 hm).resolve_left hg)⟩

theorem State.abandonArrays (l : List Nat) (s : State) :
    ∃ f cs, l.foldl (fun s c => s.abandonArray (Fin.ofNat 128 c)) s = { s with fresh := f, crews := cs } := by
  induction l generalizing s with
  | nil => exact ⟨_, _, rfl⟩
  | cons a l ih =>
    obtain ⟨f, cs, h⟩ := ih (s.abandonArray (Fin.ofNat 128 a))
    exact ⟨f, cs, h⟩

/-- R370 to R374: what the loss of supply leaves. -/
theorem State.loseSupply_spec (s : State) :
    let u := s.loseSupply
    u.sys = { s.sys with hold := some .handler, holdP := s.gtime } ∧ u.gtime = s.gtime ∧ (∀ d, (u.die d).celsius = (s.die d).celsius) ∧
    (∀ t, (s.tile t).Stands (u.tile t) ∧ ((s.tile t).live = true → (u.tile t).Fallen)) ∧
    ∀ g p, (s.group g).st = .opened → (s.group g).prog = some p →
      (u.group g).st = .ended ∧ (u.group g).status.toNat % 2 ^ 8 = cPFAIL.toNat := by
  intro u
  let s0 := s.modSys fun y => { y with hold := some .handler, holdP := s.gtime }
  obtain ⟨f, cs, hc⟩ := State.abandonArrays (s0.crews.map Prod.fst) s0
  let s1 : State := { s0 with fresh := f, crews := cs }
  obtain ⟨h1, h2⟩ := State.foldl_failTile (s1.tiles.map Prod.fst) s1
  let s2 := (s1.tiles.map Prod.fst).foldl (fun s t => s.failTile (Fin.ofNat 512 t)) s1
  obtain ⟨h3, h4⟩ := State.foldl_endOpen cPFAIL (s2.fab.groups.map Prod.fst) s2
  have hu : u = (s2.fab.groups.map Prod.fst).foldl (fun s g => s.endOpen cPFAIL g) s2 := by
    have hs2 : s2 = (s1.tiles.map Prod.fst).foldl (fun s t => s.failTile (Fin.ofNat 512 t)) s1 := rfl
    have hs1 : s1 = { s0 with fresh := f, crews := cs } := rfl
    rw [← hc] at hs1
    rw [hs1] at hs2
    rw [hs2]
    rfl
  rw [← hu] at h3 h4
  have hsys : u.unlinked.sys = s2.unlinked.sys := by rw [h3]
  have htime : u.unlinked.gtime = s2.unlinked.gtime := by rw [h3]
  have htile (t : TileId) : u.tile t = s2.tile t := by
    have h : u.unlinked.tile t = s2.unlinked.tile t := by rw [h3]
    exact h
  have hsys' : s2.around.1.sys = s1.around.1.sys := by rw [h1]
  have htime' : s2.around.1.gtime = s1.around.1.gtime := by rw [h1]
  have hdie (d : DieId) : (u.die d).celsius = (s2.die d).celsius := by
    have h : (u.unlinked.die d).celsius = (s2.unlinked.die d).celsius := by rw [h3]
    exact h
  have hdie' (d : DieId) : s2.around.2 d = s1.around.2 d := by rw [h1]
  refine ⟨hsys.trans hsys', htime.trans htime', fun d => (hdie d).trans (hdie' d), fun t => ?_, fun g p hst hp => ?_⟩
  · rw [htile]
    obtain ⟨k1, k2⟩ := h2 t
    refine ⟨k1, fun hl => k2 (.inr ?_)⟩
    refine List.mem_map.2 ⟨_, Map.mem_of_get_ne (m := s.tiles) (k := t.val) (d := Tile.reset) fun he => ?_, rfl⟩
    rw [State.tile, he] at hl
    exact absurd hl (by decide)
  · have hg : s2.around.1.group g = s1.around.1.group g := by rw [h1]
    have hg : s2.group g = s.group g := hg
    rw [← hg] at hst hp
    refine (h4 g).2 p hst hp (List.mem_map.2 ⟨_, Map.mem_of_get_ne (m := s2.fab.groups) (k := g) (d := Group.reset) fun he => ?_, rfl⟩)
    rw [State.group, he] at hst
    exact absurd hst (by decide)

end Sys2Proof.Machine
end

section
/-! ## Boot, keys and the hold-up sequence (R9, R370 to R381, R394 to R398) -/

namespace Sys2Proof.Machine

open Sys2Proof

variable {s : State}

theorem boot_good (hr : s.sys.ready = false) (hf : s.sys.bootfail = false) (pkg : Byte) (fw : Firmware) :
    exec (.boot true pkg fw) s =
      .next { s with sys := { s.sys with ready := true, pkg := pkg, fwCps := fw.cps, fwVersion := fw.version } } := by
  have hx : exec (.boot true pkg fw) s = _ := execBoot.eq_def ..
  rw [hr, hf] at hx
  exact hx

theorem boot_bad (hr : s.sys.ready = false) (hf : s.sys.bootfail = false) (pkg : Byte) (fw : Firmware) :
    ∃ u, exec (.boot false pkg fw) s = .next u ∧ u.sys.ready = false ∧ u.sys.bootTries = s.sys.bootTries + 1 ∧
      (u.sys.bootfail = true ↔ 3 ≤ s.sys.bootTries + 1) := by
  have hx : exec (.boot false pkg fw) s = _ := execBoot.eq_def ..
  rw [hr, hf] at hx
  exact ⟨_, hx, hr, rfl, decide_eq_true_iff⟩

/-- R397: a key is loaded, and what it leaves. -/
theorem keyLoad_spec (hr : s.sys.ready = true) (k : Fin 1024) (key : BitVec 512) : ∃ u, exec (.keyLoad k key) s = .next u ∧
    (∀ j, u.sys.keys.get j 0 = if j = k.val then key else s.sys.keys.get j 0) ∧
    u.dev.hbm = s.dev.hbm ∧ u.dev.tier2 = s.dev.tier2 ∧ u.dev.ws = s.dev.ws ∧ u.dev.unitKey = s.dev.unitKey ∧
    u.dev.fills = s.dev.fills ∧ u.dev.signals = s.dev.signals ∧
    (∀ x ∈ s.dev.extents, x.2.acap = false ∨ x.2.key ≠ k.val ∨ s.sys.keys.get k.val 0 = key → x ∈ u.dev.extents) := by
  have hx : exec (.keyLoad k key) s = _ := execKeyLoad.eq_def ..
  rw [if_pos hr] at hx
  dsimp only at hx
  have hkeys (j : Nat) : (s.sys.keys.set k.val key).get j 0 = if j = k.val then key else s.sys.keys.get j 0 := by
    split
    next hj => rw [hj, Map.get_set_same]
    next hj => exact Map.get_set_ne _ _ _ _ _ hj
  by_cases hk : s.keyOf k.val = key
  · rw [if_pos hk] at hx
    exact ⟨_, hx, hkeys, rfl, rfl, rfl, rfl, rfl, rfl, fun x hm _ => hm⟩
  · rw [if_neg hk] at hx
    refine ⟨_, hx, hkeys, rfl, rfl, rfl, rfl, rfl, rfl, fun x hm h => List.mem_map.2 ⟨x, hm, ?_⟩⟩
    refine Prod.ext rfl (if_neg fun hc => ?_)
    obtain ⟨h1, h2, -⟩ := hc
    rcases h with h | h | h
    · rw [h] at h1; exact absurd h1 (by decide)
    · exact h h2
    · exact hk h

theorem supplyLoss_runs (hh : s.sys.hold = none) (hf : s.sys.frozen = false) : exec .supplyLoss s = .next s.loseSupply := by
  have hx : exec .supplyLoss s = _ := execSupplyLoss.eq_def ..
  refine hx.trans (if_neg ?_)
  rw [State.holding, hh, hf]
  decide

theorem supplyLoss_holds (h : s.sys.hold ≠ none ∨ s.sys.frozen = true) : exec .supplyLoss s = .next s := by
  have hx : exec .supplyLoss s = _ := execSupplyLoss.eq_def ..
  refine hx.trans (if_pos (h.imp (fun h => ?_) id))
  exact Option.isSome_iff_ne_none.2 h

/-- R398: the temperature of a die, and the cut at 115 °C. -/
theorem thermalLimit_spec (s : State) (d : DieId) (c : Nat) : ∃ u, exec (.thermalLimit d c) s = .next u ∧ (u.die d).celsius = c ∧
    (c < 115 → u.sys = s.sys ∧ u.tiles = s.tiles) ∧
    (115 ≤ c → s.sys.hold = none → s.sys.frozen = false → u.sys.hold = some .handler ∧ u.sys.holdP = s.gtime) := by
  have hx : exec (.thermalLimit d c) s = _ := execThermalLimit.eq_def ..
  dsimp only at hx
  let z := s.modDie d fun x => { x with celsius := c }
  have hz : (z.die d).celsius = c := congrArg Die.celsius (State.die_modDie_same ..)
  by_cases h : 115 ≤ c ∧ !z.holding ∧ !z.sys.frozen
  · obtain ⟨h1, h2, h3, -⟩ := State.loseSupply_spec z
    refine ⟨_, hx.trans (if_pos h), (h3 d).trans hz, fun hc => absurd h.1 (by omega), fun _ _ _ => ?_⟩
    rw [h1]
    exact ⟨rfl, rfl⟩
  · refine ⟨_, hx.trans (if_neg h), hz, fun _ => ⟨rfl, rfl⟩, fun h1 h2 h3 => absurd ⟨h1, ?_, ?_⟩ h⟩
    · have h2 : z.sys.hold = none := h2
      rw [State.holding, h2]
      rfl
    · have h3 : z.sys.frozen = false := h3
      rw [h3]
      rfl

theorem freeze_runs (h : s.sys.hold = none) : exec .freeze s = .next { s with sys := { s.sys with frozen := true } } := by
  have hx : exec .freeze s = _ := execFreeze.eq_def ..
  rw [State.freezeClocks, State.holding, h, if_neg (by decide), State.modSys, Bool.or_false] at hx
  exact hx

theorem freeze_holds (h : s.sys.hold ≠ none) : exec .freeze s = .next s := by
  have hx : exec .freeze s = _ := execFreeze.eq_def ..
  rw [State.freezeClocks, State.holding, if_pos (Option.isSome_iff_ne_none.2 h)] at hx
  exact hx

/-! ### The Coxes stop -/

/-- R372: the Coxes of a list stop, and no other that has stopped goes on. -/
theorem State.foldl_stopCox (l : List TileId) (s : State) (t : TileId) :
    ((l.foldl State.stopCox s).tile t).iter = (s.tile t).iter ∧
    ((s.cox t).stopped = true ∨ t ∈ l → ((l.foldl State.stopCox s).cox t).stopped = true) := by
  induction l generalizing s with
  | nil => exact ⟨rfl, fun h => h.resolve_right List.not_mem_nil⟩
  | cons a l ih =>
    obtain ⟨h1, h2⟩ := ih (s.stopCox a)
    by_cases ht : t = a
    · rw [ht] at h1 h2 ⊢
      obtain ⟨k1, k2, -⟩ := s.stopCox_tile a
      exact ⟨h1.trans k1.iter, fun _ => h2 (.inl k2)⟩
    · have hne : (s.stopCox a).tile t = s.tile t := State.stopCox_tile_ne ht
      have hcox : (s.stopCox a).cox t = s.cox t := congrArg Tile.cox hne
      rw [hne] at h1
      rw [hcox] at h2
      exact ⟨h1, fun h => h2 (h.imp id fun h => (List.mem_cons.1 h).resolve_left ht)⟩

theorem State.mem_unstopped {t : TileId} (hl : (s.tile t).live = true) (h : (s.cox t).stopped = false) : t ∈ s.unstopped := by
  have hm : (t.val, s.tile t) ∈ s.tiles := Map.mem_of_get_ne (m := s.tiles) (d := Tile.reset) fun he => by
    rw [State.tile, he] at hl
    exact absurd hl (by decide)
  refine List.mem_map.2 ⟨_, List.mem_filter.2 ⟨hm, ?_⟩, Fin.ofNat_val_eq_self t⟩
  have h : (s.tile t).cox.stopped = false := h
  simp only [hl, h]
  decide

theorem handlerDeadline_spec (hp : s.phase = .ending) (hh : s.sys.hold = some .handler) (ht : s.sys.holdP + 4095 ≤ s.gtime) :
    ∃ u, exec .handlerDeadline s = .next u ∧ u.sys.hold = some .drain ∧ ∀ t, (s.tile t).live = true → (u.cox t).stopped = true := by
  have hx : exec .handlerDeadline s = _ := execHandlerDeadline.eq_def ..
  rw [if_pos ⟨hp, hh, ht⟩] at hx
  refine ⟨_, hx, rfl, fun t hl => ?_⟩
  refine (State.foldl_stopCox s.unstopped s t).2 ?_
  cases h : (s.cox t).stopped with
  | true => exact .inl rfl
  | false => exact .inr (State.mem_unstopped hl h)

/-! ### The set -/

theorem drainEnd_waits (hd : s.drained = false) (ht : s.gtime < s.sys.holdP + 16384) : exec .drainEnd s = .next s := by
  have hx : exec .drainEnd s = _ := execDrainEnd.eq_def ..
  refine hx.trans (if_neg fun h => ?_)
  obtain ⟨-, -, h | h⟩ := h
  · rw [hd] at h; exact absurd h (by decide)
  · omega

theorem recNat_toBytes {n v : Nat} (l m : List Byte) (h : v < 256 ^ n) : recNat (l ++ (toBytes n v ++ m)) l.length n = v := by
  rw [recNat, List.drop_left' rfl, List.take_left' (length_toBytes ..), ofBytes_toBytes _ _ h]

/-- R379: how a set begins. -/
theorem State.saveSet_head (s : State) : ∃ l, s.saveSet = b4 setMagic ++ (toBytes 2 (s.sys.bhHoldno + 1).toNat ++ l) := by
  have hhead (n : BitVec 15) (p a : Nat) : ∃ l, setHeader n p a = b4 setMagic ++ (toBytes 2 n.toNat ++ l) := ⟨_, rfl⟩
  obtain ⟨l, hl⟩ := hhead (s.sys.bhHoldno + 1) s.sys.holdP (s.sys.bhAllow * 64)
  rw [State.saveSet]
  dsimp only
  rw [hl]
  simp only [List.append_assoc]
  exact ⟨_, rfl⟩

theorem recNat_setMagic (l : List Byte) : recNat (b4 setMagic ++ l) 0 4 = 0x53424E45 :=
  recNat_toBytes (n := 4) (v := setMagic) [] l (by decide)

theorem recNat_setNumber (n : BitVec 15) (l : List Byte) : recNat (b4 setMagic ++ (toBytes 2 n.toNat ++ l)) 4 2 = n.toNat :=
  recNat_toBytes (n := 2) (b4 setMagic) l (by have := n.isLt; omega)

theorem State.writeSet_sys (s : State) : s.writeSet.sys = { s.sys with
    hold := some .write, holdEnd := s.gtime + boathouseCycles s.saveSet.length, bhHoldno := s.sys.bhHoldno + 1, bhSetv := true,
    bhBytes := s.saveSet.length, boathouse := s.sys.boathouse.write 0 s.saveSet } := rfl

theorem Memory.getElem?_write (m : Memory) {l : List Byte} {i : Nat} {b : Byte} (h : l[i]? = some b) : (m.write 0 l).get i = b := by
  obtain ⟨hi, hb⟩ := List.getElem?_eq_some_iff.1 h
  have h := Memory.get_write_inside l m 0 i hi
  rw [Nat.zero_add] at h
  exact h.trans hb

theorem drainEnd_writes (hp : s.phase = .ending) (hh : s.sys.hold = some .handler ∨ s.sys.hold = some .drain)
    (hd : s.drained = true ∨ s.sys.holdP + 16384 ≤ s.gtime) : ∃ u, exec .drainEnd s = .next u ∧
      u.sys.hold = some .write ∧ u.sys.bhSetv = true ∧ u.sys.bhHoldno = s.sys.bhHoldno + 1 ∧
      u.sys.bhBytes = s.saveSet.length ∧ (∀ i b, s.saveSet[i]? = some b → u.sys.boathouse.get i = b) ∧
      recNat s.saveSet 0 4 = 0x53424E45 ∧ recNat s.saveSet 4 2 = (s.sys.bhHoldno + 1).toNat := by
  have hx : exec .drainEnd s = _ := execDrainEnd.eq_def ..
  obtain ⟨l, hl⟩ := s.saveSet_head
  refine ⟨s.writeSet, hx.trans (if_pos ⟨hp, hh, hd⟩), ?_⟩
  rw [State.writeSet_sys]
  dsimp only
  refine ⟨rfl, rfl, rfl, rfl, fun i b hb => ?_, ?_, ?_⟩
  · generalize s.saveSet = l at hb ⊢
    exact Memory.getElem?_write _ hb
  · rw [hl, recNat_setMagic]
  · rw [hl, recNat_setNumber]

theorem Memory.get_write_zeros {m : Memory} {a : Nat} (h : m.get a = 0) (b n : Nat) : (m.write b (List.replicate n 0)).get a = 0 := by
  by_cases hi : a < b ∨ b + n ≤ a
  · rw [Memory.get_write_outside _ _ _ _ (by rw [List.length_replicate]; exact hi)]
    exact h
  · obtain ⟨i, rfl⟩ : ∃ i, a = b + i := ⟨a - b, by omega⟩
    rw [Memory.get_write_inside _ _ _ _ (by rw [List.length_replicate]; omega), List.getElem_replicate]

theorem bhstatSetvClear_spec (hr : s.sys.ready = true) (hv : s.sys.bhSetv = true) :
    ∃ u, exec .bhstatSetvClear s = .next u ∧ u.sys.bhSetv = false ∧ u.sys.bhHoldno = s.sys.bhHoldno ∧
      ∀ a, a < 64 → u.sys.boathouse.get a = 0 := by
  have hx : exec .bhstatSetvClear s = _ := execBhstatSetvClear.eq_def ..
  rw [if_pos ⟨hr, hv⟩] at hx
  refine ⟨_, hx, rfl, rfl, fun a ha => ?_⟩
  rw [State.modSys, List.foldl_cons]
  refine foldl_keeps (p := fun m : Memory => m.get a = 0) (fun m b h => ?_) ?_
  · exact Memory.get_write_zeros h b 64
  exact Memory.getElem?_write _ (List.getElem?_replicate_of_lt ha)

/-! ### Cold reset -/

theorem State.reset_bank (s : State) (d : DieId) : ((s.afterReset.die d).frozen = false ∧ ∀ b, (s.afterReset.die d).bank b = McBank.reset) := by
  have hmap (l : Map Die) : ∃ c, Map.get (l.map fun d => (d.1, { Die.reset with celsius := d.2.celsius })) d.val Die.reset =
      { Die.reset with celsius := c } := by
    induction l with
    | nil => exact ⟨_, rfl⟩
    | cons a l ih =>
      rw [List.map_cons, Map.get]
      split
      · exact ⟨_, rfl⟩
      · exact ih
  obtain ⟨c, hc⟩ := hmap s.dies
  have hd : s.afterReset.die d = { Die.reset with celsius := c } := hc
  rw [hd]
  exact ⟨rfl, fun b => rfl⟩

theorem coldReset_spec (h : s.sys.frozen = true ∨ s.sys.hold = none ∨ s.sys.hold = some .write ∧ s.sys.holdEnd ≤ s.gtime) :
    ∃ u, exec .coldReset s = .next u ∧
    u.gtime = 0 ∧ u.launches = [] ∧ (∀ t, u.tile t = Tile.reset) ∧ (∀ w, u.dev.signal w = 0) ∧ u.dev.extents = [] ∧
    u.fab.groups = [] ∧ u.sys.ready = false ∧ u.sys.hold = none ∧ u.sys.frozen = false ∧
    (∀ d, (u.die d).frozen = false ∧ ∀ b, (u.die d).bank b = McBank.reset) ∧
    u.sys.boathouse = s.sys.boathouse ∧ u.sys.bhSetv = s.sys.bhSetv ∧ u.sys.bhHoldno = s.sys.bhHoldno ∧
    u.sys.bhBytes = s.sys.bhBytes := by
  have hr : s.resettable = true := by
    rw [State.resettable]
    rcases h with h | h | ⟨h, h'⟩
    · rw [h]; rfl
    · rw [h]; exact Bool.or_true _
    · rw [h]
      exact Bool.or_eq_true_iff.2 (.inr (decide_eq_true h'))
  have hx : exec .coldReset s = _ := execColdReset.eq_def ..
  exact ⟨_, hx.trans (if_pos hr), rfl, rfl, fun _ => rfl, fun _ => rfl, rfl, rfl, rfl, rfl, rfl, s.reset_bank, rfl, rfl, rfl, rfl⟩

/-- Settles O53, by what boot, keys and temperature leave, what the loss of supply does to each tile and each group
(`State.loseSupply_spec`), and the end of the hold-up. -/
theorem bootAndHoldUp : Obligations.BootAndHoldUp := by
  refine ⟨fun s => ⟨fun hr hf pkg fw => ⟨⟨_, boot_good hr hf pkg fw, rfl⟩, boot_bad hr hf pkg fw⟩, keyLoad_spec,
    thermalLimit_spec s, freeze_runs, freeze_holds⟩, fun s => ⟨supplyLoss_holds, fun hh hf => ?_, handlerDeadline_spec,
      fun hp hh => ⟨drainEnd_waits, drainEnd_writes hp hh⟩, bhstatSetvClear_spec, coldReset_spec⟩⟩
  obtain ⟨h1, h2, -, h3, h4⟩ := s.loseSupply_spec
  refine ⟨_, supplyLoss_runs hh hf, by rw [h1], by rw [h1], h2, fun t hl => ?_, h4⟩
  obtain ⟨k, kf⟩ := h3 t
  obtain ⟨f1, f2, f3⟩ := kf hl
  have hl' : (s.loseSupply.tile t).live = true := by
    rw [Tile.live, k.iter]
    exact hl
  rw [k.tvec] at f2 f3
  exact ⟨fun e => ⟨f1 e, k.queue e⟩, k.regs, k.sp, f2 hl', f3 hl'⟩

end Sys2Proof.Machine
end

section
/-! ## Writes of the register window (R151, R250, R287, R389, R393, R394) -/

namespace Sys2Proof.Machine

open Sys2Proof

variable {s : State}

/-! ### Nothing before READY -/

theorem window_notReady (hr : s.sys.ready = false) {i : Instr} (hi : (∃ d k v, i = .pitchWrite d k v) ∨
    (∃ k c r q, i = .peerTableWrite k c r q) ∨ (∃ w v, i = .signalWindowWrite w v) ∨ (∃ v, i = .imgaddrWrite v) ∨
    (∃ v, i = .ctxflushWrite v) ∨ (∃ r v, i = .regWrite r v)) : exec i s = .next s := by
  rcases hi with ⟨d, k, v, rfl⟩ | ⟨k, c, r, q, rfl⟩ | ⟨w, v, rfl⟩ | ⟨v, rfl⟩ | ⟨v, rfl⟩ | ⟨r, v, rfl⟩
  · have hx : exec (.pitchWrite d k v) s = _ := execPitchWrite.eq_def ..
    exact hx.trans (if_pos (.inl hr))
  · have hx : exec (.peerTableWrite k c r q) s = _ := execPeerTableWrite.eq_def ..
    exact hx.trans (if_pos (.inl hr))
  · have hx : exec (.signalWindowWrite w v) s = _ := execSignalWindowWrite.eq_def ..
    exact hx.trans (if_pos hr)
  · have hx : exec (.imgaddrWrite v) s = _ := execImgaddrWrite.eq_def ..
    exact hx.trans (if_pos hr)
  · have hx : exec (.ctxflushWrite v) s = _ := execCtxflushWrite.eq_def ..
    exact hx.trans (if_neg fun h => by rw [hr] at h; exact absurd h.1 (by decide))
  · have hx : exec (.regWrite r v) s = _ := execRegWrite.eq_def ..
    exact hx.trans (if_pos hr)

theorem State.hostWrite_notReady (hr : s.sys.ready = false) (w : HostWrite) : s.hostWrite w = s := if_pos (.inl hr)

theorem State.windowRead_bootfail (hf : s.sys.bootfail = true) {off : Nat} (ho : winAt off ≠ .devctl) {v : Word}
    (h : s.windowRead off = some v) : v = 0 := by
  rw [State.windowRead] at h
  split at h
  · exact absurd h (Option.some_ne_none v).symm
  · rw [if_pos (by rw [hf, Bool.true_and]; exact bne_iff_ne.2 ho)] at h
    exact (Option.some.inj h).symm

/-! ### Tables (R151, R250) -/

/-- R151: what an entry of the Pitch table may hold. -/
theorem pitchOk_iff (v : BitVec 16) :
    let kind := v.toNat / 2 ^ 14
    let owner := v.toNat % 2 ^ 8
    (v.toNat / 2 ^ 8 % 2 ^ 6 = 0 ∧ (kind = 0 ∧ owner = 0 ∨ kind = 1 ∧ owner ≤ 131 ∨ kind = 2 ∧ owner ≤ 127)) ↔ pitchOk v = true := by
  intro kind owner
  have hkind : bitsOf v.toNat 14 2 = kind := by
    have := v.isLt
    rw [bitsOf, Nat.shiftRight_eq_div_pow]
    omega
  have howner : bitsOf v.toNat 0 8 = owner := rfl
  have hmid : bitsOf v.toNat 8 6 = v.toNat / 2 ^ 8 % 2 ^ 6 := by rw [bitsOf, Nat.shiftRight_eq_div_pow]
  have hlt : kind < 4 := by
    have := v.isLt
    omega
  rw [pitchOk, hmid, howner, hkind, Bool.and_eq_true, beq_iff_eq]
  refine and_congr_right fun _ => ?_
  clear_value kind owner
  interval_cases kind <;> simp

theorem pitchWrite_ignored (d : DieId) (k : Fin 2112) {v : BitVec 16} (h : s.dieBusy d = true ∨ pitchOk v = false) :
    exec (.pitchWrite d k v) s = .next s := by
  have hx : exec (.pitchWrite d k v) s = _ := execPitchWrite.eq_def ..
  exact hx.trans (if_pos (.inr h))

theorem pitchWrite_spec (hr : s.sys.ready = true) {d : DieId} (k : Fin 2112) {v : BitVec 16} (hb : s.dieBusy d = false)
    (hv : pitchOk v = true) : ∃ u, exec (.pitchWrite d k v) s = .next u ∧ ∀ j,
      (u.die d).pitch.get j 0 = if j = k.val then v else (s.die d).pitch.get j 0 := by
  have hx : exec (.pitchWrite d k v) s = _ := execPitchWrite.eq_def ..
  rw [hr, hb, hv, if_neg (by decide)] at hx
  refine ⟨_, hx, fun j => ?_⟩
  have hd : ((s.modDie d fun x => { x with pitch := x.pitch.put k.val v 0 }).die d).pitch = (s.die d).pitch.put k.val v 0 :=
    congrArg Die.pitch (State.die_modDie_same ..)
  refine (congrArg (Map.get · j 0) hd).trans ?_
  split
  next hj => rw [hj, Map.get_put_same]
  next hj => exact Map.get_put_ne _ _ _ _ _ hj

theorem peerTableWrite_spec (hr : s.sys.ready = true) (k : Fin 256) (ctl src : Byte) (q : BitVec 256) :
    (8 ≤ ctl.toNat → exec (.peerTableWrite k ctl src q) s = .next s) ∧
    (ctl.toNat < 8 → ∃ u, exec (.peerTableWrite k ctl src q) s = .next u ∧ ∀ j,
      u.sys.peers.get j Peer.reset = if j = k.val then ⟨ctl, src, q⟩ else s.sys.peers.get j Peer.reset) := by
  have hx : exec (.peerTableWrite k ctl src q) s = _ := execPeerTableWrite.eq_def ..
  refine ⟨fun h => hx.trans (if_pos (.inr h)), fun h => ?_⟩
  rw [hr, if_neg (by simp; omega)] at hx
  refine ⟨_, hx, fun j => ?_⟩
  have hp (v : Peer) : (s.sys.peers.put k.val v Peer.reset).get j Peer.reset =
      if j = k.val then v else s.sys.peers.get j Peer.reset := by
    split
    next hj => rw [hj, Map.get_put_same]
    next hj => exact Map.get_put_ne _ _ _ _ _ hj
  exact hp _

/-! ### Signal words, the flush (R287, R393) -/

theorem signalWindowWrite_spec (hr : s.sys.ready = true) (w : BitVec 17) (v : Word) :
    ∃ u, exec (.signalWindowWrite w v) s = .next u ∧ u.dev = s.dev ∧ u.tiles = s.tiles ∧
      let d : DieId := Fin.ofNat 4 ((signalHome w).val / 2)
      ∃ f, (u.die d).stations.get 128 [] = (s.die d).stations.get 128 [] ++ [f] ∧ f.dst = homeStation (signalHome w) ∧
        f.msg = .oper none w (.write v) none := by
  have hx : exec (.signalWindowWrite w v) s = _ := execSignalWindowWrite.eq_def ..
  rw [hr, if_neg (by decide)] at hx
  have hplace : ∀ h : HomeId, (Fin.ofNat 4 (homeStation (homeOf (h.val / 2) 0) / 132) : DieId) = Fin.ofNat 4 (h.val / 2) ∧
      homeStation (homeOf (h.val / 2) 0) % 132 = 128 := by decide
  obtain ⟨h1, h2⟩ := hplace (signalHome w)
  refine ⟨_, hx, rfl, rfl, ⟨homeStation (homeOf ((signalHome w).val / 2) 0), homeStation (signalHome w), .signal, 0, 0, false,
    .oper none w (.write v) none⟩, ?_, rfl, rfl⟩
  rw [State.sendFlit, h1, h2, State.die_modDie_same, Map.get_set_same]

theorem State.flushTlbs_tlb (s : State) (t : TileId) : (s.flushTlbs.tile t).tlb = [] := by
  have hmap (l : Map Tile) : (Map.get (l.map fun (k, x) => (k, ({ x with tlb := [] } : Tile))) t.val Tile.reset).tlb = [] := by
    induction l with
    | nil => rfl
    | cons a l ih =>
      rw [List.map_cons, Map.get]
      split
      · rfl
      · exact ih
  exact hmap s.tiles

theorem ctxflushWrite_spec (hr : s.sys.ready = true) (v : Word) : (v.getLsbD 0 = false → exec (.ctxflushWrite v) s = .next s) ∧
    (v.getLsbD 0 = true → ∃ u, exec (.ctxflushWrite v) s = .next u ∧
      ((∃ l ∈ s.launches, l.dispatchedAt ≠ none) → u.sys.ctxflush = true ∧ u.tiles = s.tiles) ∧
      ((∀ l ∈ s.launches, l.dispatchedAt = none) → u.sys.ctxflush = false ∧ ∀ t, (u.tile t).tlb = [])) := by
  have hx : exec (.ctxflushWrite v) s = _ := execCtxflushWrite.eq_def ..
  refine ⟨fun hv => hx.trans (if_neg fun h => by rw [hv] at h; exact absurd h.2 (by decide)), fun hv => ?_⟩
  rw [if_pos ⟨hr, hv⟩] at hx
  let z := s.modSys fun y => { y with ctxflush := true }
  have hdue : z.flushDue = !s.launches.any fun l => l.dispatchedAt.isSome := Bool.true_and _
  refine ⟨_, hx, fun ⟨l, hl, hd⟩ => ?_, fun hall => ?_⟩
  · have hz : z.flushWhenIdle = z := if_neg (by
      rw [hdue, List.any_eq_true.2 ⟨l, hl, Option.isSome_iff_ne_none.2 hd⟩]
      decide)
    rw [hz]
    exact ⟨rfl, rfl⟩
  · have hz : z.flushWhenIdle = z.flushTlbs.modSys fun y => { y with ctxflush := false } := if_pos (by
      rw [hdue, List.any_eq_false.2 fun l hl => by rw [hall l hl]; decide]
      rfl)
    rw [hz]
    exact ⟨rfl, z.flushTlbs_tlb⟩

end Sys2Proof.Machine
end

section
/-! ## Registers of the window (R311, R365, R367, R389, R390, R396) -/

namespace Sys2Proof.Machine

open Sys2Proof

variable {s : State}

theorem regWrite_eq (hr : s.sys.ready = true) (r : WinReg) (v : Word) : exec (.regWrite r v) s =
    .next (match r with
      | .savePool => s.modSys fun y => { y with savePool := v &&& 0x3FFC00003FF }
      | .shadowPool => s.modSys fun y => { y with shadowPool := v &&& 0x3FFC00000FF }
      | .bhctl => s.modSys fun y => { y with bhAllow := min (bitsOf v.toNat 0 24) 0xA00000 }
      | .qctl d q => s.modDie d fun x => x.modQueue q fun k => k.writeCtl v
      | .rbase d q => s.modDie d fun x => x.modQueue q fun k => { k.ringChanged with rbase := v &&& 0xFFFFFFFFFFFFF000 }
      | .rctl d q => s.modDie d fun x => x.modQueue q fun k => k.writeRctl v
      | .mcctl d b => s.modBank d b.val fun k => k.writeCtl v
      | .mcst d b => s.modBank d b.val fun k => k.writeSt v
      | .stctl d => s.modTest d fun y =>
        { y with period := bitsOf v.toNat 16 24 }.ask (v.getLsbD 8) (bitsOf v.toNat 0 5)
      | .devctl => if v.getLsbD 1 then s.freezeClocks true else s) := by
  have hx : exec (.regWrite r v) s = _ := execRegWrite.eq_def ..
  rw [if_neg (by rw [hr]; decide)] at hx
  refine hx.trans ?_
  cases r <;> rfl

theorem bitsOf_eq (x lo len : Nat) : bitsOf x lo len = x / 2 ^ lo % 2 ^ len := by
  rw [bitsOf, Nat.shiftRight_eq_div_pow]

theorem devctlWrite_spec (hr : s.sys.ready = true) (v : Word) : ∃ u, exec (.regWrite .devctl v) s = .next u ∧
    (v.getLsbD 1 = false ∨ s.sys.hold ≠ none → u = s) ∧
    (v.getLsbD 1 = true → s.sys.hold = none → u = { s with sys := { s.sys with frozen := true, freezeBit := true } }) := by
  refine ⟨_, regWrite_eq hr .devctl v, fun h => ?_, fun hv hh => ?_⟩
  · rcases h with h | h
    · exact if_neg (by rw [h]; decide)
    · have hz : s.freezeClocks true = s := if_pos (Option.isSome_iff_ne_none.2 h)
      dsimp only
      rw [hz, ite_self]
  · dsimp only
    have hn : ¬ s.holding = true := by
      rw [State.holding, hh]
      decide
    rw [if_pos hv, State.freezeClocks, if_neg hn, State.modSys, Bool.or_true]

/-- The bits of a mask are those that `p` names. -/
theorem getLsbD_mask {m : Word} {p : Nat → Bool} (hlt : ∀ i : Fin 64, m.getLsbD i.val = p i.val) (hge : ∀ b, 64 ≤ b → p b = false)
    (v : Word) (b : Nat) : (v &&& m).getLsbD b = (v.getLsbD b && p b) := by
  rw [BitVec.getLsbD_and]
  by_cases hb : b < 64
  · exact congrArg (v.getLsbD b && ·) (hlt ⟨b, hb⟩)
  · rw [hge b (by omega), BitVec.getLsbD_of_ge v b (by omega)]
    rfl

theorem savePoolWrite_spec (hr : s.sys.ready = true) (v : Word) : ∃ u, exec (.regWrite .savePool v) s = .next u ∧
    ∀ b, u.sys.savePool.getLsbD b = (v.getLsbD b && decide (b < 10 ∨ 30 ≤ b ∧ b < 42)) :=
  ⟨_, regWrite_eq hr .savePool v, getLsbD_mask (p := fun b => decide (b < 10 ∨ 30 ≤ b ∧ b < 42)) (by decide)
    (fun b hb => decide_eq_false (by omega)) v⟩

theorem shadowPoolWrite_spec (hr : s.sys.ready = true) (v : Word) : ∃ u, exec (.regWrite .shadowPool v) s = .next u ∧
    ∀ b, u.sys.shadowPool.getLsbD b = (v.getLsbD b && decide (b < 8 ∨ 30 ≤ b ∧ b < 42)) :=
  ⟨_, regWrite_eq hr .shadowPool v, getLsbD_mask (p := fun b => decide (b < 8 ∨ 30 ≤ b ∧ b < 42)) (by decide)
    (fun b hb => decide_eq_false (by omega)) v⟩

theorem bhctlWrite_spec (hr : s.sys.ready = true) (v : Word) : ∃ u, exec (.regWrite .bhctl v) s = .next u ∧
    u = { s with sys := { s.sys with
      bhAllow := if v.toNat % 2 ^ 24 ≤ 0xA00000 then v.toNat % 2 ^ 24 else 0xA00000 } } := by
  refine ⟨_, regWrite_eq hr .bhctl v, ?_⟩
  dsimp only
  rw [bitsOf_eq, Nat.pow_zero, Nat.div_one, Nat.min_def]
  rfl

theorem toNat_pageMask (v : Word) : (v &&& 0xFFFFFFFFFFFFF000).toNat = v.toNat / 2 ^ 12 * 2 ^ 12 := by
  have hm : v &&& (0xFFFFFFFFFFFFF000 : Word) = (v >>> 12) <<< 12 := by
    refine BitVec.eq_of_getLsbD_eq fun b hb => ?_
    rw [getLsbD_mask (p := fun b => decide (12 ≤ b ∧ b < 64)) (by decide) (fun b hb => decide_eq_false (by omega)) v b,
      BitVec.getLsbD_shiftLeft, BitVec.getLsbD_ushiftRight]
    by_cases h : b < 12
    · simp [h]
    · simp [h, hb, show 12 ≤ b by omega, Nat.add_sub_cancel' (show 12 ≤ b by omega)]
  have := v.isLt
  rw [hm, BitVec.toNat_shiftLeft, BitVec.toNat_ushiftRight, Nat.shiftRight_eq_div_pow, Nat.shiftLeft_eq]
  omega

variable {d : DieId}

theorem qctlWrite_spec (hr : s.sys.ready = true) (q : QueueId) (v : Word) : let k := (s.die d).queue q
    ∃ u, exec (.regWrite (.qctl d q) v) s = .next u ∧ (u.die d).queue q =
      { k with frozen := k.frozen && !v.getLsbD 11, en := v.getLsbD 10, maxprio := v.toNat % 8 } := by
  intro k
  refine ⟨_, regWrite_eq hr (.qctl d q) v, (State.queue_modQueue s d q _).1.trans ?_⟩
  rw [LQueue.writeCtl, bitsOf_eq, Nat.pow_zero, Nat.div_one]
  rfl

theorem rbaseWrite_spec (hr : s.sys.ready = true) (q : QueueId) (v : Word) : let k := (s.die d).queue q
    ∃ u, exec (.regWrite (.rbase d q) v) s = .next u ∧ let m := (u.die d).queue q
      m.rbase.toNat = v.toNat / 2 ^ 12 * 2 ^ 12 ∧ m = { k with rbase := m.rbase, openSlots := m.openSlots } ∧
      (k.head = k.tail → m.openSlots = k.openSlots) := by
  intro k
  let f (k : LQueue) : LQueue := { k.ringChanged with rbase := v &&& 0xFFFFFFFFFFFFF000 }
  refine ⟨_, regWrite_eq hr (.rbase d q) v, ?_⟩
  have hm := (State.queue_modQueue s d q f).1
  dsimp only
  rw [hm]
  refine ⟨?_, rfl, fun h => ?_⟩
  · exact toNat_pageMask v
  · show (k.openSlots || k.head != k.tail) = k.openSlots
    rw [h, bne_self_eq_false, Bool.or_false]

theorem rctlWrite_spec (hr : s.sys.ready = true) (q : QueueId) (v : Word) : let k := (s.die d).queue q
    ∃ u, exec (.regWrite (.rctl d q) v) s = .next u ∧ let m := (u.die d).queue q
      let n := v.toNat % 2 ^ 5
      m.badTail = (k.badTail && !v.getLsbD 31) ∧ m.log2 = (if 4 ≤ n ∧ n ≤ 16 then n else k.log2) ∧ m.rbase = k.rbase ∧
      m.head = k.head ∧ m.tail = k.tail := by
  intro k
  let f (k : LQueue) : LQueue := k.writeRctl v
  refine ⟨_, regWrite_eq hr (.rctl d q) v, ?_⟩
  have hm := (State.queue_modQueue s d q f).1
  dsimp only
  rw [hm]
  have hn : bitsOf v.toNat 0 5 = v.toNat % 2 ^ 5 := rfl
  have hf : f k = _ := LQueue.writeRctl.eq_def k v
  rw [hn] at hf
  rw [hf]
  dsimp only
  split
  · exact ⟨rfl, rfl, rfl, rfl, rfl⟩
  · exact ⟨rfl, rfl, rfl, rfl, rfl⟩

theorem State.bank_modBank (s : State) (d : DieId) (b : Nat) (f : McBank → McBank) :
    ((s.modBank d b f).die d).bank b = f ((s.die d).bank b) := by
  rw [State.modBank, State.die_modDie_same, Die.bank, Map.get_set_same]

theorem mcctlWrite_spec (hr : s.sys.ready = true) (b : Fin 48) (v : Word) : let k := (s.die d).bank b.val
    ∃ u, exec (.regWrite (.mcctl d b) v) s = .next u ∧ (u.die d).bank b.val = { k with
      thresh := v.toNat / 2 ^ 32 % 2 ^ 16, leak := v.toNat / 2 ^ 16 % 2 ^ 8, xint := v.getLsbD 1, cint := v.getLsbD 0 } := by
  intro k
  refine ⟨_, regWrite_eq hr (.mcctl d b) v, (State.bank_modBank ..).trans ?_⟩
  rw [McBank.writeCtl, bitsOf_eq, bitsOf_eq]

theorem mcstWrite_spec (hr : s.sys.ready = true) (b : Fin 48) (v : Word) : let k := (s.die d).bank b.val
    ∃ u, exec (.regWrite (.mcst d b) v) s = .next u ∧ (u.die d).bank b.val = { k with
      val := k.val && !v.getLsbD 63, events := if v.getLsbD 63 then 0 else k.events, past := k.past && !v.getLsbD 62 } := by
  intro k
  refine ⟨_, regWrite_eq hr (.mcst d b) v, (State.bank_modBank ..).trans ?_⟩
  rw [McBank.writeSt]
  cases v.getLsbD 63
  · rw [Bool.not_false, Bool.and_true]
    rfl
  · rw [Bool.not_true, Bool.and_false]
    rfl

theorem stctlWrite_spec (hr : s.sys.ready = true) (v : Word) : let y := (s.die d).test
    ∃ u, exec (.regWrite (.stctl d) v) s = .next u ∧ (u.die d).test = { y with
      period := v.toNat / 2 ^ 16 % 2 ^ 24, req := v.getLsbD 8, crew := v.toNat % 2 ^ 5,
      queue := if v.getLsbD 8 && !y.req then y.queue ++ [v.toNat % 2 ^ 5] else y.queue } := by
  intro y
  refine ⟨_, regWrite_eq hr (.stctl d) v, ?_⟩
  dsimp only
  rw [State.modTest, State.die_modDie_same, bitsOf_eq, bitsOf_eq, Nat.pow_zero, Nat.div_one]
  rfl

end Sys2Proof.Machine
end

section
/-! ## Kernel images (R47, R393) -/

namespace Sys2Proof.Machine

open Sys2Proof

variable {s : State}

/-! ### The module's registers in the making of extents -/

theorem State.deviceWrite_sys (s : State) (l : List (Nat × Byte × Byte)) : (s.deviceWrite l).sys = s.sys := by
  induction l generalizing s with
  | nil => rfl
  | cons x l ih =>
    obtain ⟨a, b, mask⟩ := x
    rw [State.deviceWrite]
    split
    · exact ih _
    · exact ih s

theorem State.nextEpoch_sys (s : State) (e : Nat) : (s.nextEpoch e).1.sys = s.sys := by
  rw [State.nextEpoch]
  dsimp only
  split <;> rfl

theorem State.dropTlb_sys (s : State) (e : Nat) : (s.dropTlb e).sys = s.sys := rfl

theorem State.makeExtent_sys (s : State) (r : ExtRec) (acap full : Bool) : (s.makeExtent r acap full).1.sys = s.sys := by
  rw [State.makeExtent]
  split
  · rfl
  extract_lets bytes pg n cellBytes cpg cn rg used
  clear_value cellBytes cpg
  (split; · rfl)
  (split; · rfl)
  (split; · rfl)
  (split; · rfl)
  dsimp only
  rw [State.tick_sys, State.dropTlb_sys, State.modDev_sys]
  exact s.nextEpoch_sys _

theorem State.makeExtents_sys (s : State) (l : List Byte) (es : List (List Byte)) (made : List Nat) :
    (s.makeExtents l es made).1.sys = s.sys := by
  induction es generalizing s made with
  | nil => rfl
  | cons e es ih =>
    rw [State.makeExtents]
    dsimp only
    have hm := s.makeExtent_sys (extRecOf e) (bitOf (extRecOf e).flags 0) ((extRecOf e).init != 0xFFFFFFFF)
    split
    · rfl
    split
    · next v id heq =>
      rw [heq] at hm
      refine (ih _ _).trans (Eq.trans ?_ hm)
      split
      · split
        · rfl
        · exact State.deviceWrite_sys ..
      · rfl
    · next v n _ heq => rwa [heq] at hm

theorem State.extfree_sys (s : State) (e : Nat) : (s.extfree e).sys = s.sys := by
  rw [State.extfree, State.dropTlb_sys, State.modDev_sys, State.nextEpoch_sys]

theorem State.foldl_extfree_sys (s : State) (l : List Nat) : (l.foldl (fun s i => s.extfree i) s).sys = s.sys :=
  foldl_keeps (p := fun u : State => u.sys = s.sys) (fun u i hu => (u.extfree_sys i).trans hu) rfl

/-! ### Handles (log entry 7) -/

/-- The handle of an image, of those in use and the one that the package names. -/
def freshHandle (used : List Word) (h : Word) : Word :=
  if h = 0 ∨ used.contains h then
    BitVec.ofNat 64 (((List.range (used.length + 1)).find? fun n => !used.contains (BitVec.ofNat 64 (n + 1))).getD 0 + 1)
  else h

/-- Of `n + 1` numbers from 1 on, one is not among `n` words. -/
theorem exists_unused {used : List Word} (hu : used.length < 2 ^ 32) :
    ∃ n ∈ List.range (used.length + 1), (!used.contains (BitVec.ofNat 64 (n + 1))) = true := by
  by_contra hc
  have hall : ∀ n ∈ List.range (used.length + 1), BitVec.ofNat 64 (n + 1) ∈ used := fun n hn => by
    by_contra hm
    exact hc ⟨n, hn, by rw [Bool.not_eq_true', ← Bool.not_eq_true, List.contains_iff_mem]; exact hm⟩
  have hnodup : ((List.range (used.length + 1)).map fun n => BitVec.ofNat 64 (n + 1)).Nodup := by
    refine List.Nodup.map_on (fun a ha b hb h => ?_) List.nodup_range
    have h := congrArg BitVec.toNat h
    rw [List.mem_range] at ha hb
    rw [BitVec.toNat_ofNat, BitVec.toNat_ofNat] at h
    omega
  have hsub : ((List.range (used.length + 1)).map fun n => BitVec.ofNat 64 (n + 1)) ⊆ used := fun x hx => by
    obtain ⟨n, hn, rfl⟩ := List.mem_map.1 hx
    exact hall n hn
  have := (List.subperm_of_subset hnodup hsub).length_le
  rw [List.length_map, List.length_range] at this
  omega

theorem freshHandle_spec {used : List Word} (hu : used.length < 2 ^ 32) (h : Word) : freshHandle used h ≠ 0 ∧ freshHandle used h ∉ used := by
  rw [freshHandle]
  split
  next hh =>
    obtain ⟨m, hm, hp⟩ := exists_unused hu
    cases hf : (List.range (used.length + 1)).find? fun n => !used.contains (BitVec.ofNat 64 (n + 1)) with
    | none => exact absurd hp (List.find?_eq_none.1 hf m hm)
    | some n =>
      have hn := List.mem_range.1 (List.mem_of_find?_eq_some hf)
      have hp := List.find?_some hf
      rw [Bool.not_eq_true', ← Bool.not_eq_true, List.contains_iff_mem] at hp
      refine ⟨fun h0 => ?_, hp⟩
      have h0 := congrArg BitVec.toNat h0
      rw [Option.getD_some, BitVec.toNat_ofNat] at h0
      simp at h0
      omega
  next hh =>
    rw [not_or, List.contains_iff_mem] at hh
    exact hh

/-! ### Reads where nothing is bad -/

/-- R21, R359: with no bad granule and no retired channel a read by the tables has its bytes. -/
theorem State.deviceLoad_flawless {a n : Nat} (hf : s.dev.flaws = []) (hp : s.dev.poison = []) (hc : s.dev.retiredChannels = [])
    (ht : ∀ x q, a < x + 256 → x < a + n → s.walk x = some q → pteTier q.pte ≠ 2) :
    s.deviceLoad a n = (s, some (s.deviceRead a n)) := by
  have hread (tier phys : Nat) : s.checkedRead none tier phys 256 .good = (s, true) := by
    have hfound (l : List Site) : s.dev.found l .good = .good := if_pos (by rw [hf]; rfl)
    rw [State.checkedRead]
    split
    · have hbad : s.dev.hbmBad phys = false := by
        rw [DevMem.hbmBad, hp, hc]
        rfl
      have hx := State.readHbm.eq_def s none phys 256 .good
      rw [hbad, hc] at hx
      refine hx.trans ?_
      dsimp only [List.contains_nil]
      rw [hfound]
      rfl
    · dsimp only
      rw [hfound]
  have hfold : ∀ us : List Nat, (∀ u ∈ us, a < 256 * u + 256 ∧ 256 * u < a + n) → us.foldl (fun (c : State × Bool) u =>
      match s.walk (256 * u) with
      | some p =>
        if pteTier p.pte = 2 then (c.1, false)
        else if c.2 then c.1.checkedRead none (pteTier p.pte) (p.at' (256 * u)) 256 .good else c
      | none => c) (s, true) = (s, true) := fun us => by
    induction us with
    | nil => exact fun _ => rfl
    | cons u us ih =>
      intro hus
      obtain ⟨hu, hus⟩ := List.forall_mem_cons.1 hus
      rw [List.foldl_cons]
      refine Eq.trans (congrArg (List.foldl _ · us) ?_) (ih hus)
      cases hw : s.walk (256 * u) with
      | none => rfl
      | some q => exact (if_neg (ht _ q hu.1 hu.2 hw)).trans (hread ..)
  have h := hfold (numbersFrom (a / 256) (ceilDiv (a + n) 256 - a / 256)) fun u hu => by
    obtain ⟨h1, h2⟩ := mem_numbersFrom.1 hu
    rw [ceilDiv] at h2
    omega
  exact congrArg (fun r : State × Bool => (r.1, if r.2 then some (r.1.deviceRead a n) else none)) h

/-! ### The write of IMGADDR -/

/-- R393: what a write of IMGADDR leaves of it, of the handle and of the images. -/
structure ImageLoaded (s u : State) (v : Word) : Prop where
  addr : u.sys.imgaddr = v
  handle : u.sys.imghandle = 0 ∧ u.sys.images = s.sys.images ∨ u.sys.imghandle ≠ 0 ∧ ∃ f,
    u.sys.images = (u.sys.imghandle, f) :: s.sys.images ∧ ∀ g ∈ s.sys.images, g.1 ≠ u.sys.imghandle

/-- A state in which IMGADDR is written and no image is there. -/
def State.imageAsked (s : State) (v : Word) : State := s.modSys fun y => { y with imgaddr := v, imghandle := 0 }

theorem ImageLoaded.refused {u : State} {v : Word} (h : u.sys = (s.imageAsked v).sys) : ImageLoaded s u v :=
  ⟨by rw [h]; rfl, .inl ⟨by rw [h]; rfl, by rw [h]; rfl⟩⟩

theorem ImageLoaded.made {z u : State} {v h : Word} {f : Image} (hl : s.sys.images.length < 2 ^ 32) (hz : z.sys = (s.imageAsked v).sys)
    (hu : u.sys = { z.sys with
      imghandle := freshHandle (z.sys.images.map Prod.fst) h,
      images := (freshHandle (z.sys.images.map Prod.fst) h, f) :: z.sys.images }) : ImageLoaded s u v := by
  have hi : z.sys.images = s.sys.images := by rw [hz]; rfl
  obtain ⟨h0, hn⟩ := freshHandle_spec (used := z.sys.images.map Prod.fst) (by rw [hi, List.length_map]; exact hl) h
  refine ⟨by rw [hu, hz]; rfl, .inr ?_⟩
  rw [hu]
  refine ⟨h0, f, congrArg (_ :: ·) hi, fun g hg he => hn ?_⟩
  dsimp only at he
  rw [← he, hi]
  exact List.mem_map_of_mem hg

theorem imgaddrWrite_loaded (hr : s.sys.ready = true) (v : Word) (hl : s.sys.images.length < 2 ^ 32) :
    ∃ u, exec (.imgaddrWrite v) s = .next u ∧ ImageLoaded s u v := by
  have hx : exec (.imgaddrWrite v) s = _ := execImgaddrWrite.eq_def ..
  rw [if_neg (by rw [hr]; decide)] at hx
  rw [hx]
  extract_lets s1
  have h1 : s1 = s.imageAsked v := rfl
  clear_value s1
  subst h1
  split
  · exact ⟨_, rfl, .refused rfl⟩
  split
  · exact ⟨_, rfl, .refused rfl⟩
  split
  · exact ⟨_, rfl, .refused rfl⟩
  extract_lets room head size body s2 l entries
  have h2 : s2.sys = (s.imageAsked v).sys := by
    have hh : head.1.sys = (s.imageAsked v).sys := (readKeeps_deviceLoad ..).sys
    simp only [s2, body]
    split
    · exact (readKeeps_deviceLoad ..).sys.trans hh
    · exact hh
  clear_value s2
  split
  · exact ⟨_, rfl, .refused h2⟩
  have hm := (s2.makeExtents_sys l entries []).trans h2
  split
  next heq =>
    rw [heq] at hm
    exact ⟨_, rfl, .made hl hm rfl⟩
  next heq =>
    rw [heq] at hm
    exact ⟨_, rfl, .refused ((State.foldl_extfree_sys ..).trans hm)⟩

theorem imgaddrWrite_unmapped (hr : s.sys.ready = true) {v : Word} (hw : s.walk v.toNat = none) :
    exec (.imgaddrWrite v) s = .next (s.imageAsked v) := by
  have hx : exec (.imgaddrWrite v) s = _ := execImgaddrWrite.eq_def ..
  rw [if_neg (by rw [hr]; decide)] at hx
  have hw' : (s.imageAsked v).walk v.toNat = none := hw
  rw [hx]
  extract_lets s1
  have h1 : s1 = s.imageAsked v := rfl
  clear_value s1
  subst h1
  rw [hw']

theorem imageOk_nil (size : Nat) : imageOk [] size = false := by
  have h : (recField [] 0 4 == 0x4C424E45) = false := by decide
  rw [imageOk, h]
  rfl

/-- The image of a write of IMGADDR, its bytes read by the tables. -/
theorem imgaddrWrite_read (hr : s.sys.ready = true) {v : Word} {p : Page} {e : Extent} {k : Nat} {g : Segment}
    (hw : s.walk v.toNat = some p) (he : s.extent? (pteExt p.pte) = some e)
    (hg : e.segOf (e.elemsAt (v.toNat - e.base)).1 = some (k, g))
    (hf : s.dev.flaws = []) (hp : s.dev.poison = []) (hc : s.dev.retiredChannels = []) :
    let room := e.base + (g.stop * e.bits) / 8 - v.toNat
    let size := imageSize (s.deviceRead v.toNat (min 80 room))
    let l := s.deviceRead v.toNat size
    (∀ x q, v.toNat < x + 256 → x < v.toNat + room → s.walk x = some q → pteTier q.pte ≠ 2) →
    (g.st ≠ .i ∨ room < size ∨ imageOk l size = false → exec (.imgaddrWrite v) s = .next (s.imageAsked v)) ∧
    (g.st = .i → size ≤ room → imageOk l size = true → (imagePart l 6).2 = 0 → ∃ u h, exec (.imgaddrWrite v) s = .next u ∧
      u.sys.imghandle = freshHandle (s.sys.images.map Prod.fst) h ∧
      u.sys.images = (u.sys.imghandle, ⟨partBytes l 0, Vector.ofFn fun k => partBytes l (k.val + 1)⟩) :: s.sys.images) := by
  intro room size l ht
  have hx : exec (.imgaddrWrite v) s = _ := execImgaddrWrite.eq_def ..
  rw [if_neg (by rw [hr]; decide)] at hx
  rw [hx]
  extract_lets z
  have hz : z = s.imageAsked v := rfl
  have hw' : z.walk v.toNat = some p := hw
  have he' : z.extent? (pteExt p.pte) = some e := he
  have hload (n : Nat) (hn : n ≤ room) : z.deviceLoad v.toNat n = (z, some (s.deviceRead v.toNat n)) :=
    State.deviceLoad_flawless (s := z) hf hp hc fun x q h1 h2 h3 => ht x q h1 (by omega) h3
  clear_value z
  subst hz
  split
  next hn => exact absurd (hn.symm.trans hw') (Option.some_ne_none p).symm
  next p' hp' =>
  obtain rfl := Option.some.inj (hw'.symm.trans hp')
  split
  next hn => exact absurd (hn.symm.trans he') (Option.some_ne_none e).symm
  next e' hq =>
  obtain rfl := Option.some.inj (he'.symm.trans hq)
  split
  next hn => exact absurd (hn.symm.trans hg) (Option.some_ne_none _).symm
  next k' g' hq =>
  obtain ⟨rfl, rfl⟩ := Prod.mk.inj (Option.some.inj (hg.symm.trans hq))
  extract_lets head size' body s2 l' entries
  have hhead : head = (s.imageAsked v, some (s.deviceRead v.toNat (min 80 room))) := hload _ (Nat.min_le_right ..)
  have hsize : size' = size := by rw [show size' = imageSize (head.2.getD []) from rfl, hhead]; rfl
  have hbody : body = if size ≤ room then (s.imageAsked v, some l) else (s.imageAsked v, none) := by
    rw [show body = if size' ≤ room then head.1.deviceLoad v.toNat size' else (head.1, none) from rfl, hhead, hsize]
    split
    next hle => exact hload _ hle
    next => rfl
  have hs2 : s2 = s.imageAsked v := by
    rw [show s2 = body.1 from rfl, hbody]
    split <;> rfl
  have hl' : l' = if size ≤ room then l else [] := by
    rw [show l' = body.2.getD [] from rfl, hbody]
    split <;> rfl
  have hent : (imagePart l' 6).2 = 0 → entries = [] := fun h => by
    rw [show entries = extEntries (partBytes l' 6) ((imagePart l' 6).2 / 32) from rfl, h]
    rfl
  clear_value entries s2 l' size' l
  subst hs2 hsize hl'
  by_cases hle : size ≤ room
  · rw [if_pos hle] at hent ⊢
    refine ⟨fun h => if_pos ?_, fun hi _ hok hempty => ?_⟩
    · rcases h with h | h | h
      · exact .inl h
      · omega
      · exact .inr (.inl h)
    · rw [hent hempty, if_neg (by rw [hi, hok]; simp)]
      exact ⟨_, _, rfl, rfl, rfl⟩
  · rw [if_neg hle]
    exact ⟨fun _ => if_pos (.inr (.inl (imageOk_nil size))), fun _ h => absurd h hle⟩

/-- Settles O52, write by write: nothing before READY, then the tables, the Signal words, IMGADDR, CTXFLUSH and each register. -/
theorem windowWrites : Obligations.WindowWrites := by
  refine fun s => ⟨fun hr i hi => window_notReady hr hi, State.hostWrite_notReady,
    fun hf off ho v h => State.windowRead_bootfail hf ho h, fun hr => ⟨fun d k v => ?_, peerTableWrite_spec hr,
      signalWindowWrite_spec hr, fun v hl => ?_, ctxflushWrite_spec hr, fun v => ?_⟩⟩
  · intro kind owner ok
    have hok : ok ↔ pitchOk v = true := pitchOk_iff v
    rw [hok, Bool.not_eq_true]
    exact ⟨pitchWrite_ignored d k, pitchWrite_spec hr k⟩
  · obtain ⟨u, hu, hloaded⟩ := imgaddrWrite_loaded hr v hl
    refine ⟨u, hu, hloaded.addr, hloaded.handle, fun hw => ?_, fun p e k g hw he hg => ?_⟩
    · rw [Host.Outcome.next.inj (hu.symm.trans (imgaddrWrite_unmapped hr hw))]
      rfl
    · intro room size l hf hp hc ht
      obtain ⟨h1, h2⟩ := imgaddrWrite_read hr hw he hg hf hp hc ht
      refine ⟨fun h => ?_, fun hi hle hok hempty => ?_⟩
      · rw [Host.Outcome.next.inj (hu.symm.trans (h1 h))]
        rfl
      · obtain ⟨w, n, hx, hn, him⟩ := h2 hi hle hok hempty
        rw [← Host.Outcome.next.inj (hu.symm.trans hx)] at hn him
        refine ⟨?_, _, him, rfl, fun i => ?_⟩
        · rw [hn]
          exact (freshHandle_spec (by rw [List.length_map]; exact hl) n).1
        · rw [Fin.getElem_fin, Vector.getElem_ofFn]
  · exact ⟨devctlWrite_spec hr v, savePoolWrite_spec hr v, shadowPoolWrite_spec hr v, bhctlWrite_spec hr v,
      fun d q => ⟨qctlWrite_spec hr q v, rbaseWrite_spec hr q v, rctlWrite_spec hr q v⟩,
      fun d b => ⟨mcctlWrite_spec hr b v, mcstWrite_spec hr b v⟩, fun d => stctlWrite_spec hr v⟩

end Sys2Proof.Machine
end

section
/-! ## Machine-check banks (R355, R363, R365, R366) -/

namespace Sys2Proof.Machine

open Sys2Proof

variable {s : State}

/-! ### A detected event, and the events of a cycle -/

theorem State.recordMc_spec (s : State) (d : DieId) (b : Nat) (e : McEvent) :
    let u := s.recordMc d b e
    (u.die d).events = (s.die d).events ++ [(b, e)] ∧ (∀ j, (u.die d).bank j = (s.die d).bank j) ∧
    (e.cls = 3 → (u.die d).frozen = true) ∧ (e.cls ≠ 3 → (u.die d).frozen = (s.die d).frozen) ∧
    u.tiles = s.tiles ∧ u.dev = s.dev ∧ u.sys = s.sys := by
  intro u
  have hd : u.die d = _ := State.recordMc_die s d b e
  rw [hd]
  refine ⟨rfl, fun _ => rfl, fun h => ?_, fun h => ?_, rfl, rfl, rfl⟩
  · exact Bool.or_eq_true_iff.2 (.inr (beq_iff_eq.2 h))
  · exact (congrArg _ (beq_false_of_ne h)).trans (Bool.or_false _)

/-- R366: the events of one die of a cycle. -/
def State.applyDie (s : State) (d : DieId) : State :=
  if (s.die d).ranked.isEmpty then s
  else (s.die d).ranked.foldl (fun s e => s.applyMc d e.1 e.2) (s.modDie d fun x => { x with events := [] })

theorem State.applyEvents_eq (s : State) : s.applyEvents = (((s.applyDie 0).applyDie 1).applyDie 2).applyDie 3 := by
  have h : s.applyEvents = (List.range 4).foldl (fun s k => s.applyDie (Fin.ofNat 4 k)) s := rfl
  have hr : List.range 4 = [0, 1, 2, 3] := by decide
  rw [h, hr]
  simp only [List.foldl_cons, List.foldl_nil]
  rfl

theorem State.applyDie_empty {d : DieId} (h : (s.die d).events = []) : s.applyDie d = s := by
  refine if_pos ?_
  rw [Die.ranked, h]
  rfl

theorem Die.ranked_one {x : Die} {b : Nat} {e : McEvent} (h1 : 1 ≤ e.cls) (h3 : e.cls ≤ 3) (h : x.events = [(b, e)]) :
    x.ranked = [(b, e)] := by
  rw [Die.ranked, h]
  obtain h | h | h : e.cls = 1 ∨ e.cls = 2 ∨ e.cls = 3 := by omega
  all_goals simp [h]

theorem State.applyDie_one {d : DieId} {b : Nat} {e : McEvent} (h1 : 1 ≤ e.cls) (h3 : e.cls ≤ 3) (h : (s.die d).events = [(b, e)]) :
    s.applyDie d = (s.modDie d fun x => { x with events := [] }).applyMc d b e := by
  rw [State.applyDie, Die.ranked_one h1 h3 h]
  rfl

/-! ### What an event does to its bank -/

theorem State.raiseVector_dies (s : State) (c : Prop) [Decidable c] (v : Nat) :
    let u := if c then s.raiseVector v else s
    u.dies = s.dies ∧ u.fab = s.fab ∧ u.tiles = s.tiles ∧ u.dev = s.dev ∧ (c → v < 2048 → u.sys.msix.getLsbD v = true) := by
  intro u
  by_cases hc : c
  · rw [show u = s.raiseVector v from if_pos hc]
    refine ⟨rfl, rfl, rfl, rfl, fun _ hv => ?_⟩
    show (s.sys.msix ||| BitVec.ofNat 2048 (2 ^ v)).getLsbD v = true
    rw [BitVec.getLsbD_or, BitVec.getLsbD_ofNat, Nat.testBit_two_pow_self]
    simp [hv]
  · rw [show u = s from if_neg hc]
    exact ⟨rfl, rfl, rfl, rfl, fun h => absurd h hc⟩

theorem State.promote_die_ne {d f : DieId} (h : f ≠ d) (s : State) (b : Nat) : (s.promote d b).die f = s.die f := by
  rw [State.promote]
  split
  · exact State.die_modDie_ne _ _ _ _ h
  · split
    · dsimp only
      split
      · rfl
      · exact State.die_modDie_ne _ _ _ _ h
    · rfl

theorem State.applyMc_die_ne {d f : DieId} (h : f ≠ d) (s : State) (b : Nat) (e : McEvent) : (s.applyMc d b e).die f = s.die f := by
  let k := (s.die d).bank b
  let y := s.modDie d fun x => { x with banks := x.banks.set b (k.record e) }
  let z := if k.promotes then y.promote d b else y
  obtain ⟨h1, -⟩ := State.raiseVector_dies z
    ((e.cls = 1 ∧ k.cint = true) ∨ (e.cls = 2 ∧ k.xint = true) ∨ e.cls = 3) (2044 + d.val)
  have hy : y.die f = s.die f := State.die_modDie_ne _ _ _ _ h
  have hz : z.die f = s.die f := by
    by_cases hk : k.promotes = true
    · rw [show z = y.promote d b from if_pos hk, State.promote_die_ne h, hy]
    · rw [show z = y from if_neg hk, hy]
  exact (congrArg (fun m => Map.get m f.val Die.reset) h1).trans hz

/-- R366: the only event of a cycle. -/
theorem State.applyEvents_one {d : DieId} {b : Nat} {e : McEvent} (h1 : 1 ≤ e.cls) (h3 : e.cls ≤ 3) (h : (s.die d).events = [(b, e)])
    (ho : ∀ f, f ≠ d → (s.die f).events = []) : s.applyEvents = (s.modDie d fun x => { x with events := [] }).applyMc d b e := by
  have hd := State.applyDie_one h1 h3 h
  have hrest (f : DieId) (hf : f ≠ d) : (s.applyDie d).applyDie f = s.applyDie d := by
    refine State.applyDie_empty ?_
    rw [hd, State.applyMc_die_ne hf, State.die_modDie_ne _ _ _ _ hf]
    exact ho f hf
  have hfirst (f : DieId) (hf : f ≠ d) : s.applyDie f = s := State.applyDie_empty (ho f hf)
  rw [State.applyEvents_eq, ← hd]
  have hcases : ∀ d : DieId, d = 0 ∨ d = 1 ∨ d = 2 ∨ d = 3 := by decide
  obtain rfl | rfl | rfl | rfl := hcases d
  · rw [hrest 1 (by decide), hrest 2 (by decide), hrest 3 (by decide)]
  · rw [hfirst 0 (by decide), hrest 2 (by decide), hrest 3 (by decide)]
  · rw [hfirst 0 (by decide), hfirst 1 (by decide), hrest 3 (by decide)]
  · rw [hfirst 0 (by decide), hfirst 1 (by decide), hfirst 2 (by decide)]

/-- R366: a bank after an event. -/
theorem McBank.record_spec (k : McBank) (e : McEvent) :
    let m := k.record e
    m.events = min (k.events + 1) 65535 ∧ m.bucket = min (k.bucket + 1) 65535 ∧
    (m.lasting = true ↔ k.lasting = true ∨ k.promotes = true) ∧
    (k.val = false ∨ k.cls ≤ e.cls → m.val = true ∧ m.cls = e.cls ∧ m.code = e.code ∧ m.unit = e.unit ∧
      m.past = (k.past || k.val) ∧ m.addr = (e.addr.map Prod.snd).getD 0) ∧
    (k.val = true → e.cls < k.cls → m.past = true ∧ m.cls = k.cls ∧ m.code = k.code) := by
  intro m
  have hm : m = _ := McBank.record.eq_def k e
  dsimp only at hm
  have hl : (k.lasting || (decide (k.thresh ≠ 0) && decide (k.thresh ≤ sat16 (k.bucket + 1)))) = true ↔
      k.lasting = true ∨ k.promotes = true := Bool.or_eq_true_iff
  by_cases h : k.val = false ∨ k.cls ≤ e.cls
  · rw [if_pos h] at hm
    rw [hm]
    refine ⟨rfl, rfl, hl, fun _ => ⟨rfl, rfl, rfl, rfl, rfl, ?_⟩, fun h1 h2 => absurd h (by rw [h1]; simp; omega)⟩
    dsimp only
    cases e.addr <;> rfl
  · rw [if_neg h] at hm
    rw [hm]
    exact ⟨rfl, rfl, hl, fun h' => absurd h' h, fun _ _ => ⟨rfl, rfl, rfl⟩⟩

theorem McBank.promotes_iff (k : McBank) : k.promotes = true ↔ k.thresh ≠ 0 ∧ k.thresh ≤ min (k.bucket + 1) 65535 := by
  rw [McBank.promotes, Bool.and_eq_true, decide_eq_true_iff, decide_eq_true_iff, sat16]

/-- R363, R366, R367: what a bank's promotion does. -/
theorem State.promote_spec (s : State) (d : DieId) (b : Nat) :
    let u := s.promote d b
    let port := 8 * d.val + (b - 38)
    (b < 32 → (u.die d).test.queue = (s.die d).test.queue ++ [b]) ∧
    (∀ j, j ≠ b → (u.die d).bank j = (s.die d).bank j) ∧ u.tiles = s.tiles ∧ u.dev = s.dev ∧
    (38 ≤ b → b ≤ 45 → port ∉ s.fab.linkRetired → port ∈ u.fab.linkRetired ∧
      (u.die d).bank b = ((s.die d).bank b).record ⟨1, cMCLINK, 0, none, none⟩) ∧
    (¬(38 ≤ b ∧ b ≤ 45 ∧ port ∉ s.fab.linkRetired) → (u.die d).bank b = (s.die d).bank b) := by
  intro u port
  have hu : u = _ := State.promote.eq_def s d b
  by_cases hb : b < 32
  · rw [if_pos hb] at hu
    have hd : u.die d = (s.die d).requestTest b := by rw [hu, State.die_modDie_same]
    rw [hd]
    refine ⟨fun _ => rfl, fun _ _ => rfl, by rw [hu]; rfl, by rw [hu]; rfl, fun h => by omega, fun _ => rfl⟩
  · rw [if_neg hb] at hu
    by_cases hp : 38 ≤ b ∧ b ≤ 45
    · rw [if_pos hp] at hu
      dsimp only at hu
      by_cases hr : s.fab.linkRetired.contains port = true
      · rw [if_pos hr] at hu
        rw [hu]
        exact ⟨fun h => absurd h hb, fun _ _ => rfl, rfl, rfl,
          fun _ _ h => absurd (List.contains_iff_mem.1 hr) h, fun _ => rfl⟩
      · rw [if_neg hr] at hu
        have hd : u.die d = { s.die d with banks := (s.die d).banks.set b (((s.die d).bank b).record ⟨1, cMCLINK, 0, none, none⟩) } := by
          rw [hu, State.die_modDie_same]
          rfl
        rw [List.contains_iff_mem] at hr
        refine ⟨fun h => absurd h hb, fun j hj => ?_, by rw [hu]; rfl, by rw [hu]; rfl, fun _ _ _ => ⟨?_, ?_⟩,
          fun h => absurd ⟨hp.1, hp.2, hr⟩ h⟩
        · rw [hd]
          exact Map.get_set_ne _ _ _ _ _ hj
        · rw [hu]
          exact List.mem_cons_self
        · rw [hd]
          exact Map.get_set_same ..
    · rw [if_neg hp] at hu
      rw [hu]
      exact ⟨fun h => absurd h hb, fun _ _ => rfl, rfl, rfl, fun h1 h2 => absurd ⟨h1, h2⟩ hp, fun _ => rfl⟩

/-- R363, R365, R366: what an event does to its bank, its die's tests and links, and the vectors. -/
theorem State.applyMc_spec (s : State) (d : DieId) (b : Nat) (e : McEvent) :
    let k := (s.die d).bank b
    let u := s.applyMc d b e
    let m := (u.die d).bank b
    let port := 8 * d.val + (b - 38)
    let retires : Prop := k.promotes = true ∧ 38 ≤ b ∧ b ≤ 45 ∧ port ∉ s.fab.linkRetired
    (¬retires → m = k.record e) ∧
    (retires → port ∈ u.fab.linkRetired ∧ m = (k.record e).record ⟨1, cMCLINK, 0, none, none⟩) ∧
    (k.promotes = true → b < 32 → (u.die d).test.queue = (s.die d).test.queue ++ [b]) ∧
    (e.cls = 1 ∧ k.cint = true ∨ e.cls = 2 ∧ k.xint = true ∨ e.cls = 3 → u.sys.msix.getLsbD (2044 + d.val) = true) ∧
    (∀ j, j ≠ b → (u.die d).bank j = (s.die d).bank j) ∧ u.tiles = s.tiles ∧ u.dev = s.dev := by
  intro k u m port retires
  let y := s.modDie d fun x => { x with banks := x.banks.set b (k.record e) }
  let z := if k.promotes then y.promote d b else y
  obtain ⟨h1, h2, h3, h4, h5⟩ := State.raiseVector_dies z
    ((e.cls = 1 ∧ k.cint = true) ∨ (e.cls = 2 ∧ k.xint = true) ∨ e.cls = 3) (2044 + d.val)
  have hyd : y.die d = { s.die d with banks := (s.die d).banks.set b (k.record e) } := State.die_modDie_same ..
  have hyb : (y.die d).bank b = k.record e := by rw [hyd]; exact Map.get_set_same ..
  have hyj (j : Nat) (hj : j ≠ b) : (y.die d).bank j = (s.die d).bank j := by rw [hyd]; exact Map.get_set_ne _ _ _ _ _ hj
  have hyq : (y.die d).test = (s.die d).test := by rw [hyd]
  have hud : u.die d = z.die d := congrArg (fun m => Map.get m d.val Die.reset) h1
  have hm : m = (z.die d).bank b := congrArg (·.bank b) hud
  rw [hm, hud]
  obtain ⟨p1, p2, p3, p4, p5, p6⟩ := y.promote_spec d b
  refine ⟨fun h => ?_, fun ⟨hk, h38, h45, hp⟩ => ?_, fun hk hb => ?_, fun h => h5 h (by omega), fun j hj => ?_, ?_, ?_⟩
  · by_cases hk : k.promotes = true
    · rw [show z = y.promote d b from if_pos hk, p6 fun h' => h ⟨hk, h'⟩, hyb]
    · rw [show z = y from if_neg hk, hyb]
  · rw [show u.fab = z.fab from h2, show z = y.promote d b from if_pos hk]
    obtain ⟨q1, q2⟩ := p5 h38 h45 hp
    exact ⟨q1, by rw [q2, hyb]⟩
  · rw [show z = y.promote d b from if_pos hk, p1 hb, hyq]
  · by_cases hk : k.promotes = true
    · rw [show z = y.promote d b from if_pos hk, p2 j hj, hyj j hj]
    · rw [show z = y from if_neg hk, hyj j hj]
  · refine h3.trans ?_
    by_cases hk : k.promotes = true
    · rw [show z = y.promote d b from if_pos hk, p3]
      rfl
    · rw [show z = y from if_neg hk]
      rfl
  · refine h4.trans ?_
    by_cases hk : k.promotes = true
    · rw [show z = y.promote d b from if_pos hk, p4]
      rfl
    · rw [show z = y from if_neg hk]
      rfl

end Sys2Proof.Machine
end

section
/-! ## The leak of the buckets, and self-tests (R16, R365 to R367) -/

namespace Sys2Proof.Machine

open Sys2Proof

variable {s : State}

/-- A map whose entries change as the default does. -/
theorem Map.get_map {α : Type} (f : α → α) {d : α} (hd : f d = d) (m : Map α) (k : Nat) :
    Map.get (m.map fun x => (x.1, f x.2)) k d = f (m.get k d) := by
  induction m with
  | nil => exact hd.symm
  | cons a m ih =>
    rw [List.map_cons, Map.get, Map.get]
    split
    · rfl
    · exact ih

theorem McBank.leaks_eq (k : McBank) (now : Nat) :
    k.leaks now = { k with bucket := if k.leak ≠ 0 ∧ now % (k.leak * 2 ^ 20) = 0 then k.bucket - 1 else k.bucket } := by
  have hdue : leakDue k.leak now = true ↔ k.leak ≠ 0 ∧ now % (k.leak * 2 ^ 20) = 0 := by
    rw [leakDue, Bool.and_eq_true, bne_iff_ne, beq_iff_eq]
  rw [McBank.leaks]
  by_cases h : k.leak ≠ 0 ∧ now % (k.leak * 2 ^ 20) = 0
  · rw [if_pos (hdue.2 h), if_pos h]
  · rw [if_neg fun h' => h (hdue.1 h'), if_neg h]

theorem McBank.leaks_reset (now : Nat) : McBank.reset.leaks now = McBank.reset := by
  rw [McBank.leaks_eq]
  split <;> rfl

theorem mcLeakTick_spec (hp : s.phase = .ticking 0) : ∃ u, exec .mcLeakTick s = .next u ∧ u.phase = .ticking 1 ∧ u.tiles = s.tiles ∧
    ∀ (d : DieId) (b : Nat), let k := (s.die d).bank b
      (u.die d).bank b = { k with bucket :=
        if k.leak ≠ 0 ∧ s.gtime % (k.leak * 2 ^ 20) = 0 then k.bucket - 1 else k.bucket } := by
  have hx : exec .mcLeakTick s = _ := execMcLeakTick.eq_def ..
  refine ⟨_, hx.trans (if_pos hp), rfl, rfl, fun d b => ?_⟩
  let f (x : Die) : Die := { x with banks := x.banks.map fun b => (b.1, b.2.leaks s.gtime) }
  have hd : Map.get (s.dies.map fun x => (x.1, f x.2)) d.val Die.reset = f (s.die d) := Map.get_map f rfl ..
  refine (congrArg (·.bank b) hd).trans ?_
  exact (Map.get_map (fun b : McBank => b.leaks s.gtime) (McBank.leaks_reset _) ..).trans (McBank.leaks_eq ..)

theorem State.bank_modBank_ne (s : State) (d : DieId) {b j : Nat} (h : j ≠ b) (f : McBank → McBank) :
    ((s.modBank d b f).die d).bank j = (s.die d).bank j := by
  rw [State.modBank, State.die_modDie_same]
  exact Map.get_set_ne _ _ _ _ _ h

theorem mcstValClear_spec (hr : s.sys.ready = true) (d : DieId) (b : Fin 48) : ∃ u, exec (.mcstValClear d b) s = .next u ∧
    (u.die d).bank b.val = { (s.die d).bank b.val with val := false, events := 0 } ∧
    ∀ j, j ≠ b.val → (u.die d).bank j = (s.die d).bank j := by
  have hx : exec (.mcstValClear d b) s = _ := execMcstValClear.eq_def ..
  exact ⟨_, hx.trans (if_pos hr), State.bank_modBank .., fun j hj => State.bank_modBank_ne _ _ hj _⟩

/-! ### Self-tests -/

theorem State.test_modTest (s : State) (d : DieId) (f : SelfTest → SelfTest) : ((s.modTest d f).die d).test = f (s.die d).test :=
  congrArg Die.test (State.die_modDie_same ..)

variable {d : DieId}

theorem stctlReq_spec (hr : s.sys.ready = true) (c : Fin 32) : let y := (s.die d).test
    ∃ u, exec (.stctlReq d c) s = .next u ∧
    (u.die d).test = { y with req := true, crew := c.val, queue := if y.req then y.queue else y.queue ++ [c.val] } := by
  intro y
  have hx : exec (.stctlReq d c) s = _ := execStctlReq.eq_def ..
  refine ⟨_, hx.trans (if_pos hr), (State.test_modTest ..).trans ?_⟩
  rw [SelfTest.ask]
  cases (s.die d).test.req <;> rfl

theorem nextOnline_eq {online : BitVec 32} {c i : Nat} (hi : i < 32) (h : online.getLsbD ((c + i) % 32) = true)
    (hbefore : ∀ j, j < i → online.getLsbD ((c + j) % 32) = false) : nextOnline online c = some ((c + i) % 32) := by
  have hf : (List.range 32).find? ((fun k => online.getLsbD k) ∘ fun i => (c + i) % 32) = some i := by
    refine List.find?_range_eq_some.2 ⟨h, List.mem_range.2 hi, fun j hj => ?_⟩
    rw [Function.comp_apply, hbefore j hj]
    rfl
  rw [nextOnline, List.find?_map, hf]
  rfl

theorem selftestPeriod_spec (hp : s.phase = .ticking (d.val + 1)) : let y := (s.die d).test
    ∃ u, exec (.selftestPeriod d) s = .next u ∧ u.tiles = s.tiles ∧
    (y.period = 0 ∨ s.gtime % (y.period * 2 ^ 24) ≠ 0 → (u.die d).test = y) ∧
    ∀ i, y.period ≠ 0 → s.gtime % (y.period * 2 ^ 24) = 0 → i < 32 → y.online.getLsbD ((y.next + i) % 32) = true →
      (∀ j, j < i → y.online.getLsbD ((y.next + j) % 32) = false) →
      (u.die d).test = { y with queue := y.queue ++ [(y.next + i) % 32], next := ((y.next + i) % 32 + 1) % 32 } := by
  intro y
  have hx : exec (.selftestPeriod d) s = _ := execSelftestPeriod.eq_def ..
  have ht : ((s.modTest d fun y => y.periodic s.gtime).die d).test = y.periodic s.gtime := State.test_modTest ..
  refine ⟨_, hx.trans (if_pos hp), rfl, fun h => ht.trans (if_neg ?_), fun i h1 h2 hi h hb => ht.trans ?_⟩
  · rintro ⟨h1, h2⟩
    exact h.elim h1 fun h => h h2
  · rw [SelfTest.periodic, if_pos ⟨h1, h2⟩, nextOnline_eq hi h hb]

theorem selftestStart_spec {c : Nat} {rest : List Nat} : let y := (s.die d).test
    y.queue = c :: rest → s.phase = .starting → (s.die d).frozen = false →
    (y.running = none → s.testable d c = true → ∃ u, exec (.selftestStart d) s = .next u ∧
      (u.die d).test = { y with queue := rest, running := some (c, s.gtime) }) ∧
    (y.running ≠ none ∨ s.testable d c = false → exec (.selftestStart d) s = .next s) := by
  intro y hq hp hf
  have hx : exec (.selftestStart d) s = _ := execSelftestStart.eq_def ..
  dsimp only at hx
  rw [hq] at hx
  refine ⟨fun hn ht => ?_, fun h => ?_⟩
  · rw [hn] at hx
    exact ⟨_, hx.trans (if_pos ⟨hp, hf, ht⟩), State.test_modTest ..⟩
  · cases hn : y.running with
    | some r => rw [hn] at hx; exact hx
    | none =>
      rw [hn] at hx
      refine hx.trans (if_neg fun ⟨_, _, ht⟩ => ?_)
      rcases h with h | h
      · exact h hn
      · rw [ht] at h; exact absurd h (by decide)

/-! ### The end of a test -/

/-- R367: the scratchpads and BFMTs of the tiles of a list hold zero. -/
theorem State.foldl_scrub (l : List TileId) (s : State) (t : TileId) :
    let u := l.foldl (fun s t => (s.modTile t fun x =>
      { x with sp := [], cox := { x.cox with bfmt := Vector.replicate 16 0 } }).modDev fun m => m.dropFlaws (Site.inSp t)) s
    u.dies = s.dies ∧ u.crews = s.crews ∧ u.gtime = s.gtime ∧
    (((s.tile t).sp = [] ∧ (s.cox t).bfmt = Vector.replicate 16 0) ∨ t ∈ l →
      (u.tile t).sp = [] ∧ (u.cox t).bfmt = Vector.replicate 16 0) := by
  induction l generalizing s with
  | nil => exact ⟨rfl, rfl, rfl, fun h => h.resolve_right List.not_mem_nil⟩
  | cons a l ih =>
    let f (x : Tile) : Tile := { x with sp := [], cox := { x.cox with bfmt := Vector.replicate 16 0 } }
    obtain ⟨h1, h2, h3, h4⟩ := ih ((s.modTile a f).modDev fun m => m.dropFlaws (Site.inSp a))
    refine ⟨h1, h2, h3, fun h => h4 ?_⟩
    by_cases ht : t = a
    · refine .inl ?_
      have hz : ((s.modTile a f).modDev fun m => m.dropFlaws (Site.inSp a)).tile t = f (s.tile t) := by
        rw [ht]
        exact State.tile_modTile_same ..
      rw [State.cox, hz]
      exact ⟨rfl, rfl⟩
    · have hz : ((s.modTile a f).modDev fun m => m.dropFlaws (Site.inSp a)).tile t = s.tile t :=
        State.tile_modTile_ne _ _ _ _ ht
      rw [State.cox, hz]
      exact h.imp id fun h => (List.mem_cons.1 h).resolve_left ht

/-- R367: a slot and a bank of a crew are blank. -/
def Crew.blank (y : Crew) (n : Nat) : Crew :=
  (y.modSlot (Fin.ofNat 32 n) fun k => { k with data := [] }).modBank (Fin.ofNat 32 n) fun k => { k with cells := [] }

theorem Crew.blank_same (y : Crew) (n : Nat) :
    ((y.blank n).slot (Fin.ofNat 32 n)).data = [] ∧ ((y.blank n).bank (Fin.ofNat 32 n)).cells = [] :=
  ⟨congrArg Slot.data (Crew.slot_modSlot_same y (Fin.ofNat 32 n) fun k => { k with data := [] }), congrArg Bank.cells (Crew.bank_modBank_same _ (Fin.ofNat 32 n) _)⟩

theorem Crew.blank_ne (y : Crew) {n : Nat} {m : Fin 32} (h : m ≠ Fin.ofNat 32 n) :
    (y.blank n).slot m = y.slot m ∧ (y.blank n).bank m = y.bank m :=
  ⟨Crew.slot_modSlot_ne y h fun k => { k with data := [] }, Crew.bank_modBank_ne _ h _⟩

/-- R367: the slots and banks of a list hold zero. -/
theorem Crew.foldl_blank (n : Fin 32) (l : List Nat) (y : Crew) (h : ((y.slot n).data = [] ∧ (y.bank n).cells = []) ∨ n.val ∈ l) :
    ((l.foldl Crew.blank y).slot n).data = [] ∧ ((l.foldl Crew.blank y).bank n).cells = [] := by
  induction l generalizing y with
  | nil => exact h.resolve_right List.not_mem_nil
  | cons a l ih =>
    refine ih (y.blank a) ?_
    by_cases ha : n = Fin.ofNat 32 a
    · rw [ha]
      exact .inl (y.blank_same a)
    · obtain ⟨h1, h2⟩ := y.blank_ne ha
      rw [h1, h2]
      refine h.imp id fun h => (List.mem_cons.1 h).resolve_left fun h => ha ?_
      exact Fin.ext (by rw [← h]; exact (Nat.mod_eq_of_lt n.isLt).symm)

theorem State.scrubCrew_spec (s : State) (d : DieId) (c : Nat) :
    let u := s.scrubCrew d c
    u.dies = s.dies ∧ (∀ t ∈ crewTiles d c, (u.tile t).sp = [] ∧ (u.cox t).bfmt = Vector.replicate 16 0) ∧
    ∀ n : Fin 32, ((u.crew (crewIn d c)).slot n).data = [] ∧ ((u.crew (crewIn d c)).bank n).cells = [] := by
  intro u
  refine ⟨(State.foldl_scrub (crewTiles d c) s 0).1, fun t ht => (State.foldl_scrub (crewTiles d c) s t).2.2.2 (.inr ht), fun n => ?_⟩
  rw [show u.crew (crewIn d c) = _ from State.crew_modCrew_same ..]
  exact Crew.foldl_blank n (List.range 32) _ (.inr (List.mem_range.2 n.isLt))

theorem SelfTest.past_none {y : SelfTest} {c start now : Nat} (hr : y.running = some (c, start)) (ht : now + 1 < start + 2 ^ 20) :
    y.past now = none := by
  rw [SelfTest.past, hr]
  exact if_neg (Nat.not_le.2 ht)

theorem SelfTest.past_some {y : SelfTest} {c start now : Nat} (hr : y.running = some (c, start)) (ht : start + 2 ^ 20 ≤ now + 1) :
    y.past now = some c := by
  rw [SelfTest.past, hr]
  exact if_pos ht

theorem selftestEnd_early {c : Fin 32} {start : Nat} (hr : (s.die d).test.running = some (c.val, start))
    (ht : s.gtime + 1 < start + 2 ^ 20) (ok : Bool) : exec (.selftestEnd d ok) s = .next s := by
  have hx : exec (.selftestEnd d ok) s = _ := execSelftestEnd.eq_def ..
  rw [SelfTest.past_none hr ht] at hx
  exact hx

theorem getLsbD_offline (online : BitVec 32) (c j : Fin 32) :
    (online &&& ~~~(BitVec.ofNat 32 (2 ^ c.val))).getLsbD j.val = (online.getLsbD j.val && (false || j != c)) := by
  rw [BitVec.getLsbD_and, BitVec.getLsbD_not, BitVec.getLsbD_ofNat, Nat.testBit_two_pow, Bool.false_or]
  have hj := j.isLt
  by_cases h : j = c
  · simp [h]
  · have hv : ¬c.val = j.val := fun k => h (Fin.ext k.symm)
    simp [h, hv]

theorem selftestEnd_spec {c : Fin 32} {start : Nat} (hr : (s.die d).test.running = some (c.val, start)) (hp : s.phase = .ending)
    (ht : start + 2 ^ 20 ≤ s.gtime + 1) (ok : Bool) : ∃ u, exec (.selftestEnd d ok) s = .next u ∧
      let y := (s.die d).test
      let z := (u.die d).test
      let w := u.crew (crewIn d c)
      z.running = none ∧ z.tests = min (y.tests + 1) 65535 ∧ z.last = (if ok then 1 else 2) ∧ z.lastCrew = c.val ∧
      (∀ j : Fin 32, z.online.getLsbD j.val = (y.online.getLsbD j.val && (ok || j != c))) ∧
      (∀ t ∈ crewTiles d c.val, (∀ a, (u.tile t).sp.get a = 0) ∧ ∀ i : Fin 16, (u.cox t).bfmt[i] = 0) ∧
      (∀ n : Fin 32, (w.slot n).data = [] ∧ (w.bank n).cells = []) ∧
      (ok = true → (u.die d).bank c.val = { (s.die d).bank c.val with bucket := 0, lasting := false }) ∧
      (ok = false → (u.die d).events = (s.die d).events ++ [(c.val, ⟨2, cMCTEST, 4, none, none⟩)]) := by
  have hx : exec (.selftestEnd d ok) s = _ := execSelftestEnd.eq_def ..
  rw [SelfTest.past_some hr ht] at hx
  dsimp only at hx
  rw [if_neg (not_not_intro hp)] at hx
  obtain ⟨h1, h2, h3⟩ := s.scrubCrew_spec d c.val
  let f (y : SelfTest) : SelfTest :=
    { y with
      running := none, tests := sat16 (y.tests + 1), last := if ok then 1 else 2, lastCrew := c.val,
      online := if ok then y.online else y.online &&& ~~~(BitVec.ofNat 32 (2 ^ c.val)) }
  let z := (s.scrubCrew d c.val).modTest d f
  have hd : (s.scrubCrew d c.val).die d = s.die d := congrArg (fun m => Map.get m d.val Die.reset) h1
  have hz : z.die d = { s.die d with test := f (s.die d).test } := by rw [← hd]; exact State.die_modDie_same ..
  have hsp (u : State) (hu : u.tiles = z.tiles) (t : TileId) (htm : t ∈ crewTiles d c.val) :
      (∀ a, (u.tile t).sp.get a = 0) ∧ ∀ i : Fin 16, (u.cox t).bfmt[i] = 0 := by
    have hut : u.tile t = (s.scrubCrew d c.val).tile t := congrArg (fun m => Map.get m t.val Tile.reset) hu
    obtain ⟨k1, k2⟩ := h2 t htm
    have k2 : ((s.scrubCrew d c.val).tile t).cox.bfmt = _ := k2
    rw [State.cox, hut, k1, k2]
    exact ⟨fun _ => rfl, fun i => Vector.getElem_replicate _⟩
  cases ok with
  | true =>
    rw [if_pos rfl] at hx
    have hu : ((z.modBank d c.val fun k => { k with bucket := 0, lasting := false }).die d).test = f (s.die d).test := by
      rw [State.modBank, State.die_modDie_same, hz]
    refine ⟨_, hx, ?_⟩
    dsimp only
    rw [hu]
    refine ⟨rfl, rfl, rfl, rfl, fun j => ?_, hsp _ rfl, h3, fun _ => ?_, nofun⟩
    · rw [Bool.true_or, Bool.and_true]
      rfl
    · rw [State.bank_modBank, hz]
      rfl
  | false =>
    rw [if_neg (by decide)] at hx
    have hu : (z.recordMc d c.val (contained cMCTEST 4 none none)).die d =
        { s.die d with
          test := f (s.die d).test, events := (s.die d).events ++ [(c.val, contained cMCTEST 4 none none)],
          frozen := (s.die d).frozen || (contained cMCTEST 4 none none).cls == 3 } := by
      rw [State.recordMc_die, hz]
    refine ⟨_, hx, ?_⟩
    dsimp only
    rw [hu]
    exact ⟨rfl, rfl, rfl, rfl, fun j => getLsbD_offline .., hsp _ rfl, h3, nofun, fun _ => rfl⟩

/-- Settles O50: what an event does to its bank (`State.applyMc_spec`), the leak, and a self-test from its request to its end. -/
theorem mcBanks : Obligations.McBanks := by
  refine ⟨fun s => ⟨s.recordMc_spec, fun d b e h1 h3 h ho => State.applyEvents_one h1 h3 h ho, fun d b e => ?_, mcLeakTick_spec,
    fun d b hr => mcstValClear_spec hr d b⟩, fun s d => ⟨fun hr c => stctlReq_spec hr c, selftestPeriod_spec,
      fun c rest hq hp hf => selftestStart_spec hq hp hf, fun c start hr hp => ⟨fun ht ok => selftestEnd_early hr ht ok,
        fun ht ok => selftestEnd_spec hr hp ht ok⟩⟩⟩
  obtain ⟨h1, h2, h3, h4, h5, h6, h7⟩ := s.applyMc_spec d b e
  obtain ⟨k1, k2, k3, k4, k5⟩ := McBank.record_spec ((s.die d).bank b) e
  rw [McBank.promotes_iff] at h1 h2 h3 k3
  intro k u m promotes port retires
  refine ⟨fun h => ?_, h2, h3, h4, h5, h6, h7⟩
  have hm : m = k.record e := h1 h
  rw [hm]
  exact ⟨k1, k2, k3, k4, k5⟩

end Sys2Proof.Machine
end

section
/-! ## Dual-die pairs, rows that move, the scrub (R361, R369) -/

namespace Sys2Proof.Machine

open Sys2Proof

variable {s : State}

/-! ### Pairs (R369) -/

theorem State.recordPair_events (s : State) (id : BitVec 32) (detail : Nat) : ((s.recordPair id detail).die 0).events =
    (s.die 0).events ++ [(47, ⟨2, cMCPAIR, 0, some (8, id.setWidth 64), some detail⟩)] :=
  congrArg Die.events (State.recordMc_die ..)

theorem State.completeOne_events (s : State) (l : Launch) (status : Nat) (cause : Byte) (tile : Nat) (d : DieId) :
    ((s.completeOne l status cause tile).die d).events = (s.die d).events := by
  rw [State.completeOne]
  by_cases hd : d = l.die
  · rw [hd, State.die_modDie_same]
    rfl
  · rw [State.die_modDie_ne _ _ _ _ hd]
    rfl

theorem State.spread_events (d : DieId) : ∀ (fuel : Nat) (ts : List (BitVec 32 × Byte)) (s : State),
    ((State.spread fuel ts s).die d).events = (s.die d).events
  | 0, _, _ => rfl
  | _ + 1, [], _ => rfl
  | k + 1, (id, c) :: rest, s => by
    rw [State.spread]
    split
    · exact State.spread_events d k rest s
    · exact (State.spread_events d k _ _).trans (State.completeOne_events ..)

theorem State.complete_events (s : State) (l : Launch) (status : Nat) (cause : Byte) (tile : Nat) (d : DieId) :
    ((s.complete l status cause tile).die d).events = (s.die d).events := by
  rw [State.complete]
  split
  · exact State.completeOne_events ..
  · exact (State.spread_events ..).trans (State.completeOne_events ..)

theorem State.complete_gone (s : State) (l : Launch) (status : Nat) (cause : Byte) (tile : Nat) :
    ∀ k ∈ (s.complete l status cause tile).launches, k.id ≠ l.id := by
  have h1 (k : Launch) (hk : k ∈ (s.completeOne l status cause tile).launches) : k.id ≠ l.id := by
    rw [State.completeOne_launches] at hk
    exact of_decide_eq_true (List.mem_filter.1 hk).2
  rw [State.complete]
  split
  · exact h1
  · exact fun k hk => h1 k (State.spread_subset _ _ _ k hk)

variable {id : BitVec 32} {l : Launch} {h : Half × Half}

theorem Launch.starved_iff (hh : l.halves = some h) : l.starved = true ↔ h.1.starved = true ∨ h.2.starved = true := by
  rw [Launch.starved, hh, Bool.or_eq_true]

theorem pairCompare_starved (hl : s.launch? id = some l) (hh : l.halves = some h) (hf : l.failure = none) (hp : s.phase = .starting)
    (hs : h.1.starved = true ∨ h.2.starved = true) : ∃ u m, exec (.pairCompare id) s = .next u ∧ u.launch? id = some m ∧
      m.failure = some (cMCPAIR, 0) ∧ m.stopped = true ∧ (u.die 0).events =
        (s.die 0).events ++ [(47, ⟨2, cMCPAIR, 0, some (8, id.setWidth 64), some 1⟩)] := by
  have hx : exec (.pairCompare id) s = _ := execPairCompare.eq_def ..
  rw [hl] at hx
  dsimp only at hx
  rw [hh] at hx
  dsimp only at hx
  rw [hf, hp, if_neg (by simp), if_pos ((Launch.starved_iff hh).2 hs)] at hx
  let f (k : Launch) : Launch := { k with failure := some (cMCPAIR, 0), failed := true, stopped := true }
  have hl' : ((s.recordPair id 1).modLaunch id f).launch? id = some (f l) := State.launch?_modLaunch (fun _ => rfl) hl
  obtain ⟨h1, h2⟩ := State.launch?_releaseGangs hl'
  refine ⟨_, _, hx, h1, rfl, rfl, ?_⟩
  exact (congrArg (fun m => (Map.get m 0 Die.reset).events) h2).trans (s.recordPair_events id 1)

/-- R369: the comparison of a launch whose halves are done. -/
theorem exec_pairCompare (hl : s.launch? id = some l) (hh : l.halves = some h) (hf : l.failure = none) (hp : s.phase = .starting)
    (hs : ¬(h.1.starved = true ∨ h.2.starved = true)) (hd : l.dispatchedAt ≠ none) (he : l.exhausted = true) (hg : l.gangs = []) :
    exec (.pairCompare id) s = if s.coversDone l = false then .next s
      else if halvesAgree h.1 h.2 then .next ((s.commitHalf h.1).complete l 1 0 0)
      else .next ((s.recordPair id 2).complete l 2 cMCPAIR 0) := by
  have hx : exec (.pairCompare id) s = _ := execPairCompare.eq_def ..
  rw [hl] at hx
  dsimp only at hx
  rw [hh] at hx
  dsimp only at hx
  have hend : l.ended = true := by
    obtain ⟨c, hc⟩ := Option.ne_none_iff_exists'.1 hd
    rw [Launch.ended, hc, he, hg, hf]
    rfl
  rw [hf, hp, if_neg (by simp), if_neg fun k => hs ((Launch.starved_iff hh).1 k), hend] at hx
  refine hx.trans (if_congr ?_ rfl rfl)
  simp

/-! ### Rows (R361) -/

theorem RowMove.copied_iff (m : RowMove) (now : Nat) : m.copied now = true ↔ m.unit ≠ 8 ∧ m.began + 63 ≤ now := by
  rw [RowMove.copied, Bool.and_eq_true, bne_iff_ne, decide_eq_true_iff]

theorem RowMove.next_spec (m : RowMove) :
    (m.firstPass = true → m.unit < 7 → m.next = { m with unit := m.unit + 1, began := m.began + 64 }) ∧
    (¬(m.firstPass = true ∧ m.unit < 7) → m.marks = [] → m.next = { m with unit := 8, began := m.began + 64, firstPass := false }) ∧
    (¬(m.firstPass = true ∧ m.unit < 7) → ∀ k ∈ m.marks, (∀ j ∈ m.marks, k ≤ j) →
      m.next = { m with unit := k, began := m.began + 64, firstPass := false, marks := m.marks.filter fun j => j ≠ k }) := by
  have hn : m.next = _ := RowMove.next.eq_def m
  refine ⟨fun h1 h2 => hn.trans (if_pos ⟨h1, h2⟩), fun h h0 => ?_, fun h k hk hmin => ?_⟩
  · rw [if_neg h, h0] at hn
    rw [hn, h0]
    rfl
  · rw [if_neg h, List.min?_eq_some_iff.2 ⟨hk, hmin⟩] at hn
    exact hn

theorem rowUnitCopyDone_spec (hp : s.phase = .ending) (hid : HomeId) : let moves := (s.home hid.val).moves
    ∃ u, exec (.rowUnitCopyDone hid) s = .next u ∧ ∀ (i : Nat) (m : RowMove), moves[i]? = some m →
      let n := (u.home hid.val).moves[i]?
      let past := m.unit ≠ 8 ∧ m.began + 63 ≤ s.gtime
      (¬past → n = some m) ∧
      (past → m.firstPass = true → m.unit < 7 → n = some { m with unit := m.unit + 1, began := m.began + 64 }) ∧
      (past → ¬(m.firstPass = true ∧ m.unit < 7) → m.marks = [] →
        n = some { m with unit := 8, began := m.began + 64, firstPass := false }) ∧
      (past → ¬(m.firstPass = true ∧ m.unit < 7) → ∀ k ∈ m.marks, (∀ j ∈ m.marks, k ≤ j) →
        n = some { m with unit := k, began := m.began + 64, firstPass := false, marks := m.marks.filter fun j => j ≠ k }) := by
  intro moves
  have hx : exec (.rowUnitCopyDone hid) s = _ := execRowUnitCopyDone.eq_def ..
  refine ⟨_, hx.trans (if_pos hp), fun i m hm => ?_⟩
  intro n past
  have hn : n = some (if m.copied s.gtime then m.next else m) := by
    simp only [n, State.home_modHome_same, List.getElem?_map]
    rw [show (s.home hid.val).moves[i]? = some m from hm]
    rfl
  have hpast : past ↔ m.copied s.gtime = true := (m.copied_iff _).symm
  obtain ⟨h1, h2, h3⟩ := m.next_spec
  refine ⟨fun h => ?_, fun h hf hu => ?_, fun h hf h0 => ?_, fun h hf k hk hmin => ?_⟩
  · rw [hn, if_neg fun k => h (hpast.2 k)]
  · rw [hn, if_pos (hpast.1 h), h1 hf hu]
  · rw [hn, if_pos (hpast.1 h), h2 hf h0]
  · rw [hn, if_pos (hpast.1 h), h3 hf k hk hmin]

theorem RowMove.past_iff (m : RowMove) (now : Nat) : m.past now = decide (m.unit = 8 ∧ m.began ≤ now) := by
  rw [RowMove.past, Bool.decide_and]
  rfl

theorem State.recordHbm_dev (s : State) (stack ch row cls : Nat) (code : Byte) (detail : Option Nat) :
    (s.recordHbm stack ch row cls code detail).dev = s.dev := rfl

theorem rowRemap_spec (hp : s.phase = .ending) (hid : HomeId) : let moves := (s.home hid.val).moves
    ∃ u, exec (.rowRemap hid) s = .next u ∧
      let past := moves.filter fun m => m.unit = 8 ∧ m.began ≤ s.gtime
      (u.home hid.val).moves = moves.filter (fun m => ¬(m.unit = 8 ∧ m.began ≤ s.gtime)) ∧
      (u.home hid.val).remaps = (s.home hid.val).remaps ++ past.map (fun m => (m.stack, m.ch, m.row, m.spare)) ∧
      u.dev.hbm = s.dev.hbm ∧ ∀ m, past = [m] →
        let d : DieId := Fin.ofNat 4 (m.stack / 3)
        ∃ a, (u.die d).events = (s.die d).events ++ [(32 + m.ch % 2, ⟨1, cMCREMAP, m.stack % 3, a, some m.spare⟩)] := by
  intro moves
  have hx : exec (.rowRemap hid) s = _ := execRowRemap.eq_def ..
  rw [if_pos hp] at hx
  have hf : (moves.filter fun m => m.past s.gtime) = moves.filter fun m => m.unit = 8 ∧ m.began ≤ s.gtime :=
    List.filter_congr fun m _ => m.past_iff _
  have hg : (moves.filter fun m => !m.past s.gtime) = moves.filter fun m => ¬(m.unit = 8 ∧ m.began ≤ s.gtime) :=
    List.filter_congr fun m _ => by rw [m.past_iff, decide_not]
  refine ⟨_, hx, ?_⟩
  dsimp only
  rw [hf]
  have hdev (l : List RowMove) (z : State) : (l.foldl (fun s m => s.recordHbm m.stack m.ch m.row 1 cMCREMAP (some m.spare)) z).dev = z.dev :=
    foldl_keeps (p := fun u : State => u.dev = z.dev) (f := fun s (m : RowMove) => s.recordHbm m.stack m.ch m.row 1 cMCREMAP (some m.spare))
      (fun _ _ h => h) rfl
  have hhome (l : List RowMove) (z : State) (k : Nat) :
      (l.foldl (fun s m => s.recordHbm m.stack m.ch m.row 1 cMCREMAP (some m.spare)) z).home k = z.home k :=
    congrArg (fun d : DevMem => Map.get d.homes k Home.reset) (hdev l z)
  rw [hdev, hhome, State.home_modHome_same]
  refine ⟨hg, rfl, rfl, fun m hm => ?_⟩
  rw [hm]
  exact ⟨_, congrArg Die.events (State.recordMc_die ..)⟩

/-! ### The scrub (R361) -/

/-- The tiles of a state, and what each home has still to scrub. -/
def State.scrubView (s : State) : Map Tile × (Nat → Map (Nat × Nat)) := (s.tiles, fun h => (s.home h).scrub)

theorem State.modHome_scrubView {k : Nat} {f : Home → Home} (hf : ∀ h, (f h).scrub = h.scrub) : (s.modHome k f).scrubView = s.scrubView := by
  refine Prod.ext rfl (funext fun j => ?_)
  show ((s.modHome k f).home j).scrub = (s.home j).scrub
  by_cases hj : j = k
  · rw [hj, State.home_modHome_same, hf]
  · rw [State.home_modHome_ne _ _ _ _ hj]

theorem State.recordHbm_scrubView (s : State) (stack ch row cls : Nat) (code : Byte) (detail : Option Nat) :
    (s.recordHbm stack ch row cls code detail).scrubView = s.scrubView := rfl

theorem DevMem.dropFlaws_homes (d : DevMem) (p : Site → Bool) : (d.dropFlaws p).homes = d.homes := by
  rw [DevMem.dropFlaws]
  split <;> rfl

theorem State.modDev_scrubView {f : DevMem → DevMem} (hf : ∀ d, (f d).homes = d.homes) : (s.modDev f).scrubView = s.scrubView := by
  refine Prod.ext rfl (funext fun j => ?_)
  exact congrArg (fun m => (Map.get m j Home.reset).scrub) (hf s.dev)

theorem State.repair_scrubView (s : State) (l : List Site) : (s.repair l).scrubView = s.scrubView :=
  State.modDev_scrubView fun d => d.dropFlaws_homes _

theorem State.countChannel_scrubView (s : State) (stack ch row : Nat) : (s.countChannel stack ch row).scrubView = s.scrubView := by
  rw [State.countChannel]
  split
  · refine (State.recordHbm_scrubView ..).trans ((State.modHome_scrubView fun _ => ?_).trans (State.modHome_scrubView fun _ => ?_))
    all_goals rfl
  · exact State.modHome_scrubView fun _ => rfl

theorem State.lost_scrubView (s : State) (stack ch row : Nat) : (s.lost none stack ch row).scrubView = s.scrubView :=
  (State.countChannel_scrubView ..).trans (State.recordHbm_scrubView ..)

theorem Home.move_scrub (h : Home) (now stack ch row : Nat) : ((h.countRow stack ch row).startMove now stack ch row).scrub = h.scrub := by
  have hs (x : Home) : (x.startMove now stack ch row).scrub = x.scrub := by
    rw [Home.startMove]
    split <;> rfl
  rw [hs, Home.countRow]
  split <;> rfl

theorem State.correctRow_scrubView (s : State) (stack ch row bit : Nat) : (s.correctRow stack ch row bit).scrubView = s.scrubView := by
  rw [State.correctRow]
  split
  · rfl
  · exact (State.modHome_scrubView fun h => h.move_scrub ..).trans (State.recordHbm_scrubView ..)

theorem State.rebuild_scrubView (s : State) (stack ch row : Nat) (l : List Site) : (s.rebuild stack ch row l).scrubView = s.scrubView :=
  (State.repair_scrubView ..).trans ((State.countChannel_scrubView ..).trans (State.recordHbm_scrubView ..))

theorem State.readHbm_scrubView (s : State) (phys n : Nat) (chk : Check) : (s.readHbm none phys n chk).1.scrubView = s.scrubView := by
  have hbad (l : List Site) (a b c : Nat) : (((s.repair l).modDev fun d =>
      if d.poison.contains (phys / 256) then d else { d with poison := phys / 256 :: d.poison }).lost none a b c).scrubView = s.scrubView :=
    (State.lost_scrubView ..).trans ((State.modDev_scrubView fun d => by split <;> rfl).trans (s.repair_scrubView l))
  rw [State.readHbm]
  split
  · exact hbad ..
  · split
    · rfl
    · split
      · rfl
      · rfl
      · exact (State.correctRow_scrubView ..).trans (State.repair_scrubView ..)
      · split
        · exact State.rebuild_scrubView ..
        · exact hbad ..

theorem State.readParity_scrubView (s : State) (phys : Nat) (chk : Check) : (s.readParity none phys chk).1.scrubView = s.scrubView := by
  rw [State.readParity]
  split
  · rfl
  · split
    · exact State.lost_scrubView ..
    · split
      · rfl
      · rfl
      · exact (State.correctRow_scrubView ..).trans (State.repair_scrubView ..)
      · split
        · exact State.rebuild_scrubView ..
        · exact (State.lost_scrubView ..).trans ((State.modDev_scrubView fun _ => rfl).trans (State.repair_scrubView ..))

theorem State.readHbm_hbm (s : State) (phys n : Nat) (chk : Check) : (s.readHbm none phys n chk).1.dev.hbm = s.dev.hbm := by
  have h := s.readHbm_stores none phys n chk
  exact congrArg Stores.hbm h

theorem State.readParity_hbm (s : State) (phys : Nat) (chk : Check) : (s.readParity none phys chk).1.dev.hbm = s.dev.hbm := by
  have h := s.readParity_stores none phys chk
  exact congrArg Stores.hbm h

theorem patrolScrubRead_spec (hid : HomeId) (stack : Fin 3) (ch : Fin 64) (chk : Check) (hc : ch.val % 2 = hid.val % 2)
    (hf : (s.die (Fin.ofNat 4 (hid.val / 2))).frozen = false) :
    let key := 64 * (3 * (hid.val / 2) + stack.val) + ch.val
    let at' := (s.home hid.val).scrub.get key (0, 0)
    (s.gtime < at'.2 ∨ s.gtime % 4096 ≠ key → exec (.patrolScrubRead hid stack ch chk) s = .next s) ∧
    (at'.2 ≤ s.gtime → s.gtime % 4096 = key → ∃ u, exec (.patrolScrubRead hid stack ch chk) s = .next u ∧
      (u.home hid.val).scrub.get key (0, 0) = ((at'.1 + 1) % 2 ^ 22, s.gtime + 4096) ∧ u.dev.hbm = s.dev.hbm ∧ u.tiles = s.tiles) := by
  intro key at'
  have hx : exec (.patrolScrubRead hid stack ch chk) s = _ := execPatrolScrubRead.eq_def ..
  have hturn : scrubTurn s.gtime (3 * (hid.val / 2) + stack.val) ch.val = decide (s.gtime % 4096 = key) := rfl
  have hkey : channelKey (3 * (hid.val / 2) + stack.val) ch.val = key := rfl
  dsimp only at hx
  rw [hturn, hf, hkey] at hx
  by_cases hk : s.gtime % 4096 = key
  · rw [if_neg (by simp [hc, hk])] at hx
    refine ⟨fun h => hx.trans (if_pos (h.resolve_right (not_not_intro hk))), fun ht _ => ?_⟩
    rw [if_neg (Nat.not_lt.2 ht)] at hx
    let z := s.modHome hid.val fun x => { x with scrub := x.scrub.set key ((at'.1 + 1) % 2 ^ 22, s.gtime + 4096) }
    have hz : (z.home hid.val).scrub.get key (0, 0) = ((at'.1 + 1) % 2 ^ 22, s.gtime + 4096) := by
      rw [State.home_modHome_same]
      exact Map.get_set_same ..
    have hview (u : State) (hu : u.scrubView = z.scrubView) :
        (u.home hid.val).scrub.get key (0, 0) = ((at'.1 + 1) % 2 ^ 22, s.gtime + 4096) ∧ u.tiles = s.tiles := by
      have h1 : u.tiles = z.tiles := congrArg Prod.fst hu
      have h2 : (u.home hid.val).scrub = (z.home hid.val).scrub := congrFun (congrArg Prod.snd hu) hid.val
      exact ⟨by rw [h2, hz], h1⟩
    split at hx
    next phys _ =>
      obtain ⟨h1, h2⟩ := hview _ (z.readHbm_scrubView phys 256 chk)
      exact ⟨_, hx, h1, z.readHbm_hbm .., h2⟩
    next first _ =>
      obtain ⟨h1, h2⟩ := hview _ (z.readParity_scrubView first chk)
      exact ⟨_, hx, h1, z.readParity_hbm .., h2⟩
  · rw [if_pos (by simp [hk])] at hx
    exact ⟨fun _ => hx, fun _ h => absurd h hk⟩

/-- Settles O51: the comparison of halves (`exec_pairCompare`), the copies and remaps of rows, and the scrub. -/
theorem pairsAndRows : Obligations.PairsAndRows := by
  refine fun s => ⟨fun id l h hl hh hf hp => ⟨pairCompare_starved hl hh hf hp, fun hs hd he hg => ?_⟩,
    fun hp hid => ⟨rowUnitCopyDone_spec hp hid, rowRemap_spec hp hid⟩,
    fun hid stack ch chk hc hf => patrolScrubRead_spec hid stack ch chk hc hf⟩
  have hx := exec_pairCompare hl hh hf hp hs hd he hg
  have hid := State.launch?_id hl
  refine ⟨fun hc => hx.trans (if_pos hc), fun hc ha => ⟨_, hx.trans ?_, rfl⟩, fun hc ha => ?_⟩
  · rw [if_neg (by rw [hc]; decide), if_pos ha]
    rfl
  · rw [if_neg (by rw [hc]; decide), if_neg (by rw [ha]; decide)] at hx
    refine ⟨_, hx, ?_, ?_, ?_⟩
    · have h := (s.recordPair id 2).complete_stores l 2 cMCPAIR 0
      exact congrArg Stores.hbm h
    · rw [← hid]
      exact (s.recordPair l.id 2).complete_gone l 2 cMCPAIR 0
    · exact (State.complete_events ..).trans (s.recordPair_events id 2)

end Sys2Proof.Machine
end

section
/-! ## Where a gang is placed (R155, R316, R317) -/

namespace Sys2Proof.Machine

open Sys2Proof

variable {s : State} {id : BitVec 32} {l : Launch}

theorem State.unloaded_iff (s : State) (l : Launch) :
    s.unloaded l = true ↔ l.record.wsload = true ∨ ∀ d ∈ l.dies, ∀ k ∈ s.running d, k.record.wsload = false := by
  rw [State.unloaded, Bool.or_eq_true, Bool.not_eq_true', State.loadRuns, List.any_eq_false]
  refine or_congr_right (forall_congr' fun d => forall_congr' fun _ => ?_)
  rw [Bool.not_eq_true, List.any_eq_false]
  exact forall_congr' fun k => forall_congr' fun _ => iff_of_eq (Bool.not_eq_true _)

/-! ### The places of a gang -/

/-- The first `k` tiles of a crew, by their place on the die. -/
def crewPart (c k : Nat) : List Nat := (List.range k).map fun j => 4 * c + j

theorem mem_crewPart {c k p : Nat} : p ∈ crewPart c k ↔ 4 * c ≤ p ∧ p < 4 * c + k := by
  rw [crewPart, List.mem_map]
  constructor
  · rintro ⟨j, hj, rfl⟩
    have := List.mem_range.1 hj
    omega
  · rintro ⟨h1, h2⟩
    exact ⟨p - 4 * c, List.mem_range.2 (by omega), by omega⟩

theorem crewPart_nodup (c k : Nat) : (crewPart c k).Nodup :=
  List.Nodup.map (fun a b h => by omega) List.nodup_range

theorem crewPart_getElem? {c k m p : Nat} (h : (crewPart c k)[m]? = some p) : p % 4 = m % 4 := by
  rw [crewPart, List.getElem?_map, Option.map_eq_some_iff] at h
  obtain ⟨j, hj, rfl⟩ := h
  obtain ⟨hm, rfl⟩ := List.getElem?_eq_some_iff.1 hj
  rw [List.length_range] at hm
  rw [List.getElem_range]
  omega

/-- The tiles of whole crews. -/
def crewsWhole (cs : List Nat) : List Nat := cs.flatMap fun c => crewPart c 4

theorem length_crewsWhole (cs : List Nat) : (crewsWhole cs).length = 4 * cs.length := by
  induction cs with
  | nil => rfl
  | cons c cs ih =>
    rw [crewsWhole, List.flatMap_cons, List.length_append, List.length_cons]
    rw [crewsWhole] at ih
    rw [ih, crewPart, List.length_map, List.length_range]
    omega

theorem mem_crewsWhole {cs : List Nat} {p : Nat} : p ∈ crewsWhole cs ↔ p / 4 ∈ cs := by
  rw [crewsWhole, List.mem_flatMap]
  constructor
  · rintro ⟨c, hc, hp⟩
    have := mem_crewPart.1 hp
    rwa [show p / 4 = c by omega]
  · exact fun h => ⟨_, h, mem_crewPart.2 (by omega)⟩

theorem crewsWhole_nodup {cs : List Nat} (h : cs.Nodup) : (crewsWhole cs).Nodup := by
  refine List.nodup_flatMap.2 ⟨fun c _ => crewPart_nodup c 4, h.imp fun hne => ?_⟩
  intro p h1 h2
  have h1 := mem_crewPart.1 h1
  have h2 := mem_crewPart.1 h2
  exact hne (by omega)

theorem crewsWhole_getElem? : ∀ {cs : List Nat} {m p : Nat}, (crewsWhole cs)[m]? = some p → p % 4 = m % 4
  | [], _, _, h => absurd h.symm (Option.some_ne_none _)
  | c :: cs, m, p, h => by
    rw [crewsWhole, List.flatMap_cons] at h
    by_cases hm : m < 4
    · rw [List.getElem?_append_left (by simpa [crewPart] using hm)] at h
      exact crewPart_getElem? h
    · have hlen : (crewPart c 4).length = 4 := rfl
      rw [List.getElem?_append_right (by omega), hlen] at h
      have := crewsWhole_getElem? h
      omega

/-- R155, R316: what a placement is made of. -/
theorem State.placement_cases {places : List Nat} (h : s.placement l = some places) :
    ∃ cs : List Nat, cs.length = l.record.gsize / 4 ∧ cs.Nodup ∧ (∀ c ∈ cs, c < 32 ∧ ∀ d ∈ l.dies, s.crewFree d c 4 = true) ∧
      (l.record.gsize % 4 = 0 ∧ places = crewsWhole cs ∨
        ∃ c, c < 32 ∧ c ∉ cs ∧ (∀ d ∈ l.dies, s.crewFree d c (l.record.gsize % 4) = true) ∧
          places = crewsWhole cs ++ crewPart c (l.record.gsize % 4)) := by
  have h := (State.placement.eq_def s l).symm.trans h
  extract_lets n free full tiles at h
  have hmem (c : Nat) (hc : c ∈ full) : c < 32 ∧ ∀ d ∈ l.dies, s.crewFree d c 4 = true := by
    obtain ⟨h1, h2⟩ := List.mem_filter.1 (List.mem_of_mem_take hc)
    exact ⟨List.mem_range.1 h1, List.all_eq_true.1 h2⟩
  have hnodup : full.Nodup := ((List.nodup_range.filter _).sublist (List.take_sublist ..))
  have hle : full.length ≤ n / 4 := List.length_take_le ..
  split at h
  · exact absurd h.symm (Option.some_ne_none _)
  next hlt =>
    refine ⟨full, by omega, hnodup, hmem, ?_⟩
    split at h
    next h0 => exact .inl ⟨h0, (Option.some.inj h).symm⟩
    next h0 =>
      split at h
      next c hc =>
        have hp := List.find?_some hc
        have hr := List.mem_of_find?_eq_some hc
        rw [Bool.and_eq_true, Bool.not_eq_true', ← Bool.not_eq_true, List.contains_iff_mem] at hp
        exact .inr ⟨c, List.mem_range.1 hr, hp.1, List.all_eq_true.1 hp.2, (Option.some.inj h).symm⟩
      next => exact absurd h.symm (Option.some_ne_none _)

theorem State.crewFree_spec {d : DieId} {c k : Nat} (h : s.crewFree d c k = true) :
    (s.die d).test.online.getLsbD c = true ∧ ∀ j, j < k → (s.tile (Fin.ofNat 512 (128 * d.val + (4 * c + j)))).place = none := by
  rw [State.crewFree] at h
  rw [Bool.and_eq_true, Bool.and_eq_true, Bool.and_eq_true] at h
  obtain ⟨⟨⟨h1, -⟩, -⟩, h2⟩ := h
  refine ⟨h1, fun j hj => ?_⟩
  have h := List.all_eq_true.1 h2 j (List.mem_range.2 hj)
  rw [Nat.add_assoc] at h
  exact Option.isNone_iff_eq_none.1 h

/-- R155, R316: the places that a placement names. -/
theorem State.placement_spec {places : List Nat} (h : s.placement l = some places) :
    places.length = l.record.gsize ∧ places.Nodup ∧ (∀ k ∈ places, k < 128 ∧ ∀ d ∈ l.dies,
      (s.die d).test.online.getLsbD (k / 4) = true ∧ (s.tile (Fin.ofNat 512 (128 * d.val + k))).place = none) ∧
    ∀ m k, places[m]? = some k → k % 4 = m % 4 := by
  obtain ⟨cs, hlen, hnodup, hcs, hp⟩ := State.placement_cases h
  have hcrew (c k j : Nat) (hc : c < 32) (hf : ∀ d ∈ l.dies, s.crewFree d c k = true) (hj : j ∈ crewPart c k) (hk : k ≤ 4) :
      j < 128 ∧ ∀ d ∈ l.dies, (s.die d).test.online.getLsbD (j / 4) = true ∧ (s.tile (Fin.ofNat 512 (128 * d.val + j))).place = none := by
    obtain ⟨h1, h2⟩ := mem_crewPart.1 hj
    refine ⟨by omega, fun d hd => ?_⟩
    obtain ⟨h3, h4⟩ := State.crewFree_spec (hf d hd)
    refine ⟨by rwa [show j / 4 = c by omega], ?_⟩
    have h4 := h4 (j - 4 * c) (by omega)
    rwa [show 4 * c + (j - 4 * c) = j by omega] at h4
  have hwhole (j : Nat) (hj : j ∈ crewsWhole cs) :
      j < 128 ∧ ∀ d ∈ l.dies, (s.die d).test.online.getLsbD (j / 4) = true ∧ (s.tile (Fin.ofNat 512 (128 * d.val + j))).place = none := by
    obtain ⟨h1, h2⟩ := hcs _ (mem_crewsWhole.1 hj)
    exact hcrew (j / 4) 4 j h1 h2 (mem_crewPart.2 (by omega)) (Nat.le_refl 4)
  rcases hp with ⟨h0, rfl⟩ | ⟨c, hc, hn, hf, rfl⟩
  · exact ⟨by rw [length_crewsWhole]; omega, crewsWhole_nodup hnodup, hwhole, fun m k hk => crewsWhole_getElem? hk⟩
  · have hlen' : (crewsWhole cs).length = 4 * (l.record.gsize / 4) := by rw [length_crewsWhole, hlen]
    refine ⟨?_, List.Nodup.append (crewsWhole_nodup hnodup) (crewPart_nodup ..) fun j h1 h2 => hn ?_, fun j hj => ?_, fun m k hk => ?_⟩
    · rw [List.length_append, hlen', crewPart, List.length_map, List.length_range]
      omega
    · obtain ⟨h3, h4⟩ := mem_crewPart.1 h2
      have h1 := mem_crewsWhole.1 h1
      rwa [show j / 4 = c by omega] at h1
    · exact (List.mem_append.1 hj).elim (hwhole j) fun h => hcrew c _ j hc hf h (by omega)
    · by_cases hm : m < (crewsWhole cs).length
      · rw [List.getElem?_append_left hm] at hk
        exact crewsWhole_getElem? hk
      · rw [List.getElem?_append_right (by omega)] at hk
        have := crewPart_getElem? hk
        omega

/-! ### Members that take a point (R316, rules 1 to 3) -/

theorem takesPoint_bound {g : Gang} {p : Point} {k m : Nat} (h : g.tileBound = [(k, p.idx.take k, m)]) : takesPoint [g] p = some m := by
  have hp : (g.prune p).tileBound = [(k, p.idx.take k, m)] := by
    rw [Gang.prune, h]
    exact List.filter_eq_self.2 fun b hb => by rw [List.mem_singleton.1 hb]; exact decide_eq_true rfl
  rw [takesPoint, hp]
  rfl

/-- R316: where no bound point binds, the first free member takes the point. -/
theorem takesPoint_free {g : Gang} {p : Point} (h : ∀ b ∈ g.tileBound ++ g.crewBound, p.idx.take b.1 ≠ b.2.1) (m : Nat) :
    let free (m : Nat) : Prop := g.lists.getD m [] = [] ∧ g.running.getD m none = none
    (takesPoint [g] p = some m ↔ m < g.tiles.length ∧ free m ∧ ∀ j, j < m → ¬free j) := by
  intro free
  have ht : (g.prune p).tileBound = [] := List.filter_eq_nil_iff.2 fun b hb => by
    rw [decide_eq_true_iff]
    exact h b (List.mem_append_left _ hb)
  have hc : g.crewFor p = none := by
    have hc : (g.prune p).crewBound = [] := List.filter_eq_nil_iff.2 fun b hb => by
      rw [decide_eq_true_iff]
      exact h b (List.mem_append_right _ hb)
    rw [Gang.crewFor, hc]
    rfl
  have hfree (j : Nat) : ([g].all fun h => h.memberFree p j) = true ↔ free j := by
    rw [List.all_cons, List.all_nil, Bool.and_true, Gang.memberFree, ht, Bool.and_eq_true, Bool.and_eq_true,
      List.isEmpty_iff, Option.isNone_iff_eq_none]
    exact and_iff_left rfl
  rw [takesPoint, ht, hc]
  dsimp only [List.head?_nil]
  rw [List.find?_range_eq_some]
  simp only [Bool.true_and]
  rw [hfree, List.mem_range]
  constructor
  · rintro ⟨h1, h2, h3⟩
    exact ⟨h2, h1, fun j hj hf => by have := h3 j hj; rw [(hfree j).2 hf] at this; exact absurd this (by decide)⟩
  · rintro ⟨h1, h2, h3⟩
    refine ⟨h2, h1, fun j hj => ?_⟩
    rw [Bool.not_eq_true']
    exact Bool.eq_false_iff.2 fun hf => h3 j hj ((hfree j).1 hf)

end Sys2Proof.Machine
end

section
/-! ## How a gang is placed, and its image loaded (R155, R159, R297, R317, R368) -/

namespace Sys2Proof.Machine

open Sys2Proof

variable {s : State} {id : BitVec 32} {l : Launch}

/-! ### Tiles that change one by one -/

theorem foldl_modTile_notMem {α : Type} (key : α → TileId) (f : α → Tile → Tile) (as : List α) (s : State) {t : TileId}
    (h : ∀ a ∈ as, key a ≠ t) : (as.foldl (fun s a => s.modTile (key a) (f a)) s).tile t = s.tile t := by
  induction as generalizing s with
  | nil => rfl
  | cons a as ih =>
    obtain ⟨ha, has⟩ := List.forall_mem_cons.1 h
    exact (ih _ has).trans (State.tile_modTile_ne _ _ _ _ ha.symm)

theorem foldl_modTile_mem {α : Type} (key : α → TileId) (f : α → Tile → Tile) (as : List α) (s : State) (hn : (as.map key).Nodup) {a : α}
    (h : a ∈ as) : (as.foldl (fun s a => s.modTile (key a) (f a)) s).tile (key a) = f a (s.tile (key a)) := by
  induction as generalizing s with
  | nil => exact absurd h List.not_mem_nil
  | cons b as ih =>
    obtain ⟨hb, has⟩ := List.nodup_cons.1 hn
    rw [List.foldl_cons]
    rcases List.mem_cons.1 h with rfl | h
    · rw [foldl_modTile_notMem key f as _ fun c hc he => hb (List.mem_map.2 ⟨c, hc, he⟩), State.tile_modTile_same]
    · rw [ih _ has h, State.tile_modTile_ne _ _ _ _ fun he => hb (List.mem_map.2 ⟨a, h, he⟩)]

/-! ### One die -/

/-- The tile at a place of a die. -/
def placeTile (d : DieId) (k : Nat) : TileId := Fin.ofNat 512 (128 * d.val + k)

theorem placeTile_inj {d e : DieId} {j k : Nat} (hj : j < 128) (hk : k < 128) (h : placeTile d j = placeTile e k) : d = e ∧ j = k := by
  have h := congrArg Fin.val h
  have hd := d.isLt
  have he := e.isLt
  simp only [placeTile, Fin.ofNat] at h
  have hv : d.val = e.val := by omega
  exact ⟨Fin.ext hv, by omega⟩

/-- A member at its placement. -/
def Tile.placed (x : Tile) (l : Launch) (tiles : List TileId) (mcdelay m : Nat) (first : TileId) : Tile :=
  { x with
    place := some ⟨l.id, m, tiles, l.depth, l.record.pair⟩,
    cox := { x.cox with mcdelay := BitVec.ofNat 32 mcdelay, wheel := wheelFor l.record m first } }

theorem State.placeMember_wheel (s : State) (l : Launch) (tiles : List TileId) (mcdelay m : Nat) (t first : TileId) :
    ((s.placeMember l tiles mcdelay m t).modCox t fun c => { c with wheel := wheelFor l.record m first }) =
      s.modTile t fun x => x.placed l tiles mcdelay m first :=
  State.modTile_modTile ..

/-- The gang that a die gets. -/
def State.gangPlaced (s : State) (l : Launch) (d : DieId) (places : List Nat) : Gang :=
  let tiles := places.map (placeTile d)
  { abandonedGang (l.groupOf l.point) with
    tiles := tiles, lists := tiles.map fun _ => [], running := tiles.map fun _ => none,
    delay := s.mcdelayFor l.die (places.map (placeTile l.die)),
    loading := !tiles.all fun t => (s.tile t).image = some l.record.image }

/-- A launch with one gang more. -/
def Launch.gains (l : Launch) (gs : List Gang) : Launch := { l with gangs := l.gangs ++ gs }

theorem State.mcdelayFor_dies {u : State} (h : u.dies = s.dies) (d : DieId) (ts : List TileId) : u.mcdelayFor d ts = s.mcdelayFor d ts := by
  have hd (e : DieId) : u.die e = s.die e := congrArg (fun m => Map.get m e.val Die.reset) h
  have ho : u.ownPasses d = s.ownPasses d := funext fun st => by rw [State.ownPasses, State.ownPasses, hd]
  rw [State.mcdelayFor, State.mcdelayFor, ho]

/-- R155, R159, R317: a gang on one die. -/
theorem State.placeGang_spec {places : List Nat} (hn : places.Nodup) (hlt : ∀ k ∈ places, k < 128) {gs : List Gang}
    (hl : s.launch? l.id = some (l.gains gs)) (d : DieId) :
    let u := s.placeGang l d places
    u.dies = s.dies ∧ u.launch? l.id = some (l.gains (gs ++ [s.gangPlaced l d places])) ∧
    (∀ t, (∀ k ∈ places, placeTile d k ≠ t) → u.tile t = s.tile t) ∧
    ∀ j k, places[j]? = some k → u.tile (placeTile d k) = (s.tile (placeTile d k)).placed l (places.map (placeTile d))
      (s.mcdelayFor l.die (places.map (placeTile l.die))) j (placeTile l.die k) := by
  intro u
  let tiles := places.map (placeTile d)
  let first := places.map (placeTile l.die)
  let mcdelay := s.mcdelayFor l.die first
  let key (x : (TileId × TileId) × Nat) : TileId := x.1.1
  let f (x : (TileId × TileId) × Nat) (y : Tile) : Tile := y.placed l tiles mcdelay x.2 x.1.2
  let z := (tiles.zip first).zipIdx.foldl (fun s x => s.modTile (key x) (f x)) s
  have hz : z = (tiles.zip first).zipIdx.foldl (fun s x =>
      (s.placeMember l tiles mcdelay x.2 x.1.1).modCox x.1.1 fun c => { c with wheel := wheelFor l.record x.2 x.1.2 }) s := by
    refine congrArg (fun g => (tiles.zip first).zipIdx.foldl g s) (funext fun s => funext fun x => ?_)
    exact (State.placeMember_wheel ..).symm
  have hkeys : (tiles.zip first).zipIdx.map key = tiles := by
    have h : (tiles.zip first).zipIdx.map key = ((tiles.zip first).zipIdx.map Prod.fst).map Prod.fst := by rw [List.map_map]; rfl
    rw [h, List.zipIdx_map_fst, List.map_fst_zip (by simp [tiles, first])]
  have htn : tiles.Nodup := hn.map_on fun a ha b hb h => (placeTile_inj (hlt a ha) (hlt b hb) h).2
  obtain ⟨hzl, hzd⟩ := foldl_modTile_keeps (tiles.zip first).zipIdx key f s
  have hmem {j k : Nat} (hk : places[j]? = some k) : ((placeTile d k, placeTile l.die k), j) ∈ (tiles.zip first).zipIdx := by
    refine List.mem_zipIdx_iff_getElem?.2 ?_
    rw [List.getElem?_zip_eq_some]
    exact ⟨by simp [tiles, hk], by simp [first, hk]⟩
  have hin {j k : Nat} (hk : places[j]? = some k) : z.tile (placeTile d k) = (s.tile (placeTile d k)).placed l tiles mcdelay j (placeTile l.die k) :=
    foldl_modTile_mem key f _ s (by rw [hkeys]; exact htn) (hmem hk)
  have himage (t : TileId) : (z.tile t).image = (s.tile t).image :=
    foldl_keeps (p := fun u : State => (u.tile t).image = (s.tile t).image) (f := fun s x => s.modTile (key x) (f x)) (fun v x hv => by
      by_cases ht : t = key x
      · rw [ht, State.tile_modTile_same]
        rw [ht] at hv
        exact hv
      · rw [State.tile_modTile_ne _ _ _ _ ht]
        exact hv) rfl
  have hu : u = z.modLaunch l.id fun k => k.gains [{ abandonedGang (k.groupOf k.point) with
      tiles := tiles, lists := tiles.map fun _ => [], running := tiles.map fun _ => none, delay := mcdelay,
      loading := !tiles.all fun t => (z.tile t).image = some l.record.image }] := by
    rw [hz]
    rfl
  have hout (t : TileId) (ht : ∀ k ∈ places, placeTile d k ≠ t) : z.tile t = s.tile t := by
    refine foldl_modTile_notMem key f _ s fun a ha he => ?_
    have hm : key a ∈ tiles := hkeys ▸ List.mem_map_of_mem ha
    obtain ⟨k, hk, hk'⟩ := List.mem_map.1 hm
    exact ht k hk (hk'.trans he)
  have hlz : z.launch? l.id = some (l.gains gs) := (congrArg (List.find? _) hzl).trans hl
  refine ⟨?_, ?_, fun t ht => ?_, fun j k hk => ?_⟩
  · rw [hu]
    exact hzd
  · let g (k : Launch) : Launch := k.gains [{ abandonedGang (k.groupOf k.point) with
      tiles := tiles, lists := tiles.map fun _ => [], running := tiles.map fun _ => none, delay := mcdelay,
      loading := !tiles.all fun t => (z.tile t).image = some l.record.image }]
    rw [hu]
    refine (State.launch?_modLaunch (f := g) (fun _ => rfl) hlz).trans (congrArg some ?_)
    have hg : g (l.gains gs) = (l.gains gs).gains [{ s.gangPlaced l d places with
        loading := !tiles.all fun t => (z.tile t).image = some l.record.image }] := rfl
    simp only [himage] at hg
    rw [hg, Launch.gains, Launch.gains, Launch.gains, List.append_assoc]
    rfl
  · rw [hu]
    exact hout t ht
  · rw [hu]
    exact hin hk

theorem State.gangPlaced_congr {u : State} {d : DieId} {places : List Nat} (hd : u.dies = s.dies)
    (ht : ∀ k ∈ places, u.tile (placeTile d k) = s.tile (placeTile d k)) : u.gangPlaced l d places = s.gangPlaced l d places := by
  have hall : ((places.map (placeTile d)).all fun t => decide ((u.tile t).image = some l.record.image)) =
      (places.map (placeTile d)).all fun t => decide ((s.tile t).image = some l.record.image) := by
    rw [List.all_map, List.all_map, Bool.eq_iff_iff, List.all_eq_true, List.all_eq_true]
    refine forall_congr' fun k => forall_congr' fun hk => ?_
    rw [Function.comp_apply, Function.comp_apply, ht k hk]
  rw [State.gangPlaced, State.gangPlaced, State.mcdelayFor_dies hd]
  simp only [hall]

/-- R155, R368: the gangs on the dies of a launch. -/
theorem State.placeGangs_spec {places : List Nat} (hn : places.Nodup) (hlt : ∀ k ∈ places, k < 128) (ds : List DieId) (hds : ds.Nodup)
    (s : State) (gs : List Gang) (hl : s.launch? l.id = some (l.gains gs)) :
    let u := ds.foldl (fun s d => s.placeGang l d places) s
    u.launch? l.id = some (l.gains (gs ++ ds.map fun d => s.gangPlaced l d places)) ∧
    (∀ t, (∀ d ∈ ds, ∀ k ∈ places, placeTile d k ≠ t) → u.tile t = s.tile t) ∧
    ∀ d ∈ ds, ∀ j k, places[j]? = some k → u.tile (placeTile d k) = (s.tile (placeTile d k)).placed l (places.map (placeTile d))
      (s.mcdelayFor l.die (places.map (placeTile l.die))) j (placeTile l.die k) := by
  induction ds generalizing s gs with
  | nil =>
    refine ⟨?_, fun _ _ => rfl, fun d hd => absurd hd List.not_mem_nil⟩
    rw [List.map_nil, List.append_nil]
    exact hl
  | cons a ds ih =>
    obtain ⟨ha, hds⟩ := List.nodup_cons.1 hds
    obtain ⟨h1, h2, h3, h4⟩ := State.placeGang_spec hn hlt hl a
    obtain ⟨k1, k2, k3⟩ := ih hds (s.placeGang l a places) _ h2
    have hother (d : DieId) (hd : d ∈ ds) (k : Nat) (hk : k ∈ places) :
        (s.placeGang l a places).tile (placeTile d k) = s.tile (placeTile d k) := by
      refine h3 _ fun j hj he => ha ?_
      rw [(placeTile_inj (hlt j hj) (hlt k hk) he).1]
      exact hd
    refine ⟨?_, fun t ht => ?_, fun d hd j k hk => ?_⟩
    · rw [List.foldl_cons, k1, List.map_cons, List.append_assoc]
      refine congrArg (fun gs' => some (l.gains (gs ++ (s.gangPlaced l a places :: gs')))) (List.map_congr_left fun d hd => ?_)
      exact State.gangPlaced_congr h1 (hother d hd)
    · exact (k2 t fun d hd => ht d (List.mem_cons_of_mem _ hd)).trans (h3 t (ht a List.mem_cons_self))
    · rcases List.mem_cons.1 hd with rfl | hd
      · refine (k2 _ fun e he i hi hq => ha ?_).trans (h4 j k hk)
        rw [← (placeTile_inj (hlt i hi) (hlt k (List.mem_of_getElem? hk)) hq).1]
        exact he
      · rw [List.foldl_cons, k3 d hd j k hk, hother d hd k (List.mem_of_getElem? hk), State.mcdelayFor_dies h1]

theorem Launch.dies_nodup (l : Launch) : l.dies.Nodup := by
  rw [Launch.dies]
  split
  · decide
  · exact List.nodup_singleton _

theorem wheelFor_toNat (r : LaunchRec) (m : Nat) (t : TileId) (i : Fin 4) :
    ((wheelFor r m t)[i]).toNat = ((if r.wheelEn then r.wheel + m else t.val) + 512 * i.val) % 2048 := by
  rw [wheelFor, Fin.getElem_fin, Vector.getElem_ofFn, BitVec.toNat_ofNat]
  split <;> rfl

/-- R155, R316, R317: a gang group is placed. -/
theorem gangPlace_spec (hl : s.launch? id = some l) {places : List Nat} (hpl : s.placement l = some places) (hp : s.phase = .running)
    (hneed : l.needsGang s.gtime = true) (hmay : l.dies.all s.mayPlace = true) (hun : s.unloaded l = true)
    (hno : ∀ g ∈ l.gangs, g.loading = false) :
    let holds : Prop := ∀ d ∈ l.dies, ∀ k ∈ places, (s.tile (placeTile d k)).image = some l.record.image
    ∃ u m, exec (.gangPlace id) s = .next u ∧ u.launch? id = some m ∧ (holds → m.waiting = none) ∧ (¬holds → m.waiting = l.waiting) ∧
      (holds ↔ ∀ g ∈ m.gangs, g.loading = false) ∧
      (∀ g ∈ m.gangs, g ∈ l.gangs ∨ g.group = l.groupOf l.point ∧ g.tiles.length = l.record.gsize) ∧
      ∀ d ∈ l.dies, ∀ j k, places[j]? = some k → u.tile (placeTile d k) = (s.tile (placeTile d k)).placed l (places.map (placeTile d))
        (s.mcdelayFor l.die (places.map (placeTile l.die))) j (placeTile l.die k) := by
  intro holds
  obtain ⟨hlen, hnodup, hlt, -⟩ := State.placement_spec hpl
  have hid := State.launch?_id hl
  have hx : exec (.gangPlace id) s = _ := execGangPlace.eq_def ..
  rw [hl] at hx
  have hany : l.gangs.any Gang.loading = false := List.any_eq_false.2 fun g hg => by rw [hno g hg]; decide
  dsimp only at hx
  rw [hp, hneed, hmay, hun, hany, if_neg (by simp), if_pos (by simp)] at hx
  rw [hpl] at hx
  dsimp only at hx
  have hgain : s.launch? l.id = some (l.gains []) := by
    rw [hid, hl, Launch.gains, List.append_nil]
  obtain ⟨h1, -, h3⟩ := State.placeGangs_spec hnodup (fun k hk => (hlt k hk).1) l.dies l.dies_nodup s [] hgain
  rw [List.nil_append, hid] at h1
  have hload (d : DieId) : (s.gangPlaced l d places).loading = false ↔ ∀ k ∈ places, (s.tile (placeTile d k)).image = some l.record.image := by
    show (!_) = false ↔ _
    rw [Bool.not_eq_false', List.all_map, List.all_eq_true]
    exact forall_congr' fun k => forall_congr' fun _ => decide_eq_true_iff
  have hholds : holds ↔ ∀ g ∈ l.gangs ++ l.dies.map fun d => s.gangPlaced l d places, g.loading = false := by
    refine ⟨fun h g hg => ?_, fun h d hd => (hload d).1 (h _ (List.mem_append_right _ (List.mem_map_of_mem hd)))⟩
    rcases List.mem_append.1 hg with hg | hg
    · exact hno g hg
    · obtain ⟨d, hd, rfl⟩ := List.mem_map.1 hg
      exact (hload d).2 (h d hd)
  have hgroup : ∀ g ∈ l.gangs ++ l.dies.map fun d => s.gangPlaced l d places,
      g ∈ l.gangs ∨ g.group = l.groupOf l.point ∧ g.tiles.length = l.record.gsize := fun g hg => by
    refine (List.mem_append.1 hg).imp (fun h => h) fun hg => ?_
    obtain ⟨d, hd, rfl⟩ := List.mem_map.1 hg
    exact ⟨rfl, (List.length_map ..).trans hlen⟩
  have hm := State.launch?_modLaunch (f := Launch.placed) (fun k => by rw [Launch.placed]; split <;> rfl) h1
  refine ⟨_, _, hx, hm, fun h => ?_, fun h => ?_, ?_, ?_, h3⟩
  · rw [Launch.placed, if_neg]
    rw [Bool.not_eq_true]
    exact List.any_eq_false.2 fun g hg => by rw [hholds.1 h g hg]; decide
  · rw [Launch.placed, if_pos]
    · rfl
    · by_contra hc
      refine h (hholds.2 fun g hg => ?_)
      rw [Bool.not_eq_true] at hc
      exact Bool.eq_false_iff.2 (List.any_eq_false.1 hc g hg)
  · rw [hholds, Launch.placed]
    split <;> rfl
  · rw [Launch.placed]
    split <;> exact hgroup

/-! ### The image of a launch (R317, R58) -/

theorem Tile.loadImage_fields (x : Tile) (h : Word) (f : Image) : (x.loadImage h f).place = x.place ∧ (x.loadImage h f).sp = x.sp ∧
    (x.loadImage h f).image = some h ∧ (x.loadImage h f).cox.imem = x.cox.imem.write 0 f.imem := by
  let z : Tile := { x with image := some h, cox := { x.cox with imem := x.cox.imem.write 0 f.imem } }
  let g (y : Tile) (e : Eng) : Tile := y.modEng e fun k => { k with
    store := k.store.write 0 f.parts[e.ix],
    dir := (partSections f.parts[e.ix] f.parts[e.ix].length 0).foldl (fun m k => m.set k.2 k.1) k.dir }
  have hu : x.loadImage h f = Sys2Proof.engines.foldl g z := rfl
  rw [hu]
  exact foldl_keeps (p := fun y : Tile => y.place = x.place ∧ y.sp = x.sp ∧ y.image = some h ∧ y.cox.imem = x.cox.imem.write 0 f.imem)
    (f := g) (fun _ _ hy => hy) ⟨rfl, rfl, rfl, rfl⟩

theorem State.loadMember_held {t : TileId} (h : (s.tile t).image = some l.record.image) : s.loadMember l t = s := if_pos h

theorem State.loadMember_sys (s : State) (l : Launch) (t : TileId) : (s.loadMember l t).sys = s.sys := by
  rw [State.loadMember]
  split
  · rfl
  · split <;> rfl

theorem State.loadMember_launches (s : State) (l : Launch) (t : TileId) : (s.loadMember l t).launches = s.launches := by
  rw [State.loadMember]
  split
  · rfl
  · split <;> rfl

theorem State.loadMember_tile_ne {t v : TileId} (h : v ≠ t) (s : State) (l : Launch) : (s.loadMember l t).tile v = s.tile v := by
  rw [State.loadMember]
  split
  · rfl
  · split
    next i _ => exact State.tile_modTile_ne s t v (fun x => x.loadImage i.1 i.2) h
    · rfl

/-- R317: the place and the scratchpad of a member stay as its image is loaded. -/
theorem State.loadMember_keeps (s : State) (l : Launch) (t v : TileId) :
    ((s.loadMember l t).tile v).place = (s.tile v).place ∧ ((s.loadMember l t).tile v).sp = (s.tile v).sp := by
  by_cases h : v = t
  · rw [h, State.loadMember]
    split
    · exact ⟨rfl, rfl⟩
    · split
      next i _ =>
        obtain ⟨h1, h2, -⟩ := (s.tile t).loadImage_fields i.1 i.2
        have ht : (s.modTile t fun x => x.loadImage i.1 i.2).tile t = (s.tile t).loadImage i.1 i.2 := State.tile_modTile_same ..
        exact ⟨(congrArg Tile.place ht).trans h1, (congrArg Tile.sp ht).trans h2⟩
      · exact ⟨rfl, rfl⟩
  · rw [State.loadMember_tile_ne h]
    exact ⟨rfl, rfl⟩

theorem State.loadMember_tile {t : TileId} {f : Image} (hi : s.sys.images.find? (fun i => i.1 = l.record.image) = some (l.record.image, f))
    (h : (s.tile t).image ≠ some l.record.image) :
    (s.loadMember l t).tile t = (s.tile t).loadImage l.record.image f := by
  rw [State.loadMember, if_neg h, hi]
  exact State.tile_modTile_same s t fun x => x.loadImage l.record.image f

/-- R317: the members of a list are given the image. -/
theorem State.foldl_loadMember (l : Launch) (ts : List TileId) (s : State) (v : TileId) :
    let u := ts.foldl (fun s t => s.loadMember l t) s
    u.launches = s.launches ∧ (u.tile v).place = (s.tile v).place ∧ (u.tile v).sp = (s.tile v).sp ∧
    ((s.tile v).image = some l.record.image → u.tile v = s.tile v) ∧
    ∀ f, s.sys.images.find? (fun i => i.1 = l.record.image) = some (l.record.image, f) → v ∈ ts →
      (s.tile v).image ≠ some l.record.image → u.tile v = (s.tile v).loadImage l.record.image f := by
  induction ts generalizing s with
  | nil => exact ⟨rfl, rfl, rfl, fun _ => rfl, fun _ _ h => absurd h List.not_mem_nil⟩
  | cons a ts ih =>
    obtain ⟨h1, h2, h3, h4, h5⟩ := ih (s.loadMember l a)
    obtain ⟨k1, k2⟩ := s.loadMember_keeps l a v
    refine ⟨h1.trans (s.loadMember_launches l a), h2.trans k1, h3.trans k2, fun h => ?_, fun f hf hv hne => ?_⟩
    · have hs : (s.loadMember l a).tile v = s.tile v := by
        by_cases hva : v = a
        · rw [← hva, State.loadMember_held h]
        · exact State.loadMember_tile_ne hva s l
      rw [hs] at h4
      exact h4 h
    · by_cases hva : v = a
      · have ht : (s.loadMember l a).tile v = (s.tile v).loadImage l.record.image f := by
          rw [← hva]
          exact State.loadMember_tile hf hne
        refine (h4 ?_).trans ht
        rw [ht]
        exact ((s.tile v).loadImage_fields _ f).2.2.1
      · have ht := State.loadMember_tile_ne hva s l
        rw [ht, State.loadMember_sys] at h5
        exact h5 f hf ((List.mem_cons.1 hv).resolve_left hva) hne

/-- R317: the load of an image ends. -/
theorem gangPlace_loaded (hl : s.launch? id = some l) (hp : s.phase = .running) (hs : l.dies.all s.schedules = true)
    (hg : ∃ g ∈ l.gangs, g.loading = true) : ∃ u, exec (.gangPlace id) s = .next u ∧
      u.launch? id = some { l with waiting := none, gangs := l.gangs.map fun g => { g with loading := false } } ∧
      ∀ g ∈ l.gangs, g.loading = true → ∀ t ∈ g.tiles, (u.tile t).place = (s.tile t).place ∧ (u.tile t).sp = (s.tile t).sp ∧
        ∀ f, s.sys.images.find? (fun i => i.1 = l.record.image) = some (l.record.image, f) →
          (u.tile t).image = some l.record.image ∧ ((s.tile t).image = some l.record.image → u.cox t = s.cox t) ∧
          ((s.tile t).image ≠ some l.record.image → (u.cox t).imem = (s.cox t).imem.write 0 f.imem) := by
  have hx : exec (.gangPlace id) s = _ := execGangPlace.eq_def ..
  rw [hl] at hx
  dsimp only at hx
  rw [hp, hs, List.any_eq_true.2 hg, if_pos (by simp)] at hx
  have hid := State.launch?_id hl
  let g (k : Launch) : Launch := { k with waiting := none, gangs := k.gangs.map fun g => { g with loading := false } }
  have hload := State.foldl_loadMember l ((l.gangs.filter Gang.loading).flatMap Gang.tiles) s
  let z := ((l.gangs.filter Gang.loading).flatMap Gang.tiles).foldl (fun s t => s.loadMember l t) s
  have hz : s.loaded l = z.modLaunch l.id g := rfl
  refine ⟨_, hx, ?_, fun g hg hlo t ht => ?_⟩
  · have hlz : z.launch? id = some l := (congrArg (List.find? _) (hload 0).1).trans hl
    rw [hz]
    have h := State.launch?_modLaunch (f := g) (fun _ => rfl) hlz
    rw [← hid] at h ⊢
    exact h
  · obtain ⟨-, h2, h3, h4, h5⟩ := hload t
    have hm : t ∈ (l.gangs.filter Gang.loading).flatMap Gang.tiles := List.mem_flatMap.2 ⟨g, List.mem_filter.2 ⟨hg, hlo⟩, ht⟩
    refine ⟨h2, h3, fun f hf => ?_⟩
    by_cases hi : (s.tile t).image = some l.record.image
    · have h4 : (s.loaded l).tile t = s.tile t := h4 hi
      rw [State.cox, h4]
      exact ⟨hi, fun _ => rfl, fun h => absurd hi h⟩
    · have h5 : (s.loaded l).tile t = _ := h5 f hf hm hi
      rw [State.cox, h5]
      obtain ⟨-, -, k3, k4⟩ := (s.tile t).loadImage_fields l.record.image f
      exact ⟨k3, fun h => absurd h hi, fun _ => k4⟩

end Sys2Proof.Machine
end

section
/-! ## Points (R251, R282, R297, R316, R317) -/

namespace Sys2Proof.Machine

open Sys2Proof

variable {s : State} {id : BitVec 32} {l : Launch}

theorem pointAllocate_loadRuns (hl : s.launch? id = some l) (h : s.unloaded l = false) : exec (.pointAllocate id) s = .next s := by
  have hx : exec (.pointAllocate id) s = _ := execPointAllocate.eq_def ..
  rw [hl] at hx
  refine hx.trans (if_pos ?_)
  rw [h]
  simp

theorem gangPlace_loadRuns (hl : s.launch? id = some l) (h : s.unloaded l = false) (hg : ∀ g ∈ l.gangs, g.loading = false) :
    exec (.gangPlace id) s = .next s := by
  have hx : exec (.gangPlace id) s = _ := execGangPlace.eq_def ..
  have hany : l.gangs.any Gang.loading = false := List.any_eq_false.2 fun g hk => by rw [hg g hk]; decide
  rw [hl] at hx
  dsimp only at hx
  rw [hany, h, if_neg (by simp), if_neg (by simp)] at hx
  exact hx

theorem pointAllocate_loading (hl : s.launch? id = some l) (hi : s.idleMember l = none) (hg : ∃ g ∈ l.gangs, g.loading = true) :
    exec (.pointAllocate id) s = .next s := by
  have hx : exec (.pointAllocate id) s = _ := execPointAllocate.eq_def ..
  rw [hl] at hx
  dsimp only at hx
  rw [hi, List.any_eq_true.2 hg] at hx
  refine hx.trans ?_
  split <;> rfl

/-! ### The registers of a point -/

theorem LaunchRec.xInit_named {r : LaunchRec} {j : Nat} {v : Level} (h : r.levels[j]? = some v)
    (hf : ∀ i w, i < j → r.levels[i]? = some w → w.xreg ≠ v.xreg) (p : Point) : r.xInit p v.xreg = BitVec.ofNat 64 (p.idx.getD j 0) := by
  have hfind : r.levels.zipIdx.find? (fun x => x.1.xreg == v.xreg) = some (v, j) := by
    rw [List.find?_eq_some_iff_getElem]
    obtain ⟨hj, hv⟩ := List.getElem?_eq_some_iff.1 h
    refine ⟨beq_self_eq_true _, j, by rw [List.length_zipIdx]; exact hj, by simp [hv], fun i hi => ?_⟩
    have hil : i < r.levels.length := by omega
    have hne := hf i r.levels[i] hi (List.getElem?_eq_getElem hil)
    simp [hne]
  rw [LaunchRec.xInit, hfind]

theorem LaunchRec.xInit_unnamed {r : LaunchRec} {x : Nat} (h : ∀ v ∈ r.levels, v.xreg ≠ x) (p : Point) : r.xInit p x = 0 := by
  have hfind : r.levels.zipIdx.find? (fun v => v.1.xreg == x) = none := by
    refine List.find?_eq_none.2 fun a ha => ?_
    rw [beq_iff_eq]
    exact h a.1 (List.fst_mem_of_mem_zipIdx ha)
  rw [LaunchRec.xInit, hfind]

theorem Cox.allocated_readX (c : Cox) (r : LaunchRec) (p : Point) (now : Nat) (i : Fin 64) :
    (c.allocated r p now).readX i = if 1 ≤ i.val ∧ i.val ≤ 8 then r.xInit p i.val else 0 := by
  rw [Cox.readX]
  split
  next h0 => rw [h0, if_neg (by simp)]
  next h0 =>
    refine (?_ : _ = (Vector.ofFn fun i : Fin 64 => if 1 ≤ i.val ∧ i.val ≤ 8 then r.xInit p i.val else 0)[i]).trans ?_
    · rfl
    · rw [Fin.getElem_fin, Vector.getElem_ofFn]

theorem Cox.allocated_xValid (c : Cox) (r : LaunchRec) (p : Point) (now : Nat) (i : Fin 64) :
    (c.allocated r p now).xValid i = decide (i.val ≤ 8) := by
  have h : ∀ i : Fin 64, (i == 0 || (0x1FF : BitVec 64).getLsbD i.val) = decide (i.val ≤ 8) := by decide
  exact h i

theorem Tile.allocated_eng (x : Tile) (r : LaunchRec) (p : Point) (now : Nat) (e : Eng) :
    ((x.allocated r p now).eng e).queue = [] ∧ ((x.allocated r p now).eng e).noneRetired = true := by
  have h : (x.allocated r p now).eng e = { Engine.reset with store := (x.eng e).store, dir := (x.eng e).dir } := by
    show (x.engines.map fun g => { Engine.reset with store := g.store, dir := g.dir })[e.ix] = _
    rw [Fin.getElem_fin, Vector.getElem_map]
    rfl
  rw [h]
  exact ⟨rfl, rfl⟩

theorem Tile.allocated_fields (x : Tile) (r : LaunchRec) (p : Point) (now : Nat) :
    let y := x.allocated r p now
    y.iter = some p.n ∧ y.budget = r.budget ∧ y.sp = x.sp ∧ y.tokens = Tile.reset.tokens ∧ y.v = VState.reset ∧ y.m = MState.reset := by
  rw [Tile.allocated]
  exact ⟨rfl, rfl, rfl, rfl, rfl, rfl⟩

theorem Cox.allocated_fields (c : Cox) (r : LaunchRec) (p : Point) (now : Nat) :
    let y := c.allocated r p now
    y.pc = 0 ∧ y.tm = false ∧ y.ie = true ∧ y.fault = none ∧ y.nextIssue = now + 1 :=
  ⟨rfl, rfl, rfl, rfl, rfl⟩

/-- R316: an idle member starts its next point. -/
theorem pointAllocate_starts {c : Nat} {g : Gang} {m : Nat} {t : TileId} {p : Point} (hl : s.launch? id = some l) (hp : s.phase = .running)
    (hs : l.dies.all s.schedules = true) (hd : l.dispatchedAt = some c) (hc : c ≠ s.gtime) (hst : l.stopped = false)
    (hf : l.failure = none ∨ l.failed = true) (hu : s.unloaded l = true) (hi : s.idleMember l = some (g, m, t, p)) :
    exec (.pointAllocate id) s = .next (s.startPoint l g m t p) := by
  have hx : exec (.pointAllocate id) s = _ := execPointAllocate.eq_def ..
  rw [hl] at hx
  dsimp only at hx
  have hfail : ¬(l.failure.isSome = true ∧ l.failed = false) := by
    rintro ⟨h1, h2⟩
    rcases hf with h | h
    · rw [h] at h1; exact absurd h1 (by decide)
    · rw [h] at h2; exact absurd h2 (by decide)
  rw [hi, if_neg ?_] at hx
  · exact hx
  · simp [hp, hs, hd, hc, hst, hu, hfail]

theorem State.startPoint_tile (s : State) (l : Launch) (g : Gang) (m : Nat) (t : TileId) (p : Point) :
    (s.startPoint l g m t p).tile t = (s.tile t).allocated l.record p s.gtime ∧
    ∀ v, v ≠ t → (s.startPoint l g m t p).tile v = s.tile v :=
  ⟨State.tile_modTile_same .., fun _ hv => State.tile_modTile_ne _ _ _ _ hv⟩

/-- Settles O48: the places of a gang (`State.placement_spec`), its placement, the load of its image, and the start of a point. -/
theorem placement : Obligations.Placement := by
  intro s id l hl unloaded
  have hun : unloaded ↔ s.unloaded l = true := (s.unloaded_iff l).symm
  have hid := State.launch?_id hl
  refine ⟨fun h => ?_, pointAllocate_loading hl, fun places hpl => ?_, fun hp hs hg => gangPlace_loaded hl hp hs hg,
    fun g p => ⟨fun k m h => takesPoint_bound h, takesPoint_free⟩, fun c g m t p hp hs hd hc hst hf hu hi => ?_⟩
  · rw [hun, Bool.not_eq_true] at h
    exact ⟨pointAllocate_loadRuns hl h, gangPlace_loadRuns hl h⟩
  · obtain ⟨h1, h2, h3, h4⟩ := State.placement_spec hpl
    refine ⟨h1, h2, h3, h4, fun hp hneed hmay hu hno => ?_⟩
    obtain ⟨u, m, k1, k2, k3, k4, k5, k6, k7⟩ := gangPlace_spec hl hpl hp hneed hmay (hun.1 hu) hno
    refine ⟨u, m, k1, k2, k3, k4, k5, k6, fun d hd j k hk => ?_⟩
    have ht : u.tile (Fin.ofNat 512 (128 * d.val + k)) = _ := k7 d hd j k hk
    have hc : u.cox (Fin.ofNat 512 (128 * d.val + k)) = _ := congrArg Tile.cox ht
    dsimp only
    rw [ht, hc]
    refine ⟨by rw [← hid]; rfl, rfl, fun i => (wheelFor_toNat ..).trans ?_, rfl, rfl, rfl⟩
    have hlt := (h3 k (List.mem_of_getElem? hk)).1
    have hdie := l.die.isLt
    have hv : (placeTile l.die k).val = 128 * l.die.val + k := Nat.mod_eq_of_lt (by omega)
    rw [hv]
  · obtain ⟨h1, h2⟩ := s.startPoint_tile l g m t p
    obtain ⟨hiter, hbudget, hsp, htok, hv, hm⟩ := (s.tile t).allocated_fields l.record p s.gtime
    obtain ⟨hpc, htm, hie, hfault, hissue⟩ := (s.tile t).cox.allocated_fields l.record p s.gtime
    refine ⟨s.startPoint l g m t p, pointAllocate_starts hl hp hs hd hc hst hf (hun.1 hu) hi, ?_⟩
    rw [h1]
    refine ⟨hiter, hbudget, hsp, htok, hv, hm, hpc, htm, hie, hfault, hissue, fun r => Cox.allocated_xValid ..,
      fun j v hv hx1 hx8 hfirst => ?_, fun r hr hno => ?_, fun e => Tile.allocated_eng .., h2⟩
    · have hval : (Fin.ofNat 64 v.xreg).val = v.xreg := Nat.mod_eq_of_lt (by omega)
      refine (Cox.allocated_readX ..).trans ?_
      rw [hval, if_pos ⟨hx1, hx8⟩, LaunchRec.xInit_named hv hfirst]
    · refine (Cox.allocated_readX ..).trans ?_
      rw [LaunchRec.xInit_unnamed hno, ite_self]

end Sys2Proof.Machine
end

section
/-! ## Pre-emption: requests, the stop, and what is saved (R338, R340, R342, R392) -/

namespace Sys2Proof.Machine

open Sys2Proof

variable {s : State} {t : TileId} {l m : Launch} {g : Gang}

/-! ### Folds that reach one element -/

theorem foldl_reaches {α β : Type} {f : β → α → β} {P Q : β → Prop} {a : α} (hP : ∀ u x, P u → P (f u x))
    (hQ : ∀ u x, P u → Q u → Q (f u x)) (ha : ∀ u, P u → Q (f u a)) {as : List α} (h : a ∈ as) {b : β} (hb : P b) : Q (as.foldl f b) := by
  obtain ⟨pre, post, rfl⟩ := List.append_of_mem h
  have hpre : P (pre.foldl f b) := foldl_keeps (p := P) (f := f) hP hb
  rw [List.foldl_append, List.foldl_cons]
  have key : P (post.foldl f (f (pre.foldl f b) a)) ∧ Q (post.foldl f (f (pre.foldl f b) a)) :=
    foldl_keeps (p := fun u => P u ∧ Q u) (f := f) (fun u x hu => ⟨hP u x hu.1, hQ u x hu.1 hu.2⟩) ⟨hP _ _ hpre, ha _ hpre⟩
  exact key.2

/-- Steps that each act on a tile of their own: what becomes of a tile is what its own step makes of it. -/
theorem foldl_own_step {α : Type} {f : State → α → State} (key : α → TileId) (hne : ∀ u a v, key a ≠ v → (f u a).tile v = u.tile v)
    {as : List α} (hn : (as.map key).Nodup) {a : α} (h : a ∈ as) (s : State) :
    ∃ u, u.tile (key a) = s.tile (key a) ∧ (as.foldl f s).tile (key a) = (f u a).tile (key a) := by
  have hout (bs : List α) (u : State) (hb : ∀ b ∈ bs, key b ≠ key a) : (bs.foldl f u).tile (key a) = u.tile (key a) := by
    induction bs generalizing u with
    | nil => rfl
    | cons b bs ih =>
      obtain ⟨hb, hbs⟩ := List.forall_mem_cons.1 hb
      exact (ih _ hbs).trans (hne u b _ hb)
  obtain ⟨pre, post, rfl⟩ := List.append_of_mem h
  rw [List.map_append, List.map_cons, List.nodup_append, List.nodup_cons] at hn
  obtain ⟨-, ⟨hpost, -⟩, hpre⟩ := hn
  refine ⟨pre.foldl f s, hout pre s fun b hb => hpre _ (List.mem_map_of_mem hb) _ List.mem_cons_self, ?_⟩
  rw [List.foldl_append, List.foldl_cons]
  exact hout post _ fun b hb he => hpost (he ▸ List.mem_map_of_mem hb)

/-! ### A gang and its other half -/

theorem State.gangOf_spec (h : s.gangOf t = some (l, g)) :
    (∃ p, (s.tile t).place = some p ∧ p.launch = l.id) ∧ s.launch? l.id = some l ∧ l.gangs.find? (fun g => g.tiles.contains t) = some g := by
  unfold State.gangOf State.launchOf at h
  cases hp : (s.tile t).place with
  | none => rw [hp] at h; exact nomatch h
  | some p =>
    rw [hp] at h
    dsimp only at h
    cases hl : s.launch? p.launch with
    | none => rw [hl] at h; exact nomatch h
    | some k =>
      rw [hl] at h
      obtain ⟨h', hf, he⟩ := Option.map_eq_some_iff.1 h
      cases he
      have hid := State.launch?_id hl
      exact ⟨⟨p, rfl, hid.symm⟩, hid ▸ hl, hf⟩

theorem State.gangOf_eq {p : Place} (hp : (s.tile t).place = some p) (hl : s.launch? p.launch = some l)
    (hg : l.gangs.find? (fun g => g.tiles.contains t) = some g) : s.gangOf t = some (l, g) := by
  unfold State.gangOf State.launchOf
  rw [hp]
  dsimp only
  rw [hl]
  dsimp only
  rw [hg]
  rfl

theorem Launch.mem_partners (h : g ∈ l.gangs) : g ∈ l.partners g := by
  unfold Launch.partners
  split
  · exact List.mem_filter.2 ⟨h, by simp⟩
  · exact List.mem_singleton_self g

/-- A launch in which a gang and its other half are changed. -/
def Launch.changed (k l : Launch) (g : Gang) (f : Gang → Gang) : Launch :=
  { k with gangs := k.gangs.map fun h => if (l.partners g).any (fun p => p.tiles == h.tiles) then f h else h }

theorem State.launch?_modPartners {f : Gang → Gang} (h : s.launch? l.id = some m) :
    (s.modPartners l g f).launch? l.id = some (m.changed l g f) :=
  State.launch?_modLaunch (f := fun k => k.changed l g f) (fun _ => rfl) h

theorem State.launch?_modPartners_ne {f : Gang → Gang} {id : BitVec 32} (h : id ≠ l.id) :
    (s.modPartners l g f).launch? id = s.launch? id :=
  State.launch?_modLaunch_ne (f := fun k => k.changed l g f) (fun _ => rfl) h

theorem Launch.changed_mem {f : Gang → Gang} (hf : ∀ h, (f h).tiles = h.tiles) (hg : g ∈ l.gangs) {h : Gang}
    (hh : h ∈ (m.changed l g f).gangs) (ht : h.tiles = g.tiles) : ∃ k ∈ m.gangs, h = f k := by
  obtain ⟨k, hk, rfl⟩ := List.mem_map.1 hh
  have hany : (l.partners g).any (fun p => p.tiles == k.tiles) = true := by
    refine List.any_eq_true.2 ⟨g, Launch.mem_partners hg, ?_⟩
    by_cases hc : (l.partners g).any (fun p => p.tiles == k.tiles) = true
    · rw [if_pos hc, hf] at ht
      rw [ht, beq_self_eq_true]
    · rw [if_neg hc] at ht
      rw [ht, beq_self_eq_true]
  exact ⟨k, hk, if_pos hany⟩

/-! ### Requests (R392) -/

theorem preqRequest_spec {d : DieId} {i : Fin 128} (hr : s.sys.ready = true) (hg : s.gangOf (Fin.ofNat 512 (128 * d.val + i.val)) = some (l, g))
    (hp : g.preempted = false) (hq : g.requested = false) :
    ∃ u m, exec (.preqRequest d i) s = .next u ∧ u.launch? l.id = some m ∧ i.val ∈ (u.die d).preq ∧
      (∀ h ∈ m.gangs, h.tiles = g.tiles → h.requested = true) ∧ u.tiles = s.tiles := by
  obtain ⟨-, hl, hf⟩ := State.gangOf_spec hg
  let f (h : Gang) : Gang := { h with requested := true }
  let u := (s.modPartners l g f).modDie d fun x => { x with preq := i.val :: x.preq.filter fun j => j ≠ i.val }
  have hx : exec (.preqRequest d i) s = _ := execPreqRequest.eq_def ..
  dsimp only at hx
  rw [if_neg (by rw [hr]; decide), hg] at hx
  dsimp only at hx
  rw [if_neg (by rw [hp, hq]; decide)] at hx
  refine ⟨u, l.changed l g f, hx, State.launch?_modPartners hl, ?_, fun h hh ht => ?_, rfl⟩
  · rw [State.die_modDie_same]
    exact List.mem_cons_self
  · obtain ⟨k, -, rfl⟩ := Launch.changed_mem (f := f) (fun _ => rfl) (List.mem_of_find?_eq_some hf) hh ht
    rfl

/-- A gang but for its request. -/
def Gang.unasked (g : Gang) : Gang := { g with requested := false }

theorem Gang.unasked_eq {h : Gang} (e : h.unasked = g.unasked) : h.tiles = g.tiles ∧ h.preempted = g.preempted :=
  ⟨show h.unasked.tiles = g.unasked.tiles by rw [e], show h.unasked.preempted = g.unasked.preempted by rw [e]⟩

/-- A launch in which only requests may differ. -/
def Launch.SameButRequests (l m : Launch) : Prop := m.id = l.id ∧ m.gangs.map Gang.unasked = l.gangs.map Gang.unasked

/-- The withdrawal of one request. -/
def State.withdraw (d : DieId) (s : State) (i : Nat) : State :=
  match s.gangOf (Fin.ofNat 512 (128 * d.val + i)) with
  | some (l, g) => if g.preempted then s else s.modPartners l g Gang.unasked
  | none => s

/-- No gang on these tiles is asked for. -/
def Launch.Unasked (l : Launch) (tiles : List TileId) : Prop := ∀ h ∈ l.gangs, h.tiles = tiles → h.requested = false

theorem Launch.changed_unasked (k : Launch) : Launch.SameButRequests k (k.changed l g Gang.unasked) ∧
    ∀ tiles, k.Unasked tiles → (k.changed l g Gang.unasked).Unasked tiles := by
  refine ⟨⟨rfl, ?_⟩, fun tiles hk h hh ht => ?_⟩
  · rw [Launch.changed, List.map_map]
    refine List.map_congr_left fun h _ => ?_
    rw [Function.comp_apply]
    split <;> rfl
  · obtain ⟨b, hb, rfl⟩ := List.mem_map.1 hh
    by_cases hc : (l.partners g).any (fun p => p.tiles == b.tiles) = true
    · rw [if_pos hc]
      rfl
    · rw [if_neg hc] at ht ⊢
      exact hk b hb ht

theorem State.withdraw_spec (d : DieId) (i : Nat) (s : State) :
    (s.withdraw d i).tiles = s.tiles ∧ ∀ id k, s.launch? id = some k →
      ∃ m, (s.withdraw d i).launch? id = some m ∧ k.SameButRequests m ∧ ∀ tiles, k.Unasked tiles → m.Unasked tiles := by
  have hsame : s.tiles = s.tiles ∧ ∀ id k, s.launch? id = some k →
      ∃ m, s.launch? id = some m ∧ k.SameButRequests m ∧ ∀ tiles, k.Unasked tiles → m.Unasked tiles :=
    ⟨rfl, fun id k h => ⟨k, h, ⟨rfl, rfl⟩, fun _ h => h⟩⟩
  unfold State.withdraw
  split
  next l g hg =>
    split
    · exact hsame
    · refine ⟨rfl, fun id k hk => ?_⟩
      by_cases hid : id = l.id
      · subst hid
        exact ⟨_, State.launch?_modPartners hk, Launch.changed_unasked k⟩
      · exact ⟨k, (State.launch?_modPartners_ne hid).trans hk, ⟨rfl, rfl⟩, fun _ h => h⟩
  next => exact hsame

theorem Launch.SameButRequests.find {h : Gang} (hm : l.SameButRequests m) (hf : l.gangs.find? (fun g => g.tiles.contains t) = some h) :
    ∃ k, m.gangs.find? (fun g => g.tiles.contains t) = some k ∧ k.unasked = h.unasked := by
  have hfind (gs : List Gang) : (gs.map Gang.unasked).find? (fun g => g.tiles.contains t) = (gs.find? fun g => g.tiles.contains t).map Gang.unasked :=
    List.find?_map ..
  have he := (hfind m.gangs).symm.trans ((congrArg (List.find? fun g => g.tiles.contains t) hm.2).trans (hfind l.gangs))
  rw [hf] at he
  exact Option.map_eq_some_iff.1 he

theorem State.withdraw_same {d : DieId} {i : Nat} {p : Place} (ht : (s.tile (Fin.ofNat 512 (128 * d.val + i))).place = some p)
    (hl : s.launch? p.launch = some m) (hg : m.gangs.find? (fun g => g.tiles.contains (Fin.ofNat 512 (128 * d.val + i))) = some g)
    (hp : g.preempted = false) : ∃ k, (s.withdraw d i).launch? p.launch = some k ∧ k.Unasked g.tiles := by
  have hid := State.launch?_id hl
  unfold State.withdraw
  rw [State.gangOf_eq ht hl hg]
  dsimp only
  rw [hp, if_neg (by decide), ← hid]
  refine ⟨_, State.launch?_modPartners (hid ▸ hl), fun h hh ht => ?_⟩
  obtain ⟨k, -, rfl⟩ := Launch.changed_mem (f := Gang.unasked) (fun _ => rfl) (List.mem_of_find?_eq_some hg) hh ht
  rfl

theorem preqWithdraw_spec {d : DieId} {i : Nat} (hr : s.sys.ready = true) (hg : s.gangOf (Fin.ofNat 512 (128 * d.val + i)) = some (l, g))
    (hp : g.preempted = false) (hi : i ∈ (s.die d).preq) :
    ∃ u m, exec (.preqWithdraw d) s = .next u ∧ u.launch? l.id = some m ∧ (u.die d).preq = [] ∧
      (∀ h ∈ m.gangs, h.tiles = g.tiles → h.requested = false) ∧ u.tiles = s.tiles := by
  obtain ⟨⟨p, hplace, hpl⟩, hl, hf⟩ := State.gangOf_spec hg
  let P (u : State) : Prop := u.tiles = s.tiles ∧ ∃ m, u.launch? l.id = some m ∧ l.SameButRequests m
  let Q (u : State) : Prop := u.tiles = s.tiles ∧ ∃ m, u.launch? l.id = some m ∧ m.Unasked g.tiles
  have hP (u : State) (j : Nat) (hu : P u) : P (u.withdraw d j) := by
    obtain ⟨ht, m, hm, hs⟩ := hu
    obtain ⟨h1, h2⟩ := State.withdraw_spec d j u
    obtain ⟨k, hk, hks, -⟩ := h2 _ _ hm
    exact ⟨h1.trans ht, k, hk, hks.1.trans hs.1, hks.2.trans hs.2⟩
  have hQ (u : State) (j : Nat) (_ : P u) (hu : Q u) : Q (u.withdraw d j) := by
    obtain ⟨ht, m, hm, hs⟩ := hu
    obtain ⟨h1, h2⟩ := State.withdraw_spec d j u
    obtain ⟨k, hk, -, hks⟩ := h2 _ _ hm
    exact ⟨h1.trans ht, k, hk, hks _ hs⟩
  have ha (u : State) (hu : P u) : Q (u.withdraw d i) := by
    obtain ⟨ht, m, hm, hs⟩ := hu
    obtain ⟨b, hb, hbg⟩ := hs.find hf
    obtain ⟨htiles, hpre⟩ := Gang.unasked_eq hbg
    rw [hp] at hpre
    obtain ⟨k, hk, hno⟩ := State.withdraw_same (p := p) ((congrArg Tile.place (State.tile_of_tiles ht _)).trans hplace) (hpl ▸ hm) hb hpre
    exact ⟨(State.withdraw_spec d i u).1.trans ht, k, hpl ▸ hk, htiles ▸ hno⟩
  obtain ⟨htiles, m, hm, hno⟩ : Q ((s.die d).preq.foldl (State.withdraw d) s) :=
    foldl_reaches (P := P) (Q := Q) hP hQ ha hi ⟨rfl, l, hl, rfl, rfl⟩
  refine ⟨((s.die d).preq.foldl (State.withdraw d) s).modDie d fun x => { x with preq := [] }, m, ?_, hm, ?_, hno, htiles⟩
  · have hx : exec (.preqWithdraw d) s = _ := execPreqWithdraw.eq_def ..
    exact hx.trans (if_neg (by rw [hr]; decide))
  · rw [State.die_modDie_same]

/-! ### The stop (R340) -/

/-- `y` is the member `x` stopped at the head of its region. -/
def Tile.StopsAs (x y : Tile) : Prop :=
  (y.iter = x.iter ∧ y.sp = x.sp ∧ y.cox.stopped = true ∧ y.cox.pc = x.cox.head ∧ y.cox.tm = x.cox.tm ∧
    (⟨y.cox.x, y.cox.xv, y.cox.p, y.cox.pv⟩ : Checkpoint) = x.cox.checkpoint ∧ (y.eng .v).stopped = true ∧ (y.eng .m).stopped = true) ∧
  y.cox.head = x.cox.head ∧ y.cox.checkpoint = x.cox.checkpoint

theorem Tile.stop_eng (x : Tile) : (x.stop.eng .v).stopped = true ∧ (x.stop.eng .m).stopped = true := by
  unfold Tile.stop
  refine ⟨?_, ?_⟩
  · rw [Tile.eng_modEng_ne _ _ _ _ (by decide), Tile.eng_modEng_same]
  · rw [Tile.eng_modEng_same]

theorem Tile.stopsAs_stop (x : Tile) : x.StopsAs x.stop := by
  obtain ⟨hv, hm⟩ := x.stop_eng
  exact ⟨⟨rfl, rfl, rfl, rfl, rfl, rfl, hv, hm⟩, rfl, rfl⟩

theorem Tile.StopsAs.again {x y : Tile} (h : x.StopsAs y) : x.StopsAs y.stop := by
  obtain ⟨⟨hi, hs, -, -, ht, -, -, -⟩, hh, hc⟩ := h
  obtain ⟨hv, hm⟩ := y.stop_eng
  exact ⟨⟨hi, hs, rfl, hh, ht, hc, hv, hm⟩, hh, hc⟩

/-- A member that runs an iteration stops. -/
def State.stopMember (s : State) (t : TileId) : State := if (s.tile t).live then s.modTile t Tile.stop else s

theorem State.stopMembers_tile {ts : List TileId} {v : TileId} (hv : v ∈ ts) {u : State} (hu : u.tile v = s.tile v)
    (hl : (s.tile v).live = true) : (s.tile v).StopsAs ((ts.foldl State.stopMember u).tile v) := by
  have hown (w : State) (hw : w.tile v = s.tile v ∨ (s.tile v).StopsAs (w.tile v)) : (s.tile v).StopsAs ((w.stopMember v).tile v) := by
    have hlive : (w.tile v).live = true := by
      rcases hw with hw | hw
      · rw [hw, hl]
      · exact (congrArg Option.isSome hw.1.1).trans hl
    rw [State.stopMember, if_pos hlive, State.tile_modTile_same]
    rcases hw with hw | hw
    · rw [hw]
      exact Tile.stopsAs_stop _
    · exact hw.again
  have hother (w : State) (t : TileId) (ht : t ≠ v) : (w.stopMember t).tile v = w.tile v := by
    unfold State.stopMember
    split
    · exact State.tile_modTile_ne _ _ _ _ ht.symm
    · rfl
  refine foldl_reaches (P := fun w : State => w.tile v = s.tile v ∨ (s.tile v).StopsAs (w.tile v))
    (Q := fun w : State => (s.tile v).StopsAs (w.tile v)) (f := State.stopMember) (fun w t hw => ?_) (fun w t hw hq => ?_) hown hv (.inl hu)
  · by_cases ht : t = v
    · exact .inr (ht ▸ hown w hw)
    · rwa [hother w t ht]
  · by_cases ht : t = v
    · exact ht ▸ hown w hw
    · rwa [hother w t ht]

theorem preempt_stops (hp : s.phase = .starting) (hg : s.gangOf t = some (l, g)) (hs : s.stopsNow l g = true) :
    ∃ u, exec (.preempt t) s = .next u ∧ ∀ v ∈ g.tiles, (s.tile v).live = true → (s.tile v).StopsAs (u.tile v) := by
  obtain ⟨-, -, hf⟩ := State.gangOf_spec hg
  have hx : exec (.preempt t) s = _ := execPreempt.eq_def ..
  rw [hg] at hx
  dsimp only at hx
  rw [if_neg (by simp [hp]), if_pos hs] at hx
  refine ⟨_, hx, fun v hv hl => ?_⟩
  have hmem : v ∈ (l.partners g).flatMap Gang.tiles := List.mem_flatMap.2 ⟨g, Launch.mem_partners (List.mem_of_find?_eq_some hf), hv⟩
  rw [State.tile_of_tiles (State.tiles_foldl (f := fun u t => u.modDie (dieOf t) fun x => { x with preq := x.preq.filter fun j => j ≠ onDie t })
    (fun _ _ => rfl) _ _)]
  exact State.stopMembers_tile hmem rfl hl

/-! ### The records (R342) -/

/-- A member whose record has been written. -/
def Tile.saved (x : Tile) (c : SavedCtx) : Tile :=
  { x.abandonEngines with
    cox := x.cox.abandon, tokens := Tile.reset.tokens, v := VState.reset, m := MState.reset,
    portage := { x.portage with buffer := [] }, place := none, iter := none, replies := [], arrived := [],
    contexts := x.contexts ++ [c] }

theorem Tile.saved_fields (x : Tile) (c : SavedCtx) :
    (x.saved c).place = none ∧ (x.saved c).iter = none ∧ (x.saved c).contexts = x.contexts ++ [c] := by
  rw [Tile.saved]
  exact ⟨rfl, rfl, rfl⟩

theorem State.saveMember_some (s : State) (t : TileId) (c : SavedCtx) :
    ∃ w : State, w.tiles = s.tiles ∧ ∃ f, s.saveMember t (some c) = ((w.dropLease t).modCrew (crewOf t) f).modTile t fun x => x.saved c := by
  refine ⟨s.writeRecord t c, by rw [State.writeRecord, State.modDev_tiles], ?_⟩
  rw [State.saveMember]
  exact ⟨_, rfl⟩

theorem State.dropLease_ne (s : State) (t : TileId) {v : TileId} (h : v ≠ t) : (s.dropLease t).tile v = s.tile v :=
  (State.tile_of_tiles (s := s.modTile t fun x => { x with m := { x.m with lstate := .none } }) rfl v).trans (State.tile_modTile_ne s t v _ h)

theorem State.dropLease_tile (s : State) (t : TileId) :
    (s.dropLease t).tile t = { s.tile t with m := { (s.tile t).m with lstate := .none } } :=
  (State.tile_of_tiles (s := s.modTile t fun x => { x with m := { x.m with lstate := .none } }) rfl t).trans (State.tile_modTile_same ..)

theorem State.saveMember_ne (s : State) (t : TileId) (c : Option SavedCtx) {v : TileId} (h : t ≠ v) :
    (s.saveMember t c).tile v = s.tile v := by
  cases c with
  | none => exact State.tile_modTile_ne _ _ _ _ h.symm
  | some c =>
    obtain ⟨w, hw, f, he⟩ := s.saveMember_some t c
    rw [he, State.tile_modTile_ne _ _ _ _ h.symm, State.tile_of_tiles (State.modCrew_tiles ..), State.dropLease_ne w t h.symm,
      State.tile_of_tiles hw]

theorem State.saveMember_none (s : State) (t : TileId) : ((s.saveMember t none).tile t).place = none := by
  rw [State.saveMember, State.tile_modTile_same]

theorem State.saveMember_tile (s : State) (t : TileId) (c : SavedCtx) :
    let y := (s.saveMember t (some c)).tile t
    y.place = none ∧ y.iter = none ∧ y.contexts = (s.tile t).contexts ++ [c] := by
  obtain ⟨w, hw, f, he⟩ := s.saveMember_some t c
  have hcontexts : ((w.dropLease t).tile t).contexts = (s.tile t).contexts := by
    rw [State.dropLease_tile, State.tile_of_tiles hw]
  rw [he, State.tile_modTile_same, State.tile_of_tiles (State.modCrew_tiles ..), ← hcontexts]
  exact Tile.saved_fields _ c

theorem State.saving_spec {cut : Nat} {p : Place} {n : Nat} (hp : (s.tile t).place = some p) (hi : (s.tile t).iter = some n) :
    ∃ c, s.saving cut t = some c ∧ c.launch = p.launch ∧ c.at' = cut ∧ c.place = p ∧ c.iter = n ∧ c.cox = (s.tile t).cox ∧
      c.sp = (s.tile t).sp ∧ c.tokens = (s.tile t).tokens := by
  have h := State.saving.eq_def s cut t
  rw [hp, hi] at h
  exact ⟨_, h, rfl, rfl, rfl, rfl, rfl, rfl, rfl⟩

theorem preempt_saves (hp : s.phase = .starting) (hg : s.gangOf t = some (l, g)) (hs : s.savesNow l g = true)
    (hn : ((l.partners g).flatMap Gang.tiles).Nodup) :
    ∃ u, exec (.preempt t) s = .next u ∧ ∀ v ∈ g.tiles, ∃ w : State, w.tile v = s.tile v ∧ u.tile v = (w.saveMember v (s.saving g.cut v)).tile v := by
  obtain ⟨-, -, hf⟩ := State.gangOf_spec hg
  have hpre : g.preempted = true := by
    rw [State.savesNow, Bool.and_eq_true, Bool.and_eq_true] at hs
    exact hs.1.2
  have hstop : s.stopsNow l g = false := by rw [State.stopsNow, State.asked, hpre]; simp
  have hx : exec (.preempt t) s = _ := execPreempt.eq_def ..
  rw [hg] at hx
  dsimp only at hx
  rw [if_neg (by simp [hp]), hstop, if_neg (by decide), if_pos hs] at hx
  refine ⟨_, hx, fun v hv => ?_⟩
  have hmem : v ∈ (l.partners g).flatMap Gang.tiles := List.mem_flatMap.2 ⟨g, Launch.mem_partners (List.mem_of_find?_eq_some hf), hv⟩
  have hkeys : (((l.partners g).flatMap Gang.tiles).map fun t => (t, s.saving g.cut t)).map Prod.fst = (l.partners g).flatMap Gang.tiles := by
    rw [List.map_map]
    exact List.map_id _
  exact foldl_own_step (f := fun s c => State.saveMember s c.1 c.2) Prod.fst (fun u a _ h => State.saveMember_ne u a.1 a.2 h)
    (hkeys ▸ hn) (List.mem_map_of_mem hmem) s

end Sys2Proof.Machine
end

section
/-! ## Pre-emption: resumption (R312, R341, R343) -/

namespace Sys2Proof.Machine

open Sys2Proof

variable {s : State} {t : TileId} {l : Launch} {g : Gang}

/-! ### What a context brings back -/

/-- `y` is a tile on which the context `c` runs again. -/
def SavedCtx.RunsOn (c : SavedCtx) (y : Tile) : Prop :=
  (y.cox.x = c.cox.x ∧ y.cox.xv = c.cox.xv ∧ y.cox.p = c.cox.p ∧ y.cox.pv = c.cox.pv ∧ y.cox.pc = c.cox.pc ∧
    y.cox.rf = c.cox.rf ∧ y.cox.tm = c.cox.tm ∧ y.cox.stopped = false) ∧
  (y.sp = c.sp ∧ y.v = c.v ∧ y.tokens = c.tokens ∧ y.iter = some c.iter ∧ y.budget = c.budget ∧ y.place = some c.place ∧
    y.replies = c.replies) ∧
  ∀ e, (y.eng e).queue.map Entry.seq = (c.engines[e.ix]).queue.map Entry.seq ∧ (y.eng e).qseq = (c.engines[e.ix]).qseq ∧
    (e = .v ∨ e = .m → (y.eng e).queue = (c.engines[e.ix]).queue)

theorem restartEntries_seq (gone : List PCmd) (first : Bool) (ns : List Entry) :
    (restartEntries gone first ns).map Entry.seq = ns.map Entry.seq := by
  induction ns generalizing first with
  | nil => rfl
  | cons n ns ih =>
    rw [restartEntries]
    split
    · exact congrArg (n.seq :: ·) (ih _)
    · exact congrArg (n.seq :: ·) (ih _)

theorem Tile.reexpand_queue (x : Tile) (e : Eng) :
    ((x.reexpand e).eng e).queue.map Entry.seq = (x.eng e).queue.map Entry.seq ∧ ((x.reexpand e).eng e).qseq = (x.eng e).qseq := by
  unfold Tile.reexpand
  rw [Tile.eng_modEng_same]
  exact ⟨restartEntries_seq .., rfl⟩

variable {c : SavedCtx} {y : Tile}

theorem SavedCtx.RunsOn.reexpand (h : c.RunsOn y) {e : Eng} (he : e ≠ .v ∧ e ≠ .m) : c.RunsOn (y.reexpand e) := by
  obtain ⟨hcox, htile, heng⟩ := h
  refine ⟨hcox, htile, fun f => ?_⟩
  by_cases hf : f = e
  · subst hf
    obtain ⟨hseq, hqseq, -⟩ := heng f
    obtain ⟨h1, h2⟩ := y.reexpand_queue f
    exact ⟨h1.trans hseq, h2.trans hqseq, fun hvm => absurd hvm (not_or.2 he)⟩
  · rw [Tile.reexpand_ne _ hf]
    exact heng f

theorem SavedCtx.RunsOn.expandStreams (h : c.RunsOn y) : c.RunsOn y.expandStreams := by
  have step (x : Tile) (e : Eng) (he : e ≠ .v ∧ e ≠ .m) (hx : c.RunsOn x) : c.RunsOn (if (x.eng e).fault.isSome then x else x.reexpand e) := by
    split
    · exact hx
    · exact hx.reexpand he
  exact step _ .s (by decide) (step _ .l (by decide) h)

/-- A tile as a context leaves it, before L and S expand their entries again. -/
def Tile.refilled (x : Tile) (c : SavedCtx) (now : Nat) (arrived : List Nat) : Tile :=
  { x with
    cox := { c.cox with imem := x.cox.imem, nextReq := x.cox.nextReq, stopped := false, nextIssue := now + 1,
                        tint := x.cox.tint },
    engines := Vector.ofFn fun i =>
      { c.engines[i] with store := x.engines[i].store, dir := x.engines[i].dir,
                          stopped := c.engines[i].stopped && c.engines[i].fault.isSome },
    tokens := c.tokens, v := c.v, m := c.m,
    portage := { c.portage with nextId := max x.portage.nextId c.portage.nextId,
                                order := max x.portage.order c.portage.order, owner := [] },
    sp := c.sp, place := some c.place, iter := some c.iter, budget := c.budget, since := x.cox.nextReq, arrived := arrived,
    replies := c.replies }

theorem Tile.refilled_eng (x : Tile) (c : SavedCtx) (now : Nat) (arrived : List Nat) (e : Eng) :
    ((x.refilled c now arrived).eng e).queue = (c.engines[e.ix]).queue ∧ ((x.refilled c now arrived).eng e).qseq = (c.engines[e.ix]).qseq := by
  have h : (x.refilled c now arrived).eng e = { c.engines[e.ix] with
      store := x.engines[e.ix].store, dir := x.engines[e.ix].dir,
      stopped := c.engines[e.ix].stopped && c.engines[e.ix].fault.isSome } := by
    rw [Tile.eng, Tile.refilled, Fin.getElem_fin, Vector.getElem_ofFn]
  rw [h]
  exact ⟨rfl, rfl⟩

theorem Tile.refilled_runsOn (x : Tile) (c : SavedCtx) (now : Nat) (arrived : List Nat) : c.RunsOn (x.refilled c now arrived) := by
  refine ⟨?_, ?_, fun e => ?_⟩
  · rw [Tile.refilled]
    exact ⟨rfl, rfl, rfl, rfl, rfl, rfl, rfl, rfl⟩
  · rw [Tile.refilled]
    exact ⟨rfl, rfl, rfl, rfl, rfl, rfl, rfl⟩
  · obtain ⟨hq, hs⟩ := x.refilled_eng c now arrived e
    exact ⟨congrArg (List.map Entry.seq) hq, hs, fun _ => hq⟩

theorem Tile.restored_runsOn (x : Tile) (c : SavedCtx) (now : Nat) (arrived : List Nat) : c.RunsOn (x.restored c now arrived) :=
  (x.refilled_runsOn c now arrived).expandStreams

/-! ### A member resumes -/

theorem Tile.loadImage_contexts (x : Tile) (h : Word) (i : Image) : (x.loadImage h i).contexts = x.contexts := rfl

theorem State.loadMember_contexts (s : State) (l : Launch) (t : TileId) : ((s.loadMember l t).tile t).contexts = (s.tile t).contexts := by
  unfold State.loadMember
  split
  · rfl
  · split
    · rw [State.tile_of_tiles (State.modDev_tiles ..), State.tile_modTile_same]
      exact Tile.loadImage_contexts ..
    · rfl

theorem State.containTile_ne (s : State) (t : TileId) (code : Byte) (a : Option (Nat × Word)) {v : TileId} (h : v ≠ t) :
    (s.containTile t code a).tile v = s.tile v := by
  rw [State.containTile, State.containUnit, State.chargeMc]
  split
  · exact State.tile_modTile_ne _ _ _ _ h
  · rfl

theorem State.containTile_keeps (s : State) (t : TileId) (code : Byte) (a : Option (Nat × Word)) :
    (c.RunsOn (s.tile t) → c.RunsOn ((s.containTile t code a).tile t)) ∧ ((s.containTile t code a).tile t).contexts = (s.tile t).contexts := by
  rw [State.containTile, State.containUnit, State.chargeMc]
  split
  · rw [State.modCox, State.tile_modTile_same]
    exact ⟨fun h => h, rfl⟩
  · exact ⟨fun h => h, rfl⟩

/-- A member's tile with its place and its image, its context still to come. -/
def State.seatMember (s : State) (l : Launch) (g : Gang) (m : Nat) (t : TileId) : State :=
  ((s.placeMember l g.tiles g.delay m t).loadMember l t).modCox t fun c =>
    { c with wheel := wheelFor l.record m ((g.tiles.map fun u => Fin.ofNat 512 (128 * l.die.val + onDie u) : List TileId).getD m t) }

theorem State.seatMember_ne (s : State) (l : Launch) (g : Gang) (m : Nat) {v : TileId} (h : v ≠ t) :
    (s.seatMember l g m t).tile v = s.tile v := by
  rw [State.seatMember, State.modCox, State.tile_modTile_ne _ _ _ _ h, State.loadMember_tile_ne h, State.placeMember,
    State.tile_modTile_ne _ _ _ _ h]

theorem State.seatMember_contexts (s : State) (l : Launch) (g : Gang) (m : Nat) (t : TileId) :
    ((s.seatMember l g m t).tile t).contexts = (s.tile t).contexts := by
  rw [State.seatMember, State.modCox, State.tile_modTile_same]
  refine (State.loadMember_contexts ..).trans ?_
  rw [State.placeMember, State.tile_modTile_same]

/-- The tile of a member after its context has come back. -/
theorem State.resumeMember_cases (s : State) (l : Launch) (g : Gang) (m : Nat) (t : TileId) :
    s.savedOf l g t = none ∧ s.resumeMember l g m t = s.seatMember l g m t ∨
    ∃ j c still f, s.savedOf l g t = some (j, c) ∧ let z := s.seatMember l g m t
      let w := (z.modTile t fun x => { x.restored c z.gtime still with contexts := x.contexts.eraseIdx j }).modCrew (crewOf t) f
      s.resumeMember l g m t = w ∨ s.resumeMember l g m t = w.containTile t cMCSRAM none := by
  rw [State.resumeMember]
  cases hs : s.savedOf l g t with
  | none => exact .inl ⟨rfl, rfl⟩
  | some jc =>
    obtain ⟨j, c⟩ := jc
    refine .inr ⟨j, c, c.arrived.filter fun e => (s.seatMember l g m t).inCollective t e, fun y => y.restored c, rfl, ?_⟩
    dsimp only
    split
    · exact .inl rfl
    · exact .inr rfl

theorem State.resumeMember_ne (s : State) (l : Launch) (g : Gang) (m : Nat) {v : TileId} (h : t ≠ v) :
    (s.resumeMember l g m t).tile v = s.tile v := by
  have hseat := s.seatMember_ne l g m h.symm
  rcases s.resumeMember_cases l g m t with ⟨-, he⟩ | ⟨j, c, still, f, -, he | he⟩
  · rw [he, hseat]
  · rw [he, State.tile_of_tiles (State.modCrew_tiles ..), State.tile_modTile_ne _ _ _ _ h.symm, hseat]
  · rw [he, State.containTile_ne _ _ _ _ h.symm, State.tile_of_tiles (State.modCrew_tiles ..), State.tile_modTile_ne _ _ _ _ h.symm, hseat]

theorem State.resumeMember_tile {m j : Nat} (h : s.savedOf l g t = some (j, c)) :
    c.RunsOn ((s.resumeMember l g m t).tile t) ∧ ((s.resumeMember l g m t).tile t).contexts = (s.tile t).contexts.eraseIdx j := by
  rcases s.resumeMember_cases l g m t with ⟨hno, -⟩ | ⟨j', c', still, f, hs, he⟩
  · rw [h] at hno
    exact nomatch hno
  rw [h] at hs
  cases hs
  let z := s.seatMember l g m t
  let w := (z.modTile t fun x => { x.restored c z.gtime still with contexts := x.contexts.eraseIdx j }).modCrew (crewOf t) f
  have hw : w.tile t = { (z.tile t).restored c z.gtime still with contexts := (z.tile t).contexts.eraseIdx j } :=
    (State.tile_of_tiles (State.modCrew_tiles ..) t).trans (State.tile_modTile_same ..)
  have hruns : c.RunsOn (w.tile t) := by
    rw [hw]
    exact Tile.restored_runsOn ..
  have hctx : (w.tile t).contexts = (s.tile t).contexts.eraseIdx j := by
    rw [hw]
    exact congrArg (List.eraseIdx · j) (State.seatMember_contexts ..)
  rcases he with he | he
  · rw [he]
    exact ⟨hruns, hctx⟩
  · obtain ⟨h1, h2⟩ := State.containTile_keeps (c := c) w t cMCSRAM none
    rw [he]
    exact ⟨h1 hruns, h2.trans hctx⟩

/-! ### Which gang resumes (R312) -/

theorem State.before_asymm {a b : Launch} (h : s.before a b = true) : s.before b a = false := by
  rw [State.before, Bool.or_eq_true, decide_eq_true_iff, Bool.and_eq_true, beq_iff_eq, decide_eq_true_iff] at h
  rw [State.before, Bool.or_eq_false_iff, decide_eq_false_iff_not, Bool.and_eq_false_iff, beq_eq_false_iff_ne, decide_eq_false_iff_not]
  omega

/-- R341: the search for the gang that resumes first. -/
def State.earlier (s : State) (m : Option (Launch × Gang)) (x : Launch × Gang) : Option (Launch × Gang) :=
  match m with
  | none => some x
  | some y => if s.before x.1 y.1 then some x else some y

/-- `a` goes before `x`, or is `x`. -/
def State.Leads (s : State) (a x : Launch × Gang) : Prop := x = a ∨ s.before a.1 x.1 = true

theorem State.earlier_lead {a y : Launch × Gang} (h : s.Leads a y) : s.earlier (some y) a = some a := by
  rw [State.earlier]
  rcases h with rfl | h
  · exact ite_self _
  · exact if_pos h

theorem State.earlier_stays {a x : Launch × Gang} (h : s.Leads a x) : s.earlier (some a) x = some a := by
  rw [State.earlier]
  rcases h with rfl | h
  · exact ite_self _
  · rw [s.before_asymm h, if_neg (by decide)]

theorem State.earlier_cases (s : State) (m : Option (Launch × Gang)) (x : Launch × Gang) : s.earlier m x = some x ∨ s.earlier m x = m := by
  cases m with
  | none => exact .inl rfl
  | some y =>
    rw [State.earlier]
    split
    · exact .inl rfl
    · exact .inr rfl

/-- The gang that goes before every other of a list is the one that the search finds. -/
theorem State.earlier_foldl {xs : List (Launch × Gang)} {a : Launch × Gang} (ha : a ∈ xs) (h : ∀ x ∈ xs, s.Leads a x) :
    xs.foldl s.earlier none = some a := by
  have hstays (ys : List (Launch × Gang)) (hy : ∀ x ∈ ys, s.Leads a x) : ys.foldl s.earlier (some a) = some a := by
    induction ys with
    | nil => rfl
    | cons y ys ih =>
      obtain ⟨hy, hys⟩ := List.forall_mem_cons.1 hy
      rw [List.foldl_cons, State.earlier_stays hy, ih hys]
  have hpre (ys : List (Launch × Gang)) (hy : ∀ x ∈ ys, s.Leads a x) (m : Option (Launch × Gang)) (hm : ∀ y, m = some y → s.Leads a y) :
      ∀ y, ys.foldl s.earlier m = some y → s.Leads a y := by
    induction ys generalizing m with
    | nil => exact hm
    | cons y ys ih =>
      obtain ⟨hy, hys⟩ := List.forall_mem_cons.1 hy
      refine ih hys _ fun x hx => ?_
      rcases s.earlier_cases m y with he | he
      · rw [he] at hx
        cases hx
        exact hy
      · exact hm x (he ▸ hx)
  obtain ⟨pre, post, rfl⟩ := List.append_of_mem ha
  have hmid : s.earlier (pre.foldl s.earlier none) a = some a := by
    cases hp : pre.foldl s.earlier none with
    | none => rfl
    | some y =>
      exact State.earlier_lead (hpre pre (fun x hx => h x (List.mem_append_left _ hx)) none (fun _ hn => nomatch hn) y hp)
  rw [List.foldl_append, List.foldl_cons, hmid]
  exact hstays post fun x hx => h x (List.mem_append_right _ (List.mem_cons_of_mem _ hx))

theorem State.toResume_first (hr : s.resumable l g = true) (hl : l ∈ s.launches) (hg : g ∈ l.gangs) (ht : t ∈ g.tiles)
    (h : ∀ k ∈ s.launches, ∀ h ∈ k.gangs, t ∈ h.tiles → s.resumable k h = true → (k, h) = (l, g) ∨ s.before l k = true) :
    s.toResume t = some (l, g) := by
  have hmem (k : Launch) (h : Gang) : (k, h) ∈ (s.launches.flatMap fun l =>
      (l.gangs.filter fun g => g.tiles.contains t && s.resumable l g).map fun g => (l, g)) ↔
      k ∈ s.launches ∧ h ∈ k.gangs ∧ t ∈ h.tiles ∧ s.resumable k h = true := by
    simp only [List.mem_flatMap, List.mem_map, List.mem_filter, Bool.and_eq_true, List.contains_iff_mem, Prod.mk.injEq]
    constructor
    · rintro ⟨k', hk, h', hh, rfl, rfl⟩
      exact ⟨hk, hh⟩
    · rintro ⟨hk, hh⟩
      exact ⟨k, hk, h, hh, rfl, rfl⟩
  refine State.earlier_foldl ((hmem l g).2 ⟨hl, hg, ht, hr⟩) fun x hx => ?_
  obtain ⟨hk, hh, hth, hrh⟩ := (hmem x.1 x.2).1 hx
  exact h x.1 hk x.2 hh hth hrh

/-- R341, R343: what each member of the gang that resumes gets back. -/
theorem preemptResume_spec (hp : s.phase = .running) (hr : s.toResume t = some (l, g)) (hg : g ∈ l.gangs)
    (hn : ((l.partners g).flatMap Gang.tiles).Nodup) :
    ∃ u, exec (.preemptResume t) s = .next u ∧ ∀ v ∈ g.tiles, ∀ j c, s.savedOf l g v = some (j, c) →
      c.RunsOn (u.tile v) ∧ (u.tile v).contexts = (s.tile v).contexts.eraseIdx j := by
  have hx : exec (.preemptResume t) s = _ := execPreemptResume.eq_def ..
  rw [hr] at hx
  dsimp only at hx
  rw [if_pos hp] at hx
  refine ⟨_, hx, fun v hv j c hc => ?_⟩
  let members := (l.partners g).flatMap fun h => h.tiles.zipIdx.map fun x => (h, x)
  let step (s : State) (x : Gang × TileId × Nat) : State := s.resumeMember l x.1 x.2.2 x.2.1
  have hfold : (l.partners g).foldl (fun s h => h.tiles.zipIdx.foldl (fun s x => s.resumeMember l h x.2 x.1) s) s = members.foldl step s := by
    rw [List.foldl_flatMap]
    simp only [List.foldl_map]
    rfl
  have hkeys : members.map (fun x => x.2.1) = (l.partners g).flatMap Gang.tiles := by
    rw [List.map_flatMap]
    refine List.flatMap_congr fun h _ => ?_
    rw [List.map_map]
    exact List.zipIdx_map_fst ..
  obtain ⟨m, hm⟩ : ∃ m, (v, m) ∈ g.tiles.zipIdx := by
    obtain ⟨m, hm, he⟩ := List.mem_iff_getElem.1 hv
    exact ⟨m, List.mem_zipIdx_iff_getElem?.2 (List.getElem?_eq_some_iff.2 ⟨hm, he⟩)⟩
  have hmem : (g, v, m) ∈ members := List.mem_flatMap.2 ⟨g, Launch.mem_partners hg, List.mem_map_of_mem hm⟩
  obtain ⟨w, hw, hu⟩ := foldl_own_step (f := step) (fun x => x.2.1) (fun u a _ h => State.resumeMember_ne u l a.1 a.2.2 h) (hkeys ▸ hn) hmem s
  have hsaved : w.savedOf l g v = some (j, c) := by
    rw [State.savedOf, hw]
    exact hc
  obtain ⟨h1, h2⟩ := State.resumeMember_tile (m := m) hsaved
  have huv : (members.foldl step s).tile v = (w.resumeMember l g m v).tile v := hu
  have hpart (z : State) (f : Gang → Gang) : (z.modPartners l g f).tile v = z.tile v := rfl
  rw [hpart, hfold, huv]
  exact ⟨h1, h2.trans (congrArg (fun x : Tile => x.contexts.eraseIdx j) hw)⟩

/-- Settles O49: requests (`preqRequest_spec`, `preqWithdraw_spec`), the stop and the records at the boundary
(`preempt_stops`, `preempt_saves`), and what resumes (`State.toResume_first`, `preemptResume_spec`). -/
theorem preemption : Obligations.Preemption := by
  intro s l g
  refine ⟨fun d i hr hg hp => ⟨preqRequest_spec hr hg hp, preqWithdraw_spec hr hg hp⟩,
    fun t hp hg => ⟨fun hs => ?_, fun hs hn => ?_⟩, fun t hp hr hn hl hg ht hfirst => ?_⟩
  · obtain ⟨u, hx, hu⟩ := preempt_stops hp hg hs
    exact ⟨u, hx, fun v hv hlive => (hu v hv hlive).1⟩
  · obtain ⟨u, hx, hu⟩ := preempt_saves hp hg hs hn
    refine ⟨u, hx, fun v hv => ?_⟩
    obtain ⟨w, hw, he⟩ := hu v hv
    rw [he]
    refine ⟨?_, fun p n hplace hiter => ?_⟩
    · cases s.saving g.cut v with
      | none => exact w.saveMember_none v
      | some c => exact (w.saveMember_tile v c).1
    · obtain ⟨c, hc, hfields⟩ := State.saving_spec (cut := g.cut) hplace hiter
      obtain ⟨-, h2, h3⟩ := w.saveMember_tile v c
      rw [hc]
      exact ⟨h2, c, rfl, h3.trans (congrArg (fun x : Tile => x.contexts ++ [c]) hw), hfields⟩
  · obtain ⟨u, hx, hu⟩ := preemptResume_spec hp (State.toResume_first hr hl hg ht hfirst) hg hn
    refine ⟨u, hx, fun v hv j c hc => ?_⟩
    obtain ⟨⟨⟨h1, h2, h3, h4, h5, h6, h7, h8⟩, ⟨k1, k2, k3, k4, k5, k6, k7⟩, heng⟩, hctx⟩ := hu v hv j c hc
    exact ⟨h1, h2, h3, h4, h5, h6, h7, h8, k1, k2, k3, k4, k5, k6, heng, k7, hctx⟩

end Sys2Proof.Machine
end
